-- ==== Sys2Proof/Word.lean ====
section
/-!
DEFINITION. The word types of the module, the names the manual counts (engines, rails, requesters, ports), and the
records that a command of the table carries whole (a flit header, a message, a bank request).
-/

namespace Sys2Proof

/-- A byte. -/
abbrev Byte := BitVec 8
/-- A 32 B column word or tray word (R17, R54). -/
abbrev ColWord := BitVec 256
/-- A 64 B line of the aperture, of CXL.mem and of the records (R326, R340). -/
abbrev Line := BitVec 512
/-- A 288-bit code word: 256 data bits below 32 check bits (R377). -/
abbrev CodeWord := BitVec 288
/-- A register or access word of 8 B (R479). -/
abbrev Word64 := BitVec 64
/-- An FP32 bit pattern (R138). -/
abbrev F32 := BitVec 32

/-- Pot index n = 8 × row + column (R15). -/
abbrev PotIx := BitVec 5
/-- Group number 4 × DIE + channel (R25). -/
abbrev GroupIx := BitVec 6
/-- LU index 66 × die + physical bank (R134). -/
abbrev LuIx := BitVec 11

/-- Module grades (R2). -/
inductive Grade where
  | a | b | m
  deriving DecidableEq, Repr

/-- Steppings (R6). -/
inductive Stepping where
  | a0 | a1 | b0
  deriving DecidableEq, Repr

/-- The three engines with sequencers (R59). -/
inductive Eng where
  | mxe | vxe | sfe
  deriving DecidableEq, Repr

/-- The switched rail groups (R525). -/
inductive Rail where
  | caddy
  | hub
  | pot (n : PotIx)
  | spt (row : BitVec 2)
  deriving DecidableEq, Repr

/-- Who reaches BAR0 (R481). -/
inductive Requester where
  | hubCore (core : BitVec 2)
  | brewer (pot : PotIx) (core : BitVec 3)
  | host
  | sideband
  deriving DecidableEq, Repr

/-- Bank scheduler ports (R192). -/
inductive BksPort where
  | rt | eng | sfe | lu | pat
  deriving DecidableEq, Repr

/-- Traffic classes (R386), numbered as PAT_ERRLOG CLASS numbers them. -/
inductive Traffic where
  | fetch | ucode | core | xfer | tensor | host | move
  deriving DecidableEq, Repr

/-- Permit classes in the cyclic order of R411. -/
inductive PermitClass where
  | leaf | mxe | vxe | sfe | fw
  deriving DecidableEq, Repr

/-- Statuses (R341). -/
inductive Status where
  | ok | absentUnit | rejected | poisoned | droppedIncomplete | pimOffline | timeout | strandedSignal
  deriving DecidableEq, Repr

/-- Images of the caddy (R436). -/
inductive FwKind where
  | hubfw | brewfw | leafmc | xlat | owndef
  deriving DecidableEq, Repr

/-- Who issues a sync operation (R301): it orders, names and resets by agent. -/
inductive Agent where
  | sequencer (pot : PotIx) (eng : Eng)
  | brewerSlot (pot : PotIx) (core : BitVec 3) (slot : BitVec 2)
  | hubSlot (core : BitVec 2) (slot : BitVec 2)
  | hostCmd (id : Nat)
  | remote (node : BitVec 16) (pot : PotIx) (reqId : BitVec 32)
  deriving DecidableEq, Repr

/-- A place of the kettle's sensors (R418): a pot with its 16 dies and base die, or the hub. -/
inductive KetPlace where
  | pot (n : PotIx)
  | hub
  deriving DecidableEq, Repr

/-- An island of R504: pot islands and hub islands by unit number. -/
inductive Island where
  | pot (n : PotIx) (unit : BitVec 6)
  | hub (unit : BitVec 4)
  deriving DecidableEq, Repr

/-- What one bank request asks (R192): one column word, or one bus transfer of 32 B. -/
inductive BksOp where
  | read
  | write (data : ColWord) (poison : Bool)
  | bus
  deriving DecidableEq, Repr

/-- A request as it arrives in a port buffer (R192). `crossing` is false for a working LU's own access (R184). -/
structure BksReq where
  bank : BitVec 4
  row : BitVec 15
  col : BitVec 6
  op : BksOp
  crossing : Bool
  tag : BitVec 16
  infusion : BitVec 12
  deriving DecidableEq, Repr

/-- A flit of Drizor: the header fields of R350 with the payload, and what the receiver's checks found (R357). -/
structure Flit where
  vc : BitVec 3
  vseq : BitVec 12
  avc : BitVec 3
  avseq : BitVec 12
  cvc : BitVec 3
  ccnt : BitVec 12
  mtype : Byte
  som : Bool
  eom : Bool
  payload : BitVec 1952
  deriving DecidableEq, Repr

/-- The 24 B message header of R369. -/
structure MsgHdr where
  dst : BitVec 16
  src : BitVec 16
  srcPot : PotIx
  hops : BitVec 4
  len : BitVec 16
  sseq : BitVec 32
  tag : BitVec 16
  infusion : BitVec 12
  addr : Word64
  deriving DecidableEq, Repr

/-- The window a register access or a snapshot names: the hub block or a pot's window (R477). -/
inductive Window where
  | hub
  | pot (n : PotIx)
  deriving DecidableEq, Repr

/-- A parity mismatch that a walk finds (R492, R493): the window offset of the register, or the space and index of an entry, and
whether it lies in the buffered copy. -/
structure ParityHit where
  offset : BitVec 24
  space : Byte
  index : BitVec 24
  buffered : Bool
  deriving DecidableEq, Repr

/-- What of R488 stands at its boundary: one block of the table (a channel, scheduler or port where the rule is per unit). -/
inductive RwbUnit where
  | bks (pot : PotIx) (group : GroupIx)
  | lu (pot : PotIx) (group : GroupIx)
  | seq (pot : PotIx) (eng : Eng)
  | snc (pot : PotIx)
  | pat (pot : PotIx) (group : GroupIx)
  | pmtPot (pot : PotIx)
  | pmtHub
  | ket
  | spt (pot : PotIx) (k : BitVec 1)
  | sptNode
  | hfe
  | svc
  deriving DecidableEq, Repr

end Sys2Proof
end

