-- ==== Sys2Proof/Syntax.lean ====
section
/-!
DEFINITION. The commands and events of the block: one constructor per row of the opcode table, with the operands that
the rule of the row names. An operand that only the physical world decides (a sensor reading, a self-test's outcome, a
line rate that training found) is an operand of its event.
-/

namespace Sys2Proof

/-- The commands, in the table's order. -/
inductive Instr where
  -- power, boot and resets
  | coldPowerOn
  | pgTimeout (r : Rail)
  | pgFall (r : Rail)
  | bootRom (deadLus : List (PotIx × LuIx)) (mxeFails : BitVec 32)
  | tagSweepDone (pot : PotIx) (group : GroupIx)
  | trayClearDone (pot : PotIx)
  | lkgRecord
  | enrollWindowClose
  | pulseToggle
  | perst (levels : BitVec 2)
  | warmModuleReset
  | potReset (pot : PotIx) (failedLus : List LuIx) (mxePass fwStarts : Bool)
  | engineReset (pot : PotIx) (eng : Eng)
  | brewerCoreReset (pot : PotIx) (core : BitVec 3)
  -- host links and memory
  | headLinkTrain (head : BitVec 1) (proto rate width : BitVec 2)
  | headLinkDown (head : BitVec 1)
  | hdmDecoderCommit (head : BitVec 1) (decoder : BitVec 2) (commit : Bool)
  | cxlMemRead (head : BitVec 1) (dpa : BitVec 42)
  | cxlMemWrite (head : BitVec 1) (dpa : BitVec 42) (data : Line) (mask : Word64) (poison : Bool)
  | syncViewRead (head : BitVec 1) (pot : PotIx) (index : BitVec 16)
  | apertureLineWrite (head : BitVec 1) (offset : BitVec 30) (data : Line) (mask : Word64)
  | assemblyTimeout (slot : BitVec 12)
  | dispatchAccept (slot : BitVec 12)
  | commandDispatch
  | memberAnswer (pot : PotIx)
  | memberLost (cmd : Nat) (pot : PotIx)
  | commandComplete (cmd : Nat)
  | cmdTimeout (cmd : Nat)
  | msixUnmask (head : BitVec 1) (vec : BitVec 6)
  -- host opcodes at the pot that takes them
  | leaf (pot : PotIx)
  | launch (pot : PotIx)
  | load (pot : PotIx)
  | restore (pot : PotIx)
  | save (pot : PotIx)
  | unload (pot : PotIx)
  | hostSync (pot : PotIx)
  | trayCopy (pot : PotIx)
  -- memory device mailbox
  | identifyMemoryDevice (head : BitVec 1)
  | getSupportedLogs (head : BitVec 1)
  | getLog (head : BitVec 1)
  | getEventRecords (head : BitVec 1)
  | clearEventRecords (head : BitVec 1) (count : BitVec 8)
  | getHealthInfo (head : BitVec 1)
  | getAlertConfiguration (head : BitVec 1)
  | getPoisonList (head : BitVec 1)
  | mailboxUnsupported (head : BitVec 1) (opcode : BitVec 16)
  -- SPDM over DOE
  | getVersion (head : BitVec 1)
  | getCapabilities (head : BitVec 1)
  | negotiateAlgorithms (head : BitVec 1)
  | getDigests (head : BitVec 1)
  | getCertificate (head : BitVec 1) (slot : BitVec 4)
  | challenge (head : BitVec 1) (slot : BitVec 4) (nonce : BitVec 256)
  | getMeasurements (head : BitVec 1) (index : BitVec 8)
  -- blends and the pot map
  | commit (entry : BitVec 8)
  | clear (entry : BitVec 8)
  | potMapWrite (entry : BitVec 11) (value : BitVec 32)
  | potMapChangeApply (entry : BitVec 11)
  -- sequencers
  | engineCommandPush (pot : PotIx) (eng : Eng) (cmd : BitVec 256)
  | engineCommandStart (pot : PotIx) (eng : Eng)
  | engineCommandComplete (pot : PotIx) (eng : Eng)
  | icacheFill (pot : PotIx) (eng : Eng)
  | nop (pot : PotIx) (eng : Eng)
  | loop (pot : PotIx) (eng : Eng)
  | branch (pot : PotIx) (eng : Eng)
  | add (pot : PotIx) (eng : Eng)
  | sub (pot : PotIx) (eng : Eng)
  | shl (pot : PotIx) (eng : Eng)
  | shr (pot : PotIx) (eng : Eng)
  | sar (pot : PotIx) (eng : Eng)
  | min (pot : PotIx) (eng : Eng)
  | max (pot : PotIx) (eng : Eng)
  | slt (pot : PotIx) (eng : Eng)
  | seq (pot : PotIx) (eng : Eng)
  | lui (pot : PotIx) (eng : Eng)
  | li (pot : PotIx) (eng : Eng)
  | wlc (pot : PotIx) (eng : Eng)
  | rlc (pot : PotIx) (eng : Eng)
  | agpos (pot : PotIx) (eng : Eng)
  | stream (pot : PotIx) (eng : Eng)
  | streamBurst (pot : PotIx) (eng : Eng) (ag : BitVec 3)
  | queueElementAvailable (pot : PotIx) (queue : BitVec 6)
  | sync (pot : PotIx) (eng : Eng)
  | endWord (pot : PotIx) (eng : Eng)
  | seqStallTimeout (pot : PotIx) (eng : Eng)
  | infusionFail (infusion : BitVec 12)
  | halt (pot : PotIx) (eng : Eng) (on : Bool)
  | inval (pot : PotIx) (eng : Eng)
  -- matrix engine and FTQ
  | mma (pot : PotIx)
  | mma24 (pot : PotIx)
  | mmabs (pot : PotIx)
  | flush (pot : PotIx) (residueBad : Bool)
  | zero (pot : PotIx)
  | ftqSlotReady (pot : PotIx)
  -- vector engine
  | recipe (pot : PotIx)
  | reduce (pot : PotIx)
  | softmax (pot : PotIx)
  | gate (pot : PotIx)
  | summaryWordPush (pot : PotIx)
  | vxeSumqPop (who : Requester) (pot : PotIx)
  | recipeWrite (who : Requester) (pot : PotIx) (entry : BitVec 8) (words : List (BitVec 32))
  -- sift engine
  | gatherCsr (pot : PotIx)
  | gatherCoo (pot : PotIx)
  | scatter (pot : PotIx)
  | bagsumLu (pot : PotIx)
  | dispatch (pot : PotIx)
  | combine (pot : PotIx)
  | sfeRowReturn (pot : PotIx) (ticket : Nat)
  | bagLeafFold (pot : PotIx)
  -- leaf commands and leaf units
  | leafCommandPush (pot : PotIx) (cmd : BitVec 256)
  | leafCommandDeliver (pot : PotIx)
  | operandSlotLoad (pot : PotIx) (group : GroupIx)
  | microwordLoad (pot : PotIx)
  | luNop (pot : PotIx) (lu : LuIx)
  | rdl (pot : PotIx) (lu : LuIx)
  | wrl (pot : PotIx) (lu : LuIx)
  | wrq (pot : PotIx) (lu : LuIx)
  | maco (pot : PotIx) (lu : LuIx)
  | adds (pot : PotIx) (lu : LuIx)
  | axpy (pot : PotIx) (lu : LuIx)
  | scl (pot : PotIx) (lu : LuIx)
  | cmpc (pot : PotIx) (lu : LuIx)
  | rdap (pot : PotIx) (lu : LuIx)
  | stap (pot : PotIx) (lu : LuIx)
  | movl (pot : PotIx) (lu : LuIx)
  | zl (pot : PotIx) (lu : LuIx)
  | ldq (pot : PotIx) (lu : LuIx)
  | addl (pot : PotIx) (lu : LuIx) (residueBad : Bool)
  | mull (pot : PotIx) (lu : LuIx) (residueBad : Bool)
  | macl (pot : PotIx) (lu : LuIx) (residueBad : Bool)
  | za (pot : PotIx) (lu : LuIx)
  | tree (pot : PotIx) (lu : LuIx)
  | tkins (pot : PotIx) (lu : LuIx)
  | nxi (pot : PotIx) (lu : LuIx)
  | nxr (pot : PotIx) (lu : LuIx)
  | setlc (pot : PotIx) (lu : LuIx)
  | cb (pot : PotIx) (lu : LuIx)
  | setap (pot : PotIx) (lu : LuIx)
  | put (pot : PotIx) (lu : LuIx)
  | luColumnAccess (pot : PotIx) (lu : LuIx) (residueBad : Bool)
  | luLimitTimeout (pot : PotIx) (lu : LuIx)
  | leafResultRecord (pot : PotIx)
  -- bank schedulers
  | bksRequestArrive (pot : PotIx) (group : GroupIx) (port : BksPort) (req : BksReq)
  | bksAdmit (pot : PotIx) (group : GroupIx)
  | bksPick (pot : PotIx) (group : GroupIx)
  | refreshInterval (pot : PotIx) (group : GroupIx) (bank : BitVec 4)
  | eyeRecentre (pot : PotIx) (group : GroupIx)
  | narrowWrite (pot : PotIx) (group : GroupIx) (bank : BitVec 4) (row : BitVec 15) (col : BitVec 6)
      (data : ColWord) (mask : BitVec 32) (poison : Bool)
  | mergeTimeout (pot : PotIx) (group : GroupIx) (bank : BitVec 4) (row : BitVec 15) (col : BitVec 6)
  | retrain (pot : PotIx) (group : GroupIx)
  | retrainAttemptEnd (pot : PotIx) (passed : Bool)
  -- patrol and repair
  | patrolRowVisit (pot : PotIx) (group : GroupIx)
  | rowRemap (pot : PotIx) (group : GroupIx) (bank : BitVec 4) (row : BitVec 15) (spare : BitVec 4)
  | spareMove (pot : PotIx) (group : GroupIx) (bank : BitVec 4) (row : BitVec 15) (spare : BitVec 4)
  | bankRemap (pot : PotIx) (group : GroupIx) (bank : BitVec 4) (spare : BitVec 1)
  | bankRemapSwitch (pot : PotIx)
  | tagfix (pot : PotIx) (group : GroupIx) (bank : BitVec 4) (row : BitVec 15)
  | scrubRange (pot : PotIx) (group : GroupIx) (bank : BitVec 4) (row rowLast : BitVec 15)
  | flipArm (pot : PotIx) (group : GroupIx) (ports : BitVec 4) (arm : Bool)
  -- permits
  | permitRequest (pot : PotIx) (cls : PermitClass) (unit : BitVec 6)
  | permitGrantCycle (pot : PotIx)
  | permitRelease (pot : PotIx) (cls : PermitClass) (unit : BitVec 6)
  | permitPrecedence (pot : PotIx) (cls : PermitClass)
  | permitOverdraw (pot : PotIx) (cls : PermitClass)
  | req (pot : PotIx) (core : BitVec 3) (steeps : BitVec 10)
  | release (pot : PotIx) (core : BitVec 3)
  | pmtBudgetWrite (window : Window) (value : Word64)
  | activityEstimate (pot : PotIx) (est : BitVec 17)
  -- kettle
  | ketMeasurementTick (place : KetPlace) (readings : List (Option (BitVec 12)))
  | caddyRailOff
  | ketRestart
  -- firmware and keys
  | stage (kind : FwKind) (src : BitVec 41)
  | activate (kind : FwKind)
  | brewfwPotQuiesce (pot : PotIx) (selfCheck : Bool)
  | brewfwSelfcheckTimeout (pot : PotIx)
  | hubfwHandover
  | enroll
  | rotate
  | revoke
  -- service
  | migrate (pot : PotIx) (andRetire : Bool)
  | mirror (entry : BitVec 11) (tpot : PotIx) (tgroup : GroupIx)
  | unmirror (entry : BitVec 11)
  | retirePot (pot : PotIx)
  | unretirePot (pot : PotIx) (selfTest : Bool)
  | retireMxe (pot : PotIx)
  | returnMxe (pot : PotIx)
  | abort
  | migrationCopyUnit
  | migrationSettle
  | migrationSwitch
  -- loads and infusions
  | loadQueueServe
  | loadPhase
  | loadPhaseTimeout (pot : PotIx)
  | loadCommitDone (pot : PotIx)
  | infusionDrained (infusion : BitVec 12)
  | drainTimeout (infusion : BitVec 12)
  -- sync words
  | read (pot : PotIx) (index : BitVec 16) (agent : Agent)
  | store (pot : PotIx) (index : BitVec 16) (agent : Agent) (operand : Word64) (full : Bool)
  | fill (pot : PotIx) (index : BitVec 16) (agent : Agent) (operand : Word64)
  | empty (pot : PotIx) (index : BitVec 16) (agent : Agent)
  | wait (pot : PotIx) (index : BitVec 16) (agent : Agent) (cond : BitVec 2) (operand : Word64)
  | signal (pot : PotIx) (index : BitVec 16) (agent : Agent) (operand : Word64)
  | arrive (pot : PotIx) (index : BitVec 16) (agent : Agent) (operand : Word64)
  | bwait (pot : PotIx) (index : BitVec 16) (agent : Agent) (operand : Word64)
  | barrier (pot : PotIx) (index : BitVec 16) (agent : Agent) (operand : Word64)
  | sncInputHoldRelease (pot : PotIx)
  | sncWaitTimeout (pot : PotIx) (agent : Agent)
  | deferredOpRelease (pot : PotIx) (k : BitVec 1)
  | strandTimeout (pot : PotIx) (k : BitVec 1)
  | streamAckTimer (pot : PotIx) (k : BitVec 1) (src : BitVec 16) (srcPot : PotIx)
  -- Drizor link layer
  | flitSlot (pot : PotIx) (k : BitVec 1)
  | flitReceive (pot : PotIx) (k : BitVec 1) (flit : Flit) (hcrcGood pcrcGood : Bool)
  | ackTimer (pot : PotIx) (k : BitVec 1) (vc : BitVec 3)
  | idle (pot : PotIx) (k : BitVec 1)
  | ack (pot : PotIx) (k : BitVec 1) (acks : List (BitVec 12 × BitVec 12))
  | nak (pot : PotIx) (k : BitVec 1) (vc : BitVec 3) (vseq : BitVec 12)
  | nakAll (pot : PotIx) (k : BitVec 1) (vseqs : List (BitVec 12))
  | init (pot : PotIx) (k : BitVec 1) (node : BitVec 16) (port : BitVec 6) (stepping : Byte)
      (reserves : List (BitVec 12)) (pool : BitVec 12) (rttNs : BitVec 24)
  | laneSwap (pot : PotIx) (k : BitVec 1) (lane : BitVec 3)
  | lastWords (pot : PotIx) (k : BitVec 1) (reason : BitVec 3)
  -- Drizor messages, as they arrive at the entry port (pot, k)
  | write (pot : PotIx) (k : BitVec 1) (hdr : MsgHdr) (data : List Byte) (poison : BitVec 64)
  | readReq (pot : PotIx) (k : BitVec 1) (hdr : MsgHdr) (bytes : BitVec 12)
  | readRsp (pot : PotIx) (k : BitVec 1) (hdr : MsgHdr) (status : Status) (data : List Byte) (poison : BitVec 64)
  | syncChg (pot : PotIx) (k : BitVec 1) (hdr : MsgHdr) (reqId : BitVec 32) (yop : BitVec 4) (full : Bool)
      (operand : Word64)
  | syncReq (pot : PotIx) (k : BitVec 1) (hdr : MsgHdr) (yop : BitVec 4) (cond : BitVec 2) (operand : Word64)
  | syncRsp (pot : PotIx) (k : BitVec 1) (hdr : MsgHdr) (status : Status) (view : BitVec 128)
  | streamAck (pot : PotIx) (k : BitVec 1) (hdr : MsgHdr) (ct : BitVec 32)
  | resync (pot : PotIx) (k : BitVec 1) (hdr : MsgHdr) (lossy : Bool)
  | cmd (pot : PotIx) (k : BitVec 1) (hdr : MsgHdr) (path : Word64) (level : BitVec 3) (header : Line)
      (operand : List Byte)
  | resolved (pot : PotIx) (k : BitVec 1) (hdr : MsgHdr) (record : BitVec 4) (expected : BitVec 32)
  | partialResult (pot : PotIx) (k : BitVec 1) (hdr : MsgHdr) (record : BitVec 4) (status : Status) (flags : BitVec 3)
      (expected answered : BitVec 32) (value : List Byte)
  | nodeLost (pot : PotIx) (k : BitVec 1) (hdr : MsgHdr) (node : BitVec 16)
  | mgmt (pot : PotIx) (k : BitVec 1) (hdr : MsgHdr) (mkind : Byte) (origin : BitVec 16) (originCupno : BitVec 32)
      (hops : BitVec 4)
  -- port events
  | laneFail (pot : PotIx) (k : BitVec 1) (lane : BitVec 3)
  | trainingLock (pot : PotIx) (k : BitVec 1) (failedLane : Option (BitVec 3))
  | trainingTimeout (pot : PotIx) (k : BitVec 1)
  | trainingRetry (pot : PotIx) (k : BitVec 1)
  | initTimeout (pot : PotIx) (k : BitVec 1)
  | silentTimeout (pot : PotIx) (k : BitVec 1)
  | lockLoss (pot : PotIx) (k : BitVec 1)
  | portDrainTimeout (pot : PotIx) (k : BitVec 1)
  | enable (pot : PotIx) (k : BitVec 1) (on : Bool)
  | portReset (pot : PotIx) (k : BitVec 1)
  | sptRouteWrite (node : BitVec 12) (ports : Word64)
  | lossyClear (pot : PotIx) (node : BitVec 12)
  -- register interface
  | registerWrite (who : Requester) (offset : BitVec 26) (size : BitVec 4) (data : Word64)
  | word0Read (who : Requester) (offset : BitVec 26) (size : BitVec 4)
  | indDataAccess (who : Requester) (window : Window) (data : Option Word64)
  | rwbApply (unit : RwbUnit)
  | parityWalk (window : Window) (bad : List ParityHit)
  | snapshotStart (scope : BitVec 2) (pot : PotIx) (clear : Bool)
  | snapshotLatch (window : Window)
  -- cupping, trace and fault records
  | cuppingStart
  | cuppingPeriodTimer
  | cuppingLatch (island : Island)
  | faultRecordAccept
  | faultRecordLost (island : Island)
  | traceRecord (pot : PotIx) (unit : BitVec 6) (event : Byte) (status : Status) (tag : BitVec 16)
      (infusion : BitVec 12) (arg0 : BitVec 32) (arg1 : Word64) (loss : Bool)
  | cupTracePop (who : Requester) (pot : PotIx)
  | cupMarkWrite (pot : PotIx) (arg0 : BitVec 32) (arg1 : Word64)
  | traceEnable (pot : PotIx)
  -- sideband and JTAG
  | write64 (offset : BitVec 32) (data : Word64)
  | setOffset (offset : BitVec 32)
  | read64
  | status
  | bypass
  | idcode
  | samplePreload (preload : Word64)
  | extest
  -- power, continued
  | coldPowerLoss
  | powerGoodRise (r : Rail)
  | tripHourExpiry
  | entdaa (address : BitVec 7)
  | cdat (head : BitVec 1)
  | testLogicReset
  deriving DecidableEq, Repr

end Sys2Proof
end

