-- ==== Sys2Proof/Config.lean ====
section
/-!
DEFINITION. What the manual leaves open and the machine goes on with: free values (opaque constants, applied to the
model's own counter or to the operands they depend on), and the fixed sizes of the module.
-/

namespace Sys2Proof.Config

/-- A fresh free value: applied to State.freeCtr, which the step that takes one advances. It stands for island cycle counts
(R504: not defined to the cycle), contents that only a published standard or a fused calibration gives, and the like
(log entry 3). -/
opaque freeValue : Nat → BitVec 64

/-- Length in bytes and content of an answer whose layout the CXL or SPDM standard gives and this manual does not
(R319, R453; log entry 4): applied to the answer's number. -/
opaque freeAnswer : Nat → List Byte

/-- What the bytes of a save area that this module did not write hold, by logical pot and number of the value: the manual gives the
list of the contents and not their places (R131, R132; log entry 34). -/
opaque savedWord : (area : List Byte) → (pot : Nat) → (ix : Nat) → Nat

/-- Where the firmware of a pot keeps the native words of infusion 0, as a module address: the manual gives the program region of
a loaded infusion only (R61, R62; log entry 25). -/
opaque fwProgram : (pot : Nat) → BitVec 41

/-- The microwords that the LEAFMC image of a VERSION places in the firmware range of every LU: the arrangement of its body is not in
the manual (R434, R437; log entry 35). -/
opaque leafmcWord : (version : Nat) → (ix : Nat) → BitVec 64

/-- SHA-512 of the boot ROM (R452, R453): the ROM's contents are not in the manual (log entry 36). -/
opaque romDigest : BitVec 512

/-- The 66 LUs of a die times 16 dies (R134). -/
abbrev lusPerPot : Nat := 1056
/-- Rows of a physical bank, the 16 spares included (R17). -/
abbrev rowsPerBank : Nat := 32784

end Sys2Proof.Config
end

