-- ==== Sys2Proof/Machine/State.lean ====
section
/-!
DEFINITION. The state of the module: everything the manual gives it, as plain data, block by block. Tables that are
large and mostly at their reset contents are sparse maps (SMap): a list of key and value pairs with rising keys, where
an unlisted key stands for the table's reset entry, which the accessor in Machine/Ops.lean names.
-/

namespace Sys2Proof.Machine

/-- A sparse table: pairs in rising key order; an unlisted key holds the table's default. -/
abbrev SMap (α : Type) := List (Nat × α)

/-- Why a command stops the machine. -/
inductive Fault where
  /-- The name of a stop for an operand that names a unit the manual does not have. No meaning raises it: such a command finds
  nothing to act on and changes nothing (log entry 11), and no command of this model stops the machine. Safe. -/
  | noSuchUnit
  deriving DecidableEq, Repr

/-- Why a command has no meaning in the model. -/
inductive Refusal where
  /-- Raised by Machine/Dispatch.lean for a row of the table that has no meaning yet. Safe: the machine stops. -/
  | notModelled (mnemonic : String)
  deriving DecidableEq, Repr

/-- A 32-bit value kept with its complement (R401). -/
structure Pair32 where
  val : BitVec 32
  comp : BitVec 32
  deriving DecidableEq, Repr

/-- An output of a fabric router (R18, R20): toward column 0, column 7, row 3 or row 0, the hub port of its pot, or the pot itself. -/
inductive FabDir where
  | west | east | up | down | hubPort | here
  deriving DecidableEq, Repr

/-- The virtual channels of the tray fabric (R19). -/
inductive FabVc where
  | req | rsp | sig | cmb | mgt
  deriving DecidableEq, Repr

/-- A pot's fabric router (R18 to R23): powered, its 36-entry route table (pots 0 to 31, hub ports 0 to 3 as 32 to 35), and by
virtual channel the credits that packets between the hub and this pot hold: a packet takes one when it is sent and gives it back when it
is taken at the other end. The manual gives no number of credits, so none runs out (log entry 93). -/
structure Router where
  powered : Bool
  routes : SMap FabDir
  credits : SMap Nat
  deriving DecidableEq, Repr

/-- Fuses (R6, R444): set before the first register access. -/
structure Fuses where
  grade : Grade
  stepping : Stepping
  potEn : BitVec 32
  engSample : Bool
  rootHash : BitVec 512
  uds : BitVec 256
  deriving DecidableEq, Repr

/-- How far the power sequencer has come (R526). -/
inductive PowerStep where
  | off
  | waitHub
  | waitPots
  | waitSpt
  | bootReady
  | running
  | held
  | tripped
  deriving DecidableEq, Repr

/-- Enables and power-goods (R525 to R528). -/
structure Power where
  step : PowerStep
  aon : Bool
  enCaddy : Bool
  enHub : Bool
  enPot : BitVec 32
  enSpt : BitVec 4
  pgCaddy : Bool
  pgHub : Bool
  pgPot : BitVec 32
  pgSpt : BitVec 4
  warm : Bool
  deriving DecidableEq, Repr

/-- Sideband and status pins (R532); `alert` holds the causes of ALERT_N, lowest first: warning (R423), too hot (R421),
unread trip record (R423), power-good timeout (R527), power-good fall (R528). -/
structure Pins where
  alert : BitVec 5
  thermtrip : Bool
  pulse : Bool
  pulseRun : Bool
  sbMode : Bool
  sbAddr : BitVec 2
  perst : BitVec 2
  perstSeen : BitVec 2
  deriving DecidableEq, Repr

/-- One MSI-X table entry with its pending bit (R342). -/
structure Msix where
  addr : Word64
  data : BitVec 32
  masked : Bool
  pend : Bool
  deriving DecidableEq, Repr

/-- One CXL head (R318 to R321, HFE_PORT_STATUS of R344). -/
structure Head where
  up : Bool
  proto : BitVec 2
  rate : BitVec 2
  width : BitVec 2
  flit256 : Bool
  decoders : BitVec 8
  downs : BitVec 16
  everTrained : Bool
  msix : SMap Msix
  deriving DecidableEq, Repr

/-- The bytes of one aperture line as they gather (R326). -/
structure LineBuf where
  data : Line
  mask : Word64
  head : BitVec 1
  deriving DecidableEq, Repr

inductive SlotState where
  | idle | assembling | waiting
  deriving DecidableEq, Repr

/-- An aperture slot (R329): `seq` is the SEQ being assembled, or LAST_SEQ when idle. -/
structure Slot where
  state : SlotState
  seq : BitVec 16
  bufs : SMap LineBuf
  held : SMap LineBuf
  deriving DecidableEq, Repr

/-- A result value on its way to a combining node (R46, R158). -/
inductive Res where
  | none
  | vecF (v : List F32)
  | vecI (v : List (BitVec 64))
  | scalar (v : F32)
  | count (v : BitVec 64)
  | topk (v : List (F32 × BitVec 41))
  | view (v : BitVec 128)
  deriving DecidableEq, Repr

inductive PartState where
  | waiting | answered | lost
  deriving DecidableEq, Repr

/-- One member of a dispatched command: a pot of this module, or a remote blend record (R45, R374). `key` numbers the members
of the module's commands; `pos` is the chain of blend records, and the pot, that named it; `homes` are the home groups that a LEAF names
there (R37). -/
structure Part where
  key : Nat
  pos : List Nat
  pot : Option PotIx
  node : BitVec 16
  state : PartState
  expected : Nat
  answered : Nat
  status : Status
  isPartial : Bool
  poison : Bool
  res : Res
  path : Word64
  homes : List Nat
  deriving DecidableEq, Repr

inductive CmdState where
  | queued | running
  deriving DecidableEq, Repr

/-- A command in the dispatch table (R337), with the sequence it came from (R328). -/
structure Cmd where
  id : Nat
  slot : BitVec 12
  seq : BitVec 16
  head : BitVec 1
  header : Line
  payload : List Line
  state : CmdState
  parts : List Part
  status : Option Status
  detail : BitVec 32
  infusion : BitVec 12
  remoteOf : Option (BitVec 16 × BitVec 32 × BitVec 4)
  level : BitVec 3
  deriving DecidableEq, Repr

/-- The host front end (R329 to R344). `waitq` holds the slots in WAITING in the order in which their assembly completed (R337),
`losses` the loss events on their way to the hub's node (R48), `expired` the commands that CMD_TIMEOUT has completed (R337). -/
structure Hfe where
  slots : SMap Slot
  waitq : List Nat
  losses : List (Nat × PotIx)
  expired : List Nat
  table : List Cmd
  nextId : Nat
  records : SMap Line
  ctl : Word64
  pimOff : Bool
  errCount : BitVec 128
  dropLog : Word64
  interleave : BitVec 32
  absentCount : Word64
  lateCount : Word64
  rejectCount : Word64
  deriving DecidableEq, Repr

/-- An access that waits: at resolution while a pot map entry changes (R29), or before a channel that admits nothing, in a retrain or
before its tag sweep (R205, R383); a narrow write names its place (R202). -/
inductive MapWait where
  | read (head : BitVec 1) (dpa : BitVec 42)
  | write (head : BitVec 1) (dpa : BitVec 42) (data : Line) (mask : Word64) (poison : Bool)
  | narrow (pot : PotIx) (group : GroupIx) (bank : BitVec 4) (row : BitVec 15) (col : BitVec 6) (data : ColWord) (mask : BitVec 32)
      (poison : Bool)
  deriving DecidableEq, Repr

/-- The hub's pot map (R26) with the changes requested and the accesses waiting on them (R29). -/
structure PotMap where
  entries : SMap Pair32
  changes : SMap (BitVec 32)
  waiting : List MapWait
  deriving DecidableEq, Repr

/-- Blend table, staging area and HUB_BLEND_CTL (R39, R40). -/
structure Blend where
  table : SMap (BitVec 128)
  stage : SMap (BitVec 128)
  ctl : BitVec 32
  deriving DecidableEq, Repr

/-- A queue table entry (R56) with the byte positions reached in its head and tail elements (R82) and the elements pushed
but not yet available (R57). -/
structure Queue where
  cfg : Word64
  head : BitVec 32
  tail : BitVec 32
  headOff : Nat
  tailOff : Nat
  pushed : Nat
  deriving DecidableEq, Repr

/-- A running stream (R80, R81). -/
structure Stream where
  dirOut : Bool
  space1 : Bool
  base : BitVec 48
  desc : BitVec 256
  queue : BitVec 6
  left : Option Nat
  ix : BitVec 64
  buf : List Byte
  bufPoison : Bool
  stopped : Bool
  deriving DecidableEq, Repr

/-- An open loop level (R73). -/
structure LoopLevel where
  start : BitVec 32
  stop : BitVec 32
  left : Nat
  incEn : Bool
  incAx : BitVec 4
  incVal : BitVec 24
  deriving DecidableEq, Repr

/-- One chain queue entry: an issue's output, its format, and the engine cycle from which it counts as present (R84). -/
structure ChainEntry where
  fmt : BitVec 4
  bytes : List Byte
  poison : List Bool
  presentAt : Nat
  deriving DecidableEq, Repr

/-- A claim of a pipeline resource over engine cycles (R84, R215). -/
structure Claim where
  res : Nat
  first : Nat
  last : Nat
  deriving DecidableEq, Repr

/-- A summary word with its poison bit (R255). -/
structure Summary where
  word : ColWord
  poison : Bool
  deriving DecidableEq, Repr

/-- An instruction-cache line of 256 B (R61) with the poison of its eight 32 B words. -/
structure CacheLine where
  infusion : BitVec 12
  line : Nat
  way : Nat
  bytes : List Byte
  poison : List Bool
  deriving DecidableEq, Repr

/-- A sequencer (R60) with its command queue (R64), instruction cache (R61), chain queues (R84) and registers (R100).
Engine cycles are those that no stall freezes (R70): `cycle` is that of the last issue, `busyTo` the first one its
occupancy leaves free (R69). -/
structure Seqr where
  running : Bool
  tag : BitVec 16
  infusion : BitVec 12
  notify : Bool
  pc : BitVec 32
  ax : SMap (BitVec 48)
  lc : SMap (BitVec 32)
  loops : List LoopLevel
  streams : SMap Stream
  descs : SMap (BitVec 256)
  descPend : SMap (BitVec 256)
  summary : List Summary
  chains : SMap (List ChainEntry)
  cycle : Nat
  busyTo : Nat
  claims : List Claim
  issued : Nat
  ended : Bool
  syncWait : Bool
  syncDone : Option (Status × BitVec 64)
  icache : SMap (List CacheLine)
  cmdq : List (BitVec 256)
  halt : Bool
  lockWays : BitVec 2
  invalPending : Bool
  stalled : Bool
  heldBack : Bool
  fetchWait : Bool
  faulted : Bool
  faultCause : BitVec 4
  nanBranch : Bool
  stallUs : BitVec 32
  deriving DecidableEq, Repr

/-- An accumulator set of the MXE (R213, R214, R222); value (m, n) has key 128 m + n. -/
structure AccSet where
  touched : Bool
  intMode : Bool
  vals : SMap (BitVec 32)
  rowPoison : BitVec 128
  colPoison : BitVec 128
  deriving DecidableEq, Repr

inductive FtqState where
  | filling | ready | draining
  deriving DecidableEq, Repr

/-- A used finished-tile slot with its side record (R223). -/
structure FtqSlot where
  state : FtqState
  tag : BitVec 16
  infusion : BitVec 12
  ofmt : BitVec 4
  data : List Byte
  scales : List Byte
  poison : List Bool
  scalePoison : List Bool
  consumed : Nat
  deriving DecidableEq, Repr

/-- The matrix engine and the FTQ (R208 to R229). -/
structure Mxe where
  acc0 : AccSet
  acc1 : AccSet
  lfsr : SMap (BitVec 32)
  ftq : List FtqSlot
  ftqOwner : Option (BitVec 12)
  failed : Bool
  residue : Bool
  ftqHeld : Bool
  ctl : Word64
  events : Word64
  stalls : Word64
  numeric : Word64
  deriving DecidableEq, Repr

/-- A recipe store entry (R234): header word and operation words. -/
structure Recipe where
  header : BitVec 32
  ops : List (BitVec 32)
  deriving DecidableEq, Repr

/-- One element of a row or of a word: its index, the recipe's outputs when it is active, and for keep mode the values and bits of
inputs i0 and i1 with their poison (R239, R246, R248). -/
structure RowElem where
  pos : Nat
  active : Bool
  out0 : F32
  out1 : F32
  bad : Bool
  keep0 : F32
  keep1 : F32
  raw0 : Nat
  raw1 : Nat
  keepBad0 : Bool
  keepBad1 : Bool
  deriving DecidableEq, Repr

/-- A summary word on its way to its destination queue (R256); `dst` is SUMDST. -/
structure SummaryOut where
  dst : BitVec 3
  word : Summary
  deriving DecidableEq, Repr

/-- The vector engine (R230 to R261). `rowBuf` holds the elements of the row so far; `rowKept` says that its kind keeps them in the row
buffer (R248). -/
structure Vxe where
  recipes : SMap Recipe
  recipePend : SMap Recipe
  lfsr : SMap (BitVec 32)
  rowBuf : List RowElem
  rowKept : Bool
  wordElems : List RowElem
  wordOvf : Bool
  rowNo : BitVec 16
  token : BitVec 32
  summaryOut : List SummaryOut
  dispatchQ : List (BitVec 128 × Bool)
  dispOwner : Option (BitVec 12)
  brewerQ : List Summary
  emptyRead : Bool
  ctl : Word64
  events : Word64
  stalls : Word64
  numeric : Word64
  deriving DecidableEq, Repr

/-- A row that the SFE has read or still waits for from another module (`wait` names the request's row), with the weight that
scales it; `fetched` says that it counts as a read outstanding (R271, R273, R286). -/
structure SfeRow where
  bytes : List Byte
  poison : List Bool
  wait : Option Nat
  fetched : Bool
  weight : Option F32
  weightBad : Bool
  deriving DecidableEq, Repr

/-- An issue's output that has not been pushed yet (R271), in issue order: the rows read for it, the format in which they are summed,
the bytes it has reserved, and once it has returned what it pushes. -/
structure SfeTicket where
  id : Nat
  queue : BitVec 6
  fold : Option (BitVec 4)
  rows : List SfeRow
  room : Nat
  bag : Bool
  returned : Bool
  out : List (List Byte × Bool)
  deriving DecidableEq, Repr

/-- A bag of BAGSUM_LU whose leaf commands run (R279): its ticket, the 1 KiB scratch slots not read yet in group and command order, how
many commands have not completed, the statuses other than OK, the fold of the records read so far, and whether the row is poisoned. -/
structure BagRun where
  ticket : Nat
  slots : List Nat
  left : Nat
  failed : List Status
  acc : Option (List (F32 × Bool))
  bad : Bool
  deriving DecidableEq, Repr

/-- One index that a pot sums at its leaf units (R277): its address, weight and the weight's poison. -/
structure BagEnt where
  addr : BitVec 48
  weight : F32
  bad : Bool
  deriving DecidableEq, Repr

/-- An issue that the walker has not finished (R270): its ticket, the indices of a bag left with their positions and the weights, and
the leaf commands left, by home group. -/
structure SfeWalk where
  ticket : Nat
  todo : List (Nat × Nat)
  weights : List (Nat × Bool)
  fetches : Nat
  cuts : List (Nat × List BagEnt)
  count : Nat
  deriving DecidableEq, Repr

/-- A row that a coalescing scatter will write: the bytes that its positions so far give it (R274). -/
structure ScatRow where
  index : BitVec 32
  words : List (List Byte × Bool)
  deriving DecidableEq, Repr

/-- Counters of a running DISPATCH batch (R280, R281). -/
structure Batch where
  tokens : BitVec 32
  pairs : BitVec 32
  accepted : BitVec 32
  dropped : BitVec 32
  noexp : BitVec 32
  lost : BitVec 32
  badexp : BitVec 32
  demand : SMap (BitVec 32)
  fill : SMap (BitVec 32)
  slots : SMap (BitVec 32)
  opened : Bool
  deriving DecidableEq, Repr

/-- A position of the coalescing window (R274): its index and the row read for it. -/
structure WinPos where
  index : BitVec 32
  row : SfeRow
  deriving DecidableEq, Repr

/-- The sift engine (R262 to R286). `walk` is the issue in the walker, `scatter` the rows of a coalescing scatter that are still to be
written, and `writes` the writes to other modules, by node and number, that its command waits for (R271). -/
structure Sfe where
  descs : SMap (BitVec 256)
  descPend : SMap (BitVec 256)
  window : List WinPos
  prevOff : BitVec 32
  tickets : List SfeTicket
  nextTicket : Nat
  bags : List BagRun
  walk : Option SfeWalk
  scatter : List ScatRow
  writes : List (BitVec 16 × BitVec 32)
  scratchBusy : List Nat
  batch : Batch
  ctl : Word64
  traffic : Word64
  events : Word64
  dispatch : Word64
  stalls : Word64
  numeric : Word64
  deriving DecidableEq, Repr

/-- An accumulator set of an LU (R135). -/
structure LuAcc where
  vals : SMap (BitVec 32)
  touched : Bool
  intMode : Bool
  origin : Option (BitVec 41)
  poison : Bool
  deriving DecidableEq, Repr

/-- A score register (R135). -/
structure Score where
  score : F32
  addr : BitVec 41
  valid : Bool
  poison : Bool
  deriving DecidableEq, Repr

/-- A latch with the poison bit that travels with it (R135). -/
structure Latch where
  val : ColWord
  poison : Bool
  deriving DecidableEq, Repr

/-- The append pointer (R135). Its row has a 16th bit, so that an advance past row 32,767 is seen (R150). -/
structure Ap where
  row : BitVec 16
  col : BitVec 6
  segment : Bool
  appended : BitVec 32
  wraps : BitVec 32
  deriving DecidableEq, Repr

/-- What an entry of an LU's column queue reads or writes: its unit, or the scale words or the header of its row (R155). -/
inductive ColKind where
  | data | scales | header
  deriving DecidableEq, Repr

/-- A pending column access, fixed at issue (R147): the microword, the repeat, the place, and the sources read then; `got` holds the
words that have been read so far, one to a column slot, with their poison (R162). -/
structure ColAcc where
  kind : ColKind
  got : List (List Byte × Bool)
  uword : Word64
  rep : Nat
  row : BitVec 15
  unit : Nat
  latch : Latch
  w : F32
  s0 : F32
  deriving DecidableEq, Repr

/-- What a leaf run command gives an LU (R95, R157). A shadow names its primary: pot, and LU index (R463). -/
structure LeafCmd where
  raw : BitVec 256
  shadow : Option PotIx
  luIx : LuIx
  slot : Bool
  deriving DecidableEq, Repr

/-- The state of one leaf unit (R135) with the course of its command (R147 to R156) and its LU_STATUS bits (R181). `closing` says that
PRE waits for the accesses before it (R149). -/
structure Lu where
  store : SMap Word64
  storeBad : SMap Bool
  cmd : Option LeafCmd
  done : Bool
  upc : BitVec 10
  rep : Nat
  latches : SMap Latch
  acc0 : LuAcc
  acc1 : LuAcc
  sc0 : Score
  sc1 : Score
  cnt : Word64
  cntPoison : Bool
  tk : List (F32 × BitVec 41)
  tkPoison : Bool
  rowr : BitVec 15
  cbase : BitVec 6
  ap : Ap
  s0 : F32
  s1 : F32
  auxr : BitVec 16
  mlc : BitVec 8
  icnt : Nat
  nans : BitVec 32
  ovfs : BitVec 32
  lfsr : BitVec 32
  scales : Option (BitVec 15 × List Byte)
  scalePoison : List Bool
  occ : Option (BitVec 15 × BitVec 16 × Bool)
  openRow : Option (BitVec 15)
  closing : Bool
  colq : List ColAcc
  emitted : Option Res
  emitPoison : Bool
  fault : Bool
  cause : BitVec 4
  endFault : Option (BitVec 4)
  dead : Bool
  tag : BitVec 16
  infusion : BitVec 12
  deriving DecidableEq, Repr

/-- One slot of a channel's operand buffer (R136). -/
structure OpndSlot where
  bytes : List Byte
  poison : List Bool
  deriving DecidableEq, Repr

/-- A proxy slot of the VXE island (R177): the microword store and the copies of the operand slots that it keeps for the LU it serves. -/
structure Proxy where
  store : SMap Word64
  storeBad : SMap Bool
  slot0 : OpndSlot
  slot1 : OpndSlot
  deriving DecidableEq, Repr

/-- What is per channel of leaf work: the operand slots (R136, R137), the values of buffered LU registers applied on it
(R181), and whether a slot has been loaded for the next run command. -/
structure Chan where
  slot0 : OpndSlot
  slot1 : OpndSlot
  next : Bool
  loadedFor : Option (BitVec 256)
  seed : BitVec 32
  limit : BitVec 32
  proxy : Word64
  deriving DecidableEq, Repr

/-- An LU's outcome within a leaf command (R159, R161). -/
structure LuAnswer where
  lu : Nat
  res : Res
  poison : Bool
  fault : Option (BitVec 4)
  nans : BitVec 32
  ovfs : BitVec 32
  deriving DecidableEq, Repr

/-- Who issued a leaf command (R95): a member of a host command, the SFE for a bag, firmware, or another pot's distributor whose
command `id` names home groups that lie here now (R25, R29). -/
inductive LeafOrigin where
  | host (key : Nat)
  | sfe (ticket : Nat)
  | firmware
  | away (home : PotIx) (id : Nat)
  deriving DecidableEq, Repr

/-- An entry of the LU command queue (R95); `homes` are the home groups it has been resolved to, empty before (R29). -/
structure LeafQ where
  raw : BitVec 256
  origin : LeafOrigin
  homes : List Nat
  deriving DecidableEq, Repr

/-- The share of a leaf command that runs on another pot, where home groups it names have moved, and what that pot answered. -/
structure LeafAway where
  pot : PotIx
  done : Bool
  expected : Nat
  answered : Nat
  nans : Nat
  ovfs : Nat
  status : Status
  poison : Bool
  res : Res
  deriving DecidableEq, Repr

/-- A leaf command that has passed the distributor's checks: the home groups it was resolved to, the LUs it expects, as channel and LU
index in R45 order, their answers (R159, R160), the channels it has yet to be delivered to, and its shares on other pots. -/
structure LeafRun where
  id : Nat
  raw : BitVec 256
  origin : LeafOrigin
  homes : List Nat
  expected : List (Nat × Nat)
  answers : List LuAnswer
  todo : List Nat
  away : List LeafAway
  deriving DecidableEq, Repr

/-- A request in a port buffer or in the request queue of a scheduler (R192, R193), with its cycle of arrival and its place among all
arrivals; `started` says that its first command has been picked, after which its later ones follow by timing (R196). -/
structure BksEntry where
  port : BksPort
  req : BksReq
  arrived : Nat
  order : Nat
  started : Bool
  deriving DecidableEq, Repr

/-- A merge buffer entry (R202). -/
structure MergeEntry where
  bank : BitVec 4
  row : BitVec 15
  col : BitVec 6
  data : ColWord
  mask : BitVec 32
  poison : Bool
  deriving DecidableEq, Repr

/-- One bank as its scheduler sees it: the physical open row, the tag latch's BAD state (R382), and the scheduler cycles
that R185 counts from, with tRCD, tRC, tRP and tWR as they were when the last activate, precharge and write issued (R187); `luRow` is the
row that the LU port opened last (R195). -/
structure Bank where
  openRow : Option (BitVec 15)
  latchBad : Bool
  lastAct : Nat
  lastPre : Nat
  lastCol : Nat
  lastRead : Nat
  lastWriteEnd : Nat
  lastRef : Nat
  acted : Bool
  preed : Bool
  coled : Bool
  readed : Bool
  wrote : Bool
  refed : Bool
  refAll : Bool
  trcd : Nat
  trc : Nat
  trp : Nat
  twr : Nat
  luRow : Option (BitVec 15)
  deriving DecidableEq, Repr

/-- A bank scheduler (R192 to R206) and what is kept beside it: refresh debts (R190), whether the last pick
issued a refresh (R488), how many requests have arrived, the cycle from which an eye re-centring leaves the data bus free (R188), dirty
bits (R467), the patrol position of its channel (R389) with the words scrubbed in the last two passes (R390), and its applied copies of the BKS registers and of PAT_CTL (R489). -/
structure Sched where
  rt : List BksEntry
  eng : List BksEntry
  sfe : List BksEntry
  lu : List BksEntry
  pat : List BksEntry
  queue : List BksEntry
  whistle : Bool
  merge : List MergeEntry
  debts : SMap Nat
  cycle : Nat
  arrivals : Nat
  busFree : Nat
  banks : SMap Bank
  acts : List Nat
  crossings : List Nat
  swept : Bool
  selfRefresh : Bool
  retraining : Bool
  refNow : Bool
  eyeCentred : Bool
  lastRead : Option (ColWord × Bool)
  events : BitVec 128
  dirty : SMap Bool
  patrolPos : Nat
  passes : Nat
  scrubbed : List Nat
  timingA : Word64
  timingB : Word64
  bctl : Word64
  patCtl : Word64
  deriving DecidableEq, Repr

/-- A bank copy of R396 in progress. -/
structure BankCopy where
  group : GroupIx
  bank : BitVec 4
  spare : BitVec 1
  deriving DecidableEq, Repr

/-- Patrol and repair of a pot (R377 to R403); `mismatched` keeps the banks whose remap mismatch has been reported (R402). -/
structure Pat where
  rowmap : SMap Word64
  bankmap : SMap (BitVec 32)
  errlog : SMap (BitVec 128)
  errUnread : SMap Bool
  errNext : BitVec 6
  overrun : Bool
  ctl : Word64
  passes : BitVec 16
  counts : Word64
  scrub : Word64
  cmd : Word64
  cmdArg : Word64
  flipCtl : Word64
  flipMask : BitVec 320
  copy : Option BankCopy
  /-- PAT_CMD as it was started, while the command waits for its channel (R394). -/
  waits : Option Word64
  mismatched : List Nat
  deriving DecidableEq, Repr

/-- One sync word (R288), its waiter list apart: `Snc.waiters` holds every list in order of parking. -/
structure SyncWord where
  value : Word64
  valueN : Word64
  full : Bool
  fullN : Bool
  alloc : Bool
  broken : Bool
  owner : BitVec 12
  deriving DecidableEq, Repr

/-- An operation at a sync unit: a waiter table entry, or one held at the input (R294, R295). `yop` is the code of R292; a BARRIER
that has arrived is parked as the BWAIT of its round. TAG and INFUSION go into fault records; `entry` is its waiter table entry once
it has parked. -/
structure Waiter where
  index : BitVec 16
  yop : BitVec 4
  cond : BitVec 2
  full : Bool
  operand : Word64
  agent : Agent
  tag : BitVec 16
  infusion : BitVec 12
  entry : BitVec 11
  deriving DecidableEq, Repr

/-- A request slot of a core with its result window (R298). -/
structure SncSlot where
  request : ColWord
  done : Bool
  busy : Bool
  view : BitVec 128
  status : Status
  irq : Bool
  deriving DecidableEq, Repr

/-- A sync unit (R287 to R317). -/
structure Snc where
  words : SMap SyncWord
  waiters : List Waiter
  held : List Waiter
  slots : SMap SncSlot
  ctl : BitVec 128
  events : BitVec 128
  deriving DecidableEq, Repr

/-- A hold of the permit table (R407); its key is 64 × class + unit. `leaving` says that its release is on the way (R409). -/
structure Hold where
  steeps : Nat
  tag : BitVec 16
  infusion : BitVec 12
  leaving : Bool
  deriving DecidableEq, Repr

/-- A waiting permit request (R410 to R413). -/
structure PermitWait where
  cls : PermitClass
  unit : BitVec 6
  steeps : Nat
  tag : BitVec 16
  infusion : BitVec 12
  precedence : Bool
  overdraw : Bool
  order : Nat
  deriving DecidableEq, Repr

/-- A pot's permit sub-governor (R405 to R417): the values kept with complements come in pairs. -/
structure Pmt where
  allot : BitVec 10
  allotN : BitVec 10
  standing : BitVec 10
  standingN : BitVec 10
  lvl : BitVec 3
  lvlN : BitVec 3
  free : BitVec 12
  freeN : BitVec 12
  lastAeff : Nat
  clamp : BitVec 4
  est : BitVec 17
  mismatch : Bool
  holds : SMap Hold
  waits : List PermitWait
  nextOrder : Nat
  lastClass : PermitClass
  cost : Word64
  reqs : SMap Word64
  events : BitVec 128
  deriving DecidableEq, Repr

inductive PortState where
  | down | training | init | up | drain
  deriving DecidableEq, Repr

/-- A deferred changing operation (R311). -/
structure Deferred where
  src : BitVec 16
  srcPot : PotIx
  cover : BitVec 32
  hdr : MsgHdr
  reqId : BitVec 32
  yop : BitVec 4
  full : Bool
  operand : Word64
  deriving DecidableEq, Repr

/-- The committed-through number of one stream at an entry port (R310), with the numbers committed beyond it and the last
number acknowledged. -/
structure Ct where
  ct : BitVec 32
  beyond : List (BitVec 32)
  acked : BitVec 32
  deriving DecidableEq, Repr

/-- A spout port (R345 to R376). Maps by virtual channel have keys 0 to 4; a flit in `txq` stands with the flit slot at which it
entered, and `slotNo` counts flit slots (R353). -/
structure Port where
  state : PortState
  enable : Bool
  laneLimit : BitVec 20
  swapped : BitVec 4
  txSwapped : BitVec 4
  rttOver : Bool
  rttNs : BitVec 24
  partner : BitVec 16
  partnerPort : BitVec 6
  downCause : BitVec 3
  txq : SMap (List (Flit × Nat))
  slotNo : Nat
  replayq : List Flit
  /-- The slot in which the flits of a channel that are sent again were queued (R353, R358). -/
  replaySince : SMap Nat
  replay : List Flit
  nextSeq : SMap (BitVec 12)
  expSeq : SMap (BitVec 12)
  discard : SMap Bool
  ackSeq : SMap (BitVec 12)
  creditsDue : SMap Nat
  occupancy : SMap Nat
  reserves : SMap Nat
  pool : Nat
  ctrl : List Flit
  rxParts : SMap (List Flit)
  nakFlit : SMap (BitVec 12 × Nat)
  initSent : Bool
  initGot : Bool
  reason : BitVec 3
  deferral : List Deferred
  cts : SMap Ct
  events : BitVec 128
  traffic : BitVec 128
  wire : Option Flit
  deriving DecidableEq, Repr

/-- A changing operation on a remote word, on its way out of its pot (R309). -/
structure RemoteOp where
  agent : Agent
  word : BitVec 21
  yop : BitVec 4
  full : Bool
  operand : Word64
  tag : BitVec 16
  infusion : BitVec 12
  deriving DecidableEq, Repr

/-- A stream table entry (R372): beside LAST, ACKED and LOSSY the port the stream leaves by, whether a RESYNC is owed on its next
path, and the changing operations that wait until the stream has moved (R312). -/
structure StreamEnt where
  last : BitVec 32
  acked : BitVec 32
  lossy : Bool
  resync : Bool
  port : Option Nat
  held : List RemoteOp
  deriving DecidableEq, Repr

/-- What waits on a remote answer (R312, R367, R374): a stream burst, the burst in progress of a command that has ended (R99), an SFE row, a sync operation whose agent waits, one that a
sequencer has posted, a blend member. -/
inductive RemoteFor where
  | burst (eng : Eng) (ag : BitVec 3)
  | lastBurst (eng : Eng) (queue : BitVec 6) (infusion : BitVec 12)
  | row (ticket : Nat)
  | sync (agent : Agent)
  | posted (eng : Eng) (tag : BitVec 16) (infusion : BitVec 12) (barrier : Bool)
  | member (cmd : Nat) (key : Nat)
  deriving DecidableEq, Repr

/-- An outstanding remote request; `word` is the sync word or the tray address it names. -/
structure RemoteReq where
  id : BitVec 32
  node : BitVec 16
  word : Word64
  what : RemoteFor
  deriving DecidableEq, Repr

/-- A RISC-V core (R432): in reset, running firmware, or trapped with the cause of R386. -/
structure Core where
  running : Bool
  mcause : BitVec 6
  mtval : Word64
  deriving DecidableEq, Repr

/-- A capture record's contents and the island's anchor (R506, R507). -/
structure Capture where
  words : List Word64
  anchor : BitVec 56
  cupno : BitVec 32
  anchored : Bool
  deriving DecidableEq, Repr

/-- The trace island of a pot (R515 to R520). -/
structure CupPot where
  buffer : List ColWord
  ctl : Word64
  en : BitVec 16
  stopped : Bool
  triggered : Bool
  loss : Bool
  dropped : BitVec 31
  postLeft : Nat
  pmcSel : Word64
  pmc : SMap (BitVec 48)
  captures : SMap Capture
  mark : BitVec 128
  deriving DecidableEq, Repr

/-- A member's answer on its way to the hub's node (R45): the key of the member, and what the node folds. -/
structure MemberAns where
  key : Nat
  expected : Nat
  answered : Nat
  status : Status
  isPartial : Bool
  poison : Bool
  res : Res
  detail : BitVec 32
  infusion : Option (BitVec 12)
  deriving DecidableEq, Repr

/-- A host or forwarded command that a pot's units have yet to take: the member it is, its header, the pot's part of the path, its
operand where it travels with the command, the translated address of its operand in memory (R332, R333, R373), the hub port by
which it entered the fabric (R21), and for a LEAF the home groups it was resolved to (R29). -/
structure InCmd where
  key : Nat
  header : Line
  path : Word64
  operand : List Byte
  addr : Option (BitVec 41)
  hubPort : BitVec 2
  homes : List Nat
  deriving DecidableEq, Repr

/-- A pot: base die and stack, DRAM contents and tray bytes apart (State.dram, State.tray); `queueBad` names the queue table entries
with a parity fault (R493), `leafWait` and `pushWait` hold the stores that stall at a full command queue (R64), and `ownLoads` the LOADs
of the pot's own firmware that its strainer core has yet to take (R108). -/
structure Pot where
  router : Router
  inReset : Bool
  trayClear : Bool
  fwRunning : Bool
  quiesced : Bool
  inbox : List InCmd
  answers : List MemberAns
  mapCopy : SMap Pair32
  mapLost : List Nat
  queues : SMap Queue
  queueBad : List Nat
  mxeSeq : Seqr
  vxeSeq : Seqr
  sfeSeq : Seqr
  mxe : Mxe
  vxe : Vxe
  sfe : Sfe
  lucq : List LeafQ
  leafWait : List LeafQ
  pushWait : List (Eng × BitVec 256)
  ownLoads : List (BitVec 41 × BitVec 16)
  runs : List LeafRun
  lus : SMap Lu
  chans : SMap Chan
  proxies : SMap Proxy
  luSeed : BitVec 32
  luLimit : BitVec 32
  luProxy : Word64
  luEvents : Word64
  template_ : Option (BitVec 64)
  bksTimingA : Word64
  bksTimingB : Word64
  bksCtl : Word64
  bksRetrain : Word64
  scheds : SMap Sched
  bands : SMap (BitVec 2)
  forced : SMap Bool
  snc : Snc
  pat : Pat
  pmt : Pmt
  ports : SMap Port
  streams : SMap StreamEnt
  remote : List RemoteReq
  nextReq : BitVec 32
  cores : SMap Core
  events : List (BitVec 32)
  strainer : Option (BitVec 3)
  cup : CupPot
  sncIrq : BitVec 8
  snapSeq : BitVec 16
  snapValid : Bool
  cfgErr : Word64
  regErr : Word64
  failedResets : Nat
  deriving DecidableEq, Repr

/-- The hub's permit pool (R405, R416). -/
structure PmtHub where
  potBudget : BitVec 16
  potBudgetN : BitVec 16
  linkRes : BitVec 12
  unallotted : BitVec 16
  unallottedN : BitVec 16
  mismatch : Bool
  budgetRej : BitVec 16
  deriving DecidableEq, Repr

/-- A temperature sensor (R418, R420). -/
structure Sensor where
  raw : BitVec 12
  faulted : Bool
  excluded : Bool
  shown : BitVec 12
  exclCount : BitVec 16
  measured : Bool
  deriving DecidableEq, Repr

/-- The kettle's timing of one place (R419, R424): the period in force, and the time since the level last changed and
for which the place has been cool, in µs. -/
structure KetTimer where
  period : Nat
  sinceChange : Nat
  coolFor : Nat
  tooHot : Bool
  deriving DecidableEq, Repr

/-- The kettle (R418 to R431); sensor keys are (pot << 8) | (die << 3) | sensor, the hub at pot 31, die 17. `toLog`: a trip record
that hub firmware has yet to copy to the event log (R428). -/
structure Ket where
  sensors : SMap Sensor
  timers : SMap KetTimer
  ctl : Word64
  trips : Word64
  coolFor : Nat
  caddyHeld : Bool
  toLog : Bool
  deriving DecidableEq, Repr

/-- A caddy slot (R440, R441): the image's bytes, its pages' SEQ, and whether a page is torn. -/
structure CaddySlot where
  bytes : List Byte
  seq : BitVec 32
  torn : Bool
  deriving DecidableEq, Repr

/-- The place of a committed image: the factory region, or slot A (false) or B (true) (R440, R442). -/
inductive ImgPlace where
  | none
  | factory
  | slot (b : Bool)
  deriving DecidableEq, Repr

/-- A pointer record (R442): committed set, last-known-good set and OWNDEF slot, with RSEQ and whether its complement and
CRC check. -/
structure Pointer where
  rseq : BitVec 32
  hubfw : ImgPlace
  brewfw : ImgPlace
  leafmc : ImgPlace
  xlat : ImgPlace
  lkgHubfw : ImgPlace
  lkgBrewfw : ImgPlace
  lkgLeafmc : ImgPlace
  lkgXlat : ImgPlace
  owndef : ImgPlace
  versions : SMap (BitVec 32)
  good : Bool
  deriving DecidableEq, Repr

/-- The owner key record (R445). -/
structure OwnerKey where
  key : BitVec 256
  keyN : BitVec 256
  enrolled : Bool
  crcGood : Bool
  deriving DecidableEq, Repr

/-- The caddy (R440 to R445, R474): logs are oldest first. -/
structure Caddy where
  rootKey : BitVec 256
  factory : SMap CaddySlot
  slotA : SMap CaddySlot
  slotB : SMap CaddySlot
  pointers : List Pointer
  owner : OwnerKey
  repairLog : List ColWord
  eventLog : List Line
  serviceLog : List Line
  deriving DecidableEq, Repr

/-- Firmware as it runs (R433, R446 to R454): HUB_FW_CTL, HUB_KEY_CTL and HUB_BOOT fields, the running set and the key
layers. -/
structure Fw where
  running : Bool
  activePair : Bool
  fwCtl : Word64
  keyCtl : Word64
  keyStage : BitVec 768
  boot : Word64
  run : SMap ImgPlace
  runImages : SMap (List Byte)
  bootImages : SMap (List Byte)
  staged : SMap Bool
  awaiting : List FwKind
  leafDie : Nat
  ownDefImage : List Byte
  cdi0 : BitVec 512
  cdi1 : BitVec 512
  moved : List Nat
  booted600 : Bool
  spdmAlgs : Bool
  deriving DecidableEq, Repr

/-- Service state (R455 to R475). The cursor comes with its complement (R469). -/
structure Svc where
  resetCtl : Word64
  ctl : Word64
  cursor : Word64
  cursorN : Word64
  retired : BitVec 32
  mxeOut : BitVec 32
  lseq : BitVec 32
  deriving DecidableEq, Repr

/-- The hub CUP block (R505 to R519). Lists are oldest first. -/
structure CupHub where
  inbound : List Line
  lossNext : Bool
  ring : SMap Line
  newest : BitVec 32
  held : Nat
  ctl : Word64
  log : BitVec 128
  events : Word64
  sel : SMap (BitVec 32)
  captures : SMap Capture
  latchLeft : List Nat
  deriving DecidableEq, Repr

/-- A route table entry (R376). -/
structure Route where
  ports : Word64
  lost : Bool
  deriving DecidableEq, Repr

/-- The hub's part of Drizor (R363, R364), with the pairs of source and lost node that a NODE_LOST has been sent for (R366). -/
structure Drz where
  node : Word64
  routes : SMap Route
  lostSent : List (BitVec 16 × BitVec 16)
  deriving DecidableEq, Repr

/-- One entry point of a loaded program on one logical pot (R105, R127), with the envelopes of R124: low, high, alignment. -/
structure EntryPt where
  lid : BitVec 18
  eng : Eng
  lpot : Nat
  entry : BitVec 32
  env : List (BitVec 48 × BitVec 48 × BitVec 4)
  deriving DecidableEq, Repr

/-- What an infusion holds on one physical pot (R112 phase 4, R129). `descs` has 256 × engine + entry; `parts` gives each engine's
words in the program region, as byte offset and length; `tray` the tray regions used, as pot-local address and length. -/
structure InfRes where
  pot : Nat
  queues : List Nat
  descs : List Nat
  recipes : List Nat
  tables : List Nat
  syncs : List Nat
  progBase : BitVec 41
  progBytes : Nat
  parts : List (Eng × Nat × Nat)
  tray : List (Nat × Nat)
  ftq : Bool
  dispq : Bool
  deriving DecidableEq, Repr

/-- An infusion table entry (R125) with what its strainer keeps; `failing` says that a command of it has faulted (R99). -/
structure Inf where
  state : BitVec 3
  subst : Bool
  lead : PotIx
  npots : BitVec 6
  xlatVer : BitVec 16
  leafBase : BitVec 9
  leafLen : BitVec 10
  pots : BitVec 32
  inflight : BitVec 32
  phys : List Nat
  entries : List EntryPt
  res : List InfRes
  failing : Bool
  deriving DecidableEq, Repr

/-- A queued load or restore (R107); `cmd` is the host command's member, none for a load that brewer firmware issues (R108). -/
structure LoadReq where
  cmd : Option Nat
  isRestore : Bool
  desc : BitVec 41
  tag : BitVec 16
  recv : PotIx
  deriving DecidableEq, Repr

/-- What an infusion has on one logical pot: its resources and their contents (R115, R131). -/
structure LoadPot where
  lpot : Nat
  res : InfRes
  program : List Byte
  queues : List Queue
  descs : List (BitVec 256)
  recipes : List Recipe
  tables : List (BitVec 256)
  microwords : List Word64
  syncs : List SyncWord
  trayWords : List (Nat × List (List Byte × Bool))
  ftq : List FtqSlot
  dispatchQ : List (BitVec 128 × Bool)
  deriving DecidableEq, Repr

/-- A save area's contents: its bytes as SAVE wrote them, and the context that they hold (R131; log entry 34). -/
structure SavedCtx where
  bytes : List Byte
  leafBase : BitVec 9
  leafLen : BitVec 10
  pots : List LoadPot
  entries : List EntryPt
  deriving DecidableEq, Repr

/-- What a pot held where a load writes its commit: the contents of the places, and the microword stores (R113). -/
structure CommitUndo where
  was : LoadPot
  stores : List (Nat × SMap Word64 × SMap Bool)
  deriving DecidableEq, Repr

/-- The load in progress (R112); `saved` is the context that a RESTORE writes, `undo` what the commit replaces. -/
structure Load where
  req : LoadReq
  phase : BitVec 4
  descriptor : Line
  image : List (BitVec 32)
  place : List Nat
  subst : Bool
  lead : PotIx
  id : BitVec 12
  leafBase : BitVec 9
  leafLen : BitVec 10
  pots : List LoadPot
  entries : List EntryPt
  saved : Option SavedCtx
  doneLeft : List Nat
  undo : List CommitUndo
  deriving DecidableEq, Repr

/-- A SAVE or UNLOAD draining an infusion (R128, R130). -/
structure Drain where
  infusion : BitVec 12
  pot : PotIx
  cmd : Nat
  isSave : Bool
  area : BitVec 41
  deriving DecidableEq, Repr

/-- Infusions and loads at the hub (R107, R125). -/
structure InfHub where
  table : SMap Inf
  queue : List LoadReq
  load : Option Load
  drains : List Drain
  deriving DecidableEq, Repr

/-- A requester's read latch (R480): the register's word-0 key and the whole value. -/
structure ReadLatch where
  key : Nat
  value : Nat
  deriving DecidableEq, Repr

/-- A requester's write stage (R480): the words written since the last commit of their register, by 64 × the register's key +
word. -/
structure WriteStage where
  words : SMap Word64
  deriving DecidableEq, Repr

/-- The register fabric (R480 to R497): latches and stages by requester, the indirect banks, buffered RWB writes by
register key, holding copies, and the registers whose stored parity is wrong. -/
structure RegIf where
  latches : SMap ReadLatch
  stages : SMap WriteStage
  indAddr : SMap Word64
  indLatch : SMap ReadLatch
  indStage : SMap WriteStage
  buffered : SMap Nat
  applied : SMap (List Nat)
  holding : SMap Nat
  parityBad : List Nat
  snap : Word64
  hubCfgErr : Word64
  hubRegErr : Word64
  latchLeft : List Nat
  deriving DecidableEq, Repr

/-- The sideband controller (R533): the offset set last, the dynamic address, the status of the last command. -/
structure Sideband where
  offset : BitVec 32
  dynAddr : Option (BitVec 7)
  status : Byte
  deriving DecidableEq, Repr

/-- JTAG instructions (R535). -/
inductive JtagInstr where
  | reset | bypass | idcode | sample | extest
  deriving DecidableEq, Repr

/-- The JTAG port (R535). -/
structure Jtag where
  instr : JtagInstr
  dr : Word64
  boundary : Word64
  driving : Bool
  deriving DecidableEq, Repr

/-- A DOE or mailbox answer: its kind, return code and contents. -/
structure Answer where
  head : BitVec 1
  opcode : BitVec 16
  code : BitVec 16
  bytes : List Byte
  deriving DecidableEq, Repr

/-- A CXL event record (R388, R423). -/
inductive CxlEvent where
  | generalMedia (dpa : BitVec 42)
  | dramRowRemap (addr : BitVec 41)
  | dramBankRemap (addr : BitVec 41)
  | temperature (pot : Nat)
  deriving DecidableEq, Repr

/-- What the module last showed outside: CXL read data, register data, answers, messages sent. -/
structure Out where
  cxl : Option (BitVec 1 × BitVec 42 × Line × Bool)
  reg : Option (Requester × Word64)
  answer : Option Answer
  sideband : Option (Word64 × Byte)
  msi : List (BitVec 1 × BitVec 6)
  tdo : Word64
  deriving DecidableEq, Repr

/-- Extra bits of one tray word of 32 B (R54): its poison bit and, for each 8 B group, whether its check bits find a
correctable (1) or an uncorrectable (2) error. -/
structure TrayMeta where
  poison : Bool
  ecc : List (BitVec 2)
  deriving DecidableEq, Repr

/-- The whole state. `pending` is the queue of commands, first in first out; `freeCtr` is the model's own counter of the
free values taken so far (log entry 3); `hostNoted` names the words whose bad host read has been reported, with the patrol pass
(R388); `saves` is the model's own record of what the save areas that SAVE has written hold (log entry 34). -/
structure State where
  pending : List Instr
  freeCtr : Nat
  fuses : Fuses
  power : Power
  pins : Pins
  heads : SMap Head
  hfe : Hfe
  map : PotMap
  blend : Blend
  inf : InfHub
  pmtHub : PmtHub
  ket : Ket
  caddy : Caddy
  fw : Fw
  svc : Svc
  cup : CupHub
  drz : Drz
  hubCores : SMap Core
  hubSnc : SMap SncSlot
  hubSncIrq : BitVec 4
  regs : RegIf
  sb : Sideband
  jtag : Jtag
  cxlEvents : List CxlEvent
  poisonList : List (BitVec 42)
  hostNoted : List Nat
  out : Out
  dram : List Host.Cell
  tray : List Host.Cell
  trayMeta : SMap TrayMeta
  pots : SMap Pot
  saves : List SavedCtx
  deriving DecidableEq, Repr

/-! Reset values, block by block. Where the manual gives a register no reset value the value is zero, empty or false
(log entry 2). -/

def Head.reset : Head := ⟨false, 0, 0, 0, false, 0, 0, false, []⟩
def Slot.reset : Slot := ⟨.idle, 0xFFFF, [], []⟩
def Queue.reset : Queue := ⟨0, 0, 0, 0, 0, 0⟩
def AccSet.reset : AccSet := ⟨false, false, [], 0, 0⟩
def LuAcc.reset : LuAcc := ⟨[], false, false, none, false⟩
def Score.reset : Score := ⟨0, 0, false, false⟩
def Latch.reset : Latch := ⟨0, false⟩
def Ap.reset : Ap := ⟨0, 0, false, 0, 0⟩
def OpndSlot.reset : OpndSlot := ⟨[], []⟩
def Proxy.reset : Proxy := ⟨[], [], .reset, .reset⟩

def Seqr.reset : Seqr :=
  { running := false, tag := 0, infusion := 0, notify := false, pc := 0, ax := [], lc := [], loops := [],
    streams := [], descs := [], descPend := [], summary := [], chains := [], cycle := 0, busyTo := 0, claims := [], issued := 0,
    ended := false, syncWait := false, syncDone := none, icache := [], cmdq := [], halt := false, lockWays := 0,
    invalPending := false, stalled := false, heldBack := false, fetchWait := false, faulted := false, faultCause := 0,
    nanBranch := false, stallUs := 10000 }

def Mxe.reset : Mxe :=
  { acc0 := .reset, acc1 := .reset, lfsr := [], ftq := [], ftqOwner := none, failed := false, residue := false,
    ftqHeld := false, ctl := 0x1_0000_0001, events := 0, stalls := 0, numeric := 0 }

def Vxe.reset : Vxe :=
  { recipes := [], recipePend := [], lfsr := [], rowBuf := [], rowKept := false, wordElems := [], wordOvf := false, rowNo := 0,
    token := 0, summaryOut := [], dispatchQ := [], dispOwner := none, brewerQ := [], emptyRead := false, ctl := 1,
    events := 0, stalls := 0, numeric := 0 }

def Batch.reset : Batch := ⟨0, 0, 0, 0, 0, 0, 0, [], [], [], false⟩

def Sfe.reset : Sfe :=
  { descs := [], descPend := [], window := [], prevOff := 0, tickets := [], nextTicket := 0, bags := [],
    walk := none, scatter := [], writes := [], scratchBusy := [], batch := .reset, ctl := 8192, traffic := 0, events := 0, dispatch := 0, stalls := 0,
    numeric := 0 }

def Lu.reset : Lu :=
  { store := [], storeBad := [], cmd := none, done := false, upc := 0, rep := 0, latches := [], acc0 := .reset,
    acc1 := .reset, sc0 := .reset, sc1 := .reset, cnt := 0, cntPoison := false, tk := [], tkPoison := false,
    rowr := 0, cbase := 0, ap := .reset, s0 := 0, s1 := 0, auxr := 0, mlc := 0, icnt := 0, nans := 0, ovfs := 0,
    lfsr := 0, scales := none, scalePoison := [], occ := none, openRow := none, closing := false, colq := [], emitted := none, emitPoison := false,
    fault := false, cause := 0, endFault := none, dead := false, tag := 0, infusion := 0 }

def Chan.reset : Chan :=
  { slot0 := .reset, slot1 := .reset, next := false, loadedFor := none, seed := 1, limit := 100000, proxy := 0 }

def Bank.reset : Bank :=
  { openRow := none, latchBad := false, lastAct := 0, lastPre := 0, lastCol := 0, lastRead := 0, lastWriteEnd := 0,
    lastRef := 0, acted := false, preed := false, coled := false, readed := false, wrote := false, refed := false,
    refAll := false, trcd := 0, trc := 0, trp := 0, twr := 0, luRow := none }

/-- BKS_TIMING_A, BKS_TIMING_B and BKS_CTL as R206 resets them. -/
def bksTimingAReset : Word64 :=
  BitVec.ofNat 64 (18 + 18 * 2 ^ 6 + 38 * 2 ^ 12 + 56 * 2 ^ 18 + 2 * 2 ^ 25 + 7 * 2 ^ 27 + 30 * 2 ^ 31 + 15 * 2 ^ 37 +
    8 * 2 ^ 42 + 19 * 2 ^ 46 + 10 * 2 ^ 51 + 13 * 2 ^ 55)
def bksTimingBReset : Word64 := BitVec.ofNat 64 (4875 + 350 * 2 ^ 13 + 113 * 2 ^ 22 + 375 * 2 ^ 29)
def bksCtlReset : Word64 := BitVec.ofNat 64 (2500 + 250 * 2 ^ 12 + 24 * 2 ^ 21 + 8 * 2 ^ 26)

def Sched.reset : Sched :=
  { rt := [], eng := [], sfe := [], lu := [], pat := [], queue := [], whistle := false, merge := [], debts := [],
    cycle := 0, arrivals := 0, busFree := 0, banks := [], acts := [], crossings := [], swept := false, selfRefresh := false, retraining := false, refNow := false,
    eyeCentred := false, lastRead := none, events := 0, dirty := [], patrolPos := 0, passes := 0,
    scrubbed := [], timingA := bksTimingAReset, timingB := bksTimingBReset, bctl := bksCtlReset, patCtl := BitVec.ofNat 64 (24 + 4 * 2 ^ 8) }

def Pat.reset : Pat :=
  { rowmap := [], bankmap := [], errlog := [], errUnread := [], errNext := 0, overrun := false,
    ctl := BitVec.ofNat 64 (24 + 4 * 2 ^ 8), passes := 0, counts := 0, scrub := 0, cmd := 0, cmdArg := 0, flipCtl := 64,
    flipMask := 0, copy := none, waits := none, mismatched := [] }

def SyncWord.reset : SyncWord := ⟨0, BitVec.allOnes 64, false, true, false, false, 0⟩
def SncSlot.reset : SncSlot := ⟨0, false, false, 0, .ok, false⟩

/-- SNC_CTL of R317: FW_WORDS 1,024, WAIT_US 10,000, STRAND_US 100. -/
def Snc.reset : Snc :=
  { words := [], waiters := [], held := [], slots := [],
    ctl := BitVec.ofNat 128 (1024 + 10000 * 2 ^ 32 + 100 * 2 ^ 64), events := 0 }

/-- PMT_POOL of R431 on an enabled pot of MN18-A: ALLOT 420, STANDING 80, FREE 340. PMT_COST: 5, 104, 24, 16. -/
def Pmt.reset : Pmt :=
  { allot := 420, allotN := ~~~420, standing := 80, standingN := ~~~80, lvl := 0, lvlN := 7, free := 340,
    freeN := ~~~340, lastAeff := 420, clamp := 0, est := 0, mismatch := false, holds := [], waits := [], nextOrder := 0,
    lastClass := .fw, cost := BitVec.ofNat 64 (5 + 104 * 2 ^ 9 + 24 * 2 ^ 18 + 16 * 2 ^ 27), reqs := [], events := 0 }

def Port.reset : Port :=
  { state := .down, enable := true, laneLimit := 20000, swapped := 0xF, txSwapped := 0xF, rttOver := false, rttNs := 0,
    partner := 0xFFFF, partnerPort := 0, downCause := 0, txq := [], slotNo := 0, replayq := [], replaySince := [], replay := [],
    nextSeq := [], expSeq := [], discard := [], ackSeq := [], creditsDue := [], occupancy := [], reserves := [],
    pool := 0, ctrl := [], rxParts := [], nakFlit := [], initSent := false, initGot := false, reason := 0,
    deferral := [], cts := [], events := 0, traffic := 0, wire := none }

def StreamEnt.reset : StreamEnt := ⟨0, 0, false, false, none, []⟩
def Core.reset : Core := ⟨false, 0, 0⟩
def Capture.reset : Capture := ⟨[], 0, 0, false⟩

def CupPot.reset : CupPot :=
  { buffer := [], ctl := 2, en := 0, stopped := false, triggered := false, loss := false, dropped := 0, postLeft := 0,
    pmcSel := 0, pmc := [], captures := [], mark := 0 }

/-- A pot before its first self-test and firmware start: held in reset, its tray not yet cleared. -/
def Pot.reset : Pot :=
  { router := ⟨false, [], []⟩, inReset := true, trayClear := false, fwRunning := false, quiesced := false, inbox := [], answers := [], mapCopy := [],
    mapLost := [], queues := [], queueBad := [], mxeSeq := .reset, vxeSeq := .reset, sfeSeq := .reset, mxe := .reset, vxe := .reset,
    sfe := .reset, lucq := [], leafWait := [], pushWait := [], ownLoads := [], runs := [], lus := [], chans := [], proxies := [], luSeed := 1, luLimit := 100000, luProxy := 0,
    luEvents := 0, template_ := none, bksTimingA := bksTimingAReset, bksTimingB := bksTimingBReset,
    bksCtl := bksCtlReset, bksRetrain := 0, scheds := [], bands := [], forced := [], snc := .reset, pat := .reset,
    pmt := .reset, ports := [], streams := [], remote := [], nextReq := 0, cores := [], events := [], strainer := none, cup := .reset,
    sncIrq := 0, snapSeq := 0, snapValid := false, cfgErr := 0, regErr := 0, failedResets := 0 }

def Hfe.reset : Hfe :=
  { slots := [], waitq := [], losses := [], expired := [], table := [], nextId := 0, records := [], ctl := 1000, pimOff := false, errCount := 0, dropLog := 0,
    interleave := BitVec.ofNat 32 (12 + 32 * 2 ^ 16), absentCount := 0, lateCount := 0, rejectCount := 0 }

/-- PMT_HUB of R431: POT_BUDGET 13,440 (all of it allotted, 32 × 420), LINK_RES 2,400. -/
def PmtHub.reset : PmtHub :=
  { potBudget := 13440, potBudgetN := ~~~13440, linkRes := 2400, unallotted := 0, unallottedN := 0xFFFF,
    mismatch := false, budgetRej := 0 }

def Sensor.reset : Sensor := ⟨0, false, false, 0, 0, false⟩
def KetTimer.reset : KetTimer := ⟨1000, 0, 0, false⟩

/-- KET_CTL of R431: DRAM_WARN 95, LOGIC_WARN 100, DRAM_THROTTLE 105, LOGIC_THROTTLE 105. -/
def Ket.reset : Ket :=
  { sensors := [], timers := [], ctl := BitVec.ofNat 64 (95 + 100 * 2 ^ 8 + 105 * 2 ^ 16 + 105 * 2 ^ 24), trips := 0,
    coolFor := 0, caddyHeld := false, toLog := false }

def CaddySlot.reset : CaddySlot := ⟨[], 0, false⟩

def Caddy.reset : Caddy :=
  { rootKey := 0, factory := [], slotA := [], slotB := [], pointers := [], owner := ⟨0, 0, false, false⟩,
    repairLog := [], eventLog := [], serviceLog := [] }

def Fw.reset : Fw :=
  { running := false, activePair := false, fwCtl := 0, keyCtl := 0x80, keyStage := 0, boot := 0, run := [],
    runImages := [], bootImages := [], staged := [], awaiting := [], leafDie := 0, ownDefImage := [], cdi0 := 0, cdi1 := 0, moved := [],
    booted600 := false, spdmAlgs := false }

/-- HUB_SVC_CTL of R475: MIG_RATE 16. -/
def Svc.reset : Svc :=
  { resetCtl := 0, ctl := BitVec.ofNat 64 (16 * 2 ^ 38), cursor := 0, cursorN := BitVec.allOnes 64, retired := 0,
    mxeOut := 0, lseq := 0 }

def CupHub.reset : CupHub :=
  { inbound := [], lossNext := false, ring := [], newest := 0, held := 0, ctl := 0, log := 0xFFFF, events := 0,
    sel := [], captures := [], latchLeft := [] }

def Route.reset : Route := ⟨0, false⟩
/-- SPT_NODE of R376: NODE_ID 0xFFFF, HOP_LIMIT 7. -/
def Drz.reset : Drz := ⟨BitVec.ofNat 64 (0xFFFF + 7 * 2 ^ 16), [], []⟩

def Inf.reset : Inf :=
  { state := 0, subst := false, lead := 0, npots := 0, xlatVer := 0, leafBase := 0, leafLen := 0, pots := 0,
    inflight := 0, phys := [], entries := [], res := [], failing := false }

def RegIf.reset : RegIf :=
  { latches := [], stages := [], indAddr := [], indLatch := [], indStage := [], buffered := [], applied := [],
    holding := [], parityBad := [], snap := 0, hubCfgErr := 0, hubRegErr := 0, latchLeft := [] }

/-- Right after step 3 of R526 has raised EN_CADDY and EN_HUB: the sequencer waits for their power-goods. -/
def Power.reset : Power :=
  { step := .waitHub, aon := true, enCaddy := true, enHub := true, enPot := 0, enSpt := 0, pgCaddy := false,
    pgHub := false, pgPot := 0, pgSpt := 0, warm := false }

def Pins.reset : Pins := ⟨0, false, false, false, false, 0, 0, 0⟩

/-- An MN18-A of stepping B0 with every pot enabled (log entry 6). -/
def Fuses.reset : Fuses := ⟨.a, .b0, 0xFFFFFFFF, false, 0, 0⟩

/-- The machine right after reset: the cold power-on of R526 has run its steps 1 to 3 and waits for the hub's
power-goods, which are events of the table (log entries 1 and 2). -/
def State.reset : State :=
  { pending := [], freeCtr := 0, fuses := .reset, power := .reset, pins := .reset, heads := [], hfe := .reset,
    map := ⟨[], [], []⟩, blend := ⟨[], [], 0⟩, inf := ⟨[], [], none, []⟩, pmtHub := .reset, ket := .reset,
    caddy := .reset, fw := .reset, svc := .reset, cup := .reset, drz := .reset, hubCores := [], hubSnc := [], hubSncIrq := 0,
    regs := .reset, sb := ⟨0, none, 0⟩, jtag := ⟨.reset, 0, 0, false⟩, cxlEvents := [], poisonList := [], hostNoted := [],
    out := ⟨none, none, none, none, [], 0⟩, dram := [], tray := [], trayMeta := [], pots := [], saves := [] }

end Sys2Proof.Machine
end

