-- ==== Sys2Proof/Machine/Bits.lean ====
section
/-!
DEFINITION. Bit fields, bytes and lists of bytes: the manual's fields are [msb:lsb] and its multi-byte values are
little-endian (R9).
-/

namespace Sys2Proof.Machine

/-- The field of `len` bits at bit `lo`. -/
def fieldN {n : Nat} (w : BitVec n) (lo len : Nat) : Nat := w.toNat / 2 ^ lo % 2 ^ len

/-- The field as a word of its own width. -/
def fieldB {n : Nat} (w : BitVec n) (lo len : Nat) : BitVec len := BitVec.ofNat len (w.toNat / 2 ^ lo)

/-- The word with the field of `len` bits at `lo` replaced by `v` (modulo 2 ^ len). -/
def putField {n : Nat} (w : BitVec n) (lo len v : Nat) : BitVec n :=
  BitVec.ofNat n (w.toNat - fieldN w lo len * 2 ^ lo + v % 2 ^ len * 2 ^ lo)

/-- One bit as a Bool. -/
def bitAt {n : Nat} (w : BitVec n) (i : Nat) : Bool := w.getLsbD i

/-- One bit set or cleared. -/
def putBit {n : Nat} (w : BitVec n) (i : Nat) (b : Bool) : BitVec n := putField w i 1 b.toNat

/-- The field read as a signed number. -/
def fieldI {n : Nat} (w : BitVec n) (lo len : Nat) : Int := (fieldB w lo len).toInt

/-- `k` little-endian bytes of a number. -/
def bytesOfNat : (k v : Nat) → List Byte
  | 0, _ => []
  | k + 1, v => BitVec.ofNat 8 v :: bytesOfNat k (v / 256)

/-- The number of a little-endian list of bytes. -/
def natOfBytes : List Byte → Nat
  | [] => 0
  | b :: bs => b.toNat + 256 * natOfBytes bs

def wordOfBytes (bs : List Byte) : ColWord := BitVec.ofNat 256 (natOfBytes bs)
def bytesOfWord (w : ColWord) : List Byte := bytesOfNat 32 w.toNat
def lineOfBytes (bs : List Byte) : Line := BitVec.ofNat 512 (natOfBytes bs)
def bytesOfLine (w : Line) : List Byte := bytesOfNat 64 w.toNat

/-- Byte `i` of a word of any width. -/
def byteAt {n : Nat} (w : BitVec n) (i : Nat) : Byte := fieldB w (8 * i) 8

/-- The list cut or zero-filled to `n` elements. -/
def fitBytes (n : Nat) (bs : List Byte) : List Byte := bs.take n ++ List.replicate (n - bs.length) 0

/-- Pieces of `k` elements (the last one may be shorter); `fuel` bounds their number. -/
def chunks {α : Type} (k : Nat) : (fuel : Nat) → List α → List (List α)
  | 0, _ => []
  | _, [] => []
  | f + 1, l => l.take k :: chunks k f (l.drop k)

/-- Element `i` of a list, or a default. -/
def nth {α : Type} (l : List α) (i : Nat) (d : α) : α := (l[i]?).getD d

/-- The list with element `i` replaced; unchanged past its end. -/
def setNth {α : Type} : List α → Nat → α → List α
  | [], _, _ => []
  | _ :: l, 0, a => a :: l
  | b :: l, i + 1, a => b :: setNth l i a

/-- The numbers 0 to n − 1. -/
def upto (n : Nat) : List Nat := List.range n

/-- The numbers from `a` to `b` − 1. -/
def between (a b : Nat) : List Nat := (List.range (b - a)).map (a + ·)

/-- Merge `new` into `old` under a byte mask, byte `i` under bit `i`. -/
def mergeBytes (old new : List Byte) (mask : Nat) : List Byte :=
  (old.zip new).zipIdx.map fun x => if mask.testBit x.2 then x.1.2 else x.1.1

/-- How many bits of a word are set. -/
def popCount {n : Nat} (w : BitVec n) : Nat := ((upto n).filter (bitAt w)).length

/-- Every bit of a byte list xored with another. -/
def xorBytes (a b : List Byte) : List Byte := (a.zip b).map fun x => x.1 ^^^ x.2

/-- The ceiling of a quotient. -/
def ceilDiv (a b : Nat) : Nat := (a + b - 1) / b

/-- Split off the first element that satisfies `p`. -/
def pullFirst {α : Type} (p : α → Bool) : List α → Option (α × List α)
  | [] => none
  | a :: l => if p a then some (a, l) else (pullFirst p l).map fun x => (x.1, a :: x.2)

end Sys2Proof.Machine
end

