-- ==== Sys2Proof/Machine/Table.lean ====
section
/-!
DEFINITION. Sparse tables: lookup, update and removal in a list of pairs with rising keys; and the canonical form of a
list of memory cells, in which no cell holds what an unlisted address reads as.
-/

namespace Sys2Proof.Machine

/-- The entry at a key, if listed. -/
def tfind {α : Type} : SMap α → Nat → Option α
  | [], _ => none
  | e :: m, k => if e.1 = k then some e.2 else if k < e.1 then none else tfind m k

/-- The entry at a key, or the table's default. -/
def tget {α : Type} (m : SMap α) (k : Nat) (d : α) : α := (tfind m k).getD d

/-- The table with one entry written. -/
def tset {α : Type} : SMap α → Nat → α → SMap α
  | [], k, a => [(k, a)]
  | e :: m, k, a => if e.1 = k then (k, a) :: m else if k < e.1 then (k, a) :: e :: m else e :: tset m k a

/-- The table with one key no longer listed. -/
def tdel {α : Type} (m : SMap α) (k : Nat) : SMap α := m.filter fun e => e.1 != k

/-- The entry changed by a function of its present value. -/
def tupd {α : Type} (m : SMap α) (k : Nat) (d : α) (f : α → α) : SMap α := tset m k (f (tget m k d))

/-- Keys rise strictly. -/
def tsorted {α : Type} : SMap α → Bool
  | [] => true
  | [_] => true
  | a :: b :: m => decide (a.1 < b.1) && tsorted (b :: m)

/-- Read one memory cell: a listed one, else the default at that address. -/
def cellGet (dflt : Nat → Byte) (m : List Host.Cell) (a : Nat) : Byte := tget m a (dflt a)

/-- Write one memory cell, keeping the canonical form: a cell equal to the default is not listed. -/
def cellSet (dflt : Nat → Byte) : List Host.Cell → Nat → Byte → List Host.Cell
  | [], a, b => if b = dflt a then [] else [(a, b)]
  | e :: m, a, b =>
    if e.1 = a then (if b = dflt a then m else (a, b) :: m)
    else if a < e.1 then (if b = dflt a then e :: m else (a, b) :: e :: m)
    else e :: cellSet dflt m a b

/-- The canonical form of a memory: addresses strictly rising, no cell equal to its default (log entry 7). -/
def Memory.wf (dflt : Nat → Byte) (m : List Host.Cell) : Bool :=
  tsorted m && m.all fun e => e.2 != dflt e.1

/-- Read `n` cells from an address on. -/
def cellRead (dflt : Nat → Byte) (m : List Host.Cell) (a : Nat) : Nat → List Byte
  | 0 => []
  | n + 1 => cellGet dflt m a :: cellRead dflt m (a + 1) n

/-- Write cells from an address on. -/
def cellWrite (dflt : Nat → Byte) (m : List Host.Cell) (a : Nat) : List Byte → List Host.Cell
  | [] => m
  | b :: bs => cellWrite dflt (cellSet dflt m a b) (a + 1) bs

/-- Drop every cell of an address range. -/
def cellDrop (m : List Host.Cell) (lo hi : Nat) : List Host.Cell := m.filter fun e => !(decide (lo ≤ e.1) && decide (e.1 < hi))

end Sys2Proof.Machine
end

