-- ==== Sys2Proof/Machine/Flags.lean ====
section
/-!
DEFINITION. Counters and flags of the registers: saturating counters (RC fields), sticky bits (W1C fields), and the
numeric event counters that every arithmetic unit keeps.
-/

namespace Sys2Proof.Machine

/-- A counter field advanced by `by_`, stopping at its greatest value. -/
def satField {n : Nat} (w : BitVec n) (lo len by_ : Nat) : BitVec n :=
  putField w lo len (Nat.min (2 ^ len - 1) (fieldN w lo len + by_))

/-- A whole counter advanced, saturating. -/
def satAdd {n : Nat} (w : BitVec n) (by_ : Nat) : BitVec n := BitVec.ofNat n (Nat.min (2 ^ n - 1) (w.toNat + by_))

/-- Numeric events of an operation: NaN events and overflow events (R138, R218). -/
structure NumEv where
  nans : Nat
  ovfs : Nat
  deriving DecidableEq, Repr

def NumEv.zero : NumEv := ⟨0, 0⟩
def addEv (a b : NumEv) : NumEv := ⟨a.nans + b.nans, a.ovfs + b.ovfs⟩
def sumEv (l : List NumEv) : NumEv := l.foldl addEv .zero

/-- Numeric events added to a NUMERIC register: NANS in [31:0], OVFS in [63:32] (R229, R261, R286, R181). -/
def putNumEv (w : Word64) (e : NumEv) : Word64 := satField (satField w 0 32 e.nans) 32 32 e.ovfs

/-- A value kept with its complement: whether the halves agree (R401). -/
def agree {n : Nat} (v c : BitVec n) : Bool := decide (c = ~~~v)

end Sys2Proof.Machine
end

