-- ==== Sys2Proof/Machine/Code.lean ====
section
/-!
DEFINITION. Codes: the Reed–Solomon code word of the banks (R377 to R379), CRC-32C and CRC-8.
-/

namespace Sys2Proof.Machine

/-- Double an element of GF(2^8) under x^8 + x^4 + x^3 + x^2 + 1 (R377). -/
def gfDouble (a : Nat) : Nat := if a < 128 then 2 * a else (2 * a) ^^^ 0x11D

/-- Product in GF(2^8): `n` bits of `b`, least significant first. -/
def gfMulN : (n a b : Nat) → Nat
  | 0, _, _ => 0
  | n + 1, a, b => (if b % 2 = 1 then a else 0) ^^^ gfMulN n (gfDouble a) (b / 2)

def gfMul (a b : Nat) : Nat := gfMulN 8 a b

/-- α to the k. -/
def gfAlpha : Nat → Nat
  | 0 => 1
  | k + 1 => gfDouble (gfAlpha k)

/-- The remainder of the data polynomial times x^4 by g(x) = x^4 + 15 x^3 + 54 x^2 + 120 x + 64, highest symbol first: the
coefficients of g are those of (x − 1)(x − α)(x − α^2)(x − α^3) (R377). -/
def rsDivide : (hiFirst : List Nat) → Nat × Nat × Nat × Nat → Nat × Nat × Nat × Nat
  | [], c => c
  | d :: ds, (c0, c1, c2, c3) =>
    let f := d ^^^ c3
    rsDivide ds (gfMul f 64, c0 ^^^ gfMul f 120, c1 ^^^ gfMul f 54, c2 ^^^ gfMul f 15)

/-- The four check symbols of 32 data symbols, c_0 first (R377). -/
def rsCheck (data : List Byte) : List Byte :=
  let c := rsDivide ((data.map BitVec.toNat).reverse) (0, 0, 0, 0)
  [BitVec.ofNat 8 c.1, BitVec.ofNat 8 c.2.1, BitVec.ofNat 8 c.2.2.1, BitVec.ofNat 8 c.2.2.2]

/-- Evaluate a polynomial, lowest coefficient first, at a point. -/
def gfEval (x : Nat) : List Nat → Nat
  | [] => 0
  | c :: cs => c ^^^ gfMul x (gfEval x cs)

/-- The syndromes S_0 to S_3 of a stored word: check symbols then data symbols, by rising power (R377). -/
def rsSyndromes (data check : List Byte) : List Nat :=
  let r := (check ++ data).map BitVec.toNat
  (upto 4).map fun k => gfEval (gfAlpha k) r

/-- The syndromes of a poison code word: 0x5A in all four check positions (R379). -/
def rsPoison : List Nat := (upto 4).map fun k => gfEval (gfAlpha k) [0x5A, 0x5A, 0x5A, 0x5A]

/-- Outcomes of a decoded read (R378); `corrected` gives the symbol as PAT_ERRLOG SYMBOL numbers it. -/
inductive ReadOut where
  | unwritten
  | rowBad
  | clean
  | poison
  | corrected (symbol : Nat)
  | uncorrectable
  deriving DecidableEq, Repr

/-- The position of a single symbol error with these syndromes: power p of x with S_1 = S_0 α^p, S_2 = S_1 α^p, S_3 = S_2 α^p. -/
def rsLocate (s0 s1 s2 s3 : Nat) : Option Nat :=
  if s0 = 0 then none
  else (upto 36).find? fun p =>
    s1 == gfMul s0 (gfAlpha p) && s2 == gfMul s1 (gfAlpha p) && s3 == gfMul s2 (gfAlpha p)

/-- Decode a stored word: the data delivered and the outcome, CLEAN, POISON, CORRECTED or UNCORRECTABLE (R378). -/
def rsDecode (data check : List Byte) : List Byte × ReadOut :=
  match rsSyndromes data check with
  | [s0, s1, s2, s3] =>
    if s0 = 0 ∧ s1 = 0 ∧ s2 = 0 ∧ s3 = 0 then (data, .clean)
    else if [s0, s1, s2, s3] = rsPoison then (data, .poison)
    else
      match rsLocate s0 s1 s2 s3 with
      | some p =>
        if p < 4 then (data, .corrected (32 + p))
        else (setNth data (p - 4) (nth data (p - 4) 0 ^^^ BitVec.ofNat 8 s0), .corrected (p - 4))
      | none => (data, .uncorrectable)
  | _ => (data, .uncorrectable)

/-- The check symbols as stored: with poison, each xored with 0x5A (R379). -/
def rsStored (data : List Byte) (poison : Bool) : List Byte :=
  if poison then (rsCheck data).map (· ^^^ 0x5A) else rsCheck data

/-- Shift a reflected CRC register by `n` bits. -/
def crcShift (poly : Nat) : (n c : Nat) → Nat
  | 0, c => c
  | n + 1, c => crcShift poly n (if c % 2 = 1 then (c / 2) ^^^ poly else c / 2)

def crcRun (poly : Nat) : Nat → List Byte → Nat
  | c, [] => c
  | c, b :: bs => crcRun poly (crcShift poly 8 (c ^^^ b.toNat)) bs

/-- CRC-32C (Castagnoli), reflected, all ones before and after (log entry 9). -/
def crc32c (bs : List Byte) : BitVec 32 := BitVec.ofNat 32 (crcRun 0x82F63B78 0xFFFFFFFF bs ^^^ 0xFFFFFFFF)

end Sys2Proof.Machine
end

