-- ==== Sys2Proof/Machine/Access.lean ====
section
/-!
DEFINITION. Reaching the parts of the state: pots, sequencers, leaf units, schedulers, ports, sync words, slots; and the
numbering of units (R15, R17, R25, R134, R504).
-/

namespace Sys2Proof.Machine

/-- Pot `n`; an unlisted pot stands as State.reset leaves it. -/
def potOf (s : State) (n : PotIx) : Pot := tget s.pots n.toNat Pot.reset
def setPot (s : State) (n : PotIx) (p : Pot) : State := { s with pots := tset s.pots n.toNat p }
def updPot (s : State) (n : PotIx) (f : Pot → Pot) : State := setPot s n (f (potOf s n))

def allPots : List PotIx := (upto 32).map (BitVec.ofNat 5)

/-- Enabled by POT_EN (R2, R6). -/
def potEnabled (s : State) (n : PotIx) : Bool := bitAt s.fuses.potEn n.toNat
def potRetired (s : State) (n : PotIx) : Bool := bitAt s.svc.retired n.toNat
/-- Neither disabled nor retired (R37). -/
def potPresent (s : State) (n : PotIx) : Bool := potEnabled s n && !potRetired s n
/-- In service: present and out of reset. -/
def potOn (s : State) (n : PotIx) : Bool := potPresent s n && !(potOf s n).inReset
/-- Pots present, in ascending index. -/
def presentPots (s : State) : List PotIx := allPots.filter (potPresent s)
def enabledPots (s : State) : List PotIx := allPots.filter (potEnabled s)
/-- The hub is powered. -/
def hubOn (s : State) : Bool := s.power.pgHub && s.power.enHub

/-- The MXE and FTQ exist: the grade has them (R2, R5). -/
def mxeFused (s : State) : Bool := decide (s.fuses.grade ≠ Grade.m)
/-- The MXE of a pot is neither fused off nor retired. -/
def mxePresent (s : State) (n : PotIx) : Bool := mxeFused s && !bitAt s.svc.mxeOut n.toNat

def seqOf (p : Pot) : Eng → Seqr
  | .mxe => p.mxeSeq
  | .vxe => p.vxeSeq
  | .sfe => p.sfeSeq

def setSeq (p : Pot) (e : Eng) (q : Seqr) : Pot :=
  match e with
  | .mxe => { p with mxeSeq := q }
  | .vxe => { p with vxeSeq := q }
  | .sfe => { p with sfeSeq := q }

def updSeq (s : State) (n : PotIx) (e : Eng) (f : Seqr → Seqr) : State :=
  updPot s n fun p => setSeq p e (f (seqOf p e))

/-- The engine of a pot is present (an MXE may be absent, R5). -/
def engPresent (s : State) (n : PotIx) (e : Eng) : Bool :=
  match e with
  | .mxe => potOn s n && mxePresent s n
  | _ => potOn s n

def luOf (p : Pot) (i : Nat) : Lu := tget p.lus i Lu.reset
def setLu (p : Pot) (i : Nat) (l : Lu) : Pot := { p with lus := tset p.lus i l }
def updLu (p : Pot) (i : Nat) (f : Lu → Lu) : Pot := setLu p i (f (luOf p i))

def chanOf (p : Pot) (g : Nat) : Chan := tget p.chans g Chan.reset
def setChan (p : Pot) (g : Nat) (c : Chan) : Pot := { p with chans := tset p.chans g c }

def schedOf (p : Pot) (g : Nat) : Sched := tget p.scheds g Sched.reset
def setSched (p : Pot) (g : Nat) (c : Sched) : Pot := { p with scheds := tset p.scheds g c }
def updSched (s : State) (n : PotIx) (g : GroupIx) (f : Sched → Sched) : State :=
  updPot s n fun p => setSched p g.toNat (f (schedOf p g.toNat))
def bankOf (c : Sched) (b : Nat) : Bank := tget c.banks b Bank.reset
def setBank (c : Sched) (b : Nat) (k : Bank) : Sched := { c with banks := tset c.banks b k }

def portOf (p : Pot) (k : Nat) : Port := tget p.ports k Port.reset
def setPort (p : Pot) (k : Nat) (q : Port) : Pot := { p with ports := tset p.ports k q }
def updPort (s : State) (n : PotIx) (k : BitVec 1) (f : Port → Port) : State :=
  updPot s n fun p => setPort p k.toNat (f (portOf p k.toNat))

def syncWordOf (c : Snc) (i : Nat) : SyncWord := tget c.words i SyncWord.reset
def setSyncWord (c : Snc) (i : Nat) (w : SyncWord) : Snc := { c with words := tset c.words i w }
def coreOf (p : Pot) (i : Nat) : Core := tget p.cores i Core.reset
def queueOf (p : Pot) (i : Nat) : Queue := tget p.queues i Queue.reset
def setQueue (p : Pot) (i : Nat) (q : Queue) : Pot := { p with queues := tset p.queues i q }
def slotOf (h : Hfe) (i : Nat) : Slot := tget h.slots i Slot.reset
def setSlot (h : Hfe) (i : Nat) (x : Slot) : Hfe := { h with slots := tset h.slots i x }
/-- The host's commands in the dispatch table: those that members of other modules' blends run are not assembled here (R337, R373). -/
def hostCmds (h : Hfe) : List Cmd := h.table.filter fun c => c.remoteOf.isNone
def headOf (s : State) (h : BitVec 1) : Head := tget s.heads h.toNat Head.reset
def setHead (s : State) (h : BitVec 1) (x : Head) : State := { s with heads := tset s.heads h.toNat x }
def infOf (s : State) (i : BitVec 12) : Inf := tget s.inf.table i.toNat Inf.reset
def setInf (s : State) (i : BitVec 12) (x : Inf) : State :=
  { s with inf := { s.inf with table := tset s.inf.table i.toNat x } }
def recipeOf (v : Vxe) (i : Nat) : Recipe := tget v.recipes i ⟨0, []⟩
/-- An MSI-X table entry; vectors are masked until the host programs them. -/
def msixOf (h : Head) (v : Nat) : Msix := tget h.msix v ⟨0, 0, true, false⟩

/-- Physical banks of a die: 16 × channel + bank, and 64 and 65 for the spares (R17, R182). -/
def bankInDie (g : GroupIx) (b : BitVec 4) : Nat := g.toNat % 4 * 16 + b.toNat
def dieOf (g : GroupIx) : Nat := g.toNat / 4
def groupNo (die chan : Nat) : GroupIx := BitVec.ofNat 6 (4 * die + chan)

/-- ISLAND numbers (R504). -/
def potIsland (n : PotIx) (unit : Nat) : Nat := n.toNat * 128 + unit
def hubIsland (unit : Nat) : Nat := 4096 + unit
def engUnit : Eng → Nat
  | .mxe => 0
  | .vxe => 2
  | .sfe => 3
def engNo : Eng → Nat
  | .mxe => 0
  | .vxe => 1
  | .sfe => 2
def dieUnit (die : Nat) : Nat := 32 + die

/-- Status codes (R341). -/
def statusCode : Status → Nat
  | .ok => 0
  | .absentUnit => 1
  | .rejected => 2
  | .poisoned => 3
  | .droppedIncomplete => 4
  | .pimOffline => 5
  | .timeout => 6
  | .strandedSignal => 7

def steppingCode : Stepping → Nat
  | .a0 => 0xA0
  | .a1 => 0xA1
  | .b0 => 0xB0
def gradeCode : Grade → Nat
  | .a => 1
  | .b => 2
  | .m => 3

def kindCode : FwKind → Nat
  | .hubfw => 1
  | .brewfw => 2
  | .leafmc => 3
  | .xlat => 4
  | .owndef => 5
def kindOfCode : Nat → Option FwKind
  | 1 => some .hubfw
  | 2 => some .brewfw
  | 3 => some .leafmc
  | 4 => some .xlat
  | 5 => some .owndef
  | _ => none

/-- Requester codes of the per-requester tables: hub cores 0 to 3, host 4, sideband 5, brewer cores from 8. -/
def requesterCode : Requester → Nat
  | .hubCore c => c.toNat
  | .host => 4
  | .sideband => 5
  | .brewer p c => 8 + 8 * p.toNat + c.toNat

def classCode : Traffic → Nat
  | .fetch => 0
  | .ucode => 1
  | .core => 2
  | .xfer => 3
  | .tensor => 4
  | .host => 5
  | .move => 6
def portCode : BksPort → Nat
  | .rt => 0
  | .eng => 1
  | .sfe => 2
  | .lu => 3
  | .pat => 4

/-! Registers by the BAR0 offset of their word 0 (R477): buffered writes (R488) and parity faults (R493). -/

/-- A register of a pot's window. -/
def potReg (n : PotIx) (off : Nat) : Nat := 0x2000000 + n.toNat * 2 ^ 20 + off
/-- An indirect entry's key, beyond every BAR0 offset. -/
def entryKey (win space ix : Nat) : Nat := 2 ^ 26 * (1 + 256 * win + space) + ix
def potWin (n : PotIx) : Nat := 1 + n.toNat
/-- The stored parity of the register is wrong and its fault has not ended (R493, R494). -/
def regBad (s : State) (key : Nat) : Bool := s.regs.parityBad.contains key
/-- A commit of a register ends its parity fault (R494). -/
def parityEnds (s : State) (key : Nat) : State :=
  { s with regs := { s.regs with parityBad := s.regs.parityBad.filter (· != key) } }
def bufferOf (s : State) (key : Nat) : Option Nat := tfind s.regs.buffered key
def setBuffer (s : State) (key v : Nat) : State :=
  { s with regs := { s.regs with buffered := tset s.regs.buffered key v, applied := tdel s.regs.applied key } }
def dropBuffer (s : State) (key : Nat) : State :=
  { s with regs := { s.regs with buffered := tdel s.regs.buffered key, applied := tdel s.regs.applied key } }

/-- The requester reaches a window (R481). -/
def reaches (w : Requester) (win : Window) : Bool :=
  match w with
  | .brewer p _ => win == .pot p
  | _ => true
/-- Count a refused access in the window's REG_ERR: NARROW at bit 0, IN_RESET 16, DENIED 32, IND_RANGE 48 (R498). -/
def countRegErr (s : State) (win : Window) (lo : Nat) : State :=
  match win with
  | .hub => { s with regs := { s.regs with hubRegErr := satField s.regs.hubRegErr lo 16 1 } }
  | .pot n => updPot s n fun p => { p with regErr := satField p.regErr lo 16 1 }
/-- Fill a requester's read latch (R480). -/
def fillLatch (s : State) (w : Requester) (key v : Nat) : State :=
  { s with regs := { s.regs with latches := tset s.regs.latches (requesterCode w) ⟨key, v⟩ } }
/-- The latched value, when the latch was filled from this register. -/
def latched (s : State) (w : Requester) (key : Nat) : Option Nat :=
  match tfind s.regs.latches (requesterCode w) with
  | some l => if l.key = key then some l.value else none
  | none => none

/-- The node id of this module (R363). -/
def nodeId (s : State) : BitVec 16 := fieldB s.drz.node 0 16

end Sys2Proof.Machine
end

