-- ==== Sys2Proof/Machine/Fabric.lean ====
section
/-!
DEFINITION. The tray fabric (R16, R18 to R23): hub ports, routers with their route tables, the length of a table path, and the
credits that packets between the hub and a pot hold by virtual channel.
-/

namespace Sys2Proof.Machine

/-! Hub ports (R16, R21). -/

/-- Hub port k enters at pot 2 + k (R16). -/
def hubPortPot (k : Nat) : Nat := 2 + k

/-- The hub port of a column, for traffic to and from its pots (R21). -/
def hubPortOfColumn (c : Nat) : Nat := if c ≤ 2 then 0 else if c = 3 then 1 else if c = 4 then 2 else 3
def hubPortOf (n : PotIx) : BitVec 2 := BitVec.ofNat 2 (hubPortOfColumn (n.toNat % 8))

/-! The mesh (R15, R18). -/

/-- The router that an output leads to. -/
def fabNext (r : Nat) : FabDir → Option Nat
  | .west => if r % 8 = 0 then none else some (r - 1)
  | .east => if r % 8 = 7 then none else some (r + 1)
  | .up => if 24 ≤ r then none else some (r + 8)
  | .down => if r < 8 then none else some (r - 8)
  | _ => none

/-- The router at which a destination of the table lies: a pot's own, or that of the pot where a hub port enters. -/
def fabHome (dst : Nat) : Nat := if dst < 32 then dst else hubPortPot (dst - 32)

/-- The output at the destination's own router. -/
def fabArrive (dst : Nat) : FabDir := if dst < 32 then .here else .hubPort

/-- Dimension order: along the row to the destination's column, then along the column (R20). -/
def dimOrderOut (r dst : Nat) : FabDir :=
  let h := fabHome dst
  if r % 8 < h % 8 then .east
  else if h % 8 < r % 8 then .west
  else if r / 8 < h / 8 then .up
  else if h / 8 < r / 8 then .down
  else fabArrive dst

/-! West-first routing around unpowered routers (R20). -/

/-- The outputs in the order in which ties fall: column 0, column 7, row 3, row 0. -/
def fabDirs : List FabDir := [.west, .east, .up, .down]

/-- A distance that no path has. -/
def farAway : Nat := 1000

/-- The router behind an output, where it is powered on this part. -/
def fabStep (potEn : BitVec 32) (r : Nat) (d : FabDir) : Option Nat := (fabNext r d).filter fun q => bitAt potEn q

/-- Moves of a packet at router `r`: `west` says that every move so far was toward column 0. Each comes with the state it leads to,
numbered 2 × router + (1 while moves toward column 0 are still allowed). -/
def westMoves (potEn : BitVec 32) (r : Nat) (west : Bool) : List (FabDir × Nat) :=
  fabDirs.filterMap fun d =>
    (fabStep potEn r d).bind fun q =>
      if d = .west then (if west then some (d, 2 * q + 1) else none) else some (d, 2 * q)

/-- One round of the shortest permitted distances to a router. -/
def westRound (potEn : BitVec 32) (dst : Nat) (dist : List Nat) : List Nat :=
  (upto 64).map fun x =>
    if x / 2 = dst then 0
    else ((westMoves potEn (x / 2) (x % 2 == 1)).map fun m => nth dist m.2 farAway + 1).foldl Nat.min farAway

def westRounds (potEn : BitVec 32) (dst : Nat) : (k : Nat) → List Nat
  | 0 => List.replicate 64 farAway
  | k + 1 => westRound potEn dst (westRounds potEn dst k)

/-- The entry of a router under the west-first model: an output on a shortest permitted path, the first in order. -/
def westFirstOut (potEn : BitVec 32) (r dst : Nat) : FabDir :=
  let h := fabHome dst
  if r = h then fabArrive dst
  else
    let dist := westRounds potEn h 31
    match (westMoves potEn r true).find? fun m => nth dist m.2 farAway + 1 == nth dist (2 * r + 1) farAway with
    | some m => m.1
    | none => .here

/-- The output that hub firmware writes for a destination (R20). -/
def routeOut (f : Fuses) (r dst : Nat) : FabDir := if f.grade = .b then westFirstOut f.potEn r dst else dimOrderOut r dst

/-! The routers (R20, R23). -/

/-- The table of one router: an entry per pot and per hub port. -/
def routeTable (f : Fuses) (r : Nat) : SMap FabDir := (upto 36).map fun dst => (dst, routeOut f r dst)

/-- Hub firmware loads the table of every enabled pot's router, which is powered from then on (R20, R23). -/
def loadRouters (s : State) : State :=
  (enabledPots s).foldl (fun t n =>
    updPot t n fun p => { p with router := { p.router with powered := true, routes := routeTable s.fuses n.toNat } }) s

/-- The table path from a router to a destination: its mesh links, and one hop for a hub port (R18, R20); none where a router on the
way is off. -/
def tableHops (s : State) : (fuel : Nat) → (r dst : Nat) → Option Nat
  | 0, _, _ => none
  | f + 1, r, dst =>
    let x := (potOf s (BitVec.ofNat 5 r)).router
    if !x.powered then none
    else
      match tget x.routes dst .here with
      | .here => if r = dst then some 0 else none
      | .hubPort => some 1
      | d => (fabNext r d).bind fun q => (tableHops s f q dst).map (· + 1)

/-- Hops between two pots (R18, R20). -/
def potHops (s : State) (a b : PotIx) : Option Nat := tableHops s 40 a.toNat b.toNat

/-! Credits (R19). -/

def vcCode : FabVc → Nat
  | .req => 0
  | .rsp => 1
  | .sig => 2
  | .cmb => 3
  | .mgt => 4

/-- A packet between the hub and a pot takes a credit of its own channel. -/
def fabTake (p : Pot) (vc : FabVc) : Pot :=
  { p with router := { p.router with credits := tupd p.router.credits (vcCode vc) 0 (· + 1) } }
/-- The packet is taken at its end: the credit returns. -/
def fabGive (p : Pot) (vc : FabVc) : Pot :=
  { p with router := { p.router with credits := tupd p.router.credits (vcCode vc) 0 (· - 1) } }

end Sys2Proof.Machine
end

