-- ==== Sys2Proof/Machine/Ops.lean ====
section
/-!
DEFINITION. Operations that many commands share: free values, the outcomes of a command, fault records on their way to the
hub (R511 to R514), messages to the heads (R342), completion events of a pot (R435), performance counters (R518).
-/

namespace Sys2Proof.Machine

/-- The outcome type of every meaning. -/
abbrev Result := Host.Outcome State Fault Refusal

/-- A command whose conditions do not hold changes nothing (log entry 10). -/
def whenDo (c : Bool) (s : State) (t : State) : Result := if c then .next t else .next s

/-- An operand that names a unit the manual does not have finds nothing to act on: the command changes nothing (log entry 11). -/
def checked (ok : Bool) (s : State) (r : Result) : Result := if ok then r else .next s

/-- Take a fresh free value (log entry 3). -/
def takeFree (s : State) : BitVec 64 × State :=
  (Config.freeValue s.freeCtr, { s with freeCtr := s.freeCtr + 1 })

/-- `n` free bytes. -/
def takeFreeBytes : (n : Nat) → State → List Byte × State
  | 0, s => ([], s)
  | n + 1, s =>
    let f := takeFree s
    let r := takeFreeBytes n f.2
    (fieldB f.1 0 8 :: r.1, r.2)

/-- What a unit reports in a fault record (R511, R512). -/
structure FaultInfo where
  status : Nat
  tag : BitVec 16
  infusion : BitVec 12
  island : Nat
  block : Nat
  cause : Nat
  addr : Nat
  detail : Nat
  detail2 : Nat
  deriving DecidableEq, Repr

/-- A fault of a unit that runs no command. -/
def plainFault (island block cause addr detail : Nat) : FaultInfo := ⟨0, 0, 0, island, block, cause, addr, detail, 0⟩

/-- The capture record of an island, which holds its anchor and its last CUPNO (R506, R507). -/
def captureOf (s : State) (island : Nat) : Capture :=
  if 4096 ≤ island then tget s.cup.captures (island % 128) Capture.reset
  else tget (potOf s (BitVec.ofNat 5 (island / 128))).cup.captures (island % 128) Capture.reset

/-- The record's bytes with SEQ and CRC zero, which the hub fills when it accepts the record (R511, R513). -/
def faultBytes (s : State) (f : FaultInfo) (cyc : BitVec 64) : List Byte :=
  let c := captureOf s f.island
  let flags := s.cup.lossNext.toNat + (if c.anchored then 0 else 2)
  bytesOfNat 1 1 ++ bytesOfNat 1 f.status ++ bytesOfNat 2 f.tag.toNat ++ bytesOfNat 2 f.infusion.toNat ++
    bytesOfNat 2 f.island ++ bytesOfNat 1 f.block ++ bytesOfNat 1 f.cause ++ bytesOfNat 2 (nodeId s).toNat ++
    bytesOfNat 4 0 ++ bytesOfNat 7 cyc.toNat ++ bytesOfNat 1 flags ++
    bytesOfNat 7 c.anchor.toNat ++ bytesOfNat 1 0 ++ bytesOfNat 4 c.cupno.toNat ++ bytesOfNat 4 0 ++
    bytesOfNat 8 f.addr ++ bytesOfNat 8 f.detail ++ bytesOfNat 4 f.detail2 ++ bytesOfNat 4 0

/-- A record that finds the inbound queue of 64 full is dropped and counted, and the next one accepted carries LOSS (R514). -/
def loseFault (s : State) : State :=
  { s with cup := { s.cup with lossNext := true, events := satField s.cup.events 32 16 1 } }

/-- An island sends a fault record to the hub (R513); its CYC is a free value, as R504 leaves it. -/
def sendFault (s : State) (f : FaultInfo) : State :=
  let v := takeFree s
  if s.cup.inbound.length < 64 then
    { v.2 with cup := { v.2.cup with inbound := v.2.cup.inbound ++ [lineOfBytes (faultBytes s f v.1)], lossNext := false } }
  else loseFault s

/-- Raise a vector on a head: a message, or its pending bit while it is masked (R342) or the head's link is down (log entry 12). -/
def raiseMsi (s : State) (head : BitVec 1) (vec : BitVec 6) : State :=
  let h := headOf s head
  let e := msixOf h vec.toNat
  if e.masked || !h.up then setHead s head { h with msix := tset h.msix vec.toNat { e with pend := true } }
  else { s with out := { s.out with msi := s.out.msi ++ [(head, vec)] } }

/-- Vector 0 signals module events on both heads (R342; log entry 12). -/
def raiseModuleEvent (s : State) : State := raiseMsi (raiseMsi s 0 0) 1 0

/-- A new CXL event record, which vector 0 signals (R319, R342, R388, R423). -/
def pushCxlEvent (s : State) (e : CxlEvent) : State := raiseModuleEvent { s with cxlEvents := s.cxlEvents ++ [e] }

/-- Post a completion event to the pot's event queue of 1,024 (R435); one that finds it full waits outside the model and is
not kept (log entry 13). -/
def postEvent (p : Pot) (ev : BitVec 32) : Pot :=
  if p.events.length < 1024 then { p with events := p.events ++ [ev] } else p

/-- Add occurrences of an event to every performance counter that selects it (R518). -/
def pmcAdd (p : Pot) (code by_ : Nat) : Pot :=
  let step := fun (m : SMap (BitVec 48)) (i : Nat) =>
    if fieldN p.cup.pmcSel (8 * i) 8 = code ∧ 0 < by_ then tset m i (satAdd (tget m i 0) by_) else m
  { p with cup := { p.cup with pmc := (upto 6).foldl step p.cup.pmc } }

/-- The error log of a pot takes an entry; an unread one that it overwrites sets OVERRUN (R388). -/
def logError (p : Pot) (addr kind symbol cls port : Nat) (tag : BitVec 16) (inf : BitVec 12) : Pot :=
  let e : BitVec 128 :=
    BitVec.ofNat 128 (addr + kind * 2 ^ 41 + symbol * 2 ^ 44 + cls * 2 ^ 50 + port * 2 ^ 53 + tag.toNat * 2 ^ 64 +
      inf.toNat * 2 ^ 80)
  let k := p.pat.errNext.toNat
  { p with pat := { p.pat with
      errlog := tset p.pat.errlog k e
      overrun := p.pat.overrun || tget p.pat.errUnread k false
      errUnread := tset p.pat.errUnread k true
      errNext := p.pat.errNext + 1 } }

/-- Records of the event log in one erase block: 255 to a page of 16,352 B, 64 pages; the area has 64 blocks (R440). -/
def eventBlock : Nat := 16320
/-- Append a 64 B record to the caddy's event log; full, it wraps and loses its oldest erase block (R443). -/
def logCaddyEvent (s : State) (r : Line) : State :=
  let l := s.caddy.eventLog
  { s with caddy := { s.caddy with eventLog := (if 64 * eventBlock ≤ l.length then l.drop eventBlock else l) ++ [r] } }

/-- A pot's answer for a member of a host command leaves on the fabric's CMB channel (R19, R45). -/
def answerMember (s : State) (n : PotIx) (a : MemberAns) : State :=
  updPot s n fun p => { fabTake p .cmb with answers := p.answers ++ [a] }

def simpleAns (key : Nat) (st : Status) : MemberAns := ⟨key, 1, if st = .ok then 1 else 0, st, false, false, .none, 0, none⟩

/-- Fold a function over a list of steps on the state. -/
def runAll {α : Type} (f : State → α → State) (l : List α) (s : State) : State := l.foldl f s

/-- Command ends as counted in HUB_ABSENT_COUNT: units left out, and commands completed ABSENT_UNIT (R37, R498). -/
def countAbsent (s : State) (units commands : Nat) : State :=
  { s with hfe := { s.hfe with absentCount := satField (satField s.hfe.absentCount 0 32 units) 32 32 commands } }

/-- Answers that came after their member was declared lost (R49, R374). -/
def countLate (s : State) (n : Nat) : State :=
  { s with hfe := { s.hfe with lateCount := satField s.hfe.lateCount 0 32 n } }

end Sys2Proof.Machine
end

