-- ==== Sys2Proof/Machine/Dram.lean ====
section
/-!
DEFINITION. The banks: where a word lies (pot map, bank remap, row remap), the code word and written mask on a read and on a
write, the merge buffer, the mirror, and the checker's flip mask (R24 to R30, R177 to R206, R377 to R403, R462 to R467).
-/

namespace Sys2Proof.Machine

/-- A 32 B word of a physical group: the place a scheduler names. -/
structure Place where
  pot : PotIx
  group : GroupIx
  bank : BitVec 4
  row : BitVec 15
  col : BitVec 6
  deriving DecidableEq, Repr

/-- Attributes of a request: class, port, and the command it serves (R65, R386). -/
structure Who where
  cls : Traffic
  port : BksPort
  tag : BitVec 16
  infusion : BitVec 12
  deriving DecidableEq, Repr

/-- A read as delivered (R378). -/
structure ReadData where
  bytes : List Byte
  poison : Bool
  out : ReadOut
  deriving DecidableEq, Repr

/-- What a DRAM cell holds while nothing is listed for it: the tag segment of an empty written mask (complement bytes all
ones), and zero elsewhere (R383; log entry 8). A row takes 4,096 cell addresses: data from 0, check bytes from 2,048, the
tag segment from 2,304. -/
def dramDefault (a : Nat) : Byte := if 2312 ≤ a % 4096 ∧ a % 4096 < 2320 then 0xFF else 0

def tagOff : Nat := 2304

/-- The row's number over the module: pot, die, physical bank, physical row (spare rows from 32,768). -/
def rowIndex (pot : PotIx) (die pb row : Nat) : Nat :=
  ((pot.toNat * 16 + die) * 66 + pb) * Config.rowsPerBank + row

/-- PAT_BANKMAP of a die: bits [15:0] with their complement in [31:16] (R402). -/
def bankMapOf (p : Pot) (die : Nat) : BitVec 32 := tget p.pat.bankmap die 0xFFFF0000
def bankMapGood (m : BitVec 32) : Bool := agree (fieldB m 0 16) (fieldB m 16 16)
/-- A bank map value with its complement. -/
def mkBankMap (v : Nat) : BitVec 32 := BitVec.ofNat 32 (v % 65536 + (65535 - v % 65536) * 65536)

/-- Spare bank `k` serves this bank of the die. -/
def spareServes (m : BitVec 32) (k chan bank : Nat) : Bool :=
  fieldN m (8 * k) 2 == chan && fieldN m (8 * k + 2) 4 == bank && bitAt m (8 * k + 6)

/-- The physical bank that serves a bank of a channel (R182); none when the die's entry fails its complement (R402). -/
def physBank (p : Pot) (g : GroupIx) (b : BitVec 4) : Option Nat :=
  let m := bankMapOf p (dieOf g)
  if bankMapGood m then
    some (if spareServes m 0 (g.toNat % 4) b.toNat then 64
      else if spareServes m 1 (g.toNat % 4) b.toNat then 65 else bankInDie g b)
  else none

/-- PAT_ROWMAP entry `i` of a physical bank: bits [31:0] with their complement in [63:32] (R402). -/
def rowMapKey (die pb i : Nat) : Nat := (die * 66 + pb) * 8 + i
def rowMapOf (p : Pot) (die pb i : Nat) : Word64 := tget p.pat.rowmap (rowMapKey die pb i) 0xFFFFFFFF00000000
def rowMapGood (e : Word64) : Bool := agree (fieldB e 0 32) (fieldB e 32 32)
def mkRowMap (row spare : Nat) (valid : Bool) : Word64 :=
  let v := row % 32768 + spare % 16 * 2 ^ 15 + valid.toNat * 2 ^ 19
  BitVec.ofNat 64 (v + (2 ^ 32 - 1 - v) * 2 ^ 32)

/-- The physical row that holds an addressable row; none when an entry of the bank fails its complement (R393, R402). -/
def physRow (p : Pot) (die pb : Nat) (row : BitVec 15) : Option Nat :=
  let es := (upto 8).map (rowMapOf p die pb)
  if es.all rowMapGood then
    match es.find? fun e => bitAt e 19 && fieldN e 0 15 == row.toNat with
    | some e => some (32768 + fieldN e 15 4)
    | none => some row.toNat
  else none

/-- The row a place lies in, through both remap tables of the physical die; none on a mismatch. -/
def placeRow (p : Pot) (pl : Place) : Option Nat :=
  (physBank p pl.group pl.bank).bind fun pb =>
    (physRow p (dieOf pl.group) pb pl.row).map fun r => rowIndex pl.pot (dieOf pl.group) pb r

/-- The row's written mask, and whether its halves disagree (R380, R382). -/
def rowMask (s : State) (ix : Nat) : BitVec 64 × Bool :=
  let m := BitVec.ofNat 64 (natOfBytes (cellRead dramDefault s.dram (ix * 4096 + tagOff) 8))
  let c := BitVec.ofNat 64 (natOfBytes (cellRead dramDefault s.dram (ix * 4096 + tagOff + 8) 8))
  (m, !agree m c)

/-- Write cells of the DRAM. -/
def dramCells (s : State) (a : Nat) (bs : List Byte) : State := { s with dram := cellWrite dramDefault s.dram a bs }

/-- Write a row's tag segment: the mask and its complement (R380). -/
def setRowMask (s : State) (ix : Nat) (m : BitVec 64) : State :=
  dramCells s (ix * 4096 + tagOff) (bytesOfNat 8 m.toNat ++ bytesOfNat 8 (~~~m).toNat)

/-- The stored bytes of a word: 32 data and 4 check. -/
def rowWord (s : State) (ix col : Nat) : List Byte × List Byte :=
  (cellRead dramDefault s.dram (ix * 4096 + 32 * col) 32, cellRead dramDefault s.dram (ix * 4096 + 2048 + 4 * col) 4)

/-- A read of a physical row as the decoder delivers it (R378). -/
def decodeAt (s : State) (ix col : Nat) : ReadData :=
  let t := rowMask s ix
  let w := rowWord s ix col
  if t.2 then ⟨(rsDecode w.1 w.2).1, true, .rowBad⟩
  else if !bitAt t.1 col then ⟨List.replicate 32 0, false, .unwritten⟩
  else
    let d := rsDecode w.1 w.2
    match d.2 with
    | .poison => ⟨d.1, true, .poison⟩
    | .uncorrectable => ⟨d.1, true, .uncorrectable⟩
    | o => ⟨d.1, false, o⟩

/-- Store a code word and set its bit in the written mask; a BAD row's tag segment stays as it is (R380, R382). `flip` is
xored into the stored 36 bytes (R400). -/
def storeAt (s : State) (ix col : Nat) (bytes : List Byte) (poison : Bool) (flip : List Byte) : State :=
  let b := fitBytes 32 bytes
  let w := xorBytes (b ++ rsStored b poison) flip
  let t := rowMask s ix
  let s1 := dramCells (dramCells s (ix * 4096 + 32 * col) (w.take 32)) (ix * 4096 + 2048 + 4 * col) (w.drop 32)
  if t.2 then s1 else setRowMask s1 ix (putBit t.1 col true)

/-- The module address that names a place (R24). -/
def placeAddr (pl : Place) : Nat :=
  pl.pot.toNat * 2 ^ 36 + pl.group.toNat * 2 ^ 30 + pl.bank.toNat * 2 ^ 26 + pl.row.toNat * 2 ^ 11 + pl.col.toNat * 2 ^ 5

/-- The home group's entry index and the place a module address names at home (R24, R25). -/
def homeIx (addr : BitVec 41) : Nat := fieldN addr 30 11
def homePlace (addr : BitVec 41) : Place :=
  ⟨fieldB addr 36 5, fieldB addr 30 6, fieldB addr 26 4, fieldB addr 11 15, fieldB addr 5 6⟩

/-- Report a remap entry that fails its complement, once per bank (R402). -/
def reportMismatch (s : State) (pl : Place) : State :=
  let p := potOf s pl.pot
  let k := dieOf pl.group * 64 + bankInDie pl.group pl.bank
  if p.pat.mismatched.contains k then s
  else
    let p1 := { p with pat := { p.pat with mismatched := k :: p.pat.mismatched, scrub := satField p.pat.scrub 56 8 1 } }
    sendFault (setPot s pl.pot p1)
      (plainFault (potIsland pl.pot (dieUnit (dieOf pl.group))) 4 3 (placeAddr pl) (pl.group.toNat + pl.bank.toNat * 64))

/-- An activate that finds the tag halves apart: a fault record, an error log entry and a count (R382, R388). It is skipped
where the bank's latch already holds this BAD row. -/
def noteActivate (s : State) (pl : Place) (w : Who) (bad : Bool) : State :=
  let p := potOf s pl.pot
  let k := bankOf (schedOf p pl.group.toNat) pl.bank.toNat
  if bad && !(k.latchBad && decide (k.openRow = some pl.row)) then
    let p1 := logError p (placeAddr { pl with col := 0 }) 3 63 (classCode w.cls) (portCode w.port) w.tag w.infusion
    let p2 := { p1 with pat := { p1.pat with counts := satField p1.pat.counts 56 8 1 } }
    sendFault (setPot s pl.pot p2)
      (plainFault (potIsland pl.pot (dieUnit (dieOf pl.group))) 4 1 (placeAddr { pl with col := 0 })
        (pl.group.toNat + pl.bank.toNat * 64))
  else s

/-- Count and log the outcome of a read (R384, R388, R403). -/
def noteRead (s : State) (pl : Place) (w : Who) (o : ReadOut) : State :=
  let p := pmcAdd (potOf s pl.pot) 3 1
  let log := fun (q : Pot) (kind sym : Nat) =>
    logError q (placeAddr pl) kind sym (classCode w.cls) (portCode w.port) w.tag w.infusion
  let bump := fun (q : Pot) (lo len : Nat) => { q with pat := { q.pat with counts := satField q.pat.counts lo len 1 } }
  setPot s pl.pot <|
    match o with
    | .corrected sym => log (bump p 0 24) 1 sym
    | .uncorrectable => log (bump p 24 16) 2 63
    | .poison => bump p 40 16
    | .rowBad => log p 3 63
    | _ => p

/-- A read at a place, the merge buffer apart. On a remap mismatch the read delivers poison with outcome ROW_BAD, and its
data is a free value (R402; log entry 14). -/
def readRaw (s : State) (pl : Place) (w : Who) : State × ReadData :=
  match placeRow (potOf s pl.pot) pl with
  | none =>
    let f := takeFreeBytes 32 (reportMismatch s pl)
    (f.2, ⟨f.1, true, .rowBad⟩)
  | some ix =>
    let d := decodeAt s ix pl.col.toNat
    (noteRead (noteActivate s pl w (rowMask s ix).2) pl w d.out, d)

/-- The ports that PAT_FLIP_CTL selects (R400, R403); RT carries no writes. -/
def flipPort (ctl : Word64) : BksPort → Bool
  | .eng => bitAt ctl 6
  | .sfe => bitAt ctl 7
  | .lu => bitAt ctl 8
  | .pat => bitAt ctl 9
  | .rt => false

/-- The flip mask for a write at this scheduler, which disarms it (R400). -/
def takeFlip (s : State) (pl : Place) (port : BksPort) : State × List Byte :=
  let p := potOf s pl.pot
  if bitAt p.pat.flipCtl 10 && fieldN p.pat.flipCtl 0 6 == pl.group.toNat && flipPort p.pat.flipCtl port then
    (setPot s pl.pot { p with pat := { p.pat with flipCtl := putBit (putBit p.pat.flipCtl 10 false) 11 true } },
      bytesOfNat 36 p.pat.flipMask.toNat)
  else (s, List.replicate 36 0)

/-- The mirrored write of a bank copy in progress: the same row and word of the spare (R396). -/
def copyWrite (s : State) (pl : Place) (bytes : List Byte) (poison : Bool) : State :=
  match (potOf s pl.pot).pat.copy with
  | none => s
  | some c =>
    if c.group = pl.group ∧ c.bank = pl.bank then
      storeAt s (rowIndex pl.pot (dieOf pl.group) (64 + c.spare.toNat) pl.row.toNat) pl.col.toNat bytes poison
        (List.replicate 36 0)
    else s

/-- Entries of the pot map that name a group as PHYS while it migrates (R464, R467). -/
def migratingGroup (s : State) (n : PotIx) (g : GroupIx) : Bool :=
  fieldN s.svc.cursor 35 2 == 1 && s.map.entries.any fun e =>
    fieldN e.2.val 23 2 == 1 && fieldN e.2.val 0 5 == n.toNat && fieldN e.2.val 5 6 == g.toNat

/-- The dirty bit of 16 rows, marked by LU-port writes to a migrating group (R467). -/
def markDirty (s : State) (pl : Place) (port : BksPort) : State :=
  if port = .lu ∧ migratingGroup s pl.pot pl.group then
    updSched s pl.pot pl.group fun c =>
      { c with dirty := tset c.dirty (pl.bank.toNat * 2048 + pl.row.toNat / 16) true }
  else s

/-- A full-word write at a place, the merge buffer apart: dropped and counted on a remap mismatch (R402). Watch entries of
the word are cancelled (R392). -/
def writeRaw (s : State) (pl : Place) (w : Who) (bytes : List Byte) (poison : Bool) : State :=
  match placeRow (potOf s pl.pot) pl with
  | none =>
    updPot (reportMismatch s pl) pl.pot fun p => { p with pat := { p.pat with scrub := satField p.pat.scrub 56 8 1 } }
  | some ix =>
    let s0 := noteActivate s pl w (rowMask s ix).2
    let f := takeFlip s0 pl w.port
    let s1 := storeAt f.1 ix pl.col.toNat bytes poison f.2
    let s2 := copyWrite s1 pl bytes poison
    let s3 := markDirty s2 pl w.port
    updPot s3 pl.pot fun p => pmcAdd p 3 1

/-- Two places name one word. -/
def mergeHit (e : MergeEntry) (pl : Place) : Bool := e.bank == pl.bank && e.row == pl.row && e.col == pl.col

def moveWho : Who := ⟨.move, .eng, 0, 0⟩

/-- The read-modify-write of a merge buffer entry: the word read back under MOVE, the masked bytes put in, written with
poison when either had it (R202, R203). -/
def runMerge (s : State) (n : PotIx) (g : GroupIx) (e : MergeEntry) : State :=
  let pl : Place := ⟨n, g, e.bank, e.row, e.col⟩
  let r := readRaw (updSched s n g fun c => { c with events := satField c.events 56 16 1 }) pl moveWho
  writeRaw r.1 pl moveWho (mergeBytes r.2.bytes (bytesOfWord e.data) e.mask.toNat) (r.2.poison || e.poison)

/-- Take a word's merge entry out of its buffer. -/
def dropMerge (s : State) (pl : Place) : State :=
  updSched s pl.pot pl.group fun c => { c with merge := c.merge.filter fun e => !mergeHit e pl }

/-- A read or later write forces the word's entry first (R203). -/
def flushMerge (s : State) (pl : Place) : State :=
  match (schedOf (potOf s pl.pot) pl.group.toNat).merge.find? fun e => mergeHit e pl with
  | some e => runMerge (dropMerge s pl) pl.pot pl.group e
  | none => s

/-- A read of one word at its scheduler (R203). -/
def readWordAt (s : State) (pl : Place) (w : Who) : State × ReadData := readRaw (flushMerge s pl) pl w

/-- A full-word write at its scheduler replaces the word's entry (R202). -/
def writeWordAt (s : State) (pl : Place) (w : Who) (bytes : List Byte) (poison : Bool) : State :=
  writeRaw (dropMerge s pl) pl w bytes poison

/-- A narrow write at its scheduler (R202): merged into the word's entry; a full entry is written at once; a full buffer
first writes its oldest entry. -/
def narrowWriteAt (s : State) (pl : Place) (bytes : List Byte) (mask : BitVec 32) (poison : Bool) : State :=
  let c := schedOf (potOf s pl.pot) pl.group.toNat
  match c.merge.find? fun e => mergeHit e pl with
  | some e =>
    let e1 : MergeEntry :=
      { e with data := wordOfBytes (mergeBytes (bytesOfWord e.data) bytes mask.toNat), mask := e.mask ||| mask,
                 poison := e.poison || poison }
    if e1.mask = BitVec.allOnes 32 then writeRaw (dropMerge s pl) pl moveWho (bytesOfWord e1.data) e1.poison
    else updSched s pl.pot pl.group fun c => { c with merge := c.merge.map fun x => if mergeHit x pl then e1 else x }
  | none =>
    let s1 :=
      if c.merge.length < 16 then s
      else
        match c.merge with
        | old :: _ => flushMerge s { pl with bank := old.bank, row := old.row, col := old.col }
        | [] => s
    updSched s1 pl.pot pl.group fun c =>
      { c with merge := c.merge ++ [⟨pl.bank, pl.row, pl.col, wordOfBytes bytes, mask, poison⟩] }

/-! The pot map (R26 to R30). -/

/-- The identity entry of a home group; STATE 0b10 where its home pot is disabled (R27). -/
def homeEntry (s : State) (ix : Nat) : BitVec 32 :=
  BitVec.ofNat 32 (ix / 64 % 32 + ix % 64 * 32 + (if potEnabled s (BitVec.ofNat 5 (ix / 64)) then 0 else 2 ^ 24))
def pairOf (v : BitVec 32) : Pair32 := ⟨v, ~~~v⟩
/-- The hub's entry. -/
def hubEntry (s : State) (ix : Nat) : Pair32 := tget s.map.entries ix (pairOf (homeEntry s ix))
/-- The copy in a pot's resolution logic. -/
def potEntry (s : State) (n : PotIx) (ix : Nat) : Pair32 := tget (potOf s n).mapCopy ix (hubEntry s ix)

def entPot (e : BitVec 32) : PotIx := fieldB e 0 5
def entGroup (e : BitVec 32) : GroupIx := fieldB e 5 6
def entMirrorEn (e : BitVec 32) : Bool := bitAt e 11
def entMirrorPot (e : BitVec 32) : PotIx := fieldB e 12 5
def entMirrorGroup (e : BitVec 32) : GroupIx := fieldB e 17 6
def entState (e : BitVec 32) : Nat := fieldN e 23 2
def entWithState (e : BitVec 32) (st : Nat) : BitVec 32 := putField e 23 2 st

/-- Resolve an entry through a pot's copy (R28, R30): a copy that disagrees with its complement counts as lost, with a fault
record and a request for the hub's copy the first time. -/
def resolveEntry (s : State) (viewer : PotIx) (ix : Nat) : State × BitVec 32 :=
  let c := potEntry s viewer ix
  let p := potOf s viewer
  if p.mapLost.contains ix then (s, entWithState c.val 2)
  else if agree c.val c.comp then (s, c.val)
  else
    (sendFault (setPot s viewer { p with mapLost := p.mapLost ++ [ix] })
        (plainFault (potIsland viewer 7) 7 1 ix 0), entWithState c.val 2)

/-- A home place moved to the group an entry names. -/
def movePlace (pl : Place) (n : PotIx) (g : GroupIx) : Place := { pl with pot := n, group := g }

/-- What a module-address read gives: the data with its poison, and whether the entry was lost. -/
structure AddrRead where
  bytes : List Byte
  poison : Bool
  lost : Bool
  out : ReadOut
  deriving DecidableEq, Repr

/-- A write to the word waits at the scheduler: it cancels a conditional rewrite (R392). -/
def writeWaits (c : Sched) (pl : Place) : Bool :=
  (c.queue ++ c.rt ++ c.eng ++ c.sfe ++ c.lu).any fun e =>
    e.req.bank == pl.bank && e.req.row == pl.row && e.req.col == pl.col &&
      (match e.req.op with | .write _ _ => true | _ => false)

def patScrubAdd (s : State) (n : PotIx) (lo len : Nat) : State :=
  updPot s n fun p => { p with pat := { p.pat with scrub := satField p.pat.scrub lo len 1 } }

/-- A conditional rewrite of a word: cancelled, and counted SUPERSEDED, while a newer write to the word waits (R385, R390, R392). -/
def condRewrite (s : State) (pl : Place) (bytes : List Byte) : State :=
  if writeWaits (schedOf (potOf s pl.pot) pl.group.toNat) pl then patScrubAdd s pl.pot 40 16
  else writeRaw s pl ⟨.move, .pat, 0, 0⟩ bytes false

/-- Read the 32 B word at a module address (R25, R28, R385). Through a lost entry the read is poisoned and its data is a
free value (log entry 14). -/
def readAddr (s : State) (viewer : PotIx) (addr : BitVec 41) (w : Who) : State × AddrRead :=
  let r := resolveEntry s viewer (homeIx addr)
  let e := r.2
  if entState e = 2 then
    let f := takeFreeBytes 32 r.1
    (f.2, ⟨f.1, true, true, .uncorrectable⟩)
  else
    let pl := movePlace (homePlace addr) (entPot e) (entGroup e)
    let a := readWordAt r.1 pl w
    if entMirrorEn e && (a.2.out == .uncorrectable || a.2.out == .rowBad) then
      let m := readWordAt a.1 (movePlace pl (entMirrorPot e) (entMirrorGroup e)) w
      match m.2.out with
      | .clean | .corrected _ =>
        let s1 := if a.2.out == .rowBad then m.1 else condRewrite m.1 pl m.2.bytes
        (s1, ⟨m.2.bytes, false, false, m.2.out⟩)
      | _ => (m.1, ⟨a.2.bytes, a.2.poison, false, a.2.out⟩)
    else (a.1, ⟨a.2.bytes, a.2.poison, false, a.2.out⟩)

/-- The places a write through an entry is made at: PHYS, and the mirror or migration target (R463, R466). -/
def writePlaces (e : BitVec 32) (pl : Place) : List Place :=
  if entState e = 2 then []
  else
    movePlace pl (entPot e) (entGroup e) ::
      (if entMirrorEn e || entState e == 1 then [movePlace pl (entMirrorPot e) (entMirrorGroup e)] else [])

/-- Write the 32 B word at a module address; dropped through a lost entry (R28, R463, R466). -/
def writeAddr (s : State) (viewer : PotIx) (addr : BitVec 41) (w : Who) (bytes : List Byte) (poison : Bool) : State :=
  let r := resolveEntry s viewer (homeIx addr)
  runAll (fun t pl => writeWordAt t pl w bytes poison) (writePlaces r.2 (homePlace addr)) r.1

/-- A narrow write at a module address (R202). -/
def narrowAddr (s : State) (viewer : PotIx) (addr : BitVec 41) (bytes : List Byte) (mask : BitVec 32) (poison : Bool) :
    State :=
  let r := resolveEntry s viewer (homeIx addr)
  runAll (fun t pl => narrowWriteAt t pl bytes mask poison) (writePlaces r.2 (homePlace addr)) r.1

/-- A change of the entry has been requested and is not applied yet: what resolves through it waits (R29). -/
def homeChanging (s : State) (ix : Nat) : Bool := (tfind s.map.changes ix).isSome

/-- A channel takes accesses: its tag sweep is done and it is not in self-refresh (R204, R383). -/
def chanServes (s : State) (n : PotIx) (g : GroupIx) : Bool :=
  (schedOf (potOf s n) g.toNat).swept && !(schedOf (potOf s n) g.toNat).selfRefresh

/-- An access to an address need not wait: its entry is not changing (R29), and the channels it reaches take accesses (R204, R383); a
lost entry reaches none. -/
def addrServed (s : State) (viewer : PotIx) (addr : BitVec 41) : Bool :=
  !homeChanging s (homeIx addr) &&
    (writePlaces (potEntry s viewer (homeIx addr)).val (homePlace addr)).all fun pl => chanServes s pl.pot pl.group

/-- Read `n` consecutive 32 B words from a module address. -/
def readAddrN (viewer : PotIx) (w : Who) : (n : Nat) → State → BitVec 41 → State × List AddrRead
  | 0, s, _ => (s, [])
  | n + 1, s, a =>
    let r := readAddr s viewer a w
    let q := readAddrN viewer w n r.1 (a + 32)
    (q.1, r.2 :: q.2)

/-- Write bytes that may begin or end inside a word: whole words directly, parts as narrow writes (R202). `pos` is the byte
address of the first byte; `fuel` bounds the words. -/
def writeAddrBytes (viewer : PotIx) (w : Who) : (fuel : Nat) → State → Nat → List Byte → Bool → State
  | 0, s, _, _, _ => s
  | _, s, _, [], _ => s
  | f + 1, s, pos, bs, poison =>
    let off := pos % 32
    let k := Nat.min (32 - off) bs.length
    let base : BitVec 41 := BitVec.ofNat 41 (pos / 32 * 32)
    let s1 :=
      if off = 0 ∧ k = 32 then writeAddr s viewer base w (bs.take 32) poison
      else narrowAddr s viewer base (List.replicate off 0 ++ fitBytes (32 - off) (bs.take k))
        (BitVec.ofNat 32 ((2 ^ k - 1) * 2 ^ off)) poison
    writeAddrBytes viewer w f s1 (pos + k) (bs.drop k) poison

/-- Read `len` bytes from a byte address, with the poison of any word touched. -/
def readAddrBytes (s : State) (viewer : PotIx) (w : Who) (pos len : Nat) : State × List Byte × Bool :=
  let first := pos / 32
  let n := ceilDiv (pos % 32 + len) 32
  let r := readAddrN viewer w n s (BitVec.ofNat 41 (first * 32))
  let all := (r.2.map AddrRead.bytes).flatten
  (r.1, (all.drop (pos % 32)).take len, r.2.any AddrRead.poison)

end Sys2Proof.Machine
end

