-- ==== Sys2Proof/Machine/Bks.lean ====
section
/-!
DEFINITION. The bank schedulers: enforced timing and bands, refresh debts, admission, the pick of each scheduler cycle, the whistle,
the pick of a cycle and the whistle (R182 to R201).
-/

namespace Sys2Proof.Machine

/-! Enforced values (R185, R186, R206, R493). -/

/-- The values in force at a scheduler: cycles, half-cycles for tRRD and tFAW. -/
structure BksTiming where
  trcd : Nat
  trp : Nat
  tras : Nat
  trc : Nat
  tccd : Nat
  trrd : Nat
  tfaw : Nat
  tcl : Nat
  twl : Nat
  twr : Nat
  trtp : Nat
  twtr : Nat
  trefi : Nat
  trfc : Nat
  trfcpb : Nat
  txs : Nat
  allBank : Bool
  ageCap : Nat
  raise_ : Nat
  drop_ : Nat
  deriving DecidableEq, Repr

/-- The band of a die (R187). -/
def bandOf (p : Pot) (die : Nat) : Nat := (tget p.bands die 0).toNat

/-- A register of the BKS block has a parity fault (R493). -/
def bksParity (s : State) (n : PotIx) : Bool := (upto 4).any fun i => regBad s (potReg n (0x1000 + 8 * i))

/-- The enforced values (R186); under a parity fault those of band B2 with tREFI 1,218 and BKS_CTL at reset (R493). -/
def bksTiming (s : State) (n : PotIx) (g : GroupIx) : BksTiming :=
  let c := schedOf (potOf s n) g.toNat
  let bad := bksParity s n
  let b := if bad then 2 else bandOf (potOf s n) (dieOf g)
  let a := if bad then bksTimingAReset else c.timingA
  let t := if bad then bksTimingBReset else c.timingB
  let k := if bad then bksCtlReset else c.bctl
  let up := if b = 1 then 1 else if b = 2 then 3 else 0
  let tras := fieldN a 12 6
  let trp := fieldN a 6 6 + up
  { trcd := fieldN a 0 6 + up, trp := trp, tras := tras, trc := Nat.max (fieldN a 18 7 + up) (tras + trp), tccd := fieldN a 25 2,
    trrd := fieldN a 27 4, tfaw := fieldN a 31 6, tcl := fieldN a 37 5, twl := fieldN a 42 4,
    twr := fieldN a 46 5 + (if b = 2 then 3 else 0), trtp := fieldN a 51 4, twtr := fieldN a 55 5, trefi := fieldN t 0 13 / 2 ^ b,
    trfc := fieldN t 13 9, trfcpb := fieldN t 22 7, txs := fieldN t 29 9, allBank := bitAt t 38, ageCap := fieldN k 0 12, raise_ := fieldN k 21 5,
    drop_ := fieldN k 26 5 }

/-! The whistle (R199). -/

def updWhistle (t : BksTiming) (c : Sched) : Sched :=
  let k := c.rt.length
  if c.whistle then { c with whistle := !decide (k < t.drop_) }
  else if t.raise_ < k then { c with whistle := true, events := satField c.events 0 16 1 }
  else c

/-! Refresh debts (R189 to R191). -/

/-- Debts have the bank's number as key, and 16 for the channel in all-bank mode. -/
def debtOf (c : Sched) (k : Nat) : Nat := tget c.debts k 0
def maxDebt (c : Sched) : Nat := (c.debts.map Prod.snd).foldl Nat.max 0

/-- A change of REF_MODE carries the debt over (R189). -/
def refMode (old new : Bool) (c : Sched) : Sched :=
  if old == new then c
  else if new then { c with debts := [(16, maxDebt c)] }
  else { c with debts := (upto 16).map fun b => (b, debtOf c 16) }

/-- A die's band changes: a rise scales the debts of its channels; at B2 the eye is due for re-centring (R187, R188, R191). -/
def bandChange (s : State) (n : PotIx) (die : Nat) (band : Nat) : State :=
  let old := bandOf (potOf s n) die
  let one := fun (t : State) (ch : Nat) =>
    updSched t n (groupNo die ch) fun c =>
      { c with debts := c.debts.map (fun d => (d.1, d.2 * 2 ^ (band - old))), eyeCentred := c.eyeCentred && band == old }
  runAll one [0, 1, 2, 3] (updPot s n fun p => { p with bands := tset p.bands die (BitVec.ofNat 2 band) })

/-- The three registers buffered for the schedulers of a pot (R488). -/
def bksKeys (n : PotIx) : List Nat := [potReg n 0x1000, potReg n 0x1008, potReg n 0x1010]

/-- A scheduler applies what is buffered for it at its boundary, each write once; the buffer empties when all 64 have (R489). The
whistle follows its new limits in that cycle (R199). -/
def bksApply (s : State) (n : PotIx) (g : GroupIx) : State :=
  let one := fun (t : State) (key : Nat) =>
    match bufferOf t key with
    | none => t
    | some v =>
      let by_ := tget t.regs.applied key []
      if by_.contains g.toNat then t
      else
        let w : Word64 := BitVec.ofNat 64 v
        let t1 := updSched t n g fun c =>
          if key = potReg n 0x1000 then { c with timingA := w }
          else if key = potReg n 0x1008 then refMode (bitAt c.timingB 38) (bitAt w 38) { c with timingB := w }
          else { c with bctl := w }
        if 63 ≤ by_.length then
          let t2 := updPot (parityEnds (dropBuffer t1 key) key) n fun p =>
            if key = potReg n 0x1000 then { p with bksTimingA := w }
            else if key = potReg n 0x1008 then { p with bksTimingB := w } else { p with bksCtl := w }
          t2
        else { t1 with regs := { t1.regs with applied := tset t1.regs.applied key (by_ ++ [g.toNat]) } }
  let s1 := runAll one (bksKeys n) s
  updSched s1 n g (updWhistle (bksTiming s1 n g))

/-! Port buffers and admission (R192, R193). -/

def portBuf (c : Sched) : BksPort → List BksEntry
  | .rt => c.rt
  | .eng => c.eng
  | .sfe => c.sfe
  | .lu => c.lu
  | .pat => c.pat

def setPortBuf (c : Sched) (p : BksPort) (l : List BksEntry) : Sched :=
  match p with
  | .rt => { c with rt := l }
  | .eng => { c with eng := l }
  | .sfe => { c with sfe := l }
  | .lu => { c with lu := l }
  | .pat => { c with pat := l }

def portDepth : BksPort → Nat
  | .lu => 64
  | .pat => 8
  | _ => 32

def bksPorts : List BksPort := [.rt, .eng, .sfe, .lu, .pat]

/-- The arrival order: the cycle, then RT, ENG, SFE, LU, PAT, then within a port (R193, R194). -/
def entryBefore (a b : BksEntry) : Bool :=
  decide (a.arrived < b.arrived) ||
    (a.arrived == b.arrived &&
      (decide (portCode a.port < portCode b.port) || (a.port == b.port && decide (a.order < b.order))))

/-- BKS_REQUEST_ARRIVE: a request enters its port buffer; a full buffer leaves it at its source, and the patrol engine does not
feed its port under the whistle (R192, R200). -/
def execBksRequestArrive (n : PotIx) (group : GroupIx) (port : BksPort) (req : BksReq) (s : State) : Result :=
  let c := schedOf (potOf s n) group.toNat
  whenDo (potPresent s n && decide ((portBuf c port).length < portDepth port) && !(port == .pat && c.whistle)) s
    (updSched s n group fun c =>
      updWhistle (bksTiming s n group)
        { setPortBuf c port (portBuf c port ++ [⟨port, req, c.cycle, c.arrivals, false⟩]) with arrivals := c.arrivals + 1 })

def queueOfPort (c : Sched) (p : BksPort) : Nat := (c.queue.filter fun e => e.port == p).length

/-- One more entry of a port may enter: fewer than 32 of its own, and the reservations of the others still covered (R193). -/
def admissible (c : Sched) (p : BksPort) : Bool :=
  let need := ((bksPorts.filter (· != p)).map fun q => 4 - queueOfPort c q).sum
  decide (queueOfPort c p < 32) && decide (c.queue.length < 64) && decide (need ≤ 64 - c.queue.length - 1)

/-- The oldest waiting entry that is admissible. -/
def admitNext (c : Sched) : Option BksEntry :=
  ((bksPorts.filter (admissible c)).filterMap fun p => (portBuf c p)[0]?).foldl
    (fun b e => match b with | none => some e | some x => if entryBefore e x then some e else b) none

/-- The scheduler admits requests: its tag sweep is done, and it is not in a retrain or in self-refresh (R204, R383). -/
def admits (c : Sched) : Bool := c.swept && !c.retraining && !c.selfRefresh

/-- BKS_ADMIT: one entry enters the request queue. -/
def execBksAdmit (n : PotIx) (group : GroupIx) (s : State) : Result :=
  let c := schedOf (potOf s n) group.toNat
  match admitNext c with
  | none => .next s
  | some e =>
    whenDo (potPresent s n && admits c) s
      (updSched s n group fun c =>
        updWhistle (bksTiming s n group) { setPortBuf c e.port ((portBuf c e.port).drop 1) with queue := c.queue ++ [e] })

/-! Legality (R184, R185, R198). -/

/-- Half-cycles of this scheduler cycle in which an activate keeps tRRD and tFAW; `acts` lists the latest activates, newest
first. -/
def actHalf (t : BksTiming) (c : Sched) : Option Nat :=
  [2 * c.cycle, 2 * c.cycle + 1].find? fun h =>
    (match c.acts with | [] => true | a :: _ => decide (a + t.trrd ≤ h)) &&
      (match c.acts[3]? with | none => true | some a => decide (a + t.tfaw ≤ h))

/-- The bank may take an activate or a refresh: tRP, tRC and the refresh times are over. After a change of band the earlier command's
own value and the new one both hold (R187). -/
def rowReady (t : BksTiming) (c : Sched) (k : Bank) : Bool :=
  k.openRow.isNone && (!k.preed || decide (k.lastPre + Nat.max k.trp t.trp ≤ c.cycle)) &&
    (!k.acted || decide (k.lastAct + Nat.max k.trc t.trc ≤ c.cycle)) &&
    (!k.refed || decide (k.lastRef + (if k.refAll then t.trfc else t.trfcpb) ≤ c.cycle))

def preReady (t : BksTiming) (c : Sched) (k : Bank) : Bool :=
  k.openRow.isSome && decide (k.lastAct + t.tras ≤ c.cycle) && (!k.readed || decide (k.lastRead + t.trtp ≤ c.cycle)) &&
    (!k.wrote || decide (k.lastWriteEnd + Nat.max k.twr t.twr ≤ c.cycle))

/-- Crossing accesses in the window of 25 cycles that ends here (R184). -/
def crossed (c : Sched) : Nat := (c.crossings.filter fun x => decide (c.cycle < x + 25)).length

def isBus (r : BksReq) : Bool := r.op == .bus
/-- Every port's accesses cross the channel data bus but those of a working LU (R184). -/
def crosses (e : BksEntry) : Bool := e.port != .lu || isBus e.req || e.req.crossing
def isReadOp (r : BksReq) : Bool :=
  match r.op with
  | .read => true
  | _ => false

def rowHit (c : Sched) (e : BksEntry) : Bool := isBus e.req || decide ((bankOf c e.req.bank.toNat).openRow = some e.req.row)

/-- A column command may issue now. -/
def colReady (t : BksTiming) (c : Sched) (e : BksEntry) : Bool :=
  let k := bankOf c e.req.bank.toNat
  (!crosses e || (decide (crossed c < 32) && decide (c.busFree ≤ c.cycle))) &&
    (isBus e.req ||
      (rowHit c e && decide (k.lastAct + Nat.max k.trcd t.trcd ≤ c.cycle) && (!k.coled || decide (k.lastCol + t.tccd ≤ c.cycle)) &&
        (!isReadOp e.req || !k.wrote || decide (k.lastWriteEnd + t.twtr ≤ c.cycle))))

/-! The pick (R196, R197). -/

def entryAge (c : Sched) (e : BksEntry) : Nat := c.cycle - e.arrived

def sameWord (a b : BksReq) : Bool := !isBus a && !isBus b && a.bank == b.bank && a.row == b.row && a.col == b.col

/-- An older request for the same word goes first (R194). -/
def wordBlocked (c : Sched) (e : BksEntry) : Bool :=
  (c.queue ++ c.rt ++ c.eng ++ c.sfe ++ c.lu ++ c.pat).any fun x => entryBefore x e && sameWord x.req e.req

/-- R196: eligible under the whistle state. -/
def bksEligible (c : Sched) (e : BksEntry) : Bool :=
  !(c.whistle && e.port == .pat) && !(c.whistle && e.port == .lu && !rowHit c e)

/-- Requests of the queue, oldest first. -/
def insertEntry (e : BksEntry) : List BksEntry → List BksEntry
  | [] => [e]
  | x :: l => if entryBefore e x then e :: x :: l else x :: insertEntry e l

def byAge (c : Sched) : List BksEntry := c.queue.foldl (fun l e => insertEntry e l) []

/-- What a rule of bks_pick chooses: a refresh of a bank (16: the channel), or a request. -/
inductive Pick where
  | refresh (k : Nat)
  | req (e : BksEntry)
  deriving DecidableEq, Repr

/-- Choices in the order of the rules; the flag says that one of the first five rules makes the choice. -/
def picks (t : BksTiming) (c : Sched) : List (Pick × Bool) :=
  let ks := if t.allBank then [16] else upto 16
  let q := (byAge c).filter fun e => !wordBlocked c e
  let refr := fun (lo hi : Nat) => (ks.filter fun k => decide (lo ≤ debtOf c k) && decide (debtOf c k ≤ hi)).map Pick.refresh
  let first := fun (l : List Pick) => l.map fun x => (x, true)
  let later := fun (l : List Pick) => l.map fun x => (x, false)
  let started := q.filter BksEntry.started
  let rt := q.filter fun e => e.port == .rt
  first (refr 9 (maxDebt c)) ++ (if c.whistle then [] else first (refr 2 8)) ++
    (if c.whistle then first ((rt.filter (rowHit c)).map Pick.req) ++ first (rt.map Pick.req) else []) ++
    first ((q.filter fun e => decide (t.ageCap ≤ entryAge c e) && bksEligible c e).map Pick.req) ++
    later (started.map Pick.req) ++ later ((q.filter fun e => rowHit c e && bksEligible c e).map Pick.req) ++
    later ((q.filter (bksEligible c)).map Pick.req) ++
    later ((ks.filter fun k => debtOf c k == 1 && !(c.queue.any fun e => k == 16 || e.req.bank.toNat == k)).map Pick.refresh)

/-- Banks a choice concerns. -/
def pickBanks : Pick → List Nat
  | .refresh k => if k = 16 then upto 16 else [k]
  | .req e => if isBus e.req then [] else [e.req.bank.toNat]

/-- A row command for the channel. -/
inductive RowCmd where
  | act (e : BksEntry) (half : Nat)
  | pre (bank : Nat) (e : Option BksEntry)
  | ref (k half : Nat)
  deriving DecidableEq, Repr

/-- LU-port activates are chosen in 8 − C of every 8 tFAW windows (R414). -/
def luWindow (t : BksTiming) (clamp : Nat) (c : Sched) : Bool := decide (2 * c.cycle / Nat.max 1 t.tfaw % 8 < 8 - clamp)

/-- A started request still waits for its column command in the open row of a bank: that command follows by timing, whatever has
reserved the bank since (R196). -/
def columnDue (c : Sched) (b : Nat) : Bool := c.queue.any fun x => x.started && x.req.bank.toNat == b && !isBus x.req && rowHit c x

/-- The row command a choice needs next, when it is legal now. -/
def rowCmdOf (t : BksTiming) (clamp : Nat) (c : Sched) : Pick → Option RowCmd
  | .refresh k =>
    match (pickBanks (.refresh k)).find? fun b => (bankOf c b).openRow.isSome with
    | some b => if preReady t c (bankOf c b) && !columnDue c b then some (.pre b none) else none
    | none =>
      if (pickBanks (.refresh k)).all fun b => rowReady t c (bankOf c b) then
        if k = 16 then some (.ref k (2 * c.cycle)) else (actHalf t c).map (RowCmd.ref k)
      else none
  | .req e =>
    let k := bankOf c e.req.bank.toNat
    if isBus e.req || rowHit c e then none
    else if k.openRow.isSome then
      if preReady t c k && !columnDue c e.req.bank.toNat then some (.pre e.req.bank.toNat (some e))
      else none
    else if rowReady t c k && !(e.port == .lu && !luWindow t clamp c) then (actHalf t c).map (RowCmd.act e)
    else none

/-- Walk the choices for the row bus: a choice of the first five rules that cannot issue reserves its banks. -/
def rowWalk (t : BksTiming) (clamp : Nat) (c : Sched) : List (Pick × Bool) → List Nat → Option RowCmd × List Nat
  | [], held => (none, held)
  | x :: xs, held =>
    let bs := pickBanks x.1
    if bs.any held.contains then rowWalk t clamp c xs held
    else
      match rowCmdOf t clamp c x.1 with
      | some r => (some r, if x.2 then bs ++ held else held)
      | none => rowWalk t clamp c xs (if x.2 then bs ++ held else held)

/-- The started request whose column command may issue in a bank, oldest first. -/
def startedCol (t : BksTiming) (c : Sched) (bank : Nat) : Option BksEntry :=
  (byAge c).find? fun e => e.started && e.req.bank.toNat == bank && !isBus e.req && !wordBlocked c e && colReady t c e

/-- The column command of one bank: the first choice that concerns it, if it can issue. A choice of the first five rules that
cannot holds the bank, where then only a started request goes on. -/
def colPick (t : BksTiming) (c : Sched) (bank : Nat) : List (Pick × Bool) → Option BksEntry
  | [] => none
  | x :: xs =>
    match x.1 with
    | .refresh k => if x.2 && (pickBanks (.refresh k)).contains bank then startedCol t c bank else colPick t c bank xs
    | .req e =>
      if e.req.bank.toNat != bank then colPick t c bank xs
      else if colReady t c e then some e
      else if x.2 && !isBus e.req then startedCol t c bank
      else colPick t c bank xs

/-! Effects. -/

def bksClass : BksPort → Traffic
  | .rt => .host
  | .pat => .move
  | _ => .tensor
def bksWho (e : BksEntry) : Who := ⟨bksClass e.port, e.port, e.req.tag, e.req.infusion⟩
def bksPlace (n : PotIx) (g : GroupIx) (r : BksReq) : Place := ⟨n, g, r.bank, r.row, r.col⟩

def updBank (c : Sched) (b : Nat) (f : Bank → Bank) : Sched := setBank c b (f (bankOf c b))

/-- A bank's row opens with its tag latch, for the LU port or another; `restore` says that it is a working LU's own row that is opened
again (R183, R195, R382). -/
def actBank (s : State) (pl : Place) (w : Who) (half : Nat) (lu restore : Bool) : State :=
  let t := bksTiming s pl.pot pl.group
  let bad := match placeRow (potOf s pl.pot) pl with | some ix => (rowMask s ix).2 | none => false
  let s1 := noteActivate s pl w bad
  updPot (updSched s1 pl.pot pl.group fun c =>
    let c1 := updBank c pl.bank.toNat fun k =>
      { k with openRow := some pl.row, latchBad := bad, lastAct := c.cycle, acted := true, trcd := t.trcd, trc := t.trc,
               luRow := if lu then some pl.row else k.luRow }
    { c1 with acts := (half :: c.acts).take 4, events := satField c1.events 40 16 restore.toNat }) pl.pot
    fun p => pmcAdd (pmcAdd p 2 1) 4 restore.toNat

/-- A bank's row closes; a logical row of its LU stays (R195). -/
def preBank (t : BksTiming) (c : Sched) (b : Nat) : Sched :=
  updBank c b fun k => { k with openRow := none, latchBad := false, lastPre := c.cycle, preed := true, trp := t.trp }

/-- A column access is noted for the timing of its bank: a working LU's own moves its word within its slot (R185). -/
def colBank (t : BksTiming) (c : Sched) (b : Nat) (read own : Bool) : Sched :=
  updBank c b fun k =>
    { k with
      lastCol := c.cycle, coled := true
      lastRead := if read then c.cycle else k.lastRead
      readed := k.readed || read
      lastWriteEnd := if read then k.lastWriteEnd else c.cycle + (if own then 2 else t.twl + 2)
      wrote := k.wrote || !read
      twr := if read then k.twr else t.twr }

/-- The request's first command has been picked. -/
def startEntry (c : Sched) (e : BksEntry) : Sched := { c with queue := c.queue.map fun x => if x = e then { x with started := true } else x }

def doAct (s : State) (n : PotIx) (g : GroupIx) (e : BksEntry) (half : Nat) : State :=
  let k := bankOf (schedOf (potOf s n) g.toNat) e.req.bank.toNat
  let lu := e.port == .lu
  updSched (actBank s (bksPlace n g e.req) (bksWho e) half lu (lu && k.luRow == some e.req.row)) n g fun c => startEntry c e

def doPre (s : State) (n : PotIx) (g : GroupIx) (b : Nat) (e : Option BksEntry) : State :=
  let t := bksTiming s n g
  updSched s n g fun c =>
    match e with
    | some x => startEntry (preBank t c b) x
    | none => preBank t c b

/-- A refresh pays one debt; an overdue one is counted; the scheduler stands at its boundary (R190, R488). -/
def doRef (s : State) (n : PotIx) (g : GroupIx) (k half : Nat) : State :=
  let s1 := updSched s n g fun c =>
    let bs := pickBanks (.refresh k)
    let c1 := bs.foldl (fun c b => updBank c b fun x => { x with lastRef := c.cycle, refed := true, refAll := decide (k = 16) }) c
    { c1 with debts := tset c1.debts k (debtOf c k - 1), events := satField c1.events 32 8 (decide (9 ≤ debtOf c k)).toNat,
              acts := if k = 16 then c1.acts else (half :: c1.acts).take 4, refNow := true }
  bksApply s1 n g

/-- A column access moves its word, and the request leaves the queue (R183 to R185, R203); `aged` says that the age cap chose it. -/
def doCol (s : State) (n : PotIx) (g : GroupIx) (t : BksTiming) (aged : Bool) (e : BksEntry) : State :=
  let pl := bksPlace n g e.req
  let s1 := match e.req.op with
    | .read =>
      let r := readWordAt s pl (bksWho e)
      updSched r.1 n g fun c => { c with lastRead := some (wordOfBytes r.2.bytes, r.2.poison) }
    | .write d p => writeWordAt s pl (bksWho e) (bytesOfWord d) p
    | .bus => s
  updSched s1 n g fun c =>
    let c1 := if isBus e.req then c else colBank t c e.req.bank.toNat (isReadOp e.req) (!crosses e)
    { c1 with queue := c1.queue.erase e,
              crossings := if crosses e then (c.cycle :: c.crossings).take 32 else c.crossings,
              events := satField c1.events 72 16 aged.toNat }

/-- The age cap, and no rule before it, chooses a request (R196, R197). -/
def byAgeCap (t : BksTiming) (c : Sched) (e : BksEntry) : Bool :=
  decide (t.ageCap ≤ entryAge c e) && bksEligible c e && !(c.whistle && e.port == .rt)

/-- The column picks of the banks not reserved, in order of bank. -/
def doCols (n : PotIx) (g : GroupIx) (t : BksTiming) (ps : List (Pick × Bool)) : List Nat → State → State
  | [], s => s
  | b :: bs, s =>
    let c := schedOf (potOf s n) g.toNat
    match colPick t c b ps with
    | some e => doCols n g t ps bs (if c.queue.contains e then doCol s n g t (byAgeCap t c e) e else s)
    | none => doCols n g t ps bs s

/-- A choice still stands after the cycle's column commands. -/
def pickStands (c : Sched) : Pick → Bool
  | .refresh _ => true
  | .req e => c.queue.contains e

/-- A cycle passes; one with the whistle up is counted (R201). -/
def passCycle (s : State) (n : PotIx) (g : GroupIx) : State :=
  let w := (schedOf (potOf s n) g.toNat).whistle.toNat
  updPot (updSched s n g fun c => { c with cycle := c.cycle + 1, events := satField c.events 88 40 w }) n fun p => pmcAdd p 5 w

/-- One scheduler cycle (R196): the banks' column commands, then the row command that the timing still allows beside them. -/
def pickCycle (s : State) (n : PotIx) (g : GroupIx) : State :=
  let t := bksTiming s n g
  let c := { schedOf (potOf s n) g.toNat with refNow := false }
  let ps := picks t c
  let s1 := doCols n g t ps (upto 16) (updSched s n g fun _ => c)
  let c1 := schedOf (potOf s1 n) g.toNat
  let r := rowWalk t (potOf s1 n).pmt.clamp.toNat c1 (ps.filter fun x => pickStands c1 x.1) []
  let s2 := match r.1 with
    | some (.act e h) => doAct s1 n g e h
    | some (.pre b e) => doPre s1 n g b e
    | some (.ref k h) => doRef s1 n g k h
    | none => s1
  passCycle s2 n g

/-- REFRESH_INTERVAL: the interval of a bank, or of the channel in all-bank mode, has ended (R190). A refresh that then waits under
the whistle is counted as postponed (R200, R201). -/
def execRefreshInterval (n : PotIx) (group : GroupIx) (bank : BitVec 4) (s : State) : Result :=
  let t := bksTiming s n group
  let k := if t.allBank then 16 else bank.toNat
  whenDo (potPresent s n && !(schedOf (potOf s n) group.toNat).selfRefresh && (!t.allBank || bank == 0)) s
    (updSched s n group fun c =>
      let d := debtOf c k + 1
      { c with debts := tset c.debts k d, events := satField c.events 16 16 (c.whistle && decide (2 ≤ d) && decide (d ≤ 8)).toNat })

/-- A refresh blocks some bank for `k` more cycles at least. -/
def inRefresh (t : BksTiming) (c : Sched) (k : Nat) : Bool :=
  (upto 16).any fun b =>
    let x := bankOf c b
    x.refed && decide (c.cycle + k ≤ x.lastRef + (if x.refAll then t.trfc else t.trfcpb))

/-- EYE_RECENTRE: a channel of a die in B2 re-centres its read-receive eye, which takes 64 cycles of its data bus inside a refresh window
(R188). -/
def execEyeRecentre (n : PotIx) (group : GroupIx) (s : State) : Result :=
  let c := schedOf (potOf s n) group.toNat
  whenDo (potPresent s n && bandOf (potOf s n) (dieOf group) == 2 && !c.selfRefresh && inRefresh (bksTiming s n group) c 64) s
    (updSched s n group fun c => { c with eyeCentred := true, busFree := c.cycle + 64 })

end Sys2Proof.Machine
end

