-- ==== Sys2Proof/Machine/Crypto.lean ====
section
/-!
DEFINITION. SHA-512, HMAC-SHA-512 and the verification of Ed25519 signatures under RFC 8032, which the image checks, the owner key and
the key layers use (R436, R438, R444, R445, R452). Numbers are plain naturals; every recursion is on a list or a count.
-/

namespace Sys2Proof.Machine

/-! SHA-512. -/

/-- Round constants, in four parts. -/
def shaK0 : List Word64 :=
  [0x428A2F98D728AE22, 0x7137449123EF65CD, 0xB5C0FBCFEC4D3B2F, 0xE9B5DBA58189DBBC,
   0x3956C25BF348B538, 0x59F111F1B605D019, 0x923F82A4AF194F9B, 0xAB1C5ED5DA6D8118,
   0xD807AA98A3030242, 0x12835B0145706FBE, 0x243185BE4EE4B28C, 0x550C7DC3D5FFB4E2,
   0x72BE5D74F27B896F, 0x80DEB1FE3B1696B1, 0x9BDC06A725C71235, 0xC19BF174CF692694,
   0xE49B69C19EF14AD2, 0xEFBE4786384F25E3, 0x0FC19DC68B8CD5B5, 0x240CA1CC77AC9C65]
def shaK1 : List Word64 :=
  [0x2DE92C6F592B0275, 0x4A7484AA6EA6E483, 0x5CB0A9DCBD41FBD4, 0x76F988DA831153B5,
   0x983E5152EE66DFAB, 0xA831C66D2DB43210, 0xB00327C898FB213F, 0xBF597FC7BEEF0EE4,
   0xC6E00BF33DA88FC2, 0xD5A79147930AA725, 0x06CA6351E003826F, 0x142929670A0E6E70,
   0x27B70A8546D22FFC, 0x2E1B21385C26C926, 0x4D2C6DFC5AC42AED, 0x53380D139D95B3DF,
   0x650A73548BAF63DE, 0x766A0ABB3C77B2A8, 0x81C2C92E47EDAEE6, 0x92722C851482353B]
def shaK2 : List Word64 :=
  [0xA2BFE8A14CF10364, 0xA81A664BBC423001, 0xC24B8B70D0F89791, 0xC76C51A30654BE30,
   0xD192E819D6EF5218, 0xD69906245565A910, 0xF40E35855771202A, 0x106AA07032BBD1B8,
   0x19A4C116B8D2D0C8, 0x1E376C085141AB53, 0x2748774CDF8EEB99, 0x34B0BCB5E19B48A8,
   0x391C0CB3C5C95A63, 0x4ED8AA4AE3418ACB, 0x5B9CCA4F7763E373, 0x682E6FF3D6B2B8A3,
   0x748F82EE5DEFB2FC, 0x78A5636F43172F60, 0x84C87814A1F0AB72, 0x8CC702081A6439EC]
def shaK3 : List Word64 :=
  [0x90BEFFFA23631E28, 0xA4506CEBDE82BDE9, 0xBEF9A3F7B2C67915, 0xC67178F2E372532B,
   0xCA273ECEEA26619C, 0xD186B8C721C0C207, 0xEADA7DD6CDE0EB1E, 0xF57D4F7FEE6ED178,
   0x06F067AA72176FBA, 0x0A637DC5A2C898A6, 0x113F9804BEF90DAE, 0x1B710B35131C471B,
   0x28DB77F523047D84, 0x32CAAB7B40C72493, 0x3C9EBE0A15C9BEBC, 0x431D67C49C100D4C,
   0x4CC5D4BECB3E42B6, 0x597F299CFC657E2A, 0x5FCB6FAB3AD6FAEC, 0x6C44198C4A475817]
def shaK : List Word64 := shaK0 ++ shaK1 ++ shaK2 ++ shaK3
/-- The initial hash value. -/
def shaInit : List Word64 :=
  [0x6A09E667F3BCC908, 0xBB67AE8584CAA73B, 0x3C6EF372FE94F82B, 0xA54FF53A5F1D36F1,
   0x510E527FADE682D1, 0x9B05688C2B3E6C1F, 0x1F83D9ABFB41BD6B, 0x5BE0CD19137E2179]

/-- Bytes of a number, most significant first. -/
def bytesBE (k v : Nat) : List Byte := (bytesOfNat k v).reverse
def natBE (bs : List Byte) : Nat := natOfBytes bs.reverse

/-- The message with its padding: a one bit, zeros, the length in 128 bits. -/
def shaPad (bs : List Byte) : List Byte :=
  bs ++ [0x80] ++ List.replicate ((239 - bs.length % 128) % 128) 0 ++ bytesBE 16 (8 * bs.length)

def rotr (w : Word64) (k : Nat) : Word64 := w.rotateRight k

/-- The next word of the message schedule from the last sixteen, newest first. -/
def shaNext (ws : List Word64) : Word64 :=
  let a := nth ws 14 0
  let b := nth ws 1 0
  (rotr b 19 ^^^ rotr b 61 ^^^ b >>> 6) + nth ws 6 0 + (rotr a 1 ^^^ rotr a 8 ^^^ a >>> 7) + nth ws 15 0

/-- The whole schedule, newest word first. -/
def shaSchedule : (n : Nat) → List Word64 → List Word64
  | 0, ws => ws
  | n + 1, ws => shaSchedule n (shaNext ws :: ws)

/-- One round on the eight working variables. -/
def shaRound (v : List Word64) (kw : Word64 × Word64) : List Word64 :=
  match v with
  | [a, b, c, d, e, f, g, h] =>
    let t1 := h + (rotr e 14 ^^^ rotr e 18 ^^^ rotr e 41) + ((e &&& f) ^^^ (~~~e &&& g)) + kw.1 + kw.2
    let t2 := (rotr a 28 ^^^ rotr a 34 ^^^ rotr a 39) + ((a &&& b) ^^^ (a &&& c) ^^^ (b &&& c))
    [t1 + t2, a, b, c, d + t1, e, f, g]
  | l => l

/-- One block of 128 B. -/
def shaBlock (h : List Word64) (block : List Byte) : List Word64 :=
  let ws := (chunks 8 16 block).map fun b => (BitVec.ofNat 64 (natBE b) : Word64)
  let all := (shaSchedule 64 ws.reverse).reverse
  List.zipWith (· + ·) h ((shaK.zip all).foldl shaRound h)

def sha512 (bs : List Byte) : List Byte :=
  let m := shaPad bs
  (((chunks 128 (m.length / 128) m).foldl shaBlock shaInit).map fun w => bytesBE 8 w.toNat).flatten

/-- HMAC-SHA-512. -/
def hmac512 (key msg : List Byte) : List Byte :=
  let k := fitBytes 128 (if 128 < key.length then sha512 key else key)
  sha512 (k.map (· ^^^ 0x5C) ++ sha512 (k.map (· ^^^ 0x36) ++ msg))

/-! Ed25519 (RFC 8032): the curve over the integers modulo 2^255 − 19. -/

def edP : Nat := 2 ^ 255 - 19
def edL : Nat := 2 ^ 252 + 27742317777372353535851937790883648493

/-- b to the power e modulo p, by the binary digits of e; `k` bounds their number. -/
def powMod (p : Nat) : (k b e : Nat) → Nat
  | 0, _, _ => 1
  | k + 1, b, e =>
    let r := powMod p k (b * b % p) (e / 2)
    if e % 2 = 1 then r * b % p else r
def edInv (x : Nat) : Nat := powMod edP 255 x (edP - 2)
def edD : Nat := (edP - 121665) * edInv 121666 % edP

/-- A point in extended coordinates. -/
structure EdPoint where
  x : Nat
  y : Nat
  z : Nat
  t : Nat
  deriving DecidableEq, Repr

def edZero : EdPoint := ⟨0, 1, 1, 0⟩
def edSub (a b : Nat) : Nat := (a + (edP - b % edP)) % edP

def edAdd (p q : EdPoint) : EdPoint :=
  let a := edSub p.y p.x * edSub q.y q.x % edP
  let b := (p.y + p.x) * (q.y + q.x) % edP
  let c := 2 * p.t * q.t % edP * edD % edP
  let d := 2 * p.z * q.z % edP
  let e := edSub b a
  let f := edSub d c
  let g := (d + c) % edP
  let h := (b + a) % edP
  ⟨e * f % edP, g * h % edP, f * g % edP, e * h % edP⟩

/-- k · p, by the binary digits of k; `n` bounds their number. -/
def edMul : (n k : Nat) → EdPoint → EdPoint
  | 0, _, _ => edZero
  | n + 1, k, p =>
    let r := edMul n (k / 2) (edAdd p p)
    if k % 2 = 1 then edAdd p r else r

def edSame (p q : EdPoint) : Bool :=
  decide (p.x * q.z % edP = q.x * p.z % edP) && decide (p.y * q.z % edP = q.y * p.z % edP)

/-- The x of a y with a sign bit, or none. -/
def edRecover (y sign : Nat) : Option Nat :=
  let u := edSub (y * y % edP) 1
  let v := (edD * (y * y % edP) + 1) % edP
  let x2 := u * edInv v % edP
  let x := powMod edP 255 x2 ((edP + 3) / 8)
  let root := if x * x % edP = x2 then some x
    else
      let x' := x * powMod edP 255 2 ((edP - 1) / 4) % edP
      if x' * x' % edP = x2 then some x' else none
  match root with
  | none => none
  | some r => if r = 0 ∧ sign = 1 then none else some (if r % 2 = sign then r else (edP - r) % edP)

/-- A point from its 32 bytes. -/
def edDecode (bs : List Byte) : Option EdPoint :=
  let n := natOfBytes bs
  let y := n % 2 ^ 255
  if edP ≤ y then none
  else (edRecover y (n / 2 ^ 255 % 2)).map fun x => ⟨x, y, 1, x * y % edP⟩

/-- The base point: y = 4/5, x even. -/
def edBase : EdPoint :=
  let y := 4 * edInv 5 % edP
  let x := (edRecover y 0).getD 0
  ⟨x, y, 1, x * y % edP⟩

/-- The 32 bytes of a point. -/
def edEncode (p : EdPoint) : List Byte :=
  let zi := edInv p.z
  bytesOfNat 32 (p.y * zi % edP + (p.x * zi % edP) % 2 * 2 ^ 255)

/-- Verification of a 64 B signature on a message under a 32 B public key, by the equation with the cofactor. -/
def edVerify (key sig msg : List Byte) : Bool :=
  let r := sig.take 32
  let sN := natOfBytes ((sig.drop 32).take 32)
  match edDecode key, edDecode r with
  | some a, some rp =>
    let k := natOfBytes (sha512 (r ++ key ++ msg)) % edL
    decide (sig.length = 64) && decide (sN < edL) &&
      edSame (edMul 4 8 (edMul 253 sN edBase)) (edMul 4 8 (edAdd rp (edMul 253 k a)))
  | _, _ => false

/-- The public key of a 32 B seed. -/
def edPublic (seed : List Byte) : List Byte :=
  let h := natOfBytes ((sha512 seed).take 32)
  edEncode (edMul 255 (h % 2 ^ 254 / 8 * 8 + 2 ^ 254) edBase)

end Sys2Proof.Machine
end

