-- ==== Sys2Proof/Machine/Float.lean ====
section
/-!
DEFINITION. Arithmetic on the number formats of R138: exact values, one rounding into a format (R144 to R146), and the
operations that the leaf units, the matrix engine, the vector engine and the sift engine share.
-/

namespace Sys2Proof.Machine

/-- An exact value: a NaN, an infinity, or ± m × 2^e. -/
inductive FV where
  | nan
  | inf (neg : Bool)
  | fin (neg : Bool) (m : Nat) (e : Int)
  deriving DecidableEq, Repr

def fvZero : FV := .fin false 0 0
def fvOne : FV := .fin false 1 0
def fvOfInt (i : Int) : FV := .fin (decide (i < 0)) i.natAbs 0
def fvOfNat (n : Nat) : FV := .fin false n 0

/-- A binary format: exponent and mantissa bits, bias, the code of its largest finite magnitude, and the codes of its
infinity and of the NaN it gives out, where it has them (R138). -/
structure FFmt where
  ebits : Nat
  mbits : Nat
  bias : Int
  maxCode : Nat
  infCode : Option Nat
  nanCode : Option Nat
  deriving DecidableEq, Repr

def fmtFp32 : FFmt := ⟨8, 23, 127, 0x7F7FFFFF, some 0x7F800000, some 0x7FC00000⟩
def fmtBf16 : FFmt := ⟨8, 7, 127, 0x7F7F, some 0x7F80, some 0x7FC0⟩
def fmtFp16 : FFmt := ⟨5, 10, 15, 0x7BFF, some 0x7C00, some 0x7E00⟩
def fmtE4m3 : FFmt := ⟨4, 3, 7, 0x7E, none, some 0x7F⟩
def fmtE5m2 : FFmt := ⟨5, 2, 15, 0x7B, some 0x7C, some 0x7E⟩
def fmtE3m2 : FFmt := ⟨3, 2, 3, 0x1F, none, none⟩
def fmtE2m3 : FFmt := ⟨2, 3, 1, 0x1F, none, none⟩
def fmtE2m1 : FFmt := ⟨2, 1, 1, 7, none, none⟩

/-- The float format of a format code (R90); none for the integer codes. -/
def floatFmt : Nat → Option FFmt
  | 0 => some fmtFp32
  | 1 => some fmtBf16
  | 2 => some fmtFp16
  | 3 => some fmtE4m3
  | 4 => some fmtE5m2
  | 7 => some fmtE4m3
  | 8 => some fmtE5m2
  | 9 => some fmtE3m2
  | 10 => some fmtE2m3
  | 11 => some fmtE2m1
  | _ => none

def isMx (fmt : Nat) : Bool := decide (7 ≤ fmt ∧ fmt ≤ 12)
/-- Integer codes: INT8, INT4 and INT32. -/
def isIntFmt (fmt : Nat) : Bool := fmt == 5 || fmt == 6 || fmt == 13
/-- INT8, INT4 and MXINT8 widths and least step (R138): bits and the power of two of one unit. -/
def intFmt : Nat → Option (Nat × Int)
  | 5 => some (8, 0)
  | 6 => some (4, 0)
  | 12 => some (8, -6)
  | 13 => some (32, 0)
  | _ => none

/-- Bits of an element (R90, R138, R139); 0 for the reserved codes. -/
def elemBits : Nat → Nat
  | 0 => 32
  | 1 => 16
  | 2 => 16
  | 3 => 8
  | 4 => 8
  | 5 => 8
  | 6 => 4
  | 7 => 8
  | 8 => 8
  | 9 => 6
  | 10 => 6
  | 11 => 4
  | 12 => 8
  | 13 => 32
  | _ => 0

/-- Decode a code of a float format. -/
def decodeFloat (f : FFmt) (code : Nat) : FV :=
  let neg := code.testBit (f.ebits + f.mbits)
  let mag := code % 2 ^ (f.ebits + f.mbits)
  let ex := mag / 2 ^ f.mbits
  let mant := mag % 2 ^ f.mbits
  if f.maxCode < mag then (if f.infCode = some mag then .inf neg else .nan)
  else if ex = 0 then .fin neg mant (1 - f.bias - f.mbits)
  else .fin neg (2 ^ f.mbits + mant) (ex - f.bias - f.mbits)

/-- The signed value of an integer code. -/
def signedOf (bits code : Nat) : Int := if code % 2 ^ bits < 2 ^ (bits - 1) then code % 2 ^ bits else (code % 2 ^ bits : Int) - 2 ^ bits

/-- Decode an element of a format code (R138, R240); a reserved code decodes as zero and is refused before use. -/
def decodeElem (fmt code : Nat) : FV :=
  match floatFmt fmt with
  | some f => decodeFloat f code
  | none =>
    match intFmt fmt with
    | some (b, u) => let v := signedOf b code; .fin (decide (v < 0)) v.natAbs u
    | none => fvZero

def fvOfF32 (x : F32) : FV := decodeFloat fmtFp32 x.toNat

def fvNeg : FV → FV
  | .nan => .nan
  | .inf n => .inf (!n)
  | .fin n m e => .fin (!n) m e

def fvAbs : FV → FV
  | .nan => .nan
  | .inf _ => .inf false
  | .fin _ m e => .fin false m e

def fvIsNan : FV → Bool
  | .nan => true
  | _ => false

def fvIsInf : FV → Bool
  | .inf _ => true
  | _ => false

def fvIsZero : FV → Bool
  | .fin _ 0 _ => true
  | _ => false

/-- The signed mantissa at a common exponent. -/
def fvAlign (neg : Bool) (m : Nat) (e lo : Int) : Int :=
  let v : Int := (m * 2 ^ (e - lo).toNat : Nat)
  if neg then -v else v

/-- Exact sum; +inf + −inf and NaN give NaN (R146, R236). An exact zero is +0 unless both addends are −0. -/
def fvAdd : FV → FV → FV
  | .nan, _ => .nan
  | _, .nan => .nan
  | .inf a, .inf b => if a = b then .inf a else .nan
  | .inf a, _ => .inf a
  | _, .inf b => .inf b
  | .fin na ma ea, .fin nb mb eb =>
    let lo := if ea ≤ eb then ea else eb
    let s := fvAlign na ma ea lo + fvAlign nb mb eb lo
    if s = 0 then .fin (na && nb) 0 0 else .fin (decide (s < 0)) s.natAbs lo

def fvSub (a b : FV) : FV := fvAdd a (fvNeg b)

/-- Exact product; 0 × inf and NaN give NaN (R146, R236). -/
def fvMul : FV → FV → FV
  | .nan, _ => .nan
  | _, .nan => .nan
  | .inf a, .inf b => .inf (a != b)
  | .inf a, .fin nb mb _ => if mb = 0 then .nan else .inf (a != nb)
  | .fin na ma _, .inf b => if ma = 0 then .nan else .inf (na != b)
  | .fin na ma ea, .fin nb mb eb => .fin (na != nb) (ma * mb) (ea + eb)

/-- Multiply by a power of two. -/
def fvScale (x : FV) (k : Int) : FV :=
  match x with
  | .fin n m e => .fin n m (e + k)
  | y => y

/-- Numeric order of two values that are not NaN; −0 equals +0. -/
def fvLt : FV → FV → Bool
  | .nan, _ => false
  | _, .nan => false
  | .inf a, .inf b => a && !b
  | .inf a, _ => a
  | _, .inf b => !b
  | .fin na ma ea, .fin nb mb eb =>
    let lo := if ea ≤ eb then ea else eb
    decide (fvAlign na ma ea lo < fvAlign nb mb eb lo)

def fvEq (a b : FV) : Bool := !fvIsNan a && !fvIsNan b && !fvLt a b && !fvLt b a
def fvLe (a b : FV) : Bool := fvLt a b || fvEq a b

/-- floor(log2 (m × 2^e)) for m > 0. -/
def magExp (m : Nat) (e : Int) : Int := e + m.log2

/-- Units of 2^q in m × 2^e, rounded down, with the discarded part over its divisor. -/
def unitsAt (m : Nat) (e q : Int) : Nat × Nat × Nat :=
  if q ≤ e then (m * 2 ^ (e - q).toNat, 0, 1)
  else
    let d := 2 ^ (q - e).toNat
    (m / d, m % d, d)

/-- Round units to a whole number: to nearest even, or up where the draw is below the 16-bit fraction (R144). -/
def roundUnits (u : Nat × Nat × Nat) (draw : Option Nat) : Nat :=
  match draw with
  | some r => if r < u.2.1 * 65536 / u.2.2 then u.1 + 1 else u.1
  | none => if u.2.2 < 2 * u.2.1 ∨ (u.2.2 = 2 * u.2.1 ∧ u.1 % 2 = 1) then u.1 + 1 else u.1

/-- The magnitude code of a positive finite value in a format, its range apart (R144): codes rise with the value. -/
def magCode (f : FFmt) (m : Nat) (e : Int) (draw : Option Nat) : Nat :=
  if m = 0 then 0
  else
    let emin := 1 - f.bias
    let ex := if magExp m e ≤ emin then emin else magExp m e
    (ex - emin).toNat * 2 ^ f.mbits + roundUnits (unitsAt m e (ex - f.mbits)) draw

/-- The value of a format's largest finite magnitude is exceeded. -/
def aboveMax (f : FFmt) (m : Nat) (e : Int) : Bool :=
  match decodeFloat f f.maxCode with
  | .fin _ mm me => fvLt (.fin false mm me) (.fin false m e)
  | _ => false

/-- Convert to a float format under R144 to R146: the code, the NaNs lost and the overflows. A value above the range under
stochastic rounding overflows with its draw unused (log entry 15). -/
def toFloat (f : FFmt) (x : FV) (draw : Option Nat) (sat : Bool) : Nat × NumEv :=
  let sgn := fun (neg : Bool) (c : Nat) => c + (if neg then 2 ^ (f.ebits + f.mbits) else 0)
  match x with
  | .nan =>
    match f.nanCode with
    | some c => (c, .zero)
    | none => (0, ⟨1, 0⟩)
  | .inf n =>
    match f.infCode with
    | some c => (sgn n c, .zero)
    | none => (sgn n f.maxCode, ⟨0, 1⟩)
  | .fin n m e =>
    let c := magCode f m e draw
    if f.maxCode < c ∨ (draw.isSome ∧ aboveMax f m e) then
      match f.infCode with
      | some ic => (sgn n (if sat then f.maxCode else ic), ⟨0, 1⟩)
      | none => (sgn n f.maxCode, ⟨0, 1⟩)
    else (sgn n c, .zero)

/-- Round a finite value to a whole number of units 2^u. -/
def toUnits (neg : Bool) (m : Nat) (e u : Int) (draw : Option Nat) : Int :=
  let v : Int := roundUnits (unitsAt m e u) draw
  if neg then -v else v

/-- Saturate to a signed width: the value and whether it was cut. -/
def satInt (bits : Nat) (v : Int) : Int × Nat :=
  if 2 ^ (bits - 1) - 1 < v then (2 ^ (bits - 1) - 1, 1) else if v < -2 ^ (bits - 1) then (-2 ^ (bits - 1), 1) else (v, 0)

/-- The two's-complement code of a signed value. -/
def intCode (bits : Nat) (v : Int) : Nat := (v % 2 ^ bits).toNat

/-- The magnitude of a finite value exceeds the largest of its sign in a signed width, in units of 2^u. -/
def aboveInt (bits : Nat) (neg : Bool) (m : Nat) (e u : Int) : Bool :=
  fvLt (.fin false (if neg then 2 ^ (bits - 1) else 2 ^ (bits - 1) - 1) u) (.fin false m e)

/-- Convert to an integer format (R145, R146): a NaN gives 0, everything out of range saturates. Under stochastic rounding a value
above the range saturates with its draw unused (R144; log entry 15). -/
def toIntFmt (bits : Nat) (u : Int) (x : FV) (draw : Option Nat) : Nat × NumEv :=
  match x with
  | .nan => (0, ⟨1, 0⟩)
  | .inf n => (intCode bits (if n then -2 ^ (bits - 1) else 2 ^ (bits - 1) - 1), ⟨0, 1⟩)
  | .fin n m e =>
    if draw.isSome && aboveInt bits n m e u then (intCode bits (if n then -2 ^ (bits - 1) else 2 ^ (bits - 1) - 1), ⟨0, 1⟩)
    else let s := satInt bits (toUnits n m e u draw); (intCode bits s.1, ⟨0, s.2⟩)

/-- Convert to the format of a code (R138): the element's code and its numeric events. -/
def convertElem (fmt : Nat) (x : FV) (draw : Option Nat) (sat : Bool) : Nat × NumEv :=
  match floatFmt fmt with
  | some f => toFloat f x draw sat
  | none =>
    match intFmt fmt with
    | some (b, u) => toIntFmt b u x draw
    | none => (0, .zero)

/-- Stochastic rounding applies to the output codes 0x3 to 0xC (R91). -/
def stochasticFmt (fmt : Nat) : Bool := decide (3 ≤ fmt ∧ fmt ≤ 12)

/-! FP32 operations, each rounded once to nearest even (R142, R235). -/

def roundF32 (x : FV) : F32 := BitVec.ofNat 32 (toFloat fmtFp32 x none false).1
/-- The overflows of that rounding. -/
def roundEv (x : FV) : NumEv := (toFloat fmtFp32 x none false).2
/-- The same under a SAT field, which selects the largest finite value on overflow (R145). -/
def roundSat (sat : Bool) (x : FV) : F32 := BitVec.ofNat 32 (toFloat fmtFp32 x none sat).1

def f32Zero : F32 := 0
def f32One : F32 := 0x3F800000
def f32Nan : F32 := 0x7FC00000
def f32Inf (neg : Bool) : F32 := if neg then 0xFF800000 else 0x7F800000
def f32IsNan (x : F32) : Bool := fvIsNan (fvOfF32 x)
def f32IsInf (x : F32) : Bool := fvIsInf (fvOfF32 x)
def f32IsZero (x : F32) : Bool := fvIsZero (fvOfF32 x)

def f32Add (a b : F32) : F32 := roundF32 (fvAdd (fvOfF32 a) (fvOfF32 b))
def f32Sub (a b : F32) : F32 := roundF32 (fvSub (fvOfF32 a) (fvOfF32 b))
def f32Mul (a b : F32) : F32 := roundF32 (fvMul (fvOfF32 a) (fvOfF32 b))
def f32Fma (a b c : F32) : F32 := roundF32 (fvAdd (fvMul (fvOfF32 a) (fvOfF32 b)) (fvOfF32 c))
def f32Lt (a b : F32) : Bool := fvLt (fvOfF32 a) (fvOfF32 b)
def f32Eq (a b : F32) : Bool := fvEq (fvOfF32 a) (fvOfF32 b)
def f32Neg (a : F32) : F32 := if f32IsNan a then f32Nan else a ^^^ 0x80000000
def f32Abs (a : F32) : F32 := if f32IsNan a then f32Nan else a &&& 0x7FFFFFFF
def f32OfInt (i : Int) : F32 := roundF32 (fvOfInt i)
def f32OfNat (n : Nat) : F32 := roundF32 (fvOfNat n)

/-- The larger value: NaN in gives quiet NaN, max(+0.0, −0.0) = +0.0 (R46, R234, R245). -/
def f32Max (a b : F32) : F32 :=
  if f32IsNan a || f32IsNan b then f32Nan
  else if f32Lt a b then b else if f32Lt b a then a
  else if f32IsZero a then a &&& b else a

/-- The smaller value: NaN in gives quiet NaN, min(+0.0, −0.0) = −0.0 (R234, R245). -/
def f32Min (a b : F32) : F32 :=
  if f32IsNan a || f32IsNan b then f32Nan
  else if f32Lt b a then b else if f32Lt a b then a
  else if f32IsZero a then a ||| b else a

/-- An operation made a NaN from inputs none of which is NaN (R146). -/
def newNan (ins : List FV) (out : FV) : NumEv := if fvIsNan out && ins.all (!fvIsNan ·) then ⟨1, 0⟩ else .zero

/-! The stochastic source (R144). -/

def lfsrStep (x : BitVec 32) : BitVec 32 :=
  if bitAt x 0 then (x >>> 1) ^^^ 0x80200003 else x >>> 1

def lfsrSteps : Nat → BitVec 32 → BitVec 32
  | 0, x => x
  | n + 1, x => lfsrSteps n (lfsrStep x)

/-- A draw: the state after 16 steps and its bits [15:0]. -/
def lfsrDraw (x : BitVec 32) : BitVec 32 × Nat := let y := lfsrSteps 16 x; (y, fieldN y 0 16)

/-- SEED XOR (TAG << 16) XOR the unit's number, 1 in place of zero. -/
def lfsrSeed (seed : BitVec 32) (tag : BitVec 16) (index : Nat) : BitVec 32 :=
  let x := seed ^^^ BitVec.ofNat 32 (tag.toNat * 65536) ^^^ BitVec.ofNat 32 index
  if x = 0 then 1 else x

/-- Convert a list of values in order with one register, drawing for each under stochastic rounding. -/
def convertList (fmt : Nat) (stoch sat : Bool) : BitVec 32 → List FV → BitVec 32 × List Nat × NumEv
  | r, [] => (r, [], .zero)
  | r, x :: xs =>
    let d := if stoch && stochasticFmt fmt then lfsrDraw r else (r, 0)
    let c := convertElem fmt x (if stoch && stochasticFmt fmt then some d.2 else none) sat
    let t := convertList fmt stoch sat d.1 xs
    (t.1, c.1 :: t.2.1, addEv c.2 t.2.2)

/-! Packing (R139). -/

/-- Element codes from bytes, `bits` wide each, lowest first. -/
def unpackElems (bits n : Nat) (bs : List Byte) : List Nat :=
  let v := natOfBytes bs
  (upto n).map fun i => v / 2 ^ (bits * i) % 2 ^ bits

/-- Bytes of element codes. -/
def packElems (bits : Nat) (codes : List Nat) : List Byte :=
  let v := codes.zipIdx.foldl (fun a c => a + c.1 % 2 ^ bits * 2 ^ (bits * c.2)) 0
  bytesOfNat (ceilDiv (bits * codes.length) 8) v

/-! Functions that are not dyadic: an integer that brackets the value with one more bit that says whether it is exact, so that
one rounding of it is the rounding of the value (R235; log entry 16). -/

/-- A value just below or at m × 2^e: the last bit carries whether something was cut. -/
def fvSticky (neg : Bool) (m : Nat) (e : Int) (exact_ : Bool) : FV := .fin neg (2 * m + (if exact_ then 0 else 1)) (e - 1)

/-- Quotient of finite values with mb > 0. -/
def fvQuot (neg : Bool) (ma : Nat) (ea : Int) (mb : Nat) (eb : Int) : FV :=
  let k := 80 + mb.log2
  let n := ma * 2 ^ k
  fvSticky neg (n / mb) (ea - eb - k) (n % mb == 0)

def fvDiv : FV → FV → FV
  | .nan, _ => .nan
  | _, .nan => .nan
  | .inf _, .inf _ => .nan
  | .inf a, .fin nb _ _ => .inf (a != nb)
  | .fin na _ _, .inf b => .fin (na != b) 0 0
  | .fin na ma ea, .fin nb mb eb =>
    if mb = 0 then (if ma = 0 then .nan else .inf (na != nb))
    else if ma = 0 then .fin (na != nb) 0 0
    else fvQuot (na != nb) ma ea mb eb

/-- Integer square root, bit by bit from bit n − 1 down. -/
def isqrtN (x : Nat) : (n acc : Nat) → Nat
  | 0, acc => acc
  | n + 1, acc => let t := acc + 2 ^ n; isqrtN x n (if t * t ≤ x then t else acc)

/-- √(m × 2^e) with m > 0: the exponent is made even and the mantissa long. -/
def fvSqrtMag (m : Nat) (e : Int) : FV :=
  let odd := e % 2
  let m1 := m * 2 ^ odd.toNat * 2 ^ 160
  let r := isqrtN m1 (m1.log2 / 2 + 1) 0
  fvSticky false r ((e - odd - 160) / 2) (r * r == m1)

def fvSqrt : FV → FV
  | .nan => .nan
  | .inf n => if n then .nan else .inf false
  | .fin n m e => if m = 0 then .fin n 0 0 else if n then .nan else fvSqrtMag m e

def fvRsqrt : FV → FV
  | .nan => .nan
  | .inf n => if n then .nan else .fin false 0 0
  | .fin n m e =>
    if m = 0 then .inf n
    else if n then .nan
    else
      let odd := e % 2
      let m1 := m * 2 ^ odd.toNat
      let k := 200 + 2 * m1.log2
      let q := 2 ^ k / m1
      let r := isqrtN q (q.log2 / 2 + 1) 0
      fvSticky false r (-((e - odd) / 2) - k / 2) (decide (2 ^ k % m1 = 0) && r * r == q)

/-- Fixed point with 256 fraction bits. -/
def fixOne : Nat := 2 ^ 256

/-- Σ x^k / k! from the term `t` on, `n` terms, term number `k`. -/
def expSeries (x : Nat) : (n k t : Nat) → Nat
  | 0, _, _ => 0
  | n + 1, k, t => t + expSeries x n (k + 1) (t * x / fixOne / k)

/-- e^x for 0 ≤ x < 1 in fixed point. -/
def fixExp (x : Nat) : Nat := expSeries x 64 1 fixOne

/-- Σ z^(2k+1) / (2k+1), `n` terms from odd number `d` with the power `p`. -/
def atanhSeries (z2 : Nat) : (n d p : Nat) → Nat
  | 0, _, _ => 0
  | n + 1, d, p => p / d + atanhSeries z2 n (d + 2) (p * z2 / fixOne)

/-- atanh z for 0 ≤ z ≤ 1/3 in fixed point. -/
def fixAtanh (z : Nat) : Nat := atanhSeries (z * z / fixOne) 90 1 z

/-- ln 2 in fixed point: 2 atanh (1/3). -/
def fixLn2 : Nat := 2 * fixAtanh (fixOne / 3)

/-- ln of 1 ≤ x < 2 in fixed point. -/
def fixLog (x : Nat) : Nat := 2 * fixAtanh ((x - fixOne) * fixOne / (x + fixOne))

/-- m × 2^e in fixed point, rounded down. -/
def toFix (m : Nat) (e : Int) : Nat := (unitsAt m e (-256)).1

/-- e^x of a finite value with |x| below 512, as mantissa and exponent: e^x = 2^k e^r with 0 ≤ r < ln 2. -/
def expParts (neg : Bool) (m : Nat) (e : Int) : Nat × Int :=
  let x := toFix m e
  let k := x / fixLn2
  let r := x % fixLn2
  if neg then (if r = 0 then (fixOne, -k - 256) else (fixExp (fixLn2 - r), -(k : Int) - 1 - 256))
  else (fixExp r, (k : Int) - 256)

/-- |x| is 512 or more. -/
def isHuge (m : Nat) (e : Int) : Bool := decide (m ≠ 0) && decide (9 ≤ magExp m e)

/-- Below this the function's first-order term alone decides the rounding. -/
def isTiny (m : Nat) (e : Int) : Bool := decide (magExp m e < -100)

/-- Far above and far below every format. -/
def fvFarUp : FV := .fin false 1 2000
def fvFarDown : FV := .fin false 1 (-2000)

def fvExp : FV → FV
  | .nan => .nan
  | .inf n => if n then fvZero else .inf false
  | .fin n m e =>
    if m = 0 then fvOne
    else if isHuge m e then (if n then fvFarDown else fvFarUp)
    else if isTiny m e then (if n then .fin false (2 ^ 90 - 1) (-90) else .fin false (2 ^ 90 + 1) (-90))
    else let p := expParts n m e; fvSticky false p.1 p.2 false

def fvExp2 : FV → FV
  | .nan => .nan
  | .inf n => if n then fvZero else .inf false
  | .fin n m e =>
    if m = 0 then fvOne
    else if isHuge m e then (if n then fvFarDown else fvFarUp)
    else if isTiny m e then (if n then .fin false (2 ^ 90 - 1) (-90) else .fin false (2 ^ 90 + 1) (-90))
    else
      let x := toFix m e
      let k := x / fixOne
      let f := x % fixOne
      if f = 0 then .fin false 1 (if n then -(k : Int) else k)
      else if n then fvSticky false (fixExp ((fixOne - f) * fixLn2 / fixOne)) (-(k : Int) - 1 - 256) false
      else fvSticky false (fixExp (f * fixLn2 / fixOne)) ((k : Int) - 256) false

/-- ln of a positive finite value as a signed fixed-point number. -/
def fixLogOf (m : Nat) (e : Int) : Int :=
  let l := m.log2
  let x := m * fixOne / 2 ^ l
  (e + l) * fixLn2 + fixLog x

def fvOfFix (v : Int) : FV := fvSticky (decide (v < 0)) v.natAbs (-256) false

def fvLog : FV → FV
  | .nan => .nan
  | .inf n => if n then .nan else .inf false
  | .fin n m e =>
    if m = 0 then .inf true
    else if n then .nan
    else if fvEq (.fin false m e) fvOne then fvZero
    else fvOfFix (fixLogOf m e)

def fvLog2 : FV → FV
  | .nan => .nan
  | .inf n => if n then .nan else .inf false
  | .fin n m e =>
    if m = 0 then .inf true
    else if n then .nan
    else if m = 2 ^ m.log2 then fvOfInt (e + m.log2)
    else
      let v := fixLogOf m e
      fvSticky (decide (v < 0)) (v.natAbs * fixOne / fixLn2) (-256) false

/-- tanh x = (e^2x − 1) / (e^2x + 1), and x itself, just short, for a tiny x. -/
def fvTanh : FV → FV
  | .nan => .nan
  | .inf n => .fin n 1 0
  | .fin n m e =>
    if m = 0 then .fin n 0 0
    else if decide (magExp m e < -40) then .fin n (m * 2 ^ 70 - 1) (e - 70)
    else if decide (5 ≤ magExp m e) then .fin n (2 ^ 90 - 1) (-90)
    else
      let p := expParts false m (e + 1)
      let x := (unitsAt p.1 p.2 (-256)).1
      fvQuot n (x - fixOne) (-256) (x + fixOne) (-256)

/-- 1 / (1 + e^−x). -/
def fvSigmoid : FV → FV
  | .nan => .nan
  | .inf n => if n then fvZero else fvOne
  | .fin n m e =>
    if m = 0 then .fin false 1 (-1)
    else if isTiny m e then .fin false (if n then 2 ^ 90 - 1 else 2 ^ 90 + 1) (-91)
    else if isHuge m e then (if n then fvFarDown else .fin false (2 ^ 90 - 1) (-90))
    else
      let p := expParts true m e
      let one : FV := .fin false 1 0
      let s := fvAdd one (.fin false p.1 p.2)
      match s with
      | .fin _ sm se => if n then fvQuot false p.1 p.2 sm se else fvQuot false 1 0 sm se
      | y => y

/-- The largest whole number not above. -/
def fvFloor : FV → FV
  | .fin n m e =>
    let u := unitsAt m e 0
    if u.2.1 = 0 then .fin n m e else if n then .fin true (u.1 + 1) 0 else .fin false u.1 0
  | y => y

/-- Rounded to a whole number, ties to even. -/
def fvRint : FV → FV
  | .fin n m e => .fin n (roundUnits (unitsAt m e 0) none) 0
  | y => y

end Sys2Proof.Machine
end

