-- ==== Sys2Proof/Machine/Combine.lean ====
section
/-!
DEFINITION. Partial results and how the combining nodes fold them (R44 to R49, R158, R159, R163).
-/

namespace Sys2Proof.Machine

/-- A candidate ranks above another: greater score, then lower address (R163). -/
def rankAbove (a b : F32 × BitVec 41) : Bool :=
  f32Lt b.1 a.1 || (f32Eq a.1 b.1 && decide (a.2.toNat < b.2.toNat))

/-- Insert behind every candidate that ranks at least as high; earlier insertions stay ahead of equals (R163). -/
def tkInsert (c : F32 × BitVec 41) : List (F32 × BitVec 41) → List (F32 × BitVec 41)
  | [] => [c]
  | d :: l => if rankAbove c d then c :: d :: l else d :: tkInsert c l

/-- Keep the k best of both lists; ties go to the first (R46). -/
def tkMerge (k : Nat) (a b : List (F32 × BitVec 41)) : List (F32 × BitVec 41) :=
  (b.foldl (fun l c => tkInsert c l) a).take k

/-- INT64 to FP32, to nearest even (R46). -/
def i64ToF32 (v : BitVec 64) : F32 := f32OfInt v.toInt

/-- One combine of a node under RED (R46, R157, R159). `Res.none` is the identity, which carries no element type. -/
def resCombine (red k : Nat) (a b : Res) : Res :=
  match red, a, b with
  | _, .none, .none => .none
  | 1, .none, .vecF v => .vecF (v.map (f32Add f32Zero))
  | 1, .vecF v, .none => .vecF (v.map (f32Add · f32Zero))
  | 2, .none, .scalar v => .scalar (f32Add f32Zero v)
  | 2, .scalar v, .none => .scalar (f32Add v f32Zero)
  | 3, .none, .scalar v => .scalar (f32Max (f32Inf true) v)
  | 3, .scalar v, .none => .scalar (f32Max v (f32Inf true))
  | _, .none, x => x
  | _, x, .none => x
  | _, .vecF u, .vecF v => .vecF ((u.zip v).map fun x => f32Add x.1 x.2)
  | _, .vecI u, .vecI v => .vecI ((u.zip v).map fun x => x.1 + x.2)
  | _, .vecF u, .vecI v => .vecF ((u.zip v).map fun x => f32Add x.1 (i64ToF32 x.2))
  | _, .vecI u, .vecF v => .vecF ((u.zip v).map fun x => f32Add (i64ToF32 x.1) x.2)
  | 3, .scalar u, .scalar v => .scalar (f32Max u v)
  | _, .scalar u, .scalar v => .scalar (f32Add u v)
  | _, .count u, .count v => .count (u + v)
  | _, .topk u, .topk v => .topk (tkMerge k u v)
  | _, x, _ => x

/-- The left fold of a node (R46): none when nothing answered. -/
def resFold (red k : Nat) : List Res → Res
  | [] => .none
  | r :: rs => rs.foldl (resCombine red k) r

/-- The reduction's value where every contribution was the identity (R46). -/
def resIdentity (red : Nat) : Res :=
  match red with
  | 1 => .vecF (List.replicate 128 f32Zero)
  | 2 => .scalar f32Zero
  | 3 => .scalar (f32Inf true)
  | 4 => .count 0
  | 5 => .topk []
  | _ => .none

/-- A node's result with the identity in place of nothing. -/
def resFinal (red : Nat) : Res → Res
  | .none => resIdentity red
  | r => r

/-- The payload bytes of a result (R160). -/
def resBytes : Res → List Byte
  | .none => []
  | .vecF v => (v.map fun x => bytesOfNat 4 x.toNat).flatten
  | .vecI v => (v.map fun x => bytesOfNat 8 x.toNat).flatten
  | .scalar v => bytesOfNat 4 v.toNat
  | .count v => bytesOfNat 8 v.toNat
  | .topk l => (l.map fun c => bytesOfNat 4 c.1.toNat ++ bytesOfNat 4 0 ++ bytesOfNat 8 c.2.toNat).flatten
  | .view v => bytesOfNat 16 v.toNat

def resIsInt : Res → Bool
  | .vecI _ => true
  | _ => false

end Sys2Proof.Machine
end

