-- ==== Sys2Proof/Machine/Operands.lean ====
section
/-!
DEFINITION. Operand forms: the fields of unit paths (R35), native control words (R66 to R94), engine and leaf commands (R62,
R95, R157), microwords (R97), and command headers.
-/

namespace Sys2Proof.Machine

/-! Unit paths (R35, R36). -/

def pathDepth (p : Word64) : Nat := fieldN p 0 3
def pathTop (p : Word64) : Bool := bitAt p 3
def pathBlend (p : Word64) : Nat := fieldN p 4 8
def pathPot (p : Word64) : Nat := fieldN p 12 5
def pathPotMask (p : Word64) : Nat := fieldN p 17 5
def pathSub (p : Word64) : Nat := fieldN p 22 5
def pathSubMask (p : Word64) : Nat := fieldN p 27 5
def pathGroup (p : Word64) : Nat := fieldN p 32 2
def pathGroupMask (p : Word64) : Nat := fieldN p 34 2
def pathBank (p : Word64) : Nat := fieldN p 36 4
def pathBankMask (p : Word64) : Nat := fieldN p 40 4

/-- Well formed (R36). -/
def pathOk (p : Word64) : Bool :=
  let d := pathDepth p
  decide (d ≤ 4) && fieldN p 44 20 == 0 &&
    (!pathTop p || (d == 0 && fieldN p 12 52 == 0)) &&
    (pathTop p || pathBlend p == 0) &&
    (decide (1 ≤ d) || fieldN p 12 10 == 0) &&
    (decide (2 ≤ d) || fieldN p 22 10 == 0) &&
    (decide (3 ≤ d) || fieldN p 32 4 == 0) &&
    (decide (4 ≤ d) || fieldN p 36 8 == 0) &&
    (pathSubMask p == 0 || (!bitAt p 26 && !bitAt p 31)) &&
    (decide (d < 3) || decide (pathSub p < 16))

/-- A masked index matches a number: masked bits are ignored (R35). -/
def maskMatch (v mask n : Nat) : Bool := (v ||| mask) == (n ||| mask)

def pathMatchPot (p : Word64) (n : Nat) : Bool := pathDepth p == 0 || maskMatch (pathPot p) (pathPotMask p) n
def pathMatchDie (p : Word64) (d : Nat) : Bool :=
  decide (pathDepth p < 2) || (decide (pathSub p < 16) && maskMatch (pathSub p) (pathSubMask p) d)
def pathMatchGroup (p : Word64) (c : Nat) : Bool := decide (pathDepth p < 3) || maskMatch (pathGroup p) (pathGroupMask p) c
def pathMatchBank (p : Word64) (b : Nat) : Bool := decide (pathDepth p < 4) || maskMatch (pathBank p) (pathBankMask p) b

/-- Any wildcard: a mask bit, or a depth above the executing kind's own. -/
def pathWild (p : Word64) : Bool :=
  pathDepth p == 0 || pathPotMask p != 0 || pathSubMask p != 0 || pathGroupMask p != 0 || pathBankMask p != 0

/-! Control words (R66, R67); a word is held in 32 B. -/

def wKind (w : ColWord) : Nat := fieldN w 0 4
def wRepeat (w : ColWord) : Nat := fieldN w 4 16
def wDelay (w : ColWord) : Nat := fieldN w 20 8

/-- Bytes of a native word's slot by engine (R61). -/
def wordStride : Eng → Nat
  | .mxe => 32
  | .vxe => 32
  | .sfe => 16

/-- Bits of a native word (R92 to R94). -/
def wordBits : Eng → Nat
  | .mxe => 256
  | .vxe => 192
  | .sfe => 128

/-! Engine commands (R62). -/
def ecTag (c : BitVec 256) : BitVec 16 := fieldB c 0 16
def ecInf (c : BitVec 256) : BitVec 12 := fieldB c 16 12
def ecNotify (c : BitVec 256) : Bool := bitAt c 28
def ecEntry (c : BitVec 256) : BitVec 32 := fieldB c 32 32
def ecArg (c : BitVec 256) (i : Nat) : BitVec 48 := fieldB c (64 + 48 * i) 48

/-! Leaf commands (R95, R157). -/
def lcTag (c : BitVec 256) : BitVec 16 := fieldB c 0 16
def lcInf (c : BitVec 256) : BitVec 12 := fieldB c 16 12
def lcPath (c : BitVec 256) : Word64 := fieldB c 32 64
def lcEntry (c : BitVec 256) : Nat := fieldN c 96 9
def lcRowFirst (c : BitVec 256) : BitVec 15 := fieldB c 105 15
def lcRowLast (c : BitVec 256) : BitVec 15 := fieldB c 120 15
def lcLoad (c : BitVec 256) : Bool := bitAt c 135
def lcOpnd (c : BitVec 256) : Nat := fieldN c 136 27
def lcOpndLen (c : BitVec 256) : Nat := fieldN c 163 13
def lcK (c : BitVec 256) : Nat := fieldN c 176 7
def lcResLine (c : BitVec 256) : Nat := fieldN c 184 21
def lcRed (c : BitVec 256) : Nat := fieldN c 205 3
def lcS0 (c : BitVec 256) : F32 := fieldB c 208 32
def lcAux (c : BitVec 256) : BitVec 16 := fieldB c 240 16

/-! Microwords (R97). -/
def uUop (u : Word64) : Nat := fieldN u 0 6
def uLa (u : Word64) : Nat := fieldN u 6 2
def uLb (u : Word64) : Nat := fieldN u 8 2
def uLd (u : Word64) : Nat := fieldN u 10 2
def uAcc (u : Word64) : Bool := bitAt u 12
def uFmt (u : Word64) : Nat := fieldN u 13 4
def uRnd (u : Word64) : Nat := fieldN u 17 2
def uSat (u : Word64) : Bool := bitAt u 19
def uCol (u : Word64) : Nat := fieldN u 20 6
def uColptr (u : Word64) : Bool := bitAt u 26
def uAct (u : Word64) : Bool := bitAt u 27
def uPre (u : Word64) : Bool := bitAt u 28
def uCnt (u : Word64) : Nat := fieldN u 29 8
def uNext (u : Word64) : Nat := fieldN u 37 9
def uSeq (u : Word64) : Nat := fieldN u 46 2
def uEmit (u : Word64) : Bool := bitAt u 48
def uImm (u : Word64) : Nat := fieldN u 49 8
def uHalf (u : Word64) : Nat := fieldN u 49 1
def uBs (u : Word64) : Bool := bitAt u 50
def uOpw (u : Word64) : Nat := fieldN u 51 6

end Sys2Proof.Machine
end

