-- ==== Sys2Proof/Machine/Pmt.lean ====
section
/-!
DEFINITION. The steeps of a pot: costs, capacity, holds and waiting requests, grants and releases (R404 to R417).
-/

namespace Sys2Proof.Machine

/-- The cyclic order of R411. -/
def permitClasses : List PermitClass := [.leaf, .mxe, .vxe, .sfe, .fw]
def permitClassIx : PermitClass → Nat
  | .leaf => 0
  | .mxe => 1
  | .vxe => 2
  | .sfe => 3
  | .fw => 4
def engClass : Eng → PermitClass
  | .mxe => .mxe
  | .vxe => .vxe
  | .sfe => .sfe

/-- Key of a hold: class and unit. -/
def permitKey (c : PermitClass) (u : Nat) : Nat := 64 * permitClassIx c + u

/-- Steeps of a class by PMT_COST, or by the slot's PMT_REQ for firmware (R408). A PMT_COST whose parity fails takes its reset
values (R493). -/
def pmtCost (s : State) (n : PotIx) (c : PermitClass) (u : Nat) : Nat :=
  let p := (potOf s n).pmt
  let w := if regBad s (potReg n 0x8008) then Pmt.reset.cost else p.cost
  match c with
  | .leaf => fieldN w 0 9
  | .mxe => fieldN w 9 9
  | .vxe => fieldN w 18 9
  | .sfe => fieldN w 27 9
  | .fw => fieldN (tget p.reqs u 0) 0 10

/-- Every value stored with a complement agrees (R416). -/
def pmtGood (p : Pmt) : Bool := agree p.allot p.allotN && agree p.standing p.standingN && agree p.lvl p.lvlN && agree p.free p.freeN

/-- A_eff, or the last one that matched (R406, R416). -/
def pmtAeff (p : Pmt) : Nat := if pmtGood p then p.allot.toNat * (8 - p.lvl.toNat) / 8 else p.lastAeff

def pmtHeld (p : Pmt) : Nat := (p.holds.map fun e => e.2.steeps).sum

/-- FREE, which counts as 0 while a value disagrees (R416). -/
def pmtFree (p : Pmt) : Int := if pmtGood p then p.free.toInt else 0

def setFree (p : Pmt) (v : Int) : Pmt := { p with free := BitVec.ofInt 12 v, freeN := ~~~(BitVec.ofInt 12 v) }

/-- FREE from the allotment and the holds (R406). -/
def pmtRecalc (p : Pmt) : Pmt :=
  let a := p.allot.toNat * (8 - p.lvl.toNat) / 8
  { setFree p ((a : Int) - p.standing.toNat - pmtHeld p) with lastAeff := a }

def setAllot (p : Pmt) (v : Nat) : Pmt := { p with allot := BitVec.ofNat 10 v, allotN := ~~~(BitVec.ofNat 10 v) }
def setStanding (p : Pmt) (v : Nat) : Pmt := { p with standing := BitVec.ofNat 10 v, standingN := ~~~(BitVec.ofNat 10 v) }
def setLevel (p : Pmt) (v : Nat) : Pmt := { p with lvl := BitVec.ofNat 3 v, lvlN := ~~~(BitVec.ofNat 3 v) }

def permitHeld (p : Pmt) (c : PermitClass) (u : Nat) : Bool := (tfind p.holds (permitKey c u)).any fun h => !h.leaving
def permitAny (p : Pmt) (c : PermitClass) (u : Nat) : Bool := (tfind p.holds (permitKey c u)).isSome
def permitWaits (p : Pmt) (c : PermitClass) (u : Nat) : Bool := p.waits.any fun w => w.cls == c && w.unit.toNat == u
def pmtPrecedence (p : Pmt) : Bool := p.waits.any PermitWait.precedence

/-- A request enters its class FIFO (R410); one that already holds or waits asks nothing. -/
def permitAsk (s : State) (n : PotIx) (c : PermitClass) (u : BitVec 6) (tag : BitVec 16) (inf : BitVec 12) : State :=
  let p := (potOf s n).pmt
  if permitAny p c u.toNat || permitWaits p c u.toNat then s
  else
    updPot s n fun q => { q with pmt := { p with waits := p.waits ++
      [⟨c, u, pmtCost s n c u.toNat, tag, inf, false, false, p.nextOrder⟩] } }

/-- The request leaves its FIFO ungranted (R410, R417). -/
def permitWithdraw (p : Pmt) (c : PermitClass) (u : Nat) : Pmt :=
  { p with waits := p.waits.filter fun w => !(w.cls == c && w.unit.toNat == u) }

/-- Grant one request: the entry is written and FREE falls (R407). -/
def permitGrant (q : Pot) (w : PermitWait) : Pot :=
  let p := permitWithdraw q.pmt w.cls w.unit.toNat
  let p1 := setFree { p with holds := tset p.holds (permitKey w.cls w.unit.toNat) ⟨w.steeps, w.tag, w.infusion, false⟩ }
    (p.free.toInt - w.steeps)
  pmcAdd { q with pmt := { p1 with events := satField p1.events 0 32 1, lastClass := w.cls } } 0x0B 1

/-- The steeps of a hold return to FREE (R407); while a value disagrees with its complement only the hold ends, and hub firmware
recomputes FREE from the holds (R416). -/
def permitFreeHold (p : Pmt) (c : PermitClass) (u : Nat) : Pmt :=
  match tfind p.holds (permitKey c u) with
  | none => p
  | some h =>
    let q := { p with holds := tdel p.holds (permitKey c u) }
    if pmtGood p then setFree q (p.free.toInt + h.steeps) else q

/-- Hold and request of a requester go (R417). -/
def permitDrop (p : Pmt) (c : PermitClass) (u : Nat) : Pmt := permitFreeHold (permitWithdraw p c u) c u

/-- At a completion the hold carries over when the next command is queued and no request holds precedence; otherwise its
release is sent (R409, R412). -/
def permitFinish (p : Pmt) (c : PermitClass) (u : Nat) (nextQueued : Bool) : Pmt :=
  match tfind p.holds (permitKey c u) with
  | none => p
  | some h =>
    if nextQueued && !pmtPrecedence p then p
    else { p with holds := tset p.holds (permitKey c u) { h with leaving := true } }

/-- A carried hold takes the TAG and INFUSION of the command it now serves (R407). -/
def permitTake (p : Pmt) (c : PermitClass) (u : Nat) (tag : BitVec 16) (inf : BitVec 12) : Pmt :=
  match tfind p.holds (permitKey c u) with
  | none => p
  | some h => { p with holds := tset p.holds (permitKey c u) { h with tag := tag, infusion := inf } }

/-- The head of a class FIFO. -/
def classHead (p : Pmt) (c : PermitClass) : Option PermitWait := p.waits.find? (·.cls == c)

/-- The head with precedence that has waited longest; equal waits rank in class order (R411). -/
def oldestPrecedence (p : Pmt) : Option PermitWait :=
  ((permitClasses.filterMap (classHead p)).filter PermitWait.precedence).foldl
    (fun b w =>
      match b with
      | none => some w
      | some x => if w.order < x.order then some w else b) none

/-- Classes in the order of a visit: from the one after the class granted last (R411). -/
def visitOrder (last : PermitClass) : List PermitClass :=
  let k := permitClassIx last + 1
  permitClasses.drop k ++ permitClasses.take k

/-- One visit of a class head (R411 rule 2). -/
def visitGrant (q : Pot) (c : PermitClass) : Pot :=
  match classHead q.pmt c with
  | some w => if (w.steeps : Int) ≤ q.pmt.free.toInt then permitGrant q w else q
  | none => q

/-- The grants of one hub cycle (R411, R413, R415). -/
def grantCycle (q : Pot) : Pot :=
  let q1 :=
    match oldestPrecedence q.pmt with
    | some w =>
      if (w.steeps : Int) ≤ q.pmt.free.toInt then permitGrant q w
      else if w.overdraw && decide (0 ≤ q.pmt.free.toInt) then
        let r := permitGrant q w
        { r with pmt := { r.pmt with events := satField r.pmt.events 48 8 1 } }
      else q
    | none => (visitOrder q.pmt.lastClass).foldl visitGrant q
  { q1 with pmt := { q1.pmt with nextOrder := q1.pmt.nextOrder + 1 } }

end Sys2Proof.Machine
end

