-- ==== Sys2Proof/Machine/Tray.lean ====
section
/-!
DEFINITION. The tray (R51 to R55) by global tray address: bytes, poison bits and check bits of its 32 B words; and the
queues kept in it (R56, R57, R82).
-/

namespace Sys2Proof.Machine

/-- A tray byte that nothing has written since its clear reads zero (R55). -/
def trayDefault (_ : Nat) : Byte := 0

/-- The global tray address of a pot-local one (R52). -/
def trayGlobal (n : PotIx) (local_ : Nat) : Nat := n.toNat * 2 ^ 27 + local_ % 2 ^ 27

def metaOf (s : State) (word : Nat) : TrayMeta := tget s.trayMeta word ⟨false, []⟩

/-- A word's extra bits, listed only where they say something. -/
def setMeta (m : SMap TrayMeta) (word : Nat) (poison : Bool) : SMap TrayMeta :=
  if poison then tset m word ⟨true, []⟩ else tdel m word

/-- A word reads with poison: its poison bit, or an uncorrectable error in a group (R54). -/
def trayWordPoison (s : State) (word : Nat) : Bool := (metaOf s word).poison || (metaOf s word).ecc.any (· == 2)

/-- Bytes from a global tray address. -/
def trayRead (s : State) (a n : Nat) : List Byte := cellRead trayDefault s.tray a n

/-- The words that `n` bytes from `a` touch. -/
def wordsTouched (a n : Nat) : List Nat := if n = 0 then [] else between (a / 32) ((a + n - 1) / 32 + 1)

/-- Poison of every word touched, in order. -/
def trayPoison (s : State) (a n : Nat) : List Bool := (wordsTouched a n).map (trayWordPoison s)

/-- An 8 B group of a word that a write does not wholly cover reads uncorrectable (R54). -/
def groupLeft (s : State) (word a n : Nat) : Bool :=
  (upto 4).any fun g =>
    nth (metaOf s word).ecc g 0 == 2 && !(decide (a ≤ 32 * word + 8 * g) && decide (32 * word + 8 * g + 8 ≤ a + n))

/-- The poison bit of a word after a write of `n` bytes from `a` (R54). -/
def poisonAfter (s : State) (word a n : Nat) (poison : Bool) : Bool :=
  if a ≤ 32 * word ∧ 32 * word + 32 ≤ a + n then poison
  else poison || (metaOf s word).poison || groupLeft s word a n

/-- Write bytes at a global tray address; every word touched takes its new check bits and poison bit (R54). -/
def trayWrite (s : State) (a : Nat) (bs : List Byte) (poison : Bool) : State :=
  { s with
    tray := cellWrite trayDefault s.tray a bs
    trayMeta := (wordsTouched a bs.length).foldl
      (fun m w => setMeta m w (poisonAfter s w a bs.length poison)) s.trayMeta }

/-- Write whole 32 B words, each with its own poison bit. -/
def trayWriteWords (s : State) (a : Nat) : List (List Byte × Bool) → State
  | [] => s
  | w :: ws => trayWriteWords (trayWrite s a (fitBytes 32 w.1) w.2) (a + 32) ws

/-- Clear a pot's tray to zero with check bits valid and poison clear (R55). -/
def trayClear (s : State) (n : PotIx) : State :=
  let lo := n.toNat * 2 ^ 27
  { s with
    tray := cellDrop s.tray lo (lo + 2 ^ 27)
    trayMeta := s.trayMeta.filter fun e => !(decide (lo / 32 ≤ e.1) && decide (e.1 < (lo + 2 ^ 27) / 32)) }

/-! Queues (R56, R57, R82). -/

def qBase (q : Queue) : Nat := fieldN q.cfg 0 27
def qSize (q : Queue) : Nat := 2 ^ fieldN q.cfg 27 5
def qElem (q : Queue) : Nat := 2 ^ fieldN q.cfg 32 5
def qMode (q : Queue) : Nat := fieldN q.cfg 37 2
def qPusher (q : Queue) : Nat := fieldN q.cfg 39 3
def qPopper (q : Queue) : Nat := fieldN q.cfg 42 3
def qCapacity (q : Queue) : Nat := qSize q / qElem q
/-- (TAIL − HEAD) modulo 2^32 (R57). -/
def qOccupancy (q : Queue) : Nat := (q.tail - q.head).toNat
/-- Elements available to the popper: pushed ones whose 16 engine cycles have passed (R57). -/
def qAvailable (q : Queue) : Nat := qOccupancy q - q.pushed
/-- Bytes a popper may still take from its present position. -/
def qReadable (q : Queue) : Nat := qAvailable q * qElem q - q.headOff
/-- Bytes a pusher may still write. -/
def qWritable (q : Queue) : Nat := (qCapacity q - qOccupancy q) * qElem q - q.tailOff

/-- Pot-local byte addresses of the next byte to pop and of the next byte to push. -/
def qHeadAt (q : Queue) (off : Nat) : Nat :=
  qBase q + ((q.head.toNat % qCapacity q) * qElem q + q.headOff + off) % qSize q
def qTailAt (q : Queue) : Nat := qBase q + ((q.tail.toNat % qCapacity q) * qElem q + q.tailOff) % qSize q

/-- `n` bytes forward at the popper's end: every element whose last byte goes leaves the queue (R82). -/
def qAdvanceHead (q : Queue) (n : Nat) : Queue :=
  { q with head := q.head + BitVec.ofNat 32 ((q.headOff + n) / qElem q), headOff := (q.headOff + n) % qElem q }

/-- `n` bytes forward at the pusher's end: every element whose last byte is written enters the queue and waits to become
available (R57, R82). -/
def qAdvanceTail (q : Queue) (n : Nat) : Queue :=
  { q with tail := q.tail + BitVec.ofNat 32 ((q.tailOff + n) / qElem q), tailOff := (q.tailOff + n) % qElem q,
           pushed := q.pushed + (q.tailOff + n) / qElem q }

/-- The bytes at the popper's end, in pieces of 32 B aligned as the queue is, with poison. -/
def qPeek (s : State) (n : PotIx) (q : Queue) (len : Nat) : List Byte × Bool :=
  let a := qHeadAt q 0
  let firstLen := Nat.min len (qBase q + qSize q - a)
  let g := trayGlobal n a
  let g2 := trayGlobal n (qBase q)
  (trayRead s g firstLen ++ trayRead s g2 (len - firstLen),
    (trayPoison s g firstLen ++ trayPoison s g2 (len - firstLen)).any id)

/-- The poison bits of the words that hold the next `len` bytes, one per byte in order. -/
def qPeekPoison (s : State) (n : PotIx) (q : Queue) (len : Nat) : List Bool :=
  (upto len).map fun i => trayWordPoison s (trayGlobal n (qHeadAt q i) / 32)

/-- Push bytes, each 32 B piece under its own poison: `ps` gives one poison per byte. -/
def qPush (s : State) (n : PotIx) (qi : Nat) (bs : List Byte) (poison : Bool) : State :=
  let q := queueOf (potOf s n) qi
  let a := qTailAt q
  let firstLen := Nat.min bs.length (qBase q + qSize q - a)
  let s1 := trayWrite s (trayGlobal n a) (bs.take firstLen) poison
  let s2 := trayWrite s1 (trayGlobal n (qBase q)) (bs.drop firstLen) poison
  updPot s2 n fun p => setQueue p qi (qAdvanceTail q bs.length)

/-- Push pieces in order. -/
def qPushAll (n : PotIx) (qi : Nat) : List (List Byte × Bool) → State → State
  | [], s => s
  | x :: xs, s => qPushAll n qi xs (qPush s n qi x.1 x.2)

/-- Pop bytes from a queue: the state after, the bytes, and whether any word holding them carries poison. -/
def qPop (s : State) (n : PotIx) (qi len : Nat) : State × List Byte × Bool :=
  let q := queueOf (potOf s n) qi
  let r := qPeek s n q len
  (updPot s n fun p => setQueue p qi (qAdvanceHead q len), r.1, r.2)

/-- The agents of a queue (R56). -/
def engAgent : Eng → Nat
  | .mxe => 0
  | .vxe => 1
  | .sfe => 2
def streamAgent : Nat := 3
def coreAgent : Nat := 4

end Sys2Proof.Machine
end

