-- ==== Sys2Proof/Machine/LeafOps.lean ====
section
/-!
DEFINITION. What the leaf operations share: the place of an LU, operand words, the elements of a column unit, accumulation,
latch results, and the end of a leaf command on an LU (R134 to R165).
-/

namespace Sys2Proof.Machine

/-! Places (R134, R182). -/

def luDie (i : Nat) : Nat := i / 66
def luPb (i : Nat) : Nat := i % 66

/-- The group and bank an LU works on: its own, or for a spare bank's LU the one it replaces. -/
def luSeat (p : Pot) (i : Nat) : GroupIx × BitVec 4 :=
  let pb := luPb i
  if pb < 64 then (groupNo (luDie i) (pb / 16), BitVec.ofNat 4 (pb % 16))
  else
    let m := bankMapOf p (luDie i)
    (groupNo (luDie i) (fieldN m (8 * (pb - 64)) 2), BitVec.ofNat 4 (fieldN m (8 * (pb - 64) + 2) 4))

/-- The LU that serves a bank of a group (R134); none where the die's remap entry has failed its complement (R402). -/
def luServing (p : Pot) (g : GroupIx) (b : BitVec 4) : Option Nat := (physBank p g b).map fun pb => 66 * dieOf g + pb

/-- A pot's copy of an entry counts as lost (R30). -/
def copyBad (s : State) (n : PotIx) (h : Nat) : Bool :=
  (potOf s n).mapLost.contains h || !agree (potEntry s n h).val (potEntry s n h).comp
/-- An entry as a pot sees it: STATE 0b10 where its copy counts as lost (R28, R30). -/
def seenEntry (s : State) (n : PotIx) (h : Nat) : BitVec 32 :=
  if copyBad s n h then entWithState (hubEntry s h).val 2 else (potEntry s n h).val

/-- The group of the pot in which a home group's data lies, where it lies in this pot. -/
def homeGroup (s : State) (n : PotIx) (h : Nat) : Option Nat :=
  let e := seenEntry s n h
  if entPot e == n then some (entGroup e).toNat else none

/-- Home entries that may name a pot as PHYS: its own, and the listed ones. -/
def homeCandidates (s : State) (n : PotIx) : List Nat :=
  between (64 * n.toNat) (64 * n.toNat + 64) ++ (s.map.entries.map Prod.fst).filter fun h => h / 64 != n.toNat

/-- Home groups whose data lies in the pot, each with its group there (R25). -/
def homesAt (s : State) (n : PotIx) : List (Nat × Nat) :=
  (homeCandidates s n).filterMap fun h => (homeGroup s n h).map fun g => (h, g)

/-- The home group whose data lies in a physical group: one that has moved there, or the group's own (R25). -/
def homeOf (s : State) (n : PotIx) (g : GroupIx) : Nat :=
  let here := n.toNat * 64 + g.toNat
  match s.map.entries.find? fun e => e.1 != here && entState (seenEntry s n e.1) != 2 && homeGroup s n e.1 == some g.toNat with
  | some e => e.1
  | none => here

/-- The module address of a word of an LU's bank (R24, R153). -/
def luAddr (s : State) (n : PotIx) (i : Nat) (row col : Nat) : BitVec 41 :=
  let seat := luSeat (potOf s n) i
  BitVec.ofNat 41 (homeOf s n seat.1 * 2 ^ 30 + seat.2.toNat * 2 ^ 26 + row % 32768 * 2 ^ 11 + col % 64 * 2 ^ 5)

def luWho (l : Lu) : Who := ⟨.tensor, .lu, l.tag, l.infusion⟩

def luWordPlace (p : Pot) (n : PotIx) (i : Nat) (row col : Nat) : Place :=
  let seat := luSeat p i
  ⟨n, seat.1, seat.2, BitVec.ofNat 15 row, BitVec.ofNat 6 col⟩

/-- Read words of the LU's bank through the LU port (R192). -/
def luReadWords (n : PotIx) (i : Nat) (w : Who) : List (Nat × Nat) → State → State × List ReadData
  | [], s => (s, [])
  | rc :: l, s =>
    let r := readWordAt s (luWordPlace (potOf s n) n i rc.1 rc.2) w
    let t := luReadWords n i w l r.1
    (t.1, r.2 :: t.2)

/-! The proxy (R177, R179). -/

/-- A slot of LU_PROXY names this LU. -/
def proxyNames (v : Word64) (i k : Nat) : Bool := bitAt v (16 * k + 15) && fieldN v (16 * k) 11 == i
/-- The proxy slot that serves an LU: one of its channel's applied slots names it, and it is DEAD (R181). -/
def proxySlot (p : Pot) (i : Nat) : Option Nat :=
  if (luOf p i).dead then (upto 4).find? (proxyNames (chanOf p (luSeat p i).1.toNat).proxy i) else none
def luProxied (p : Pot) (i : Nat) : Bool := (proxySlot p i).isSome
/-- Able to run commands: working, or DEAD with a proxy slot. -/
def luServed (p : Pot) (i : Nat) : Bool := !(luOf p i).dead || luProxied p i

def proxyOf (p : Pot) (k : Nat) : Proxy := tget p.proxies k Proxy.reset
def setProxy (p : Pot) (k : Nat) (x : Proxy) : Pot := { p with proxies := tset p.proxies k x }

/-- The microword store that an LU's commands run from, with its uncorrectable words: the proxy slot's own for a proxied LU (R177). -/
def luCode (p : Pot) (i : Nat) : SMap Word64 × SMap Bool :=
  match proxySlot p i with
  | some k => ((proxyOf p k).store, (proxyOf p k).storeBad)
  | none => ((luOf p i).store, (luOf p i).storeBad)

/-! Operand words (R136). -/

/-- The operand slot that an LU reads: its channel's, or the copy that its proxy slot keeps (R136, R177). -/
def luSlotOf (p : Pot) (i : Nat) (slot : Bool) : OpndSlot :=
  match proxySlot p i with
  | some k => if slot then (proxyOf p k).slot1 else (proxyOf p k).slot0
  | none =>
    let c := chanOf p (luSeat p i).1.toNat
    if slot then c.slot1 else c.slot0

def opndWord (o : OpndSlot) (w : Nat) : Latch :=
  ⟨wordOfBytes ((o.bytes.drop (32 * (w % 128))).take 32), nth o.poison (w % 128) false⟩

/-- Q(h, i): word (64 × h + i) mod 128 of the slot. -/
def opndQ (o : OpndSlot) (h i : Nat) : Latch := opndWord o (64 * h + i)

/-! Column units (R140, R142). -/

def luFmtOf (code uop : Nat) : Bool := isMx code && (uop == 4 || uop == 5 || uop == 8)
/-- Words of a column unit, units of a row, and the first scale word (R140). -/
def unitWords (mx : Bool) (fmt : Nat) : Nat := if mx && (fmt == 9 || fmt == 10) then 3 else 1
def unitsPerRow (mx : Bool) (fmt : Nat) : Nat :=
  if mx then (if fmt == 9 || fmt == 10 then 20 else if fmt == 11 then 60 else 62) else 64
def scaleFirst (fmt : Nat) : Nat := if fmt == 9 || fmt == 10 then 61 else if fmt == 11 then 60 else 62
def unitElems (mx : Bool) (fmt : Nat) : Nat :=
  if mx then (if fmt == 9 || fmt == 10 then 128 else if fmt == 11 then 64 else 32) else 256 / elemBits fmt

/-- An element of a unit: its value with the block scale applied, and whether its own code is a NaN. -/
structure UElem where
  val : FV
  rawNan : Bool
  deriving DecidableEq, Repr

/-- An element under the E8M0 scale `sc`: 2^(sc − 127), or NaN for 0xFF (R140, R142). -/
def scaleElem (x : FV) (sc : Nat) : UElem := ⟨if sc = 255 then .nan else fvScale x ((sc : Int) - 127), fvIsNan x⟩

/-- The elements of a unit's bytes. -/
def unitVals (mx : Bool) (fmt : Nat) (bytes : List Byte) (unit : Nat) (scales : List Byte) : List UElem :=
  let n := unitElems mx fmt
  let cs := unpackElems (elemBits fmt) n bytes
  cs.zipIdx.map fun c =>
    let x := decodeElem fmt c.1
    if mx then scaleElem x (nth scales ((unit * n + c.2) / 32) 0).toNat else ⟨x, fvIsNan x⟩

/-- Poison of the scale words that a unit's blocks use. -/
def unitScalePoison (fmt unit : Nat) (sp : List Bool) : Bool :=
  let n := unitElems true fmt
  (between (unit * n / 32) (ceilDiv ((unit + 1) * n) 32)).any fun b => nth sp (b / 32) false

/-- The operand unit beside a column unit: word OPW + j counted in units, with the half's own scales (R148, R155). -/
def opndVals (o : OpndSlot) (mx : Bool) (fmt h unit : Nat) : List UElem × Bool :=
  let k := unitWords mx fmt
  let ws := (upto k).map fun i => opndQ o h (unit * k + i)
  let bytes := (ws.map fun w => bytesOfWord w.val).flatten
  let sws := (between (scaleFirst fmt) 64).map fun i => opndQ o h i
  let scales := if mx then (sws.map fun w => bytesOfWord w.val).flatten else []
  let sp := if mx then unitScalePoison fmt unit (sws.map Latch.poison) else false
  (unitVals mx fmt bytes unit scales, ws.any Latch.poison || sp)

/-! Accumulation (R142, R143). -/

def fmtIsInt (fmt : Nat) : Bool := fmt == 5 || fmt == 6

/-- One entry of a float set: a ← round (a + p) under the word's SAT (R142, R145); NaN events by R146. -/
def accFloat (sat : Bool) (old : F32) (p : FV) (raw : Bool) : F32 × NumEv :=
  let t := roundSat sat p
  let x := fvAdd (fvOfF32 old) (fvOfF32 t)
  let nanNew := fvIsNan x && !f32IsNan old && !raw
  (roundSat sat x, addEv (addEv (roundEv p) (if fvIsNan x then .zero else roundEv x)) ⟨nanNew.toNat, 0⟩)

/-- One entry of an integer set: saturating (R143). -/
def accInt (old : BitVec 32) (p : Int) : BitVec 32 × NumEv :=
  let r := satInt 32 (old.toInt + p)
  (BitVec.ofInt 32 r.1, ⟨0, r.2⟩)

/-- A term as an integer: rounded once to even and saturated; NaN gives 0 (R143). -/
def termInt (x : FV) : Int × NumEv :=
  let r := toIntFmt 32 0 x none
  ((BitVec.ofNat 32 r.1).toInt, r.2)

/-- Add the terms of one unit into entries (base + k) mod 128 in ascending k. -/
def accTerms (intm sat : Bool) : SMap (BitVec 32) → Nat → List UElem → SMap (BitVec 32) × NumEv
  | vals, _, [] => (vals, .zero)
  | vals, k, t :: ts =>
    let ix := k % 128
    let old := tget vals ix 0
    let r :=
      if intm then
        let q := termInt t.val
        let a := accInt old q.1
        (a.1, addEv q.2 a.2)
      else accFloat sat old t.val t.rawNan
    let u := accTerms intm sat (tset vals ix r.1) (k + 1) ts
    (u.1, addEv r.2 u.2)

/-- An op that accumulates: the set takes its mode, ORIGIN and poison (R142, R143, R153, R165). -/
def accumulate (a : LuAcc) (intm sat : Bool) (base : Nat) (terms : List UElem) (poison : Bool) (origin : Option (BitVec 41)) :
    LuAcc × NumEv :=
  let r := accTerms intm sat a.vals base terms
  ({ vals := r.1, touched := true, intMode := if a.touched then a.intMode else intm,
     origin := match a.origin with | some o => some o | none => origin,
     poison := a.poison || poison }, r.2)

def luAccOf (l : Lu) (k : Bool) : LuAcc := if k then l.acc1 else l.acc0
def setLuAcc (l : Lu) (k : Bool) (a : LuAcc) : Lu := if k then { l with acc1 := a } else { l with acc0 := a }
def luScOf (l : Lu) (k : Bool) : Score := if k then l.sc1 else l.sc0
def setLuSc (l : Lu) (k : Bool) (x : Score) : Lu := if k then { l with sc1 := x } else { l with sc0 := x }
def latchOf (l : Lu) (k : Nat) : Latch := tget l.latches (k % 4) Latch.reset
def setLatch (l : Lu) (k : Nat) (x : Latch) : Lu := { l with latches := tset l.latches (k % 4) x }

/-- Count events on the LU and on its pot (R181). -/
def luEvents (l : Lu) (e : NumEv) : Lu := { l with nans := satAdd l.nans e.nans, ovfs := satAdd l.ovfs e.ovfs }

/-- A latch result: each element rounded to FMT under RND and SAT, in ascending lane order (R144, R151). A NaN that the op makes and
that its conversion to a format without NaN then loses counts in NANS under both heads of R146 (DESIGN CHOICE, log entry 95). -/
def latchResult (l : Lu) (u : Word64) (d : Nat) (vals : List (FV × Bool)) (poison : Bool) : Lu × NumEv :=
  let made : NumEv := ⟨(vals.filter fun v => fvIsNan v.1 && !v.2).length, 0⟩
  let c := convertList (uFmt u) (uRnd u == 1) (uSat u) l.lfsr (vals.map Prod.fst)
  let e := addEv made c.2.2
  (luEvents (setLatch { l with lfsr := c.1 } d ⟨wordOfBytes (packElems (elemBits (uFmt u)) c.2.1), poison⟩) e, e)

/-! Ends (R156, R159, R161). -/

def luCauseStatus (c : Nat) : Status :=
  match c with
  | 4 => .poisoned
  | 5 => .poisoned
  | 7 => .timeout
  | _ => .rejected

/-- A fault in a command of a loaded infusion: the infusion is to fail (R99, R128). -/
def markFailing (s : State) (inf : BitVec 12) : State :=
  let x := infOf s inf
  if inf ≠ 0 ∧ (x.state = 2 ∨ x.state = 3) then setInf s inf { x with failing := true } else s

/-- A command of the infusion has faulted, and its work stops (R99). -/
def infFailing (s : State) (inf : BitVec 12) : Bool := inf != 0 && (infOf s inf).failing

/-- Infusion `inf` is loaded on a pot and has not failed; firmware's own work always may run (R63, R99, R125). -/
def infOn (s : State) (inf : BitVec 12) (n : PotIx) : Bool :=
  let x := infOf s inf
  inf == 0 || ((x.state == 2 || x.state == 3) && bitAt x.pots n.toNat && !x.failing)

/-- Engine and leaf commands of an infusion queued or running (R125). -/
def inflightUp (s : State) (inf : BitVec 12) : State :=
  if inf = 0 then s else setInf s inf { infOf s inf with inflight := (infOf s inf).inflight + 1 }
def inflightDown (s : State) (inf : BitVec 12) : State :=
  if inf = 0 then s else setInf s inf { infOf s inf with inflight := (infOf s inf).inflight - 1 }

/-- The LU's answer to its combining node (R159); a shadow's emissions are discarded (R463). -/
def luAnswer (i : Nat) (l : Lu) : LuAnswer :=
  ⟨i, (l.emitted.getD .none), l.emitPoison, l.endFault, l.nans, l.ovfs⟩

/-- Hand an answer to the oldest run that still expects it. -/
def giveAnswer (a : LuAnswer) : List LeafRun → List LeafRun
  | [] => []
  | r :: rs =>
    if (r.expected.any fun x => x.2 == a.lu) && !(r.answers.any fun b => b.lu == a.lu) then { r with answers := r.answers ++ [a] } :: rs
    else r :: giveAnswer a rs

/-- A shadow that faulted while its primary did not leaves the group unmirrored (R463). -/
def shadowFault (s : State) (n : PotIx) (i : Nat) (primary : PotIx) (pi : LuIx) : State :=
  if (luOf (potOf s primary) pi.toNat).endFault.isSome then s
  else
    let ix := homeOf s primary (luSeat (potOf s primary) pi.toNat).1
    let e := (hubEntry s ix).val
    if entMirrorEn e then
      sendFault { s with map := { s.map with entries := tset s.map.entries ix (pairOf (putBit e 11 false)) } }
        (plainFault (potIsland n (dieUnit (luDie i))) 2 ((luOf (potOf s n) i).cause.toNat) 0 i)
    else s

/-! Channels of leaf work (R95, R137, R409, R462). -/

/-- The pot map entry under which a channel of the pot holds data, as the pot sees it. -/
def chanEntry (s : State) (n : PotIx) (g : Nat) : Nat × BitVec 32 :=
  let h := homeOf s n (BitVec.ofNat 6 g)
  (h, seenEntry s n h)

/-- A path names a home group (R35). -/
def pathNames (path : Word64) (h : Nat) : Bool :=
  pathMatchPot path (h / 64) && pathMatchDie path (h % 64 / 4) && pathMatchGroup path (h % 4)

/-- The home groups that a leaf command names: those it has been resolved to; else those of its path whose data lies in this pot; else
those of this pot's own that have moved away (R25, R29). -/
def leafHomes (s : State) (n : PotIx) (q : LeafQ) : List Nat :=
  if !q.homes.isEmpty then q.homes
  else
    let path := lcPath q.raw
    match ((homesAt s n).map Prod.fst).filter (pathNames path) with
    | [] => (between (64 * n.toNat) (64 * n.toNat + 64)).filter (pathNames path)
    | l => l

/-- Channels of the pot in which the data of some home groups lies. -/
def homeChans (s : State) (n : PotIx) (homes : List Nat) : List Nat :=
  let gs := homes.filterMap (homeGroup s n)
  (upto 64).filter fun g => gs.contains g

/-- Channels of the pot that a leaf command names (R25, R35). -/
def leafChans (s : State) (n : PotIx) (q : LeafQ) : List Nat := homeChans s n (leafHomes s n q)

/-- The oldest command not yet delivered to a channel. -/
def chanNext (p : Pot) (g : Nat) : Option LeafRun := p.runs.find? fun r => r.todo.contains g

/-- A command runs on an LU of the channel. -/
def chanBusy (p : Pot) (g : Nat) : Bool := p.lus.any fun e => e.2.cmd.isSome && (luSeat p e.1).1.toNat == g

/-- The mirror group of a channel, when its entry has MIRROR_EN (R462). -/
def chanMirror (s : State) (n : PotIx) (g : Nat) : Option (PotIx × GroupIx) :=
  let e := (chanEntry s n g).2
  if entMirrorEn e && entState e != 2 then some (entMirrorPot e, entMirrorGroup e) else none

/-- A run command that waits for a channel of a pot: its own, or the one it shadows there (R463). -/
def chanWants (s : State) (n : PotIx) (g : Nat) : Option LeafRun :=
  match chanNext (potOf s n) g with
  | some r => if lcLoad r.raw then none else some r
  | none =>
    (enabledPots s).findSome? fun m =>
      (upto 64).findSome? fun h =>
        if chanMirror s m h = some (n, BitVec.ofNat 6 g) then
          (chanNext (potOf s m) h).filter fun r => !lcLoad r.raw
        else none

/-- A run command queued for a channel, checked or not (R409). -/
def chanQueued (s : State) (n : PotIx) (g : Nat) : Bool :=
  (chanWants s n g).isSome ||
    (potOf s n).lucq.any fun q => !lcLoad q.raw && (leafChans s n q).contains g

/-- When no LU of the channel is busy any more, its LEAF hold carries over or goes (R408, R409). -/
def chanDone (s : State) (n : PotIx) (g : Nat) : State :=
  if chanBusy (potOf s n) g then s
  else updPot s n fun q => { q with pmt := permitFinish q.pmt .leaf g (chanQueued s n g) }

/-! The LU's row in its bank (R149, R195). -/

def luPlace (s : State) (n : PotIx) (i row : Nat) : Place := luWordPlace (potOf s n) n i row 0
def luBank (s : State) (n : PotIx) (i : Nat) : Bank :=
  let pl := luPlace s n i 0
  bankOf (schedOf (potOf s n) pl.group.toNat) pl.bank.toNat

/-- The row is not open in the bank and the whistle is up: the activate it needs is not chosen (R200). -/
def luDeferred (s : State) (n : PotIx) (i row : Nat) : Bool :=
  (schedOf (potOf s n) (luPlace s n i row).group.toNat).whistle && !(luBank s n i).openRow.any (·.toNat == row)

/-- The bank's row becomes the LU's: activated unless it is open, another open row precharged first (R149); `restore` when another
port's request has displaced it (R195). -/
def luOpen (s : State) (n : PotIx) (i row : Nat) (restore : Bool) : State :=
  let pl := luPlace s n i row
  let t := bksTiming s n pl.group
  let k := luBank s n i
  if k.openRow = some pl.row then updSched s n pl.group fun c => updBank c pl.bank.toNat fun k => { k with luRow := some pl.row }
  else
    let s1 := if k.openRow.isSome then updSched s n pl.group fun c => preBank t c pl.bank.toNat else s
    actBank s1 pl (luWho (luOf (potOf s n) i)) (2 * (schedOf (potOf s n) pl.group.toNat).cycle) true restore

/-- The LU's precharge: the bank closes where the LU's row is the one open in it; else only the logical row goes (R149). -/
def luPrecharge (s : State) (n : PotIx) (i : Nat) : State :=
  let pl := luPlace s n i 0
  let t := bksTiming s n pl.group
  let k := luBank s n i
  updSched s n pl.group fun c =>
    updBank (if k.luRow.isSome && k.openRow == k.luRow then preBank t c pl.bank.toNat else c) pl.bank.toNat fun k => { k with luRow := none }

/-- A PRE whose earlier accesses have finished closes the row (R149). -/
def luClose (s : State) (n : PotIx) (i : Nat) : State :=
  let l := luOf (potOf s n) i
  if l.closing && l.colq.isEmpty then luPrecharge (updPot s n fun p => setLu p i { l with closing := false }) n i else s

/-- The end of a command on an LU: with nothing pending it precharges, answers and is free (R149, R159). -/
def luFinish (s0 : State) (n : PotIx) (i : Nat) : State :=
  let l0 := luOf (potOf s0 n) i
  let s := if l0.cmd.isSome && l0.done && l0.colq.isEmpty && l0.openRow.isSome then luPrecharge s0 n i else luClose s0 n i
  let p := potOf s n
  let l := luOf p i
  match l.cmd with
  | none => s
  | some c =>
    if l.done && l.colq.isEmpty then
      let l1 := { l with cmd := none, done := false, openRow := none, closing := false }
      let g := (luSeat p i).1.toNat
      match c.shadow with
      | none => chanDone (setPot s n { setLu p i l1 with runs := giveAnswer (luAnswer i l) p.runs }) n g
      | some pr =>
        let s1 := setPot s n (setLu p i l1)
        chanDone (if l.endFault.isSome then shadowFault s1 n i pr c.luIx else s1) n g
    else s

/-- An LU fault (R161): the command stops, a fault record is written, LU_STATUS shows it; a HW fault marks the LU DEAD. -/
def luFault (s : State) (n : PotIx) (i cause addr : Nat) : State :=
  let p := potOf s n
  let l := luOf p i
  let c := BitVec.ofNat 4 cause
  let l1 := { l with done := true, fault := true, cause := c, endFault := some c, dead := l.dead || cause == 8 }
  let s1 := sendFault (setPot s n (setLu p i l1))
    { status := statusCode (luCauseStatus cause), tag := l.tag, infusion := l.infusion,
      island := potIsland n (dieUnit (luDie i)), block := 2, cause := cause, addr := addr,
      detail := i + l.upc.toNat % 512 * 2 ^ 16, detail2 := 0 }
  luFinish (if cause = 9 then s1 else markFailing s1 l.infusion) n i

/-- Write an LU back and count its new events in LU_EVENTS (R181). -/
def putLu (s : State) (n : PotIx) (i : Nat) (l : Lu) (e : NumEv) : State :=
  updPot s n fun p => { setLu p i l with luEvents := putNumEv p.luEvents e }

end Sys2Proof.Machine
end

