-- ==== Sys2Proof/Machine/FwImage.lean ====
section
/-!
DEFINITION. Firmware images: the header and its checks (R436 to R439), the caddy's slots and pointer records (R440 to R442), keys
(R444, R445), the running set and the end of an activation (R448, R449).
-/

namespace Sys2Proof.Machine

/-! The header (R436, R437). -/

def imgField (bs : List Byte) (off k : Nat) : Nat := natOfBytes ((bs.drop off).take k)
def imgVersion (bs : List Byte) : Nat := imgField bs 8 4
def imgBodyLen (bs : List Byte) : Nat := imgField bs 0xC 4
def imgKeyId (bs : List Byte) : Nat := imgField bs 0x10 1
def imgDigest (bs : List Byte) : List Byte := (bs.drop 0xA0).take 64
def imgSig (bs : List Byte) : List Byte := (bs.drop 0xE0).take 64
def imgBody (bs : List Byte) : List Byte := bs.drop 0x200
/-- COMPAT entry `i`: KIND and VERSION. -/
def imgCompat (bs : List Byte) (i : Nat) : Nat × Nat := (imgField bs (0x20 + 8 * i) 1, imgField bs (0x24 + 8 * i) 4)
def imgCompats (bs : List Byte) : List (Nat × Nat) := (upto (imgField bs 0x11 1)).map (imgCompat bs)

/-- MAGIC, KIND, HDRVER, the counts and the reserved fields are as R436 and R437 have them. -/
def imgHeaderOk (k : FwKind) (bs : List Byte) : Bool :=
  let zero := fun (off n : Nat) => imgField bs off n == 0
  decide (0x200 ≤ bs.length) && imgField bs 0 4 == 0x4D474D49 && imgField bs 4 1 == kindCode k && imgField bs 5 1 == 1 &&
    decide (imgField bs 6 1 < 8) && decide (imgField bs 7 1 < 8) && decide (imgField bs 0x11 1 ≤ 16) && zero 0x12 14 &&
    (upto 16).all (fun i => zero (0x21 + 8 * i) 3) && zero 0x120 0xE0 &&
    (k != .xlat || decide (imgVersion bs < 65536)) && (k != .owndef || imgField bs 0x11 1 == 0)

/-- Bytes that a slot of a kind holds: 16,352 B of each 16 KiB page (R440). -/
def slotRoom : FwKind → Nat
  | .hubfw => 2048 * 16352
  | .brewfw => 4096 * 16352
  | .leafmc => 1024 * 16352
  | .xlat => 4096 * 16352
  | .owndef => 1024 * 16352

/-! Keys (R444, R445). -/

def keyBytes (k : BitVec 256) : List Byte := bytesOfNat 32 k.toNat
def rootOk (s : State) : Bool := natOfBytes (sha512 (keyBytes s.caddy.rootKey)) == s.fuses.rootHash.toNat
/-- The owner key record is valid and ENROLLED is 1. -/
def ownerUsable (o : OwnerKey) : Bool := o.crcGood && agree o.key o.keyN && o.enrolled
/-- The key that a KEYID names, when it is usable. -/
def usableKey (s : State) (id : Nat) : Option (List Byte) :=
  if id = 0 ∧ rootOk s then some (keyBytes s.caddy.rootKey)
  else if id = 1 ∧ ownerUsable s.caddy.owner then some (keyBytes s.caddy.owner.key) else none
/-- SHA-512 of the owner key, or 64 zero bytes (R452). -/
def ownerHash (s : State) : List Byte :=
  if ownerUsable s.caddy.owner then sha512 (keyBytes s.caddy.owner.key) else List.replicate 64 0

/-! The checks of an image, as HUB_FW_CTL RESULT codes; 0 when it is valid (R438, R454). -/

/-- The key is usable and the signature verifies; an OWNDEF of KEYID 0 needs no signature (R447). -/
def imgKeyCheck (s : State) (k : FwKind) (bs : List Byte) : Nat :=
  if k = .owndef ∧ imgKeyId bs = 0 then 0
  else
    match usableKey s (imgKeyId bs) with
    | none => 4
    | some key => if edVerify key (imgSig bs) (imgDigest bs) then 0 else 3

def imageCheck (s : State) (k : FwKind) (bs : List Byte) : Nat :=
  if !imgHeaderOk k bs then 2
  else if slotRoom k < 0x200 + imgBodyLen bs then 7
  else if bs.length ≠ 0x200 + imgBodyLen bs ∨ sha512 (bs.take 0xA0 ++ imgBody bs) ≠ imgDigest bs then 3
  else if imgKeyCheck s k bs ≠ 0 then imgKeyCheck s k bs
  else if !(imgField bs 6 1).testBit (match s.fuses.stepping with | .a0 => 0 | .a1 => 1 | .b0 => 2) ||
      !(imgField bs 7 1).testBit (gradeCode s.fuses.grade - 1) then 5
  else 0

/-- X and Y are tested together (R439). -/
def testedTogether (x y : Nat × List Byte) : Bool :=
  (imgCompats x.2).contains (y.1, imgVersion y.2) || (imgCompats y.2).contains (x.1, imgVersion x.2)

/-- The kinds of a set, with their codes. -/
def setKinds : List FwKind := [.hubfw, .brewfw, .leafmc, .xlat]

/-- The lower kind of the first untested pair of a set. -/
def untestedPair : List (Nat × List Byte) → Option Nat
  | [] => none
  | x :: l => if l.all (testedTogether x) then untestedPair l else some x.1

/-! Slots and pointer records (R441, R442). -/

def slotTable (c : Caddy) (k : FwKind) : ImgPlace → Option CaddySlot
  | .none => none
  | .factory => tfind c.factory (kindCode k)
  | .slot b => tfind (if b then c.slotB else c.slotA) (kindCode k)
/-- The bytes of a place, when it holds an image and no page of it is torn. -/
def imageAt (c : Caddy) (k : FwKind) (pl : ImgPlace) : Option (List Byte) :=
  match slotTable c k pl with
  | some x => if x.torn then none else some x.bytes
  | none => none
def tornAt (c : Caddy) (k : FwKind) (pl : ImgPlace) : Bool := (slotTable c k pl).any CaddySlot.torn

/-- Caddy offset of an area (R440). -/
def areaOffset (k : FwKind) : ImgPlace → Nat
  | .slot b =>
    match k with
    | .hubfw => if b then 0x7000000 else 0x5000000
    | .brewfw => if b then 0xD000000 else 0x9000000
    | .leafmc => if b then 0x12000000 else 0x11000000
    | .xlat => if b then 0x17000000 else 0x13000000
    | .owndef => if b then 0x1C000000 else 0x1B000000
  | _ => 0

/-- The factory set in both places: what the pointer block names before any record is written (R446). -/
def Pointer.initial : Pointer := ⟨0, .factory, .factory, .factory, .factory, .factory, .factory, .factory, .factory, .none, [], true⟩
/-- The current record: the highest RSEQ of the good ones. -/
def curPointer (c : Caddy) : Pointer :=
  (c.pointers.filter Pointer.good).foldl (fun a p => if a.rseq.toNat ≤ p.rseq.toNat then p else a) Pointer.initial

def committedPlace (p : Pointer) : FwKind → ImgPlace
  | .hubfw => p.hubfw
  | .brewfw => p.brewfw
  | .leafmc => p.leafmc
  | .xlat => p.xlat
  | .owndef => p.owndef
def lkgPlace (p : Pointer) : FwKind → ImgPlace
  | .hubfw => p.lkgHubfw
  | .brewfw => p.lkgBrewfw
  | .leafmc => p.lkgLeafmc
  | .xlat => p.lkgXlat
  | .owndef => p.owndef
def putCommitted (p : Pointer) (k : FwKind) (pl : ImgPlace) : Pointer :=
  match k with
  | .hubfw => { p with hubfw := pl }
  | .brewfw => { p with brewfw := pl }
  | .leafmc => { p with leafmc := pl }
  | .xlat => { p with xlat := pl }
  | .owndef => { p with owndef := pl }

/-- Records that the pointer block holds: 127 to a page, 64 pages. -/
def pointerRoom : Nat := 8128
/-- The VERSIONs that a record holds: of the committed slot of each kind under its code, of the last-known-good one under 16 plus it. -/
def pointerVersions (c : Caddy) (p : Pointer) : SMap (BitVec 32) :=
  let ver := fun (k : FwKind) (pl : ImgPlace) => BitVec.ofNat 32 (imgVersion ((imageAt c k pl).getD []))
  setKinds.map (fun k => (kindCode k, ver k (committedPlace p k))) ++ setKinds.map (fun k => (16 + kindCode k, ver k (lkgPlace p k)))
/-- Append a pointer record; a full block is erased and takes the current record first (R442). -/
def writePointer (s : State) (p : Pointer) : State :=
  let cur := curPointer s.caddy
  let old := if pointerRoom ≤ s.caddy.pointers.length then [cur] else s.caddy.pointers
  { s with caddy := { s.caddy with pointers := old ++ [{ p with rseq := cur.rseq + 1, versions := pointerVersions s.caddy p, good := true }] } }

/-- The slot that the committed set does not use (R448): B beside a committed A, else A. -/
def freeSlotOf (c : Caddy) (k : FwKind) : Bool := committedPlace (curPointer c) k == .slot false

/-! The running set. -/

/-- The bytes of the running image of a kind. -/
def runImage (s : State) (k : FwKind) : List Byte := tget s.fw.runImages (kindCode k) []
/-- XLAT_VER: VERSION[15:0] of the running XLAT image (R437). -/
def xlatVer (s : State) : Nat := imgVersion (runImage s .xlat) % 65536
def runPlace (s : State) (k : FwKind) : ImgPlace := tget s.fw.run (kindCode k) .none

/-! HUB_FW_CTL (R454). -/

def fwKey : Nat := 0x10
def fwBusy (s : State) : Bool := bitAt s.fw.fwCtl 6
/-- KIND, OP and SRC of a START, with BUSY and RESULT. -/
def fwStart (s : State) (k : FwKind) (op src : Nat) (busy : Bool) (result : Nat) : State :=
  { s with fw := { s.fw with
      fwCtl := BitVec.ofNat 64 (kindCode k + op * 2 ^ 3 + busy.toNat * 2 ^ 6 + result * 2 ^ 7 + src * 2 ^ 16) } }
/-- The operation ends: RESULT, BUSY 0, ACTIVATING 0. -/
def fwEnd (s : State) (k : FwKind) (result : Nat) : State :=
  { s with fw := { s.fw with
      fwCtl := putField (putBit s.fw.fwCtl 6 false) 7 4 result
      boot := putField (putBit s.fw.boot 9 false) 10 5 0
      awaiting := s.fw.awaiting.filter (· != k)
      moved := [] } }

/-- The other slot's image of a kind runs and is committed (R448, R449). -/
def commitKind (s : State) (k : FwKind) : State :=
  let pl : ImgPlace := .slot (freeSlotOf s.caddy k)
  let bs := (imageAt s.caddy k pl).getD []
  let s1 := writePointer s (putCommitted (curPointer s.caddy) k pl)
  fwEnd { s1 with fw := { s1.fw with
      run := tset s1.fw.run (kindCode k) pl
      runImages := tset s1.fw.runImages (kindCode k) bs
      staged := tset s1.fw.staged (kindCode k) false } } k 1

/-! LEAFMC: the firmware range (R434, R437). -/

/-- Entries 0 to 127 of a microword store as LEAFMC fills them. -/
def fillRange (version : Nat) (l : Lu) : Lu :=
  { l with
    store := ((upto 128).map fun i => (i, Config.leafmcWord version i)) ++ l.store.filter fun e => 128 ≤ e.1
    storeBad := l.storeBad.filter fun e => 128 ≤ e.1 }
/-- A proxy slot takes the same broadcast (R177). -/
def fillProxy (version : Nat) (x : Proxy) : Proxy :=
  let l := fillRange version { Lu.reset with store := x.store, storeBad := x.storeBad }
  { x with store := l.store, storeBad := l.storeBad }
/-- Die of an LU: the die of its channel. -/
def dieOfLu (p : Pot) (i : Nat) : Nat := dieOf (luSeat p i).1
/-- VERSION of the LEAFMC that a die holds: the staged image's where an activation has passed the die (R449). -/
def leafVersion (s : State) (n : PotIx) (die : Nat) : Nat :=
  if s.fw.awaiting.contains .leafmc && decide (16 * n.toNat + die < s.fw.leafDie) then
    imgVersion ((imageAt s.caddy .leafmc (.slot (freeSlotOf s.caddy .leafmc))).getD [])
  else imgVersion (runImage s .leafmc)
/-- The firmware range of every LU of a pot as it starts, and no template loaded (R333, R446). -/
def fillPot (s : State) (n : PotIx) (p : Pot) : Pot :=
  { p with
    proxies := (upto 4).map fun k => (k, fillProxy (leafVersion s n 0) (tget p.proxies k Proxy.reset))
    lus := (upto Config.lusPerPot).map fun i => (i, fillRange (leafVersion s n (dieOfLu p i)) (tget p.lus i Lu.reset))
    template_ := none }

/-! The live update of LEAFMC, die by die (R449). -/

/-- The command lies in the firmware range. -/
def fwRange (raw : BitVec 256) : Bool := decide (fieldN raw 96 9 < 128)
/-- The die that the activation rewrites next. -/
def rewritesDie (s : State) (n : PotIx) (die : Nat) : Bool :=
  s.fw.awaiting.contains .leafmc && decide (s.fw.leafDie = 16 * n.toNat + die)
/-- A command of the firmware range runs on an LU of the die. -/
def dieBusy (p : Pot) (die : Nat) : Bool :=
  p.lus.any fun x => dieOfLu p x.1 == die && !x.2.done && x.2.cmd.any fun c => fwRange c.raw
/-- The broadcast over a die: its LUs' firmware range, and that of the proxy slots that serve one of them. -/
def rewriteDie (version die : Nat) (p : Pot) : Pot :=
  let mine := (upto Config.lusPerPot).filter fun i => dieOfLu p i == die
  { p with
    lus := mine.foldl (fun m i => tset m i (fillRange version (tget m i Lu.reset))) p.lus
    proxies := (mine.filterMap (proxySlot p)).foldl (fun m k => tset m k (fillProxy version (tget m k Proxy.reset))) p.proxies }
/-- The next die is rewritten unless a command of the range runs on it; dies of pots out of service are passed over. -/
def leafmcDie (s : State) : State :=
  let n : PotIx := BitVec.ofNat 5 (s.fw.leafDie / 16)
  let die := s.fw.leafDie % 16
  let next := { s with fw := { s.fw with leafDie := s.fw.leafDie + 1 } }
  if decide (512 ≤ s.fw.leafDie) || (potOn s n && dieBusy (potOf s n) die) then s
  else if potOn s n then updPot next n (rewriteDie (leafVersion next n die) die)
  else next
/-- The activation of LEAFMC goes on as far as it can; with the last die every pot's firmware discards its template, and the image is
committed. -/
def leafmcSettle (s : State) : State :=
  if s.fw.awaiting.contains .leafmc then
    let s1 := (upto 512).foldl (fun t _ => leafmcDie t) s
    if 512 ≤ s1.fw.leafDie then
      commitKind (runAll (fun t n => updPot t n fun p => { p with template_ := none }) (allPots.filter (potOn s1)) s1) .leafmc
    else s1
  else s

/-- The activation of XLAT that waits for a load goes through once none is in progress (R449). -/
def xlatSettle (s : State) : State :=
  if s.fw.awaiting.contains .xlat && s.inf.load.isNone then commitKind s .xlat else s

/-! The live update of BREWFW, pot by pot (R449). -/

/-- The pot that a BREWFW activation moves next: pots in service in ascending order, moved ones skipped. -/
def nextMove (s : State) : Option PotIx := allPots.find? fun n => potOn s n && !s.fw.moved.contains n.toNat

/-- ACTIVATING, with the next pot of a BREWFW activation. -/
def setActivating (s : State) : State :=
  let pot := if s.fw.awaiting.contains .brewfw then (nextMove s).elim 0 BitVec.toNat else 0
  { s with fw := { s.fw with boot := putField (putBit s.fw.boot 9 true) 10 5 pot } }

/-- A BREWFW activation is complete once every pot has moved. -/
def brewSettle (s : State) : State := if (nextMove s).isNone then commitKind s .brewfw else setActivating s

/-- An activation that waited for what has just ended goes on (R449). -/
def fwSettle (s : State) : State :=
  let s1 := leafmcSettle s
  if s1.fw.awaiting.contains .brewfw then brewSettle s1 else s1

end Sys2Proof.Machine
end

