-- ==== Sys2Proof/Machine/Seq.lean ====
section
/-!
DEFINITION. What the words of a sequencer share: the checks of a word, its issue time, faults and the end of a command, loops, and
the ends of tray queues and chain queues (R57 to R74, R82 to R84, R98 to R100).
-/

namespace Sys2Proof.Machine

/-! Fields of the common kinds (R66 to R87). -/

def kindNop : Nat := 0
def kindOp : Nat := 1
def kindLoop : Nat := 2
def kindBranch : Nat := 3
def kindScalar : Nat := 4
def kindStream : Nat := 5
def kindSync : Nat := 6
def kindEnd : Nat := 7

/-- A field unused holds its null value (R68). -/
def nullIf (unused : Bool) (v null : Nat) : Bool := !unused || v == null

/-- LOOP's body (R72). -/
def loopOk (w : ColWord) : Bool :=
  fieldN w 35 12 != 0 && fieldN w 47 1 == 0 && fieldN w 69 3 == 0 && nullIf (bitAt w 34) (fieldN w 48 16) 0 &&
    nullIf (!bitAt w 68) (fieldN w 64 4) 0 && nullIf (!bitAt w 68) (fieldN w 72 24) 0

/-- BRANCH's body (R86, R87): a field that the condition or its sources do not use is zero. -/
def branchOk (w : ColWord) : Bool :=
  let always := fieldN w 32 4 == 0
  decide (fieldN w 32 4 ≤ 8) && fieldN w 50 14 == 0 && nullIf (bitAt w 36 || always) (fieldN w 37 4) 0 &&
    nullIf (!bitAt w 36 || always) (fieldN w 41 4) 0 && nullIf always (fieldN w 45 1) 0 &&
    nullIf (bitAt w 45 || always) (fieldN w 46 4) 0 && nullIf (!bitAt w 45 || always) (fieldN w 80 16) 0

/-- SCALAR's body (R75, R76). -/
def scalarOk (w : ColWord) : Bool :=
  let sop := fieldN w 32 4
  let two := decide (sop ≤ 8)
  let usesA := two || sop == 11 || sop == 12 || sop == 13
  let usesImm := sop == 9 || sop == 10 || (two && bitAt w 48)
  decide (sop ≤ 13) && fieldN w 49 15 == 0 && nullIf (!usesA) (fieldN w 40 4) 0 &&
    nullIf (!(two && !bitAt w 48)) (fieldN w 44 4) 0 && nullIf (!two) (fieldN w 48 1) 0 &&
    nullIf (!usesImm) (fieldN w 64 32) 0 && (sop != 11 || fieldN w 38 2 == 0)

/-- STREAM's body (R78). -/
def streamOk (w : ColWord) : Bool :=
  fieldN w 61 3 == 0 && decide (fieldN w 50 6 < 48) && nullIf (!bitAt w 37) (fieldN w 38 4) 0 &&
    nullIf (!bitAt w 56) (fieldN w 57 4) 0 && nullIf (bitAt w 56) (fieldN w 64 32) 0

/-- The operation field of an OP word holds a code of its engine (R92 to R94). -/
def opCodeOk (e : Eng) (w : ColWord) : Bool :=
  wKind w != kindOp || decide (fieldN w 32 4 ≤ match e with | .mxe => 4 | .vxe => 3 | .sfe => 5)

/-- The header and, for kinds other than OP and SYNC, the body of a word (R66 to R68). -/
def wordOk (w : ColWord) : Bool :=
  let k := wKind w
  decide (k ≤ 7) && fieldN w 28 4 == 0 && (k == kindOp || (wRepeat w == 1 && fieldN w 96 160 == 0)) &&
    (!(k == kindNop || k == kindEnd) || fieldN w 32 64 == 0) && (k != kindLoop || loopOk w) &&
    (k != kindBranch || branchOk w) && (k != kindScalar || scalarOk w) && (k != kindStream || streamOk w)

/-! Registers of a sequencer. -/

def axOf (q : Seqr) (i : Nat) : BitVec 48 := tget q.ax i 0
def setAx (q : Seqr) (i : Nat) (v : BitVec 48) : Seqr := { q with ax := tset q.ax i v }
def lcOf (q : Seqr) (i : Nat) : BitVec 32 := tget q.lc i 0
def setLc (q : Seqr) (i : Nat) (v : BitVec 32) : Seqr := { q with lc := tset q.lc i v }
def streamOf (q : Seqr) (i : Nat) : Option Stream := tfind q.streams i
/-- The address generator is moving bursts (R70). -/
def agBusy (q : Seqr) (i : Nat) : Bool := (streamOf q i).any fun x => !x.stopped

/-! Instruction cache (R61). -/

/-- Where a word lies in the program region. -/
def wordByte (e : Eng) (pc : BitVec 32) : Nat := pc.toNat * wordStride e

/-- The program region's base of an infusion on a pot. -/
def programBase (s : State) (n : PotIx) (inf : BitVec 12) : BitVec 41 :=
  if inf = 0 then Config.fwProgram n.toNat
  else (((infOf s inf).res.find? fun r => r.pot == n.toNat).map InfRes.progBase).getD 0

/-- Sets of the cache: 64 KiB over 4 ways of 256 B. DESIGN CHOICE (log entry 101): a line goes to the set of its number modulo 64. -/
def cacheSet (line : Nat) : Nat := line % 64

/-- The cached line, if held. -/
def cacheFind (q : Seqr) (line : Nat) : Option CacheLine :=
  (tget q.icache (cacheSet line) []).find? fun c => c.infusion == q.infusion && c.line == line

/-- The word at PC, when its line is held. -/
def wordAt (q : Seqr) (e : Eng) : Option ColWord :=
  let b := wordByte e q.pc
  (cacheFind q (b / 256)).map fun c => wordOfBytes ((c.bytes.drop (b % 256)).take (wordStride e))

/-- The word at PC was read uncorrectable or poisoned (R98, R386). -/
def wordBad (q : Seqr) (e : Eng) : Bool :=
  let b := wordByte e q.pc
  (cacheFind q (b / 256)).any fun c => nth c.poison (b % 256 / 32) false

/-- A line just used moves to the front of its set: the last is the least recently used. -/
def cacheTouch (q : Seqr) (line : Nat) : Seqr :=
  match pullFirst (fun c => c.infusion == q.infusion && c.line == line) (tget q.icache (cacheSet line) []) with
  | none => q
  | some x => { q with icache := tset q.icache (cacheSet line) (x.1 :: x.2) }

/-- A way to fill: a free one, else that of the least recently used line outside the locked ways (R61, R100).
DESIGN CHOICE (log entry 103): the locked ways are the lowest-numbered ones, and a locked way that is free is not filled. -/
def cacheWay (q : Seqr) (set : List CacheLine) : Nat :=
  match (upto 4).find? fun w => decide (q.lockWays.toNat ≤ w) && !(set.any fun c => c.way == w) with
  | some w => w
  | none =>
    match (set.reverse).find? fun c => decide (q.lockWays.toNat ≤ c.way) with
    | some c => c.way
    | none => 3

/-- Put a line into the cache. -/
def cacheFill (q : Seqr) (line : Nat) (bytes : List Byte) (poison : List Bool) : Seqr :=
  let set := tget q.icache (cacheSet line) []
  let w := cacheWay q set
  { q with
    icache := tset q.icache (cacheSet line) (⟨q.infusion, line, w, bytes, poison⟩ :: set.filter fun c => c.way != w)
    fetchWait := false }

/-! Ends and faults (R63, R98, R99). -/

def seqIsland (n : PotIx) (e : Eng) : Nat := potIsland n (engUnit e)

def seqCauseStatus (c : Nat) : Status :=
  match c with
  | 5 => .poisoned
  | 6 => .poisoned
  | 7 => .timeout
  | _ => .rejected

/-- Word-0 offset of an engine's register block in its pot's window (R500). -/
def engBase : Eng → Nat
  | .mxe => 0x3000
  | .vxe => 0x4000
  | .sfe => 0x5000

/-- The buffered xxE_SEQ_CTL, xxE_SEQ_STALL and xxE_CTL of an engine are applied (R488). -/
def applySeqRegs (s : State) (n : PotIx) (e : Eng) : State :=
  let one := fun (t : State) (off : Nat) =>
    let key := potReg n (engBase e + off)
    match bufferOf t key with
    | none => t
    | some v =>
      parityEnds (dropBuffer (updPot t n fun p =>
        if off = 0 then setSeq p e { seqOf p e with lockWays := BitVec.ofNat 2 (v / 2) }
        else if off = 0x10 then setSeq p e { seqOf p e with stallUs := BitVec.ofNat 32 v }
        else
          match e with
          | .mxe => { p with mxe := { p.mxe with ctl := BitVec.ofNat 64 v } }
          | .vxe => { p with vxe := { p.vxe with ctl := BitVec.ofNat 64 v } }
          | .sfe => { p with sfe := { p.sfe with ctl := BitVec.ofNat 64 v } }) key) key
  runAll one [0, 0x10, 0x20] s

/-- What waits for the program boundary takes effect: buffered registers, committed descriptors and recipes in use, and the invalidation of the
instruction cache (R100, R487, R488). -/
def boundary (s : State) (n : PotIx) (e : Eng) : State :=
  let s1 := updSeq (applySeqRegs s n e) n e fun q =>
    { q with
      descs := q.descPend.foldl (fun m d => tset m d.1 d.2) q.descs, descPend := []
      icache := if q.invalPending then [] else q.icache, invalPending := false }
  match e with
  | .vxe =>
    updPot s1 n fun p =>
      { p with vxe := { p.vxe with
          recipes := p.vxe.recipePend.foldl (fun m d => tset m d.1 d.2) p.vxe.recipes, recipePend := [] } }
  | .sfe =>
    updPot s1 n fun p =>
      { p with sfe := { p.sfe with
          descs := p.sfe.descPend.foldl (fun m d => tset m d.1 d.2) p.sfe.descs, descPend := [] } }
  | .mxe => s1

/-- An agent's parked and held sync operations leave without a response (R297, R316). -/
def dropAgent (s : State) (a : Agent) : State :=
  { s with pots := s.pots.map fun e => (e.1, { e.2 with snc := { e.2.snc with
      waiters := e.2.snc.waiters.filter fun w => w.agent != a, held := e.2.snc.held.filter fun w => w.agent != a } }) }

/-- A remote answer that a sequencer's command would still take. -/
def remoteOfEng (n : PotIx) (e : Eng) (r : RemoteReq) : Bool :=
  match r.what with
  | .burst g _ => g == e
  | .lastBurst g _ _ => g == e
  | .row _ => e == .sfe
  | .sync a => a == .sequencer n e
  | _ => false

/-- What a completing command leaves outstanding: its bursts in progress; every other answer has no taker (R99). -/
def remoteLeft (n : PotIx) (e : Eng) (q : Seqr) (r : RemoteReq) : Option RemoteReq :=
  match r.what with
  | .burst g ag =>
    if g = e then (streamOf q ag.toNat).map fun x => { r with what := .lastBurst g x.queue q.infusion } else some r
  | .lastBurst _ _ _ => some r
  | _ => if remoteOfEng n e r then none else some r

/-- What the SFE keeps of a command that ends: rows that have all been read, and bags whose leaf commands run. Rows of a scatter that
are still in the window are not written (log entry 108). -/
def sfeLeft (f : Sfe) : Sfe :=
  { f with walk := none, scatter := [], writes := []
           tickets := f.tickets.filter fun t => (t.rows.all fun r => r.wait.isNone) && !(f.walk.any fun x => x.ticket == t.id) }

/-- The running command completes: INFLIGHT, the event NOTIFY asks for, the permit, the program boundary (R62, R63, R409). -/
def engFinish (s : State) (n : PotIx) (e : Eng) (st : Status) : State :=
  let q := seqOf (potOf s n) e
  let s0 := updPot (dropAgent s (.sequencer n e)) n fun p =>
    { p with remote := p.remote.filterMap (remoteLeft n e q), mxe := if e = .mxe then { p.mxe with ftqHeld := false } else p.mxe,
             sfe := if e = .sfe then sfeLeft p.sfe else p.sfe }
  let s1 := inflightDown s0 q.infusion
  let s2 := updSeq s1 n e fun x =>
    { x with running := false, ended := false, stalled := false, heldBack := false, fetchWait := false, syncWait := false, syncDone := none,
             chains := [], loops := [], streams := [], claims := [] }
  let s3 := updPot s2 n fun p =>
    { p with pmt := permitFinish p.pmt (engClass e) 0 (!(seqOf p e).cmdq.isEmpty) }
  let s4 :=
    if q.notify then
      updPot s3 n fun p =>
        postEvent p (BitVec.ofNat 32 (q.tag.toNat + statusCode st * 2 ^ 16 + (engNo e + 1) * 2 ^ 24))
    else s3
  boundary s4 n e

/-- A sequencer fault: the record, the sticky status, the end of the command and, for an infusion, its failure (R98, R99). -/
def seqFault (s : State) (n : PotIx) (e : Eng) (cause : Nat) (word : ColWord) (queue : Nat) : State :=
  let q := seqOf (potOf s n) e
  let st := seqCauseStatus cause
  let s1 := sendFault (updSeq s n e fun x => { x with faulted := true, faultCause := BitVec.ofNat 4 cause })
    { status := statusCode st, tag := q.tag, infusion := q.infusion, island := seqIsland n e, block := 1, cause := cause,
      addr := q.pc.toNat, detail := fieldN word 0 64, detail2 := queue }
  engFinish (markFailing s1 q.infusion) n e st

/-! Control flow (R69, R73, R74). -/

/-- The back-edges and ends of the loop levels whose body ends where PC now stands; `fuel` bounds the levels. -/
def closeLoops : (fuel : Nat) → Seqr → Seqr
  | 0, q => q
  | f + 1, q =>
    match q.loops with
    | [] => q
    | l :: ls =>
      if q.pc = l.stop then
        let q1 := if l.incEn then setAx q l.incAx.toNat (axOf q l.incAx.toNat + l.incVal.signExtend 48) else q
        if 1 < l.left then { q1 with pc := l.start, loops := { l with left := l.left - 1 } :: ls }
        else closeLoops f { q1 with loops := ls }
      else q

/-- Execution falls through to the word at `pc`. -/
def seqGo (q : Seqr) (pc : BitVec 32) : Seqr := closeLoops 5 { q with pc := pc, issued := 0 }

/-- The cycle at which the word's next issue comes (R69; log entry 24). -/
def issueAt (q : Seqr) (w : ColWord) : Nat :=
  if q.issued = 0 then Nat.max q.busyTo (q.cycle + wDelay w) else q.busyTo

/-- An issue takes `occ` engine cycles from its cycle on; claims that have ended are dropped. -/
def seqSpend (q : Seqr) (w : ColWord) (occ : Nat) : Seqr :=
  let t := issueAt q w
  { q with cycle := t, busyTo := t + occ, stalled := false, heldBack := false, claims := q.claims.filter fun c => decide (t ≤ c.last) }

/-- A word of a kind other than OP has issued: one engine cycle, and on to the next word. -/
def seqNext (q : Seqr) (w : ColWord) : Seqr :=
  let q1 := seqSpend q w 1
  seqGo q1 (q1.pc + 1)

/-- What the issue of a word comes to; `hold` is at a blocking end or a SYNC wait, `holdOther` at a busy generator or at END (R70,
R100). -/
inductive SeqIssue where
  | hold
  | holdOther
  | fault (s : State) (cause queue : Nat)
  | go (s : State)
  deriving DecidableEq, Repr

/-- The sequencer may issue a word: a command runs, HALT and SYNC do not hold it, its clamp leaves it cycles (R100, R297, R414). -/
def seqReady (s : State) (n : PotIx) (e : Eng) : Bool :=
  let q := seqOf (potOf s n) e
  engPresent s n e && q.running && !q.ended && (!q.halt || decide (0 < q.issued)) && !q.syncWait && decide ((potOf s n).pmt.clamp.toNat < 8)

/-- A word that is held back at a blocking end or a SYNC wait shows STALLED (R70, R100). -/
def seqHold (s : State) (n : PotIx) (e : Eng) : State := updSeq s n e fun q => { q with stalled := true, heldBack := true }

/-- The word at PC has issued in part: an issue of it is made, or in the SFE's walker. -/
def wordBegun (p : Pot) (e : Eng) : Bool := (seqOf p e).issued != 0 || (e == .sfe && p.sfe.walk.isSome)

/-- Issue the word at PC when `own` says it is the named one: a miss waits for its line, a bad word faults (R61, R68). -/
def seqIssue (n : PotIx) (e : Eng) (own : ColWord → Bool) (body : ColWord → State → SeqIssue) (s : State) : Result :=
  if !seqReady s n e || (!wordBegun (potOf s n) e && infFailing s (seqOf (potOf s n) e).infusion) then .next s
  else
    let q := seqOf (potOf s n) e
    match wordAt q e with
    | none => .next (updSeq s n e fun x => { x with fetchWait := true })
    | some w =>
      if wordBad q e then .next (seqFault s n e 6 w 0xFF)
      else if !wordOk w || !opCodeOk e w then .next (seqFault s n e 1 w 0xFF)
      else if !own w then .next s
      else
        match body w (updSeq s n e fun x => cacheTouch x (wordByte e q.pc / 256)) with
        | .hold => .next (seqHold s n e)
        | .holdOther => .next (updSeq s n e fun q => { q with heldBack := true })
        | .fault t cause queue => .next (seqFault t n e cause w queue)
        | .go t => .next t

/-- One issue of an OP word has been made: its occupancy, its claims, and the next word after the last issue (R69, R84). -/
def seqOp (q : Seqr) (w : ColWord) (occ : Nat) (claims : List Claim) : Seqr :=
  let q1 := seqSpend q w occ
  let q2 := { q1 with claims := q1.claims ++ claims, issued := q1.issued + 1 }
  if wRepeat w ≤ q2.issued then seqGo q2 (q2.pc + 1) else q2

/-- An OP word with REPEAT 0 waits its DELAY and issues nothing (R69; log entry 24). -/
def seqSkip (q : Seqr) (w : ColWord) : Seqr :=
  let q1 := seqSpend q w 0
  seqGo q1 (q1.pc + 1)

/-- A word that only changes its sequencer. -/
def seqPlain (n : PotIx) (e : Eng) (s : State) (f : Seqr → Seqr) : SeqIssue := .go (updSeq s n e f)

/-! Tray queue ends of an operation (R57, R82, R83). -/

/-- A queue that an agent may pop; and one it may push. -/
def mayPop (p : Pot) (agent qi : Nat) : Bool :=
  decide (qi < 48) && !p.queueBad.contains qi && qMode (queueOf p qi) != 0 && qPopper (queueOf p qi) == agent
def mayPush (p : Pot) (agent qi : Nat) : Bool :=
  decide (qi < 48) && !p.queueBad.contains qi && qMode (queueOf p qi) != 0 && qPusher (queueOf p qi) == agent

/-- All that an issue needs on one queue, by all its ends that name it. -/
def needOn (l : List (Nat × Nat)) (q : Nat) : Nat := ((l.filter fun x => x.1 == q).map Prod.snd).sum

/-- Chain queue contents (R84). -/
def chainOf (q : Seqr) (c : Nat) : List ChainEntry := tget q.chains c []

/-- An entry is present at a cycle (R84). -/
def chainReady (q : Seqr) (c t : Nat) : Bool := (chainOf q c).any fun x => decide (x.presentAt ≤ t)

/-- Two claims of one resource meet in a cycle (R84). -/
def claimsMeet (old new : List Claim) : Bool :=
  new.any fun a => old.any fun b => a.res == b.res && decide (a.first ≤ b.last) && decide (b.first ≤ a.last)

/-- Claims whose windows an operation has given relative to its issue. -/
def claimsAt (t : Nat) (l : List (Nat × Nat × Nat)) : List Claim := l.map fun x => ⟨x.1, t + x.2.1, t + x.2.2⟩

end Sys2Proof.Machine
end

