-- ==== Sys2Proof/Machine/Drizor.lean ====
section
/-!
DEFINITION. Drizor messages: their flits, the route a message takes, streams with their sequence numbers, covers and LOSSY
flags, and the loss of a node (R309 to R313, R363 to R374).
-/

namespace Sys2Proof.Machine

/-! Local completion of a sync operation (R291, R297 to R299). -/

/-- The sync view of a word (R291). -/
def syncView (w : SyncWord) : BitVec 128 :=
  BitVec.ofNat 128 (w.value.toNat + w.full.toNat * 2 ^ 64 + w.broken.toNat * 2 ^ 65 + w.alloc.toNat * 2 ^ 66 +
    w.owner.toNat * 2 ^ 72)

/-- The slot's result at completion (R298). -/
def slotDone (x : SncSlot) (st : Status) (view : BitVec 128) : SncSlot :=
  { x with done := true, busy := false, view := view, status := st }

/-- A completion reaches its local agent: a sequencer that is held, a request slot with its interrupt, a host command (R297 to
R299). `at_` is the pot whose answers the hub's node collects. -/
def syncLocal (s : State) (at_ : PotIx) (a : Agent) (st : Status) (view : BitVec 128) : State :=
  match a with
  | .sequencer n e =>
    updSeq s n e fun q =>
      if q.running && q.syncWait then { q with syncWait := false, syncDone := some (st, fieldB view 0 64) } else q
  | .brewerSlot n c slot =>
    let k := c.toNat * 4 + slot.toNat
    let p := potOf s n
    let x := tget p.snc.slots k SncSlot.reset
    let p1 := { p with snc := { p.snc with slots := tset p.snc.slots k (slotDone x st view) } }
    setPot s n
      (if x.irq then
        postEvent { p1 with sncIrq := putBit p1.sncIrq c.toNat true }
          (BitVec.ofNat 32 (fieldN x.request 48 16 + statusCode st * 2 ^ 16 + 4 * 2 ^ 24))
      else p1)
  | .hubSlot c slot =>
    let k := c.toNat * 4 + slot.toNat
    let x := tget s.hubSnc k SncSlot.reset
    { s with hubSnc := tset s.hubSnc k (slotDone x st view),
             hubSncIrq := if x.irq then putBit s.hubSncIrq c.toNat true else s.hubSncIrq }
  | .hostCmd id =>
    answerMember s at_ ⟨id, 1, if st = .ok then 1 else 0, st, false, decide (st = .poisoned), .view view, 0, none⟩
  | .remote _ _ _ => s

/-! Flits (R349 to R351, R369, R370). -/

/-- The virtual channel of a message type (R370). -/
def vcOf (mtype : Nat) : Nat :=
  match mtype with
  | 1 => 0
  | 4 => 1
  | 8 => 1
  | 2 => 2
  | 5 => 2
  | 9 => 2
  | 0xC => 4
  | 0xD => 4
  | _ => 3

/-- The 24 B header (R369). -/
def hdrBytes (h : MsgHdr) : List Byte :=
  bytesOfNat 2 h.dst.toNat ++ bytesOfNat 2 h.src.toNat ++ bytesOfNat 1 h.srcPot.toNat ++ bytesOfNat 1 h.hops.toNat ++
    bytesOfNat 2 h.len.toNat ++ bytesOfNat 4 h.sseq.toNat ++ bytesOfNat 2 h.tag.toNat ++ bytesOfNat 2 h.infusion.toNat ++
    bytesOfNat 8 h.addr.toNat

/-- A flit of a message before it is sent: sequence numbers and piggybacked fields are put in then. -/
def mkFlit (mtype : Nat) (first last : Bool) (bs : List Byte) : Flit :=
  { vc := BitVec.ofNat 3 (vcOf mtype), vseq := 0, avc := 7, avseq := 0, cvc := 7, ccnt := 0, mtype := BitVec.ofNat 8 mtype,
    som := first, eom := last, payload := BitVec.ofNat 1952 (natOfBytes bs) }

/-- The flits of a message: 244 B of payload each. -/
def msgFlits (h : MsgHdr) (mtype : Nat) (body : List Byte) : List Flit :=
  let ps := chunks 244 20 (hdrBytes { h with len := BitVec.ofNat 16 body.length } ++ body)
  ps.zipIdx.map fun x => mkFlit mtype (x.2 == 0) (x.2 + 1 == ps.length) x.1

/-- The destination in a message's first flit. -/
def flitDst (f : Flit) : BitVec 16 := fieldB f.payload 0 16

/-! Routes (R363, R364). -/

/-- A port of the module: 2 × pot + k. -/
def portPot (q : Nat) : PotIx := BitVec.ofNat 5 (q / 2)
def portK (q : Nat) : Nat := q % 2
def portNo (n : PotIx) (k : BitVec 1) : Nat := 2 * n.toNat + k.toNat
def portAt (s : State) (q : Nat) : Port := portOf (potOf s (portPot q)) (portK q)
def updPortAt (s : State) (q : Nat) (f : Port → Port) : State :=
  updPot s (portPot q) fun p => setPort p (portK q) (f (portOf p (portK q)))

/-- A node id that names this module. -/
def ownNode (s : State) (d : BitVec 16) : Bool := d == 0xFFFF || d == nodeId s

def routeOf (s : State) (d : BitVec 16) : Route := tget s.drz.routes d.toNat Route.reset

/-- Eligible ports in ascending order. -/
def eligible (s : State) (d : BitVec 16) : List Nat := (upto 64).filter (bitAt (routeOf s d).ports)

/-- pick_port of R364. -/
def pickPort (s : State) (n : BitVec 16) (p : PotIx) (d : BitVec 16) : Option Nat :=
  let e := eligible s d
  let h := (n.toNat * 33 + p.toNat * 7 + d.toNat) % e.length
  if decide (4096 ≤ d.toNat) then none
  else ((upto e.length).map fun i => nth e ((h + i) % e.length) 0).find? fun q => (portAt s q).state == .up

/-- A message's flits enter the transmit queue of a port. -/
def txPush (s : State) (q : Nat) (fs : List Flit) : State :=
  updPortAt s q fun p =>
    fs.foldl (fun x f => { x with txq := tset x.txq f.vc.toNat (tget x.txq f.vc.toNat [] ++ [(f, x.slotNo)]) }) p

/-! The loss of a node (R313, R366, R367, R372). -/

/-- Whole messages to a node that have not begun leave a transmit queue; `inside` says that the flit continues one that stays. -/
def dropTo (d : BitVec 16) : (keep : Bool) → List (Flit × Nat) → List (Flit × Nat)
  | _, [] => []
  | keep, f :: fs =>
    let k := if f.1.som then flitDst f.1 != d else keep
    if k then f :: dropTo d k fs else dropTo d k fs

/-- Step 1: messages waiting to be sent. -/
def dropWaiting (d : BitVec 16) (p : Port) : Port := { p with txq := p.txq.map fun e => (e.1, dropTo d true e.2) }

/-- The fault record of a dropped deferred operation (R311, R512). -/
def strandRecord (s : State) (n : PotIx) (x : Deferred) : State :=
  sendFault (updPot s n fun p => { p with snc := { p.snc with events := satField p.snc.events 56 16 1 } })
    { status := 7, tag := x.hdr.tag, infusion := x.hdr.infusion, island := potIsland n 4, block := 3, cause := 2,
      addr := fieldN x.hdr.addr 0 5 * 2 ^ 16 + fieldN x.hdr.addr 5 16, detail := x.src.toNat, detail2 := x.cover.toNat }

/-- Drop the deferred operations of a port that satisfy `c`, each with its record. -/
def dropDeferred (s : State) (q : Nat) (c : Deferred → Bool) : State :=
  let out := (portAt s q).deferral.filter c
  runAll (fun t x => strandRecord t (portPot q) x) out
    (updPortAt s q fun p => { p with deferral := p.deferral.filter fun x => !c x })

def agentNode : Agent → Option (BitVec 16)
  | .remote d _ _ => some d
  | _ => none

/-- A member of a blended command is lost (R48, R374). -/
def partLost (s : State) (cmd key : Nat) : State :=
  { s with hfe := { s.hfe with table := s.hfe.table.map fun c =>
      if c.id = cmd then { c with parts := c.parts.map fun p =>
        if p.key = key ∧ p.state = .waiting then
          { p with state := .lost, status := .timeout, isPartial := true, answered := 0, res := .none } else p } else c } }

/-- An outstanding remote request ends TIMEOUT (R313, R367). -/
def remoteTimeout (s : State) (n : PotIx) (r : RemoteReq) : State :=
  match r.what with
  | .sync a => syncLocal s n a .timeout 0
  | .member c k => partLost s c k
  | .burst e _ => seqFault s n e 7 ((wordAt (seqOf (potOf s n) e) e).getD 0) 0xFF
  | .row _ => seqFault s n .sfe 7 ((wordAt (seqOf (potOf s n) .sfe) .sfe).getD 0) 0xFF
  | .posted _ _ _ _ => s
  | .lastBurst _ _ _ => s

def streamEnt (p : Pot) (d : BitVec 16) : StreamEnt := tget p.streams d.toNat StreamEnt.reset
def setStream (p : Pot) (d : BitVec 16) (e : StreamEnt) : Pot := { p with streams := tset p.streams d.toNat e }

/-- The port a stream counts its refusals on: the one it leaves by, else its pot's first. -/
def streamPort (s : State) (n : PotIx) (d : BitVec 16) : Nat :=
  match (streamEnt (potOf s n) d).port with
  | some q => q
  | none => (pickPort s (nodeId s) n d).getD (2 * n.toNat)

/-- A changing operation of a LOSSY stream completes STRANDED_SIGNAL at its sender and counts in SPT_EVENTS (R372). -/
def lossyRefuse (s : State) (n : PotIx) (d : BitVec 16) (o : RemoteOp) : State :=
  syncLocal (updPortAt s (streamPort s n d) fun p => { p with events := satField p.events 80 16 1 }) n o.agent
    .strandedSignal 0

/-- The stream's unacknowledged writes are lost: LOSSY, the fault record, a RESYNC owed on the new path (R372). -/
def streamLossy (s : State) (n : PotIx) (d : BitVec 16) : State :=
  let e := streamEnt (potOf s n) d
  if e.last = e.acked ∨ e.resync then s
  else
    let q := streamPort s n d
    let s1 := updPot s n fun p => setStream p d { e with lossy := true, resync := true, port := none, held := [] }
    runAll (fun t o => lossyRefuse t n d o) e.held
      (sendFault s1 { status := 7, tag := 0, infusion := 0, island := potIsland (portPot q) (16 + portK q), block := 6, cause := 4,
                      addr := 0, detail := q, detail2 := (nodeId s).toNat })

/-- Clear LIVE on every blend record of a module (R367). -/
def clearLive (m : SMap (BitVec 128)) (d : BitVec 16) : SMap (BitVec 128) :=
  m.map fun e => if fieldB e.2 64 16 = d then (e.1, putBit e.2 81 false) else e

/-- Declare node d lost (R366), with its effects in the order of R367; the table has an entry for valid node ids only (R363, R364). -/
def declareLost (s : State) (d : BitVec 16) : State :=
  let r := routeOf s d
  let s0 :=
    if d.toNat < 4096 then { s with drz := { s.drz with routes := tset s.drz.routes d.toNat { r with lost := true } } } else s
  let s1 := runAll (fun t q => updPortAt t q (dropWaiting d)) (upto 64) s0
  let s2 := runAll (fun t q => dropDeferred t q fun x => x.src == d) (upto 64) s1
  let s3 := { s2 with pots := s2.pots.map fun e => (e.1, { e.2 with snc := { e.2.snc with
      waiters := e.2.snc.waiters.filter fun w => agentNode w.agent != some d,
      held := e.2.snc.held.filter fun w => agentNode w.agent != some d } }) }
  let s4 := runAll (fun t n =>
      let out := (potOf t n).remote.filter fun x => x.node == d
      runAll (fun u x => remoteTimeout u n x) out
        (updPot t n fun p => { p with remote := p.remote.filter fun x => x.node != d })) allPots s3
  let s5 := { s4 with blend := { s4.blend with table := clearLive s4.blend.table d } }
  runAll (fun t n => streamLossy t n d) allPots s5

/-! Sending (R309, R312, R364 to R366, R371, R372). -/

/-- A message that this module originates: to an unreachable node it is discarded, and the node is lost (R366). -/
def sendMsg (s : State) (n : PotIx) (d : BitVec 16) (mtype : Nat) (sseq : BitVec 32) (tag : BitVec 16) (inf : BitVec 12)
    (addr : Word64) (body : List Byte) : State :=
  match pickPort s (nodeId s) n d with
  | none => declareLost s d
  | some q =>
    let h : MsgHdr := ⟨d, nodeId s, n, fieldB s.drz.node 16 3 |>.setWidth 4, 0, sseq, tag, inf, addr⟩
    txPush s q (msgFlits h mtype body)

/-- NODE_LOST to a message's source; of repeats within 100 µs for the pair none is sent, and whether that time has passed since
the last one is a free value (R366). -/
def sendNodeLost (s : State) (n : PotIx) (src d : BitVec 16) : State :=
  let k := (src, d)
  let body := bytesOfNat 2 d.toNat
  if s.drz.lostSent.contains k then
    let v := takeFree s
    if bitAt v.1 0 then sendMsg v.2 n src 0xC 0 0 0 0 body else v.2
  else sendMsg { s with drz := { s.drz with lostSent := k :: s.drz.lostSent } } n src 0xC 0 0 0 0 body

/-- Forward a message that names another node (R365): HOPS falls; at 0 it is discarded with a record. `n`, `k` is the port it
entered by. -/
def forwardMsg (s : State) (n : PotIx) (k : BitVec 1) (h : MsgHdr) (mtype : Nat) (body : List Byte) : State :=
  if h.hops = 0 then
    sendFault (updPort s n k fun p => { p with events := satField p.events 64 16 1 })
      { status := 0, tag := h.tag, infusion := h.infusion, island := potIsland n (16 + k.toNat), block := 6, cause := 1,
        addr := h.addr.toNat, detail := portNo n k, detail2 := h.src.toNat }
  else
    match pickPort s h.src h.srcPot h.dst with
    | some q => txPush s q (msgFlits { h with hops := h.hops - 1 } mtype body)
    | none => sendNodeLost (declareLost s h.dst) n h.src h.dst

/-- Poison bits of a body, one bit per 32 B. -/
def poisonBytes (k : Nat) (ps : List Bool) : List Byte :=
  bytesOfNat (ceilDiv k 8) ((ps.zipIdx.map fun x => x.1.toNat * 2 ^ x.2).sum)

/-- RESYNC carrying LAST on the stream's path (R312, R372). -/
def sendResync (s : State) (n : PotIx) (d : BitVec 16) (lossy : Bool) : State :=
  let e := streamEnt (potOf s n) d
  sendMsg s n d 8 e.last 0 0 0 (bytesOfNat 4 e.last.toNat ++ bytesOfNat 1 lossy.toNat)

/-- The body of SYNC_CHG and SYNC_REQ: YOP, COND and F, then the operand. -/
def syncBody (yop cond : Nat) (full : Bool) (operand : Word64) : List Byte :=
  bytesOfNat 1 (yop + cond * 16 + full.toNat * 64) ++ bytesOfNat 7 0 ++ bytesOfNat 8 operand.toNat

/-- The sync word named in a message: POT in [4:0], INDEX in [20:5] (R369). -/
def wordAddr (n : PotIx) (ix : BitVec 16) : BitVec 21 := BitVec.ofNat 21 (n.toNat + ix.toNat * 32)

/-- A new request id of a pot; the pot's number heads it, so that an answer finds its pot. -/
def newReq (s : State) (n : PotIx) : BitVec 32 × State :=
  let p := potOf s n
  (BitVec.ofNat 32 (n.toNat * 2 ^ 27 + p.nextReq.toNat % 2 ^ 27), setPot s n { p with nextReq := p.nextReq + 1 })
def reqPot (id : BitVec 32) : PotIx := fieldB id 27 5

/-- Record an outstanding remote request. -/
def awaitRemote (s : State) (n : PotIx) (r : RemoteReq) : State := updPot s n fun p => { p with remote := p.remote ++ [r] }

/-- What an operation's agent waits for remotely: a sequencer's SIGNAL and STORE are posted (R297, R312); an ARRIVE may be held,
so its issuer waits. -/
def remoteWhat (o : RemoteOp) : RemoteFor :=
  match o.agent with
  | .sequencer _ e => if o.yop = 1 ∨ o.yop = 5 then .posted e o.tag o.infusion false else .sync o.agent
  | _ => .sync o.agent

/-- A changing operation leaves with the stream's cover (R309). -/
def sendChange (s : State) (n : PotIx) (d : BitVec 16) (o : RemoteOp) : State :=
  let e := streamEnt (potOf s n) d
  let r := newReq s n
  sendMsg (awaitRemote r.2 n ⟨r.1, d, o.word.setWidth 64, remoteWhat o⟩) n d 4 e.last o.tag o.infusion (o.word.setWidth 64)
    (syncBody o.yop.toNat 0 o.full o.operand ++ bytesOfNat 4 r.1.toNat)

/-- A stream has moved to the port that now carries it: the RESYNC owed or the last acknowledged number goes first, then the
operations that waited (R312, R372). -/
def streamMove (s : State) (n : PotIx) (d : BitVec 16) : State :=
  let e := streamEnt (potOf s n) d
  let q := pickPort s (nodeId s) n d
  if q.isNone then s
  else
    let s1 := updPot s n fun p => setStream p d
      { e with port := q, resync := false, acked := if e.resync then e.last else e.acked, held := [] }
    let s2 := if e.resync || (e.port.isSome && decide (0 < e.last.toNat)) then sendResync s1 n d e.lossy else s1
    runAll (fun t o => sendChange t n d o) e.held s2

/-- The stream leaves by the port that pick_port gives, or may move there now. -/
def streamReady (s : State) (n : PotIx) (d : BitVec 16) : State × Bool :=
  let e := streamEnt (potOf s n) d
  let q := pickPort s (nodeId s) n d
  if q.isSome && decide (e.port = q) && !e.resync then (s, true)
  else if e.acked = e.last ∨ e.port = none ∨ e.resync then (streamMove s n d, true)
  else (s, false)

/-- Issue a changing operation on a remote word (R309, R312, R372). -/
def issueChange (s : State) (n : PotIx) (d : BitVec 16) (o : RemoteOp) : State :=
  let e := streamEnt (potOf s n) d
  if e.lossy then lossyRefuse s n d o
  else
    let r := streamReady s n d
    if r.2 then sendChange r.1 n d o
    else updPot s n fun p => setStream p d { e with held := e.held ++ [o] }

/-- Issue READ, EMPTY, WAIT or BWAIT on a remote word: no cover (R309). -/
def issueAsk (s : State) (n : PotIx) (d : BitVec 16) (o : RemoteOp) (cond : Nat) : State :=
  let r := newReq s n
  sendMsg (awaitRemote r.2 n ⟨r.1, d, o.word.setWidth 64, .sync o.agent⟩) n d 5 r.1 o.tag o.infusion (o.word.setWidth 64)
    (syncBody o.yop.toNat cond o.full o.operand)

/-- Issue any operation on a remote word: SIGNAL, FILL, STORE, ARRIVE and BARRIER change it (R309). -/
def issueRemote (s : State) (n : PotIx) (d : BitVec 16) (o : RemoteOp) (cond : Nat) : State :=
  if o.yop = 1 ∨ o.yop = 2 ∨ o.yop = 5 ∨ o.yop = 6 ∨ o.yop = 8 then issueChange s n d o else issueAsk s n d o cond

/-- Whether a stream takes another write: its path is settled and fewer than 4,096 stand unacknowledged (R310, R312). -/
def streamOpen (s : State) (n : PotIx) (d : BitVec 16) : State × Bool :=
  let r := streamReady s n d
  let e := streamEnt (potOf r.1 n) d
  if r.2 && decide ((e.last - e.acked).toNat < 4096) then r else (s, false)

/-- Stamp and send one remote write (R309, R368, R371). -/
def sendWrite (s : State) (n : PotIx) (d : BitVec 16) (addr : Word64) (tag : BitVec 16) (inf : BitVec 12)
    (data : List Byte) (ps : List Bool) : State :=
  let e := streamEnt (potOf s n) d
  let e1 := { e with last := e.last + 1 }
  sendMsg (updPot s n fun p => setStream p d e1) n d 1 e1.last tag inf addr (data ++ poisonBytes ps.length ps)

/-- Ask for bytes of a remote tray (R368, R370). -/
def sendRead (s : State) (n : PotIx) (d : BitVec 16) (addr : Word64) (tag : BitVec 16) (inf : BitVec 12) (bytes : Nat)
    (what : RemoteFor) : State :=
  let r := newReq s n
  sendMsg (awaitRemote r.2 n ⟨r.1, d, addr, what⟩) n d 2 r.1 tag inf addr (bytesOfNat 4 bytes)

end Sys2Proof.Machine
end

