-- ==== Sys2Proof/Machine/Snc.lean ====
section
/-!
DEFINITION. The sync units: the operations on sync words, barriers, the waiter table and the input hold, request slots, and the
waits that time out (R287 to R306, R314).
-/

namespace Sys2Proof.Machine

/-- SNC_CTL in use: its reset value while its stored parity is wrong (R317, R493). -/
def sncCtl (s : State) (n : PotIx) : BitVec 128 :=
  if regBad s (potReg n 0x6000) then Snc.reset.ctl else (potOf s n).snc.ctl

def fwWords (s : State) (n : PotIx) : Nat := fieldN (sncCtl s n) 0 17

/-- A word as its operations see it: firmware words have ALLOC 1 and OWNER 0 at all times (R290). -/
def wordSeen (c : Snc) (fw ix : Nat) : SyncWord :=
  let w := syncWordOf c ix
  if ix < fw then { w with alloc := true, owner := 0 } else w

/-- Change VALUE and FULL with their complements (R293). -/
def changeWord (c : Snc) (ix : Nat) (v : Word64) (full : Bool) : Snc :=
  setSyncWord c ix { syncWordOf c ix with value := v, valueN := ~~~v, full := full, fullN := !full }

def wordSound (w : SyncWord) : Bool := agree w.value w.valueN && (w.fullN != w.full)

def yopBarrier (y : BitVec 4) : Bool := decide (6 ≤ y.toNat ∧ y.toNat ≤ 8)
/-- FILL, EMPTY, WAIT, BWAIT and BARRIER wait (R292). -/
def yopWaits (y : BitVec 4) : Bool := y == 2 || y == 3 || y == 4 || y == 7 || y == 8

/-- What one attempt of an operation comes to: it completes, or it must park (as `o`). -/
inductive SyncTry where
  | done (c : Snc) (st : Status)
  | park (c : Snc) (o : Waiter) (skew : Bool)
  deriving DecidableEq, Repr

/-! Barriers (R304 to R306). -/

def pairN (v : Word64) : Nat := fieldN v 32 24
def pairOpen (v : Word64) : Nat := fieldN v 0 2
def pairLeave (v : Word64) : Nat := fieldN v 8 24
/-- N above zero and no reserved bit set (R304). -/
def pairOk (v : Word64) : Bool := pairN v != 0 && fieldN v 2 6 == 0 && fieldN v 56 8 == 0
def arrOf (v : Word64) (r : Nat) : Nat := fieldN v (32 * (r % 2)) 32

/-- Release round OPEN when its arrivals equal N and nobody is still to leave (R306 step 1). -/
def pairRelease (c : Snc) (i : Nat) : Snc :=
  let a := (syncWordOf c i).value
  let v := (syncWordOf c (i + 1)).value
  if pairOk v && pairLeave v == 0 && arrOf a (pairOpen v) == pairN v then
    changeWord (changeWord c i (putField a (32 * (pairOpen v % 2)) 32 0) true) (i + 1)
      (putField (putField v 8 24 (pairN v)) 0 2 (pairOpen v + 1)) true
  else c

/-- BWAIT for round r (R305). -/
def tryBwait (c : Snc) (o : Waiter) : SyncTry :=
  let i := o.index.toNat
  let v := (syncWordOf c (i + 1)).value
  let d := (fieldN o.operand 0 2 + 4 - pairOpen v) % 4
  if d = 3 then
    if pairLeave v = 0 then .done c .rejected
    else .done (pairRelease (changeWord (changeWord c i (syncWordOf c i).value true) (i + 1)
      (putField v 8 24 (pairLeave v - 1)) true) i) .ok
  else if d = 2 then .done c .rejected
  else .park c { o with yop := 7 } false

/-- ARRIVE for round r, and the BWAIT of a BARRIER behind it (R292, R305). -/
def tryArrive (c : Snc) (o : Waiter) : SyncTry :=
  let i := o.index.toNat
  let a := (syncWordOf c i).value
  let v := (syncWordOf c (i + 1)).value
  let r := fieldN o.operand 0 2
  let d := (r + 4 - pairOpen v) % 4
  if d = 3 then .done c .rejected
  else if d = 2 ∨ (d = 1 ∧ pairLeave v ≠ 0) then .park c o true
  else if pairN v ≤ arrOf a r then .done c .rejected
  else
    let c1 := changeWord (changeWord c i (putField a (32 * (r % 2)) 32 (arrOf a r + 1)) true) (i + 1) v true
    let c2 := pairRelease c1 i
    if o.yop = 6 then .done c2 .ok else tryBwait c2 o

/-- A barrier operation: rejected while the pair's second word is no barrier's (R304). -/
def tryBarrier (c : Snc) (o : Waiter) : SyncTry :=
  if !pairOk (syncWordOf c (o.index.toNat + 1)).value then .done c .rejected
  else if o.yop = 7 then tryBwait c o else tryArrive c o

/-- The condition of WAIT (R292). -/
def waitCond (w : SyncWord) (cond : BitVec 2) (x : Word64) : Bool :=
  match cond.toNat with
  | 0 => w.full
  | 1 => w.full && decide (x.toNat ≤ w.value.toNat)
  | 2 => w.full && w.value == x
  | _ => !w.full

/-- One attempt of an operation on its word (R292). -/
def tryOp (c : Snc) (o : Waiter) : SyncTry :=
  let ix := o.index.toNat
  let w := syncWordOf c ix
  match o.yop.toNat with
  | 0 => .done c .ok
  | 1 =>
    .done (setSyncWord c ix
      { w with value := o.operand, valueN := ~~~o.operand, full := o.full, fullN := !o.full, broken := false }) .ok
  | 2 => if w.full then .park c o false else .done (changeWord c ix o.operand true) .ok
  | 3 => if w.full then .done (changeWord c ix w.value false) .ok else .park c o false
  | 4 => if waitCond w o.cond o.operand then .done c .ok else .park c o false
  | 5 => .done (changeWord c ix (w.value + o.operand) true) .ok
  | _ => tryBarrier c o

/-! Re-evaluation (R294, R306). -/

/-- A completion: the operation, its status and the view taken then. -/
abbrev SyncOut := List (Waiter × Status × BitVec 128)

/-- Try the parked entries that satisfy `sel`, in list order; completions apply at once. -/
def retryList (fw : Nat) (sel : Waiter → Bool) : List Waiter → Snc × SyncOut → (Snc × SyncOut) × List Waiter
  | [], r => (r, [])
  | o :: os, r =>
    if sel o then
      match tryOp r.1 o with
      | .done c st => retryList fw sel os (c, r.2 ++ [(o, st, syncView (wordSeen c fw o.index.toNat))])
      | .park c o1 _ =>
        let q := retryList fw sel os (c, r.2)
        (q.1, o1 :: q.2)
    else
      let q := retryList fw sel os r
      (q.1, o :: q.2)

/-- The words an operation checks and changes. -/
def opWords (o : Waiter) : List Nat :=
  if yopBarrier o.yop then [o.index.toNat, o.index.toNat + 1] else [o.index.toNat]

/-- A word that operations may act on: not broken, its complements right (R289). -/
def wordActs (c : Snc) (ix : Nat) : Bool := !(syncWordOf c ix).broken && wordSound (syncWordOf c ix)

/-- One pass over the entries parked on the pair of words that a word belongs to: BWAITs and plain waits first, then held ARRIVEs. An
entry whose words are not sound is left for their report. -/
def settlePass (fw ix : Nat) (r : Snc × SyncOut) : Snc × SyncOut :=
  let i := ix / 2 * 2
  let here := fun (o : Waiter) => o.index.toNat / 2 == ix / 2 && (opWords o).all (wordActs r.1)
  let anyBarrier := r.1.waiters.any fun o => here o && yopBarrier o.yop
  let c0 := if anyBarrier then pairRelease r.1 i else r.1
  let a := retryList fw (fun o => here o && (o.yop == 7 || !yopBarrier o.yop)) c0.waiters (c0, r.2)
  let b := retryList fw (fun o => here o && (o.yop == 6 || o.yop == 8)) a.2 a.1
  ({ b.1.1 with waiters := b.2 }, b.1.2)

/-- Re-evaluate until nothing more completes; `fuel` bounds the passes by the number of entries. -/
def settle (fw ix : Nat) : (fuel : Nat) → Snc × SyncOut → Snc × SyncOut
  | 0, r => r
  | f + 1, r =>
    let t := settlePass fw ix r
    if t.1.waiters.length < r.1.waiters.length then settle fw ix f t else t

/-! Completions. -/

/-- A completion leaves for its agent; a remote one gets SYNC_RSP (R309, R312, R370). -/
def sncReply (n : PotIx) (s : State) (x : Waiter × Status × BitVec 128) : State :=
  match x.1.agent with
  | .remote d _ id =>
    sendMsg s n d 6 id x.1.tag x.1.infusion ((wordAddr n x.1.index).setWidth 64)
      (bytesOfNat 8 (statusCode x.2.1) ++ bytesOfNat 16 x.2.2.toNat)
  | a => syncLocal s n a x.2.1 x.2.2

def setSnc (s : State) (n : PotIx) (c : Snc) : State := updPot s n fun p => { p with snc := c }
def sncCount (s : State) (n : PotIx) (lo len : Nat) : State :=
  updPot s n fun p => { p with snc := { p.snc with events := satField p.snc.events lo len 1 } }

/-- The pot and index of a word, and the remote node of an operation's agent, as a fault record gives them (R512). -/
def sncFault (s : State) (n : PotIx) (o : Waiter) (ix cause : Nat) (st : Status) : State :=
  sendFault s
    { status := statusCode st, tag := o.tag, infusion := o.infusion, island := potIsland n 4, block := 3, cause := cause,
      addr := n.toNat * 2 ^ 16 + ix, detail := ((agentNode o.agent).map BitVec.toNat).getD 0, detail2 := 0 }

/-- A complement mismatch: BROKEN, a record, and every waiter of the word released POISONED (R289). -/
def breakWord (s : State) (n : PotIx) (o : Waiter) (ix : Nat) : State :=
  let fw := fwWords s n
  let c := setSyncWord (potOf s n).snc ix { syncWordOf (potOf s n).snc ix with broken := true }
  let on := fun (x : Waiter) => x.index.toNat == ix || (yopBarrier x.yop && x.index.toNat == ix / 2 * 2)
  let s1 := setSnc s n { c with waiters := c.waiters.filter fun x => !on x, events := satField c.events 72 8 1 }
  runAll (sncReply n) ((c.waiters.filter on).map fun x => (x, .poisoned, syncView (wordSeen c fw x.index.toNat)))
    (sncFault s1 n o ix 1 .poisoned)

/-! An operation at its SNC. -/

/-- A re-evaluated entry whose word is found unsound has it reported (R289). -/
def sncReport (s : State) (n : PotIx) (o : Waiter) : State :=
  let c := (potOf s n).snc
  let ws := (c.waiters.filter fun x => x.index.toNat / 2 == o.index.toNat / 2).flatMap opWords
  match ws.find? fun ix => !(syncWordOf c ix).broken && !wordSound (syncWordOf c ix) with
  | some ix => breakWord s n o ix
  | none => s

/-- The waiter table entry that an operation takes: which of the free ones is open (R294; log entry 46). -/
def waiterEntry (s : State) (c : Snc) : BitVec 11 × State :=
  let free := (upto 2048).filter fun k => !c.waiters.any fun x => x.entry.toNat == k
  let f := takeFree s
  (BitVec.ofNat 11 (nth free (f.1.toNat % free.length) 0), f.2)

/-- An operation that finds its words sound and allocated (R292 to R295, R306). -/
def sncRun (s : State) (n : PotIx) (o : Waiter) (again : Bool) : State :=
  let fw := fwWords s n
  let c0 := (potOf s n).snc
  match tryOp c0 o with
  | .done c st =>
    let r := settle fw o.index.toNat 2049 (c, [(o, st, syncView (wordSeen c fw o.index.toNat))])
    sncReport (runAll (sncReply n) r.2 (setSnc s n r.1)) n o
  | .park c o1 skew =>
    if c0.waiters.length < 2048 then
      let e := waiterEntry s c
      let c1 := { c with waiters := c.waiters ++ [{ o1 with entry := e.1 }]
                         events := if skew then satField c.events 40 16 1 else c.events }
      let r := settle fw o.index.toNat 2049 (c1, [])
      sncReport (runAll (sncReply n) r.2 (setSnc e.2 n r.1)) n o
    else if again then setSnc s n { c0 with held := o :: c0.held }
    else setSnc s n { c0 with held := c0.held ++ [o], events := satField c0.events 96 16 1 }

/-- An operation on a word with ALLOC 0 (R314). -/
def sncFreed (s : State) (n : PotIx) (o : Waiter) : State :=
  let v := syncView (wordSeen (potOf s n).snc (fwWords s n) o.index.toNat)
  let s1 := sncCount s n 80 16
  if o.yop = 0 then sncReply n s1 (o, .ok, v)
  else if yopWaits o.yop then sncReply n s1 (o, .timeout, v)
  else sncReply n (sncFault s1 n o o.index.toNat 3 .rejected) (o, .rejected, v)

/-- The checks before an operation acts (R289, R296, R314). -/
def sncChecked (s : State) (n : PotIx) (o : Waiter) (again : Bool) : State :=
  let fw := fwWords s n
  let c := (potOf s n).snc
  let ws := opWords o
  let view := syncView (wordSeen c fw o.index.toNat)
  if 8 < o.yop.toNat ∨ (yopBarrier o.yop ∧ o.index.toNat % 2 = 1) then sncReply n s (o, .rejected, view)
  else
    match ws.find? fun ix => !(wordSeen c fw ix).broken && !wordSound (wordSeen c fw ix) with
    | some ix =>
      let s1 := breakWord s n o ix
      sncReply n s1 (o, .poisoned, syncView (wordSeen (potOf s1 n).snc fw o.index.toNat))
    | none =>
      if o.yop ≠ 1 ∧ (ws.any fun ix => (wordSeen c fw ix).broken) = true then sncReply n s (o, .poisoned, view)
      else if ws.any fun ix => !(wordSeen c fw ix).alloc then sncFreed s n o
      else sncRun s n o again

/-- Operations of one agent: of one core whichever its slot, of the host, of one sequencer. Of another module, all of one pot: a message
names no more (R295, R301, R369; DEDUCED, log entry 110). -/
def sameAgent : Agent → Agent → Bool
  | .brewerSlot n c _, .brewerSlot m d _ => n == m && c == d
  | .hubSlot c _, .hubSlot d _ => c == d
  | .hostCmd _, .hostCmd _ => true
  | .remote d p _, .remote e q _ => d == e && p == q
  | a, b => a == b

/-- An operation arrives at an SNC: it is counted, and one of an agent whose held operation names the same word waits behind
that, which is a hold too (R295, R301). -/
def sncArrive (s : State) (n : PotIx) (o : Waiter) : State :=
  let s1 := sncCount s n 0 40
  let c := (potOf s1 n).snc
  if c.held.any fun x => sameAgent x.agent o.agent && (opWords x).any (opWords o).contains then
    setSnc s1 n { c with held := c.held ++ [o], events := satField c.events 96 16 1 }
  else sncChecked s1 n o false

/-! Agents. -/

/-- TAG and INFUSION of an agent's operation. -/
def agentTag (s : State) (a : Agent) : BitVec 16 × BitVec 12 :=
  match a with
  | .sequencer n e => ((seqOf (potOf s n) e).tag, (seqOf (potOf s n) e).infusion)
  | .brewerSlot n c k => (fieldB (tget (potOf s n).snc.slots (c.toNat * 4 + k.toNat) SncSlot.reset).request 48 16, 0)
  | .hubSlot c k => (fieldB (tget s.hubSnc (c.toNat * 4 + k.toNat) SncSlot.reset).request 48 16, 0)
  | .hostCmd id => (((s.hfe.table.find? fun c => c.parts.any fun p => p.key == id).map fun c => fieldB c.header 48 16).getD 0, 0)
  | .remote _ _ _ => (0, 0)

/-- A core's slot whose operation is outstanding takes no other (R298). -/
def slotTaken (s : State) (a : Agent) : Bool :=
  match a with
  | .brewerSlot n c k => (tget (potOf s n).snc.slots (c.toNat * 4 + k.toNat) SncSlot.reset).busy
  | .hubSlot c k => (tget s.hubSnc (c.toNat * 4 + k.toNat) SncSlot.reset).busy
  | _ => false

/-- Change the request slot of a core. -/
def updSlot (s : State) (a : Agent) (f : SncSlot → SncSlot) : State :=
  match a with
  | .brewerSlot n c k =>
    updPot s n fun p => { p with snc := { p.snc with slots := tupd p.snc.slots (c.toNat * 4 + k.toNat) SncSlot.reset f } }
  | .hubSlot c k => { s with hubSnc := tupd s.hubSnc (c.toNat * 4 + k.toNat) SncSlot.reset f }
  | _ => s

/-- A slot's operation is outstanding: DONE goes to 0 (R298). -/
def slotStart (s : State) (a : Agent) : State := updSlot s a fun x => { x with done := false, busy := true }

/-- One operation of an agent at the SNC of a pot (R292, R298, R301). -/
def sncOperation (n : PotIx) (ix : BitVec 16) (a : Agent) (yop : BitVec 4) (cond : BitVec 2) (full : Bool) (x : Word64)
    (s : State) : Result :=
  if !potOn s n then .next s
  else if slotTaken s a then .next (sncCount s n 96 16)
  else
    let t := agentTag s a
    .next (sncArrive (slotStart s a) n ⟨ix, yop, cond, full, x, a, t.1, t.2, 0⟩)

/-- READ: returns VALUE and FULL (R292). -/
def execRead (n : PotIx) (index : BitVec 16) (agent : Agent) (s : State) : Result :=
  sncOperation n index agent 0 0 false 0 s

/-- STORE: VALUE and FULL take the operand and F; BROKEN clears (R292). -/
def execStore (n : PotIx) (index : BitVec 16) (agent : Agent) (operand : Word64) (full : Bool) (s : State) : Result :=
  sncOperation n index agent 1 0 full operand s

/-- FILL: waits for empty, then writes the operand and sets FULL (R292). -/
def execFill (n : PotIx) (index : BitVec 16) (agent : Agent) (operand : Word64) (s : State) : Result :=
  sncOperation n index agent 2 0 false operand s

/-- EMPTY: waits for full, then clears FULL and returns VALUE (R292). -/
def execEmpty (n : PotIx) (index : BitVec 16) (agent : Agent) (s : State) : Result :=
  sncOperation n index agent 3 0 false 0 s

/-- WAIT: parks until COND holds (R292). -/
def execWait (n : PotIx) (index : BitVec 16) (agent : Agent) (cond : BitVec 2) (operand : Word64) (s : State) : Result :=
  sncOperation n index agent 4 cond false operand s

/-- SIGNAL: adds the operand to VALUE and sets FULL (R292). -/
def execSignal (n : PotIx) (index : BitVec 16) (agent : Agent) (operand : Word64) (s : State) : Result :=
  sncOperation n index agent 5 0 false operand s

/-- ARRIVE: a barrier arrival (R305). -/
def execArrive (n : PotIx) (index : BitVec 16) (agent : Agent) (operand : Word64) (s : State) : Result :=
  sncOperation n index agent 6 0 false operand s

/-- BWAIT: a barrier departure (R305). -/
def execBwait (n : PotIx) (index : BitVec 16) (agent : Agent) (operand : Word64) (s : State) : Result :=
  sncOperation n index agent 7 0 false operand s

/-- BARRIER: ARRIVE, then BWAIT, of one round (R292). -/
def execBarrier (n : PotIx) (index : BitVec 16) (agent : Agent) (operand : Word64) (s : State) : Result :=
  sncOperation n index agent 8 0 false operand s

/-- SNC_INPUT_HOLD_RELEASE: the oldest operation held at the input enters again; it stays held while it would have to park in a
full table (R295). -/
def execSncInputHoldRelease (n : PotIx) (s : State) : Result :=
  let c := (potOf s n).snc
  match c.held with
  | [] => .next s
  | o :: os => .next (sncChecked (setSnc s n { c with held := os }) n o true)

/-- An operation whose wait WAIT_US limits: every one but a sequencer's. A message names no kind of agent; one that carries an infusion
comes from a sequencer, since cores and the host send infusion 0 (R300, R369; DEDUCED, log entry 110). -/
def waitLimited (w : Waiter) : Bool :=
  match w.agent with
  | .sequencer _ _ => false
  | .remote _ _ _ => w.infusion == 0
  | _ => true

/-- SNC_WAIT_TIMEOUT: an operation of the agent that has waited WAIT_US leaves the waiter table or the input hold and completes
TIMEOUT (R300). -/
def execSncWaitTimeout (n : PotIx) (agent : Agent) (s : State) : Result :=
  let c := (potOf s n).snc
  let out := fun (w : Waiter) => w.agent == agent && waitLimited w
  let gone := (c.waiters ++ c.held).filter out
  let keep := fun (w : Waiter) => !out w
  let fw := fwWords s n
  whenDo (fieldN (sncCtl s n) 32 32 != 0 && !gone.isEmpty) s
    (runAll (sncReply n) (gone.map fun w => (w, .timeout, syncView (wordSeen c fw w.index.toNat)))
      (setSnc s n { c with waiters := c.waiters.filter keep, held := c.held.filter keep }))

/-! Request slots (R298). -/

/-- The operation in a 32 B request. -/
def requestOp (s : State) (a : Agent) (r : ColWord) : Waiter :=
  let t := agentTag s a
  ⟨fieldB r 16 16, fieldB r 0 4, fieldB r 4 2, bitAt r 6, fieldB r 64 64, a, t.1, t.2, 0⟩

/-- Store a request and whether its completion interrupts its core. -/
def slotRequest (s : State) (a : Agent) (r : ColWord) : State := updSlot s a fun x => { x with request := r, irq := bitAt r 7 }

/-- The pot whose streams an agent's remote operations use; the hub's leave as pot 0's. -/
def agentPot : Agent → PotIx
  | .sequencer n _ => n
  | .brewerSlot n _ _ => n
  | .remote _ n _ => n
  | _ => 0

/-- The write of byte 31 of a request slot issues its request (R298). A local word of a pot that is not in service completes
ABSENT_UNIT. -/
def slotIssue (s : State) (a : Agent) (r : ColWord) : State :=
  if slotTaken s a then sncCount s (agentPot a) 96 16
  else
    let s1 := slotStart (slotRequest s a r) a
    let o := requestOp s1 a r
    let n : PotIx := fieldB r 8 5
    let d : BitVec 16 := fieldB r 32 16
    if ownNode s1 d then
      if potOn s1 n then sncArrive s1 n o else syncLocal s1 n a .absentUnit 0
    else if 8 < o.yop.toNat ∨ (yopBarrier o.yop ∧ o.index.toNat % 2 = 1) then syncLocal s1 n a .rejected 0
    else issueRemote s1 (agentPot a) d ⟨a, wordAddr n o.index, o.yop, o.full, o.operand, o.tag, o.infusion⟩ o.cond.toNat

end Sys2Proof.Machine
end

