-- ==== Sys2Proof/Machine/Host.lean ====
section
/-!
DEFINITION. The host front end's memory side: the links (R318 to R321), DPA translation (R31 to R34), CXL.mem reads and writes
of every range (R322 to R325, R339), aperture lines and their assembly (R326 to R330), records and MSI-X (R340 to R342).
-/

namespace Sys2Proof.Machine

/-! DPA translation (R31 to R34). -/

def ilGran (s : State) : Nat := fieldN s.hfe.interleave 0 5
def ilReserve (s : State) : Nat := fieldN s.hfe.interleave 8 6
/-- Bytes of a pot in the data range. -/
def potBytes (s : State) : Nat := (64 - ilReserve s) * 2 ^ 30
/-- The end of the data range. -/
def dataEnd (s : State) : Nat := (enabledPots s).length * potBytes s
def apertureBase : Nat := 0x020000000000
def windowBase : Nat := 0x020040000000
def windowEnd : Nat := 0x020080000000

/-- The module address of a data DPA (R34). -/
def dpaToModule (s : State) (dpa : Nat) : BitVec 41 :=
  let slots := enabledPots s
  let g := ilGran s
  let slot := if g = 0 then dpa / potBytes s else dpa / 2 ^ g % slots.length
  let low := if g = 0 then dpa % potBytes s else dpa / 2 ^ g / slots.length * 2 ^ g + dpa % 2 ^ g
  BitVec.ofNat 41 ((nth slots slot 0).toNat * 2 ^ 36 + low)

/-- The DPA of a module address in the data range (R332). -/
def moduleToDpa (s : State) (addr : Nat) : Nat :=
  let slots := enabledPots s
  let sl := (slots.filter fun p => decide (p.toNat < addr / 2 ^ 36)).length
  let low := addr % 2 ^ 36
  let g := ilGran s
  if g = 0 then sl * potBytes s + low else (low / 2 ^ g * slots.length + sl) * 2 ^ g + low % 2 ^ g

/-- The hub answers on a head: its link is up (R319). -/
def headServes (s : State) (head : BitVec 1) : Bool := hubOn s && (headOf s head).up

/-! Data range (R28, R29, R325, R388). -/

/-- A host read is class HOST at the RT port; a host write enters at the ENG port (R192, R325, R386). -/
def hostRead : Who := ⟨.host, .rt, 0, 0⟩
def hostWrite : Who := ⟨.host, .eng, 0, 0⟩

/-- The pot whose resolution logic serves a host access: the home pot's router. -/
def homePot (addr : BitVec 41) : PotIx := fieldB addr 36 5

/-- A bad outcome of a host read is reported, once per word per patrol pass (R388). -/
def noteHostRead (s : State) (dpa : BitVec 42) (word : Nat) (r : AddrRead) : State :=
  let e := (hubEntry s (word / 2 ^ 30)).val
  let key := (schedOf (potOf s (entPot e)) (entGroup e).toNat).passes * 2 ^ 41 + word
  if (r.out == .uncorrectable || r.out == .rowBad) && !r.lost && !s.hostNoted.contains key then
    pushCxlEvent { s with hostNoted := key :: s.hostNoted, poisonList := (s.poisonList ++ [dpa]).drop (s.poisonList.length - 255) }
      (.generalMedia dpa)
  else s

/-- Serve a read of 64 B of the data range. -/
def dataRead (s : State) (head : BitVec 1) (dpa : BitVec 42) : State :=
  let a := dpaToModule s dpa.toNat
  let r := readAddrN (homePot a) hostRead 2 s a
  let s1 := runAll (fun t x => noteHostRead t dpa (a.toNat + 32 * x.2) x.1) r.2.zipIdx r.1
  { s1 with out := { s1.out with
      cxl := some (head, dpa, lineOfBytes ((r.2.map AddrRead.bytes).flatten), r.2.any AddrRead.poison) } }

/-- Write the bytes of a line that `mask` selects: whole words directly, others as narrow writes (R202, R308, R325). -/
def dataWrite (s : State) (dpa : BitVec 42) (data : Line) (mask : Word64) (poison : Bool) : State :=
  let a := dpaToModule s dpa.toNat
  let half := fun (t : State) (k : Nat) =>
    let w : BitVec 41 := a + BitVec.ofNat 41 (32 * k)
    let bs := ((bytesOfLine data).drop (32 * k)).take 32
    let m : BitVec 32 := fieldB mask (32 * k) 32
    if m = BitVec.allOnes 32 then writeAddr t (homePot a) w hostWrite bs poison
    else if m = 0 then t
    else narrowAddr t (homePot a) w bs m poison
  runAll half [0, 1] s

/-- HFE_INTERLEAVE: while its parity fault lasts the data range reads as poison, drops writes and counts HOLE (R493). -/
def ilKey : Nat := 0x1018
def hfeCtlKey : Nat := 0x1000

/-- The pot map entry of an address is being changed (R29). -/
def entryChanging (s : State) (addr : BitVec 41) : Bool := homeChanging s (homeIx addr)

def bumpHfe (s : State) (lo by_ : Nat) : State := { s with hfe := { s.hfe with errCount := satField s.hfe.errCount lo 16 by_ } }

/-! The completion and sync window (R339). -/

/-- Entry of the slot state array. -/
def slotStateOf (h : Hfe) (i : Nat) : Nat :=
  let x := slotOf h i
  (match x.state with
    | .idle => 0
    | .assembling => 1
    | .waiting => 2) + x.seq.toNat * 2 ^ 16

/-- The sync view of a word as a READ that does not wait gives it: counted, and a word whose complements disagree is first reported
broken; a pot that is not present, and plain memory, give zeros (R289, R299, R314, R339, R343). -/
def viewRead (s : State) (n : PotIx) (ix : Nat) : State × BitVec 128 :=
  if !potPresent s n || s.hfe.pimOff then (s, 0)
  else
    let s1 := sncCount s n 0 40
    let w := wordSeen (potOf s n).snc (fwWords s n) ix
    if !w.broken && !wordSound w then
      let t := breakWord s1 n ⟨BitVec.ofNat 16 ix, 0, 0, false, 0, .hostCmd 0, 0, 0, 0⟩ ix
      (t, syncView (wordSeen (potOf t n).snc (fwWords t n) ix))
    else (if !w.broken && !w.alloc then sncCount s1 n 80 16 else s1, syncView w)

/-- Four views of a line of the window. -/
def viewLine (n : PotIx) (ix : Nat) : (k : Nat) → State → State × List Byte
  | 0, s => (s, [])
  | k + 1, s =>
    let r := viewRead s n ix
    let q := viewLine n (ix + 1) k r.1
    (q.1, bytesOfNat 16 r.2.toNat ++ q.2)

/-- A line of the window. -/
def windowRead (s : State) (off : Nat) : State × Line :=
  if off < 0x400000 then (s, tget s.hfe.records (off / 64) 0)
  else if off < 0x408000 then
    (s, lineOfBytes (((upto 8).map fun i => bytesOfNat 8 (slotStateOf s.hfe ((off - 0x400000) / 64 * 8 + i))).flatten))
  else if 0x1000000 ≤ off ∧ off < 0x3000000 then
    let o := off - 0x1000000
    let r := viewLine (BitVec.ofNat 5 (o / 2 ^ 20)) (o % 2 ^ 20 / 64 * 4) 4 s
    (r.1, lineOfBytes r.2)
  else (s, 0)

def cxlAnswer (s : State) (head : BitVec 1) (dpa : BitVec 42) (l : Line) (poison : Bool) : State :=
  { s with out := { s.out with cxl := some (head, dpa, l, poison) } }

/-! Accesses that wait (R29, R202, R205). -/

/-- An access joins those that wait. -/
def waitAccess (s : State) (w : MapWait) : State := { s with map := { s.map with waiting := s.map.waiting ++ [w] } }

/-- What an access waited for is over. -/
def waitServed (s : State) : MapWait → Bool
  | .read _ d => addrServed s (homePot (dpaToModule s d.toNat)) (dpaToModule s d.toNat)
  | .write _ d _ _ _ => addrServed s (homePot (dpaToModule s d.toNat)) (dpaToModule s d.toNat)
  | .narrow n g _ _ _ _ _ _ => chanServes s n g

/-- A narrow write at its scheduler; a full mask makes it a whole word (R202). -/
def narrowServe (s : State) (pl : Place) (data : ColWord) (mask : BitVec 32) (poison : Bool) : State :=
  if mask = BitVec.allOnes 32 then writeWordAt s pl ⟨.host, .eng, 0, 0⟩ (bytesOfWord data) poison
  else narrowWriteAt s pl (bytesOfWord data) mask poison

/-- Serve an access that waited. -/
def serveWait (s : State) : MapWait → State
  | .read h d => dataRead s h d
  | .write _ d data mask poison => dataWrite s d data mask poison
  | .narrow n g b r c data mask poison => narrowServe s ⟨n, g, b, r, c⟩ data mask poison

/-- Serve, in their order, the waiting accesses that need wait no longer. -/
def serveWaiters (s : State) : State :=
  runAll serveWait (s.map.waiting.filter (waitServed s))
    { s with map := { s.map with waiting := s.map.waiting.filter fun w => !waitServed s w } }

/-- CXL_MEM_READ of a line: data, hole (poison, its data free), aperture (zeros) or window (R28, R32, R34, R323, R339). A read whose
entry is being changed, or whose channel takes no access now, waits (R29, R205). A DPA past the end of R31's table, at 0x0200_8000_0000 or
above, is treated as the hole is (DESIGN CHOICE, log entry 96). -/
def execCxlMemRead (head : BitVec 1) (dpa : BitVec 42) (s : State) : Result :=
  let d := dpa.toNat / 64 * 64
  if !headServes s head then .next s
  else if d < dataEnd s ∧ !regBad s ilKey then
    let a := dpaToModule s d
    if addrServed s (homePot a) a then .next (dataRead s head (BitVec.ofNat 42 d))
    else .next (waitAccess s (.read head (BitVec.ofNat 42 d)))
  else if d < apertureBase ∨ windowEnd ≤ d then
    let f := takeFreeBytes 64 (bumpHfe s 0 1)
    .next (cxlAnswer f.2 head (BitVec.ofNat 42 d) (lineOfBytes f.1) true)
  else if d < windowBase then .next (cxlAnswer s head (BitVec.ofNat 42 d) 0 false)
  else
    let r := windowRead s (d - windowBase)
    .next (cxlAnswer r.1 head (BitVec.ofNat 42 d) r.2 false)

/-- SYNC_VIEW_READ: the line of the window that holds the view of a word (R299, R339). -/
def execSyncViewRead (head : BitVec 1) (pot : PotIx) (index : BitVec 16) (s : State) : Result :=
  let off := 0x1000000 + pot.toNat * 2 ^ 20 + index.toNat * 16 / 64 * 64
  let r := windowRead s off
  whenDo (headServes s head) s (cxlAnswer r.1 head (BitVec.ofNat 42 (windowBase + off)) r.2 false)

/-! Aperture lines (R326 to R330). -/

def strayLines (s : State) (k : Nat) : State := bumpHfe s 48 k
def duplicateLine (s : State) : State := bumpHfe s 64 1

/-- The line 0 that a slot holds. -/
def heldHeader (x : Slot) : Option Line := (tfind x.held 0).map LineBuf.data
def headerLines (h : Line) : Nat := fieldN h 40 4 + 1

/-- Every line of the sequence is held (R330). -/
def slotAssembled (x : Slot) : Bool :=
  match heldHeader x with
  | some h => (upto (headerLines h)).all fun i => (tfind x.held i).isSome
  | none => false

/-- The lines kept when a line is taken: those the header declares (R329). -/
def keptLines (x : Slot) : Slot :=
  match heldHeader x with
  | some h => { x with held := x.held.filter fun e => decide (e.1 < headerLines h) }
  | none => x

/-- A line is held; a sequence that it completes waits for the dispatch table (R329, R330). -/
def holdLine (s : State) (slot : Nat) (x : Slot) (line : Nat) (b : LineBuf) : State :=
  let x1 := { x with held := tset x.held line b }
  let x2 := keptLines x1
  let s1 := strayLines s (x1.held.length - x2.held.length)
  if slotAssembled x2 then
    let h := setSlot s1.hfe slot { x2 with state := .waiting }
    { s1 with hfe := { h with waitq := h.waitq ++ [slot] } }
  else { s1 with hfe := setSlot s1.hfe slot x2 }

/-- A line has arrived (R327, R329). -/
def lineArrives (s : State) (slot line : Nat) (b : LineBuf) : State :=
  let x := slotOf s.hfe slot
  let q : BitVec 16 := fieldB b.data 0 16
  if fieldN b.data 16 4 ≠ line ∨ fieldN b.data 20 12 ≠ 0 then strayLines s 1
  else
    match x.state with
    | .idle =>
      if q = x.seq then duplicateLine s
      else holdLine s slot { x with state := .assembling, seq := q, held := [] } line b
    | .assembling =>
      if q ≠ x.seq then strayLines s 1
      else if (heldHeader x).any fun h => decide (headerLines h ≤ line) then strayLines s 1
      else if (tfind x.held line).isSome then duplicateLine s
      else holdLine s slot x line b
    | .waiting => strayLines s 1

/-- The line buffer takes the bytes of one write; a line is consumed when all 64 have been written (R326). -/
def apertureWrite (s : State) (head : BitVec 1) (off : Nat) (data : Line) (mask : Word64) : State :=
  if off / 2 ^ 22 ≠ 0 then bumpHfe s 16 1
  else
    let slot := off / 1024
    let line := off / 64 % 16
    let x := slotOf s.hfe slot
    let b := tget x.bufs line ⟨0, 0, head⟩
    let b1 : LineBuf := ⟨lineOfBytes (mergeBytes (bytesOfLine b.data) (bytesOfLine data) mask.toNat), b.mask ||| mask, head⟩
    if b1.mask = BitVec.allOnes 64 then
      lineArrives { s with hfe := setSlot s.hfe slot { x with bufs := tdel x.bufs line } } slot line b1
    else { s with hfe := setSlot s.hfe slot { x with bufs := tset x.bufs line b1 } }

/-- APERTURE_LINE_WRITE. -/
def execApertureLineWrite (head : BitVec 1) (offset : BitVec 30) (data : Line) (mask : Word64) (s : State) : Result :=
  whenDo (headServes s head) s (apertureWrite s head (offset.toNat / 64 * 64) data mask)

/-- CXL_MEM_WRITE: data range, hole and window (dropped and counted), aperture (R28, R29, R32, R205, R323, R326); past the end of
R31's table as the hole (log entry 96). -/
def execCxlMemWrite (head : BitVec 1) (dpa : BitVec 42) (data : Line) (mask : Word64) (poison : Bool) (s : State) : Result :=
  let d := dpa.toNat / 64 * 64
  if !headServes s head then .next s
  else if d < dataEnd s ∧ !regBad s ilKey then
    let a := dpaToModule s d
    if addrServed s (homePot a) a then .next (dataWrite s (BitVec.ofNat 42 d) data mask poison)
    else .next (waitAccess s (.write head (BitVec.ofNat 42 d) data mask poison))
  else if d < apertureBase ∨ windowEnd ≤ d then .next (bumpHfe s 0 1)
  else if d < windowBase then .next (apertureWrite s head (d - apertureBase) data mask)
  else .next (bumpHfe s 32 1)

/-! Records (R340). -/

/-- What a completion record says beside the sequence's own fields. -/
structure RecordEnd where
  status : Nat
  flags : Nat
  bytes : Nat
  expected : Nat
  answered : Nat
  detail : Nat
  infusion : Nat
  value : List Byte
  deriving DecidableEq, Repr

def RecordEnd.zero : RecordEnd := ⟨0, 0, 0, 0, 0, 0, 0, []⟩

def hdrOpcode (h : Line) : Nat := fieldN h 32 8
def hdrNlm1 (h : Line) : Nat := fieldN h 40 4
def hdrOrd (h : Line) : Bool := bitAt h 44
def hdrIrq (h : Line) : Bool := bitAt h 45
def hdrTag (h : Line) : BitVec 16 := fieldB h 48 16
def hdrPath (h : Line) : Word64 := fieldB h 64 64
def hdrVec (h : Line) : BitVec 6 := fieldB h 128 6
def hdrInf (h : Line) : BitVec 12 := fieldB h 144 12

/-- The record's 64 B: STATE 1 PENDING, 2 DONE. -/
def recordLine (state : Nat) (h : Line) (slot : BitVec 12) (seq : BitVec 16) (e : RecordEnd) : Line :=
  lineOfBytes (bytesOfNat 1 state ++ bytesOfNat 1 e.status ++ bytesOfNat 2 (hdrTag h).toNat ++ bytesOfNat 2 seq.toNat ++
    bytesOfNat 2 slot.toNat ++ bytesOfNat 1 e.flags ++ bytesOfNat 1 (hdrOpcode h) ++ bytesOfNat 2 e.bytes ++
    bytesOfNat 4 e.expected ++ bytesOfNat 4 e.answered ++ bytesOfNat 4 e.detail ++ bytesOfNat 8 e.infusion ++ fitBytes 32 e.value)

def writeRecord (s : State) (h : Line) (l : Line) : State :=
  { s with hfe := { s.hfe with records := tset s.hfe.records (hdrTag h).toNat l } }

/-- A finished command's record, and its message when it asked for one (R340, R342). -/
def recordDone (s : State) (head : BitVec 1) (h : Line) (slot : BitVec 12) (seq : BitVec 16) (e : RecordEnd) : State :=
  let s1 := writeRecord s h (recordLine 2 h slot seq e)
  if hdrIrq h && hdrVec h != 0 then raiseMsi s1 head (hdrVec h) else s1

/-- A slot back in IDLE with LAST_SEQ, its line buffers free (R330). -/
def freeSlot (h : Hfe) (i : Nat) : Hfe := setSlot h i { slotOf h i with state := .idle, bufs := [], held := [] }

/-- ASSEMBLY_TIMEOUT: the sequence of a slot is dropped (R330, R344). A dropped sequence raises no vector. -/
def execAssemblyTimeout (slot : BitVec 12) (s : State) : Result :=
  let x := slotOf s.hfe slot.toNat
  let heldBits := (x.held.map fun e => 2 ^ e.1).sum
  let log : Word64 := BitVec.ofNat 64 (slot.toNat + x.seq.toNat * 2 ^ 16 + heldBits * 2 ^ 32 + 2 ^ 48)
  let s1 := bumpHfe { s with hfe := { freeSlot s.hfe slot.toNat with dropLog := log } } 80 1
  let s2 :=
    match heldHeader x with
    | none => bumpHfe s1 96 1
    | some h => writeRecord s1 h (recordLine 2 h slot x.seq { RecordEnd.zero with status := statusCode .droppedIncomplete })
  whenDo (x.state == .assembling) s s2

/-- DISPATCH_ACCEPT: the sequence that has waited longest enters the dispatch table, its record PENDING; in plain memory it
completes PIM_OFFLINE (R330, R337, R340, R343). -/
def execDispatchAccept (slot : BitVec 12) (s : State) : Result :=
  let x := slotOf s.hfe slot.toNat
  match heldHeader x, s.hfe.waitq with
  | some h, first :: rest =>
    if first ≠ slot.toNat ∨ x.state ≠ .waiting then .next s
    else
      let head := (tget x.held 0 ⟨0, 0, 0⟩).head
      let s1 := { s with hfe := { freeSlot s.hfe slot.toNat with waitq := rest } }
      if s.hfe.pimOff then
        .next (recordDone s1 head h slot x.seq
          { RecordEnd.zero with status := statusCode .pimOffline, infusion := (hdrInf h).toNat })
      else
        let c : Cmd :=
          { id := s.hfe.nextId, slot := slot, seq := x.seq, head := head, header := h,
            payload := (between 1 (headerLines h)).map fun i => (tget x.held i ⟨0, 0, 0⟩).data,
            state := .queued, parts := [], status := none, detail := 0, infusion := hdrInf h, remoteOf := none, level := 0 }
        let s2 := writeRecord s1 h (recordLine 1 h slot x.seq { RecordEnd.zero with infusion := (hdrInf h).toNat })
        whenDo (decide ((hostCmds s.hfe).length < 8192)) s
          { s2 with hfe := { s2.hfe with table := s2.hfe.table ++ [c], nextId := s.hfe.nextId + 1 } }
  | _, _ => .next s

/-! Links and vectors (R318 to R321, R342). -/

/-- Pending vectors that nothing masks any more are sent. -/
def sendPending (s : State) (head : BitVec 1) : State :=
  let h := headOf s head
  let out := (upto 64).filter fun v => (msixOf h v).pend && !(msixOf h v).masked
  let h1 := { h with msix := out.foldl (fun m v => tset m v { msixOf h v with pend := false }) h.msix }
  let s1 := setHead s head h1
  { s1 with out := { s1.out with msi := s1.out.msi ++ out.map fun v => (head, BitVec.ofNat 6 v) } }

/-- HEAD_LINK_TRAIN: the link comes up at a protocol, rate and width that R318 pairs: CXL 3.1 at 64 GT/s in 256 B flits, CXL 2.0
and 1.1 at 16 or 32 GT/s in 68 B flits. -/
def execHeadLinkTrain (head : BitVec 1) (proto rate width : BitVec 2) (s : State) : Result :=
  let fits := (proto == 3 && rate == 2) || ((proto == 1 || proto == 2) && decide (rate.toNat ≤ 1))
  let s1 := setHead s head { headOf s head with
    up := true, proto := proto, rate := rate, width := width, flit256 := proto == 3, everTrained := true }
  whenDo (hubOn s && s.power.step == .running && fits && width != 3 && !(headOf s head).up && !bitAt s.pins.perst head.toNat) s (sendPending s1 head)

/-- One head's link goes down. -/
def linkDown (s : State) (head : BitVec 1) : State :=
  let h := headOf s head
  if h.up then
    setHead s head { h with up := false, proto := 0, rate := 0, width := 0, flit256 := false, downs := satAdd h.downs 1 }
  else s

/-- HEAD_LINK_DOWN: the other head goes on; lines in flight on the lost port never arrive, and the timer of R330 drops their
sequences (R321). -/
def execHeadLinkDown (head : BitVec 1) (s : State) : Result := .next (linkDown s head)

/-- A decoder of either head is committed: HFE_INTERLEAVE is locked (R33, R320). -/
def interleaveLocked (s : State) : Bool := (headOf s 0).decoders != 0 || (headOf s 1).decoders != 0

/-- HDM_DECODER_COMMIT: bit k of DECODERS shows decoder k of the head (R320, R344). -/
def execHdmDecoderCommit (head : BitVec 1) (decoder : BitVec 2) (commit : Bool) (s : State) : Result :=
  let h := headOf s head
  whenDo (headServes s head) s (setHead s head { h with decoders := putBit h.decoders decoder.toNat commit })

/-- MSIX_UNMASK: a vector is unmasked; a pending one is sent once (R342). -/
def execMsixUnmask (head : BitVec 1) (vec : BitVec 6) (s : State) : Result :=
  let h := headOf s head
  let s1 := setHead s head { h with msix := tset h.msix vec.toNat { msixOf h vec.toNat with masked := false } }
  whenDo (hubOn s) s (if h.up then sendPending s1 head else s1)

end Sys2Proof.Machine
end

