-- ==== Sys2Proof/Machine/LeafUnit.lean ====
section
/-!
DEFINITION. The leaf operations (R147 to R158, R163 to R165, R169, R174, R175): each command issues one repeat of the
microword an LU stands at, and LU_COLUMN_ACCESS executes the oldest pending access of its column queue.
-/

namespace Sys2Proof.Machine

/-- What the issue of a repeat comes to: held by the interlock, held while the row that it opened returns its header, a fault with its
address, or issued; `obey` says whether the word then obeys SEQ (R154). -/
inductive LuIssue where
  | wait
  | hold (s : State)
  | fault (cause addr : Nat)
  | go (s : State) (obey : Bool)
  deriving DecidableEq, Repr

/-! Checks at the fetch (R154, R161). -/

def uopKnown (u : Nat) : Bool := decide (u ≤ 0x0A ∨ (0x10 ≤ u ∧ u ≤ 0x16) ∨ (0x20 ≤ u ∧ u ≤ 0x27))
def uopColumn (u : Nat) : Bool := decide (1 ≤ u ∧ u ≤ 0x0A)
/-- Ops with a block-sparse mode (R151). -/
def uopBs (u : Nat) : Bool := decide ((1 ≤ u ∧ u ≤ 2) ∨ (4 ≤ u ∧ u ≤ 8))
/-- Ops that round a latch result to FMT. -/
def uopRounds (u : Nat) : Bool := u == 6 || u == 7 || u == 0x13 || u == 0x14

/-- A microword that faults BAD_UWORD whatever the LU holds (R91, R97, R141, R151, R152, R158; log entry 19). -/
def uwordBad (u : Word64) : Bool :=
  let o := uUop u
  let f := uFmt u
  !uopKnown o || fieldN u 57 7 != 0 || decide (14 ≤ f) || decide (2 ≤ uRnd u) ||
    (uRnd u == 1 && uopRounds o && !stochasticFmt f) || (uEmit u && o != 0x27) || (uopColumn o && f == 13) ||
    (isMx f && (o == 6 || o == 7 || o == 0x13 || o == 0x14 || o == 0x15 || o == 3 || o == 9 || o == 10)) ||
    (isMx f && uopBs o && uBs u) || (o == 8 && decide (6 ≤ fieldN u 51 3))

/-- The addresses a command may fetch from (R126, R154). -/
def fetchRange (s : State) (l : Lu) : Bool :=
  let a := l.upc.toNat
  if l.infusion = 0 then decide (a < 512)
  else
    let x := infOf s l.infusion
    decide (x.leafBase.toNat ≤ a ∧ a < x.leafBase.toNat + x.leafLen.toNat)

/-- Repeats of a word: CNT + 1; WRQ with COLPTR writes every operand word (R148, R176). -/
def luRepeats (u : Word64) (raw : BitVec 256) : Nat :=
  if uUop u = 3 ∧ uColptr u then lcOpndLen raw * 2 else uCnt u + 1

/-- Where the word's SEQ leads after its last repeat (R154). -/
def luAdvance (l : Lu) (u : Word64) (obey : Bool) : Lu :=
  let next : BitVec 10 := l.upc + 1
  let jump : BitVec 10 := BitVec.ofNat 10 (uNext u)
  if !obey then { l with upc := next }
  else
    match uSeq u with
    | 0 => { l with upc := next }
    | 1 => { l with upc := jump }
    | 2 =>
      if l.mlc = 0 then { l with upc := next }
      else { l with mlc := l.mlc - 1, upc := if l.mlc - 1 = 0 then next else jump }
    | _ => { l with done := true }

/-- After a repeat has issued: the next repeat, or past the word, with PRE closing the logical row; the bank closes once the accesses
before it have finished (R148, R149, R154). -/
def luStep (s : State) (n : PotIx) (i : Nat) (u : Word64) (raw : BitVec 256) (obey : Bool) : State :=
  let p := potOf s n
  let l := luOf p i
  if l.rep + 1 < luRepeats u raw then setPot s n (setLu p i { l with rep := l.rep + 1 })
  else
    let l1 := luAdvance
      { l with rep := 0, openRow := if uPre u then none else l.openRow, closing := l.closing || (uPre u && l.openRow.isSome) } u obey
    luFinish (setPot s n (setLu p i l1)) n i

/-- Issue one repeat of the microword at UPC when it is the named operation (R147). Another operation there, an idle LU or an
LU held by the interlock leaves everything as it is; a fetch or encoding fault stops the command (R154, R161). -/
def luOp (n : PotIx) (i : LuIx) (code : Nat) (eff : Word64 → BitVec 256 → State → LuIssue) (s : State) : Result :=
  let k := i.toNat
  checked (decide (k < Config.lusPerPot)) s <|
    let l := luOf (potOf s n) k
    match l.cmd with
    | none => .next s
    | some c =>
      if !potOn s n || l.done || !luServed (potOf s n) k || (decide (l.rep = 0) && infFailing s l.infusion) then .next s
      else if !fetchRange s l then .next (luFault s n k 2 0)
      else if tget (luCode (potOf s n) k).2 l.upc.toNat false then .next (luFault s n k 5 0)
      else
        let u := tget (luCode (potOf s n) k).1 l.upc.toNat 0
        if uwordBad u then .next (luFault s n k 1 0)
        else if uUop u ≠ code then .next s
        else if luRepeats u c.raw = 0 then .next (luStep s n k u c.raw true)
        else
          match eff u c.raw s with
          | .wait => .next s
          | .hold t => .next t
          | .fault cause addr => .next (luFault s n k cause addr)
          | .go t obey => .next (luStep t n k u c.raw obey)

/-! The interlock: what pending accesses will still write (R147). -/

def accWrites (a : ColAcc) (set : Bool) : Bool := a.kind == .data && (uUop a.uword == 4 || uUop a.uword == 5) && uAcc a.uword == set
def accPending (l : Lu) (set : Bool) : Bool := l.colq.any (accWrites · set)
def latchWritten (a : ColAcc) (k : Nat) : Bool :=
  a.kind == .data && (uUop a.uword == 1 || uUop a.uword == 6 || uUop a.uword == 7) && (uLd a.uword + a.rep) % 4 == k % 4
def latchPending (l : Lu) (k : Nat) : Bool := l.colq.any (latchWritten · k)
def cntPending (l : Lu) : Bool := l.colq.any fun a => uUop a.uword == 8
def apPending (l : Lu) : Bool := l.colq.any fun a => uUop a.uword == 9
/-- A pending access will still draw from the LFSR. -/
def lfsrPending (l : Lu) : Bool := l.colq.any fun a => uopRounds (uUop a.uword) && uRnd a.uword == 1

/-! Column ops at issue (R148 to R150, R155, R175). -/

/-- The mode that a set has once the pending accesses have run. -/
def setMode (l : Lu) (set : Bool) : Option Bool :=
  match l.colq.find? (accWrites · set) with
  | some a => some (if (luAccOf l set).touched then (luAccOf l set).intMode else fmtIsInt (uFmt a.uword))
  | none => if (luAccOf l set).touched then some (luAccOf l set).intMode else none

/-- AP after an access (R173, R175); `data` marks a data write. -/
def apNext (ap : Ap) (first last : BitVec 15) (data : Bool) : Ap :=
  let ap1 := if data && ap.segment then { ap with appended := ap.appended + 1 } else ap
  if ap.col ≠ 63 then { ap1 with col := ap.col + 1 }
  else if ap.segment ∧ ap.row.toNat = last.toNat then
    { ap1 with row := BitVec.ofNat 16 first.toNat, col := 1, wraps := ap.wraps + 1 }
  else { ap1 with row := ap.row + 1, col := 0 }

/-- The segment header that STAP writes (R174). -/
def segHeader (ap : Ap) (first : BitVec 15) : ColWord :=
  BitVec.ofNat 256 ((ap.row.toNat + 65536 - first.toNat) % 32768 + ap.col.toNat * 2 ^ 15 + ap.appended.toNat * 2 ^ 32 +
    ap.wraps.toNat * 2 ^ 64)

/-- The read that a row opening owes before a word's first access, and has neither made nor queued: the row's scale words for MX, its
header for bs = 1 (R155). -/
def rowOwes (l : Lu) (mx bs : Bool) (row : Nat) : Option ColKind :=
  let queued := fun (k : ColKind) => l.colq.any fun a => a.kind == k && a.row.toNat == row
  if mx && !(l.scales.any fun x => x.1.toNat == row) && !queued .scales then some .scales
  else if bs && !(l.occ.any fun x => x.1.toNat == row) && !queued .header then some .header
  else none

/-- The row's header has not returned yet, so that a bs = 1 repeat does not know OCC (R155). -/
def headerMissing (l : Lu) (bs : Bool) (row : Nat) : Bool := bs && !(l.occ.any fun x => x.1.toNat == row)

/-- A bs = 1 access to an absent block (R141, R155). -/
def blockAbsent (l : Lu) (word : Nat) : Bool :=
  match l.occ with
  | some o => decide (4 ≤ word) && !bitAt o.2.1 ((word - 4) / 4)
  | none => false

/-- The sources a column op takes at issue: the word it will write, S1 and S0. -/
def colSource (l : Lu) (u : Word64) (raw : BitVec 256) (o : OpndSlot) : Latch :=
  if uUop u = 2 then latchOf l (uLa u + l.rep)
  else if uUop u = 3 then (if uColptr u then opndQ o 0 l.rep else opndQ o (uHalf u) (uOpw u + l.rep))
  else if uUop u = 10 then ⟨segHeader l.ap (lcRowFirst raw), false⟩
  else Latch.reset

/-- Pending accesses of column ops (R147). -/
def colPending (l : Lu) : Nat := (l.colq.filter fun a => a.kind == .data).length

/-- Issue a column op's repeat: the interlock, the range (R150), the row (R149), the row's extra words (R155), then an entry in
the column queue with its sources, unless the block is absent; AP advances with an access that is made (R175). ROWR is held to
ROW_FIRST to ROW_LAST for accesses that use it, not for those through AP (DESIGN CHOICE, log entry 100). -/
def luColIssue (n : PotIx) (i : Nat) (u : Word64) (raw : BitVec 256) (s : State) : LuIssue :=
  let p := potOf s n
  let l := luOf p i
  let o := uUop u
  let mx := luFmtOf (uFmt u) o
  let bs := uopBs o && uBs u
  let row := if uColptr u then l.ap.row.toNat else l.rowr.toNat
  let unit := if uColptr u then l.ap.col.toNat else l.cbase.toNat + uCol u + l.rep
  let needAp := uColptr u || o == 10
  if 4 ≤ colPending l ∨ (needAp ∧ apPending l) ∨ (o = 2 ∧ latchPending l (uLa u + l.rep)) then .wait
  else if (o = 4 ∨ o = 5) ∧ (setMode l (uAcc u)).any (· != fmtIsInt (uFmt u)) then .fault 1 0
  else if uColptr u ∧ 32768 ≤ row then .fault 2 0
  else if !uColptr u ∧ unitsPerRow mx (uFmt u) ≤ unit then .fault 2 (luAddr s n i row 0).toNat
  else if !uColptr u ∧ (row < (lcRowFirst raw).toNat ∨ (lcRowLast raw).toNat < row) then
    .fault 2 (luAddr s n i row 0).toNat
  else
    let isOpen := l.openRow.any fun r => r.toNat == row
    if !isOpen && !uAct u && !uColptr u then .fault 3 (luAddr s n i row 0).toNat
    else if !isOpen && (!l.colq.isEmpty || luDeferred s n i row) then .wait
    else
      let s1 := if isOpen then s
        else luOpen (setPot s n (setLu p i { l with openRow := some (BitVec.ofNat 15 row), scales := none, occ := none })) n i row false
      let l1 := luOf (potOf s1 n) i
      let word := if mx then unit * unitWords mx (uFmt u) else unit
      let acc := fun (k : ColKind) =>
        ({ kind := k, got := [], uword := u, rep := l.rep, row := BitVec.ofNat 15 row, unit := unit,
           latch := colSource l u raw (luSlotOf p i (l.cmd.any LeafCmd.slot)), w := l.s1, s0 := l.s0 } : ColAcc)
      let l2 := match rowOwes l1 mx bs row with
        | some k => { l1 with colq := l1.colq ++ [acc k] }
        | none => l1
      let put := fun (x : Lu) => updPot s1 n fun q => setLu q i x
      if headerMissing l2 bs row then .hold (put l2)
      else if bs && decide (4 ≤ word) && l2.occ.any (·.2.2) then .fault 4 (luAddr s n i row 0).toNat
      else if bs && blockAbsent l2 word then .go (put l2) true
      else
        let ap := if uColptr u then apNext l2.ap (lcRowFirst raw) (lcRowLast raw) (o == 2 || o == 3) else l2.ap
        .go (put { l2 with ap := ap, colq := l2.colq ++ [acc .data] }) true

def execRdl (n : PotIx) (lu : LuIx) (s : State) : Result := luOp n lu 0x01 (luColIssue n lu.toNat) s
def execWrl (n : PotIx) (lu : LuIx) (s : State) : Result := luOp n lu 0x02 (luColIssue n lu.toNat) s
def execWrq (n : PotIx) (lu : LuIx) (s : State) : Result := luOp n lu 0x03 (luColIssue n lu.toNat) s
def execMaco (n : PotIx) (lu : LuIx) (s : State) : Result := luOp n lu 0x04 (luColIssue n lu.toNat) s
def execAdds (n : PotIx) (lu : LuIx) (s : State) : Result := luOp n lu 0x05 (luColIssue n lu.toNat) s
def execAxpy (n : PotIx) (lu : LuIx) (s : State) : Result := luOp n lu 0x06 (luColIssue n lu.toNat) s
def execScl (n : PotIx) (lu : LuIx) (s : State) : Result := luOp n lu 0x07 (luColIssue n lu.toNat) s
def execCmpc (n : PotIx) (lu : LuIx) (s : State) : Result := luOp n lu 0x08 (luColIssue n lu.toNat) s
def execRdap (n : PotIx) (lu : LuIx) (s : State) : Result := luOp n lu 0x09 (luColIssue n lu.toNat) s
def execStap (n : PotIx) (lu : LuIx) (s : State) : Result := luOp n lu 0x0A (luColIssue n lu.toNat) s

/-! Ops without a column access. -/

/-- An op that only changes the LU, with its numeric events. -/
def luLocal (n : PotIx) (i : Nat) (f : Lu → Lu × NumEv) (s : State) : LuIssue :=
  let r := f (luOf (potOf s n) i)
  .go (putLu s n i r.1 r.2) true

def execLuNop (n : PotIx) (lu : LuIx) (s : State) : Result :=
  luOp n lu 0x00 (fun _ _ t => luLocal n lu.toNat (fun l => (l, .zero)) t) s

/-- L[d] ← L[a] (R151), with its poison. -/
def execMovl (n : PotIx) (lu : LuIx) (s : State) : Result :=
  luOp n lu 0x10 (fun u _ t =>
    let l := luOf (potOf t n) lu.toNat
    if latchPending l (uLa u + l.rep) || latchPending l (uLd u + l.rep) then .wait
    else luLocal n lu.toNat (fun l => (setLatch l (uLd u + l.rep) (latchOf l (uLa u + l.rep)), .zero)) t) s

/-- L[d] ← 0 (R151). -/
def execZl (n : PotIx) (lu : LuIx) (s : State) : Result :=
  luOp n lu 0x11 (fun u _ t =>
    let l := luOf (potOf t n) lu.toNat
    if latchPending l (uLd u + l.rep) then .wait
    else luLocal n lu.toNat (fun l => (setLatch l (uLd u + l.rep) Latch.reset, .zero)) t) s

/-- L[d] ← Q(h, OPW + j) (R151). -/
def execLdq (n : PotIx) (lu : LuIx) (s : State) : Result :=
  luOp n lu 0x12 (fun u _ t =>
    let p := potOf t n
    let l := luOf p lu.toNat
    if latchPending l (uLd u + l.rep) then .wait
    else
      let q := opndQ (luSlotOf p lu.toNat (l.cmd.any LeafCmd.slot)) (uHalf u) (uOpw u + l.rep)
      luLocal n lu.toNat (fun l => (setLatch l (uLd u + l.rep) q, .zero)) t) s

/-- The elements of a latch in a plain format. -/
def latchVals (fmt : Nat) (x : Latch) : List FV :=
  (unpackElems (elemBits fmt) (256 / elemBits fmt) (bytesOfWord x.val)).map (decodeElem fmt)

/-- ADDL and MULL: elementwise over two latches, rounded once to FMT; a residue mismatch faults HW (R151, R161). -/
def latchOp (n : PotIx) (i : Nat) (bad : Bool) (op : FV → FV → FV) (u : Word64) (s : State) : LuIssue :=
  let l := luOf (potOf s n) i
  let a := latchOf l (uLa u + l.rep)
  let b := latchOf l (uLb u + l.rep)
  if latchPending l (uLa u + l.rep) || latchPending l (uLb u + l.rep) || latchPending l (uLd u + l.rep) ||
      (uRnd u == 1 && lfsrPending l) then .wait
  else if bad then .fault 8 0
  else
    let vals := ((latchVals (uFmt u) a).zip (latchVals (uFmt u) b)).map fun x => (op x.1 x.2, fvIsNan x.1 || fvIsNan x.2)
    luLocal n i (fun l => latchResult l u (uLd u + l.rep) vals (a.poison || b.poison)) s

def execAddl (n : PotIx) (lu : LuIx) (residueBad : Bool) (s : State) : Result :=
  luOp n lu 0x13 (fun u _ t => latchOp n lu.toNat residueBad fvAdd u t) s
def execMull (n : PotIx) (lu : LuIx) (residueBad : Bool) (s : State) : Result :=
  luOp n lu 0x14 (fun u _ t => latchOp n lu.toNat residueBad fvMul u t) s

/-- A[ACC] += L[a] ⊙ L[b] (R142, R151); a residue mismatch faults HW. -/
def execMacl (n : PotIx) (lu : LuIx) (residueBad : Bool) (s : State) : Result :=
  luOp n lu 0x15 (fun u _ t =>
    let l := luOf (potOf t n) lu.toNat
    let a := latchOf l (uLa u + l.rep)
    let b := latchOf l (uLb u + l.rep)
    let set := luAccOf l (uAcc u)
    if accPending l (uAcc u) || latchPending l (uLa u + l.rep) || latchPending l (uLb u + l.rep) then .wait
    else if set.touched && set.intMode != fmtIsInt (uFmt u) then .fault 1 0
    else if residueBad then .fault 8 0
    else
      let terms := ((latchVals (uFmt u) a).zip (latchVals (uFmt u) b)).map fun x =>
        UElem.mk (fvMul x.1 x.2) (fvIsNan x.1 || fvIsNan x.2)
      let r := accumulate set (fmtIsInt (uFmt u)) (uSat u) (l.rep * (256 / elemBits (uFmt u))) terms (a.poison || b.poison) none
      luLocal n lu.toNat (fun l => (luEvents (setLuAcc l (uAcc u) r.1) r.2, r.2)) t) s

/-- A[ACC] ← 0 (R151). -/
def execZa (n : PotIx) (lu : LuIx) (s : State) : Result :=
  luOp n lu 0x16 (fun u _ t =>
    if accPending (luOf (potOf t n) lu.toNat) (uAcc u) then .wait
    else luLocal n lu.toNat (fun l => (setLuAcc l (uAcc u) LuAcc.reset, .zero)) t) s

/-- One level of the pairwise tree, each sum rounded under the word's SAT (R145, R153). -/
def treeLevel (sat : Bool) : List F32 → List F32 × NumEv
  | a :: b :: l =>
    let t := treeLevel sat l
    let x := fvAdd (fvOfF32 a) (fvOfF32 b)
    (roundSat sat x :: t.1, addEv (if fvIsNan x then .zero else roundEv x) t.2)
  | l => (l, .zero)

def treeSum (sat : Bool) : (levels : Nat) → List F32 → List F32 × NumEv
  | 0, l => (l, .zero)
  | n + 1, l =>
    let r := treeLevel sat l
    let t := treeSum sat n r.1
    (t.1, addEv r.2 t.2)

/-- The tree's value: seven FP32 levels, or an exact integer sum rounded once (R152, R153). A NaN made by the tree from
entries none of which is one counts once (R146). -/
def treeOf (sat : Bool) (a : LuAcc) : F32 × NumEv :=
  let vs := (upto 128).map fun k => tget a.vals k 0
  if a.intMode then (f32OfInt (vs.foldl (fun t v => t + v.toInt) 0), .zero)
  else
    let r := treeSum sat 7 vs
    let v := nth r.1 0 f32Zero
    (v, addEv r.2 ⟨(f32IsNan v && vs.all (!f32IsNan ·)).toNat, 0⟩)

/-- SC[ACC] ← the tree sum of A[ACC] with its ORIGIN, then ZA; an untouched set gives VALID 0 (R151 to R153). -/
def execTree (n : PotIx) (lu : LuIx) (s : State) : Result :=
  luOp n lu 0x20 (fun u _ t =>
    let l := luOf (potOf t n) lu.toNat
    let a := luAccOf l (uAcc u)
    if accPending l (uAcc u) then .wait
    else if uFmt u = 13 ∧ !(a.touched && a.intMode) then .fault 1 0
    else
      let r := treeOf (uSat u) a
      let sc : Score := if a.touched then ⟨r.1, a.origin.getD 0, true, a.poison⟩ else Score.reset
      let ev := if a.touched then r.2 else .zero
      luLocal n lu.toNat (fun l => (luEvents (setLuAcc (setLuSc l (uAcc u) sc) (uAcc u) LuAcc.reset) ev, ev)) t) s

/-- Insert a valid score into TK (R163, R164). -/
def tkTake (l : Lu) (k : Nat) (sc : Score) : Lu × NumEv :=
  if !sc.valid then (l, .zero)
  else
    let l1 := { l with tkPoison := l.tkPoison || sc.poison }
    if f32IsNan sc.score then (luEvents l1 ⟨1, 0⟩, ⟨1, 0⟩)
    else ({ l1 with tk := (tkInsert (sc.score, sc.addr) l.tk).take k }, .zero)

def execTkins (n : PotIx) (lu : LuIx) (s : State) : Result :=
  luOp n lu 0x21 (fun u raw t => luLocal n lu.toNat (fun l => tkTake l (lcK raw) (luScOf l (uAcc u))) t) s

/-- The search of NXI from an entry on (R169): `some (k, entry)`, or a poisoned entry met. -/
def nxiSearch (o : OpndSlot) (bank lim : Nat) : (fuel k : Nat) → Option (Nat × Option (BitVec 64))
  | 0, _ => none
  | f + 1, k =>
    if lim ≤ k then none
    else
      let w := opndWord o (k / 4)
      let e : BitVec 64 := fieldB w.val (64 * (k % 4)) 64
      if w.poison then some (k, none)
      else if bitAt e 31 && fieldN e 21 4 == bank then some (k, some e)
      else nxiSearch o bank lim f (k + 1)

/-- NXI: the next index entry for this LU's bank (R154, R165, R169). -/
def execNxi (n : PotIx) (lu : LuIx) (s : State) : Result :=
  luOp n lu 0x22 (fun u _ t =>
    let p := potOf t n
    let l := luOf p lu.toNat
    let lim := if uHalf u = 1 then 256 else 512
    match nxiSearch (luSlotOf p lu.toNat (l.cmd.any LeafCmd.slot)) (luSeat p lu.toNat).2.toNat lim 513 l.icnt with
    | none => .go t false
    | some (_, none) => .fault 4 0
    | some (k, some e) =>
      luLocal n lu.toNat (fun l =>
        ({ l with rowr := fieldB e 0 15, cbase := fieldB e 15 6, s1 := fieldB e 32 32, icnt := k + 1 }, .zero)) t) s

/-- ROWR ← ROWR + 1, CBASE ← 0; SEQ is obeyed while the 16-bit value is at most ROW_LAST (R154). -/
def execNxr (n : PotIx) (lu : LuIx) (s : State) : Result :=
  luOp n lu 0x23 (fun _ raw t =>
    let l := luOf (potOf t n) lu.toNat
    .go (putLu t n lu.toNat { l with rowr := l.rowr + 1, cbase := 0 } .zero)
      (decide (l.rowr.toNat + 1 ≤ (lcRowLast raw).toNat))) s

def execSetlc (n : PotIx) (lu : LuIx) (s : State) : Result :=
  luOp n lu 0x24 (fun u _ t => luLocal n lu.toNat (fun l => ({ l with mlc := BitVec.ofNat 8 (uImm u) }, .zero)) t) s

def execCb (n : PotIx) (lu : LuIx) (s : State) : Result :=
  luOp n lu 0x25 (fun u _ t =>
    luLocal n lu.toNat (fun l => ({ l with cbase := l.cbase + BitVec.ofNat 6 (uImm u) }, .zero)) t) s

/-- AP ← (AUXR[14:0], 0) in linear mode (R151). -/
def execSetap (n : PotIx) (lu : LuIx) (s : State) : Result :=
  luOp n lu 0x26 (fun _ _ t =>
    if apPending (luOf (potOf t n) lu.toNat) then .wait
    else
      luLocal n lu.toNat (fun l =>
        ({ l with ap := { l.ap with row := BitVec.ofNat 16 (fieldN l.auxr 0 15), col := 0, segment := false } }, .zero)) t) s

/-- The value of an accumulator set as PUT sends it; an untouched set sends the identity, which has no element type (R46,
R158; log entry 20). -/
def putVector (a : LuAcc) : Res :=
  let vs := (upto 128).map fun k => tget a.vals k 0
  if !a.touched then .none
  else if a.intMode then .vecI (vs.map fun v => BitVec.ofInt 64 v.toInt) else .vecF vs

/-- Add an emission to what the LU has emitted in this command (R159). -/
def luEmit (l : Lu) (raw : BitVec 256) (r : Res) (poison : Bool) : Lu :=
  { l with
    emitted := some (match l.emitted with | some e => resCombine (lcRed raw) (lcK raw) e r | none => r)
    emitPoison := l.emitPoison || poison }

/-- PUT: send the selected source and clear it; a kind that does not match RED faults EMIT (R158). -/
def execPut (n : PotIx) (lu : LuIx) (s : State) : Result :=
  luOp n lu 0x27 (fun u raw t =>
    let l := luOf (potOf t n) lu.toNat
    let red := lcRed raw
    let local_ := fun f => luLocal n lu.toNat (fun l => (f l, NumEv.zero)) t
    if !uEmit u then .go t true
    else
      match fieldN u 49 2 with
      | 0 =>
        if accPending l (uAcc u) then .wait
        else if red ≠ 1 then .fault 6 0
        else
          let a := luAccOf l (uAcc u)
          local_ fun l => setLuAcc (luEmit l raw (putVector a) a.poison) (uAcc u) LuAcc.reset
      | 1 =>
        let sc := luScOf l (uAcc u)
        if !sc.valid then .go t true
        else if red ≠ 2 ∧ red ≠ 3 then .fault 6 0
        else local_ fun l => setLuSc (luEmit l raw (.scalar sc.score) sc.poison) (uAcc u) Score.reset
      | 2 =>
        if cntPending l then .wait
        else if red ≠ 4 then .fault 6 0
        else local_ fun l => { luEmit l raw (.count l.cnt) l.cntPoison with cnt := 0, cntPoison := false }
      | _ =>
        if red ≠ 5 then .fault 6 0
        else local_ fun l => { luEmit l raw (.topk l.tk) l.tkPoison with tk := [], tkPoison := false }) s

/-! The column access (R147, R148, R151, R155, R174). -/

/-- Comparison codes of CMPC; a NaN compares true under NE alone (R151). -/
def cmpCode (c : Nat) (x y : F32) : Bool :=
  if f32IsNan x || f32IsNan y then c == 1
  else
    match c with
    | 0 => f32Eq x y
    | 1 => !f32Eq x y
    | 2 => f32Lt x y
    | 3 => f32Lt x y || f32Eq x y
    | 4 => f32Lt y x
    | _ => f32Lt y x || f32Eq x y

/-- RDAP's load from a header word (R174): none when its cursor or reserved field is out of range. -/
def apOfHeader (w : ColWord) (first last : BitVec 15) : Option Ap :=
  let row := fieldN w 0 15
  let col := fieldN w 15 6
  if fieldN w 21 11 ≠ 0 ∨ last.toNat - first.toNat < row then none
  else some ⟨BitVec.ofNat 16 (first.toNat + row), if row = 0 ∧ col = 0 then 1 else BitVec.ofNat 6 col, true,
    fieldB w 32 32, fieldB w 64 32⟩

/-- S0 × S1, which AXPY rounds to FP32 under its SAT (R145, R151). -/
def axpyScale (a : ColAcc) : FV := fvMul (fvOfF32 a.s0) (fvOfF32 a.w)

/-- The terms of an ADDS unit: x under weight 1.0, else S1 × x (R143, R151). -/
def addsTerms (u : Word64) (w : F32) (xs : List UElem) : List UElem :=
  if bitAt u 51 then xs else xs.map fun x => ⟨fvMul (fvOfF32 w) x.val, x.rawNan || f32IsNan w⟩

/-- The terms of an integer ADDS unit under S1: NaN, infinity and 0 × inf as R143 says. -/
def addsIntEv (u : Word64) : Bool := !bitAt u 51

/-- What a read access does with its unit: the LU and its events, or a fault. -/
def colTake (s : State) (n : PotIx) (i : Nat) (l : Lu) (raw : BitVec 256) (a : ColAcc) (bytes : List Byte) (poison : Bool) :
    (Lu × NumEv) ⊕ Nat :=
  let u := a.uword
  let fmt := uFmt u
  let mx := luFmtOf fmt (uUop u)
  let d := uLd u + a.rep
  let e := unitElems mx fmt
  let o := luSlotOf (potOf s n) i (l.cmd.any LeafCmd.slot)
  let sc := (l.scales.map Prod.snd).getD []
  let xs := unitVals mx fmt bytes a.unit sc
  let pz := poison || (mx && unitScalePoison fmt a.unit l.scalePoison)
  let org := some (luAddr s n i a.row.toNat (a.unit * unitWords mx fmt))
  let add := fun (ts : List UElem) (pz : Bool) =>
    let r := accumulate (luAccOf l (uAcc u)) (fmtIsInt fmt) (uSat u) (a.rep * e) ts pz org
    Sum.inl (luEvents (setLuAcc l (uAcc u) r.1) r.2, r.2)
  match uUop u with
  | 1 => .inl (setLatch l d ⟨wordOfBytes bytes, poison⟩, .zero)
  | 4 =>
    let q := opndVals o mx fmt (uHalf u) (uOpw u + a.rep)
    add ((xs.zip q.1).map fun x => ⟨fvMul x.1.val x.2.val, x.1.rawNan || x.2.rawNan⟩) (pz || q.2)
  | 5 => add (addsTerms u a.w xs) pz
  | 6 =>
    let q := opndVals o false fmt (uHalf u) (uOpw u + a.rep)
    let k := fvOfF32 (roundSat (uSat u) (axpyScale a))
    let vals := (xs.zip q.1).map fun x =>
      (fvAdd x.1.val (fvMul k x.2.val), x.1.rawNan || x.2.rawNan || f32IsNan a.s0 || f32IsNan a.w)
    let r := latchResult l u d vals (pz || q.2)
    .inl (luEvents r.1 (roundEv (axpyScale a)), addEv r.2 (roundEv (axpyScale a)))
  | 7 =>
    .inl (latchResult l u d (xs.map fun x => (fvMul (fvOfF32 a.s0) x.val, x.rawNan || f32IsNan a.s0)) pz)
  | 8 =>
    let k := (xs.filter fun x => cmpCode (fieldN u 51 3) (roundF32 x.val) a.s0).length
    .inl ({ l with cnt := l.cnt + BitVec.ofNat 64 k, cntPoison := l.cntPoison || pz }, .zero)
  | 9 =>
    if poison then .inr 4
    else
      match apOfHeader (wordOfBytes bytes) (lcRowFirst raw) (lcRowLast raw) with
      | some ap => .inl ({ l with ap := ap }, .zero)
      | none => .inr 2
  | _ => .inl (l, .zero)

/-- The columns of an access's words. -/
def accCols (a : ColAcc) : List Nat :=
  match a.kind with
  | .scales => between (scaleFirst (uFmt a.uword)) 64
  | .header => [0]
  | .data =>
    let k := unitWords (luFmtOf (uFmt a.uword) (uUop a.uword)) (uFmt a.uword)
    (upto k).map fun j => (a.unit * k + j) % 64

/-- An op checked by the residue of the multiply-add datapath (R161). -/
def residueChecked (u : Word64) : Bool := decide (4 ≤ uUop u ∧ uUop u ≤ 7)

/-- The oldest access leaves the column queue. -/
def popAcc (s : State) (n : PotIx) (i : Nat) : State := updPot s n fun q => updLu q i fun x => { x with colq := x.colq.drop 1 }

/-- A column command of the LU at its bank's scheduler (R185). -/
def luColumnNoted (s : State) (n : PotIx) (i : Nat) (read : Bool) : State :=
  let pl := luPlace s n i 0
  let t := bksTiming s n pl.group
  updSched s n pl.group fun c => colBank t c pl.bank.toNat read (!luProxied (potOf s n) i)

/-- A fault found by an access stops the command and drops the accesses behind it (R161, R174). -/
def colStop (s : State) (n : PotIx) (i : Nat) (a : ColAcc) (cause : Nat) : State :=
  luFault (updPot s n fun q => updLu q i fun x => { x with colq := [] }) n i cause (luAddr s n i a.row.toNat a.unit).toNat

/-- All words of a read have come: the row's scales or header are kept, or the op takes its unit (R151, R155). -/
def colDone (s : State) (n : PotIx) (i : Nat) (raw : BitVec 256) (a : ColAcc) (residueBad : Bool) : State :=
  let bytes := (a.got.map Prod.fst).flatten
  let t := popAcc s n i
  let l := luOf (potOf t n) i
  match a.kind with
  | .scales => luFinish (updPot t n fun q => setLu q i { l with scales := some (a.row, bytes), scalePoison := a.got.map Prod.snd }) n i
  | .header =>
    luFinish (updPot t n fun q =>
      setLu q i { l with occ := some (a.row, BitVec.ofNat 16 (natOfBytes (bytes.take 2)), a.got.any Prod.snd) }) n i
  | .data =>
    if residueBad && residueChecked a.uword then colStop t n i a 8
    else
      match colTake t n i l raw a bytes (a.got.any Prod.snd) with
      | .inl x => luFinish (putLu t n i x.1 x.2) n i
      | .inr cause => colStop t n i a cause

/-- One column slot for the oldest access: a write stores the word taken at issue; a read takes its next word, and with the last of them
it is done (R147, R162). The LU's row is opened again first where another port's request has displaced it (R195). -/
def luColumn (s : State) (n : PotIx) (i : Nat) (a : ColAcc) (residueBad : Bool) : State :=
  let o := uUop a.uword
  match (luOf (potOf s n) i).cmd with
  | none => s
  | some c =>
    let s1 := if (luBank s n i).openRow.any (· == a.row) then s else luOpen s n i a.row.toNat true
    let write := a.kind == .data && (o == 2 || o == 3 || o == 10)
    let s2 := luColumnNoted s1 n i (!write)
    let l := luOf (potOf s2 n) i
    if write then
      luFinish (popAcc (writeWordAt s2 (luWordPlace (potOf s2 n) n i a.row.toNat (a.unit % 64)) (luWho l) (bytesOfWord a.latch.val)
        a.latch.poison) n i) n i
    else
      let r := readWordAt s2 (luWordPlace (potOf s2 n) n i a.row.toNat (nth (accCols a) a.got.length 0)) (luWho l)
      let a1 := { a with got := a.got ++ [(r.2.bytes, r.2.poison)] }
      if a1.got.length < (accCols a).length then
        updPot r.1 n fun q => updLu q i fun x => { x with colq := a1 :: x.colq.drop 1 }
      else colDone r.1 n i c.raw a1 residueBad

/-- LU_COLUMN_ACCESS: the oldest access of the LU's column queue gets a slot (R147). The scheduler grants none to a row that must be
activated while the whistle is up (R200). -/
def execLuColumnAccess (n : PotIx) (lu : LuIx) (residueBad : Bool) (s : State) : Result :=
  checked (decide (lu.toNat < Config.lusPerPot)) s <|
    let p := potOf s n
    match (luOf p lu.toNat).colq with
    | [] => .next s
    | a :: _ =>
      whenDo (potOn s n && chanServes s n (luSeat p lu.toNat).1 && !luDeferred s n lu.toNat a.row.toNat) s
        (luColumn s n lu.toNat a residueBad)

/-- LU_LIMIT_TIMEOUT: the command has run longer than the channel's LU_LIMIT, which 0 disables (R161, R181). -/
def execLuLimitTimeout (n : PotIx) (lu : LuIx) (s : State) : Result :=
  checked (decide (lu.toNat < Config.lusPerPot)) s <|
    let p := potOf s n
    let l := luOf p lu.toNat
    whenDo (potOn s n && l.cmd.isSome && !l.done && decide ((chanOf p (luSeat p lu.toNat).1.toNat).limit ≠ 0)) s
      (luFault s n lu.toNat 7 0)

end Sys2Proof.Machine
end

