-- ==== Sys2Proof/Machine/Kernels.lean ====
section
/-!
DEFINITION. The shipped leaf kernels: their shapes (R333) and the microprograms that their templates hold (R166 to R176). Those of
scan-score-topk, bag-sum, bag-weighted-sum and append are the manual's own words; the others follow its description (log entry 27).
-/

namespace Sys2Proof.Machine

/-- The fields of a microword that a template sets (R97). -/
structure UFields where
  uop : Nat
  la : Nat := 0
  ld : Nat := 0
  acc : Nat := 0
  fmt : Nat := 0
  rnd : Nat := 0
  sat : Nat := 0
  col : Nat := 0
  colptr : Nat := 0
  act : Nat := 0
  cnt : Nat := 0
  next : Nat := 0
  seq : Nat := 0
  emit : Nat := 0
  imm : Nat := 0
  deriving DecidableEq, Repr

/-- The 64-bit word of the fields (R97). -/
def uwordOf (u : UFields) : Word64 :=
  BitVec.ofNat 64 (u.uop + u.la * 2 ^ 6 + u.ld * 2 ^ 10 + u.acc * 2 ^ 12 + u.fmt * 2 ^ 13 + u.rnd * 2 ^ 17 + u.sat * 2 ^ 19 +
    u.col * 2 ^ 20 + u.colptr * 2 ^ 26 + u.act * 2 ^ 27 + u.cnt * 2 ^ 29 + u.next * 2 ^ 37 + u.seq * 2 ^ 46 + u.emit * 2 ^ 48 +
    u.imm * 2 ^ 49)

/-- What a LEAF says of the kernel's data (R333). -/
structure KShape where
  fmt : Nat
  rnd : Nat
  sat : Nat
  bs : Nat
  w : Nat
  v : Nat
  cmp : Nat
  deriving DecidableEq, Repr

/-- Column units per row of a format (R140, R333). -/
def kUnits (fmt : Nat) : Nat :=
  if fmt = 7 ∨ fmt = 8 ∨ fmt = 12 then 62 else if fmt = 9 ∨ fmt = 10 then 20 else if fmt = 11 then 60 else 64

/-- W and V fit the kernel (R333). -/
def kShapeOk (kernel : Nat) (x : KShape) : Bool :=
  match kernel with
  | 1 => decide (1 ≤ x.w ∧ x.w ≤ 64 ∧ x.v % 2 = 0 ∧ 2 ≤ x.v ∧ x.v ≤ 254 ∧ x.v * x.w ≤ kUnits x.fmt)
  | 2 => decide (1 ≤ x.w ∧ x.w ≤ kUnits x.fmt)
  | 3 => decide (1 ≤ x.w ∧ x.w ≤ kUnits x.fmt)
  | 5 => decide (1 ≤ x.w ∧ x.w ≤ kUnits x.fmt) && !isMx x.fmt
  | 6 => !isMx x.fmt
  | _ => true

/-- scan-score-topk (R167). -/
def kScan (x : KShape) : List UFields :=
  let bs := 2 * x.bs
  [ { uop := 0x24, imm := x.v / 2 },
    { uop := 0x04, act := 1, acc := 0, col := 0, cnt := x.w - 1, fmt := x.fmt, imm := bs },
    { uop := 0x20, acc := 1 },
    { uop := 0x21, acc := 0 },
    { uop := 0x04, acc := 1, col := x.w % 64, cnt := x.w - 1, fmt := x.fmt, imm := bs },
    { uop := 0x21, acc := 1 },
    { uop := 0x20, acc := 0 },
    { uop := 0x25, imm := 2 * x.w, seq := 2, next := 1 },
    { uop := 0x23, seq := 1, next := 0 },
    { uop := 0x20, acc := 1 },
    { uop := 0x21, acc := 0 },
    { uop := 0x21, acc := 1 },
    { uop := 0x27, imm := 3, emit := 1, seq := 3 } ]

/-- bag-sum, with weight 1.0, and bag-weighted-sum (R170). -/
def kBag (x : KShape) (one : Nat) : List UFields :=
  [ { uop := 0x22, seq := 1, next := 2 },
    { uop := 0x27, acc := 0, imm := 0, emit := 1, seq := 3 },
    { uop := 0x05, act := 1, acc := 0, col := 0, cnt := x.w - 1, fmt := x.fmt, imm := 2 * x.bs + 4 * one, seq := 1, next := 0 } ]

/-- append (R176). -/
def kAppend : List UFields :=
  [{ uop := 0x09, act := 1, col := 0 }, { uop := 0x03, colptr := 1 }, { uop := 0x0A, act := 1, col := 0, seq := 3 }]

/-- One group of at most four units of axpy: AXPY into L0 to L3, then WRL (R171). -/
def kAxpyGroup (x : KShape) (g : Nat) : List UFields :=
  let n := Nat.min 4 (x.w - 4 * g)
  let last := if x.w ≤ 4 * g + 4 then 1 else 0
  [ { uop := 0x06, act := 1, ld := 0, fmt := x.fmt, rnd := x.rnd, sat := x.sat, col := 4 * g, cnt := n - 1,
      imm := 1 + 2 * x.bs + 4 * (4 * g) },
    { uop := 0x02, la := 0, fmt := x.fmt, col := 4 * g, cnt := n - 1, imm := 2 * x.bs, seq := last, next := 0 } ]

/-- axpy: entries in half 0, x in half 1 (R171). -/
def kAxpy (x : KShape) : List UFields :=
  [{ uop := 0x22, imm := 1, seq := 1, next := 2 }, { uop := 0x00, seq := 3 }] ++
    ((upto (ceilDiv x.w 4)).map (kAxpyGroup x)).flatten

/-- scale-in-place: four units at a time; block-sparse rows from word 4 on (R171). -/
def kScale (x : KShape) : List UFields :=
  let first := 4 * x.bs
  [ { uop := 0x24, imm := (64 - first) / 4 },
    { uop := 0x07, act := 1, ld := 0, fmt := x.fmt, rnd := x.rnd, sat := x.sat, col := first, cnt := 3, imm := 2 * x.bs },
    { uop := 0x02, la := 0, fmt := x.fmt, col := first, cnt := 3, imm := 2 * x.bs },
    { uop := 0x25, imm := 4, seq := 2, next := 1 },
    { uop := 0x23, seq := 1, next := 0 },
    { uop := 0x00, seq := 3 } ]

/-- compare-count: every unit of every row; block-sparse rows from word 4 on (R172). -/
def kCount (x : KShape) : List UFields :=
  let first := 4 * x.bs
  [ { uop := 0x08, act := 1, fmt := x.fmt, col := first, cnt := kUnits x.fmt - first - 1, imm := 2 * x.bs + 4 * x.cmp },
    { uop := 0x23, seq := 1, next := 0 },
    { uop := 0x27, imm := 2, emit := 1, seq := 3 } ]

/-- copy: four words at a time through L0 to L3 (R173). -/
def kCopy : List UFields :=
  [ { uop := 0x26 },
    { uop := 0x24, imm := 16 },
    { uop := 0x01, act := 1, ld := 0, cnt := 3 },
    { uop := 0x02, la := 0, colptr := 1, cnt := 3 },
    { uop := 0x25, imm := 4, seq := 2, next := 2 },
    { uop := 0x23, seq := 1, next := 1 },
    { uop := 0x00, seq := 3 } ]

/-- The template of a kernel, whole words of eight (R96, R333): KERNEL 1 to 8. -/
def kernelWords (kernel : Nat) (x : KShape) : List Word64 :=
  let us :=
    match kernel with
    | 1 => kScan x
    | 2 => kBag x 1
    | 3 => kBag x 0
    | 4 => kAppend
    | 5 => kAxpy x
    | 6 => kScale x
    | 7 => kCount x
    | _ => kCopy
  let ws := us.map uwordOf
  ws ++ List.replicate (ceilDiv ws.length 8 * 8 - ws.length) 0

/-- The kernel's fields pass: the shape, and no word that would fault (R333). -/
def kernelOk (kernel : Nat) (x : KShape) : Bool :=
  kShapeOk kernel x && (kernelWords kernel x).all fun u => !uwordBad u

end Sys2Proof.Machine
end

