-- ==== Sys2Proof/Machine/LeafCommand.lean ====
section
/-!
DEFINITION. The LU command queue and the distributor: pushes, the checks before resolution, permits and operand slots channel by
channel, delivery to the LUs, microword broadcasts, and the combined result of a leaf command (R95, R96, R126, R136, R137, R156
to R161, R463).
-/

namespace Sys2Proof.Machine

/-! Resolution (R37, R95). -/

/-- The banks of a channel that a path names. -/
def leafBanks (path : Word64) : List Nat := (upto 16).filter (pathMatchBank path)

/-- Every remap entry of an LU's physical bank agrees with its complement (R37, R402). -/
def luMapped (p : Pot) (i : Nat) : Bool := ((upto 8).map (rowMapOf p (luDie i) (luPb i))).all rowMapGood

/-- The LU of a bank of a channel, present when some named home group on the channel is not lost, the bank's remap entries agree with
their complements, and the LU is able to run commands (R37). -/
def leafUnit (s : State) (n : PotIx) (homes : List Nat) (g b : Nat) : Option Nat :=
  if homes.any fun h => homeGroup s n h == some g && entState (seenEntry s n h) != 2 then
    (luServing (potOf s n) (BitVec.ofNat 6 g) (BitVec.ofNat 4 b)).filter fun i => luServed (potOf s n) i && luMapped (potOf s n) i
  else none

/-- LUs present, as channel and LU index in R45 order; and how many a path names that are absent. -/
def leafUnits (s : State) (n : PotIx) (homes : List Nat) (path : Word64) : List (Nat × Nat) × Nat :=
  let all := ((homeChans s n homes).map fun g => (leafBanks path).map fun b => (g, leafUnit s n homes g b)).flatten
  (all.filterMap fun x => x.2.map fun i => (x.1, i), (all.filter fun x => x.2.isNone).length)

/-- The command's path is one to LUs that this pot's distributor resolves: DEPTH 2 to 4, a die below a SUB, and home groups of this pot
(R36, R38, R95). One that names none of them completes REJECTED, not ABSENT_UNIT (DESIGN CHOICE, log entry 98). -/
def leafPathOk (s : State) (n : PotIx) (q : LeafQ) : Bool :=
  let path := lcPath q.raw
  pathOk path && !pathTop path && decide (2 ≤ pathDepth path) && decide (pathSub path < 16) && !(leafHomes s n q).isEmpty

/-- The distributor's checks before it resolves the path (R96, R126, R136, R156, R157). The reserved bits [31:28] and [183] are ignored, and
an OPND that is not 64 B aligned is used as it stands (DESIGN CHOICE, log entry 94). -/
def leafChecks (s : State) (c : BitVec 256) : Bool :=
  if lcLoad c then lcInf c == 0 && decide (lcEntry c + lcOpndLen c * 8 ≤ 512)
  else
    decide (lcK c ≤ 64) && decide ((lcRowFirst c).toNat ≤ (lcRowLast c).toNat) && decide (lcOpndLen c ≤ 64) &&
      decide (lcRed c ≤ 5) &&
      (lcInf c == 0 ||
        (let x := infOf s (lcInf c)
         x.state == 2 && decide (x.leafBase.toNat ≤ lcEntry c) &&
           decide (lcEntry c < x.leafBase.toNat + x.leafLen.toNat)))

/-! Completion to the issuing agent. -/

/-- The bag that pushed a leaf command, if it still runs, loses one outstanding command; a status other than OK is kept (R277, R279,
R285). -/
def bagAnswer (bags : List BagRun) (ticket slot : Nat) (st : Status) : List BagRun :=
  bags.map fun b =>
    if b.ticket = ticket ∧ b.slots.contains slot then
      { b with left := b.left - 1, failed := if st = .ok then b.failed else b.failed ++ [st] }
    else b

/-- The 1 KiB scratch slot of a result line, numbered from the start of the tray (R278). -/
def scratchOfLine (line : Nat) : Nat := line * 64 / 1024

/-- The share of a run that another pot has ended. -/
def awayEnd (m : PotIx) (a : MemberAns) (nans ovfs : Nat) (x : LeafAway) : LeafAway :=
  if x.pot = m ∧ !x.done then ⟨m, true, a.expected, a.answered, nans, ovfs, a.status, a.poison, a.res⟩ else x

/-- Complete a leaf command to its issuer: the hub's node, the SFE's bag, the pot's event queue, or the distributor of the pot that
shared it out (R95, R435); with the numeric events for the last. -/
def leafComplete (s : State) (n : PotIx) (raw : BitVec 256) (o : LeafOrigin) (a : MemberAns) (nans ovfs : Nat) : State :=
  let s1 := inflightDown s (lcInf raw)
  match o with
  | .host cmd => answerMember s1 n { a with key := cmd }
  | .sfe ticket =>
    updPot s1 n fun p =>
      { p with sfe := { p.sfe with bags := bagAnswer p.sfe.bags ticket (scratchOfLine (lcResLine raw)) a.status } }
  | .firmware =>
    let s2 := if a.status = .absentUnit then countAbsent s1 0 1 else s1
    updPot s2 n fun p => postEvent p (BitVec.ofNat 32 ((lcTag raw).toNat + statusCode a.status * 2 ^ 16))
  | .away home id =>
    updPot s1 home fun p =>
      { p with runs := p.runs.map fun r => if r.id = id then { r with away := r.away.map (awayEnd n a nans ovfs) } else r }

/-- The pot whose tray holds a leaf command's operand and takes its result record. -/
def leafTray (n : PotIx) : LeafOrigin → PotIx
  | .away home _ => home
  | _ => n

/-- A command that ends without running on any LU. -/
def leafRefuse (s : State) (n : PotIx) (q : LeafQ) (st : Status) : State :=
  leafComplete s n q.raw q.origin ⟨0, 0, 0, st, false, false, .none, 0, none⟩ 0 0

/-! Push and checks. -/

/-- Entries of the LU command queue in use: those not yet delivered to every channel (R95). -/
def lucDepth (p : Pot) : Nat := p.lucq.length + (p.runs.filter fun r => !r.todo.isEmpty).length

/-- Push into the LU command queue of 128. -/
def pushLeaf (s : State) (n : PotIx) (q : LeafQ) : State :=
  inflightUp (updPot s n fun p => { p with lucq := p.lucq ++ [q] }) (lcInf q.raw)

/-- Stalled stores into the queue are made, oldest first, while there is room (R64). -/
def refillLeaf (s : State) (n : PotIx) : State :=
  runAll (fun t q =>
    if lucDepth (potOf t n) < 128 then pushLeaf (updPot t n fun p => { p with leafWait := p.leafWait.drop 1 }) n q else t)
    (potOf s n).leafWait s

/-- LEAF_COMMAND_PUSH: a brewer core pushes a leaf command; its store stalls while the queue is full (R64, R95). -/
def execLeafCommandPush (n : PotIx) (cmd : BitVec 256) (s : State) : Result :=
  let p := potOf s n
  let q : LeafQ := ⟨cmd, .firmware, []⟩
  whenDo (potOn s n && p.fwRunning && p.trayClear) s
    (if lucDepth p < 128 ∧ p.leafWait = [] then pushLeaf s n q else updPot s n fun p => { p with leafWait := p.leafWait ++ [q] })

/-- A command waits at resolution: an entry that it names is changing (R29), or a run command names a migrating group that is past
PHASE 1 (R467). -/
def leafHeld (s : State) (c : BitVec 256) (homes : List Nat) : Bool :=
  homes.any fun h =>
    homeChanging s h || (!lcLoad c && entState (hubEntry s h).val == 1 && decide (2 ≤ fieldN s.svc.cursor 35 2))

/-- Other pots to which home groups of a command have moved (R25, R29). -/
def leafAwayPots (s : State) (n : PotIx) (homes : List Nat) : List PotIx :=
  allPots.filter fun m => m != n && homes.any fun h => (homeGroup s n h).isNone && entPot (hubEntry s h).val == m
def leafAwayHomes (s : State) (n m : PotIx) (homes : List Nat) : List Nat :=
  homes.filter fun h => (homeGroup s n h).isNone && entPot (hubEntry s h).val == m

/-- The share of a command for another pot enters that pot's queue; where the pot is not in service it ends at once. -/
def shareOut (n : PotIx) (c : BitVec 256) (id : Nat) (homes : List Nat) (s : State) (m : PotIx) : State :=
  if potOn s m then pushLeaf s m ⟨c, .away n id, leafAwayHomes s n m homes⟩
  else countAbsent s ((leafAwayHomes s n m homes).length * (leafBanks (lcPath c)).length) 0

/-- A command that has been resolved runs: on the LUs of this pot, and in shares where its groups have moved (R25, R37, R96). -/
def leafStart (s : State) (n : PotIx) (q : LeafQ) (homes : List Nat) : State :=
  let c := q.raw
  let s1 := runAll (fun t h => (resolveEntry t n h).1) (homes.filter fun h => (homeGroup s n h).isSome) s
  let u := leafUnits s1 n homes (lcPath c)
  let wild := pathWild (lcPath c) || decide (pathDepth (lcPath c) < 4)
  let ms := leafAwayPots s1 n homes
  let s2 := if wild then countAbsent s1 u.2 0 else s1
  if u.1.isEmpty && !(ms.any (potOn s2)) then leafRefuse s2 n q .absentUnit
  else
    let id := s2.hfe.nextId
    let r : LeafRun :=
      ⟨if ms.isEmpty then 0 else id + 1, c, q.origin, homes, u.1, [], (upto 64).filter fun g => u.1.any fun x => x.1 == g,
        ms.map fun m => ⟨m, !potOn s2 m, 0, 0, 0, 0, .absentUnit, false, .none⟩⟩
    let s3 := updPot s2 n fun p => { p with runs := p.runs ++ [r] }
    if ms.isEmpty then s3
    else runAll (shareOut n c (id + 1) homes) ms { s3 with hfe := { s3.hfe with nextId := id + 1 } }

/-- The front entry passes the checks, resolves and waits for its channels; or it completes (R37, R96, R126, R156). One that must wait at
resolution keeps the home groups it names. -/
def leafAccept (s : State) (n : PotIx) : State :=
  let p := potOf s n
  match p.lucq with
  | [] => s
  | q :: rest =>
    let homes := leafHomes s n q
    let s1 := setPot s n { p with lucq := rest }
    if !leafChecks s q.raw || !leafPathOk s n q then leafRefuse s1 n q .rejected
    else if leafHeld s q.raw homes then setPot s n { p with lucq := { q with homes := homes } :: rest }
    else if (leafAwayPots s n homes).any fun m => decide (128 ≤ lucDepth (potOf s m)) then s
    else leafStart s1 n q homes

/-! Delivery to channels. -/

/-- LUs of a command on one channel. -/
def chanLus (r : LeafRun) (g : Nat) : List Nat := (r.expected.filter fun x => x.1 == g).map Prod.snd

/-- An LU of the channel still runs the command that used a slot (R137). -/
def slotBusy (p : Pot) (g : Nat) (slot : Bool) : Bool :=
  p.lus.any fun e => (luSeat p e.1).1.toNat == g && e.2.cmd.any fun c => c.slot == slot

/-- A bank copy in progress holds leaf commands for the failing bank's LU (R396). -/
def copyHolds (p : Pot) (g : Nat) (lus : List Nat) : Bool :=
  match p.pat.copy with
  | none => false
  | some c => c.group.toNat == g && lus.any fun i => luServing p c.group c.bank == some i

/-! Operand slots (R136, R137). -/

/-- The operand's bytes and poison, padded with zeros to the slot. -/
def operandSlot (s : State) (n : PotIx) (c : BitVec 256) : OpndSlot :=
  let len := lcOpndLen c * 64
  ⟨fitBytes 4096 (trayRead s (trayGlobal n (lcOpnd c)) len), trayPoison s (trayGlobal n (lcOpnd c)) len⟩

/-- Load the channel's next slot for a command, and the copies of the proxy slots that serve LUs of the channel (R136, R177). -/
def loadSlot (s : State) (n : PotIx) (g : Nat) (c : BitVec 256) (o : OpndSlot) : State :=
  updPot s n fun p =>
    let k := chanOf p g
    let p1 := setChan p g { (if k.next then { k with slot1 := o } else { k with slot0 := o }) with loadedFor := some c }
    let copy := fun (q : Pot) (j : Nat) =>
      let i := fieldN k.proxy (16 * j) 11
      if proxySlot p i = some j ∧ (luSeat p i).1.toNat = g then
        setProxy q j (if k.next then { proxyOf q j with slot1 := o } else { proxyOf q j with slot0 := o })
      else q
    (upto 4).foldl copy p1

/-- OPERAND_SLOT_LOAD: the distributor fills the channel's free slot for the channel's next run command (R136, R137). -/
def execOperandSlotLoad (n : PotIx) (group : GroupIx) (s : State) : Result :=
  let p := potOf s n
  let g := group.toNat
  match chanNext p g with
  | none => .next s
  | some r =>
    whenDo (potOn s n && !lcLoad r.raw && decide ((chanOf p g).loadedFor = none) && !slotBusy p g (chanOf p g).next) s
      (loadSlot s n g r.raw (operandSlot s (leafTray n r.origin) r.raw))

/-! Delivery (R156). -/

/-- The LU's state at the start of a run command (R144, R156). -/
def luStart (l : Lu) (c : LeafCmd) (seed : BitVec 32) : Lu :=
  { l with
    cmd := some c, done := false, upc := BitVec.ofNat 10 (lcEntry c.raw), rep := 0, latches := [], acc0 := .reset,
    acc1 := .reset, sc0 := .reset, sc1 := .reset, cnt := 0, cntPoison := false, tk := [], tkPoison := false,
    rowr := lcRowFirst c.raw, cbase := 0, ap := .reset, s0 := lcS0 c.raw, s1 := f32One, auxr := lcAux c.raw, mlc := 0,
    icnt := 0, nans := 0, ovfs := 0, lfsr := lfsrSeed seed (lcTag c.raw) c.luIx.toNat, scales := none, scalePoison := [],
    occ := none, openRow := none, closing := false, colq := [], emitted := none, emitPoison := false, endFault := none,
    tag := lcTag c.raw, infusion := lcInf c.raw }

/-- Start a command on LUs of one channel; the channel's slots then alternate. -/
def startChan (p : Pot) (g : Nat) (us : List (Nat × LeafCmd)) (seed : BitVec 32) : Pot :=
  let p1 := us.foldl (fun q x => updLu q x.1 fun l => luStart l x.2 seed) p
  let k := chanOf p1 g
  setChan p1 g { k with next := !k.next, loadedFor := none }

/-- The LU registers' parity holds back every run command of the pot (R493). -/
def luParity (s : State) (n : PotIx) : Bool :=
  [0x2000, 0x2008, 0x2010].any fun o => regBad s (potReg n o)

/-- LU_SEED of a channel, at its reset value where the stored one is faulted. -/
def chanSeed (p : Pot) (g : Nat) : BitVec 32 := (chanOf p g).seed

/-- The shadow LUs of a channel's LUs in its mirror group, each with its primary's index (R463). -/
def shadowLus (s : State) (n : PotIx) (mp : PotIx) (mg : GroupIx) (lus : List Nat) : List (Nat × Nat) :=
  lus.filterMap fun i => (luServing (potOf s mp) mg (luSeat (potOf s n) i).2).map fun j => (j, i)

/-- The channel is ready for its next run command: permit held, slot loaded, LUs free; its mirror as well. -/
def chanReady (s : State) (n : PotIx) (g : Nat) (r : LeafRun) : Bool :=
  let p := potOf s n
  permitHeld p.pmt .leaf g && decide ((chanOf p g).loadedFor = some r.raw) &&
    (chanLus r g).all (fun i => (luOf p i).cmd.isNone) && !copyHolds p g (chanLus r g) && !luParity s n &&
    match chanMirror s n g with
    | none => true
    | some m =>
      let q := potOf s m.1
      potOn s m.1 && permitHeld q.pmt .leaf m.2.toNat && !chanBusy q m.2.toNat

/-- An LU that has become unable to run commands since the command was resolved is absent: the run no longer expects it (R37, R161,
R179). -/
def dropUnserved (p : Pot) (g : Nat) (r : LeafRun) : LeafRun :=
  { r with expected := r.expected.filter fun x => x.1 != g || luServed p x.2 }

/-- Deliver a run command to one channel, and as a shadow to its mirror group (R156, R463). -/
def deliverChan (s0 : State) (n : PotIx) (g : Nat) (r0 : LeafRun) : State :=
  let r := dropUnserved (potOf s0 n) g r0
  let s := countAbsent (updPot s0 n fun p => { p with runs := p.runs.map fun x => if x = r0 then r else x })
    (r0.expected.length - r.expected.length) 0
  let p := potOf s n
  let lus := chanLus r g
  let k := chanOf p g
  let slot := if k.next then k.slot1 else k.slot0
  let p1 := startChan p g (lus.map fun i => (i, ⟨r.raw, none, BitVec.ofNat 11 i, k.next⟩)) (chanSeed p g)
  let p2 := { p1 with
    pmt := permitTake p1.pmt .leaf g (lcTag r.raw) (lcInf r.raw)
    runs := p1.runs.map fun x => if x = r then { x with todo := x.todo.filter (· != g) } else x }
  let s1 := setPot s n p2
  match chanMirror s n g with
  | none => s1
  | some m =>
    let mg := m.2.toNat
    let s2 := loadSlot s1 m.1 mg r.raw slot
    let q := potOf s2 m.1
    let mk := (chanOf q mg).next
    let us := (shadowLus s2 n m.1 m.2 lus).map fun x =>
      (x.1, (⟨r.raw, some n, BitVec.ofNat 11 x.2, mk⟩ : LeafCmd))
    let q1 := startChan q mg us (chanSeed p g)
    setPot s2 m.1 { q1 with pmt := permitTake q1.pmt .leaf mg (lcTag r.raw) (lcInf r.raw) }

/-- The buffered LU registers of R181 (R488). -/
def luKeys (n : PotIx) : List Nat := [potReg n 0x2000, potReg n 0x2008, potReg n 0x2010]

/-- A channel between two leaf commands applies what is buffered for it, each write once; the buffer empties when all 64 have
(R181, R489). -/
def luApply (s : State) (n : PotIx) (g : Nat) : State :=
  let one := fun (t : State) (key : Nat) =>
    match bufferOf t key with
    | none => t
    | some v =>
      let by_ := tget t.regs.applied key []
      if by_.contains g then t
      else
        let t1 := updPot t n fun p =>
          let c := chanOf p g
          setChan p g (if key = potReg n 0x2000 then { c with seed := BitVec.ofNat 32 v }
            else if key = potReg n 0x2008 then { c with limit := BitVec.ofNat 32 v }
            else { c with proxy := BitVec.ofNat 64 v })
        if 63 ≤ by_.length then
          updPot (parityEnds (dropBuffer t1 key) key) n fun p =>
            if key = potReg n 0x2000 then { p with luSeed := BitVec.ofNat 32 v }
            else if key = potReg n 0x2008 then { p with luLimit := BitVec.ofNat 32 v } else { p with luProxy := BitVec.ofNat 64 v }
        else { t1 with regs := { t1.regs with applied := tset t1.regs.applied key (by_ ++ [g]) } }
  if chanBusy (potOf s n) g then s else runAll one (luKeys n) s

/-- A command of the firmware range for the die that an activation of LEAFMC rewrites next is held (R449). -/
def rangeHeld (s : State) (n : PotIx) (g : Nat) (r : LeafRun) : Bool := fwRange r.raw && rewritesDie s n (g / 4)

/-- Deliver to every channel that is ready for its next run command. -/
def deliverReady (s : State) (n : PotIx) : State :=
  runAll (fun t g =>
    let u := luApply t n g
    match chanNext (potOf u n) g with
    | some r => if !lcLoad r.raw && chanReady u n g r && !rangeHeld u n g r then deliverChan u n g r else u
    | none => u) (upto 64) s

/-- LEAF_COMMAND_DELIVER: the distributor checks the command at the head of its queue and delivers run commands to the
channels that are ready for theirs (R95, R126, R156). -/
def execLeafCommandDeliver (n : PotIx) (s : State) : Result :=
  whenDo (potOn s n && (potOf s n).trayClear) s (refillLeaf (deliverReady (leafAccept (leafmcSettle s) n) n) n)

/-! Microword broadcast (R96). -/

/-- Words read under UCODE: a poisoned tray word marks its microwords uncorrectable (R386). -/
def broadcastWords (s : State) (n : PotIx) (c : BitVec 256) : List (Word64 × Bool) :=
  let len := lcOpndLen c * 64
  let a := trayGlobal n (lcOpnd c)
  let bs := trayRead s a len
  let ps := trayPoison s a len
  (upto (lcOpndLen c * 8)).map fun k =>
    (BitVec.ofNat 64 (natOfBytes ((bs.drop (8 * k)).take 8)), nth ps ((a % 32 + 8 * k) / 32) false)

/-- Store microwords from a store address up. -/
def storeWords (m : SMap Word64 × SMap Bool) (entry : Nat) (ws : List (Word64 × Bool)) : SMap Word64 × SMap Bool :=
  ws.zipIdx.foldl (fun m w =>
    (tset m.1 (entry + w.2) w.1.1, if w.1.2 then tset m.2 (entry + w.2) true else tdel m.2 (entry + w.2))) m

/-- The store that an LU's commands run from, replaced: its own, or that of the proxy slot that serves it (R177). -/
def setLuCode (p : Pot) (i : Nat) (m : SMap Word64 × SMap Bool) : Pot :=
  match proxySlot p i with
  | some k => setProxy p k { proxyOf p k with store := m.1, storeBad := m.2 }
  | none => updLu p i fun l => { l with store := m.1, storeBad := m.2 }

/-- The answer of an LU that has stored the words. -/
def storedAnswer (i : Nat) : LuAnswer := ⟨i, .none, false, none, 0, 0⟩

/-- Broadcast to one channel: its LUs are between two commands. -/
def broadcastChan (n : PotIx) (s : State) (g : Nat) : State :=
  let p := potOf s n
  match chanNext p g with
  | none => s
  | some r =>
    let lus := chanLus r g
    if lcLoad r.raw && lus.all fun i => (luOf p i).cmd.isNone then
      let ws := broadcastWords s (leafTray n r.origin) r.raw
      let p1 := lus.foldl (fun q i => setLuCode q i (storeWords (luCode q i) (lcEntry r.raw) ws)) p
      setPot s n { p1 with runs := p1.runs.map fun x =>
        if x = r then { x with todo := x.todo.filter (· != g), answers := x.answers ++ lus.map storedAnswer } else x }
    else s

/-- MICROWORD_LOAD: the leaf commands with LOAD = 1 that stand first on their channels store their words in the LUs that
are free (R96). -/
def execMicrowordLoad (n : PotIx) (s : State) : Result :=
  whenDo (potOn s n && (potOf s n).trayClear) s (refillLeaf (runAll (broadcastChan n) (upto 64) s) n)

/-! Combination and the result record (R45, R46, R159, R160). -/

/-- An LU's answer within a run. -/
def answerOf (r : LeafRun) (i : Nat) : Option LuAnswer := r.answers.find? fun a => a.lu == i

/-- Every LU has finished, those on other pots as well. -/
def runDone (r : LeafRun) : Bool :=
  r.todo.isEmpty && (r.expected.all fun x => (answerOf r x.2).isSome) && r.away.all LeafAway.done

/-- Answers in R45 order. -/
def runAnswers (r : LeafRun) : List LuAnswer := r.expected.filterMap fun x => answerOf r x.2

/-- Answers of one channel that give a value. -/
def chanAnswers (r : LeafRun) (g : Nat) : List LuAnswer :=
  ((chanLus r g).filterMap (answerOf r)).filter fun a => a.fault.isNone

/-- The bank schedulers' folds, then the pot combiner's; the shares of other pots follow in ascending pot (R45; log entry 99). -/
def runValue (r : LeafRun) : Res :=
  let red := lcRed r.raw
  let k := lcK r.raw
  let chans := (upto 64).filterMap fun g =>
    match chanAnswers r g with
    | [] => none
    | l => some (resFold red k (l.map LuAnswer.res))
  let here := resFold red k chans
  match (r.away.filter fun a => decide (0 < a.answered)).map LeafAway.res with
  | [] => here
  | l => resFold red k (if r.expected.isEmpty then l else here :: l)

def sumSat (l : List Nat) : Nat := Nat.min (2 ^ 32 - 1) l.sum

def runFaults (r : LeafRun) : Nat :=
  ((runAnswers r).filter fun a => a.fault.isSome).length + (r.away.map fun a => a.expected - a.answered).sum
def runPoison (r : LeafRun) : Bool := ((runAnswers r).any fun a => a.fault.isNone && a.poison) || r.away.any LeafAway.poison
def runExpected (r : LeafRun) : Nat := r.expected.length + (r.away.map LeafAway.expected).sum
def runAnswered (r : LeafRun) : Nat := runExpected r - runFaults r

/-- Status of a command: that of the faulting LU lowest in R45 order (R161); ABSENT_UNIT where no LU is left that could run it (R179). -/
def runStatus (r : LeafRun) : Status :=
  if runExpected r = 0 then .absentUnit
  else
    match (runAnswers r).findSome? LuAnswer.fault with
    | some c => luCauseStatus c.toNat
    | none => ((r.away.filter fun a => decide (0 < a.expected)).findSome? fun a => if a.status = .ok then none else some a.status).getD .ok

def runNans (r : LeafRun) : Nat := sumSat ((runAnswers r).map (fun a => a.nans.toNat) ++ r.away.map LeafAway.nans)
def runOvfs (r : LeafRun) : Nat := sumSat ((runAnswers r).map (fun a => a.ovfs.toNat) ++ r.away.map LeafAway.ovfs)

/-- The result record's bytes: a 64 B header and the payload (R160). -/
def recordBytes (r : LeafRun) : List Byte :=
  let v := resFinal (lcRed r.raw) (runValue r)
  let body := resBytes v
  let flags := (if runFaults r = 0 then 0 else 1) + (if runPoison r then 2 else 0) + (if resIsInt v then 4 else 0)
  bytesOfNat 2 (lcTag r.raw).toNat ++ bytesOfNat 2 (lcInf r.raw).toNat ++ bytesOfNat 1 flags ++
    bytesOfNat 1 (lcRed r.raw) ++ bytesOfNat 2 body.length ++ bytesOfNat 4 (runExpected r) ++
    bytesOfNat 4 (runAnswered r) ++ bytesOfNat 4 (runNans r) ++ bytesOfNat 4 (runOvfs r) ++ bytesOfNat 4 (runFaults r) ++
    bytesOfNat 36 0 ++ body

/-- What the node above receives from the pot. -/
def runAnswer (r : LeafRun) : MemberAns :=
  { key := 0, expected := runExpected r, answered := runAnswered r, status := runStatus r,
    isPartial := decide (0 < runFaults r), poison := runPoison r, res := runValue r, detail := 0, infusion := none }

/-- LEAF_RESULT_RECORD: the oldest command whose LUs have all finished gives its record and completes (R160). -/
def execLeafResultRecord (n : PotIx) (s : State) : Result :=
  let p := potOf s n
  match pullFirst runDone p.runs with
  | none => .next s
  | some x =>
    let r := x.1
    let s1 := setPot s n { p with runs := x.2 }
    let s2 :=
      if lcLoad r.raw || lcRed r.raw == 0 || leafTray n r.origin != n || runExpected r == 0 then s1
      else trayWrite s1 (trayGlobal n (lcResLine r.raw * 64)) (recordBytes r) false
    .next (leafmcSettle (leafComplete s2 n r.raw r.origin (runAnswer r) (runNans r) (runOvfs r)))

end Sys2Proof.Machine
end

