-- ==== Sys2Proof/WellFormed.lean ====
section
/-!
DEFINITION. Well-formed commands: what the widths of the operands do not say. A command that fails a check names
something the module does not have.
-/

namespace Sys2Proof

/-- An LU index names one of the 66 LUs of 16 dies (R134). -/
def luIndexOk (lu : LuIx) : Bool := decide (lu.toNat < Config.lusPerPot)

/-- Sensors read at a tick of a place: 16 dies with four sensors and a base die with eight for a pot, four for the hub (R418). -/
def ketReadings : KetPlace → Nat
  | .pot _ => 72
  | .hub => 4

/-- A hub island number in use (R504). -/
def islandOk : Island → Bool
  | .pot _ u => decide (u.toNat ≤ 20 ∨ (32 ≤ u.toNat ∧ u.toNat < 48))
  | .hub u => decide (u.toNat ≤ 8)

/-- A flit's virtual channel is 0 to 4 (R350, R351). -/
def vcOk (vc : BitVec 3) : Bool := decide (vc.toNat < 5)
/-- AVC and CVC name a virtual channel, or 7 for none (R350). -/
def vcOrNone (vc : BitVec 3) : Bool := decide (vc.toNat < 5) || vc == 7

/-- The checks, command by command; every other command is well formed by its operands' types. -/
def Instr.wf : Instr → Bool
  | .potReset _ ls _ _ => ls.all luIndexOk
  | .bootRom ls _ => ls.all fun e => luIndexOk e.2
  | .headLinkTrain _ proto rate width => decide (proto ≠ 0) && decide (rate ≠ 3) && decide (width ≠ 3)
  | .cxlMemRead _ dpa => decide (dpa.toNat % 64 = 0)
  | .cxlMemWrite _ dpa _ _ _ => decide (dpa.toNat % 64 = 0)
  | .apertureLineWrite _ off _ _ => decide (off.toNat % 64 = 0)
  | .queueElementAvailable _ q => decide (q.toNat < 48)
  | .luNop _ lu => luIndexOk lu
  | .rdl _ lu => luIndexOk lu
  | .wrl _ lu => luIndexOk lu
  | .wrq _ lu => luIndexOk lu
  | .maco _ lu => luIndexOk lu
  | .adds _ lu => luIndexOk lu
  | .axpy _ lu => luIndexOk lu
  | .scl _ lu => luIndexOk lu
  | .cmpc _ lu => luIndexOk lu
  | .rdap _ lu => luIndexOk lu
  | .stap _ lu => luIndexOk lu
  | .movl _ lu => luIndexOk lu
  | .zl _ lu => luIndexOk lu
  | .ldq _ lu => luIndexOk lu
  | .addl _ lu _ => luIndexOk lu
  | .mull _ lu _ => luIndexOk lu
  | .macl _ lu _ => luIndexOk lu
  | .za _ lu => luIndexOk lu
  | .tree _ lu => luIndexOk lu
  | .tkins _ lu => luIndexOk lu
  | .nxi _ lu => luIndexOk lu
  | .nxr _ lu => luIndexOk lu
  | .setlc _ lu => luIndexOk lu
  | .cb _ lu => luIndexOk lu
  | .setap _ lu => luIndexOk lu
  | .put _ lu => luIndexOk lu
  | .luColumnAccess _ lu _ => luIndexOk lu
  | .luLimitTimeout _ lu => luIndexOk lu
  | .ketMeasurementTick place rs => decide (rs.length = ketReadings place)
  | .recipeWrite _ _ _ ws => decide (ws ≠ []) && decide (ws.length ≤ 65)
  | .flitReceive _ _ f _ _ => (vcOk f.vc || f.vc == 7) && vcOrNone f.avc && vcOrNone f.cvc
  | .ackTimer _ _ vc => vcOk vc
  | .ack _ _ as => decide (as.length = 5)
  | .nak _ _ vc _ => vcOk vc
  | .nakAll _ _ vs => decide (vs.length = 5)
  | .init _ _ _ _ _ rs _ _ => decide (rs.length = 5)
  | .snapshotStart scope _ _ => decide (scope ≠ 3)
  | .cuppingLatch i => islandOk i
  | .faultRecordLost i => islandOk i
  | _ => true

/-- The LUs that a command names. -/
def Instr.lus : Instr → List LuIx
  | .bootRom ls _ => ls.map Prod.snd
  | .potReset _ ls _ _ => ls
  | .luNop _ lu => [lu]
  | .rdl _ lu => [lu]
  | .wrl _ lu => [lu]
  | .wrq _ lu => [lu]
  | .maco _ lu => [lu]
  | .adds _ lu => [lu]
  | .axpy _ lu => [lu]
  | .scl _ lu => [lu]
  | .cmpc _ lu => [lu]
  | .rdap _ lu => [lu]
  | .stap _ lu => [lu]
  | .movl _ lu => [lu]
  | .zl _ lu => [lu]
  | .ldq _ lu => [lu]
  | .addl _ lu _ => [lu]
  | .mull _ lu _ => [lu]
  | .macl _ lu _ => [lu]
  | .za _ lu => [lu]
  | .tree _ lu => [lu]
  | .tkins _ lu => [lu]
  | .nxi _ lu => [lu]
  | .nxr _ lu => [lu]
  | .setlc _ lu => [lu]
  | .cb _ lu => [lu]
  | .setap _ lu => [lu]
  | .put _ lu => [lu]
  | .luColumnAccess _ lu _ => [lu]
  | .luLimitTimeout _ lu => [lu]
  | _ => []

end Sys2Proof
end

