-- ==== Sys2Proof/Machine/Link.lean ====
section
/-!
DEFINITION. The link layer of a spout port: flit slots, reception, acknowledgement and replay, credits, the spare lane, and the
states of a port (R345 to R362, R375, R376).
-/

namespace Sys2Proof.Machine

/-! Control flits (R361). -/

def ctrlFlit (mtype : Nat) (payload : List Byte) : Flit :=
  { vc := 7, vseq := 0, avc := 7, avseq := 0, cvc := 7, ccnt := 0, mtype := BitVec.ofNat 8 mtype, som := true, eom := true,
    payload := BitVec.ofNat 1952 (natOfBytes payload) }

def pushCtrl (p : Port) (f : Flit) : Port := { p with ctrl := p.ctrl ++ [f] }
def vcs : List Nat := upto 5
def expOf (p : Port) (v : Nat) : BitVec 12 := tget p.expSeq v 0
def nextOf (p : Port) (v : Nat) : BitVec 12 := tget p.nextSeq v 0
def ackOf (p : Port) (v : Nat) : BitVec 12 := tget p.ackSeq v 0
def dueOf (p : Port) (v : Nat) : Nat := tget p.creditsDue v 0
def occOf (p : Port) (v : Nat) : Nat := tget p.occupancy v 0

/-- The reserves of R351. -/
def vcReserve (v : Nat) : Nat := if v = 0 ∨ v = 4 then 16 else 32
/-- The partner's reserve of a channel, from its INIT. -/
def reserveOf (p : Port) (v : Nat) : Nat := tget p.reserves v (vcReserve v)

def idleFlit : Flit := ctrlFlit 0x80 []
/-- AVSEQ and credits of each channel, 4 B each. -/
def ackFlit (p : Port) : Flit :=
  ctrlFlit 0x81 ((vcs.map fun v => bytesOfNat 2 (expOf p v - 1).toNat ++ bytesOfNat 2 (dueOf p v)).flatten)
def nakFlitOf (p : Port) (v : Nat) : Flit := ctrlFlit 0x82 (bytesOfNat 1 v ++ bytesOfNat 2 (expOf p v).toNat)
def nakAllFlit (p : Port) : Flit := ctrlFlit 0x83 ((vcs.map fun v => bytesOfNat 2 (expOf p v).toNat).flatten)
/-- Node id, port index, STEPPING, the 5 reserves and the pool. -/
def initFlit (s : State) (q : Nat) : Flit :=
  ctrlFlit 0x84 (bytesOfNat 2 (nodeId s).toNat ++ bytesOfNat 1 q ++ bytesOfNat 1 (steppingCode s.fuses.stepping) ++
    (vcs.map fun v => bytesOfNat 2 (vcReserve v)).flatten ++ bytesOfNat 2 1920)
def laneSwapFlit (lane : Nat) : Flit := ctrlFlit 0x85 (bytesOfNat 1 lane)
def lastWordsFlit (reason : Nat) : Flit := ctrlFlit 0x86 (bytesOfNat 1 reason)

/-! States (R360, R362, R366, R367). -/

/-- Responses to the deferred operations that a port drops (R311). -/
def strandReply (n : PotIx) (s : State) (x : Deferred) : State :=
  sendMsg s n x.src 6 x.reqId x.hdr.tag x.hdr.infusion x.hdr.addr (bytesOfNat 8 7 ++ bytesOfNat 16 0)

/-- Streams of every pot that left by a port lose what it had not delivered (R372). -/
def portLossy (q : Nat) (s : State) : State :=
  runAll (fun t n =>
    runAll (fun u e => if e.2.port = some q then streamLossy u n (BitVec.ofNat 16 e.1) else u) (potOf t n).streams t)
    allPots s

/-- Nodes that no port reaches any more are lost, and nodes that one reaches again are not (R366, R367). -/
def noteReach (q : Nat) (s : State) : State :=
  runAll (fun t e =>
    let d := BitVec.ofNat 16 e.1
    let up := (eligible t d).any fun x => (portAt t x).state == .up
    if !bitAt e.2.ports q then t
    else if up then { t with drz := { t.drz with routes := tset t.drz.routes e.1 { (routeOf t d) with lost := false } } }
    else if (routeOf t d).lost then t else declareLost t d) s.drz.routes s

/-- A port in DOWN: nothing queued, counted or acknowledged (R360). -/
def portCleared (p : Port) (cause : Nat) : Port :=
  { p with
    state := .down, downCause := BitVec.ofNat 3 cause, txq := [], replayq := [], replaySince := [], replay := [], nextSeq := [], expSeq := [],
    discard := [], ackSeq := [], creditsDue := [], occupancy := [], ctrl := [], rxParts := [], nakFlit := [],
    initSent := false, initGot := false, swapped := 0xF, txSwapped := 0xF, deferral := [], cts := [],
    events := satField p.events 56 8 1 }

/-- A port goes DOWN (R360). -/
def portDown (s : State) (n : PotIx) (k : BitVec 1) (cause : Nat) : State :=
  let q := portNo n k
  let p := portAt s q
  if p.state = .down then s
  else
    let out := p.deferral
    let s1 := updPortAt s q fun x => portCleared x cause
    let s2 := runAll (fun t x => strandReply n (strandRecord t n x) x) out (portLossy q s1)
    if p.state = .up ∨ p.state = .drain then noteReach q s2 else s2

/-- Both INITs are exchanged: the port is UP (R356, R360). -/
def portUp (s : State) (q : Nat) : State :=
  noteReach q (updPortAt s q fun p => { p with state := .up, rttOver := decide (2600 < p.rttNs.toNat) })

/-- An orderly stop begins (R362): the port is UP no longer, so a node that it alone reached is lost (R364, R366). One that carries no
traffic goes DOWN at once. -/
def portStop (s : State) (n : PotIx) (k : BitVec 1) (reason : Nat) : State :=
  match (portAt s (portNo n k)).state with
  | .up => noteReach (portNo n k) (updPort s n k fun p => { p with state := .drain, reason := BitVec.ofNat 3 reason })
  | .drain => s
  | _ => portDown s n k 0

/-! Transmission (R353, R355, R358). -/

/-- Shared pool in use at the partner. -/
def poolUsed (p : Port) : Nat := (vcs.map fun v => occOf p v - reserveOf p v).sum

def hasCredit (p : Port) (v : Nat) : Bool := decide (occOf p v < reserveOf p v) || decide (poolUsed p < p.pool)

/-- A new flit of the channel may go: credit, room in the replay buffer, and no replay of the channel before it. -/
def newReady (p : Port) (v : Nat) : Bool :=
  !(tget p.txq v []).isEmpty && hasCredit p v && decide (p.replay.length < 2048) &&
    !(p.replayq.any fun f => f.vc.toNat == v)

def replayReady (p : Port) (v : Nat) : Bool := p.replayq.any fun f => f.vc.toNat == v

/-- Flit slots in 2 µs: 738.17 M flits per second (R349, R353). -/
def agedSlots : Nat := 1477

/-- The channels in R353's order of precedence. -/
def vcOrder : List Nat := [4, 3, 1, 2, 0]

/-- The slot since which the next flit of a channel waits: the first to be sent again, or the first new one that may go. -/
def waitsSince (p : Port) (v : Nat) : Option Nat :=
  if replayReady p v then some (tget p.replaySince v p.slotNo)
  else if newReady p v then (tget p.txq v []).head?.map Prod.snd
  else none

/-- The channel of the oldest flit that has waited 2 µs (R353); of equally old ones, the first in the order of precedence (log entry 51). -/
def agedVc (p : Port) : Option Nat :=
  (vcOrder.filterMap fun v => (waitsSince p v).map fun t => (v, t)).foldl
    (fun b x =>
      if x.2 + agedSlots ≤ p.slotNo then
        match b with
        | none => some x
        | some y => if x.2 < y.2 then some x else b
      else b) none |>.map Prod.fst

/-- The channel to send from: an aged flit's, else VC4, VC3, VC1, VC2, VC0 in that order. -/
def pickVc (p : Port) : Option Nat :=
  match agedVc p with
  | some v => some v
  | none => vcOrder.find? fun v => replayReady p v || newReady p v

/-- What a flit carries back: the lowest channel with an acknowledgement due and the lowest with credits due. -/
def piggyback (p : Port) (f : Flit) : Port × Flit :=
  let a := vcs.find? fun v => expOf p v != ackOf p v
  let c := vcs.find? fun v => decide (0 < dueOf p v)
  let p1 := match a with | some v => { p with ackSeq := tset p.ackSeq v (expOf p v) } | none => p
  let p2 := match c with
    | some v => { p1 with creditsDue := tset p1.creditsDue v (dueOf p v - Nat.min 4095 (dueOf p v)) }
    | none => p1
  (p2, { f with
    avc := match a with | some v => BitVec.ofNat 3 v | none => 7
    avseq := match a with | some v => expOf p v - 1 | none => 0
    cvc := match c with | some v => BitVec.ofNat 3 v | none => 7
    ccnt := match c with | some v => BitVec.ofNat 12 (Nat.min 4095 (dueOf p v)) | none => 0 })

/-- Send a flit of a channel: a replay as it was sent, or a new one, which takes its VSEQ and a credit. -/
def sendVc (p : Port) (v : Nat) : Port :=
  match pullFirst (fun (f : Flit) => f.vc.toNat == v) p.replayq with
  | some x =>
    let r := piggyback { p with replayq := x.2 } x.1
    { r.1 with wire := some r.2, events := satField p.events 24 24 1, traffic := satField p.traffic 0 40 1 }
  | none =>
    match tget p.txq v [] with
    | [] => p
    | f :: fs =>
      let g := { f.1 with vseq := nextOf p v }
      let p1 := { p with
        txq := tset p.txq v fs, nextSeq := tset p.nextSeq v (nextOf p v + 1), occupancy := tset p.occupancy v (occOf p v + 1)
        replay := p.replay ++ [g] }
      let r := piggyback p1 g
      { r.1 with wire := some r.2, traffic := satField p.traffic 0 40 1 }

/-- One flit slot of a port that carries flits. -/
def slotSend (p : Port) : Port :=
  match p.ctrl with
  | f :: fs => { p with ctrl := fs, wire := some f, initSent := p.initSent || f.mtype == 0x84 }
  | [] =>
    if p.state = .init then { p with wire := some idleFlit }
    else
      match pickVc p with
      | some v => sendVc p v
      | none => { p with wire := some idleFlit }

def portLive (p : Port) : Bool := p.state == .up || p.state == .drain || p.state == .init

/-- FLIT_SLOT: the transmitter sends one flit (R353). -/
def execFlitSlot (n : PotIx) (k : BitVec 1) (s : State) : Result :=
  let p := portOf (potOf s n) k.toNat
  let p1 := slotSend { p with slotNo := p.slotNo + 1 }
  let s1 := updPort s n k fun _ => p1
  whenDo (portLive p) s (if p.state == .init && p1.initSent && p1.initGot then portUp s1 (portNo n k) else s1)

/-! Reception (R357, R358). -/

/-- Flits of a channel up to AVSEQ are acknowledged; the count of NAKs of one of them ends. -/
def ackReplay (p : Port) (v : Nat) (seq : BitVec 12) : Port :=
  let by_ := fun (x : BitVec 12) => decide ((seq - x).toNat < 2048)
  let gone := fun (f : Flit) => f.vc.toNat == v && by_ f.vseq
  { p with replay := p.replay.filter fun f => !gone f, replayq := p.replayq.filter fun f => !gone f,
           nakFlit := if by_ (tget p.nakFlit v (0, 0)).1 then tdel p.nakFlit v else p.nakFlit }

def giveCredits (p : Port) (v c : Nat) : Port := { p with occupancy := tset p.occupancy v (occOf p v - c) }

/-- The piggybacked fields of an accepted flit. -/
def takeBack (p : Port) (f : Flit) : Port :=
  let p1 := if f.avc.toNat < 5 then ackReplay p f.avc.toNat f.avseq else p
  if f.cvc.toNat < 5 then giveCredits p1 f.cvc.toNat f.ccnt.toNat else p1

/-- The leading message of a channel's receive buffer: its flits up to EOM, and the rest. -/
def leadMsg : List Flit → Option (List Flit × List Flit)
  | [] => none
  | f :: fs => if f.eom then some ([f], fs) else (leadMsg fs).map fun x => (f :: x.1, x.2)

def mtypeKnown (m : Byte) : Bool := decide (1 ≤ m.toNat ∧ m.toNat ≤ 13)

/-- A message's flits leave the receive buffer, and their credits fall due (R355). -/
def dropLead (p : Port) (v : Nat) : Port :=
  match leadMsg (tget p.rxParts v []) with
  | none => p
  | some x =>
    { p with rxParts := tset p.rxParts v x.2, creditsDue := tset p.creditsDue v (dueOf p v + x.1.length) }

/-- A complete message of an unlisted type: discarded with a record at its destination, else forwarded (R365, R370). -/
def strangeMsg (s : State) (n : PotIx) (k : BitVec 1) (v : Nat) : State :=
  match leadMsg (tget (portOf (potOf s n) k.toNat).rxParts v []) with
  | some (f :: fs, _) =>
    if mtypeKnown f.mtype then s
    else
      let s1 := updPort s n k fun p => dropLead p v
      let src : BitVec 16 := fieldB f.payload 16 16
      let hops := fieldN f.payload 40 4
      if ownNode s (flitDst f) then
        sendFault s1
          { status := 0, tag := fieldB f.payload 96 16, infusion := fieldB f.payload 112 12, island := potIsland n (16 + k.toNat),
            block := 6, cause := 3, addr := fieldN f.payload 128 64, detail := portNo n k, detail2 := src.toNat }
      else
        let h : MsgHdr := ⟨flitDst f, src, fieldB f.payload 32 5, BitVec.ofNat 4 hops, 0, 0, fieldB f.payload 96 16,
          fieldB f.payload 112 12, fieldB f.payload 128 64⟩
        if hops = 0 then forwardMsg s1 n k h f.mtype.toNat []
        else
          match pickPort s1 src h.srcPot h.dst with
          | some q => txPush s1 q (({ f with payload := putField f.payload 40 4 (hops - 1) } : Flit) :: fs)
          | none => forwardMsg s1 n k h f.mtype.toNat []
  | _ => s

/-- The receiver's checks, first row that applies (R357). -/
def receive (s : State) (n : PotIx) (k : BitVec 1) (f : Flit) (hcrcGood pcrcGood : Bool) : State :=
  let v := f.vc.toNat
  let p := portOf (potOf s n) k.toNat
  if !hcrcGood then
    updPort s n k fun p =>
      { pushCtrl p (nakAllFlit p) with discard := vcs.map fun v => (v, true), events := satField p.events 0 24 1 }
  else if !pcrcGood then
    updPort s n k fun p =>
      { pushCtrl p (nakFlitOf p v) with discard := tset p.discard v true, events := satField p.events 0 24 1 }
  else if f.vseq ≠ expOf p v then s
  else
    let s1 := updPort s n k fun p =>
      takeBack { p with
        expSeq := tset p.expSeq v (f.vseq + 1), discard := tset p.discard v false
        rxParts := tset p.rxParts v (tget p.rxParts v [] ++ [f]), traffic := satField p.traffic 40 40 1 } f
    strangeMsg s1 n k v

/-- ACK_TIMER: 64 flits of a channel stand unacknowledged, or 1 µs has passed since its last acknowledgement: an ACK control flit goes,
with every credit due (R358, R361). -/
def execAckTimer (n : PotIx) (k : BitVec 1) (vc : BitVec 3) (s : State) : Result :=
  let p := portOf (potOf s n) k.toNat
  whenDo ((p.state == .up || p.state == .drain) && decide (vc.toNat < 5)) s
    (updPort s n k fun p => { pushCtrl p (ackFlit p) with ackSeq := vcs.map fun v => (v, expOf p v), creditsDue := [] })

/-- IDLE: a heartbeat (R361). -/
def execIdle (_n : PotIx) (_k : BitVec 1) (s : State) : Result := .next s

/-- ACK: every channel's AVSEQ and credits (R361). -/
def execAck (n : PotIx) (k : BitVec 1) (acks : List (BitVec 12 × BitVec 12)) (s : State) : Result :=
  let p := portOf (potOf s n) k.toNat
  whenDo (p.state == .up || p.state == .drain) s
    (updPort s n k fun p =>
      (acks.take 5).zipIdx.foldl (fun x a => giveCredits (ackReplay x a.2 a.1.1) a.2 a.1.2.toNat) p)

/-- The flits of a channel from a VSEQ onward are queued for replay, in order; the eighth NAK of one flit is reported (R358). -/
def nakChan (p : Port) (v : Nat) (seq : BitVec 12) : Port × Bool :=
  let from_ := p.replay.filter fun f => f.vc.toNat == v && decide ((f.vseq - seq).toNat < 2048)
  if !(from_.any fun f => f.vseq == seq) then (p, false)
  else
    let last := tget p.nakFlit v (0, 0)
    let c := if last.1 = seq then last.2 + 1 else 1
    ({ p with replayq := (p.replayq.filter fun f => f.vc.toNat != v) ++ from_, replaySince := tset p.replaySince v p.slotNo,
              nakFlit := tset p.nakFlit v (seq, c) },
      decide (8 ≤ c))

/-- NAK: the channel is replayed from VSEQ; the eighth for one flit takes the port DOWN (R358). -/
def execNak (n : PotIx) (k : BitVec 1) (vc : BitVec 3) (vseq : BitVec 12) (s : State) : Result :=
  let p := portOf (potOf s n) k.toNat
  let r := nakChan p vc.toNat vseq
  whenDo (p.state == .up || p.state == .drain) s
    (if r.2 then portDown s n k 1 else updPort s n k fun _ => r.1)

/-- NAK_ALL: every channel is replayed from its expected VSEQ (R358). -/
def execNakAll (n : PotIx) (k : BitVec 1) (vseqs : List (BitVec 12)) (s : State) : Result :=
  let p := portOf (potOf s n) k.toNat
  let r := (vseqs.take 5).zipIdx.foldl (fun x a =>
    let t := nakChan x.1 a.2 a.1
    (t.1, x.2 || t.2)) (p, false)
  whenDo (p.state == .up || p.state == .drain) s
    (if r.2 then portDown s n k 1 else updPort s n k fun _ => r.1)

/-- INIT: the partner's values; a partner with this module's own node id takes the port DOWN with a record (R360, R363). -/
def execInit (n : PotIx) (k : BitVec 1) (node : BitVec 16) (port : BitVec 6) (_stepping : Byte)
    (reserves : List (BitVec 12)) (pool : BitVec 12) (rttNs : BitVec 24) (s : State) : Result :=
  let p := portOf (potOf s n) k.toNat
  let s1 := updPort s n k fun p =>
    { p with partner := node, partnerPort := port, reserves := (reserves.take 5).zipIdx.map fun x => (x.2, x.1.toNat),
             pool := pool.toNat, rttNs := rttNs, initGot := true }
  whenDo (p.state == .init) s
    (if node = nodeId s then
      sendFault (portDown s1 n k 6)
        { status := 0, tag := 0, infusion := 0, island := potIsland n (16 + k.toNat), block := 6, cause := 2, addr := 0,
          detail := portNo n k, detail2 := node.toNat }
    else if p.initSent then portUp s1 (portNo n k) else s1)

/-! The spare lane (R359). -/

/-- LANE_SWAP: the sender moves the failed lane to the spare. -/
def execLaneSwap (n : PotIx) (k : BitVec 1) (lane : BitVec 3) (s : State) : Result :=
  let p := portOf (potOf s n) k.toNat
  whenDo (p.state == .up || p.state == .drain) s
    (if p.txSwapped = 0xF then
      updPort s n k fun p => { p with txSwapped := lane.setWidth 4, events := satField p.events 48 8 1 }
    else portDown s n k 2)

/-- LANE_FAIL: a failed active lane is swapped for the spare, or with the spare in use takes the port DOWN. -/
def execLaneFail (n : PotIx) (k : BitVec 1) (lane : BitVec 3) (s : State) : Result :=
  let p := portOf (potOf s n) k.toNat
  whenDo (p.state == .up || p.state == .drain) s
    (if p.swapped = 0xF then
      updPort s n k fun p =>
        { pushCtrl p (laneSwapFlit lane.toNat) with swapped := lane.setWidth 4, events := satField p.events 48 8 1 }
    else portDown s n k 2)

/-! Training and failures (R360, R361). -/

/-- The port is powered, enabled and not held back by a parity fault (R4, R363, R376, R493). -/
def portMayTrain (s : State) (n : PotIx) (k : BitVec 1) : Bool :=
  potOn s n && (portOf (potOf s n) k.toNat).enable && nodeId s != 0xFFFF && bitAt s.power.pgSpt (n.toNat / 8) &&
    !regBad s (potReg n (0x9000 + 0x800 * k.toNat)) && !regBad s 0x4000

/-- What a retrain applies of the port's buffered registers (R376): LANE_LIMIT. -/
def applyPort (s : State) (n : PotIx) (k : BitVec 1) : State :=
  let key := potReg n (0x9000 + 0x800 * k.toNat)
  match bufferOf s key with
  | some v => parityEnds (dropBuffer (updPort s n k fun p => { p with laneLimit := BitVec.ofNat 20 v }) key) key
  | none => s

/-- TRAINING_RETRY: an enabled port in DOWN trains (R360). -/
def execTrainingRetry (n : PotIx) (k : BitVec 1) (s : State) : Result :=
  whenDo ((portOf (potOf s n) k.toNat).state == .down && portMayTrain s n k) s
    (updPort (applyPort s n k) n k fun p => { p with state := .training })

/-- TRAINING_LOCK: 8 lanes have locked; the spare carries the lane that failed, and the INIT exchange begins (R359, R360). -/
def execTrainingLock (n : PotIx) (k : BitVec 1) (failedLane : Option (BitVec 3)) (s : State) : Result :=
  let q := portNo n k
  whenDo ((portOf (potOf s n) k.toNat).state == .training) s
    (updPort s n k fun p =>
      { p with state := .init, swapped := (failedLane.map fun l => l.setWidth 4).getD 0xF, ctrl := [initFlit s q],
               initSent := false, initGot := false })

/-- TRAINING_TIMEOUT: 100 ms without lock (R360). -/
def execTrainingTimeout (n : PotIx) (k : BitVec 1) (s : State) : Result :=
  whenDo ((portOf (potOf s n) k.toNat).state == .training) s (portDown s n k 0)

/-- INIT_TIMEOUT: 1 ms in INIT (R360). -/
def execInitTimeout (n : PotIx) (k : BitVec 1) (s : State) : Result :=
  whenDo ((portOf (potOf s n) k.toNat).state == .init) s (portDown s n k 6)

/-- SILENT_TIMEOUT: no flit with a good HCRC for 10 µs (R361). -/
def execSilentTimeout (n : PotIx) (k : BitVec 1) (s : State) : Result :=
  whenDo (portLive (portOf (potOf s n) k.toNat)) s (portDown s n k 4)

/-- LOCK_LOSS: two or more lanes have lost FEC lock (R361). -/
def execLockLoss (n : PotIx) (k : BitVec 1) (s : State) : Result :=
  whenDo (portLive (portOf (potOf s n) k.toNat)) s (portDown s n k 3)

/-- LAST_WORDS: DOWN at once; reasons 2, 3 and 4 lose the sender's node (R362, R366). -/
def execLastWords (n : PotIx) (k : BitVec 1) (reason : BitVec 3) (s : State) : Result :=
  let p := portOf (potOf s n) k.toNat
  let s1 := portDown s n k 5
  whenDo (portLive p) s
    (if p.initGot ∧ 2 ≤ reason.toNat ∧ reason.toNat ≤ 4 ∧ !(routeOf s1 p.partner).lost then declareLost s1 p.partner else s1)

/-- A control flit acts as the receipt of its kind does (R361); the round trip that comes with an INIT is measured, a free value. Other
types have no effect. -/
def controlFlit (n : PotIx) (k : BitVec 1) (f : Flit) (s : State) : Result :=
  match f.mtype.toNat with
  | 0x81 => execAck n k (vcs.map fun v => (fieldB f.payload (32 * v) 12, fieldB f.payload (32 * v + 16) 12)) s
  | 0x82 => execNak n k (fieldB f.payload 0 3) (fieldB f.payload 8 12) s
  | 0x83 => execNakAll n k (vcs.map fun v => fieldB f.payload (16 * v) 12) s
  | 0x84 =>
    let r := takeFree s
    execInit n k (fieldB f.payload 0 16) (fieldB f.payload 16 6) (fieldB f.payload 24 8)
      (vcs.map fun v => fieldB f.payload (32 + 16 * v) 12) (fieldB f.payload 112 12) (fieldB r.1 0 24) r.2
  | 0x85 => execLaneSwap n k (fieldB f.payload 0 3) s
  | 0x86 => execLastWords n k (fieldB f.payload 0 3) s
  | _ => .next s

/-- FLIT_RECEIVE (R357): a flit whose HCRC is good and whose VC is 7 is a control flit; VC 5 and 6 are reserved (R350). -/
def execFlitReceive (n : PotIx) (k : BitVec 1) (flit : Flit) (hcrcGood pcrcGood : Bool) (s : State) : Result :=
  let p := portOf (potOf s n) k.toNat
  if hcrcGood && flit.vc == 7 then controlFlit n k flit s
  else whenDo ((p.state == .up || p.state == .drain) && (!hcrcGood || vcOk flit.vc)) s (receive s n k flit hcrcGood pcrcGood)

/-- PORT_DRAIN_TIMEOUT: the drain ends, LAST_WORDS goes three times and the port is DOWN (R362). -/
def execPortDrainTimeout (n : PotIx) (k : BitVec 1) (s : State) : Result :=
  let p := portOf (potOf s n) k.toNat
  whenDo (p.state == .drain) s
    (updPort (portDown s n k 5) n k fun x => { x with wire := some (lastWordsFlit p.reason.toNat) })

/-- ENABLE: 0 stops the port under R362 and keeps it DOWN (R376; reason 0, log entry 26). -/
def execEnable (n : PotIx) (k : BitVec 1) (on : Bool) (s : State) : Result :=
  let s1 := parityEnds (updPort s n k fun p => { p with enable := on }) (potReg n (0x9000 + 0x800 * k.toNat))
  whenDo (potPresent s n) s (if on then s1 else portStop s1 n k 0)

/-- PORT_RESET: the port stops with reason 0 and returns through TRAINING (R375). -/
def execPortReset (n : PotIx) (k : BitVec 1) (s : State) : Result :=
  whenDo (potPresent s n) s (portStop s n k 0)

end Sys2Proof.Machine
end

