-- ==== Sys2Proof/Machine/Sequencer.lean ====
section
/-!
DEFINITION. The sequencer commands: the engine command queue, fetch, control flow, scalar arithmetic, streams, SYNC words, ends
and faults (R57 to R88, R98 to R100, R296, R297).
-/

namespace Sys2Proof.Machine

/-! Commands (R62 to R64). -/

def cmdqDepth : Eng → Nat
  | .sfe => 384
  | _ => 256

/-- A register of the engine's block has a parity fault: no new command starts (R493). -/
def engParity (s : State) (n : PotIx) (e : Eng) : Bool :=
  let lo := potReg n (0x3000 + 0x1000 * engNo e)
  s.regs.parityBad.any fun k => decide (lo ≤ k) && decide (k < lo + 0x1000)

/-- The event that NOTIFY asks for (R62, R435). -/
def notifyEvent (p : Pot) (e : Eng) (c : BitVec 256) (st : Status) : Pot :=
  if ecNotify c then
    postEvent p (BitVec.ofNat 32 ((ecTag c).toNat + statusCode st * 2 ^ 16 + (engNo e + 1) * 2 ^ 24))
  else p

/-- A command that completes without running (R63, R99). -/
def engReject (s : State) (n : PotIx) (e : Eng) (c : BitVec 256) : State :=
  inflightDown (updPot s n fun p => notifyEvent p e c .rejected) (ecInf c)

/-- A command enters its queue. -/
def pushCmd (s : State) (n : PotIx) (e : Eng) (cmd : BitVec 256) : State :=
  inflightUp (updSeq s n e fun q => { q with cmdq := q.cmdq ++ [cmd] }) (ecInf cmd)

/-- The queue has room for one more command (R64). -/
def cmdqRoom (p : Pot) (e : Eng) : Bool := decide ((seqOf p e).cmdq.length < cmdqDepth e)

/-- Room has come: the oldest stalled store into the queue is made (R64). -/
def refillCmdq (s : State) (n : PotIx) (e : Eng) : State :=
  match pullFirst (fun (x : Eng × BitVec 256) => x.1 == e) (potOf s n).pushWait with
  | none => s
  | some (x, rest) => if cmdqRoom (potOf s n) e then pushCmd (updPot s n fun p => { p with pushWait := rest }) n e x.2 else s

/-- A command for an MXE that the pot does not have (R5, R228). -/
def absentCmd (s : State) (n : PotIx) (e : Eng) (cmd : BitVec 256) : State :=
  countAbsent (updPot s n fun p => notifyEvent p e cmd .absentUnit) 0 1

/-- ENGINE_COMMAND_PUSH: a brewer core pushes an engine command; its store stalls while the queue is full (R62, R64). One for an MXE that
is absent completes ABSENT_UNIT (R5, R228). -/
def execEngineCommandPush (n : PotIx) (e : Eng) (cmd : BitVec 256) (s : State) : Result :=
  let p := potOf s n
  whenDo (potOn s n && p.fwRunning && p.trayClear) s
    (if !engPresent s n e then absentCmd s n e cmd
     else if cmdqRoom p e && !(p.pushWait.any fun x => x.1 == e) then pushCmd s n e cmd
     else updPot s n fun p => { p with pushWait := p.pushWait ++ [(e, cmd)] })

/-- The sequencer's state at command start (R63). -/
def seqStart (q : Seqr) (c : BitVec 256) (rest : List (BitVec 256)) : Seqr :=
  { q with
    running := true, tag := ecTag c, infusion := ecInf c, notify := ecNotify c, pc := ecEntry c,
    ax := [(0, ecArg c 0), (1, ecArg c 1), (2, ecArg c 2), (3, ecArg c 3)], lc := [], loops := [], streams := [],
    chains := [], claims := [], cycle := q.busyTo, issued := 0, ended := false, syncWait := false, syncDone := none,
    stalled := false, heldBack := false, fetchWait := false, cmdq := rest }

/-- What an engine loads at command start: the stochastic registers of the MXE's columns and of the VXE's lanes (R220, R239), and
the SFE's fresh batch, window and offset (R266, R274, R280). The VXE also starts with no row, no word and token 0 (R252). -/
def engLoad (p : Pot) (e : Eng) (tag : BitVec 16) : Pot :=
  let lanes := fun (ctl : Word64) => (upto 128).map fun i => (i, lfsrSeed (fieldB ctl 0 32) tag i)
  match e with
  | .mxe => { p with mxe := { p.mxe with lfsr := lanes p.mxe.ctl } }
  | .vxe => { p with vxe := { p.vxe with lfsr := lanes p.vxe.ctl, token := 0, rowBuf := [], wordElems := [], wordOvf := false } }
  | .sfe => { p with sfe := { p.sfe with window := [], prevOff := 0, batch := .reset, walk := none, scatter := [], writes := [] } }

/-- ENGINE_COMMAND_START: the next command is checked and, with its permit, starts (R63, R408); a stalled store into the queue then has
room. -/
def execEngineCommandStart (n : PotIx) (e : Eng) (s : State) : Result :=
  let p := potOf s n
  let q := seqOf p e
  match q.cmdq with
  | [] => .next s
  | c :: rest =>
    if q.running || !engPresent s n e || !p.trayClear || engParity s n e then .next s
    else if !infOn s (ecInf c) n then
      let s1 := engReject (updSeq s n e fun x => { x with cmdq := rest }) n e c
      .next (refillCmdq (updPot s1 n fun p => { p with pmt := permitFinish p.pmt (engClass e) 0 (!rest.isEmpty) }) n e)
    else
      whenDo (permitHeld p.pmt (engClass e) 0) s
        (refillCmdq (updPot s n fun p =>
          { engLoad (setSeq p e (seqStart q c rest)) e (ecTag c) with pmt := permitTake p.pmt (engClass e) 0 (ecTag c) (ecInf c) }) n e)

/-- A write to another module has been acknowledged, or lost with its stream (R271, R310, R372). -/
def writeDone (p : Pot) (x : BitVec 16 × BitVec 32) : Bool :=
  let e := streamEnt p x.1
  e.lossy || decide ((e.acked - x.2).toNat < 2 ^ 31) || decide (2 ^ 31 ≤ (e.last - x.2).toNat)

/-- Every stream has finished and every push has been accepted (R63); the SFE's reads, writes and leaf commands are done (R271). -/
def engDrained (p : Pot) (e : Eng) : Bool :=
  ((seqOf p e).streams.all fun x => x.2.stopped) && !(p.remote.any fun r => match r.what with | .burst g _ => g == e | _ => false) &&
    match e with
    | .mxe => p.mxe.ftq.all fun f => f.state != .filling
    | .vxe => p.vxe.summaryOut.isEmpty
    | .sfe => p.sfe.tickets.isEmpty && p.sfe.bags.isEmpty && p.sfe.writes.all (writeDone p)

/-- END: the command's last word; it is held back until the streams have finished and the pushes are accepted (R63, R70, R84). -/
def execEndWord (n : PotIx) (e : Eng) (s : State) : Result :=
  seqIssue n e (fun w => wKind w == kindEnd)
    (fun w t =>
      if engDrained (potOf t n) e then
        seqPlain n e t fun q => { seqSpend q w 1 with ended := true, loops := [], chains := [] }
      else .holdOther) s

/-- ENGINE_COMMAND_COMPLETE: the END word has issued and nothing is outstanding (R63). -/
def execEngineCommandComplete (n : PotIx) (e : Eng) (s : State) : Result :=
  let q := seqOf (potOf s n) e
  whenDo (q.running && q.ended && engDrained (potOf s n) e) s (engFinish s n e .ok)

/-! Fetch (R61). -/

def fetchWho (q : Seqr) : Who := ⟨.fetch, .eng, q.tag, q.infusion⟩

/-- ICACHE_FILL: the missing line is read from the program region through the ENG port (R61, R386). -/
def execIcacheFill (n : PotIx) (e : Eng) (s : State) : Result :=
  let q := seqOf (potOf s n) e
  let line := wordByte e q.pc / 256
  let a : BitVec 41 := programBase s n q.infusion + BitVec.ofNat 41 (line * 256)
  if engPresent s n e && q.running && q.fetchWait && addrServed s n a then
    let r := readAddrN n (fetchWho q) 8 s a
    .next (updSeq r.1 n e fun x => cacheFill x line (r.2.map AddrRead.bytes).flatten (r.2.map AddrRead.poison))
  else .next s

/-! NOP, LOOP, BRANCH (R67, R72 to R74, R86 to R88). -/

/-- NOP: one engine cycle. -/
def execNop (n : PotIx) (e : Eng) (s : State) : Result :=
  seqIssue n e (fun w => wKind w == kindNop) (fun w t => seqPlain n e t fun q => seqNext q w) s

/-- The LOOP word's effect once its LEVEL is right (R73). -/
def loopEnter (q : Seqr) (w : ColWord) : Seqr :=
  let body := fieldN w 35 12
  let count := if bitAt w 34 then (lcOf q (fieldN w 32 2)).toNat else fieldN w 48 16
  let q1 := seqSpend q w 1
  if count = 0 then seqGo q1 (q1.pc + 1 + BitVec.ofNat 32 body)
  else
    { q1 with
      loops := ⟨q1.pc + 1, q1.pc + 1 + BitVec.ofNat 32 body, count, bitAt w 68, fieldB w 64 4, fieldB w 72 24⟩ :: q1.loops
      pc := q1.pc + 1, issued := 0 }

/-- LOOP (R72, R73). -/
def execLoop (n : PotIx) (e : Eng) (s : State) : Result :=
  seqIssue n e (fun w => wKind w == kindLoop)
    (fun w t =>
      if fieldN w 32 2 = (seqOf (potOf t n) e).loops.length then seqPlain n e t fun q => loopEnter q w
      else .fault t 1 0xFF) s

/-- An FP32 summary field as operand A: truncated toward zero and saturated; NaN gives 0 (R88). -/
def branchOfF32 (x : F32) : BitVec 48 :=
  let lim : Nat := 2 ^ 47 - 1
  match fvOfF32 x with
  | .nan => 0
  | .inf neg => BitVec.ofInt 48 (if neg then -(lim : Int) else lim)
  | .fin neg m e =>
    let v := Nat.min lim (if 0 ≤ e then m * 2 ^ (Nat.min 60 e.toNat) else m / 2 ^ (-e).toNat)
    BitVec.ofInt 48 (if neg then -(v : Int) else v)

/-- The summary field SFIELD selects, and whether it is an FP32 field (R255). -/
def summaryField (w : ColWord) (f : Nat) : BitVec 32 × Bool :=
  match f with
  | 0 => (fieldB w 0 32, true)
  | 1 => (fieldB w 32 32, false)
  | 2 => (fieldB w 64 32, true)
  | 3 => (fieldB w 96 32, true)
  | 4 => (fieldB w 128 32, false)
  | 5 => (fieldB w 160 32, false)
  | 6 => (BitVec.ofNat 32 (fieldN w 192 16), false)
  | _ => (BitVec.ofNat 32 (fieldN w 240 16), false)

/-- The conditions of R87. -/
def branchTaken (cond : Nat) (a b : BitVec 48) : Bool :=
  match cond with
  | 0 => true
  | 1 => a == b
  | 2 => a != b
  | 3 => decide (a.toInt < b.toInt)
  | 4 => decide (b.toInt ≤ a.toInt)
  | 5 => decide (a.toNat < b.toNat)
  | 6 => decide (b.toNat ≤ a.toNat)
  | 7 => (a &&& b) != 0
  | _ => (a &&& b) == 0

/-- A taken branch adds 4 engine cycles, 6 on stepping A0 (R69). -/
def branchCost (st : Stepping) : Nat := if st = .a0 then 6 else 4

/-- Where a branch goes, with operand A known (R69, R74, R86). -/
def branchGo (st : Stepping) (q : Seqr) (w : ColWord) (a : BitVec 48) : Seqr :=
  let b := if bitAt w 45 then (fieldB w 80 16).signExtend 48 else axOf q (fieldN w 46 4)
  let q1 := seqSpend q w 1
  if branchTaken (fieldN w 32 4) a b then
    { q1 with pc := q1.pc + (fieldB w 64 16).signExtend 32, issued := 0, busyTo := q1.busyTo + branchCost st }
  else seqGo q1 (q1.pc + 1)

/-- The target lies in the body of the innermost open level (R74). -/
def branchInside (q : Seqr) (w : ColWord) : Bool :=
  let t := q.pc + (fieldB w 64 16).signExtend 32
  match q.loops with
  | [] => true
  | l :: _ => decide (l.start.toNat ≤ t.toNat) && decide (t.toNat < l.stop.toNat)

/-- BRANCH (R86 to R88). -/
def branchBody (n : PotIx) (e : Eng) (w : ColWord) (t : State) : SeqIssue :=
  let q := seqOf (potOf t n) e
  let st := t.fuses.stepping
  if !branchInside q w || (bitAt w 36 && decide (8 ≤ fieldN w 41 4)) then .fault t 1 0xFF
  else if bitAt w 36 then
    match q.summary with
    | [] => .hold
    | x :: rest =>
      let t1 := updSeq t n e fun q => { q with summary := rest }
      if x.poison then .fault t1 5 0xFF
      else
        let f := summaryField x.word (fieldN w 41 4)
        let a := if f.2 then branchOfF32 f.1 else f.1.setWidth 48
        let nan := f.2 && f32IsNan f.1
        seqPlain n e t1 fun q => branchGo st { q with nanBranch := q.nanBranch || nan } w a
  else seqPlain n e t fun q => branchGo st q w (axOf q (fieldN w 37 4))

def execBranch (n : PotIx) (e : Eng) (s : State) : Result :=
  seqIssue n e (fun w => wKind w == kindBranch) (branchBody n e) s

/-! SCALAR (R75 to R77). -/

def scalarDst (w : ColWord) : Nat := fieldN w 36 4
/-- Operand B: IMM sign-extended, or ax[SB]. -/
def scalarB (q : Seqr) (w : ColWord) : BitVec 48 :=
  if bitAt w 48 then (fieldB w 64 32).signExtend 48 else axOf q (fieldN w 44 4)

/-- A SCALAR word of one SOP that writes an address register. -/
def scalarWord (n : PotIx) (e : Eng) (sop : Nat) (f : Seqr → ColWord → BitVec 48) (s : State) : Result :=
  seqIssue n e (fun w => wKind w == kindScalar && fieldN w 32 4 == sop)
    (fun w t => seqPlain n e t fun q => seqNext (setAx q (scalarDst w) (f q w)) w) s

/-- The two-operand form: A is ax[SA]. -/
def scalarTwo (n : PotIx) (e : Eng) (sop : Nat) (f : BitVec 48 → BitVec 48 → BitVec 48) (s : State) : Result :=
  scalarWord n e sop (fun q w => f (axOf q (fieldN w 40 4)) (scalarB q w)) s

/-- ADD: A + B modulo 2^48. -/
def execAdd (n : PotIx) (e : Eng) (s : State) : Result := scalarTwo n e 0 (fun a b => a + b) s
/-- SUB: A − B. -/
def execSub (n : PotIx) (e : Eng) (s : State) : Result := scalarTwo n e 1 (fun a b => a - b) s
/-- SHL: A shifted left by B; 0 when B ≥ 48. -/
def execShl (n : PotIx) (e : Eng) (s : State) : Result :=
  scalarTwo n e 2 (fun a b => if b.toNat < 48 then a <<< b.toNat else 0) s
/-- SHR: logical right shift; 0 when B ≥ 48. -/
def execShr (n : PotIx) (e : Eng) (s : State) : Result :=
  scalarTwo n e 3 (fun a b => if b.toNat < 48 then a >>> b.toNat else 0) s
/-- SAR: arithmetic right shift; all sign bits when B ≥ 48. -/
def execSar (n : PotIx) (e : Eng) (s : State) : Result := scalarTwo n e 4 (fun a b => a.sshiftRight (Nat.min 48 b.toNat)) s
/-- MIN: signed minimum. -/
def execMin (n : PotIx) (e : Eng) (s : State) : Result := scalarTwo n e 5 (fun a b => if a.toInt < b.toInt then a else b) s
/-- MAX: signed maximum. -/
def execMax (n : PotIx) (e : Eng) (s : State) : Result := scalarTwo n e 6 (fun a b => if a.toInt < b.toInt then b else a) s
/-- SLT: 1 if A < B, signed. -/
def execSlt (n : PotIx) (e : Eng) (s : State) : Result := scalarTwo n e 7 (fun a b => if a.toInt < b.toInt then 1 else 0) s
/-- SEQ: 1 if A = B. -/
def execSeq (n : PotIx) (e : Eng) (s : State) : Result := scalarTwo n e 8 (fun a b => if a = b then 1 else 0) s
/-- LUI: bits [47:32] take IMM[15:0]. -/
def execLui (n : PotIx) (e : Eng) (s : State) : Result :=
  scalarWord n e 9 (fun q w => putField (axOf q (scalarDst w)) 32 16 (fieldN w 64 16)) s
/-- LI: IMM sign-extended. -/
def execLi (n : PotIx) (e : Eng) (s : State) : Result := scalarWord n e 10 (fun _ w => (fieldB w 64 32).signExtend 48) s

/-- WLC: lc[DST] takes A[31:0]; an open level keeps its latched count (R74). -/
def execWlc (n : PotIx) (e : Eng) (s : State) : Result :=
  seqIssue n e (fun w => wKind w == kindScalar && fieldN w 32 4 == 11)
    (fun w t => seqPlain n e t fun q =>
      seqNext (setLc q (fieldN w 36 2) (fieldB (axOf q (fieldN w 40 4)) 0 32)) w) s

/-- RLC: lc[SA], zero-extended. -/
def execRlc (n : PotIx) (e : Eng) (s : State) : Result :=
  scalarWord n e 12 (fun q w => (lcOf q (fieldN w 40 2)).setWidth 48) s

/-! Streams (R78 to R81). -/

/-- Index i of a generator; four 16-bit indices are kept in one word. -/
def agIx (x : Stream) (i : Nat) : Nat := fieldN x.ix (16 * i) 16

/-- The address of the next burst, modulo 2^48 (R80). -/
def streamAddr (x : Stream) : BitVec 48 :=
  let term := fun (i : Nat) => (agIx x i : Int) * (fieldB x.desc (32 * i) 32).toInt
  x.base + BitVec.ofInt 48 (term 0 + term 1 + term 2 + term 3)

/-- Advance the indices; true when the generator has wrapped (R80). -/
def agAdvance (x : Stream) : BitVec 64 × Bool :=
  let cnt := fun (i : Nat) => fieldN x.desc (128 + 16 * i) 16
  if agIx x 0 ≠ cnt 0 then (putField x.ix 0 16 (agIx x 0 + 1), false)
  else if agIx x 1 ≠ cnt 1 then (putField (putField x.ix 0 16 0) 16 16 (agIx x 1 + 1), false)
  else if agIx x 2 ≠ cnt 2 then (putField (putField x.ix 0 32 0) 32 16 (agIx x 2 + 1), false)
  else if agIx x 3 ≠ cnt 3 then (putField (putField x.ix 0 48 0) 48 16 (agIx x 3 + 1), false)
  else (0, true)

/-- Bytes of a burst. -/
def burstLen (x : Stream) : Nat := 2 ^ fieldN x.desc 240 4

/-- AGPOS: the address of the next burst of a generator; of one that the command has not started it is a free value. -/
def execAgpos (n : PotIx) (e : Eng) (s : State) : Result :=
  seqIssue n e (fun w => wKind w == kindScalar && fieldN w 32 4 == 13)
    (fun w t =>
      match streamOf (seqOf (potOf t n) e) (fieldN w 40 3) with
      | some x => seqPlain n e t fun q => seqNext (setAx q (scalarDst w) (streamAddr x)) w
      | none =>
        let f := takeFree t
        seqPlain n e f.2 fun q => seqNext (setAx q (scalarDst w) (fieldB f.1 0 48)) w) s

/-- The key of a sequencer's descriptor table entry: space 0x11, 256 × sequencer + entry (R486). -/
def descKey (n : PotIx) (e : Eng) (i : Nat) : Nat := entryKey (potWin n) 0x11 (256 * engNo e + i)

/-- A stream as its STREAM word starts it (R78, R80). -/
def newStream (q : Seqr) (w : ColWord) : Stream :=
  let d := tget q.descs (fieldN w 42 8) 0
  let count :=
    if bitAt w 56 then some (fieldN (axOf q (fieldN w 57 4)) 0 32)
    else if fieldN w 64 32 = 2 ^ 32 - 1 then none else some (fieldN w 64 32)
  { dirOut := bitAt w 35, space1 := bitAt w 36,
    base := fieldB d 192 48 + (if bitAt w 37 then axOf q (fieldN w 38 4) else 0),
    desc := d, queue := fieldB w 50 6, left := count, ix := 0, buf := [], bufPoison := false, stopped := decide (count = some 0) }

/-- STREAM (R78, R81): a busy generator holds it back; an entry with a parity fault or a reserved burst size is a bad word. -/
def execStream (n : PotIx) (e : Eng) (s : State) : Result :=
  seqIssue n e (fun w => wKind w == kindStream)
    (fun w t =>
      let q := seqOf (potOf t n) e
      let ag := fieldN w 32 3
      let x := newStream q w
      let b := fieldN x.desc 240 4
      if agBusy q ag then .holdOther
      else if regBad t (descKey n e (fieldN w 42 8)) || decide (b < 5) || decide (11 < b) then .fault t 1 (fieldN w 50 6)
      else seqPlain n e t fun q => seqNext { q with streams := tset q.streams ag x } w) s

/-- What a burst's address comes to (R81, R368). -/
inductive BurstAt where
  | bad
  | module_ (a : Nat)
  | tray (a : Nat)
  | remote (node : BitVec 16) (a : Word64)
  deriving DecidableEq, Repr

def burstAt (s : State) (x : Stream) : BurstAt :=
  let a := streamAddr x
  if x.space1 then
    if fieldN a 41 7 ≠ 0 ∨ 2048 < a.toNat % 2048 + burstLen x then .bad else .module_ a.toNat
  else if bitAt a 47 then
    let d : BitVec 16 := (fieldB a 32 12).setWidth 16
    if fieldN a 44 3 ≠ 0 then .bad
    else if ownNode s d then .tray (fieldN a 0 32) else .remote d (a.setWidth 64)
  else if fieldN a 32 16 ≠ 0 then .bad
  else .tray (fieldN a 0 32)

def burstWho (q : Seqr) : Who := ⟨.tensor, .eng, q.tag, q.infusion⟩

/-- Pieces of 32 B from a byte address, each with the poison of the words it touches. -/
def readPieces (n : PotIx) (w : Who) : (k : Nat) → State → Nat → State × List (List Byte × Bool)
  | 0, s, _ => (s, [])
  | k + 1, s, a =>
    let r := readAddrBytes s n w a 32
    let t := readPieces n w k r.1 (a + 32)
    (t.1, r.2 :: t.2)

/-- Pieces of a tray of this module. A pot that is not in service gives poison with free data. -/
def trayPieces : (k : Nat) → State → Nat → State × List (List Byte × Bool)
  | 0, s, _ => (s, [])
  | k + 1, s, a =>
    let r : State × List Byte × Bool :=
      if potOn s (BitVec.ofNat 5 (a / 2 ^ 27)) then (s, trayRead s a 32, (trayPoison s a 32).any id)
      else let f := takeFreeBytes 32 s; (f.2, f.1, true)
    let t := trayPieces k r.1 (a + 32)
    (t.1, r.2 :: t.2)

/-- Write pieces of 32 B at a module address. -/
def writePieces (n : PotIx) (w : Who) : State → Nat → List (List Byte × Bool) → State
  | s, _, [] => s
  | s, a, x :: xs => writePieces n w (writeAddrBytes n w 2 s a x.1 x.2) (a + 32) xs

/-- Write pieces into a tray of this module; one that is not in service takes nothing. -/
def writeTrayPieces : State → Nat → List (List Byte × Bool) → State
  | s, _, [] => s
  | s, a, x :: xs =>
    writeTrayPieces (if potOn s (BitVec.ofNat 5 (a / 2 ^ 27)) then trayWrite s a x.1 x.2 else s) (a + 32) xs

/-- Pop pieces of 32 B from a queue. -/
def popPieces (n : PotIx) (qi : Nat) : (k : Nat) → State → State × List (List Byte × Bool)
  | 0, s => (s, [])
  | k + 1, s =>
    let r := qPop s n qi 32
    let t := popPieces n qi k r.1
    (t.1, r.2 :: t.2)

/-- A burst has moved: the count falls and the indices step; at its end the stream completes or discards its partial element
(R80, R81). -/
def streamStep (s : State) (n : PotIx) (e : Eng) (ag : Nat) (x : Stream) : State :=
  let a := agAdvance x
  let left := x.left.map fun k => k - 1
  let stop := decide (left = some 0) || (x.left.isNone && a.2)
  let s1 := updSeq s n e fun q => { q with streams := tset q.streams ag { x with ix := a.1, left := left, stopped := stop } }
  if !stop then s1
  else
    let qi := x.queue.toNat
    let q := queueOf (potOf s1 n) qi
    if x.dirOut then
      if q.headOff = 0 then s1
      else updPot s1 n fun p => setQueue p qi (qAdvanceHead q (qElem q - q.headOff))
    else if q.tailOff = 0 then s1
    else qPush s1 n qi (List.replicate (qElem q - q.tailOff) 0) false

/-- A stream's fault is the sequencer's (R81). -/
def burstFault (s : State) (n : PotIx) (e : Eng) (x : Stream) : State :=
  seqFault s n e 1 ((wordAt (seqOf (potOf s n) e) e).getD 0) x.queue.toNat

/-- A burst in: memory to queue. -/
def burstIn (s : State) (n : PotIx) (e : Eng) (ag : Nat) (x : Stream) : State :=
  let q := seqOf (potOf s n) e
  let k := burstLen x / 32
  let push := fun (r : State × List (List Byte × Bool)) => streamStep (qPushAll n x.queue.toNat r.2 r.1) n e ag x
  match burstAt s x with
  | .bad => burstFault s n e x
  | .module_ a => if addrServed s n (BitVec.ofNat 41 a) then push (readPieces n (burstWho q) k s a) else s
  | .tray a => push (trayPieces k s a)
  | .remote d a => sendRead s n d a q.tag q.infusion (burstLen x) (.burst e (BitVec.ofNat 3 ag))

/-- A burst out: queue to memory. -/
def burstOut (s : State) (n : PotIx) (e : Eng) (ag : Nat) (x : Stream) : State :=
  let q := seqOf (potOf s n) e
  let r := popPieces n x.queue.toNat (burstLen x / 32) s
  let go := fun (t : State) => streamStep t n e ag x
  match burstAt s x with
  | .bad => burstFault s n e x
  | .module_ a => if addrServed s n (BitVec.ofNat 41 a) then go (writePieces n (burstWho q) r.1 a r.2) else s
  | .tray a => go (writeTrayPieces r.1 a r.2)
  | .remote d a =>
    let o := streamOpen s n d
    if o.2 then
      let t := popPieces n x.queue.toNat (burstLen x / 32) o.1
      go (sendWrite t.1 n d a q.tag q.infusion (t.2.map Prod.fst).flatten (t.2.map Prod.snd))
    else s

/-- The queue agents of a stream are the stream unit; a queue of another agent is a bad word (R56, R57). -/
def streamMay (p : Pot) (x : Stream) : Bool :=
  if x.dirOut then mayPop p streamAgent x.queue.toNat else mayPush p streamAgent x.queue.toNat

/-- STREAM_BURST: a running generator moves one burst, when its queue has the elements or the room (R80, R81). -/
def execStreamBurst (n : PotIx) (e : Eng) (ag : BitVec 3) (s : State) : Result :=
  let p := potOf s n
  let q := seqOf p e
  match streamOf q ag.toNat with
  | none => .next s
  | some x =>
    let k := queueOf p x.queue.toNat
    if x.stopped || !q.running || !engPresent s n e ||
        p.remote.any (fun r => match r.what with | .burst g a => g == e && a == ag | _ => false) then .next s
    else if !streamMay p x then .next (burstFault s n e x)
    else if x.dirOut then .next (if burstLen x ≤ qReadable k then burstOut s n e ag.toNat x else s)
    else .next (if burstLen x ≤ qWritable k then burstIn s n e ag.toNat x else s)

/-- QUEUE_ELEMENT_AVAILABLE: 16 engine cycles after its last byte, a pushed element becomes available to its popper (R57). -/
def execQueueElementAvailable (n : PotIx) (queue : BitVec 6) (s : State) : Result :=
  let q := queueOf (potOf s n) queue.toNat
  whenDo (decide (0 < q.pushed)) s (updPot s n fun p => setQueue p queue.toNat { q with pushed := q.pushed - 1 })

/-! SYNC (R296, R297, R302). -/

def syYop (w : ColWord) : BitVec 4 := fieldB w 32 4
def syPot (w : ColWord) : PotIx := fieldB w 47 5
def syIndex (w : ColWord) : BitVec 16 := fieldB w 52 16
def syNode (w : ColWord) : BitVec 16 := fieldB w 68 16

/-- The SYNC body: no reserved YOP, unused fields null, an even INDEX on a barrier, a valid NODE (R68, R292, R296, R363). -/
def syncOk (w : ColWord) : Bool :=
  let y := (syYop w).toNat
  decide (y ≤ 8) && fieldN w 84 12 == 0 && nullIf (y != 4) (fieldN w 36 2) 0 && nullIf (y != 1) (fieldN w 38 1) 0 &&
    nullIf (y == 0 || y == 3) (fieldN w 39 4) 0 && nullIf (!(y == 0 || y == 3 || y == 4)) (fieldN w 43 4) 0 &&
    (!yopBarrier (syYop w) || fieldN w 52 1 == 0) &&
    (decide (fieldN w 68 16 < 4096) || fieldN w 68 16 == 0xFFFF)

/-- The operand: ax[AXO], sign-extended for SIGNAL and zero-extended otherwise (R296). -/
def syncOperand (q : Seqr) (w : ColWord) : Word64 :=
  let v := axOf q (fieldN w 39 4)
  if syYop w = 5 then v.signExtend 64 else v.setWidth 64

/-- The word goes on: AXD takes VALUE[47:0] for READ, EMPTY and WAIT (R296). Where the operation ended without one the value is
free. -/
def syncFinish (n : PotIx) (e : Eng) (w : ColWord) (t : State) (st : Status) (v : Word64) : SeqIssue :=
  let y := (syYop w).toNat
  let q := seqOf (potOf t n) e
  if st = .poisoned then .fault t 5 0xFF
  else if st = .rejected ∧ yopBarrier (syYop w) then .fault t 1 0xFF
  else
    let t0 :=
      if st = .strandedSignal then
        sendFault (sncCount t n 56 16)
          { status := 7, tag := q.tag, infusion := q.infusion, island := potIsland n 4, block := 3, cause := 2,
            addr := (syPot w).toNat * 2 ^ 16 + (syIndex w).toNat, detail := (syNode w).toNat, detail2 := 0 }
      else t
    let done := fun (q : Seqr) => { q with syncWait := false, syncDone := none }
    if y = 0 ∨ y = 3 ∨ y = 4 then
      let f := if st = .ok then (v, t0) else takeFree t0
      seqPlain n e f.2 fun q => seqNext (setAx (done q) (fieldN w 43 4) (fieldB f.1 0 48)) w
    else seqPlain n e t0 fun q => seqNext (done q) w

/-- Send the operation to its word. -/
def syncSend (n : PotIx) (e : Eng) (w : ColWord) (t : State) : State :=
  let q := seqOf (potOf t n) e
  let a := Agent.sequencer n e
  let t1 := updSeq t n e fun x => { x with syncWait := true, syncDone := none }
  if ownNode t (syNode w) then
    sncArrive t1 (syPot w) ⟨syIndex w, syYop w, fieldB w 36 2, bitAt w 38, syncOperand q w, a, q.tag, q.infusion, 0⟩
  else
    issueRemote t1 n (syNode w)
      ⟨a, wordAddr (syPot w) (syIndex w), syYop w, bitAt w 38, syncOperand q w, q.tag, q.infusion⟩ (fieldN w 36 2)

/-- The effect of a SYNC word: one that is answered goes on at once, a posted remote one as well; any other is held back. -/
def syncBodyOf (n : PotIx) (e : Eng) (w : ColWord) (t : State) : SeqIssue :=
  if !syncOk w then .fault t 1 0xFF
  else
    match (seqOf (potOf t n) e).syncDone with
    | some r => syncFinish n e w t r.1 r.2
    | none =>
      if ownNode t (syNode w) && !potOn t (syPot w) then .hold
      else
        let t1 := syncSend n e w t
        match (seqOf (potOf t1 n) e).syncDone with
        | some r => syncFinish n e w t1 r.1 r.2
        | none =>
          if !ownNode t (syNode w) && (syYop w == 1 || syYop w == 5) then syncFinish n e w t1 .ok 0
          else .go (seqHold t1 n e)

/-- SYNC (R296, R297). -/
def execSync (n : PotIx) (e : Eng) (s : State) : Result :=
  seqIssue n e (fun w => wKind w == kindSync) (syncBodyOf n e) s

/-! Limits, failures and control (R98 to R100). -/

/-- SEQ_STALL_TIMEOUT: one word has been held back for longer than STALL_US (R98). -/
def execSeqStallTimeout (n : PotIx) (e : Eng) (s : State) : Result :=
  let q := seqOf (potOf s n) e
  whenDo (q.running && (q.heldBack || q.fetchWait) && decide (q.stallUs ≠ 0)) s
    (seqFault s n e 7 ((wordAt q e).getD 0) 0xFF)

/-- Stop one sequencer that runs a command of a failed infusion and stands at a word boundary, and reject its queued commands of it
(R99). -/
def failEngine (inf : BitVec 12) (s : State) (x : PotIx × Eng) : State :=
  let q := seqOf (potOf s x.1) x.2
  let s1 := if q.running && q.infusion == inf && !wordBegun (potOf s x.1) x.2 then seqFault s x.1 x.2 8 ((wordAt q x.2).getD 0) 0xFF else s
  let out := (seqOf (potOf s1 x.1) x.2).cmdq.filter fun c => ecInf c == inf
  let s2 := runAll (fun t c => engReject t x.1 x.2 c) out
    (updSeq s1 x.1 x.2 fun q => { q with cmdq := q.cmdq.filter fun c => ecInf c != inf })
  runAll (fun t _ => refillCmdq t x.1 x.2) out s2

/-- An LU that was still to run a leaf command answers with cause INFUSION. -/
def neverRan (p : Pot) (r : LeafRun) (x : Nat × Nat) : Option LuAnswer :=
  if r.todo.contains x.1 && !(r.answers.any fun a => a.lu == x.2) &&
      !((luOf p x.2).cmd.any fun c => c.raw == r.raw) then some ⟨x.2, .none, false, some 9, 0, 0⟩
  else none

/-- A run of a failed infusion is delivered to no further channel. -/
def failRun (inf : BitVec 12) (p : Pot) (r : LeafRun) : LeafRun :=
  if lcInf r.raw = inf then { r with answers := r.answers ++ r.expected.filterMap (neverRan p r), todo := [] } else r

/-- Stop the leaf work of a failed infusion on a pot: LUs that stand at a microword boundary, commands not yet delivered, and slots loaded
for them (R99, R137). -/
def failLeaf (inf : BitVec 12) (s : State) (n : PotIx) : State :=
  let p := potOf s n
  let unload := fun (k : Chan) => if k.loadedFor.any fun c => lcInf c == inf then { k with loadedFor := none } else k
  let p1 := { p with runs := p.runs.map (failRun inf p), chans := p.chans.map fun e => (e.1, unload e.2) }
  let lus := (p.lus.filter fun e => e.2.cmd.isSome && !e.2.done && e.2.infusion == inf && e.2.rep == 0).map Prod.fst
  let s1 := runAll (fun t i => luFault t n i 9 0) lus (setPot s n p1)
  let out := (potOf s1 n).lucq.filter fun q => lcInf q.raw == inf
  refillLeaf (runAll (fun t q => leafRefuse t n q .rejected) out
    (updPot s1 n fun p => { p with lucq := p.lucq.filter fun q => lcInf q.raw != inf })) n

/-- A SAVE or UNLOAD that drains an infusion which fails completes REJECTED (R128). -/
def failDrains (s : State) (inf : BitVec 12) : State :=
  let out := s.inf.drains.filter fun d => d.infusion == inf
  runAll (fun t d => answerMember t d.pot (simpleAns d.cmd .rejected)) out
    { s with inf := { s.inf with drains := s.inf.drains.filter fun d => d.infusion != inf } }

/-- A sequencer or an LU of a pot is still inside a word or microword of the infusion, or a burst of it is in progress. -/
def infInside (s : State) (inf : BitVec 12) (n : PotIx) : Bool :=
  ([Eng.mxe, .vxe, .sfe].any fun e => (seqOf (potOf s n) e).running && (seqOf (potOf s n) e).infusion == inf) ||
    ((potOf s n).lus.any fun e => e.2.cmd.isSome && !e.2.done && e.2.infusion == inf) ||
    (potOf s n).remote.any fun r => match r.what with | .lastBurst _ _ i => i == inf | _ => false

/-- The failed infusion is FAULTED once its commands have ended; until then the stop reaches those that have come to a boundary (R99,
R125). -/
def failInfusion (s : State) (inf : BitVec 12) : State :=
  let ps := enabledPots s
  let s1 := runAll (failEngine inf) ((ps.map fun n => [(n, Eng.mxe), (n, Eng.vxe), (n, Eng.sfe)]).flatten) s
  let s2 := runAll (failLeaf inf) ps s1
  if ps.any (infInside s2 inf) then s2 else setInf (if (infOf s2 inf).state = 3 then failDrains s2 inf else s2) inf { infOf s2 inf with state := 4, failing := false }

/-- INFUSION_FAIL: a command of the infusion has faulted, and the whole infusion fails (R99). -/
def execInfusionFail (inf : BitVec 12) (s : State) : Result :=
  whenDo (inf != 0 && (infOf s inf).failing) s (failInfusion s inf)

/-- HALT: the sequencer stops issuing at the next word boundary, or resumes (R100). -/
def execHalt (n : PotIx) (e : Eng) (on : Bool) (s : State) : Result :=
  whenDo (engPresent s n e) s (updSeq s n e fun q => { q with halt := on })

/-- INVAL: every instruction-cache line is invalidated at the program boundary, at once when no command runs (R100). -/
def execInval (n : PotIx) (e : Eng) (s : State) : Result :=
  let s1 := updSeq s n e fun q => { q with invalPending := true }
  whenDo (engPresent s n e) s (if (seqOf (potOf s n) e).running then s1 else boundary s1 n e)

end Sys2Proof.Machine
end

