-- ==== Sys2Proof/Machine/Messages.lean ====
section
/-!
DEFINITION. Drizor messages as they arrive at an entry port: remote writes with their committed-through numbers, remote reads,
sync operations and their deferral, stream acknowledgements and RESYNC, route and stream tables (R308 to R313, R364 to R372).
-/

namespace Sys2Proof.Machine

/-! Taking a message (R350, R360, R365, R369). -/

/-- The complete message at the front of its channel's receive buffer is this one: MTYPE and header agree. -/
def msgFront (p : Port) (mtype : Nat) (h : MsgHdr) : Bool :=
  match leadMsg (tget p.rxParts (vcOf mtype) []) with
  | some (f :: _, _) => f.som && f.mtype.toNat == mtype && fieldN f.payload 0 192 == natOfBytes (hdrBytes h)
  | _ => false

/-- A message is taken when it stands complete at the front of its channel at a port that is UP or draining. It leaves the buffer;
one for another node is forwarded, one for this module has its effect (R360, R365). -/
def takeMsg (n : PotIx) (k : BitVec 1) (h : MsgHdr) (mtype : Nat) (body : List Byte) (effect : State → State) (s : State) :
    Result :=
  let p := portOf (potOf s n) k.toNat
  let s1 := updPort s n k fun p => dropLead p (vcOf mtype)
  whenDo ((p.state == .up || p.state == .drain) && msgFront p mtype h) s
    (if ownNode s h.dst then effect s1 else forwardMsg s1 n k h mtype body)

/-! Committed-through numbers (R308, R310). -/

def ctKey (src : BitVec 16) (p : PotIx) : Nat := src.toNat * 32 + p.toNat
def ctOf (p : Port) (key : Nat) : Ct := tget p.cts key ⟨0, [], 0⟩

/-- a ≤ b within the window of numbers modulo 2^32 (R310). -/
def seqLe (a b : BitVec 32) : Bool := decide ((b - a).toNat < 2 ^ 31)

/-- CT moves over the committed numbers that follow it; `fuel` bounds them by their count. -/
def ctRun : (fuel : Nat) → Ct → Ct
  | 0, c => c
  | f + 1, c =>
    if c.beyond.contains (c.ct + 1) then ctRun f { c with ct := c.ct + 1, beyond := c.beyond.filter (· != c.ct + 1) } else c

/-- The write with number `x` has been committed. -/
def ctCommit (c : Ct) (x : BitVec 32) : Ct :=
  if seqLe x c.ct then c else ctRun (c.beyond.length + 1) { c with beyond := c.beyond ++ [x] }

/-- STREAM_ACK carries CT to the stream's source pot, which ADDR names (R371). -/
def sendStreamAck (s : State) (n : PotIx) (k : BitVec 1) (src : BitVec 16) (sp : PotIx) : State :=
  let key := ctKey src sp
  let c := ctOf (portOf (potOf s n) k.toNat) key
  sendMsg (updPort s n k fun p => { p with cts := tset p.cts key { c with acked := c.ct } }) n src 7 0 0 0 (sp.setWidth 64)
    (bytesOfNat 4 c.ct.toNat)

/-- Poison of piece i of a body. -/
def bitPieces (data : List Byte) (poison : Word64) : List (List Byte × Bool) :=
  (chunks 32 64 data).zipIdx.map fun x => (x.1, bitAt poison x.2)

/-- A remote write is committed to its tray, and its number counts toward CT (R308, R310, R371). One for a pot that is not in
service is never committed. -/
def commitWrite (n : PotIx) (k : BitVec 1) (h : MsgHdr) (data : List Byte) (poison : Word64) (s : State) : State :=
  let a := fieldN h.addr 0 32
  if !potOn s (BitVec.ofNat 5 (a / 2 ^ 27)) then s
  else
    let key := ctKey h.src h.srcPot
    let s1 := updPort (writeTrayPieces s a (bitPieces data poison)) n k fun p =>
      { p with cts := tset p.cts key (ctCommit (ctOf p key) h.sseq) }
    let c := ctOf (portOf (potOf s1 n) k.toNat) key
    if 64 ≤ (c.ct - c.acked).toNat then sendStreamAck s1 n k h.src h.srcPot else s1

/-- WRITE (R308, R368, R371). -/
def execWrite (n : PotIx) (k : BitVec 1) (hdr : MsgHdr) (data : List Byte) (poison : Word64) (s : State) : Result :=
  takeMsg n k hdr 1 (data ++ poisonBytes (ceilDiv data.length 32) ((upto (ceilDiv data.length 32)).map (bitAt poison)))
    (commitWrite n k hdr data poison) s

/-- STREAM_ACK_TIMER: 1 µs has passed with an advance of CT not acknowledged (R371). -/
def execStreamAckTimer (n : PotIx) (k : BitVec 1) (src : BitVec 16) (srcPot : PotIx) (s : State) : Result :=
  let p := portOf (potOf s n) k.toNat
  let c := ctOf p (ctKey src srcPot)
  whenDo (portLive p && c.ct != c.acked) s (sendStreamAck s n k src srcPot)

/-! Remote reads (R368, R370). -/

/-- Answer a READ_REQ from a tray of this module; what it cannot serve is ABSENT_UNIT with poisoned data. -/
def serveRead (n : PotIx) (h : MsgHdr) (bytes : Nat) (s : State) : State :=
  let a := fieldN h.addr 0 32
  let pot : PotIx := BitVec.ofNat 5 (a / 2 ^ 27)
  let st := if potOn s pot then Status.ok else .absentUnit
  let r := trayPieces (ceilDiv bytes 32) s a
  let reply := bytesOfNat 8 (statusCode st) ++ ((r.2.map Prod.fst).flatten).take bytes ++
    poisonBytes r.2.length (r.2.map Prod.snd)
  sendMsg r.1 n h.src 3 h.sseq h.tag h.infusion h.addr reply

/-- READ_REQ. -/
def execReadReq (n : PotIx) (k : BitVec 1) (hdr : MsgHdr) (bytes : BitVec 12) (s : State) : Result :=
  takeMsg n k hdr 2 (bytesOfNat 4 bytes.toNat) (serveRead n hdr bytes.toNat) s

/-- Take the outstanding request that an answer names. -/
def takeRemote (s : State) (id : BitVec 32) : Option (PotIx × RemoteReq × State) :=
  let n := reqPot id
  (pullFirst (fun (r : RemoteReq) => r.id == id) (potOf s n).remote).map fun x =>
    (n, x.1, updPot s n fun p => { p with remote := x.2 })

/-- Bytes of a gathered row have come: every row and window position that waits on it takes them (R274). -/
def rowData (key : Nat) (ps : List (List Byte × Bool)) (r : SfeRow) : SfeRow :=
  if r.wait = some key then { r with bytes := (ps.map Prod.fst).flatten, poison := ps.map Prod.snd, wait := none } else r

def sfeData (key : Nat) (ps : List (List Byte × Bool)) (f : Sfe) : Sfe :=
  { f with tickets := f.tickets.map fun t => { t with rows := t.rows.map (rowData key ps) },
           window := f.window.map fun x => { x with row := rowData key ps x.row } }

/-- The data reaches the stream or the row that asked, the last burst its queue; a read that ended has no taker (R368, R386). -/
def readAnswer (h : MsgHdr) (data : List Byte) (poison : Word64) (s : State) : State :=
  match takeRemote s h.sseq with
  | none => s
  | some (n, r, s1) =>
    let ps := bitPieces data poison
    match r.what with
    | .burst e ag =>
      match streamOf (seqOf (potOf s1 n) e) ag.toNat with
      | some x => if x.stopped then s1 else streamStep (qPushAll n x.queue.toNat ps s1) n e ag.toNat x
      | none => s1
    | .lastBurst _ q _ => qPushAll n q.toNat ps s1
    | .row t => updPot s1 n fun p => { p with sfe := sfeData t ps p.sfe }
    | _ => s1

/-- READ_RSP. -/
def execReadRsp (n : PotIx) (k : BitVec 1) (hdr : MsgHdr) (status : Status) (data : List Byte) (poison : Word64) (s : State) :
    Result :=
  takeMsg n k hdr 3 (bytesOfNat 8 (statusCode status) ++ data ++
    poisonBytes (ceilDiv data.length 32) ((upto (ceilDiv data.length 32)).map (bitAt poison))) (readAnswer hdr data poison) s

/-! Sync operations (R309 to R313). -/

/-- The word an operation names goes to its SNC; one of a pot that is not in service answers ABSENT_UNIT. -/
def remoteArrive (n : PotIx) (h : MsgHdr) (reqId : BitVec 32) (yop : BitVec 4) (cond : BitVec 2) (full : Bool) (x : Word64)
    (s : State) : State :=
  let pot : PotIx := fieldB h.addr 0 5
  let o : Waiter := ⟨fieldB h.addr 5 16, yop, cond, full, x, .remote h.src h.srcPot reqId, h.tag, h.infusion, 0⟩
  if potOn s pot then sncArrive s pot o else sncReply n s (o, .absentUnit, 0)

/-- A changing operation at its entry port: covered, it goes on; else it is deferred (R311). -/
def changeArrive (n : PotIx) (k : BitVec 1) (h : MsgHdr) (reqId : BitVec 32) (yop : BitVec 4) (full : Bool) (x : Word64)
    (s : State) : State :=
  let p := portOf (potOf s n) k.toNat
  let c := ctOf p (ctKey h.src h.srcPot)
  let mine := fun (d : Deferred) => d.src == h.src && d.srcPot == h.srcPot
  if seqLe h.sseq c.ct && !(p.deferral.any mine) then remoteArrive n h reqId yop 0 full x s
  else
    sncCount (updPort s n k fun p =>
      { p with deferral := p.deferral ++ [⟨h.src, h.srcPot, h.sseq, h, reqId, yop, full, x⟩] }) n 112 16

/-- SYNC_CHG: while the deferral table of 256 is full the port takes no VC1 flit for itself (R311). -/
def execSyncChg (n : PotIx) (k : BitVec 1) (hdr : MsgHdr) (reqId : BitVec 32) (yop : BitVec 4) (full : Bool)
    (operand : Word64) (s : State) : Result :=
  if decide (256 ≤ (portOf (potOf s n) k.toNat).deferral.length) then .next s
  else
    takeMsg n k hdr 4 (syncBody yop.toNat 0 full operand ++ bytesOfNat 4 reqId.toNat)
      (changeArrive n k hdr reqId yop full operand) s

/-- SYNC_REQ: READ, EMPTY, WAIT and BWAIT go to their word (R309). -/
def execSyncReq (n : PotIx) (k : BitVec 1) (hdr : MsgHdr) (yop : BitVec 4) (cond : BitVec 2) (operand : Word64) (s : State) :
    Result :=
  takeMsg n k hdr 5 (syncBody yop.toNat cond.toNat false operand) (remoteArrive n hdr hdr.sseq yop cond false operand) s

/-- Two deferred operations are of one stream. -/
def sameStream (a b : Deferred) : Bool := a.src == b.src && a.srcPot == b.srcPot

/-- A deferred operation may leave: covered, and first of its stream (R311). -/
def mayLeave (p : Port) (d : Deferred) : Bool :=
  seqLe d.cover (ctOf p (ctKey d.src d.srcPot)).ct && decide (p.deferral.find? (sameStream d) = some d)

/-- DEFERRED_OP_RELEASE: an operation whose COVER is reached goes on to its word (R311). -/
def execDeferredOpRelease (n : PotIx) (k : BitVec 1) (s : State) : Result :=
  let p := portOf (potOf s n) k.toNat
  match pullFirst (mayLeave p) p.deferral with
  | none => .next s
  | some (d, rest) =>
    .next (remoteArrive n d.hdr d.reqId d.yop 0 d.full d.operand (updPort s n k fun p => { p with deferral := rest }))

/-- Drop deferred operations with record and response (R311). -/
def strandAll (s : State) (n : PotIx) (k : BitVec 1) (c : Deferred → Bool) : State :=
  let out := (portOf (potOf s n) k.toNat).deferral.filter c
  runAll (fun t x => strandReply n (strandRecord t n x) x) out
    (updPort s n k fun p => { p with deferral := p.deferral.filter fun x => !c x })

/-- STRAND_TIMEOUT: the operation that has waited longest without cover is dropped after STRAND_US (R311). -/
def execStrandTimeout (n : PotIx) (k : BitVec 1) (s : State) : Result :=
  let p := portOf (potOf s n) k.toNat
  match pullFirst (fun d => !seqLe d.cover (ctOf p (ctKey d.src d.srcPot)).ct) p.deferral with
  | none => .next s
  | some (d, rest) => .next (strandReply n (strandRecord (updPort s n k fun p => { p with deferral := rest }) n d) d)

/-- The response to a posted operation of a sequencer (R297, R312). -/
def postedAnswer (n : PotIx) (r : RemoteReq) (e : Eng) (tag : BitVec 16) (inf : BitVec 12) (st : Status) (s : State) : State :=
  let q := seqOf (potOf s n) e
  if st = .strandedSignal then
    sendFault (sncCount s n 56 16)
      { status := 7, tag := tag, infusion := inf, island := potIsland n 4, block := 3, cause := 2,
        addr := fieldN r.word 0 5 * 2 ^ 16 + fieldN r.word 5 16, detail := r.node.toNat, detail2 := 0 }
  else if st = .poisoned ∧ q.running ∧ q.tag = tag ∧ q.infusion = inf then seqFault s n e 5 ((wordAt q e).getD 0) 0xFF
  else s

/-- The response completes the sender's operation, or is recorded for a sequencer (R312). -/
def syncAnswer (h : MsgHdr) (st : Status) (view : BitVec 128) (s : State) : State :=
  match takeRemote s h.sseq with
  | none => s
  | some (n, r, s1) =>
    match r.what with
    | .sync a => syncLocal s1 n a st view
    | .posted e tag inf _ => postedAnswer n r e tag inf st s1
    | _ => s1

/-- SYNC_RSP. -/
def execSyncRsp (n : PotIx) (k : BitVec 1) (hdr : MsgHdr) (status : Status) (view : BitVec 128) (s : State) : Result :=
  takeMsg n k hdr 6 (bytesOfNat 8 (statusCode status) ++ bytesOfNat 16 view.toNat) (syncAnswer hdr status view) s

/-! Acknowledgements and RESYNC (R310, R312, R372). -/

/-- The stream's acknowledged number moves on; a stream that waits to move then moves (R310, R312). -/
def streamAcked (h : MsgHdr) (ct : BitVec 32) (s : State) : State :=
  let n : PotIx := fieldB h.addr 0 5
  let e := streamEnt (potOf s n) h.src
  if e.resync || !seqLe e.acked ct || !seqLe ct e.last then s
  else
    let s1 := updPot s n fun p => setStream p h.src { e with acked := ct }
    if e.held ≠ [] ∧ ct = e.last then streamMove s1 n h.src else s1

/-- STREAM_ACK. -/
def execStreamAck (n : PotIx) (k : BitVec 1) (hdr : MsgHdr) (ct : BitVec 32) (s : State) : Result :=
  takeMsg n k hdr 7 (bytesOfNat 4 ct.toNat) (streamAcked hdr ct) s

/-- The new entry port's CT is LAST; every other entry port drops the stream's deferred operations that are not covered (R372). -/
def resyncAt (n : PotIx) (k : BitVec 1) (h : MsgHdr) (s : State) : State :=
  let key := ctKey h.src h.srcPot
  let me := portNo n k
  let s1 := updPort s n k fun p => { p with cts := tset p.cts key ⟨h.sseq, [], h.sseq⟩ }
  runAll (fun t q =>
    if q = me then t
    else
      strandAll t (portPot q) (BitVec.ofNat 1 (portK q)) fun d =>
        d.src == h.src && d.srcPot == h.srcPot && !seqLe d.cover (ctOf (portAt t q) key).ct) (upto 64) s1

/-- RESYNC, on VC1: held like SYNC_CHG while the deferral table is full (R311). -/
def execResync (n : PotIx) (k : BitVec 1) (hdr : MsgHdr) (lossy : Bool) (s : State) : Result :=
  if decide (256 ≤ (portOf (potOf s n) k.toNat).deferral.length) then .next s
  else takeMsg n k hdr 8 (bytesOfNat 4 hdr.sseq.toNat ++ bytesOfNat 1 lossy.toNat) (resyncAt n k hdr) s

/-- NODE_LOST: the named node is lost (R366). -/
def execNodeLost (n : PotIx) (k : BitVec 1) (hdr : MsgHdr) (node : BitVec 16) (s : State) : Result :=
  takeMsg n k hdr 0xC (bytesOfNat 2 node.toNat) (fun t => if (routeOf t node).lost then t else declareLost t node) s

/-! Tables (R364, R372, R376). -/

/-- SPT_ROUTE_WRITE: the entry changes, and a node that no port reaches any more is lost (R364, R366). -/
def execSptRouteWrite (node : BitVec 12) (ports : Word64) (s : State) : Result :=
  let d : BitVec 16 := node.setWidth 16
  let r := routeOf s d
  let wasUp := (eligible s d).any fun x => (portAt s x).state == .up
  let s1 := { s with drz := { s.drz with routes := tset s.drz.routes node.toNat { r with ports := ports } } }
  let isUp := (eligible s1 d).any fun x => (portAt s1 x).state == .up
  whenDo (hubOn s) s
    (if isUp then { s1 with drz := { s1.drz with routes := tset s1.drz.routes node.toNat ⟨ports, false⟩ } }
    else if wasUp && !r.lost then declareLost s1 d else s1)

/-- LOSSY_CLEAR: firmware clears a stream's LOSSY flag (R372). -/
def execLossyClear (n : PotIx) (node : BitVec 12) (s : State) : Result :=
  let d : BitVec 16 := node.setWidth 16
  whenDo (potOn s n) s (updPot s n fun p => setStream p d { streamEnt p d with lossy := false })

end Sys2Proof.Machine
end

