-- ==== Sys2Proof/Machine/HostCommand.lean ====
section
/-!
DEFINITION. Host commands from dispatch to completion: field checks (R331 to R338), resolution of unit paths and blends (R35 to R43),
members and their answers (R44 to R49), forwarding to remote hubs (R373, R374), and completion records (R338 to R342).
-/

namespace Sys2Proof.Machine

/-! Operands: header bits from 192 on (R328, R331 to R336). -/

/-- The operand fields of an opcode: first bit and length. -/
def opFields : Nat → List (Nat × Nat)
  | 1 => [(192, 9), (201, 4), (208, 15), (224, 15), (240, 7), (247, 1), (248, 3), (256, 32), (288, 16), (304, 13), (320, 4),
      (324, 2), (326, 1), (327, 1), (328, 7), (336, 8), (344, 3), (384, 64), (448, 64)]
  | 2 => [(192, 18), (224, 32), (256, 48), (320, 48), (384, 48), (448, 48)]
  | 3 => [(192, 64)]
  | 4 => [(192, 64)]
  | 5 => [(192, 64), (256, 64)]
  | 6 => [(192, 1)]
  | 8 => [(192, 4), (196, 2), (198, 1), (208, 16), (256, 64)]
  | 9 => [(192, 64), (256, 27), (288, 24), (312, 1)]
  | _ => []

/-- No reserved operand bit is set (R331). -/
def operandsClean (h : Line) : Bool :=
  decide (fieldN ((opFields (hdrOpcode h)).foldl (fun w f => putField w f.1 f.2 0) h) 192 320 = 0)

/-! LEAF. -/
def lfEntry (h : Line) : Nat := fieldN h 192 9
def lfKernel (h : Line) : Nat := fieldN h 201 4
def lfRowFirst (h : Line) : Nat := fieldN h 208 15
def lfRowLast (h : Line) : Nat := fieldN h 224 15
def lfK (h : Line) : Nat := fieldN h 240 7
def lfOpsrc (h : Line) : Bool := bitAt h 247
def lfRed (h : Line) : Nat := fieldN h 248 3
def lfS0 (h : Line) : F32 := fieldB h 256 32
def lfAux (h : Line) : BitVec 16 := fieldB h 288 16
def lfBytes (h : Line) : Nat := fieldN h 304 13
def lfShape (h : Line) : KShape :=
  ⟨fieldN h 320 4, fieldN h 324 2, fieldN h 326 1, fieldN h 327 1, fieldN h 328 7, fieldN h 336 8, fieldN h 344 3⟩
/-- DPA operands: the first at 0x18, OPND_DPA at 0x30, RES_DPA at 0x38. -/
def opDpa (h : Line) : Nat := fieldN h 192 64
def lfOpndDpa (h : Line) : Nat := fieldN h 384 64
def lfResDpa (h : Line) : Nat := fieldN h 448 64

/-- The longest payload the command may give (R160, R333). -/
def lfPayload (h : Line) : Nat :=
  match lfRed h with
  | 1 => 1024
  | 5 => 16 * lfK h
  | _ => 8

/-- An extent of `n` bytes at a DPA: in the data range, and not past the end of its home pot (R332). -/
def extentOk (s : State) (dpa n : Nat) : Bool :=
  decide (dpa < dataEnd s) && decide ((dpaToModule s dpa).toNat % 2 ^ 36 + n ≤ potBytes s)

/-- The infusion's program holds an ENTRY (R126). -/
def infEntryOk (s : State) (i : BitVec 12) (entry : Nat) : Bool :=
  let x := infOf s i
  i == 0 || (x.state == 2 && decide (x.leafBase.toNat ≤ entry ∧ entry < x.leafBase.toNat + x.leafLen.toNat))

/-- The checks of a LEAF that do not depend on where its operand and result lie (R126, R156, R157, R333). -/
def leafFieldsOk (s : State) (h : Line) : Bool :=
  decide (lfKernel h ≤ 8) && decide (lfK h ≤ 64) && decide (lfRowFirst h ≤ lfRowLast h) && decide (lfRed h ≤ 5) &&
    (if lfKernel h = 0 then decide (fieldN h 320 32 = 0) && infEntryOk s (hdrInf h) (lfEntry h)
     else hdrInf h == 0 && kernelOk (lfKernel h) (lfShape h))

/-- A LEAF's operand: its length within its limit, its lines no more than it fills, its extents (R331 to R333). -/
def leafPlacesOk (s : State) (h : Line) : Bool :=
  (if lfOpsrc h then
      decide (lfBytes h ≤ 4096) && decide (hdrNlm1 h = 0) && (lfBytes h == 0 || extentOk s (lfOpndDpa h) (lfBytes h))
    else decide (lfBytes h ≤ 60 * hdrNlm1 h) && decide (hdrNlm1 h ≤ ceilDiv (lfBytes h) 60)) &&
    (decide (lfPayload h ≤ 32) || extentOk s (lfResDpa h) (lfPayload h))

/-! TRAY_COPY. -/
def tcTray (h : Line) : Nat := fieldN h 256 27
def tcBytes (h : Line) : Nat := fieldN h 288 24
def tcOut (h : Line) : Bool := bitAt h 312

/-- The opcode's own checks (R331 to R336). -/
def opcodeOk (s : State) (h : Line) : Bool :=
  match hdrOpcode h with
  | 1 => leafFieldsOk s h && leafPlacesOk s h
  | 2 => decide (hdrNlm1 h = 0)
  | 3 => decide (hdrNlm1 h = 0) && extentOk s (opDpa h) 64
  | 4 => decide (hdrNlm1 h = 0) && extentOk s (opDpa h) 64
  | 5 => decide (hdrNlm1 h = 0) && extentOk s (opDpa h) (fieldN h 256 64)
  | 6 => decide (hdrNlm1 h = 0)
  | 8 => decide (hdrNlm1 h = 0)
  | 9 =>
    decide (hdrNlm1 h = 0) && decide (64 ≤ tcBytes h ∧ tcBytes h % 64 = 0 ∧ tcTray h % 64 = 0 ∧ tcTray h + tcBytes h ≤ 2 ^ 27) &&
      extentOk s (opDpa h) (tcBytes h)
  | _ => false

/-- The opcodes that take an infusion; the others carry zero (R328). -/
def opTakesInf (op : Nat) : Bool := op == 1 || op == 2 || op == 5 || op == 6

/-- Every field check that comes before resolution (R338, R342). -/
def fieldsOk (s : State) (h : Line) : Bool :=
  operandsClean h && (opTakesInf (hdrOpcode h) || hdrInf h == 0) && !(hdrIrq h && hdrVec h == 0) && opcodeOk s h

/-- The translated address of the operand that lies in memory (R332). -/
def operandAddr (s : State) (h : Line) : Option (BitVec 41) :=
  match hdrOpcode h with
  | 1 => if lfOpsrc h then some (dpaToModule s (lfOpndDpa h)) else none
  | 3 => some (dpaToModule s (opDpa h))
  | 4 => some (dpaToModule s (opDpa h))
  | 5 => some (dpaToModule s (opDpa h))
  | 9 => some (dpaToModule s (opDpa h))
  | _ => none

/-! Resolution (R37, R38, R42, R43). -/

/-- What a path comes to: its members, the units left out, whether it is refused, the units it names, whether it has wildcards. -/
structure Members where
  parts : List Part
  absent : Nat
  bad : Bool
  named : Nat
  wild : Bool
  deriving DecidableEq, Repr

def Members.none : Members := ⟨[], 0, false, 0, false⟩
def Members.refused : Members := ⟨[], 0, true, 0, false⟩
def Members.join (a b : Members) : Members := ⟨a.parts ++ b.parts, a.absent + b.absent, a.bad || b.bad, a.named + b.named, a.wild || b.wild⟩

/-- A member that has yet to answer; keys are given when the command is dispatched. -/
def newPart (pos : List Nat) (pot : Option PotIx) (node : BitVec 16) (expected : Nat) (path : Word64) : Part :=
  ⟨0, pos, pot, node, .waiting, expected, 0, .ok, false, false, .none, path, []⟩

/-- The pot's part of a path to LUs: DEPTH 2 at least, which names every die (R95, R333). -/
def leafPart (path : Word64) : Word64 :=
  if 2 ≤ pathDepth path then path
  else
    let p := putField (putField path 0 3 2) 27 5 0x0F
    if pathDepth path = 0 then putField p 17 5 0x1F else p

/-- Home groups that a path to LUs names. -/
def homesNamed (path : Word64) : List Nat := (upto 2048).filter (pathNames path)

/-- A home group's pot can be named: only a path of DEPTH 1 names pots, which are absent when disabled or retired; dies, groups and banks
resolve through the pot map (R37). -/
def homeNamable (s : State) (path : Word64) (h : Nat) : Bool :=
  decide (pathDepth path ≠ 1) || potPresent s (BitVec.ofNat 5 (h / 64))

/-- A path to LUs: a member for each present pot that holds a named group; LUs of groups held by no present pot, and at DEPTH 1 those
of absent pots, are left out, and counted unless a path without wildcards names an absent unit (R37). -/
def leafMembers (s : State) (pos : List Nat) (path : Word64) : Members :=
  let all := homesNamed path
  let holder := fun h => entPot (hubEntry s h).val
  let homes := all.filter fun h => homeNamable s path h && potPresent s (holder h)
  let mine := leafPart path
  let part := fun (n : PotIx) =>
    match homes.filter fun h => holder h == n with
    | [] => none
    | hs => some { newPart (pos ++ [n.toNat]) (some n) 0xFFFF (leafUnits s n hs mine).1.length mine with homes := hs }
  { parts := (presentPots s).filterMap part,
    absent := if pathWild path || !homes.isEmpty then (all.length - homes.length) * (leafBanks path).length else 0,
    bad := decide (pathDepth path = 2) && decide (16 ≤ pathSub path), named := all.length * (leafBanks path).length,
    wild := pathWild path }

/-- The pot-level units of an opcode's kind: brewer cores 22 to 29, SNC 20, tray 21 (R35, R331). -/
def kindSubs (op : Nat) : List Nat :=
  match op with
  | 8 => [20]
  | 9 => [21]
  | _ => between 22 30

/-- A path to pot-level units (R37, R38). -/
def unitMembers (s : State) (op : Nat) (pos : List Nat) (path : Word64) : Members :=
  let subs :=
    if pathDepth path ≤ 1 then kindSubs op
    else if pathDepth path = 2 ∧ pathSubMask path = 0 then (kindSubs op).filter (· == pathSub path)
    else []
  let pots := allPots.filter fun n => pathMatchPot path n.toNat
  let here := pots.filter (potPresent s)
  { parts := (here.map fun n => subs.map fun u =>
      newPart (pos ++ [n.toNat]) (some n) 0xFFFF 1 (BitVec.ofNat 64 (2 + n.toNat * 2 ^ 12 + u * 2 ^ 22))).flatten,
    absent := if pathWild path then (pots.length - here.length) * subs.length else 0,
    bad := subs.isEmpty, named := pots.length * subs.length, wild := pathWild path }

/-- Record `r` of a blend entry (R39). -/
def blendRec (s : State) (entry r : Nat) : BitVec 128 := tget s.blend.table (entry * 16 + r) 0xFFFF0000000000000000
def recPath (r : BitVec 128) : Word64 := fieldB r 0 64
def recModule (r : BitVec 128) : BitVec 16 := fieldB r 64 16
def recValid (r : BitVec 128) : Bool := bitAt r 80
def recLive (r : BitVec 128) : Bool := bitAt r 81

/-- Resolve a path (R36 to R38, R42): `level` blend levels have been counted; a fifth is refused. -/
def resolvePath (s : State) (op : Nat) : (fuel level : Nat) → List Nat → Word64 → Members
  | 0, _, _, _ => .refused
  | f + 1, level, pos, path =>
    if !pathOk path then .refused
    else if pathTop path then
      if 4 ≤ level then .refused
      else
        (upto 16).foldl (fun m r =>
          let x := blendRec s (pathBlend path) r
          if !recValid x then m
          else if !recLive x then { m with absent := m.absent + 1 }
          else if ownNode s (recModule x) then m.join (resolvePath s op f (level + 1) (pos ++ [r]) (recPath x))
          else if op ≠ 1 then m.join .refused
          else m.join { Members.none with parts := [newPart (pos ++ [r]) none (recModule x) 1 (recPath x)], named := 1 }) .none
    else if op = 1 then leafMembers s pos path
    else unitMembers s op pos path

/-- Opcodes that take exactly one unit (R331). -/
def opOne (h : Line) : Bool := !(hdrOpcode h == 1 || (hdrOpcode h == 9 && !tcOut h))

/-- The members of a command, or its refusal. -/
def commandMembers (s : State) (h : Line) (level : Nat) : Members :=
  let m := resolvePath s (hdrOpcode h) 5 level [] (hdrPath h)
  if opOne h && (m.wild || decide (m.named ≠ 1)) then .refused else m

/-! Dispatch (R337). -/

def cmdOf (s : State) (id : Nat) : Option Cmd := s.hfe.table.find? fun c => c.id == id
def updCmd (s : State) (id : Nat) (f : Cmd → Cmd) : State :=
  { s with hfe := { s.hfe with table := s.hfe.table.map fun c => if c.id = id then f c else c } }

/-- HFE_CTL; under a parity fault its reset value (R493). -/
def hfeCtl (s : State) : Word64 := if regBad s hfeCtlKey then Hfe.reset.ctl else s.hfe.ctl
/-- HFE_CTL's buffered write is applied while the dispatch table holds no command of the host's (R344, R488). -/
def applyHfe (s : State) : State :=
  match bufferOf s hfeCtlKey with
  | some v =>
    if (hostCmds s.hfe).isEmpty then
      parityEnds (dropBuffer { s with hfe := { s.hfe with ctl := BitVec.ofNat 64 v } } hfeCtlKey) hfeCtlKey
    else s
  | none => s

/-- A command leaves the dispatch table. -/
def dropCmd (s : State) (id : Nat) : State :=
  applyHfe { s with hfe := { s.hfe with table := s.hfe.table.filter fun c => c.id != id } }

/-- The payload of a sequence: 60 B of each line after the header (R327). -/
def cmdPayload (c : Cmd) : List Byte := (c.payload.map fun l => (bytesOfLine l).drop 4).flatten

/-- The header that a remote hub receives: its member PATH, and the blend levels counted in byte 0x14 (log entry 28). -/
def cmdBody (path : Word64) (level : BitVec 3) (header : Line) (operand : List Byte) : List Byte :=
  bytesOfLine (putField (putField header 64 64 path.toNat) 160 8 level.toNat) ++ operand

/-- Where an operand in memory is read for a remote member: class TENSOR, so poison would travel; a CMD carries data only. -/
def operandRead (s : State) (a : BitVec 41) (n : Nat) : State × List Byte :=
  let r := readAddrBytes s (homePot a) ⟨.tensor, .eng, 0, 0⟩ a.toNat n
  (r.1, r.2.1)

/-- Send the members of a command on their way: a pot's through the hub port of its column to its inbox, a remote one's as a CMD (R21,
R333, R373). The home groups of a LEAF resolve through the pot's copies of their entries (R30). -/
def sendMember (c : Cmd) (level : Nat) (operand : List Byte) (addr : Option (BitVec 41)) (s : State) (p : Part) : State :=
  match p.pot with
  | some n =>
    updPot (runAll (fun t h => (resolveEntry t n h).1) p.homes s) n fun q =>
      { fabTake q .req with inbox := q.inbox ++ [⟨p.key, c.header, p.path, operand, addr, hubPortOf n, p.homes⟩] }
  | none =>
    let inline := match addr with
      | some a => operandRead s a (lfBytes c.header)
      | none => (s, operand)
    let r := newReq inline.1 0
    sendMsg (awaitRemote r.2 0 ⟨r.1, p.node, 0, .member c.id p.key⟩) 0 p.node 9 r.1 (hdrTag c.header) (hdrInf c.header) 0
      (cmdBody p.path (BitVec.ofNat 3 (level + p.pos.length)) c.header inline.2)

/-- A command is resolved and its members are sent; one that fails its checks or names no present unit ends at once. -/
def dispatchCmd (s : State) (c : Cmd) (ok : Bool) (operand : List Byte) (addr : Option (BitVec 41)) : State :=
  let m := commandMembers s c.header c.level.toNat
  if !ok || m.bad then updCmd s c.id fun x => { x with state := .running, status := some .rejected }
  else
    let ps := m.parts.zipIdx.map fun x => { x.1 with key := s.hfe.nextId + x.2 }
    let s1 := countAbsent { s with hfe := { s.hfe with nextId := s.hfe.nextId + ps.length } } m.absent 0
    let s2 := updCmd s1 c.id fun x =>
      { x with state := .running, parts := ps, status := if ps.isEmpty then some .absentUnit else none }
    runAll (sendMember c c.level.toNat operand addr) ps s2

/-- COMMAND_DISPATCH: the first command not yet dispatched, in table order; one with ORD waits until every earlier one has completed
(R337). -/
def execCommandDispatch (s : State) : Result :=
  match s.hfe.table.find? fun c => c.state == .queued with
  | none => .next s
  | some c =>
    let before := s.hfe.table.takeWhile fun x => x.id != c.id
    if !hubOn s || (hdrOrd c.header && before.any fun x => x.remoteOf.isNone) then .next s
    else .next (dispatchCmd s c (fieldsOk s c.header) ((cmdPayload c).take (lfBytes c.header)) (operandAddr s c.header))

/-! Answers (R45, R48, R49, R374). -/

/-- The command that holds a member, and the member. -/
def memberOf (s : State) (key : Nat) : Option (Cmd × Part) :=
  s.hfe.table.findSome? fun c => (c.parts.find? fun p => p.key == key).map fun p => (c, p)

def updPart (s : State) (id key : Nat) (f : Part → Part) : State :=
  updCmd s id fun c => { c with parts := c.parts.map fun p => if p.key = key then f p else p }

/-- An answer that finds no one waiting: after CMD_TIMEOUT it counts as LATE, after a loss in HUB_LATE_COUNT (R49, R337). -/
def lateAnswer (s : State) (key : Nat) : State := if s.hfe.expired.contains key then bumpHfe s 112 1 else countLate s 1

/-- A member's answer reaches its node. -/
def takeAnswer (s : State) (a : MemberAns) : State :=
  match memberOf s a.key with
  | none => lateAnswer s a.key
  | some (c, p) =>
    if p.state ≠ .waiting then countLate s 1
    else
      let s1 := updPart s c.id p.key fun p =>
        { p with state := .answered, expected := a.expected, answered := a.answered, status := a.status, isPartial := a.isPartial,
                 poison := a.poison, res := a.res }
      updCmd s1 c.id fun c => { c with detail := a.detail, infusion := a.infusion.getD c.infusion }

/-- MEMBER_ANSWER: the oldest answer of a pot reaches the hub's node (R45). -/
def execMemberAnswer (n : PotIx) (s : State) : Result :=
  match (potOf s n).answers with
  | [] => .next s
  | a :: rest => .next (takeAnswer (updPot s n fun p => { fabGive p .cmb with answers := rest }) a)

/-- A member stops being waited for (R48). -/
def losePart (p : Part) : Part :=
  if p.state = .waiting then { p with state := .lost, status := .timeout, isPartial := true, answered := 0, res := .none } else p

/-- MEMBER_LOST: the loss event of a pot reaches the hub's node of a command (R48). -/
def execMemberLost (cmd : Nat) (n : PotIx) (s : State) : Result :=
  whenDo (s.hfe.losses.contains (cmd, n)) s
    (updCmd { s with hfe := { s.hfe with losses := s.hfe.losses.filter (· != (cmd, n)) } } cmd fun c =>
      { c with parts := c.parts.map fun p => if p.pot = some n then losePart p else p })

/-! Completion (R46, R47, R338 to R341). -/

/-- Fold the members of one node: those under one record first, then the records in order (R45, R46). -/
def foldTree (red k : Nat) : (fuel : Nat) → List (List Nat × Res) → Res
  | 0, l => resFold red k (l.map Prod.snd)
  | f + 1, l =>
    let heads := (l.map fun x => x.1.headD 0).eraseDups
    resFold red k (heads.map fun h =>
      let sub := l.filter fun x => x.1.headD 0 == h
      if sub.all fun x => x.1.length ≤ 1 then resFold red k (sub.map Prod.snd)
      else foldTree red k f (sub.map fun x => (x.1.drop 1, x.2)))

/-- The members that count: one whose own set is empty is no member (R37). -/
def countedParts (c : Cmd) : List Part := c.parts.filter fun p => !(p.status == .absentUnit && p.expected == 0)

/-- A distributor, or the hub of a remote member, has refused the command's own fields (R338). -/
def cmdRefused (c : Cmd) : Bool := (countedParts c).any fun p => p.status == .rejected && p.expected == 0

/-- The combined status (R338): refused, no unit at all, a member lost, the lowest failing member, or OK. -/
def cmdStatus (c : Cmd) : Status :=
  let ps := countedParts c
  if cmdRefused c then .rejected
  else if ps.isEmpty then .absentUnit
  else if ps.any fun p => p.state != .answered || p.status == .timeout then .timeout
  else ((ps.map Part.status).find? (· != .ok)).getD .ok

/-- PARTIAL (R338): of several members one was lost or ended other than OK; or the answer of a single one says so itself (R48, R161). -/
def cmdPartial (c : Cmd) (st : Status) : Bool :=
  let ps := countedParts c
  st != .ok && !cmdRefused c &&
    (decide (1 < (ps.map Part.expected).sum) || ps.any fun p => p.state != .answered || p.isPartial)

def sumParts (c : Cmd) (f : Part → Nat) : Nat := Nat.min (2 ^ 32 - 1) ((countedParts c).map f).sum

/-- The value that the members which answered combine to. -/
def cmdValue (c : Cmd) : Res :=
  foldTree (lfRed c.header) (lfK c.header) 6 ((c.parts.filter fun p => p.state == .answered).map fun p => (p.pos, p.res))

/-- A value is returned: a LEAF that reduces; a READ, EMPTY or WAIT, whatever the status with which the SNC answered it (R299, R335,
R338). -/
def cmdReturns (c : Cmd) (st : Status) : Bool :=
  match hdrOpcode c.header with
  | 1 => lfRed c.header != 0 && st != .absentUnit && !(countedParts c).isEmpty && !cmdRefused c
  | 8 => c.parts.any (fun p => p.state == .answered) && (fieldN c.header 192 4 == 0 || fieldN c.header 192 4 == 3 || fieldN c.header 192 4 == 4)
  | _ => false

/-- The payload of the value. -/
def cmdPayloadOut (c : Cmd) : List Byte :=
  if hdrOpcode c.header = 8 then resBytes (cmdValue c) else resBytes (resFinal (lfRed c.header) (cmdValue c))

def cmdPoison (c : Cmd) : Bool := c.parts.any fun p => p.state == .answered && p.poison

/-- PARTIAL's FLAGS: bit 0 PARTIAL, bit 1 POISON, bit 2 INTMODE. -/
def cmdFlags (c : Cmd) (st : Status) (part : Bool) : Nat :=
  let v := cmdReturns c st
  part.toNat + (v && cmdPoison c).toNat * 2 + (v && resIsInt (cmdValue c)).toNat * 4

/-- Finish a command under a status: a longer payload goes to RES_DPA and the record is written DONE; a forwarded command sends its
PARTIAL (R333, R340, R374). -/
def finishCmd (s : State) (c : Cmd) (st : Status) (part : Bool) : State :=
  let v := cmdReturns c st
  let bs := if v then cmdPayloadOut c else []
  let ex := sumParts c Part.expected
  let an := sumParts c Part.answered
  let s1 := dropCmd (if st = .absentUnit then countAbsent s 0 1 else s) c.id
  match c.remoteOf with
  | some (src, req, rec) =>
    sendMsg s1 0 src 0xB req (hdrTag c.header) (hdrInf c.header) 0
      (bytesOfNat 1 rec.toNat ++ bytesOfNat 1 (statusCode st) ++ bytesOfNat 1 (cmdFlags c st part) ++ bytesOfNat 4 ex ++
        bytesOfNat 4 an ++ bs)
  | none =>
    let long := decide (32 < bs.length)
    let a := dpaToModule s1 (lfResDpa c.header)
    let s2 := if long then writeAddrBytes (homePot a) ⟨.core, .eng, hdrTag c.header, c.infusion⟩ 64 s1 a.toNat bs (cmdPoison c) else s1
    recordDone s2 c.head c.header c.slot c.seq
      ⟨statusCode st, cmdFlags c st part + long.toNat * 8, bs.length, ex, an, c.detail.toNat, c.infusion.toNat, bs.take 32⟩

/-- COMMAND_COMPLETE: a command refused at dispatch, or one whose members have all answered or been lost (R338). -/
def execCommandComplete (cmd : Nat) (s : State) : Result :=
  match cmdOf s cmd with
  | none => .next s
  | some c =>
    match c.status with
    | some st => .next (finishCmd s c st false)
    | none =>
      if c.state ≠ .running ∨ c.parts.any fun p => p.state == .waiting then .next s
      else
        let st := cmdStatus c
        .next (finishCmd s c st (cmdPartial c st))

/-- CMD_TIMEOUT: a dispatched command has been outstanding for CMD_TIMEOUT; its members go on (R337). -/
def execCmdTimeout (cmd : Nat) (s : State) : Result :=
  match cmdOf s cmd with
  | none => .next s
  | some c =>
    let some_ := c.parts.any fun p => p.state == .answered
    let keys := (c.parts.filter fun p => p.state == .waiting).map Part.key
    whenDo (c.state == .running && c.status.isNone && c.remoteOf.isNone && fieldN (hfeCtl s) 0 32 != 0) s
      (finishCmd { s with hfe := { s.hfe with expired := s.hfe.expired ++ keys } } c .timeout some_)

/-! Forwarded commands (R373, R374). -/

/-- The effect of a CMD: the member is resolved and dispatched here, and RESOLVED tells its EXPECTED. -/
def cmdArrive (hdr : MsgHdr) (path : Word64) (level : BitVec 3) (header : Line) (operand : List Byte) (s : State) : State :=
  let h := putField header 64 64 path.toNat
  let id := s.hfe.nextId
  let c : Cmd :=
    { id := id, slot := 0, seq := 0, head := 0, header := h, payload := [], state := .queued, parts := [], status := none,
      detail := 0, infusion := hdrInf h, remoteOf := some (hdr.src, hdr.sseq, 0), level := level }
  let s1 := { s with hfe := { s.hfe with table := s.hfe.table ++ [c], nextId := id + 1 } }
  let s2 :=
    if s.hfe.pimOff then updCmd s1 id fun x => { x with state := .running, status := some .pimOffline }
    else dispatchCmd s1 c (hdrOpcode h == 1 && leafFieldsOk s h) operand none
  let ex := ((cmdOf s2 id).map fun c => sumParts c Part.expected).getD 0
  sendMsg s2 0 hdr.src 0xA hdr.sseq hdr.tag hdr.infusion 0 (bytesOfNat 1 0 ++ bytesOfNat 4 ex)

/-- CMD: a member of a blend of another module (R373); in plain memory it completes PIM_OFFLINE, as any command does (R343). -/
def execCmd (n : PotIx) (k : BitVec 1) (hdr : MsgHdr) (path : Word64) (level : BitVec 3) (header : Line) (operand : List Byte)
    (s : State) : Result :=
  takeMsg n k hdr 9 (cmdBody path level header operand) (cmdArrive hdr path level header operand) s

/-- RESOLVED: the member's EXPECTED (R374). -/
def resolvedArrive (hdr : MsgHdr) (expected : BitVec 32) (s : State) : State :=
  match (potOf s (reqPot hdr.sseq)).remote.find? fun r => r.id == hdr.sseq with
  | some r =>
    match r.what with
    | .member c key => updPart s c key fun p => if p.state = .waiting then { p with expected := expected.toNat } else p
    | _ => s
  | none => s

def execResolved (n : PotIx) (k : BitVec 1) (hdr : MsgHdr) (record : BitVec 4) (expected : BitVec 32) (s : State) : Result :=
  takeMsg n k hdr 0xA (bytesOfNat 1 record.toNat ++ bytesOfNat 4 expected.toNat) (resolvedArrive hdr expected) s

/-- The value in a PARTIAL, by RED and INTMODE (R160, R374); no bytes is the identity. -/
def resOfBytes (red : Nat) (int : Bool) (bs : List Byte) : Res :=
  if bs.isEmpty then .none
  else
    match red with
    | 1 =>
      if int then .vecI ((chunks 8 128 bs).map fun x => BitVec.ofNat 64 (natOfBytes x))
      else .vecF ((chunks 4 128 bs).map fun x => BitVec.ofNat 32 (natOfBytes x))
    | 4 => .count (BitVec.ofNat 64 (natOfBytes bs))
    | 5 =>
      .topk ((chunks 16 64 bs).map fun x => (BitVec.ofNat 32 (natOfBytes (x.take 4)), BitVec.ofNat 41 (natOfBytes (x.drop 8))))
    | _ => .scalar (BitVec.ofNat 32 (natOfBytes bs))

/-- PARTIAL: the member's status and value; one whose member was declared lost is late (R49, R374). -/
def partialArrive (hdr : MsgHdr) (st : Status) (flags : BitVec 3) (expected answered : BitVec 32) (value : List Byte) (s : State) : State :=
  match takeRemote s hdr.sseq with
  | none => countLate s 1
  | some (_, r, s1) =>
    match r.what with
    | .member c key =>
      let red := ((cmdOf s1 c).map fun c => lfRed c.header).getD 0
      takeAnswer s1 ⟨key, expected.toNat, answered.toNat, st, bitAt flags 0, bitAt flags 1, resOfBytes red (bitAt flags 2) value, 0, none⟩
    | _ => s1

def execPartialResult (n : PotIx) (k : BitVec 1) (hdr : MsgHdr) (record : BitVec 4) (status : Status) (flags : BitVec 3)
    (expected answered : BitVec 32) (value : List Byte) (s : State) : Result :=
  takeMsg n k hdr 0xB
    (bytesOfNat 1 record.toNat ++ bytesOfNat 1 (statusCode status) ++ bytesOfNat 1 flags.toNat ++ bytesOfNat 4 expected.toNat ++
      bytesOfNat 4 answered.toNat ++ value)
    (partialArrive hdr status flags expected answered value) s

end Sys2Proof.Machine
end

