-- ==== Sys2Proof/Machine/HostOps.lean ====
section
/-!
DEFINITION. Host opcodes at the pot that executes them: LEAF (R333), SYNC (R335) and TRAY_COPY (R336).
-/

namespace Sys2Proof.Machine

/-! Brewer cores that take commands (R106, R337). -/

/-- The strainer core: the one to which a reset has passed the role, else the lowest-numbered brewer core out of reset (R106). -/
def strainerCore (p : Pot) : Option Nat :=
  ((p.strainer.map BitVec.toNat).filter fun c => (coreOf p c).running).or ((upto 8).find? fun c => (coreOf p c).running)

/-- The core that takes the role when the strainer core is reset: the next higher-numbered one out of reset, else the lowest other
(R106). -/
def nextStrainer (p : Pot) (c : Nat) : Option (BitVec 3) :=
  ((between (c + 1) 8 ++ upto c).find? fun k => (coreOf p k).running).map (BitVec.ofNat 3)

/-- The pot's firmware takes commands: it is in service, its cores run and are not quiesced (R337). -/
def potTakes (s : State) (n : PotIx) : Bool :=
  let p := potOf s n
  potOn s n && p.fwRunning && !p.quiesced && (strainerCore p).isSome

/-- The first waiting command of the pot with this opcode, and the pot without it. -/
def takeInbox (p : Pot) (op : Nat) : Option (InCmd × Pot) :=
  (pullFirst (fun (c : InCmd) => hdrOpcode c.header == op) p.inbox).map fun x => (x.1, { fabGive p .req with inbox := x.2 })

/-! LEAF (R333). -/

/-- The command's room in the firmware tray area: operand, result record at + 4 KiB, template at + 8 KiB (R434; log entry 29). -/
def fwRoom (key : Nat) : Nat := 0x7800000 + key % 256 * 0x8000
def fwRecord (key : Nat) : Nat := fwRoom key + 0x1000
def fwTemplate (key : Nat) : Nat := fwRoom key + 0x2000

/-- The leaf command's bits (R95, R157). -/
def leafWord (tag inf path entry first last load opnd len k resline red s0 aux : Nat) : BitVec 256 :=
  BitVec.ofNat 256 (tag + inf * 2 ^ 16 + path * 2 ^ 32 + entry * 2 ^ 96 + first * 2 ^ 105 + last * 2 ^ 120 + load * 2 ^ 135 +
    opnd * 2 ^ 136 + len * 2 ^ 163 + k * 2 ^ 176 + resline * 2 ^ 184 + red * 2 ^ 205 + s0 * 2 ^ 208 + aux * 2 ^ 240)

/-- The fields by which firmware tells whether a template is loaded. -/
def templateKey (h : Line) : BitVec 64 := BitVec.ofNat 64 (lfKernel h + fieldN h 320 27 * 16)

/-- Every LU of the pot: DEPTH 2, all home pots, all dies. -/
def everyLu : Nat := 2 + 31 * 2 ^ 17 + 15 * 2 ^ 27

/-- The template that a kernel needs, unless it was the last one loaded: its words placed, and the broadcast pushed (R96, R333). -/
def leafTemplate (s : State) (n : PotIx) (c : InCmd) : State :=
  let h := c.header
  if lfKernel h = 0 ∨ (potOf s n).template_ = some (templateKey h) then s
  else
    let ws := kernelWords (lfKernel h) (lfShape h)
    let bs := (ws.map fun w => bytesOfNat 8 w.toNat).flatten
    let s1 := trayWrite s (trayGlobal n (fwTemplate c.key)) bs false
    let cmd := leafWord (hdrTag h).toNat 0 everyLu 0 0 0 1 (fwTemplate c.key) (ceilDiv ws.length 8) 0 0 0 0 0
    updPot (pushLeaf s1 n ⟨cmd, .firmware, []⟩) n fun p => { p with template_ := some (templateKey h) }

/-- Place the operand, padded with zeros to 64 B units: inline, or read from memory with its poison (R333, R386; log entry 29). -/
def leafOperand (s : State) (n : PotIx) (c : InCmd) : State :=
  let len := lfBytes c.header
  let room := ceilDiv len 64 * 64
  let at_ := trayGlobal n (fwRoom c.key)
  match c.addr with
  | none => trayWrite s at_ (fitBytes room c.operand) false
  | some a =>
    let w : Who := ⟨.tensor, .eng, hdrTag c.header, hdrInf c.header⟩
    let one := fun (t : State) (i : Nat) =>
      let k := Nat.min 32 (len - 32 * i)
      let r := readAddrBytes t n w (a.toNat + 32 * i) k
      trayWrite r.1 (at_ + 32 * i) (fitBytes 32 r.2.1) r.2.2
    runAll one (upto (ceilDiv len 32)) (trayWrite s at_ (List.replicate room 0) false)

/-- The leaf command a LEAF pushes at one pot. -/
def leafPush (s : State) (n : PotIx) (c : InCmd) : State :=
  let h := c.header
  let s1 := leafOperand (leafTemplate s n c) n c
  let entry := if lfKernel h = 0 then lfEntry h else 0
  let w := leafWord (hdrTag h).toNat (hdrInf h).toNat c.path.toNat entry (lfRowFirst h) (lfRowLast h) 0 (fwRoom c.key)
    (ceilDiv (lfBytes h) 64) (lfK h) (fwRecord c.key / 64) (lfRed h) (lfS0 h).toNat (lfAux h).toNat
  pushLeaf s1 n ⟨w, .host c.key, c.homes⟩

/-- LEAF at one pot, once the LU command queue has room for what it pushes. -/
def execLeaf (n : PotIx) (s : State) : Result :=
  match takeInbox (potOf s n) 1 with
  | none => .next s
  | some (c, p) =>
    let ready := match c.addr with
      | some a => addrServed s n a
      | none => true
    whenDo (potTakes s n && p.trayClear && decide (lucDepth p + 2 ≤ 128) && ready) s (leafPush (setPot s n p) n c)

/-! SYNC (R335). -/

/-- HOST_SYNC: one operation of a host command at the pot's SNC; its answer goes to the hub's node. -/
def execHostSync (n : PotIx) (s : State) : Result :=
  match takeInbox (potOf s n) 8 with
  | none => .next s
  | some (c, p) =>
    let h := c.header
    let o : Waiter :=
      ⟨fieldB h 208 16, fieldB h 192 4, fieldB h 196 2, bitAt h 198, fieldB h 256 64, .hostCmd c.key, hdrTag h, 0, 0⟩
    whenDo (potOn s n) s (sncArrive (setPot s n p) n o)

/-! TRAY_COPY (R336). -/

/-- Words moved so far, and the address of the word at which the transfer halted. -/
structure Xfer where
  s : State
  halted : Option Nat
  deriving DecidableEq, Repr

/-- One 32 B word of a tray copy: class XFER halts at a word read with poison (R386). -/
def copyTrayWord (n : PotIx) (w : Who) (out : Bool) (addr tray : Nat) (x : Xfer) (i : Nat) : Xfer :=
  if x.halted.isSome then x
  else if out then
    let g := trayGlobal n tray + 32 * i
    if trayWordPoison x.s (g / 32) then { x with halted := some (tray + 32 * i) }
    else { x with s := writeAddrBytes n w 2 x.s (addr + 32 * i) (trayRead x.s g 32) false }
  else
    let r := readAddrBytes x.s n w (addr + 32 * i) 32
    if r.2.2 then ⟨r.1, some (addr + 32 * i)⟩
    else { x with s := trayWrite r.1 (trayGlobal n tray + 32 * i) r.2.1 false }

/-- The copy of one pot, and its answer; a halt is a fault record of the brewer core and status POISONED (R386). -/
def trayCopy (s : State) (n : PotIx) (c : InCmd) (core : Nat) (a : BitVec 41) : State :=
  let h := c.header
  let w : Who := ⟨.xfer, .eng, hdrTag h, 0⟩
  let x := (upto (tcBytes h / 32)).foldl (copyTrayWord n w (tcOut h) a.toNat (tcTray h)) ⟨s, none⟩
  match x.halted with
  | none => answerMember x.s n (simpleAns c.key .ok)
  | some bad =>
    answerMember
      (sendFault x.s
        { status := statusCode .poisoned, tag := hdrTag h, infusion := 0, island := potIsland n (8 + core), block := 4, cause := 2,
          addr := bad, detail := fieldN a 30 6 + fieldN a 26 4 * 64, detail2 := 0 }) n (simpleAns c.key .poisoned)

/-- TRAY_COPY at one pot. -/
def execTrayCopy (n : PotIx) (s : State) : Result :=
  match takeInbox (potOf s n) 9, strainerCore (potOf s n) with
  | some (c, p), some core =>
    match c.addr with
    | some a => whenDo (potTakes s n && p.trayClear && addrServed s n a) s (trayCopy (setPot s n p) n c core a)
    | none => .next s
  | _, _ => .next s

end Sys2Proof.Machine
end

