-- ==== Sys2Proof/Machine/Infusions.lean ====
section
/-!
DEFINITION. What loads, drains and resets share about infusions: load descriptors and result records (R109, R111), the end of a load
(R113, R118, R123), the release of an infusion (R129, R314), the loss of a pot's sync words (R316), and what a reset does to
the infusions it touches (R128).
-/

namespace Sys2Proof.Machine

/-! Load descriptor (R109). -/

def ldImage (d : Line) : BitVec 41 := fieldB d 0 41
def ldLength (d : Line) : Nat := fieldN d 64 32
def ldSubst (d : Line) : Bool := bitAt d 96
def ldResult (d : Line) : Nat := fieldN d 128 41 / 64 * 64
def ldProgLocal (d : Line) : Nat := fieldN d 192 36
def ldProgKib (d : Line) : Nat := fieldN d 228 21
def ldPlace (d : Line) (n : Nat) : Nat := fieldN d (256 + 8 * n) 5
def ldAuto (d : Line) (n : Nat) : Bool := bitAt d (263 + 8 * n)

/-- The core's accesses of a load (R386 class CORE). -/
def loadWho (tag : BitVec 16) : Who := ⟨.core, .eng, tag, 0⟩

/-! End of a load (R108, R111, R113, R118, R123). -/

/-- How a load ends: CODE 0 when accepted, and where a rejected item lies (R111, R122). -/
structure LoadEnd where
  code : Nat
  phase : Nat
  lpot : Nat
  section_ : Nat
  offset : Nat
  detail : Nat
  deriving DecidableEq, Repr

/-- The strainer core that holds the load: the receiving pot's in phases 1 and 2, the lead's after (R108). -/
def loadHolder (l : Load) : PotIx := if l.phase.toNat ≤ 2 then l.req.recv else l.lead

/-- The result record (R111). -/
def resultBytes (s : State) (l : Load) (e : LoadEnd) : List Byte :=
  bytesOfNat 1 e.code ++ bytesOfNat 1 e.phase ++ bytesOfNat 2 l.id.toNat ++ bytesOfNat 2 l.req.tag.toNat ++ bytesOfNat 1 e.lpot ++
    bytesOfNat 1 e.section_ ++ bytesOfNat 4 e.offset ++ bytesOfNat 4 e.detail ++ bytesOfNat 2 (xlatVer s) ++
    bytesOfNat 1 (steppingCode s.fuses.stepping) ++ bytesOfNat 1 0 ++ bytesOfNat 2 l.leafBase.toNat ++
    bytesOfNat 2 l.leafLen.toNat ++ bytesOfNat 8 0 ++
    (upto 32).map fun i => BitVec.ofNat 8 (nth l.place i 0xFF)

def writeResult (s : State) (l : Load) (e : LoadEnd) : State :=
  writeAddrBytes (loadHolder l) (loadWho l.req.tag) 3 s (ldResult l.descriptor) (resultBytes s l e) false

/-- HUB_REJECT_COUNT (R123, R498). -/
def countReject (s : State) (code : Nat) : State :=
  { s with hfe := { s.hfe with rejectCount := putField (satField s.hfe.rejectCount 0 32 1) 32 8 code } }

/-- The answer of a load command: CODE and PHASE in DETAIL, and the infusion id (R334). -/
def loadAnswer (key : Nat) (st : Status) (code phase : Nat) (inf : BitVec 12) : MemberAns :=
  { simpleAns key st with detail := BitVec.ofNat 32 (code + phase * 256), infusion := some inf }

def loadStatus (code : Nat) : Status := if code = 0 then .ok else if code = 0xF then .timeout else .rejected

/-- The load's answer reaches the host command that asked for it, if one did. -/
def answerLoad (s : State) (l : Load) (e : LoadEnd) : State :=
  match l.req.cmd with
  | some key => answerMember s (loadHolder l) (loadAnswer key (loadStatus e.code) e.code e.phase l.id)
  | none => s

/-- The load in progress ends: the result record, the command's completion, and for a rejection the release of the provisional id
and the count. -/
def endLoad (s : State) (l : Load) (e : LoadEnd) : State :=
  let s1 := answerLoad (writeResult s l e) l e
  let s2 := xlatSettle { s1 with inf := { s1.inf with load := none } }
  if e.code = 0 then s2
  else if 4 ≤ l.phase.toNat ∧ l.id ≠ 0 then countReject (setInf s2 l.id Inf.reset) e.code
  else countReject s2 e.code

/-- The load in progress depends on a pot: its receiving strainer runs there before the hand-off, or it is placed there (R108,
R118). -/
def loadOn (s : State) (n : PotIx) : Bool :=
  s.inf.load.any fun l => (l.phase.toNat ≤ 2 && l.req.recv == n) || l.place.contains n.toNat

/-! Sync words that go (R314, R316). -/

/-- Operations parked or held at some words of a pot complete TIMEOUT. -/
def dropParked (s : State) (n : PotIx) (on : Waiter → Bool) : State :=
  let c := (potOf s n).snc
  let fw := fwWords s n
  let out := (c.waiters ++ c.held).filter on
  runAll (sncReply n) (out.map fun x => (x, Status.timeout, syncView (wordSeen c fw x.index.toNat)))
    (setSnc s n { c with waiters := c.waiters.filter fun x => !on x, held := c.held.filter fun x => !on x })

/-- The operation that a deferred message carries. -/
def deferredOp (x : Deferred) : Waiter :=
  ⟨fieldB x.hdr.addr 5 16, x.yop, 0, x.full, x.operand, .remote x.src x.srcPot x.reqId, x.hdr.tag, x.hdr.infusion, 0⟩

/-- Deferred operations, at any entry port, on some words of a pot are dropped with a fault record of this cause. -/
def dropDeferredOn (s : State) (n : PotIx) (on : Nat → Bool) (cause : Nat) (st : Status) : State :=
  let mine := fun (x : Deferred) => fieldN x.hdr.addr 0 5 == n.toNat && on (fieldN x.hdr.addr 5 16)
  let one := fun (t : State) (q : Nat) =>
    let out := (portAt t q).deferral.filter mine
    runAll (fun u x => sncReply n (sncFault u n (deferredOp x) (fieldN x.hdr.addr 5 16) cause st) (deferredOp x, st, 0)) out
      (updPortAt t q fun p => { p with deferral := p.deferral.filter fun x => !mine x })
  runAll one (upto 64) s

/-- A released infusion's word: ALLOC 0, its parked operations TIMEOUT and its deferred ones dropped (R314). -/
def freeWord (n : PotIx) (s : State) (ix : Nat) : State :=
  let on := fun (x : Waiter) => (opWords x).contains ix
  let s1 := dropDeferredOn (dropParked s n on) n (fun i => i == ix) 3 .rejected
  setSnc s1 n (setSyncWord (potOf s1 n).snc ix { syncWordOf (potOf s1 n).snc ix with alloc := false })

/-- The SNC of a pot returns to its reset state: parked operations TIMEOUT, deferred ones dropped with a record (R316). -/
def resetSnc (s : State) (n : PotIx) : State :=
  let s1 := dropDeferredOn (dropParked s n fun _ => true) n (fun _ => true) 4 .timeout
  setSnc s1 n Snc.reset

/-! Release (R129). -/

/-- A queue entry with MODE 0b00, which clears HEAD and TAIL (R57). -/
def closeQueue (q : Queue) : Queue := { Queue.reset with cfg := putField q.cfg 37 2 0 }

/-- What an infusion holds on one pot is given back. -/
def freeRes (inf : BitVec 12) (s : State) (r : InfRes) : State :=
  let n : PotIx := BitVec.ofNat 5 r.pot
  let s1 := updPot s n fun p => { p with queues := r.queues.foldl (fun m i => tset m i (closeQueue (tget m i Queue.reset))) p.queues }
  let s2 := updPot s1 n fun p =>
    { p with
      mxe := if p.mxe.ftqOwner = some inf then { p.mxe with ftq := [], ftqOwner := none } else p.mxe
      vxe := if p.vxe.dispOwner = some inf then { p.vxe with dispatchQ := [], dispOwner := none } else p.vxe }
  runAll (freeWord n) r.syncs s2

/-- The infusion is FREE (R129). -/
def releaseInfusion (s : State) (inf : BitVec 12) : State :=
  setInf (runAll (freeRes inf) (infOf s inf).res s) inf Inf.reset

/-! A load abandoned (R113, R118). -/

/-- The tray room where a load keeps its microwords for their broadcast (R115, R434). -/
def commitRoom (l : Load) : Nat := fwTemplate (l.req.cmd.getD 0)
/-- The leaf command that loads a pot's microwords (R96, R115). -/
def commitLeaf (l : Load) : BitVec 256 :=
  leafWord l.req.tag.toNat 0 everyLu l.leafBase.toNat 0 0 1 (commitRoom l) (l.leafLen.toNat / 8) 0 0 0 0 0

/-- Set the entries of a table. -/
def putAll {α : Type} (ks : List Nat) (vs : List α) (m : SMap α) : SMap α := (ks.zip vs).foldl (fun t x => tset t x.1 x.2) m

/-- Tables of a pot at the places of a load's resources: queues, descriptors, recipes and SFE tables (R115). -/
def putTables (p : Pot) (r : InfRes) (c : LoadPot) : Pot :=
  let des := fun (k : Nat) => (r.descs.zip c.descs).filter fun x => x.1 / 256 == k
  let seq := fun (q : Seqr) (k : Nat) => { q with descs := (des k).foldl (fun t x => tset t (x.1 % 256) x.2) q.descs }
  { p with
    queues := putAll r.queues c.queues p.queues
    mxeSeq := seq p.mxeSeq 0
    vxeSeq := seq p.vxeSeq 1
    sfeSeq := seq p.sfeSeq 2
    mxe := if r.ftq then { p.mxe with ftq := c.ftq } else p.mxe
    vxe := { p.vxe with recipes := putAll r.recipes c.recipes p.vxe.recipes
                        dispatchQ := if r.dispq then c.dispatchQ else p.vxe.dispatchQ }
    sfe := { p.sfe with descs := putAll r.tables c.tables p.sfe.descs } }

/-- The FTQ and the dispatch queue, where the load has them, belong to an infusion or to none (R225, R253). -/
def ownQueues (p : Pot) (r : InfRes) (owner : Option (BitVec 12)) : Pot :=
  { p with mxe := if r.ftq then { p.mxe with ftqOwner := owner } else p.mxe
           vxe := if r.dispq then { p.vxe with dispOwner := owner } else p.vxe }

/-- Microwords of a range as they were. -/
def revertStore (lo len : Nat) (old new : SMap Word64 × SMap Bool) : SMap Word64 × SMap Bool :=
  (between lo (lo + len)).foldl (fun c a => (tset c.1 a (tget old.1 a 0), tset c.2 a (tget old.2 a false))) new

/-- One pot as it was before the commit: its tables, its microword stores, its sync words; the broadcast of the load leaves the queue
(R113). -/
def revertPot (l : Load) (s : State) (x : LoadPot × CommitUndo) : State :=
  let r := x.1.res
  let n : PotIx := BitVec.ofNat 5 r.pot
  let w := commitLeaf l
  let s1 := updPot s n fun p =>
    let p1 := { ownQueues (putTables p r x.2.was) r none with
      lucq := p.lucq.filter fun q => q.raw != w
      leafWait := p.leafWait.filter fun q => q.raw != w
      runs := p.runs.filter fun q => q.raw != w }
    (p1.lus.map Prod.fst).foldl (fun q i =>
      let old := ((x.2.stores.find? fun e => e.1 == i).map Prod.snd).getD ([], [])
      setLuCode q i (revertStore l.leafBase.toNat l.leafLen.toNat old (luCode q i))) p1
  let s2 := runAll (freeWord n) r.syncs s1
  setSnc s2 n ((r.syncs.zip x.2.was.syncs).foldl (fun c y => setSyncWord c y.1 y.2) (potOf s2 n).snc)

/-- XV_INTERRUPTED: DETAIL is the physical pot (R118, R122). What a commit has written is taken back, and the code arises in phase 7. -/
def interruptLoad (s : State) (n : PotIx) : State :=
  match s.inf.load with
  | none => s
  | some l =>
    let lp := ((upto l.place.length).find? fun i => nth l.place i 0xFF == n.toNat).getD 0xFF
    let s1 := if l.phase = 8 then runAll (revertPot l) (l.pots.zip l.undo) s else s
    endLoad s1 l ⟨0xF, Nat.min 7 l.phase.toNat, lp, 0xFF, 0, n.toNat⟩

/-! Infusions under a reset or a retirement (R128, R461). -/

/-- Infusions that a pot holds part of fail: every LOADED one, and a DRAINING one of which a command is interrupted. -/
def failInfusions (s : State) (n : PotIx) (hit : BitVec 12 → Bool) : State :=
  let out := s.inf.table.filter fun e =>
    bitAt e.2.pots n.toNat && (e.2.state == 2 || (e.2.state == 3 && hit (BitVec.ofNat 12 e.1)))
  runAll (fun t e => failInfusion (markFailing t (BitVec.ofNat 12 e.1)) (BitVec.ofNat 12 e.1)) out s

/-- A command of an infusion runs on a pot. -/
def runsOn (p : Pot) (inf : BitVec 12) : Bool :=
  ([Eng.mxe, .vxe, .sfe].any fun e => (seqOf p e).running && (seqOf p e).infusion == inf) ||
    p.runs.any fun r => lcInf r.raw == inf

/-- What a reset or a retirement of a pot does to infusions, and to the load placed there. -/
def failTouched (s : State) (n : PotIx) : State :=
  let s1 := failInfusions s n (runsOn (potOf s n))
  if loadOn s1 n then interruptLoad s1 n else s1

end Sys2Proof.Machine
end

