-- ==== Sys2Proof/Machine/Permits.lean ====
section
/-!
DEFINITION. The permit commands: requests, the sub-governor's hub cycle, releases, precedence and overdraw, a brewer core's PMT_REQ
slot, writes of the budget registers, and the activity clamp (R404 to R417, R431).
-/

namespace Sys2Proof.Machine

/-- An engine asks before a command that R63 step 1 lets run (R408). -/
def engAsks (s : State) (n : PotIx) (e : Eng) : State :=
  let q := seqOf (potOf s n) e
  match q.cmdq with
  | [] => s
  | c :: _ =>
    if !q.running && infOn s (ecInf c) n && engPresent s n e && (potOf s n).trayClear then
      permitAsk s n (engClass e) 0 (ecTag c) (ecInf c)
    else s

/-- PERMIT_REQUEST: a requester that needs a hold for its next operation asks for it (R408, R410). -/
def execPermitRequest (n : PotIx) (cls : PermitClass) (unit : BitVec 6) (s : State) : Result :=
  if !potOn s n then .next s
  else
    match cls with
    | .leaf =>
      match chanWants s n unit.toNat with
      | some r => .next (permitAsk s n .leaf unit (lcTag r.raw) (lcInf r.raw))
      | none => .next s
    | .mxe => .next (engAsks s n .mxe)
    | .vxe => .next (engAsks s n .vxe)
    | .sfe => .next (engAsks s n .sfe)
    | .fw =>
      whenDo (decide (unit.toNat < 8) && decide (pmtCost s n .fw unit.toNat ≠ 0)) s (permitAsk s n .fw unit 0 0)

/-- PERMIT_GRANT_CYCLE: one hub cycle of the sub-governor. A value that disagrees with its complement is reported and stops
every grant (R411, R416). -/
def execPermitGrantCycle (n : PotIx) (s : State) : Result :=
  let q := potOf s n
  if !potPresent s n then .next s
  else if pmtGood q.pmt then .next (setPot s n (grantCycle q))
  else if q.pmt.mismatch then .next s
  else
    .next (sendFault (setPot s n { q with pmt := { q.pmt with mismatch := true } })
      (plainFault (potIsland n 19) 8 1 0 0))

/-- PERMIT_RELEASE: a release that was sent at a completion reaches the sub-governor (R407, R409). -/
def execPermitRelease (n : PotIx) (cls : PermitClass) (unit : BitVec 6) (s : State) : Result :=
  whenDo ((tfind (potOf s n).pmt.holds (permitKey cls unit.toNat)).any Hold.leaving) s
    (updPot s n fun q => { q with pmt := permitFreeHold q.pmt cls unit.toNat })

/-- The oldest request of a class that has no precedence yet gains it. -/
def givePrecedence (cls : PermitClass) : List PermitWait → List PermitWait
  | [] => []
  | w :: ws => if w.cls == cls && !w.precedence then { w with precedence := true } :: ws else w :: givePrecedence cls ws

/-- PERMIT_PRECEDENCE: the oldest request of the class without precedence has waited 50 µs (R412). -/
def execPermitPrecedence (n : PotIx) (cls : PermitClass) (s : State) : Result :=
  let p := (potOf s n).pmt
  whenDo (pmtGood p && p.waits.any fun w => w.cls == cls && !w.precedence) s
    (updPot s n fun q => { q with pmt :=
      { p with waits := givePrecedence cls p.waits, events := satField p.events 32 16 1 } })

/-- The head of a class is due to be granted even when FREE does not cover it. -/
def giveOverdraw (cls : PermitClass) : List PermitWait → List PermitWait
  | [] => []
  | w :: ws => if w.cls == cls then { w with overdraw := true } :: ws else w :: giveOverdraw cls ws

/-- PERMIT_OVERDRAW: the head of the class holds precedence and has waited 150 µs; the hub cycle grants it as soon as it is the
candidate and FREE is not below 0 (R413). -/
def execPermitOverdraw (n : PotIx) (cls : PermitClass) (s : State) : Result :=
  let p := (potOf s n).pmt
  whenDo (pmtGood p && (classHead p cls).any PermitWait.precedence) s
    (updPot s n fun q => grantCycle { q with pmt := { p with waits := giveOverdraw cls p.waits } })

/-- REQ: a write of PMT_REQ with REQ set (R408, R431). STEEPS 0 is reserved and leaves the field as it is (R13). -/
def execReq (n : PotIx) (core : BitVec 3) (steeps : BitVec 10) (s : State) : Result :=
  let u : BitVec 6 := BitVec.ofNat 6 core.toNat
  let old := tget (potOf s n).pmt.reqs core.toNat 0
  let w := if steeps = 0 then old else putField old 0 10 steeps.toNat
  let s1 := updPot s n fun q => { q with pmt := { q.pmt with reqs := tset q.pmt.reqs core.toNat w } }
  whenDo (potOn s n) s (if fieldN w 0 10 = 0 then s1 else permitAsk s1 n .fw u 0 0)

/-- RELEASE: a write of PMT_REQ with RELEASE set frees the core's hold or withdraws its request (R408, R431). -/
def execRelease (n : PotIx) (core : BitVec 3) (s : State) : Result :=
  whenDo (potOn s n) s (updPot s n fun q => { q with pmt := permitDrop q.pmt .fw core.toNat })

/-! Budget writes (R405, R406, R431). -/

def pmtHubKey : Nat := 0x2000
def pmtPoolKey (n : PotIx) : Nat := potReg n 0x8000

/-- ALLOT as a later write will see it: buffered, else applied. -/
def allotNow (s : State) (n : PotIx) : Nat :=
  match bufferOf s (pmtPoolKey n) with
  | some v => v % 1024
  | none => (potOf s n).pmt.allot.toNat
def budgetNow (s : State) : Nat :=
  match bufferOf s pmtHubKey with
  | some v => v % 65536
  | none => s.pmtHub.potBudget.toNat

def allotSum (s : State) (skip : Option PotIx) : Nat :=
  (((enabledPots s).filter fun n => some n != skip).map (allotNow s)).sum

/-- The limits that a write of PMT_HUB must keep (R405). -/
def hubBudgetOk (s : State) (v : Word64) : Bool :=
  decide (fieldN v 0 16 + fieldN v 16 12 + 160 ≤ 16000) && decide (allotSum s none ≤ fieldN v 0 16)

/-- The limits that a write of PMT_POOL must keep (R405, R406). -/
def poolOk (s : State) (n : PotIx) (v : Word64) : Bool :=
  decide (fieldN v 0 10 ≤ 600) && decide (allotSum s (some n) + fieldN v 0 10 ≤ budgetNow s) &&
    decide (fieldN v 10 10 ≤ fieldN v 0 10 / 4)

def rejectBudget (s : State) : State :=
  { s with pmtHub := { s.pmtHub with budgetRej := satAdd s.pmtHub.budgetRej 1 } }

/-- The hub's values agree with their complements (R416). -/
def pmtHubGood (h : PmtHub) : Bool := agree h.potBudget h.potBudgetN && agree h.unallotted h.unallottedN

/-- The first disagreement of the hub's values is reported (R416). -/
def noteHubMismatch (s : State) : State :=
  if pmtHubGood s.pmtHub || s.pmtHub.mismatch then s
  else sendFault { s with pmtHub := { s.pmtHub with mismatch := true } } (plainFault (hubIsland 5) 8 2 0 0)

/-- The commit of PMT_HUB: the W1C bit at once, the RWB fields into the buffer (R405, R488). -/
def writePmtHub (s : State) (v : Word64) : State :=
  let s0 := noteHubMismatch s
  let s1 := if bitAt v 52 then { s0 with pmtHub := { s0.pmtHub with mismatch := false } } else s0
  if !pmtHubGood s.pmtHub then s1
  else if hubBudgetOk s v then setBuffer s1 pmtHubKey (fieldN v 0 28)
  else rejectBudget s1

/-- The commit of PMT_POOL; a disagreement at the hub blocks it (R405, R406, R416, R488). -/
def writePmtPool (s : State) (n : PotIx) (v : Word64) : State :=
  let s0 := noteHubMismatch s
  let s1 := if bitAt v 39 then updPot s0 n fun q => { q with pmt := { q.pmt with mismatch := false } } else s0
  if !pmtHubGood s.pmtHub then s1
  else if poolOk s n v then setBuffer s1 (pmtPoolKey n) (fieldN v 0 20)
  else rejectBudget s1

/-- PMT_BUDGET_WRITE: the commit of PMT_HUB, or of a pot's PMT_POOL (R405, R406). -/
def execPmtBudgetWrite (window : Window) (value : Word64) (s : State) : Result :=
  match window with
  | .hub => whenDo (hubOn s) s (writePmtHub s value)
  | .pot n => whenDo (potPresent s n) s (writePmtPool s n value)

/-- Both halves of a pot's values, with FREE from the hold table (R406, R415, R416). -/
def setPool (s : State) (n : PotIx) (v : Nat) : State :=
  updPot s n fun q =>
    { q with pmt := pmtRecalc (setLevel (setStanding (setAllot q.pmt (v % 1024)) (v / 1024 % 1024)) q.pmt.lvl.toNat) }

/-- UNALLOTTED: POT_BUDGET less the sum of ALLOT (R431). -/
def recalcHub (s : State) : State :=
  let sum := ((enabledPots s).map fun n => (potOf s n).pmt.allot.toNat).sum
  let u : BitVec 16 := BitVec.ofNat 16 (s.pmtHub.potBudget.toNat - sum)
  { s with pmtHub := { s.pmtHub with unallotted := u, unallottedN := ~~~u, potBudgetN := ~~~s.pmtHub.potBudget } }

/-! The activity clamp (R414). -/

/-- Engine cycles that a clamp level freezes in 1 µs: C of every 8 of 2,500 (log entry 23). -/
def clampCycles (c : Nat) : Nat := c * 2500 / 8

/-- ACTIVITY_ESTIMATE: the pot's estimate of the last 1 µs moves the clamp level; the cycles frozen in it are counted (R414). -/
def execActivityEstimate (n : PotIx) (est : BitVec 17) (s : State) : Result :=
  let q := potOf s n
  let p := q.pmt
  let a := pmtAeff p
  let c := p.clamp.toNat
  let c1 := if a < est.toNat then Nat.min 8 (c + 1) else if est.toNat * 16 ≤ a * 15 then c - 1 else c
  let k := clampCycles c
  whenDo (potOn s n) s (setPot s n
    { q with
      pmt := { p with est := est, clamp := BitVec.ofNat 4 c1, events := satField p.events 56 40 k }
      vxe := { q.vxe with stalls := satField q.vxe.stalls 0 40 k }
      sfe := { q.sfe with stalls := satField q.sfe.stalls 0 40 k } })

end Sys2Proof.Machine
end

