-- ==== Sys2Proof/Machine/Resets.lean ====
section
/-!
DEFINITION. What a reset does to each block: agents and their outstanding operations, running and queued work (R461), the registers
that return to their reset values (R483, R490), the engines, and a whole pot (R455 to R458).
-/

namespace Sys2Proof.Machine

/-! Registers and anchors. -/

/-- Registers that a reset returns to their reset values lose their buffered writes and end their parity faults (R490, R494). -/
def dropKeys (s : State) (gone : Nat → Bool) : State :=
  { s with regs := { s.regs with
      buffered := s.regs.buffered.filter (fun e => !gone e.1)
      applied := s.regs.applied.filter (fun e => !gone e.1)
      holding := s.regs.holding.filter (fun e => !gone e.1)
      parityBad := s.regs.parityBad.filter (fun k => !gone k) } }

/-- A key lies in a range of a pot's window. -/
def inWindow (n : PotIx) (lo hi key : Nat) : Bool := decide (potReg n lo ≤ key ∧ key < potReg n hi)
/-- A key is an entry of an indirect space of a pot. -/
def inSpace (n : PotIx) (space key : Nat) : Bool :=
  decide (entryKey (potWin n) space 0 ≤ key ∧ key < entryKey (potWin n) (space + 1) 0)

/-- The cycle counter of an island that leaves reset starts at 0, so that its records have no anchor until the next cupping (R504,
R510). -/
def loseAnchors (s : State) (n : PotIx) (units : List Nat) : State :=
  let one := fun (e : Nat × Capture) => if units.contains e.1 then (e.1, { e.2 with anchored := false }) else e
  updPot s n fun p => { p with cup := { p.cup with captures := p.cup.captures.map one } }

/-! Agents. -/

/-- The agents that a pot holds: its sequencers and the request slots of its cores. -/
def agentOfPot (n : PotIx) : Agent → Bool
  | .sequencer m _ => m == n
  | .brewerSlot m _ _ => m == n
  | _ => false

/-- The request slots of one brewer core. -/
def agentOfCore (n : PotIx) (c : BitVec 3) : Agent → Bool
  | .brewerSlot m d _ => m == n && d == c
  | _ => false

/-- Parked and held operations of some agents leave every SNC without a response (R316). -/
def dropAgents (s : State) (mine : Agent → Bool) : State :=
  { s with pots := s.pots.map fun e => (e.1, { e.2 with snc := { e.2.snc with
      waiters := e.2.snc.waiters.filter fun w => !mine w.agent, held := e.2.snc.held.filter fun w => !mine w.agent } }) }

/-- A remote answer that some agents would take. -/
def remoteOf (mine : Agent → Bool) (r : RemoteReq) : Bool :=
  match r.what with
  | .sync a => mine a
  | _ => false

/-- The outstanding remote requests that a pot reset ends: all but those of the hub's members. -/
def remoteKept (r : RemoteReq) : Bool :=
  match r.what with
  | .member _ _ => true
  | .sync (.hostCmd _) => true
  | .sync (.hubSlot _ _) => true
  | _ => false

/-! Interrupted leaf work (R48, R461). -/

/-- The loss event of a member starts for the hub's node (R48). -/
def loseMember (s : State) (n : PotIx) (key : Nat) : State :=
  match memberOf s key with
  | some (c, _) => { s with hfe := { s.hfe with losses := s.hfe.losses ++ [(c.id, n)] } }
  | none => s

/-- A leaf command that the distributor has resolved: of infusion 0 its member is lost; of another, it has failed and completes; the
share of another pot's command ends without answers. -/
def endRun (n : PotIx) (s : State) (r : LeafRun) : State :=
  match r.origin with
  | .host key => if lcInf r.raw ≠ 0 then leafComplete s n r.raw r.origin (runAnswer r) 0 0 else loseMember s n key
  | .away _ _ => leafComplete s n r.raw r.origin ⟨0, runExpected r, 0, .timeout, true, false, .none, 0, none⟩ 0 0
  | _ => inflightDown s (lcInf r.raw)

/-- A leaf command still in the queue: a host command's member of infusion 0 is lost, the others complete REJECTED (R48, R461). -/
def endQueued (n : PotIx) (s : State) (q : LeafQ) : State :=
  match q.origin with
  | .host key => if lcInf q.raw ≠ 0 then leafRefuse s n q .rejected else loseMember s n key
  | _ => leafRefuse s n q .rejected

/-- The leaf commands of a pot end. -/
def endLeaf (s : State) (n : PotIx) : State :=
  let p := potOf s n
  runAll (endQueued n) p.lucq (runAll (endRun n) p.runs (setPot s n { p with runs := [], lucq := [] }))

/-- A pot's work ends: infusions that touch it fail, leaf commands end, its agents' operations leave (R316, R461). -/
def endWork (s : State) (n : PotIx) : State :=
  let s1 := endLeaf (failTouched s n) n
  let s2 := dropAgents s1 (agentOfPot n)
  resetSnc (updPot s2 n fun p => { p with remote := p.remote.filter remoteKept }) n

/-! Engines (R226, R253, R260, R285). -/

def resetMxe (p : Pot) : Pot := { p with mxe := { Mxe.reset with failed := p.mxe.failed, ftqOwner := p.mxe.ftqOwner } }
def resetVxe (p : Pot) : Pot :=
  { p with
    mxe := { p.mxe with ftq := [] }
    vxe := { Vxe.reset with recipes := p.vxe.recipes, dispOwner := p.vxe.dispOwner } }
def resetSfe (p : Pot) : Pot :=
  { p with
    vxe := { p.vxe with dispatchQ := [] }
    sfe := { Sfe.reset with descs := p.sfe.descs, nextTicket := p.sfe.nextTicket } }

def resetEngine (p : Pot) (e : Eng) : Pot :=
  let q := setSeq p e Seqr.reset
  match e with
  | .mxe => resetMxe q
  | .vxe => resetVxe q
  | .sfe => resetSfe q

/-- An engine's own command ends TIMEOUT and its queued ones REJECTED (R461). -/
def endEngine (s : State) (n : PotIx) (e : Eng) : State :=
  let q := seqOf (potOf s n) e
  let s1 := failInfusions s n fun inf => q.running && q.infusion == inf
  let s2 := if (seqOf (potOf s1 n) e).running then engFinish s1 n e .timeout else s1
  let out := (seqOf (potOf s2 n) e).cmdq
  runAll (fun t c => engReject t n e c) out (updSeq s2 n e fun q => { q with cmdq := [] })

/-- Stores that stalled on the engine's queue go on as it empties; for an engine that is absent they complete ABSENT_UNIT (R5, R64). -/
def admitStalled (s : State) (n : PotIx) (e : Eng) : State :=
  runAll (fun t (x : Eng × BitVec 256) =>
      if x.1 ≠ e then t
      else if engPresent t n e then refillCmdq t n e
      else absentCmd (updPot t n fun p => { p with pushWait := p.pushWait.erase x }) n e x.2)
    (potOf s n).pushWait s

/-- An engine reset: its sequencer, its pipeline and what R260 and R285 name; its hold and request (R417). -/
def engineResetAll (s : State) (n : PotIx) (e : Eng) : State :=
  let s1 := dropAgent (endEngine s n e) (.sequencer n e)
  let s2 := updPot s1 n fun p =>
    let q := resetEngine p e
    { q with
      remote := p.remote.filter fun r => !remoteOfEng n e r
      pmt := permitDrop p.pmt (engClass e) 0 }
  let base := 0x3000 + 0x1000 * engNo e
  loseAnchors (dropKeys s2 (inWindow n base (base + 0x1000))) n [engUnit e]

/-! A brewer core (R316, R417). -/

/-- A core's slots, operations, hold and request go; its LU, event queue and firmware stay (R435); the strainer role passes on (R106). -/
def coreResetAll (s : State) (n : PotIx) (c : BitVec 3) : State :=
  let holds := strainerCore (potOf s n) == some c.toNat
  let s1 := if loadOn s n && holds then interruptLoad s n else s
  let s2 := dropAgents s1 (agentOfCore n c)
  let s3 := updPot s2 n fun p =>
    { p with
      remote := p.remote.filter fun r => !remoteOf (agentOfCore n c) r
      snc := { p.snc with slots := p.snc.slots.filter fun e => e.1 / 4 != c.toNat }
      sncIrq := putBit p.sncIrq c.toNat false
      pmt := { permitDrop p.pmt .fw c.toNat with reqs := tdel p.pmt.reqs c.toNat }
      strainer := if holds then nextStrainer p c.toNat else p.strainer
      cores := tset p.cores c.toNat ⟨p.fwRunning, 0, 0⟩ }
  loseAnchors s3 n [8 + c.toNat]

/-! A pot (R458). -/

/-- A scheduler loses the LU port's requests (step 4). -/
def dropLuPort (c : Sched) : Sched := { c with lu := [], queue := c.queue.filter fun e => e.port != .lu }

/-- Every hold and waiting request is released; ALLOT, STANDING, L and C are kept, and so is a disagreement of their halves (R416,
R417). -/
def clearHolds (p : Pmt) : Pmt :=
  let q := { p with holds := [], waits := [], reqs := [] }
  if pmtGood p then pmtRecalc q else q

/-- A port's registers at their reset values; the link's own course goes on under R362. -/
def resetPortRegs (p : Port) : Port := { p with enable := true, laneLimit := Port.reset.laneLimit, events := 0, traffic := 0 }

/-- A bank copy, or a patrol command that waits, is abandoned (R396; log entry 64). -/
def abandonRepair (t : Pat) : Pat :=
  if t.copy.isSome || t.waits.isSome then
    { t with copy := none, waits := none, cmd := putField (putBit t.cmd 4 false) 5 3 5 }
  else t

/-- The pot's contents after step 5: what R458 does not reset stays. -/
def clearedPot (p : Pot) : Pot :=
  { Pot.reset with
    router := p.router, inbox := p.inbox, answers := p.answers, mapCopy := p.mapCopy, mapLost := p.mapLost, remote := p.remote, nextReq := p.nextReq,
    bksTimingA := p.bksTimingA, bksTimingB := p.bksTimingB, bksCtl := p.bksCtl, bksRetrain := p.bksRetrain,
    scheds := p.scheds.map (fun e => (e.1, dropLuPort e.2)), bands := p.bands, forced := p.forced, pat := abandonRepair p.pat,
    pmt := clearHolds p.pmt, ports := p.ports.map (fun e => (e.1, resetPortRegs e.2)), streams := p.streams, cup := { p.cup with buffer := [] },
    snapSeq := p.snapSeq, snapValid := false, cfgErr := p.cfgErr, regErr := p.regErr, failedResets := p.failedResets }

/-- A kept register's buffered write is applied as the reset ends (R490): PMT_POOL and PMT_COST of a pot. -/
def applyPmtPot (s : State) (n : PotIx) : State :=
  let s1 := match bufferOf s (pmtPoolKey n) with
    | some v => parityEnds (dropBuffer (recalcHub (setPool s n v)) (pmtPoolKey n)) (pmtPoolKey n)
    | none => s
  let key := potReg n 0x8008
  match bufferOf s1 key with
  | some v => parityEnds (dropBuffer (updPot s1 n fun p => { p with pmt := { p.pmt with cost := BitVec.ofNat 64 v } }) key) key
  | none => s1

/-- The buffered fields of PMT_HUB are applied. -/
def applyPmtHub (s : State) : State :=
  match bufferOf s pmtHubKey with
  | some v =>
    let b : BitVec 16 := BitVec.ofNat 16 v
    parityEnds (dropBuffer
      (recalcHub { s with pmtHub := { s.pmtHub with potBudget := b, potBudgetN := ~~~b, linkRes := BitVec.ofNat 12 (v / 65536) } })
      pmtHubKey) pmtHubKey
  | none => s

/-- Islands of a pot that its reset covers (R458, R504). -/
def resetUnits : List Nat := [0, 1, 2, 3, 4, 6, 8, 9, 10, 11, 12, 13, 14, 15, 16, 17, 18]

/-- Both ports of a pot stop with a reason (R362, R375). -/
def stopPorts (s : State) (n : PotIx) (reason : Nat) : State := portStop (portStop s n 0 reason) n 1 reason

/-- Steps 1 to 5 of R458: the pot is in reset, its work has ended and its blocks are cleared. -/
def clearPot (s : State) (n : PotIx) : State :=
  let s1 := endWork (stopPorts s n 1) n
  let s2 := trayClear (updPot s1 n clearedPot) n
  let gone := fun key =>
    inWindow n 0x2000 0x7000 key || inWindow n 0x9000 0xA000 key || [0x10, 0x11, 0x12, 0x14].any fun sp => inSpace n sp key
  loseAnchors (applyPmtPot (dropKeys s2 gone) n) n resetUnits

/-- The LU numbers that a pot has (R134); a list of LUs that failed a self-test counts for these only. -/
def realLu (i : LuIx) : Bool := decide (i.toNat < Config.lusPerPot)

/-- Step 6: the self-tests' outcome (R180, R227). -/
def selfTested (s : State) (n : PotIx) (failedLus : List LuIx) (mxePass : Bool) : State :=
  updPot s n fun p =>
    { p with
      lus := (failedLus.filter realLu).foldl (fun m i => tset m i.toNat { Lu.reset with dead := true }) p.lus
      mxe := { p.mxe with failed := mxeFused s && !mxePass } }

/-- Step 7: BREWFW starts on the pot's eight cores; in plain memory no core runs (R450). -/
def startCores (s : State) (n : PotIx) : State :=
  updPot s n fun p =>
    { (if s.fw.running then fillPot s n p else p) with
      inReset := false, fwRunning := s.fw.running, failedResets := 0, cores := (upto 8).map fun c => (c, ⟨s.fw.running, 0, 0⟩) }

/-- HUB_RESET_CTL after a START of a KIND on a POT, and where the kind has one a UNIT, with its RESULT (R475). -/
def resetCtl (s : State) (kind : Nat) (n : PotIx) (unit : Option Nat) (result : Nat) : State :=
  let w := putField (putField (putField s.svc.resetCtl 0 3 kind) 3 5 n.toNat) 13 2 result
  { s with svc := { s.svc with resetCtl := match unit with
      | some u => putField w 8 3 u
      | none => w } }

end Sys2Proof.Machine
end

