-- ==== Sys2Proof/Machine/Firmware.lean ====
section
/-!
DEFINITION. Updates of firmware through HUB_FW_CTL (R448, R449, R454), the owner key through HUB_KEY_CTL (R445) and the
last-known-good set (R446).
-/

namespace Sys2Proof.Machine

/-- HUB_FW_CTL and HUB_KEY_CTL are served: by hub firmware, or in plain memory by the boot ROM (R450). -/
def mgmtServed (s : State) : Bool := hubOn s && s.power.step == .running

/-- A START is taken unless an operation runs; one written while the register's parity fault held only ends the fault (R448, R493,
R494). -/
def fwRun (s : State) (r : State) : Result :=
  if regBad s fwKey then .next (parityEnds s fwKey) else whenDo (mgmtServed s && !fwBusy s) s r

/-! STAGE (R441, R448). -/

/-- Image reads go as the hub cores' (R386). -/
def stageWho : Who := ⟨.core, .eng, 0, 0⟩

/-- The image at SRC: its header, and the body when the header's length fits the slot; with the state and the poison found. -/
def readImage (s : State) (k : FwKind) (src : BitVec 41) : State × List Byte × Bool :=
  let h := readAddrBytes s (homePot src) stageWho src.toNat 0x200
  if !imgHeaderOk k h.2.1 || decide (slotRoom k < 0x200 + imgBodyLen h.2.1) then h
  else
    let b := readAddrBytes h.1 (homePot src) stageWho (src.toNat + 0x200) (imgBodyLen h.2.1)
    (b.1, h.2.1 ++ b.2.1, h.2.2 || b.2.2)

/-- RESULT of a STAGE: a flash error without the caddy's rail; a word read poisoned fails the digest. -/
def stageResult (s : State) (k : FwKind) (bs : List Byte) (bad : Bool) : Nat :=
  let c := imageCheck s k bs
  if c = 2 ∨ c = 7 then c else if bad then 3 else if c ≠ 0 then c else if s.power.pgCaddy then 0 else 9

/-- The slot is erased and written with a SEQ one above the other slot's (R441). -/
def writeSlot (s : State) (k : FwKind) (bs : List Byte) : State :=
  let b := freeSlotOf s.caddy k
  let other := (slotTable s.caddy k (.slot (!b))).elim (0 : BitVec 32) CaddySlot.seq
  let x : CaddySlot := ⟨bs, other + 1, false⟩
  let c := s.caddy
  { s with
    caddy := if b then { c with slotB := tset c.slotB (kindCode k) x } else { c with slotA := tset c.slotA (kindCode k) x }
    fw := { s.fw with staged := tset s.fw.staged (kindCode k) true } }

/-- STAGE. -/
def execStage (k : FwKind) (src : BitVec 41) (s : State) : Result :=
  let from_ : BitVec 41 := BitVec.ofNat 41 (src.toNat / 4 * 4)
  let r := readImage s k from_
  let res := stageResult r.1 k r.2.1 r.2.2
  fwRun s
    (if res = 0 then fwStart (writeSlot r.1 k r.2.1) k 1 from_.toNat false 1
     else fwStart r.1 k 1 from_.toNat false res)

/-! ACTIVATE (R448, R449). -/

/-- The running set with the staged image in place of its kind. -/
def trialSet (s : State) (k : FwKind) (bs : List Byte) : List (Nat × List Byte) :=
  setKinds.map fun j => (kindCode j, if j = k then bs else runImage s j)

/-- RESULT that refuses an ACTIVATE before it starts, or 0. -/
def activateRefused (s : State) (k : FwKind) : Nat :=
  if !s.power.pgCaddy then 9
  else if !tget s.fw.staged (kindCode k) false then 2
  else
    match imageAt s.caddy k (.slot (freeSlotOf s.caddy k)) with
    | none => 2
    | some bs =>
      if imageCheck s k bs ≠ 0 then imageCheck s k bs
      else if k ≠ .owndef ∧ s.fw.running ∧ (untestedPair (trialSet s k bs)).isSome then 6 else 0

/-- The pointer record alone: for OWNDEF, and for every kind in plain memory (R448, R450). -/
def pointOnly (s : State) (k : FwKind) : State :=
  let s1 := writePointer s (putCommitted (curPointer s.caddy) k (.slot (freeSlotOf s.caddy k)))
  fwEnd { s1 with fw := { s1.fw with staged := tset s1.fw.staged (kindCode k) false } } k 1

/-- An activation begins; one that waits for nothing goes through at once. -/
def activateStart (s : State) (k : FwKind) : State :=
  if k = .owndef ∨ !s.fw.running then pointOnly s k
  else
    let s1 := setActivating { s with fw := { s.fw with awaiting := s.fw.awaiting ++ [k], leafDie := 0 } }
    match k with
    | .brewfw => brewSettle s1
    | .leafmc => leafmcSettle s1
    | .xlat => xlatSettle s1
    | _ => s1

/-- ACTIVATE. -/
def execActivate (k : FwKind) (s : State) : Result :=
  let r := activateRefused s k
  let src := fieldN s.fw.fwCtl 16 41
  fwRun s (if r = 0 then activateStart (fwStart s k 2 src true 0) k else fwStart s k 2 src false r)

/-! BREWFW, pot by pot (R449). -/

/-- Steps 3 to 5: the pot's cores are reset, so that their parked operations and PMT_REQ holds go, and start again. -/
def restartCores (s : State) (n : PotIx) : State :=
  updPot (runAll (fun t c => coreResetAll t n (BitVec.ofNat 3 c)) (upto 8) s) n fun p => { p with quiesced := false }

/-- BREWFW_POT_QUIESCE: the next pot of the activation, once no load is in progress, is quiesced and started with the new image; one
whose self-check does not pass stays quiesced. -/
def execBrewfwPotQuiesce (n : PotIx) (selfCheck : Bool) (s : State) : Result :=
  let s1 := restartCores s n
  whenDo (s.fw.awaiting.contains .brewfw && s.inf.load.isNone && decide (nextMove s = some n) && !(potOf s n).quiesced) s
    (if selfCheck then brewSettle { s1 with fw := { s1.fw with moved := s1.fw.moved ++ [n.toNat] } }
     else updPot s1 n fun p => { p with quiesced := true })

/-- BREWFW_SELFCHECK_TIMEOUT: 100 ms without a passed self-check: the pots already moved, and this one, return to the old image, and
RESULT reads SELFCHECK. -/
def execBrewfwSelfcheckTimeout (n : PotIx) (s : State) : Result :=
  let back := (s.fw.moved.map (BitVec.ofNat 5)) ++ [n]
  whenDo (s.fw.awaiting.contains .brewfw && (potOf s n).quiesced) s
    (fwEnd (runAll (fun t m => if potOn t m then restartCores t m else t) back s) .brewfw 8)

/-- HUBFW_HANDOVER: the standby pair has loaded the new image and passed its self-check; it becomes the active pair. -/
def execHubfwHandover (s : State) : Result :=
  whenDo (s.fw.awaiting.contains .hubfw) s
    (commitKind { s with fw := { s.fw with activePair := !s.fw.activePair } } .hubfw)

/-! The last-known-good set (R446). -/

/-- LKG_RECORD: the set that booted, and still runs, has run for 600 s. -/
def execLkgRecord (s : State) : Result :=
  let p := curPointer s.caddy
  let pl := runPlace s
  whenDo (s.fw.running && !s.fw.booted600 && decide (s.fw.bootImages = s.fw.runImages) && s.power.pgCaddy) s
    (let s1 := writePointer s
      { p with lkgHubfw := pl .hubfw, lkgBrewfw := pl .brewfw, lkgLeafmc := pl .leafmc, lkgXlat := pl .xlat }
     { s1 with fw := { s1.fw with booted600 := true } })

/-! The owner key (R445). -/

def keyCtlKey : Nat := 0x18
def stagedKey (s : State) : BitVec 256 := fieldB s.fw.keyStage 0 256
def stagedSig (s : State) : List Byte := bytesOfNat 64 (fieldN s.fw.keyStage 256 512)
def keyWindow (s : State) : Bool := bitAt s.fw.keyCtl 7
/-- OP and RESULT of a START; WINDOW stays. -/
def keyEnd (s : State) (op result : Nat) : State :=
  { s with fw := { s.fw with keyCtl := putField (putField (s.fw.keyCtl &&& 0x80) 0 2 op) 4 3 result } }
def keyRun (s : State) (r : State) : Result :=
  if regBad s keyCtlKey then .next (parityEnds s keyCtlKey) else whenDo (mgmtServed s) s r
/-- The enrolled key has signed the SHA-512 of a message with the staged signature. -/
def ownerSigned (s : State) (msg : List Byte) : Bool :=
  ownerUsable s.caddy.owner && edVerify (keyBytes s.caddy.owner.key) (stagedSig s) (sha512 msg)
/-- The record is written, and OWNER_ENROLLED in HUB_BOOT follows it. -/
def setOwner (s : State) (o : OwnerKey) : State :=
  { s with caddy := { s.caddy with owner := o }, fw := { s.fw with boot := putBit s.fw.boot 4 (ownerUsable o) } }
def newOwner (s : State) : OwnerKey := ⟨stagedKey s, ~~~stagedKey s, true, true⟩

/-- ENROLL: accepted while no key is enrolled and the window is open. -/
def execEnroll (s : State) : Result :=
  keyRun s
    (if ownerUsable s.caddy.owner || !keyWindow s then keyEnd s 1 2
     else if !s.power.pgCaddy then keyEnd s 1 5
     else keyEnd (setOwner s (newOwner s)) 1 1)

/-- ROTATE: the enrolled key signs the SHA-512 of the new one. -/
def execRotate (s : State) : Result :=
  keyRun s
    (if !ownerSigned s (keyBytes (stagedKey s)) then keyEnd s 2 3
     else if !s.power.pgCaddy then keyEnd s 2 5
     else keyEnd (setOwner s (newOwner s)) 2 1)

/-- The bytes 0x4B45_5652 in ASCII order and 4 zero bytes. -/
def revokeBytes : List Byte := [0x4B, 0x45, 0x56, 0x52, 0, 0, 0, 0]
/-- Some image of the committed set, of the last-known-good set or of the OWNDEF slot in use has KEYID 1. -/
def ownerRelied (s : State) : Bool :=
  let c := s.caddy
  let p := curPointer c
  let owned := fun (k : FwKind) (pl : ImgPlace) => (slotTable c k pl).any fun x => imgKeyId x.bytes == 1
  setKinds.any (fun k => owned k (committedPlace p k) || owned k (lkgPlace p k)) || owned .owndef p.owndef

/-- REVOKE: in the window or signed, and refused while a set in use relies on the key. -/
def execRevoke (s : State) : Result :=
  keyRun s
    (if !keyWindow s && !ownerSigned s revokeBytes then keyEnd s 3 3
     else if ownerRelied s then keyEnd s 3 4
     else if !s.power.pgCaddy then keyEnd s 3 5
     else keyEnd (setOwner s ⟨0, BitVec.allOnes 256, false, true⟩) 3 1)

end Sys2Proof.Machine
end

