-- ==== Sys2Proof/Machine/Retrain.lean ====
section
/-!
DEFINITION. Narrow writes and the merge buffer's time limit (R202, R203), and live retraining of a channel (R204, R205).
-/

namespace Sys2Proof.Machine

/-! Narrow writes (R202, R203). -/

/-- An access to a word waits at its scheduler: a younger one is served after it (R194). -/
def wordWaits (c : Sched) (pl : Place) : Bool :=
  (c.queue ++ c.rt ++ c.eng ++ c.sfe ++ c.lu ++ c.pat).any fun x =>
    !isBus x.req && x.req.bank == pl.bank && x.req.row == pl.row && x.req.col == pl.col

/-- NARROW_WRITE: fewer than 32 B, under a byte mask. It waits for a channel in a retrain, and stays at its source behind an older access
to its word (R194, R205). -/
def execNarrowWrite (n : PotIx) (group : GroupIx) (bank : BitVec 4) (row : BitVec 15) (col : BitVec 6) (data : ColWord)
    (mask : BitVec 32) (poison : Bool) (s : State) : Result :=
  let pl : Place := ⟨n, group, bank, row, col⟩
  if !potPresent s n || mask == 0 || wordWaits (schedOf (potOf s n) group.toNat) pl then .next s
  else if chanServes s n group then .next (narrowServe s pl data mask poison)
  else .next (waitAccess s (.narrow n group bank row col data mask poison))

/-- MERGE_TIMEOUT: the entry of a word has waited MERGE_TIMEOUT cycles without filling. -/
def execMergeTimeout (n : PotIx) (group : GroupIx) (bank : BitVec 4) (row : BitVec 15) (col : BitVec 6) (s : State) : Result :=
  whenDo (potPresent s n && chanServes s n group) s (flushMerge s ⟨n, group, bank, row, col⟩)

/-! Live retraining (R204, R205). -/

def retrainBusy (p : Pot) : Bool := bitAt p.bksRetrain 7
/-- The channel that retrains: GROUP as it stood at START, since a later write may change the field (R12, R206). -/
def retrainGroup (p : Pot) : GroupIx :=
  match (upto 64).find? fun g => (schedOf p g).retraining with
  | some g => BitVec.ofNat 6 g
  | none => fieldB p.bksRetrain 0 6

/-- Serve a queued request whatever the pick: its row is opened first where another is open or none, and the cycles of a row change pass. -/
def drainEntry (n : PotIx) (g : GroupIx) (t : BksTiming) (s : State) (e : BksEntry) : State :=
  let c := schedOf (potOf s n) g.toNat
  if rowHit c e then doCol s n g t false e
  else
    let s1 := if (bankOf c e.req.bank.toNat).openRow.isSome then doPre s n g e.req.bank.toNat none else s
    let s2 := updSched s1 n g fun c => { c with cycle := c.cycle + t.trc }
    doCol (doAct s2 n g e (2 * (c.cycle + t.trc))) n g t false { e with started := true }

/-- Serve every queued request in order of age (step 2). -/
def drainQueue (n : PotIx) (g : GroupIx) (t : BksTiming) : List BksEntry → State → State
  | [], s => s
  | e :: es, s => drainQueue n g t es (drainEntry n g t s e)

/-- Empty the merge buffer, oldest first. -/
def drainMerge (n : PotIx) (g : GroupIx) : List MergeEntry → State → State
  | [], s => s
  | e :: es, s => drainMerge n g es (runMerge (dropMerge s ⟨n, g, e.bank, e.row, e.col⟩) n g e)

/-- Every bank is precharged. -/
def closeBanks (t : BksTiming) (c : Sched) : Sched :=
  (upto 16).foldl (fun c b => if (bankOf c b).openRow.isSome then preBank t c b else c) c

/-- Every refresh owed is issued; those at debt 9 or more are overdue (R190, R201). -/
def payDebts (c : Sched) : Sched :=
  { c with debts := [], events := satField c.events 32 8 ((c.debts.map fun d => d.2 - 8).sum) }

/-- Steps 1 to 4: queued requests, the merge buffer, precharge, owed refreshes (a boundary of R488 where one is issued), self-refresh. -/
def retrainStart (s : State) (n : PotIx) (g : GroupIx) : State :=
  let t := bksTiming s n g
  let s1 := drainQueue n g t (byAge (schedOf (potOf s n) g.toNat)) s
  let s2 := drainMerge n g (schedOf (potOf s1 n) g.toNat).merge s1
  let owed := (schedOf (potOf s2 n) g.toNat).debts.any fun d => decide (0 < d.2)
  let s3 := updSched s2 n g fun c => payDebts (closeBanks t c)
  let s4 := updSched (if owed then bksApply s3 n g else s3) n g fun c => { c with selfRefresh := true, retraining := true }
  updPot s4 n fun p => { p with bksRetrain := BitVec.ofNat 64 (g.toNat + 2 ^ 7) }

/-- RETRAIN: START written with GROUP; ignored while BUSY or under a parity fault of the block (R204, R493). -/
def execRetrain (n : PotIx) (group : GroupIx) (s : State) : Result :=
  whenDo (potOn s n && !retrainBusy (potOf s n) && !bksParity s n && admits (schedOf (potOf s n) group.toNat)) s (retrainStart s n group)

/-- Steps 6 to 8: self-refresh ends, which is also the scheduler's boundary, tXS passes, every debt is 0, and what waited for the channel
is served (R191, R204, R205). -/
def retrainEnd (s : State) (n : PotIx) (g : GroupIx) (result attempts : Nat) : State :=
  let txs := (bksTiming s n g).txs
  let s1 := updSched s n g fun c => { c with selfRefresh := false, retraining := false, debts := [], cycle := c.cycle + txs }
  let s2 := updPot s1 n fun p => { p with bksRetrain := putField (putField (putBit p.bksRetrain 7 false) 8 2 result) 10 2 attempts }
  serveWaiters (bksApply s2 n g)

/-- RETRAIN_ATTEMPT_END: an attempt of step 5 has passed or failed; the third failure ends the retrain with FAIL and a fault
record (R205). -/
def execRetrainAttemptEnd (n : PotIx) (passed : Bool) (s : State) : Result :=
  let p := potOf s n
  let g := retrainGroup p
  let k := fieldN p.bksRetrain 10 2 + 1
  if !potOn s n || !retrainBusy p then .next s
  else if passed then .next (retrainEnd s n g 1 k)
  else if 3 ≤ k then
    .next (sendFault (retrainEnd s n g 2 k)
      (plainFault (potIsland n (dieUnit (dieOf g))) 4 4 (placeAddr ⟨n, g, 0, 0, 0⟩) g.toNat))
  else .next (updPot s n fun p => { p with bksRetrain := putField p.bksRetrain 10 2 k })

end Sys2Proof.Machine
end

