-- ==== Sys2Proof/Machine/MapRows.lean ====
section
/-!
DEFINITION. The blend table's commit and clear (R39 to R41), and the changes of the hub's pot map (R26 to R30).
-/

namespace Sys2Proof.Machine

/-! Blends (R39 to R41). -/

/-- Staged record `r`; bit 81 is not stored (R40). -/
def stagedRec (s : State) (r : Nat) : BitVec 128 := putBit (tget s.blend.stage r 0xFFFF0000000000000000) 81 false
def stagedValid (s : State) : List (BitVec 128) := ((upto 16).map (stagedRec s)).filter recValid

/-- A reserved bit of the record or of its path is set (R41, 1). -/
def recReserved (r : BitVec 128) : Bool := fieldN r 82 46 != 0 || fieldN r 44 20 != 0
/-- A path of this module is not well formed (R41, 2). -/
def recMalformed (r : BitVec 128) : Bool := recModule r == 0xFFFF && !pathOk (recPath r)

/-- The entries that a list of records leads to through local members with TOP=1. -/
def recsLead (s : State) (rs : List (BitVec 128)) : List Nat :=
  (rs.filter fun r => recValid r && ownNode s (recModule r) && pathTop (recPath r)).map fun r => pathBlend (recPath r)
def entryLeads (s : State) (e : Nat) : List Nat := recsLead s ((upto 16).map (blendRec s e))

/-- Following the table from `todo` reaches `target`; `seen` are entries already followed (R41, 3). -/
def leadsTo (s : State) (target : Nat) : (fuel : Nat) → (seen todo : List Nat) → Bool
  | 0, _, _ => false
  | _, _, [] => false
  | f + 1, seen, e :: todo =>
    if e = target then true
    else if seen.contains e then leadsTo s target f seen todo
    else leadsTo s target f (e :: seen) (entryLeads s e ++ todo)

/-- A staged record's stored parity is wrong (R493). -/
def stageBad (s : State) : Bool := (upto 16).any fun r => regBad s (entryKey 0 0x03 r)

/-- HUB_BLEND_CTL: a parity fault makes it ignore COMMIT and CLEAR (R493). -/
def blendKey : Nat := 0x40

/-- RESULT of a commit into an entry, in the order of R41; faulted staging fails as a malformed path (R493). -/
def commitResult (s : State) (entry : Nat) : Nat :=
  let rs := stagedValid s
  if rs.any recReserved then 3
  else if rs.any recMalformed || stageBad s then 2
  else if leadsTo s entry 8192 [] (recsLead s rs) then 1
  else 0

/-- A node that a port reaches now. -/
def nodeReached (s : State) (d : BitVec 16) : Bool :=
  ownNode s d || (!(routeOf s d).lost && (eligible s d).any fun x => (portAt s x).state == .up)

/-- A member record as the commit stores it: LIVE says that its module is reachable (R39). -/
def committedRec (s : State) (r : Nat) : BitVec 128 :=
  let x := stagedRec s r
  putBit x 81 (recValid x && nodeReached s (recModule x))

/-- HUB_BLEND_CTL after a commit or clear has ended. -/
def blendCtlDone (entry result : Nat) : BitVec 32 := BitVec.ofNat 32 (entry + result * 2 ^ 11)

/-- COMMIT: validate the staging area and replace the entry with it. -/
def execCommit (entry : BitVec 8) (s : State) : Result :=
  let e := entry.toNat
  let res := commitResult s e
  let table := if res = 0 then (upto 16).foldl (fun m r => tset m (e * 16 + r) (committedRec s r)) s.blend.table else s.blend.table
  if regBad s blendKey then .next (parityEnds s blendKey)
  else whenDo (hubOn s) s { s with blend := { s.blend with table := table, ctl := blendCtlDone e res } }

/-- CLEAR: an empty blend. -/
def execClear (entry : BitVec 8) (s : State) : Result :=
  let e := entry.toNat
  if regBad s blendKey then .next (parityEnds s blendKey)
  else
    whenDo (hubOn s) s
      { s with blend := { s.blend with
          table := s.blend.table.filter fun x => x.1 / 16 != e
          ctl := blendCtlDone e 0 } }

/-! The pot map (R29). -/

/-- POT_MAP_WRITE: hub firmware requests a change of an entry; accesses through it wait from now on. STATE 0b11 and bits [31:25]
are reserved. -/
def execPotMapWrite (entry : BitVec 11) (value : BitVec 32) (s : State) : Result :=
  whenDo (s.fw.running && (tfind s.map.changes entry.toNat).isNone && decide (entState value ≠ 3)) s
    { s with map := { s.map with changes := tset s.map.changes entry.toNat (putField value 25 7 0) } }

/-- A leaf command that has been resolved through an entry still runs at some pot. -/
def entryInUse (s : State) (ix : Nat) : Bool := allPots.any fun n => (potOf s n).runs.any fun r => r.homes.contains ix

/-- The hub's entry and every pot's copy become the value, and a copy that counted as lost is used again (R29, R30). -/
def setMapEntry (s : State) (ix : Nat) (v : BitVec 32) : State :=
  { s with
    map := { s.map with entries := tset s.map.entries ix (pairOf v), changes := tdel s.map.changes ix }
    pots := s.pots.map fun e =>
      (e.1, { e.2 with mapCopy := tdel e.2.mapCopy ix, mapLost := e.2.mapLost.filter (· != ix) }) }

/-- Apply a change and let what waited resolve through the new entry. -/
def applyMapChange (s : State) (ix : Nat) (v : BitVec 32) : State := serveWaiters (setMapEntry s ix v)

/-- HUB_SVC_CTL runs an UNMIRROR of this entry, which ends with its change. -/
def unmirrorOf (s : State) (ix : Nat) : Bool := bitAt s.svc.ctl 5 && fieldN s.svc.ctl 0 4 == 3 && fieldN s.svc.ctl 15 11 == ix

/-- POT_MAP_CHANGE_APPLY: every access resolved through the old entry has completed (R29); an UNMIRROR that asked for the change is
done (R462). -/
def execPotMapChangeApply (entry : BitVec 11) (s : State) : Result :=
  match tfind s.map.changes entry.toNat with
  | none => .next s
  | some v =>
    let s1 := applyMapChange s entry.toNat v
    whenDo (!entryInUse s entry.toNat) s
      (if unmirrorOf s entry.toNat then { s1 with svc := { s1.svc with ctl := putField (putBit s1.svc.ctl 5 false) 6 4 1 } } else s1)

end Sys2Proof.Machine
end

