-- ==== Sys2Proof/Machine/Patrol.lean ====
section
/-!
DEFINITION. Patrol and repair: row visits, conditional rewrites, row and bank remap, tag fix, scrub range, the checker test (R388 to R403).
-/

namespace Sys2Proof.Machine

def patWho : Who := ⟨.move, .pat, 0, 0⟩

/-- A register of the PAT block has a parity fault (R493). -/
def patParity (s : State) (n : PotIx) : Bool :=
  let lo := potReg n 0x7000
  s.regs.parityBad.any fun k => decide (lo ≤ k) && decide (k < lo + 0x40)

/-! Row visits (R389 to R392). -/

/-- A word of the scrub memory: pass, bank, row, column. -/
def scrubKey (pass : Nat) (pl : Place) : Nat := ((pass * 16 + pl.bank.toNat) * 32768 + pl.row.toNat) * 64 + pl.col.toNat

/-- A HARD word: counted, and its row marked in the error log (R390). -/
def wordHard (s : State) (pl : Place) : State :=
  updPot (patScrubAdd s pl.pot 24 16) pl.pot fun p => logError p (placeAddr pl) 4 63 (classCode .move) (portCode .pat) 0 0

/-- Patrol's conditional rewrite of a corrected word, and its read-back; a word that passed in the pass before and is found CORRECTED
again is HARD (R390, R392). -/
def scrubWord (s : State) (pl : Place) (bytes : List Byte) : State :=
  let c := schedOf (potOf s pl.pot) pl.group.toNat
  let s1 := condRewrite s pl bytes
  if writeWaits c pl then s1
  else
    let r := readRaw s1 pl patWho
    let again := c.scrubbed.contains (scrubKey (c.passes - 1) pl) && decide (0 < c.passes)
    if r.2.out = .clean then
      let s2 := updSched r.1 pl.pot pl.group fun c => { c with scrubbed := scrubKey c.passes pl :: c.scrubbed }
      if again then wordHard s2 pl else patScrubAdd s2 pl.pot 0 24
    else wordHard r.1 pl

/-- One word of a visit. -/
def visitWord (s : State) (pl : Place) : State :=
  match placeRow (potOf s pl.pot) pl with
  | none => (readWordAt s pl patWho).1
  | some ix =>
    let s1 := flushMerge s pl
    if !bitAt (rowMask s1 ix).1 pl.col.toNat then s1
    else
      let r := readRaw s1 pl patWho
      match r.2.out with
      | .corrected _ => scrubWord r.1 pl r.2.bytes
      | _ => r.1

/-- A visit of one row: a BAD row is reported and its words are not read (R390). -/
def visitRow (s : State) (n : PotIx) (g : GroupIx) (bank row : Nat) : State :=
  let pl : Place := ⟨n, g, BitVec.ofNat 4 bank, BitVec.ofNat 15 row, 0⟩
  match placeRow (potOf s n) pl with
  | none => reportMismatch s pl
  | some ix =>
    if (rowMask s ix).2 then noteActivate s pl patWho true
    else runAll (fun t c => visitWord t { pl with col := BitVec.ofNat 6 c }) (upto 64) s

/-- The bank is being copied: patrol skips it (R396). -/
def copySkips (p : Pot) (g : GroupIx) (bank : Nat) : Bool :=
  p.pat.copy.any fun c => c.group == g && c.bank.toNat == bank

/-- A channel applies a buffered PAT_CTL at its row visit (R488). -/
def patApply (s : State) (n : PotIx) (g : GroupIx) : State :=
  let key := potReg n 0x7000
  match bufferOf s key with
  | none => s
  | some v =>
    let by_ := tget s.regs.applied key []
    if by_.contains g.toNat then s
    else
      let s1 := updSched s n g fun c => { c with patCtl := BitVec.ofNat 64 v }
      if 63 ≤ by_.length then
        updPot (parityEnds (dropBuffer s1 key) key) n fun p => { p with pat := { p.pat with ctl := BitVec.ofNat 64 v } }
      else { s1 with regs := { s1.regs with applied := tset s1.regs.applied key (by_ ++ [g.toNat]) } }

/-- PASS_H of a channel; 0 stops patrol. -/
def passHours (c : Sched) : Nat := fieldN c.patCtl 0 8

/-- Rows of a channel's pass: 16 banks interleaved at each row number. -/
def passRows : Nat := 524288

/-- The pass of a channel goes on to its next row; PASSES counts passes that every channel has completed (R389, R403). -/
def patAdvance (s : State) (n : PotIx) (g : GroupIx) : State :=
  let s1 := updSched s n g fun c =>
    if c.patrolPos + 1 < passRows then { c with patrolPos := c.patrolPos + 1 }
    else { c with patrolPos := 0, passes := c.passes + 1,
                  scrubbed := c.scrubbed.filter fun k => decide (c.passes ≤ k / 2 ^ 25) }
  updPot s1 n fun p =>
    let least := (upto 64).foldl (fun m k => Nat.min m (schedOf p k).passes) (2 ^ 16 - 1)
    { p with pat := { p.pat with passes := BitVec.ofNat 16 least } }

/-- The patrol port of a channel may be served (R200, R204, R391). -/
def patServed (s : State) (n : PotIx) (g : GroupIx) : Bool :=
  let c := schedOf (potOf s n) g.toNat
  potOn s n && c.swept && !c.selfRefresh && !c.retraining && !c.whistle

/-- PATROL_ROW_VISIT: the channel's next row is due. -/
def patVisit (s : State) (n : PotIx) (g : GroupIx) : State :=
  let s1 := patApply s n g
  let c := schedOf (potOf s1 n) g.toNat
  if passHours c = 0 then s1
  else
    let bank := c.patrolPos % 16
    let s2 := if copySkips (potOf s1 n) g bank then s1 else visitRow s1 n g bank (c.patrolPos / 16)
    patAdvance s2 n g

def execPatrolRowVisit (n : PotIx) (group : GroupIx) (s : State) : Result :=
  whenDo (patServed s n group && !patParity s n) s (patVisit s n group)

/-! PAT_CMD (R394 to R399, R403). -/

/-- A command of PAT_CMD waits for its channel, or copies a bank. -/
def patBusy (p : Pot) : Bool := p.pat.copy.isSome || p.pat.waits.isSome

/-- Fields of PAT_CMD. -/
def pcOp (w : Word64) : Nat := fieldN w 0 3
def pcGroup (w : Word64) : GroupIx := fieldB w 8 6
def pcBank (w : Word64) : BitVec 4 := fieldB w 14 4
def pcRow (w : Word64) : BitVec 15 := fieldB w 18 15
def pcLast (w : Word64) : BitVec 15 := fieldB w 33 15
def pcSpare (w : Word64) : BitVec 4 := fieldB w 33 4
/-- The bank, and its row 0 or the row that PAT_CMD names. -/
def pcPlace (n : PotIx) (w : Word64) (row : BitVec 15) : Place := ⟨n, pcGroup w, pcBank w, row, 0⟩

/-- BUSY and RESULT of PAT_CMD (R403). -/
def patState (busy : Bool) (result : Nat) (s : State) (n : PotIx) : State :=
  updPot s n fun p => { p with pat := { p.pat with cmd := putField (putBit p.pat.cmd 4 busy) 5 3 result } }
/-- The command ends with RESULT. -/
def patDone (s : State) (n : PotIx) (result : Nat) : State := patState false result s n

/-- An entry of the repair log (R443). -/
def repairEntry (op pot group bank row spare lseq : Nat) : ColWord :=
  let b := bytesOfNat 1 op ++ bytesOfNat 1 pot ++ bytesOfNat 1 group ++ bytesOfNat 1 bank ++ bytesOfNat 2 row ++ bytesOfNat 2 spare ++
    bytesOfNat 4 lseq
  let body := b ++ b.map (~~~ ·)
  wordOfBytes (body ++ bytesOfNat 4 (crc32c body).toNat ++ bytesOfNat 4 0)

/-- Hub firmware records a repair in the caddy's log (R398, R443). -/
def logRepair (s : State) (op : Nat) (n : PotIx) (g : GroupIx) (bank : BitVec 4) (row spare : Nat) : State :=
  if s.fw.running && s.power.pgCaddy then
    { s with
      svc := { s.svc with lseq := s.svc.lseq + 1 }
      caddy := { s.caddy with repairLog := s.caddy.repairLog ++
        [repairEntry op n.toNat g.toNat bank.toNat row spare (s.svc.lseq + 1).toNat] } }
  else s

/-- The row map entry of a row of a physical bank, valid. -/
def rowEntryOf (p : Pot) (die pb row : Nat) : Option Nat :=
  (upto 8).find? fun i => let e := rowMapOf p die pb i; bitAt e 19 && fieldN e 0 15 == row
def spareInUse (p : Pot) (die pb spare : Nat) : Bool :=
  (upto 8).any fun i => let e := rowMapOf p die pb i; bitAt e 19 && fieldN e 15 4 == spare

/-- The words of a row as a copy delivers them: column, bytes, poison (R386, R394). Every word of a BAD row reads ROW_BAD and is
carried as poison. -/
def copyWord (ix : Nat) (pl : Place) (dst : Nat) (s : State) (col : Nat) : State :=
  let d := decodeAt s ix col
  if d.out = .unwritten then s
  else
    let at_ : Place := { pl with col := BitVec.ofNat 6 col }
    let f := takeFlip (noteRead s at_ patWho d.out) at_ .pat
    storeAt f.1 dst col d.bytes d.poison f.2

/-- Copy a row to another physical row; its tag segment takes the source's mask, or stays BAD with it (R394). -/
def copyRow (s : State) (pl : Place) (src dst : Nat) : State :=
  let m := rowMask s src
  let s1 := runAll (copyWord src pl dst) (upto 64) (noteActivate s pl patWho m.2)
  if m.2 then dramCells s1 (dst * 4096 + tagOff) (cellRead dramDefault s1.dram (src * 4096 + tagOff) 16) else setRowMask s1 dst m.1

/-- A remap is logged, and raised as a DRAM Event once per row or bank and patrol pass (R388). -/
def remapNoted (s : State) (pl : Place) (kind : Nat) : State :=
  let s1 := updPot s pl.pot fun p => logError p (placeAddr pl) kind 63 (classCode .move) (portCode .pat) 0 0
  let key := (kind * 2 ^ 64 + (schedOf (potOf s pl.pot) pl.group.toNat).passes) * 2 ^ 41 + placeAddr pl
  if s.hostNoted.contains key then s1
  else
    pushCxlEvent { s1 with hostNoted := key :: s1.hostNoted }
      (if kind = 5 then .dramRowRemap (BitVec.ofNat 41 (placeAddr pl)) else .dramBankRemap (BitVec.ofNat 41 (placeAddr pl)))

/-- Copy a row to a spare and write the entry. -/
def remapRow (s : State) (op : Nat) (pl : Place) (pb i : Nat) (src : Nat) (spare : BitVec 4) : State :=
  let die := dieOf pl.group
  let s1 := copyRow s pl src (rowIndex pl.pot die pb (32768 + spare.toNat))
  let s2 := updPot s1 pl.pot fun p => { p with pat := { p.pat with
    rowmap := tset p.pat.rowmap (rowMapKey die pb i) (mkRowMap pl.row.toNat spare.toNat true) } }
  patDone (logRepair (remapNoted s2 pl 5) op pl.pot pl.group pl.bank pl.row.toNat spare.toNat) pl.pot 1

/-- The bank's row map entries agree with their complements. -/
def rowMapSound (p : Pot) (die pb : Nat) : Bool := (upto 8).all fun i => rowMapGood (rowMapOf p die pb i)

/-- ROW_REMAP (R394): RESULT 2 with no free entry, 3 with the spare in use, 4 for a row that has an entry or a bank that cannot be
read. -/
def runRowRemap (s : State) (n : PotIx) (w : Word64) : State :=
  let p := potOf s n
  let die := dieOf (pcGroup w)
  let row := (pcRow w).toNat
  match physBank p (pcGroup w) (pcBank w) with
  | none => patDone s n 4
  | some pb =>
    if !rowMapSound p die pb || (rowEntryOf p die pb row).isSome then patDone s n 4
    else
      match (upto 8).find? fun i => !bitAt (rowMapOf p die pb i) 19 with
      | none => patDone s n 2
      | some i =>
        if spareInUse p die pb (pcSpare w).toNat then patDone s n 3
        else remapRow s 1 (pcPlace n w (pcRow w)) pb i (rowIndex n die pb row) (pcSpare w)

/-- SPARE_MOVE (R395): the row's entry goes on to another spare. -/
def runSpareMove (s : State) (n : PotIx) (w : Word64) : State :=
  let p := potOf s n
  let die := dieOf (pcGroup w)
  match physBank p (pcGroup w) (pcBank w) with
  | none => patDone s n 4
  | some pb =>
    match (if rowMapSound p die pb then rowEntryOf p die pb (pcRow w).toNat else none) with
    | none => patDone s n 4
    | some i =>
      if spareInUse p die pb (pcSpare w).toNat then patDone s n 3
      else
        remapRow s 2 (pcPlace n w (pcRow w)) pb i (rowIndex n die pb (32768 + fieldN (rowMapOf p die pb i) 15 4)) (pcSpare w)

/-- Sweep the tag segments of every row of a physical bank: no word is written (R383, R396). -/
def sweepBank (s : State) (n : PotIx) (die pb : Nat) : State :=
  { s with dram := cellDrop s.dram (rowIndex n die pb 0 * 4096) (rowIndex n die pb Config.rowsPerBank * 4096) }

/-- Empty a physical bank's row remap table. -/
def clearRowMap (p : Pot) (die pb : Nat) : Pot :=
  { p with pat := { p.pat with rowmap := (upto 8).foldl (fun m i => tdel m (rowMapKey die pb i)) p.pat.rowmap } }

/-- BANK_REMAP (R396) steps 1 to 4: the spare is swept and mirrors the bank's writes. RESULT 3 with the spare in use; 4 when it has
failed, when the bank already lies in a spare, or when the map cannot be read. -/
def runBankRemap (s : State) (n : PotIx) (w : Word64) : State :=
  let p := potOf s n
  let die := dieOf (pcGroup w)
  let m := bankMapOf p die
  let k := (pcSpare w).toNat % 2
  if !bankMapGood m || bitAt m (8 * k + 7) || decide (physBank p (pcGroup w) (pcBank w) ≠ some (bankInDie (pcGroup w) (pcBank w))) then
    patDone s n 4
  else if bitAt m (8 * k + 6) then patDone s n 3
  else
    let s1 := updPot (sweepBank s n die (64 + k)) n fun p =>
      let q := clearRowMap p die (64 + k)
      { q with pat := { q.pat with copy := some ⟨pcGroup w, pcBank w, BitVec.ofNat 1 k⟩ } }
    patState true 0 s1 n

/-- One row of the bank copy: words that a mirrored write has already put into the spare keep that (R396 step 5). -/
def copyBankRow (n : PotIx) (c : BankCopy) (s : State) (row : Nat) : State :=
  let die := dieOf c.group
  let pl : Place := ⟨n, c.group, c.bank, BitVec.ofNat 15 row, 0⟩
  let dst := rowIndex n die (64 + c.spare.toNat) row
  match physRow (potOf s n) die (bankInDie c.group c.bank) pl.row with
  | none => reportMismatch s pl
  | some r =>
    let src := rowIndex n die (bankInDie c.group c.bank) r
    runAll (fun t col => if bitAt (rowMask t dst).1 col then t else copyWord src pl dst t col) (upto 64)
      (noteActivate s pl patWho (rowMask s src).2)

/-- A proxy slot that served an LU is released (R396). -/
def dropProxy (v : Word64) (i : Nat) : Word64 :=
  (upto 4).foldl (fun w k => if bitAt w (16 * k + 15) && fieldN w (16 * k) 11 == i then putBit w (16 * k + 15) false else w) v

def dropChanProxy (i : Nat) (e : Nat × Chan) : Nat × Chan := (e.1, { e.2 with proxy := dropProxy e.2.proxy i })

/-- The switch (R396 step 6). -/
def bankSwitch (s : State) (n : PotIx) (c : BankCopy) : State :=
  let die := dieOf c.group
  let k := c.spare.toNat
  let pb := bankInDie c.group c.bank
  let s1 := runAll (copyBankRow n c) (upto 32768) s
  let p := potOf s1 n
  let m := bankMapOf p die
  let slot := c.group.toNat % 4 + c.bank.toNat * 4 + 2 ^ 6
  let v := (fieldB m 0 16 : BitVec 16).toNat - fieldN m (8 * k) 8 * 2 ^ (8 * k) + slot * 2 ^ (8 * k)
  let rows := (upto 8).filterMap fun i => let e := rowMapOf p die pb i; if bitAt e 19 then some e else none
  let p1 := clearRowMap p die pb
  let pt : Pat := { p1.pat with bankmap := tset p1.pat.bankmap die (mkBankMap v), copy := none }
  let p3 := { p1 with pat := pt, luProxy := dropProxy p1.luProxy (66 * die + pb),
                      chans := p1.chans.map (dropChanProxy (66 * die + pb)) }
  let s2 := runAll (fun t e => logRepair t 5 n c.group c.bank (fieldN e 0 15) (fieldN e 15 4)) rows (setPot s1 n p3)
  patDone (remapNoted (logRepair s2 3 n c.group c.bank 0 k) ⟨n, c.group, c.bank, 0, 0⟩ 6) n 1

/-- BANK_REMAP_SWITCH: the copy has ended, and the switch is made. -/
def execBankRemapSwitch (n : PotIx) (s : State) : Result :=
  match (potOf s n).pat.copy with
  | none => .next s
  | some c => whenDo (potOn s n) s (bankSwitch s n c)

/-- TAGFIX (R399): the row's tag segment becomes PAT_CMD_ARG and its complement, which ends a BAD latch. -/
def runTagfix (s : State) (n : PotIx) (w : Word64) : State :=
  match placeRow (potOf s n) (pcPlace n w (pcRow w)) with
  | none => patDone s n 4
  | some ix =>
    let s1 := updSched (setRowMask s ix (potOf s n).pat.cmdArg) n (pcGroup w) fun c => updBank c (pcBank w).toNat fun k =>
      if k.openRow = some (pcRow w) then { k with latchBad := false } else k
    patDone s1 n 1

/-- SCRUB_RANGE (R399): an immediate visit of rows of one bank; RESULT 4 where they are out of order. -/
def runScrubRange (s : State) (n : PotIx) (w : Word64) : State :=
  let lo := (pcRow w).toNat
  let hi := (pcLast w).toNat
  if hi < lo then patDone s n 4
  else patDone (runAll (fun t r => visitRow t n (pcGroup w) (pcBank w).toNat r) (between lo (hi + 1)) s) n 1

/-- The OP of a command word (R403). -/
def patRun (s : State) (n : PotIx) (w : Word64) : State :=
  match pcOp w with
  | 1 => runRowRemap s n w
  | 2 => runSpareMove s n w
  | 3 => runBankRemap s n w
  | 4 => runTagfix s n w
  | 5 => runScrubRange s n w
  | _ => s

/-- START of PAT_CMD: ignored while BUSY, while a register of the block has a parity fault, and in a pot that is not in service. The
command runs once its channel serves patrol's port, which it does not while the whistle is up or the channel retrains (R204, R391, R394,
R403, R493); till then it waits with BUSY set. -/
def patStart (s : State) (n : PotIx) : State :=
  let p := potOf s n
  let w := p.pat.cmd
  if patBusy p || patParity s n || !potOn s n || decide (pcOp w = 0) then s
  else if patServed s n (pcGroup w) then patRun s n w
  else patState true 0 (updPot s n fun p => { p with pat := { p.pat with waits := some w } }) n

/-- A command that waited for this channel runs (R394). -/
def patResume (s : State) (n : PotIx) (g : GroupIx) : State :=
  match (potOf s n).pat.waits with
  | none => s
  | some w =>
    if pcGroup w = g ∧ patServed s n g then
      patRun (updPot s n fun p => { p with pat := { p.pat with waits := none } }) n w
    else s

/-- Write fields of PAT_CMD, each given as first bit, length and value, and START it. -/
def patCommand (s : State) (n : PotIx) (fs : List (Nat × Nat × Nat)) : State :=
  if patBusy (potOf s n) || patParity s n || !potOn s n then s
  else
    patStart (updPot s n fun p => { p with pat := { p.pat with
      cmd := fs.foldl (fun w f => putField w f.1 f.2.1 f.2.2) p.pat.cmd } }) n

/-- ROW_REMAP. -/
def execRowRemap (n : PotIx) (group : GroupIx) (bank : BitVec 4) (row : BitVec 15) (spare : BitVec 4) (s : State) : Result :=
  .next (patCommand s n [(0, 3, 1), (8, 6, group.toNat), (14, 4, bank.toNat), (18, 15, row.toNat), (33, 4, spare.toNat)])

/-- SPARE_MOVE. -/
def execSpareMove (n : PotIx) (group : GroupIx) (bank : BitVec 4) (row : BitVec 15) (spare : BitVec 4) (s : State) : Result :=
  .next (patCommand s n [(0, 3, 2), (8, 6, group.toNat), (14, 4, bank.toNat), (18, 15, row.toNat), (33, 4, spare.toNat)])

/-- BANK_REMAP. -/
def execBankRemap (n : PotIx) (group : GroupIx) (bank : BitVec 4) (spare : BitVec 1) (s : State) : Result :=
  .next (patCommand s n [(0, 3, 3), (8, 6, group.toNat), (14, 4, bank.toNat), (33, 4, spare.toNat)])

/-- TAGFIX. -/
def execTagfix (n : PotIx) (group : GroupIx) (bank : BitVec 4) (row : BitVec 15) (s : State) : Result :=
  .next (patCommand s n [(0, 3, 4), (8, 6, group.toNat), (14, 4, bank.toNat), (18, 15, row.toNat)])

/-- SCRUB_RANGE. -/
def execScrubRange (n : PotIx) (group : GroupIx) (bank : BitVec 4) (row rowLast : BitVec 15) (s : State) : Result :=
  .next (patCommand s n [(0, 3, 5), (8, 6, group.toNat), (14, 4, bank.toNat), (18, 15, row.toNat), (33, 15, rowLast.toNat)])

/-- BKS_PICK: one scheduler cycle; in self-refresh no command issues (R196, R204). A patrol command that waited for the channel then
runs (R394). -/
def execBksPick (n : PotIx) (group : GroupIx) (s : State) : Result :=
  let c := schedOf (potOf s n) group.toNat
  whenDo (potPresent s n) s (patResume (if c.selfRefresh then passCycle s n group else pickCycle s n group) n group)

/-- FLIP_ARM: GROUP, PORTS and ARM of PAT_FLIP_CTL (R400). -/
def execFlipArm (n : PotIx) (group : GroupIx) (ports : BitVec 4) (arm : Bool) (s : State) : Result :=
  whenDo (potOn s n) s
    (updPot (parityEnds s (potReg n 0x7038)) n fun p => { p with pat := { p.pat with
      flipCtl := putBit (putField (putField p.pat.flipCtl 0 6 group.toNat) 6 4 ports.toNat) 10 arm } })

end Sys2Proof.Machine
end

