-- ==== Sys2Proof/Machine/Repair.lean ====
section
/-!
DEFINITION. The repair log read back: the remap tables that its entries give (R398, R443), and hub firmware's rewrite of entries
whose halves disagree (R402).
-/

namespace Sys2Proof.Machine

def repOp (e : ColWord) : Nat := fieldN e 0 8
def repPot (e : ColWord) : Nat := fieldN e 8 5
def repGroup (e : ColWord) : GroupIx := fieldB e 16 6
def repBank (e : ColWord) : BitVec 4 := fieldB e 24 4
def repRow (e : ColWord) : Nat := fieldN e 32 15
def repSpare (e : ColWord) : Nat := fieldN e 48 4
/-- The complement and the CRC of an entry check. -/
def repGood (e : ColWord) : Bool := agree (fieldB e 0 96) (fieldB e 96 96) && fieldB e 192 32 == crc32c ((bytesOfWord e).take 24)

/-- A bank's row map without the entries of a row or of a spare row. -/
def dropRowEntries (p : Pot) (die pb : Nat) (is : Word64 → Bool) : Pot :=
  { p with pat := { p.pat with rowmap := (upto 8).foldl (fun m i =>
      if bitAt (rowMapOf p die pb i) 19 && is (rowMapOf p die pb i) then tdel m (rowMapKey die pb i) else m) p.pat.rowmap } }

/-- A row entry: a later one for the same row or spare supersedes (R443). -/
def installRow (p : Pot) (e : ColWord) : Pot :=
  let die := dieOf (repGroup e)
  match physBank p (repGroup e) (repBank e) with
  | none => p
  | some pb =>
    let q := dropRowEntries p die pb fun x => fieldN x 0 15 == repRow e || fieldN x 15 4 == repSpare e
    match (upto 8).find? fun i => !bitAt (rowMapOf q die pb i) 19 with
    | none => q
    | some i =>
      { q with pat := { q.pat with rowmap := tset q.pat.rowmap (rowMapKey die pb i) (mkRowMap (repRow e) (repSpare e) true) } }

/-- A bank map with a spare's byte replaced. -/
def putSpare (p : Pot) (die k v : Nat) : Pot :=
  let m := fieldN (bankMapOf p die) 0 16
  let m1 := m - m / 2 ^ (8 * k) % 256 * 2 ^ (8 * k) + v * 2 ^ (8 * k)
  { p with pat := { p.pat with bankmap := tset p.pat.bankmap die (mkBankMap m1) } }

/-- A bank entry: the other spare no longer serves the bank. -/
def installBank (p : Pot) (e : ColWord) : Pot :=
  let die := dieOf (repGroup e)
  let k := repSpare e % 2
  let chan := (repGroup e).toNat % 4
  let other := spareServes (bankMapOf p die) (1 - k) chan (repBank e).toNat
  let q := if other then putSpare p die (1 - k) 0 else p
  putSpare q die k (chan + (repBank e).toNat * 4 + 2 ^ 6)

/-- One entry of the log (R443). -/
def installEntry (p : Pot) (e : ColWord) : Pot :=
  let die := dieOf (repGroup e)
  match repOp e with
  | 1 => installRow p e
  | 2 => installRow p e
  | 3 => installBank p e
  | 4 =>
    let k := repSpare e % 2
    putSpare p die k (fieldN (bankMapOf p die) (8 * k) 7 + 2 ^ 7)
  | 5 => dropRowEntries p die (bankInDie (repGroup e) (repBank e)) fun x => fieldN x 0 15 == repRow e
  | _ => p

/-- A pot's remap tables from the log alone, starting empty (R398). -/
def rebuiltPot (s : State) (n : PotIx) : Pot :=
  let p := potOf s n
  (s.caddy.repairLog.filter fun e => repGood e && repPot e == n.toNat).foldl installEntry
    { p with pat := { p.pat with rowmap := [], bankmap := [] } }

/-- Caddy offset of a repair log entry, 511 to a page. -/
def repairOffset (i : Nat) : Nat := 0x1D000000 + i / 511 * 16384 + i % 511 * 32

/-- Step 6 of R446: every pot's tables from the log; an entry that fails its check is skipped and reported. -/
def installRepairs (s : State) : State :=
  let s1 := runAll (fun t x =>
    if repGood x.1 then t else sendFault t (plainFault (hubIsland 8) 0xB 2 (repairOffset x.2) 0)) s.caddy.repairLog.zipIdx s
  let named := allPots.filter fun n => s1.caddy.repairLog.any fun e => repGood e && repPot e == n.toNat
  runAll (fun t n => setPot t n (rebuiltPot t n)) named s1

/-- The bank's entries whose halves disagree take what the log gives, and the mismatch is over (R402). -/
def rewriteBank (s : State) (n : PotIx) (g : GroupIx) (b : BitVec 4) : State :=
  let p := potOf s n
  let q := rebuiltPot s n
  let die := dieOf g
  let p1 := if bankMapGood (bankMapOf p die) then p else { p with pat := { p.pat with bankmap := tset p.pat.bankmap die (bankMapOf q die) } }
  let fix := fun (m : SMap Word64) (i : Nat) =>
    match physBank p1 g b with
    | none => m
    | some pb => if rowMapGood (rowMapOf p1 die pb i) then m else tset m (rowMapKey die pb i) (rowMapOf q die pb i)
  let p2 := { p1 with pat := { p1.pat with
    rowmap := (upto 8).foldl fix p1.pat.rowmap
    mismatched := p1.pat.mismatched.filter (· != g.toNat * 16 + b.toNat) } }
  setPot s n p2

end Sys2Proof.Machine
end

