-- ==== Sys2Proof/Machine/Service.lean ====
section
/-!
DEFINITION. Service in place: the service log (R474), mirror mode, pot migration and its cursor (R462 to R470), retirement of pots and
matrix engines (R471 to R473), and HUB_SVC_CTL (R475).
-/

namespace Sys2Proof.Machine

/-! HUB_SVC_CTL (R475). -/

def svcKey : Nat := 0x28
def svcBusy (s : State) : Bool := bitAt s.svc.ctl 5
/-- HUB_SVC_CTL as a START leaves it: OP and the fields that the operation names, each as first bit, length and value, with BUSY and
RESULT; the others stay. -/
def svcStart (s : State) (op : Nat) (fs : List (Nat × Nat × Nat)) (busy : Bool) (result : Nat) : State :=
  let w := ((0, 4, op) :: fs).foldl (fun w f => putField w f.1 f.2.1 f.2.2) s.svc.ctl
  { s with svc := { s.svc with ctl := putField (putBit w 5 busy) 6 4 result } }
/-- The operation ends with a result. -/
def svcEnd (s : State) (result : Nat) : State :=
  { s with svc := { s.svc with ctl := putField (putBit s.svc.ctl 5 false) 6 4 result } }

/-- A START is taken: hub firmware runs, nothing is in progress; a parity fault of the register makes it ignored (R475, R493). -/
def svcTakes (s : State) : Bool := s.fw.running && !svcBusy s && !regBad s svcKey
/-- A START written while the register's parity fault held only ends the fault (R493, R494). -/
def svcRun (s : State) (r : State) : Result :=
  if regBad s svcKey then .next (parityEnds s svcKey) else whenDo (svcTakes s) s r

/-! The service log (R474). -/

def svcRecordBytes (kind pot : Nat) (cur curN : Word64) (lseq : Nat) : List Byte :=
  bytesOfNat 1 kind ++ bytesOfNat 1 pot ++ bytesOfNat 6 0 ++ bytesOfNat 8 cur.toNat ++ bytesOfNat 8 curN.toNat ++ bytesOfNat 4 lseq ++
    bytesOfNat 32 0
def svcRecord (kind pot : Nat) (cur curN : Word64) (lseq : Nat) : Line :=
  let b := svcRecordBytes kind pot cur curN lseq
  lineOfBytes (b ++ bytesOfNat 4 (crc32c b).toNat)
def recKind (r : Line) : Nat := fieldN r 0 8
def recPot (r : Line) : Nat := fieldN r 8 5
def recCursor (r : Line) : Word64 := fieldB r 64 64
/-- The record's CRC checks, and its cursor's complement. -/
def svcRecordGood (r : Line) : Bool :=
  fieldB r 480 32 == crc32c ((bytesOfLine r).take 60) &&
    (!(recKind r == 1 || recKind r == 2) || agree (recCursor r) (fieldB r 128 64))

/-- Records that the area holds: 255 to a page, 64 pages. -/
def svcLogRoom : Nat := 16320
/-- Records that still stand: the last of each pot and kind of unit, and the last cursor. -/
def svcStanding (l : List Line) : List Line :=
  let good := l.filter svcRecordGood
  let last := fun (p : Line → Bool) => ((good.filter p).getLast?).toList
  ((upto 32).map fun n => last fun r => recPot r == n && (recKind r == 3 || recKind r == 4)).flatten ++
    ((upto 32).map fun n => last fun r => recPot r == n && (recKind r == 5 || recKind r == 6)).flatten ++
    last fun r => recKind r == 1 || recKind r == 2

/-- Append a record; a full area is erased first and takes what still stands. -/
def logService (s : State) (kind : Nat) (n : PotIx) (cur curN : Word64) : State :=
  let l := s.caddy.serviceLog
  let old := if svcLogRoom ≤ l.length then svcStanding l else l
  if s.fw.running && s.power.pgCaddy then
    { s with
      svc := { s.svc with lseq := s.svc.lseq + 1 }
      caddy := { s.caddy with serviceLog := old ++ [svcRecord kind n.toNat cur curN (s.svc.lseq + 1).toNat] } }
  else s

/-- The unit's later record of two kinds stands (R474). -/
def logSays (l : List Line) (n on off : Nat) : Bool :=
  ((l.filter fun r => svcRecordGood r && recPot r == n && (recKind r == on || recKind r == off)).getLast?).any fun r => recKind r == on

/-! The cursor (R469, R475). -/

structure Cursor where
  src : PotIx
  entry : Nat
  unit : Nat
  phase : Nat
  retire : Bool
  mirrorOp : Bool
  unmirrored : Nat
  deriving DecidableEq, Repr

def cursorWord (c : Cursor) : Word64 :=
  BitVec.ofNat 64 (c.src.toNat + c.entry % 2048 * 2 ^ 5 + c.unit % 2 ^ 19 * 2 ^ 16 + c.phase % 4 * 2 ^ 35 + c.retire.toNat * 2 ^ 37 +
    c.mirrorOp.toNat * 2 ^ 38 + Nat.min 63 c.unmirrored * 2 ^ 39)
def cursorOf (w : Word64) : Cursor :=
  ⟨fieldB w 0 5, fieldN w 5 11, fieldN w 16 19, fieldN w 35 2, bitAt w 37, bitAt w 38, fieldN w 39 6⟩
def setCursor (s : State) (c : Cursor) : State :=
  { s with svc := { s.svc with cursor := cursorWord c, cursorN := ~~~(cursorWord c) } }
/-- A checkpoint in the service log. -/
def checkpoint (s : State) : State := logService s 1 (cursorOf s.svc.cursor).src s.svc.cursor s.svc.cursorN
def migPhase (s : State) : Nat := (cursorOf s.svc.cursor).phase

/-! Entries and targets (R462, R464, R465). -/

def entryOf (s : State) (ix : Nat) : BitVec 32 := (hubEntry s ix).val
/-- Groups that hold data: below 64 − RESERVE_GROUPS. -/
def dataGroup (s : State) (ix : Nat) : Bool := decide (ix % 64 < 64 - ilReserve s)
/-- Entries that may name a pot as PHYS, ascending: its home entries and every entry that is listed. -/
def entriesNear (s : State) (n : PotIx) : List Nat :=
  let ks := s.map.entries.map Prod.fst
  let lo := 64 * n.toNat
  ks.filter (fun k => decide (k < lo)) ++ between lo (lo + 64) ++ ks.filter (fun k => decide (lo + 64 ≤ k))
def entriesPhys (s : State) (n : PotIx) : List Nat := (entriesNear s n).filter fun ix => entPot (entryOf s ix) == n && entState (entryOf s ix) != 2
/-- An entry's second location is in use. -/
def entSecond (e : BitVec 32) : Bool := entMirrorEn e || entState e == 1
/-- Entries whose mirror or target lies in a pot. -/
def entriesMirror (s : State) (n : PotIx) : List Nat :=
  (s.map.entries.filter fun e => entSecond e.2.val && entMirrorPot e.2.val == n).map Prod.fst
def entriesMoving (s : State) : List Nat := (s.map.entries.filter fun e => entState e.2.val == 1).map Prod.fst

def putPhys (e : BitVec 32) (n : PotIx) (g : GroupIx) : BitVec 32 := putField (putField e 0 5 n.toNat) 5 6 g.toNat
def putMirror (e : BitVec 32) (n : PotIx) (g : GroupIx) : BitVec 32 := putField (putField e 12 5 n.toNat) 17 6 g.toNat

/-- A withheld group that no entry but its own home entry names (R464). -/
def groupFree (s : State) (n : PotIx) (g : Nat) : Bool :=
  !s.map.entries.any fun e =>
    let v := e.2.val
    (e.1 != 64 * n.toNat + g && entPot v == n && (entGroup v).toNat == g && entState v != 2) ||
      (entSecond v && entMirrorPot v == n && (entMirrorGroup v).toNat == g)

/-- The other pots, nearest first by the length of the table path, lower index first (R18, R20). -/
def potsNear (s : State) (n : PotIx) : List PotIx :=
  let hops := allPots.map fun m => (m, potHops s n m)
  ((upto 32).map fun h => (hops.filter fun x => x.1 != n && x.2 == some h).map Prod.fst).flatten

/-- The highest free withheld group of a pot. -/
def freeGroup (s : State) (n : PotIx) : Option Nat :=
  ((between (64 - ilReserve s) 64).reverse).find? (groupFree s n)
/-- The target of R464 for a group of a pot. -/
def freeTarget (s : State) (src : PotIx) : Option (PotIx × GroupIx) :=
  (potsNear s src).findSome? fun m => if potPresent s m then (freeGroup s m).map fun g => (m, BitVec.ofNat 6 g) else none

/-- An entry starts to move: STATE 0b01 with its target; one already mirrored keeps its mirror as target (R464, R465). -/
def startMove (s : State) (src : PotIx) (ix : Nat) : Option State :=
  let e := entryOf s ix
  if entMirrorEn e then some (setMapEntry s ix (entWithState e 1))
  else (freeTarget s src).map fun t => setMapEntry s ix (entWithState (putMirror e t.1 t.2) 1)
def startMoves (src : PotIx) : List Nat → State → Option State
  | [], s => some s
  | ix :: l, s => (startMove s src ix).bind (startMoves src l)

/-- Mirrors that lie in the source end (R465); how many. -/
def unmirrorIn (s : State) (n : PotIx) : State × Nat :=
  let l := entriesMirror s n
  (runAll (fun t ix => setMapEntry t ix (putBit (entryOf t ix) 11 false)) l s, l.length)

/-- The next entry to copy after `ix` (inclusive): moving, and not served by a mirror (R465). -/
def nextCopy (s : State) (from_ : Nat) : Option Nat :=
  (entriesMoving s).find? fun ix => decide (from_ ≤ ix) && !entMirrorEn (entryOf s ix)

/-- The cursor at an entry boundary: the next entry at unit 0, or PHASE 2; with its checkpoint (R467, R469). -/
def atEntry (s : State) (c : Cursor) (from_ : Nat) : State :=
  checkpoint (match nextCopy s from_ with
    | some ix => setCursor s { c with entry := ix, unit := 0, phase := 1 }
    | none => setCursor s { c with unit := 0, phase := 2 })

/-! Ends of a migration (R470). -/

/-- Dirty bits of the groups that an entry's source schedulers hold (R467). -/
def clearDirty (s : State) (ix : Nat) : State :=
  let e := entryOf s ix
  updSched s (entPot e) (entGroup e) fun c => { c with dirty := [] }

/-- The migration is abandoned: the source stays authoritative, nothing is lost; RESULT ABANDONED and its record. -/
def abandonMove (s : State) : State :=
  let c := cursorOf s.svc.cursor
  let l := entriesMoving s
  let s1 := runAll (fun t ix => applyMapChange (clearDirty t ix) ix (entWithState (putBit (entryOf t ix) 11 false) 0)) l s
  let s2 := logService s1 2 c.src s1.svc.cursor s1.svc.cursorN
  svcEnd (setCursor s2 { c with phase := 0 }) 4

/-- A switch that was requested is requested no longer. -/
def dropSwitch (s : State) : State :=
  { s with map := { s.map with changes := (entriesMoving s).foldl (fun m ix => tdel m ix) s.map.changes } }

/-- Each moving entry aimed at a lost target takes a new one; copying restarts from the lowest of them at unit 0 (R470). -/
def retarget (s : State) (ixs : List Nat) : State :=
  let c := cursorOf s.svc.cursor
  let fresh := fun (t : State) (ix : Nat) => applyMapChange t ix (entWithState (putBit (entryOf t ix) 11 false) 0)
  let s1 := runAll fresh ixs (dropSwitch s)
  match startMoves c.src ixs s1 with
  | none => abandonMove s
  | some s2 => atEntry s2 { c with phase := 1 } (ixs.headD 0)

/-! Retirement of a pot (R471). -/

/-- What an entry becomes when the pot that is its PHYS goes: its mirror, or lost. -/
def entryWithout (e : BitVec 32) : BitVec 32 :=
  if entMirrorEn e then entWithState (putBit (putPhys e (entMirrorPot e) (entMirrorGroup e)) 11 false) 0
  else entWithState (putBit e 11 false) 2

/-- Step 2: every map entry that names the pot changes. -/
def entriesLeave (s : State) (n : PotIx) : State :=
  let phys := entriesPhys s n
  let s1 := runAll (fun t ix => applyMapChange t ix (entryWithout (entryOf t ix))) phys s
  runAll (fun t ix =>
    let e := putBit (entryOf t ix) 11 false
    applyMapChange t ix e) (entriesMirror s1 n |>.filter fun ix => entState (entryOf s1 ix) != 1) s1

/-- Step 3 for a migration or mirror setup in progress (R470). -/
def moveLoses (s : State) (n : PotIx) : State :=
  let c := cursorOf s.svc.cursor
  if c.phase = 0 then s
  else if c.src = n then
    let s1 := logService s 2 c.src s.svc.cursor s.svc.cursorN
    svcEnd (setCursor s1 { c with phase := 0 }) 4
  else
    match (entriesMoving s).filter fun ix => entMirrorPot (entryOf s ix) == n with
    | [] => s
    | l => retarget s l

/-- A live port sends LAST_WORDS and is DOWN (R362); without words it is merely lost. -/
def endPort (s : State) (n : PotIx) (k : BitVec 1) (words : Option Nat) : State :=
  let live := portLive (portOf (potOf s n) k.toNat)
  let s1 := portDown s n k 5
  match words with
  | some r => if live then updPort s1 n k fun x => { x with wire := some (lastWordsFlit r) } else s1
  | none => s1

/-- The pot without power: its state is lost, its router, and what is on the way to the hub, stay (R23, R471). -/
def darkPot (p : Pot) : Pot :=
  { Pot.reset with
    router := p.router
    answers := p.answers
    ports := p.ports.map fun e => (e.1, { Port.reset with wire := e.2.wire, downCause := e.2.downCause })
    pmt := { Pmt.reset with allot := 0, allotN := ~~~0, standing := 0, standingN := ~~~0, free := 0, freeN := ~~~0, lastAeff := 0 } }

/-- Step 5: the rails fall and the DRAM's data is lost. -/
def powerOffPot (s : State) (n : PotIx) : State :=
  let lo := rowIndex n 0 0 0 * 4096
  let s1 := trayClear (updPot s n darkPot) n
  let s2 := dropKeys s1 fun key => inWindow n 0 0x100000 key || decide (entryKey (potWin n) 0 0 ≤ key ∧ key < entryKey (potWin n + 1) 0 0)
  { s2 with
    dram := cellDrop s2.dram lo (lo + 16 * 66 * Config.rowsPerBank * 4096)
    power := { s2.power with enPot := putBit s2.power.enPot n.toNat false, pgPot := putBit s2.power.pgPot n.toNat false } }

/-- A command that waited for the pot: the member of a group command is lost (R48), another completes ABSENT_UNIT (R471, step 7). -/
def endWaiting (n : PotIx) (s : State) (c : InCmd) : State :=
  if opOne c.header then answerMember s n { simpleAns c.key .absentUnit with expected := 0 } else loseMember s n c.key

/-- Retirement in the order of R471; `words` is the LAST_WORDS reason, none when power fell (R528). -/
def retireAll (s : State) (n : PotIx) (words : Option Nat) : State :=
  let held := (potOf s n).inbox
  let s1 := moveLoses (entriesLeave s n) n
  let s2 := endWork (updPot s1 n fun p => { p with inbox := [] }) n
  let s3 := powerOffPot (endPort (endPort s2 n 0 words) n 1 words) n
  let s4 := recalcHub { s3 with svc := { s3.svc with retired := putBit s3.svc.retired n.toNat true } }
  let s5 := logService s4 3 n 0 0
  fwSettle (runAll (endWaiting n) held s5)

/-- A failed start of a pot; the third in a row retires it (R471, R527). -/
def failedStart (s : State) (n : PotIx) : State :=
  let k := (potOf s n).failedResets + 1
  let s1 := updPot s n fun p => { p with failedResets := k, inReset := true, fwRunning := false }
  if 3 ≤ k then retireAll s1 n (some 1) else s1

/-! Service operations. -/

/-- MIGRATE (R464): RESULT 2 for a pot that is not in use, 3 when too few withheld groups are free. -/
def execMigrate (pot : PotIx) (andRetire : Bool) (s : State) : Result :=
  let say := fun (t : State) (busy : Bool) (r : Nat) => svcStart t 1 [(10, 5, pot.toNat), (37, 1, andRetire.toNat)] busy r
  let u := unmirrorIn s pot
  svcRun s
    (if !potPresent s pot then say s false 2
    else
      match startMoves pot ((entriesPhys u.1 pot).filter (dataGroup s)) u.1 with
      | none => say s false 3
      | some s1 =>
        let c : Cursor := ⟨pot, (nextCopy s1 0).getD 0, 0, 1, andRetire, false, u.2⟩
        let s2 := checkpoint (setCursor (say s1 true 0) c)
        if (nextCopy s1 0).isSome then s2 else atEntry s2 c 0)

/-- The conditions of R462 on a mirror. -/
def mirrorOk (s : State) (ix : Nat) (tpot : PotIx) (tgroup : GroupIx) : Bool :=
  let e := entryOf s ix
  decide (64 - ilReserve s ≤ tgroup.toNat) && potPresent s tpot && tpot != entPot e && entState e == 0 && !entMirrorEn e &&
    dataGroup s ix && groupFree s tpot tgroup.toNat

/-- MIRROR (R462): the entry's group is copied to its mirror group. -/
def execMirror (entry : BitVec 11) (tpot : PotIx) (tgroup : GroupIx) (s : State) : Result :=
  let ix := entry.toNat
  let e := entryOf s ix
  let say := fun (t : State) (busy : Bool) (r : Nat) => svcStart t 2 [(15, 11, ix), (26, 5, tpot.toNat), (31, 6, tgroup.toNat)] busy r
  let c : Cursor := ⟨entPot e, ix, 0, 1, false, true, 0⟩
  svcRun s
    (if !mirrorOk s ix tpot tgroup then say s false 2
    else checkpoint (setCursor (say (setMapEntry s ix (entWithState (putMirror e tpot tgroup) 1)) true 0) c))

/-- UNMIRROR (R462): MIRROR_EN is cleared under R29, at once where nothing resolved through the entry still runs. -/
def execUnmirror (entry : BitVec 11) (s : State) : Result :=
  let ix := entry.toNat
  let e := entryOf s ix
  let say := fun (t : State) (busy : Bool) (r : Nat) => svcStart t 3 [(15, 11, ix)] busy r
  svcRun s
    (if !entMirrorEn e || entState e != 0 || homeChanging s ix then say s false 2
     else if entryInUse s ix then say { s with map := { s.map with changes := tset s.map.changes ix (putBit e 11 false) } } true 0
     else say (applyMapChange s ix (putBit e 11 false)) false 1)

/-- RETIRE_POT (R471). -/
def execRetirePot (pot : PotIx) (s : State) : Result :=
  let say := fun (t : State) (r : Nat) => svcStart t 4 [(10, 5, pot.toNat)] false r
  svcRun s (if potPresent s pot then say (retireAll s pot (some 1)) 1 else say s 2)

/-- The pot's entries of STATE 0b10 return to the identity (R472). -/
def identityEntries (s : State) (n : PotIx) : State :=
  runAll (fun t ix => if entState (entryOf t ix) = 2 then setMapEntry t ix (homeEntry t ix) else t)
    (between (64 * n.toNat) (64 * n.toNat + 64)) s

/-- The allotment of a pot that comes back: its reset value as far as unallotted steeps reach. -/
def backAllot (s : State) : Nat :=
  Nat.min (if s.fuses.grade = .b then 480 else 420) s.pmtHub.unallotted.toNat

/-- UNRETIRE_POT (R472, R529): power, ports of its row, self-tests, an empty sweep, and the identity map. Its retention SRAM was off, so
the remap tables are those of the repair log (R398, R402; log entry 71). -/
def unretireAll (s : State) (n : PotIx) : State :=
  let row := n.toNat / 8
  let a := backAllot s
  let s1 := { s with
    svc := { s.svc with retired := putBit s.svc.retired n.toNat false }
    power := { s.power with
      enPot := putBit s.power.enPot n.toNat true, pgPot := putBit s.power.pgPot n.toNat true
      enSpt := putBit s.power.enSpt row true, pgSpt := putBit s.power.pgSpt row true } }
  let s2 := updPot s1 n fun p =>
    { Pot.reset with router := p.router, answers := p.answers, pat := (rebuiltPot s n).pat }
  let s3 := recalcHub (setPool s2 n (a + Nat.min 80 (a / 4) * 2 ^ 10))
  logService (identityEntries (startCores s3 n) n) 4 n 0 0

/-- UNRETIRE_POT: RESULT 2 for a pot that is not retired, 5 when a self-test fails. -/
def execUnretirePot (pot : PotIx) (selfTest : Bool) (s : State) : Result :=
  let say := fun (t : State) (r : Nat) => svcStart t 5 [(10, 5, pot.toNat)] false r
  svcRun s
    (if !potEnabled s pot || !potRetired s pot then say s 2
    else if !selfTest then say s 5
    else say (unretireAll s pot) 1)

/-- A pot's matrix engine is retired (R227, R228, R473). -/
def retireMxeAll (s : State) (n : PotIx) : State :=
  let s1 := engineResetAll s n .mxe
  logService (admitStalled { s1 with svc := { s1.svc with mxeOut := putBit s1.svc.mxeOut n.toNat true } } n .mxe) 5 n 0 0

/-- RETIRE_MXE (R473). -/
def execRetireMxe (pot : PotIx) (s : State) : Result :=
  let say := fun (t : State) (r : Nat) => svcStart t 6 [(10, 5, pot.toNat)] false r
  svcRun s (if potPresent s pot && mxePresent s pot then say (retireMxeAll s pot) 1 else say s 2)

/-- RETURN_MXE (R473): accepted with FAILED 0. -/
def execReturnMxe (pot : PotIx) (s : State) : Result :=
  let say := fun (t : State) (r : Nat) => svcStart t 7 [(10, 5, pot.toNat)] false r
  svcRun s
    (if !potOn s pot || !mxeFused s || mxePresent s pot then say s 2
    else if (potOf s pot).mxe.failed then say s 5
    else say (logService { s with svc := { s.svc with mxeOut := putBit s.svc.mxeOut pot.toNat false } } 6 pot 0 0) 1)

/-- ABORT (R470): taken while BUSY; an UNMIRROR that runs goes on, and with nothing running RESULT is 2. -/
def execAbort (s : State) : Result :=
  if regBad s svcKey then .next (parityEnds s svcKey)
  else
    whenDo s.fw.running s
      (if migPhase s ≠ 0 then abandonMove s else if svcBusy s then s else svcEnd s 2)

/-! The copy (R466 to R468). -/

/-- One row of one bank goes to its target: unwritten words as zero, a BAD row left BAD (R394, R466). -/
def copyUnitRow (s : State) (src dst : Place) : State :=
  let bad := match placeRow (potOf s src.pot) src with
    | some ix => (rowMask s ix).2
    | none => false
  let one := fun (t : State) (c : Nat) =>
    let r := readWordAt t { src with col := BitVec.ofNat 6 c } patWho
    writeWordAt r.1 { dst with col := BitVec.ofNat 6 c } patWho r.2.bytes r.2.poison
  let s1 := runAll one (upto 64) s
  match placeRow (potOf s src.pot) src, placeRow (potOf s1 dst.pot) dst with
  | some a, some b => if bad then dramCells s1 (b * 4096 + tagOff) (cellRead dramDefault s1.dram (a * 4096 + tagOff) 16) else s1
  | _, _ => s1

/-- Unit u = 16 × row + bank of an entry. -/
def copyUnit (s : State) (ix unit : Nat) : State :=
  let e := entryOf s ix
  let row : BitVec 15 := BitVec.ofNat 15 (unit / 16)
  let bank : BitVec 4 := BitVec.ofNat 4 unit
  copyUnitRow s ⟨entPot e, entGroup e, bank, row, 0⟩ ⟨entMirrorPot e, entMirrorGroup e, bank, row, 0⟩

/-- Source and target may be served: both pots in service, neither channel under the whistle (R391, R466, R470). -/
def moveServed (s : State) (ix : Nat) : Bool :=
  let e := entryOf s ix
  patServed s (entPot e) (entGroup e) && patServed s (entMirrorPot e) (entMirrorGroup e)

/-- MIGRATION_COPY_UNIT (R466, R469). -/
def execMigrationCopyUnit (s : State) : Result :=
  let c := cursorOf s.svc.cursor
  let s1 := copyUnit s c.entry c.unit
  whenDo (s.fw.running && c.phase == 1 && entState (entryOf s c.entry) == 1 && moveServed s c.entry) s
    (if c.unit + 1 < 2 ^ 19 then setCursor s1 { c with unit := c.unit + 1 } else atEntry s1 c (c.entry + 1))

/-- Copy again every block of 16 rows that an LU has written since (R467). -/
def copyDirty (s : State) (ix : Nat) : State :=
  let e := entryOf s ix
  if entMirrorEn e then s
  else
    let blocks := ((schedOf (potOf s (entPot e)) (entGroup e).toNat).dirty.filter fun d => d.2).map Prod.fst
    let block := fun (t : State) (b : Nat) =>
      runAll (fun u r => copyUnit u ix (16 * (b % 2048 * 16 + r) + b / 2048)) (upto 16) t
    clearDirty (runAll block blocks s) ix

/-- What a moving entry becomes at the switch: PHYS at the target, or for a mirror setup MIRROR_EN 1 (R462, R468). -/
def switched (c : Cursor) (e : BitVec 32) : BitVec 32 :=
  if c.mirrorOp then entWithState (putBit e 11 true) 0
  else entWithState (putBit (putPhys e (entMirrorPot e) (entMirrorGroup e)) 11 false) 0

/-- MIGRATION_SETTLE (R467): running leaf commands have finished; dirty blocks go again, and the switch is requested. -/
def execMigrationSettle (s : State) : Result :=
  let c := cursorOf s.svc.cursor
  let l := entriesMoving s
  let s1 := runAll copyDirty l s
  let s2 := runAll (fun t ix => { t with map := { t.map with changes := tset t.map.changes ix (switched c (entryOf t ix)) } }) l s1
  whenDo (s.fw.running && c.phase == 2 && l.all fun ix => moveServed s ix && !entryInUse s ix) s (setCursor s2 { c with phase := 3 })

/-- The switch itself: every moving entry at once, the checkpoint, and the retirement that AND_RETIRE asks for (R468). -/
def switchAll (s : State) : State :=
  let c := cursorOf s.svc.cursor
  let l := entriesMoving s
  let s1 := runAll (fun t ix => applyMapChange t ix (switched c (entryOf t ix))) l s
  let s2 := svcEnd (checkpoint (setCursor s1 { c with phase := 0 })) 1
  if c.retire && !c.mirrorOp then retireAll s2 c.src (some 1) else s2

/-- MIGRATION_SWITCH (R468). -/
def execMigrationSwitch (s : State) : Result :=
  whenDo (s.fw.running && migPhase s == 3 && (entriesMoving s).all fun ix => !entryInUse s ix) s (switchAll s)

end Sys2Proof.Machine
end

