-- ==== Sys2Proof/Machine/Power.lean ====
section
/-!
DEFINITION. The power sequencer (R523 to R529), the states that a cold power-on and a warm module reset leave (R417, R459, R460), the
reset commands (R455 to R458), PERST# (R456), and the commands that end a sweep or a tray clear (R55, R383).
-/

namespace Sys2Proof.Machine

/-! The state after a cold start (R460). -/

/-- ALLOT and STANDING of a pot by grade and fuses (R431). -/
def coldAllot (f : Fuses) (n : Nat) : Nat := if !bitAt f.potEn n then 0 else if f.grade = .b then 480 else 420
def coldStanding (f : Fuses) (n : Nat) : Nat := if bitAt f.potEn n then 80 else 0
def coldPmt (f : Fuses) (n : Nat) : Pmt :=
  let a := coldAllot f n
  let p := setStanding (setAllot Pmt.reset a) (coldStanding f n)
  { setFree p (a - coldStanding f n) with lastAeff := a }
/-- Pots whose permit pool differs from Pot.reset's. -/
def coldPots (f : Fuses) : SMap Pot :=
  (upto 32).filterMap fun n => if coldPmt f n = Pmt.reset then none else some (n, { Pot.reset with pmt := coldPmt f n })

/-- Everything but the caddy, the fuses and the always-on domain is lost (R460). -/
def coldState (s : State) : State :=
  { State.reset with
    pending := s.pending, freeCtr := s.freeCtr, fuses := s.fuses, power := s.power, pins := { s.pins with pulseRun := false }
    ket := { s.ket with ctl := Ket.reset.ctl }, caddy := s.caddy, svc := { Svc.reset with lseq := s.svc.lseq }, jtag := s.jtag, sb := s.sb
    out := s.out, hfe := { Hfe.reset with nextId := s.hfe.nextId }, pots := coldPots s.fuses, saves := s.saves }

/-- Every enable low. -/
def railsOff (p : Power) : Power :=
  { p with enCaddy := false, enHub := false, enPot := 0, enSpt := 0, pgCaddy := false, pgHub := false, pgPot := 0, pgSpt := 0 }

/-- LAST_WORDS on the wire of every port that was live. -/
def partingWords (s : State) (reason : Nat) (t : State) : State :=
  runAll (fun u q =>
    if portLive (portAt s q) then updPortAt u q fun p => { p with wire := some (lastWordsFlit reason) } else u) (upto 64) t

/-- ALERT_N's causes: 0 warning, 1 too hot, 2 unread trip, 3 power-good timeout, 4 power-good fall. -/
def setAlert (s : State) (cause : Nat) (on : Bool) : State := { s with pins := { s.pins with alert := putBit s.pins.alert cause on } }

/-! The sequence (R526, R527). -/

/-- Steps 2 and 3: KET_TRIPS is read; with LATCHED set the sequencer stops. -/
def startSequence (s : State) : State :=
  if bitAt s.ket.trips 2 then { s with power := { s.power with step := .held } }
  else { s with power := { s.power with step := .waitHub, enCaddy := true, enHub := true } }

/-- COLD_POWER_ON: VDD_AON rises; the straps are sampled (R526, R532). -/
def execColdPowerOn (s : State) : Result :=
  let s1 := coldState { s with power := { railsOff s.power with aon := true, warm := false } }
  whenDo (!s.power.aon) s (startSequence s1)

/-- Rows with an enabled, unretired pot. -/
def rowsInUse (s : State) : BitVec 4 :=
  BitVec.ofNat 4 (((upto 4).map fun r => if (allPots.any fun n => n.toNat / 8 == r && potPresent s n) then 2 ^ r else 0).sum)
/-- Pots in use as a mask. -/
def potsInUse (s : State) : BitVec 32 := BitVec.ofNat 32 ((presentPots s).map fun n => 2 ^ n.toNat).sum

/-- Retirements that the service log records (R460, R474). -/
def readRetirements (s : State) : State :=
  let l := s.caddy.serviceLog
  let mask := fun (on off : Nat) => BitVec.ofNat 32 (((upto 32).map fun n => if logSays l n on off then 2 ^ n else 0).sum)
  { s with svc := { s.svc with retired := mask 3 4, mxeOut := mask 5 6 } }

/-- A retired pot's map entries are lost, and it has no allotment (R405, R460). -/
def retiredPots (s : State) : State :=
  let out := enabledPots s |>.filter (potRetired s)
  recalcHub (runAll (fun t n =>
    setPool (runAll (fun u ix => setMapEntry u ix (entWithState (entryOf u ix) 2)) (between (64 * n.toNat) (64 * n.toNat + 64)) t) n 0) out s)

/-- A bad service log record is skipped and reported (R474): its caddy offset, 255 records to a page. -/
def reportLog (s : State) : State :=
  runAll (fun t x =>
    if svcRecordGood x.1 then t
    else sendFault t (plainFault (hubIsland 8) 0xB 3 (0x4200000 + x.2 / 255 * 16384 + x.2 % 255 * 64) 0)) s.caddy.serviceLog.zipIdx s

/-- Step 4: the boot ROM reads the service log, and EN_POT rises for every pot in use. -/
def raisePots (s : State) : State :=
  let s1 := retiredPots (reportLog (readRetirements s))
  { s1 with power := { s1.power with step := .waitPots, enPot := potsInUse s1 } }

/-- The sequencer goes on when what it waits for has come. -/
def sequenceOn (s : State) : State :=
  let s1 := if s.power.step = .waitHub ∧ s.power.pgCaddy ∧ s.power.pgHub then raisePots s else s
  let s2 := if s1.power.step = .waitPots ∧ s1.power.pgPot &&& s1.power.enPot = s1.power.enPot then
      { s1 with power := { s1.power with step := .waitSpt, enSpt := rowsInUse s1 } } else s1
  if s2.power.step = .waitSpt ∧ s2.power.pgSpt &&& s2.power.enSpt = s2.power.enSpt then
    { s2 with power := { s2.power with step := .bootReady } }
  else s2

/-- An enable and its power-good input. -/
def railEn (p : Power) : Rail → Bool
  | .caddy => p.enCaddy
  | .hub => p.enHub
  | .pot n => bitAt p.enPot n.toNat
  | .spt r => bitAt p.enSpt r.toNat
def railPg (p : Power) : Rail → Bool
  | .caddy => p.pgCaddy
  | .hub => p.pgHub
  | .pot n => bitAt p.pgPot n.toNat
  | .spt r => bitAt p.pgSpt r.toNat
def setPg (p : Power) (b : Bool) : Rail → Power
  | .caddy => { p with pgCaddy := b }
  | .hub => { p with pgHub := b }
  | .pot n => { p with pgPot := putBit p.pgPot n.toNat b }
  | .spt r => { p with pgSpt := putBit p.pgSpt r.toNat b }
def dropEn (p : Power) : Rail → Power
  | .caddy => { p with enCaddy := false, pgCaddy := false }
  | .hub => { p with enHub := false, pgHub := false }
  | .pot n => { p with enPot := putBit p.enPot n.toNat false, pgPot := putBit p.pgPot n.toNat false }
  | .spt r => { p with enSpt := putBit p.enSpt r.toNat false, pgSpt := putBit p.pgSpt r.toNat false }

/-- A pot that a reset has powered again comes into service (R527). -/
def latePot (s : State) (n : PotIx) : State :=
  if s.power.step = .running ∧ (potOf s n).inReset then startCores s n else s

/-- POWER_GOOD_RISE (R526). -/
def execPowerGoodRise (r : Rail) (s : State) : Result :=
  let s1 := sequenceOn { s with power := setPg s.power true r }
  whenDo (railEn s.power r && !railPg s.power r) s
    (match r with
     | .pot n => latePot s1 n
     | _ => s1)

/-- PG_TIMEOUT: 10 ms after its enable the power-good has not risen (R527). -/
def execPgTimeout (r : Rail) (s : State) : Result :=
  let off := { s with power := dropEn s.power r }
  whenDo (railEn s.power r && !railPg s.power r) s
    (match r with
     | .caddy | .hub =>
       let s1 := coldState { s with power := { railsOff s.power with step := .held } }
       setAlert s1 3 true
     | .pot n => sequenceOn (failedStart off n)
     | .spt _ => sequenceOn off)

/-! Falls and losses (R528, R529). -/

/-- The ports of a row go DOWN (R528). -/
def rowDown (s : State) (r : BitVec 2) : State :=
  runAll (fun t n => if n.toNat / 8 = r.toNat then portDown (portDown t n 0 3) n 1 3 else t) allPots s

/-- PG_FALL: a power-good falls while its enable is high (R528). -/
def execPgFall (r : Rail) (s : State) : Result :=
  let off := { s with power := dropEn s.power r }
  whenDo (railEn s.power r && railPg s.power r) s
    (match r with
     | .pot n => sequenceOn (retireAll off n none)
     | .spt q => sequenceOn (rowDown off q)
     | .caddy | .hub => setAlert (coldState { s with power := { railsOff s.power with step := .held } }) 4 true)

/-- COLD_POWER_LOSS: VDD_AON goes; the trip count and LATCHED go with it (R427, R532). -/
def execColdPowerLoss (s : State) : Result :=
  let p := { railsOff s.power with aon := false, step := .off, warm := false }
  let s1 := coldState { s with power := p, ket := Ket.reset, jtag := State.reset.jtag, sb := State.reset.sb }
  whenDo s.power.aon s { s1 with pins := { Pins.reset with sbMode := s.pins.sbMode, sbAddr := s.pins.sbAddr, perst := s.pins.perst } }

/-! Warm module reset (R459). -/

/-- A channel's queued writes and merged words reach the banks, which then enter self-refresh (R459). -/
def settleChan (n : PotIx) (s : State) (g : Nat) : State :=
  let gi : GroupIx := BitVec.ofNat 6 g
  let c := schedOf (potOf s n) g
  let writes := (byAge c).filter fun e => !isReadOp e.req && !isBus e.req
  drainMerge n gi c.merge (drainQueue n gi (bksTiming s n gi) writes s)
def settleDram (s : State) : State :=
  runAll (fun t n => runAll (settleChan n) ((potOf t n).scheds.map Prod.fst) t) allPots s

/-- A scheduler after a warm reset: its dirty map, and whether its sweep is done. -/
def warmSched (c : Sched) : Sched := { Sched.reset with dirty := c.dirty, swept := c.swept, selfRefresh := true }

/-- ALLOT, STANDING and L with their complements; FREE follows from them, and where they disagree A_eff stays the last that matched (R416,
R417). -/
def warmPmt (p : Pmt) : Pmt :=
  let q := { Pmt.reset with allot := p.allot, allotN := p.allotN, standing := p.standing, standingN := p.standingN, lvl := p.lvl, lvlN := p.lvlN }
  let r := pmtRecalc q
  if pmtGood r then r else { r with lastAeff := p.lastAeff }

/-- What of a pot a warm reset keeps (R398, R417, R459): remap entries, ALLOT, STANDING and L, bands, DEAD marks and proxy slots,
dirty maps. -/
def warmPot (p : Pot) : Pot :=
  { Pot.reset with
    pat := { Pat.reset with rowmap := p.pat.rowmap, bankmap := p.pat.bankmap, mismatched := p.pat.mismatched,
                            cmd := (abandonRepair { Pat.reset with copy := p.pat.copy, waits := p.pat.waits }).cmd }
    pmt := warmPmt p.pmt
    bands := p.bands, forced := p.forced, luProxy := p.luProxy
    chans := (p.chans.filter fun e => e.2.proxy != 0).map fun e => (e.1, { Chan.reset with proxy := e.2.proxy })
    lus := (p.lus.filter fun e => e.2.dead).map fun e => (e.1, { Lu.reset with dead := true })
    scheds := p.scheds.map fun e => (e.1, warmSched e.2)
    ports := p.ports.map fun e => (e.1, { Port.reset with wire := e.2.wire })
    failedResets := p.failedResets }

/-- Kept registers take their buffered writes (R490): PMT_HUB, ALLOT and STANDING, SPT_NODE. -/
def applyKept (s : State) : State :=
  let s1 := applyPmtHub s
  let s2 := runAll applyPmtPot allPots s1
  match bufferOf s2 0x4000 with
  | some v => { s2 with drz := { s2.drz with node := BitVec.ofNat 64 v } }
  | none => s2

/-- A head's attachment outlives the reset; its link, decoders and vectors do not (R456). -/
def warmHead (h : Head) : Head := { Head.reset with everTrained := h.everTrained }

/-- Every entry of another module loses LIVE (R459). -/
def warmBlend (s : State) : SMap (BitVec 128) :=
  s.blend.table.map fun e => if ownNode s (recModule e.2) then e else (e.1, putBit e.2 81 false)

/-- Steps 1 and 2 of R459. -/
def warmState (s : State) : State :=
  let a := applyKept (settleDram s)
  let base := coldState a
  partingWords s 2
    { base with
      power := { a.power with step := .bootReady, warm := true }
      heads := a.heads.map fun e => (e.1, warmHead e.2)
      hfe := { base.hfe with interleave := a.hfe.interleave }
      map := { a.map with changes := [], waiting := [] }
      blend := ⟨warmBlend a, [], 0⟩
      pmtHub := { a.pmtHub with mismatch := false, budgetRej := 0 }
      ket := a.ket
      fw := { base.fw with keyCtl := putField 0 7 1 (fieldN a.fw.keyCtl 7 1) }
      svc := { base.svc with cursor := a.svc.cursor, cursorN := a.svc.cursorN, retired := a.svc.retired, mxeOut := a.svc.mxeOut }
      cup := { base.cup with ring := a.cup.ring, newest := a.cup.newest, held := a.cup.held }
      drz := { node := a.drz.node, lostSent := [],
               routes := a.drz.routes.map fun e => (e.1, { e.2 with lost := e.2.lost || e.2.ports != 0 }) }
      dram := a.dram
      pots := a.pots.map fun e => (e.1, warmPot e.2) }

/-- A warm reset may begin: the module is up, and none runs (R457). -/
def warmMay (s : State) : Bool := hubOn s && s.power.step == .running

/-- A START of HUB_RESET_CTL while the module's start runs is ignored: RESULT 3 (R457, R475). -/
def resetIgnored (s : State) (kind : Nat) (n : PotIx) (unit : Option Nat) : State :=
  if hubOn s then resetCtl s kind n unit 3 else s

/-- WARM_MODULE_RESET: HUB_RESET_CTL KIND 1, or the sideband command (R455, R457). -/
def execWarmModuleReset (s : State) : Result :=
  if regBad s 0x20 then .next (parityEnds s 0x20)
  else if warmMay s then .next (warmState s)
  else .next (resetIgnored s 1 (fieldB s.svc.resetCtl 3 5) none)

/-! PERST# (R456). -/

/-- Heads that have trained since the cold power-on. -/
def attachedHeads (s : State) : BitVec 2 :=
  BitVec.ofNat 2 ((headOf s 0).everTrained.toNat + 2 * (headOf s 1).everTrained.toNat)

/-- PERST: the levels of PERST0_N and PERST1_N, bit set for asserted. A head's link goes down as its PERST# is asserted; once all
attached heads have been asserted, the first deassertion is a warm module reset. -/
def execPerst (levels : BitVec 2) (s : State) : Result :=
  let down := fun (t : State) (h : BitVec 1) =>
    if bitAt levels h.toNat && !bitAt s.pins.perst h.toNat then linkDown t h else t
  let att := attachedHeads s
  let armed := att != 0 && (levels &&& att) == att
  let fell := s.pins.perstSeen != 0 && (levels &&& s.pins.perstSeen) != s.pins.perstSeen
  let seen : BitVec 2 := if armed then att else if fell then 0 else s.pins.perstSeen
  let s1 := down (down s 0) 1
  let s2 := { s1 with pins := { s1.pins with perst := levels, perstSeen := seen } }
  .next (if fell && warmMay s then warmState s2 else s2)

/-! Reset commands (R455 to R458). -/

/-- A START of HUB_RESET_CTL: in a module that runs it has its effect; under a parity fault it only ends the fault (R457, R493). -/
def resetRun (s : State) (kind : Nat) (n : PotIx) (unit : Option Nat) (r : State) : Result :=
  if regBad s 0x20 then .next (parityEnds s 0x20)
  else if warmMay s then .next r
  else .next (resetIgnored s kind n unit)

/-- The pot reset itself: cleared, self-tested, and started if it can be. A pot whose start had failed is powered again first, and
comes into service when its power-good rises (R458, R527). -/
def potResetAll (s : State) (n : PotIx) (failedLus : List LuIx) (mxePass fwStarts : Bool) : State :=
  let s1 := selfTested (clearPot (updPot s n fun p => { p with inReset := true }) n) n failedLus mxePass
  let s2 := if !mxePass && mxePresent s n then
      logService { s1 with svc := { s1.svc with mxeOut := putBit s1.svc.mxeOut n.toNat true } } 5 n 0 0 else s1
  fwSettle
    (if !bitAt s.power.pgPot n.toNat then { s2 with power := { s2.power with enPot := putBit s2.power.enPot n.toNat true } }
     else if s.fw.running && !fwStarts then failedStart s2 n
     else startCores s2 n)

/-- POT_RESET: HUB_RESET_CTL KIND 2 (R457, R458). `failedLus`, `mxePass` and `fwStarts` are what its self-tests and the start of
BREWFW come to. -/
def execPotReset (n : PotIx) (failedLus : List LuIx) (mxePass fwStarts : Bool) (s : State) : Result :=
  resetRun s 2 n none
    (if !potPresent s n then resetCtl s 2 n none 2 else resetCtl (potResetAll s n failedLus mxePass fwStarts) 2 n none 1)

/-- ENGINE_RESET: HUB_RESET_CTL KIND 3 (R457). -/
def execEngineReset (n : PotIx) (e : Eng) (s : State) : Result :=
  let say := fun (t : State) (r : Nat) => resetCtl t 3 n (some (engNo e)) r
  resetRun s 3 n (some (engNo e))
    (if !potPresent s n || (e == .mxe && !mxePresent s n) then say s 2
    else if (potOf s n).inReset then say s 3
    else say (admitStalled (engineResetAll s n e) n e) 1)

/-- BREWER_CORE_RESET: HUB_RESET_CTL KIND 4 (R457). -/
def execBrewerCoreReset (n : PotIx) (core : BitVec 3) (s : State) : Result :=
  let say := fun (t : State) (r : Nat) => resetCtl t 4 n (some core.toNat) r
  resetRun s 4 n (some core.toNat)
    (if !potPresent s n then say s 2
    else if (potOf s n).inReset then say s 3
    else say (coreResetAll s n core) 1)

/-! Sweep and tray (R55, R383). -/

/-- TAG_SWEEP_DONE: every bank of a channel has swept, and its scheduler admits requests (R383). The sweep has left every mask
empty. -/
def execTagSweepDone (n : PotIx) (g : GroupIx) (s : State) : Result :=
  whenDo (potPresent s n && bitAt s.power.pgPot n.toNat && s.power.step == .running && !(schedOf (potOf s n) g.toNat).swept) s
    (serveWaiters (updSched s n g fun c => { c with swept := true }))

/-- TRAY_CLEAR_DONE: the pot's tray is zero, with poison clear, and its engines take commands (R55). -/
def execTrayClearDone (n : PotIx) (s : State) : Result :=
  whenDo (potOn s n && !(potOf s n).trayClear) s (updPot (trayClear s n) n fun p => { p with trayClear := true })

/-! PULSE and the window (R445, R451). -/

/-- PULSE_TOGGLE: by the active pair, or by the boot ROM in plain memory (R451). -/
def execPulseToggle (s : State) : Result :=
  whenDo (s.pins.pulseRun && hubOn s) s { s with pins := { s.pins with pulse := !s.pins.pulse } }

/-- ENROLL_WINDOW_CLOSE: 60 s after the cold power-on (R445). -/
def execEnrollWindowClose (s : State) : Result :=
  whenDo (hubOn s) s { s with fw := { s.fw with keyCtl := putBit s.fw.keyCtl 7 false } }

end Sys2Proof.Machine
end

