-- ==== Sys2Proof/Machine/Kettle.lean ====
section
/-!
DEFINITION. The kettle: sensors and their neighbours, the period, bands, warning, throttle, shutdown and hard cut, the restart
(R418 to R430). Temperatures are in units of 0.125 °C.
-/

namespace Sys2Proof.Machine

/-! Sensors (R418, R420). -/

/-- A sensor's key in the kettle's tables: (pot << 8) | (die << 3) | sensor; the hub is pot 31, die 17. -/
def sensorKey (pot die k : Nat) : Nat := pot * 256 + die * 8 + k

/-- The dies of a place with their sensor counts: 16 DRAM dies and the base die, or the hub. -/
def ketDies : KetPlace → List (Nat × Nat)
  | .pot _ => ((upto 16).map fun d => (d, 4)) ++ [(16, 8)]
  | .hub => [(17, 4)]
def ketPot : KetPlace → Nat
  | .pot n => n.toNat
  | .hub => 31
/-- A place's key among the timers. -/
def ketTimerKey : KetPlace → Nat
  | .pot n => n.toNat
  | .hub => 32

def sensorAt (k : Ket) (key : Nat) : Sensor := tget k.sensors key Sensor.reset
def dieSensors (k : Ket) (pot : Nat) (d : Nat × Nat) : List Sensor := (upto d.2).map fun i => sensorAt k (sensorKey pot d.1 i)
def sensorValid (x : Sensor) : Bool := x.measured && !x.faulted && !x.excluded

/-- Raw conversion: a failed one, or a reading outside −40 °C to 150 °C, is FAULTED (R418). -/
def sensorRead (x : Sensor) (r : Option (BitVec 12)) : Sensor :=
  match r with
  | none => { x with faulted := true, excluded := false, measured := true }
  | some v => { x with raw := v, shown := v, faulted := decide (v.toInt < -320 ∨ 1200 < v.toInt), excluded := false, measured := true }

def insertInt (v : Int) : List Int → List Int
  | [] => [v]
  | a :: l => if v ≤ a then v :: a :: l else a :: insertInt v l
def sortInt (l : List Int) : List Int := l.foldr insertInt []

/-- The middle value, the higher one of two (R420). -/
def ketMedian (l : List Int) : Option Int := (sortInt l)[l.length / 2]?

/-- One sensor against the other sensors of its die that are not FAULTED (R420). -/
def sensorCheck (die : List Sensor) (i : Nat) (x : Sensor) : Sensor :=
  let near := (die.zipIdx.filter fun y => y.2 != i && !y.1.faulted).map fun y => y.1.raw.toInt
  let y :=
    if x.faulted then x
    else
      match ketMedian near with
      | none => { x with excluded := true }
      | some m =>
        if 64 < (x.raw.toInt - m).natAbs then { x with excluded := true, shown := BitVec.ofInt 12 m } else x
  if sensorValid y then y else { y with exclCount := satAdd y.exclCount 1 }

/-- The readings of one die enter the table. -/
def readDie (pot : Nat) (k : Ket) (d : Nat × Nat) (rs : List (Option (BitVec 12))) : Ket :=
  let raw := ((dieSensors k pot d).zip rs).map fun x => sensorRead x.1 x.2
  let out := raw.zipIdx.map fun x => (x.2, sensorCheck raw x.2 x.1)
  { k with sensors := out.foldl (fun m e => tset m (sensorKey pot d.1 e.1) e.2) k.sensors }

def readDies (pot : Nat) : List (Nat × Nat) → List (Option (BitVec 12)) → Ket → Ket
  | [], _, k => k
  | d :: ds, rs, k => readDies pot ds (rs.drop d.2) (readDie pot k d (rs.take d.2))

def ketRead (k : Ket) (p : KetPlace) (rs : List (Option (BitVec 12))) : Ket := readDies (ketPot p) (ketDies p) rs k

/-- Valid readings of a die, and its temperature: the largest of them (R420). -/
def validRaws (k : Ket) (pot : Nat) (d : Nat × Nat) : List Int :=
  ((dieSensors k pot d).filter sensorValid).map fun x => x.raw.toInt
def maxInt : List Int → Option Int
  | [] => none
  | a :: l => some (l.foldl max a)
def dieTemp (k : Ket) (pot : Nat) (d : Nat × Nat) : Option Int := maxInt (validRaws k pot d)

/-- Limits of DRAM dies, and of logic (R418). -/
def isDram (d : Nat × Nat) : Bool := decide (d.1 < 16)
def limitOf (d : Nat × Nat) (dram logic : Nat) : Int := ((if isDram d then dram else logic) * 8 : Nat)

/-- A place's temperatures with their dies. -/
def ketTemps (k : Ket) (p : KetPlace) : List ((Nat × Nat) × Option Int) := (ketDies p).map fun d => (d, dieTemp k (ketPot p) d)
def anyAt (l : List ((Nat × Nat) × Option Int)) (dram logic : Nat) : Bool :=
  l.any fun x => x.2.any fun t => decide (limitOf x.1 dram logic ≤ t)
/-- Every temperature is 3 °C or more below its limit. -/
def allCool (l : List ((Nat × Nat) × Option Int)) (dram logic : Nat) : Bool :=
  l.all fun x => x.2.any fun t => decide (t + 24 ≤ limitOf x.1 dram logic)

/-- KET_CTL; under a parity fault its reset values (R493). -/
def ketCtlKey : Nat := 0x3000
def ketCtl (s : State) : Word64 := if regBad s ketCtlKey then Ket.reset.ctl else s.ket.ctl
def ketTimer (s : State) (p : KetPlace) : KetTimer := tget s.ket.timers (ketTimerKey p) KetTimer.reset
def setTimer (s : State) (p : KetPlace) (t : KetTimer) : State :=
  { s with ket := { s.ket with timers := tset s.ket.timers (ketTimerKey p) t } }

/-- The period that the latest valid readings give, in µs (R419); 1 ms after a trip (R427). -/
def ketPeriod (s : State) (p : KetPlace) : Nat :=
  let l := ketTemps s.ket p
  if s.power.step = .tripped then 1000 else if anyAt l 105 110 then 10 else if anyAt l 95 95 then 100 else 1000

/-! Too hot and bands (R421, R422). -/

/-- Too few valid sensors: a DRAM die or the hub with fewer than two, a base die with none (R421). -/
def blindDie (k : Ket) (pot : Nat) (d : Nat × Nat) : Bool := decide ((validRaws k pot d).length < if d.1 = 16 then 1 else 2)
def blindDies (k : Ket) (p : KetPlace) : List (Nat × Nat) := (ketDies p).filter (blindDie k (ketPot p))

/-- The band of a die from its temperature and its present band (R422). -/
def bandNext (old : Nat) (t : Int) : Nat :=
  if old = 0 then (if 760 < t then 2 else if 680 < t then 1 else 0)
  else if old = 1 then (if 760 < t then 2 else if t < 656 then 0 else 1)
  else if t < 656 then 0 else if t < 736 then 1 else 2

/-- The bands of a pot's DRAM dies; all held in B2 while the pot is too hot. -/
def setBands (s : State) (n : PotIx) (hot : Bool) : State :=
  let one := fun (t : State) (d : Nat) =>
    let old := bandOf (potOf t n) d
    let new := if hot then 2 else
      match dieTemp t.ket n.toNat (d, 4) with
      | some x => bandNext old x
      | none => old
    let u := if new = old then t else bandChange t n d new
    updPot u n fun p => { p with forced := tset p.forced d hot }
  runAll one (upto 16) s

/-- The begin and the end of the condition of R421: its alert cause and its fault record. -/
def setTooHot (s : State) (p : KetPlace) : State :=
  let bad := blindDies s.ket p
  let was := (ketTimer s p).tooHot
  let s1 := setTimer s p { ketTimer s p with tooHot := !bad.isEmpty }
  match p with
  | .hub => s1
  | .pot n =>
    let s2 := setAlert s1 1 ((upto 32).any fun k => (tget s1.ket.timers k KetTimer.reset).tooHot)
    match bad with
    | d :: _ => if was || !hubOn s then s2 else sendFault s2 (plainFault (hubIsland 6) 9 1 (sensorKey n.toNat d.1 0) 0)
    | [] => s2

/-! Warning (R423). -/

def ketPlaces : List KetPlace := allPots.map KetPlace.pot ++ [.hub]

/-- Every measured place's temperatures are 3 °C below their warning limits. -/
def warnOver (s : State) : Bool :=
  let c := ketCtl s
  ketPlaces.all fun p => (ketTemps s.ket p).all fun x =>
    match x.2 with
    | some t => decide (t + 24 ≤ limitOf x.1 (fieldN c 0 8) (fieldN c 8 8))
    | none => true

/-- WARN with its alert cause; the CXL event comes as the warning begins. -/
def setWarn (s : State) (p : KetPlace) : State :=
  let c := ketCtl s
  if anyAt (ketTemps s.ket p) (fieldN c 0 8) (fieldN c 8 8) then
    let s1 := setAlert s 0 true
    if bitAt s.pins.alert 0 || !hubOn s then s1 else pushCxlEvent s1 (.temperature (ketTimerKey p))
  else if warnOver s then setAlert s 0 false
  else s

/-! Throttle (R424). -/

/-- The temperatures that count for a pot: its own, and the hub's for pots 0 to 7. -/
def relevantTemps (s : State) (n : PotIx) : List ((Nat × Nat) × Option Int) :=
  ketTemps s.ket (.pot n) ++ (if n.toNat < 8 then ketTemps s.ket .hub else [])

/-- The least level: FORCE_MIN, and 4 where R421 says so. -/
def levelFloor (s : State) (n : PotIx) : Nat :=
  let hot := (ketTimer s (.pot n)).tooHot || (decide (n.toNat < 8) && (ketTimer s .hub).tooHot)
  Nat.max (Nat.min 6 (fieldN (ketCtl s) 32 3)) (if hot then 4 else 0)

/-- A new level applies to the pool: A_eff, CAP and FREE move at once (R415). -/
def applyLevel (s : State) (n : PotIx) (l : Nat) : State :=
  updPot s n fun p => { p with pmt := if pmtGood p.pmt then pmtRecalc (setLevel p.pmt l) else setLevel p.pmt l }

/-- The level after a tick, from the time since its last change and since the pot has been cool, both in µs. -/
def levelNext (lvl floor since cool : Nat) (isOver : Bool) : Nat :=
  Nat.max floor (if isOver then (if 500 ≤ since then Nat.min 6 (lvl + 1) else lvl) else if 5000 ≤ cool then lvl - 1 else lvl)

def setThrottle (s : State) (n : PotIx) : State :=
  let c := ketCtl s
  let l := relevantTemps s n
  let t := ketTimer s (.pot n)
  let lvl := (potOf s n).pmt.lvl.toNat
  let since := t.sinceChange + t.period
  let cool := if allCool l (fieldN c 16 8) (fieldN c 24 8) then t.coolFor + t.period else 0
  let new := levelNext lvl (levelFloor s n) since cool (anyAt l (fieldN c 16 8) (fieldN c 24 8))
  if new = lvl then setTimer s (.pot n) { t with sinceChange := since, coolFor := cool }
  else applyLevel (setTimer s (.pot n) { t with sinceChange := 0, coolFor := 0 }) n new

/-! Trips (R425 to R429). -/

/-- Valid sensors of a die at or above a limit. -/
def hotSensors (k : Ket) (pot : Nat) (d : Nat × Nat) (lim : Int) : List Nat :=
  (upto d.2).filter fun i =>
    let x := sensorAt k (sensorKey pot d.1 i)
    sensorValid x && decide (lim ≤ x.raw.toInt)

/-- Sensors that make a shutdown: any valid one at 110 °C on a DRAM die, 115 °C on logic (R425). -/
def shutdownBy (k : Ket) (p : KetPlace) : List (Nat × Nat) :=
  (ketDies p).flatMap fun d => (hotSensors k (ketPot p) d (limitOf d 110 115)).map fun i => (d.1, i)

/-- Sensors that make a hard cut: of this tick, on a die where two different sensors of this tick and the one before read 115 °C, on logic
120 °C (R426). -/
def hardCutBy (old new : Ket) (p : KetPlace) : List (Nat × Nat) :=
  (ketDies p).flatMap fun d =>
    let a := hotSensors old (ketPot p) d (limitOf d 115 120)
    let b := hotSensors new (ketPot p) d (limitOf d 115 120)
    if 2 ≤ (upto d.2).countP fun i => a.contains i || b.contains i then b.map fun i => (d.1, i) else []

/-- KET_TRIPS after a trip (R428, R431): HOUR 3 before it latches the module off. -/
def tripRecord (w : Word64) (cause : Nat) (p : KetPlace) (x : Nat × Nat) : Word64 :=
  let hour := fieldN w 0 2
  let hub : Bool := match p with
    | .hub => true
    | .pot _ => false
  BitVec.ofNat 64 (Nat.min 3 (hour + 1) + (if bitAt w 2 || hour == 3 then 1 else 0) * 2 ^ 2 + cause * 2 ^ 3 + ketPot p * 2 ^ 5 +
    (if hub then 0 else x.1) * 2 ^ 10 + x.2 * 2 ^ 15 + hub.toNat * 2 ^ 18 + 2 ^ 19 + Nat.min 65535 (fieldN w 20 16 + 1) * 2 ^ 20)

/-- One trip is counted and recorded; of several triggering sensors a free value names one. -/
def countTrip (s : State) (cause : Nat) (p : KetPlace) (by_ : List (Nat × Nat)) : State :=
  let f := takeFree s
  let x := if by_.length ≤ 1 then (nth by_ 0 (0, 0), s) else (nth by_ (f.1.toNat % by_.length) (0, 0), f.2)
  let k := x.2.ket
  setAlert { x.2 with ket := { k with trips := tripRecord k.trips cause p x.1, coolFor := 0, toLog := true } } 2 true

/-- Everything stops and the rails go off; a module that was held stays held. -/
def tripOff (s : State) (caddy : Bool) : State :=
  let step : PowerStep := if s.power.step = .held then .held else .tripped
  let keep := caddy && s.power.enCaddy
  let p := railsOff s.power
  let t := coldState
    { s with power := { p with step := step, warm := false, enCaddy := keep, pgCaddy := keep && s.power.pgCaddy }
             ket := { s.ket with caddyHeld := keep } }
  { t with pins := { t.pins with thermtrip := true } }

/-- R425. -/
def shutdown (s : State) (p : KetPlace) : State := partingWords s 4 (tripOff (countTrip s 1 p (shutdownBy s.ket p)) true)
/-- R426. -/
def hardCut (s : State) (p : KetPlace) (by_ : List (Nat × Nat)) : State := tripOff (countTrip s 2 p by_) false

/-- After a trip: how long every valid reading has been below 85 °C and 90 °C, by the hub's ticks of 1 ms (R427). -/
def coolDown (s : State) (p : KetPlace) : State :=
  let warm := ketPlaces.any fun q => anyAt (ketTemps s.ket q) 85 90
  let n := if warm then 0 else
    match p with
    | .hub => s.ket.coolFor + 1000
    | .pot _ => s.ket.coolFor
  { s with ket := { s.ket with coolFor := n } }

/-- The fields that wait for the tick (R431). -/
def tickApply (s : State) (p : KetPlace) : State :=
  match p with
  | .pot n => applyPmtPot s n
  | .hub =>
    let t := applyPmtHub s
    match bufferOf t ketCtlKey with
    | some v => parityEnds (dropBuffer { t with ket := { t.ket with ctl := BitVec.ofNat 64 v } } ketCtlKey) ketCtlKey
    | none => t

/-- The tick of a module that has not tripped. -/
def tickActs (s : State) (p : KetPlace) : State :=
  let s1 := setWarn (setTooHot (tickApply s p) p) p
  let s2 := match p with
    | .pot n => setThrottle (setBands s1 n (!(blindDies s1.ket p).isEmpty)) n
    | .hub => s1
  setTimer s2 p { ketTimer s2 p with period := ketPeriod s2 p }

/-- KET_MEASUREMENT_TICK: the readings of a place, none for a conversion that fails, die by die with the base die last (R419). -/
def execKetMeasurementTick (place : KetPlace) (readings : List (Option (BitVec 12))) (s : State) : Result :=
  let s1 := { s with ket := ketRead s.ket place readings }
  let cut := hardCutBy s.ket s1.ket place
  let isOver := shutdownBy s1.ket place
  checked (readings.length == ((ketDies place).map Prod.snd).sum) s
    (whenDo s.power.aon s
      (if s.power.step = .tripped then
        let s2 := setTimer s1 place { ketTimer s1 place with period := 1000 }
        if s.ket.caddyHeld && !cut.isEmpty then hardCut s2 place cut else coolDown s2 place
      else if !cut.isEmpty then hardCut s1 place cut
      else if !isOver.isEmpty then shutdown s1 place
      else tickActs s1 place))

/-- CADDY_RAIL_OFF: the page program has ended, or 1 ms has passed since THERMTRIP_N (R429). -/
def execCaddyRailOff (s : State) : Result :=
  whenDo s.ket.caddyHeld s
    { s with ket := { s.ket with caddyHeld := false }, power := { s.power with enCaddy := false, pgCaddy := false } }

/-- KET_RESTART: cool for 10 s and not latched off; THERMTRIP_N deasserts and a cold power-on runs (R427, R428). -/
def execKetRestart (s : State) : Result :=
  whenDo (s.power.aon && s.power.step == .tripped && !bitAt s.ket.trips 2 && decide (10000000 ≤ s.ket.coolFor) && !s.ket.caddyHeld) s
    (startSequence (coldState { s with power := { railsOff s.power with warm := false }, pins := { s.pins with thermtrip := false } }))

/-- TRIP_HOUR_EXPIRY: a trip passes out of the last 3,600 s (R428). -/
def execTripHourExpiry (s : State) : Result :=
  whenDo (s.power.aon && decide (0 < fieldN s.ket.trips 0 2)) s
    { s with ket := { s.ket with trips := putField s.ket.trips 0 2 (fieldN s.ket.trips 0 2 - 1) } }

end Sys2Proof.Machine
end

