-- ==== Sys2Proof/Machine/Mxe.lean ====
section
/-!
DEFINITION. The matrix engine and the finished-tile queue (R207 to R229).
-/

namespace Sys2Proof.Machine

/-! Words (R92, R207, R221). -/

def mxA (w : ColWord) : Nat := fieldN w 36 4
def mxB (w : ColWord) : Nat := fieldN w 40 4
def mxQA (w : ColWord) : Nat := fieldN w 44 6
def mxQB (w : ColWord) : Nat := fieldN w 50 6
def mxQM (w : ColWord) : Nat := fieldN w 56 6
def mxAcc (w : ColWord) : Bool := bitAt w 62
def mxKlen (w : ColWord) : Nat := fieldN w 64 16
def mxOfmt (w : ColWord) : Nat := fieldN w 80 4
def mxRnd (w : ColWord) : Nat := fieldN w 84 2
def mxSat (w : ColWord) : Bool := bitAt w 86
def mxQO (w : ColWord) : Nat := fieldN w 88 6
def mxAlpha (w : ColWord) : F32 := fieldB w 96 32
def mxQBias (w : ColWord) : Nat := fieldN w 128 6

def inRange (x lo hi : Nat) : Bool := decide (lo ≤ x ∧ x ≤ hi)

/-- Rate r and accumulator mode (true for integer) of a permitted pair (R207). -/
def mxPair (a b : Nat) : Option (Nat × Bool) :=
  if (a = 1 ∧ b = 1) ∨ (a = 2 ∧ b = 2) then some (1, false)
  else if a = 1 ∧ (inRange b 3 4 || inRange b 7 11) then some (1, false)
  else if inRange a 3 4 && inRange b 3 4 then some (2, false)
  else if a = 5 ∧ b = 5 then some (2, true)
  else if a = 6 ∧ b = 6 then some (4, true)
  else if a = 12 ∧ b = 12 then some (2, false)
  else if inRange a 9 11 && inRange b 9 11 then some (4, false)
  else if inRange a 7 11 && inRange b 7 11 then some (2, false)
  else none

def isChain (q : Nat) : Bool := inRange q 56 59
def isTray (q : Nat) : Bool := decide (q < 48)

/-- Bytes of 32 elements of a row or column in the MXE's layout (R208). -/
def mxRowBytes (fmt : Nat) : Nat :=
  match elemBits fmt with
  | 32 => 128
  | 16 => 64
  | 4 => 16
  | _ => 32

/-- The formats a chain queue may hold (R221). -/
def mxChainFmt (fmt : Nat) : Bool := inRange fmt 1 5

/-- Bits that no MXE word uses. -/
def mxReserved (w : ColWord) : Bool := !bitAt w 63 && !bitAt w 87 && fieldN w 94 2 == 0 && fieldN w 134 122 == 0
/-- The fields of FLUSH hold their null values. -/
def mxNoFlush (w : ColWord) : Bool :=
  mxOfmt w == 0 && mxRnd w == 0 && !mxSat w && mxQO w == 63 && mxAlpha w == 0 && mxQBias w == 63
/-- The fields of the MMA class hold their null values. -/
def mxNoMma (w : ColWord) : Bool := mxA w == 0 && mxB w == 0 && mxQA w == 63 && mxQB w == 63 && mxQM w == 63 && mxKlen w == 0

/-- An MMA, MMA24 or MMABS word is well formed (R68, R92, R207, R209, R221). -/
def mmaOk (w : ColWord) (mop : Nat) : Bool :=
  mxReserved w && mxNoFlush w && (mxPair (mxA w) (mxB w)).isSome && decide (32 ≤ mxKlen w) && mxKlen w % 32 == 0 &&
    (if isChain (mxQA w) then mop == 0 && mxKlen w == 128 && mxChainFmt (mxA w) else isTray (mxQA w)) && isTray (mxQB w) &&
    (!isMx (mxA w) || decide (mxQA w ≤ 46)) && (!isMx (mxB w) || decide (mxQB w ≤ 46)) &&
    (if mop = 0 then mxQM w == 63 else isTray (mxQM w))

/-- A FLUSH word is well formed (R68, R91, R92, R218, R221). -/
def flushOk (w : ColWord) : Bool :=
  mxReserved w && mxNoMma w && decide (mxOfmt w ≤ 12) && decide (mxRnd w ≤ 1) && (mxRnd w == 0 || stochasticFmt (mxOfmt w)) &&
    (mxQO w == 48 || (if isChain (mxQO w) then mxChainFmt (mxOfmt w)
      else isTray (mxQO w) && (!isMx (mxOfmt w) || decide (mxQO w ≤ 46)))) &&
    (mxQBias w == 63 || isTray (mxQBias w))

def zeroOk (w : ColWord) : Bool := mxReserved w && mxNoMma w && mxNoFlush w

/-! Granules. -/

/-- Pop bytes from a queue in pieces of up to 32 B, each with its poison. -/
def popGranule (n : PotIx) (qi : Nat) : (fuel : Nat) → (len : Nat) → State → State × List (List Byte × Bool)
  | 0, _, s => (s, [])
  | f + 1, len, s =>
    if len = 0 then (s, [])
    else
      let k := Nat.min 32 len
      let r := qPop s n qi k
      let t := popGranule n qi f (len - k) r.1
      (t.1, r.2 :: t.2)

def popAll (s : State) (n : PotIx) (qi len : Nat) : State × List (List Byte × Bool) := popGranule n qi (ceilDiv len 32) len s

def pieceBytes (l : List (List Byte × Bool)) : List Byte := (l.map Prod.fst).flatten
def pieceBad (l : List (List Byte × Bool)) (byte : Nat) : Bool := nth (l.map Prod.snd) (byte / 32) false

/-- Elements `k` of a format from a byte offset. -/
def elemsAt (fmt k off : Nat) (bs : List Byte) : List FV :=
  (unpackElems (elemBits fmt) k ((bs.drop off).take (ceilDiv (elemBits fmt * k) 8))).map (decodeElem fmt)

/-- A value under its E8M0 block scale; 0xFF gives NaN (R212). -/
def mxScaled (sc : Option Nat) (x : FV) : FV :=
  match sc with
  | none => x
  | some 255 => .nan
  | some v => fvScale x ((v : Int) - 127)

/-! Accumulation (R208 to R214). -/

/-- B's elements in a chunk of one column: K position within the chunk and value. -/
abbrev ColElems := List (Nat × FV)

/-- Dense: all 32 positions. -/
def denseCol (fmt : Nat) (bs : List Byte) (sc : Option Nat) (c j : Nat) : ColElems :=
  ((elemsAt fmt 32 ((c * 128 + j) * mxRowBytes fmt) bs).zipIdx).map fun x => (x.2, mxScaled sc x.1)

/-- 2:4 form: sixteen kept values at the positions their index word gives (R210). -/
def sparseCol (fmt : Nat) (bs ix : List Byte) (sc : Option Nat) (c j : Nat) : ColElems :=
  let w : BitVec 32 := BitVec.ofNat 32 (natOfBytes ((ix.drop ((c * 128 + j) * 4)).take 4))
  ((elemsAt fmt 16 ((c * 128 + j) * (mxRowBytes fmt / 2)) bs).zipIdx).map fun x =>
    (4 * (x.2 / 2) + fieldN w (2 * x.2) 2, mxScaled sc x.1)

/-- Block kb of column j's group is present in chunk c (R211). -/
def blockOn (map : List Byte) (c kb j : Nat) : Bool := (nth map (2 * c + kb) 0).getLsbD (j / 16)

/-- Block-sparse: the elements of present blocks. -/
def blockCol (fmt : Nat) (bs map : List Byte) (sc : Option Nat) (c j : Nat) : ColElems :=
  (denseCol fmt bs sc c j).filter fun x => blockOn map c (x.1 / 16) j

/-- The exact sum of a chunk's products for one output element. -/
def chunkSum (row : List FV) (col : ColElems) : FV :=
  match col.map fun x => fvMul (nth row x.1 fvZero) x.2 with
  | [] => fvZero
  | p :: ps => ps.foldl fvAdd p

/-- One update of an accumulator value (R213, R214): the new value and whether it saturated. -/
def mxUpdate (setInt pairInt : Bool) (old : BitVec 32) (p : FV) : BitVec 32 × Nat :=
  if setInt then
    let v : Int × Nat :=
      if pairInt then ((match p with | .fin neg m e => toUnits neg m e 0 none | _ => 0), 0)
      else
        let c := toIntFmt 32 0 (fvOfF32 (roundF32 p)) none
        ((BitVec.ofNat 32 c.1).toInt, c.2.ovfs)
    let r := satInt 32 (old.toInt + v.1)
    (BitVec.ofInt 32 r.1, v.2 + r.2)
  else
    let q := if pairInt then fvOfF32 (roundF32 p) else p
    (roundF32 (fvAdd (fvOfF32 old) q), 0)

/-- Values of a set in order of key: all zero when it is clear. -/
def accVals (a : AccSet) : List (BitVec 32) := if a.vals.isEmpty then List.replicate 16384 0 else a.vals.map Prod.snd

/-- One chunk into a set. -/
def mxChunk (setInt pairInt : Bool) (vals : List (BitVec 32)) (rows : List (List FV)) (cols : List ColElems) :
    List (BitVec 32) × Nat :=
  let ps := (rows.map fun r => cols.map fun c => chunkSum r c).flatten
  let us := (vals.zip ps).map fun x => mxUpdate setInt pairInt x.1 x.2
  (us.map Prod.fst, (us.map Prod.snd).sum)

/-- The chunks in ascending K order. -/
def mxChunks (setInt pairInt : Bool) (rows : Nat → List (List FV)) (cols : Nat → List ColElems) :
    List Nat → List (BitVec 32) → List (BitVec 32) × Nat
  | [], v => (v, 0)
  | c :: cs, v =>
    let r := mxChunk setInt pairInt v (rows c) (cols c)
    let t := mxChunks setInt pairInt rows cols cs r.1
    (t.1, r.2 + t.2)

def accOf (m : Mxe) (k : Bool) : AccSet := if k then m.acc1 else m.acc0
def setAcc (m : Mxe) (k : Bool) (a : AccSet) : Mxe := if k then { m with acc1 := a } else { m with acc0 := a }

/-! Timing (R215, R216). -/

def resArray : Nat := 0
def resSet (k : Bool) : Nat := if k then 2 else 1
def resDrain : Nat := 3
/-- The array latency L. -/
def mxLat (st : Stepping) : Nat := if st = .a0 then 259 else 255

def mmaOcc (w : ColWord) (mop : Nat) : Nat :=
  let r := ((mxPair (mxA w) (mxB w)).map Prod.fst).getD 1
  if mop = 1 then mxKlen w / (2 * r) else mxKlen w / r

def mmaClaims (st : Stepping) (w : ColWord) (mop : Nat) : List (Nat × Nat × Nat) :=
  let occ := mmaOcc w mop
  let l := mxLat st
  [(resArray, 0, occ - 1), (resSet (mxAcc w), l, l + occ - 1)]

/-! MMA-class words. -/

/-- Bytes popped from each end: A, A's scales, B, B's scales, QM. -/
structure MxNeed where
  a : Nat
  sa : Nat
  b : Nat
  sb : Nat
  m : Nat
  deriving DecidableEq, Repr

def mmaNeed (w : ColWord) (mop : Nat) : MxNeed :=
  let ch := mxKlen w / 32
  { a := ch * 128 * mxRowBytes (mxA w), sa := if isMx (mxA w) then 4 * mxKlen w else 0,
    b := ch * 128 * mxRowBytes (mxB w) / (if mop = 1 then 2 else 1), sb := if isMx (mxB w) then 4 * mxKlen w else 0,
    m := if mop = 1 then 16 * mxKlen w else if mop = 2 then mxKlen w / 16 else 0 }

/-- An end the word pops: allowed to the MXE, and with the bytes it needs. -/
def popMay (p : Pot) (e : Eng) (qi len : Nat) : Bool := len == 0 || mayPop p (engAgent e) qi
def popReady (p : Pot) (qi len : Nat) : Bool := decide (len ≤ qReadable (queueOf p qi))
/-- Input ends are ready together: ends that name one queue share its bytes (R70). -/
def popsReady (p : Pot) (l : List (Nat × Nat)) : Bool := l.all fun x => popReady p x.1 (needOn l x.1)

/-- The operands of one issue. -/
structure MxIn where
  a : List (List Byte × Bool)
  sa : List (List Byte × Bool)
  b : List (List Byte × Bool)
  sb : List (List Byte × Bool)
  m : List (List Byte × Bool)
  deriving DecidableEq, Repr

/-- Rows of A in chunk c. A chain entry's tile is row-major in full rows of 128 (R221). -/
def aRows (w : ColWord) (i : MxIn) (chain : Bool) (c : Nat) : List (List FV) :=
  let f := mxA w
  (upto 128).map fun m =>
    if chain then elemsAt f 32 ((m * 4 + c) * mxRowBytes f) (pieceBytes i.a)
    else
      let sc := if isMx f then some (nth (pieceBytes i.sa) (c * 128 + m) 0).toNat else none
      (elemsAt f 32 ((c * 128 + m) * mxRowBytes f) (pieceBytes i.a)).map (mxScaled sc)

def bCols (w : ColWord) (mop : Nat) (i : MxIn) (c : Nat) : List ColElems :=
  let f := mxB w
  (upto 128).map fun j =>
    let sc := if isMx f then some (nth (pieceBytes i.sb) (c * 128 + j) 0).toNat else none
    match mop with
    | 1 => sparseCol f (pieceBytes i.b) (pieceBytes i.m) sc c j
    | 2 => blockCol f (pieceBytes i.b) (pieceBytes i.m) sc c j
    | _ => denseCol f (pieceBytes i.b) sc c j

/-- Poison of row m of A (R222): an element or a scale of it lies in a poisoned word. -/
def aBad (w : ColWord) (i : MxIn) (chain : Bool) (m : Nat) : Bool :=
  let rb := mxRowBytes (mxA w)
  (upto (mxKlen w / 32)).any fun c =>
    let off := if chain then (m * 4 + c) * rb else (c * 128 + m) * rb
    (upto (ceilDiv rb 32)).any (fun k => pieceBad i.a (off + 32 * k)) || (isMx (mxA w) && pieceBad i.sa (c * 128 + m))

/-- Poison of column j of B: skipped blocks carry none (R222). -/
def bBad (w : ColWord) (mop : Nat) (i : MxIn) (j : Nat) : Bool :=
  let rb := mxRowBytes (mxB w) / (if mop = 1 then 2 else 1)
  (upto (mxKlen w / 32)).any fun c =>
    let off := (c * 128 + j) * rb
    let on := fun (kb : Nat) => mop != 2 || blockOn (pieceBytes i.m) c kb j
    ([0, 1].any fun kb => on kb && pieceBad i.b (off + kb * (rb / 2))) ||
      (isMx (mxB w) && (on 0 || on 1) && pieceBad i.sb (c * 128 + j))

/-- Blocks that MMABS skips in an issue (R211). -/
def skippedBlocks (w : ColWord) (i : MxIn) : Nat :=
  mxKlen w / 2 - ((pieceBytes i.m).map fun b => popCount b).sum

/-- The flags of 128 rows or columns as bits. -/
def flagBits (f : Nat → Bool) : BitVec 128 := BitVec.ofNat 128 (((upto 128).map fun k => (f k).toNat * 2 ^ k).sum)

/-- One MMA-class issue on its accumulator set. -/
def mmaApply (m : Mxe) (w : ColWord) (mop : Nat) (i : MxIn) (chain : Bool) : Mxe :=
  let a := accOf m (mxAcc w)
  let pairInt := ((mxPair (mxA w) (mxB w)).map Prod.snd).getD false
  let intm := if a.touched then a.intMode else pairInt
  let r := mxChunks intm pairInt (aRows w i chain) (bCols w mop i) (upto (mxKlen w / 32)) (accVals a)
  let metaBad := i.m.any Prod.snd
  let a1 : AccSet :=
    { touched := true, intMode := intm, vals := r.1.zipIdx.map fun x => (x.2, x.1),
      rowPoison := a.rowPoison ||| flagBits (aBad w i chain),
      colPoison := a.colPoison ||| (if metaBad then BitVec.allOnes 128 else flagBits (bBad w mop i)) }
  { setAcc m (mxAcc w) a1 with
    events := satField (satField m.events 0 40 (mmaOcc w mop)) 40 24 (if mop = 2 then skippedBlocks w i else 0)
    numeric := putNumEv m.numeric ⟨0, r.2⟩ }

/-- The chain entry that an issue pops: an entry not yet present at the issue is missing (R84). -/
def chainPop (q : Seqr) (c t : Nat) : Option (ChainEntry × Seqr) :=
  match chainOf q c with
  | [] => none
  | x :: xs => if x.presentAt ≤ t then some (x, { q with chains := tset q.chains c xs }) else none

/-- Pop the operands of an issue. -/
def mmaPop (s : State) (n : PotIx) (w : ColWord) (need : MxNeed) (a0 : Option (List (List Byte × Bool))) : State × MxIn :=
  let a := match a0 with | some x => (s, x) | none => popAll s n (mxQA w) need.a
  let sa := popAll a.1 n (mxQA w + 1) need.sa
  let b := popAll sa.1 n (mxQB w) need.b
  let sb := popAll b.1 n (mxQB w + 1) need.sb
  let m := popAll sb.1 n (mxQM w) need.m
  (m.1, ⟨a.2, sa.2, b.2, sb.2, m.2⟩)

/-- One issue of MMA, MMA24 or MMABS. -/
def mmaIssue (n : PotIx) (mop : Nat) (w : ColWord) (s : State) : SeqIssue :=
  let p := potOf s n
  let q := p.mxeSeq
  let chain := isChain (mxQA w)
  let need := mmaNeed w mop
  let na := if chain then 0 else need.a
  let t := issueAt q w
  let cl := claimsAt t (mmaClaims s.fuses.stepping w mop)
  if !mmaOk w mop then .fault s 1 0xFF
  else if wRepeat w = 0 then seqPlain n .mxe s fun q => seqSkip q w
  else if !popMay p .mxe (mxQA w) na || !popMay p .mxe (mxQA w + 1) need.sa then .fault s 1 (mxQA w)
  else if !popMay p .mxe (mxQB w) need.b || !popMay p .mxe (mxQB w + 1) need.sb then .fault s 1 (mxQB w)
  else if !popMay p .mxe (mxQM w) need.m then .fault s 1 (mxQM w)
  else if !popsReady p [(mxQA w, na), (mxQA w + 1, need.sa), (mxQB w, need.b), (mxQB w + 1, need.sb), (mxQM w, need.m)] then .hold
  else
    let ce := if chain then chainPop q (mxQA w - 56) t else none
    if chain && ce.isNone then .fault s 2 (mxQA w)
    else if ce.any fun x => x.1.fmt.toNat != mxA w then .fault s 1 (mxQA w)
    else if claimsMeet q.claims cl then .fault s 4 0xFF
    else
      let s1 := match ce with | some x => updPot s n fun p => { p with mxeSeq := x.2 } | none => s
      let a0 := ce.map fun x => (chunks 32 (x.1.bytes.length / 32 + 1) x.1.bytes).zip x.1.poison
      let r := mmaPop s1 n w need a0
      let s2 := updPot r.1 n fun p => pmcAdd { p with mxe := mmaApply p.mxe w mop r.2 chain } 6 (mmaOcc w mop)
      seqPlain n .mxe s2 fun q => seqOp q w (mmaOcc w mop) cl

/-- The MXE word at issue is an OP of this MOP. -/
def ownOp (op : Nat) (w : ColWord) : Bool := wKind w == kindOp && fieldN w 32 4 == op

/-- MMA: dense (R208). -/
def execMma (n : PotIx) (s : State) : Result := seqIssue n .mxe (ownOp 0) (mmaIssue n 0) s
/-- MMA24: B in 2:4 form (R210). -/
def execMma24 (n : PotIx) (s : State) : Result := seqIssue n .mxe (ownOp 1) (mmaIssue n 1) s
/-- MMABS: B as a grid of 16 × 16 blocks (R211). -/
def execMmabs (n : PotIx) (s : State) : Result := seqIssue n .mxe (ownOp 2) (mmaIssue n 2) s

/-! ZERO and FLUSH (R215, R217 to R221). -/

/-- ZERO: the set is cleared. -/
def execZero (n : PotIx) (s : State) : Result :=
  seqIssue n .mxe (ownOp 4)
    (fun w t =>
      let q := (potOf t n).mxeSeq
      let l := mxLat t.fuses.stepping
      let cl := claimsAt (issueAt q w) [(resSet (mxAcc w), l, l)]
      if !zeroOk w then .fault t 1 0xFF
      else if wRepeat w = 0 then seqPlain n .mxe t fun q => seqSkip q w
      else if claimsMeet q.claims cl then .fault t 4 0xFF
      else
        seqPlain n .mxe (updPot t n fun p => { p with mxe := setAcc p.mxe (mxAcc w) .reset }) fun q => seqOp q w 1 cl) s

/-- The greatest exponent of an MX element format (R219). -/
def mxEmax (fmt : Nat) : Int :=
  match fmt with
  | 7 => 8
  | 8 => 15
  | 9 => 4
  | 10 => 2
  | 11 => 2
  | _ => 0

/-- Clamp to the exponents of an E8M0 scale. -/
def clampExp (e : Int) : Int := if e < -127 then -127 else if 127 < e then 127 else e

/-- floor(log2) of the largest magnitude of finite values; none when all are zero. -/
def maxExp (l : List FV) : Option Int :=
  l.foldl (fun b x =>
    match x with
    | .fin _ m e =>
      if m = 0 then b
      else match b with
        | none => some (magExp m e)
        | some v => some (if v < magExp m e then magExp m e else v)
    | _ => b) none

/-- Narrow one MX block of 32 values with the draws given (R219): the scale byte, the codes and the events. -/
def mxBlock (fmt : Nat) (sat : Bool) (vals : List FV) (draws : List (Option Nat)) : Nat × List Nat × NumEv :=
  if vals.any fun x => fvIsNan x || fvIsInf x then (255, List.replicate vals.length 0, ⟨1, 0⟩)
  else
    match maxExp vals with
    | none => (0, List.replicate vals.length 0, .zero)
    | some x =>
      let e := clampExp (x - mxEmax fmt)
      let cs := (vals.zip draws).map fun v => convertElem fmt (fvScale v.1 (-e)) v.2 sat
      ((e + 127).toNat, cs.map Prod.fst, sumEv (cs.map Prod.snd))

/-- Bytes of 32 element codes in the MXE's layout: FP6 is padded to 32 B (R208, R221). -/
def mxPack (fmt : Nat) (codes : List Nat) : List Byte := fitBytes (mxRowBytes fmt) (packElems (elemBits fmt) codes)

/-- Step 2 of R218: y = round (ALPHA × a + bias), with its events. -/
def flushY (alpha : F32) (bias : Option F32) (intm : Bool) (v : BitVec 32) : FV × NumEv :=
  let a := if intm then f32OfInt v.toInt else v
  let p := fvMul (fvOfF32 alpha) (fvOfF32 a)
  let x := match bias with | some b => fvAdd p (fvOfF32 b) | none => p
  (fvOfF32 (roundF32 x), roundEv x)

/-- One row of the output: data bytes, scale bytes, events, and the columns' registers after their draws (R218 to R220). -/
def flushRow (w : ColWord) (intm : Bool) (bias : Option (List F32)) (regs : List (BitVec 32)) (vals : List (BitVec 32)) :
    (List Byte × List Byte) × NumEv × List (BitVec 32) :=
  let fmt := mxOfmt w
  let ys := vals.zipIdx.map fun x => flushY (mxAlpha w) (bias.map fun b => nth b x.2 0) intm x.1
  let st := mxRnd w == 1
  let ds := regs.map lfsrDraw
  let draws : List (Option Nat) := if st then ds.map fun d => some d.2 else List.replicate 128 none
  let regs1 := if st then ds.map Prod.fst else regs
  let vs := ys.map Prod.fst
  let ev0 := sumEv (ys.map Prod.snd)
  if isMx fmt then
    let bl := (upto 4).map fun j =>
      mxBlock fmt (mxSat w) ((vs.drop (32 * j)).take 32) ((draws.drop (32 * j)).take 32)
    (((bl.map fun b => mxPack fmt b.2.1).flatten, bl.map fun b => BitVec.ofNat 8 b.1),
      addEv ev0 (sumEv (bl.map fun b => b.2.2)), regs1)
  else
    let cs := (vs.zip draws).map fun v => convertElem fmt v.1 v.2 (mxSat w)
    let nans : NumEv := ⟨(vs.filter fvIsNan).length, 0⟩
    let ovf : NumEv := ⟨0, (cs.map fun c => c.2.ovfs).sum⟩
    (((upto 4).map fun j => mxPack fmt (((cs.map Prod.fst).drop (32 * j)).take 32)).flatten |> (·, []),
      addEv ev0 (addEv nans ovf), regs1)

/-- The rows in order. -/
def flushRows (w : ColWord) (intm : Bool) (bias : Option (List F32)) :
    List (List (BitVec 32)) → List (BitVec 32) → List (List Byte × List Byte) × NumEv × List (BitVec 32)
  | [], regs => ([], .zero, regs)
  | r :: rs, regs =>
    let x := flushRow w intm bias regs r
    let t := flushRows w intm bias rs x.2.2
    (x.1 :: t.1, addEv x.2.1 t.2.1, t.2.2)

/-- Poison of output element (m, n): its row's flag or its column's (R222). -/
def outBad (a : AccSet) (cp : BitVec 128) (m c : Nat) : Bool := bitAt a.rowPoison m || bitAt cp c

/-- Poison of the 32 B words of the data: which elements a word holds follows the row's layout. -/
def dataPoison (a : AccSet) (cp : BitVec 128) (fmt : Nat) : List Bool :=
  let rb := 4 * mxRowBytes fmt
  let per := 128 * 32 / rb
  ((upto 128).map fun m => (upto (rb / 32)).map fun k => (between (k * per) ((k + 1) * per)).any (outBad a cp m)).flatten

/-- Poison of the scale words: 8 rows of 4 blocks in a word. -/
def scaleBad (a : AccSet) (cp : BitVec 128) : List Bool :=
  (upto 16).map fun k => (between (8 * k) (8 * k + 8)).any fun m => (upto 128).any (outBad a cp m)

/-- What a FLUSH gives out. -/
structure FlushOut where
  data : List Byte
  scales : List Byte
  poison : List Bool
  scalePoison : List Bool
  deriving DecidableEq, Repr

/-- Compute a flush of a set (R218 to R222). A residue mismatch poisons every word (R227). -/
def flushCompute (m : Mxe) (w : ColWord) (biasIn : List (List Byte × Bool)) (mismatch : Bool) : FlushOut × Mxe :=
  let a := accOf m (mxAcc w)
  let bias := if mxQBias w = 63 then none else some ((unpackElems 32 128 (pieceBytes biasIn)).map (BitVec.ofNat 32))
  let r := flushRows w a.intMode bias (chunks 128 128 (accVals a)) ((upto 128).map fun i => tget m.lfsr i 1)
  let cp := a.colPoison ||| (if mxQBias w = 63 then 0 else flagBits fun c => pieceBad biasIn (4 * c))
  let bad := fun (l : List Bool) => l.map fun b => b || mismatch
  let m1 := setAcc m (mxAcc w) .reset
  ({ data := (r.1.map Prod.fst).flatten, scales := (r.1.map Prod.snd).flatten, poison := bad (dataPoison a cp (mxOfmt w)),
     scalePoison := bad (scaleBad a cp) },
    { m1 with lfsr := r.2.2.zipIdx.map fun x => (x.2, x.1), numeric := putNumEv m1.numeric r.2.1, ftqHeld := false,
              residue := m1.residue || mismatch })

/-- The drain path has moved on: the tile before it stands whole in its slot, so at most one slot is FILLING (R223; DEDUCED, log
entry 107). -/
def ftqSettle (l : List FtqSlot) : List FtqSlot := l.map fun f => if f.state = .filling then { f with state := .ready } else f

/-- The tile goes to the FTQ, to a tray queue with its scales in the companion, or to a chain queue (R221). -/
def flushPut (n : PotIx) (w : ColWord) (t : Nat) (o : FlushOut) (s : State) : State :=
  let q := (potOf s n).mxeSeq
  let fmt := BitVec.ofNat 4 (mxOfmt w)
  let pieces := fun (bs : List Byte) (ps : List Bool) => (chunks 32 (bs.length / 32 + 1) bs).zip ps
  if mxQO w = 48 then
    updPot s n fun p => { p with mxe := { p.mxe with ftq := ftqSettle p.mxe.ftq ++
      [⟨.filling, q.tag, q.infusion, fmt, o.data, o.scales, o.poison, o.scalePoison, 0⟩] } }
  else if isChain (mxQO w) then
    let c := mxQO w - 56
    updPot s n fun p => { p with mxeSeq := { q with chains := tset q.chains c (chainOf q c ++ [⟨fmt, o.data, o.poison, t + 136⟩]) } }
  else
    let s1 := qPushAll n (mxQO w) (pieces o.data o.poison) s
    if isMx (mxOfmt w) then qPushAll n (mxQO w + 1) (pieces o.scales o.scalePoison) s1 else s1

/-- Bytes of a FLUSH's data granule. -/
def flushBytes (w : ColWord) : Nat := 512 * mxRowBytes (mxOfmt w)

/-- The output end is open to the MXE, and has room for the issue (R57, R217, R224). -/
def flushMay (p : Pot) (w : ColWord) : Bool :=
  !isTray (mxQO w) || (mayPush p 0 (mxQO w) && (!isMx (mxOfmt w) || mayPush p 0 (mxQO w + 1)))
def flushRoom (p : Pot) (w : ColWord) : Bool :=
  if mxQO w = 48 then decide (p.mxe.ftq.length < 64)
  else if isChain (mxQO w) then true
  else decide (flushBytes w ≤ qWritable (queueOf p (mxQO w))) &&
    (!isMx (mxOfmt w) || decide (512 ≤ qWritable (queueOf p (mxQO w + 1))))

/-- One issue of FLUSH. -/
def flushIssue (n : PotIx) (residueBad : Bool) (w : ColWord) (s : State) : SeqIssue :=
  let p := potOf s n
  let q := p.mxeSeq
  let t := issueAt q w
  let cl := claimsAt t [(resDrain, 0, 127), (resSet (mxAcc w), 0, mxLat s.fuses.stepping)]
  let nb := if mxQBias w = 63 then 0 else 512
  if !flushOk w then .fault s 1 0xFF
  else if wRepeat w = 0 then seqPlain n .mxe s fun q => seqSkip q w
  else if !popMay p .mxe (mxQBias w) nb then .fault s 1 (mxQBias w)
  else if !flushMay p w then .fault s 1 (mxQO w)
  else if !popReady p (mxQBias w) nb then .hold
  else if !flushRoom p w then
    if mxQO w = 48 then
      .go (seqHold (updPot s n fun p => { p with mxe := { p.mxe with ftqHeld := true } }) n .mxe)
    else .hold
  else if isChain (mxQO w) && decide (8 ≤ (chainOf q (mxQO w - 56)).length) then .fault s 3 (mxQO w)
  else if claimsMeet q.claims cl then .fault s 4 0xFF
  else
    let mismatch := residueBad && bitAt p.mxe.ctl 32
    let b := popAll s n (mxQBias w) nb
    let o := flushCompute (potOf b.1 n).mxe w b.2 mismatch
    let s1 := flushPut n w t o.1 (updPot b.1 n fun p => { p with mxe := o.2 })
    let s2 := if mismatch then
        markFailing (sendFault s1
          { status := 0, tag := q.tag, infusion := q.infusion, island := seqIsland n .mxe, block := 5, cause := 1, addr := 0,
            detail := 0, detail2 := 0 }) q.infusion
      else s1
    seqPlain n .mxe s2 fun q => seqOp q w 1 cl

/-- FLUSH: scale, bias and narrow a set's tile, and send it on (R217 to R221, R227). -/
def execFlush (n : PotIx) (residueBad : Bool) (s : State) : Result := seqIssue n .mxe (ownOp 3) (flushIssue n residueBad) s

/-- The oldest slot that is FILLING becomes READY. -/
def ftqReady : List FtqSlot → List FtqSlot
  | [] => []
  | f :: fs => if f.state = .filling then { f with state := .ready } :: fs else f :: ftqReady fs

/-- FTQ_SLOT_READY: 8 engine cycles after its last row is written (R224). -/
def execFtqSlotReady (n : PotIx) (s : State) : Result :=
  whenDo ((potOf s n).mxe.ftq.any fun f => f.state == .filling) s
    (updPot s n fun p => { p with mxe := { p.mxe with ftq := ftqReady p.mxe.ftq } })

end Sys2Proof.Machine
end

