-- ==== Sys2Proof/Machine/Vxe.lean ====
section
/-!
DEFINITION. The vector engine: recipes, masks and conversion, reductions, softmax, gating, summary words (R230 to R261).
-/

namespace Sys2Proof.Machine

/-! Words (R93). -/

def vxRecipe (w : ColWord) : Nat := fieldN w 36 8
def vxIn (w : ColWord) (k : Nat) : Nat := fieldN w (44 + 6 * k) 6
def vxOut (w : ColWord) (k : Nat) : Nat := fieldN w (68 + 6 * k) 6
def vxMask (w : ColWord) : Nat := fieldN w 80 6
def vxZero (w : ColWord) : Bool := bitAt w 86
def vxIfmt (w : ColWord) : Nat := fieldN w 87 4
def vxOfmt (w : ColWord) : Nat := fieldN w 91 4
def vxStoch (w : ColWord) : Bool := fieldN w 95 2 == 1
def vxSat (w : ColWord) : Bool := bitAt w 97
def vxRowLen (w : ColWord) : Nat := fieldN w 98 16
def vxSumDst (w : ColWord) : Nat := fieldN w 114 3
def vxKgate (w : ColWord) : Nat := fieldN w 117 4
def vxC0 (w : ColWord) : F32 := fieldB w 128 32
def vxC1 (w : ColWord) : F32 := fieldB w 160 32

/-- G of R231. -/
def vxG (w : ColWord) : Nat := if vxIfmt w == 0 || vxIfmt w == 13 then 128 else 256
def vxPaired (w : ColWord) : Bool := vxG w == 256
/-- Issues per row (R244). -/
def vxNq (w : ColWord) : Nat := if vxRowLen w = 0 then 1 else ceilDiv (vxRowLen w) (vxG w)
/-- Bytes of a granule in a format (R231). -/
def vxBytes (g fmt : Nat) : Nat := g / 32 * mxRowBytes fmt

/-! Recipes (R234, R237). -/

def opRop (o : BitVec 32) : Nat := fieldN o 0 6
def opDst (o : BitVec 32) : Nat := fieldN o 6 5
def opSrc (o : BitVec 32) (k : Nat) : Nat := fieldN o (11 + 5 * k) 5

/-- A function operation. -/
def ropFn (r : Nat) : Bool := inRange r 0x20 0x29
/-- Sources an operation reads; 0 for a reserved code. -/
def ropArity (r : Nat) : Nat :=
  if r = 0 ∨ r = 7 ∨ r = 8 ∨ r = 0x0E ∨ r = 0x0F then 1
  else if r = 4 ∨ r = 9 ∨ r = 0x10 then 3
  else if r ≤ 0x0D then 2
  else if r = 0x21 then 2
  else if ropFn r then 1
  else 0
/-- The sources of an operation. -/
def opSrcs (o : BitVec 32) : List Nat := (upto (ropArity (opRop o))).map (opSrc o)

def recipeNops (r : Recipe) : Nat := fieldN r.header 0 7
def recipeKind (r : Recipe) : Nat := fieldN r.header 8 4
def recipeGnorm (r : Recipe) : Bool := bitAt r.header 12
def recipeOps (r : Recipe) : List (BitVec 32) := r.ops.take (recipeNops r)

def opOk (o : BitVec 32) : Bool :=
  ropArity (opRop o) != 0 && decide (opDst o ≤ 17) && (upto 3).all (fun k => decide (opSrc o k ≤ 24)) && fieldN o 26 6 == 0

/-- The entry is filled and holds no reserved encoding (R238). -/
def recipeOk (r : Recipe) : Bool :=
  inRange (recipeNops r) 1 64 && !bitAt r.header 7 && fieldN r.header 13 19 == 0 && (recipeOps r).all opOk

def recipeReads (r : Recipe) (k : Nat) : Bool := (recipeOps r).any fun o => (opSrcs o).contains (16 + k)
def recipeWrites (r : Recipe) (k : Nat) : Bool := (recipeOps r).any fun o => opDst o == 16 + k

def f32Div (a b : F32) : F32 := roundF32 (fvDiv (fvOfF32 a) (fvOfF32 b))
def f32Exp (a : F32) : F32 := roundF32 (fvExp (fvOfF32 a))
def f32Log (a : F32) : F32 := roundF32 (fvLog (fvOfF32 a))
def f32OfBool (b : Bool) : F32 := if b then f32One else f32Zero
def f32Fn (f : FV → FV) (a : F32) : F32 := roundF32 (f (fvOfF32 a))

/-- SEL (R236). -/
def f32Sel (a b c : F32) : F32 :=
  if f32IsNan a then f32Nan
  else
    let x := if f32IsZero a then c else b
    if f32IsNan x then f32Nan else x

/-- One operation (R234 to R236). -/
def ropEval (r : Nat) (a b c : F32) : F32 :=
  match r with
  | 0x00 => if f32IsNan a then f32Nan else a
  | 0x01 => f32Add a b
  | 0x02 => f32Sub a b
  | 0x03 => f32Mul a b
  | 0x04 => f32Fma a b c
  | 0x05 => f32Min a b
  | 0x06 => f32Max a b
  | 0x07 => f32Abs a
  | 0x08 => f32Neg a
  | 0x09 => f32Sel a b c
  | 0x0A => f32OfBool (f32Eq a b)
  | 0x0B => f32OfBool (f32Lt a b)
  | 0x0C => f32OfBool (f32Lt a b || f32Eq a b)
  | 0x0D => f32OfBool (!f32Eq a b)
  | 0x0E => f32Fn fvFloor a
  | 0x0F => f32Fn fvRint a
  | 0x10 => f32Max b (f32Min a c)
  | 0x20 => f32Div f32One a
  | 0x21 => f32Div a b
  | 0x22 => f32Fn fvSqrt a
  | 0x23 => f32Fn fvRsqrt a
  | 0x24 => f32Exp a
  | 0x25 => f32Fn fvExp2 a
  | 0x26 => f32Log a
  | 0x27 => f32Fn fvLog2 a
  | 0x28 => f32Fn fvTanh a
  | _ => f32Fn fvSigmoid a

/-- What one element's evaluation reads beside its temporaries. -/
structure RecipeIn where
  ins : List F32
  c0 : F32
  c1 : F32
  idx : F32
  deriving DecidableEq, Repr

/-- A source's value: a temporary or output slot that nothing has written is +0.0 (R237). -/
def srcVal (i : RecipeIn) (t : SMap F32) (k : Nat) : F32 :=
  if k ≤ 15 then tget t k f32Zero
  else if k ≤ 19 then nth i.ins (k - 16) f32Zero
  else
    match k with
    | 20 => i.c0
    | 21 => i.c1
    | 22 => i.idx
    | 24 => f32One
    | _ => f32Zero

/-- The operations in order; keys 16 and 17 of the table are o0 and o1. -/
def recipeRun (i : RecipeIn) : List (BitVec 32) → SMap F32 → SMap F32
  | [], t => t
  | o :: os, t =>
    recipeRun i os
      (tset t (opDst o) (ropEval (opRop o) (srcVal i t (opSrc o 0)) (srcVal i t (opSrc o 1)) (srcVal i t (opSrc o 2))))

def recipeEval (r : Recipe) (i : RecipeIn) : F32 × F32 :=
  let t := recipeRun i (recipeOps r) []
  (tget t 16 f32Zero, tget t 17 f32Zero)

/-! Timing (R242, R254). -/

def ropCost (paired : Bool) (r : Nat) : Nat := if ropFn r && paired then 2 else 1
def ropLat (st : Stepping) (r : Nat) : Nat := if ropFn r then (if st = .a0 then 14 else 12) else 4

/-- S: the sum of all costs. -/
def recipeS (r : Recipe) (paired : Bool) : Nat := ((recipeOps r).map fun o => ropCost paired (opRop o)).sum

/-- The least value of at least `lo` that is congruent to `res` modulo `occ`. -/
def nextSlot (lo res occ : Nat) : Nat := lo + (res + occ - lo % occ) % occ

/-- The schedule as it is built: ready times of the temporaries, the least next firing time, the next residue, the latest
result of an output. -/
structure RecipeSched where
  ready : SMap Nat
  next : Nat
  res : Nat
  last : Nat
  deriving DecidableEq, Repr

def schedOp (st : Stepping) (paired : Bool) (occ : Nat) (a : RecipeSched) (o : BitVec 32) : RecipeSched :=
  let c := ropCost paired (opRop o)
  let at_ := (opSrcs o).foldl (fun m k => Nat.max m (if k ≤ 15 then tget a.ready k 4 else 4)) a.next
  let f := nextSlot at_ (a.res % occ) occ
  let done := f + c - 1 + ropLat st (opRop o)
  { ready := tset a.ready (opDst o) done, next := f + c, res := a.res + c,
    last := if 16 ≤ opDst o then Nat.max a.last done else a.last }

def recipeRlatAt (st : Stepping) (r : Recipe) (paired : Bool) (occ : Nat) : Nat :=
  ((recipeOps r).foldl (schedOp st paired occ) ⟨[], 0, 0, 0⟩).last + 4

/-- OCC: the least value of at least S with RLAT ≤ 16 × OCC. -/
def recipeOcc (st : Stepping) (r : Recipe) (paired : Bool) : Nat :=
  let s := recipeS r paired
  (((upto 1024).map (s + ·)).find? fun o => decide (recipeRlatAt st r paired o ≤ 16 * o)).getD s

def recipeRlat (st : Stepping) (r : Recipe) (paired : Bool) : Nat := recipeRlatAt st r paired (recipeOcc st r paired)

/-- VXE_RECIPE_INFO of a filled entry (R261). -/
def recipeInfo (st : Stepping) (r : Recipe) : Word64 :=
  if recipeNops r = 0 then 0
  else
    BitVec.ofNat 64 (recipeNops r % 128 + recipeS r false % 256 * 2 ^ 7 + recipeS r true % 256 * 2 ^ 15 +
      recipeOcc st r false % 1024 * 2 ^ 23 + recipeOcc st r true % 1024 * 2 ^ 33 + recipeRlat st r false % 1024 * 2 ^ 43 +
      recipeRlat st r true % 1024 * 2 ^ 53)

def vopRecipe : Nat := 0
def vopReduce : Nat := 1
def vopSoftmax : Nat := 2
def vopGate : Nat := 3

/-- X of R254: what the final issue of a row adds. -/
def vxTail (vop : Nat) (r : Recipe) (w : ColWord) : Nat :=
  let nr := ceilDiv (vxRowLen w) 128
  match vop with
  | 0 => 0
  | 1 => if recipeKind r = 7 then 2 * nr + 44 else if recipeKind r = 8 then 28 else 16
  | 2 => 4 * nr + 56
  | _ => if recipeGnorm r then 8 * vxKgate w + 4 * nr + 56 else 8 * vxKgate w + 2 * nr + 40

/-! Folds (R245 to R248). -/

/-- The elements of one lane, in ascending index, folded from the first. -/
def laneFold {α : Type} (op : α → α → α) : List α → Option α
  | [] => none
  | x :: xs => some (xs.foldl op x)

/-- EMPTY is a neutral value. -/
def optOp {α : Type} (op : α → α → α) : Option α → Option α → Option α
  | none, b => b
  | a, none => a
  | some a, some b => some (op a b)

/-- One shuffle step: neighbours combine, the left one first. -/
def shuffle {α : Type} (op : α → α → α) : List (Option α) → List (Option α)
  | a :: b :: l => optOp op a b :: shuffle op l
  | l => l

def shuffles {α : Type} (op : α → α → α) : Nat → List (Option α) → List (Option α)
  | 0, l => l
  | n + 1, l => shuffles op n (shuffle op l)

/-- The lane fold and the seven shuffle steps over values by element index (R246); none is EMPTY. -/
def vxFold {α : Type} (op : α → α → α) (l : List (Nat × α)) : Option α :=
  let lanes := (upto 128).map fun k => laneFold op ((l.filter fun x => x.1 % 128 == k).map Prod.snd)
  (nth (shuffles op 7 lanes) 0 none)

/-- A ranks above B or stands first at equality: the pair that ARGMAX (or ARGMIN) keeps (R245). -/
def argPick (big : Bool) (a b : F32 × Nat) : F32 × Nat :=
  let lower := if a.2 ≤ b.2 then a else b
  if f32IsNan a.1 && f32IsNan b.1 then lower
  else if f32IsNan a.1 then a
  else if f32IsNan b.1 then b
  else if f32Lt b.1 a.1 then (if big then a else b)
  else if f32Lt a.1 b.1 then (if big then b else a)
  else lower

/-- Values of o0 by element index. -/
abbrev RowVals := List (Nat × F32)

def rowSum (v : RowVals) : Option F32 := vxFold f32Add v
def rowMax (v : RowVals) : Option F32 := vxFold f32Max v
def rowArg (big : Bool) (v : RowVals) : Option (F32 × Nat) := vxFold (argPick big) (v.map fun x => (x.1, (x.2, x.1)))

/-- e_i = EXP (x_i − m) by element index. -/
def rowExp (m : F32) (v : RowVals) : RowVals := v.map fun x => (x.1, f32Exp (f32Sub x.2 m))

/-- LOGSUMEXP over the buffer (R248). -/
def rowLse (v : RowVals) : Option F32 :=
  match rowMax v with
  | none => none
  | some m =>
    if f32IsNan m || f32IsInf m then some m
    else some (f32Add m (f32Log ((rowSum (rowExp m v)).getD f32Zero)))

/-- A reduction's value and index; none is EMPTY. -/
def reduceRow (kind : Nat) (v : RowVals) : Option (F32 × Nat) :=
  let just := fun (x : Option F32) => x.map fun y => (y, 0)
  match kind with
  | 0 => just (rowSum v)
  | 1 => just (vxFold f32Mul v)
  | 2 => just (rowMax v)
  | 3 => just (vxFold f32Min v)
  | 4 => rowArg true v
  | 5 => rowArg false v
  | 6 => if v.isEmpty then none else some (f32OfNat (v.filter fun x => !f32IsZero x.2).length, 0)
  | 7 => just (rowLse v)
  | _ => just ((rowSum v).map fun x => f32Div x (f32OfNat v.length))

/-- The fixed value of an EMPTY row (R247), before conversion. -/
def reduceEmpty (kind : Nat) : F32 × Nat :=
  match kind with
  | 1 => (f32One, 0)
  | 2 => (f32Inf true, 0)
  | 3 => (f32Inf false, 0)
  | 4 => (f32Inf true, 0xFFFFFFFF)
  | 5 => (f32Inf false, 0xFFFFFFFF)
  | 7 => (f32Inf true, 0)
  | 8 => (f32Nan, 0)
  | _ => (f32Zero, 0)

/-! Softmax (R249, R250). -/

/-- The outputs by element index with VALUE, MAX and SUM, and whether the row was EMPTY. -/
structure SoftOut where
  outs : RowVals
  value : F32
  max : F32
  sum : F32
  empty : Bool
  deriving DecidableEq, Repr

def softmaxRow (v : RowVals) : SoftOut :=
  let infs := (v.filter fun x => f32Eq x.2 (f32Inf false)).length
  let all := fun (f : F32 → F32) => v.map fun x => (x.1, f x.2)
  if v.any fun x => f32IsNan x.2 then ⟨all fun _ => f32Nan, f32Nan, f32Nan, f32Nan, false⟩
  else if 0 < infs then
    ⟨all fun x => if f32Eq x (f32Inf false) then f32Div f32One (f32OfNat infs) else f32Zero, f32Inf false, f32Inf false,
      f32OfNat infs, false⟩
  else if v.all fun x => f32Eq x.2 (f32Inf true) then ⟨all fun _ => f32Zero, f32Inf true, f32Inf true, f32Zero, true⟩
  else
    let m := (rowMax v).getD (f32Inf true)
    let e := rowExp m v
    let s := (rowSum e).getD f32Zero
    ⟨e.map fun x => (x.1, f32Div x.2 s), f32Add m (f32Log s), m, s, false⟩

/-! Gating (R251, R252). -/

/-- Insert into a ranking: a larger value ranks higher, equal values by lower index. -/
def gateInsert (c : Nat × F32) : RowVals → RowVals
  | [] => [c]
  | d :: l => if f32Lt d.2 c.2 then c :: d :: l else d :: gateInsert c l

/-- The chosen experts in rank order. -/
def gateChoose (k : Nat) (v : RowVals) : RowVals :=
  ((v.filter fun x => !f32IsNan x.2).foldl (fun l c => gateInsert c l) []).take k

/-- Weights of the chosen experts in rank order. -/
def gateWeights (gnorm : Bool) (v chosen : RowVals) : List F32 :=
  let o := (softmaxRow (if gnorm then v else chosen)).outs
  chosen.map fun c => ((o.find? fun x => x.1 == c.1).map Prod.snd).getD f32Zero

/-- A dispatch entry. -/
def gateEntry (token : BitVec 32) (expert rank : Nat) (last valid : Bool) (wt : F32) : BitVec 128 :=
  BitVec.ofNat 128 (token.toNat + expert % 256 * 2 ^ 32 + rank % 8 * 2 ^ 40 + last.toNat * 2 ^ 43 + valid.toNat * 2 ^ 44 +
    wt.toNat * 2 ^ 64)

def gateEntries (token : BitVec 32) (chosen : RowVals) (ws : List F32) : List (BitVec 128) :=
  if chosen.isEmpty then [gateEntry token 0 0 true false f32Zero]
  else (chosen.zip ws).zipIdx.map fun x =>
    gateEntry token x.1.1.1 x.2 (x.2 + 1 == chosen.length) true x.1.2

/-! Input ends (R231 to R233, R239, R240). -/

/-- What popping an end comes to. -/
inductive VxGot where
  | hold
  | fault (cause queue : Nat)
  | ok (s : State) (data scales : List (List Byte × Bool))
  deriving DecidableEq, Repr

/-- Cut or complete a granule: bytes that a chain entry does not hold are free. -/
def fitFree (s : State) (len : Nat) (bs : List (List Byte × Bool)) : State × List (List Byte × Bool) :=
  let have_ := (bs.map fun x => x.1.length).sum
  if len ≤ have_ then (s, bs.take (ceilDiv len 32))
  else
    let f := takeFreeBytes (len - have_) s
    (f.2, bs ++ (chunks 32 len f.1).map fun x => (x, false))

/-- Pop `len` bytes from a chain queue. -/
def vxPopChain (s : State) (n : PotIx) (t q len : Nat) : VxGot :=
  match chainPop (potOf s n).vxeSeq (q - 56) t with
  | none => .fault 2 q
  | some x =>
    let r := fitFree (updPot s n fun p => { p with vxeSeq := x.2 }) len ((chunks 32 (x.1.bytes.length / 32 + 1) x.1.bytes).zip x.1.poison)
    .ok r.1 r.2 []

/-- Pop a granule of the oldest READY or DRAINING slot (R224, R232). -/
def vxPopFtq (s : State) (n : PotIx) (len scaleLen : Nat) : VxGot :=
  match (potOf s n).mxe.ftq with
  | [] => .hold
  | f :: fs =>
    if f.state = .filling then .hold
    else
      let at_ := f.consumed
      let sAt := if len = 0 then 0 else at_ / len * scaleLen
      let words := (chunks 32 (len / 32 + 1) ((f.data.drop at_).take len)).zipIdx.map fun x => (x.1, nth f.poison (at_ / 32 + x.2) false)
      let scs := if scaleLen = 0 then [] else [((f.scales.drop sAt).take scaleLen, nth f.scalePoison (sAt / 32) false)]
      let f1 : FtqSlot := { f with state := .draining, consumed := at_ + len }
      let rest := if f.data.length ≤ at_ + len then fs else f1 :: fs
      .ok (updPot s n fun p => { p with mxe := { p.mxe with ftq := rest } }) words scs

/-- Pop from a tray queue, with the scales from its companion. -/
def vxPopTray (s : State) (n : PotIx) (q len scaleLen : Nat) : VxGot :=
  let p := potOf s n
  if !popMay p .vxe q len || !popMay p .vxe (q + 1) scaleLen then .fault 1 q
  else if !popReady p q len || !popReady p (q + 1) scaleLen then .hold
  else
    let r := popAll s n q len
    let c := popAll r.1 n (q + 1) scaleLen
    .ok c.1 r.2 c.2

/-- Pop one input end. -/
def vxPop (s : State) (n : PotIx) (t q len scaleLen : Nat) : VxGot :=
  if q = 63 then .ok s [] []
  else if isChain q then vxPopChain s n t q len
  else if q = 48 then vxPopFtq s n len scaleLen
  else vxPopTray s n q len scaleLen

/-- The granules of one issue: inputs with their scales, and the mask. -/
structure VxIn where
  data : List (List (List Byte × Bool))
  scales : List (List (List Byte × Bool))
  mask : List (List Byte × Bool)
  deriving DecidableEq, Repr

inductive VxAll where
  | hold
  | fault (cause queue : Nat)
  | ok (s : State) (i : VxIn)
  deriving DecidableEq, Repr

/-- Pop the ends named, QIN0 first. -/
def vxPopEnds (n : PotIx) (t : Nat) : List (Nat × Nat × Nat) → State → List (List (List Byte × Bool) × List (List Byte × Bool)) →
    VxAll
  | [], s, acc => .ok s ⟨(acc.take 4).map Prod.fst, (acc.take 4).map Prod.snd, ((acc.drop 4).map Prod.fst).flatten⟩
  | e :: es, s, acc =>
    match vxPop s n t e.1 e.2.1 e.2.2 with
    | .hold => .hold
    | .fault c q => .fault c q
    | .ok s1 d sc => vxPopEnds n t es s1 (acc ++ [(d, sc)])

def vxNeeds (w : ColWord) : List (Nat × Nat × Nat) :=
  let f := vxIfmt w
  ((upto 4).map fun k => (vxIn w k, vxBytes (vxG w) f, if isMx f then vxG w / 32 else 0)) ++ [(vxMask w, vxG w / 8, 0)]

/-- Element `p` of an input granule: widened value, bits, poison (R240, R258). -/
def vxElem (fmt : Nat) (d sc : List (List Byte × Bool)) (p : Nat) : F32 × Nat × Bool :=
  let rb := mxRowBytes fmt
  let bits := elemBits fmt
  let blk := (pieceBytes d).drop (p / 32 * rb)
  let code := natOfBytes (blk.take rb) / 2 ^ (bits * (p % 32)) % 2 ^ bits
  let s := if isMx fmt then some (nth (pieceBytes sc) (p / 32) 0).toNat else none
  let v := if fmt = 0 then BitVec.ofNat 32 code else roundF32 (mxScaled s (decodeElem fmt code))
  (v, code, pieceBad d (p / 32 * rb + bits * (p % 32) / 8) || (isMx fmt && sc.any Prod.snd))

/-- Evaluate element `p` of an issue whose element 0 has index `base` (R237, R239, R258). -/
def vxEval (r : Recipe) (w : ColWord) (i : VxIn) (base p : Nat) : RowElem :=
  let xs := (upto 4).map fun k => vxElem (vxIfmt w) (nth i.data k []) (nth i.scales k []) p
  let named := fun (k : Nat) => vxIn w k != 63
  let val := fun (k : Nat) => if named k then (nth xs k (f32Zero, 0, false)).1 else f32Zero
  let raw := fun (k : Nat) => if named k then (nth xs k (f32Zero, 0, false)).2.1 else 0
  let mbad := i.mask.any Prod.snd
  let bad := fun (k : Nat) => named k && (nth xs k (f32Zero, 0, false)).2.2
  let active := vxMask w == 63 || (natOfBytes (pieceBytes i.mask)).testBit p
  let o := recipeEval r ⟨(upto 4).map val, vxC0 w, vxC1 w, f32OfNat ((base + p) % 2 ^ 24)⟩
  { pos := base + p, active := active, out0 := if active then o.1 else f32Zero, out1 := if active then o.2 else f32Zero,
    bad := active && (mbad || (upto 4).any fun k => recipeReads r k && bad k),
    keep0 := val 0, keep1 := val 1, raw0 := raw 0, raw1 := raw 1, keepBad0 := bad 0 || mbad, keepBad1 := bad 1 || mbad }

/-! Output (R239, R241, R258). -/

/-- An output element: fixed +0.0, bits that pass unchanged, or a value to convert, of an active element or of a masked one that is
kept, which counts toward no figure. -/
inductive OutEl where
  | zero
  | bits (code : Nat) (bad : Bool)
  | conv (v : F32) (bad : Bool)
  | kept (v : F32) (bad : Bool)
  deriving DecidableEq, Repr

def outElBad : OutEl → Bool
  | .zero => false
  | .bits _ b => b
  | .conv _ b => b
  | .kept _ b => b

/-- The element counts in the figures of NaN and overflow. -/
def outElCounts : OutEl → Bool
  | .conv _ _ => true
  | _ => false

/-- Output k of an element whose active value is `v`. -/
def vxOutEl (w : ColWord) (k : Nat) (e : RowElem) (v : F32) (bad : Bool) : OutEl :=
  if e.active then .conv v bad
  else if vxZero w then .zero
  else if vxIfmt w == vxOfmt w && !isMx (vxOfmt w) then .bits (if k = 0 then e.raw0 else e.raw1) (if k = 0 then e.keepBad0 else e.keepBad1)
  else .kept (if k = 0 then e.keep0 else e.keep1) (if k = 0 then e.keepBad0 else e.keepBad1)

/-- The draws of a list of elements with their lanes, in order (R241). -/
def vxDraws (stoch : Bool) : List (Nat × OutEl) → SMap (BitVec 32) → List (Option Nat) × SMap (BitVec 32)
  | [], m => ([], m)
  | x :: xs, m =>
    let converts := match x.2 with
      | .conv _ _ => true
      | .kept _ _ => true
      | _ => false
    if stoch && converts then
      let d := lfsrDraw (tget m x.1 1)
      let t := vxDraws stoch xs (tset m x.1 d.1)
      (some d.2 :: t.1, t.2)
    else
      let t := vxDraws stoch xs m
      (none :: t.1, t.2)

/-- One element that is not in an MX block: its code and events. -/
def outElCode (fmt : Nat) (sat : Bool) (x : OutEl) (d : Option Nat) : Nat × NumEv :=
  match x with
  | .zero => (0, .zero)
  | .bits c _ => (c, .zero)
  | .conv v _ =>
    let c := convertElem fmt (fvOfF32 v) d sat
    (c.1, ⟨(f32IsNan v).toNat, c.2.ovfs⟩)
  | .kept v _ => ((convertElem fmt (fvOfF32 v) d sat).1, .zero)

def outElVal : OutEl → FV
  | .conv v _ => fvOfF32 v
  | .kept v _ => fvOfF32 v
  | _ => fvZero

/-- Events of narrowing one MX block: those of its active elements (R219, R239). -/
def mxBlockEv (fmt : Nat) (sat : Bool) (b : List (OutEl × Option Nat)) : NumEv :=
  let vals := b.map fun x => outElVal x.1
  let wild := fun (v : FV) => fvIsNan v || fvIsInf v
  if vals.any wild then ⟨(b.any fun x => outElCounts x.1 && wild (outElVal x.1)).toNat, 0⟩
  else
    match maxExp vals with
    | none => .zero
    | some x =>
      let e := clampExp (x - mxEmax fmt)
      sumEv ((b.filter fun y => outElCounts y.1).map fun y => (convertElem fmt (fvScale (outElVal y.1) (-e)) y.2 sat).2)

/-- A converted granule: data and scale bytes with the poison of their 32 B words, and events. -/
structure Granule where
  data : List (List Byte × Bool)
  scales : List (List Byte × Bool)
  ev : NumEv
  deriving DecidableEq, Repr

/-- Narrow a granule of G elements with their draws (R219, R241, R258). -/
def vxGranule (w : ColWord) (els : List (OutEl × Option Nat)) : Granule :=
  let fmt := vxOfmt w
  let per := 1024 / mxRowBytes fmt
  let words := (chunks per (els.length + 1) els).map fun l => l.any fun x => outElBad x.1
  let blocks := chunks 32 (els.length + 1) els
  if isMx fmt then
    let bl := blocks.map fun b => mxBlock fmt (vxSat w) (b.map fun x => outElVal x.1) (b.map Prod.snd)
    { data := (chunks 32 (els.length + 1) ((bl.map fun b => mxPack fmt b.2.1).flatten)).zip words,
      scales := [(bl.map fun b => BitVec.ofNat 8 b.1, words.any id)], ev := sumEv (blocks.map (mxBlockEv fmt (vxSat w))) }
  else
    let cs := blocks.map fun b => b.map fun x => outElCode fmt (vxSat w) x.1 x.2
    { data := (chunks 32 (els.length * 4 + 1) ((cs.map fun b => mxPack fmt (b.map Prod.fst)).flatten)).zip words, scales := [],
      ev := sumEv (cs.flatten.map Prod.snd) }

/-- Granules of output k from lists of G elements. -/
def addGr (a b : Granule) : Granule := ⟨a.data ++ b.data, a.scales ++ b.scales, addEv a.ev b.ev⟩

/-- Bytes an output granule takes, with its scales. -/
def vxOutNeed (w : ColWord) (q granules : Nat) : List (Nat × Nat) :=
  let f := vxOfmt w
  if isTray q then [(q, granules * vxBytes (vxG w) f)] ++ (if isMx f then [(q + 1, granules * (vxG w / 32))] else [])
  else []

def vxRoom (p : Pot) (l : List (Nat × Nat)) : Bool := l.all fun x => decide (needOn l x.1 ≤ qWritable (queueOf p x.1))

/-- Put an issue's output at its end: a chain entry per granule, or bytes to the tray queue and its companion. -/
def vxPut (n : PotIx) (w : ColWord) (q at_ : Nat) (g : Granule) (s : State) : State :=
  if q = 63 then s
  else if isChain q then
    updPot s n fun p => { p with vxeSeq :=
      { p.vxeSeq with chains := tset p.vxeSeq.chains (q - 56) (chainOf p.vxeSeq (q - 56) ++
        [⟨BitVec.ofNat 4 (vxOfmt w), pieceBytes g.data, g.data.map Prod.snd, at_⟩]) } }
  else qPushAll n (q + 1) g.scales (qPushAll n q g.data s)

/-! Word checks (R68, R233, R234, R238, R239, R244, R245, R251, R259). -/

/-- An input end: FTQ only with an MXE; chains not for MX; MX needs a companion. -/
def vxInEnd (mxe : Bool) (w : ColWord) (q : Nat) : Bool :=
  q == 63 || (isTray q && (!isMx (vxIfmt w) || decide (q ≤ 46))) || (q == 48 && mxe) || (isChain q && !isMx (vxIfmt w))
def vxOutEnd (w : ColWord) (q : Nat) : Bool :=
  q == 63 || (isTray q && (!isMx (vxOfmt w) || decide (q ≤ 46))) || (isChain q && !isMx (vxOfmt w))

/-- Fields of any VXE OP word. -/
def vxFieldsOk (mxe : Bool) (w : ColWord) : Bool :=
  fieldN w 121 7 == 0 && fieldN w 192 64 == 0 && decide (vxIfmt w ≤ 13) && decide (vxOfmt w ≤ 13) && decide (fieldN w 95 2 ≤ 1) &&
    (!vxStoch w || stochasticFmt (vxOfmt w)) && decide (vxSumDst w ≤ 4) && (upto 4).all (fun k => vxInEnd mxe w (vxIn w k)) &&
    (vxMask w == 63 || isTray (vxMask w) || isChain (vxMask w)) && vxOutEnd w (vxOut w 0)

/-- The word writes o_k to an end. -/
def vxWrites (vop : Nat) (w : ColWord) (r : Recipe) (k : Nat) : Bool :=
  (vop == vopRecipe && (vxOut w k != 63 || recipeWrites r k)) || (vop == vopSoftmax && k == 0)

/-- Fields by VOP. -/
def vxVopOk (vop : Nat) (w : ColWord) : Bool :=
  let perElem := vop == vopRecipe || vop == vopSoftmax
  (perElem && vxMask w != 63 || !vxZero w) && (vop == vopGate || vxKgate w == 0) && (vop == vopRecipe) == (vxRowLen w == 0) &&
    match vop with
    | 0 => vxOutEnd w (vxOut w 1)
    | 1 => vxOut w 1 == 63 || isTray (vxOut w 1) || isChain (vxOut w 1)
    | 2 => vxOut w 1 == 63
    | _ => vxOut w 1 == 49 && inRange (vxKgate w) 1 8 && decide (vxRowLen w ≤ 256)

/-- The recipe suits the word, as each issue checks (R238, R239, R245). -/
def vxRecipeOk (vop : Nat) (w : ColWord) (r : Recipe) : Bool :=
  let kept := (vop == vopRecipe || vop == vopSoftmax) && vxMask w != 63 && !vxZero w
  recipeOk r && (upto 4).all (fun k => !recipeReads r k || vxIn w k != 63) &&
    (vop == vopGate || !recipeWrites r 1 || vxOut w 1 != 63) &&
    (vop != vopReduce || (decide (recipeKind r ≤ 8) && (recipeKind r == 4 || recipeKind r == 5 || vxOut w 1 == 63))) &&
    (!kept || (upto 2).all fun k => !vxWrites vop w r k || vxIn w k != 63)

/-- Every tray end is open to the VXE. -/
def vxPushMay (p : Pot) (l : List (Nat × Nat)) : Bool := l.all fun x => mayPush p 1 x.1

/-! Summary words (R255, R256). -/

/-- The values of o0 over active elements. -/
def activeVals (l : List RowElem) : RowVals := (l.filter (·.active)).map fun e => (e.pos, e.out0)

/-- What a VOP gives its summary word beside the figures of every word. -/
structure SumFig where
  value : F32
  sum : F32
  max : F32
  index : Nat
  empty : Bool
  ovf : Bool
  short : Bool
  row : Nat
  deriving DecidableEq, Repr

def summaryWord (q : Seqr) (els : List RowElem) (f : SumFig) : Summary :=
  let v := activeVals els
  let nans := (v.filter fun x => f32IsNan x.2).length
  let bad := els.any fun e => e.active && e.bad
  let flags := f.empty.toNat + (decide (0 < nans)).toNat * 2 + f.ovf.toNat * 4 + bad.toNat * 8 +
    (v.any fun x => f32IsInf x.2).toNat * 16 + f.short.toNat * 32
  ⟨BitVec.ofNat 256 (f.value.toNat + v.length % 2 ^ 32 * 2 ^ 32 + f.sum.toNat * 2 ^ 64 + f.max.toNat * 2 ^ 96 +
    f.index % 2 ^ 32 * 2 ^ 128 + nans % 2 ^ 32 * 2 ^ 160 + flags * 2 ^ 192 + q.tag.toNat * 2 ^ 208 + q.infusion.toNat * 2 ^ 224 +
    f.row % 2 ^ 16 * 2 ^ 240), bad⟩

/-- The figures of o0: sum, max and argmax, with the empty values of R247. -/
def plainFig (v : RowVals) (row : Nat) (ovf : Bool) : SumFig :=
  let s := (rowSum v).getD f32Zero
  ⟨s, s, (rowMax v).getD (f32Inf true), ((rowArg true v).map Prod.snd).getD 0xFFFFFFFF, v.isEmpty, ovf, false, row⟩

/-- The queue of a destination: 16 words for a sequencer, 64 for the brewers. -/
def sumQueue (p : Pot) (dst : Nat) : List Summary :=
  match dst with
  | 1 => p.vxeSeq.summary
  | 2 => p.mxeSeq.summary
  | 3 => p.sfeSeq.summary
  | _ => p.vxe.brewerQ

/-- There is room for a summary word, those on their way counted. -/
def sumRoom (p : Pot) (dst : Nat) : Bool :=
  dst == 0 || decide ((sumQueue p dst).length + (p.vxe.summaryOut.filter fun x => x.dst.toNat == dst).length < if dst = 4 then 64 else 16)

def emitSummary (n : PotIx) (w : ColWord) (x : Summary) (s : State) : State :=
  if vxSumDst w = 0 then s
  else updPot s n fun p => { p with vxe := { p.vxe with summaryOut := p.vxe.summaryOut ++ [⟨BitVec.ofNat 3 (vxSumDst w), x⟩] } }

/-! Issues. -/

/-- What one issue starts from. -/
structure VxCtx where
  n : PotIx
  w : ColWord
  r : Recipe
  t : Nat
  occ : Nat
  rlat : Nat

/-- Draw, narrow and push lists of output elements: output 0 and, where the word has one, output 1 of the same elements. -/
def vxEmit (c : VxCtx) (at_ : Nat) (o0 o1 : List OutEl) (s : State) : State × NumEv :=
  let one := vxOut c.w 1 != 63 && !o1.isEmpty
  let order := if one then ((o0.zip o1).zipIdx.map fun x => [(x.2 % 128, x.1.1), (x.2 % 128, x.1.2)]).flatten
    else o0.zipIdx.map fun x => (x.2 % 128, x.1)
  let d := vxDraws (vxStoch c.w) order (potOf s c.n).vxe.lfsr
  let pairs := (order.map Prod.snd).zip d.1
  let pick := fun (k : Nat) => (pairs.zipIdx.filter fun x => !one || x.2 % 2 == k).map Prod.fst
  let s1 := updPot s c.n fun p => { p with vxe := { p.vxe with lfsr := d.2 } }
  let g0 := vxGranule c.w (pick 0)
  let s2 := if vxOut c.w 0 = 63 then s1 else vxPut c.n c.w (vxOut c.w 0) at_ g0 s1
  if one then
    let g1 := vxGranule c.w (pick 1)
    (vxPut c.n c.w (vxOut c.w 1) at_ g1 s2, addEv (if vxOut c.w 0 = 63 then .zero else g0.ev) g1.ev)
  else (s2, if vxOut c.w 0 = 63 then .zero else g0.ev)

def vxNumeric (n : PotIx) (ev : NumEv) (s : State) : State :=
  updPot s n fun p => { p with vxe := { p.vxe with numeric := putNumEv p.vxe.numeric ev } }

/-- The effect of an issue of RECIPE on its elements (R243, R255). -/
def recipeEffect (c : VxCtx) (els : List RowElem) (s : State) : State :=
  let q := (potOf s c.n).vxeSeq
  let at_ := c.t + c.rlat
  let r := vxEmit c at_ (els.map fun e => vxOutEl c.w 0 e e.out0 e.bad)
    (if vxOut c.w 1 = 63 then [] else els.map fun e => vxOutEl c.w 1 e e.out1 e.bad) s
  let v := (potOf r.1 c.n).vxe
  let all := (if q.issued = 0 then [] else v.wordElems) ++ els
  let ovf := (q.issued != 0 && v.wordOvf) || decide (0 < r.2.ovfs)
  let s1 := vxNumeric c.n r.2 (updPot r.1 c.n fun p => { p with vxe := { p.vxe with wordElems := all, wordOvf := ovf } })
  if q.issued + 1 = wRepeat c.w then emitSummary c.n c.w (summaryWord q all (plainFig (activeVals all) 0 ovf)) s1 else s1

/-- A 32 B word whose low bytes hold a value. -/
def resultWord (bits code : Nat) : List Byte := fitBytes 32 (bytesOfNat (ceilDiv bits 8) code)

/-- Convert one result with the register of a lane; an MX element's code is a free value. -/
def vxResult (n : PotIx) (w : ColWord) (lane : Nat) (v : F32) (s : State) : Nat × NumEv × State :=
  if isMx (vxOfmt w) then
    let f := takeFree s
    (fieldN f.1 0 (elemBits (vxOfmt w)), .zero, f.2)
  else
    let d := vxDraws (vxStoch w) [(lane, .conv v false)] (potOf s n).vxe.lfsr
    let c := outElCode (vxOfmt w) (vxSat w) (.conv v false) (nth d.1 0 none)
    (c.1, c.2, updPot s n fun p => { p with vxe := { p.vxe with lfsr := d.2 } })

/-- A list of results in order, rank r with lane r. -/
def vxResults (n : PotIx) (w : ColWord) : (lane : Nat) → List F32 → State → List Nat × NumEv × State
  | _, [], s => ([], .zero, s)
  | k, v :: vs, s =>
    let r := vxResult n w k v s
    let t := vxResults n w (k + 1) vs r.2.2
    (r.1 :: t.1, addEv r.2.1 t.2.1, t.2.2)

/-- The end of a row of REDUCE (R245, R247, R248). -/
def reduceEnd (c : VxCtx) (els : List RowElem) (row : Nat) (s : State) : State :=
  let q := (potOf s c.n).vxeSeq
  let kind := recipeKind c.r
  let v := activeVals els
  let x := (reduceRow kind v).getD (reduceEmpty kind)
  let bad := els.any fun e => e.active && e.bad
  let at_ := c.t + c.rlat + vxTail vopReduce c.r c.w
  let r := vxResult c.n c.w 0 x.1 s
  let g : Granule := ⟨[(resultWord (elemBits (vxOfmt c.w)) r.1, bad)], [], .zero⟩
  let s1 := if vxOut c.w 0 = 63 then r.2.2 else vxPut c.n c.w (vxOut c.w 0) at_ g r.2.2
  let s2 := if vxOut c.w 1 = 63 then s1 else vxPut c.n c.w (vxOut c.w 1) at_ ⟨[(resultWord 32 x.2, bad)], [], .zero⟩ s1
  let f := plainFig v row (decide (0 < r.2.1.ovfs))
  let ix := if kind = 5 then ((rowArg false v).map Prod.snd).getD 0xFFFFFFFF else f.index
  emitSummary c.n c.w (summaryWord q els { f with value := x.1, index := ix }) (vxNumeric c.n r.2.1 s2)

/-- Pad a row to whole granules: positions beyond ROWLEN are +0.0 (R244). -/
def padRow (n : Nat) (l : List OutEl) : List OutEl := l ++ List.replicate (n - l.length) .zero

/-- Emit the granules of a row one after the other. -/
def softEmit (c : VxCtx) (at_ : Nat) : List (List OutEl) → State → State × NumEv
  | [], s => (s, .zero)
  | g :: gs, s =>
    let r := vxEmit c at_ g [] s
    let t := softEmit c at_ gs r.1
    (t.1, addEv r.2 t.2)

/-- The end of a row of SOFTMAX (R249, R250, R258). -/
def softmaxEnd (c : VxCtx) (els : List RowElem) (row : Nat) (s : State) : State :=
  let q := (potOf s c.n).vxeSeq
  let v := activeVals els
  let o := softmaxRow v
  let bad := els.any fun e => e.active && e.bad
  let at_ := c.t + c.rlat + vxTail vopSoftmax c.r c.w
  let outs := els.map fun e => vxOutEl c.w 0 e (((o.outs.find? fun x => x.1 == e.pos).map Prod.snd).getD f32Zero) bad
  let r := softEmit c at_ (chunks (vxG c.w) (vxNq c.w + 1) (padRow (vxNq c.w * vxG c.w) outs)) s
  let ix := if o.empty then 0xFFFFFFFF else ((rowArg true v).map Prod.snd).getD 0xFFFFFFFF
  emitSummary c.n c.w (summaryWord q els ⟨o.value, o.sum, o.max, ix, o.empty, decide (0 < r.2.ovfs), false, row⟩) (vxNumeric c.n r.2 r.1)

/-- The end of a token of GATE (R251, R252, R258). -/
def gateEnd (c : VxCtx) (els : List RowElem) (row : Nat) (s : State) : State :=
  let q := (potOf s c.n).vxeSeq
  let v := activeVals els
  let ch := gateChoose (vxKgate c.w) v
  let ws := gateWeights (recipeGnorm c.r) v ch
  let bad := els.any fun e => e.active && e.bad
  let at_ := c.t + c.rlat + vxTail vopGate c.r c.w
  let token := (potOf s c.n).vxe.token
  let s1 := updPot s c.n fun p => { p with vxe := { p.vxe with
    token := token + 1, dispatchQ := p.vxe.dispatchQ ++ (gateEntries token ch ws).map fun e => (e, bad) } }
  let f := plainFig v row false
  let fig := fun (ovf : Bool) => { f with value := nth ws 0 f32Zero, ovf := ovf, short := decide (ch.length < vxKgate c.w) }
  if vxOut c.w 0 = 63 then emitSummary c.n c.w (summaryWord q els (fig false)) s1
  else
    let r := vxResults c.n c.w 0 ws s1
    let bytes := packElems (elemBits (vxOfmt c.w)) (r.1 ++ List.replicate (8 - r.1.length) 0)
    let s2 := vxPut c.n c.w (vxOut c.w 0) at_ ⟨[(bytes, bad)], [], .zero⟩ r.2.2
    emitSummary c.n c.w (summaryWord q els (fig (decide (0 < r.2.1.ovfs)))) (vxNumeric c.n r.2.1 s2)

/-- Bytes of the results that the final issue of a row pushes. -/
def vxRowNeed (vop : Nat) (w : ColWord) : List (Nat × Nat) :=
  match vop with
  | 1 => (if isTray (vxOut w 0) then [(vxOut w 0, 32)] else []) ++ (if isTray (vxOut w 1) then [(vxOut w 1, 32)] else [])
  | 2 => vxOutNeed w (vxOut w 0) (vxNq w)
  | _ => if isTray (vxOut w 0) then [(vxOut w 0, elemBits (vxOfmt w))] else []

/-- A chain output would exceed 8 entries with those that the issue puts on it, of all its output ends. -/
def chainOver (q : Seqr) (l : List (Nat × Nat)) (e : Nat) : Bool :=
  isChain e && decide (8 < (chainOf q (e - 56)).length + needOn l e)

/-- Chain entries that an issue puts on its output ends. -/
def vxChainPuts (vop : Nat) (w : ColWord) : List (Nat × Nat) :=
  let k := if vop = vopSoftmax then vxNq w else 1
  (vxOut w 0, k) :: (if vop = vopGate then [] else [(vxOut w 1, k)])

/-- The ends an issue writes: needs on tray queues, and entries on chains. -/
def vxIssueNeed (vop : Nat) (w : ColWord) (final : Bool) : List (Nat × Nat) :=
  if vop = vopRecipe then vxOutNeed w (vxOut w 0) 1 ++ vxOutNeed w (vxOut w 1) 1 else if final then vxRowNeed vop w else []

/-- One issue of a VXE OP word (R69, R231, R238, R244, R253, R256). -/
def vxIssue (n : PotIx) (vop : Nat) (w : ColWord) (s : State) : SeqIssue :=
  -- DESIGN CHOICE: STRUCT stands for the MXE's resources alone, the only ones the manual names (R98, R215; log entry 102)
  let p := potOf s n
  let q := p.vxeSeq
  let r := recipeOf p.vxe (vxRecipe w)
  let st := s.fuses.stepping
  let nq := vxNq w
  let k := q.issued % nq
  let final := vop != vopRecipe && k + 1 == nq
  let ends := vxIssueNeed vop w final
  let done := if vop = vopRecipe then q.issued + 1 == wRepeat w else final
  let puts := vxChainPuts vop w
  let out := vop == vopRecipe || final
  if !vxFieldsOk (mxePresent s n) w || !vxVopOk vop w || wRepeat w % nq != 0 then .fault s 1 0xFF
  else if wRepeat w = 0 then seqPlain n .vxe s fun q => seqSkip q w
  else if !vxRecipeOk vop w r || regBad s (entryKey (potWin n) 0x12 (vxRecipe w)) then .fault s 1 0xFF
  else if !vxPushMay p ends then .fault s 1 (vxOut w 0)
  else
    let t := issueAt q w
    match vxPopEnds n t (vxNeeds w) s [] with
    | .hold => .hold
    | .fault c e => .fault s c e
    | .ok s1 i =>
      if !vxRoom p ends || (done && !sumRoom p (vxSumDst w)) ||
          (vop == vopGate && final && decide (4096 < p.vxe.dispatchQ.length + vxKgate w)) then .hold
      else
      let full := puts.find? fun x => out && chainOver (potOf s1 n).vxeSeq puts x.1
      if full.isSome then .fault s 3 ((full.map Prod.fst).getD 0)
      else
        let occ := recipeOcc st r (vxPaired w)
        let c : VxCtx := ⟨n, w, r, t, occ, recipeRlatAt st r (vxPaired w) occ⟩
        let g := vxG w
        let cut := if vop = vopRecipe then g else Nat.min g (vxRowLen w - k * g)
        let base := if vop = vopRecipe then q.issued * g else k * g
        let els := (upto cut).map (vxEval r w i base)
        let slots := recipeS r (vxPaired w)
        let s2 := updPot s1 n fun p => pmcAdd { p with vxe := { p.vxe with events := satField p.vxe.events 0 40 slots } } 7 slots
        if vop = vopRecipe then
          seqPlain n .vxe (recipeEffect c els s2) fun q => seqOp q w occ []
        else
          let row := (if k = 0 then [] else (potOf s2 n).vxe.rowBuf) ++ els
          let s3 := updPot s2 n fun p => { p with vxe := { p.vxe with
            rowBuf := if final then [] else row, rowKept := vop != vopReduce || decide (7 ≤ recipeKind r), events := satField p.vxe.events 40 24 final.toNat } }
          let s4 :=
            if !final then s3
            else if vop = vopReduce then reduceEnd c row (q.issued / nq) s3
            else if vop = vopSoftmax then softmaxEnd c row (q.issued / nq) s3
            else gateEnd c row (q.issued / nq) s3
          seqPlain n .vxe s4 fun q => seqOp q w (occ + 1 + (if final then vxTail vop r w else 0)) []

/-- RECIPE: a granule per issue (R243). -/
def execRecipe (n : PotIx) (s : State) : Result := seqIssue n .vxe (ownOp 0) (vxIssue n 0) s
/-- REDUCE: a result per row (R245). -/
def execReduce (n : PotIx) (s : State) : Result := seqIssue n .vxe (ownOp 1) (vxIssue n 1) s
/-- SOFTMAX (R249). -/
def execSoftmax (n : PotIx) (s : State) : Result := seqIssue n .vxe (ownOp 2) (vxIssue n 2) s
/-- GATE: the best experts of a token (R251, R252). -/
def execGate (n : PotIx) (s : State) : Result := seqIssue n .vxe (ownOp 3) (vxIssue n 3) s

/-- A summary word arrives in its queue. -/
def sumArrive (p : Pot) (x : SummaryOut) : Pot :=
  match x.dst.toNat with
  | 1 => { p with vxeSeq := { p.vxeSeq with summary := p.vxeSeq.summary ++ [x.word] } }
  | 2 => { p with mxeSeq := { p.mxeSeq with summary := p.mxeSeq.summary ++ [x.word] } }
  | 3 => { p with sfeSeq := { p.sfeSeq with summary := p.sfeSeq.summary ++ [x.word] } }
  | _ => { p with vxe := { p.vxe with brewerQ := p.vxe.brewerQ ++ [x.word] } }

/-- SUMMARY_WORD_PUSH: the oldest summary word on its way reaches its destination (R89, R256). -/
def execSummaryWordPush (n : PotIx) (s : State) : Result :=
  match (potOf s n).vxe.summaryOut with
  | [] => .next s
  | x :: xs => whenDo (potOn s n) s (updPot s n fun p => sumArrive { p with vxe := { p.vxe with summaryOut := xs } } x)

/-- VXE_SUMQ_POP: a read of bytes 24 to 31 of VXE_SUMQ returns them and pops the head; an empty queue reads zeros and sets
EMPTY_READ (R257, R480). -/
def execVxeSumqPop (who : Requester) (n : PotIx) (s : State) : Result :=
  let key := potReg n 0x4100
  let shows := fun (t : State) (v : Word64) => { t with out := { t.out with reg := some (who, v) } }
  if !reaches who (.pot n) then .next (shows (countRegErr s (.pot n) 32) 0)
  else if !potOn s n then .next (shows s 0)
  else
    match (potOf s n).vxe.brewerQ with
    | [] => .next (shows (updPot s n fun p => { p with vxe := { p.vxe with emptyRead := true } }) 0)
    | x :: xs =>
      let v := (latched s who key).getD x.word.toNat
      let s1 := updPot (fillLatch s who key v) n fun p => { p with vxe := { p.vxe with brewerQ := xs } }
      .next (shows s1 (BitVec.ofNat 64 (v / 2 ^ 192)))

/-- RECIPE_WRITE: a commit of a recipe store entry ends its parity fault; while the VXE runs a command it waits for the program
boundary (R234, R487, R494). -/
def execRecipeWrite (who : Requester) (n : PotIx) (entry : BitVec 8) (words : List (BitVec 32)) (s : State) : Result :=
  let r : Recipe := ⟨nth words 0 0, (words.drop 1).take 64⟩
  if !reaches who (.pot n) then .next (countRegErr s (.pot n) 32)
  else if !potPresent s n then .next s
  else if !potOn s n then .next (countRegErr s (.pot n) 16)
  else
    .next (updPot (parityEnds s (entryKey (potWin n) 0x12 entry.toNat)) n fun p =>
      if p.vxeSeq.running then { p with vxe := { p.vxe with recipePend := tset p.vxe.recipePend entry.toNat r } }
      else { p with vxe := { p.vxe with recipes := tset p.vxe.recipes entry.toNat r } })

end Sys2Proof.Machine
end

