-- ==== Sys2Proof/Machine/Sfe.lean ====
section
/-!
DEFINITION. The sift engine: table descriptors, gathers, coalescing, scatters, bag sums at the leaf units, expert dispatch and
combination (R262 to R286).
-/

namespace Sys2Proof.Machine

/-! Words (R94). -/

def sfIdx (w : ColWord) : Nat := fieldN w 36 6
def sfOff (w : ColWord) : Nat := fieldN w 42 6
def sfWt (w : ColWord) : Nat := fieldN w 48 6
def sfDst (w : ColWord) : Nat := fieldN w 54 6
def sfTbl (w : ColWord) : Nat := fieldN w 60 4
def sfFmt (w : ColWord) : Nat := fieldN w 64 4
def sfCoalesce (w : ColWord) : Bool := bitAt w 68
def sfAccum (w : ColWord) : Bool := bitAt w 69
def sfCap (w : ColWord) : Nat := fieldN w 70 16
def sfNexp (w : ColWord) : Nat := fieldN w 96 8

/-! Table descriptors (R265 to R267). -/

abbrev SfDesc := BitVec 256

def sdBase (d : SfDesc) : BitVec 48 := fieldB d 0 48
def sdModule (d : SfDesc) : Bool := bitAt d 48
def sdFault (d : SfDesc) : Bool := bitAt d 49
def sdKind (d : SfDesc) : Nat := fieldN d 50 2
def sdShards (d : SfDesc) : Nat := fieldN d 52 3
def sdRows (d : SfDesc) : Nat := fieldN d 64 32
def sdStride (d : SfDesc) : Nat := fieldN d 96 32
def sdRowW (d : SfDesc) : Nat := fieldN d 128 7
def sdEntry (d : SfDesc) : Nat := fieldN d 135 9
def sdScratchN (d : SfDesc) : Nat := fieldN d 144 8
def sdScratch (d : SfDesc) : Nat := fieldN d 152 21 * 64

def sfDescOf (p : Pot) (k : Nat) : SfDesc := tget p.sfe.descs k 0

/-- The entry's stored parity is right (R493). -/
def sfDescSound (s : State) (n : PotIx) (k : Nat) : Bool := !regBad s (entryKey (potWin n) 0x14 k)

/-- No row crosses a 2 KiB boundary (R267). -/
def sdNoCross (d : SfDesc) : Bool :=
  let b := (sdBase d).toNat
  let len := 32 * sdRowW d
  let st := sdStride d
  (st % 2048 == 0 && decide (b % 2048 + len ≤ 2048)) || (st != 0 && 2048 % st == 0 && decide (len ≤ st) && b % st == 0)

/-- A row table whose encodings are defined and which keeps the alignment and crossing rules. -/
def rowTableOk (d : SfDesc) : Bool :=
  sdKind d == 0 && decide (sdShards d ≤ 5) && (sdModule d || sdShards d == 0) && inRange (sdRowW d) 1 64 &&
    (sdBase d).toNat % 32 == 0 && sdStride d % 32 == 0 && sdNoCross d

/-- A route area: in the tray of this module (R281). -/
def routeOk (d : SfDesc) : Bool :=
  sdKind d == 1 && !sdModule d && sdShards d == 0 && (sdBase d).toNat % 32 == 0 && sdStride d % 32 == 0 && fieldN (sdBase d) 32 16 == 0

/-- The address of row `i` (R266). -/
def rowAddr (d : SfDesc) (i : Nat) : BitVec 48 :=
  sdBase d + BitVec.ofNat 48 (i % 2 ^ sdShards d * 2 ^ 36 + i / 2 ^ sdShards d * sdStride d)

/-- What an index comes to (R264, R268). -/
inductive IxKind where
  | none
  | outside
  | row
  deriving DecidableEq, Repr

def ixKind (d : SfDesc) (i : Nat) : IxKind := if i = 2 ^ 32 - 1 then .none else if sdRows d ≤ i then .outside else .row

/-- Where a row lies (R283, R368). -/
def sfAt (s : State) (d : SfDesc) (i : Nat) : BurstAt :=
  let a := rowAddr d i
  if sdModule d then (if fieldN a 41 7 ≠ 0 then .bad else .module_ a.toNat)
  else if bitAt a 47 then
    let nd : BitVec 16 := (fieldB a 32 12).setWidth 16
    if fieldN a 44 3 ≠ 0 then .bad else if ownNode s nd then .tray (fieldN a 0 32) else .remote nd (a.setWidth 64)
  else if fieldN a 32 16 ≠ 0 then .bad
  else .tray (fieldN a 0 32)

def atBad : BurstAt → Bool
  | .bad => true
  | _ => false

/-- The row's scheduler admits requests. -/
def atServed (s : State) (n : PotIx) : BurstAt → Bool
  | .module_ a => addrServed s n (BitVec.ofNat 41 a)
  | _ => true

def atRemote : BurstAt → Bool
  | .remote _ _ => true
  | _ => false

def sfWho (q : Seqr) : Who := ⟨.tensor, .sfe, q.tag, q.infusion⟩

/-! Ends (R263, R269). -/

/-- Pop bytes with the poison of the word that holds each. -/
def sfPop (s : State) (n : PotIx) (qi len : Nat) : State × List Byte × List Bool :=
  if len = 0 then (s, [], [])
  else
    let ps := qPeekPoison s n (queueOf (potOf s n) qi) len
    let r := qPop s n qi len
    (r.1, r.2.1, ps)

/-- 32-bit values of a popped stream, each with poison. -/
def sfVals (bs : List Byte) (ps : List Bool) : List (Nat × Bool) :=
  ((chunks 4 (bs.length / 4 + 1) bs).zip (chunks 4 (bs.length / 4 + 1) ps)).map fun x => (natOfBytes x.1, x.2.any id)

/-- 32 B words of a popped row, each with poison. -/
def sfWords (bs : List Byte) (ps : List Bool) : List (List Byte × Bool) :=
  ((chunks 32 (bs.length / 32 + 1) bs).zip (chunks 32 (bs.length / 32 + 1) ps)).map fun x => (x.1, x.2.any id)

def sfPopMay (p : Pot) (l : List (Nat × Nat)) : Bool := l.all fun x => mayPop p 2 x.1
def sfPopReady (p : Pot) (l : List (Nat × Nat)) : Bool := l.all fun x => decide (needOn l x.1 ≤ qReadable (queueOf p x.1))

/-- Output bytes reserved on a queue by issues whose rows have not been pushed (R271). -/
def sfReserved (f : Sfe) (q : Nat) : Nat := ((f.tickets.filter fun t => t.queue.toNat == q).map SfeTicket.room).sum
def sfRoom (p : Pot) (q len : Nat) : Bool := decide (sfReserved p.sfe q + len ≤ qWritable (queueOf p q))

/-- Column words outstanding: those of rows read and not yet returned (R262, R286). -/
def sfOutstanding (f : Sfe) : Nat :=
  (f.tickets.map fun t => ((t.rows.filter SfeRow.fetched).map fun r => r.poison.length).sum).sum
/-- A row may be asked for under MAX_OUT (R262, R270). -/
def sfMayRead (f : Sfe) (words : Nat) : Bool := decide (sfOutstanding f + words ≤ fieldN f.ctl 0 14)

/-- The word's fields that every FOP shares: reserved bits, the FMT codes, and null values where the FOP does not use a field. -/
def sfFieldsOk (w : ColWord) (fop : Nat) : Bool :=
  let fmt := sfFmt w
  let sum := decide (fmt ≤ 4)
  fieldN w 86 10 == 0 && fieldN w 104 152 == 0 && (fop == 4 || decide (fmt ≤ 13)) && nullIf (fop != 4) (sfCap w) 0 &&
    nullIf (fop != 4 && fop != 5) (sfNexp w) 0 && (fop == 2 || !sfAccum w) && (decide (fop < 4) || !sfCoalesce w) && isTray (sfDst w) &&
    (match fop with
     | 0 => isTray (sfIdx w) && isTray (sfOff w) && (isTray (sfWt w) || sfWt w == 63) && sum
     | 1 => isTray (sfIdx w) && sfOff w == 63 && sfWt w == 63
     | 2 => isTray (sfIdx w) && sfOff w == 63 && (sfWt w == 63 || (isTray (sfWt w) && sfAccum w)) && (!sfAccum w || sum)
     | 3 => isTray (sfIdx w) && isTray (sfOff w) && (isTray (sfWt w) || sfWt w == 63) && inRange fmt 1 4
     | 4 => sfIdx w == 49 && sfOff w == 63 && sfWt w == 63 && sfCap w != 0
     | _ => sfIdx w == 63 && sfOff w == 63 && sfWt w == 63 && decide (sfTbl w < 15) && sum)

/-! Rows. -/

/-- A row of zeros. -/
def zeroRow (words : Nat) : SfeRow := ⟨List.replicate (32 * words) 0, List.replicate words false, none, false, none, false⟩

def rowOfPieces (ps : List (List Byte × Bool)) : SfeRow := ⟨(ps.map Prod.fst).flatten, ps.map Prod.snd, none, true, none, false⟩

/-- Read row `i`, or ask another module for it under `key` (R272, R283, R368). -/
def sfRead (s : State) (n : PotIx) (d : SfDesc) (i key : Nat) : State × SfeRow :=
  let q := (potOf s n).sfeSeq
  let k := sdRowW d
  match sfAt s d i with
  | .module_ a => let r := readPieces n (sfWho q) k s a; (r.1, rowOfPieces r.2)
  | .tray a => let r := trayPieces k s a; (r.1, rowOfPieces r.2)
  | .remote nd a => (sendRead s n nd a q.tag q.infusion (32 * k) (.row key), { zeroRow k with wait := some key, fetched := true })
  | .bad => (s, zeroRow k)

/-- One index of a gather: served from the window, read, or zeros; with what it counts (R268, R274). -/
structure SfGot where
  s : State
  row : SfeRow
  kind : IxKind
  hit : Bool
  deriving DecidableEq, Repr

/-- The window holds a position with this index (R274). -/
def sfHit (f : Sfe) (w : ColWord) (i : Nat) : Option WinPos :=
  if sfCoalesce w then f.window.find? fun x => x.index.toNat == i else none

/-- The index needs a fetch (R269). -/
def sfFetches (f : Sfe) (w : ColWord) (d : SfDesc) (i : Nat) : Bool := ixKind d i == .row && (sfHit f w i).isNone

def sfGather (s : State) (n : PotIx) (w : ColWord) (d : SfDesc) (i key : Nat) : SfGot :=
  let kind := ixKind d i
  if kind ≠ .row then ⟨s, zeroRow (sdRowW d), kind, false⟩
  else
    match sfHit (potOf s n).sfe w i with
    | some x => ⟨s, { x.row with fetched := false }, kind, true⟩
    | none => let r := sfRead s n d i key; ⟨r.1, r.2, kind, false⟩

/-- The position enters the window, which keeps the last 255 before the next one (R274). -/
def sfRemember (n : PotIx) (w : ColWord) (i : Nat) (r : SfeRow) (s : State) : State :=
  if sfCoalesce w then
    updPot s n fun p => { p with sfe := { p.sfe with window := (⟨BitVec.ofNat 32 i, r⟩ :: p.sfe.window).take 255 } }
  else s

/-- The word's first issue clears the window and the offset (R264, R274). -/
def sfBegin (n : PotIx) (s : State) : State :=
  if (potOf s n).sfeSeq.issued = 0 then updPot s n fun p => { p with sfe := { p.sfe with window := [], prevOff := 0 } } else s

/-- Counters of the walker (R286). -/
def sfCount (n : PotIx) (indices hits outside foreign : Nat) (s : State) : State :=
  updPot s n fun p => pmcAdd { p with sfe := { p.sfe with
    traffic := satField (satField p.sfe.traffic 0 40 indices) 40 24 hits
    events := satField (satField p.sfe.events 0 24 outside) 24 24 foreign } } 8 indices

/-- Append a ticket. -/
def sfTicket (n : PotIx) (q : Nat) (fold : Option (BitVec 4)) (rows : List SfeRow) (room : Nat) (bag returned : Bool)
    (out : List (List Byte × Bool)) (s : State) : State :=
  updPot s n fun p => { p with sfe := { p.sfe with
    tickets := p.sfe.tickets ++ [⟨p.sfe.nextTicket, BitVec.ofNat 6 q, fold, rows, room, bag, returned, out⟩]
    nextTicket := p.sfe.nextTicket + 1 } }

/-- Push the leading rows that have returned, in issue order (R271). -/
def sfPush (n : PotIx) : List SfeTicket → State → State
  | [], s => updPot s n fun p => { p with sfe := { p.sfe with tickets := [] } }
  | t :: ts, s =>
    if t.returned then sfPush n ts (qPushAll n t.queue.toNat t.out s)
    else updPot s n fun p => { p with sfe := { p.sfe with tickets := t :: ts } }

def sfDrain (n : PotIx) (s : State) : State := sfPush n (potOf s n).sfe.tickets s

/-! Sums (R273). -/

/-- Elements of a row with their poison: a word's poison covers its elements, a weight's all of them (R284). -/
def rowElems (fmt : Nat) (r : SfeRow) : List (F32 × Bool) :=
  let per := 256 / elemBits fmt
  ((unpackElems (elemBits fmt) (r.bytes.length * 8 / elemBits fmt) r.bytes).zipIdx).map fun x =>
    let v := if fmt = 0 then BitVec.ofNat 32 x.1 else roundF32 (decodeElem fmt x.1)
    (match r.weight with | some w => f32Mul w v | none => v, r.weightBad || nth r.poison (x.2 / per) false)

/-- One step of the left fold. -/
def foldRow (acc : Option (List (F32 × Bool))) (r : List (F32 × Bool)) : Option (List (F32 × Bool)) :=
  match acc with
  | none => some r
  | some a => some ((a.zip r).map fun x => (f32Add x.1.1 x.2.1, x.1.2 || x.2.2))

/-- FP32 elements as 32 B words, padded with +0.0. -/
def f32Words (l : List (F32 × Bool)) : List (List Byte × Bool) :=
  (chunks 8 (l.length + 1) l).map fun c => (fitBytes 32 ((c.map fun x => bytesOfNat 4 x.1.toNat).flatten), c.any Prod.snd)

/-- The sum of a bag's rows: `e` elements, and how many are NaN. -/
def bagSum (fmt e : Nat) (rows : List SfeRow) : List (List Byte × Bool) × Nat :=
  let acc := (rows.map (rowElems fmt)).foldl foldRow none
  let l := acc.getD (List.replicate e (f32Zero, false))
  (f32Words l, (l.filter fun x => f32IsNan x.1).length)

/-- E: elements in a row (R269). -/
def sfE (w : ColWord) (d : SfDesc) : Nat := 256 * sdRowW d / elemBits (sfFmt w)

/-- The reads of an issue have returned; rows at the front are pushed (R271). -/
def returnTicket (n : PotIx) (t : SfeTicket) (s : State) : State :=
  let o : List (List Byte × Bool) × Nat :=
    match t.fold with
    | some f => bagSum f.toNat (t.room / 4) t.rows
    | none => ((t.rows.map fun r => (chunks 32 (r.bytes.length / 32 + 1) r.bytes).zip r.poison).flatten, 0)
  sfDrain n (updPot s n fun p => { p with sfe := { p.sfe with
    numeric := putNumEv p.sfe.numeric ⟨o.2, 0⟩
    tickets := p.sfe.tickets.map fun x => if x.id = t.id then { x with returned := true, out := o.1, rows := [] } else x } })

/-- Rows whose data is there leave the reads outstanding. -/
def rowsBack (n : PotIx) (tk : Nat) (s : State) : State :=
  updPot s n fun p => { p with sfe := { p.sfe with tickets := p.sfe.tickets.map fun x =>
    if x.id = tk then { x with rows := x.rows.map fun r => if r.wait.isNone then { r with fetched := false } else r } else x } }

/-- SFE_ROW_RETURN: reads of an issue return; when they all have, and the walker has made them all, its row goes out (R270, R271). -/
def execSfeRowReturn (n : PotIx) (ticket : Nat) (s : State) : Result :=
  let f := (potOf s n).sfe
  match f.tickets.find? fun t => t.id == ticket with
  | none => .next s
  | some t =>
    whenDo (potOn s n && !t.bag && !t.returned) s
      (if (t.rows.all fun r => r.wait.isNone) && !(f.walk.any fun x => x.ticket == ticket) then returnTicket n t s
       else rowsBack n ticket s)

/-! GATHER_COO (R272). -/

def cooIssue (n : PotIx) (w : ColWord) (s : State) : SeqIssue :=
  let p := potOf s n
  let d := sfDescOf p (sfTbl w)
  let room := 32 * sdRowW d
  if !sfFieldsOk w 1 || !rowTableOk d || !sfDescSound s n (sfTbl w) || !sfPopMay p [(sfIdx w, 4)] || !mayPush p 2 (sfDst w) then .fault s 1 (sfIdx w)
  else if wRepeat w = 0 then seqPlain n .sfe s fun q => seqSkip q w
  else if !sfPopReady p [(sfIdx w, 4)] || !sfRoom p (sfDst w) room then .hold
  else
    let x := sfPop (sfBegin n s) n (sfIdx w) 4
    let i := natOfBytes x.2.1
    let at_ := sfAt s d i
    if x.2.2.any id then .fault s 5 (sfIdx w)
    else if (ixKind d i == .outside && sdFault d) || (ixKind d i == .row && atBad at_) then .fault s 1 (sfIdx w)
    else if sfFetches (potOf x.1 n).sfe w d i && !(atServed s n at_ && sfMayRead p.sfe (sdRowW d)) then .hold
    else
      let g := sfGather x.1 n w d i (p.sfe.nextTicket * 4096)
      let s1 := sfRemember n w i g.row g.s
      let s2 := sfCount n 1 g.hit.toNat (g.kind == .outside).toNat 0 s1
      seqPlain n .sfe (sfTicket n (sfDst w) none [g.row] room false false [] s2) fun q => seqOp q w (ceilDiv (sdRowW d) 8) []

/-- GATHER_COO: the bytes of the named row, unchanged. -/
def execGatherCoo (n : PotIx) (s : State) : Result := seqIssue n .sfe (ownOp 1) (cooIssue n) s

/-! GATHER_CSR (R264, R273). -/

/-- A bag's streams. -/
structure SfBag where
  s : State
  ix : List (Nat × Bool)
  wt : List (Nat × Bool)
  off : BitVec 32
  deriving DecidableEq, Repr

/-- The bag at the heads of the streams: a fault, a wait, or its indices and weights popped. -/
inductive SfBagGot where
  | hold
  | fault (cause queue : Nat)
  | ok (b : SfBag)
  deriving DecidableEq, Repr

def sfBagPop (n : PotIx) (w : ColWord) (d : SfDesc) (s : State) : SfBagGot :=
  let p := potOf s n
  let prev : BitVec 32 := if p.sfeSeq.issued = 0 then 0 else p.sfe.prevOff
  if !sfPopReady p [(sfOff w, 4)] then .hold
  else
    let o := sfPop (sfBegin n s) n (sfOff w) 4
    let off : BitVec 32 := BitVec.ofNat 32 (natOfBytes o.2.1)
    let k := (off - prev).toNat
    let wl := if sfWt w = 63 then 0 else 4 * k
    if o.2.2.any id then .fault 5 (sfOff w)
    else if 4096 < k then .fault 1 (sfOff w)
    else if !sfPopReady p ([(sfOff w, 4), (sfIdx w, 4 * k)] ++ (if sfWt w = 63 then [] else [(sfWt w, wl)])) then .hold
    else
      let x := sfPop o.1 n (sfIdx w) (4 * k)
      let y := sfPop x.1 n (sfWt w) wl
      let ix := sfVals x.2.1 x.2.2
      if x.2.2.any id then .fault 5 (sfIdx w)
      else if ix.any fun v => (ixKind d v.1 == .outside && sdFault d) || (ixKind d v.1 == .row && atBad (sfAt s d v.1)) then .fault 1 (sfIdx w)
      else .ok ⟨updPot y.1 n fun p => { p with sfe := { p.sfe with prevOff := off } }, ix, sfVals y.2.1 y.2.2, off⟩

/-- Weights of a bag's indices. -/
def sfWeight (w : ColWord) (wt : List (Nat × Bool)) (k : Nat) : Option F32 × Bool :=
  if sfWt w = 63 then (none, false) else let v := nth wt k (0, false); (some (BitVec.ofNat 32 v.1), v.2)

/-- A row joins its ticket. -/
def addRow (n : PotIx) (tk : Nat) (r : SfeRow) (s : State) : State :=
  updPot s n fun p => { p with sfe := { p.sfe with
    tickets := p.sfe.tickets.map fun t => if t.id = tk then { t with rows := t.rows ++ [r] } else t } }

/-- One index of a bag: its row, weighted, joins the ticket when it contributes. -/
def csrStep (n : PotIx) (w : ColWord) (d : SfDesc) (k : SfeWalk) (x : Nat × Nat) (s : State) : State :=
  let g := sfGather s n w d x.1 (k.ticket * 4096 + x.2)
  let wv := sfWeight w k.weights x.2
  let s1 := sfCount n 0 g.hit.toNat (g.kind == .outside).toNat 0 (sfRemember n w x.1 g.row g.s)
  if g.kind = .row then addRow n k.ticket { g.row with weight := wv.1, weightBad := wv.2 } s1 else s1

/-- The walker goes on until MAX_OUT or a row whose scheduler admits nothing stops it (R270). -/
def csrGo (n : PotIx) (w : ColWord) (d : SfDesc) (k : SfeWalk) : List (Nat × Nat) → Nat → State → State × List (Nat × Nat) × Nat
  | [], f, s => (s, [], f)
  | x :: xs, f, s =>
    let fetch := sfFetches (potOf s n).sfe w d x.1
    if fetch && !(sfMayRead (potOf s n).sfe (sdRowW d) && atServed s n (sfAt s d x.1)) then (s, x :: xs, f)
    else csrGo n w d k xs (f + fetch.toNat) (csrStep n w d k x s)

def setWalk (s : State) (n : PotIx) (k : Option SfeWalk) : State :=
  updPot s n fun p => { p with sfe := { p.sfe with walk := k } }

/-- The issue of a bag walks on, and is over when every index has been taken. -/
def csrWalk (n : PotIx) (w : ColWord) (d : SfDesc) (k : SfeWalk) (s : State) : SeqIssue :=
  let r := csrGo n w d k k.todo k.fetches s
  if r.2.1.isEmpty then
    let occ := Nat.max 1 (Nat.max (ceilDiv k.count 16) (ceilDiv (r.2.2 * sdRowW d) 8))
    seqPlain n .sfe (setWalk r.1 n none) fun q => seqOp q w occ []
  else .go (setWalk r.1 n (some { k with todo := r.2.1, fetches := r.2.2 }))

def csrIssue (n : PotIx) (w : ColWord) (s : State) : SeqIssue :=
  let p := potOf s n
  let d := sfDescOf p (sfTbl w)
  let room := 32 * ceilDiv (4 * sfE w d) 32
  let ends := [(sfIdx w, 0), (sfOff w, 0)] ++ (if sfWt w = 63 then [] else [(sfWt w, 0)])
  match p.sfe.walk with
  | some k => csrWalk n w d k s
  | none =>
    if !sfFieldsOk w 0 || !rowTableOk d || !sfDescSound s n (sfTbl w) || !sfPopMay p ends || !mayPush p 2 (sfDst w) then .fault s 1 (sfIdx w)
    else if wRepeat w = 0 then seqPlain n .sfe s fun q => seqSkip q w
    else
      match sfBagPop n w d s with
      | .hold => .hold
      | .fault c q => .fault s c q
      | .ok b =>
        if !sfRoom p (sfDst w) room then .hold
        else
          let tk := p.sfe.nextTicket
          let s1 := sfTicket n (sfDst w) (some (BitVec.ofNat 4 (sfFmt w))) [] room false false [] (sfCount n b.ix.length 0 0 0 b.s)
          csrWalk n w d ⟨tk, (b.ix.map Prod.fst).zipIdx, b.wt, 0, [], b.ix.length⟩ s1

/-- GATHER_CSR: the weighted FP32 sum of a bag of rows. -/
def execGatherCsr (n : PotIx) (s : State) : Result := seqIssue n .sfe (ownOp 0) (csrIssue n) s

/-! Scatters (R275). -/

/-- One element of an accumulating update: d ← round (d + round (w × x)) with its events. -/
def accElem (fmt : Nat) (wt d x : F32) : Nat × NumEv :=
  let pe := fvMul (fvOfF32 wt) (fvOfF32 x)
  let p := roundF32 pe
  let ye := fvAdd (fvOfF32 d) (fvOfF32 p)
  let y := roundF32 ye
  let c := convertElem fmt (fvOfF32 y) none false
  (c.1, addEv (addEv (newNan [fvOfF32 wt, fvOfF32 x] pe) (newNan [fvOfF32 d, fvOfF32 p] ye))
    ⟨c.2.nans, (roundEv pe).ovfs + (roundEv ye).ovfs + c.2.ovfs⟩)

/-- One 32 B word of an accumulating update, with poison (R284). -/
def accWord (fmt : Nat) (wt : F32) (wbad : Bool) (old new : List Byte × Bool) : (List Byte × Bool) × NumEv :=
  let k := 256 / elemBits fmt
  let vals := fun (bs : List Byte) => (unpackElems (elemBits fmt) k bs).map fun c =>
    if fmt = 0 then BitVec.ofNat 32 c else roundF32 (decodeElem fmt c)
  let r := ((vals old.1).zip (vals new.1)).map fun x => accElem fmt wt x.1 x.2
  ((packElems (elemBits fmt) (r.map Prod.fst), old.2 || new.2 || wbad), sumEv (r.map Prod.snd))

/-- Update a row in place (R275, R276). -/
def accRow (n : PotIx) (fmt : Nat) (wt : F32) (wbad : Bool) (d : SfDesc) (i : Nat) (row : List (List Byte × Bool)) (s : State) : State :=
  let q := (potOf s n).sfeSeq
  let go := fun (r : State × List (List Byte × Bool)) (put : State → List (List Byte × Bool) → State) =>
    let o := (r.2.zip row).map fun x => accWord fmt wt wbad x.1 x.2
    updPot (put r.1 (o.map Prod.fst)) n fun p => { p with sfe := { p.sfe with numeric := putNumEv p.sfe.numeric (sumEv (o.map Prod.snd)) } }
  match sfAt s d i with
  | .module_ a => go (readPieces n (sfWho q) (sdRowW d) s a) fun t ps => writePieces n (sfWho q) t a ps
  | .tray a => go (trayPieces (sdRowW d) s a) fun t ps => writeTrayPieces t a ps
  | _ => s

/-- Overwrite a row. -/
def putRow (n : PotIx) (d : SfDesc) (i : Nat) (row : List (List Byte × Bool)) (s : State) : State :=
  let q := (potOf s n).sfeSeq
  match sfAt s d i with
  | .module_ a => writePieces n (sfWho q) s a row
  | .tray a => writeTrayPieces s a row
  | .remote nd a => sendWrite (streamOpen s n nd).1 n nd a q.tag q.infusion (row.map Prod.fst).flatten (row.map Prod.snd)
  | .bad => s

/-- A write to another module may be stamped now (R310). -/
def atOpen (s : State) (n : PotIx) : BurstAt → Bool
  | .remote nd _ => (streamOpen s n nd).2
  | _ => true

/-- The words that an accumulating update reads. -/
def accRead (n : PotIx) (d : SfDesc) (i : Nat) (s : State) : State × List (List Byte × Bool) :=
  match sfAt s d i with
  | .module_ a => readPieces n (sfWho (potOf s n).sfeSeq) (sdRowW d) s a
  | .tray a => trayPieces (sdRowW d) s a
  | _ => (s, [])

/-- A write to another module is awaited by its command (R271). -/
def noteWrite (n : PotIx) (at_ : BurstAt) (s : State) : State :=
  match at_ with
  | .remote nd _ => updPot s n fun p => { p with sfe := { p.sfe with writes := p.sfe.writes ++ [(nd, (streamEnt p nd).last)] } }
  | _ => s

/-- Rows that nothing later in the word's window can change are written, in position order (R274). -/
def scatWrite (n : PotIx) (d : SfDesc) (out : List ScatRow) (s : State) : State :=
  runAll (fun t x => noteWrite n (sfAt t d x.index.toNat) (putRow n d x.index.toNat x.words t)) out s

/-- The rows of a scatter: those still to be written with this position's row, accumulated where the word asks for it. -/
def scatJoin (n : PotIx) (w : ColWord) (wt : F32) (wbad : Bool) (d : SfDesc) (i : Nat) (row : List (List Byte × Bool)) (s : State) :
    State × List ScatRow :=
  let f := (potOf s n).sfe
  let ix : BitVec 32 := BitVec.ofNat 32 i
  let rest := f.scatter.filter fun x => x.index != ix
  if sfAccum w then
    let old := match f.scatter.find? fun x => x.index == ix with
      | some x => (s, x.words)
      | none => accRead n d i s
    let o := (old.2.zip row).map fun x => accWord (sfFmt w) wt wbad x.1 x.2
    (updPot old.1 n fun p => { p with sfe := { p.sfe with numeric := putNumEv p.sfe.numeric (sumEv (o.map Prod.snd)) } },
      rest ++ [⟨ix, o.map Prod.fst⟩])
  else (s, rest ++ [⟨ix, row⟩])

def scatterIssue (n : PotIx) (w : ColWord) (s : State) : SeqIssue :=
  let p := potOf s n
  let d := sfDescOf p (sfTbl w)
  let len := 32 * sdRowW d
  let ends := [(sfIdx w, 4), (sfDst w, len)] ++ (if sfWt w = 63 then [] else [(sfWt w, 4)])
  if !sfFieldsOk w 2 || !rowTableOk d || !sfDescSound s n (sfTbl w) || !sfPopMay p ends then .fault s 1 (sfIdx w)
  else if wRepeat w = 0 then seqPlain n .sfe s fun q => seqSkip q w
  else if !sfPopReady p ends then .hold
  else
    let x := sfPop (sfBegin n s) n (sfIdx w) 4
    let r := sfPop x.1 n (sfDst w) len
    let y := sfPop r.1 n (sfWt w) (if sfWt w = 63 then 0 else 4)
    let i := natOfBytes x.2.1
    let kind := ixKind d i
    let at_ := sfAt s d i
    if x.2.2.any id then .fault (scatWrite n d p.sfe.scatter s) 5 (sfIdx w)
    else if (kind == .outside && sdFault d) || (kind == .row && (atBad at_ || (sfAccum w && atRemote at_))) then
      .fault (scatWrite n d p.sfe.scatter s) 1 (sfIdx w)
    else
      let wt : F32 := if sfWt w = 63 then f32One else BitVec.ofNat 32 (natOfBytes y.2.1)
      let hit := kind == .row && (sfHit (potOf x.1 n).sfe w i).isSome
      let s1 := sfRemember n w i (zeroRow 0) (sfCount n 1 hit.toNat (kind == .outside).toNat 0 y.1)
      let j := if kind = .row then scatJoin n w wt (y.2.2.any id) d i (sfWords r.2.1 r.2.2) s1 else (s1, (potOf s1 n).sfe.scatter)
      let last := p.sfeSeq.issued + 1 == wRepeat w
      let go := fun (z : ScatRow) => last || !((potOf s1 n).sfe.window.any fun v => v.index == z.index)
      let out := j.2.filter go
      let served := fun (k : Nat) => atServed s n (sfAt s d k) && atOpen s n (sfAt s d k)
      if !(out.all fun z => served z.index.toNat) || (kind == .row && sfAccum w && !hit && !served i) then .hold
      else
        let s2 := updPot j.1 n fun p => { p with sfe := { p.sfe with scatter := j.2.filter fun z => !go z } }
        seqPlain n .sfe (scatWrite n d out s2) fun q => seqOp q w (ceilDiv (sdRowW d) (if sfAccum w then 4 else 8)) []

/-- SCATTER. -/
def execScatter (n : PotIx) (s : State) : Result := seqIssue n .sfe (ownOp 2) (scatterIssue n) s

/-! BAGSUM_LU (R277 to R279). -/

/-- The entries of a bag, and how many are foreign. -/
def bagEnts (n : PotIx) (w : ColWord) (d : SfDesc) (b : SfBag) : List BagEnt × Nat :=
  let rows := (b.ix.zipIdx).filter fun x => ixKind d x.1.1 == .row
  let own := rows.filter fun x => fieldN (rowAddr d x.1.1) 36 5 == n.toNat
  (own.map fun x =>
    let v := sfWeight w b.wt x.2
    ⟨rowAddr d x.1.1, v.1.getD f32One, v.2⟩, rows.length - own.length)

/-- Leaf commands: by ascending home group, at most 56 entries each. -/
def bagCuts (l : List BagEnt) : List (Nat × List BagEnt) :=
  ((upto 64).map fun g => ((chunks 56 (l.length + 1) (l.filter fun e => fieldN e.addr 30 6 == g)).map fun c => (g, c))).flatten

/-- An index entry of R169. -/
def bagWord (e : BagEnt) : BitVec 64 :=
  BitVec.ofNat 64 (fieldN e.addr 11 15 + fieldN e.addr 5 6 * 2 ^ 15 + fieldN e.addr 26 4 * 2 ^ 21 + 2 ^ 31 + e.weight.toNat * 2 ^ 32)

/-- Slot bytes 0 to 447 as words: four entries in each, poisoned by a poisoned weight (R278, R284). -/
def bagSlot (es : List BagEnt) : List (List Byte × Bool) :=
  (upto 14).map fun k =>
    let c := (es.drop (4 * k)).take 4
    (fitBytes 32 ((c.map fun e => bytesOfNat 8 (bagWord e).toNat).flatten), c.any BagEnt.bad)

/-- The leaf command for a slot. -/
def bagLeaf (q : Seqr) (n : PotIx) (d : SfDesc) (g slot entries : Nat) : BitVec 256 :=
  let path := 3 + n.toNat * 2 ^ 12 + g / 4 * 2 ^ 22 + g % 4 * 2 ^ 32
  BitVec.ofNat 256 (q.tag.toNat + q.infusion.toNat * 2 ^ 16 + path * 2 ^ 32 + sdEntry d * 2 ^ 96 + 32767 * 2 ^ 120 +
    slot * 1024 * 2 ^ 136 + ceilDiv entries 8 * 2 ^ 163 + (slot * 16 + 7) * 2 ^ 184 + 2 ^ 205)

/-- Free scratch slots of a descriptor, as 1 KiB blocks of the tray. -/
def freeSlots (f : Sfe) (d : SfDesc) : List Nat :=
  ((upto (sdScratchN d)).map (sdScratch d / 1024 + ·)).filter fun k => !f.scratchBusy.contains k

/-- A leaf command of a bag: its index entries in a free slot, and the push. -/
def bagPush (n : PotIx) (d : SfDesc) (tk slot : Nat) (x : Nat × List BagEnt) (s : State) : State :=
  let q := (potOf s n).sfeSeq
  let s1 := trayWriteWords s (trayGlobal n (slot * 1024)) (bagSlot x.2)
  updPot (pushLeaf s1 n ⟨bagLeaf q n d x.1 slot x.2.length, .sfe tk, []⟩) n fun p => { p with sfe := { p.sfe with
    bags := p.sfe.bags.map fun b => if b.ticket = tk then { b with slots := b.slots ++ [slot], left := b.left + 1 } else b
    scratchBusy := p.sfe.scratchBusy ++ [slot] } }

/-- The walker pushes leaf commands while there is a free slot and room in the LU command queue (R64, R270). -/
def bagGo (n : PotIx) (d : SfDesc) (tk : Nat) : List (Nat × List BagEnt) → State → State × List (Nat × List BagEnt)
  | [], s => (s, [])
  | x :: xs, s =>
    match freeSlots (potOf s n).sfe d with
    | [] => (s, x :: xs)
    | slot :: _ =>
      if lucDepth (potOf s n) < 128 && (potOf s n).leafWait.isEmpty then bagGo n d tk xs (bagPush n d tk slot x s) else (s, x :: xs)

def bagWalk (n : PotIx) (w : ColWord) (d : SfDesc) (k : SfeWalk) (s : State) : SeqIssue :=
  let r := bagGo n d k.ticket k.cuts s
  if r.2.isEmpty then seqPlain n .sfe (setWalk r.1 n none) fun q => seqOp q w (Nat.max 1 (Nat.max (ceilDiv k.count 16) k.fetches)) []
  else .go (setWalk r.1 n (some { k with cuts := r.2 }))

def bagsumIssue (n : PotIx) (w : ColWord) (s : State) : SeqIssue :=
  let p := potOf s n
  let d := sfDescOf p (sfTbl w)
  let ends := [(sfIdx w, 0), (sfOff w, 0)] ++ (if sfWt w = 63 then [] else [(sfWt w, 0)])
  let suits := sdModule d && decide (sfE w d ≤ 128) && inRange (sdScratchN d) 1 128 && sdScratch d % 1024 == 0
  match p.sfe.walk with
  | some k => bagWalk n w d k s
  | none =>
    if !sfFieldsOk w 3 || !rowTableOk d || !suits || !sfDescSound s n (sfTbl w) || !sfPopMay p ends || !mayPush p 2 (sfDst w) then
      .fault s 1 (sfIdx w)
    else if wRepeat w = 0 then seqPlain n .sfe s fun q => seqSkip q w
    else
      match sfBagPop n w d s with
      | .hold => .hold
      | .fault c q => .fault s c q
      | .ok b =>
        if !sfRoom p (sfDst w) 512 then .hold
        else
          let es := bagEnts n w d b
          let cuts := bagCuts es.1
          let tk := p.sfe.nextTicket
          let outside := (b.ix.filter fun x => ixKind d x.1 == .outside).length
          let s1 := sfCount n b.ix.length 0 outside es.2 b.s
          let k : SfeWalk := ⟨tk, [], [], cuts.length, cuts, b.ix.length⟩
          if cuts.isEmpty then
            bagWalk n w d k (sfDrain n (sfTicket n (sfDst w) none [] 512 true true (f32Words (List.replicate 128 (f32Zero, false))) s1))
          else
            bagWalk n w d k (updPot (sfTicket n (sfDst w) none [] 512 true false [] s1) n fun p =>
              { p with sfe := { p.sfe with bags := p.sfe.bags ++ [⟨tk, [], 0, [], none, false⟩] } })

/-- BAGSUM_LU: rows are summed where they lie. -/
def execBagsumLu (n : PotIx) (s : State) : Result := seqIssue n .sfe (ownOp 3) (bagsumIssue n) s

/-- A slot's record: its 128 values, and whether it is partial or poisoned. -/
def slotRecord (s : State) (n : PotIx) (slot : Nat) : List (F32 × Bool) × Bool :=
  let a := trayGlobal n (slot * 1024 + 448)
  let bs := trayRead s a 576
  let fl := nth bs 4 0
  ((unpackElems 32 128 (bs.drop 64)).map fun c => (BitVec.ofNat 32 c, false), bitAt fl 0 || bitAt fl 1 || (trayPoison s a 576).any id)

/-- The records of a bag's completed leaf commands are read into its fold, and their slots freed; a status other than OK is recorded. -/
def readBag (n : PotIx) (b : BagRun) (s : State) : State × BagRun :=
  let q := (potOf s n).sfeSeq
  let recs := b.slots.map (slotRecord s n)
  let b1 := { b with slots := [], failed := [], acc := (recs.map Prod.fst).foldl foldRow b.acc
                     bad := b.bad || !b.failed.isEmpty || recs.any Prod.snd }
  let s1 := updPot s n fun p => { p with sfe := { p.sfe with
    scratchBusy := p.sfe.scratchBusy.filter fun k => !b.slots.contains k
    bags := p.sfe.bags.map fun x => if x.ticket = b.ticket then b1 else x } }
  let rec_ := fun (t : State) (st : Status) =>
    sendFault t { status := statusCode st, tag := q.tag, infusion := q.infusion, island := seqIsland n .sfe, block := 1,
                  cause := 0, addr := 0, detail := 0, detail2 := 0 }
  (runAll rec_ b.failed s1, b1)

/-- The bag's row goes out in its place (R271, R279). -/
def endBag (n : PotIx) (b : BagRun) (s : State) : State :=
  let l := b.acc.getD (List.replicate 128 (f32Zero, false))
  sfDrain n (updPot s n fun p => { p with sfe := { p.sfe with
    bags := p.sfe.bags.filter fun x => x.ticket != b.ticket
    events := satField p.sfe.events 48 16 b.bad.toNat
    numeric := putNumEv p.sfe.numeric ⟨(l.filter fun x => f32IsNan x.1).length, 0⟩
    tickets := p.sfe.tickets.map fun t =>
      if t.id = b.ticket then { t with returned := true, out := f32Words (l.map fun x => (x.1, b.bad)) } else t } })

def foldBag (n : PotIx) (b : BagRun) (s : State) : State :=
  let r := readBag n b s
  if (potOf s n).sfe.walk.any fun k => k.ticket == b.ticket then r.1 else endBag n r.2 r.1

/-- A bag has records to read: its leaf commands so far have completed. -/
def bagReady (f : Sfe) (b : BagRun) : Bool :=
  b.left == 0 && (!b.slots.isEmpty || !f.walk.any fun k => k.ticket == b.ticket)

/-- BAG_LEAF_FOLD: the records of the oldest bag whose leaf commands have completed are folded (R279). While the walker waits for a
slot, the records so far are read and their slots freed, so that an issue with more leaf commands than slots goes on (R270; DEDUCED,
log entry 109). -/
def execBagLeafFold (n : PotIx) (s : State) : Result :=
  match (potOf s n).sfe.bags.find? (bagReady (potOf s n).sfe) with
  | some b => whenDo (potOn s n) s (foldBag n b s)
  | none => .next s

/-! DISPATCH and COMBINE (R280 to R282). -/

/-- The next token's entries: through the first with LAST. -/
def nextToken : List (BitVec 128 × Bool) → Option (List (BitVec 128 × Bool) × List (BitVec 128 × Bool))
  | [] => none
  | e :: es =>
    if bitAt e.1 43 then some ([e], es)
    else (nextToken es).map fun r => (e :: r.1, r.2)

def deExpert (e : BitVec 128) : Nat := fieldN e 32 8
def deValid (e : BitVec 128) : Bool := bitAt e 44

/-- A route record (R281). -/
def routeRecord (token wt : Nat) (rank : Nat) (valid : Bool) : List Byte :=
  bytesOfNat 4 token ++ bytesOfNat 4 wt ++ bytesOfNat 8 (rank + valid.toNat * 8)

def routeBase (d : SfDesc) : Nat := fieldN (sdBase d) 0 32
def writeRoute (d : SfDesc) (off : Nat) (bs : List Byte) (s : State) : State :=
  let a := routeBase d + off
  if potOn s (BitVec.ofNat 5 (a / 2 ^ 27)) then trayWrite s a bs false else s

/-- One entry of a token (R280 steps 3 to 6): the batch, and the slot it takes. -/
def dispEntry (w : ColWord) (b : Batch) (e : BitVec 128) : Batch × Option Nat :=
  let x := deExpert e
  let one := fun (m : SMap (BitVec 32)) => tset m x (tget m x 0 + 1)
  if !deValid e then ({ b with noexp := b.noexp + 1 }, none)
  else if sfNexp w < x then ({ b with pairs := b.pairs + 1, badexp := b.badexp + 1 }, none)
  else
    let b1 := { b with pairs := b.pairs + 1, demand := one b.demand }
    let fill := (tget b.fill x 0).toNat
    if fill < sfCap w then
      let slot := x * sfCap w + fill
      ({ b1 with accepted := b.accepted + 1, fill := one b.fill, slots := tset b.slots slot (fieldB e 0 32) }, some slot)
    else ({ b1 with dropped := b.dropped + 1 }, none)

/-- A token's entries in rank order. -/
def dispToken (w : ColWord) (d : SfDesc) : List (BitVec 128) → Batch → State → Batch × Nat × State
  | [], b, s => (b, 0, s)
  | e :: es, b, s =>
    let r := dispEntry w b e
    let s1 := match r.2 with
      | some k => writeRoute d (0x440 + 16 * k) (routeRecord (fieldN e 0 32) (fieldN e 64 32) (fieldN e 40 3) true) s
      | none => s
    let t := dispToken w d es r.1 s1
    (t.1, t.2.1 + r.2.isSome.toNat, t.2.2)

def dispSlots (w : ColWord) : Nat := (sfNexp w + 1) * sfCap w

/-- The header and the demand table of a batch (R281). -/
def routeHeader (q : Seqr) (w : ColWord) (b : Batch) : List Byte :=
  ([b.tokens, b.pairs, b.accepted, b.dropped, b.noexp, b.lost, b.badexp].map fun x => bytesOfNat 4 x.toNat).flatten ++
    bytesOfNat 2 (sfNexp w) ++ bytesOfNat 2 (sfCap w) ++ bytesOfNat 2 q.tag.toNat ++ bytesOfNat 2 q.infusion.toNat ++
    bytesOfNat 28 0 ++ ((upto 256).map fun e => bytesOfNat 4 (tget b.demand e 0).toNat).flatten

/-- The final issue: the header, the empty slots, the slot list. -/
def dispFinish (n : PotIx) (w : ColWord) (d : SfDesc) (b : Batch) (s : State) : State :=
  let q := (potOf s n).sfeSeq
  let empty := (upto (dispSlots w)).filter fun k => (tfind b.slots k).isNone
  let s1 := runAll (fun t k => writeRoute d (0x440 + 16 * k) (routeRecord (2 ^ 32 - 1) 0 0 false) t) empty (writeRoute d 0 (routeHeader q w b) s)
  let list := ((upto (dispSlots w)).map fun k => bytesOfNat 4 (tget b.slots k 0xFFFFFFFF).toNat).flatten
  let words := (chunks 32 (list.length + 1) list).map fun c => (fitBytes 32 c, false)
  let s2 := updPot s1 n fun p => { p with sfe := { p.sfe with
    dispatch := satField (satField p.sfe.dispatch 0 32 b.accepted.toNat) 32 32 b.dropped.toNat } }
  sfDrain n (sfTicket n (sfDst w) none [] (32 * words.length) true true words s2)

def dispatchIssue (n : PotIx) (w : ColWord) (s : State) : SeqIssue :=
  let p := potOf s n
  let q := p.sfeSeq
  let d := sfDescOf p (sfTbl w)
  let final := q.issued + 1 == wRepeat w
  if !sfFieldsOk w 4 || !routeOk d || !sfDescSound s n (sfTbl w) || !mayPush p 2 (sfDst w) then .fault s 1 (sfDst w)
  else if wRepeat w = 0 then seqPlain n .sfe s fun q => seqSkip q w
  else
    match nextToken p.vxe.dispatchQ with
    | none => .hold
    | some (es, rest) =>
      if es.any Prod.snd then .fault s 5 49
      else if final && !sfRoom p (sfDst w) (32 * ceilDiv (4 * dispSlots w) 32) then .hold
      else
        let b0 := if q.issued = 0 then Batch.reset else p.sfe.batch
        let s1 := updPot s n fun p => { p with vxe := { p.vxe with dispatchQ := rest } }
        let r := dispToken w d (es.map Prod.fst) { b0 with tokens := b0.tokens + 1, opened := !final } s1
        let lost := (es.any fun e => deValid e.1) && r.2.1 == 0
        let b := { r.1 with lost := r.1.lost + BitVec.ofNat 32 lost.toNat }
        let s2 := updPot r.2.2 n fun p => { p with sfe := { p.sfe with batch := b } }
        let s3 := if final then dispFinish n w d b s2 else s2
        seqPlain n .sfe s3 fun q => seqOp q w (es.length + (if final then ceilDiv (dispSlots w) 16 else 0)) []

/-- DISPATCH: routes one token's entries to expert slots. -/
def execDispatch (n : PotIx) (s : State) : Result := seqIssue n .sfe (ownOp 4) (dispatchIssue n) s

/-- COMBINE: one row of expert output into its token's row. REPEAT is (NEXP + 1) × CAP, with the CAP that the route area's header
holds. -/
def combineIssue (n : PotIx) (w : ColWord) (s : State) : SeqIssue :=
  let p := potOf s n
  let q := p.sfeSeq
  let d := sfDescOf p (sfTbl w)
  let td := sfDescOf p (sfTbl w + 1)
  let len := 32 * sdRowW td
  let h := trayPieces 1 s (routeBase d)
  let slots := (sfNexp w + 1) * natOfBytes (((pieceBytes h.2).drop 30).take 2)
  if !sfFieldsOk w 5 || !routeOk d || !rowTableOk td || !sfDescSound s n (sfTbl w) || !sfDescSound s n (sfTbl w + 1) ||
      !sfPopMay p [(sfDst w, len)] then .fault s 1 (sfDst w)
  else if h.2.any Prod.snd then .fault s 5 (sfDst w)
  else if wRepeat w ≠ slots then .fault s 1 (sfDst w)
  else if wRepeat w = 0 then seqPlain n .sfe s fun q => seqSkip q w
  else if !sfPopReady p [(sfDst w, len)] then .hold
  else
    let at_ := routeBase d + 0x440 + 16 * q.issued
    let rec_ := trayPieces 1 h.1 (at_ / 32 * 32)
    let r := (pieceBytes rec_.2).drop (at_ % 32)
    let token := natOfBytes (r.take 4)
    let valid := (nth r 8 0).getLsbD 3
    if rec_.2.any Prod.snd then .fault s 5 (sfDst w)
    else
      let x := sfPop rec_.1 n (sfDst w) len
      let row := sfWords x.2.1 x.2.2
      let kind := ixKind td token
      let where_ := sfAt s td token
      if !valid then seqPlain n .sfe x.1 fun q => seqOp q w 1 []
      else if (kind == .outside && sdFault td) || (kind == .row && (atBad where_ || atRemote where_)) then .fault s 1 (sfDst w)
      else if kind == .row && !atServed s n where_ then .hold
      else
        let s1 := sfCount n 0 0 (kind == .outside).toNat 0 x.1
        let s2 := if kind = .row then accRow n (sfFmt w) (BitVec.ofNat 32 (natOfBytes ((r.drop 4).take 4))) false td token row s1 else s1
        seqPlain n .sfe s2 fun q => seqOp q w (ceilDiv (sdRowW td) 4) []

def execCombine (n : PotIx) (s : State) : Result := seqIssue n .sfe (ownOp 5) (combineIssue n) s

end Sys2Proof.Machine
end

