-- ==== Sys2Proof/Machine/Umdel.lean ====
section
/-!
DEFINITION. The Umdel image as the strainer reads it (R101 to R105): header, section table, operations with their fields, declarations;
and the flaws of phases 1 and 3 (R112, R114, R122).
-/

namespace Sys2Proof.Machine

/-- An image: its 32-bit words. -/
abbrev Image := List (BitVec 32)
def imWord (im : Image) (i : Nat) : Nat := (nth im i 0).toNat

/-! Flaws (R114, R122): LoadEnd with 0xFF where no pot or section applies. -/

/-- The order of R114; the code and DETAIL decide what is left (log entry 33). -/
def flawKey (f : LoadEnd) : Nat :=
  let rank := fun (n : Nat) => if n = 0xFF then 0 else n + 1
  (((f.phase * 512 + rank f.lpot) * 512 + rank f.section_) * 2 ^ 33 + f.offset) * 2 ^ 48 + f.code * 2 ^ 32 + f.detail

/-- The one fault that a load reports (R114). -/
def firstFlaw : List LoadEnd → Option LoadEnd
  | [] => none
  | f :: l =>
    match firstFlaw l with
    | none => some f
    | some g => if flawKey f ≤ flawKey g then some f else some g

/-- A flaw where a condition fails. -/
def flawIf (bad : Bool) (f : LoadEnd) : List LoadEnd := if bad then [f] else []

/-! Header and sections (R101, R102). -/

structure Sect where
  ix : Nat
  stype : Nat
  lpots : BitVec 32
  off : Nat
  len : Nat
  deriving DecidableEq, Repr

def imNsect (im : Image) : Nat := imWord im 3 % 256
def imNpots (im : Image) : Nat := imWord im 3 / 256 % 256
def imSect (im : Image) (i : Nat) : Sect :=
  ⟨i, imWord im (16 + 4 * i) % 256, nth im (17 + 4 * i) 0, imWord im (18 + 4 * i), imWord im (19 + 4 * i)⟩
def imSects (im : Image) : List Sect := (upto (imNsect im)).map (imSect im)
def sectWords (im : Image) (x : Sect) : Image := (im.drop x.off).take x.len
def onPot (x : Sect) (lp : Nat) : Bool := bitAt x.lpots lp

/-- The image's bytes with the CRC word taken as zero. -/
def imCrcBytes (im : Image) : List Byte := (im.zipIdx.map fun x => bytesOfNat 4 (if x.2 = 4 then 0 else x.1.toNat)).flatten

def sectsMeet (a b : Sect) : Bool := decide (a.off < b.off + b.len) && decide (b.off < a.off + a.len) && a.len != 0 && b.len != 0

/-- XV_IMAGE and XV_VERSION (R122). -/
def headerFlaws (im : Image) (length minor : Nat) (grade : Grade) : List LoadEnd :=
  let at_ := fun (code o d : Nat) => (⟨code, 1, 0xFF, 0xFF, o, d⟩ : LoadEnd)
  let np := imNpots im
  flawIf (imWord im 0 != 0x4C444D55) (at_ 1 0 0) ++
    flawIf (imWord im 1 / 65536 != 1 || decide (minor < imWord im 1 % 65536)) (at_ 2 1 minor) ++
    flawIf (imWord im 2 != length || decide (im.length < 16)) (at_ 1 2 0) ++
    flawIf (imNsect im == 0 || np == 0 || decide (32 < np) || !((imSects im).any fun x => x.stype == 1)) (at_ 1 3 0) ++
    flawIf (!bitAt (nth im 3 0) (15 + gradeCode grade)) (at_ 2 3 minor) ++
    flawIf (imWord im 4 != (crc32c (imCrcBytes im)).toNat) (at_ 1 4 0) ++
    (imSects im).flatMap fun x =>
      let f := fun (o : Nat) => (⟨1, 1, 0xFF, x.ix, 16 + 4 * x.ix + o, 0⟩ : LoadEnd)
      flawIf (decide (2 ^ np ≤ x.lpots.toNat)) (f 1) ++
        flawIf (decide (length < x.off + x.len) || (imSects im).any fun y => decide (y.ix < x.ix) && sectsMeet x y) (f 2)

/-! Field words (R103). -/

/-- FID and VALUE of each field; none where an EXT has no second word. -/
def fieldsOf : Image → Option (List (Nat × Nat))
  | [] => some []
  | [w] => if bitAt w 24 then none else some [(fieldN w 25 7, fieldN w 0 24)]
  | w :: v :: l =>
    if bitAt w 24 then (fieldsOf l).map fun r => (fieldN w 25 7, fieldN w 0 24 + v.toNat * 2 ^ 24) :: r
    else (fieldsOf (v :: l)).map fun r => (fieldN w 25 7, fieldN w 0 24) :: r

/-- The value given for a FID: the last one; none when it is not given. -/
def fieldGiven (l : List (Nat × Nat)) (fid : Nat) : Option Nat := (l.reverse.find? fun x => x.1 == fid).map Prod.snd
def fieldOr (l : List (Nat × Nat)) (fid : Nat) : Nat := (fieldGiven l fid).getD 0

/-! Declarations (R105). -/

structure Decl where
  sect : Nat
  off : Nat
  kind : Nat
  lid : Nat
  fields : List (Nat × Nat)
  deriving DecidableEq, Repr

def dField (d : Decl) (fid : Nat) : Nat := fieldOr d.fields fid

/-- The widths in bits of a record's fields by FID from 1. -/
def declWidths : Nat → List Nat
  | 1 => [5, 5, 5, 2, 3, 3]
  | 2 => [5, 32, 32, 56]
  | 3 => [2, 2, 32]
  | 4 => [48, 56, 2]
  | 5 => [32, 32, 32, 32, 16, 16, 16, 16, 48, 4]
  | 6 => [32, 32]
  | 7 => [32, 32]
  | 8 => [8, 9]
  | 9 => [2, 32]
  | _ => []

/-- The records of a DECL section, and the offset of one whose words run out; `fuel` bounds their number. -/
def declsOf (sect : Nat) : (fuel : Nat) → (off : Nat) → Image → List Decl × Option Nat
  | 0, _, _ => ([], none)
  | _, _, [] => ([], none)
  | f + 1, off, w :: l =>
    let n := fieldN w 8 6
    match (if l.length < n then none else fieldsOf (l.take n)) with
    | none => ([], some off)
    | some fs =>
      let r := declsOf sect f (off + 1 + n) (l.drop n)
      (⟨sect, off, fieldN w 0 8, fieldN w 14 18, fs⟩ :: r.1, r.2)

def declSects (im : Image) : List Sect := (imSects im).filter fun x => x.stype == 1
def sectDecls (im : Image) (x : Sect) : List Decl × Option Nat := declsOf x.ix x.len x.off (sectWords im x)
def imDecls (im : Image) : List Decl := (declSects im).flatMap fun x => (sectDecls im x).1

/-- Declarations of a kind. -/
def declsIn (im : Image) (kind : Nat) : List Decl := (imDecls im).filter fun d => d.kind == kind
/-- The queue that a logical id names on a logical pot: one id may be declared once on each (log entry 33). -/
def queueDecl (im : Image) (lp lid : Nat) : Option Decl := (declsIn im 1).find? fun d => d.lid == lid && dField d 1 == lp
def declNamed (im : Image) (kind lid : Nat) : Option Decl := (declsIn im kind).find? fun d => d.lid == lid

/-- The words of the CONST sections, one after the other (log entry 33). -/
def constWords (im : Image) : Image := ((imSects im).filter fun x => x.stype == 6).flatMap (sectWords im)
def constOf (im : Image) (d : Decl) : Image := ((constWords im).drop (dField d 1)).take (dField d 2)

/-- The recipe and the SFE table descriptor that a declaration gives. -/
def declRecipe (im : Image) (d : Decl) : Recipe :=
  match constOf im d with
  | [] => ⟨0, []⟩
  | h :: l => ⟨h, l⟩
def wordsNat (l : Image) : Nat := natOfBytes (l.flatMap fun w => bytesOfNat 4 w.toNat)
def declTable (im : Image) (d : Decl) : BitVec 256 := BitVec.ofNat 256 (wordsNat (constOf im d))
/-- A table descriptor with every reserved bit zero and every field in its encoding (R265). -/
def tableEncodes (t : BitVec 256) : Bool :=
  fieldN t 55 9 == 0 && fieldN t 173 83 == 0 && decide (fieldN t 50 2 ≤ 1) && decide (fieldN t 52 3 ≤ 5) &&
    (fieldN t 50 2 == 1 || inRange (fieldN t 128 7) 1 64) && decide (fieldN t 144 8 ≤ 128) && fieldN t 152 4 == 0
/-- The address-generator descriptor of R79. -/
def declDesc (d : Decl) : BitVec 256 :=
  BitVec.ofNat 256 (((upto 4).map fun k => dField d (1 + k) * 2 ^ (32 * k) + dField d (5 + k) * 2 ^ (128 + 16 * k)).sum +
    dField d 9 * 2 ^ 192 + dField d 10 * 2 ^ 240)
def declQueueCfg (d : Decl) (base : Nat) : Word64 :=
  BitVec.ofNat 64 (base + dField d 2 * 2 ^ 27 + dField d 3 * 2 ^ 32 + dField d 4 * 2 ^ 37 + dField d 5 * 2 ^ 39 + dField d 6 * 2 ^ 42)

/-- Microwords of the LU sections, one section after the other (log entry 33). DESIGN CHOICE: every pot of the infusion loads all of
them, whatever LPOTS the section gives (log entry 104). -/
def pairWords : Image → List Word64
  | a :: b :: l => BitVec.ofNat 64 (a.toNat + b.toNat * 2 ^ 32) :: pairWords l
  | _ => []
def luSects (im : Image) : List Sect := (imSects im).filter fun x => x.stype == 5
def imMicrowords (im : Image) : List Word64 := (luSects im).flatMap fun x => pairWords (sectWords im x)

/-- A record's recipe reads a temporary before any write to it (R237). -/
def readsEarly : List (BitVec 32) → List Nat → Bool
  | [], _ => false
  | o :: l, seen => (opSrcs o).any (fun k => decide (k < 16) && !seen.contains k) || readsEarly l (opDst o :: seen)

/-- A field value outside its encoding, by kind; the FID. -/
def declBad (im : Image) (d : Decl) : Option Nat :=
  let np := imNpots im
  let f := dField d
  let ws := declWidths d.kind
  match (d.fields.find? fun x => x.1 == 0 || decide (ws.length < x.1) || decide (2 ^ nth ws (x.1 - 1) 0 ≤ x.2)) with
  | some x => some x.1
  | none =>
    (upto 11).find? fun k =>
      match d.kind, k with
      | 1, 1 => decide (np ≤ f 1)
      | 1, 2 => !inRange (f 2) 12 26
      | 1, 3 => !inRange (f 3) 6 20 || decide (f 2 < f 3)
      | 1, 5 => decide (4 < f 5)
      | 1, 6 => decide (4 < f 6)
      | 2, 1 => decide (np ≤ f 1)
      | 3, 1 => decide (2 < f 1)
      | 5, 10 => !inRange (f 10) 5 11
      | 6, 1 => decide ((constWords im).length < f 1 + f 2) || !recipeOk (declRecipe im d) ||
          readsEarly (recipeOps (declRecipe im d)) []
      | 7, 1 => decide ((constWords im).length < f 1 + f 2) || f 2 != 8 || !tableEncodes (declTable im d)
      | 8, 1 => !((luSects im).any fun x => x.ix == f 1)
      | 9, 1 => decide (2 < f 1)
      | _, _ => false

/-- Two records of one kind and logical id; queues also by LPOT. -/
def sameDecl (a b : Decl) : Bool := a.kind == b.kind && a.lid == b.lid && (a.kind != 1 || dField a 1 == dField b 1)

/-! Operations (R103, R104). -/

structure UmOp where
  off : Nat
  cls : Nat
  code : Nat
  clean : Bool
  fields : List (Nat × Nat)
  deriving DecidableEq, Repr

/-- The operations of a stream section, and the offset of one whose words run out. -/
def opsOf : (fuel : Nat) → (off : Nat) → Image → List UmOp × Option Nat
  | 0, _, _ => ([], none)
  | _, _, [] => ([], none)
  | f + 1, off, w :: l =>
    let n := fieldN w 8 6
    match (if l.length < n then none else fieldsOf (l.take n)) with
    | none => ([], some off)
    | some fs =>
      let r := opsOf f (off + 1 + n) (l.drop n)
      (⟨off, fieldN w 4 4, fieldN w 0 4, fieldN w 14 18 == 0, fs⟩ :: r.1, r.2)

def sectOps (im : Image) (x : Sect) : List UmOp × Option Nat := opsOf x.len x.off (sectWords im x)

/-- Stream sections, by engine. -/
def stypeEng : Nat → Option Eng
  | 2 => some .mxe
  | 3 => some .vxe
  | 4 => some .sfe
  | _ => none
def streamSects (im : Image) (e : Eng) : List Sect := (imSects im).filter fun x => stypeEng x.stype == some e
/-- The section that an engine's commands run on a logical pot: the first one (log entry 33). -/
def engSect (im : Image) (e : Eng) (lp : Nat) : Option Sect := (streamSects im e).find? fun x => onPot x lp
def engOfCode : Nat → Eng
  | 0 => .mxe
  | 1 => .vxe
  | _ => .sfe

/-- What a field names (R104). -/
inductive FieldUse where
  | num | queue | desc | recipe | table | syncPot | syncIx
  deriving DecidableEq, Repr

/-- The named fields of a body in order from FID 1: place, width and use (R72, R75, R78, R86, R92 to R94, R296). -/
def bodyFields (e : Eng) (cls code : Nat) : List (Nat × Nat × FieldUse) :=
  if cls = 0 then
    match code with
    | 2 => [(32, 2, .num), (34, 1, .num), (35, 12, .num), (48, 16, .num), (64, 4, .num), (68, 1, .num), (72, 24, .num)]
    | 3 => [(32, 4, .num), (36, 1, .num), (37, 4, .num), (41, 4, .num), (45, 1, .num), (46, 4, .num), (64, 16, .num), (80, 16, .num)]
    | 4 => [(32, 4, .num), (36, 4, .num), (40, 4, .num), (44, 4, .num), (48, 1, .num), (64, 32, .num)]
    | 5 => [(32, 3, .num), (35, 1, .num), (36, 1, .num), (37, 1, .num), (38, 4, .num), (42, 8, .desc), (50, 6, .queue),
            (56, 1, .num), (57, 4, .num), (64, 32, .num)]
    | 6 => [(32, 4, .num), (36, 2, .num), (38, 1, .num), (39, 4, .num), (43, 4, .num), (47, 5, .syncPot), (52, 16, .syncIx),
            (68, 16, .num)]
    | _ => []
  else
    match e with
    | .mxe => [(36, 4, .num), (40, 4, .num), (44, 6, .queue), (50, 6, .queue), (56, 6, .queue), (62, 1, .num), (64, 16, .num),
               (80, 4, .num), (84, 2, .num), (86, 1, .num), (88, 6, .queue), (96, 32, .num), (128, 6, .queue)]
    | .vxe => [(36, 8, .recipe), (44, 6, .queue), (50, 6, .queue), (56, 6, .queue), (62, 6, .queue), (68, 6, .queue),
               (74, 6, .queue), (80, 6, .queue), (86, 1, .num), (87, 4, .num), (91, 4, .num), (95, 2, .num), (97, 1, .num),
               (98, 16, .num), (114, 3, .num), (117, 4, .num), (128, 32, .num), (160, 32, .num)]
    | .sfe => [(36, 6, .queue), (42, 6, .queue), (48, 6, .queue), (54, 6, .queue), (60, 4, .table), (64, 4, .num), (68, 1, .num),
               (69, 1, .num), (70, 16, .num), (96, 8, .num)]

/-- An operation that the op word may name. -/
def opDefined (e : Eng) (o : UmOp) : Bool :=
  o.clean && ((o.cls == 0 && o.code != 1 && decide (o.code ≤ 7)) ||
    (o.cls == 1 && decide (o.code ≤ match e with | .mxe => 4 | .vxe => 3 | .sfe => 5)))

/-- Largest value of a field: logical ids have 24 bits, others the field's width. -/
def fieldLimit (u : FieldUse) (len : Nat) : Nat :=
  match u with
  | .num => 2 ^ len
  | _ => 2 ^ 24

/-- A field of an operation with no place or with a value outside its encoding; its FID (R122). -/
def opBadField (e : Eng) (o : UmOp) : Option Nat :=
  let fs := bodyFields e o.cls o.code
  (o.fields.find? fun x =>
    if x.1 = 0 then decide (65536 ≤ x.2) || (o.cls == 0 && x.2 != 1)
    else
      match fs[x.1 - 1]? with
      | none => true
      | some p => decide (fieldLimit p.2.2 p.2.1 ≤ x.2)).map Prod.fst

/-! Logical ids in operations (R104). -/

/-- A queue field's value: none, a fixed end, or a logical id. -/
def fixedEnd (v : Nat) : Option Nat :=
  if v = 0xFFFFFF then some 63
  else if v = 0xFFFF00 then some 48
  else if v = 0xFFFF01 then some 49
  else if inRange v 0xFFFF10 0xFFFF13 then some (56 + (v - 0xFFFF10))
  else none

/-- The logical id that a descriptor, recipe or table field gives; none where it is absent or 0xFF_FFFF (R104). -/
def namedId (v : Option Nat) : Option Nat := v.filter fun x => x != 0xFFFFFF

/-- A SYNC operation on a word of this module. -/
def syncHere (o : UmOp) : Bool := o.cls == 0 && o.code == 6 && fieldOr o.fields 8 == 0xFFFF
def opYop (o : UmOp) : Nat := fieldOr o.fields 1
/-- The logical ids that an operation gives, with their FID and use; a field that is absent or "none" names nothing. -/
def opUses (e : Eng) (o : UmOp) : List (Nat × FieldUse × Nat) :=
  (bodyFields e o.cls o.code).zipIdx.filterMap fun x =>
    match x.1.2.2 with
    | .num => none
    | u => (namedId (fieldGiven o.fields (x.2 + 1))).map fun v => (x.2 + 1, u, v)

/-- A barrier operation, by YOP (R292). -/
def yopPair (y : Nat) : Bool := yopBarrier (BitVec.ofNat 4 y)

/-- The flaws of one operation's logical ids on a logical pot: XV_UNDECLARED and XV_SYNC_DECL. -/
def opIdFlaws (im : Image) (node : Nat) (e : Eng) (x : Sect) (lp : Nat) (o : UmOp) : List LoadEnd :=
  let f := fun (code lid : Nat) => (⟨code, 3, lp, x.ix, o.off, lid⟩ : LoadEnd)
  let ids := (opUses e o).flatMap fun u =>
    match u.2.1 with
    | .queue => flawIf ((fixedEnd u.2.2).isNone && (queueDecl im lp u.2.2).isNone) (f 4 u.2.2)
    | .desc => flawIf (declNamed im 5 u.2.2).isNone (f 4 u.2.2)
    | .recipe => flawIf (declNamed im 6 u.2.2).isNone (f 4 u.2.2)
    | .table => flawIf (declNamed im 7 u.2.2).isNone (f 4 u.2.2)
    | _ => []
  let lid := fieldOr o.fields 7
  let sync :=
    if o.cls = 0 ∧ o.code = 6 then
      if syncHere o then
        match declNamed im 2 lid with
        | none => [f 0xD lid]
        | some d =>
          flawIf (((fieldGiven o.fields 6).any fun p => p != dField d 1) ||
            (yopPair (opYop o) && !((declsIn im 2).any fun y => y.lid == lid + 1 && dField y 1 == dField d 1))) (f 0xD lid)
      else flawIf (fieldOr o.fields 8 == node) (f 0xD lid)
    else []
  ids ++ sync

/-- Phase 3 (R112, R122). -/
def declFlaws (im : Image) (node : Nat) : List LoadEnd :=
  let enc := fun (s o d : Nat) => (⟨3, 3, 0xFF, s, o, d⟩ : LoadEnd)
  let head := flawIf (imWord im 3 / 2 ^ 19 != 0) (enc 0xFF 3 0) ++
    (between 8 16).flatMap fun i => flawIf (imWord im i != 0) (enc 0xFF i 0)
  let sects := (imSects im).flatMap fun x =>
    flawIf (imWord im (16 + 4 * x.ix) / 256 != 0 || x.stype == 0 || decide (7 < x.stype)) (enc x.ix (16 + 4 * x.ix) 0) ++
      flawIf (x.stype == 5 && x.len % 2 != 0) (enc x.ix (16 + 4 * x.ix + 3) 0)
  let ends := (declSects im).flatMap fun x =>
    match (sectDecls im x).2 with
    | some o => [enc x.ix o 0]
    | none => []
  let recs := (imDecls im).zipIdx.flatMap fun y =>
    let d := y.1
    let id := (⟨4, 3, 0xFF, d.sect, d.off, d.lid⟩ : LoadEnd)
    if (declWidths d.kind).isEmpty then [enc d.sect d.off 0]
    else
      (match declBad im d with
       | some k => [enc d.sect d.off k]
       | none => []) ++
      flawIf (((imDecls im).take y.2).any (sameDecl d)) id ++
      flawIf (d.kind == 2 && decide (1 < dField d 4)) { id with code := 0xD } ++
      flawIf (d.kind == 9 && decide (dField d 1 ≤ 2) &&
        !((streamSects im (engOfCode (dField d 1))).any fun x => decide (dField d 2 < (sectOps im x).1.length))) id ++
      flawIf (d.kind == 8 && decide ((imMicrowords im).length ≤ dField d 2)) id
  let refs := [Eng.mxe, .vxe, .sfe].flatMap fun e =>
    (streamSects im e).flatMap fun x =>
      ((upto (imNpots im)).filter (onPot x)).flatMap fun lp => (sectOps im x).1.flatMap (opIdFlaws im node e x lp)
  head ++ sects ++ ends ++ recs ++ refs

end Sys2Proof.Machine
end

