-- ==== Sys2Proof/Machine/Xlat.lean ====
section
/-!
DEFINITION. Translation by the strainer (R104, R119 to R121): the word of an operation, loops and branches of a section, the cycle count
along its paths with the DELAY of every word and the padding of paths that meet, and the native words.
-/

namespace Sys2Proof.Machine

/-! The word of an operation (R104). -/

/-- What logical ids become on one physical pot. -/
structure Resolve where
  queue : Nat → Nat
  desc : Nat → Nat
  recipe : Nat → Nat
  table : Nat → Nat
  sync : Nat → Nat × Nat

/-- A descriptor, recipe or table field that is absent or "none" takes its null value, entry 0 (R68, R104). -/
def resolveId (f : Nat → Nat) (v : Option Nat) : Nat := match namedId v with
  | some x => f x
  | none => 0

def resolveField (r : Resolve) (o : UmOp) (u : FieldUse) (v : Option Nat) : Nat :=
  match u with
  | .num => v.getD 0
  | .queue => match v with
    | none => 63
    | some x => (fixedEnd x).getD (r.queue x)
  | .desc => resolveId r.desc v
  | .recipe => resolveId r.recipe v
  | .table => resolveId r.table v
  | .syncPot => if syncHere o then (r.sync (fieldOr o.fields 7)).1 else v.getD 0
  | .syncIx => if syncHere o then (r.sync (v.getD 0)).2 else v.getD 0

/-- The word of an operation, with DELAY, BODY and OFFSET as they stand in the operation. -/
def opWord (r : Resolve) (e : Eng) (o : UmOp) : ColWord :=
  let head := (if o.cls = 0 then o.code else 1 + o.code * 2 ^ 32) + (fieldGiven o.fields 0).getD 1 * 2 ^ 4
  let put := fun (w : ColWord) (x : (Nat × Nat × FieldUse) × Nat) =>
    putField w x.1.1 x.1.2.1 (resolveField r o x.1.2.2 (fieldGiven o.fields (x.2 + 1)))
  (bodyFields e o.cls o.code).zipIdx.foldl put (BitVec.ofNat 256 head)

/-- Ids that no resource stands behind: cycle counts look at none of them (R121). -/
def Resolve.blank : Resolve := ⟨fun _ => 0, fun _ => 0, fun _ => 0, fun _ => 0, fun _ => (0, 0)⟩

/-- The recipe that a VXE operation names; the empty one where it names none. -/
def umRecipe (im : Image) (o : UmOp) : Recipe :=
  match (namedId (fieldGiven o.fields 1)).bind (declNamed im 6) with
  | some d => declRecipe im d
  | none => ⟨0, []⟩

/-! Loops and branches (R72 to R74, R86). -/

def isKind (o : UmOp) (k : Nat) : Bool := o.cls == 0 && o.code == k

/-- A LOOP's body in operations: [start, end). -/
structure Body where
  head : Nat
  stop : Nat
  level : Nat
  deriving DecidableEq, Repr

def bodiesOf (ops : List UmOp) : List Body :=
  ops.zipIdx.filterMap fun x =>
    if isKind x.1 2 then some ⟨x.2, x.2 + 1 + fieldOr x.1.fields 3, fieldOr x.1.fields 1⟩ else none
def inBody (b : Body) (i : Nat) : Bool := decide (b.head < i ∧ i < b.stop)
/-- Open levels at an operation. -/
def depthAt (bs : List Body) (i : Nat) : Nat := (bs.filter fun b => inBody b i).length
/-- The innermost open body. -/
def innerBody (bs : List Body) (i : Nat) : Option Body :=
  (bs.filter fun b => inBody b i).foldl (fun a b =>
    match a with
    | none => some b
    | some c => if c.head < b.head then some b else some c) none

/-- The branch target, in operations. -/
def branchTo (o : UmOp) (i : Nat) : Int := (i : Int) + (BitVec.ofNat 16 (fieldOr o.fields 7)).toInt

/-- Where a branch may go: the innermost open body, or the section. -/
def targetIn (bs : List Body) (n i : Nat) (t : Int) : Bool :=
  match innerBody bs i with
  | some b => decide ((b.head : Int) < t ∧ t < b.stop)
  | none => decide (0 ≤ t ∧ t < n)

/-- A loop's body may run more than once. -/
def bodyAgain (ops : List UmOp) (b : Body) : Bool :=
  let o := nth ops b.head ⟨0, 0, 0, true, []⟩
  fieldOr o.fields 2 == 1 || decide (1 < fieldOr o.fields 4)

/-- From the end of an operation to what follows it: back-edges of the open bodies that end there, and the next operation. -/
def flowOn (ops : List UmOp) (bs : List Body) (i j : Nat) : List Nat :=
  ((bs.filter fun b => b.stop == j && decide (b.head < i) && bodyAgain ops b).map fun b => b.head + 1) ++ [j]

/-- How a path leaves an operation: past its word, or by the word itself (a taken branch, a loop entered or skipped). -/
inductive Via where
  | entry
  | past (op : Nat)
  | word (op : Nat)
  deriving DecidableEq, Repr

/-- Operations that may follow an operation, how they are reached, and the engine cycles this adds; the section's length where its end
is reached. -/
def flowFrom (st : Stepping) (ops : List UmOp) (bs : List Body) (i : Nat) (o : UmOp) : List (Nat × Via × Nat) :=
  let on := fun (v : Via) (j : Nat) => (flowOn ops bs i j).map fun k => (k, v, 0)
  if isKind o 7 then []
  else if isKind o 3 then
    ((branchTo o i).toNat, .word i, branchCost st) :: (if fieldOr o.fields 1 = 0 then [] else on (.past i) (i + 1))
  else if isKind o 2 then
    let imm := fieldOr o.fields 2 == 0
    let skip := if imm && fieldOr o.fields 4 != 0 then [] else on (.word i) (i + 1 + fieldOr o.fields 3)
    if imm && fieldOr o.fields 4 == 0 then skip else (i + 1, .word i, 0) :: skip
  else on (.past i) (i + 1)

/-- Entry operations of a section: those of the entry points of its engine. -/
def entryOps (im : Image) (e : Eng) : List Nat := ((declsIn im 9).filter fun d => dField d 1 == engNo e).map fun d => dField d 2

/-! Issues (R119, R215, R221, R242, R243, R254, R269). -/

/-- What one issue takes: its occupancy, the chain queues popped, the entries put on chain queues (queue, cycle of presence, format) and the
resources claimed (resource, first and last cycle from the issue). -/
structure IssuePlan where
  occ : Nat
  pops : List Nat
  puts : List (Nat × Nat × Nat)
  claims : List (Nat × Nat × Nat)
  deriving DecidableEq, Repr

def chainIx (q : Nat) : List Nat := if isChain q then [q - 56] else []

/-- Issue `k` of an MXE word. -/
def mxPlan (st : Stepping) (w : ColWord) : IssuePlan :=
  let op := fieldN w 32 4
  let l := mxLat st
  if op ≤ 2 then ⟨mmaOcc w op, chainIx (mxQA w), [], mmaClaims st w op⟩
  else if op = 3 then
    ⟨1, [], (chainIx (mxQO w)).map fun c => (c, 136, mxOfmt w), [(resDrain, 0, 127), (resSet (mxAcc w), 0, l)]⟩
  else ⟨1, [], [], [(resSet (mxAcc w), l, l)]⟩

/-- Issue `k` of a VXE word. -/
def vxPlan (st : Stepping) (w : ColWord) (r : Recipe) (k : Nat) : IssuePlan :=
  let vop := fieldN w 32 4
  let occ := recipeOcc st r (vxPaired w)
  let final := vop != vopRecipe && k % vxNq w + 1 == vxNq w
  let tail := if final then vxTail vop r w else 0
  let at_ := recipeRlatAt st r (vxPaired w) occ + tail
  ⟨if vop = vopRecipe then occ else occ + 1 + tail,
    ((upto 4).map (vxIn w) ++ [vxMask w]).flatMap chainIx,
    if vop = vopRecipe || final then
      (vxChainPuts vop w).flatMap fun x => (chainIx x.1).flatMap fun c => List.replicate x.2 (c, at_, vxOfmt w)
    else [],
    []⟩

/-- Issue `k` of a word; the SFE's is one engine cycle to the strainer. -/
def issuePlan (st : Stepping) (e : Eng) (w : ColWord) (r : Recipe) (k : Nat) : IssuePlan :=
  match e with
  | .mxe => mxPlan st w
  | .vxe => vxPlan st w r k
  | .sfe => ⟨1, [], [], []⟩

/-! Pending state (R120). -/

/-- Chain queue contents with the cycles until each entry is present and its format, and the claims outstanding; in engine cycles from the
earliest next issue. -/
structure Pend where
  chains : List (List (Nat × Nat))
  claims : List (Nat × Nat × Nat)
  deriving DecidableEq, Repr

def Pend.start : Pend := ⟨[[], [], [], []], []⟩

/-- Claims in one order. -/
def claimBefore (a b : Nat × Nat × Nat) : Bool :=
  decide (a.1 < b.1) || (a.1 == b.1 && (decide (a.2.1 < b.2.1) || (a.2.1 == b.2.1 && decide (a.2.2 ≤ b.2.2))))
def putClaim (c : Nat × Nat × Nat) : List (Nat × Nat × Nat) → List (Nat × Nat × Nat)
  | [] => [c]
  | d :: l => if claimBefore c d then c :: d :: l else d :: putClaim c l

/-- The state `p` engine cycles later. -/
def pendAge (p : Nat) (a : Pend) : Pend :=
  ⟨a.chains.map fun l => l.map fun x => (x.1 - p, x.2),
    ((a.claims.filter fun c => decide (p ≤ c.2.2)).map fun (c : Nat × Nat × Nat) => (c.1, c.2.1 - p, c.2.2 - p)).foldr putClaim []⟩

/-- After this many engine cycles nothing more changes. -/
def pendEnd (a : Pend) : Nat :=
  ((a.chains.flatten.map Prod.fst) ++ a.claims.map fun (c : Nat × Nat × Nat) => c.2.2 + 1).foldl Nat.max 0

/-- Why an issue may not be made: a chain queue out of order, which no wait mends, or something that time mends. -/
inductive PendBad where
  | order (queue : Nat)
  | early
  deriving DecidableEq, Repr

/-- Pop the front entry of a chain queue; an MMA takes an entry of its own format only (R221). -/
def pendPop (fmt : Option Nat) (c : Nat) (a : Pend) : Except PendBad Pend :=
  match nth a.chains c [] with
  | [] => .error (.order (56 + c))
  | x :: l =>
    if fmt.any fun f => f != x.2 then .error (.order (56 + c))
    else if x.1 ≠ 0 then .error .early
    else .ok { a with chains := setNth a.chains c l }

def pendPut (c at_ fmt : Nat) (a : Pend) : Except PendBad Pend :=
  let l := nth a.chains c []
  if 8 ≤ l.length then .error (.order (56 + c)) else .ok { a with chains := setNth a.chains c (l ++ [(at_, fmt)]) }

/-- Two claims of one resource meet in a cycle. -/
def spansMeet (old new : List (Nat × Nat × Nat)) : Bool :=
  new.any fun a => old.any fun b => a.1 == b.1 && decide (a.2.1 ≤ b.2.2) && decide (b.2.1 ≤ a.2.2)

/-- One issue, made now: the state at the earliest next issue. -/
def pendIssue (fmt : Option Nat) (x : IssuePlan) (a : Pend) : Except PendBad Pend := do
  let b ← x.pops.foldlM (fun t c => pendPop fmt c t) a
  let c ← x.puts.foldlM (fun t y => pendPut y.1 y.2.1 y.2.2 t) b
  if spansMeet a.claims x.claims then .error .early
  else .ok (pendAge x.occ { c with claims := x.claims.foldr putClaim c.claims })

/-- The `n` issues of a word from issue `k` on, and the engine cycles they take; an error comes with the cycle it lies at. -/
def pendRun (fmt : Option Nat) (plan : Nat → IssuePlan) : (n k at_ : Nat) → Pend → Except (PendBad × Nat) (Pend × Nat)
  | 0, _, at_, a => .ok (a, at_)
  | n + 1, k, at_, a =>
    match pendIssue fmt (plan k) a with
    | .error b => .error (b, at_)
    | .ok b => pendRun fmt plan n (k + 1) (at_ + (plan k).occ) b

/-- The smallest wait before the first issue under which every issue is sound, the state after it and the engine cycles from the first
issue. -/
def pendWait (fmt : Option Nat) (plan : Nat → IssuePlan) (n : Nat) (a : Pend) : Except (PendBad × Nat) (Nat × Pend × Nat) :=
  let try_ := fun (w : Nat) => pendRun fmt plan n 0 0 (pendAge w a)
  let tries := (upto (pendEnd a + 1)).map fun w => (w, try_ w)
  match tries.findSome? (fun x => match x.2 with
    | .ok r => some (Except.ok (x.1, r.1, r.2))
    | .error (.order q, c) => some (Except.error (.order q, x.1 + c))
    | .error _ => none) with
  | some r => r
  | none => match try_ (pendEnd a) with
    | .error b => .error (b.1, pendEnd a + b.2)
    | .ok r => .ok (pendEnd a, r.1, r.2)

/-- The smallest padding of a state, or else of the other, or else of both, that makes them equal: for `a` and for `b`, each at most 4,096
engine cycles (R120). -/
def pendMeet (a b : Pend) : Option (Nat × Nat) :=
  let few := fun (x : Pend) => upto (Nat.min 4096 (pendEnd x) + 1)
  (((few b).find? fun p => pendAge p b == a).map fun p => (0, p)).or
    ((((few a).find? fun p => pendAge p a == b).map fun p => (p, 0)).or
      ((few a).findSome? fun p => ((few b).find? fun q => pendAge p a == pendAge q b).map fun q => (p, q)))

/-! Paths (R85, R119, R120). -/

/-- Padding: engine cycles added before a word, and after one before the path goes on. -/
structure Pads where
  before : SMap Nat
  past : SMap Nat
  deriving DecidableEq, Repr

def padVia (p : Pads) (v : Via) (n : Nat) : Pads :=
  match v with
  | .entry => p
  | .past i => { p with past := tset p.past i (tget p.past i 0 + n) }
  | .word i => { p with before := tset p.before i (tget p.before i 0 + n) }
def padOver (p : Pads) : Bool := (p.before ++ p.past).any fun x => decide (4096 < x.2)

/-- What reaches an operation: the state, the engine cycles since the previous word's last issue where every path agrees on them, the engine
cycle on the first path, and the paths' last steps. -/
structure Arrival where
  pend : Pend
  gap : Option Nat
  clock : Nat
  via : List Via
  deriving DecidableEq, Repr

/-- A section to translate. -/
structure XlatIn where
  st : Stepping
  eng : Eng
  im : Image
  ops : List UmOp
  bodies : List Body
  entries : List Nat
  bad : List Nat

/-- What a translation holds: each operation's arrival, its wait before the first issue beyond the previous word's occupancy, and the flaws
by operation: code and DETAIL. -/
structure Xlat where
  pads : Pads
  at_ : SMap Arrival
  waits : SMap Nat
  flaws : List (Nat × Nat × Nat)
  deriving DecidableEq, Repr

/-- The word's part of a path: the wait, the state at the earliest next issue, the engine cycles from the first issue to it and from the
last; or a flaw. -/
def xlatWord (x : XlatIn) (i : Nat) (o : UmOp) (a : Arrival) : Except (Nat × Nat) (Nat × Pend × Nat × Nat) :=
  if o.cls ≠ 1 then .ok (0, pendAge 1 a.pend, 1, 1)
  else
    let w := opWord .blank x.eng o
    let r := umRecipe x.im o
    let n := wRepeat w
    let plan := issuePlan x.st x.eng w r
    let fmt := if x.eng = .mxe then some (mxA w) else none
    if x.bad.contains i ∨ n = 0 then .ok (0, a.pend, 0, 0)
    else
      match pendWait fmt plan n a.pend with
      | .ok t => .ok (t.1, t.2.1, t.2.2, (plan (n - 1)).occ)
      | .error (.order q, _) => .error (0xA, q)
      | .error (_, c) => .error (0xB, (a.clock + c) % 2 ^ 32)

/-- A path comes to an operation: it is new there, agrees with what came before, or paddings make the two agree. -/
def xlatArrive (t : Xlat) (j : Nat) (b : Arrival) : Xlat × Option Pads × Bool :=
  match tfind t.at_ j with
  | none => ({ t with at_ := tset t.at_ j b }, none, true)
  | some a =>
    if a.pend = b.pend then
      ({ t with at_ := tset t.at_ j { a with gap := if a.gap = b.gap then a.gap else none, via := a.via ++ b.via } }, none, false)
    else
      let fixed := fun (v : List Via) => v.any (· == Via.entry)
      match pendMeet a.pend b.pend with
      | some (p, q) =>
        if (p ≠ 0 ∧ fixed a.via) ∨ (q ≠ 0 ∧ fixed b.via) then ({ t with flaws := t.flaws ++ [(j, 0xB, b.clock % 2 ^ 32)] }, none, false)
        else (t, some (b.via.foldl (fun c v => padVia c v q) (a.via.foldl (fun c v => padVia c v p) t.pads)), false)
      | none => ({ t with flaws := t.flaws ++ [(j, 0xB, b.clock % 2 ^ 32)] }, none, false)

/-- One operation with its arrival: the paths on from it. -/
def xlatOp (x : XlatIn) (t : Xlat) (i : Nat) (o : UmOp) (a : Arrival) : Xlat × List (Nat × Arrival) :=
  let extra := tget t.pads.before i 0
  let a1 := { a with pend := pendAge extra a.pend, clock := a.clock + extra }
  match xlatWord x i o a1 with
  | .error f => ({ t with flaws := t.flaws ++ [(i, f.1, f.2)] }, [])
  | .ok (w, p, took, occ) =>
    let t1 := { t with waits := tset t.waits i (w + extra) }
    if isKind o 7 then
      match (upto 4).find? fun k => !(nth p.chains k []).isEmpty with
      | some k => ({ t1 with flaws := t1.flaws ++ [(i, 0xA, 56 + k)] }, [])
      | none => (t1, [])
    else if x.bad.contains i then (t1, [])
    else
      let go := fun (y : Nat × Via × Nat) =>
        let pad := match y.2.1 with
          | .past _ => tget t.pads.past i 0
          | _ => 0
        (y.1, (⟨pendAge (y.2.2 + pad) p, some (if pad = 0 then occ + y.2.2 else 1), a1.clock + w + took + y.2.2 + pad, [y.2.1]⟩ : Arrival))
      (t1, (flowFrom x.st x.ops x.bodies i o).map go)

/-- Follow every path from a work list until a join asks for padding. -/
def xlatWalk (x : XlatIn) : (fuel : Nat) → List (Nat × Arrival) → Xlat → Xlat × Option Pads
  | 0, _, t => (t, none)
  | _, [], t => (t, none)
  | f + 1, (j, b) :: work, t =>
    match x.ops[j]? with
    | none => xlatWalk x f work t
    | some o =>
      match xlatArrive t j b with
      | (t1, some p, _) => (t1, some p)
      | (t1, none, false) => xlatWalk x f work t1
      | (t1, none, true) =>
        let r := xlatOp x t1 j o b
        xlatWalk x f (work ++ r.2) r.1

/-- The walk with paddings grown until the paths agree, none above 4,096 engine cycles; `fuel` bounds the rounds. DESIGN CHOICE (log
entry 5): which paddings are added where several would do. -/
def xlatRounds (x : XlatIn) : (fuel : Nat) → Pads → Xlat
  | 0, p => ⟨p, [], [], [(0, 0xB, 0)]⟩
  | f + 1, p =>
    let start : List (Nat × Arrival) := x.entries.map fun i => (i, ⟨.start, some 0, 0, [.entry]⟩)
    match xlatWalk x (4 * (x.ops.length + x.entries.length) + 8) start ⟨p, [], [], []⟩ with
    | (t, none) => t
    | (t, some q) => if padOver q then { t with flaws := t.flaws ++ [(0, 0xB, 0)] } else xlatRounds x f q

/-- Operations that no word fits: cycle counting passes them over. -/
def looseOp (e : Eng) (o : UmOp) : Bool := !opDefined e o || (opBadField e o).isSome

/-- The translation of a section. -/
def sectXlat (st : Stepping) (im : Image) (e : Eng) (ops : List UmOp) (bad : List Nat) : Xlat :=
  let bs := bodiesOf ops
  let es := (entryOps im e).filter fun i => decide (i < ops.length) && depthAt bs i == 0
  xlatRounds ⟨st, e, im, ops, bs, es.eraseDups, bad⟩ (64 * (ops.length + 1)) ⟨[], []⟩

/-! The native words of a section (R119, R120). -/

def nopWord (delay : Nat) : ColWord := BitVec.ofNat 256 (2 ^ 4 + delay * 2 ^ 20)

/-- NOP words after which the next word may issue `n` engine cycles later: the first takes one, each other its DELAY. -/
def delayNops : (fuel : Nat) → (n : Nat) → List ColWord
  | 0, _ => []
  | f + 1, n => if n = 0 then [] else nopWord (Nat.min n 255) :: delayNops f (n - 255)
def padNops (n : Nat) : List ColWord := if n = 0 then [] else nopWord 0 :: delayNops n (n - 1)

/-- The words ahead of an operation's own and its DELAY: the wait is carried by the DELAY where it fits in one and the paths agree on the
cycles since the last issue, else by NOP words ahead (R120). -/
def leadOf (t : Xlat) (i : Nat) : List ColWord × Nat :=
  let w := tget t.waits i 0
  let gap := (tfind t.at_ i).bind Arrival.gap
  if w = 0 then ([], 0)
  else
    match gap with
    | some g => if g + w ≤ 255 then ([], g + w) else leadNops w
    | none => leadNops w
where
  leadNops (w : Nat) : List ColWord × Nat :=
    (nopWord 0 :: List.replicate ((w - 1) / 255) (nopWord 255), w - 255 * ((w - 1) / 255))

/-- Native words of one operation: those ahead of it, its own, those after it. -/
def opLen (t : Xlat) (i : Nat) : Nat := (leadOf t i).1.length + 1 + (padNops (tget t.pads.past i 0)).length

/-- First native word of each operation, one more for the end. -/
def opStarts (t : Xlat) (n : Nat) : List Nat :=
  ((upto n).foldl (fun (a : Nat × List Nat) i => (a.1 + opLen t i, (a.1 + opLen t i) :: a.2)) (0, [0])).2.reverse

/-- Native words from one operation's first to another's. -/
def opSpan (starts : List Nat) (a b : Nat) : Nat := nth starts b 0 - nth starts a 0

/-- The native words of one operation; BODY and OFFSET in native words. DESIGN CHOICE (log entry 105): an OFFSET that no longer fits its
signed 16 bits is stored modulo 2^16. -/
def opNative (r : Resolve) (e : Eng) (t : Xlat) (starts : List Nat) (i : Nat) (o : UmOp) : List ColWord :=
  let lead := leadOf t i
  let w := putField (opWord r e o) 20 8 lead.2
  let own := nth starts i 0 + lead.1.length
  let w1 :=
    if o.cls = 0 ∧ o.code = 2 then putField w 35 12 (opSpan starts (i + 1) (i + 1 + fieldOr o.fields 3))
    else if o.cls = 0 ∧ o.code = 3 then
      putField w 64 16 (BitVec.ofInt 16 (((nth starts (branchTo o i).toNat 0 : Nat) : Int) - own)).toNat
    else w
  lead.1 ++ [w1] ++ padNops (tget t.pads.past i 0)

/-- The translation that places a section and writes its words. -/
def sectTrans (s : State) (im : Image) (e : Eng) (x : Sect) : Xlat :=
  let ops := (sectOps im x).1
  sectXlat s.fuses.stepping im e ops ((upto ops.length).filter fun i => (ops[i]?).any (looseOp e))

def sectNative (s : State) (im : Image) (r : Resolve) (e : Eng) (x : Sect) : List ColWord :=
  let ops := (sectOps im x).1
  let t := sectTrans s im e x
  let starts := opStarts t ops.length
  ops.zipIdx.flatMap fun y => opNative r e t starts y.2 y.1
def sectBytes (e : Eng) (ws : List ColWord) : List Byte := ws.flatMap fun w => bytesOfNat (wordStride e) w.toNat

/-- The sections of a logical pot's program region, each from a multiple of 32 B, with their byte offsets (log entry 33). -/
def progSects (im : Image) (lp : Nat) : List (Eng × Sect) :=
  (imSects im).filterMap fun x => if onPot x lp then (stypeEng x.stype).map fun e => (e, x) else none
def sectStarts (s : State) (im : Image) (y : Eng × Sect) : List Nat := opStarts (sectTrans s im y.1 y.2) (sectOps im y.2).1.length
def sectSize (s : State) (im : Image) (y : Eng × Sect) : Nat :=
  ceilDiv (nth (sectStarts s im y) (sectOps im y.2).1.length 0 * wordStride y.1) 32 * 32
def sectPlaces (s : State) (im : Image) (lp : Nat) : List ((Eng × Sect) × Nat) :=
  ((progSects im lp).foldl (fun (a : Nat × List ((Eng × Sect) × Nat)) y => (a.1 + sectSize s im y, (y, a.1) :: a.2)) (0, [])).2.reverse
def progSize (s : State) (im : Image) (lp : Nat) : Nat := ((progSects im lp).map (sectSize s im)).sum
/-- The native ENTRY of an operation of a logical pot's section. -/
def nativeEntry (s : State) (im : Image) (lp : Nat) (e : Eng) (op : Nat) : Nat :=
  match engSect im e lp with
  | none => 0
  | some x =>
    let base := (((sectPlaces s im lp).find? fun y => y.1.2 == x).map Prod.snd).getD 0
    base / wordStride e + nth (sectStarts s im (e, x)) op 0

end Sys2Proof.Machine
end

