-- ==== Sys2Proof/Machine/Strainer.lean ====
section
/-!
DEFINITION. Verification by the strainer (R122): the rules of one word, the paths of a section, and the accumulator modes and FTQ formats
along them.
-/

namespace Sys2Proof.Machine

/-! Ends and granules of an operation (R82, R208 to R210, R231, R263, R269). -/

/-- Input and output ends with the bytes an issue pops or pushes there, scales' companions included; 0 where it varies. -/
def opEnds (e : Eng) (table : BitVec 256) (w : ColWord) : List (Nat × Nat) × List (Nat × Nat) :=
  let op := fieldN w 32 4
  let keep := fun (l : List (Nat × Nat)) => l.filter fun x => x.1 != 63
  match e with
  | .mxe =>
    if op ≤ 2 then
      let k := mxKlen w
      let half := if op = 1 then 2 else 1
      (keep ([(mxQA w, k / 32 * 128 * mxRowBytes (mxA w)), (mxQB w, k / 32 * 128 * mxRowBytes (mxB w) / half)] ++
        (if op = 0 then [] else [(mxQM w, if op = 1 then 16 * k else k / 16)]) ++
        (if isMx (mxA w) then [(mxQA w + 1, 4 * k)] else []) ++ (if isMx (mxB w) then [(mxQB w + 1, 4 * k)] else [])), [])
    else if op = 3 then
      (keep [(mxQBias w, 512)],
        keep ((mxQO w, flushBytes w) :: (if isMx (mxOfmt w) && isTray (mxQO w) then [(mxQO w + 1, 512)] else [])))
    else ([], [])
  | .vxe =>
    let g := vxG w
    let ins := (upto 4).flatMap fun k => (vxIn w k, vxBytes g (vxIfmt w)) ::
      (if isMx (vxIfmt w) && isTray (vxIn w k) then [(vxIn w k + 1, g / 32)] else [])
    let outs := (upto 2).flatMap fun k =>
      if op = 1 then [(vxOut w k, 32)]
      else if op = 3 then (if k = 0 then [(vxOut w 0, 32)] else [])
      else (vxOut w k, vxBytes g (vxOfmt w)) :: (if isMx (vxOfmt w) && isTray (vxOut w k) then [(vxOut w k + 1, g / 32)] else [])
    (keep (ins ++ [(vxMask w, g / 8)]), keep outs ++ (if op = 3 ∧ vxOut w 1 = 49 then [(49, 0)] else []))
  | .sfe =>
    let row := 32 * sdRowW table
    let sums := if op = 0 then ceilDiv (4 * (256 * sdRowW table / Nat.max 1 (elemBits (sfFmt w)))) 32 * 32 else 512
    let ix := [(sfIdx w, if op = 4 then 0 else 4), (sfOff w, 4), (sfWt w, 4)]
    if op = 2 then (keep (ix ++ [(sfDst w, row)]), [])
    else if op = 5 then (keep [(sfDst w, row)], [])
    else (keep ix, keep [(sfDst w, if op = 1 then row else if op = 4 then 0 else sums)])

/-! Word rules (XV_ENCODING, XV_FORMAT, XV_QUEUE_ORDER). -/

/-- What the rules of one section's words look at. -/
structure Straining where
  s : State
  im : Image
  lp : Nat
  pot : PotIx
  eng : Eng
  sect : Sect
  r : Resolve
  ops : List UmOp

/-- The declared queue behind a native queue id of the logical pot. -/
def nativeDecl (c : Straining) (q : Nat) : Option Decl := (declsIn c.im 1).find? fun d => dField d 1 == c.lp && c.r.queue d.lid == q
/-- The table that an SFE operation names, or one after it; the empty one where it names none. -/
def umTable (im : Image) (o : UmOp) (k : Nat) : BitVec 256 :=
  match (namedId (fieldGiven o.fields 5)).bind fun i => declNamed im 7 (i + k) with
  | some d => declTable im d
  | none => 0
def opEndsOf (c : Straining) (o : UmOp) (w : ColWord) : List (Nat × Nat) × List (Nat × Nat) :=
  opEnds c.eng (umTable c.im o (if o.code = 5 then 1 else 0)) w

/-- The companion of an MX queue: declared with the same PUSHER and POPPER (R209). -/
def companionOk (c : Straining) (q : Nat) : Bool :=
  match nativeDecl c q, nativeDecl c (q + 1) with
  | some a, some b => dField a 5 == dField b 5 && dField a 6 == dField b 6 && decide (q ≤ 46)
  | _, _ => false

/-- DISPATCH operations of the logical pot on one logical table. -/
def dispatchesOn (c : Straining) (table : Option Nat) : List ColWord :=
  ((progSects c.im c.lp).filter fun y => y.1 == .sfe).flatMap fun y =>
    ((sectOps c.im y.2).1.filter fun o => o.cls == 1 && o.code == 4 && namedId (fieldGiven o.fields 5) == table).map (opWord c.r .sfe)

/-- COMBINE's REPEAT is (NEXP + 1) × CAP: a multiple of NEXP + 1, and what every DISPATCH on its route area makes it (R282). -/
def combineFits (c : Straining) (o : UmOp) (w : ColWord) : Bool :=
  wRepeat w != 0 && wRepeat w % (sfNexp w + 1) == 0 &&
    (dispatchesOn c (namedId (fieldGiven o.fields 5))).all fun d => sfNexp d == sfNexp w && wRepeat w == (sfNexp w + 1) * sfCap d

/-- A format rule fails; DETAIL is the format code (R122, R207, R209, R218, R221, R244, R251, R254, R263, R269, R277, R282). -/
def formatFlaw (c : Straining) (o : UmOp) (w : ColWord) : Option Nat :=
  let op := fieldN w 32 4
  let bad := fun (b : Bool) (f : Nat) => if b then some f else none
  let mx := fun (f q : Nat) => isMx f && q != 63 && q != 48 && !(isTray q && companionOk c q)
  let whole := fun (l : List (Nat × Nat)) => l.any fun x =>
    x.2 != 0 && (nativeDecl c x.1).any fun d => decide (x.2 > 2 ^ dField d 3) || 2 ^ dField d 3 % x.2 != 0
  let ends := opEndsOf c o w
  match c.eng with
  | .mxe =>
    if op ≤ 2 then
      (bad ((mxPair (mxA w) (mxB w)).isNone || decide (mxKlen w < 32) || mxKlen w % 32 != 0) (mxA w)).or
        ((bad (mx (mxA w) (mxQA w)) (mxA w)).or ((bad (mx (mxB w) (mxQB w)) (mxB w)).or (bad (whole ends.1) (mxA w))))
    else if op = 3 then
      bad (decide (12 < mxOfmt w) || (mxRnd w == 1 && !stochasticFmt (mxOfmt w)) || (isTray (mxQO w) && mx (mxOfmt w) (mxQO w)) ||
        whole ends.1 || whole ends.2) (mxOfmt w)
    else none
  | .vxe =>
    let nq := vxNq w
    let rows := op != 0 && (vxRowLen w == 0 || wRepeat w % nq != 0)
    let gate := op == 3 && (decide (256 < vxRowLen w) || !inRange (vxKgate w) 1 8)
    let soft := op == 2 && (nativeDecl c (vxOut w 0)).any fun d => decide (2 ^ dField d 2 < nq * vxBytes (vxG w) (vxOfmt w))
    (bad (decide (13 < vxIfmt w) || (upto 4).any (fun k => isTray (vxIn w k) && mx (vxIfmt w) (vxIn w k)) || whole ends.1) (vxIfmt w)).or
      (bad (decide (13 < vxOfmt w) || (vxStoch w && !stochasticFmt (vxOfmt w)) ||
        (upto 2).any (fun k => isTray (vxOut w k) && mx (vxOfmt w) (vxOut w k)) || whole ends.2 || rows || gate || soft) (vxOfmt w))
  | .sfe =>
    let t := umTable c.im o 0
    let sums := decide (4 < sfFmt w) || (op == 3 && sfFmt w == 0)
    let bag := op == 3 && (!sdModule t || decide (128 < sdRowW t * (256 / Nat.max 1 (elemBits (sfFmt w)))) || sdScratchN t == 0)
    bad ((op != 4 && decide (13 < sfFmt w)) || ((op == 0 || op == 3 || op == 5 || (op == 2 && sfAccum w)) && sums) || bag ||
      (op == 5 && !combineFits c o w) || whole ends.1 || whole ends.2) (sfFmt w)

/-- The ends that an MXE word may name, by place (R92, R221, R224). -/
def mxEndFlaw (w : ColWord) : Option Nat :=
  let op := fieldN w 32 4
  let bad := fun (b : Bool) (q : Nat) => if b then some q else none
  let optTray := fun (q : Nat) => q == 63 || isTray q
  if op ≤ 2 then
    (bad (!(isTray (mxQA w) || (isChain (mxQA w) && op == 0 && mxKlen w == 128 && mxChainFmt (mxA w)))) (mxQA w)).or
      ((bad (!isTray (mxQB w)) (mxQB w)).or (bad (!(if op = 0 then mxQM w == 63 else isTray (mxQM w))) (mxQM w)))
  else if op = 3 then
    (bad (!(isTray (mxQO w) || mxQO w == 48 || (isChain (mxQO w) && mxChainFmt (mxOfmt w)))) (mxQO w)).or
      (bad (!optTray (mxQBias w)) (mxQBias w))
  else none

/-- The ends that a VXE word may name, by place (R233). -/
def vxEndFlaw (w : ColWord) : Option Nat :=
  let op := fieldN w 32 4
  let bad := fun (b : Bool) (q : Nat) => if b then some q else none
  let in_ := fun (q : Nat) => q == 63 || isTray q || q == 48 || (isChain q && !isMx (vxIfmt w))
  let out_ := fun (q : Nat) => q == 63 || isTray q || (isChain q && !isMx (vxOfmt w))
  let mask := q63 (vxMask w) || isTray (vxMask w) || isChain (vxMask w)
  (((upto 4).find? fun k => !in_ (vxIn w k)).map (vxIn w)).or
    ((bad (!mask) (vxMask w)).or ((bad (!out_ (vxOut w 0)) (vxOut w 0)).or
      (bad (if op = 3 then vxOut w 1 != 49 else !out_ (vxOut w 1)) (vxOut w 1))))
where
  q63 (q : Nat) : Bool := q == 63

/-- The ends that an SFE word may name, by place (R263). -/
def sfEndFlaw (w : ColWord) : Option Nat :=
  let op := fieldN w 32 4
  let bad := fun (b : Bool) (q : Nat) => if b then some q else none
  let csr := op == 0 || op == 3
  (bad (!(if op = 4 then sfIdx w == 49 else if op = 5 then sfIdx w == 63 else isTray (sfIdx w))) (sfIdx w)).or
    ((bad (!(if csr then isTray (sfOff w) else sfOff w == 63)) (sfOff w)).or
      ((bad (!(sfWt w == 63 || (isTray (sfWt w) && (csr || (op == 2 && sfAccum w))))) (sfWt w)).or
        (bad (!isTray (sfDst w)) (sfDst w))))

/-- A queue rule fails; DETAIL is the queue id (R57, R122, R221, R233, R239, R263). -/
def queueFlaw (c : Straining) (o : UmOp) (w : ColWord) : Option Nat :=
  let op := fieldN w 32 4
  let ends := opEndsOf c o w
  let placed := match c.eng with
    | .mxe => mxEndFlaw w
    | .vxe => vxEndFlaw w
    | .sfe => sfEndFlaw w
  let agent := engNo c.eng
  let badIn := ends.1.find? fun x => (nativeDecl c x.1).any fun d => dField d 6 != agent
  let badOut := ends.2.find? fun x => (nativeDecl c x.1).any fun d => dField d 5 != agent
  let masked := c.eng == .vxe && vxMask w != 63 && !vxZero w && (op == 0 || op == 2)
  let keep := if masked then (upto 2).find? fun k => vxWrites op w (umRecipe c.im o) k && vxIn w k == 63 else none
  (placed.or ((badIn.map Prod.fst).or (badOut.map Prod.fst))).or (keep.map fun k => vxOut w k)

/-- A stream's queue: pushed in, or popped out, by the stream unit (R56, R122). -/
def streamFlaw (c : Straining) (w : ColWord) : Option Nat :=
  let q := fieldN w 50 6
  match nativeDecl c q with
  | some d => if (if bitAt w 35 then dField d 6 else dField d 5) = 3 then none else some q
  | none => some q

/-- What is left of the hardware's own checks of a word. -/
def wordFits (c : Straining) (o : UmOp) : Bool :=
  let w := opWord c.r c.eng o
  let r := umRecipe c.im o
  wordOk w && (wKind w != kindSync || syncOk w) && (wKind w != kindOp ||
    (opCodeOk c.eng w && match c.eng with
      | .mxe => if fieldN w 32 4 ≤ 2 then mmaOk w (fieldN w 32 4) else if fieldN w 32 4 = 3 then flushOk w else zeroOk w
      | .vxe => vxFieldsOk true w && vxVopOk (fieldN w 32 4) w && vxRecipeOk (fieldN w 32 4) w r
      | .sfe => sfFieldsOk w (fieldN w 32 4)))

/-- The field whose value is outside its encoding: the first given one without which the word would fit; 0 where none alone is to blame
(R122; log entry 33). -/
def badFid (c : Straining) (o : UmOp) : Nat :=
  let without := fun (k : Nat) => { o with fields := o.fields.filter fun x => x.1 != k }
  ((upto 32).find? fun k => (o.fields.any fun x => x.1 == k) && wordFits c (without k)).getD 0

/-- An output that a non-null QOUT names and the recipe never writes; DETAIL is the declaration's first FID (R237). -/
def unwrittenOut (c : Straining) (o : UmOp) (w : ColWord) : Bool :=
  let r := umRecipe c.im o
  c.eng == .vxe && o.cls == 1 && (upto (if fieldN w 32 4 = 0 then 2 else 1)).any fun k => vxOut w k != 63 && !recipeWrites r k

/-- The rules of one operation. -/
def opFlaws (c : Straining) (bs : List Body) (i : Nat) (o : UmOp) : List LoadEnd :=
  let f := fun (code d : Nat) => (⟨code, 5, c.lp, c.sect.ix, o.off, d⟩ : LoadEnd)
  let n := c.ops.length
  let target := fun (j : Nat) => (nth c.ops j ⟨c.sect.off + c.sect.len, 0, 0, true, []⟩).off
  if !opDefined c.eng o then [f 3 0]
  else
    match opBadField c.eng o with
    | some k => [f 3 k]
    | none =>
      let w := opWord c.r c.eng o
      let ctl :=
        if isKind o 2 ∧ fieldOr o.fields 3 = 0 then [f 3 3]
        else if isKind o 2 then
          let stop := i + 1 + fieldOr o.fields 3
          flawIf (fieldOr o.fields 1 != depthAt bs i || decide (n < stop) || (innerBody bs i).any fun b => decide (b.stop < stop))
            (f 8 (target stop))
        else if isKind o 3 then flawIf (!targetIn bs n i (branchTo o i)) (f 8 (target (branchTo o i).toNat))
        else if isKind o 4 ∧ fieldOr o.fields 1 = 11 then
          flawIf (decide (fieldOr o.fields 2 % 4 < depthAt bs i)) (f 9 (fieldOr o.fields 2 % 4))
        else []
      let fmt := if o.cls = 1 then formatFlaw c o w else none
      let que := if o.cls = 1 then queueFlaw c o w else if isKind o 5 then streamFlaw c w else none
      ctl ++ (match fmt with
        | some d => [f 7 d]
        | none => []) ++ (match que with
        | some d => [f 0xA d]
        | none => []) ++ flawIf (unwrittenOut c o w) (f 3 1) ++
        flawIf (fmt.isNone && que.isNone && ctl.isEmpty && !wordFits c o) (f 3 (badFid c o))

/-! Paths: accumulator modes, the end of the section (R214). -/

/-- For each accumulator set the modes it may have taken: bit 0 float, bit 1 integer. One operation along a path: the modes after it, or the
format that mixes them. -/
def modeStep (c : Straining) (o : UmOp) (a : List Nat) : Except Nat (List Nat) :=
  let w := opWord c.r c.eng o
  let op := fieldN w 32 4
  let k := (mxAcc w).toNat
  if o.cls ≠ 1 ∨ c.eng ≠ .mxe ∨ wRepeat w = 0 then .ok a
  else if op ≤ 2 then
    match mxPair (mxA w) (mxB w) with
    | none => .ok a
    | some p =>
      let m := if p.2 then 2 else 1
      if nth a k 0 ||| m = 3 then .error (mxA w) else .ok (setNth a k m)
  else .ok (setNth a k 0)

/-- Follow every path from a work list; a path stops at an operation that has a flaw of its own, and at one that is not whole. -/
def modeRun (c : Straining) (bs : List Body) (bad : List Nat) (whole : Bool) :
    (fuel : Nat) → (work : List (Nat × List Nat)) → (seen : SMap (List Nat)) → (out : List LoadEnd) → List LoadEnd
  | 0, _, _, out => out
  | _, [], _, out => out
  | f + 1, (i, a) :: work, seen, out =>
    let flaw := fun (j code d : Nat) =>
      (⟨code, 5, c.lp, c.sect.ix, (nth c.ops j ⟨c.sect.off + c.sect.len, 0, 0, true, []⟩).off, d⟩ : LoadEnd)
    match c.ops[i]? with
    | none =>
      modeRun c bs bad whole f work seen (if whole then flaw (c.ops.length - 1) 8 (c.sect.off + c.sect.len) :: out else out)
    | some o =>
      let m := match tfind seen i with
        | some b => (a.zip b).map fun x => x.1 ||| x.2
        | none => a
      if tfind seen i = some m then modeRun c bs bad whole f work seen out
      else if bad.contains i then modeRun c bs bad whole f work (tset seen i m) out
      else
        match modeStep c o m with
        | .error d => modeRun c bs bad whole f work (tset seen i m) (flaw i 7 d :: out)
        | .ok t =>
          modeRun c bs bad whole f (work ++ (flowFrom c.s.fuses.stepping c.ops bs i o).map fun j => (j.1, t)) (tset seen i m) out

/-- The flaws along the paths of a section; an entry point inside a body is a branch into it. -/
def pathFlaws (c : Straining) (bs : List Body) (bad : List Nat) (whole : Bool) : List LoadEnd :=
  let off := fun (i : Nat) => (nth c.ops i ⟨0, 0, 0, true, []⟩).off
  let es := (entryOps c.im c.eng).filter fun i => decide (i < c.ops.length)
  let inside := es.flatMap fun i => flawIf (depthAt bs i != 0) ⟨8, 5, c.lp, c.sect.ix, off i, off i⟩
  let t := sectXlat c.s.fuses.stepping c.im c.eng c.ops bad
  inside ++ (t.flaws.map fun x => ⟨x.2.1, 5, c.lp, c.sect.ix, off x.1, x.2.2⟩) ++
    modeRun c bs bad whole (40 * (c.ops.length + 1)) ((es.filter fun i => depthAt bs i == 0).map fun i => (i, [0, 0])) [] []

/-- The NOPs push a loop body past 4,095 native words; found when the words are counted, it arises in phase 4 (R112, R120). -/
def bodyFlaws (s : State) (im : Image) (lp : Nat) (y : Eng × Sect) : List LoadEnd :=
  let starts := sectStarts s im y
  (sectOps im y.2).1.zipIdx.flatMap fun x =>
    flawIf (isKind x.1 2 && decide (4095 < opSpan starts (x.2 + 1) (x.2 + 1 + fieldOr x.1.fields 3)))
      ⟨6, 4, lp, y.2.ix, x.1.off, 7⟩

/-- Phase 5 on one section of one logical pot. -/
def sectFlaws (c : Straining) : List LoadEnd :=
  let bs := bodiesOf c.ops
  let cut := match (sectOps c.im c.sect).2 with
    | some o => [⟨3, 5, c.lp, c.sect.ix, o, 0⟩]
    | none => []
  let each := c.ops.zipIdx.map fun x => (x.2, opFlaws c bs x.2 x.1)
  let bad := (each.filter fun x => !x.2.isEmpty).map Prod.fst
  cut ++ each.flatMap Prod.snd ++ pathFlaws c bs bad cut.isEmpty

/-- The format that a word gives the FTQ (R225). -/
def ftqFormat (c : Straining) (o : UmOp) : Option Nat :=
  let w := opWord c.r c.eng o
  if o.cls ≠ 1 then none
  else
    match c.eng with
    | .mxe => if fieldN w 32 4 = 3 ∧ mxQO w = 48 then some (mxOfmt w) else none
    | .vxe => if (upto 4).any fun k => vxIn w k == 48 then some (vxIfmt w) else none
    | .sfe => none

/-- Every word of a logical pot that names the FTQ names one format. -/
def ftqFlaws (cs : List Straining) : List LoadEnd :=
  let all := cs.flatMap fun c => c.ops.filterMap fun o => (ftqFormat c o).map fun f => (c, o, f)
  match all with
  | [] => []
  | (_, _, f0) :: l => l.flatMap fun x => flawIf (x.2.2 != f0) ⟨7, 5, x.1.lp, x.1.sect.ix, x.2.1.off, x.2.2⟩

end Sys2Proof.Machine
end

