-- ==== Sys2Proof/Machine/Bounds.lean ====
section
/-!
DEFINITION. The bounds proof of the strainer (R124, R267): address registers as intervals over the structured loops of a section, the
bytes a stream can touch, argument envelopes, and the SFE tables.
-/

namespace Sys2Proof.Machine

/-! Intervals (R124 step 2). -/

/-- What is known of a register: an interval with the power of two that its values share with the low end, an argument plus such an
interval, or neither. -/
inductive AVal where
  | known (lo hi : Int) (al : Nat)
  | arg (i : Nat) (lo hi : Int) (al : Nat)
  | other
  deriving DecidableEq, Repr

/-- Trailing zeros, at most `n`; 64 for 0. -/
def zerosUpTo : (n : Nat) → Nat → Nat
  | 0, _ => 0
  | n + 1, v => if v % 2 = 1 then 0 else 1 + zerosUpTo n (v / 2)
def alignOf (v : Int) : Nat := if v = 0 then 64 else zerosUpTo 11 v.natAbs

def exact (v : Int) : AVal := .known v v 64
def avExact : AVal → Option Int
  | .known lo hi _ => if lo = hi then some lo else none
  | _ => none

def avAdd : AVal → AVal → AVal
  | .known a b k, .known c d m => .known (a + c) (b + d) (Nat.min k m)
  | .arg i a b k, .known c d m => .arg i (a + c) (b + d) (Nat.min k m)
  | .known c d m, .arg i a b k => .arg i (a + c) (b + d) (Nat.min k m)
  | _, _ => .other

def avNeg : AVal → AVal
  | .known a b k => .known (-b) (-a) (Nat.min k (alignOf (b - a)))
  | _ => .other

/-- The hull of two values. -/
def avJoin (x y : AVal) : AVal :=
  if x = y then x
  else
    match x, y with
    | .known a b k, .known c d m => .known (min a c) (max b d) (Nat.min (Nat.min k m) (alignOf (a - c)))
    | .arg i a b k, .arg j c d m => if i = j then .arg i (min a c) (max b d) (Nat.min (Nat.min k m) (alignOf (a - c))) else .other
    | _, _ => .other

/-- A register of which nothing is known but that no argument is in it. -/
def avFull : AVal := .known 0 (2 ^ 48 - 1) 0
/-- An interval that no 48-bit register holds is given up. -/
def avFit : AVal → AVal
  | .known lo hi al => if -2 ^ 47 ≤ lo ∧ hi < 2 ^ 48 then .known lo hi al else avFull
  | v => v
/-- Values that read the same signed and unsigned, or only as signed. -/
def avSigned (lo hi : Int) : Bool := decide (-2 ^ 47 ≤ lo ∧ hi < 2 ^ 47)

/-- Shifts by an amount in an interval; an amount that is negative as signed is 48 or more. -/
def avShl : AVal → AVal → AVal
  | .known a b k, .known p q _ =>
    if q < 0 ∨ 48 ≤ p then exact 0
    else if p < 0 then avFull
    else if p = q then avFit (.known (a * 2 ^ p.toNat) (b * 2 ^ p.toNat) (k + p.toNat))
    else if a < 0 then avFull
    else avFit (.known (if 48 ≤ q then 0 else a * 2 ^ p.toNat) (b * 2 ^ (min 47 q).toNat) k)
  | _, _ => .other
def avShr (signed : Bool) : AVal → AVal → AVal
  | .known a b k, .known p q _ =>
    let down := fun (v : Int) (n : Int) => v / 2 ^ (min 48 n).toNat
    if p < 0 ∧ 0 ≤ q then avFull
    else
      let p1 := if q < 0 then 48 else p
      let q1 := if q < 0 then 48 else q
      if 0 ≤ a ∧ (!signed ∨ b < 2 ^ 47) then
        .known (down a q1) (down b p1) (if p1 = q1 ∧ a = b then 64 else if p1 = q1 ∧ a % 2 ^ (min 48 p1).toNat = 0 then k - p1.toNat else 0)
      else if signed && avSigned a b then .known (min (down a p1) (down a q1)) (max (down b p1) (down b q1)) 0
      else avFull
  | _, _ => .other
def avPick (lt : Int → Int → Int) : AVal → AVal → AVal
  | .known a b _, .known c d _ =>
    if avSigned a b && avSigned c d then .known (lt a c) (lt b d) (if a = b ∧ c = d then 64 else 0) else avFull
  | _, _ => .other
def avBit : AVal → AVal → AVal
  | .known _ _ _, .known _ _ _ => .known 0 1 0
  | _, _ => .other
/-- LUI: bits [47:32] replaced. -/
def avLui (imm : Int) : AVal → AVal
  | .known a b k =>
    let up := imm % 2 ^ 16 * 2 ^ 32
    let back := if 2 ^ 47 ≤ up then up - 2 ^ 48 else up
    if a / 2 ^ 32 = b / 2 ^ 32 then .known (a % 2 ^ 32 + back) (b % 2 ^ 32 + back) (Nat.min k 32) else .known back (back + 2 ^ 32 - 1) 0
  | _ => .other

/-! Registers through SCALAR (R76). -/

/-- Address and loop count registers, and the next address of each generator the command has started. -/
structure AState where
  ax : List AVal
  lc : List AVal
  ag : List AVal
  deriving DecidableEq, Repr

/-- ax0 to ax3 are the arguments; the others and lc are zero (R63); no generator has been started. -/
def AState.start : AState :=
  ⟨((upto 4).map fun i => .arg i 0 0 64) ++ List.replicate 12 (exact 0), List.replicate 4 (exact 0), List.replicate 8 .other⟩
def asAx (a : AState) (i : Nat) : AVal := nth a.ax i .other
def asLc (a : AState) (i : Nat) : AVal := nth a.lc i .other
/-- Register by register. -/
def asZip (f : AVal × AVal → AVal) (a b : AState) : AState := ⟨(a.ax.zip b.ax).map f, (a.lc.zip b.lc).map f, (a.ag.zip b.ag).map f⟩
def asJoin (a b : AState) : AState := asZip (fun x => avJoin x.1 x.2) a b
/-- What differs is given up. -/
def asWiden (a b : AState) : AState := asZip (fun x => if x.1 = x.2 then x.1 else .other) a b

/-- The result of an SOP on its operands. -/
def avScalar (sop : Nat) (a b : AVal) (imm : Int) : AVal :=
  match sop with
  | 0 => avFit (avAdd a b)
  | 1 => avFit (avAdd a (avNeg b))
  | 2 => avShl a b
  | 3 => avShr false a b
  | 4 => avShr true a b
  | 5 => avPick min a b
  | 6 => avPick max a b
  | 7 => avBit a b
  | 8 => avBit a b
  | 9 => avLui imm a
  | 10 => exact imm
  | _ => .other

/-- A SCALAR operation; LUI changes the upper bits of its own destination. -/
def asScalar (o : UmOp) (a : AState) : AState :=
  let f := fieldOr o.fields
  let sop := f 1
  let imm := (BitVec.ofNat 32 (f 6)).toInt
  let b := if f 5 = 1 then exact imm else asAx a (f 4)
  if sop = 11 then
    { a with lc := setNth a.lc (f 2 % 4) (match asAx a (f 3) with
      | .known lo hi k => if 0 ≤ lo ∧ hi < 2 ^ 32 then .known lo hi k else .known 0 (2 ^ 32 - 1) 0
      | v => v) }
  else if sop = 12 then { a with ax := setNth a.ax (f 2) (asLc a (f 3 % 4)) }
  else if sop = 13 then { a with ax := setNth a.ax (f 2) (nth a.ag (f 3 % 8) .other) }
  else { a with ax := setNth a.ax (f 2) (avScalar sop (asAx a (if sop = 9 then f 2 else f 3)) b imm) }

/-! What a descriptor reaches (R79, R80). -/

/-- Least and greatest byte offset of a descriptor's bursts, and the power of two of its steps. -/
def descReach (d : BitVec 256) : Int × Int × Nat :=
  let moves := (upto 4).filterMap fun k =>
    let n := fieldN d (128 + 16 * k) 16
    if n = 0 then none else some ((fieldB d (32 * k) 32).toInt, n)
  (((moves.map fun m => min 0 (m.1 * (m.2 : Int))).sum), (moves.map fun m => max 0 (m.1 * (m.2 : Int))).sum + 2 ^ fieldN d 240 4 - 1,
    (moves.map fun m => alignOf m.1).foldl Nat.min 64)

/-- The descriptor of a STREAM operation; the null one where it names none (R104). -/
def streamDesc (im : Image) (o : UmOp) : BitVec 256 :=
  (((namedId (fieldGiven o.fields 6)).bind (declNamed im 5)).map declDesc).getD 0

/-- Addresses of a descriptor's bursts. -/
def descStarts (d : BitVec 256) : AVal :=
  let r := descReach d
  let b : Int := fieldN d 192 48
  .known (b + r.1) (b + r.2.1 - 2 ^ fieldN d 240 4 + 1) (Nat.min r.2.2 (alignOf b))

/-! Runs (R124 steps 1 to 3). -/

/-- What a path asks of the arguments and of memory: a stream's base, a count that reaches lc[level], a loop's count. -/
inductive Need where
  | stream (op : Nat) (base : AVal)
  | count (op level : Nat) (v : AVal)
  | loop (op level : Nat) (v : AVal)
  deriving DecidableEq, Repr

structure ARun where
  at_ : SMap AState
  back : List (Nat × AState)
  out : Option AState
  needs : List Need

/-- A state arrives at an operation. -/
def arrive (stop i : Nat) (a : AState) (r : ARun) : ARun :=
  if i = stop then { r with out := some (match r.out with
    | none => a
    | some b => asJoin b a) }
  else { r with at_ := tset r.at_ i (match tfind r.at_ i with
    | none => a
    | some b => asJoin b a) }

/-- A value that moves by a step in each of `n` runs of a body: its hull over 0 to n − 1 runs, and over 0 to n. -/
def avSpan (old new : AVal) (n : Nat) : AVal :=
  match old, new with
  | .known a b k, .known c d m =>
    .known (a + min 0 ((c - a) * n)) (b + max 0 ((d - b) * n)) (Nat.min (Nat.min k m) (alignOf (c - a)))
  | .arg i a b k, .arg j c d m =>
    if i = j then .arg i (a + min 0 ((c - a) * n)) (b + max 0 ((d - b) * n)) (Nat.min (Nat.min k m) (alignOf (c - a))) else .other
  | _, _ => .other
/-- The value after exactly `n` runs. -/
def avAfter (old new : AVal) (n : Nat) : AVal :=
  match old, new with
  | .known a b k, .known c d m => .known (a + (c - a) * n) (b + (d - b) * n) (Nat.min (Nat.min k m) (alignOf (c - a)))
  | .arg i a b k, .arg j c d m =>
    if i = j then .arg i (a + (c - a) * n) (b + (d - b) * n) (Nat.min (Nat.min k m) (alignOf (c - a))) else .other
  | _, _ => .other

def spread (f : AVal → AVal → Nat → AVal) (n : Nat) (a b : AState) : AState :=
  asZip (fun x => if x.1 = x.2 then x.1 else f x.1 x.2 n) a b

/-- Registers whose step over one run differs between two entries of a body are given up. -/
def sameStep (a b c d : AVal) : Bool :=
  match a, b, c, d with
  | .known p q _, .known r s _, .known t u _, .known v w _ => r - p == v - t && s - q == w - u
  | .arg _ p q _, .arg _ r s _, .arg _ t u _, .arg _ v w _ => r - p == v - t && s - q == w - u
  | _, _, _, _ => c == d || c == .other
def giveUp (a b c d : AState) : AState :=
  let g := fun (x : (AVal × AVal) × (AVal × AVal)) => if sameStep x.1.1 x.1.2 x.2.1 x.2.2 then x.1.1 else .other
  let on := fun (f : AState → List AVal) => (((f a).zip (f b)).zip ((f c).zip (f d))).map g
  ⟨on AState.ax, on AState.lc, on AState.ag⟩

/-- A loop: its body from the entry state, at its greatest count. `body` gives the state after one run; the answer is the state that
covers every run's entry, and the state after the loop. -/
def loopRuns (body : AState → Option AState) (n : Nat) (fixed : Bool) : (fuel : Nat) → AState → AState × AState
  | 0, a => (a, a)
  | f + 1, a =>
    match body a with
    | none => (a, a)
    | some b =>
      let w := spread avSpan (n - 1) a b
      match body w with
      | none => (w, w)
      | some d =>
        let a1 := giveUp a b w d
        if a1 = a ∨ f = 0 then (w, if fixed then spread avAfter n a b else spread avSpan n a b)
        else loopRuns body n fixed f a1

/-- MAXCOUNT of the loop nest declared for an engine and level. -/
def maxCount (im : Image) (e : Eng) (level : Nat) : Option Nat :=
  ((declsIn im 3).find? fun d => dField d 1 == engNo e && dField d 2 == level).map fun d => dField d 3

/-- The greatest count of a loop: its declared one, or its immediate. -/
def loopMost (c : Straining) (o : UmOp) : Nat :=
  (maxCount c.im c.eng (fieldOr o.fields 1)).getD (if fieldOr o.fields 2 = 0 then fieldOr o.fields 4 else 0)

/-- After a run of a body: the increment. -/
def bodyInc (o : UmOp) (a : AState) : AState :=
  let v := avAdd (asAx a (fieldOr o.fields 5)) (exact (BitVec.ofNat 24 (fieldOr o.fields 7)).toInt)
  if fieldOr o.fields 6 = 1 then { a with ax := setNth a.ax (fieldOr o.fields 5) v } else a

/-- Operations [start, stop) at one nesting depth, from a state at each entry; `depth` bounds the nesting below. -/
def rangeRun (c : Straining) : (depth : Nat) → (start stop : Nat) → SMap AState → ARun
  | 0, _, _, _ => ⟨[], [], none, []⟩
  | depth + 1, start, stop, entry =>
    let step := fun (r : ARun) (i : Nat) =>
      match tfind r.at_ i, c.ops[i]? with
      | some a, some o =>
        if isKind o 7 then r
        else if isKind o 3 then
          let t := (branchTo o i).toNat
          let r1 := if i < t then arrive stop t a r else { r with back := (t, a) :: r.back }
          if fieldOr o.fields 1 = 0 then r1 else arrive stop (i + 1) a r1
        else if isKind o 2 then
          let last := i + 1 + fieldOr o.fields 3
          let level := fieldOr o.fields 1
          let imm := fieldOr o.fields 2 == 0
          let n := if imm then fieldOr o.fields 4 else loopMost c o
          let inner := fun (x : AState) => rangeRun c depth (i + 1) last [(i + 1, x)]
          let runs := loopRuns (fun x => ((inner x).out).map (bodyInc o)) n imm 20 a
          let need := Need.loop i level (if imm then exact (fieldOr o.fields 4) else asLc a level)
          let r1 := { r with needs := r.needs ++ [need] ++ (if n = 0 then [] else (inner runs.1).needs) }
          arrive stop last (if n = 0 then a else runs.2) r1
        else if isKind o 4 then
          let level := fieldOr o.fields 2 % 4
          let r1 := if fieldOr o.fields 1 = 11 then { r with needs := r.needs ++ [.count i level (asAx a (fieldOr o.fields 3))] } else r
          arrive stop (i + 1) (asScalar o a) r1
        else if isKind o 5 then
          let base := if fieldOr o.fields 4 = 1 then asAx a (fieldOr o.fields 5) else exact 0
          let next := avAdd base (descStarts (streamDesc c.im o))
          arrive stop (i + 1) { a with ag := setNth a.ag (fieldOr o.fields 1) next } { r with needs := r.needs ++ [.stream i base] }
        else if isKind o 6 then
          let y := opYop o
          let d := fieldOr o.fields 5
          arrive stop (i + 1) (if y = 0 ∨ y = 3 ∨ y = 4 then { a with ax := setNth a.ax d avFull } else a) r
        else arrive stop (i + 1) a r
      | _, _ => r
    let pass := fun (e : SMap AState) => (between start stop).foldl step ⟨e, [], none, []⟩
    let again := fun (e : SMap AState) (_ : Nat) =>
      (pass e).back.foldl (fun m x => tset m x.1 (match tfind m x.1, tfind (pass e).at_ x.1 with
        | some b, some t => asWiden b (asWiden t x.2)
        | _, some t => asWiden t x.2
        | _, none => x.2)) e
    pass ((upto 24).foldl again entry)

/-! Memory that a stream touches (R124 step 3). -/

/-- No burst crosses a 2 KiB row when addresses are `v` modulo 2^k. -/
def noCross (v : Int) (k burst : Nat) : Bool :=
  let m := Nat.min 11 k
  decide ((v % 2 ^ m).toNat + burst ≤ 2 ^ m)

/-- Declared regions that a use may lie in, in order of declaration: read or write (R105). A declaration does not say which SPACE its
region lies in; a region serves the SPACE of its use (log entry 33). -/
def regionsFor (im : Image) (write : Bool) : List Decl :=
  (declsIn im 4).filter fun d => bitAt (BitVec.ofNat 2 (dField d 3)) (if write then 1 else 0)

/-- An envelope under construction: LO, HI and ALIGN_LOG2 for each argument. -/
abbrev Envs := List (Int × Int × Nat)
def Envs.full : Envs := List.replicate 4 (0, 2 ^ 48 - 1, 0)
def envCut (e : Envs) (i : Nat) (lo hi : Int) (al : Nat) : Envs :=
  let x := nth e i (0, 0, 0)
  setNth e i (max x.1 lo, min x.2.1 hi, Nat.max x.2.2 al)
def envEmpty (e : Envs) : Bool := e.any fun x => decide (x.2.1 < x.1)

/-- One need met: the narrower envelope and the region used, or a failure. -/
def needMet (c : Straining) (e : Envs) : Need → Option (Envs × Option Decl)
  | .count _ level v =>
    match v, maxCount c.im c.eng level with
    | .arg i lo hi _, some m => let x := envCut e i (0 - lo) (m - hi) 0; if envEmpty x then none else some (x, none)
    | _, _ => some (e, none)
  | .loop op level v =>
    let imm := fieldOr (nth c.ops op ⟨0, 0, 0, true, []⟩).fields 2 == 0
    match maxCount c.im c.eng level, v with
    | some m, .known lo hi _ => if 0 ≤ lo ∧ hi ≤ m then some (e, none) else none
    | some m, .arg i lo hi _ => let x := envCut e i (0 - lo) (m - hi) 0; if envEmpty x then none else some (x, none)
    | none, _ => if imm then some (e, none) else none
    | _, _ => none
  | .stream op base =>
    let o := nth c.ops op ⟨0, 0, 0, true, []⟩
    let module_ := fieldOr o.fields 3 == 1
    let d := streamDesc c.im o
    let burst := 2 ^ fieldN d 240 4
    let b0 : Int := fieldN d 192 48
    let reach := descReach d
    let rs := regionsFor c.im (fieldOr o.fields 2 == 1)
    if (namedId (fieldGiven o.fields 6)).isNone then none
    else
    match base with
    | .known lo hi al =>
      if module_ && (!noCross (b0 + lo) (Nat.min al reach.2.2) burst || decide (2 ^ 41 ≤ b0 + hi + reach.2.1)) then none
      else
        (rs.find? fun r => decide ((dField r 1 : Int) ≤ b0 + lo + reach.1 ∧ b0 + hi + reach.2.1 < dField r 1 + dField r 2)).map
          fun r => (e, some r)
    | .arg i lo hi al =>
      let k := Nat.min al reach.2.2
      let need := if !module_ then some (if burst = 2048 then 11 else 0)
        else if burst = 2048 then (if noCross (b0 + lo) (Nat.min 11 k) burst then some 11 else none)
        else (upto 12).find? fun a => noCross (b0 + lo) (Nat.min a k) burst
      match need with
      | none => none
      | some a =>
        rs.findSome? fun r =>
          let top : Int := dField r 1 + dField r 2 - 1 - (b0 + hi + reach.2.1)
          let low : Int := (dField r 1 : Int) - (b0 + lo + reach.1)
          if top < max 0 low ∨ (module_ ∧ 2 ^ 41 < (dField r 1 : Int) + dField r 2) then none
          else
            let x := envCut e i low top a
            if envEmpty x then none else some (x, some r)
    | .other => none

def needOp : Need → Nat
  | .stream op _ => op
  | .count op _ _ => op
  | .loop op _ _ => op
def needSpace (c : Straining) (n : Need) : Bool :=
  match n with
  | .stream op _ => fieldOr (nth c.ops op ⟨0, 0, 0, true, []⟩).fields 3 == 1
  | _ => true

/-- Every need of an entry point in turn: the envelope, the tray regions used, or the operation that fails. -/
def meetNeeds (c : Straining) : List Need → Envs → List Decl → Except Nat (Envs × List Decl)
  | [], e, used => .ok (e, used)
  | n :: l, e, used =>
    match needMet c e n with
    | none => .error (needOp n)
    | some r =>
      match r.2 with
      | some d => meetNeeds c l r.1 (if needSpace c n then used else d :: used)
      | none => meetNeeds c l r.1 used

def entryNeeds (c : Straining) (op : Nat) : List Need :=
  (rangeRun c 6 0 c.ops.length [(op, AState.start)]).needs

/-- An entry point's envelope on a section, or XV_BOUNDS. -/
def entryEnv (c : Straining) (op : Nat) : Except LoadEnd (Envs × List Decl) :=
  match meetNeeds c (entryNeeds c op) Envs.full [] with
  | .ok r => .ok r
  | .error i => .error ⟨0xC, 6, c.lp, c.sect.ix, (nth c.ops i ⟨0, 0, 0, true, []⟩).off, 0⟩

/-! SFE tables (R267, R281). -/

def anyRegion (im : Image) (lo hi : Nat) : Bool :=
  (declsIn im 4).any fun r => decide (dField r 1 ≤ lo ∧ hi ≤ dField r 1 + dField r 2)

/-- Rows of a shard. -/
def shardRows (d : SfDesc) (s : Nat) : Nat := ceilDiv (sdRows d - s) (2 ^ sdShards d)

/-- A row table's bounds. -/
def tableBounds (im : Image) (d : SfDesc) : Bool :=
  let b := (sdBase d).toNat
  rowTableOk d && (!sdModule d || decide (fieldN (sdBase d) 36 5 + 2 ^ sdShards d - 1 ≤ 31)) && (upto (2 ^ sdShards d)).all fun s =>
    let n := shardRows d s
    n == 0 || anyRegion im (b + s * 2 ^ 36) (b + s * 2 ^ 36 + (n - 1) * sdStride d + 32 * sdRowW d)

/-- The row tables that an operation of an SFE section names: TBL, or TBL + 1 of COMBINE. -/
def rowTables (im : Image) (e : Eng) (o : UmOp) : List (BitVec 256) :=
  if e ≠ .sfe ∨ o.cls ≠ 1 ∨ o.code = 4 then [] else [umTable im o (if o.code = 5 then 1 else 0)]

/-- The tables of an operation: bounds of row tables, and a route area as large as its word needs (R267, R281). -/
def tableUse (c : Straining) (o : UmOp) : List LoadEnd :=
  let w := opWord c.r c.eng o
  let op := fieldN w 32 4
  let f : LoadEnd := ⟨0xC, 6, c.lp, c.sect.ix, o.off, 0⟩
  let t := umTable c.im o 0
  let slots := if op = 4 then (sfNexp w + 1) * sfCap w else wRepeat w
  let route := c.eng == .sfe && o.cls == 1 && (op == 4 || op == 5)
  flawIf (route && (!routeOk t || decide (sdRows t < slots) ||
      !anyRegion c.im (sdBase t).toNat ((sdBase t).toNat + 1088 + 16 * sdRows t))) f ++
    (rowTables c.im c.eng o).flatMap fun d => flawIf (!tableBounds c.im d) f

/-- Shards whose home pot is disabled or retired: a code of phase 2 (R112, R267). -/
def tablePots (s : State) (im : Image) (lp : Nat) (y : Eng × Sect) (o : UmOp) : List LoadEnd :=
  (rowTables im y.1 o).flatMap fun d => (upto (2 ^ sdShards d)).flatMap fun k =>
    let p := fieldN (sdBase d) 36 5 + k
    flawIf (sdModule d && decide (p < 32) && !potPresent s (BitVec.ofNat 5 p)) ⟨5, 2, lp, y.2.ix, o.off, p⟩

/-! Phase 6. -/

/-- Two tray regions that streams use overlap (R122). -/
def regionsMeet (a b : Decl) : Bool :=
  decide (dField a 1 < dField b 1 + dField b 2) && decide (dField b 1 < dField a 1 + dField a 2) && a.off != b.off

/-- The program pool (R109, R110). -/
def poolBad (d : Line) : Bool :=
  ldProgKib d == 0 || decide (1048576 < ldProgKib d) || ldProgLocal d % 2048 != 0 ||
    decide (2 ^ 36 < ldProgLocal d + ldProgKib d * 1024)

end Sys2Proof.Machine
end

