-- ==== Sys2Proof/Machine/Loader.lean ====
section
/-!
DEFINITION. Placement of logical pots (R116, R117), allocation of resources on each pot (R112 phase 4, R121, R225, R434), the contents
that a load commits (R115), and the save area (R131, R132).
-/

namespace Sys2Proof.Machine

/-! Placement (phase 2). -/

/-- A logical pot needs a working MXE: it has an MXE stream, or a VXE stream that names the FTQ (R117, R228). -/
def needsMxe (im : Image) (lp : Nat) : Bool :=
  (streamSects im .mxe).any (fun x => onPot x lp) ||
    (streamSects im .vxe).any fun x => onPot x lp && (sectOps im x).1.any fun o => (opUses .vxe o).any fun u => u.2.1 == .queue && u.2.2 == 0xFFFF00

/-- Physical pots of the logical pots so far, in order; 0xFF where none could be taken. -/
structure Placing where
  place : List Nat
  subst : Bool
  flaws : List LoadEnd
  deriving DecidableEq, Repr

def placeFlaw (lp pot : Nat) : LoadEnd := ⟨5, 2, lp, 0xFF, 0, pot⟩
def potNo (n : Nat) : PotIx := BitVec.ofNat 5 n

/-- Fixed places first, then AUTO by the lowest pot left (R116). -/
def placeAll (s : State) (d : Line) (np : Nat) : Placing :=
  let fixed := (upto np).map fun lp => if ldAuto d lp then none else some (ldPlace d lp)
  let taken := fixed.filterMap id
  let spare := ((presentPots s).map fun n => n.toNat).filter fun n => !taken.contains n
  let autos := (upto np).filter (ldAuto d)
  let auto := fun (lp : Nat) => nth spare ((autos.takeWhile (· != lp)).length) 0xFF
  let place := (upto np).map fun lp => (nth fixed lp none).getD (auto lp)
  let bad := (upto np).flatMap fun lp =>
    let p := nth place lp 0xFF
    flawIf (p == 0xFF || !potPresent s (potNo p) || (place.take lp).contains p) (placeFlaw lp p)
  ⟨place, false, bad⟩

/-- A logical pot whose pot's MXE is retired moves to the nearest substitute (R117). -/
def placeMxe (s : State) (d : Line) (needs : Nat → Bool) (a : Placing) (lp : Nat) : Placing :=
  let p := nth a.place lp 0xFF
  if !needs lp || p == 0xFF || mxePresent s (potNo p) || (a.flaws.any fun f => f.lpot == lp) then a
  else if !mxeFused s || !ldSubst d then { a with flaws := a.flaws ++ [placeFlaw lp p] }
  else
    match (potsNear s (potNo p)).find? fun n => potPresent s n && mxePresent s n && !a.place.contains n.toNat with
    | some n => { a with place := setNth a.place lp n.toNat, subst := true }
    | none => { a with flaws := a.flaws ++ [placeFlaw lp p] }

def placing (s : State) (d : Line) (np : Nat) (needs : Nat → Bool) : Placing :=
  (upto np).foldl (placeMxe s d needs) (placeAll s d np)

/-! What a logical pot asks for, by logical id, or by old native id for a restore. -/

structure Want where
  queues : List (Nat × Nat)
  descs : List (Nat × Nat)
  recipes : List Nat
  tables : List Nat
  syncs : List Nat
  pairs : List Nat
  ftq : Bool
  dispq : Bool
  progBytes : Nat
  deriving DecidableEq, Repr

/-- Each element once, in rising order. -/
def insertNat (v : Nat) : List Nat → List Nat
  | [] => [v]
  | a :: l => if v < a then v :: a :: l else if v = a then a :: l else a :: insertNat v l
def sortNats (l : List Nat) : List Nat := l.foldr insertNat []

/-- Logical ids of one use in a logical pot's sections, with the engine. -/
def usedIds (im : Image) (lp : Nat) (u : FieldUse) : List (Nat × Nat) :=
  (progSects im lp).flatMap fun y => (sectOps im y.2).1.flatMap fun o =>
    ((opUses y.1 o).filter fun x => x.2.1 == u).map fun x => (engNo y.1, x.2.2)
def namesEnd (im : Image) (lp v : Nat) : Bool := (usedIds im lp .queue).any fun x => x.2 == v

/-- Barrier words named anywhere in the image. -/
def barrierIds (im : Image) : List Nat :=
  [Eng.mxe, .vxe, .sfe].flatMap fun e => (streamSects im e).flatMap fun x => (sectOps im x).1.filterMap fun o =>
    if syncHere o && yopPair (opYop o) then some (fieldOr o.fields 7) else none

def imageWant (s : State) (im : Image) (lp : Nat) : Want :=
  let mine := fun (k : Nat) => (declsIn im k).filter fun d => dField d 1 == lp
  let qs := sortNats ((mine 1).map Decl.lid)
  let syncs := sortNats ((mine 2).map Decl.lid)
  let des := (upto 3).flatMap fun e => (sortNats (((usedIds im lp .desc).filter fun x => x.1 == e).map Prod.snd)).map fun i => (e, i)
  { queues := qs.map fun i => (i, ((queueDecl im lp i).map fun d => dField d 2).getD 12)
    descs := des, recipes := sortNats ((usedIds im lp .recipe).map Prod.snd)
    tables := sortNats ((usedIds im lp .table).flatMap fun x =>
      -- COMBINE also names the table after its own
      x.2 :: (if (declNamed im 7 (x.2 + 1)).isSome then [x.2 + 1] else []))
    syncs := syncs, pairs := (barrierIds im).filter syncs.contains, ftq := namesEnd im lp 0xFFFF00, dispq := namesEnd im lp 0xFFFF01
    progBytes := progSize s im lp }

/-! Resources in use on a pot. -/

def infsOn (s : State) (n : PotIx) : List InfRes :=
  (s.inf.table.filter fun e => e.2.state != 0).flatMap fun e => e.2.res.filter fun r => r.pot == n.toNat

/-- Maximal runs of consecutive ids: first id and length. -/
def idRuns : List Nat → List (Nat × Nat)
  | [] => []
  | a :: l =>
    match idRuns l with
    | (b, k) :: r => if b = a + 1 then (a, k + 1) :: r else (a, 1) :: (b, k) :: r
    | [] => [(a, 1)]

/-- Native numbers for runs of ids: each run together, from the lowest place where it fits (log entry 33). -/
def grantRuns (limit : Nat) (busy : List Nat) (runs : List (Nat × Nat)) : Option (List (Nat × Nat)) :=
  (runs.foldl (fun a r =>
    match a with
    | none => none
    | some (used, out) =>
      match (upto limit).find? fun b => decide (b + r.2 ≤ limit) && (between b (b + r.2)).all fun i => !used.contains i with
      | none => none
      | some b => some (between b (b + r.2) ++ used, out ++ (upto r.2).map fun k => (r.1 + k, b + k)))
    (some (busy, ([] : List (Nat × Nat))))).map Prod.snd

/-- Sync word indices: a barrier's pair at an even index, from FW_WORDS up (R290, R304). -/
def grantSyncs (lo : Nat) (busy ids pairs : List Nat) : Option (List (Nat × Nat)) :=
  (ids.foldl (fun a i =>
    match a with
    | none => none
    | some (used, out) =>
      if out.any fun (x : Nat × Nat) => x.1 == i then some (used, out)
      else
        let pair := pairs.contains i
        match (between lo 65536).find? fun k => !used.contains k && (!pair || (k % 2 == 0 && !used.contains (k + 1) && decide (k < 65535))) with
        | none => none
        | some k => if pair then some (k :: (k + 1) :: used, out ++ [(i, k), (i + 1, k + 1)]) else some (k :: used, out ++ [(i, k)]))
    (some (busy, ([] : List (Nat × Nat))))).map Prod.snd

/-- Places for byte ranges: each from the lowest multiple of `unit` clear of every range taken (log entry 33). -/
def rangeFree (used : List (Nat × Nat)) (b len : Nat) : Bool := used.all fun x => decide (b + len ≤ x.1) || decide (x.1 + x.2 ≤ b)
def lowestPlace (unit lo hi : Nat) (used : List (Nat × Nat)) (len : Nat) : Option Nat :=
  let ups := sortNats (lo :: used.map fun x => ceilDiv (Nat.max lo (x.1 + x.2)) unit * unit)
  ups.find? fun b => decide (b + len ≤ hi) && rangeFree used b len
def grantRanges (unit lo hi : Nat) (used : List (Nat × Nat)) (lens : List Nat) : Option (List Nat) :=
  (lens.foldl (fun a len =>
    match a with
    | none => none
    | some (us, out) =>
      match lowestPlace unit lo hi us len with
      | none => none
      | some b => some ((b, len) :: us, out ++ [b])) (some (used, ([] : List Nat)))).map Prod.snd

/-- Declared regions that may lie in a pot's tray. -/
def trayRegions (im : Image) (n : PotIx) : List (Nat × Nat) :=
  ((declsIn im 4).filter fun d => decide (dField d 1 + dField d 2 ≤ 2 ^ 32) && dField d 1 / 2 ^ 27 == n.toNat).map fun d =>
    (dField d 1 % 2 ^ 27, dField d 2)

/-- Queue ranges in use on a pot. -/
def queueRanges (p : Pot) : List (Nat × Nat) := (p.queues.filter fun e => qMode e.2 != 0).map fun e => (qBase e.2, qSize e.2)

/-- What a pot grants: native numbers in the order of the wants. -/
structure Grant where
  queues : List (Nat × Nat)
  bases : List Nat
  descs : List ((Nat × Nat) × Nat)
  recipes : List (Nat × Nat)
  tables : List (Nat × Nat)
  syncs : List (Nat × Nat)
  prog : Nat
  deriving DecidableEq, Repr

/-- Allocation on one pot; the DETAIL of R122 where it fails. `free` lets a pool pass that phase 6 rejects (R110). -/
def grantPot (s : State) (n : PotIx) (d : Line) (free : Bool) (avoid : List (Nat × Nat)) (w : Want) : Except Nat Grant :=
  let p := potOf s n
  let rs := infsOn s n
  let busyQ := (rs.flatMap InfRes.queues) ++ (p.queues.filter fun e => qMode e.2 != 0).map Prod.fst
  let ofEng := fun (e : Nat) => (w.descs.filter fun x => x.1 == e).map Prod.snd
  let busyD := fun (e : Nat) => ((rs.flatMap InfRes.descs).filter fun k => k / 256 == e).map fun k => k % 256
  let des := (upto 3).map fun e => grantRuns 256 (busyD e) ((ofEng e).map fun i => (i, 1))
  let lo := ldProgLocal d
  let used := rs.map fun r => ((r.progBase.toNat % 2 ^ 36), r.progBytes)
  let pool := if free then some [lo] else grantRanges 2048 lo (lo + ldProgKib d * 1024) used [w.progBytes]
  match grantRuns 48 busyQ (idRuns (w.queues.map Prod.fst)),
      grantRanges 4096 0 0x7800000 (avoid ++ queueRanges p ++ rs.flatMap InfRes.tray) (w.queues.map fun x => 2 ^ x.2) with
  | some q, some bs =>
    if (w.ftq && p.mxe.ftqOwner.isSome) || (w.dispq && p.vxe.dispOwner.isSome) then .error 0
    else if des.any Option.isNone then .error 1
    else
      match grantRuns 256 (rs.flatMap InfRes.recipes) (w.recipes.map fun i => (i, 1)) with
      | none => .error 2
      | some rc =>
        match grantRuns 16 (rs.flatMap InfRes.tables) (idRuns w.tables) with
        | none => .error 3
        | some tb =>
          match grantSyncs (fwWords s n) (rs.flatMap InfRes.syncs) w.syncs w.pairs, pool with
          | none, _ => .error 4
          | _, none => .error 6
          | some sy, some pl =>
            .ok ⟨q, bs, des.zipIdx.flatMap (fun x => (x.1.getD []).map fun y => ((x.2, y.1), y.2)), rc, tb, sy, nth pl 0 lo⟩
  | _, _ => .error 0

/-- Microword entries at one address on every pot of the load, above the firmware range (R126, R434). -/
def grantMicro (s : State) (pots : List Nat) (len : Nat) : Option Nat :=
  let used := (s.inf.table.filter fun e => e.2.state != 0 && e.2.res.any fun r => pots.contains r.pot).map fun e =>
    (e.2.leafBase.toNat, e.2.leafLen.toNat)
  if len = 0 then some 0 else (between 128 512).find? fun b => decide (b + len ≤ 512) && rangeFree used b len

/-- The lowest free infusion id (R125). -/
def grantId (s : State) : Option Nat := (between 1 4096).find? fun i => (infOf s (BitVec.ofNat 12 i)).state == 0

def numOf (l : List (Nat × Nat)) (i : Nat) : Nat := ((l.find? fun x => x.1 == i).map Prod.snd).getD 0

/-- The resource record of a grant. -/
def grantRes (n : PotIx) (w : Want) (g : Grant) : InfRes :=
  { pot := n.toNat, queues := g.queues.map Prod.snd, descs := g.descs.map fun x => 256 * x.1.1 + x.2, recipes := g.recipes.map Prod.snd,
    tables := g.tables.map Prod.snd, syncs := g.syncs.map Prod.snd, progBase := BitVec.ofNat 41 (n.toNat * 2 ^ 36 + g.prog),
    progBytes := w.progBytes, parts := [], tray := [], ftq := w.ftq, dispq := w.dispq }

/-! Contents from an image (R115). -/

/-- Logical ids to native numbers; a sync word through the pot of its own declaration. -/
def imageResolve (im : Image) (place : List Nat) (grants : List Grant) (lp : Nat) (e : Eng) : Resolve :=
  let g := nth grants lp ⟨[], [], [], [], [], [], 0⟩
  { queue := numOf g.queues
    desc := fun i => ((g.descs.find? fun x => x.1 == (engNo e, i)).map Prod.snd).getD 0
    recipe := numOf g.recipes
    table := numOf g.tables
    sync := fun i =>
      let at_ := ((declNamed im 2 i).map fun d => dField d 1).getD 0
      (nth place at_ 0, numOf (nth grants at_ ⟨[], [], [], [], [], [], 0⟩).syncs i) }

/-- A microword with its NEXT moved by the microword base (R97, R126; log entry 33). -/
def moveMicro (by_ : Nat) (u : Word64) : Word64 := if uSeq u = 1 ∨ uSeq u = 2 then putField u 37 9 (uNext u + by_) else u
/-- An SFE table with its bag program moved by the microword base (R265; log entry 33). -/
def moveTable (by_ : Nat) (t : BitVec 256) : BitVec 256 := if sdScratchN t = 0 then t else putField t 135 9 (sdEntry t + by_)

def sectPad (n : Nat) (bs : List Byte) : List Byte := fitBytes (ceilDiv n 32 * 32) bs

/-- The contents of one logical pot. -/
def imageLoad (s : State) (im : Image) (place : List Nat) (grants : List Grant) (leafBase : Nat) (lp : Nat) (r : InfRes) : LoadPot :=
  let g := nth grants lp ⟨[], [], [], [], [], [], 0⟩
  let bytes := fun (y : (Eng × Sect) × Nat) =>
    let b := sectBytes y.1.1 (sectNative s im (imageResolve im place grants lp y.1.1) y.1.1 y.1.2)
    sectPad b.length b
  let places := sectPlaces s im lp
  let cfg := fun (x : (Nat × Nat) × Nat) =>
    ({ Queue.reset with cfg := ((queueDecl im lp x.1.1).map fun d => declQueueCfg d x.2).getD 0 } : Queue)
  let word := fun (x : Nat × Nat) =>
    match declNamed im 2 x.1 with
    | some d =>
      let v : Word64 := BitVec.ofNat 64 (dField d 2 + dField d 3 * 2 ^ 32)
      (⟨v, ~~~v, dField d 4 == 1, dField d 4 != 1, true, false, 0⟩ : SyncWord)
    | none => SyncWord.reset
  { lpot := lp
    res := { r with parts := places.map fun y => (y.1.1, y.2, sectSize s im y.1) }
    program := places.flatMap bytes
    queues := (g.queues.zip g.bases).map cfg
    descs := g.descs.map fun x => ((declNamed im 5 x.1.2).map declDesc).getD 0
    recipes := g.recipes.map fun x => ((declNamed im 6 x.1).map (declRecipe im)).getD ⟨0, []⟩
    tables := g.tables.map fun x => moveTable leafBase (((declNamed im 7 x.1).map (declTable im)).getD 0)
    microwords := (imMicrowords im).map (moveMicro leafBase)
    syncs := g.syncs.map word
    trayWords := [], ftq := [], dispatchQ := [] }

/-! The save area (R131). -/

def gatherQueues (p : Pot) (r : InfRes) : List Queue := r.queues.map (queueOf p)
/-- Bytes of one pot's block. -/
def blockSize (p : Pot) (r : InfRes) (leafLen : Nat) : Nat :=
  4096 + r.progBytes + ((gatherQueues p r).map qSize).sum + (r.tray.map Prod.snd).sum + 16 * r.syncs.length + 8 * leafLen
def saveSize (s : State) (x : Inf) : Nat :=
  64 + (x.res.map fun r => blockSize (potOf s (potNo r.pot)) r x.leafLen.toNat).sum

/-- Tray words of a pot-local range, with their poison. -/
def saveTray (s : State) (n : PotIx) (a len : Nat) : Nat × List (List Byte × Bool) :=
  let k := ceilDiv (a % 32 + len) 32
  let b := a / 32 * 32
  (b, (upto k).map fun i =>
    (trayRead s (trayGlobal n b + 32 * i) 32, trayWordPoison s (trayGlobal n b / 32 + i)))

/-- The native microwords of an infusion, from the lowest LU in order on the pot. -/
def saveMicro (p : Pot) (base len : Nat) : List Word64 :=
  let i := ((upto 1056).find? fun k => !(luOf p k).dead).getD 0
  (between base (base + len)).map fun a => tget (luOf p i).store a 0

/-- One pot's part of the infusion (R131, R226, R315). -/
def savePot (s : State) (x : Inf) (lp : Nat) (r : InfRes) : State × LoadPot :=
  let n := potNo r.pot
  let p := potOf s n
  let e := fun (k : Nat) => engOfCode (k / 256)
  let prog := readAddrBytes s n (loadWho 0) r.progBase.toNat r.progBytes
  (prog.1,
    { lpot := lp, res := r, program := prog.2.1, queues := gatherQueues p r
      descs := r.descs.map fun k => tget (seqOf p (e k)).descs (k % 256) 0
      recipes := r.recipes.map (recipeOf p.vxe)
      tables := r.tables.map (sfDescOf p)
      microwords := saveMicro p x.leafBase.toNat x.leafLen.toNat
      syncs := r.syncs.map (syncWordOf p.snc)
      trayWords := ((gatherQueues p r).map fun q => saveTray s n (qBase q) (qSize q)) ++ r.tray.map fun t => saveTray s n t.1 t.2
      ftq := if r.ftq then p.mxe.ftq.filter fun f => f.state == .ready else []
      dispatchQ := if r.dispq then p.vxe.dispatchQ else [] })

def savePots (s : State) (x : Inf) : List InfRes → (lp : Nat) → State × List LoadPot
  | [], _ => (s, [])
  | r :: rs, lp =>
    let a := savePot s x lp r
    let b := savePots a.1 x rs (lp + 1)
    (b.1, a.2 :: b.2)

/-- The header of a save area, its CRC field zero (log entry 34). -/
def saveHeader (s : State) (id : BitVec 12) (x : Inf) (total : Nat) : List Byte :=
  bytesOfNat 4 0x5641534D ++ bytesOfNat 2 id.toNat ++ bytesOfNat 1 (gradeCode s.fuses.grade) ++
    bytesOfNat 1 (steppingCode s.fuses.stepping) ++ bytesOfNat 2 x.xlatVer.toNat ++ bytesOfNat 1 x.npots.toNat ++
    bytesOfNat 1 (if x.state = 4 then 1 else 0) ++ bytesOfNat 2 x.leafLen.toNat ++ bytesOfNat 2 0 ++ bytesOfNat 8 total ++
    List.replicate 40 0

/-- The bytes of one pot's block: its tables in the first 4 KiB as far as they go, the program region, the queue bytes and tray regions,
the sync views and the microwords (R131, R291; log entry 34). -/
def saveBlock (s : State) (p : LoadPot) : List Byte × State :=
  let tables :=
    p.queues.flatMap (fun q => bytesOfNat 8 q.cfg.toNat ++ bytesOfNat 4 q.head.toNat ++ bytesOfNat 4 q.tail.toNat) ++
      p.descs.flatMap (fun d => bytesOfNat 32 d.toNat) ++ p.tables.flatMap (fun d => bytesOfNat 32 d.toNat) ++
      p.recipes.flatMap fun r => (r.header :: r.ops).flatMap fun w => bytesOfNat 4 w.toNat
  let pad := takeFreeBytes (4096 - tables.length) s
  let lens := p.queues.map qSize ++ p.res.tray.map Prod.snd
  let skip := p.queues.map (fun _ => 0) ++ p.res.tray.map fun t => t.1 % 32
  let tray := (p.trayWords.zip (lens.zip skip)).flatMap fun x => ((x.1.2.flatMap Prod.fst).drop x.2.2).take x.2.1
  (tables.take 4096 ++ pad.1 ++ p.program ++ tray ++ p.syncs.flatMap (fun w => bytesOfNat 16 (syncView w).toNat) ++
    p.microwords.flatMap (fun w => bytesOfNat 8 w.toNat), pad.2)

def saveBlocks (s : State) : List LoadPot → List Byte × State
  | [] => ([], s)
  | p :: ps =>
    let a := saveBlock s p
    let b := saveBlocks a.2 ps
    (a.1 ++ b.1, b.2)

/-- Copy the infusion into its area: the header, and a block for each logical pot, in the model's own order (R131; log entry 34). -/
def saveCopy (s : State) (id : BitVec 12) (area : Nat) : State :=
  let x := infOf s id
  let total := saveSize s x
  let ps := savePots s x x.res 0
  let body := saveBlocks ps.1 ps.2
  let h := saveHeader s id x total
  let crc := crc32c (h ++ body.1)
  let bytes := h.take 24 ++ bytesOfNat 4 crc.toNat ++ h.drop 28 ++ body.1
  let t := writeAddrBytes x.lead (loadWho 0) (total / 32 + 2) body.2 area bytes false
  { t with saves := ⟨bytes, x.leafBase, x.leafLen, ps.2, x.entries⟩ :: t.saves }

/-- Checks of a save header (R132). -/
def areaFlaws (s : State) (bytes : List Byte) (length minor : Nat) : List LoadEnd :=
  let f := fun (k n : Nat) => imgField bytes k n
  let at_ := fun (code o : Nat) => (⟨code, 1, 0xFF, 0xFF, o, if code = 2 then minor else 0⟩ : LoadEnd)
  let crc := crc32c (bytes.take 24 ++ List.replicate 4 0 ++ bytes.drop 28)
  flawIf (f 0 4 != 0x5641534D) (at_ 1 0) ++
    flawIf (f 6 1 != gradeCode s.fuses.grade || f 7 1 != steppingCode s.fuses.stepping || f 8 2 != xlatVer s) (at_ 2 1) ++
    flawIf (f 11 1 % 2 == 1) (at_ 1 2) ++ flawIf (ceilDiv (f 16 8) 4 != length) (at_ 1 4) ++ flawIf (f 24 4 != crc.toNat) (at_ 1 6)

/-- One logical pot of an area that this module did not write: what its bytes hold is free, within what a pot has (R131; log entry 34). -/
def foreignPot (bytes : List Byte) (leafLen lp : Nat) : LoadPot :=
  let w := fun (k : Nat) => Config.savedWord bytes lp k
  let bits := fun (k len : Nat) => w k % 2 ^ len
  let nq := w 0 % 49
  let prog := 32 * w 1
  { lpot := lp
    res :=
      { pot := w 2 % 32, queues := upto nq, descs := upto (w 3 % 769), recipes := upto (w 4 % 257), tables := upto (w 5 % 17)
        syncs := upto (w 6 % 65537), progBase := 0, progBytes := prog
        parts := [(.mxe, 0, 32 * w 7), (.vxe, 32 * w 7, 32 * w 8), (.sfe, 32 * (w 7 + w 8), 32 * w 9)], tray := []
        ftq := w 10 % 2 == 1, dispq := w 11 % 2 == 1 }
    program := (upto prog).map fun i => BitVec.ofNat 8 (w (2 ^ 32 + i))
    queues := (upto nq).map fun i =>
      { Queue.reset with cfg := BitVec.ofNat 64 (putField (BitVec.ofNat 64 (bits (100 + i) 45)) 27 5 (12 + w (200 + i) % 15)).toNat
                         head := BitVec.ofNat 32 (w (300 + i)), tail := BitVec.ofNat 32 (w (400 + i)) }
    descs := (upto (w 3 % 769)).map fun i => BitVec.ofNat 256 (bits (1000 + i) 244)
    recipes := (upto (w 4 % 257)).map fun i => ⟨BitVec.ofNat 32 (w (2000 + i)), (upto 64).map fun k => BitVec.ofNat 32 (w (10000 + 64 * i + k))⟩
    tables := (upto (w 5 % 17)).map fun i => BitVec.ofNat 256 (w (3000 + i))
    microwords := (upto leafLen).map fun i => BitVec.ofNat 64 (w (4000 + i))
    syncs := (upto (w 6 % 65537)).map fun i =>
      let v : Word64 := BitVec.ofNat 64 (w (100000 + i))
      let full := w (200000 + i) % 2 == 1
      ⟨v, ~~~v, full, !full, true, w (300000 + i) % 2 == 1, 0⟩
    trayWords := [], ftq := [], dispatchQ := [] }

/-- The context that an area's bytes hold: what SAVE put there, or, of an area that another module wrote, free values (R132). -/
def areaContext (s : State) (bytes : List Byte) : SavedCtx :=
  match s.saves.find? fun x => x.bytes == bytes with
  | some c => c
  | none =>
    let len := imgField bytes 12 2 % 1024
    { bytes := bytes, leafBase := 128, leafLen := BitVec.ofNat 10 len
      pots := (upto (imgField bytes 10 1 % 33)).map (foreignPot bytes len)
      entries := (upto (Config.savedWord bytes 32 0)).map fun k =>
        let w := fun (i : Nat) => Config.savedWord bytes (33 + k) i
        ⟨BitVec.ofNat 18 (w 0), engOfCode (w 1 % 3), w 2 % 32, BitVec.ofNat 32 (w 3),
          (upto 4).map fun a => (BitVec.ofNat 48 (w (4 + 3 * a)), BitVec.ofNat 48 (w (5 + 3 * a)), BitVec.ofNat 4 (w (6 + 3 * a)))⟩ }

/-! Contents from a save area (R132). -/

def savedWant (x : LoadPot) : Want :=
  { queues := (x.res.queues.zip x.queues).map fun y => (y.1, fieldN y.2.cfg 27 5), descs := x.res.descs.map fun k => (k / 256, k % 256)
    recipes := x.res.recipes, tables := x.res.tables, syncs := x.res.syncs
    pairs := x.res.syncs.filter fun i => i % 2 == 0 && x.res.syncs.contains (i + 1)
    ftq := x.res.ftq, dispq := x.res.dispq, progBytes := x.res.progBytes }

/-- Old native numbers to new ones. -/
def savedResolve (old : List LoadPot) (place : List Nat) (grants : List Grant) (lp : Nat) (e : Eng) (pot : Nat) : Resolve :=
  let g := nth grants lp ⟨[], [], [], [], [], [], 0⟩
  { queue := numOf g.queues
    desc := fun i => ((g.descs.find? fun x => x.1 == (engNo e, i)).map Prod.snd).getD 0
    recipe := numOf g.recipes
    table := numOf g.tables
    sync := fun i =>
      match old.zipIdx.find? fun x => x.1.res.pot == pot && x.1.res.syncs.contains i with
      | some y => (nth place y.2 0, numOf (nth grants y.2 ⟨[], [], [], [], [], [], 0⟩).syncs i)
      | none => (pot, i) }

/-- A native word with its resource numbers replaced. -/
def moveWord (old : List LoadPot) (place : List Nat) (grants : List Grant) (lp : Nat) (e : Eng) (w : ColWord) : ColWord :=
  let k := wKind w
  let cls := if k = 1 then 1 else 0
  let code := if k = 1 then fieldN w 32 4 else k
  let r := savedResolve old place grants lp e (syPot w).toNat
  let here := k == 6 && fieldN w 68 16 == 0xFFFF
  let put := fun (v : ColWord) (x : Nat × Nat × FieldUse) =>
    let n := fieldN w x.1 x.2.1
    let set := fun (m : Nat) => putField v x.1 x.2.1 m
    match x.2.2 with
    | .queue => if n < 48 then set (r.queue n) else v
    | .desc => set (r.desc n)
    | .recipe => set (r.recipe n)
    | .table => set (r.table n)
    | .syncPot => if here then set (r.sync (syIndex w).toNat).1 else v
    | .syncIx => if here then set (r.sync n).2 else v
    | .num => v
  (bodyFields e cls code).foldl put w

/-- One engine's part of a program region, word by word. -/
def moveWords (f : ColWord → ColWord) (stride : Nat) : (fuel : Nat) → List Byte → List Byte
  | 0, bs => bs
  | _, [] => []
  | k + 1, bs => fitBytes stride (bytesOfNat stride (f (BitVec.ofNat 256 (natOfBytes (bs.take stride)))).toNat) ++
      moveWords f stride k (bs.drop stride)

def savedLoad (old : List LoadPot) (place : List Nat) (grants : List Grant) (leafFrom leafBase : Nat) (lp : Nat) (x : LoadPot)
    (r : InfRes) : LoadPot :=
  let g := nth grants lp ⟨[], [], [], [], [], [], 0⟩
  let by_ := leafBase + 512 - leafFrom
  let part := fun (y : Eng × Nat × Nat) =>
    moveWords (moveWord old place grants lp y.1) (wordStride y.1) (y.2.2 / wordStride y.1) ((x.program.drop y.2.1).take y.2.2)
  let re := fun (q : Queue × Nat) => { q.1 with cfg := putField q.1.cfg 0 27 q.2 }
  let words := (x.trayWords.zipIdx.map fun t => (if t.2 < g.bases.length then nth g.bases t.2 0 else t.1.1, t.1.2))
  { x with
    lpot := lp, res := { r with parts := x.res.parts, tray := x.res.tray }, program := x.res.parts.flatMap part
    queues := (x.queues.zip g.bases).map re
    tables := x.tables.map (moveTable by_)
    microwords := x.microwords.map (moveMicro by_)
    syncs := g.syncs.map fun y => (((x.res.syncs.zip x.syncs).find? fun z => z.1 == y.1).map Prod.snd).getD SyncWord.reset
    trayWords := words }

end Sys2Proof.Machine
end

