-- ==== Sys2Proof/Machine/Loads.lean ====
section
/-!
DEFINITION. Loads, restores, launches, saves and unloads as commands (R107, R108, R112 to R118, R127 to R132, R334).
-/

namespace Sys2Proof.Machine

/-! The core that takes an infusion command (R334). -/

/-- The brewer core that a command's path names. -/
def pathCore (c : InCmd) : Nat := pathSub c.path - 22

/-- The first waiting command of the pot with this opcode, when the core that its path names can take it. -/
def takeAtCore (s : State) (n : PotIx) (op : Nat) : Option (InCmd × State) :=
  match takeInbox (potOf s n) op with
  | some (c, p) => if potTakes s n && (coreOf p (pathCore c)).running then some (c, setPot s n p) else none
  | none => none

/-! LOAD and RESTORE (R107, R123, R334). -/

/-- Into the load queue of 16; XV_BUSY when it is full, which the host command that asked is told. -/
def queueReq (s : State) (r : LoadReq) : State :=
  if s.inf.queue.length < 16 then { s with inf := { s.inf with queue := s.inf.queue ++ [r] } }
  else
    match r.cmd with
    | some key => answerMember (countReject s 0xE) r.recv (loadAnswer key .rejected 0xE 0 0)
    | none => countReject s 0xE

/-- A LOAD or RESTORE of the host. -/
def queueLoad (s : State) (n : PotIx) (c : InCmd) (isRestore : Bool) : State :=
  match c.addr with
  | none => answerMember s n (simpleAns c.key .rejected)
  | some a => queueReq s ⟨some c.key, isRestore, a, hdrTag c.header, n⟩

/-- LOAD at the brewer core that its path names; with none of the host's there, one that the pot's own brewer firmware issues, giving a
module address (R108). -/
def execLoad (n : PotIx) (s : State) : Result :=
  match takeAtCore s n 3 with
  | some (c, t) => .next (queueLoad t n c false)
  | none =>
    match (potOf s n).ownLoads with
    | x :: rest =>
      whenDo (potTakes s n && (potOf s n).fwRunning) s
        (queueReq (updPot s n fun p => { p with ownLoads := rest }) ⟨none, false, x.1, x.2, n⟩)
    | [] => .next s

/-- RESTORE at the brewer core that its path names. -/
def execRestore (n : PotIx) (s : State) : Result :=
  match takeAtCore s n 4 with
  | some (c, t) => .next (queueLoad t n c true)
  | none => .next s

/-- An activation of BREWFW or XLAT waits for the load in progress and holds new ones; a handover of HUBFW holds them too (R107,
R449). -/
def activationWaits (s : State) : Bool := s.fw.awaiting.any (· != .leafmc)

/-- LOAD_QUEUE_SERVE: the next request goes to its receiving strainer (R107, R108). -/
def execLoadQueueServe (s : State) : Result :=
  match s.inf.queue with
  | [] => .next s
  | r :: rest =>
    let d := readAddrBytes s r.recv (loadWho r.tag) r.desc.toNat 64
    let l : Load :=
      { req := r, phase := 1, descriptor := lineOfBytes d.2.1, image := [], place := [], subst := false, lead := r.recv, id := 0,
        leafBase := 0, leafLen := 0, pots := [], entries := [], saved := none, doneLeft := [], undo := [] }
    whenDo (hubOn s && s.inf.load.isNone && !activationWaits s && potTakes s r.recv && addrServed s r.recv r.desc) s
      { d.1 with inf := { d.1.inf with queue := rest, load := some l } }

/-! Phases (R112). -/

def setLoad (s : State) (l : Load) : State := { s with inf := { s.inf with load := some l } }
/-- The load goes on with its next phase. -/
def nextPhase (s : State) (l : Load) : State := setLoad s { l with phase := l.phase + 1 }
/-- The load ends with the flaw that R114 picks, or goes on. -/
def endOr (s : State) (l : Load) (flaws : List LoadEnd) (go : State) : State :=
  match firstFlaw flaws with
  | some f => endLoad s l f
  | none => go

def wordsOfBytes (bs : List Byte) : Image := (chunks 4 (bs.length / 4 + 1) bs).map fun b => BitVec.ofNat 32 (natOfBytes b)
/-- The highest MINOR that the running XLAT image supports (R437). -/
def xlatMinor (s : State) : Nat := imgField (runImage s .xlat) 512 2
def imageWords (l : Load) : List Byte := l.image.flatMap fun w => bytesOfNat 4 w.toNat
/-- Logical pots of the load. -/
def loadPots (l : Load) : Nat :=
  match l.saved with
  | some c => c.pots.length
  | none => imNpots l.image

/-- Phase 1: the image, or save area, is read and its header checked; an image as long as its header says is read whole. -/
def phaseRead (s : State) (l : Load) : State :=
  let n := l.req.recv
  let w := loadWho l.req.tag
  let at_ := (ldImage l.descriptor).toNat
  let len := ldLength l.descriptor
  let head := readAddrBytes s n w at_ 64
  let told := if l.req.isRestore then ceilDiv (imgField head.2.1 16 8) 4 else imgField head.2.1 8 4
  let r := if told = len then readAddrBytes head.1 n w at_ (4 * len) else head
  let l1 := { l with image := wordsOfBytes r.2.1 }
  let poor := flawIf (r.2.2 || at_ % 4 != 0) (⟨1, 1, 0xFF, 0xFF, 0, 0⟩ : LoadEnd)
  let flaws :=
    if l.req.isRestore then areaFlaws s r.2.1 len (xlatMinor s) else headerFlaws l1.image len (xlatMinor s) s.fuses.grade
  let l2 := { l1 with saved := if l.req.isRestore then some (areaContext s r.2.1) else none }
  endOr r.1 l1 (poor ++ flaws) (nextPhase r.1 l2)

/-- Stream sections with the logical pots that run them. -/
def streamRuns (l : Load) : List (Nat × Eng × Sect) :=
  (upto (loadPots l)).flatMap fun lp => (progSects l.image lp).map fun y => (lp, y)

/-- Phase 2: placement, and the pots that streams name; the lead is the lowest-indexed pot placed (R108). -/
def phasePlace (s : State) (l : Load) : State :=
  let needs := fun (lp : Nat) =>
    match l.saved with
    | some c => c.entries.any (fun e => e.lpot == lp && e.eng == .mxe) || (c.pots.find? fun p => p.lpot == lp).any fun p => p.res.ftq
    | none => needsMxe l.image lp
  let a := placing s l.descriptor (loadPots l) needs
  let l1 := { l with place := a.place, subst := a.subst, lead := potNo (a.place.foldl Nat.min 31) }
  let named :=
    if l.saved.isSome then []
    else (streamRuns l).flatMap fun y => (sectOps l.image y.2.2).1.flatMap (tablePots s l.image y.1 y.2)
  endOr s { l with place := a.place } (a.flaws ++ named) (nextPhase s l1)

/-- Phase 3: declarations; a save area has none. The infusion id is held as phase 4 begins (R128). -/
def phaseDecl (s : State) (l : Load) : State :=
  let flaws := if l.saved.isSome then [] else declFlaws l.image (nodeId s).toNat
  endOr s l flaws
    (match grantId s with
     | some i => nextPhase (setInf s (BitVec.ofNat 12 i) { Inf.reset with state := 1 }) { l with id := BitVec.ofNat 12 i }
     | none => nextPhase s l)

def loadWant (s : State) (l : Load) (lp : Nat) : Want :=
  match l.saved with
  | some c => savedWant (nth c.pots lp ⟨0, ⟨0, [], [], [], [], [], 0, 0, [], [], false, false⟩, [], [], [], [], [], [], [], [], [], []⟩)
  | none => imageWant s l.image lp

/-- The grants of a load on its pots, in logical order; the pots' resources are disjoint, so each stands for itself. -/
def loadGrants (s : State) (l : Load) : List (Except Nat Grant) :=
  (upto (loadPots l)).map fun lp =>
    let n := potNo (nth l.place lp 0)
    grantPot s n l.descriptor (l.saved.isNone && poolBad l.descriptor) (if l.saved.isSome then [] else trayRegions l.image n)
      (loadWant s l lp)
def goodGrants (l : List (Except Nat Grant)) : List Grant :=
  l.map fun x => match x with
    | .ok g => g
    | .error _ => ⟨[], [], [], [], [], [], 0⟩

/-- Microword entries of the load, in whole broadcasts of 8 (R96; log entry 33). -/
def loadLeafLen (l : Load) : Nat :=
  match l.saved with
  | some c => c.leafLen.toNat
  | none => ceilDiv (imMicrowords l.image).length 8 * 8

/-- Phase 4: allocation (R112, R113). -/
def phaseAlloc (s : State) (l : Load) : State :=
  let gs := loadGrants s l
  let len := loadLeafLen l
  let micro := grantMicro s l.place len
  let f := fun (lp d : Nat) => (⟨6, 4, lp, 0xFF, 0, d⟩ : LoadEnd)
  let own := gs.zipIdx.flatMap fun x => match x.1 with
    | .error d => [f x.2 d]
    | .ok _ => []
  let pool := flawIf (l.saved.isSome && poolBad l.descriptor) (⟨0xC, 4, 0xFF, 0xFF, 0, 0⟩ : LoadEnd)
  let long := if l.saved.isSome then [] else (streamRuns l).flatMap fun y => bodyFlaws s l.image y.1 y.2
  let flaws := flawIf (l.id == 0) (f 0xFF 8) ++ flawIf micro.isNone (f 0xFF 5) ++ own ++ pool ++ long
  let base := micro.getD 0
  let good := goodGrants gs
  let res := (upto (loadPots l)).map fun lp =>
    let n := potNo (nth l.place lp 0)
    let w := loadWant s l lp
    (w, grantRes n w (nth good lp ⟨[], [], [], [], [], [], 0⟩))
  let load := fun (lp : Nat) =>
    let r := (nth res lp (⟨[], [], [], [], [], [], false, false, 0⟩, ⟨0, [], [], [], [], [], 0, 0, [], [], false, false⟩)).2
    match l.saved with
    | some c => savedLoad c.pots l.place good c.leafBase.toNat base lp (nth c.pots lp ⟨lp, r, [], [], [], [], [], [], [], [], [], []⟩) r
    | none => imageLoad s l.image l.place good base lp r
  let ps := (upto (loadPots l)).map load
  let l1 := { l with leafBase := BitVec.ofNat 9 base, leafLen := BitVec.ofNat 10 len, pots := ps
                     entries := (l.saved.map SavedCtx.entries).getD [] }
  let s1 := setInf s l.id { infOf s l.id with res := ps.map LoadPot.res, leafBase := l1.leafBase, leafLen := l1.leafLen }
  endOr s l flaws (if l.saved.isSome then setLoad s1 { l1 with phase := 7 } else nextPhase s1 l1)

/-- The strainings of a load: every stream section on every logical pot that runs it. -/
def strainings (s : State) (l : Load) : List Straining :=
  let gs := l.pots.map fun p =>
    let w := imageWant s l.image p.lpot
    ({ queues := (w.queues.map Prod.fst).zip p.res.queues, bases := p.queues.map qBase
       descs := w.descs.zip (p.res.descs.map fun k => k % 256), recipes := w.recipes.zip p.res.recipes
       tables := w.tables.zip p.res.tables, syncs := [], prog := 0 } : Grant)
  (upto (loadPots l)).flatMap fun lp => (progSects l.image lp).map fun y =>
    { s := s, im := l.image, lp := lp, pot := potNo (nth l.place lp 0), eng := y.1, sect := y.2,
      r := imageResolve l.image l.place gs lp y.1, ops := (sectOps l.image y.2).1 }

/-- Phase 5: translation and its checks. -/
def phaseStrain (s : State) (l : Load) : State :=
  let cs := strainings s l
  let ftq := (upto (loadPots l)).flatMap fun lp => ftqFlaws (cs.filter fun c => c.lp == lp)
  endOr s l (cs.flatMap sectFlaws ++ ftq) (nextPhase s l)

/-- Entry points with the section that each runs. -/
def entryPairs (l : Load) (cs : List Straining) : List (Decl × Straining) :=
  (declsIn l.image 9).flatMap fun d => (cs.filter fun c =>
    engNo c.eng == dField d 1 && engSect l.image c.eng c.lp == some c.sect).map fun c => (d, c)

def envBits (e : Envs) : List (BitVec 48 × BitVec 48 × BitVec 4) :=
  e.map fun x => (BitVec.ofInt 48 x.1, BitVec.ofInt 48 x.2.1, BitVec.ofNat 4 x.2.2)

/-- Two envelopes of one entry point: intervals intersected, the larger alignments (R124). -/
def envMeet (a b : Envs) : Envs := (a.zip b).map fun x => (max x.1.1 x.2.1, min x.1.2.1 x.2.2.1, Nat.max x.1.2.2 x.2.2.2)

/-- Phase 6: bounds and envelopes. -/
def phaseBounds (s : State) (l : Load) : State :=
  let cs := strainings s l
  let runs := (entryPairs l cs).map fun x => (x.1, x.2, entryEnv x.2 (dField x.1 2))
  let bad := runs.flatMap fun x => match x.2.2 with
    | .error f => [f]
    | .ok _ => []
  let used := runs.flatMap fun x => match x.2.2 with
    | .error _ => []
    | .ok r => r.2
  let meet := used.flatMap fun a => (used.filter (regionsMeet a)).map fun _ => (⟨0xC, 6, 0xFF, a.sect, a.off, a.lid⟩ : LoadEnd)
  let tables := cs.flatMap fun c => c.ops.flatMap (tableUse c)
  let pool := flawIf (poolBad l.descriptor) (⟨0xC, 6, 0xFF, 0xFF, 0, 0⟩ : LoadEnd)
  let envOf := fun (lid : Nat) => runs.foldl (fun a x => match x.2.2 with
    | .error _ => a
    | .ok r => if x.1.lid = lid then envMeet a r.1 else a) Envs.full
  let apart := (declsIn l.image 9).flatMap fun d => flawIf (envEmpty (envOf d.lid)) (⟨0xC, 6, 0xFF, d.sect, d.off, 0⟩ : LoadEnd)
  let entries := runs.map fun x =>
    { lid := BitVec.ofNat 18 x.1.lid, eng := x.2.1.eng, lpot := x.2.1.lp,
      entry := BitVec.ofNat 32 (nativeEntry s l.image x.2.1.lp x.2.1.eng (dField x.1 2)), env := envBits (envOf x.1.lid) : EntryPt }
  let trayOf := fun (n : Nat) =>
    ((used.filter fun d => dField d 1 / 2 ^ 27 == n).map fun d => (dField d 1 % 2 ^ 27, dField d 2)).eraseDups
  let ps := l.pots.map fun p => { p with res := { p.res with tray := trayOf p.res.pot } }
  endOr s l (pool ++ bad ++ apart ++ meet ++ tables)
    (nextPhase (setInf s l.id { infOf s l.id with res := ps.map LoadPot.res }) { l with pots := ps, entries := entries })

/-! Commit (R115). -/

/-- What a pot holds where the load is about to write (R113). -/
def undoOf (s : State) (l : Load) (p : LoadPot) : CommitUndo :=
  let q := potOf s (potNo p.res.pot)
  let r := p.res
  { was :=
      { p with
        program := [], queues := r.queues.map (queueOf q), descs := r.descs.map fun k => tget (seqOf q (engOfCode (k / 256))).descs (k % 256) 0
        recipes := r.recipes.map (recipeOf q.vxe), tables := r.tables.map (sfDescOf q), microwords := []
        syncs := r.syncs.map (syncWordOf q.snc), trayWords := [], ftq := q.mxe.ftq, dispatchQ := q.vxe.dispatchQ }
    stores := if l.leafLen = 0 then [] else q.lus.map fun x => (x.1, luCode q x.1) }

/-- Steps 1 to 4 on one pot, and the queue bytes and tray regions of a restore. -/
def commitPot (l : Load) (s : State) (p : LoadPot) : State :=
  let n := potNo p.res.pot
  let s1 := writeAddrBytes n (loadWho l.req.tag) (p.program.length / 32 + 2) s p.res.progBase.toNat p.program false
  let s2 := updPot s1 n fun t => ownQueues (putTables t p.res p) p.res (some l.id)
  let s3 := runAll (fun t x => trayWriteWords t (trayGlobal n x.1) x.2) p.trayWords s2
  if l.leafLen = 0 then s3
  else
    let bs := fitBytes (8 * l.leafLen.toNat) (p.microwords.flatMap fun w => bytesOfNat 8 w.toNat)
    pushLeaf (trayWrite s3 (trayGlobal n (commitRoom l)) bs false) n ⟨commitLeaf l, .firmware, []⟩

/-- Phase 7 up to the microword loads; each pot then reports commit done. -/
def phaseCommit (s : State) (l : Load) : State :=
  setLoad (runAll (commitPot l) l.pots s) { l with phase := 8, doneLeft := l.place, undo := l.pots.map (undoOf s l) }

/-- The cores that a phase runs on take commands, and the LU command queues have room for the commit (R108, R112). -/
def phaseReady (s : State) (l : Load) : Bool :=
  let ph := l.phase.toNat
  if ph ≤ 2 then potTakes s l.req.recv && addrServed s l.req.recv (ldImage l.descriptor)
  else if ph ≤ 4 then potTakes s l.lead
  else l.place.all fun n => potTakes s (potNo n) &&
    (ph != 7 || ((potOf s (potNo n)).trayClear && decide (lucDepth (potOf s (potNo n)) < 128)))

/-- LOAD_PHASE: the phase that the load is in runs to its end. -/
def execLoadPhase (s : State) : Result :=
  match s.inf.load with
  | none => .next s
  | some l =>
    whenDo (phaseReady s l && decide (l.phase.toNat < 8)) s
      (match l.phase.toNat with
       | 1 => phaseRead s l
       | 2 => phasePlace s l
       | 3 => phaseDecl s l
       | 4 => phaseAlloc s l
       | 5 => phaseStrain s l
       | 6 => phaseBounds s l
       | _ => phaseCommit s l)

/-- LOAD_PHASE_TIMEOUT: a pot has not reported the end of a phase within 2 s (R118). -/
def execLoadPhaseTimeout (n : PotIx) (s : State) : Result :=
  whenDo (loadOn s n && s.inf.load.any fun l => decide (l.phase.toNat < 8) || l.doneLeft.contains n.toNat) s (interruptLoad s n)

/-- Step 5 on one pot: its sync words. -/
def commitSyncs (s : State) (l : Load) (p : LoadPot) : State :=
  let n := potNo p.res.pot
  updPot s n fun q => { q with snc := (p.res.syncs.zip p.syncs).foldl (fun c x =>
    setSyncWord c x.1 { x.2 with owner := l.id, alloc := true }) q.snc }

/-- Steps 6 and 7: the table entry, the result record, the completion. -/
def commitEnd (s : State) (l : Load) : State :=
  let mask := BitVec.ofNat 32 ((l.place.map fun n => 2 ^ n).sum)
  let s1 := setInf s l.id
    { infOf s l.id with
      state := 2, subst := l.subst, lead := l.lead, npots := BitVec.ofNat 6 (loadPots l), xlatVer := BitVec.ofNat 16 (xlatVer s)
      leafBase := l.leafBase, leafLen := l.leafLen, pots := mask, inflight := 0, phys := l.place, entries := l.entries
      res := l.pots.map LoadPot.res, failing := false }
  endLoad s1 l ⟨0, 0, 0xFF, 0xFF, 0, 0⟩

/-- LOAD_COMMIT_DONE: a pot's microword load has completed; its sync words are set and it reports. The last report ends the load
(R115). -/
def execLoadCommitDone (n : PotIx) (s : State) : Result :=
  match s.inf.load with
  | none => .next s
  | some l =>
    match l.pots.find? fun p => p.res.pot == n.toNat with
    | none => .next s
    | some p =>
      let q := potOf s n
      let w := commitLeaf l
      let left := l.doneLeft.filter fun x => x != n.toNat
      let s1 := commitSyncs s l p
      let idle := !(q.lucq.any fun x => x.raw == w) && !(q.leafWait.any fun x => x.raw == w) && !(q.runs.any fun x => x.raw == w)
      whenDo (decide (l.phase.toNat = 8) && l.doneLeft.contains n.toNat && potTakes s n && idle) s
        (if left.isEmpty then commitEnd s1 l else setLoad s1 { l with doneLeft := left })

/-! LAUNCH (R127). -/

def laLid (h : Line) : BitVec 18 := fieldB h 192 18
def laMask (h : Line) : BitVec 32 := fieldB h 224 32
def laArg (h : Line) (k : Nat) : BitVec 48 := fieldB h (256 + 64 * k) 48

/-- An argument lies in its envelope and meets its alignment (R124). -/
def inEnvelope (a : BitVec 48) (e : BitVec 48 × BitVec 48 × BitVec 4) : Bool :=
  decide (e.1.toNat ≤ a.toNat ∧ a.toNat ≤ e.2.1.toNat) && a.toNat % 2 ^ e.2.2.toNat == 0

/-- The entry points that a launch names, one for each logical pot of its mask. -/
def launchEntries (x : Inf) (h : Line) : List EntryPt :=
  x.entries.filter fun e => e.lid == laLid h && bitAt (laMask h) e.lpot
/-- The checks of steps 1 and 2. -/
def launchOk (x : Inf) (h : Line) : Bool :=
  let es := launchEntries x h
  x.state == 2 && (x.entries.any fun e => e.lid == laLid h) &&
    (upto 32).all (fun lp => !bitAt (laMask h) lp || (decide (lp < x.npots.toNat) && es.any fun e => e.lpot == lp)) &&
    (x.entries.filter fun e => e.lid == laLid h).all fun e => (upto 4).all fun k => inEnvelope (laArg h k) (nth e.env k (0, 0, 0))

/-- The engine command of one pot (R62). -/
def launchCmd (h : Line) (e : EntryPt) : BitVec 256 :=
  BitVec.ofNat 256 ((hdrTag h).toNat + (hdrInf h).toNat * 2 ^ 16 + e.entry.toNat * 2 ^ 32 +
    ((upto 4).map fun k => (laArg h k).toNat * 2 ^ (64 + 48 * k)).sum)

def launchPush (x : Inf) (h : Line) (s : State) (e : EntryPt) : State :=
  pushCmd s (potNo (nth x.phys e.lpot 0)) e.eng (launchCmd h e)
def launchRoom (s : State) (x : Inf) (e : EntryPt) : Bool :=
  let p := potOf s (potNo (nth x.phys e.lpot 0))
  cmdqRoom p e.eng && !(p.pushWait.any fun y => y.1 == e.eng) && p.trayClear

/-- LAUNCH: the lead checks it, and every named pot's strainer core pushes one engine command; it waits while a queue is full. -/
def execLaunch (n : PotIx) (s : State) : Result :=
  match takeAtCore s n 2 with
  | none => .next s
  | some (c, t) =>
    let h := c.header
    let x := infOf s (hdrInf h)
    if !launchOk x h then .next (answerMember t n (simpleAns c.key .rejected))
    else
      let es := launchEntries x h
      whenDo (potTakes s x.lead && es.all fun e => launchRoom s x e && potTakes s (potNo (nth x.phys e.lpot 0))) s
        (answerMember (runAll (launchPush x h) es t) n (simpleAns c.key .ok))

/-! SAVE and UNLOAD (R128, R130). -/

def addDrain (s : State) (id : BitVec 12) (n : PotIx) (key : Nat) (isSave : Bool) (area : BitVec 41) : State :=
  { s with inf := { s.inf with drains := s.inf.drains ++ [⟨id, n, key, isSave, area⟩] } }

/-- The infusion is saved if saving, and released; the command completes OK. -/
def drainDone (s : State) (d : Drain) : State :=
  let s1 := if d.isSave then saveCopy s d.infusion d.area.toNat else s
  let s2 := releaseInfusion s1 d.infusion
  answerMember { s2 with inf := { s2.inf with drains := s2.inf.drains.filter fun x => x.infusion != d.infusion } } d.pot
    (simpleAns d.cmd .ok)

/-- At once when nothing is in flight; otherwise the drain waits. -/
def drainOrWait (s : State) (d : Drain) : State :=
  if (infOf s d.infusion).inflight = 0 then drainDone s d else addDrain s d.infusion d.pot d.cmd d.isSave d.area

def setDraining (s : State) (id : BitVec 12) : State := setInf s id { infOf s id with state := 3 }

/-- SAVE: of a LOADED infusion it drains, of a FAULTED one it copies at once; an area too small is refused (R130). DESIGN CHOICE:
of an infusion in any other state it completes REJECTED (log entry 106). -/
def execSave (n : PotIx) (s : State) : Result :=
  match takeAtCore s n 5 with
  | none => .next s
  | some (c, t) =>
    let id := hdrInf c.header
    let x := infOf s id
    let room := fieldN c.header 256 64
    match c.addr with
    | none => .next (answerMember t n (simpleAns c.key .rejected))
    | some a =>
      if (x.state ≠ 2 ∧ x.state ≠ 4) ∨ room < saveSize s x ∨ a.toNat % 64 ≠ 0 then .next (answerMember t n (simpleAns c.key .rejected))
      else
        whenDo (potTakes s x.lead) s
          (if x.state = 4 then drainDone t ⟨id, n, c.key, true, a⟩ else addDrain (setDraining t id) id n c.key true a)

/-- An abort: a drain that waits ends REJECTED, the commands of the infusion stop as under R99, and it is released once they have ended
(R128). -/
def abortInfusion (s : State) (id : BitVec 12) : State :=
  let t := failDrains s id
  failInfusion (setInf t id { infOf t id with state := 4, failing := true }) id

/-- UNLOAD: a LOADED infusion drains; a FAULTED one is freed; with ABORT its commands end as under R99 first (R128). DESIGN CHOICE: of
an infusion in any other state it completes REJECTED (log entry 106). -/
def execUnload (n : PotIx) (s : State) : Result :=
  match takeAtCore s n 6 with
  | none => .next s
  | some (c, t) =>
    let id := hdrInf c.header
    let x := infOf s id
    let d : Drain := ⟨id, n, c.key, false, 0⟩
    let abort := bitAt c.header 192
    if x.state = 4 ∨ (abort ∧ (x.state = 2 ∨ x.state = 3)) then
      whenDo (potTakes s x.lead) s (drainOrWait (if x.state = 4 then t else abortInfusion t id) d)
    else if x.state = 2 then whenDo (potTakes s x.lead) s (addDrain (setDraining t id) id n c.key false 0)
    else .next (answerMember t n (simpleAns c.key .rejected))

/-- INFUSION_DRAINED: INFLIGHT has reached 0 (R128). -/
def execInfusionDrained (infusion : BitVec 12) (s : State) : Result :=
  match s.inf.drains.find? fun d => d.infusion == infusion with
  | none => .next s
  | some d =>
    let x := infOf s infusion
    whenDo (x.inflight == 0 && potTakes s x.lead && (x.state == 3 || x.state == 4)) s (drainDone s d)

/-- DRAIN_TIMEOUT: 100 ms have passed with INFLIGHT above 0 (R128). -/
def execDrainTimeout (infusion : BitVec 12) (s : State) : Result :=
  let x := infOf s infusion
  match s.inf.drains.find? fun d => d.infusion == infusion with
  | none => .next s
  | some d =>
    whenDo (x.state == 3 && x.inflight != 0) s
      (answerMember
        (setInf { s with inf := { s.inf with drains := s.inf.drains.filter fun y => y.infusion != infusion } } infusion { x with state := 2 })
        d.pot (simpleAns d.cmd .timeout))

end Sys2Proof.Machine
end

