-- ==== Sys2Proof/Machine/RegMap.lean ====
section
/-!
DEFINITION. The register map (R477, R486, R499, R500, R519, R520) and what every register and indirect entry reads (the register
tables of the chapters), without side effects. Values are plain naturals, word 0 in the lowest 64 bits.
-/

namespace Sys2Proof.Machine

/-! The map. -/

/-- Registers of the hub block: offset and words (R499, R519). Slots, capture records, MSI-X and CXL blocks are in `hubRange`. -/
def hubRegs : List (Nat × Nat) :=
  [(0x0, 1), (0x8, 1), (0x10, 1), (0x18, 1), (0x20, 1), (0x28, 1), (0x30, 1), (0x38, 1), (0x40, 1), (0x48, 1), (0x50, 1), (0x58, 1),
   (0x60, 1), (0x68, 1), (0x70, 1), (0x78, 1), (0x80, 1), (0x88, 1), (0x1000, 1), (0x1008, 1), (0x1010, 1), (0x1018, 1),
   (0x1020, 2), (0x1030, 1), (0x2000, 1), (0x2008, 1), (0x3000, 1), (0x3008, 1), (0x3010, 1), (0x4000, 1), (0x5000, 1),
   (0x5018, 1), (0x5020, 1), (0x5028, 1), (0x5030, 2), (0x5040, 8)]

/-- Registers of a pot's window (R500, R520). -/
def potRegs : List (Nat × Nat) :=
  [(0x0, 1), (0x8, 1), (0x10, 1), (0x18, 1), (0x20, 1), (0x28, 1), (0x1000, 1), (0x1008, 1), (0x1010, 1), (0x1018, 1), (0x2000, 1),
   (0x2008, 1), (0x2010, 1), (0x2018, 1)] ++
  ((upto 10).map fun i => (0x3000 + 8 * i, 1)) ++ ((upto 10).map fun i => (0x4000 + 8 * i, 1)) ++ [(0x4100, 4)] ++
  ((upto 11).map fun i => (0x5000 + 8 * i, 1)) ++
  [(0x6000, 2), (0x6010, 1), (0x6020, 2)] ++ ((upto 8).map fun i => (0x7000 + 8 * i, 1)) ++
  [(0x8000, 1), (0x8008, 1), (0x8010, 1), (0x8020, 2)] ++ ((upto 8).map fun i => (0x8040 + 8 * i, 1)) ++
  [(0x9000, 1), (0x9008, 1), (0x9010, 1), (0x9020, 2), (0x9030, 2), (0x9800, 1), (0x9808, 1), (0x9810, 1), (0x9820, 2), (0x9830, 2),
   (0xA000, 1), (0xA008, 1), (0xA010, 1), (0xA020, 4), (0xA040, 2), (0xA080, 1)] ++ ((upto 6).map fun i => (0xA0C0 + 8 * i, 1))

/-- The register of a list that holds an offset: its word-0 offset and its words. -/
def inRegs (l : List (Nat × Nat)) (off : Nat) : Option (Nat × Nat) := l.find? fun e => decide (e.1 ≤ off ∧ off < e.1 + 8 * e.2)

/-- Ranges of the hub block: request slots with their result windows, capture records, MSI-X tables and pending-bit arrays (each
word apart), the CXL blocks. -/
def hubRange (off : Nat) : Option (Nat × Nat) :=
  if 0x8000 ≤ off ∧ off < 0x8400 then some (off / 32 * 32, 4)
  else if 0x5400 ≤ off ∧ off < 0x5400 + 64 * 9 then some (off / 64 * 64, 8)
  else if 0x10000 ≤ off ∧ off < 0x12000 ∧ (off % 0x1000 < 0x400 ∨ off % 0x1000 = 0x800) then some (off, 1)
  else if 0x20000 ≤ off ∧ off < 0x60000 then some (off, 1)
  else none

/-- Ranges of a pot's window: request slots and capture records. -/
def potRange (off : Nat) : Option (Nat × Nat) :=
  if 0x6800 ≤ off ∧ off < 0x7000 then some (off / 32 * 32, 4)
  else if 0xA400 ≤ off ∧ off < 0xA400 + 64 * 48 then some (off / 64 * 64, 8)
  else none

/-- Where an offset of BAR0 lies: window, word-0 offset of the register in the live half, words, word, and whether it is the holding
half. -/
structure RegAt where
  win : Window
  base : Nat
  words : Nat
  word : Nat
  holding : Bool
  deriving DecidableEq, Repr

/-- The window, the offset in its live half, and the half (R477). -/
def splitOffset (off : Nat) : Window × Nat × Bool :=
  if off < 0x2000000 then (.hub, off % 0x1000000, decide (0x1000000 ≤ off))
  else (.pot (BitVec.ofNat 5 ((off - 0x2000000) / 0x100000)), off % 0x80000, decide (0x80000 ≤ off % 0x100000))

def locate (off : Nat) : Option RegAt :=
  let p := splitOffset off
  let hit := match p.1 with
    | .hub => (inRegs hubRegs p.2.1).orElse fun _ => hubRange p.2.1
    | .pot _ => (inRegs potRegs p.2.1).orElse fun _ => potRange p.2.1
  hit.map fun h => ⟨p.1, h.1, h.2, (p.2.1 - h.1) / 8, p.2.2⟩

/-- The key of a register: the BAR0 offset of its word 0. -/
def regKey (win : Window) (base : Nat) : Nat :=
  match win with
  | .hub => base
  | .pot n => potReg n base
def winNo : Window → Nat
  | .hub => 0
  | .pot n => potWin n

/-- An indirect space: entries, words, and the commit word where the pair writes it (R486). -/
structure Space where
  entries : Nat
  words : Nat
  commit : Option Nat
  deriving DecidableEq, Repr

def hubSpace : Nat → Option Space
  | 0x01 => some ⟨2048, 1, some 0⟩
  | 0x02 => some ⟨4096, 2, none⟩
  | 0x03 => some ⟨16, 2, some 1⟩
  | 0x04 => some ⟨4096, 2, none⟩
  | 0x05 => some ⟨4096, 2, some 0⟩
  | 0x06 => some ⟨6, 2, none⟩
  | 0x07 => some ⟨1, 12, some 11⟩
  | 0x08 => some ⟨512, 1, none⟩
  | 0x09 => some ⟨8192, 1, none⟩
  | 0x89 => some ⟨8192, 1, none⟩
  | _ => none
def potSpace : Nat → Option Space
  | 0x10 => some ⟨48, 2, some 0⟩
  | 0x11 => some ⟨768, 4, some 3⟩
  | 0x12 => some ⟨256, 33, some 32⟩
  | 0x13 => some ⟨256, 1, none⟩
  | 0x14 => some ⟨16, 4, some 2⟩
  | 0x15 => some ⟨65536, 3, none⟩
  | 0x16 => some ⟨1056, 1, some 0⟩
  | 0x17 => some ⟨64, 1, none⟩
  | 0x18 => some ⟨64, 2, none⟩
  | 0x19 => some ⟨8192, 1, none⟩
  | 0x1A => some ⟨16, 1, none⟩
  | 0x1B => some ⟨64, 2, none⟩
  | 0x1C => some ⟨1, 5, some 4⟩
  | 0x1D => some ⟨4096, 2, some 1⟩
  | 0x98 => some ⟨64, 2, none⟩
  | _ => none
def spaceOf (win : Window) (code : Nat) : Option Space :=
  match win with
  | .hub => hubSpace code
  | .pot _ => potSpace code

/-! Helpers of the values. -/

/-- A value from fields: low bit and value each. -/
def packed (l : List (Nat × Nat)) : Nat := (l.map fun e => e.2 * 2 ^ e.1).sum
def bit (b : Bool) : Nat := b.toNat
/-- A counter shown in a field of `k` bits, stopping at its greatest value. -/
def capped (k v : Nat) : Nat := Nat.min (2 ^ k - 1) v
/-- A register's value with its buffered RWB bits in place of the applied ones (R12). -/
def overlaid (s : State) (key mask v : Nat) : Nat :=
  match bufferOf s key with
  | some b => v - (v &&& mask) + (b &&& mask)
  | none => v
/-- A free bit for what only time decides. -/
def freeBits (s : State) (k : Nat) : Nat := fieldN (Config.freeValue s.freeCtr) 0 k

/-! Hub registers. -/

def slotCount (s : State) (st : SlotState) : Nat := (s.hfe.slots.filter fun e => e.2.state == st).length
def hfeStatus (s : State) : Nat :=
  packed [(0, bit s.hfe.pimOff), (1, (hostCmds s.hfe).length), (15, slotCount s .assembling), (28, slotCount s .waiting)]
def headStatus (h : Head) : Nat :=
  packed [(0, bit h.up), (1, h.proto.toNat), (3, h.rate.toNat), (5, h.width.toNat), (7, bit h.flit256), (8, h.decoders.toNat),
    (16, h.downs.toNat)]
def hfePortStatus (s : State) : Nat := packed [(0, headStatus (headOf s 0)), (32, headStatus (headOf s 1))]
/-- HFE_INTERLEAVE with NSLOTS and LOCKED (R33). -/
def hfeInterleave (s : State) : Nat :=
  packed [(0, fieldN s.hfe.interleave 0 5), (8, fieldN s.hfe.interleave 8 6), (16, (enabledPots s).length), (31, bit (interleaveLocked s))]
def pmtHubValue (s : State) : Nat :=
  let h := s.pmtHub
  overlaid s pmtHubKey (2 ^ 28 - 1)
    (packed [(0, h.potBudget.toNat), (16, h.linkRes.toNat), (28, 160), (36, h.unallotted.toNat), (52, bit h.mismatch)])

/-- Valid readings of the kettle with their keys; the highest, the first of equals. -/
def ketHottest (k : Ket) : Option (Nat × Int) :=
  (k.sensors.filter fun e => sensorValid e.2).foldl (fun a e =>
    match a with
    | some x => if x.2 < e.2.raw.toInt then some (e.1, e.2.raw.toInt) else a
    | none => some (e.1, e.2.raw.toInt)) none
/-- Pots whose sensors are measured more often than every 1 ms (R431). -/
def ketFast (s : State) : Nat := ((upto 32).map fun n => if (tget s.ket.timers n KetTimer.reset).period < 1000 then 2 ^ n else 0).sum
def ketStatus (s : State) : Nat :=
  let hot := ketHottest s.ket
  let at_ := hot.elim 0 Prod.fst
  packed [(0, bit (bitAt s.pins.alert 0)), (1, bit (allPots.any fun n => (potOf s n).pmt.lvl != 0)),
    (2, bit (s.ket.timers.any fun e => e.2.tooHot)), (3, bit (s.pins.alert != 0)),
    (4, (BitVec.ofInt 12 (hot.elim 0 Prod.snd)).toNat), (16, at_ / 256), (21, bit (decide (at_ / 8 % 32 = 17) && hot.isSome)), (22, ketFast s)]

/-- Block of a register's offset for PENDING and CFG_ERR (R498). -/
def hubBlock (off : Nat) : Nat := if off < 0x6000 then off / 0x1000 else 0
def potBlock (off : Nat) : Nat :=
  if off < 0x1000 then 11 else if off < 0x9000 then off / 0x1000 - 1 else if off < 0x9800 then 8 else if off < 0xA000 then 9 else 10

/-- Blocks of a window with a buffered write not yet applied. -/
def pendingBits (s : State) (win : Window) : Nat :=
  let blocks := s.regs.buffered.filterMap fun e =>
    match win with
    | .hub => if e.1 < 0x1000000 then some (hubBlock e.1) else none
    | .pot n => if potReg n 0 ≤ e.1 ∧ e.1 < potReg n 0x80000 then some (potBlock (e.1 - potReg n 0)) else none
  ((upto 16).map fun b => if blocks.contains b then 2 ^ b else 0).sum

/-- HUB_REJECT_COUNT, HUB_SNAP_CTL and the like are stored whole; CUP_FAULT gives the selected record or an empty one (R513). -/
def faultSelected (s : State) (who : Requester) : Line :=
  let q := tget s.cup.sel (requesterCode who) 0
  let r := tget s.cup.ring (q.toNat % 1024) 0
  if q ≠ 0 ∧ fieldB r 96 32 = q then r else 0

/-- A capture record as the reader sees it (R507). -/
def captureValue (c : Capture) : Nat := (c.words.zipIdx.map fun w => w.1.toNat * 2 ^ (64 * w.2)).sum

/-- A request slot, or its result window: view, DONE, status (R298). -/
def slotValue (slots : SMap SncSlot) (i : Nat) (result : Bool) : Nat :=
  let x := tget slots i SncSlot.reset
  if result then packed [(0, x.view.toNat), (128, bit x.done), (160, statusCode x.status)] else x.request.toNat

/-- MSI-X: an entry's address word, its data and mask word; the pending bits (R342). -/
def msixValue (h : Head) (off : Nat) : Nat :=
  if off = 0x800 then ((upto 64).map fun v => if (msixOf h v).pend then 2 ^ v else 0).sum
  else
    let e := msixOf h (off / 16)
    if off % 16 = 0 then e.addr.toNat else packed [(0, e.data.toNat), (32, bit e.masked)]

/-- The IND_ADDR of a requester's bank in a window (R484). -/
def bankKey (who : Requester) (win : Window) : Nat := requesterCode who * 64 + winNo win
def indAddr (s : State) (who : Requester) (win : Window) : Word64 := tget s.regs.indAddr (bankKey who win) 0

def hubValue (s : State) (who : Requester) (off : Nat) : Nat :=
  if off = 0x0 then packed [(0, gradeCode s.fuses.grade), (8, steppingCode s.fuses.stepping), (32, s.fuses.potEn.toNat)]
  else if off = 0x8 then s.fw.boot.toNat
  else if off = 0x10 then s.fw.fwCtl.toNat
  else if off = 0x18 then s.fw.keyCtl.toNat
  else if off = 0x20 then s.svc.resetCtl.toNat
  else if off = 0x28 then overlaid s svcKey (31 * 2 ^ 38) s.svc.ctl.toNat
  else if off = 0x30 then packed [(0, s.svc.retired.toNat), (32, s.svc.mxeOut.toNat)]
  else if off = 0x38 then s.svc.cursor.toNat
  else if off = 0x40 then s.blend.ctl.toNat
  else if off = 0x48 then s.hfe.absentCount.toNat
  else if off = 0x50 then s.hfe.lateCount.toNat
  else if off = 0x58 then s.hfe.rejectCount.toNat
  else if off = 0x60 then s.regs.snap.toNat
  else if off = 0x68 then pendingBits s .hub
  else if off = 0x70 then s.regs.hubCfgErr.toNat
  else if off = 0x78 then s.regs.hubRegErr.toNat
  else if off = 0x80 then (indAddr s who .hub).toNat
  else if off = 0x1000 then overlaid s hfeCtlKey (2 ^ 32 - 1) s.hfe.ctl.toNat
  else if off = 0x1008 then hfeStatus s
  else if off = 0x1010 then hfePortStatus s
  else if off = 0x1018 then hfeInterleave s
  else if off = 0x1020 then s.hfe.errCount.toNat
  else if off = 0x1030 then s.hfe.dropLog.toNat
  else if off = 0x2000 then pmtHubValue s
  else if off = 0x2008 then s.pmtHub.budgetRej.toNat
  else if off = 0x3000 then overlaid s ketCtlKey (2 ^ 35 - 1) s.ket.ctl.toNat
  else if off = 0x3008 then ketStatus s
  else if off = 0x3010 then s.ket.trips.toNat
  else if off = 0x4000 then overlaid s 0x4000 (2 ^ 19 - 1) s.drz.node.toNat
  else if off = 0x5000 then s.cup.ctl.toNat
  else if off = 0x5018 then s.cup.events.toNat
  else if off = 0x5020 then packed [(0, s.cup.newest.toNat), (32, s.cup.held)]
  else if off = 0x5028 then (tget s.cup.sel (requesterCode who) 0).toNat
  else if off = 0x5030 then s.cup.log.toNat
  else if off = 0x5040 then (faultSelected s who).toNat
  else if 0x5400 ≤ off ∧ off < 0x5640 then captureValue (tget s.cup.captures ((off - 0x5400) / 64) Capture.reset)
  else if 0x8000 ≤ off ∧ off < 0x8400 then slotValue s.hubSnc ((off - 0x8000) / 256 * 4 + off % 256 / 64) (decide (off % 64 = 32))
  else if 0x10000 ≤ off ∧ off < 0x12000 then msixValue (headOf s (BitVec.ofNat 1 (off / 0x1000))) (off % 0x1000)
  else if 0x20000 ≤ off ∧ off < 0x60000 then freeBits s 64
  else 0

/-! Pot registers. -/

def seqCtlValue (s : State) (n : PotIx) (e : Eng) : Nat :=
  let q := seqOf (potOf s n) e
  overlaid s (potReg n (engBase e)) 6 (packed [(0, bit q.halt), (1, q.lockWays.toNat)])
def seqStatusValue (q : Seqr) : Nat :=
  packed [(0, bit q.running), (1, bit q.stalled), (2, bit q.fetchWait), (3, bit q.faulted), (4, q.faultCause.toNat), (8, bit q.nanBranch),
    (16, capped 16 q.cmdq.length)]
def seqPcValue (q : Seqr) : Nat := packed [(0, q.pc.toNat), (32, q.tag.toNat), (48, q.infusion.toNat)]

def mxeStatusValue (s : State) (n : PotIx) : Nat :=
  let m := (potOf s n).mxe
  packed [(0, bit (mxePresent s n)), (1, bit m.failed), (2, bit m.acc0.touched), (3, bit m.acc0.intMode), (4, bit m.acc1.touched),
    (5, bit m.acc1.intMode), (6, bit m.ftqHeld), (7, bit m.residue)]
def ftqStatusValue (m : Mxe) : Nat :=
  let k := fun (st : FtqState) => (m.ftq.filter fun x => x.state == st).length
  packed [(0, 64 - m.ftq.length), (7, k .ready + k .draining), (14, bit (k .filling != 0)), (15, bit m.ftqOwner.isSome),
    (16, (m.ftqOwner.getD 0).toNat)]
/-- A proxy slot takes cycles while its LU has a command (R178). -/
def proxyRuns (p : Pot) : Bool := p.lus.any fun e => e.2.cmd.isSome && !e.2.done && luProxied p e.1
def vxeStatusValue (p : Pot) : Nat :=
  let v := p.vxe
  packed [(5, bit (!v.rowBuf.isEmpty && v.rowKept)), (6, bit (proxyRuns p)), (7, bit v.dispOwner.isSome), (8, (v.dispOwner.getD 0).toNat), (20, v.dispatchQ.length)]
def sumqStatusValue (v : Vxe) : Nat :=
  packed [(0, v.brewerQ.length), (7, bit (v.brewerQ.head?.any Summary.poison)), (8, bit v.emptyRead)]
def sfeStatusValue (f : Sfe) : Nat :=
  packed [(0, bit f.walk.isSome), (1, capped 14 (sfOutstanding f)), (15, f.scratchBusy.length), (23, bit f.batch.opened)]
def sncStatusValue (p : Pot) : Nat :=
  packed [(0, p.snc.waiters.length), (12, (portOf p 0).deferral.length), (21, (portOf p 1).deferral.length), (30, bit (!p.snc.held.isEmpty))]

/-- PAT_STATUS: PROGRESS over all channels; BEHIND depends on elapsed time and reads free. -/
def patStatusValue (s : State) (n : PotIx) : Nat :=
  let p := potOf s n
  let rows := ((upto 64).map fun g => (schedOf p g).patrolPos).sum
  packed [(0, p.pat.passes.toNat), (16, rows / 512 % 65536), (32, freeBits s 1), (33, bit ((upto 64).any fun g => !(schedOf p g).swept))]
def errHeadValue (a : Pat) : Nat := packed [(0, a.errNext.toNat), (6, bit a.overrun)]

def pmtPoolValue (s : State) (n : PotIx) : Nat :=
  let p := (potOf s n).pmt
  overlaid s (pmtPoolKey n) (2 ^ 20 - 1)
    (packed [(0, p.allot.toNat), (10, p.standing.toNat), (20, p.lvl.toNat), (23, p.clamp.toNat), (27, p.free.toNat), (39, bit p.mismatch)])
def pmtStatusValue (p : Pmt) : Nat :=
  let w := fun (c : PermitClass) => (p.waits.filter fun x => x.cls == c).length
  packed [(0, p.holds.length), (7, w .leaf), (14, Nat.min 1 (w .mxe)), (15, Nat.min 1 (w .vxe)), (16, Nat.min 1 (w .sfe)), (17, w .fw),
    (21, bit (pmtPrecedence p)), (22, bit (decide (p.free.toInt < 0))), (23, p.est.toNat)]
def pmtReqValue (p : Pmt) (core : Nat) : Nat :=
  packed [(0, fieldN (tget p.reqs core 0) 0 10), (12, bit (permitWaits p .fw core)), (13, bit (permitAny p .fw core))]

def portStateCode : PortState → Nat
  | .down => 0
  | .training => 1
  | .init => 2
  | .up => 3
  | .drain => 4
def sptCtlValue (s : State) (n : PotIx) (k : Nat) : Nat :=
  let p := portOf (potOf s n) k
  let lim := (bufferOf s (potReg n (0x9000 + 0x800 * k))).getD p.laneLimit.toNat
  packed [(0, bit p.enable), (2, lim)]
def sptStatusValue (p : Port) : Nat :=
  packed [(0, portStateCode p.state), (3, p.swapped.toNat), (7, bit p.rttOver), (8, p.partner.toNat), (24, p.partnerPort.toNat),
    (30, p.downCause.toNat), (33, capped 12 p.replay.length)]

def traceStatusValue (c : CupPot) : Nat :=
  packed [(0, c.buffer.length), (14, bit c.stopped), (15, bit c.triggered), (16, bit c.loss), (17, c.dropped.toNat)]

/-- An engine's registers after the four of R100. -/
def engValue (s : State) (n : PotIx) (e : Eng) (i : Nat) : Nat :=
  let p := potOf s n
  let q := seqOf p e
  if i = 0 then seqCtlValue s n e
  else if i = 1 then seqStatusValue q
  else if i = 2 then overlaid s (potReg n (engBase e + 0x10)) (2 ^ 32 - 1) q.stallUs.toNat
  else if i = 3 then seqPcValue q
  else
    match e with
    | .mxe =>
      nth [overlaid s (potReg n 0x3020) (2 ^ 33 - 1) p.mxe.ctl.toNat, mxeStatusValue s n, p.mxe.events.toNat, p.mxe.stalls.toNat,
        p.mxe.numeric.toNat, ftqStatusValue p.mxe] (i - 4) 0
    | .vxe =>
      nth [overlaid s (potReg n 0x4020) (2 ^ 32 - 1) p.vxe.ctl.toNat, vxeStatusValue p, sumqStatusValue p.vxe, p.vxe.events.toNat,
        p.vxe.stalls.toNat, p.vxe.numeric.toNat] (i - 4) 0
    | .sfe =>
      nth [overlaid s (potReg n 0x5020) (2 ^ 14 - 1) p.sfe.ctl.toNat, sfeStatusValue p.sfe, p.sfe.traffic.toNat, p.sfe.events.toNat,
        p.sfe.dispatch.toNat, p.sfe.stalls.toNat, p.sfe.numeric.toNat] (i - 4) 0

def potValue (s : State) (who : Requester) (n : PotIx) (off : Nat) : Nat :=
  let p := potOf s n
  let whole := fun (key v : Nat) => overlaid s key (2 ^ 128 - 1) v
  if off = 0x0 then pendingBits s (.pot n)
  else if off = 0x8 then p.cfgErr.toNat
  else if off = 0x10 then p.regErr.toNat
  else if off = 0x18 then packed [(0, p.snapSeq.toNat), (16, bit p.snapValid)]
  else if off = 0x20 then (indAddr s who (.pot n)).toNat
  else if off = 0x1000 then whole (potReg n off) p.bksTimingA.toNat
  else if off = 0x1008 then whole (potReg n off) p.bksTimingB.toNat
  else if off = 0x1010 then whole (potReg n off) p.bksCtl.toNat
  else if off = 0x1018 then p.bksRetrain.toNat
  else if off = 0x2000 then whole (potReg n off) p.luSeed.toNat
  else if off = 0x2008 then whole (potReg n off) p.luLimit.toNat
  else if off = 0x2010 then whole (potReg n off) p.luProxy.toNat
  else if off = 0x2018 then p.luEvents.toNat
  else if 0x3000 ≤ off ∧ off < 0x4000 then engValue s n .mxe ((off - 0x3000) / 8)
  else if 0x4000 ≤ off ∧ off < 0x4100 then engValue s n .vxe ((off - 0x4000) / 8)
  else if off = 0x4100 then (p.vxe.brewerQ.head?.map Summary.word).elim 0 BitVec.toNat
  else if 0x5000 ≤ off ∧ off < 0x6000 then engValue s n .sfe ((off - 0x5000) / 8)
  else if off = 0x6000 then whole (potReg n off) p.snc.ctl.toNat
  else if off = 0x6010 then sncStatusValue p
  else if off = 0x6020 then p.snc.events.toNat
  else if 0x6800 ≤ off ∧ off < 0x7000 then slotValue p.snc.slots ((off - 0x6800) / 256 * 4 + off % 256 / 64) (decide (off % 64 = 32))
  else if off = 0x7000 then whole (potReg n off) p.pat.ctl.toNat
  else if off = 0x7008 then patStatusValue s n
  else if off = 0x7010 then p.pat.counts.toNat
  else if off = 0x7018 then p.pat.scrub.toNat
  else if off = 0x7020 then p.pat.cmd.toNat
  else if off = 0x7028 then p.pat.cmdArg.toNat
  else if off = 0x7030 then errHeadValue p.pat
  else if off = 0x7038 then p.pat.flipCtl.toNat
  else if off = 0x8000 then pmtPoolValue s n
  else if off = 0x8008 then whole (potReg n off) p.pmt.cost.toNat
  else if off = 0x8010 then pmtStatusValue p.pmt
  else if off = 0x8020 then p.pmt.events.toNat
  else if 0x8040 ≤ off ∧ off < 0x8080 then pmtReqValue p.pmt ((off - 0x8040) / 8)
  else if off % 0x800 = 0 ∧ off / 0x1000 = 9 then sptCtlValue s n ((off - 0x9000) / 0x800)
  else if off % 0x800 = 8 ∧ off / 0x1000 = 9 then sptStatusValue (portOf p ((off - 0x9000) / 0x800))
  else if off % 0x800 = 0x10 ∧ off / 0x1000 = 9 then (portOf p ((off - 0x9000) / 0x800)).rttNs.toNat
  else if off % 0x800 = 0x20 ∧ off / 0x1000 = 9 then (portOf p ((off - 0x9000) / 0x800)).events.toNat
  else if off % 0x800 = 0x30 ∧ off / 0x1000 = 9 then (portOf p ((off - 0x9000) / 0x800)).traffic.toNat
  else if off = 0xA000 then p.cup.ctl.toNat
  else if off = 0xA008 then p.cup.en.toNat
  else if off = 0xA010 then traceStatusValue p.cup
  else if off = 0xA020 then p.cup.buffer.head?.elim 0 BitVec.toNat
  else if off = 0xA080 then p.cup.pmcSel.toNat
  else if 0xA0C0 ≤ off ∧ off < 0xA0F0 then (tget p.cup.pmc ((off - 0xA0C0) / 8) 0).toNat
  else if 0xA400 ≤ off ∧ off < 0xB000 then captureValue (tget p.cup.captures ((off - 0xA400) / 64) Capture.reset)
  else 0

def regValue (s : State) (who : Requester) (win : Window) (base : Nat) : Nat :=
  match win with
  | .hub => hubValue s who base
  | .pot n => potValue s who n base

/-! Indirect entries (R486). -/

def infValue (x : Inf) : Nat :=
  packed [(0, x.state.toNat), (3, bit x.subst), (4, x.lead.toNat), (9, x.npots.toNat), (16, x.xlatVer.toNat), (32, x.leafBase.toNat),
    (41, x.leafLen.toNat), (64, x.pots.toNat), (96, x.inflight.toNat)]

/-- HUB_FW_VER of a KIND (R454). -/
def fwVerValue (s : State) (kind : Nat) : Nat :=
  match kindOfCode kind with
  | none => 0
  | some k =>
    let p := curPointer s.caddy
    let at_ := fun (pl : ImgPlace) => (imageAt s.caddy k pl).getD []
    let run := if k = .owndef then s.fw.ownDefImage else runImage s k
    packed [(0, imgVersion run), (32, imgVersion (at_ (committedPlace p k))), (64, imgVersion (at_ (lkgPlace p k))),
      (96, bit (runPlace s k == .slot true)), (97, bit (imgKeyId run == 1)), (98, bit (tget s.fw.staged kind false))]

/-- KET_BAND: band, FORCED, the die's temperature (0 with no valid sensor), valid sensors. -/
def ketBandValue (s : State) (n : PotIx) (die : Nat) : Nat :=
  packed [(0, bandOf (potOf s n) die), (2, bit (tget (potOf s n).forced die false)),
    (3, (BitVec.ofInt 12 ((dieTemp s.ket n.toNat (die, 4)).getD 0)).toNat), (15, (validRaws s.ket n.toNat (die, 4)).length)]
def ketTempValue (x : Sensor) : Nat := packed [(0, x.shown.toNat), (12, bit x.faulted), (13, bit x.excluded), (14, x.exclCount.toNat)]

def queueValue (q : Queue) : Nat := packed [(0, fieldN q.cfg 0 45), (64, q.head.toNat), (96, q.tail.toNat)]
/-- A recipe entry's words, two to a data word. -/
def recipeValue (r : Recipe) : Nat := ((r.header :: r.ops).zipIdx.map fun w => w.1.toNat * 2 ^ (32 * w.2)).sum
/-- SNC_WORD with WHEAD: the entry of the first operation parked on the word, 0xFFF with none (R288). -/
def syncWordValue (s : State) (n : PotIx) (ix : Nat) : Nat :=
  let w := wordSeen (potOf s n).snc (fwWords s n) ix
  let first := (potOf s n).snc.waiters.find? fun x => x.index.toNat == ix
  packed [(0, w.value.toNat), (64, w.valueN.toNat), (128, bit w.full), (129, bit w.fullN), (130, bit w.alloc), (131, bit w.broken),
    (132, w.owner.toNat), (144, (first.map fun x => x.entry.toNat).getD 0xFFF)]
def luStatusValue (p : Pot) (i : Nat) : Nat :=
  let l := luOf p i
  packed [(0, bit (l.cmd.isSome && !l.done)), (1, bit l.fault), (2, l.cause.toNat), (6, bit (luProxied p i)), (7, bit l.dead), (8, l.tag.toNat),
    (24, l.infusion.toNat), (36, l.upc.toNat % 512)]
def bksStatusValue (p : Pot) (g : Nat) : Nat :=
  let c := schedOf p g
  packed [(0, bit c.whistle), (1, bandOf p (g / 4)), (3, capped 6 (c.debts.foldl (fun m d => Nat.max m d.2) 0)), (9, c.queue.length),
    (16, c.rt.length), (22, c.merge.length), (27, bit c.retraining)]
def streamValue (x : StreamEnt) : Nat := packed [(0, x.last.toNat), (32, x.acked.toNat), (64, bit x.lossy)]

def hubEntryValue (s : State) (code ix : Nat) : Nat :=
  match code with
  | 0x01 => (hubEntry s ix).val.toNat + (hubEntry s ix).comp.toNat * 2 ^ 32
  | 0x02 => (blendRec s (ix / 16) (ix % 16)).toNat
  | 0x03 => (stagedRec s ix).toNat
  | 0x04 => infValue (infOf s (BitVec.ofNat 12 ix))
  | 0x05 => (tget s.drz.routes ix Route.reset).ports.toNat + bit (tget s.drz.routes ix Route.reset).lost * 2 ^ 64
  | 0x06 => fwVerValue s ix
  | 0x07 => s.fw.keyStage.toNat
  | 0x08 => ketBandValue s (BitVec.ofNat 5 (ix / 16)) (ix % 16)
  | 0x09 => ketTempValue (sensorAt s.ket ix)
  | _ => 0

def potEntryValue (s : State) (n : PotIx) (code ix : Nat) : Nat :=
  let p := potOf s n
  match code with
  | 0x10 => queueValue (queueOf p ix)
  | 0x11 =>
    let q := seqOf p (if ix < 256 then .mxe else if ix < 512 then .vxe else .sfe)
    (tget q.descPend (ix % 256) (tget q.descs (ix % 256) 0)).toNat
  | 0x12 => recipeValue (tget p.vxe.recipePend ix (recipeOf p.vxe ix))
  | 0x13 => (recipeInfo s.fuses.stepping (recipeOf p.vxe ix)).toNat
  | 0x14 => (tget p.sfe.descPend ix (tget p.sfe.descs ix 0)).toNat
  | 0x15 => syncWordValue s n ix
  | 0x16 => luStatusValue p ix
  | 0x17 => bksStatusValue p ix
  | 0x18 => (schedOf p ix).events.toNat
  | 0x19 => (rowMapOf p (ix / 512) (ix / 128 % 4 * 16 + ix / 8 % 16) (ix % 8)).toNat
  | 0x1A => (bankMapOf p ix).toNat
  | 0x1B => (tget p.pat.errlog ix 0).toNat
  | 0x1C => p.pat.flipMask.toNat
  | 0x1D => streamValue (streamEnt p (BitVec.ofNat 16 ix))
  | _ => 0

/-- What an entry of a live space reads. -/
def entryValue (s : State) (win : Window) (code ix : Nat) : Nat :=
  match win with
  | .hub => hubEntryValue s code ix
  | .pot n => potEntryValue s n code ix

end Sys2Proof.Machine
end

