-- ==== Sys2Proof/Machine/Cup.lean ====
section
/-!
DEFINITION. Cupping (R505 to R510), the fault ring (R511 to R514), and a pot's trace buffer (R515 to R517).
-/

namespace Sys2Proof.Machine

/-! Islands (R504). -/

def islandNo : Island → Nat
  | .pot n u => potIsland n u.toNat
  | .hub u => hubIsland u.toNat
/-- Units of a pot that the manual names; the MXE and the FTQ only where the grade has them. -/
def potUnits (s : State) : List Nat :=
  (if mxeFused s then [0, 1] else []) ++ between 2 21 ++ between 32 48
def hubUnits : List Nat := upto 9
/-- An island number names a pot that is not in service. -/
def islandOff (s : State) (i : Nat) : Bool := decide (i < 4096) && !potOn s (BitVec.ofNat 5 (i / 128))

/-! Capture records (R506 to R508). -/

def setCapture (s : State) (i : Nat) (c : Capture) : State :=
  if 4096 ≤ i then { s with cup := { s.cup with captures := tset s.cup.captures (i % 128) c } }
  else updPot s (BitVec.ofNat 5 (i / 128)) fun p => { p with cup := { p.cup with captures := tset p.cup.captures (i % 128) c } }

/-- VALID cleared and the anchor gone: the island was in reset at the latch (R508). -/
def staleCapture (c : Capture) : Capture :=
  { c with words := setNth c.words 1 (putBit (nth c.words 1 0) 45 false), anchored := false }

/-- Word `i` of a register's value. -/
def wordOf (v i : Nat) : Word64 := BitVec.ofNat 64 (v / 2 ^ (64 * i))

/-- Words 2 to 7 of a core's record: pc, minstret, mcause, mepc. What firmware executes is not in the state: all but mcause are
free values (log entry 3). -/
def coreWords (s : State) (c : Core) : List Word64 × State :=
  let a := takeFree s
  let b := takeFree a.2
  let d := takeFree b.2
  ([a.1, b.1, BitVec.ofNat 64 c.mcause.toNat, d.1], d.2)

/-- Words 2 to 7 of a pot island's record. -/
def potWords (s : State) (n : PotIx) (u : Nat) : List Word64 × State :=
  let reg := fun (off : Nat) => wordOf (potValue s .host n off) 0
  let hi := fun (off : Nat) => wordOf (potValue s .host n off) 1
  let port := fun (b : Nat) => [reg (b + 8), reg (b + 0x20), hi (b + 0x20), reg (b + 0x30), hi (b + 0x30)]
  if 8 ≤ u ∧ u < 16 then coreWords s (coreOf (potOf s n) (u - 8))
  else if 32 ≤ u ∧ u < 48 then
    (wordOf (ketBandValue s n (u - 32)) 0 :: (upto 4).map fun c => wordOf (bksStatusValue (potOf s n) (4 * (u - 32) + c)) 0, s)
  else
    (match u with
     | 0 => [reg 0x3008, reg 0x3018, reg 0x3028, reg 0x3030, reg 0x3038, reg 0x3040]
     | 1 => [reg 0x3048]
     | 2 => [reg 0x4008, reg 0x4018, reg 0x4028, reg 0x4038, reg 0x4040, reg 0x4030]
     | 3 => [reg 0x5008, reg 0x5018, reg 0x5028, reg 0x5030, reg 0x5048, reg 0x5040]
     | 4 => [reg 0x6010, reg 0x6020, hi 0x6020]
     | 5 => [reg 0x7008, reg 0x7010, reg 0x7018]
     | 16 => port 0x9000
     | 17 => port 0x9800
     | 18 => [BitVec.ofNat 64 (capped 8 (potOf s n).lucq.length), reg 0x2018]
     | 19 => [reg 0x8000, reg 0x8010, reg 0x8020, hi 0x8020]
     | 20 => (upto 6).map fun i => reg (0xA0C0 + 8 * i)
     | _ => [], s)

/-- Words 2 to 7 of a hub island's record. -/
def hubWords (s : State) (u : Nat) : List Word64 × State :=
  let reg := fun (off : Nat) => wordOf (hubValue s .host off) 0
  let hi := fun (off : Nat) => wordOf (hubValue s .host off) 1
  if u < 4 then coreWords s (tget s.hubCores u Core.reset)
  else
    (match u with
     | 4 => [reg 0x1008, reg 0x1010, reg 0x1020, hi 0x1020]
     | 5 => [reg 0x2000, reg 0x2008]
     | 6 => [reg 0x3008, reg 0x3010]
     | 7 => [reg 0x5030, hi 0x5030]
     | _ => [], s)

/-- An island latches: CYC, a free value as R504 leaves it, CUPNO and ISLAND with VALID, and the copies; the anchor is that CYC. -/
def latchIsland (s : State) (i : Nat) : State :=
  let f := takeFree s
  let cyc : BitVec 56 := fieldB f.1 0 56
  let w := if 4096 ≤ i then hubWords f.2 (i % 128) else potWords f.2 (BitVec.ofNat 5 (i / 128)) (i % 128)
  let no : BitVec 32 := fieldB s.cup.ctl 32 32
  let head := [cyc.setWidth 64, BitVec.ofNat 64 (no.toNat + i * 2 ^ 32 + 2 ^ 45)]
  setCapture w.2 i ⟨head ++ w.1 ++ List.replicate (6 - w.1.length) 0, cyc, no, true⟩

/-! Starting a cupping (R505, R508, R509). -/

def cupBusy (s : State) : Bool := !s.cup.latchLeft.isEmpty
/-- Islands the latch message goes to: of every pot in service, and of the hub. -/
def latchTargets (s : State) : List Nat :=
  ((allPots.filter (potOn s)).map fun n => (potUnits s).map (potIsland n)).flatten ++ hubUnits.map hubIsland

/-- The MGMT message of a cupping, to the partner of every UP port but one (R509). -/
def cupSend (s : State) (origin : BitVec 16) (no : BitVec 32) (hops : Nat) (skip : Option Nat) : State :=
  let body := bytesOfNat 1 1 ++ bytesOfNat 2 origin.toNat ++ bytesOfNat 4 no.toNat ++ bytesOfNat 1 (hops % 16)
  runAll (fun t q =>
    let p := portAt t q
    if p.state == .up && skip != some q then
      txPush t q (msgFlits ⟨p.partner, nodeId t, portPot q, fieldB t.drz.node 16 3 |>.setWidth 4, 0, 0, 0, 0, 0⟩ 0xD body)
    else t) (upto 64) s

/-- The next CUPNO; its latch is under way. Pots in reset do not latch. -/
def cupBegin (s : State) : State :=
  let no : BitVec 32 := fieldB s.cup.ctl 32 32 + 1
  let stale := fun (p : Pot) => { p with cup := { p.cup with captures := p.cup.captures.map fun e => (e.1, staleCapture e.2) } }
  let s1 := runAll (fun t n => if potOn t n then t else updPot t n stale) (s.pots.map fun e => BitVec.ofNat 5 e.1) s
  { s1 with cup := { s1.cup with ctl := putBit (putField s.cup.ctl 32 32 no.toNat) 1 true, latchLeft := latchTargets s } }

/-- A trigger of this module: merged while BUSY, else a cupping with the next CUPNO, which CUP_LOG shows as this module's and SEND
sends on. -/
def startCupping (s : State) : State :=
  if cupBusy s then { s with cup := { s.cup with events := satField s.cup.events 0 16 1 } }
  else
    let s1 := cupBegin s
    let no := fieldN s1.cup.ctl 32 32
    let s2 := { s1 with cup := { s1.cup with log := BitVec.ofNat 128 (0xFFFF + no * 2 ^ 64) } }
    if bitAt s.cup.ctl 3 then cupSend s2 (nodeId s) (BitVec.ofNat 32 no) 0 none else s2

/-- The CUP block is up. -/
def cupServed (s : State) : Bool := hubOn s && s.power.step == .running

/-- CUPPING_START: START of CUP_CTL. -/
def execCuppingStart (s : State) : Result := whenDo (cupServed s) s (startCupping s)

/-- CUPPING_PERIOD_TIMER: the timer that PERIOD_US sets has expired. -/
def execCuppingPeriodTimer (s : State) : Result := whenDo (cupServed s && fieldN s.cup.ctl 8 24 != 0) s (startCupping s)

/-- CUPPING_LATCH: an island receives the latch message; BUSY ends with the last of them. -/
def execCuppingLatch (island : Island) (s : State) : Result :=
  let i := islandNo island
  let s1 := if islandOff s i then setCapture s i (staleCapture (captureOf s i)) else latchIsland s i
  let left := s.cup.latchLeft.filter (· != i)
  whenDo (s.cup.latchLeft.contains i) s
    { s1 with cup := { s1.cup with latchLeft := left, ctl := putBit s1.cup.ctl 1 (!left.isEmpty) } }

/-! CUPPING messages (R509). -/

/-- The origin as CUP_LOG names it. -/
def logOrigin (s : State) (origin : BitVec 16) : BitVec 16 := if ownNode s origin then 0xFFFF else origin

/-- A CUPPING message at an entry port: ignored without FOLLOW and when CUP_LOG holds it already, else followed and forwarded. -/
def cupFollow (n : PotIx) (k : BitVec 1) (origin : BitVec 16) (no : BitVec 32) (hops : BitVec 4) (s : State) : State :=
  let at_ := logOrigin s origin
  if !bitAt s.cup.ctl 2 || (fieldB s.cup.log 0 16 == at_ && fieldB s.cup.log 64 32 == no) then s
  else if cupBusy s then { s with cup := { s.cup with events := satField s.cup.events 0 16 1 } }
  else
    let s1 := cupBegin s
    let rtt := (portOf (potOf s n) k.toNat).rttNs.toNat
    let h := (hops.toNat + 1) % 16
    let s2 := { s1 with cup := { s1.cup with
      log := BitVec.ofNat 128 (at_.toNat + h * 2 ^ 16 + no.toNat * 2 ^ 64 + rtt * 2 ^ 96)
      events := satField s1.cup.events 16 16 1 } }
    if bitAt s.cup.ctl 3 then cupSend s2 origin no h (some (portNo n k)) else s2

/-- MGMT: a message of MKIND 1 is a CUPPING; any other kind is discarded with a fault record. -/
def execMgmt (n : PotIx) (k : BitVec 1) (hdr : MsgHdr) (mkind : Byte) (origin : BitVec 16) (originCupno : BitVec 32) (hops : BitVec 4)
    (s : State) : Result :=
  takeMsg n k hdr 0xD (bytesOfNat 1 mkind.toNat ++ bytesOfNat 2 origin.toNat ++ bytesOfNat 4 originCupno.toNat ++ bytesOfNat 1 hops.toNat)
    (fun t =>
      if mkind = 1 then cupFollow n k origin originCupno hops t
      else
        sendFault t { status := 0, tag := hdr.tag, infusion := hdr.infusion, island := potIsland n (16 + k.toNat), block := 6, cause := 3,
                      addr := hdr.addr.toNat, detail := portNo n k, detail2 := hdr.src.toNat }) s

/-! The fault ring (R513, R514). -/

/-- The record with its SEQ and CRC. -/
def sealRecord (r : Line) (q : BitVec 32) : Line :=
  let b := bytesOfLine (putField r 96 32 q.toNat)
  lineOfBytes (b.take 60 ++ bytesOfNat 4 (crc32c (b.take 60)).toNat)

/-- What hub firmware does on a record: it copies a kettle trip's record to the event log (R443), rewrites a remap entry from the repair
log (R402), and retires the MXE that a residue mismatch names (R227, R473). -/
def recordFirmware (s : State) (r : Line) : State :=
  let block := fieldN r 64 8
  let cause := fieldN r 72 8
  if !s.fw.running then s
  else if block = 9 ∧ cause = 2 ∧ s.power.pgCaddy then logCaddyEvent s r
  else if block = 5 ∧ cause = 1 then
    let n : PotIx := BitVec.ofNat 5 (fieldN r 48 13 / 128)
    if potPresent s n && mxePresent s n then retireMxeAll s n else s
  else if block = 4 ∧ cause = 3 then
    rewriteBank s (BitVec.ofNat 5 (fieldN r 48 13 / 128)) (fieldB r 384 6) (fieldB r 390 4)
  else s

/-- FAULT_RECORD_ACCEPT: the hub takes the oldest record of its inbound queue into the ring of 1,024 and raises vector 0. -/
def execFaultRecordAccept (s : State) : Result :=
  match s.cup.inbound with
  | [] => .next s
  | r :: rest =>
    let q := s.cup.newest + 1
    let x := sealRecord r q
    let s1 := { s with cup := { s.cup with
      inbound := rest, newest := q, ring := tset s.cup.ring (q.toNat % 1024) x, held := Nat.min 1024 (s.cup.held + 1) } }
    let s2 := recordFirmware (raiseModuleEvent s1) x
    whenDo (cupServed s) s (if bitAt s.cup.ctl 4 then startCupping s2 else s2)

/-- FAULT_RECORD_LOST: a record finds the inbound queue of 64 full (R514). -/
def execFaultRecordLost (island : Island) (s : State) : Result :=
  whenDo (!islandOff s (islandNo island) && decide (64 ≤ s.cup.inbound.length)) s (loseFault s)

/-! The trace buffer (R515 to R517, R520). -/

def traceRoom : Nat := 8192

/-- A trace record's 32 bytes; CYC is a free value, as R504 leaves it. -/
def traceBytes (n : PotIx) (unit event status tag inf arg0 : Nat) (arg1 : Nat) (loss : Bool) (cyc cupno : Nat) : ColWord :=
  BitVec.ofNat 256 (packed [(0, event), (8, potIsland n unit), (21, bit loss), (24, status), (32, tag), (48, inf), (64, cyc % 2 ^ 56),
    (128, cupno), (160, arg0), (192, arg1)])

/-- The trigger fires on this record (R517). -/
def traceHits (c : CupPot) (event tag : Nat) : Bool :=
  !c.triggered && fieldN c.ctl 4 8 == event && event != 0 && (bitAt c.ctl 3 || fieldN c.ctl 12 16 == tag)

/-- A record enters the buffer: past its room the oldest one goes with WRAP 1; with WRAP 0 the full buffer stops. -/
def traceKeep (c : CupPot) (r : ColWord) : CupPot :=
  let wrap := bitAt c.ctl 1
  let b := if traceRoom ≤ c.buffer.length ∧ wrap then c.buffer.drop 1 ++ [r] else c.buffer ++ [r]
  { c with buffer := b, stopped := c.stopped || (!wrap && decide (traceRoom ≤ b.length)) }

/-- The trigger and its POSTCOUNT (R517). -/
def traceTrigger (c : CupPot) (event tag : Nat) : CupPot :=
  let post := fieldN c.ctl 28 13
  if traceHits c event tag then { c with triggered := true, postLeft := post, stopped := c.stopped || post == 0 }
  else if c.triggered && c.postLeft != 0 then { c with postLeft := c.postLeft - 1, stopped := c.stopped || c.postLeft == 1 }
  else c

/-- A recorded event: stored, or dropped and counted while a full buffer has stopped. -/
def traceEvent (s : State) (n : PotIx) (unit event status tag inf arg0 arg1 : Nat) (loss : Bool) : State :=
  let c := (potOf s n).cup
  let full := !bitAt c.ctl 1 && decide (traceRoom ≤ c.buffer.length)
  if !bitAt c.ctl 0 || !bitAt c.en event || event == 0 || decide (0xC < event) then s
  else if c.stopped then
    if full then updPot s n fun p => { p with cup := { c with loss := true, dropped := satAdd c.dropped 1 } } else s
  else
    let f := takeFree s
    let r := traceBytes n unit event status tag inf arg0 arg1 loss f.1.toNat (captureOf s (potIsland n unit)).cupno.toNat
    let s1 := updPot f.2 n fun p => { p with cup := traceTrigger (traceKeep c r) event tag }
    if traceHits c event tag && bitAt c.ctl 2 then startCupping s1 else s1

/-- TRACE_RECORD: a unit's record reaches the pot's trace buffer; STATUS stands for CMD_DONE only. -/
def execTraceRecord (n : PotIx) (unit : BitVec 6) (event : Byte) (status : Status) (tag : BitVec 16) (infusion : BitVec 12)
    (arg0 : BitVec 32) (arg1 : Word64) (loss : Bool) (s : State) : Result :=
  whenDo (potOn s n && (potUnits s).contains unit.toNat) s
    (traceEvent s n unit.toNat event.toNat (if event = 2 then statusCode status else 0) tag.toNat infusion.toNat arg0.toNat arg1.toNat loss)

/-- CUP_MARK_WRITE: firmware's mark, as a record of the trace island (R516). -/
def execCupMarkWrite (n : PotIx) (arg0 : BitVec 32) (arg1 : Word64) (s : State) : Result :=
  let s1 := updPot s n fun p => { p with cup := { p.cup with mark := BitVec.ofNat 128 (arg0.toNat + arg1.toNat * 2 ^ 64) } }
  whenDo (potOn s n) s (traceEvent s1 n 20 0xC 0 0 0 arg0.toNat arg1.toNat false)

/-- TRACE_ENABLE: ENABLE 1 clears STOPPED and TRIGGERED and keeps the records (R517). -/
def execTraceEnable (n : PotIx) (s : State) : Result :=
  whenDo (potPresent s n && hubOn s && s.power.step == .running) s
    (updPot s n fun p => { p with cup := { p.cup with ctl := putBit p.cup.ctl 0 true, stopped := false, triggered := false, postLeft := 0 } })

/-- CUP_TRACE_POP: a read of word 0 of CUP_TRACE takes the oldest record into the requester's latch; an empty buffer gives zeros
(R480, R517). -/
def execCupTracePop (who : Requester) (n : PotIx) (s : State) : Result :=
  let shows := fun (t : State) (v : Word64) => { t with out := { t.out with reg := some (who, v) } }
  if !reaches who (.pot n) then .next (shows (countRegErr s (.pot n) 32) 0)
  else if !potPresent s n || !cupServed s then .next (shows s 0)
  else
    let v := potValue s who n 0xA020
    let s1 := updPot (fillLatch s who (potReg n 0xA020) v) n fun p => { p with cup := { p.cup with buffer := p.cup.buffer.drop 1 } }
    .next (shows s1 (wordOf v 0))

end Sys2Proof.Machine
end

