-- ==== Sys2Proof/Machine/RegWrite.lean ====
section
/-!
DEFINITION. Commits of registers and indirect entries: field by field by their access codes (R12, R13, R480, R487 to R489), with the
actions that WO fields start.
-/

namespace Sys2Proof.Machine

/-! Fields. -/

/-- A field that a write sets: low bit, width, and which values are not reserved encodings (R13). -/
structure Fld where
  lo : Nat
  len : Nat
  ok : Nat → Bool

def anyFld (lo len : Nat) : Fld := ⟨lo, len, fun _ => true⟩
def getN (v lo len : Nat) : Nat := v / 2 ^ lo % 2 ^ len
/-- The old value with every field that the written value gives legally (R13, R489). -/
def mergeFlds (old v : Nat) (fs : List Fld) : Nat :=
  fs.foldl (fun a f => if f.ok (getN v f.lo f.len) then a - getN a f.lo f.len * 2 ^ f.lo + getN v f.lo f.len * 2 ^ f.lo else a) old

/-- What follows a command's next state. -/
def andThen (r : Result) (f : State → Result) : Result :=
  match r with
  | .next t => f t
  | .fault x => .fault x
  | .refused x => .refused x

/-- A write of RWB fields: the buffer takes them, or keeps its earlier ones where they are reserved (R489). -/
def bufferWrite (s : State) (key applied v : Nat) (fs : List Fld) : State :=
  setBuffer s key (mergeFlds ((bufferOf s key).getD applied) v fs)

/-! Boundaries of idle blocks (R488). -/

/-- Every idle channel applies the LU registers; every channel whose patrol is stopped applies PAT_CTL. -/
def luIdleApply (s : State) (n : PotIx) : State := runAll (fun t g => luApply t n g) (upto 64) s
def patIdleApply (s : State) (n : PotIx) : State :=
  runAll (fun t g =>
    if passHours (schedOf (potOf t n) g) = 0 then patApply t n (BitVec.ofNat 6 g) else t) (upto 64) s
/-- SNC_CTL: every operation of an SNC is one command, so that it always stands at its boundary. -/
def applySnc (s : State) (n : PotIx) : State :=
  let key := potReg n 0x6000
  match bufferOf s key with
  | some v =>
    parityEnds (dropBuffer (updPot s n fun p => { p with snc := { p.snc with ctl := BitVec.ofNat 128 v } }) key) key
  | none => s
/-- SPT_NODE while every port of the module is DOWN. -/
def applyNode (s : State) : State :=
  match bufferOf s 0x4000 with
  | some v =>
    if (upto 64).all fun q => (portAt s q).state == .down then
      parityEnds (dropBuffer { s with drz := { s.drz with node := BitVec.ofNat 64 v } } 0x4000) 0x4000
    else s
  | none => s
/-- MIG_RATE at a copy unit, or while no operation runs. -/
def applySvc (s : State) : State :=
  match bufferOf s svcKey with
  | some v =>
    dropBuffer { s with svc := { s.svc with ctl := putField s.svc.ctl 38 5 (getN v 38 5) } } svcKey
  | none => s
def applyKet (s : State) : State :=
  match bufferOf s ketCtlKey with
  | some v => parityEnds (dropBuffer { s with ket := { s.ket with ctl := BitVec.ofNat 64 v } } ketCtlKey) ketCtlKey
  | none => s
def seqIdleApply (s : State) (n : PotIx) (e : Eng) : State :=
  if (seqOf (potOf s n) e).running then s else applySeqRegs s n e

/-! Hub registers. -/

/-- The self-test outcomes that a START of a pot reset or of UNRETIRE_POT meets, where the write does not bring them: free values
(log entry 37). -/
def freeLus : (k : Nat) → State → List LuIx × State
  | 0, s => ([], s)
  | k + 1, s =>
    let f := takeFree s
    let r := freeLus k f.2
    ((if bitAt f.1 0 then [BitVec.ofNat 11 k] else []) ++ r.1, r.2)

/-- HUB_FW_CTL (R454). -/
def commitFw (s : State) (v : Nat) : Result :=
  let w := mergeFlds s.fw.fwCtl.toNat v
    [⟨0, 3, fun x => decide (1 ≤ x ∧ x ≤ 5)⟩, ⟨3, 2, fun x => x != 3⟩, ⟨16, 41, fun x => x % 4 == 0⟩]
  let s1 := { s with fw := { s.fw with fwCtl := BitVec.ofNat 64 w } }
  match v.testBit 5 && !fwBusy s, kindOfCode (getN w 0 3), getN w 3 2 with
  | true, some k, 1 => execStage k (BitVec.ofNat 41 (getN w 16 41)) s1
  | true, some k, 2 => execActivate k s1
  | _, _, _ => .next (parityEnds s1 fwKey)

/-- HUB_KEY_CTL (R454). -/
def commitKey (s : State) (v : Nat) : Result :=
  let w := mergeFlds s.fw.keyCtl.toNat v [anyFld 0 2]
  let s1 := { s with fw := { s.fw with keyCtl := BitVec.ofNat 64 w } }
  match v.testBit 2, getN w 0 2 with
  | true, 1 => execEnroll s1
  | true, 2 => execRotate s1
  | true, 3 => execRevoke s1
  | _, _ => .next (parityEnds s1 keyCtlKey)

/-- HUB_RESET_CTL (R475): for an engine, UNIT 3 to 7 are reserved; `kind` is the KIND that stands after the write. -/
def kindFlds : List Fld := [⟨0, 3, fun x => decide (x ≤ 4)⟩, anyFld 3 5]
def unitFlds (kind : Nat) : List Fld := [⟨8, 3, fun x => decide (kind ≠ 3 ∨ x ≤ 2)⟩]
def resetWord (old v : Nat) : Nat :=
  let w := mergeFlds old v kindFlds
  mergeFlds w v (unitFlds (getN w 0 3))
def commitReset (s : State) (v : Nat) : Result :=
  let w := resetWord s.svc.resetCtl.toNat v
  let s1 := { s with svc := { s.svc with resetCtl := BitVec.ofNat 64 w } }
  let n : PotIx := BitVec.ofNat 5 (getN w 3 5)
  let eng := match getN w 8 3 with
    | 0 => some Eng.mxe
    | 1 => some Eng.vxe
    | 2 => some Eng.sfe
    | _ => none
  match v.testBit 11 && !regBad s 0x20, getN w 0 3, eng with
  | true, 1, _ => execWarmModuleReset s1
  | true, 2, _ =>
    let f := takeFree s1
    let l := freeLus Config.lusPerPot f.2
    execPotReset n l.1 (bitAt f.1 0) (bitAt f.1 1) l.2
  | true, 3, some e => execEngineReset n e s1
  | true, 4, _ => execBrewerCoreReset n (BitVec.ofNat 3 (getN w 8 3)) s1
  | _, _, _ => .next (parityEnds s1 0x20)

/-- HUB_SVC_CTL (R475): MIG_RATE is buffered. -/
def svcFlds : List Fld := [⟨0, 4, fun x => decide (x ≤ 8)⟩, anyFld 10 5, anyFld 15 11, anyFld 26 5, anyFld 31 6, anyFld 37 1]
def rateFlds : List Fld := [⟨38, 5, fun x => x != 0⟩]
def commitSvc (s : State) (v : Nat) : Result :=
  let busy := svcBusy s
  let w := mergeFlds s.svc.ctl.toNat v svcFlds
  let s0 := bufferWrite { s with svc := { s.svc with ctl := BitVec.ofNat 64 w } } svcKey (w &&& 31 * 2 ^ 38) v rateFlds
  let s1 := if busy then s0 else applySvc s0
  let n : PotIx := BitVec.ofNat 5 (getN w 10 5)
  let ix : BitVec 11 := BitVec.ofNat 11 (getN w 15 11)
  if !v.testBit 4 || regBad s svcKey then .next (parityEnds s1 svcKey)
  else
    match getN w 0 4 with
    | 1 => execMigrate n (w.testBit 37) s1
    | 2 => execMirror ix (BitVec.ofNat 5 (getN w 26 5)) (BitVec.ofNat 6 (getN w 31 6)) s1
    | 3 => execUnmirror ix s1
    | 4 => execRetirePot n s1
    | 5 =>
      let f := takeFree s1
      execUnretirePot n (bitAt f.1 0) f.2
    | 6 => execRetireMxe n s1
    | 7 => execReturnMxe n s1
    | 8 => execAbort s1
    | _ => .next s1

/-- HUB_BLEND_CTL (R40). A write with COMMIT and CLEAR both 1 commits first and then clears the entry (DESIGN CHOICE, log entry 97). -/
def commitBlend (s : State) (v : Nat) : Result :=
  let w := mergeFlds s.blend.ctl.toNat v [anyFld 0 8]
  let s1 := { s with blend := { s.blend with ctl := BitVec.ofNat 32 w } }
  let e : BitVec 8 := BitVec.ofNat 8 w
  if !(v.testBit 8 || v.testBit 9) || regBad s blendKey then .next (parityEnds s1 blendKey)
  else
    andThen (if v.testBit 8 then execCommit e s1 else .next s1) fun t => if v.testBit 9 then execClear e t else .next t

/-- Windows a snapshot latches: SCOPE 0 the hub, 1 a pot, 2 the hub and every enabled pot; pots out of service are skipped (R497). -/
def snapScope (s : State) (scope : Nat) (pot : PotIx) : List Nat :=
  let pots := (enabledPots s).filter (potOn s)
  match scope with
  | 0 => [0]
  | 1 => (pots.filter (· == pot)).map potWin
  | _ => 0 :: pots.map potWin

/-- A START: SEQ advances, and the latch message is on its way; ignored while BUSY is 1. -/
def snapStart (s : State) : State :=
  let w := s.regs.snap
  let l := snapScope s (fieldN w 0 2) (fieldB w 2 5)
  if bitAt w 9 then s
  else
    { s with regs := { s.regs with
        snap := putBit (putField w 16 16 (fieldN w 16 16 + 1)) 9 (!l.isEmpty)
        latchLeft := l } }

/-- The RW fields of HUB_SNAP_CTL; a SCOPE of 3 is reserved (R496). -/
def snapFlds : List Fld := [⟨0, 2, fun x => x != 3⟩, anyFld 2 5, anyFld 7 1]
def snapFields (s : State) (v : Nat) : State :=
  { s with regs := { s.regs with
      snap := BitVec.ofNat 64 (mergeFlds s.regs.snap.toNat v snapFlds) } }
def commitSnap (s : State) (v : Nat) : Result :=
  let s1 := parityEnds (snapFields s v) 0x60
  .next (if v.testBit 8 then snapStart s1 else s1)

/-- HFE_INTERLEAVE: ignored while LOCKED (R33). -/
def ilFlds : List Fld := [⟨0, 5, fun x => x == 0 || decide (8 ≤ x ∧ x ≤ 21)⟩, ⟨8, 6, fun x => decide (x ≤ 48)⟩]
def commitInterleave (s : State) (v : Nat) : State :=
  if interleaveLocked s then s
  else
    parityEnds { s with hfe := { s.hfe with
      interleave := BitVec.ofNat 32 (mergeFlds s.hfe.interleave.toNat v ilFlds) } } ilKey

/-- KET_CTL's fields (R430, R431). -/
def ketFlds : List Fld :=
  [⟨0, 8, fun x => decide (x ≤ 95)⟩, ⟨8, 8, fun x => decide (x ≤ 100)⟩, ⟨16, 8, fun x => decide (x ≤ 105)⟩,
    ⟨24, 8, fun x => decide (x ≤ 105)⟩, ⟨32, 3, fun x => decide (x ≤ 6)⟩]

/-- SPT_NODE (R363, R376): node ids 0x1000 to 0xFFFE and HOP_LIMIT 0 are reserved. -/
def nodeFlds : List Fld := [⟨0, 16, fun x => decide (x < 4096 ∨ x = 0xFFFF)⟩, ⟨16, 3, fun x => x != 0⟩]

/-- KET_TRIPS: UNREAD is W1C, and with it the unread cause of ALERT_N ends (R423, R431). -/
def commitTrips (s : State) (v : Nat) : State :=
  if v.testBit 19 then setAlert { s with ket := { s.ket with trips := putBit s.ket.trips 19 false } } 2 false else s

/-- CUP_CTL (R519). -/
def commitCup (s : State) (v : Nat) : Result :=
  let s1 := parityEnds { s with cup := { s.cup with
    ctl := BitVec.ofNat 64 (mergeFlds s.cup.ctl.toNat v [anyFld 2 3, anyFld 8 24]) } } 0x5000
  if v.testBit 0 then execCuppingStart s1 else .next s1

/-- IND_ADDR: the bank's address; RANGE ends (R484). -/
def commitIndAddr (s : State) (who : Requester) (win : Window) (v : Nat) : State :=
  { s with regs := { s.regs with indAddr := tset s.regs.indAddr (bankKey who win) (BitVec.ofNat 64 (v % 2 ^ 41)) } }

/-- An MSI-X table word: the address, or data and mask; a vector that unmasks with its pending bit set sends (R342). -/
def commitMsix (s : State) (head : BitVec 1) (off v : Nat) : Result :=
  let h := headOf s head
  let i := off / 16
  let e := msixOf h i
  let put := fun (x : Msix) => setHead s head { h with msix := tset h.msix i x }
  if off = 0x800 then .next s
  else if off % 16 = 0 then .next (put { e with addr := BitVec.ofNat 64 v })
  else
    let x := { e with data := BitVec.ofNat 32 v }
    if v.testBit 32 then .next (put { x with masked := true })
    else if e.masked then execMsixUnmask head (BitVec.ofNat 6 i) (put x) else .next (put x)

/-- CFG_ERR BLOCKS, W1C. -/
def clearBlocks (w : Word64) (v : Nat) : Word64 := w &&& ~~~(BitVec.ofNat 64 (v % 65536))

/-- The agent of a request slot of the hub block. -/
def hubSlotAgent (off : Nat) : Agent := .hubSlot (BitVec.ofNat 2 ((off - 0x8000) / 256)) (BitVec.ofNat 2 (off % 256 / 64))
def potSlotAgent (n : PotIx) (off : Nat) : Agent := .brewerSlot n (BitVec.ofNat 3 ((off - 0x6800) / 256)) (BitVec.ofNat 2 (off % 256 / 64))

/-- The commit of a hub register. -/
def commitHub (s : State) (who : Requester) (off v : Nat) : Result :=
  if off = 0x8 then .next (if v.testBit 5 then { s with fw := { s.fw with boot := putBit s.fw.boot 5 false } } else s)
  else if off = 0x10 then commitFw s v
  else if off = 0x18 then commitKey s v
  else if off = 0x20 then commitReset s v
  else if off = 0x28 then commitSvc s v
  else if off = 0x40 then commitBlend s v
  else if off = 0x60 then commitSnap s v
  else if off = 0x70 then .next { s with regs := { s.regs with hubCfgErr := clearBlocks s.regs.hubCfgErr v } }
  else if off = 0x80 then .next (commitIndAddr s who .hub v)
  else if off = 0x1000 then .next (applyHfe (bufferWrite s hfeCtlKey s.hfe.ctl.toNat v [anyFld 0 32]))
  else if off = 0x1018 then .next (commitInterleave s v)
  else if off = 0x1030 then .next (if v.testBit 48 then { s with hfe := { s.hfe with dropLog := putBit s.hfe.dropLog 48 false } } else s)
  else if off = 0x2000 then execPmtBudgetWrite .hub (BitVec.ofNat 64 v) s
  else if off = 0x3000 then .next (bufferWrite s ketCtlKey s.ket.ctl.toNat v ketFlds)
  else if off = 0x3010 then .next (commitTrips s v)
  else if off = 0x4000 then .next (applyNode (bufferWrite s 0x4000 s.drz.node.toNat v nodeFlds))
  else if off = 0x5000 then commitCup s v
  else if off = 0x5028 then
    .next { s with cup := { s.cup with sel := tset s.cup.sel (requesterCode who) (BitVec.ofNat 32 v) } }
  else if 0x8000 ≤ off ∧ off < 0x8400 ∧ off % 64 = 0 then .next (slotIssue s (hubSlotAgent off) (BitVec.ofNat 256 v))
  else if 0x10000 ≤ off ∧ off < 0x12000 then commitMsix s (BitVec.ofNat 1 (off / 0x1000)) (off % 0x1000) v
  else .next s

/-! Pot registers. -/

/-- Timing fields of R206: the least value of each is its value at B0 (R185). -/
def atLeast (lo len m : Nat) : Fld := ⟨lo, len, fun x => decide (m ≤ x)⟩
def timingAFlds : List Fld :=
  [atLeast 0 6 18, atLeast 6 6 18, atLeast 12 6 38, atLeast 18 7 56, atLeast 25 2 2, atLeast 27 4 7, atLeast 31 6 30, atLeast 37 5 15,
    atLeast 42 4 8, atLeast 46 5 19, atLeast 51 4 10, atLeast 55 5 13]
def timingBFlds : List Fld :=
  [⟨0, 13, fun x => decide (1600 ≤ x ∧ x ≤ 4875)⟩, atLeast 13 9 350, atLeast 22 7 113, atLeast 29 9 375, anyFld 38 1]
/-- BKS_CTL: RAISE and DROP stand or fall together, DROP against the RAISE of the same write (R206). -/
def bksCtlFlds (v : Nat) : List Fld :=
  let r := getN v 21 5
  let d := getN v 26 5
  let ok := decide (1 ≤ d ∧ d ≤ r)
  [⟨0, 12, fun x => x != 0⟩, ⟨12, 9, fun x => x != 0⟩, ⟨21, 5, fun _ => ok⟩, ⟨26, 5, fun _ => ok⟩]

/-- BKS_RETRAIN (R206). -/
def commitRetrain (s : State) (n : PotIx) (v : Nat) : Result :=
  let bad := bksParity s n
  let s1 := parityEnds (updPot s n fun p =>
    { p with bksRetrain := BitVec.ofNat 64 (mergeFlds p.bksRetrain.toNat v [anyFld 0 6]) }) (potReg n 0x1018)
  if v.testBit 6 && !bad then execRetrain n (BitVec.ofNat 6 v) s1 else .next s1

def lockFlds : List Fld := [⟨1, 2, fun x => x != 3⟩]
def sfeCtlFlds : List Fld := [⟨0, 14, fun x => decide (64 ≤ x ∧ x ≤ 8192)⟩]
/-- The registers of an engine's block (R100, R229, R261, R286). -/
def commitEng (s : State) (n : PotIx) (e : Eng) (i v : Nat) : Result :=
  let key := potReg n (engBase e + 8 * i)
  let q := seqOf (potOf s n) e
  let buf := fun (applied : Nat) (fs : List Fld) => seqIdleApply (bufferWrite s key applied v fs) n e
  match i, e with
  | 0, _ =>
    let s1 := seqIdleApply (bufferWrite s key (q.lockWays.toNat * 2) v lockFlds) n e
    andThen (execHalt n e (v.testBit 0) s1) fun t => if v.testBit 3 then execInval n e t else .next t
  | 1, _ =>
    .next (updSeq s n e fun x => { x with faulted := x.faulted && !v.testBit 3, nanBranch := x.nanBranch && !v.testBit 8 })
  | 2, _ => .next (buf q.stallUs.toNat [anyFld 0 32])
  | 4, .mxe => .next (buf (potOf s n).mxe.ctl.toNat [anyFld 0 33])
  | 4, .vxe => .next (buf (potOf s n).vxe.ctl.toNat [anyFld 0 32])
  | 4, .sfe => .next (buf (potOf s n).sfe.ctl.toNat sfeCtlFlds)
  | 5, .mxe => .next (updPot s n fun p => { p with mxe := { p.mxe with residue := p.mxe.residue && !v.testBit 7 } })
  | 6, .vxe => .next (updPot s n fun p => { p with vxe := { p.vxe with emptyRead := p.vxe.emptyRead && !v.testBit 8 } })
  | _, _ => .next s

def sncFlds : List Fld := [⟨0, 17, fun x => decide (x ≤ 65536)⟩, anyFld 32 32, ⟨64, 20, fun x => decide (1 ≤ x ∧ x ≤ 1000000)⟩]

/-- PAT_CTL and PAT_CMD (R403). -/
def patCtlFlds : List Fld := [⟨0, 8, fun x => decide (x ≤ 168)⟩, ⟨8, 5, fun x => x != 0⟩]
def patCmdFlds : List Fld := [⟨0, 3, fun x => decide (x ≤ 5)⟩, anyFld 8 6, anyFld 14 4, anyFld 18 15, anyFld 33 15]
def commitPatCmd (s : State) (n : PotIx) (v : Nat) : Result :=
  let w := mergeFlds (potOf s n).pat.cmd.toNat v patCmdFlds
  let bad := patParity s n
  let s1 := parityEnds (updPot s n fun p => { p with pat := { p.pat with cmd := BitVec.ofNat 64 w } }) (potReg n 0x7020)
  .next (if v.testBit 3 && !bad then patStart s1 n else s1)

/-- PAT_FLIP_CTL (R403): FIRED is W1C. -/
def commitFlip (s : State) (n : PotIx) (v : Nat) : Result :=
  let s1 := if v.testBit 11 then updPot s n fun p => { p with pat := { p.pat with flipCtl := putBit p.pat.flipCtl 11 false } } else s
  execFlipArm n (BitVec.ofNat 6 v) (BitVec.ofNat 4 (getN v 6 4)) (v.testBit 10) s1

/-- PMT_REQ of a core (R431): REQ is taken before RELEASE. -/
def reqFlds : List Fld := [⟨0, 10, fun x => x != 0⟩]
def commitPmtReq (s : State) (n : PotIx) (core : BitVec 3) (v : Nat) : Result :=
  let put := fun (p : Pmt) =>
    { p with reqs := tset p.reqs core.toNat (BitVec.ofNat 64 (mergeFlds (tget p.reqs core.toNat 0).toNat v reqFlds)) }
  let s1 := parityEnds (updPot s n fun p => { p with pmt := put p.pmt }) (potReg n (0x8040 + 8 * core.toNat))
  andThen (if v.testBit 10 then execReq n core (BitVec.ofNat 10 v) s1 else .next s1) fun t =>
    if v.testBit 11 then execRelease n core t else .next t

/-- SPT_CTL of a port (R376). -/
def commitSpt (s : State) (n : PotIx) (k : BitVec 1) (v : Nat) : Result :=
  let key := potReg n (0x9000 + 0x800 * k.toNat)
  let p := portOf (potOf s n) k.toNat
  let lim := getN v 2 20
  let s1 := if lim = 0 then s else setBuffer s key lim
  let s2 := if p.state == .down then applyPort s1 n k else s1
  andThen (execEnable n k (v.testBit 0) s2) fun t => if v.testBit 1 then execPortReset n k t else .next t

/-- CUP_TRACE_CTL (R516, R517, R520): a TRIG_EVENT above 0x0C is reserved. -/
def traceFlds : List Fld := [anyFld 0 4, ⟨4, 8, fun x => decide (x ≤ 0xC)⟩, anyFld 12 29]
def commitTrace (s : State) (n : PotIx) (v : Nat) : Result :=
  let set := fun (p : Pot) => { p with cup := { p.cup with ctl := BitVec.ofNat 64 (mergeFlds p.cup.ctl.toNat v traceFlds) } }
  let s1 := parityEnds (updPot s n set) (potReg n 0xA000)
  if v.testBit 0 then execTraceEnable n s1 else .next s1

/-- CUP_PMC_SEL: codes above 0x0B are reserved (R518). -/
def pmcFlds : List Fld := (upto 6).map fun i => ⟨8 * i, 8, fun x => decide (x ≤ 0xB)⟩

/-- The commit of a pot register. -/
def commitPot_ (s : State) (who : Requester) (n : PotIx) (off v : Nat) : Result :=
  let p := potOf s n
  let key := potReg n off
  if off = 0x8 then .next (updPot s n fun p => { p with cfgErr := clearBlocks p.cfgErr v })
  else if off = 0x20 then .next (commitIndAddr s who (.pot n) v)
  else if off = 0x1000 then .next (bufferWrite s key p.bksTimingA.toNat v timingAFlds)
  else if off = 0x1008 then .next (bufferWrite s key p.bksTimingB.toNat v timingBFlds)
  else if off = 0x1010 then .next (bufferWrite s key p.bksCtl.toNat v (bksCtlFlds v))
  else if off = 0x1018 then commitRetrain s n v
  else if off = 0x2000 then .next (luIdleApply (bufferWrite s key p.luSeed.toNat v [anyFld 0 32]) n)
  else if off = 0x2008 then .next (luIdleApply (bufferWrite s key p.luLimit.toNat v [anyFld 0 32]) n)
  else if off = 0x2010 then
    .next (luIdleApply (bufferWrite s key p.luProxy.toNat v ((upto 4).map fun i => anyFld (16 * i) 11) |> fun t =>
      bufferWrite t key p.luProxy.toNat v ((upto 4).map fun i => anyFld (16 * i + 15) 1)) n)
  else if 0x3000 ≤ off ∧ off < 0x3050 then commitEng s n .mxe ((off - 0x3000) / 8) v
  else if 0x4000 ≤ off ∧ off < 0x4050 then commitEng s n .vxe ((off - 0x4000) / 8) v
  else if 0x5000 ≤ off ∧ off < 0x5058 then commitEng s n .sfe ((off - 0x5000) / 8) v
  else if off = 0x6000 then .next (applySnc (bufferWrite s key p.snc.ctl.toNat v sncFlds) n)
  else if 0x6800 ≤ off ∧ off < 0x7000 ∧ off % 64 = 0 then .next (slotIssue s (potSlotAgent n off) (BitVec.ofNat 256 v))
  else if off = 0x7000 then
    .next (patIdleApply (bufferWrite s key p.pat.ctl.toNat v patCtlFlds) n)
  else if off = 0x7020 then commitPatCmd s n v
  else if off = 0x7028 then
    .next (parityEnds (updPot s n fun p => { p with pat := { p.pat with cmdArg := BitVec.ofNat 64 v } }) key)
  else if off = 0x7030 then
    .next (if v.testBit 6 then updPot s n fun p => { p with pat := { p.pat with overrun := false } } else s)
  else if off = 0x7038 then commitFlip s n v
  else if off = 0x8000 then execPmtBudgetWrite (.pot n) (BitVec.ofNat 64 v) s
  else if off = 0x8008 then .next (bufferWrite s key p.pmt.cost.toNat v [anyFld 0 36])
  else if 0x8040 ≤ off ∧ off < 0x8080 then commitPmtReq s n (BitVec.ofNat 3 ((off - 0x8040) / 8)) v
  else if off = 0x9000 then commitSpt s n 0 v
  else if off = 0x9800 then commitSpt s n 1 v
  else if off = 0xA000 then commitTrace s n v
  else if off = 0xA008 then
    .next (parityEnds (updPot s n fun p => { p with cup := { p.cup with en := BitVec.ofNat 16 v } }) key)
  else if off = 0xA010 then
    .next (if v.testBit 16 then updPot s n fun p => { p with cup := { p.cup with loss := false } } else s)
  else if off = 0xA040 then execCupMarkWrite n (BitVec.ofNat 32 v) (BitVec.ofNat 64 (v / 2 ^ 64)) s
  else if off = 0xA080 then
    .next (parityEnds (updPot s n fun p =>
      { p with cup := { p.cup with pmcSel := BitVec.ofNat 64 (mergeFlds p.cup.pmcSel.toNat v pmcFlds) } }) key)
  else .next s

def commitReg (s : State) (who : Requester) (win : Window) (base v : Nat) : Result :=
  match win with
  | .hub => commitHub s who base v
  | .pot n => commitPot_ s who n base v

/-! Indirect entries (R486, R487). -/

/-- SIZE_LOG2 and ELEM_LOG2 of a queue entry, held together: no ELEM_LOG2 above the SIZE_LOG2 beside it is stored (R13, R56). A size
below the element size that would stay keeps the old size. -/
def queueSizes (old v cfg : Nat) : Nat :=
  let elemOk := fun (size x : Nat) => decide (6 ≤ x ∧ x ≤ 20) && decide (x ≤ size)
  let size := if decide (12 ≤ getN v 27 5 ∧ getN v 27 5 ≤ 26) && (elemOk (getN v 27 5) (getN v 32 5) || decide (getN old 32 5 ≤ getN v 27 5))
    then getN v 27 5 else getN old 27 5
  mergeFlds cfg (size * 2 ^ 27 + getN v 32 5 * 2 ^ 32) [anyFld 27 5, ⟨32, 5, elemOk size⟩]

/-- A queue table entry (R56, R57): one in use takes only a write that sets MODE to 0. -/
def commitQueue (s : State) (n : PotIx) (ix v : Nat) : State :=
  let q := queueOf (potOf s n) ix
  let cfg := queueSizes q.cfg.toNat v (mergeFlds q.cfg.toNat v
    [⟨0, 27, fun x => x % 64 == 0⟩, anyFld 37 2, ⟨39, 3, fun x => decide (x ≤ 4)⟩, ⟨42, 3, fun x => decide (x ≤ 4)⟩])
  let w : Word64 := BitVec.ofNat 64 cfg
  let q1 : Queue := if getN v 37 2 = 0 then ⟨w, 0, 0, 0, 0, 0⟩ else { q with cfg := w }
  if qMode q ≠ 0 ∧ getN v 37 2 ≠ 0 then s
  else updPot s n fun p => { setQueue p ix q1 with queueBad := p.queueBad.filter (· != ix) }

/-- An address-generator descriptor: at once, or at the boundary of a running command (R487). -/
def commitDesc (s : State) (n : PotIx) (ix v : Nat) : State :=
  let e : Eng := if ix < 256 then .mxe else if ix < 512 then .vxe else .sfe
  let q := seqOf (potOf s n) e
  let old := (tget q.descPend (ix % 256) (tget q.descs (ix % 256) 0)).toNat
  let d : BitVec 256 := BitVec.ofNat 256 (mergeFlds old v [anyFld 0 240, ⟨240, 4, fun x => decide (5 ≤ x ∧ x ≤ 11)⟩])
  updSeq (parityEnds s (entryKey (potWin n) 0x11 ix)) n e fun q =>
    if q.running then { q with descPend := tset q.descPend (ix % 256) d } else { q with descs := tset q.descs (ix % 256) d }

/-- An SFE descriptor (R265): reserved values of KIND and SHARD_LOG2, a SCRATCH_N above 128 and a ROWW outside 1 to 64 keep the old
ones. -/
def commitSfeDesc (s : State) (n : PotIx) (ix v : Nat) : State :=
  let f := (potOf s n).sfe
  let old := (tget f.descPend ix (tget f.descs ix 0)).toNat
  let d : BitVec 256 := BitVec.ofNat 256 (mergeFlds old v
    [anyFld 0 50, ⟨50, 2, fun x => decide (x ≤ 1)⟩, ⟨52, 3, fun x => decide (x ≤ 5)⟩, anyFld 64 64, ⟨128, 7, fun x => decide (x ≤ 64)⟩,
      anyFld 135 9, ⟨144, 8, fun x => decide (x ≤ 128)⟩, ⟨152, 21, fun x => x % 16 == 0⟩])
  updPot (parityEnds s (entryKey (potWin n) 0x14 ix)) n fun p =>
    if p.sfeSeq.running then { p with sfe := { p.sfe with descPend := tset p.sfe.descPend ix d } }
    else { p with sfe := { p.sfe with descs := tset p.sfe.descs ix d } }

/-- The 65 words of a recipe commit. -/
def recipeWords (v : Nat) : List (BitVec 32) := (upto 65).map fun i => BitVec.ofNat 32 (v / 2 ^ (32 * i))

def commitHubEntry (s : State) (who : Requester) (code ix v : Nat) : Result :=
  match code with
  | 0x01 =>
    match who with
    | .hubCore _ =>
      if getN v 32 32 = 2 ^ 32 - 1 - getN v 0 32 then execPotMapWrite (BitVec.ofNat 11 ix) (BitVec.ofNat 32 v) s else .next s
    | _ => .next (countRegErr s .hub 32)
  | 0x03 =>
    .next (parityEnds { s with blend := { s.blend with stage := tset s.blend.stage ix (putBit (BitVec.ofNat 128 v) 81 false) } }
      (entryKey 0 3 ix))
  | 0x05 => execSptRouteWrite (BitVec.ofNat 12 ix) (BitVec.ofNat 64 v) (parityEnds s (entryKey 0 5 ix))
  | 0x07 => .next (parityEnds { s with fw := { s.fw with keyStage := BitVec.ofNat 768 v } } (entryKey 0 7 ix))
  | _ => .next s

def commitPotEntry (s : State) (who : Requester) (n : PotIx) (code ix v : Nat) : Result :=
  match code with
  | 0x10 => .next (commitQueue s n ix v)
  | 0x11 => .next (commitDesc s n ix v)
  | 0x12 => execRecipeWrite who n (BitVec.ofNat 8 ix) (recipeWords v) s
  | 0x14 => .next (commitSfeDesc s n ix v)
  | 0x16 =>
    .next (if v.testBit 1 then updPot s n fun p => setLu p ix { luOf p ix with fault := false } else s)
  | 0x1C =>
    .next (parityEnds (if bitAt (potOf s n).pat.flipCtl 10 then s
      else updPot s n fun p => { p with pat := { p.pat with flipMask := BitVec.ofNat 320 (v % 2 ^ 288) } }) (entryKey (potWin n) 0x1C ix))
  | 0x1D => if v.testBit 64 then execLossyClear n (BitVec.ofNat 12 ix) s else .next s
  | _ => .next s

def commitEntry (s : State) (who : Requester) (win : Window) (code ix v : Nat) : Result :=
  match win with
  | .hub => commitHubEntry s who code ix v
  | .pot n => commitPotEntry s who n code ix v

end Sys2Proof.Machine
end

