-- ==== Sys2Proof/Machine/Registers.lean ====
section
/-!
DEFINITION. Accesses to BAR0: reads through latches and writes through stages (R478 to R483), the indirect pairs (R484 to R487),
boundaries of buffered writes (R488), parity (R491 to R494), counters and snapshots (R495 to R497).
-/

namespace Sys2Proof.Machine

/-! What an access meets. -/

/-- Served; no register there (a disabled or retired pot, a fused-off MXE, a module that is not up); refused to this requester;
in reset. -/
inductive Gate where
  | served | absent | denied | inReset
  deriving DecidableEq, Repr

/-- Hub registers that stand while the boot ROM runs: fuses and the always-on domain, and after a warm reset what R459 keeps. -/
def hubStands (s : State) (off : Nat) : Bool :=
  s.power.step == .running || [0x0, 0x3010].contains off ||
    (s.power.warm && [0x30, 0x38, 0x1018, 0x2000, 0x3000, 0x3008, 0x4000].contains off)
def hubSpaceStands (s : State) (code : Nat) : Bool :=
  s.power.step == .running || (s.power.warm && [0x01, 0x02, 0x05, 0x08, 0x09].contains code)

/-- Registers and spaces of a pot that its reset does not cover (R458, R483). -/
def potKeeps (off : Nat) : Bool :=
  decide (off < 0x2000) || decide (0x7000 ≤ off ∧ off < 0x8040) || decide (0xA000 ≤ off)
def potSpaceKeeps (code : Nat) : Bool := decide (0x17 ≤ code)

/-- A pot's window: its registers are powered. -/
def windowUp (s : State) (n : PotIx) : Bool := s.power.step == .running && potPresent s n && bitAt s.power.pgPot n.toNat

def potGate (s : State) (n : PotIx) (keeps mxe : Bool) : Gate :=
  if !windowUp s n || (mxe && !mxeFused s) then .absent
  else if keeps || !(potOf s n).inReset then .served
  else .inReset

def gate (s : State) (who : Requester) (win : Window) (off : Nat) : Gate :=
  if !reaches who win then .denied
  else
    match win with
    | .hub => if hubStands s off then .served else .absent
    | .pot n => potGate s n (potKeeps off) (decide (0x3000 ≤ off ∧ off < 0x4000))
def spaceGate (s : State) (who : Requester) (win : Window) (code : Nat) : Gate :=
  if !reaches who win then .denied
  else
    match win with
    | .hub => if hubSpaceStands s (code % 128) then .served else .absent
    | .pot n => potGate s n (potSpaceKeeps code) false

/-- The window is up, so that it counts refused accesses. -/
def windowCounts (s : State) : Window → Bool
  | .hub => s.power.step == .running
  | .pot n => windowUp s n
def countAt (s : State) (win : Window) (lo : Nat) : State := if windowCounts s win then countRegErr s win lo else s

/-- The data of a read, as the requester sees it. -/
def showReg (s : State) (who : Requester) (v : Word64) : State := { s with out := { s.out with reg := some (who, v) } }

/-! RC fields (R12, R495). -/

def clearHubRc (s : State) (off : Nat) : State :=
  match off with
  | 0x48 => { s with hfe := { s.hfe with absentCount := 0 } }
  | 0x50 => { s with hfe := { s.hfe with lateCount := 0 } }
  | 0x58 => { s with hfe := { s.hfe with rejectCount := putField s.hfe.rejectCount 0 32 0 } }
  | 0x78 => { s with regs := { s.regs with hubRegErr := 0 } }
  | 0x1010 => { s with heads := s.heads.map fun e => (e.1, { e.2 with downs := 0 }) }
  | 0x1020 => { s with hfe := { s.hfe with errCount := 0 } }
  | 0x2008 => { s with pmtHub := { s.pmtHub with budgetRej := 0 } }
  | 0x5018 => { s with cup := { s.cup with events := 0 } }
  | _ => s
/-- Hub registers with an RC field. -/
def hubRc : List Nat := [0x48, 0x50, 0x58, 0x78, 0x1010, 0x1020, 0x2008, 0x5018]

def clearPotRc (off : Nat) (p : Pot) : Pot :=
  let port := fun (k : Nat) (f : Port → Port) => setPort p k (f (portOf p k))
  match off with
  | 0x10 => { p with regErr := 0 }
  | 0x2018 => { p with luEvents := 0 }
  | 0x3030 => { p with mxe := { p.mxe with events := 0 } }
  | 0x3038 => { p with mxe := { p.mxe with stalls := 0 } }
  | 0x3040 => { p with mxe := { p.mxe with numeric := 0 } }
  | 0x4038 => { p with vxe := { p.vxe with events := 0 } }
  | 0x4040 => { p with vxe := { p.vxe with stalls := 0 } }
  | 0x4048 => { p with vxe := { p.vxe with numeric := 0 } }
  | 0x5030 => { p with sfe := { p.sfe with traffic := 0 } }
  | 0x5038 => { p with sfe := { p.sfe with events := 0 } }
  | 0x5040 => { p with sfe := { p.sfe with dispatch := 0 } }
  | 0x5048 => { p with sfe := { p.sfe with stalls := 0 } }
  | 0x5050 => { p with sfe := { p.sfe with numeric := 0 } }
  | 0x6020 => { p with snc := { p.snc with events := 0 } }
  | 0x7010 => { p with pat := { p.pat with counts := 0 } }
  | 0x7018 => { p with pat := { p.pat with scrub := 0 } }
  | 0x8020 => { p with pmt := { p.pmt with events := 0 } }
  | 0x9020 => port 0 fun q => { q with events := 0 }
  | 0x9030 => port 0 fun q => { q with traffic := 0 }
  | 0x9820 => port 1 fun q => { q with events := 0 }
  | 0x9830 => port 1 fun q => { q with traffic := 0 }
  | 0xA010 => { p with cup := { p.cup with dropped := 0 } }
  | 0xA0C0 => { p with cup := { p.cup with pmc := tdel p.cup.pmc 0 } }
  | 0xA0C8 => { p with cup := { p.cup with pmc := tdel p.cup.pmc 1 } }
  | 0xA0D0 => { p with cup := { p.cup with pmc := tdel p.cup.pmc 2 } }
  | 0xA0D8 => { p with cup := { p.cup with pmc := tdel p.cup.pmc 3 } }
  | 0xA0E0 => { p with cup := { p.cup with pmc := tdel p.cup.pmc 4 } }
  | 0xA0E8 => { p with cup := { p.cup with pmc := tdel p.cup.pmc 5 } }
  | _ => p
/-- Pot registers with an RC field. -/
def potRc : List Nat :=
  [0x10, 0x2018, 0x3030, 0x3038, 0x3040, 0x4038, 0x4040, 0x4048, 0x5030, 0x5038, 0x5040, 0x5048, 0x5050, 0x6020, 0x7010, 0x7018,
   0x8020, 0x9020, 0x9030, 0x9820, 0x9830, 0xA010, 0xA0C0, 0xA0C8, 0xA0D0, 0xA0D8, 0xA0E0, 0xA0E8]

def clearRc (s : State) (win : Window) (base : Nat) : State :=
  match win with
  | .hub => clearHubRc s base
  | .pot n => updPot s n (clearPotRc base)

/-- The side effects of a read of an entry's word 0: BKS_EVENTS and EXCL_COUNT clear; an error log entry counts as read (R388). -/
def clearEntry (s : State) (win : Window) (code ix : Nat) : State :=
  match win with
  | .hub =>
    if code = 0x09 then
      { s with ket := { s.ket with sensors := s.ket.sensors.map fun e => if e.1 = ix then (e.1, { e.2 with exclCount := 0 }) else e } }
    else s
  | .pot n =>
    if code = 0x18 then updSched s n (BitVec.ofNat 6 ix) fun c => { c with events := 0 }
    else if code = 0x1B then updPot s n fun p => { p with pat := { p.pat with errUnread := tset p.pat.errUnread ix false } }
    else s

/-- A read of what only time decides takes a free value (log entry 3). -/
def readsFree (win : Window) (base : Nat) : Bool :=
  match win with
  | .hub => decide (0x20000 ≤ base ∧ base < 0x60000)
  | .pot _ => decide (base = 0x7008)
def spend (c : Bool) (s : State) : State := if c then { s with freeCtr := s.freeCtr + 1 } else s

/-! The indirect pairs (R484 to R487). -/

def indSpace (w : Word64) : Nat := fieldN w 0 8
def indIndex (w : Word64) : Nat := fieldN w 8 24
def indWord (w : Word64) : Nat := fieldN w 32 8

def setIndAddr (s : State) (who : Requester) (win : Window) (w : Word64) : State :=
  { s with regs := { s.regs with indAddr := tset s.regs.indAddr (bankKey who win) w } }

/-- The address names an entry and a word of its space (R485); HUB_FW_VER's entries begin at 1. -/
def indInside (sp : Space) (w : Word64) : Bool :=
  !bitAt w 41 && decide (indIndex w < sp.entries) && decide (indWord w < sp.words) && (indSpace w != 6 || indIndex w != 0)

/-- AUTOINC (R485). -/
def indAdvance (sp : Space) (w : Word64) : Word64 :=
  if !bitAt w 40 then w
  else if indWord w + 1 < sp.words then putField w 32 8 (indWord w + 1)
  else putBit (putField (putField w 32 8 0) 8 24 (indIndex w + 1)) 41 (decide (sp.entries ≤ indIndex w + 1))

/-- The key of the entry that the address names. -/
def indKey (win : Window) (w : Word64) : Nat := entryKey (winNo win) (indSpace w) (indIndex w)

/-- The value of an entry; a holding copy's lies under the key of its live entry. -/
def indValue (s : State) (win : Window) (code ix : Nat) : Nat :=
  if 128 ≤ code then tget s.regs.holding (entryKey (winNo win) (code % 128) ix) 0 else entryValue s win code ix

def fillIndLatch (s : State) (who : Requester) (win : Window) (key v : Nat) : State :=
  { s with regs := { s.regs with indLatch := tset s.regs.indLatch (bankKey who win) ⟨key, v⟩ } }

/-- What comes before an entry is read: a read of SNC_WORD is one SNC operation, which counts and checks the word (R289, R487; log
entry 79). -/
def entryRead (s : State) (win : Window) (code ix : Nat) : State :=
  match win with
  | .pot n => if code = 0x15 then (viewRead s n ix).1 else s
  | .hub => s

/-- A read of one word of an entry, through the bank's latch. -/
def indReadWord (s : State) (who : Requester) (win : Window) (w : Word64) : State :=
  let code := indSpace w
  let ix := indIndex w
  let key := indKey win w
  let held := match tfind s.regs.indLatch (bankKey who win) with
    | some l => if l.key = key then some l.value else none
    | none => none
  let s0 := entryRead s win code ix
  let v := indValue s0 win code ix
  if indWord w = 0 then
    let s1 := fillIndLatch s0 who win key v
    showReg (if code < 128 then clearEntry s1 win code ix else s1) who (wordOf v 0)
  else
    match held with
    | some x => showReg s who (wordOf x (indWord w))
    | none => showReg (fillIndLatch s0 who win key v) who (wordOf v (indWord w))

/-- The value a commit gives: staged words, and the current value's for the others (R480). -/
def staged (st : SMap Word64) (key words cur : Nat) : Nat :=
  ((upto words).map fun i => ((tfind st (64 * key + i)).elim (getN cur (64 * i) 64) BitVec.toNat) * 2 ^ (64 * i)).sum
/-- A stage without the words of one register. -/
def unstaged (st : SMap Word64) (key : Nat) : SMap Word64 := st.filter fun e => e.1 / 64 != key

/-- A write of one word of an entry, through the bank's stage. -/
def indWriteWord (s : State) (who : Requester) (win : Window) (sp : Space) (w data : Word64) : Result :=
  let b := bankKey who win
  let key := indKey win w
  let st := tset (tget s.regs.indStage b ⟨[]⟩).words (64 * key + indWord w) data
  let put := fun (m : SMap Word64) => { s with regs := { s.regs with
    indLatch := tdel s.regs.indLatch b, indStage := tset s.regs.indStage b ⟨m⟩ } }
  if sp.commit = some (indWord w) then
    commitEntry (put (unstaged st key)) who win (indSpace w) (indIndex w) (staged st key sp.words (entryValue s win (indSpace w) (indIndex w)))
  else .next (put (if sp.commit.isSome then st else (tget s.regs.indStage b ⟨[]⟩).words))

/-- An access to IND_DATA. -/
def indAccess (s : State) (who : Requester) (win : Window) (data : Option Word64) : Result :=
  let w := indAddr s who win
  let zero := fun (t : State) => if data.isNone then showReg t who 0 else t
  let pair := match win with
    | .hub => 0x88
    | .pot _ => 0x28
  match gate s who win pair with
  | .denied => .next (zero (countAt s win 32))
  | .absent | .inReset => .next (zero s)
  | .served =>
    if indSpace w = 0 then .next (zero s)
    else
      match spaceOf win (indSpace w) with
      | none => .next (zero (setIndAddr s who win (putBit w 41 true)))
      | some sp =>
        if !indInside sp w then .next (zero (countAt (setIndAddr s who win (putBit w 41 true)) win 48))
        else
          let go := fun (t : State) => Host.Outcome.next (setIndAddr t who win (indAdvance sp w))
          match spaceGate s who win (indSpace w), data with
          | .served, none => go (indReadWord s who win w)
          | .served, some d => andThen (indWriteWord s who win sp w d) go
          | .inReset, some _ => go (countAt s win 16)
          | _, _ => go (zero s)

/-- IND_DATA_ACCESS. -/
def execIndDataAccess (who : Requester) (win : Window) (data : Option Word64) (s : State) : Result :=
  if hubOn s then indAccess s who win data else .next s

/-! Reads and writes of registers (R478 to R483). -/

/-- IND_DATA of a window. -/
def isIndData (r : RegAt) : Bool :=
  match r.win with
  | .hub => decide (r.base = 0x88)
  | .pot _ => decide (r.base = 0x28)

/-- A read of one word of a live register (R480). -/
def readWord (s : State) (who : Requester) (r : RegAt) : State :=
  let key := regKey r.win r.base
  let v := regValue s who r.win r.base
  if r.word = 0 then showReg (clearRc (spend (readsFree r.win r.base) (fillLatch s who key v)) r.win r.base) who (wordOf v 0)
  else
    match latched s who key with
    | some x => showReg s who (wordOf x r.word)
    | none => showReg (spend (readsFree r.win r.base) (fillLatch s who key v)) who (wordOf v r.word)

/-- A read of a holding copy: it clears nothing, and goes through the latch like its live register. -/
def readHolding (s : State) (who : Requester) (r : RegAt) : State :=
  let live := regKey r.win r.base
  let key := 2 ^ 60 + live
  let v := tget s.regs.holding live 0
  let x := if r.word = 0 then v else (latched s who key).getD v
  showReg (fillLatch s who key x) who (wordOf x r.word)

/-- Bytes 0 to 23 of VXE_SUMQ: the head word; of an empty queue zeros, and EMPTY_READ (R257). -/
def readSumq (s : State) (who : Requester) (n : PotIx) (r : RegAt) : State :=
  let t := readWord s who r
  let fresh := r.word == 0 || (latched s who (regKey r.win r.base)).isNone
  if fresh && (potOf s n).vxe.brewerQ.isEmpty then updPot t n fun p => { p with vxe := { p.vxe with emptyRead := true } } else t

/-- An access to another register, such as IND_DATA, ends what the requester's latch holds (R480). -/
def dropLatch (s : State) (who : Requester) : State :=
  { s with regs := { s.regs with latches := tdel s.regs.latches (requesterCode who) } }

def narrow (off size : Nat) : Bool := size != 8 || off % 8 != 0

def readAt (s : State) (who : Requester) (r : RegAt) : Result :=
  match gate s who r.win r.base with
  | .denied => .next (showReg (countAt s r.win 32) who 0)
  | .absent | .inReset => .next (showReg s who 0)
  | .served =>
    if r.holding then .next (readHolding s who r)
    else if isIndData r then indAccess (dropLatch s who) who r.win none
    else
      match r.win, r.base, r.word with
      | .pot n, 0x4100, 3 => execVxeSumqPop who n s
      | .pot n, 0x4100, _ => .next (readSumq s who n r)
      | .pot n, 0xA020, 0 => execCupTracePop who n s
      | _, _, _ => .next (readWord s who r)

/-- A read of BAR0 by any requester. -/
def regRead (s : State) (who : Requester) (off size : Nat) : Result :=
  let win := (splitOffset off).1
  if !reaches who win then .next (showReg (countAt s win 32) who 0)
  else if narrow off size then .next (showReg (countAt s win 0) who 0)
  else
    match locate off with
    | none => .next (showReg s who 0)
    | some r => readAt s who r

/-- A request of `size` bytes: one longer than 8 B is carried out as 8 B accesses in ascending order, with what is left as the last
(R479). -/
def inParts (access : State → (off size : Nat) → Result) (s : State) (off size : Nat) : Result :=
  if size ≤ 8 then access s off size
  else andThen (access s off 8) fun t => access t ((off + 8) % 2 ^ 26) (size - 8)

/-- WORD0_READ: a read of a register (R480). -/
def execWord0Read (who : Requester) (off : BitVec 26) (size : BitVec 4) (s : State) : Result :=
  if hubOn s then inParts (fun t o k => regRead t who o k) s off.toNat size.toNat else .next s

/-- A write of one word of a live register: to the stage, or as the commit word to the whole register (R480). -/
def writeWord (s : State) (who : Requester) (r : RegAt) (data : Word64) : Result :=
  let key := regKey r.win r.base
  let c := requesterCode who
  let st := tset (tget s.regs.stages c ⟨[]⟩).words (64 * key + r.word) data
  let put := fun (m : SMap Word64) => { s with regs := { s.regs with
    latches := tdel s.regs.latches c, stages := tset s.regs.stages c ⟨m⟩ } }
  if r.word + 1 = r.words then
    commitReg (put (unstaged st key)) who r.win r.base (staged st key r.words (regValue s who r.win r.base))
  else .next (put st)

/-- The slot register of an offset in a window. -/
def slotAgentAt (r : RegAt) : Option Agent :=
  match r.win with
  | .hub => if 0x8000 ≤ r.base ∧ r.base < 0x8400 ∧ r.base % 64 = 0 then some (hubSlotAgent r.base) else none
  | .pot n => if 0x6800 ≤ r.base ∧ r.base < 0x7000 ∧ r.base % 64 = 0 then some (potSlotAgent n r.base) else none

/-- A write to a request slot whose operation is outstanding is ignored and counted, whichever of its words it names (R298). -/
def slotWriteHeld (s : State) (r : RegAt) : Option State :=
  match slotAgentAt r with
  | some a => if slotTaken s a then some (sncCount s (agentPot a) 96 16) else none
  | none => none

def writeAt (s : State) (who : Requester) (r : RegAt) (data : Word64) : Result :=
  match gate s who r.win r.base with
  | .denied => .next (countAt s r.win 32)
  | .absent => .next s
  | .inReset => .next (if r.holding then s else countAt s r.win 16)
  | .served =>
    if r.holding then .next s
    else if isIndData r then indAccess (dropLatch s who) who r.win (some data)
    else
      match slotWriteHeld s r with
      | some t => .next t
      | none => writeWord s who r data

/-- A write of BAR0 by any requester. -/
def regWrite (s : State) (who : Requester) (off size : Nat) (data : Word64) : Result :=
  let win := (splitOffset off).1
  if !reaches who win then .next (countAt s win 32)
  else if narrow off size then .next (countAt s win 0)
  else
    match locate off with
    | none => .next s
    | some r => writeAt s who r data

/-- REGISTER_WRITE: a write of a register (R480). -/
def execRegisterWrite (who : Requester) (off : BitVec 26) (size : BitVec 4) (data : Word64) (s : State) : Result :=
  if hubOn s then inParts (fun t o k => regWrite t who o k data) s off.toNat size.toNat else .next s

/-! Boundaries (R488). -/

/-- A scheduler at its boundary: the cycle in which it issued a refresh. -/
def bksBoundary (s : State) (n : PotIx) (g : GroupIx) : State :=
  if (schedOf (potOf s n) g.toNat).refNow then bksApply s n g else s
/-- A channel between two leaf commands. -/
def luBoundary (s : State) (n : PotIx) (g : GroupIx) : State := luApply s n g.toNat
def portBoundary (s : State) (n : PotIx) (k : BitVec 1) : State :=
  if (portOf (potOf s n) k.toNat).state == .down then applyPort s n k else s

/-- RWB_APPLY: a block stands at its boundary. -/
def execRwbApply (u : RwbUnit) (s : State) : Result :=
  let at_ := fun (n : PotIx) (t : State) => whenDo (potOn s n) s t
  match u with
  | .bks n g => at_ n (bksBoundary s n g)
  | .lu n g => at_ n (luBoundary s n g)
  | .seq n e => at_ n (seqIdleApply s n e)
  | .snc n => at_ n (applySnc s n)
  | .pat n g => at_ n (patApply s n g)
  | .pmtPot n => at_ n (applyPmtPot s n)
  | .pmtHub => .next (applyPmtHub s)
  | .ket => .next (applyKet s)
  | .spt n k => at_ n (portBoundary s n k)
  | .sptNode => .next (applyNode s)
  | .hfe => .next (applyHfe s)
  | .svc => .next (applySvc s)

/-! Parity (R491 to R494). -/

/-- Registers with RW or RWB fields that are not kept with their complement (R491); MSI-X and CXL blocks take no part (R499). -/
def hubProtected (off : Nat) : Bool :=
  [0x10, 0x18, 0x20, 0x28, 0x40, 0x60, 0x80, 0x1000, 0x1018, 0x2000, 0x3000, 0x4000, 0x5000, 0x5028].contains off ||
    (decide (0x8000 ≤ off ∧ off < 0x8400) && off % 64 == 0)
def potProtected (off : Nat) : Bool :=
  [0x20, 0x1000, 0x1008, 0x1010, 0x1018, 0x2000, 0x2008, 0x2010, 0x3000, 0x3010, 0x3020, 0x4000, 0x4010, 0x4020, 0x5000, 0x5010,
   0x5020, 0x6000, 0x7000, 0x7020, 0x7028, 0x7038, 0x8008, 0x9000, 0x9800, 0xA000, 0xA008, 0xA080].contains off ||
    (decide (0x8040 ≤ off ∧ off < 0x8080) && off % 8 == 0) || (decide (0x6800 ≤ off ∧ off < 0x7000) && off % 64 == 0)
def protectedReg (win : Window) (off : Nat) : Bool :=
  match win with
  | .hub => hubProtected off
  | .pot _ => potProtected off
/-- Spaces whose entries the pair writes and that have no complement (R486, R491). -/
def protectedSpace (win : Window) (code : Nat) : Bool :=
  match win with
  | .hub => [0x03, 0x05, 0x07].contains code
  | .pot _ => [0x10, 0x11, 0x12, 0x14, 0x1C].contains code

/-- The window's block of a hit, its IND_DATA offset for an entry, and the island that reports it (R498, R504, R512). -/
def hitBlock (win : Window) (h : ParityHit) : Nat :=
  match win with
  | .hub => if h.space = 0 then hubBlock h.offset.toNat else 0
  | .pot _ => if h.space = 0 then potBlock h.offset.toNat else 11
def hitOffset (win : Window) (h : ParityHit) : Nat :=
  if h.space = 0 then h.offset.toNat
  else
    match win with
    | .hub => 0x88
    | .pot _ => 0x28
def hitIsland (win : Window) (block : Nat) : Nat :=
  match win with
  | .hub => hubIsland (nth [7, 4, 5, 6, 7, 7] block 7)
  | .pot n => potIsland n (nth [32, 18, 0, 2, 3, 4, 5, 19, 16, 17, 20, 20] block 20)

def cfgErrOf (s : State) : Window → Word64
  | .hub => s.regs.hubCfgErr
  | .pot n => (potOf s n).cfgErr
def setCfgErr (s : State) (win : Window) (w : Word64) : State :=
  match win with
  | .hub => { s with regs := { s.regs with hubCfgErr := w } }
  | .pot n => updPot s n fun p => { p with cfgErr := w }
/-- The block's bit is set; with no fault held, FIRST is filled (R493). -/
def noteCfgErr (s : State) (win : Window) (h : ParityHit) : State :=
  let w := cfgErrOf s win
  let one := putBit w (hitBlock win h) true
  setCfgErr s win
    (if fieldN w 0 16 = 0 then putField (putField (putField one 16 24 (hitOffset win h)) 40 8 h.space.toNat) 48 16 (h.index.toNat % 65536)
    else one)

/-- The key of a hit. -/
def hitKey (win : Window) (h : ParityHit) : Nat :=
  if h.space = 0 then regKey win h.offset.toNat else entryKey (winNo win) h.space.toNat h.index.toNat

/-- A hit is a protected register or entry that stands. -/
def hitStands (s : State) (win : Window) (h : ParityHit) : Bool :=
  if h.space = 0 then protectedReg win h.offset.toNat && gate s .host win h.offset.toNat == .served
  else
    protectedSpace win h.space.toNat && spaceGate s .host win h.space.toNat == .served &&
      ((spaceOf win h.space.toNat).any fun sp => decide (h.index.toNat < sp.entries))

/-- What the mismatch does to the register: a buffered copy goes; a queue entry is marked in its pot; PAT loses ARM (R493). -/
def holdFault (s : State) (win : Window) (h : ParityHit) : State :=
  let key := hitKey win h
  let bad := { s with regs := { s.regs with parityBad := key :: s.regs.parityBad.filter (· != key) } }
  match win with
  | .hub => bad
  | .pot n =>
    if h.space = 0x10 then updPot s n fun p => { p with queueBad := h.index.toNat :: p.queueBad.filter (· != h.index.toNat) }
    else if h.space = 0 ∧ potBlock h.offset.toNat = 6 then
      updPot bad n fun p => { p with pat := { p.pat with flipCtl := putBit p.pat.flipCtl 10 false } }
    else bad

/-- One mismatch: the record, CFG_ERR, and the faulted value out of use (R493). -/
def parityHit (win : Window) (s : State) (h : ParityHit) : State :=
  if !hitStands s win h || (h.buffered && (bufferOf s (hitKey win h)).isNone) then s
  else
    let b := hitBlock win h
    let s1 := sendFault s (plainFault (hitIsland win b) 0xA 1 (hitOffset win h) (h.space.toNat + h.index.toNat * 256))
    let s2 := noteCfgErr s1 win h
    if h.buffered then dropBuffer s2 (hitKey win h) else holdFault s2 win h

/-- Faults of a window that still hold, as the walk finds them again (R494). -/
def standingHits (s : State) (win : Window) : List ParityHit :=
  let regs := s.regs.parityBad.filterMap fun k =>
    let base := regKey win 0
    let span := match win with
      | .hub => 0x1000000
      | .pot _ => 0x80000
    if base ≤ k ∧ k < base + span then some ⟨BitVec.ofNat 24 (k - base), 0, 0, false⟩
    else if entryKey (winNo win) 0 0 ≤ k ∧ k < entryKey (winNo win + 1) 0 0 then
      let e := k - entryKey (winNo win) 0 0
      some ⟨0, BitVec.ofNat 8 (e / 2 ^ 26), BitVec.ofNat 24 (e % 2 ^ 26), false⟩
    else none
  match win with
  | .hub => regs
  | .pot n => regs ++ (potOf s n).queueBad.map fun i => ⟨0, 0x10, BitVec.ofNat 24 i, false⟩

/-- PARITY_WALK: a walk over a window's protected registers, with the mismatches it finds (R492 to R494). -/
def execParityWalk (win : Window) (bad : List ParityHit) (s : State) : Result :=
  let s1 := runAll (fun t h => noteCfgErr t win h) (standingHits s win) s
  whenDo (windowCounts s win) s (runAll (parityHit win) bad s1)

/-! Snapshots (R495 to R497). -/

/-- SNAPSHOT_START: HUB_SNAP_CTL is written with START 1. -/
def execSnapshotStart (scope : BitVec 2) (n : PotIx) (clear : Bool) (s : State) : Result :=
  whenDo (hubOn s && s.power.step == .running) s
    (snapStart (parityEnds (snapFields s (packed [(0, scope.toNat), (2, n.toNat), (7, bit clear)])) 0x60))

/-- Live counters of a window with their keys: RC registers, and the entries of its RC space. -/
def counters (s : State) (win : Window) : List (Nat × Nat) :=
  match win with
  | .hub =>
    (hubRc.map fun o => (o, hubValue s .host o)) ++ s.ket.sensors.map fun e => (entryKey 0 0x09 e.1, ketTempValue e.2)
  | .pot n =>
    (potRc.map fun o => (potReg n o, potValue s .host n o)) ++
      (potOf s n).scheds.map fun e => (entryKey (potWin n) 0x18 e.1, e.2.events.toNat)

/-- Every RC field of a window cleared. -/
def clearCounters (s : State) (win : Window) : State :=
  match win with
  | .hub =>
    let s1 := runAll clearHubRc hubRc s
    { s1 with ket := { s1.ket with sensors := s1.ket.sensors.map fun e => (e.1, { e.2 with exclCount := 0 }) } }
  | .pot n =>
    updPot s n fun p =>
      let q := potRc.foldl (fun a o => clearPotRc o a) p
      { q with scheds := q.scheds.map fun e => (e.1, { e.2 with events := 0 }) }

/-- A key of a window's holding copies. -/
def heldKey (win : Window) (k : Nat) : Bool :=
  match win with
  | .hub => decide (k < 0x1000000) || decide (entryKey 0 0 0 ≤ k ∧ k < entryKey 1 0 0)
  | .pot n => inWindow n 0 0x80000 k || decide (entryKey (potWin n) 0 0 ≤ k ∧ k < entryKey (potWin n + 1) 0 0)

/-- The window's blocks latch: holding copies, the live counters with CLEAR, and the window's sequence register. -/
def latchWindow (s : State) (win : Window) : State :=
  let kept := s.regs.holding.filter fun e => !heldKey win e.1
  let all := (counters s win).foldl (fun m e => tset m e.1 e.2) kept
  let s1 := { s with regs := { s.regs with holding := all } }
  let s2 := if bitAt s.regs.snap 7 then clearCounters s1 win else s1
  let seq := fieldN s.regs.snap 16 16
  match win with
  | .hub => { s2 with regs := { s2.regs with snap := putBit (putField s2.regs.snap 32 16 seq) 48 true } }
  | .pot n => updPot s2 n fun p => { p with snapSeq := BitVec.ofNat 16 seq, snapValid := true }

/-- A pot that is out of service when the message arrives is skipped. -/
def skipWindow (s : State) : Window → State
  | .hub => s
  | .pot n => updPot s n fun p => { p with snapValid := false }
def windowLatches (s : State) : Window → Bool
  | .hub => true
  | .pot n => potOn s n

/-- SNAPSHOT_LATCH: the latch message reaches a window's blocks; BUSY ends with the last window. -/
def execSnapshotLatch (win : Window) (s : State) : Result :=
  let left := s.regs.latchLeft.filter (· != winNo win)
  let s1 := if windowLatches s win then latchWindow s win else skipWindow s win
  whenDo (hubOn s && s.regs.latchLeft.contains (winNo win)) s
    { s1 with regs := { s1.regs with latchLeft := left, snap := putBit s1.regs.snap 9 (!left.isEmpty) } }

end Sys2Proof.Machine
end

