-- ==== Sys2Proof/Machine/Boot.lean ====
section
/-!
DEFINITION. The boot ROM (R446): keys, the set that boots, the repair log, self-tests, defaults (R447), the start of firmware or
plain memory (R450), and the key layers (R452).
-/

namespace Sys2Proof.Machine

/-! The set (R438, R439, R446). -/

/-- The kind whose check fails first in a set, or the lower kind of its first untested pair; none when it is consistent. -/
def setFails (s : State) (place : FwKind → ImgPlace) : Option Nat :=
  let bad := fun (k : FwKind) =>
    match imageAt s.caddy k (place k) with
    | none => true
    | some bs => imageCheck s k bs != 0
  match setKinds.find? bad with
  | some k => some (kindCode k)
  | none => untestedPair (setKinds.map fun k => (kindCode k, (imageAt s.caddy k (place k)).getD []))

/-- Torn slots that the ROM reads: a fault record each, and TORN (R441). -/
def reportTorn (s : State) (l : List (FwKind × ImgPlace)) : State :=
  runAll (fun t e =>
    if tornAt t.caddy e.1 e.2 then
      let u := sendFault t (plainFault (hubIsland 8) 0xB 4 (areaOffset e.1 e.2) 0)
      { u with fw := { u.fw with boot := putBit u.fw.boot 5 true } }
    else t) l s

/-- Pointer records that fail their checks are skipped and reported (R442): 127 to a page. -/
def reportPointers (s : State) : State :=
  runAll (fun t x =>
    if x.1.good then t else sendFault t (plainFault (hubIsland 8) 0xB 1 (0x4000000 + x.2 / 127 * 16384 + x.2 % 127 * 128) 0))
    s.caddy.pointers.zipIdx s

/-- Steps 2 to 5: HUB_BOOT with ROOT_OK, OWNER_ENROLLED, SOURCE and FAIL_KIND; the places of the set that boots, if any. -/
def chooseSet (s : State) : State × Option (FwKind → ImgPlace) :=
  let p := curPointer s.caddy
  let s1 := reportTorn (reportPointers s) (setKinds.map fun k => (k, committedPlace p k))
  let first := setFails s (committedPlace p)
  let second := first.bind fun _ => setFails s (lkgPlace p)
  let s2 := if first.isSome then reportTorn s1 (setKinds.map fun k => (k, lkgPlace p k)) else s1
  let source := if first.isNone then 0 else if second.isNone then 1 else 2
  let b := putBit (putBit (putField (putField s2.fw.boot 0 2 source) 6 3 (first.getD 0)) 3 (rootOk s)) 4 (ownerUsable s.caddy.owner)
  ({ s2 with fw := { s2.fw with boot := b } },
    if source = 0 then some (committedPlace p) else if source = 1 then some (lkgPlace p) else none)

/-! Self-tests and DRAM (R180, R191, R227, R459). -/

/-- At a cold power-on: LUs that fail are DEAD, and an MXE that fails is retired. -/
def bootTests (s : State) (deadLus : List (PotIx × LuIx)) (mxeFails : BitVec 32) : State :=
  let s1 := runAll (fun t e => updPot t e.1 fun p => setLu p e.2.toNat { Lu.reset with dead := true }) (deadLus.filter fun e => realLu e.2) s
  runAll (fun t n =>
    if bitAt mxeFails n.toNat && mxeFused t then
      { updPot t n fun p => { p with mxe := { p.mxe with failed := true } } with
        svc := { t.svc with mxeOut := putBit t.svc.mxeOut n.toNat true } }
    else t) (presentPots s) s1

/-- After a warm reset each channel leaves self-refresh with its refresh debt at 0. -/
def leaveSelfRefresh (s : State) : State :=
  { s with pots := s.pots.map fun e =>
      (e.1, { e.2 with scheds := e.2.scheds.map fun c => (c.1, { c.2 with selfRefresh := false, debts := [] }) }) }

/-- Pots whose rails are good come into service. -/
def startPots (s : State) : State :=
  runAll (fun t n => if bitAt t.power.pgPot n.toNat then startCores t n else t) (presentPots s) s

/-! Owner defaults (R447). -/

/-- The fields of a register that a value may break (R13). -/
def fldsOf (win : Window) (base v : Nat) : List Fld :=
  match win with
  | .hub =>
    match base with
    | 0x20 => kindFlds ++ unitFlds (getN v 0 3)
    | 0x28 => svcFlds ++ rateFlds
    | 0x60 => snapFlds
    | 0x1018 => ilFlds
    | 0x3000 => ketFlds
    | 0x4000 => nodeFlds
    | _ => []
  | .pot _ =>
    match base with
    | 0x1000 => timingAFlds
    | 0x1008 => timingBFlds
    | 0x1010 => bksCtlFlds v
    | 0x3000 => lockFlds
    | 0x4000 => lockFlds
    | 0x5000 => lockFlds
    | 0x5020 => sfeCtlFlds
    | 0x7000 => patCtlFlds
    | 0x7020 => patCmdFlds
    | 0x9000 => [⟨2, 20, fun x => x != 0⟩]
    | 0x9800 => [⟨2, 20, fun x => x != 0⟩]
    | 0xA000 => traceFlds
    | 0xA080 => pmcFlds
    | _ => if 0x8040 ≤ base ∧ base < 0x8080 then reqFlds else []

/-- A register that a write can change: RW, RWB or W1C fields; HUB_FW_CTL and HUB_KEY_CTL are shut out. -/
def ownerMayWrite (win : Window) (base : Nat) : Bool :=
  match win with
  | .hub =>
    (hubProtected base && base != 0x10 && base != 0x18) || [0x8, 0x70, 0x88, 0x1030, 0x3010].contains base ||
      (decide (0x10000 ≤ base ∧ base < 0x12000) && decide (base % 0x1000 < 0x400))
  | .pot _ => potProtected base || [0x8, 0x28, 0x8000, 0x3008, 0x4008, 0x5008, 0x3028, 0x4030, 0x7030, 0xA010].contains base

/-- An OWNDEF entry: offset, its upper half, value. -/
structure OwnEntry where
  offset : Nat
  zero : Nat
  value : Nat
  deriving DecidableEq, Repr

def ownEntries (bs : List Byte) : List OwnEntry :=
  let body := (imgBody bs).drop 512
  (upto (body.length / 16)).map fun i => ⟨imgField body (16 * i) 4, imgField body (16 * i + 4) 4, imgField body (16 * i + 8) 8⟩

/-- The entry names a 64-bit register that may be written, with no reserved encoding. -/
def ownEntryOk (e : OwnEntry) : Bool :=
  decide (e.zero = 0 ∧ e.offset < 2 ^ 26 ∧ e.offset % 8 = 0) &&
    (match locate e.offset with
     | some r =>
       decide (r.words = 1) && !r.holding && ownerMayWrite r.win r.base &&
         (fldsOf r.win r.base e.value).all fun f => f.ok (getN e.value f.lo f.len)
     | none => false)

/-- The image's header and signature check, the body's first 512 B are the header's complement, and every entry is good. -/
def ownDefOk (s : State) (bs : List Byte) : Bool :=
  decide (imageCheck s .owndef bs = 0) && decide ((imgBody bs).take 512 = (bs.take 512).map fun b => ~~~b) && (ownEntries bs).all ownEntryOk

/-- The entries are written in order, as the hub core that runs the ROM writes. -/
def ownWrites (s : State) (l : List OwnEntry) : State :=
  runAll (fun t e =>
    match regWrite t (.hubCore 0) e.offset 8 (BitVec.ofNat 64 e.value) with
    | .next u => u
    | _ => t) l s

/-- Step 7: the defaults; OWNDEF_APPLIED. -/
def applyOwnDef (s : State) : State :=
  let pl := (curPointer s.caddy).owndef
  let s1 := reportTorn s [(.owndef, pl)]
  match imageAt s.caddy .owndef pl with
  | none => s1
  | some bs =>
    if ownDefOk s bs then
      ownWrites { s1 with fw := { s1.fw with ownDefImage := bs, boot := putBit s1.fw.boot 2 true } } (ownEntries bs)
    else s1

/-! Key layers (R452). -/

/-- CDI_0 from the device secret and the ROM. -/
def cdi0Of (s : State) : BitVec 512 :=
  BitVec.ofNat 512 (natOfBytes (hmac512 (keyBytes s.fuses.uds) (bytesOfNat 64 Config.romDigest.toNat)))
/-- M: SHA-512 of the four DIGEST fields and the owner key hash. -/
def bootMeasure (s : State) (images : FwKind → List Byte) : List Byte :=
  sha512 ((setKinds.map fun k => imgDigest (images k)).flatten ++ ownerHash s)
def cdi1Of (s : State) (cdi0 : BitVec 512) (images : FwKind → List Byte) : BitVec 512 :=
  BitVec.ofNat 512 (natOfBytes (hmac512 (bytesOfNat 64 cdi0.toNat) (bootMeasure s images)))

/-! Firmware starts (R428, R443, R446, R469, R470). -/

/-- The trip record that KET_TRIPS holds goes to the event log, as RTYPE 2. -/
def logTrip (s : State) : State :=
  if s.ket.toLog && s.power.pgCaddy then
    let f := takeFree s
    let w := s.ket.trips
    let at_ := if bitAt w 18 then 31 * 256 + 17 * 8 + fieldN w 15 3 else fieldN w 5 5 * 256 + fieldN w 10 5 * 8 + fieldN w 15 3
    let r := lineOfBytes (faultBytes f.2 (plainFault (hubIsland 6) 9 2 at_ w.toNat) f.1)
    let u := logCaddyEvent f.2 (sealRecord (putField r 0 8 2) 0)
    { u with ket := { u.ket with toLog := false } }
  else s

/-- The last good CURSOR record of the service log. -/
def lastCheckpoint (s : State) : Option Word64 :=
  ((s.caddy.serviceLog.filter fun r => svcRecordGood r && (recKind r == 1 || recKind r == 2)).getLast?).bind fun r =>
    if recKind r = 1 ∧ (cursorOf (recCursor r)).phase ≠ 0 then some (recCursor r) else none

/-- After a cold power-on a migration that the log shows running is abandoned (R470). -/
def coldMigration (s : State) : State :=
  match lastCheckpoint s with
  | some w => svcEnd (logService s 2 (cursorOf w).src w (~~~w)) 4
  | none => s

/-- After a warm reset a migration resumes from the cursor, or from the last checkpoint where the halves disagree; one in PHASE 3
completes its switch (R469, R470). -/
def warmMigration (s : State) : State :=
  let busy := fun (t : State) => { t with svc := { t.svc with ctl := putBit t.svc.ctl 5 true } }
  if agree s.svc.cursor s.svc.cursorN then
    if migPhase s = 0 then s else if migPhase s = 3 then switchAll (busy s) else busy s
  else
    match lastCheckpoint s with
    | some w => busy (setCursor s (cursorOf w))
    | none => abandonMove s

/-- The running set: hub firmware on its pairs, LEAFMC in every LU, XLAT, BREWFW (step 7). -/
def startFirmware (s : State) (place : FwKind → ImgPlace) (warm : Bool) : State :=
  let images := fun (k : FwKind) => (imageAt s.caddy k (place k)).getD []
  let run := setKinds.map fun k => (kindCode k, images k)
  let s1 := { s with
    hubCores := (upto 4).map fun c => (c, ⟨true, 0, 0⟩)
    fw := { s.fw with
      running := true, activePair := false, run := setKinds.map (fun k => (kindCode k, place k)), runImages := run, bootImages := run
      booted600 := false, cdi1 := cdi1Of s s.fw.cdi0 images, cdi0 := 0 } }
  let s2 := loadRouters (startPots s1)
  let out := (allPots.filter fun n => bitAt s2.svc.mxeOut n.toNat && (potOf s2 n).mxe.failed && !logSays s2.caddy.serviceLog n.toNat 5 6)
  let s3 := runAll (fun t n => logService t 5 n 0 0) out (logTrip s2)
  if warm then warmMigration s3 else coldMigration s3

/-- Plain memory (R450): no core runs firmware, and the HFE completes commands PIM_OFFLINE. -/
def plainMemory (s : State) : State :=
  startPots { s with hfe := { s.hfe with pimOff := true }, fw := { s.fw with running := false } }

/-- The registers stand, with the keys checked and the set chosen, and DRAM is up. -/
def bootReady (s : State) (deadLus : List (PotIx × LuIx)) (mxeFails : BitVec 32) : State × Option (FwKind → ImgPlace) :=
  let warm := s.power.warm
  let c := chooseSet { s with fw := { s.fw with cdi0 := cdi0Of s } }
  let t := if warm then leaveSelfRefresh c.1 else bootTests (installRepairs c.1) deadLus mxeFails
  ({ t with power := { t.power with step := .running }, pins := { t.pins with pulseRun := true } }, c.2)

/-- BOOT_ROM: `deadLus` and `mxeFails` are what the self-tests of a cold power-on find. A default that starts a warm module reset ends
this boot. -/
def execBootRom (deadLus : List (PotIx × LuIx)) (mxeFails : BitVec 32) (s : State) : Result :=
  let b := bootReady s deadLus mxeFails
  whenDo (hubOn s && s.power.step == .bootReady) s
    (match b.2 with
     | some place =>
       let d := applyOwnDef (startPots b.1)
       if d.power.step == .running then startFirmware d place s.power.warm else d
     | none => plainMemory b.1)

end Sys2Proof.Machine
end

