-- ==== Sys2Proof/Machine/Answers.lean ====
section
/-!
DEFINITION. Answers that the heads give: the memory device mailbox (R319, R388), CDAT and SPDM over DOE (R319, R452, R453). An answer
holds the contents that the manual gives, and after them what the CXL or SPDM standard adds, as free bytes (log entries 4 and 38).
-/

namespace Sys2Proof.Machine

/-- The mailbox and DOE of a head are served: by hub firmware, or in plain memory by the boot ROM. -/
def answers (s : State) (head : BitVec 1) : Bool := headServes s head && s.power.step == .running

/-- An answer with its given contents and the standard's rest. -/
def answerWith (s : State) (head : BitVec 1) (opcode code : Nat) (given : List Byte) : State :=
  { s with
    freeCtr := s.freeCtr + 1
    out := { s.out with
      answer := some ⟨head, BitVec.ofNat 16 opcode, BitVec.ofNat 16 code, given ++ Config.freeAnswer s.freeCtr⟩ } }

def answerRow (s : State) (head : BitVec 1) (opcode : Nat) (given : List Byte) : Result :=
  whenDo (answers s head) s (answerWith s head opcode 0 given)

/-! The memory device mailbox (R319). -/

/-- Opcodes of the eight commands, as CXL 3.1 numbers them (log entry 38). -/
def mailboxOpcodes : List Nat := [0x4000, 0x0400, 0x0401, 0x0100, 0x0101, 0x4200, 0x4201, 0x4300]

/-- IDENTIFY_MEMORY_DEVICE: the capacity of the data range, all of it volatile. -/
def execIdentifyMemoryDevice (head : BitVec 1) (s : State) : Result :=
  answerRow s head 0x4000 (bytesOfNat 8 (dataEnd s) ++ bytesOfNat 8 (dataEnd s) ++ bytesOfNat 8 0)

/-- GET_SUPPORTED_LOGS: the CEL alone. -/
def execGetSupportedLogs (head : BitVec 1) (s : State) : Result := answerRow s head 0x0400 (bytesOfNat 2 1)

/-- GET_LOG: the CEL names the supported commands. -/
def execGetLog (head : BitVec 1) (s : State) : Result :=
  answerRow s head 0x0401 (mailboxOpcodes.map (bytesOfNat 2)).flatten

/-- An event record's contents: its kind, and the DPA, module address or place. -/
def cxlEventBytes : CxlEvent → List Byte
  | .generalMedia dpa => bytesOfNat 8 1 ++ bytesOfNat 8 dpa.toNat
  | .dramRowRemap a => bytesOfNat 8 2 ++ bytesOfNat 8 a.toNat
  | .dramBankRemap a => bytesOfNat 8 3 ++ bytesOfNat 8 a.toNat
  | .temperature p => bytesOfNat 8 4 ++ bytesOfNat 8 p

/-- GET_EVENT_RECORDS: the records not yet cleared, oldest first. -/
def execGetEventRecords (head : BitVec 1) (s : State) : Result := answerRow s head 0x0100 (s.cxlEvents.map cxlEventBytes).flatten

/-- CLEAR_EVENT_RECORDS: the oldest `count` records go. -/
def execClearEventRecords (head : BitVec 1) (count : BitVec 8) (s : State) : Result :=
  answerRow (if answers s head then { s with cxlEvents := s.cxlEvents.drop count.toNat } else s) head 0x0101 []

/-- GET_HEALTH_INFO. -/
def execGetHealthInfo (head : BitVec 1) (s : State) : Result := answerRow s head 0x4200 []

/-- GET_ALERT_CONFIGURATION. -/
def execGetAlertConfiguration (head : BitVec 1) (s : State) : Result := answerRow s head 0x4201 []

/-- GET_POISON_LIST: the DPAs of the last 256 host reads that came UNCORRECTABLE or ROW_BAD (R388). -/
def execGetPoisonList (head : BitVec 1) (s : State) : Result :=
  answerRow s head 0x4300 (s.poisonList.map fun d => bytesOfNat 8 d.toNat).flatten

/-- MAILBOX_UNSUPPORTED: any other opcode returns Unsupported. -/
def execMailboxUnsupported (head : BitVec 1) (opcode : BitVec 16) (s : State) : Result :=
  whenDo (answers s head && !mailboxOpcodes.contains opcode.toNat) s
    { s with out := { s.out with answer := some ⟨head, opcode, 3, []⟩ } }

/-- CDAT: the DPA range of the one memory device. -/
def execCdat (head : BitVec 1) (s : State) : Result := answerRow s head 0 (bytesOfNat 8 0 ++ bytesOfNat 8 (dataEnd s))

/-! SPDM (R452, R453). Request codes are those of SPDM 1.3 (log entry 38). -/

/-- The letters of a label. -/
def asciiBytes (x : String) : List Byte := x.toList.map fun c => BitVec.ofNat 8 c.toNat
/-- A key pair's public half from its layer's CDI: the first 32 B of HMAC-SHA-512 over the label seed it. -/
def layerPublic (cdi : BitVec 512) (label : String) : List Byte :=
  edPublic ((hmac512 (bytesOfNat 64 cdi.toNat) (asciiBytes label)).take 32)
def deviceIdPublic (s : State) : List Byte := layerPublic (cdi0Of s) "MGDEVID"
def aliasPublic (s : State) : List Byte := layerPublic s.fw.cdi1 "MGALIAS"
/-- Who signs: the alias key, or in plain memory the DeviceID key. -/
def signerPublic (s : State) : List Byte := if s.fw.running then aliasPublic s else deviceIdPublic s

/-- GET_VERSION: SPDM 1.3. -/
def execGetVersion (head : BitVec 1) (s : State) : Result := answerRow s head 0x84 [0x13]

/-- GET_CAPABILITIES. -/
def execGetCapabilities (head : BitVec 1) (s : State) : Result := answerRow s head 0xE1 []

/-- NEGOTIATE_ALGORITHMS settles on EdDSA Ed25519 and SHA-512: the selections of the standard's two masks. -/
def execNegotiateAlgorithms (head : BitVec 1) (s : State) : Result :=
  answerRow (if answers s head then { s with fw := { s.fw with spdmAlgs := true } } else s) head 0xE3 (bytesOfNat 4 0x400 ++ bytesOfNat 4 4)

/-- GET_DIGESTS: slot 0 alone holds a chain. -/
def execGetDigests (head : BitVec 1) (s : State) : Result := answerRow s head 0x81 [1]

/-- The public keys of the chain: foundation root, DeviceID, and the alias key while firmware runs. -/
def chainKeys (s : State) : List Byte :=
  keyBytes s.caddy.rootKey ++ deviceIdPublic s ++ (if s.fw.running then aliasPublic s else [])

/-- GET_CERTIFICATE: slot 0's chain; the other slots hold none. -/
def execGetCertificate (head : BitVec 1) (slot : BitVec 4) (s : State) : Result :=
  whenDo (answers s head) s
    (if slot = 0 then answerWith s head 0x82 0 (chainKeys s) else answerWith s head 0x82 1 [])

/-- CHALLENGE: the signer's key and the nonce, then the signed answer. -/
def execChallenge (head : BitVec 1) (slot : BitVec 4) (nonce : BitVec 256) (s : State) : Result :=
  whenDo (answers s head) s
    (if slot = 0 then answerWith s head 0x83 0 (signerPublic s ++ bytesOfNat 32 nonce.toNat) else answerWith s head 0x83 1 [])

/-- A DIGEST, or zeros where there is no image. -/
def digestOr (bs : List Byte) : List Byte := if bs.isEmpty then List.replicate 64 0 else imgDigest bs
/-- ROOT_OK, OWNER_ENROLLED and SOURCE of HUB_BOOT in one byte. -/
def bootByte (s : State) : List Byte :=
  bytesOfNat 1 (packed [(0, bit (bitAt s.fw.boot 3)), (1, bit (bitAt s.fw.boot 4)), (2, fieldN s.fw.boot 0 2)])

/-- Measurement block `i`, 1 to 12; in plain memory no image has booted or runs. -/
def measurement (s : State) (i : Nat) : List Byte :=
  let booted := fun (k : FwKind) => if s.fw.running then digestOr (tget s.fw.bootImages (kindCode k) []) else List.replicate 64 0
  let runs := fun (k : FwKind) => if s.fw.running then digestOr (runImage s k) else List.replicate 64 0
  match i with
  | 1 => bytesOfNat 64 Config.romDigest.toNat
  | 2 => booted .hubfw
  | 3 => booted .brewfw
  | 4 => booted .leafmc
  | 5 => booted .xlat
  | 6 => digestOr s.fw.ownDefImage
  | 7 => ownerHash s ++ bootByte s
  | 8 => bytesOfNat 8 (hubValue s .host 0)
  | 9 => runs .hubfw
  | 10 => runs .brewfw
  | 11 => runs .leafmc
  | 12 => runs .xlat
  | _ => []

/-- GET_MEASUREMENTS: index 0 asks for the number of blocks, 0xFF for all of them, 1 to 12 for one; no other index exists. -/
def execGetMeasurements (head : BitVec 1) (index : BitVec 8) (s : State) : Result :=
  let i := index.toNat
  whenDo (answers s head) s
    (if i = 0 then answerWith s head 0xE0 0 [12]
     else if i = 0xFF then answerWith s head 0xE0 0 ((between 1 13).map (measurement s)).flatten
     else if i ≤ 12 then answerWith s head 0xE0 0 (measurement s i)
     else answerWith s head 0xE0 1 [])

end Sys2Proof.Machine
end

