-- ==== Sys2Proof/Machine/Pads.lean ====
section
/-!
DEFINITION. The sideband controller (R533, R534) and the JTAG port (R535), both in the always-on domain.
-/

namespace Sys2Proof.Machine

/-! The sideband controller. -/

/-- Status codes of R533. -/
def sbDone : Byte := 0
def sbInReset : Byte := 2
def sbDenied : Byte := 3

/-- Offsets beyond BAR0 name nothing, and are passed on as an unmapped one (R477, R478). -/
def sbOffset (off : BitVec 32) : Nat := if off.toNat < 2 ^ 26 then off.toNat else 0xFFFFF8 + off.toNat % 8

/-- The access is refused: it is narrow, or writes POT_MAP (R479, R481). -/
def sbRefused (s : State) (off : Nat) (write : Bool) : Bool :=
  off % 8 != 0 || (write && decide (off = 0x88) && decide (indSpace (indAddr s .sideband .hub) = 1) &&
    indInside ⟨2048, 1, some 0⟩ (indAddr s .sideband .hub))

def sbStatus (s : State) (off : Nat) (write : Bool) : Byte :=
  if s.power.step != .running then sbInReset else if sbRefused s off write then sbDenied else sbDone

/-- The status byte as the controller shows it, with the data read. -/
def sbShow (s : State) (data : Word64) (st : Byte) : State :=
  { s with sb := { s.sb with status := st }, out := { s.out with sideband := some (data, st) } }
/-- While VDD_HUB is down every command is answered with "hub in reset" (R534); without VDD_AON nothing is. -/
def sbServe (s : State) (r : Result) : Result := if !s.power.aon then .next s else if !hubOn s then .next (sbShow s 0 sbInReset) else r

/-- WRITE64: 8 B at a BAR0 offset, as the sideband agent's write. -/
def execWrite64 (off : BitVec 32) (data : Word64) (s : State) : Result :=
  let o := sbOffset off
  let st := sbStatus s o true
  sbServe s (andThen (regWrite s .sideband o 8 data) fun t => .next { t with sb := { t.sb with status := st } })

/-- SET_OFFSET. -/
def execSetOffset (off : BitVec 32) (s : State) : Result :=
  sbServe s (.next { s with sb := { s.sb with offset := off, status := sbDone } })

/-- READ64: 8 B from the offset set last, and the status byte. -/
def execRead64 (s : State) : Result :=
  let o := sbOffset s.sb.offset
  let st := sbStatus s o false
  sbServe s (andThen (regRead s .sideband o 8) fun t =>
    .next (sbShow { t with out := { t.out with reg := s.out.reg } } ((t.out.reg.map Prod.snd).getD 0) st))

/-- STATUS: the status byte of the last command. -/
def execStatus (s : State) : Result := sbServe s (.next (sbShow s 0 (if s.power.step != .running then sbInReset else s.sb.status)))

/-- ENTDAA: in I3C mode a controller without a dynamic address takes the one assigned. -/
def execEntdaa (address : BitVec 7) (s : State) : Result :=
  whenDo (s.power.aon && s.pins.sbMode && s.sb.dynAddr.isNone) s { s with sb := { s.sb with dynAddr := some address } }

/-- The static address: 0x58 + SB_ADDR. -/
def staticAddress (s : State) : BitVec 7 := 0x58 + s.pins.sbAddr.setWidth 7

/-! JTAG. -/

/-- The boundary cells, lowest first (log entry 39): SB_MODE, SB_ADDR, ALERT_N, THERMTRIP_N, PULSE, then EN_CADDY, EN_HUB, EN_POT,
EN_SPT. -/
def padLevels (s : State) : Word64 :=
  BitVec.ofNat 64 (packed [(0, bit s.pins.sbMode), (1, s.pins.sbAddr.toNat), (3, bit (s.pins.alert == 0)), (4, bit (!s.pins.thermtrip)),
    (5, bit s.pins.pulse), (6, bit s.power.enCaddy), (7, bit s.power.enHub), (8, s.power.enPot.toNat), (40, s.power.enSpt.toNat)])
/-- Cells of inputs: EXTEST drives every other one. -/
def inputCells : Word64 := 7
def padsSeen (s : State) : Word64 :=
  if s.jtag.driving then (padLevels s &&& inputCells) ||| (s.jtag.boundary &&& ~~~inputCells) else padLevels s

/-- IDCODE (R535). -/
def idcodeOf (f : Stepping) : Word64 :=
  BitVec.ofNat 64 ((match f with | .a0 => 0 | .a1 => 1 | .b0 => 2) * 2 ^ 28 + 0x0118 * 2 ^ 12 + 1)

/-- An instruction is selected, and its register captured and shifted out. -/
def jtagSelect (s : State) (i : JtagInstr) (dr : Word64) : State :=
  { s with jtag := { s.jtag with instr := i, dr := dr, driving := i == .extest }, out := { s.out with tdo := dr } }

/-- BYPASS: one bit that captures 0. -/
def execBypass (s : State) : Result := whenDo s.power.aon s (jtagSelect s .bypass 0)

/-- IDCODE. -/
def execIdcode (s : State) : Result := whenDo s.power.aon s (jtagSelect s .idcode (idcodeOf s.fuses.stepping))

/-- SAMPLE/PRELOAD: the pads are captured, and the boundary cells take the shifted value. -/
def execSamplePreload (preload : Word64) (s : State) : Result :=
  let t := jtagSelect s .sample (padsSeen s)
  whenDo s.power.aon s { t with jtag := { t.jtag with boundary := preload } }

/-- EXTEST: the boundary cells drive the output pads. -/
def execExtest (s : State) : Result :=
  whenDo s.power.aon s (jtagSelect s .extest ((padLevels s &&& inputCells) ||| (s.jtag.boundary &&& ~~~inputCells)))

/-- TEST_LOGIC_RESET: TRST_N low; the pads are the module's own again. -/
def execTestLogicReset (s : State) : Result :=
  whenDo s.power.aon s { s with jtag := { s.jtag with instr := .reset, driving := false } }

end Sys2Proof.Machine
end

