-- ==== Sys2Proof/Machine/Dispatch.lean ====
section
/-!
DEFINITION. The command's effect: one arm per constructor, each one direct call of its meaning.
-/

namespace Sys2Proof.Machine

/-- What a command does to everything but the queue. -/
def exec (i : Instr) (s : State) : Host.Outcome State Fault Refusal :=
  match i with
  | .coldPowerOn => Sys2Proof.Machine.execColdPowerOn s
  | .pgTimeout r => Sys2Proof.Machine.execPgTimeout r s
  | .pgFall r => Sys2Proof.Machine.execPgFall r s
  | .bootRom deadLus mxeFails => Sys2Proof.Machine.execBootRom deadLus mxeFails s
  | .tagSweepDone n group => Sys2Proof.Machine.execTagSweepDone n group s
  | .trayClearDone n => Sys2Proof.Machine.execTrayClearDone n s
  | .lkgRecord => Sys2Proof.Machine.execLkgRecord s
  | .enrollWindowClose => Sys2Proof.Machine.execEnrollWindowClose s
  | .pulseToggle => Sys2Proof.Machine.execPulseToggle s
  | .perst levels => Sys2Proof.Machine.execPerst levels s
  | .warmModuleReset => Sys2Proof.Machine.execWarmModuleReset s
  | .potReset n failedLus mxePass fwStarts => Sys2Proof.Machine.execPotReset n failedLus mxePass fwStarts s
  | .engineReset n eng => Sys2Proof.Machine.execEngineReset n eng s
  | .brewerCoreReset n core => Sys2Proof.Machine.execBrewerCoreReset n core s
  | .headLinkTrain head proto rate width => Sys2Proof.Machine.execHeadLinkTrain head proto rate width s
  | .headLinkDown head => Sys2Proof.Machine.execHeadLinkDown head s
  | .hdmDecoderCommit head decoder commit => Sys2Proof.Machine.execHdmDecoderCommit head decoder commit s
  | .cxlMemRead head dpa => Sys2Proof.Machine.execCxlMemRead head dpa s
  | .cxlMemWrite head dpa data mask poison => Sys2Proof.Machine.execCxlMemWrite head dpa data mask poison s
  | .syncViewRead head n index => Sys2Proof.Machine.execSyncViewRead head n index s
  | .apertureLineWrite head offset data mask => Sys2Proof.Machine.execApertureLineWrite head offset data mask s
  | .assemblyTimeout slot => Sys2Proof.Machine.execAssemblyTimeout slot s
  | .dispatchAccept slot => Sys2Proof.Machine.execDispatchAccept slot s
  | .commandDispatch => Sys2Proof.Machine.execCommandDispatch s
  | .memberAnswer n => Sys2Proof.Machine.execMemberAnswer n s
  | .memberLost cmd n => Sys2Proof.Machine.execMemberLost cmd n s
  | .commandComplete cmd => Sys2Proof.Machine.execCommandComplete cmd s
  | .cmdTimeout cmd => Sys2Proof.Machine.execCmdTimeout cmd s
  | .msixUnmask head vec => Sys2Proof.Machine.execMsixUnmask head vec s
  | .leaf n => Sys2Proof.Machine.execLeaf n s
  | .launch n => Sys2Proof.Machine.execLaunch n s
  | .load n => Sys2Proof.Machine.execLoad n s
  | .restore n => Sys2Proof.Machine.execRestore n s
  | .save n => Sys2Proof.Machine.execSave n s
  | .unload n => Sys2Proof.Machine.execUnload n s
  | .hostSync n => Sys2Proof.Machine.execHostSync n s
  | .trayCopy n => Sys2Proof.Machine.execTrayCopy n s
  | .identifyMemoryDevice head => Sys2Proof.Machine.execIdentifyMemoryDevice head s
  | .getSupportedLogs head => Sys2Proof.Machine.execGetSupportedLogs head s
  | .getLog head => Sys2Proof.Machine.execGetLog head s
  | .getEventRecords head => Sys2Proof.Machine.execGetEventRecords head s
  | .clearEventRecords head count => Sys2Proof.Machine.execClearEventRecords head count s
  | .getHealthInfo head => Sys2Proof.Machine.execGetHealthInfo head s
  | .getAlertConfiguration head => Sys2Proof.Machine.execGetAlertConfiguration head s
  | .getPoisonList head => Sys2Proof.Machine.execGetPoisonList head s
  | .mailboxUnsupported head opcode => Sys2Proof.Machine.execMailboxUnsupported head opcode s
  | .getVersion head => Sys2Proof.Machine.execGetVersion head s
  | .getCapabilities head => Sys2Proof.Machine.execGetCapabilities head s
  | .negotiateAlgorithms head => Sys2Proof.Machine.execNegotiateAlgorithms head s
  | .getDigests head => Sys2Proof.Machine.execGetDigests head s
  | .getCertificate head slot => Sys2Proof.Machine.execGetCertificate head slot s
  | .challenge head slot nonce => Sys2Proof.Machine.execChallenge head slot nonce s
  | .getMeasurements head index => Sys2Proof.Machine.execGetMeasurements head index s
  | .commit entry => Sys2Proof.Machine.execCommit entry s
  | .clear entry => Sys2Proof.Machine.execClear entry s
  | .potMapWrite entry value => Sys2Proof.Machine.execPotMapWrite entry value s
  | .potMapChangeApply entry => Sys2Proof.Machine.execPotMapChangeApply entry s
  | .engineCommandPush n eng cmd => Sys2Proof.Machine.execEngineCommandPush n eng cmd s
  | .engineCommandStart n eng => Sys2Proof.Machine.execEngineCommandStart n eng s
  | .engineCommandComplete n eng => Sys2Proof.Machine.execEngineCommandComplete n eng s
  | .icacheFill n eng => Sys2Proof.Machine.execIcacheFill n eng s
  | .nop n eng => Sys2Proof.Machine.execNop n eng s
  | .loop n eng => Sys2Proof.Machine.execLoop n eng s
  | .branch n eng => Sys2Proof.Machine.execBranch n eng s
  | .add n eng => Sys2Proof.Machine.execAdd n eng s
  | .sub n eng => Sys2Proof.Machine.execSub n eng s
  | .shl n eng => Sys2Proof.Machine.execShl n eng s
  | .shr n eng => Sys2Proof.Machine.execShr n eng s
  | .sar n eng => Sys2Proof.Machine.execSar n eng s
  | .min n eng => Sys2Proof.Machine.execMin n eng s
  | .max n eng => Sys2Proof.Machine.execMax n eng s
  | .slt n eng => Sys2Proof.Machine.execSlt n eng s
  | .seq n eng => Sys2Proof.Machine.execSeq n eng s
  | .lui n eng => Sys2Proof.Machine.execLui n eng s
  | .li n eng => Sys2Proof.Machine.execLi n eng s
  | .wlc n eng => Sys2Proof.Machine.execWlc n eng s
  | .rlc n eng => Sys2Proof.Machine.execRlc n eng s
  | .agpos n eng => Sys2Proof.Machine.execAgpos n eng s
  | .stream n eng => Sys2Proof.Machine.execStream n eng s
  | .streamBurst n eng ag => Sys2Proof.Machine.execStreamBurst n eng ag s
  | .queueElementAvailable n queue => Sys2Proof.Machine.execQueueElementAvailable n queue s
  | .sync n eng => Sys2Proof.Machine.execSync n eng s
  | .endWord n eng => Sys2Proof.Machine.execEndWord n eng s
  | .seqStallTimeout n eng => Sys2Proof.Machine.execSeqStallTimeout n eng s
  | .infusionFail infusion => Sys2Proof.Machine.execInfusionFail infusion s
  | .halt n eng on => Sys2Proof.Machine.execHalt n eng on s
  | .inval n eng => Sys2Proof.Machine.execInval n eng s
  | .mma n => Sys2Proof.Machine.execMma n s
  | .mma24 n => Sys2Proof.Machine.execMma24 n s
  | .mmabs n => Sys2Proof.Machine.execMmabs n s
  | .flush n residueBad => Sys2Proof.Machine.execFlush n residueBad s
  | .zero n => Sys2Proof.Machine.execZero n s
  | .ftqSlotReady n => Sys2Proof.Machine.execFtqSlotReady n s
  | .recipe n => Sys2Proof.Machine.execRecipe n s
  | .reduce n => Sys2Proof.Machine.execReduce n s
  | .softmax n => Sys2Proof.Machine.execSoftmax n s
  | .gate n => Sys2Proof.Machine.execGate n s
  | .summaryWordPush n => Sys2Proof.Machine.execSummaryWordPush n s
  | .vxeSumqPop who n => Sys2Proof.Machine.execVxeSumqPop who n s
  | .recipeWrite who n entry words => Sys2Proof.Machine.execRecipeWrite who n entry words s
  | .gatherCsr n => Sys2Proof.Machine.execGatherCsr n s
  | .gatherCoo n => Sys2Proof.Machine.execGatherCoo n s
  | .scatter n => Sys2Proof.Machine.execScatter n s
  | .bagsumLu n => Sys2Proof.Machine.execBagsumLu n s
  | .dispatch n => Sys2Proof.Machine.execDispatch n s
  | .combine n => Sys2Proof.Machine.execCombine n s
  | .sfeRowReturn n ticket => Sys2Proof.Machine.execSfeRowReturn n ticket s
  | .bagLeafFold n => Sys2Proof.Machine.execBagLeafFold n s
  | .leafCommandPush n cmd => Sys2Proof.Machine.execLeafCommandPush n cmd s
  | .leafCommandDeliver n => Sys2Proof.Machine.execLeafCommandDeliver n s
  | .operandSlotLoad n group => Sys2Proof.Machine.execOperandSlotLoad n group s
  | .microwordLoad n => Sys2Proof.Machine.execMicrowordLoad n s
  | .luNop n lu => Sys2Proof.Machine.execLuNop n lu s
  | .rdl n lu => Sys2Proof.Machine.execRdl n lu s
  | .wrl n lu => Sys2Proof.Machine.execWrl n lu s
  | .wrq n lu => Sys2Proof.Machine.execWrq n lu s
  | .maco n lu => Sys2Proof.Machine.execMaco n lu s
  | .adds n lu => Sys2Proof.Machine.execAdds n lu s
  | .axpy n lu => Sys2Proof.Machine.execAxpy n lu s
  | .scl n lu => Sys2Proof.Machine.execScl n lu s
  | .cmpc n lu => Sys2Proof.Machine.execCmpc n lu s
  | .rdap n lu => Sys2Proof.Machine.execRdap n lu s
  | .stap n lu => Sys2Proof.Machine.execStap n lu s
  | .movl n lu => Sys2Proof.Machine.execMovl n lu s
  | .zl n lu => Sys2Proof.Machine.execZl n lu s
  | .ldq n lu => Sys2Proof.Machine.execLdq n lu s
  | .addl n lu residueBad => Sys2Proof.Machine.execAddl n lu residueBad s
  | .mull n lu residueBad => Sys2Proof.Machine.execMull n lu residueBad s
  | .macl n lu residueBad => Sys2Proof.Machine.execMacl n lu residueBad s
  | .za n lu => Sys2Proof.Machine.execZa n lu s
  | .tree n lu => Sys2Proof.Machine.execTree n lu s
  | .tkins n lu => Sys2Proof.Machine.execTkins n lu s
  | .nxi n lu => Sys2Proof.Machine.execNxi n lu s
  | .nxr n lu => Sys2Proof.Machine.execNxr n lu s
  | .setlc n lu => Sys2Proof.Machine.execSetlc n lu s
  | .cb n lu => Sys2Proof.Machine.execCb n lu s
  | .setap n lu => Sys2Proof.Machine.execSetap n lu s
  | .put n lu => Sys2Proof.Machine.execPut n lu s
  | .luColumnAccess n lu residueBad => Sys2Proof.Machine.execLuColumnAccess n lu residueBad s
  | .luLimitTimeout n lu => Sys2Proof.Machine.execLuLimitTimeout n lu s
  | .leafResultRecord n => Sys2Proof.Machine.execLeafResultRecord n s
  | .bksRequestArrive n group port req => Sys2Proof.Machine.execBksRequestArrive n group port req s
  | .bksAdmit n group => Sys2Proof.Machine.execBksAdmit n group s
  | .bksPick n group => Sys2Proof.Machine.execBksPick n group s
  | .refreshInterval n group bank => Sys2Proof.Machine.execRefreshInterval n group bank s
  | .eyeRecentre n group => Sys2Proof.Machine.execEyeRecentre n group s
  | .narrowWrite n group bank row col data mask poison => Sys2Proof.Machine.execNarrowWrite n group bank row col data mask poison s
  | .mergeTimeout n group bank row col => Sys2Proof.Machine.execMergeTimeout n group bank row col s
  | .retrain n group => Sys2Proof.Machine.execRetrain n group s
  | .retrainAttemptEnd n passed => Sys2Proof.Machine.execRetrainAttemptEnd n passed s
  | .patrolRowVisit n group => Sys2Proof.Machine.execPatrolRowVisit n group s
  | .rowRemap n group bank row spare => Sys2Proof.Machine.execRowRemap n group bank row spare s
  | .spareMove n group bank row spare => Sys2Proof.Machine.execSpareMove n group bank row spare s
  | .bankRemap n group bank spare => Sys2Proof.Machine.execBankRemap n group bank spare s
  | .bankRemapSwitch n => Sys2Proof.Machine.execBankRemapSwitch n s
  | .tagfix n group bank row => Sys2Proof.Machine.execTagfix n group bank row s
  | .scrubRange n group bank row rowLast => Sys2Proof.Machine.execScrubRange n group bank row rowLast s
  | .flipArm n group ports arm => Sys2Proof.Machine.execFlipArm n group ports arm s
  | .permitRequest n cls unit => Sys2Proof.Machine.execPermitRequest n cls unit s
  | .permitGrantCycle n => Sys2Proof.Machine.execPermitGrantCycle n s
  | .permitRelease n cls unit => Sys2Proof.Machine.execPermitRelease n cls unit s
  | .permitPrecedence n cls => Sys2Proof.Machine.execPermitPrecedence n cls s
  | .permitOverdraw n cls => Sys2Proof.Machine.execPermitOverdraw n cls s
  | .req n core steeps => Sys2Proof.Machine.execReq n core steeps s
  | .release n core => Sys2Proof.Machine.execRelease n core s
  | .pmtBudgetWrite window value => Sys2Proof.Machine.execPmtBudgetWrite window value s
  | .activityEstimate n est => Sys2Proof.Machine.execActivityEstimate n est s
  | .ketMeasurementTick place readings => Sys2Proof.Machine.execKetMeasurementTick place readings s
  | .caddyRailOff => Sys2Proof.Machine.execCaddyRailOff s
  | .ketRestart => Sys2Proof.Machine.execKetRestart s
  | .stage kind src => Sys2Proof.Machine.execStage kind src s
  | .activate kind => Sys2Proof.Machine.execActivate kind s
  | .brewfwPotQuiesce n selfCheck => Sys2Proof.Machine.execBrewfwPotQuiesce n selfCheck s
  | .brewfwSelfcheckTimeout n => Sys2Proof.Machine.execBrewfwSelfcheckTimeout n s
  | .hubfwHandover => Sys2Proof.Machine.execHubfwHandover s
  | .enroll => Sys2Proof.Machine.execEnroll s
  | .rotate => Sys2Proof.Machine.execRotate s
  | .revoke => Sys2Proof.Machine.execRevoke s
  | .migrate n andRetire => Sys2Proof.Machine.execMigrate n andRetire s
  | .mirror entry tpot tgroup => Sys2Proof.Machine.execMirror entry tpot tgroup s
  | .unmirror entry => Sys2Proof.Machine.execUnmirror entry s
  | .retirePot n => Sys2Proof.Machine.execRetirePot n s
  | .unretirePot n selfTest => Sys2Proof.Machine.execUnretirePot n selfTest s
  | .retireMxe n => Sys2Proof.Machine.execRetireMxe n s
  | .returnMxe n => Sys2Proof.Machine.execReturnMxe n s
  | .abort => Sys2Proof.Machine.execAbort s
  | .migrationCopyUnit => Sys2Proof.Machine.execMigrationCopyUnit s
  | .migrationSettle => Sys2Proof.Machine.execMigrationSettle s
  | .migrationSwitch => Sys2Proof.Machine.execMigrationSwitch s
  | .loadQueueServe => Sys2Proof.Machine.execLoadQueueServe s
  | .loadPhase => Sys2Proof.Machine.execLoadPhase s
  | .loadPhaseTimeout n => Sys2Proof.Machine.execLoadPhaseTimeout n s
  | .loadCommitDone n => Sys2Proof.Machine.execLoadCommitDone n s
  | .infusionDrained infusion => Sys2Proof.Machine.execInfusionDrained infusion s
  | .drainTimeout infusion => Sys2Proof.Machine.execDrainTimeout infusion s
  | .read n index agent => Sys2Proof.Machine.execRead n index agent s
  | .store n index agent operand full => Sys2Proof.Machine.execStore n index agent operand full s
  | .fill n index agent operand => Sys2Proof.Machine.execFill n index agent operand s
  | .empty n index agent => Sys2Proof.Machine.execEmpty n index agent s
  | .wait n index agent cond operand => Sys2Proof.Machine.execWait n index agent cond operand s
  | .signal n index agent operand => Sys2Proof.Machine.execSignal n index agent operand s
  | .arrive n index agent operand => Sys2Proof.Machine.execArrive n index agent operand s
  | .bwait n index agent operand => Sys2Proof.Machine.execBwait n index agent operand s
  | .barrier n index agent operand => Sys2Proof.Machine.execBarrier n index agent operand s
  | .sncInputHoldRelease n => Sys2Proof.Machine.execSncInputHoldRelease n s
  | .sncWaitTimeout n agent => Sys2Proof.Machine.execSncWaitTimeout n agent s
  | .deferredOpRelease n k => Sys2Proof.Machine.execDeferredOpRelease n k s
  | .strandTimeout n k => Sys2Proof.Machine.execStrandTimeout n k s
  | .streamAckTimer n k src srcPot => Sys2Proof.Machine.execStreamAckTimer n k src srcPot s
  | .flitSlot n k => Sys2Proof.Machine.execFlitSlot n k s
  | .flitReceive n k flit hcrcGood pcrcGood => Sys2Proof.Machine.execFlitReceive n k flit hcrcGood pcrcGood s
  | .ackTimer n k vc => Sys2Proof.Machine.execAckTimer n k vc s
  | .idle n k => Sys2Proof.Machine.execIdle n k s
  | .ack n k acks => Sys2Proof.Machine.execAck n k acks s
  | .nak n k vc vseq => Sys2Proof.Machine.execNak n k vc vseq s
  | .nakAll n k vseqs => Sys2Proof.Machine.execNakAll n k vseqs s
  | .init n k node port stepping reserves pool rttNs => Sys2Proof.Machine.execInit n k node port stepping reserves pool rttNs s
  | .laneSwap n k lane => Sys2Proof.Machine.execLaneSwap n k lane s
  | .lastWords n k reason => Sys2Proof.Machine.execLastWords n k reason s
  | .write n k hdr data poison => Sys2Proof.Machine.execWrite n k hdr data poison s
  | .readReq n k hdr bytes => Sys2Proof.Machine.execReadReq n k hdr bytes s
  | .readRsp n k hdr status data poison => Sys2Proof.Machine.execReadRsp n k hdr status data poison s
  | .syncChg n k hdr reqId yop full operand => Sys2Proof.Machine.execSyncChg n k hdr reqId yop full operand s
  | .syncReq n k hdr yop cond operand => Sys2Proof.Machine.execSyncReq n k hdr yop cond operand s
  | .syncRsp n k hdr status view => Sys2Proof.Machine.execSyncRsp n k hdr status view s
  | .streamAck n k hdr ct => Sys2Proof.Machine.execStreamAck n k hdr ct s
  | .resync n k hdr lossy => Sys2Proof.Machine.execResync n k hdr lossy s
  | .cmd n k hdr path level header operand => Sys2Proof.Machine.execCmd n k hdr path level header operand s
  | .resolved n k hdr record expected => Sys2Proof.Machine.execResolved n k hdr record expected s
  | .partialResult n k hdr record status flags expected answered value => Sys2Proof.Machine.execPartialResult n k hdr record status flags expected answered value s
  | .nodeLost n k hdr node => Sys2Proof.Machine.execNodeLost n k hdr node s
  | .mgmt n k hdr mkind origin originCupno hops => Sys2Proof.Machine.execMgmt n k hdr mkind origin originCupno hops s
  | .laneFail n k lane => Sys2Proof.Machine.execLaneFail n k lane s
  | .trainingLock n k failedLane => Sys2Proof.Machine.execTrainingLock n k failedLane s
  | .trainingTimeout n k => Sys2Proof.Machine.execTrainingTimeout n k s
  | .trainingRetry n k => Sys2Proof.Machine.execTrainingRetry n k s
  | .initTimeout n k => Sys2Proof.Machine.execInitTimeout n k s
  | .silentTimeout n k => Sys2Proof.Machine.execSilentTimeout n k s
  | .lockLoss n k => Sys2Proof.Machine.execLockLoss n k s
  | .portDrainTimeout n k => Sys2Proof.Machine.execPortDrainTimeout n k s
  | .enable n k on => Sys2Proof.Machine.execEnable n k on s
  | .portReset n k => Sys2Proof.Machine.execPortReset n k s
  | .sptRouteWrite node ports => Sys2Proof.Machine.execSptRouteWrite node ports s
  | .lossyClear n node => Sys2Proof.Machine.execLossyClear n node s
  | .registerWrite who offset size data => Sys2Proof.Machine.execRegisterWrite who offset size data s
  | .word0Read who offset size => Sys2Proof.Machine.execWord0Read who offset size s
  | .indDataAccess who window data => Sys2Proof.Machine.execIndDataAccess who window data s
  | .rwbApply unit => Sys2Proof.Machine.execRwbApply unit s
  | .parityWalk window bad => Sys2Proof.Machine.execParityWalk window bad s
  | .snapshotStart scope n clear => Sys2Proof.Machine.execSnapshotStart scope n clear s
  | .snapshotLatch window => Sys2Proof.Machine.execSnapshotLatch window s
  | .cuppingStart => Sys2Proof.Machine.execCuppingStart s
  | .cuppingPeriodTimer => Sys2Proof.Machine.execCuppingPeriodTimer s
  | .cuppingLatch island => Sys2Proof.Machine.execCuppingLatch island s
  | .faultRecordAccept => Sys2Proof.Machine.execFaultRecordAccept s
  | .faultRecordLost island => Sys2Proof.Machine.execFaultRecordLost island s
  | .traceRecord n unit event status tag infusion arg0 arg1 loss => Sys2Proof.Machine.execTraceRecord n unit event status tag infusion arg0 arg1 loss s
  | .cupTracePop who n => Sys2Proof.Machine.execCupTracePop who n s
  | .cupMarkWrite n arg0 arg1 => Sys2Proof.Machine.execCupMarkWrite n arg0 arg1 s
  | .traceEnable n => Sys2Proof.Machine.execTraceEnable n s
  | .write64 offset data => Sys2Proof.Machine.execWrite64 offset data s
  | .setOffset offset => Sys2Proof.Machine.execSetOffset offset s
  | .read64 => Sys2Proof.Machine.execRead64 s
  | .status => Sys2Proof.Machine.execStatus s
  | .bypass => Sys2Proof.Machine.execBypass s
  | .idcode => Sys2Proof.Machine.execIdcode s
  | .samplePreload preload => Sys2Proof.Machine.execSamplePreload preload s
  | .extest => Sys2Proof.Machine.execExtest s
  | .coldPowerLoss => Sys2Proof.Machine.execColdPowerLoss s
  | .powerGoodRise r => Sys2Proof.Machine.execPowerGoodRise r s
  | .tripHourExpiry => Sys2Proof.Machine.execTripHourExpiry s
  | .entdaa address => Sys2Proof.Machine.execEntdaa address s
  | .cdat head => Sys2Proof.Machine.execCdat head s
  | .testLogicReset => Sys2Proof.Machine.execTestLogicReset s

end Sys2Proof.Machine
end

