-- ==== Sys2Proof/Safety.lean ====
section
/-!
DEFINITION. What counts as a sound state, in the terms the statements use: both memories in their canonical form, no
disabled pot with its rail enabled, and a queue of well-formed commands.
-/

namespace Sys2Proof.Machine

/-- DRAM and tray are canonical lists of cells (log entry 7). -/
def State.memoryOk (s : State) : Prop :=
  Memory.wf dramDefault s.dram = true ∧ Memory.wf trayDefault s.tray = true

/-- EN_POT[n] of a disabled pot stays low (R525). -/
def State.potsDark (s : State) : Prop :=
  ∀ n : PotIx, potEnabled s n = false → bitAt s.power.enPot n.toNat = false

/-- Every waiting command is well formed. -/
def State.queueOk (s : State) : Prop := ∀ c ∈ s.pending, c.wf = true

/-- A sound state. -/
def State.Sound (s : State) : Prop := s.memoryOk ∧ s.potsDark ∧ s.queueOk

/-- What no command changes: the queue and the fuses. -/
def sameQueue (s t : State) : Prop := t.pending = s.pending ∧ t.fuses = s.fuses

/-- The command answers a next state, of which something holds. -/
def runsTo (c : Instr) (s : State) (post : State → Prop) : Prop := ∃ t, exec c s = .next t ∧ post t

/-- Every byte of DRAM and of the trays reads as before, and so does every tray word's poison. -/
def sameBytes (s t : State) : Prop :=
  (∀ a, cellGet dramDefault t.dram a = cellGet dramDefault s.dram a) ∧
  (∀ a, cellGet trayDefault t.tray a = cellGet trayDefault s.tray a) ∧
  ∀ w, trayWordPoison t w = trayWordPoison s w

/-- Nothing but pot `n` changes. -/
def onlyPot (n : PotIx) (s t : State) : Prop := t = { s with pots := t.pots } ∧ ∀ m, m ≠ n → potOf t m = potOf s m

/-- Of pot `n` the sequencer of engine `e` only, and nothing else. -/
def onlySeq (n : PotIx) (e : Eng) (s t : State) : Prop := onlyPot n s t ∧ potOf t n = setSeq (potOf s n) e (seqOf (potOf t n) e)

/-- Of pot `n` the leaf unit `i` only, and nothing else. -/
def onlyLu (n : PotIx) (i : LuIx) (s t : State) : Prop :=
  onlyPot n s t ∧ potOf t n = { potOf s n with lus := (potOf t n).lus } ∧
    ∀ j, j ≠ i.toNat → luOf (potOf t n) j = luOf (potOf s n) j

/-- An agent may operate on words of pot `n` at once: the pot is in service, the agent's slot is free, and nothing waits. -/
def syncFree (s : State) (n : PotIx) (a : Agent) : Prop :=
  potOn s n = true ∧ slotTaken s a = false ∧ (potOf s n).snc.waiters = [] ∧ (potOf s n).snc.held = []

/-- A word that operations act on: allocated, not broken, its complements in agreement. -/
def wordReady (s : State) (n : PotIx) (ix : Nat) : Prop :=
  (wordSeen (potOf s n).snc (fwWords s n) ix).alloc = true ∧ (syncWordOf (potOf s n).snc ix).broken = false ∧
    wordSound (syncWordOf (potOf s n).snc ix) = true

/-- The sync words of pot `n` but those listed are as they were, and so is all memory. -/
def otherWords (n : PotIx) (ixs : List Nat) (s t : State) : Prop :=
  (∀ j, j ∉ ixs → syncWordOf (potOf t n).snc j = syncWordOf (potOf s n).snc j) ∧
    (∀ m, m ≠ n → (potOf t m).snc.words = (potOf s m).snc.words) ∧ sameBytes s t

/-- Request slot `k` of hub core `c` has completed with a status and a view. -/
def hubSlotDone (t : State) (c k : BitVec 2) (st : Status) (view : BitVec 128) : Prop :=
  (tget t.hubSnc (c.toNat * 4 + k.toNat) SncSlot.reset).done = true ∧
    (tget t.hubSnc (c.toNat * 4 + k.toNat) SncSlot.reset).busy = false ∧
    (tget t.hubSnc (c.toNat * 4 + k.toNat) SncSlot.reset).status = st ∧
    (tget t.hubSnc (c.toNat * 4 + k.toNat) SncSlot.reset).view = view

/-- The sequencer of an engine may issue the well-formed word at its PC: it is ready, and its infusion is not failing or the word has
begun (R99). -/
def wordIssues (s : State) (n : PotIx) (e : Eng) (w : ColWord) : Prop :=
  seqReady s n e = true ∧ (infFailing s (seqOf (potOf s n) e).infusion = false ∨ wordBegun (potOf s n) e = true) ∧ wordAt (seqOf (potOf s n) e) e = some w ∧ wordBad (seqOf (potOf s n) e) e = false ∧
    wordOk w = true ∧ opCodeOk e w = true

/-- The word after the one at PC is not the end of the innermost loop's body. -/
def insideLoop (q : Seqr) : Prop := ∀ l ∈ q.loops.head?, q.pc + 1 ≠ l.stop

/-- The sequencer has gone on to the next word: but for address and loop registers and its issue times nothing of it changed. -/
def wordDone (q r : Seqr) : Prop :=
  r = { q with pc := q.pc + 1, issued := 0, stalled := false, heldBack := false, cycle := r.cycle, busyTo := r.busyTo, claims := r.claims,
               icache := r.icache, ax := r.ax, lc := r.lc }

/-- A SCALAR word of code `sop` writes a value to ax[DST], goes on to the next word, and changes nothing else. -/
def scalarWrites (c : PotIx → Eng → Instr) (sop : Nat) (val : Seqr → ColWord → BitVec 48) : Prop :=
  ∀ (s : State) (n : PotIx) (e : Eng) (w : ColWord), wordIssues s n e w → insideLoop (seqOf (potOf s n) e) →
    wKind w = kindScalar → fieldN w 32 4 = sop →
    runsTo (c n e) s fun t =>
      onlySeq n e s t ∧ wordDone (seqOf (potOf s n) e) (seqOf (potOf t n) e) ∧
      (seqOf (potOf t n) e).lc = (seqOf (potOf s n) e).lc ∧
      ∀ i, axOf (seqOf (potOf t n) e) i =
        if i = fieldN w 36 4 then val (seqOf (potOf s n) e) w else axOf (seqOf (potOf s n) e) i

/-- Operands A and B of a two-operand SCALAR word (R75). -/
def opA (q : Seqr) (w : ColWord) : BitVec 48 := axOf q (fieldN w 40 4)
def opB (q : Seqr) (w : ColWord) : BitVec 48 :=
  if bitAt w 48 then (fieldB w 64 32).signExtend 48 else axOf q (fieldN w 44 4)

/-- The sequencer stopped with a fault of this cause: its command has ended. -/
def seqStopped (t : State) (n : PotIx) (e : Eng) (cause : Nat) : Prop :=
  (seqOf (potOf t n) e).faulted = true ∧ (seqOf (potOf t n) e).faultCause = BitVec.ofNat 4 cause ∧
    (seqOf (potOf t n) e).running = false

/-- The state in which the word at PC is worked on: its cache line has just been used. -/
def issueState (s : State) (n : PotIx) (e : Eng) : State :=
  updSeq s n e fun x => cacheTouch x (wordByte e (seqOf (potOf s n) e).pc / 256)

/-- One issue of an OP word has been made: the next issue of the same word, or after the last one the next word. -/
def opDone (w : ColWord) (q r : Seqr) : Prop :=
  r = { q with pc := r.pc, issued := r.issued, loops := r.loops, ax := r.ax, stalled := false, heldBack := false, cycle := r.cycle,
               busyTo := r.busyTo, claims := r.claims, icache := r.icache, chains := r.chains } ∧
  (q.issued + 1 < wRepeat w → r.pc = q.pc ∧ r.issued = q.issued + 1 ∧ r.loops = q.loops ∧ r.ax = q.ax) ∧
  (wRepeat w ≤ q.issued + 1 → insideLoop q → r.pc = q.pc + 1 ∧ r.issued = 0 ∧ r.loops = q.loops ∧ r.ax = q.ax)

/-- The ends that an MMA-class word pops, with their bytes. -/
def mmaPops (w : ColWord) (mop : Nat) : List (Nat × Nat) :=
  let k := mmaNeed w mop
  [(mxQA w, k.a), (mxQA w + 1, k.sa), (mxQB w, k.b), (mxQB w + 1, k.sb), (mxQM w, k.m)]

/-- An MMA-class word whose operands lie in tray queues may issue now. -/
def mmaReady (s : State) (n : PotIx) (mop : Nat) (w : ColWord) : Prop :=
  wordIssues s n .mxe w ∧ ownOp mop w = true ∧ mmaOk w mop = true ∧ 0 < wRepeat w ∧ isChain (mxQA w) = false ∧
    (potOf s n).mxeSeq.claims = [] ∧
    popsReady (potOf s n) (mmaPops w mop) = true ∧ ∀ x ∈ mmaPops w mop, popMay (potOf s n) .mxe x.1 x.2 = true

/-- The accumulator values that an MMA-class issue on the operands `i` leaves. -/
def mmaValue (m : Mxe) (w : ColWord) (mop : Nat) (i : MxIn) (row col : Nat) : BitVec 32 :=
  let pairInt := ((mxPair (mxA w) (mxB w)).map Prod.snd).getD false
  let setInt := if (accOf m (mxAcc w)).touched then (accOf m (mxAcc w)).intMode else pairInt
  (upto (mxKlen w / 32)).foldl
    (fun v c => (mxUpdate setInt pairInt v (chunkSum (nth (aRows w i false c) row []) (nth (bCols w mop i c) col []))).1)
    (nth (accVals (accOf m (mxAcc w))) (128 * row + col) 0)

/-- This issue is the last of its row, for a VOP that works on rows. -/
def vxFinal (q : Seqr) (w : ColWord) : Bool := q.issued % vxNq w + 1 == vxNq w

/-- A VXE OP word may issue now: its fields, its recipe, its output ends, and room for what it gives. -/
def vxReady (s : State) (n : PotIx) (vop : Nat) (w : ColWord) : Prop :=
  let p := potOf s n
  let r := recipeOf p.vxe (vxRecipe w)
  let out := vop = vopRecipe ∨ vxFinal p.vxeSeq w = true
  let ends := vxIssueNeed vop w (vop != vopRecipe && vxFinal p.vxeSeq w)
  wordIssues s n .vxe w ∧ ownOp vop w = true ∧ vxFieldsOk (mxePresent s n) w = true ∧ vxVopOk vop w = true ∧
    vxRecipeOk vop w r = true ∧
    regBad s (entryKey (potWin n) 0x12 (vxRecipe w)) = false ∧ 0 < wRepeat w ∧
    wRepeat w % vxNq w = 0 ∧ vxPushMay p ends = true ∧ vxRoom p ends = true ∧ sumRoom p (vxSumDst w) = true ∧
    (out → ∀ x ∈ vxChainPuts vop w, chainOver p.vxeSeq (vxChainPuts vop w) x.1 = false)

/-- Its input ends give the operands `i`. -/
def vxInputs (s : State) (n : PotIx) (w : ColWord) (i : VxIn) : Prop :=
  ∃ u, vxPopEnds n (issueAt (potOf s n).vxeSeq w) (vxNeeds w) (issueState s n .vxe) [] = .ok u i

/-- The row that a row VOP has gathered with this issue. -/
def vxRow (s : State) (n : PotIx) (w : ColWord) (i : VxIn) : List RowElem :=
  let p := potOf s n
  let k := p.vxeSeq.issued % vxNq w
  (if k = 0 then [] else p.vxe.rowBuf) ++
    (upto (Nat.min (vxG w) (vxRowLen w - k * vxG w))).map (vxEval (recipeOf p.vxe (vxRecipe w)) w i (k * vxG w))

/-- Of a state, pot `n`, the trays and the free-value counter only. -/
def onlyPotTray (n : PotIx) (s t : State) : Prop :=
  t = { s with pots := t.pots, tray := t.tray, trayMeta := t.trayMeta, freeCtr := t.freeCtr } ∧
    ∀ m, m ≠ n → potOf t m = potOf s m

/-- An SFE word whose descriptor is sound may issue now. -/
def sfReady (s : State) (n : PotIx) (fop : Nat) (w : ColWord) : Prop :=
  wordIssues s n .sfe w ∧ ownOp fop w = true ∧ sfFieldsOk w fop = true ∧ sfDescSound s n (sfTbl w) = true ∧ 0 < wRepeat w

/-- The LU stands at the well-formed microword `u` of this operation in the store that it runs from, and runs a command with `raw`
whose infusion is not failing, unless the word has begun (R99, R177). -/
def luIssues (s : State) (n : PotIx) (i : LuIx) (code : Nat) (u : Word64) (raw : BitVec 256) : Prop :=
  let l := luOf (potOf s n) i.toNat
  (l.cmd.map LeafCmd.raw = some raw ∧ i.toNat < Config.lusPerPot ∧ potOn s n = true ∧ l.done = false) ∧
    luServed (potOf s n) i.toNat = true ∧ (l.rep ≠ 0 ∨ infFailing s l.infusion = false) ∧ fetchRange s l = true ∧
    tget (luCode (potOf s n) i.toNat).2 l.upc.toNat false = false ∧
    tget (luCode (potOf s n) i.toNat).1 l.upc.toNat 0 = u ∧ uwordBad u = false ∧ uUop u = code ∧ 0 < luRepeats u raw

/-- A row that the LU closes is closed in its bank once no access is pending (R149). -/
def luClosed (l : Lu) : Lu := { l with closing := l.closing && !l.colq.isEmpty }

/-- Where an LU stands after a repeat: at the next repeat, or past the word. -/
def luNext (l : Lu) (u : Word64) (raw : BitVec 256) (obey : Bool) : Lu :=
  if l.rep + 1 < luRepeats u raw then { l with rep := l.rep + 1 }
  else luClosed (luAdvance
    { l with rep := 0, openRow := if uPre u then none else l.openRow, closing := l.closing || (uPre u && l.openRow.isSome) } u obey)

/-- Of pot `n` the LU `i`, its bank at the bank scheduler, and the pot's counts of LU events and of activates only. -/
def onlyLuRow (n : PotIx) (i : LuIx) (s t : State) : Prop :=
  let seat := luSeat (potOf s n) i.toNat
  onlyPot n s t ∧
    potOf t n = { potOf s n with lus := (potOf t n).lus, luEvents := (potOf t n).luEvents, scheds := (potOf t n).scheds,
                                 cup := { (potOf s n).cup with pmc := (potOf t n).cup.pmc } } ∧
    (∀ j, j ≠ i.toNat → luOf (potOf t n) j = luOf (potOf s n) j) ∧
    (∀ g, g ≠ seat.1.toNat → schedOf (potOf t n) g = schedOf (potOf s n) g) ∧
    ∀ b, b ≠ seat.2.toNat →
      bankOf (schedOf (potOf t n) seat.1.toNat) b = bankOf (schedOf (potOf s n) seat.1.toNat) b

/-- No row is opened either; and the bank is as before unless a row closes. -/
def onlyLuEvents (n : PotIx) (i : LuIx) (u : Word64) (s t : State) : Prop :=
  onlyLuRow n i s t ∧ (potOf t n).cup = (potOf s n).cup ∧
    (uPre u = false → (luOf (potOf s n) i.toNat).closing = false → (potOf t n).scheds = (potOf s n).scheds)

/-- The tag segment of a row of the LU's bank can be read, so that its activate is noted nowhere (R382). -/
def tagSound (s : State) (n : PotIx) (i row : Nat) : Prop :=
  ∀ ix, placeRow (potOf s n) (luPlace s n i row) = some ix → (rowMask s ix).2 = false

/-- A microword without a column access that does not end its command: the LU becomes `f` of itself and goes on. -/
def luWorks (c : PotIx → LuIx → Instr) (code : Nat) (may : Lu → Word64 → Prop)
    (f : Pot → Nat → Word64 → BitVec 256 → Lu → Lu) : Prop :=
  ∀ (s : State) (n : PotIx) (i : LuIx) (u : Word64) (raw : BitVec 256), luIssues s n i code u raw → uSeq u ≠ 3 →
    may (luOf (potOf s n) i.toNat) u →
    runsTo (c n i) s fun t =>
      onlyLuEvents n i u s t ∧
      luOf (potOf t n) i.toNat = luNext (f (potOf s n) i.toNat u raw (luOf (potOf s n) i.toNat)) u raw true

/-- The column operations by UOP. -/
def columnOp : Nat → PotIx → LuIx → Instr
  | 1 => .rdl
  | 2 => .wrl
  | 3 => .wrq
  | 4 => .maco
  | 5 => .adds
  | 6 => .axpy
  | 7 => .scl
  | 8 => .cmpc
  | 9 => .rdap
  | _ => .stap

/-- Lane results of a two-latch operation before they are rounded, each with whether an operand is a NaN. -/
def laneOps (op : FV → FV → FV) (l : Lu) (u : Word64) : List (FV × Bool) :=
  ((latchVals (uFmt u) (latchOf l (uLa u + l.rep))).zip (latchVals (uFmt u) (latchOf l (uLb u + l.rep)))).map fun x =>
    (op x.1 x.2, fvIsNan x.1 || fvIsNan x.2)

/-- PAT_CMD is free, and its channel serves patrol's port. -/
def patFree (s : State) (n : PotIx) (g : GroupIx) : Prop :=
  patBusy (potOf s n) = false ∧ patParity s n = false ∧ patServed s n g = true

/-- PAT_CMD has ended with RESULT. -/
def patResult (t : State) (n : PotIx) (result : Nat) : Prop :=
  fieldN (potOf t n).pat.cmd 5 3 = result ∧ bitAt (potOf t n).pat.cmd 4 = false

/-- Of pot `n` the port `k` only, and nothing else. -/
def onlyPort (n : PotIx) (k : BitVec 1) (s t : State) : Prop :=
  onlyPot n s t ∧ potOf t n = setPort (potOf s n) k.toNat (portOf (potOf t n) k.toNat)

/-- The port is DOWN by this cause, with nothing queued or unacknowledged. -/
def portEnded (n : PotIx) (k : BitVec 1) (cause : Nat) (t : State) : Prop :=
  (portOf (potOf t n) k.toNat).state = .down ∧ (portOf (potOf t n) k.toNat).downCause = BitVec.ofNat 3 cause ∧
    (portOf (potOf t n) k.toNat).txq = [] ∧ (portOf (potOf t n) k.toNat).replay = []

/-- A message of this type with this header stands complete at the front of its channel, at a port that takes messages. -/
def msgHere (s : State) (n : PotIx) (k : BitVec 1) (mtype : Nat) (h : MsgHdr) : Prop :=
  ((portOf (potOf s n) k.toNat).state = .up ∨ (portOf (potOf s n) k.toNat).state = .drain) ∧
    msgFront (portOf (potOf s n) k.toNat) mtype h = true

/-- The message has left its receive buffer. -/
def msgTaken (s : State) (n : PotIx) (k : BitVec 1) (mtype : Nat) : State := updPort s n k fun p => dropLead p (vcOf mtype)

/-- A message waits at the end of a channel's queue of port `q`. -/
def msgSent (s t : State) (q mtype : Nat) (h : MsgHdr) (body : List Byte) : Prop :=
  tget (portAt t q).txq (vcOf mtype) [] =
    tget (portAt s q).txq (vcOf mtype) [] ++ (msgFlits h mtype body).map fun f => (f, (portAt s q).slotNo)

/-- A header that this module writes on a message of its own. -/
def ownHdr (s : State) (n : PotIx) (d : BitVec 16) (sseq : BitVec 32) (tag : BitVec 16) (inf : BitVec 12) (addr : Word64) : MsgHdr :=
  ⟨d, nodeId s, n, (fieldB s.drz.node 16 3).setWidth 4, 0, sseq, tag, inf, addr⟩

end Sys2Proof.Machine
end

