-- ==== Sys2Proof/Certificates/Slice0/Obligations.lean ====
section
/-!
DEFINITION. The statements for the provers, family by family in the table's order.
-/

open Sys2Proof Sys2Proof.Machine

/-- A step runs the command at the front of the queue. For every command c, every rest of the queue and every state
s, step of s with c at the front of its queue is exec of c on s with the queue's rest. -/
def Obligations.StepRunsFrontCommand : Prop :=
  ∀ (c : Instr) (rest : List Instr) (s : State),
    step { s with pending := c :: rest } = exec c { s with pending := rest }

/-- On an empty queue the block idles. With no command waiting a step answers the state as it is: the model's own
choice (DESIGN CHOICE, log entry 18), since time passes by events of the table only. -/
def Obligations.EmptyQueueIdles : Prop :=
  ∀ s : State, s.pending = [] → step s = .next s

/-- Every step keeps the memories canonical, disabled pots dark and the queue well formed. From every state whose
DRAM and trays are canonical lists of cells (log entry 7), in which EN_POT[n] of every disabled pot is low
(R525) and every waiting command is well formed, a step that answers a next state answers one of the same kind;
the fuses stay, and the queue has lost at most its front command. -/
def Obligations.EveryStepKeepsSound : Prop :=
  ∀ s t : State, s.Sound → step s = .next t →
    t.Sound ∧ t.fuses = s.fuses ∧ t.pending = s.pending.tail

/-- The state after reset is sound. Memory lists nothing, no pot's rail is enabled and no command waits (the start
state is a model choice where the manual gives no value: log entries 1 and 2). -/
def Obligations.ResetStateIsSound : Prop :=
  State.reset.Sound

/-- The reset values that the register tables give. In the state after reset SPT_NODE holds NODE_ID 0xFFFF and
HOP_LIMIT 7, PMT_POOL of a pot ALLOT 420, STANDING 80 and L 0, PMT_HUB a POT_BUDGET of 13,440 and LINK_RES
2,400, SNC_CTL FW_WORDS 1,024 and WAIT_US 10,000, HUB_SVC_CTL MIG_RATE 16, BKS_CTL a MERGE_TIMEOUT of 2,500, and
KET_CTL the levels 95, 100, 105 and 105. -/
def Obligations.ResetRegistersAsGiven : Prop :=
  fieldN State.reset.drz.node 0 16 = 0xFFFF ∧ fieldN State.reset.drz.node 16 4 = 7 ∧
  (∀ n, (potOf State.reset n).pmt.allot = 420 ∧ (potOf State.reset n).pmt.standing = 80 ∧ (potOf State.reset n).pmt.lvl = 0 ∧
    fieldN (potOf State.reset n).snc.ctl 0 16 = 1024 ∧ fieldN (potOf State.reset n).snc.ctl 32 32 = 10000 ∧
    fieldN (potOf State.reset n).bksCtl 0 12 = 2500) ∧
  State.reset.pmtHub.potBudget = 13440 ∧ State.reset.pmtHub.linkRes = 2400 ∧
  fieldN State.reset.svc.ctl 38 10 = 16 ∧
  fieldN State.reset.ket.ctl 0 8 = 95 ∧ fieldN State.reset.ket.ctl 8 8 = 100 ∧ fieldN State.reset.ket.ctl 16 8 = 105 ∧
  fieldN State.reset.ket.ctl 24 8 = 105

/-- A cold power-on keeps the caddy and starts the sequence, or stops on LATCHED. With VDD_AON absent before it,
COLD_POWER_ON raises EN_CADDY and EN_HUB alone and waits for the hub, unless KET_TRIPS has LATCHED set: then
every enable stays low. The caddy, the fuses and KET_TRIPS stay; the DRAM data of every pot is lost. -/
def Obligations.ColdPowerOnSequence : Prop :=
  ∀ s : State, s.power.aon = false →
    (bitAt s.ket.trips 2 = false →
      runsTo .coldPowerOn s fun t =>
        t.power.step = .waitHub ∧ t.power.aon = true ∧ t.power.enCaddy = true ∧ t.power.enHub = true ∧ t.power.enPot = 0 ∧
        t.power.enSpt = 0 ∧ t.dram = [] ∧ t.caddy = s.caddy ∧ t.fuses = s.fuses ∧ t.ket.trips = s.ket.trips ∧
        t.pending = s.pending) ∧
    (bitAt s.ket.trips 2 = true →
      runsTo .coldPowerOn s fun t =>
        t.power.step = .held ∧ t.power.enCaddy = false ∧ t.power.enHub = false ∧ t.power.enPot = 0 ∧ t.power.enSpt = 0 ∧
        t.dram = [] ∧ t.caddy = s.caddy ∧ t.fuses = s.fuses ∧ t.ket.trips = s.ket.trips ∧ t.pending = s.pending)

/-- A power-good moves the power sequence on. POWER_GOOD_RISE of a rail whose enable is high and whose power-good is
low records the power-good. The one that completes PG_CADDY and PG_HUB raises EN_POT[n] for exactly the pots
that are enabled and not retired; the one that completes the pots raises EN_SPT for every row with such a pot;
the one that completes the rows hands over to the boot ROM. -/
def Obligations.PowerGoodsRaiseRails : Prop :=
  (∀ (s : State) (r : Rail), railEn s.power r = true → railPg s.power r = false →
    runsTo (.powerGoodRise r) s fun t => railPg t.power r = true ∧ t.fuses = s.fuses ∧ t.caddy = s.caddy) ∧
  (∀ s : State, s.power.step = .waitHub → s.power.pgCaddy = true → s.power.enHub = true → s.power.pgHub = false →
    runsTo (.powerGoodRise .hub) s fun t =>
      ∀ n, bitAt t.power.enPot n.toNat = (potEnabled t n && !potRetired t n)) ∧
  (∀ (s : State) (n : PotIx), s.power.step = .waitPots → bitAt s.power.enPot n.toNat = true →
    bitAt s.power.pgPot n.toNat = false → putBit s.power.pgPot n.toNat true &&& s.power.enPot = s.power.enPot →
    runsTo (.powerGoodRise (.pot n)) s fun t =>
      t.power.enSpt = rowsInUse s ∧ (t.power.step = .waitSpt ∨ t.power.step = .bootReady)) ∧
  (∀ (s : State) (r : BitVec 2), s.power.step = .waitSpt → bitAt s.power.enSpt r.toNat = true →
    bitAt s.power.pgSpt r.toNat = false → putBit s.power.pgSpt r.toNat true &&& s.power.enSpt = s.power.enSpt →
    runsTo (.powerGoodRise (.spt r)) s fun t =>
      t = { s with power := { s.power with pgSpt := putBit s.power.pgSpt r.toNat true, step := .bootReady } })

/-- A power-good that fails to come or falls drops its enable, and a hub or caddy fault holds the module off.
PG_TIMEOUT and PG_FALL of PG_CADDY or PG_HUB drop every enable, assert ALERT_N and hold the module off.
PG_TIMEOUT of a pot drops its enable and counts a failed start, and the third one retires it; PG_FALL of a pot
drops its enable and retires it; of a row, EN_SPT[r] drops. COLD_POWER_LOSS takes every enable and KET_TRIPS
with it. -/
def Obligations.RailFaultsDropEnables : Prop :=
  (∀ (s : State) (r : Rail), (r = .caddy ∨ r = .hub) → railEn s.power r = true →
    (railPg s.power r = false →
      runsTo (.pgTimeout r) s fun t =>
        t.power.step = .held ∧ t.power.enCaddy = false ∧ t.power.enHub = false ∧ t.power.enPot = 0 ∧ t.power.enSpt = 0 ∧
        bitAt t.pins.alert 3 = true ∧ t.pins.thermtrip = s.pins.thermtrip ∧ t.ket.trips = s.ket.trips) ∧
    (railPg s.power r = true →
      runsTo (.pgFall r) s fun t =>
        t.power.step = .held ∧ t.power.enCaddy = false ∧ t.power.enHub = false ∧ t.power.enPot = 0 ∧ t.power.enSpt = 0 ∧
        bitAt t.pins.alert 4 = true ∧ t.pins.thermtrip = s.pins.thermtrip ∧ t.ket.trips = s.ket.trips)) ∧
  (∀ (s : State) (n : PotIx), bitAt s.power.enPot n.toNat = true → s.power.step ≠ .waitHub →
    (bitAt s.power.pgPot n.toNat = false →
      runsTo (.pgTimeout (.pot n)) s fun t =>
        bitAt t.power.enPot n.toNat = false ∧
        ((potOf s n).failedResets < 2 → (potOf t n).failedResets = (potOf s n).failedResets + 1) ∧
        (2 ≤ (potOf s n).failedResets → potRetired t n = true)) ∧
    (bitAt s.power.pgPot n.toNat = true →
      runsTo (.pgFall (.pot n)) s fun t => bitAt t.power.enPot n.toNat = false ∧ potRetired t n = true)) ∧
  (∀ (s : State) (r : BitVec 2), bitAt s.power.enSpt r.toNat = true → s.power.step = .running →
    (bitAt s.power.pgSpt r.toNat = false →
      runsTo (.pgTimeout (.spt r)) s fun t => t = { s with power := dropEn s.power (.spt r) }) ∧
    (bitAt s.power.pgSpt r.toNat = true →
      runsTo (.pgFall (.spt r)) s fun t =>
        t.power = dropEn s.power (.spt r) ∧
        ∀ (n : PotIx) (k : BitVec 1), n.toNat / 8 = r.toNat → (portOf (potOf t n) k.toNat).state = .down)) ∧
  (∀ s : State, s.power.aon = true →
    runsTo .coldPowerLoss s fun t =>
      t.power.step = .off ∧ t.power.aon = false ∧ t.power.enCaddy = false ∧ t.power.enHub = false ∧ t.power.enPot = 0 ∧
      t.power.enSpt = 0 ∧ t.ket.trips = 0 ∧ t.dram = [] ∧ t.caddy = s.caddy ∧ t.fuses = s.fuses)

/-- BOOT_ROM starts the set it chooses, or plain memory. With the power sequence complete, BOOT_ROM completes. When
neither the committed nor the last-known-good set is consistent the module runs as plain memory: no core runs
firmware and the front end completes commands PIM_OFFLINE. When a set is chosen, no owner default image stands
and no activation waits (a reset leaves none), hub firmware runs on all four hub cores with that set in place,
CDI_0 is gone, and the module is running. -/
def Obligations.BootRomStartsFirmwareOrPlainMemory : Prop :=
  ∀ (s : State) (dead : List (PotIx × LuIx)) (mxe : BitVec 32),
    hubOn s = true → s.power.step = .bootReady →
    ((bootReady s dead mxe).2 = none →
      runsTo (.bootRom dead mxe) s fun t =>
        t.hfe.pimOff = true ∧ t.fw.running = false ∧ t.power.step = .running ∧ t.pins.pulseRun = true) ∧
    (∀ place, (bootReady s dead mxe).2 = some place →
      imageAt (bootReady s dead mxe).1.caddy .owndef (curPointer (bootReady s dead mxe).1.caddy).owndef = none →
      s.fw.awaiting = [] →
      runsTo (.bootRom dead mxe) s fun t =>
        t.fw.running = true ∧ t.fw.cdi0 = 0 ∧ t.power.step = .running ∧ t.pins.pulseRun = true ∧
        (∀ c, c < 4 → (tget t.hubCores c Core.reset).running = true) ∧ ∀ k ∈ setKinds, runPlace t k = place k)

/-- The events that end a tag sweep, a tray clear and the enrolment window, and PULSE. TAG_SWEEP_DONE makes a
channel's scheduler admit requests and changes nothing else but that the accesses which waited for it are
served; with none waiting nothing else changes. TRAY_CLEAR_DONE leaves every byte of the pot's tray zero with
poison clear, every other tray byte as it was, and lets the pot's engines take commands. PULSE_TOGGLE inverts
PULSE while it runs, and ENROLL_WINDOW_CLOSE ends WINDOW of HUB_KEY_CTL: each alone. -/
def Obligations.SweepTrayPulseAndWindowEvents : Prop :=
  (∀ (s : State) (n : PotIx) (g : GroupIx), potPresent s n = true → bitAt s.power.pgPot n.toNat = true →
    s.power.step = .running → (schedOf (potOf s n) g.toNat).swept = false →
    runsTo (.tagSweepDone n g) s fun t =>
      ∃ u, (schedOf (potOf u n) g.toNat).swept = true ∧ onlyPot n s u ∧
        potOf u n = { potOf s n with scheds := (potOf u n).scheds } ∧
        (∀ j, j ≠ g.toNat → schedOf (potOf u n) j = schedOf (potOf s n) j) ∧
        t = serveWaiters u ∧ (s.map.waiting = [] → t = u)) ∧
  (∀ (s : State) (n : PotIx), State.memoryOk s → potOn s n = true → (potOf s n).trayClear = false →
    runsTo (.trayClearDone n) s fun t =>
      (potOf t n).trayClear = true ∧
      (∀ a, n.toNat * 2 ^ 27 ≤ a → a < n.toNat * 2 ^ 27 + 2 ^ 27 →
        cellGet trayDefault t.tray a = 0 ∧ trayWordPoison t (a / 32) = false) ∧
      (∀ a, a < n.toNat * 2 ^ 27 ∨ n.toNat * 2 ^ 27 + 2 ^ 27 ≤ a →
        cellGet trayDefault t.tray a = cellGet trayDefault s.tray a) ∧
      t.dram = s.dram ∧ potOf t n = { potOf s n with trayClear := true } ∧ ∀ m, m ≠ n → potOf t m = potOf s m) ∧
  (∀ s : State, s.pins.pulseRun = true → hubOn s = true →
    runsTo .pulseToggle s fun t => t = { s with pins := { s.pins with pulse := !s.pins.pulse } }) ∧
  (∀ s : State, hubOn s = true →
    runsTo .enrollWindowClose s fun t =>
      bitAt t.fw.keyCtl 7 = false ∧ t = { s with fw := { s.fw with keyCtl := t.fw.keyCtl } } ∧
      ∀ i, i ≠ 7 → i < 64 → bitAt t.fw.keyCtl i = bitAt s.fw.keyCtl i)

/-- A set that has run for 600 s becomes the last-known-good set. LKG_RECORD, once for a booted set that still runs,
appends a good pointer record of the next RSEQ that names the running places as last-known-good and keeps the
committed ones. -/
def Obligations.LastKnownGoodSetRecorded : Prop :=
  ∀ s : State, s.fw.running = true → s.fw.booted600 = false → s.fw.bootImages = s.fw.runImages → s.power.pgCaddy = true →
    runsTo .lkgRecord s fun t =>
      t.fw.booted600 = true ∧
      (∃ p : Pointer, t.caddy.pointers.getLast? = some p ∧ p.good = true ∧ p.rseq = (curPointer s.caddy).rseq + 1 ∧
        p.lkgHubfw = runPlace s .hubfw ∧ p.lkgBrewfw = runPlace s .brewfw ∧ p.lkgLeafmc = runPlace s .leafmc ∧
        p.lkgXlat = runPlace s .xlat ∧ p.hubfw = (curPointer s.caddy).hubfw ∧ p.brewfw = (curPointer s.caddy).brewfw ∧
        p.leafmc = (curPointer s.caddy).leafmc ∧ p.xlat = (curPointer s.caddy).xlat ∧ p.owndef = (curPointer s.caddy).owndef) ∧
      t = { s with caddy := { s.caddy with pointers := t.caddy.pointers }, fw := { s.fw with booted600 := true } }

/-- A warm module reset keeps the retained state and returns the rest to reset. WARM_MODULE_RESET of a running
module, and a PERST deassertion that ends an assertion on every attached head, leave it at the boot ROM with
warm set: every pot is held in reset, both heads are down, no command stands in the dispatch table, and the
map's entries, HFE_INTERLEAVE, KET_TRIPS, the record ring, the retirements, the fuses, the caddy's service log
and pointer records and each pot's row and bank remap entries and bands stay; so does all of DRAM where no
scheduler holds a queued or merged write. Both commands complete. A PERST that ends no such assertion takes down
the links it newly asserts, and no others. -/
def Obligations.WarmResetKeepsWhatR459Keeps : Prop :=
  (∀ s : State, hubOn s = true → s.power.step = .running → regBad s 0x20 = false →
    runsTo .warmModuleReset s fun t =>
      t.power.step = .bootReady ∧ t.power.warm = true ∧ (∀ n, (potOf t n).inReset = true) ∧
      (∀ h, (headOf t h).up = false) ∧ t.hfe.table = [] ∧ t.hfe.interleave = s.hfe.interleave ∧ t.map.entries = s.map.entries ∧
      t.ket.trips = s.ket.trips ∧ t.cup.ring = s.cup.ring ∧ t.svc.retired = s.svc.retired ∧ t.svc.mxeOut = s.svc.mxeOut ∧
      t.fuses = s.fuses ∧ t.caddy.serviceLog = s.caddy.serviceLog ∧ t.caddy.pointers = s.caddy.pointers ∧
      (∀ n, (potOf t n).pat.rowmap = (potOf s n).pat.rowmap ∧ (potOf t n).pat.bankmap = (potOf s n).pat.bankmap ∧
        (potOf t n).bands = (potOf s n).bands) ∧
      ((∀ n, (potOf s n).scheds = []) → t.dram = s.dram)) ∧
  (∀ (s : State) (levels : BitVec 2), s.pins.perstSeen ≠ 0 → levels &&& s.pins.perstSeen ≠ s.pins.perstSeen →
    hubOn s = true → s.power.step = .running →
    runsTo (.perst levels) s fun t => t.power.step = .bootReady ∧ t.power.warm = true ∧ ∀ h, (headOf t h).up = false) ∧
  (∀ (s : State) (levels : BitVec 2), (s.pins.perstSeen = 0 ∨ levels &&& s.pins.perstSeen = s.pins.perstSeen) →
    runsTo (.perst levels) s fun t =>
      t.pins.perst = levels ∧ t.power = s.power ∧ t.pots = s.pots ∧ t.dram = s.dram ∧ t.tray = s.tray ∧
      ∀ h, (headOf t h).up = ((headOf s h).up && !(bitAt levels h.toNat && !bitAt s.pins.perst h.toNat)))

/-- A pot or engine reset of a disabled or retired unit does nothing. POT_RESET and ENGINE_RESET of a pot that is
disabled or retired, and ENGINE_RESET of an MXE that is fused off or retired, write HUB_RESET_CTL with RESULT 2
(absent unit) and change nothing else. -/
def Obligations.ResetsOfAbsentUnitsDoNothing : Prop :=
  (∀ (s : State) (n : PotIx) (ls : List LuIx) (m f : Bool), hubOn s = true → s.power.step = .running → regBad s 0x20 = false →
    (potEnabled s n = false ∨ potRetired s n = true) →
    runsTo (.potReset n ls m f) s fun t =>
      fieldN t.svc.resetCtl 13 2 = 2 ∧ t = { s with svc := { s.svc with resetCtl := t.svc.resetCtl } }) ∧
  (∀ (s : State) (n : PotIx) (e : Eng), hubOn s = true → s.power.step = .running → regBad s 0x20 = false →
    (potEnabled s n = false ∨ potRetired s n = true ∨ (e = .mxe ∧ mxePresent s n = false)) →
    runsTo (.engineReset n e) s fun t =>
      fieldN t.svc.resetCtl 13 2 = 2 ∧ t = { s with svc := { s.svc with resetCtl := t.svc.resetCtl } })

/-- Pot, engine and brewer core resets clear what they cover. A POT_RESET of a present pot with good rails whose
tests pass and whose firmware starts completes: it brings the pot into service with its sequencers and engines
at their reset contents, its tray queues, leaf commands and event queue empty, its permits released, its sync
words at reset, its tray zero but not yet declared clear, RESULT 1, and its bank bands, forced bands and row and
bank remap entries as they were; with any self-test outcome a POT_RESET of a present pot ends with KIND 2 and
RESULT 1. An ENGINE_RESET, with no store stalled on that engine's command queue, completes with the sequencer of
its engine at reset, the pot in service and RESULT 1, and a BREWER_CORE_RESET restarts its core with the pot's
firmware, empties the core's sync slots and has RESULT 1. -/
def Obligations.ResetsClearTheirScope : Prop :=
  (∀ (s : State) (n : PotIx), hubOn s = true → s.power.step = .running → regBad s 0x20 = false → potPresent s n = true →
    bitAt s.power.pgPot n.toNat = true →
    runsTo (.potReset n [] true true) s fun t =>
      fieldN t.svc.resetCtl 13 2 = 1 ∧ (potOf t n).inReset = false ∧ (potOf t n).trayClear = false ∧
      (potOf t n).mxeSeq = Seqr.reset ∧ (potOf t n).vxeSeq = Seqr.reset ∧ (potOf t n).sfeSeq = Seqr.reset ∧
      (potOf t n).mxe = Mxe.reset ∧ (potOf t n).vxe = Vxe.reset ∧ (potOf t n).sfe = Sfe.reset ∧
      (potOf t n).queues = [] ∧ (potOf t n).runs = [] ∧ (potOf t n).lucq = [] ∧ (potOf t n).events = [] ∧
      (potOf t n).pmt.holds = [] ∧ (potOf t n).snc.words = [] ∧ (potOf t n).snc.waiters = [] ∧
      (potOf t n).bands = (potOf s n).bands ∧ (potOf t n).forced = (potOf s n).forced ∧
      (potOf t n).pat.rowmap = (potOf s n).pat.rowmap ∧ (potOf t n).pat.bankmap = (potOf s n).pat.bankmap ∧
      (potOf t n).fwRunning = t.fw.running ∧
      ∀ a, n.toNat * 2 ^ 27 ≤ a → a < n.toNat * 2 ^ 27 + 2 ^ 27 → cellGet trayDefault t.tray a = 0) ∧
  (∀ (s : State) (n : PotIx) (ls : List LuIx) (m f : Bool), hubOn s = true → s.power.step = .running → regBad s 0x20 = false →
    potPresent s n = true → runsTo (.potReset n ls m f) s fun t => fieldN t.svc.resetCtl 13 2 = 1 ∧ fieldN t.svc.resetCtl 0 3 = 2) ∧
  (∀ (s : State) (n : PotIx) (e : Eng), hubOn s = true → s.power.step = .running → regBad s 0x20 = false →
    potPresent s n = true → (e = .mxe → mxePresent s n = true) → (potOf s n).inReset = false →
    (∀ x ∈ (potOf s n).pushWait, x.1 ≠ e) →
    runsTo (.engineReset n e) s fun t =>
      fieldN t.svc.resetCtl 13 2 = 1 ∧ seqOf (potOf t n) e = Seqr.reset ∧ (potOf t n).inReset = false) ∧
  (∀ (s : State) (n : PotIx) (c : BitVec 3), hubOn s = true → s.power.step = .running → regBad s 0x20 = false →
    potPresent s n = true → (potOf s n).inReset = false →
    runsTo (.brewerCoreReset n c) s fun t =>
      fieldN t.svc.resetCtl 13 2 = 1 ∧ coreOf (potOf t n) c.toNat = ⟨(potOf t n).fwRunning, 0, 0⟩ ∧
      (∀ k, k / 4 = c.toNat → tfind (potOf t n).snc.slots k = none) ∧ (potOf t n).inReset = false)

/-- A head trains in the protocols and rates that go together, and falls alone. HEAD_LINK_TRAIN brings a head up at
CXL 3.1 with 64 GT/s in 256 B flits, or at CXL 2.0 or 1.1 with 16 or 32 GT/s in 68 B flits, while the module
runs and its PERST# is high. HEAD_LINK_DOWN takes down that head only and counts it. HDM_DECODER_COMMIT sets or
clears bit k of DECODERS. MSIX_UNMASK unmasks a vector and, on a head that is up, sends a pending one once. -/
def Obligations.HeadLinksTrainAndFall : Prop :=
  (∀ (s : State) (h : BitVec 1) (proto rate width : BitVec 2), hubOn s = true → s.power.step = .running →
    ((proto = 3 ∧ rate = 2) ∨ ((proto = 1 ∨ proto = 2) ∧ (rate = 0 ∨ rate = 1))) → width ≠ 3 → (headOf s h).up = false →
    bitAt s.pins.perst h.toNat = false →
    runsTo (.headLinkTrain h proto rate width) s fun t =>
      (headOf t h).up = true ∧ (headOf t h).proto = proto ∧ (headOf t h).rate = rate ∧ (headOf t h).width = width ∧
      (headOf t h).flit256 = decide (proto = 3) ∧ (headOf t h).everTrained = true ∧ (headOf t h).decoders = (headOf s h).decoders ∧
      (∀ g, g ≠ h → headOf t g = headOf s g) ∧ t = { s with heads := t.heads, out := t.out }) ∧
  (∀ (s : State) (h : BitVec 1), (headOf s h).up = true →
    runsTo (.headLinkDown h) s fun t =>
      (headOf t h).up = false ∧ (headOf t h).decoders = (headOf s h).decoders ∧
      ((headOf s h).downs.toNat < 0xFFFF → (headOf t h).downs = (headOf s h).downs + 1) ∧
      (∀ g, g ≠ h → headOf t g = headOf s g) ∧ t = { s with heads := t.heads }) ∧
  (∀ (s : State) (h : BitVec 1) (d : BitVec 2) (on : Bool), headServes s h = true →
    runsTo (.hdmDecoderCommit h d on) s fun t =>
      bitAt (headOf t h).decoders d.toNat = on ∧
      (∀ i, i ≠ d.toNat → i < 8 → bitAt (headOf t h).decoders i = bitAt (headOf s h).decoders i) ∧
      (∀ g, g ≠ h → headOf t g = headOf s g) ∧ t = { s with heads := t.heads }) ∧
  (∀ (s : State) (h : BitVec 1) (v : BitVec 6), hubOn s = true →
    runsTo (.msixUnmask h v) s fun t =>
      (msixOf (headOf t h) v.toNat).masked = false ∧
      ((headOf s h).up = true → (msixOf (headOf s h) v.toNat).pend = true →
        (h, v) ∈ t.out.msi ∧ (msixOf (headOf t h) v.toNat).pend = false) ∧
      ((headOf s h).up = false → t.out = s.out) ∧
      (∀ g, g ≠ h → headOf t g = headOf s g) ∧ t = { s with heads := t.heads, out := t.out })

/-- A CXL.mem read answers by the range it falls in. On a head that serves, a read of the data range whose map entry
is stable and whose channels take accesses answers the 64 bytes that the two words at the translated module
address read as, poisoned when either is; one whose entry is being changed, or whose channel takes no access
now, waits, and nothing else changes. A hole reads as poison and counts, its data free; the aperture reads zero
and changes nothing; in the completion and sync window the first 4 MiB answer the completion record of the
line's tag and the rest the window's line, of which SYNC_VIEW_READ answers the one that holds the view of its
word. Neither a hole nor the aperture read changes any byte of memory. CXL_MEM_READ and SYNC_VIEW_READ complete
in each of these cases. -/
def Obligations.CxlReadsByRange : Prop :=
  (∀ (s : State) (h : BitVec 1) (dpa : BitVec 42), headServes s h = true → dpa.toNat % 64 = 0 →
    dpa.toNat < dataEnd s → regBad s ilKey = false →
    (addrServed s (homePot (dpaToModule s dpa.toNat)) (dpaToModule s dpa.toNat) = true →
      runsTo (.cxlMemRead h dpa) s fun t =>
        t = dataRead s h dpa ∧
        ∃ a b : AddrRead, (readAddrN (homePot (dpaToModule s dpa.toNat)) hostRead 2 s (dpaToModule s dpa.toNat)).2 = [a, b] ∧
          t.out.cxl = some (h, dpa, lineOfBytes (a.bytes ++ b.bytes), a.poison || b.poison)) ∧
    (entryChanging s (dpaToModule s dpa.toNat) = true ∨
        addrServed s (homePot (dpaToModule s dpa.toNat)) (dpaToModule s dpa.toNat) = false →
      runsTo (.cxlMemRead h dpa) s fun t =>
        t = { s with map := { s.map with waiting := s.map.waiting ++ [.read h dpa] } })) ∧
  (∀ (s : State) (h : BitVec 1) (dpa : BitVec 42), headServes s h = true → dpa.toNat % 64 = 0 →
    (dataEnd s ≤ dpa.toNat ∨ regBad s ilKey = true) → (dpa.toNat < apertureBase ∨ windowEnd ≤ dpa.toNat) →
    runsTo (.cxlMemRead h dpa) s fun t =>
      (∃ l, t.out.cxl = some (h, dpa, l, true)) ∧ t.hfe = (bumpHfe s 0 1).hfe ∧ sameBytes s t ∧ t.pots = s.pots) ∧
  (∀ (s : State) (h : BitVec 1) (dpa : BitVec 42), headServes s h = true → dpa.toNat % 64 = 0 → dataEnd s ≤ dpa.toNat →
    apertureBase ≤ dpa.toNat → dpa.toNat < windowEnd →
    (dpa.toNat < windowBase →
      runsTo (.cxlMemRead h dpa) s fun t => t = { s with out := { s.out with cxl := some (h, dpa, 0, false) } }) ∧
    (windowBase ≤ dpa.toNat → dpa.toNat < windowBase + 0x400000 →
      runsTo (.cxlMemRead h dpa) s fun t =>
        t = { s with out := { s.out with
          cxl := some (h, dpa, tget s.hfe.records ((dpa.toNat - windowBase) / 64) 0, false) } }) ∧
    (windowBase + 0x400000 ≤ dpa.toNat →
      runsTo (.cxlMemRead h dpa) s fun t => t.out.cxl = some (h, dpa, (windowRead s (dpa.toNat - windowBase)).2, false))) ∧
  (∀ (s : State) (h : BitVec 1) (n : PotIx) (ix : BitVec 16), headServes s h = true →
    runsTo (.syncViewRead h n ix) s fun t =>
      ∃ d l, t.out.cxl = some (h, d, l, false) ∧ d.toNat = windowBase + 0x1000000 + n.toNat * 2 ^ 20 + ix.toNat / 4 * 64 ∧
        l = (windowRead s (0x1000000 + n.toNat * 2 ^ 20 + ix.toNat / 4 * 64)).2)

/-- A CXL.mem write acts by the range it falls in. On a head that serves, a write of the data range stores its
selected bytes at the resolved words (a full mask writes both whole words of the line), or waits while its entry
is being changed or a channel it reaches takes no access. A hole drops and counts it, and so does the window: no
byte of memory changes. In the aperture, and by APERTURE_LINE_WRITE, it fills the line buffer of its slot and
changes no byte of memory either. -/
def Obligations.CxlWritesByRange : Prop :=
  (∀ (s : State) (h : BitVec 1) (dpa : BitVec 42) (l : Line) (m : Word64) (p : Bool), headServes s h = true →
    dpa.toNat % 64 = 0 → dpa.toNat < dataEnd s → regBad s ilKey = false →
    (addrServed s (homePot (dpaToModule s dpa.toNat)) (dpaToModule s dpa.toNat) = true →
      runsTo (.cxlMemWrite h dpa l m p) s fun t =>
        t = dataWrite s dpa l m p ∧
        (m = BitVec.allOnes 64 →
          let a := dpaToModule s dpa.toNat
          t = writeAddr (writeAddr s (homePot a) a hostWrite ((bytesOfLine l).take 32) p) (homePot a) (a + 32) hostWrite
            ((bytesOfLine l).drop 32) p)) ∧
    (entryChanging s (dpaToModule s dpa.toNat) = true ∨
        addrServed s (homePot (dpaToModule s dpa.toNat)) (dpaToModule s dpa.toNat) = false →
      runsTo (.cxlMemWrite h dpa l m p) s fun t =>
        t = { s with map := { s.map with waiting := s.map.waiting ++ [.write h dpa l m p] } })) ∧
  (∀ (s : State) (h : BitVec 1) (dpa : BitVec 42) (l : Line) (m : Word64) (p : Bool), headServes s h = true →
    dpa.toNat % 64 = 0 → (dataEnd s ≤ dpa.toNat ∨ regBad s ilKey = true) →
    ((dpa.toNat < apertureBase ∨ windowEnd ≤ dpa.toNat) →
      runsTo (.cxlMemWrite h dpa l m p) s fun t => t = bumpHfe s 0 1) ∧
    (apertureBase ≤ dpa.toNat → dpa.toNat < windowBase →
      runsTo (.cxlMemWrite h dpa l m p) s fun t => t = apertureWrite s h (dpa.toNat - apertureBase) l m ∧ sameBytes s t) ∧
    (windowBase ≤ dpa.toNat → dpa.toNat < windowEnd →
      runsTo (.cxlMemWrite h dpa l m p) s fun t => t = bumpHfe s 32 1)) ∧
  (∀ (s : State) (h : BitVec 1) (off : BitVec 30) (l : Line) (m : Word64), headServes s h = true →
    (2 ^ 22 ≤ off.toNat → runsTo (.apertureLineWrite h off l m) s fun t => t = bumpHfe s 16 1) ∧
    (off.toNat < 2 ^ 22 → m ≠ BitVec.allOnes 64 → (slotOf s.hfe (off.toNat / 1024)).bufs = [] →
      runsTo (.apertureLineWrite h off l m) s fun t =>
        (∃ b : LineBuf, tfind (slotOf t.hfe (off.toNat / 1024)).bufs (off.toNat / 64 % 16) = some b ∧ b.mask = m ∧ b.head = h) ∧
        (∀ j, j ≠ off.toNat / 1024 → slotOf t.hfe j = slotOf s.hfe j) ∧
        t = { s with hfe := { s.hfe with slots := t.hfe.slots } }))

/-- A whole line reaches its sequence, a complete one waits, and a stale one is dropped. A full 64 B write of line 0
of a sequence of one line, with a SEQ other than LAST_SEQ, to an idle slot puts the slot in WAITING and the slot
at the end of the queue to the dispatch table; one with LAST_SEQ counts as a duplicate and nothing else changes.
ASSEMBLY_TIMEOUT of a slot in ASSEMBLING frees it, keeps LAST_SEQ, logs the drop and, where its header is held,
writes a DONE record with status DROPPED_INCOMPLETE. -/
def Obligations.SequencesAssembleAndDrop : Prop :=
  (∀ (s : State) (h : BitVec 1) (slot : BitVec 12) (l : Line), headServes s h = true → (slotOf s.hfe slot.toNat).state = .idle →
    fieldN l 16 4 = 0 → fieldN l 20 12 = 0 → hdrNlm1 l = 0 → (slotOf s.hfe slot.toNat).bufs = [] →
    (fieldB l 0 16 ≠ (slotOf s.hfe slot.toNat).seq →
      runsTo (.apertureLineWrite h (BitVec.ofNat 30 (slot.toNat * 1024)) l (BitVec.allOnes 64)) s fun t =>
        (slotOf t.hfe slot.toNat).state = .waiting ∧ (slotOf t.hfe slot.toNat).seq = fieldB l 0 16 ∧
        t.hfe.waitq = s.hfe.waitq ++ [slot.toNat] ∧ heldHeader (slotOf t.hfe slot.toNat) = some l ∧ sameBytes s t) ∧
    (fieldB l 0 16 = (slotOf s.hfe slot.toNat).seq →
      runsTo (.apertureLineWrite h (BitVec.ofNat 30 (slot.toNat * 1024)) l (BitVec.allOnes 64)) s fun t =>
        t.hfe.waitq = s.hfe.waitq ∧ slotOf t.hfe slot.toNat = slotOf s.hfe slot.toNat ∧
        t.hfe.errCount = (bumpHfe s 64 1).hfe.errCount ∧ sameBytes s t)) ∧
  (∀ (s : State) (slot : BitVec 12), (slotOf s.hfe slot.toNat).state = .assembling →
    runsTo (.assemblyTimeout slot) s fun t =>
      (slotOf t.hfe slot.toNat).state = .idle ∧ (slotOf t.hfe slot.toNat).seq = (slotOf s.hfe slot.toNat).seq ∧
      (slotOf t.hfe slot.toNat).held = [] ∧ (slotOf t.hfe slot.toNat).bufs = [] ∧
      (tsorted (slotOf s.hfe slot.toNat).held = true → (∀ e ∈ (slotOf s.hfe slot.toNat).held, e.1 < 16) → bitAt t.hfe.dropLog 48 = true) ∧
      fieldN t.hfe.dropLog 0 12 = slot.toNat ∧ fieldB t.hfe.dropLog 16 16 = (slotOf s.hfe slot.toNat).seq ∧
      (∀ hd, heldHeader (slotOf s.hfe slot.toNat) = some hd →
        fieldN (tget t.hfe.records (hdrTag hd).toNat 0) 0 8 = 2 ∧
        fieldN (tget t.hfe.records (hdrTag hd).toNat 0) 8 8 = statusCode .droppedIncomplete) ∧
      (heldHeader (slotOf s.hfe slot.toNat) = none → t.hfe.records = s.hfe.records) ∧
      t = { s with hfe := t.hfe })

/-- The course of a host command through the dispatch table. DISPATCH_ACCEPT takes the sequence that has waited
longest into the table, QUEUED, with a PENDING record, and frees its slot. COMMAND_DISPATCH starts the first
queued command: it reaches the inbox of every pot that is a member, and one refused by its fields is to complete
REJECTED, one with no present unit ABSENT_UNIT. MEMBER_ANSWER takes a pot's oldest answer to the member it
names, which is then answered with the answer's counts, status and value, and counts it as late when that member
no longer waits; MEMBER_LOST gives up a member that is lost, and COMMAND_COMPLETE and CMD_TIMEOUT remove the
command and leave its record DONE with the status it ended with. -/
def Obligations.CommandsEnterAndLeaveTheTable : Prop :=
  (∀ (s : State) (slot : BitVec 12) (h : Line) (rest : List Nat), heldHeader (slotOf s.hfe slot.toNat) = some h →
    s.hfe.waitq = slot.toNat :: rest → (slotOf s.hfe slot.toNat).state = .waiting → s.hfe.pimOff = false →
    (hostCmds s.hfe).length < 8192 →
    runsTo (.dispatchAccept slot) s fun t =>
      t.hfe.waitq = rest ∧ (slotOf t.hfe slot.toNat).state = .idle ∧
      (∃ c, t.hfe.table = s.hfe.table ++ [c] ∧ c.id = s.hfe.nextId ∧ c.header = h ∧ c.state = .queued ∧ c.slot = slot) ∧
      fieldN (tget t.hfe.records (hdrTag h).toNat 0) 0 8 = 1 ∧ t = { s with hfe := t.hfe }) ∧
  (∀ (s : State) (c : Cmd), s.hfe.table.find? (fun c => c.state == .queued) = some c → hubOn s = true →
    hdrOrd c.header = false → fieldsOk s c.header = false →
    runsTo .commandDispatch s fun t =>
      t = updCmd s c.id fun x => { x with state := .running, status := some .rejected }) ∧
  (∀ (s : State) (c : Cmd), s.hfe.table.find? (fun c => c.state == .queued) = some c → hubOn s = true →
    hdrOrd c.header = false → fieldsOk s c.header = true → (commandMembers s c.header c.level.toNat).bad = false →
    (commandMembers s c.header c.level.toNat).parts = [] →
    runsTo .commandDispatch s fun t =>
      t.hfe.table = s.hfe.table.map fun x => if x.id = c.id then { x with state := .running, parts := [], status := some .absentUnit } else x) ∧
  (∀ (s : State) (c : Cmd), s.hfe.table.find? (fun c => c.state == .queued) = some c → hubOn s = true →
    hdrOrd c.header = false → fieldsOk s c.header = true → (commandMembers s c.header c.level.toNat).bad = false →
    (commandMembers s c.header c.level.toNat).parts ≠ [] →
    (∀ p ∈ (commandMembers s c.header c.level.toNat).parts, p.pot ≠ none) →
    runsTo .commandDispatch s fun t =>
      (∀ n, (potOf t n).inbox.length = (potOf s n).inbox.length +
        ((commandMembers s c.header c.level.toNat).parts.filter fun p => decide (p.pot = some n)).length) ∧
      (∀ x ∈ t.hfe.table, x.id = c.id → x.state = .running ∧ x.status = none) ∧ sameBytes s t) ∧
  (∀ (s : State) (n : PotIx) (a : MemberAns) (rest : List MemberAns), (potOf s n).answers = a :: rest →
    runsTo (.memberAnswer n) s fun t =>
      (potOf t n).answers = rest ∧ sameBytes s t ∧
      (∀ c p, memberOf s a.key = some (c, p) → p.state = .waiting →
        t.hfe.table = s.hfe.table.map fun x =>
          if x.id = c.id then
            { x with
              detail := a.detail, infusion := a.infusion.getD x.infusion
              parts := x.parts.map fun q =>
                if q.key = a.key then
                  { q with state := .answered, expected := a.expected, answered := a.answered, status := a.status,
                           isPartial := a.isPartial, poison := a.poison, res := a.res }
                else q }
          else x) ∧
      (∀ c p, memberOf s a.key = some (c, p) → p.state ≠ .waiting → t.hfe = (countLate s 1).hfe)) ∧
  (∀ (s : State) (id : Nat) (n : PotIx), (id, n) ∈ s.hfe.losses →
    runsTo (.memberLost id n) s fun t =>
      (id, n) ∉ t.hfe.losses ∧
      (∀ c ∈ t.hfe.table, c.id = id → ∀ p ∈ c.parts, p.pot = some n → p.state ≠ .waiting) ∧ t = { s with hfe := t.hfe }) ∧
  (∀ (s : State) (id : Nat) (c : Cmd) (st : Status), cmdOf s id = some c → c.status = some st → st ≠ .absentUnit →
    c.remoteOf = none → cmdReturns c st = false → (hdrIrq c.header = false) →
    runsTo (.commandComplete id) s fun t =>
      cmdOf t id = none ∧ fieldN (tget t.hfe.records (hdrTag c.header).toNat 0) 0 8 = 2 ∧
      fieldN (tget t.hfe.records (hdrTag c.header).toNat 0) 8 8 = statusCode st ∧ sameBytes s t) ∧
  (∀ (s : State) (id : Nat) (c : Cmd), cmdOf s id = some c → c.state = .running → c.status = none → c.remoteOf = none →
    fieldN (hfeCtl s) 0 32 ≠ 0 → cmdReturns c .timeout = false → hdrIrq c.header = false →
    runsTo (.cmdTimeout id) s fun t =>
      cmdOf t id = none ∧ fieldN (tget t.hfe.records (hdrTag c.header).toNat 0) 8 8 = statusCode .timeout ∧
      (∀ p ∈ c.parts, p.state = .waiting → p.key ∈ t.hfe.expired) ∧ sameBytes s t)

/-- In plain memory every sequence completes PIM_OFFLINE. With PIM off DISPATCH_ACCEPT writes a DONE record with
status PIM_OFFLINE for the sequence that has waited longest, frees its slot and leaves the dispatch table and
every byte of memory as they were. -/
def Obligations.PlainMemoryTakesNoCommand : Prop :=
  ∀ (s : State) (slot : BitVec 12) (h : Line) (rest : List Nat), heldHeader (slotOf s.hfe slot.toNat) = some h →
    s.hfe.waitq = slot.toNat :: rest → (slotOf s.hfe slot.toNat).state = .waiting → s.hfe.pimOff = true →
    runsTo (.dispatchAccept slot) s fun t =>
      t.hfe.waitq = rest ∧ (slotOf t.hfe slot.toNat).state = .idle ∧ t.hfe.table = s.hfe.table ∧
      fieldN (tget t.hfe.records (hdrTag h).toNat 0) 0 8 = 2 ∧
      fieldN (tget t.hfe.records (hdrTag h).toNat 0) 8 8 = statusCode .pimOffline ∧ sameBytes s t ∧ t.pots = s.pots

/-- A LEAF at its pot places its operand in the tray and pushes one leaf command. At a pot whose firmware takes
commands and whose tray is clear, with two places free in the LU command queue, LEAF with KERNEL 0 and an inline
operand leaves the inbox, stores the operand padded to whole 64 B units at the command's room in the firmware
tray area and pushes one leaf command that carries its TAG, INFUSION, ENTRY, first and last row and operand
length. Every other tray byte and every DRAM byte reads as before. (The room's place is the model's: log entry
29.) -/
def Obligations.LeafOpcodePlacesOperandAndPushes : Prop :=
  ∀ (s : State) (n : PotIx) (c : InCmd) (p : Pot), State.memoryOk s → takeInbox (potOf s n) 1 = some (c, p) → potTakes s n = true →
    p.trayClear = true → lucDepth p + 2 ≤ 128 → c.addr = none → lfKernel c.header = 0 →
    runsTo (.leaf n) s fun t =>
      (potOf t n).inbox = p.inbox ∧
      (∃ q : LeafQ, (potOf t n).lucq = p.lucq ++ [q] ∧ q.origin = .host c.key ∧ fieldB q.raw 0 16 = hdrTag c.header ∧
        fieldB q.raw 16 12 = hdrInf c.header ∧ fieldB q.raw 32 64 = c.path ∧ fieldN q.raw 96 9 = lfEntry c.header ∧
        fieldN q.raw 105 15 = lfRowFirst c.header ∧ fieldN q.raw 120 15 = lfRowLast c.header ∧ bitAt q.raw 135 = false ∧
        fieldN q.raw 136 27 = fwRoom c.key) ∧
      trayRead t (trayGlobal n (fwRoom c.key)) (ceilDiv (lfBytes c.header) 64 * 64) =
        fitBytes (ceilDiv (lfBytes c.header) 64 * 64) c.operand ∧
      (∀ a, a < trayGlobal n (fwRoom c.key) ∨ trayGlobal n (fwRoom c.key) + ceilDiv (lfBytes c.header) 64 * 64 ≤ a →
        cellGet trayDefault t.tray a = cellGet trayDefault s.tray a) ∧
      t.dram = s.dram ∧ ∀ m, m ≠ n → potOf t m = potOf s m

/-- LAUNCH pushes the engine command it describes; LOAD and RESTORE join the load queue. A LAUNCH that passes its
checks and names one entry point, at a core that takes it, pushes one engine command with its TAG, INFUSION and
the entry's address on that engine's queue, counts it in flight and answers OK; one that fails its checks
answers REJECTED and changes nothing else. LOAD and RESTORE with a descriptor address join the load queue while
it holds fewer than 16, and are answered REJECTED with CODE XV_BUSY when it is full; a LOAD that the pot's own
firmware has issued joins it too. No byte of memory changes. -/
def Obligations.LaunchAndLoadOpcodes : Prop :=
  (∀ (s u : State) (n : PotIx) (c : InCmd) (e : EntryPt), takeAtCore s n 2 = some (c, u) → hdrInf c.header ≠ 0 →
    launchOk (infOf s (hdrInf c.header)) c.header = true → launchEntries (infOf s (hdrInf c.header)) c.header = [e] →
    potTakes s (infOf s (hdrInf c.header)).lead = true → launchRoom s (infOf s (hdrInf c.header)) e = true →
    potTakes s (potNo (nth (infOf s (hdrInf c.header)).phys e.lpot 0)) = true →
    runsTo (.launch n) s fun t =>
      (∃ w : BitVec 256,
        (seqOf (potOf t (potNo (nth (infOf s (hdrInf c.header)).phys e.lpot 0))) e.eng).cmdq =
          (seqOf (potOf s (potNo (nth (infOf s (hdrInf c.header)).phys e.lpot 0))) e.eng).cmdq ++ [w] ∧
        fieldB w 0 16 = hdrTag c.header ∧ fieldB w 16 12 = hdrInf c.header ∧ fieldB w 32 32 = e.entry) ∧
      (potOf t n).answers = (potOf s n).answers ++ [simpleAns c.key .ok] ∧
      (infOf t (hdrInf c.header)).inflight = (infOf s (hdrInf c.header)).inflight + 1 ∧ sameBytes s t) ∧
  (∀ (s u : State) (n : PotIx) (c : InCmd), takeAtCore s n 2 = some (c, u) →
    launchOk (infOf s (hdrInf c.header)) c.header = false →
    runsTo (.launch n) s fun t => t = answerMember u n (simpleAns c.key .rejected)) ∧
  (∀ (s u : State) (n : PotIx) (c : InCmd) (a : BitVec 41), c.addr = some a →
    (takeAtCore s n 3 = some (c, u) → s.inf.queue.length < 16 →
      runsTo (.load n) s fun t =>
        t = { u with inf := { u.inf with queue := s.inf.queue ++ [⟨some c.key, false, a, hdrTag c.header, n⟩] } }) ∧
    (takeAtCore s n 4 = some (c, u) → s.inf.queue.length < 16 →
      runsTo (.restore n) s fun t =>
        t = { u with inf := { u.inf with queue := s.inf.queue ++ [⟨some c.key, true, a, hdrTag c.header, n⟩] } }) ∧
    (takeAtCore s n 3 = some (c, u) → 16 ≤ s.inf.queue.length →
      runsTo (.load n) s fun t =>
        t.inf = s.inf ∧ sameBytes s t ∧
        ∃ x : MemberAns, (potOf t n).answers = (potOf s n).answers ++ [x] ∧ x.status = .rejected ∧ fieldN x.detail 0 8 = 0xE) ∧
    (takeAtCore s n 4 = some (c, u) → 16 ≤ s.inf.queue.length →
      runsTo (.restore n) s fun t =>
        t.inf = s.inf ∧ sameBytes s t ∧
        ∃ x : MemberAns, (potOf t n).answers = (potOf s n).answers ++ [x] ∧ x.status = .rejected ∧ fieldN x.detail 0 8 = 0xE)) ∧
  (∀ (s : State) (n : PotIx) (a : BitVec 41) (tag : BitVec 16) (rest : List (BitVec 41 × BitVec 16)), takeAtCore s n 3 = none →
    (potOf s n).ownLoads = (a, tag) :: rest → potTakes s n = true → s.inf.queue.length < 16 →
    runsTo (.load n) s fun t =>
      (potOf t n).ownLoads = rest ∧ t.inf = { s.inf with queue := s.inf.queue ++ [⟨none, false, a, tag, n⟩] } ∧ onlyPot n { s with inf := t.inf } t)

/-- SAVE and UNLOAD of a loaded infusion begin its drain. At a core that takes it, SAVE of a LOADED infusion into an
aligned area that is large enough, and UNLOAD without ABORT of a LOADED one, make the infusion DRAINING and note
the drain; a SAVE whose area is too small, and by the model's choice (DESIGN CHOICE, log entry 106) a SAVE of an
infusion that is neither LOADED nor FAULTED or into an unaligned area and an UNLOAD of a FREE infusion, are
answered REJECTED. No byte of memory changes. -/
def Obligations.SaveAndUnloadOpcodes : Prop :=
  (∀ (s u : State) (n : PotIx) (c : InCmd) (a : BitVec 41), takeAtCore s n 5 = some (c, u) → c.addr = some a →
    ((infOf s (hdrInf c.header)).state = 2 → saveSize s (infOf s (hdrInf c.header)) ≤ fieldN c.header 256 64 → a.toNat % 64 = 0 →
      potTakes s (infOf s (hdrInf c.header)).lead = true →
      runsTo (.save n) s fun t =>
        infOf t (hdrInf c.header) = { infOf s (hdrInf c.header) with state := 3 } ∧
        t.inf.drains = s.inf.drains ++ [⟨hdrInf c.header, n, c.key, true, a⟩] ∧ t = { u with inf := t.inf }) ∧
    (((infOf s (hdrInf c.header)).state ≠ 2 ∧ (infOf s (hdrInf c.header)).state ≠ 4) ∨
        fieldN c.header 256 64 < saveSize s (infOf s (hdrInf c.header)) ∨ a.toNat % 64 ≠ 0 →
      runsTo (.save n) s fun t => t = answerMember u n (simpleAns c.key .rejected))) ∧
  (∀ (s u : State) (n : PotIx) (c : InCmd), takeAtCore s n 6 = some (c, u) →
    ((infOf s (hdrInf c.header)).state = 2 → bitAt c.header 192 = false → potTakes s (infOf s (hdrInf c.header)).lead = true →
      runsTo (.unload n) s fun t =>
        infOf t (hdrInf c.header) = { infOf s (hdrInf c.header) with state := 3 } ∧
        t.inf.drains = s.inf.drains ++ [⟨hdrInf c.header, n, c.key, false, 0⟩] ∧ t = { u with inf := t.inf }) ∧
    ((infOf s (hdrInf c.header)).state = 0 →
      runsTo (.unload n) s fun t => t = answerMember u n (simpleAns c.key .rejected)))

/-- SYNC runs one operation at the pot's SNC; TRAY_COPY halts at a poisoned word and stays within its destination.
HOST_SYNC leaves the inbox and enters the pot's SNC as the operation its fields spell. TRAY_COPY at a pot that
takes commands leaves the inbox and answers OK or POISONED: a copy to memory answers OK when no tray word that
it reads is poisoned and POISONED when one is, and changes no tray byte; a copy from memory changes no tray byte
outside the destination. -/
def Obligations.HostSyncAndTrayCopyOpcodes : Prop :=
  (∀ (s : State) (n : PotIx) (c : InCmd) (p : Pot), takeInbox (potOf s n) 8 = some (c, p) → potOn s n = true →
    runsTo (.hostSync n) s fun t =>
      t = sncArrive (setPot s n p) n
        { index := fieldB c.header 208 16, yop := fieldB c.header 192 4, cond := fieldB c.header 196 2, full := bitAt c.header 198,
          operand := fieldB c.header 256 64, agent := .hostCmd c.key, tag := hdrTag c.header, infusion := 0, entry := 0 }) ∧
  (∀ (s : State) (n : PotIx) (c : InCmd) (p : Pot) (core : Nat) (a : BitVec 41), State.memoryOk s →
    takeInbox (potOf s n) 9 = some (c, p) →
    strainerCore (potOf s n) = some core → c.addr = some a → potTakes s n = true → p.trayClear = true →
    addrServed s n a = true → tcTray c.header + tcBytes c.header ≤ 2 ^ 27 →
    runsTo (.trayCopy n) s fun t =>
      (potOf t n).inbox = p.inbox ∧
      (∃ st, (potOf t n).answers = (potOf s n).answers ++ [simpleAns c.key st] ∧ (st = .ok ∨ st = .poisoned) ∧
        (tcOut c.header = true →
          (st = .ok ↔ ∀ i, i < tcBytes c.header / 32 → trayWordPoison s ((trayGlobal n (tcTray c.header) + 32 * i) / 32) = false))) ∧
      (tcOut c.header = true → t.tray = s.tray) ∧
      ∀ g, g < trayGlobal n (tcTray c.header) ∨ trayGlobal n (tcTray c.header) + tcBytes c.header ≤ g →
        cellGet trayDefault t.tray g = cellGet trayDefault s.tray g)

/-- The memory device mailbox and CDAT answer with what the manual gives. On a head that serves while the module
runs, each mailbox command and CDAT answers with code 0 (the opcode numbers are those of CXL 3.1: PRESUMED, log
entry 38) and with the contents the manual gives first: the capacity for IDENTIFY and CDAT, the event records,
the poison list. CLEAR_EVENT_RECORDS drops the oldest, and any other opcode returns a code that is not 0. No
byte of memory changes. -/
def Obligations.MailboxAnswers : Prop :=
  ∀ (s : State) (h : BitVec 1), answers s h = true →
    (runsTo (.identifyMemoryDevice h) s fun t =>
      ∃ rest, t.out.answer = some ⟨h, 0x4000, 0, bytesOfNat 8 (dataEnd s) ++ bytesOfNat 8 (dataEnd s) ++ bytesOfNat 8 0 ++ rest⟩ ∧
        t = { s with out := t.out, freeCtr := t.freeCtr }) ∧
    (runsTo (.cdat h) s fun t =>
      ∃ rest, t.out.answer = some ⟨h, 0, 0, bytesOfNat 8 0 ++ bytesOfNat 8 (dataEnd s) ++ rest⟩ ∧
        t = { s with out := t.out, freeCtr := t.freeCtr }) ∧
    (runsTo (.getSupportedLogs h) s fun t =>
      (∃ rest, t.out.answer = some ⟨h, 0x0400, 0, rest⟩) ∧ t = { s with out := t.out, freeCtr := t.freeCtr }) ∧
    (runsTo (.getLog h) s fun t =>
      (∃ rest, t.out.answer = some ⟨h, 0x0401, 0, (mailboxOpcodes.map (bytesOfNat 2)).flatten ++ rest⟩) ∧
        t = { s with out := t.out, freeCtr := t.freeCtr }) ∧
    (runsTo (.getEventRecords h) s fun t =>
      (∃ rest, t.out.answer = some ⟨h, 0x0100, 0, (s.cxlEvents.map cxlEventBytes).flatten ++ rest⟩) ∧
        t = { s with out := t.out, freeCtr := t.freeCtr }) ∧
    (∀ k, runsTo (.clearEventRecords h k) s fun t =>
      t.cxlEvents = s.cxlEvents.drop k.toNat ∧ t = { s with out := t.out, freeCtr := t.freeCtr, cxlEvents := t.cxlEvents }) ∧
    (runsTo (.getHealthInfo h) s fun t =>
      (∃ rest, t.out.answer = some ⟨h, 0x4200, 0, rest⟩) ∧ t = { s with out := t.out, freeCtr := t.freeCtr }) ∧
    (runsTo (.getAlertConfiguration h) s fun t =>
      (∃ rest, t.out.answer = some ⟨h, 0x4201, 0, rest⟩) ∧ t = { s with out := t.out, freeCtr := t.freeCtr }) ∧
    (runsTo (.getPoisonList h) s fun t =>
      (∃ rest, t.out.answer = some ⟨h, 0x4300, 0, (s.poisonList.map fun d => bytesOfNat 8 d.toNat).flatten ++ rest⟩) ∧
        t = { s with out := t.out, freeCtr := t.freeCtr }) ∧
    (∀ op : BitVec 16, op.toNat ∉ mailboxOpcodes →
      runsTo (.mailboxUnsupported h op) s fun t =>
        ∃ code, t = { s with out := { s.out with answer := some ⟨h, op, code, []⟩ } } ∧ code ≠ 0)

/-- The SPDM responder answers version, keys and measurements. On a head that serves while the module runs each SPDM
request answers (request codes and algorithm masks are those of SPDM 1.3: PRESUMED, log entry 38).
GET_CERTIFICATE of slot 0 begins with the root, DeviceID and, while firmware runs, alias public keys; CHALLENGE
of slot 0 with the signer's key and the nonce; another slot is refused. GET_MEASUREMENTS gives the number of
blocks, 12, for index 0, block i for i of 1 to 12 and all of them for 0xFF. -/
def Obligations.SpdmAnswers : Prop :=
  ∀ (s : State) (h : BitVec 1), answers s h = true →
    (runsTo (.getVersion h) s fun t =>
      (∃ rest, t.out.answer = some ⟨h, 0x84, 0, 0x13 :: rest⟩) ∧ t = { s with out := t.out, freeCtr := t.freeCtr }) ∧
    (runsTo (.getCapabilities h) s fun t =>
      (∃ rest, t.out.answer = some ⟨h, 0xE1, 0, rest⟩) ∧ t = { s with out := t.out, freeCtr := t.freeCtr }) ∧
    (runsTo (.negotiateAlgorithms h) s fun t =>
      (∃ rest, t.out.answer = some ⟨h, 0xE3, 0, bytesOfNat 4 0x400 ++ bytesOfNat 4 4 ++ rest⟩) ∧ t.fw = { s.fw with spdmAlgs := true } ∧ t = { s with out := t.out, freeCtr := t.freeCtr, fw := t.fw }) ∧
    (runsTo (.getDigests h) s fun t =>
      (∃ rest, t.out.answer = some ⟨h, 0x81, 0, 1 :: rest⟩) ∧ t = { s with out := t.out, freeCtr := t.freeCtr }) ∧
    (∀ slot : BitVec 4, runsTo (.getCertificate h slot) s fun t =>
      (slot = 0 → ∃ rest, t.out.answer =
        some ⟨h, 0x82, 0, keyBytes s.caddy.rootKey ++ deviceIdPublic s ++ (if s.fw.running then aliasPublic s else []) ++ rest⟩) ∧
      (slot ≠ 0 → ∃ rest, t.out.answer = some ⟨h, 0x82, 1, rest⟩) ∧ t = { s with out := t.out, freeCtr := t.freeCtr }) ∧
    (∀ (slot : BitVec 4) (nonce : BitVec 256), runsTo (.challenge h slot nonce) s fun t =>
      (slot = 0 → ∃ rest, t.out.answer =
        some ⟨h, 0x83, 0, (if s.fw.running then aliasPublic s else deviceIdPublic s) ++ bytesOfNat 32 nonce.toNat ++ rest⟩) ∧
      (slot ≠ 0 → ∃ rest, t.out.answer = some ⟨h, 0x83, 1, rest⟩) ∧ t = { s with out := t.out, freeCtr := t.freeCtr }) ∧
    (∀ ix : BitVec 8, runsTo (.getMeasurements h ix) s fun t =>
      (ix = 0 → ∃ rest, t.out.answer = some ⟨h, 0xE0, 0, 12 :: rest⟩) ∧
      (0 < ix.toNat ∧ ix.toNat ≤ 12 → ∃ rest, t.out.answer = some ⟨h, 0xE0, 0, measurement s ix.toNat ++ rest⟩) ∧
      (ix = 0xFF → ∃ rest, t.out.answer =
        some ⟨h, 0xE0, 0, ((between 1 13).map (measurement s)).flatten ++ rest⟩) ∧
      (12 < ix.toNat → ix ≠ 0xFF → ∃ rest, t.out.answer = some ⟨h, 0xE0, 1, rest⟩) ∧
      t = { s with out := t.out, freeCtr := t.freeCtr })

/-- COMMIT and CLEAR of a blend table entry. With the hub powered and HUB_BLEND_CTL sound, a COMMIT whose staging
area passes every check stores the sixteen staged records in its entry, LIVE set for members whose module is
reached, with RESULT 0; one that fails stores nothing and its RESULT names the first failing check. CLEAR leaves
its entry's sixteen records unset with RESULT 0. Other entries stay. -/
def Obligations.BlendTableCommands : Prop :=
  (∀ (s : State) (e : BitVec 8), hubOn s = true → regBad s blendKey = false →
    runsTo (.commit e) s fun t =>
      fieldN t.blend.ctl 11 3 = commitResult s e.toNat ∧ fieldN t.blend.ctl 0 8 = e.toNat ∧
      (commitResult s e.toNat = 0 → ∀ r, r < 16 → blendRec t e.toNat r = committedRec s r) ∧
      (commitResult s e.toNat ≠ 0 → t.blend.table = s.blend.table) ∧
      (∀ f r, f ≠ e.toNat → r < 16 → blendRec t f r = blendRec s f r) ∧
      t = { s with blend := { s.blend with table := t.blend.table, ctl := t.blend.ctl } }) ∧
  (∀ (s : State) (e : BitVec 8), hubOn s = true → regBad s blendKey = false → tsorted s.blend.table = true →
    runsTo (.clear e) s fun t =>
      fieldN t.blend.ctl 11 3 = 0 ∧ fieldN t.blend.ctl 0 8 = e.toNat ∧
      (∀ r, r < 16 → recValid (blendRec t e.toNat r) = false) ∧
      (∀ f r, f ≠ e.toNat → r < 16 → blendRec t f r = blendRec s f r) ∧
      t = { s with blend := { s.blend with table := t.blend.table, ctl := t.blend.ctl } })

/-- A pot map change is requested, then applied to the hub and every copy. While hub firmware runs and no change of
the entry is pending, POT_MAP_WRITE of a value whose STATE is not reserved makes accesses through the entry
wait, and changes nothing else. POT_MAP_CHANGE_APPLY, once no leaf command resolved through the entry runs, puts
the value in the hub's entry with its complement, ends the change, drops every pot's copy of the entry so that
each resolves through the hub's, and serves the accesses that waited; the other entries and, before those are
served, every byte of memory stay. -/
def Obligations.PotMapChanges : Prop :=
  (∀ (s : State) (e : BitVec 11) (v : BitVec 32), s.fw.running = true → tfind s.map.changes e.toNat = none → entState v ≠ 3 →
    runsTo (.potMapWrite e v) s fun t =>
      tfind t.map.changes e.toNat = some (putField v 25 7 0) ∧
      (∀ a, homeIx a = e.toNat → entryChanging t a = true) ∧ t = { s with map := { s.map with changes := t.map.changes } }) ∧
  (∀ (s : State) (e : BitVec 11) (v : BitVec 32), tfind s.map.changes e.toNat = some v → entryInUse s e.toNat = false →
    tsorted s.map.changes = true → (∀ n, tsorted (potOf s n).mapCopy = true) →
    runsTo (.potMapChangeApply e) s fun t =>
      ∃ u, tfind u.map.entries e.toNat = some ⟨v, ~~~v⟩ ∧ tfind u.map.changes e.toNat = none ∧
        (∀ n, e.toNat ∉ (potOf u n).mapLost ∧ potEntry u n e.toNat = ⟨v, ~~~v⟩) ∧
        (∀ j, j ≠ e.toNat → tfind u.map.entries j = tfind s.map.entries j) ∧ sameBytes s u ∧
        t = { serveWaiters u with svc := t.svc })

/-- The fourteen SCALAR operations. A SCALAR word at issue computes as the table of SOP says: ADD, SUB, SHL and SHR
(0 when B is 48 or more), SAR (all sign bits then), MIN and MAX signed, SLT, SEQ, LUI, LI, WLC, RLC, and AGPOS
of a generator that its command has started. The result goes to ax[DST], for WLC to lc[DST], the sequencer goes
on to the next word, and no other register, pot or byte changes. A reserved SOP faults with BAD_WORD. -/
def Obligations.ScalarOperations : Prop :=
  scalarWrites .add 0 (fun q w => BitVec.ofNat 48 ((opA q w).toNat + (opB q w).toNat)) ∧
  scalarWrites .sub 1 (fun q w => BitVec.ofInt 48 ((opA q w).toInt - (opB q w).toInt)) ∧
  scalarWrites .shl 2 (fun q w =>
    if 48 ≤ (opB q w).toNat then 0 else BitVec.ofNat 48 ((opA q w).toNat * 2 ^ (opB q w).toNat)) ∧
  scalarWrites .shr 3 (fun q w =>
    if 48 ≤ (opB q w).toNat then 0 else BitVec.ofNat 48 ((opA q w).toNat / 2 ^ (opB q w).toNat)) ∧
  scalarWrites .sar 4 (fun q w =>
    if 48 ≤ (opB q w).toNat then (if (opA q w).toInt < 0 then BitVec.allOnes 48 else 0)
    else BitVec.ofInt 48 ((opA q w).toInt / 2 ^ (opB q w).toNat)) ∧
  scalarWrites .min 5 (fun q w => BitVec.ofInt 48 (min (opA q w).toInt (opB q w).toInt)) ∧
  scalarWrites .max 6 (fun q w => BitVec.ofInt 48 (max (opA q w).toInt (opB q w).toInt)) ∧
  scalarWrites .slt 7 (fun q w => if (opA q w).toInt < (opB q w).toInt then 1 else 0) ∧
  scalarWrites .seq 8 (fun q w => if opA q w = opB q w then 1 else 0) ∧
  scalarWrites .lui 9 (fun q w =>
    BitVec.ofNat 48 ((axOf q (fieldN w 36 4)).toNat % 2 ^ 32 + fieldN w 64 16 * 2 ^ 32)) ∧
  scalarWrites .li 10 (fun _ w => BitVec.ofInt 48 (fieldB w 64 32).toInt) ∧
  scalarWrites .rlc 12 (fun q w => BitVec.ofNat 48 (lcOf q (fieldN w 40 2)).toNat) ∧
  (∀ (s : State) (n : PotIx) (e : Eng) (w : ColWord), wordIssues s n e w → insideLoop (seqOf (potOf s n) e) →
    wKind w = kindScalar →
    (fieldN w 32 4 = 11 →
      runsTo (.wlc n e) s fun t =>
        onlySeq n e s t ∧ wordDone (seqOf (potOf s n) e) (seqOf (potOf t n) e) ∧
        (seqOf (potOf t n) e).ax = (seqOf (potOf s n) e).ax ∧
        ∀ i, lcOf (seqOf (potOf t n) e) i =
          if i = fieldN w 36 4 then BitVec.ofNat 32 (opA (seqOf (potOf s n) e) w).toNat else lcOf (seqOf (potOf s n) e) i) ∧
    (∀ x, fieldN w 32 4 = 13 → streamOf (seqOf (potOf s n) e) (fieldN w 40 3) = some x →
      runsTo (.agpos n e) s fun t =>
        onlySeq n e s t ∧ wordDone (seqOf (potOf s n) e) (seqOf (potOf t n) e) ∧
        ∀ i, axOf (seqOf (potOf t n) e) i =
          if i = fieldN w 36 4 then streamAddr x else axOf (seqOf (potOf s n) e) i)) ∧
  (∀ (s : State) (n : PotIx) (e : Eng) (w : ColWord), seqReady s n e = true → wordAt (seqOf (potOf s n) e) e = some w →
    (infFailing s (seqOf (potOf s n) e).infusion = false ∨ wordBegun (potOf s n) e = true) →
    wordBad (seqOf (potOf s n) e) e = false → wKind w = kindScalar → 14 ≤ fieldN w 32 4 →
    runsTo (.add n e) s fun t => seqStopped t n e 1)

/-- AGPOS of a generator that its command has not started writes a free value. The manual states no address for it,
so ax[DST] takes a value that nothing constrains (DESIGN CHOICE, log entry 3): for every value of the model's
counter the word completes, and nothing else changes but that counter. -/
def Obligations.ScalarResultsNotGiven : Prop :=
  ∀ (s : State) (n : PotIx) (e : Eng) (w : ColWord), wordIssues s n e w → insideLoop (seqOf (potOf s n) e) →
    wKind w = kindScalar → fieldN w 32 4 = 13 → streamOf (seqOf (potOf s n) e) (fieldN w 40 3) = none →
    runsTo (.agpos n e) s fun t =>
      onlySeq n e { s with freeCtr := t.freeCtr } t ∧ wordDone (seqOf (potOf s n) e) (seqOf (potOf t n) e) ∧
      ∀ i, i ≠ fieldN w 36 4 → axOf (seqOf (potOf t n) e) i = axOf (seqOf (potOf s n) e) i

/-- NOP, LOOP and BRANCH move the program counter. A NOP goes on to the next word. A LOOP at its own level with a
count above zero opens a level whose body runs that often, and with a count of zero goes on after the body; one
at another level faults with BAD_WORD. A BRANCH on address registers whose target lies in the body of the
innermost open level goes to the target when its condition holds and to the next word otherwise, and faults with
BAD_WORD when the target lies outside. At the last word of a body the back-edge adds INC_VAL to ax[INC_AX] and
returns to the body's first word. Nothing outside the sequencer changes where the word does not fault. -/
def Obligations.ControlFlowWords : Prop :=
  (∀ (s : State) (n : PotIx) (e : Eng) (w : ColWord), wordIssues s n e w → wKind w = kindNop →
    runsTo (.nop n e) s fun t =>
      onlySeq n e s t ∧
      (insideLoop (seqOf (potOf s n) e) → wordDone (seqOf (potOf s n) e) (seqOf (potOf t n) e) ∧
        (seqOf (potOf t n) e).ax = (seqOf (potOf s n) e).ax ∧ (seqOf (potOf t n) e).lc = (seqOf (potOf s n) e).lc) ∧
      (∀ l ls, (seqOf (potOf s n) e).loops = l :: ls → (seqOf (potOf s n) e).pc + 1 = l.stop → 1 < l.left →
        (seqOf (potOf t n) e).pc = l.start ∧ (seqOf (potOf t n) e).loops = { l with left := l.left - 1 } :: ls ∧
        (l.incEn = true → axOf (seqOf (potOf t n) e) l.incAx.toNat =
          axOf (seqOf (potOf s n) e) l.incAx.toNat + l.incVal.signExtend 48))) ∧
  (∀ (s : State) (n : PotIx) (e : Eng) (w : ColWord), wordIssues s n e w → wKind w = kindLoop →
    let q := seqOf (potOf s n) e
    let count := if bitAt w 34 then (lcOf q (fieldN w 32 2)).toNat else fieldN w 48 16
    (fieldN w 32 2 = q.loops.length → 0 < count →
      runsTo (.loop n e) s fun t =>
        onlySeq n e s t ∧ (seqOf (potOf t n) e).pc = q.pc + 1 ∧ (seqOf (potOf t n) e).ax = q.ax ∧
        (seqOf (potOf t n) e).loops =
          { start := q.pc + 1, stop := q.pc + 1 + BitVec.ofNat 32 (fieldN w 35 12), left := count, incEn := bitAt w 68,
            incAx := fieldB w 64 4, incVal := fieldB w 72 24 } :: q.loops) ∧
    (fieldN w 32 2 = q.loops.length → count = 0 → q.loops = [] →
      runsTo (.loop n e) s fun t =>
        onlySeq n e s t ∧ (seqOf (potOf t n) e).pc = q.pc + 1 + BitVec.ofNat 32 (fieldN w 35 12) ∧
        (seqOf (potOf t n) e).loops = [] ∧ (seqOf (potOf t n) e).ax = q.ax) ∧
    (fieldN w 32 2 ≠ q.loops.length → runsTo (.loop n e) s fun t => seqStopped t n e 1)) ∧
  (∀ (s : State) (n : PotIx) (e : Eng) (w : ColWord), wordIssues s n e w → wKind w = kindBranch → bitAt w 36 = false →
    let q := seqOf (potOf s n) e
    let target := q.pc + (fieldB w 64 16).signExtend 32
    let a := axOf q (fieldN w 37 4)
    let b := if bitAt w 45 then (fieldB w 80 16).signExtend 48 else axOf q (fieldN w 46 4)
    ((∀ l ∈ q.loops.head?, l.start.toNat ≤ target.toNat ∧ target.toNat < l.stop.toNat) →
      (branchTaken (fieldN w 32 4) a b = true →
        runsTo (.branch n e) s fun t =>
          onlySeq n e s t ∧ (seqOf (potOf t n) e).pc = target ∧ (seqOf (potOf t n) e).loops = q.loops ∧
          (seqOf (potOf t n) e).busyTo = (seqOf (potOf t n) e).cycle + 1 + (if s.fuses.stepping = .a0 then 6 else 4)) ∧
      (branchTaken (fieldN w 32 4) a b = false → insideLoop q →
        runsTo (.branch n e) s fun t => onlySeq n e s t ∧ wordDone q (seqOf (potOf t n) e))) ∧
    ((∃ l ∈ q.loops.head?, target.toNat < l.start.toNat ∨ l.stop.toNat ≤ target.toNat) →
      runsTo (.branch n e) s fun t => seqStopped t n e 1)) ∧
  (∀ a b : BitVec 48, branchTaken 0 a b = true ∧ (branchTaken 1 a b = true ↔ a = b) ∧ (branchTaken 2 a b = true ↔ a ≠ b) ∧
    (branchTaken 3 a b = true ↔ a.toInt < b.toInt) ∧ (branchTaken 4 a b = true ↔ b.toInt ≤ a.toInt) ∧
    (branchTaken 5 a b = true ↔ a.toNat < b.toNat) ∧ (branchTaken 6 a b = true ↔ b.toNat ≤ a.toNat) ∧
    (branchTaken 7 a b = true ↔ a &&& b ≠ 0) ∧ (branchTaken 8 a b = true ↔ a &&& b = 0))

/-- An engine command is pushed, checked, started, fetched, ended and completed. ENGINE_COMMAND_PUSH appends the
command while the queue has room and no earlier store waits; into a full queue the store stalls, and a command
for an MXE that is not there does not enter the queue. ENGINE_COMMAND_START, with no stalled store, of a command
whose infusion is 0 or loaded, with its permit held, gives ax0 to ax3 its arguments, clears the other registers
and starts at ENTRY; of any other it leaves the queue without running. ICACHE_FILL brings the line of the
awaited word, an END word with nothing outstanding ends the command, and ENGINE_COMMAND_COMPLETE lets the next
one follow. HALT sets or clears the hold; INVAL with no command running empties the cache, and with one running
waits; an element made available leaves one fewer pushed. -/
def Obligations.EngineCommandCourse : Prop :=
  (∀ (s : State) (n : PotIx) (e : Eng) (c : BitVec 256), engPresent s n e = true → (potOf s n).fwRunning = true →
    (potOf s n).trayClear = true → (∀ x ∈ (potOf s n).pushWait, x.1 ≠ e) →
    (seqOf (potOf s n) e).cmdq.length < (match e with | .sfe => 384 | _ => 256) →
    runsTo (.engineCommandPush n e c) s fun t =>
      seqOf (potOf t n) e = { seqOf (potOf s n) e with cmdq := (seqOf (potOf s n) e).cmdq ++ [c] } ∧
      t = { s with pots := t.pots, inf := t.inf } ∧ (∀ m, m ≠ n → potOf t m = potOf s m) ∧
      (fieldN c 16 12 = 0 → t.inf = s.inf)) ∧
  (∀ (s : State) (n : PotIx) (e : Eng) (c : BitVec 256), potOn s n = true → (potOf s n).fwRunning = true →
    (potOf s n).trayClear = true →
    (engPresent s n e = true → (match e with | .sfe => 384 | _ => 256) ≤ (seqOf (potOf s n) e).cmdq.length →
      runsTo (.engineCommandPush n e c) s fun t =>
        t = updPot s n fun p => { p with pushWait := p.pushWait ++ [(e, c)] }) ∧
    (engPresent s n e = false →
      runsTo (.engineCommandPush n e c) s fun t =>
        seqOf (potOf t n) e = seqOf (potOf s n) e ∧ t.hfe = (countAbsent s 0 1).hfe ∧ sameBytes s t)) ∧
  (∀ (s : State) (n : PotIx) (e : Eng) (c : BitVec 256) (rest : List (BitVec 256)), engPresent s n e = true →
    (potOf s n).trayClear = true → engParity s n e = false → (seqOf (potOf s n) e).running = false →
    (seqOf (potOf s n) e).cmdq = c :: rest → (∀ x ∈ (potOf s n).pushWait, x.1 ≠ e) →
    (infOn s (ecInf c) n = true → permitHeld (potOf s n).pmt (engClass e) 0 = true →
      runsTo (.engineCommandStart n e) s fun t =>
        (seqOf (potOf t n) e).running = true ∧ (seqOf (potOf t n) e).pc = fieldB c 32 32 ∧
        (seqOf (potOf t n) e).tag = fieldB c 0 16 ∧ (seqOf (potOf t n) e).infusion = fieldB c 16 12 ∧
        (seqOf (potOf t n) e).cmdq = rest ∧
        (∀ i, i < 4 → axOf (seqOf (potOf t n) e) i = fieldB c (64 + 48 * i) 48) ∧
        (∀ i, 4 ≤ i → axOf (seqOf (potOf t n) e) i = 0) ∧ (∀ i, lcOf (seqOf (potOf t n) e) i = 0) ∧
        (seqOf (potOf t n) e).loops = [] ∧ (seqOf (potOf t n) e).chains = [] ∧ (seqOf (potOf t n) e).streams = [] ∧
        onlyPot n s t) ∧
    (infOn s (ecInf c) n = false →
      runsTo (.engineCommandStart n e) s fun t =>
        (seqOf (potOf t n) e).running = false ∧ (seqOf (potOf t n) e).cmdq = rest ∧ sameBytes s t)) ∧
  (∀ (s : State) (n : PotIx) (e : Eng), engPresent s n e = true → (seqOf (potOf s n) e).running = true →
    (seqOf (potOf s n) e).fetchWait = true →
    addrServed s n (programBase s n (seqOf (potOf s n) e).infusion +
      BitVec.ofNat 41 (wordByte e (seqOf (potOf s n) e).pc / 256 * 256)) = true →
    runsTo (.icacheFill n e) s fun t =>
      (seqOf (potOf t n) e).fetchWait = false ∧ (wordAt (seqOf (potOf t n) e) e).isSome = true ∧ t.tray = s.tray) ∧
  (∀ (s : State) (n : PotIx) (e : Eng) (w : ColWord), wordIssues s n e w → wKind w = kindEnd → engDrained (potOf s n) e = true →
    runsTo (.endWord n e) s fun t =>
      onlySeq n e s t ∧ (seqOf (potOf t n) e).ended = true ∧ (seqOf (potOf t n) e).loops = []) ∧
  (∀ (s : State) (n : PotIx) (e : Eng), (seqOf (potOf s n) e).running = true → (seqOf (potOf s n) e).ended = true →
    engDrained (potOf s n) e = true →
    runsTo (.engineCommandComplete n e) s fun t =>
      (seqOf (potOf t n) e).running = false ∧ (seqOf (potOf t n) e).faulted = (seqOf (potOf s n) e).faulted ∧ sameBytes s t) ∧
  (∀ (s : State) (n : PotIx) (e : Eng) (on : Bool), engPresent s n e = true →
    (runsTo (.halt n e on) s fun t =>
      onlySeq n e s t ∧ seqOf (potOf t n) e = { seqOf (potOf s n) e with halt := on }) ∧
    ((seqOf (potOf s n) e).running = true → runsTo (.inval n e) s fun t =>
      onlySeq n e s t ∧ seqOf (potOf t n) e = { seqOf (potOf s n) e with invalPending := true }) ∧
    ((seqOf (potOf s n) e).running = false → runsTo (.inval n e) s fun t =>
      (seqOf (potOf t n) e).icache = [] ∧ (seqOf (potOf t n) e).invalPending = false ∧ sameBytes s t)) ∧
  (∀ (s : State) (n : PotIx) (k : BitVec 6), 0 < (queueOf (potOf s n) k.toNat).pushed →
    runsTo (.queueElementAvailable n k) s fun t =>
      queueOf (potOf t n) k.toNat = { queueOf (potOf s n) k.toNat with pushed := (queueOf (potOf s n) k.toNat).pushed - 1 } ∧
      onlyPot n s t)

/-- STREAM starts a generator, a burst advances it, and a SYNC word waits for its operation. A STREAM word whose
generator is idle and whose descriptor has a burst size of 32 B to 2 KiB starts the generator with its indices
at zero; one whose generator is busy is held back at its word. A burst in from a tray of this module, with room
in the queue, pushes the pieces read there into the queue and steps the indices. A SYNC word that STORES to a
ready local word performs the operation and goes on to the next word; an EMPTY of a word that is not full holds
its sequencer. -/
def Obligations.StreamAndSyncWords : Prop :=
  (∀ (s : State) (n : PotIx) (e : Eng) (w : ColWord), wordIssues s n e w → wKind w = kindStream →
    insideLoop (seqOf (potOf s n) e) →
    (agBusy (seqOf (potOf s n) e) (fieldN w 32 3) = false → regBad s (descKey n e (fieldN w 42 8)) = false →
      5 ≤ fieldN (tget (seqOf (potOf s n) e).descs (fieldN w 42 8) 0) 240 4 →
      fieldN (tget (seqOf (potOf s n) e).descs (fieldN w 42 8) 0) 240 4 ≤ 11 →
      runsTo (.stream n e) s fun t =>
        onlySeq n e s t ∧ (seqOf (potOf t n) e).pc = (seqOf (potOf s n) e).pc + 1 ∧
        ∃ x, streamOf (seqOf (potOf t n) e) (fieldN w 32 3) = some x ∧ x.ix = 0 ∧ x.queue = fieldB w 50 6 ∧
          x.dirOut = bitAt w 35 ∧ x.space1 = bitAt w 36 ∧ x.desc = tget (seqOf (potOf s n) e).descs (fieldN w 42 8) 0 ∧
          x.base = fieldB x.desc 192 48 + (if bitAt w 37 then axOf (seqOf (potOf s n) e) (fieldN w 38 4) else 0)) ∧
    (agBusy (seqOf (potOf s n) e) (fieldN w 32 3) = true →
      runsTo (.stream n e) s fun t =>
        onlySeq n e s t ∧ seqOf (potOf t n) e = { seqOf (potOf s n) e with heldBack := true })) ∧
  (∀ (s : State) (n : PotIx) (e : Eng) (ag : BitVec 3) (x : Stream) (a : Nat), potOn s n = true → engPresent s n e = true →
    (seqOf (potOf s n) e).running = true → streamOf (seqOf (potOf s n) e) ag.toNat = some x → x.stopped = false →
    (potOf s n).remote = [] → streamMay (potOf s n) x = true → x.dirOut = false → x.left = none →
    burstLen x ≤ qWritable (queueOf (potOf s n) x.queue.toNat) → burstAt s x = .tray a → (agAdvance x).2 = false →
    runsTo (.streamBurst n e ag) s fun t =>
      let r := trayPieces (burstLen x / 32) s a
      t = (updSeq (qPushAll n x.queue.toNat r.2 r.1) n e fun q =>
        { q with streams := tset q.streams ag.toNat { x with ix := (agAdvance x).1 } }) ∧ t.dram = s.dram) ∧
  (∀ (s : State) (n : PotIx) (e : Eng) (w : ColWord), wordIssues s n e w → wKind w = kindSync → syncOk w = true →
    insideLoop (seqOf (potOf s n) e) → ownNode s (syNode w) = true → syncFree s (syPot w) (.sequencer n e) →
    wordReady s (syPot w) (syIndex w).toNat → (seqOf (potOf s n) e).syncDone = none →
    (syYop w = 1 →
      runsTo (.sync n e) s fun t =>
        (seqOf (potOf t n) e).pc = (seqOf (potOf s n) e).pc + 1 ∧ (seqOf (potOf t n) e).syncWait = false ∧
        (syncWordOf (potOf t (syPot w)).snc (syIndex w).toNat).value =
          (axOf (seqOf (potOf s n) e) (fieldN w 39 4)).setWidth 64 ∧
        (syncWordOf (potOf t (syPot w)).snc (syIndex w).toNat).full = bitAt w 38) ∧
    (syYop w = 3 → (syncWordOf (potOf s (syPot w)).snc (syIndex w).toNat).full = false →
      runsTo (.sync n e) s fun t =>
        (seqOf (potOf t n) e).pc = (seqOf (potOf s n) e).pc ∧ (seqOf (potOf t n) e).syncWait = true ∧
        (seqOf (potOf t n) e).stalled = true))

/-- A sequencer fault stops the sequencer and ends its command. A word whose line was read with an uncorrectable
error faults with FETCH_UE and an ill-formed word with BAD_WORD, whatever word was commanded; SEQ_STALL_TIMEOUT
of a word held back, or of a fetch that waits, faults with STALL unless STALL_US is 0. INFUSION_FAIL of a
failing infusion stops with cause INFUSION each of its sequencers that stands at a word boundary, and makes it
FAULTED once every one of them does, no LU runs a command of it and no remote request is outstanding. -/
def Obligations.SequencerFaultsStopTheCommand : Prop :=
  (∀ (s : State) (n : PotIx) (e : Eng) (w : ColWord), seqReady s n e = true → wordAt (seqOf (potOf s n) e) e = some w →
    (infFailing s (seqOf (potOf s n) e).infusion = false ∨ wordBegun (potOf s n) e = true) →
    (wordBad (seqOf (potOf s n) e) e = true → runsTo (.nop n e) s fun t => seqStopped t n e 6) ∧
    (wordBad (seqOf (potOf s n) e) e = false → wordOk w = false → runsTo (.nop n e) s fun t => seqStopped t n e 1)) ∧
  (∀ (s : State) (n : PotIx) (e : Eng), (seqOf (potOf s n) e).running = true →
    ((seqOf (potOf s n) e).heldBack = true ∨ (seqOf (potOf s n) e).fetchWait = true) → (seqOf (potOf s n) e).stallUs ≠ 0 →
    runsTo (.seqStallTimeout n e) s fun t => seqStopped t n e 7) ∧
  (∀ (s : State) (i : BitVec 12), i ≠ 0 → (infOf s i).failing = true →
    runsTo (.infusionFail i) s fun t =>
      (∀ n e, potEnabled s n = true → (seqOf (potOf s n) e).running = true → (seqOf (potOf s n) e).infusion = i →
        wordBegun (potOf s n) e = false → seqStopped t n e 8) ∧
      ((∀ n e, (seqOf (potOf s n) e).running = true → (seqOf (potOf s n) e).infusion = i → wordBegun (potOf s n) e = false) →
        (∀ n, (potOf s n).remote = [] ∧ ∀ x ∈ (potOf s n).lus, x.2.cmd = none ∨ x.2.done = true) →
        (infOf t i).state = 4 ∧ (infOf t i).failing = false))

/-- MMA, MMA24, MMABS, ZERO and FLUSH work on one accumulator set. An MMA, MMA24 or MMABS word whose operands lie in
tray queues with the bytes it needs completes: every value of the set ACC becomes what its chunks, in ascending
order of K, add to it, the other set keeps its values, and nothing outside the pot's MXE, queues and counters
changes. An accumulator update of an integer pair saturates at the limits of INT32. ZERO clears its set and
leaves the other. A FLUSH to the FTQ with a slot free appends the narrowed tile as a FILLING slot with the
command's TAG and INFUSION, makes an earlier slot that still fills READY (DEDUCED, log entry 107) and clears the
set; with all 64 slots used it is held and raises the held bit. A residue mismatch of the tile, where the check
is on, poisons every element of it and sets RESIDUE. FTQ_SLOT_READY makes the oldest FILLING slot READY. -/
def Obligations.MatrixWords : Prop :=
  (∀ (s : State) (n : PotIx) (w : ColWord) (mop : Nat), mop < 3 → mmaReady s n mop w →
    (accVals (accOf (potOf s n).mxe (mxAcc w))).length = 16384 →
    runsTo (match mop with | 0 => .mma n | 1 => .mma24 n | _ => .mmabs n) s fun t =>
      onlyPot n s t ∧ opDone w (potOf s n).mxeSeq (potOf t n).mxeSeq ∧
      potOf t n = { potOf s n with mxe := (potOf t n).mxe, mxeSeq := (potOf t n).mxeSeq, queues := (potOf t n).queues,
                                   cup := (potOf t n).cup } ∧
      accOf (potOf t n).mxe (!mxAcc w) = accOf (potOf s n).mxe (!mxAcc w) ∧
      (accOf (potOf t n).mxe (mxAcc w)).touched = true ∧
      ∀ row col, row < 128 → col < 128 →
        nth (accVals (accOf (potOf t n).mxe (mxAcc w))) (128 * row + col) 0 =
          mmaValue (potOf s n).mxe w mop (mmaPop (issueState s n .mxe) n w (mmaNeed w mop) none).2 row col) ∧
  (∀ (old : BitVec 32) (neg : Bool) (m : Nat),
    (mxUpdate true true old (.fin neg m 0)).1.toInt =
      max (-2 ^ 31) (min (2 ^ 31 - 1) (old.toInt + (if neg then -(m : Int) else m)))) ∧
  (∀ (s : State) (n : PotIx) (w : ColWord), wordIssues s n .mxe w → ownOp 4 w = true → zeroOk w = true → 0 < wRepeat w →
    (potOf s n).mxeSeq.claims = [] →
    runsTo (.zero n) s fun t =>
      onlyPot n s t ∧ opDone w (potOf s n).mxeSeq (potOf t n).mxeSeq ∧
      (potOf t n).mxe = setAcc (potOf s n).mxe (mxAcc w) .reset) ∧
  (∀ (s : State) (n : PotIx) (w : ColWord), wordIssues s n .mxe w → ownOp 3 w = true → flushOk w = true → 0 < wRepeat w →
    (potOf s n).mxeSeq.claims = [] → mxQO w = 48 → mxQBias w = 63 →
    ((potOf s n).mxe.ftq.length < 64 →
      runsTo (.flush n false) s fun t =>
        onlyPot n s t ∧ opDone w (potOf s n).mxeSeq (potOf t n).mxeSeq ∧
        accOf (potOf t n).mxe (mxAcc w) = .reset ∧
        accOf (potOf t n).mxe (!mxAcc w) = accOf (potOf s n).mxe (!mxAcc w) ∧
        ∃ x : FtqSlot, (potOf t n).mxe.ftq = (potOf s n).mxe.ftq.map (fun f => if f.state = .filling then { f with state := .ready } else f) ++ [x] ∧ x.state = .filling ∧
          x.tag = (potOf s n).mxeSeq.tag ∧ x.infusion = (potOf s n).mxeSeq.infusion ∧ x.ofmt = BitVec.ofNat 4 (mxOfmt w) ∧
          x.data = (flushCompute (potOf s n).mxe w [] false).1.data ∧ x.consumed = 0) ∧
    (64 ≤ (potOf s n).mxe.ftq.length →
      runsTo (.flush n false) s fun t =>
        onlyPot n s t ∧ (potOf t n).mxe = { (potOf s n).mxe with ftqHeld := true } ∧
        (potOf t n).mxeSeq.pc = (potOf s n).mxeSeq.pc ∧ (potOf t n).mxeSeq.issued = (potOf s n).mxeSeq.issued)) ∧
  (∀ (s : State) (n : PotIx) (pre post : List FtqSlot) (x : FtqSlot), (potOf s n).mxe.ftq = pre ++ x :: post →
    (∀ y ∈ pre, y.state ≠ .filling) → x.state = .filling →
    runsTo (.ftqSlotReady n) s fun t =>
      onlyPot n s t ∧ potOf t n = { potOf s n with mxe := (potOf t n).mxe } ∧
      (potOf t n).mxe = { (potOf s n).mxe with ftq := pre ++ { x with state := .ready } :: post }) ∧
  (∀ (s : State) (n : PotIx) (w : ColWord), wordIssues s n .mxe w → ownOp 3 w = true → flushOk w = true → 0 < wRepeat w →
    (potOf s n).mxeSeq.claims = [] → mxQO w = 48 → mxQBias w = 63 → (potOf s n).mxe.ftq.length < 64 →
    (bitAt (potOf s n).mxe.ctl 32 = true →
      runsTo (.flush n true) s fun t =>
        (potOf t n).mxe.residue = true ∧ accOf (potOf t n).mxe (mxAcc w) = .reset ∧
        ∃ x : FtqSlot, (potOf t n).mxe.ftq.getLast? = some x ∧ x.state = .filling ∧
          x.data = (flushCompute (potOf s n).mxe w [] false).1.data ∧ ∀ b ∈ x.poison, b = true) ∧
    (bitAt (potOf s n).mxe.ctl 32 = false → exec (.flush n true) s = exec (.flush n false) s))

/-- RECIPE, REDUCE, SOFTMAX and GATE evaluate their elements and end their rows. A VXE word whose fields, recipe,
ends and rooms admit it and whose input ends give the operands completes. RECIPE adds the issue's elements, each
its recipe's value, to those of the word. REDUCE, SOFTMAX and GATE add the issue's elements to the row; at the
row's last issue the row buffer is empty again and a summary word, where the word names a destination, carries
the row's value: the reduction for REDUCE, VALUE and SUM of the softmax for SOFTMAX. GATE then adds the chosen
experts' entries to the dispatch queue under the current token and steps the token. DRAM, the other pots and
everything outside the pot, the trays and the free-value counter stay. -/
def Obligations.VectorWords : Prop :=
  (∀ (s : State) (n : PotIx) (w : ColWord) (i : VxIn), vxReady s n 0 w → vxInputs s n w i →
    runsTo (.recipe n) s fun t =>
      onlyPotTray n s t ∧ opDone w (potOf s n).vxeSeq (potOf t n).vxeSeq ∧
      (potOf t n).vxe.wordElems =
        (if (potOf s n).vxeSeq.issued = 0 then [] else (potOf s n).vxe.wordElems) ++
          (upto (vxG w)).map (vxEval (recipeOf (potOf s n).vxe (vxRecipe w)) w i ((potOf s n).vxeSeq.issued * vxG w)) ∧
      ((potOf s n).vxeSeq.issued + 1 < wRepeat w → (potOf t n).vxe.summaryOut = (potOf s n).vxe.summaryOut) ∧
      (vxOut w 0 = 63 → vxOut w 1 = 63 → t.tray = s.tray)) ∧
  (∀ (s : State) (n : PotIx) (w : ColWord) (i : VxIn) (vop : Nat), 1 ≤ vop → vop ≤ 3 → vxReady s n vop w → vxInputs s n w i →
    vxFinal (potOf s n).vxeSeq w = false →
    runsTo (match vop with | 1 => .reduce n | 2 => .softmax n | _ => .gate n) s fun t =>
      onlyPotTray n s t ∧ t.tray = s.tray ∧ opDone w (potOf s n).vxeSeq (potOf t n).vxeSeq ∧
      (potOf t n).vxe.rowBuf = vxRow s n w i ∧ (potOf t n).vxe.summaryOut = (potOf s n).vxe.summaryOut ∧
      (potOf t n).vxe.dispatchQ = (potOf s n).vxe.dispatchQ ∧ (potOf t n).vxe.token = (potOf s n).vxe.token) ∧
  (∀ (s : State) (n : PotIx) (w : ColWord) (i : VxIn), vxFinal (potOf s n).vxeSeq w = true → vxInputs s n w i →
    let r := recipeOf (potOf s n).vxe (vxRecipe w)
    let v := activeVals (vxRow s n w i)
    (vxReady s n 1 w →
      runsTo (.reduce n) s fun t =>
        onlyPotTray n s t ∧ opDone w (potOf s n).vxeSeq (potOf t n).vxeSeq ∧ (potOf t n).vxe.rowBuf = [] ∧
        (vxSumDst w ≠ 0 → ∃ x : SummaryOut, (potOf t n).vxe.summaryOut = (potOf s n).vxe.summaryOut ++ [x] ∧
          x.dst.toNat = vxSumDst w ∧
          fieldB x.word.word 0 32 = ((reduceRow (recipeKind r) v).getD (reduceEmpty (recipeKind r))).1) ∧
        (vxSumDst w = 0 → (potOf t n).vxe.summaryOut = (potOf s n).vxe.summaryOut)) ∧
    (vxReady s n 2 w →
      runsTo (.softmax n) s fun t =>
        onlyPotTray n s t ∧ opDone w (potOf s n).vxeSeq (potOf t n).vxeSeq ∧ (potOf t n).vxe.rowBuf = [] ∧
        (vxSumDst w ≠ 0 → ∃ x : SummaryOut, (potOf t n).vxe.summaryOut = (potOf s n).vxe.summaryOut ++ [x] ∧
          x.dst.toNat = vxSumDst w ∧ fieldB x.word.word 0 32 = (softmaxRow v).value ∧
          fieldB x.word.word 64 32 = (softmaxRow v).sum)) ∧
    (vxReady s n 3 w → (potOf s n).vxe.dispatchQ.length + vxKgate w ≤ 4096 →
      runsTo (.gate n) s fun t =>
        onlyPotTray n s t ∧ opDone w (potOf s n).vxeSeq (potOf t n).vxeSeq ∧ (potOf t n).vxe.rowBuf = [] ∧
        (potOf t n).vxe.token = (potOf s n).vxe.token + 1 ∧
        (∃ bad, (potOf t n).vxe.dispatchQ = (potOf s n).vxe.dispatchQ ++
          (gateEntries (potOf s n).vxe.token (gateChoose (vxKgate w) v)
            (gateWeights (recipeGnorm r) v (gateChoose (vxKgate w) v))).map fun e => (e, bad)) ∧
        (vxOut w 0 = 63 → t.tray = s.tray)))

/-- Summary words reach their queue, VXE_SUMQ pops, and recipe entries are written. SUMMARY_WORD_PUSH moves the
oldest summary word on its way to its sequencer's queue or to the brewers' one. VXE_SUMQ_POP by a requester that
reaches the pot returns bits 192 to 255 of the head and pops it, and on an empty queue reads zero and sets
EMPTY_READ. RECIPE_WRITE writes the entry while the VXE runs no command and otherwise leaves it to the program
boundary. Nothing else of memory changes. -/
def Obligations.SummaryWordsAndRecipes : Prop :=
  (∀ (s : State) (n : PotIx) (x : SummaryOut) (xs : List SummaryOut), potOn s n = true →
    (potOf s n).vxe.summaryOut = x :: xs →
    runsTo (.summaryWordPush n) s fun t =>
      onlyPot n s t ∧ (potOf t n).vxe.summaryOut = xs ∧
      (x.dst = 1 → (potOf t n).vxeSeq.summary = (potOf s n).vxeSeq.summary ++ [x.word]) ∧
      (x.dst = 2 → (potOf t n).mxeSeq.summary = (potOf s n).mxeSeq.summary ++ [x.word]) ∧
      (x.dst = 3 → (potOf t n).sfeSeq.summary = (potOf s n).sfeSeq.summary ++ [x.word]) ∧
      (x.dst = 4 → (potOf t n).vxe.brewerQ = (potOf s n).vxe.brewerQ ++ [x.word])) ∧
  (∀ (s : State) (who : Requester) (n : PotIx), reaches who (.pot n) = true → potOn s n = true →
    (∀ x xs, (potOf s n).vxe.brewerQ = x :: xs → latched s who (potReg n 0x4100) = none →
      runsTo (.vxeSumqPop who n) s fun t =>
        (potOf t n).vxe.brewerQ = xs ∧ t.out.reg = some (who, BitVec.ofNat 64 (fieldN x.word 192 64)) ∧ sameBytes s t) ∧
    ((potOf s n).vxe.brewerQ = [] →
      runsTo (.vxeSumqPop who n) s fun t =>
        (potOf t n).vxe.emptyRead = true ∧ (potOf t n).vxe.brewerQ = [] ∧ t.out.reg = some (who, 0) ∧ sameBytes s t)) ∧
  (∀ (s : State) (who : Requester) (n : PotIx) (entry : BitVec 8) (h : BitVec 32) (ops : List (BitVec 32)),
    reaches who (.pot n) = true → potOn s n = true → ops.length = 64 →
    ((potOf s n).vxeSeq.running = false →
      runsTo (.recipeWrite who n entry (h :: ops)) s fun t =>
        (∀ k, recipeOf (potOf t n).vxe k = if k = entry.toNat then ⟨h, ops⟩ else recipeOf (potOf s n).vxe k) ∧ sameBytes s t) ∧
    ((potOf s n).vxeSeq.running = true →
      runsTo (.recipeWrite who n entry (h :: ops)) s fun t =>
        (potOf t n).vxe.recipes = (potOf s n).vxe.recipes ∧
        tfind (potOf t n).vxe.recipePend entry.toNat = some ⟨h, ops⟩ ∧ sameBytes s t))

/-- GATHER_COO, GATHER_CSR, SCATTER, DISPATCH and COMBINE at issue. Where descriptor, fields and ends admit the
word: GATHER_COO pops one index and adds a ticket whose row is zeros for NONE or an index outside, and the row's
bytes for a row in a tray of the module; GATHER_CSR pops one bag and adds a ticket that folds its rows in FMT,
and of a bag without rows the issue is over at once with no row; SCATTER without coalescing writes nothing for
NONE or an index outside, and overwrites a row in a tray with the bytes popped, no other byte; DISPATCH takes
one token from the dispatch queue and counts it, a single valid entry with room going to its expert's next slot
as a route record and one without room being dropped; COMBINE of an empty slot pops its row and writes nothing,
and of a filled one changes no byte outside its token's row. -/
def Obligations.SiftWords : Prop :=
  (∀ (s : State) (n : PotIx) (w : ColWord), sfReady s n 1 w →
    let p := potOf s n
    let d := sfDescOf p (sfTbl w)
    let x := sfPop (sfBegin n (issueState s n .sfe)) n (sfIdx w) 4
    let i := natOfBytes x.2.1
    rowTableOk d = true → sfPopMay p [(sfIdx w, 4)] = true → mayPush p 2 (sfDst w) = true →
    sfPopReady p [(sfIdx w, 4)] = true → sfRoom p (sfDst w) (32 * sdRowW d) = true → sfMayRead p.sfe (sdRowW d) = true →
    x.2.2.any id = false →
    (ixKind d i ≠ .row → (ixKind d i = .outside → sdFault d = false) →
      runsTo (.gatherCoo n) s fun t =>
        onlyPot n s t ∧ opDone w p.sfeSeq (potOf t n).sfeSeq ∧
        (potOf t n).sfe.tickets = p.sfe.tickets ++
          [⟨p.sfe.nextTicket, BitVec.ofNat 6 (sfDst w), none, [zeroRow (sdRowW d)], 32 * sdRowW d, false, false, []⟩]) ∧
    (∀ a, ixKind d i = .row → sfAt s d i = .tray a → sfCoalesce w = false →
      (∀ k, k < sdRowW d → potOn s (BitVec.ofNat 5 ((a + 32 * k) / 2 ^ 27)) = true) →
      runsTo (.gatherCoo n) s fun t =>
        onlyPot n s t ∧ opDone w p.sfeSeq (potOf t n).sfeSeq ∧
        (potOf t n).sfe.tickets = p.sfe.tickets ++
          [⟨p.sfe.nextTicket, BitVec.ofNat 6 (sfDst w), none,
            [rowOfPieces ((upto (sdRowW d)).map fun k => (trayRead s (a + 32 * k) 32, (trayPoison s (a + 32 * k) 32).any id))],
            32 * sdRowW d, false, false, []⟩])) ∧
  (∀ (s : State) (n : PotIx) (w : ColWord) (b : SfBag), sfReady s n 0 w →
    let p := potOf s n
    let d := sfDescOf p (sfTbl w)
    let room := 32 * ceilDiv (4 * sfE w d) 32
    rowTableOk d = true → sfPopMay p ([(sfIdx w, 0), (sfOff w, 0)] ++ (if sfWt w = 63 then [] else [(sfWt w, 0)])) = true →
    mayPush p 2 (sfDst w) = true → sfBagPop n w d (issueState s n .sfe) = .ok b → sfRoom p (sfDst w) room = true →
    p.sfe.walk = none → (∀ y ∈ p.sfe.tickets, y.id ≠ p.sfe.nextTicket) →
    runsTo (.gatherCsr n) s fun t =>
      t.tray = s.tray ∧ (potOf t n).sfe.prevOff = b.off ∧ (potOf t n).sfe.nextTicket = p.sfe.nextTicket + 1 ∧
      ∃ x : SfeTicket, (potOf t n).sfe.tickets = p.sfe.tickets ++ [x] ∧ x.fold = some (BitVec.ofNat 4 (sfFmt w)) ∧
        x.room = room ∧ x.returned = false ∧ x.queue = BitVec.ofNat 6 (sfDst w) ∧
        ((∀ v ∈ b.ix, ixKind d v.1 ≠ .row) → x.rows = [] ∧ onlyPot n s t ∧ opDone w p.sfeSeq (potOf t n).sfeSeq)) ∧
  (∀ (s : State) (n : PotIx) (w : ColWord), State.memoryOk s → sfReady s n 2 w →
    let p := potOf s n
    let d := sfDescOf p (sfTbl w)
    let ends := [(sfIdx w, 4), (sfDst w, 32 * sdRowW d)] ++ (if sfWt w = 63 then [] else [(sfWt w, 4)])
    let x := sfPop (sfBegin n (issueState s n .sfe)) n (sfIdx w) 4
    let i := natOfBytes x.2.1
    rowTableOk d = true → sfPopMay p ends = true → sfPopReady p ends = true → x.2.2.any id = false →
    sfCoalesce w = false → p.sfe.window = [] → p.sfe.scatter = [] →
    (ixKind d i ≠ .row → (ixKind d i = .outside → sdFault d = false) →
      runsTo (.scatter n) s fun t => onlyPot n s t ∧ opDone w p.sfeSeq (potOf t n).sfeSeq) ∧
    (∀ a, ixKind d i = .row → sfAt s d i = .tray a → sfAccum w = false →
      (∀ k, k < sdRowW d → potOn s (BitVec.ofNat 5 ((a + 32 * k) / 2 ^ 27)) = true) →
      runsTo (.scatter n) s fun t =>
        t.dram = s.dram ∧ opDone w p.sfeSeq (potOf t n).sfeSeq ∧ (∀ m, m ≠ n → potOf t m = potOf s m) ∧
        (∀ j, j < 32 * sdRowW d → cellGet trayDefault t.tray (a + j) = nth (sfPop x.1 n (sfDst w) (32 * sdRowW d)).2.1 j 0) ∧
        ∀ c, c < a ∨ a + 32 * sdRowW d ≤ c → cellGet trayDefault t.tray c = cellGet trayDefault s.tray c)) ∧
  (∀ (s : State) (n : PotIx) (w : ColWord) (es rest : List (BitVec 128 × Bool)), State.memoryOk s → sfReady s n 4 w →
    let p := potOf s n
    let d := sfDescOf p (sfTbl w)
    let b := if p.sfeSeq.issued = 0 then Batch.reset else p.sfe.batch
    routeOk d = true → mayPush p 2 (sfDst w) = true → nextToken p.vxe.dispatchQ = some (es, rest) →
    es.any Prod.snd = false → p.sfeSeq.issued + 1 < wRepeat w →
    runsTo (.dispatch n) s fun t =>
      t.dram = s.dram ∧ (∀ m, m ≠ n → potOf t m = potOf s m) ∧ opDone w p.sfeSeq (potOf t n).sfeSeq ∧
      (potOf t n).vxe.dispatchQ = rest ∧ (potOf t n).sfe.batch.tokens = b.tokens + 1 ∧
      ∀ e, es = [(e, false)] → deValid e = true → deExpert e ≤ sfNexp w →
        ((tget b.fill (deExpert e) 0).toNat < sfCap w →
          (potOf t n).sfe.batch.accepted = b.accepted + 1 ∧
          tget (potOf t n).sfe.batch.fill (deExpert e) 0 = tget b.fill (deExpert e) 0 + 1 ∧
          ∀ a, a = routeBase d + 0x440 + 16 * (deExpert e * sfCap w + (tget b.fill (deExpert e) 0).toNat) →
            potOn s (BitVec.ofNat 5 (a / 2 ^ 27)) = true →
            trayRead t a 16 = routeRecord (fieldN e 0 32) (fieldN e 64 32) (fieldN e 40 3) true ∧
            ∀ c, c < a ∨ a + 16 ≤ c → cellGet trayDefault t.tray c = cellGet trayDefault s.tray c) ∧
        (sfCap w ≤ (tget b.fill (deExpert e) 0).toNat →
          (potOf t n).sfe.batch.dropped = b.dropped + 1 ∧ (potOf t n).sfe.batch.lost = b.lost + 1 ∧ t.tray = s.tray)) ∧
  (∀ (s : State) (n : PotIx) (w : ColWord), State.memoryOk s → sfReady s n 5 w →
    let p := potOf s n
    let d := sfDescOf p (sfTbl w)
    let td := sfDescOf p (sfTbl w + 1)
    let ends := [(sfDst w, 32 * sdRowW td)]
    let h := trayPieces 1 (issueState s n .sfe) (routeBase d)
    let slotAt := routeBase d + 0x440 + 16 * p.sfeSeq.issued
    let r := trayPieces 1 h.1 (slotAt / 32 * 32)
    let rec_ := (pieceBytes r.2).drop (slotAt % 32)
    let token := natOfBytes (rec_.take 4)
    routeOk d = true → rowTableOk td = true → sfDescSound s n (sfTbl w + 1) = true → sfPopMay p ends = true →
    sfPopReady p ends = true → (h.2 ++ r.2).any Prod.snd = false →
    wRepeat w = (sfNexp w + 1) * natOfBytes (((pieceBytes h.2).drop 30).take 2) →
    ((nth rec_ 8 0).getLsbD 3 = false →
      runsTo (.combine n) s fun t => onlyPot n s t ∧ opDone w p.sfeSeq (potOf t n).sfeSeq) ∧
    (∀ a, (nth rec_ 8 0).getLsbD 3 = true → ixKind td token = .row → sfAt s td token = .tray a →
      runsTo (.combine n) s fun t =>
        t.dram = s.dram ∧ (∀ m, m ≠ n → potOf t m = potOf s m) ∧ opDone w p.sfeSeq (potOf t n).sfeSeq ∧
        ∀ c, c < a ∨ a + 32 * sdRowW td ≤ c → cellGet trayDefault t.tray c = cellGet trayDefault s.tray c))

/-- Rows return in issue order, and BAGSUM_LU sums bags at the leaf units. SFE_ROW_RETURN of a ticket whose reads
have all returned and which the walker has left, behind one that has not returned, marks it returned and pushes
nothing; of the first ticket it pushes every returned one at the front. BAGSUM_LU with free scratch slots and
room pushes one leaf command for each slot it fills, notes the bag and its busy slots, and writes no byte
outside the pot's tray. BAG_LEAF_FOLD of the oldest bag whose commands have completed and which the walker has
left removes the bag, frees its slots and returns its row. DRAM is as before. -/
def Obligations.SiftRowsAndBags : Prop :=
  (∀ (s : State) (n : PotIx) (pre post : List SfeTicket) (x : SfeTicket), potOn s n = true →
    (potOf s n).sfe.tickets = pre ++ x :: post → (∀ y ∈ pre ++ post, y.id ≠ x.id) → x.bag = false → x.returned = false →
    (∀ r ∈ x.rows, r.wait = none) → (∀ k, (potOf s n).sfe.walk = some k → k.ticket ≠ x.id) →
    ((∀ y ∈ pre.head?, y.returned = false) → pre ≠ [] →
      runsTo (.sfeRowReturn n x.id) s fun t =>
        onlyPot n s t ∧ ∃ out, (potOf t n).sfe.tickets = pre ++ { x with returned := true, out := out, rows := [] } :: post ∧
          ∀ r, x.fold = none → x.rows = [r] → out = (chunks 32 (r.bytes.length / 32 + 1) r.bytes).zip r.poison) ∧
    (pre = [] →
      runsTo (.sfeRowReturn n x.id) s fun t =>
        t.dram = s.dram ∧ (∀ m, m ≠ n → potOf t m = potOf s m) ∧
        (potOf t n).sfe.tickets = post.dropWhile SfeTicket.returned)) ∧
  (∀ (s : State) (n : PotIx) (w : ColWord) (b : SfBag), State.memoryOk s → sfReady s n 3 w →
    let p := potOf s n
    let d := sfDescOf p (sfTbl w)
    let cuts := bagCuts (bagEnts n w d b).1
    rowTableOk d = true → sdModule d = true → sfE w d ≤ 128 → 1 ≤ sdScratchN d → sdScratchN d ≤ 128 → sdScratch d % 1024 = 0 →
    sfPopMay p ([(sfIdx w, 0), (sfOff w, 0)] ++ (if sfWt w = 63 then [] else [(sfWt w, 0)])) = true →
    mayPush p 2 (sfDst w) = true → sfBagPop n w d (issueState s n .sfe) = .ok b → sfRoom p (sfDst w) 512 = true →
    cuts.length ≤ (freeSlots p.sfe d).length → lucDepth p + cuts.length ≤ 128 → p.leafWait = [] → cuts ≠ [] →
    p.sfe.walk = none → (∀ y ∈ p.sfe.bags, y.ticket ≠ p.sfe.nextTicket) →
    runsTo (.bagsumLu n) s fun t =>
      t.dram = s.dram ∧ (∀ m, m ≠ n → potOf t m = potOf s m) ∧ opDone w p.sfeSeq (potOf t n).sfeSeq ∧
      (potOf t n).lucq.length = p.lucq.length + cuts.length ∧
      (potOf t n).sfe.bags = p.sfe.bags ++
        [⟨p.sfe.nextTicket, (freeSlots p.sfe d).take cuts.length, cuts.length, [], none, false⟩] ∧
      (potOf t n).sfe.scratchBusy = p.sfe.scratchBusy ++ (freeSlots p.sfe d).take cuts.length ∧
      (potOf t n).sfe.tickets = p.sfe.tickets ++ [⟨p.sfe.nextTicket, BitVec.ofNat 6 (sfDst w), none, [], 512, true, false, []⟩] ∧
      ∀ a, a < n.toNat * 2 ^ 27 ∨ (n.toNat + 1) * 2 ^ 27 ≤ a → cellGet trayDefault t.tray a = cellGet trayDefault s.tray a) ∧
  (∀ (s : State) (n : PotIx) (pre post : List BagRun) (b : BagRun), potOn s n = true →
    (potOf s n).sfe.bags = pre ++ b :: post → (∀ y ∈ pre, y.left ≠ 0) → (∀ y ∈ pre ++ post, y.ticket ≠ b.ticket) → b.left = 0 →
    (∀ k, (potOf s n).sfe.walk = some k → k.ticket ≠ b.ticket) →
    runsTo (.bagLeafFold n) s fun t =>
      t.dram = s.dram ∧ (∀ m, m ≠ n → potOf t m = potOf s m) ∧ (potOf t n).sfe.bags = pre ++ post ∧
      (∀ k, k ∈ (potOf t n).sfe.scratchBusy ↔ k ∈ (potOf s n).sfe.scratchBusy ∧ k ∉ b.slots))

/-- The leaf operations without a column access change their LU alone. An LU at such a microword, with nothing
pending that its interlock waits for, does what the operation says to its latches, accumulators, scores,
counters and pointers, then goes to the next repeat or where SEQ leads; no other LU, no other part of the pot
but its event counts and, where PRE closes a row, the bank of the LU, and no memory changes. NOP does nothing;
MOVL, ZL and LDQ set a latch; ADDL and MULL give the lanes rounded to FMT; MACL accumulates and ZA clears; TREE
sums a set into its score, not valid where the set is untouched, and clears it; TKINS inserts a valid score,
counts one that is a NaN and passes over one that is not valid; NXI takes the next entry of this bank from the
operand, or goes on to the next word where none is left; NXR advances the row and obeys SEQ up to ROW_LAST;
SETLC, CB and SETAP load their registers; PUT emits and clears its source where its kind matches RED: a set, a
valid score, the count or the top-K list; without EMIT or with a score that is not valid it does nothing. An
ADDL, MULL or MACL whose residue disagrees stops its command with cause HW and the LU is DEAD. A word with SEQ 3
on an LU whose column queue is empty ends the command, which gives its answer. -/
def Obligations.LeafLocalOperations : Prop :=
  luWorks .luNop 0 (fun _ _ => True) (fun _ _ _ _ l => l) ∧
  luWorks .movl 0x10 (fun l u => latchPending l (uLa u + l.rep) = false ∧ latchPending l (uLd u + l.rep) = false)
    (fun _ _ u _ l => setLatch l (uLd u + l.rep) (latchOf l (uLa u + l.rep))) ∧
  luWorks .zl 0x11 (fun l u => latchPending l (uLd u + l.rep) = false) (fun _ _ u _ l => setLatch l (uLd u + l.rep) ⟨0, false⟩) ∧
  luWorks .ldq 0x12 (fun l u => latchPending l (uLd u + l.rep) = false)
    (fun p i u _ l => setLatch l (uLd u + l.rep) (opndQ (luSlotOf p i (l.cmd.any LeafCmd.slot)) (uHalf u) (uOpw u + l.rep))) ∧
  (luWorks (fun n i => .addl n i false) 0x13
      (fun l u => latchPending l (uLa u + l.rep) = false ∧ latchPending l (uLb u + l.rep) = false ∧
        latchPending l (uLd u + l.rep) = false ∧ (uRnd u == 1 && lfsrPending l) = false)
      (fun _ _ u _ l => (latchResult l u (uLd u + l.rep) (laneOps fvAdd l u)
        ((latchOf l (uLa u + l.rep)).poison || (latchOf l (uLb u + l.rep)).poison)).1) ∧
    luWorks (fun n i => .mull n i false) 0x14
      (fun l u => latchPending l (uLa u + l.rep) = false ∧ latchPending l (uLb u + l.rep) = false ∧
        latchPending l (uLd u + l.rep) = false ∧ (uRnd u == 1 && lfsrPending l) = false)
      (fun _ _ u _ l => (latchResult l u (uLd u + l.rep) (laneOps fvMul l u)
        ((latchOf l (uLa u + l.rep)).poison || (latchOf l (uLb u + l.rep)).poison)).1)) ∧
  luWorks (fun n i => .macl n i false) 0x15
    (fun l u => accPending l (uAcc u) = false ∧ latchPending l (uLa u + l.rep) = false ∧ latchPending l (uLb u + l.rep) = false ∧
      ((luAccOf l (uAcc u)).touched = true → (luAccOf l (uAcc u)).intMode = fmtIsInt (uFmt u)))
    (fun _ _ u _ l =>
      let r := accumulate (luAccOf l (uAcc u)) (fmtIsInt (uFmt u)) (uSat u) (l.rep * (256 / elemBits (uFmt u)))
        ((laneOps fvMul l u).map fun x => UElem.mk x.1 x.2)
        ((latchOf l (uLa u + l.rep)).poison || (latchOf l (uLb u + l.rep)).poison) none
      luEvents (setLuAcc l (uAcc u) r.1) r.2) ∧
  luWorks .za 0x16 (fun l u => accPending l (uAcc u) = false) (fun _ _ u _ l => setLuAcc l (uAcc u) LuAcc.reset) ∧
  (luWorks .tree 0x20
      (fun l u => accPending l (uAcc u) = false ∧ (luAccOf l (uAcc u)).touched = true ∧
        (uFmt u = 13 → (luAccOf l (uAcc u)).intMode = true))
      (fun _ _ u _ l =>
        let a := luAccOf l (uAcc u)
        let r := treeOf (uSat u) a
        luEvents (setLuAcc (setLuSc l (uAcc u) ⟨r.1, a.origin.getD 0, true, a.poison⟩) (uAcc u) LuAcc.reset) r.2) ∧
    luWorks .tree 0x20
      (fun l u => accPending l (uAcc u) = false ∧ (luAccOf l (uAcc u)).touched = false ∧ uFmt u ≠ 13)
      (fun _ _ u _ l => setLuAcc (setLuSc l (uAcc u) ⟨0, 0, false, false⟩) (uAcc u) LuAcc.reset)) ∧
  (luWorks .tkins 0x21 (fun l u => (luScOf l (uAcc u)).valid = true ∧ f32IsNan (luScOf l (uAcc u)).score = false)
      (fun _ _ u raw l => { l with
        tkPoison := l.tkPoison || (luScOf l (uAcc u)).poison,
        tk := (tkInsert ((luScOf l (uAcc u)).score, (luScOf l (uAcc u)).addr) l.tk).take (lcK raw) }) ∧
    luWorks .tkins 0x21 (fun l u => (luScOf l (uAcc u)).valid = true ∧ f32IsNan (luScOf l (uAcc u)).score = true)
      (fun _ _ u _ l => luEvents { l with tkPoison := l.tkPoison || (luScOf l (uAcc u)).poison } ⟨1, 0⟩) ∧
    luWorks .tkins 0x21 (fun l u => (luScOf l (uAcc u)).valid = false) (fun _ _ _ _ l => l)) ∧
  (∀ (s : State) (n : PotIx) (i : LuIx) (u : Word64) (raw : BitVec 256) (k : Nat) (e : BitVec 64),
    luIssues s n i 0x22 u raw → uSeq u ≠ 3 →
    nxiSearch (luSlotOf (potOf s n) i.toNat ((luOf (potOf s n) i.toNat).cmd.any LeafCmd.slot))
      (luSeat (potOf s n) i.toNat).2.toNat (if uHalf u = 1 then 256 else 512) 513 (luOf (potOf s n) i.toNat).icnt =
        some (k, some e) →
    runsTo (.nxi n i) s fun t =>
      onlyLuEvents n i u s t ∧
      luOf (potOf t n) i.toNat = luNext { luOf (potOf s n) i.toNat with
        rowr := fieldB e 0 15, cbase := fieldB e 15 6, s1 := fieldB e 32 32, icnt := k + 1 } u raw true) ∧
  (∀ (s : State) (n : PotIx) (i : LuIx) (u : Word64) (raw : BitVec 256), luIssues s n i 0x22 u raw → uSeq u ≠ 3 →
    nxiSearch (luSlotOf (potOf s n) i.toNat ((luOf (potOf s n) i.toNat).cmd.any LeafCmd.slot))
      (luSeat (potOf s n) i.toNat).2.toNat (if uHalf u = 1 then 256 else 512) 513 (luOf (potOf s n) i.toNat).icnt = none →
    runsTo (.nxi n i) s fun t =>
      onlyLuEvents n i u s t ∧ luOf (potOf t n) i.toNat = luNext (luOf (potOf s n) i.toNat) u raw false) ∧
  (∀ (s : State) (n : PotIx) (i : LuIx) (u : Word64) (raw : BitVec 256), luIssues s n i 0x23 u raw → uSeq u ≠ 3 →
    runsTo (.nxr n i) s fun t =>
      onlyLuEvents n i u s t ∧
      luOf (potOf t n) i.toNat = luNext
        { luOf (potOf s n) i.toNat with rowr := (luOf (potOf s n) i.toNat).rowr + 1, cbase := 0 } u raw
        (decide ((luOf (potOf s n) i.toNat).rowr.toNat + 1 ≤ (lcRowLast raw).toNat))) ∧
  luWorks .setlc 0x24 (fun _ _ => True) (fun _ _ u _ l => { l with mlc := BitVec.ofNat 8 (uImm u) }) ∧
  luWorks .cb 0x25 (fun _ _ => True) (fun _ _ u _ l => { l with cbase := BitVec.ofNat 6 (l.cbase.toNat + uImm u) }) ∧
  luWorks .setap 0x26 (fun l _ => apPending l = false)
    (fun _ _ _ _ l => { l with ap := { l.ap with row := l.auxr &&& 0x7FFF, col := 0, segment := false } }) ∧
  (luWorks .put 0x27 (fun l u => uEmit u = false ∨ fieldN u 49 2 = 1 ∧ (luScOf l (uAcc u)).valid = false) (fun _ _ _ _ l => l) ∧
    (∀ (s : State) (n : PotIx) (i : LuIx) (u : Word64) (raw : BitVec 256), luIssues s n i 0x27 u raw → uSeq u ≠ 3 → uEmit u = true →
      let l := luOf (potOf s n) i.toNat
      let a := luAccOf l (uAcc u)
      let sc := luScOf l (uAcc u)
      let gives := fun (l1 : Lu) => runsTo (.put n i) s fun t =>
        onlyLuEvents n i u s t ∧ luOf (potOf t n) i.toNat = luNext l1 u raw true
      (fieldN u 49 2 = 0 → lcRed raw = 1 → accPending l (uAcc u) = false →
        gives (setLuAcc (luEmit l raw (putVector a) a.poison) (uAcc u) LuAcc.reset)) ∧
      (fieldN u 49 2 = 1 → lcRed raw = 2 ∨ lcRed raw = 3 → sc.valid = true →
        gives (setLuSc (luEmit l raw (.scalar sc.score) sc.poison) (uAcc u) ⟨0, 0, false, false⟩)) ∧
      (fieldN u 49 2 = 2 → lcRed raw = 4 → cntPending l = false →
        gives { luEmit l raw (.count l.cnt) l.cntPoison with cnt := 0, cntPoison := false }) ∧
      (fieldN u 49 2 = 3 → lcRed raw = 5 →
        gives { luEmit l raw (.topk l.tk) l.tkPoison with tk := [], tkPoison := false }))) ∧
  (∀ (s : State) (n : PotIx) (i : LuIx) (u : Word64) (raw : BitVec 256), luIssues s n i 0 u raw → uSeq u = 3 →
    (luOf (potOf s n) i.toNat).rep + 1 = luRepeats u raw → (luOf (potOf s n) i.toNat).colq = [] →
    (∀ c, (luOf (potOf s n) i.toNat).cmd = some c → c.shadow = none) →
    runsTo (.luNop n i) s fun t =>
      (luOf (potOf t n) i.toNat).cmd = none ∧ (luOf (potOf t n) i.toNat).openRow = none ∧
      (potOf t n).runs = giveAnswer (luAnswer i.toNat (luOf (potOf s n) i.toNat)) (potOf s n).runs ∧ sameBytes s t) ∧
  (∀ (s : State) (n : PotIx) (i : LuIx) (u : Word64) (raw : BitVec 256),
    let l := luOf (potOf s n) i.toNat
    let stops := fun (c : Instr) => runsTo c s fun t =>
      (luOf (potOf t n) i.toNat).fault = true ∧ (luOf (potOf t n) i.toNat).cause = 8 ∧ (luOf (potOf t n) i.toNat).dead = true
    latchPending l (uLa u + l.rep) = false → latchPending l (uLb u + l.rep) = false →
    (latchPending l (uLd u + l.rep) = false → (uRnd u == 1 && lfsrPending l) = false →
      (luIssues s n i 0x13 u raw → stops (.addl n i true)) ∧ (luIssues s n i 0x14 u raw → stops (.mull n i true))) ∧
    (accPending l (uAcc u) = false → ((luAccOf l (uAcc u)).touched = true → (luAccOf l (uAcc u)).intMode = fmtIsInt (uFmt u)) →
      luIssues s n i 0x15 u raw → stops (.macl n i true)))

/-- A column operation enters the column queue, and LU_COLUMN_ACCESS executes the oldest entry. An LU at a column
operation with fewer than four accesses pending, none of its interlocks pending, its unit and row in range, and
its row open or to be opened now, leaves the row open, puts one access with its place and the sources read at
issue into the queue, and goes on; COLPTR takes the place from AP and advances it. The first access to a row
under MX or with bs = 1 enters the read of the row's scale words or header before it; until that header has
returned the repeat waits, and an access to a block that the header shows absent is not made and leaves AP as it
is. LU_COLUMN_ACCESS gives the oldest access one column slot: a write stores its word and leaves the queue; a
read takes its next word and, with its last one, leaves the queue: scales or header are kept, and the operation
takes its unit, RDL into its latch, MACO as products with its operand into its set, CMPC into its count. A read
of MACO, ADDS, AXPY or SCL whose residue disagrees stops the command with cause HW and the LU is DEAD; another
has no residue. LU_LIMIT_TIMEOUT stops a running command with TIMEOUT. An issue changes no LU but this one, no
bank but its own, and no memory. -/
def Obligations.LeafColumnOperations : Prop :=
  (∀ (s : State) (n : PotIx) (i : LuIx) (u : Word64) (raw : BitVec 256) (code : Nat), 1 ≤ code → code ≤ 10 →
    luIssues s n i code u raw → uSeq u ≠ 3 →
    let p := potOf s n
    let l := luOf p i.toNat
    let mx := luFmtOf (uFmt u) code
    let bs := uopBs code && uBs u
    let row := if uColptr u then l.ap.row.toNat else l.rowr.toNat
    let unit := if uColptr u then l.ap.col.toNat else l.cbase.toNat + uCol u + l.rep
    let word := if mx then unit * unitWords mx (uFmt u) else unit
    colPending l < 4 → (uColptr u = true ∨ code = 10 → apPending l = false) →
    (code = 2 → latchPending l (uLa u + l.rep) = false) →
    (code = 4 ∨ code = 5 → ∀ m ∈ setMode l (uAcc u), m = fmtIsInt (uFmt u)) →
    (uColptr u = true → row < 32768) →
    (uColptr u = false → unit < unitsPerRow mx (uFmt u) ∧ (lcRowFirst raw).toNat ≤ row ∧ row ≤ (lcRowLast raw).toNat) →
    (l.openRow = some (BitVec.ofNat 15 row) ∨
      (l.openRow ≠ some (BitVec.ofNat 15 row) ∧ l.colq = [] ∧ (uAct u || uColptr u) = true ∧ luDeferred s n i.toNat row = false ∧
        tagSound s n i.toNat row)) →
    let l1 := if l.openRow = some (BitVec.ofNat 15 row) then l
      else { l with openRow := some (BitVec.ofNat 15 row), scales := none, occ := none }
    let acc := fun (k : ColKind) =>
      (⟨k, [], u, l.rep, BitVec.ofNat 15 row, unit, colSource l u raw (luSlotOf p i.toNat (l.cmd.any LeafCmd.slot)), l.s1, l.s0⟩ : ColAcc)
    let l2 := match rowOwes l1 mx bs row with
      | some k => { l1 with colq := l1.colq ++ [acc k] }
      | none => l1
    (bs = true → 4 ≤ word → ∀ o ∈ l2.occ, o.2.2 = false) →
    runsTo (columnOp code n i) s fun t =>
      onlyLuRow n i s t ∧
      (l.openRow ≠ some (BitVec.ofNat 15 row) → (luOf (potOf t n) i.toNat).colq ≠ [] →
        (luBank t n i.toNat).openRow = some (BitVec.ofNat 15 row)) ∧
      luOf (potOf t n) i.toNat =
        if headerMissing l2 bs row then l2
        else if bs && blockAbsent l2 word then luNext l2 u raw true
        else luNext { l2 with
          colq := l2.colq ++ [acc .data]
          ap := if uColptr u then apNext l2.ap (lcRowFirst raw) (lcRowLast raw) (code == 2 || code == 3) else l2.ap } u raw true) ∧
  (∀ (s : State) (n : PotIx) (i : LuIx) (a : ColAcc) (rest : List ColAcc) (c : LeafCmd),
    let p := potOf s n
    let l := luOf p i.toNat
    let write := a.kind = .data ∧ (uUop a.uword = 2 ∨ uUop a.uword = 3 ∨ uUop a.uword = 10)
    i.toNat < Config.lusPerPot → l.cmd = some c → l.colq = a :: rest → l.done = false → potOn s n = true →
    chanServes s n (luSeat p i.toNat).1 = true → (luBank s n i.toNat).openRow = some a.row →
    (write →
      runsTo (.luColumnAccess n i false) s fun t =>
        luOf (potOf t n) i.toNat = luClosed { l with colq := rest } ∧ t.tray = s.tray ∧
        t.dram = (writeWordAt (luColumnNoted s n i.toNat false) (luWordPlace p n i.toNat a.row.toNat (a.unit % 64)) (luWho l)
          (bytesOfWord a.latch.val) a.latch.poison).dram) ∧
    (¬ write →
      let r := readWordAt (luColumnNoted s n i.toNat true) (luWordPlace p n i.toNat a.row.toNat (nth (accCols a) a.got.length 0)) (luWho l)
      let got := a.got ++ [(r.2.bytes, r.2.poison)]
      let bytes := (got.map Prod.fst).flatten
      let bad := got.any Prod.snd
      let gives := fun (l1 : Lu) => runsTo (.luColumnAccess n i false) s fun t =>
        luOf (potOf t n) i.toNat = l1 ∧ t.tray = s.tray ∧ t.dram = r.1.dram
      (got.length < (accCols a).length → gives { l with colq := { a with got := got } :: rest }) ∧
      ((accCols a).length ≤ got.length →
        (a.kind = .scales →
          gives (luClosed { l with colq := rest, scales := some (a.row, bytes), scalePoison := got.map Prod.snd })) ∧
        (a.kind = .header →
          gives (luClosed { l with colq := rest, occ := some (a.row, BitVec.ofNat 16 (natOfBytes (bytes.take 2)), bad) })) ∧
        (a.kind = .data → uUop a.uword = 1 →
          gives (luClosed (setLatch { l with colq := rest } (uLd a.uword + a.rep) ⟨wordOfBytes bytes, bad⟩))) ∧
        (a.kind = .data → uUop a.uword = 4 → isMx (uFmt a.uword) = false →
          let q := opndVals (luSlotOf p i.toNat c.slot) false (uFmt a.uword) (uHalf a.uword) (uOpw a.uword + a.rep)
          let x := accumulate (luAccOf l (uAcc a.uword)) (fmtIsInt (uFmt a.uword)) (uSat a.uword)
            (a.rep * (256 / elemBits (uFmt a.uword)))
            (((unitVals false (uFmt a.uword) bytes a.unit []).zip q.1).map fun x =>
              ⟨fvMul x.1.val x.2.val, x.1.rawNan || x.2.rawNan⟩)
            (bad || q.2) (some (luAddr s n i.toNat a.row.toNat a.unit))
          gives (luClosed (luEvents (setLuAcc { l with colq := rest } (uAcc a.uword) x.1) x.2))) ∧
        (a.kind = .data → uUop a.uword = 8 → isMx (uFmt a.uword) = false →
          let k := ((unitVals false (uFmt a.uword) bytes a.unit []).filter fun x =>
            cmpCode (fieldN a.uword 51 3) (roundF32 x.val) a.s0).length
          gives (luClosed { l with colq := rest, cnt := l.cnt + BitVec.ofNat 64 k, cntPoison := l.cntPoison || bad })) ∧
        (∀ x, a.kind = .data →
          colTake (popAcc r.1 n i.toNat) n i.toNat { l with colq := rest } c.raw { a with got := got } bytes bad = .inl x →
          gives (luClosed x.1))))) ∧
  (∀ (s : State) (n : PotIx) (i : LuIx),
    let p := potOf s n
    let l := luOf p i.toNat
    i.toNat < Config.lusPerPot → l.cmd.isSome = true → l.done = false → potOn s n = true →
    (chanOf p (luSeat p i.toNat).1.toNat).limit ≠ 0 → l.colq ≠ [] →
    runsTo (.luLimitTimeout n i) s fun t =>
      luOf (potOf t n) i.toNat = { l with done := true, fault := true, cause := 7, endFault := some 7 } ∧ sameBytes s t) ∧
  (∀ (s : State) (n : PotIx) (i : LuIx) (a : ColAcc) (rest : List ColAcc) (c : LeafCmd),
    let p := potOf s n
    let l := luOf p i.toNat
    i.toNat < Config.lusPerPot → l.cmd = some c → l.colq = a :: rest → l.done = false → potOn s n = true →
    chanServes s n (luSeat p i.toNat).1 = true → (luBank s n i.toNat).openRow = some a.row → a.kind = .data →
    (accCols a).length ≤ a.got.length + 1 →
    (residueChecked a.uword = true →
      runsTo (.luColumnAccess n i true) s fun t =>
        (luOf (potOf t n) i.toNat).fault = true ∧ (luOf (potOf t n) i.toNat).cause = 8 ∧ (luOf (potOf t n) i.toNat).dead = true ∧
        (luOf (potOf t n) i.toNat).colq = []) ∧
    (residueChecked a.uword = false → exec (.luColumnAccess n i true) s = exec (.luColumnAccess n i false) s))

/-- A leaf command is pushed, checked, given its operand, delivered, and answered. LEAF_COMMAND_PUSH appends to the
LU command queue while it has room; with the queue full the store waits. At LEAF_COMMAND_DELIVER a front command
that fails the checks leaves the queue and posts REJECTED to its issuer's event queue, and a run command whose
channel is ready starts on the channel's LUs. OPERAND_SLOT_LOAD fills the channel's free slot with the operand's
tray bytes, zero to 4 KiB. MICROWORD_LOAD stores the microwords of a LOAD command in the channel's free LUs.
LEAF_RESULT_RECORD of a command with RED other than 0 whose LUs have all finished stores its record at its
result line, changing no other byte, and answers. DRAM is as before in each. -/
def Obligations.LeafCommandCourse : Prop :=
  (∀ (s : State) (n : PotIx) (c : BitVec 256), potOn s n = true → (potOf s n).fwRunning = true → (potOf s n).trayClear = true →
    (lucDepth (potOf s n) < 128 → (potOf s n).leafWait = [] →
      runsTo (.leafCommandPush n c) s fun t =>
        potOf t n = { potOf s n with lucq := (potOf s n).lucq ++ [⟨c, .firmware, []⟩] } ∧ (∀ m, m ≠ n → potOf t m = potOf s m) ∧
        t = { s with pots := t.pots, inf := t.inf } ∧ (lcInf c = 0 → t.inf = s.inf)) ∧
    (128 ≤ lucDepth (potOf s n) →
      runsTo (.leafCommandPush n c) s fun t =>
        onlyPot n s t ∧ potOf t n = { potOf s n with leafWait := (potOf s n).leafWait ++ [⟨c, .firmware, []⟩] })) ∧
  (∀ (s : State) (n : PotIx) (q : LeafQ) (rest : List LeafQ), potOn s n = true → (potOf s n).trayClear = true →
    (potOf s n).lucq = q :: rest → (potOf s n).runs = [] → (∀ k ∈ luKeys n, bufferOf s k = none) →
    (potOf s n).leafWait = [] → s.fw.awaiting = [] →
    (lcLoad q.raw = true ∧ (lcInf q.raw ≠ 0 ∨ 512 < lcEntry q.raw + 8 * lcOpndLen q.raw)) ∨
      (lcLoad q.raw = false ∧
        (64 < lcK q.raw ∨ (lcRowLast q.raw).toNat < (lcRowFirst q.raw).toNat ∨ 64 < lcOpndLen q.raw ∨ 5 < lcRed q.raw ∨
          (lcInf q.raw ≠ 0 ∧ ((infOf s (lcInf q.raw)).state ≠ 2 ∨ lcEntry q.raw < (infOf s (lcInf q.raw)).leafBase.toNat ∨
            (infOf s (lcInf q.raw)).leafBase.toNat + (infOf s (lcInf q.raw)).leafLen.toNat ≤ lcEntry q.raw)))) →
    q.origin = .firmware → (potOf s n).events.length < 1024 →
    runsTo (.leafCommandDeliver n) s fun t =>
      (potOf t n).lucq = rest ∧ (potOf t n).runs = [] ∧
      (potOf t n).events = (potOf s n).events ++ [BitVec.ofNat 32 ((lcTag q.raw).toNat + 2 * 2 ^ 16)] ∧ sameBytes s t) ∧
  (∀ (s : State) (n : PotIx) (g : Nat) (r : LeafRun), g < 64 → potOn s n = true → (potOf s n).trayClear = true →
    (potOf s n).lucq = [] → (potOf s n).leafWait = [] → s.fw.awaiting = [] →
    (potOf s n).runs = [r] → r.todo = [g] → lcLoad r.raw = false → chanReady s n g r = true →
    chanMirror s n g = none → (∀ i ∈ chanLus r g, luServed (potOf s n) i = true) → (∀ k ∈ luKeys n, bufferOf s k = none) →
    runsTo (.leafCommandDeliver n) s fun t =>
      onlyPot n s t ∧ (potOf t n).runs = [{ r with todo := [] }] ∧
      (∀ i ∈ chanLus r g, (luOf (potOf t n) i).upc = BitVec.ofNat 10 (lcEntry r.raw) ∧
        (luOf (potOf t n) i).cmd.map LeafCmd.raw = some r.raw ∧ (luOf (potOf t n) i).done = false ∧
        (luOf (potOf t n) i).tag = lcTag r.raw ∧ (luOf (potOf t n) i).rowr = lcRowFirst r.raw ∧
        (luOf (potOf t n) i).acc0 = LuAcc.reset ∧ (luOf (potOf t n) i).acc1 = LuAcc.reset) ∧
      ∀ i, i ∉ chanLus r g → luOf (potOf t n) i = luOf (potOf s n) i) ∧
  (∀ (s : State) (n : PotIx) (g : GroupIx) (r : LeafRun), potOn s n = true → chanNext (potOf s n) g.toNat = some r →
    lcLoad r.raw = false → (chanOf (potOf s n) g.toNat).loadedFor = none →
    slotBusy (potOf s n) g.toNat (chanOf (potOf s n) g.toNat).next = false →
    let a := trayGlobal (leafTray n r.origin) (lcOpnd r.raw)
    runsTo (.operandSlotLoad n g) s fun t =>
      onlyPot n s t ∧ (chanOf (potOf t n) g.toNat).loadedFor = some r.raw ∧
      (if (chanOf (potOf s n) g.toNat).next then (chanOf (potOf t n) g.toNat).slot1 else (chanOf (potOf t n) g.toNat).slot0) =
        ⟨fitBytes 4096 (trayRead s a (lcOpndLen r.raw * 64)), trayPoison s a (lcOpndLen r.raw * 64)⟩ ∧
      ∀ h, h ≠ g.toNat → chanOf (potOf t n) h = chanOf (potOf s n) h) ∧
  (∀ (s : State) (n : PotIx) (g : Nat) (r : LeafRun), g < 64 → potOn s n = true → (potOf s n).trayClear = true →
    (potOf s n).runs = [r] → r.todo = [g] → lcLoad r.raw = true → (potOf s n).leafWait = [] →
    (∀ i ∈ chanLus r g, (luOf (potOf s n) i).cmd = none) →
    let a := trayGlobal (leafTray n r.origin) (lcOpnd r.raw)
    runsTo (.microwordLoad n) s fun t =>
      onlyPot n s t ∧ (potOf t n).runs = [{ r with todo := [], answers := r.answers ++ (chanLus r g).map storedAnswer }] ∧
      (∀ i ∈ chanLus r g, ∀ k, k < lcOpndLen r.raw * 8 → tget (luCode (potOf t n) i).1 (lcEntry r.raw + k) 0 =
        BitVec.ofNat 64 (natOfBytes ((trayRead s a (lcOpndLen r.raw * 64)).drop (8 * k) |>.take 8))) ∧
      ∀ i, i ∉ chanLus r g → luOf (potOf t n) i = luOf (potOf s n) i) ∧
  (∀ (s : State) (n : PotIx) (pre post : List LeafRun) (r : LeafRun) (key : Nat), State.memoryOk s →
    (potOf s n).runs = pre ++ r :: post → (∀ x ∈ pre, runDone x = false) → runDone r = true → lcLoad r.raw = false →
    lcRed r.raw ≠ 0 → runExpected r ≠ 0 → r.origin = .host key → s.fw.awaiting = [] →
    runsTo (.leafResultRecord n) s fun t =>
      (potOf t n).runs = pre ++ post ∧ (potOf t n).answers = (potOf s n).answers ++ [{ runAnswer r with key := key }] ∧
      t.dram = s.dram ∧
      trayRead t (trayGlobal n (lcResLine r.raw * 64)) (recordBytes r).length = recordBytes r ∧
      ∀ a, a < trayGlobal n (lcResLine r.raw * 64) ∨ trayGlobal n (lcResLine r.raw * 64) + (recordBytes r).length ≤ a →
        cellGet trayDefault t.tray a = cellGet trayDefault s.tray a)

/-- Every stored word reads back clean or with its poison, and every single symbol error is corrected. For all 32 B
of data: the stored code word decodes to the data as CLEAN, and stored with poison as POISON; with any one data
symbol changed it decodes to the data as CORRECTED with that symbol, and with any one check symbol changed as
CORRECTED with symbol 32 + its index; and a clean code word with two different data symbols changed never
decodes as CLEAN or CORRECTED. -/
def Obligations.CodeWordsCorrectOneSymbol : Prop :=
  (∀ d : List Byte, d.length = 32 →
    rsDecode d (rsStored d false) = (d, .clean) ∧ rsDecode d (rsStored d true) = (d, .poison)) ∧
  (∀ (d : List Byte) (j : Nat) (e : Byte), d.length = 32 → j < 32 → e ≠ 0 →
    rsDecode (setNth d j (nth d j 0 ^^^ e)) (rsStored d false) = (d, .corrected j)) ∧
  (∀ (d : List Byte) (j : Nat) (e : Byte), d.length = 32 → j < 4 → e ≠ 0 →
    rsDecode d (setNth (rsStored d false) j (nth (rsStored d false) j 0 ^^^ e)) = (d, .corrected (32 + j))) ∧
  (∀ (d : List Byte) (i j : Nat) (e f : Byte), d.length = 32 → i < j → j < 32 → e ≠ 0 → f ≠ 0 →
    let r := (rsDecode (setNth (setNth d i (nth d i 0 ^^^ e)) j (nth d j 0 ^^^ f)) (rsStored d false)).2
    r ≠ .clean ∧ ∀ k, r ≠ .corrected k)

/-- Requests arrive, are admitted and picked; refreshes are owed and paid; narrow writes merge; a channel retrains.
BKS_REQUEST_ARRIVE of a port with room appends the request to its buffer; BKS_ADMIT moves the oldest admissible
entry into the queue; BKS_PICK on a scheduler with nothing queued and nothing owed only counts its cycle, and
with one bank's overdue refresh ready issues it, whatever the whistle. REFRESH_INTERVAL adds one to a debt.
EYE_RECENTRE in a refresh window at B2 centres the eye. A NARROW_WRITE to a new word with room enters the merge
buffer and changes no byte, one to a channel that takes no access waits, and MERGE_TIMEOUT empties the word's
entry. RETRAIN leaves the channel with no queued request, merge entry or debt, in self-refresh and BUSY; an
attempt that passes ends it with RESULT 1, a third that fails with RESULT 2. -/
def Obligations.BankSchedulers : Prop :=
  (∀ (s : State) (n : PotIx) (g : GroupIx) (port : BksPort) (r : BksReq), potPresent s n = true →
    (portBuf (schedOf (potOf s n) g.toNat) port).length < portDepth port →
    (port = .pat → (schedOf (potOf s n) g.toNat).whistle = false) →
    runsTo (.bksRequestArrive n g port r) s fun t =>
      onlyPot n s t ∧ (∀ h, h ≠ g.toNat → schedOf (potOf t n) h = schedOf (potOf s n) h) ∧
      portBuf (schedOf (potOf t n) g.toNat) port =
        portBuf (schedOf (potOf s n) g.toNat) port ++ [⟨port, r, (schedOf (potOf s n) g.toNat).cycle,
          (schedOf (potOf s n) g.toNat).arrivals, false⟩] ∧
      (schedOf (potOf t n) g.toNat).queue = (schedOf (potOf s n) g.toNat).queue) ∧
  (∀ (s : State) (n : PotIx) (g : GroupIx) (e : BksEntry), potPresent s n = true →
    admitNext (schedOf (potOf s n) g.toNat) = some e → admits (schedOf (potOf s n) g.toNat) = true →
    runsTo (.bksAdmit n g) s fun t =>
      onlyPot n s t ∧ (schedOf (potOf t n) g.toNat).queue = (schedOf (potOf s n) g.toNat).queue ++ [e] ∧
      portBuf (schedOf (potOf t n) g.toNat) e.port = (portBuf (schedOf (potOf s n) g.toNat) e.port).drop 1) ∧
  (∀ (s : State) (n : PotIx) (g : GroupIx), potPresent s n = true → (schedOf (potOf s n) g.toNat).selfRefresh = false →
    (schedOf (potOf s n) g.toNat).queue = [] → (∀ k ∈ bksKeys n, bufferOf s k = none) → (potOf s n).pat.waits = none →
    ((∀ k, debtOf (schedOf (potOf s n) g.toNat) k = 0) →
      runsTo (.bksPick n g) s fun t =>
        onlyPot n s t ∧
        schedOf (potOf t n) g.toNat = { schedOf (potOf s n) g.toNat with
          refNow := false, cycle := (schedOf (potOf s n) g.toNat).cycle + 1, events := (schedOf (potOf t n) g.toNat).events }) ∧
    (∀ k d h, (schedOf (potOf s n) g.toNat).debts = [(k, d)] → k < 16 → 9 ≤ d → (bksTiming s n g).allBank = false →
      rowReady (bksTiming s n g) (schedOf (potOf s n) g.toNat) (bankOf (schedOf (potOf s n) g.toNat) k) = true →
      actHalf (bksTiming s n g) (schedOf (potOf s n) g.toNat) = some h →
      runsTo (.bksPick n g) s fun t =>
        onlyPot n s t ∧ debtOf (schedOf (potOf t n) g.toNat) k = d - 1 ∧ (schedOf (potOf t n) g.toNat).refNow = true ∧
        (bankOf (schedOf (potOf t n) g.toNat) k).lastRef = (schedOf (potOf s n) g.toNat).cycle ∧
        (schedOf (potOf t n) g.toNat).cycle = (schedOf (potOf s n) g.toNat).cycle + 1)) ∧
  (∀ (s : State) (n : PotIx) (g : GroupIx) (b : BitVec 4), potPresent s n = true →
    (schedOf (potOf s n) g.toNat).selfRefresh = false → (bksTiming s n g).allBank = false →
    runsTo (.refreshInterval n g b) s fun t =>
      onlyPot n s t ∧ ∀ k, debtOf (schedOf (potOf t n) g.toNat) k =
        debtOf (schedOf (potOf s n) g.toNat) k + (if k = b.toNat then 1 else 0)) ∧
  (∀ (s : State) (n : PotIx) (g : GroupIx), potPresent s n = true → bandOf (potOf s n) (dieOf g) = 2 →
    (schedOf (potOf s n) g.toNat).selfRefresh = false →
    inRefresh (bksTiming s n g) (schedOf (potOf s n) g.toNat) 64 = true →
    runsTo (.eyeRecentre n g) s fun t =>
      onlyPot n s t ∧ schedOf (potOf t n) g.toNat = { schedOf (potOf s n) g.toNat with
        eyeCentred := true, busFree := (schedOf (potOf s n) g.toNat).cycle + 64 }) ∧
  (∀ (s : State) (n : PotIx) (g : GroupIx) (b : BitVec 4) (r : BitVec 15) (c : BitVec 6) (data : ColWord) (mask : BitVec 32)
      (poison : Bool), potPresent s n = true →
    (mask ≠ 0 → wordWaits (schedOf (potOf s n) g.toNat) ⟨n, g, b, r, c⟩ = false →
      (chanServes s n g = false →
        runsTo (.narrowWrite n g b r c data mask poison) s fun t =>
          t = { s with map := { s.map with waiting := s.map.waiting ++ [.narrow n g b r c data mask poison] } }) ∧
      (chanServes s n g = true → mask ≠ BitVec.allOnes 32 →
        (∀ e ∈ (schedOf (potOf s n) g.toNat).merge, mergeHit e ⟨n, g, b, r, c⟩ = false) →
        (schedOf (potOf s n) g.toNat).merge.length < 16 →
        runsTo (.narrowWrite n g b r c data mask poison) s fun t =>
          onlyPot n s t ∧ (schedOf (potOf t n) g.toNat).merge =
            (schedOf (potOf s n) g.toNat).merge ++ [⟨b, r, c, data, mask, poison⟩])) ∧
    (chanServes s n g = true →
      runsTo (.mergeTimeout n g b r c) s fun t =>
        t.tray = s.tray ∧ ∀ e ∈ (schedOf (potOf t n) g.toNat).merge, mergeHit e ⟨n, g, b, r, c⟩ = false)) ∧
  (∀ (s : State) (n : PotIx) (g : GroupIx), potOn s n = true → retrainBusy (potOf s n) = false → bksParity s n = false →
    admits (schedOf (potOf s n) g.toNat) = true → (schedOf (potOf s n) g.toNat).queue.Nodup →
    (∀ h, (schedOf (potOf s n) h).retraining = false) →
    runsTo (.retrain n g) s fun t =>
      t.tray = s.tray ∧ (schedOf (potOf t n) g.toNat).queue = [] ∧ (schedOf (potOf t n) g.toNat).merge = [] ∧
      (∀ k, debtOf (schedOf (potOf t n) g.toNat) k = 0) ∧ (schedOf (potOf t n) g.toNat).selfRefresh = true ∧
      retrainBusy (potOf t n) = true ∧ retrainGroup (potOf t n) = g) ∧
  (∀ (s : State) (n : PotIx) (ok : Bool), potOn s n = true → retrainBusy (potOf s n) = true → s.map.waiting = [] →
    (ok = true ∨ fieldN (potOf s n).bksRetrain 10 2 = 2 →
      runsTo (.retrainAttemptEnd n ok) s fun t =>
        sameBytes s t ∧ retrainBusy (potOf t n) = false ∧ fieldN (potOf t n).bksRetrain 8 2 = (if ok then 1 else 2) ∧
        (schedOf (potOf t n) (retrainGroup (potOf s n)).toNat).selfRefresh = false ∧
        ∀ k, debtOf (schedOf (potOf t n) (retrainGroup (potOf s n)).toNat) k = 0) ∧
    (fieldN (potOf s n).bksRetrain 10 2 < 2 →
      runsTo (.retrainAttemptEnd n false) s fun t =>
        onlyPot n s t ∧ retrainBusy (potOf t n) = true ∧
        fieldN (potOf t n).bksRetrain 10 2 = fieldN (potOf s n).bksRetrain 10 2 + 1))

/-- Patrol visits rows; rows and banks are remapped; tag segments are written. PATROL_ROW_VISIT with PASS_H above 0
goes on to the next row and changes no byte of memory when the row is sound, every written word CLEAN and
nothing of it waits in the merge buffer. ROW_REMAP of a row without an entry to a spare not in use writes an
entry through which the row is found in the spare and reports RESULT 1; with the spare in use it reports 3 and
with no free entry 2, and changes no byte. SPARE_MOVE moves an entry on to another spare. BANK_REMAP to a free
spare starts the copy and is BUSY; BANK_REMAP_SWITCH makes the spare serve the bank. TAGFIX makes the row's mask
PAT_CMD_ARG, sound. SCRUB_RANGE of a range out of order reports 4, of another 1. A command whose channel does
not serve patrol's port now is BUSY and waits. FLIP_ARM writes GROUP, PORTS and ARM. -/
def Obligations.PatrolAndRepair : Prop :=
  (∀ (s : State) (n : PotIx) (g : GroupIx) (ix : Nat), patServed s n g = true → patParity s n = false →
    bufferOf s (potReg n 0x7000) = none →
    let c := schedOf (potOf s n) g.toNat
    passHours c ≠ 0 → c.merge = [] →
    placeRow (potOf s n) ⟨n, g, BitVec.ofNat 4 (c.patrolPos % 16), BitVec.ofNat 15 (c.patrolPos / 16), 0⟩ = some ix →
    (rowMask s ix).2 = false →
    (∀ col, col < 64 → (decodeAt s ix col).out = .clean ∨ (decodeAt s ix col).out = .unwritten) →
    runsTo (.patrolRowVisit n g) s fun t =>
      sameBytes s t ∧
      (schedOf (potOf t n) g.toNat).patrolPos = (if c.patrolPos + 1 < 524288 then c.patrolPos + 1 else 0)) ∧
  (∀ (s : State) (n : PotIx) (g : GroupIx) (b : BitVec 4) (r : BitVec 15) (sp : BitVec 4) (pb i : Nat), State.memoryOk s →
    patFree s n g → physBank (potOf s n) g b = some pb → rowMapSound (potOf s n) (dieOf g) pb = true →
    (rowEntryOf (potOf s n) (dieOf g) pb r.toNat = none → ((upto 8).find? fun i => !bitAt (rowMapOf (potOf s n) (dieOf g) pb i) 19) = some i →
      (spareInUse (potOf s n) (dieOf g) pb sp.toNat = false →
        runsTo (.rowRemap n g b r sp) s fun t =>
          t.tray = s.tray ∧ rowMapOf (potOf t n) (dieOf g) pb i = mkRowMap r.toNat sp.toNat true ∧
          placeRow (potOf t n) ⟨n, g, b, r, 0⟩ = some (rowIndex n (dieOf g) pb (32768 + sp.toNat)) ∧ patResult t n 1 ∧
          ((rowMask s (rowIndex n (dieOf g) pb r.toNat)).2 = false →
            rowMask t (rowIndex n (dieOf g) pb (32768 + sp.toNat)) = rowMask s (rowIndex n (dieOf g) pb r.toNat))) ∧
      (spareInUse (potOf s n) (dieOf g) pb sp.toNat = true →
        runsTo (.rowRemap n g b r sp) s fun t => onlyPot n s t ∧ patResult t n 3)) ∧
    (rowEntryOf (potOf s n) (dieOf g) pb r.toNat = none →
      ((upto 8).find? fun i => !bitAt (rowMapOf (potOf s n) (dieOf g) pb i) 19) = none →
      runsTo (.rowRemap n g b r sp) s fun t => onlyPot n s t ∧ patResult t n 2) ∧
    (rowEntryOf (potOf s n) (dieOf g) pb r.toNat = some i → spareInUse (potOf s n) (dieOf g) pb sp.toNat = false →
      runsTo (.spareMove n g b r sp) s fun t =>
        t.tray = s.tray ∧ rowMapOf (potOf t n) (dieOf g) pb i = mkRowMap r.toNat sp.toNat true ∧ patResult t n 1)) ∧
  (∀ (s : State) (n : PotIx) (g : GroupIx) (b : BitVec 4) (k : BitVec 1), State.memoryOk s → patFree s n g →
    bankMapGood (bankMapOf (potOf s n) (dieOf g)) = true → fieldN (bankMapOf (potOf s n) (dieOf g)) (8 * k.toNat + 6) 2 = 0 →
    physBank (potOf s n) g b = some (bankInDie g b) →
    runsTo (.bankRemap n g b k) s fun t =>
      t.tray = s.tray ∧ (potOf t n).pat.copy = some ⟨g, b, k⟩ ∧ bitAt (potOf t n).pat.cmd 4 = true ∧
      ∀ a, a < rowIndex n (dieOf g) (64 + k.toNat) 0 * 4096 ∨ rowIndex n (dieOf g) (64 + k.toNat) Config.rowsPerBank * 4096 ≤ a →
        cellGet dramDefault t.dram a = cellGet dramDefault s.dram a) ∧
  (∀ (s : State) (n : PotIx) (c : BankCopy), potOn s n = true → (potOf s n).pat.copy = some c →
    physBank (potOf s n) c.group c.bank = some (bankInDie c.group c.bank) →
    runsTo (.bankRemapSwitch n) s fun t =>
      t.tray = s.tray ∧ (potOf t n).pat.copy = none ∧ physBank (potOf t n) c.group c.bank = some (64 + c.spare.toNat) ∧
      patResult t n 1) ∧
  (∀ (s : State) (n : PotIx) (g : GroupIx) (b : BitVec 4) (r : BitVec 15) (ix : Nat), State.memoryOk s → patFree s n g →
    placeRow (potOf s n) ⟨n, g, b, r, 0⟩ = some ix →
    runsTo (.tagfix n g b r) s fun t =>
      t.tray = s.tray ∧ rowMask t ix = ((potOf s n).pat.cmdArg, false) ∧ patResult t n 1 ∧
      ∀ a, a < ix * 4096 + 2304 ∨ ix * 4096 + 2320 ≤ a → cellGet dramDefault t.dram a = cellGet dramDefault s.dram a) ∧
  (∀ (s : State) (n : PotIx) (g : GroupIx) (b : BitVec 4) (lo hi : BitVec 15), patFree s n g →
    (hi.toNat < lo.toNat →
      runsTo (.scrubRange n g b lo hi) s fun t => onlyPot n s t ∧ patResult t n 4) ∧
    (lo.toNat ≤ hi.toNat →
      runsTo (.scrubRange n g b lo hi) s fun t => t.tray = s.tray ∧ patResult t n 1)) ∧
  (∀ (s : State) (n : PotIx) (g : GroupIx) (b : BitVec 4) (r : BitVec 15), patBusy (potOf s n) = false → patParity s n = false →
    potOn s n = true → patServed s n g = false →
    runsTo (.tagfix n g b r) s fun t =>
      onlyPot n s t ∧ (potOf t n).pat.waits.isSome = true ∧ bitAt (potOf t n).pat.cmd 4 = true) ∧
  (∀ (s : State) (n : PotIx) (g : GroupIx) (ports : BitVec 4) (arm : Bool), potOn s n = true →
    runsTo (.flipArm n g ports arm) s fun t =>
      sameBytes s t ∧ fieldN (potOf t n).pat.flipCtl 0 6 = g.toNat ∧ fieldN (potOf t n).pat.flipCtl 6 4 = ports.toNat ∧
      bitAt (potOf t n).pat.flipCtl 10 = arm ∧ fieldN (potOf t n).pat.flipCtl 11 53 = fieldN (potOf s n).pat.flipCtl 11 53)

/-- Requests for steeps wait, are granted within FREE, overdraw once late, and are freed. A request of a firmware
slot, an engine or a channel that neither holds nor waits joins the waiting list with its cost. A hub cycle
grants a lone request that FREE covers, moving its steeps from FREE to its hold, passes over one that FREE does
not cover, grants one due for overdraw when FREE is 0 or more, and grants nothing while a value disagrees with
its complement. A release that was sent returns its steeps to FREE. PERMIT_PRECEDENCE marks the oldest request
of a class without it. REQ and RELEASE work on the core's slot. A budget write within the limits is buffered,
and one outside them only counts in BUDGET_REJ. The clamp moves by one with the estimate. No byte of memory
changes. -/
def Obligations.PermitPool : Prop :=
  (∀ (s : State) (n : PotIx) (u : BitVec 6), potOn s n = true → u.toNat < 8 → pmtCost s n .fw u.toNat ≠ 0 →
    permitAny (potOf s n).pmt .fw u.toNat = false → permitWaits (potOf s n).pmt .fw u.toNat = false →
    runsTo (.permitRequest n .fw u) s fun t =>
      onlyPot n s t ∧ (potOf t n).pmt = { (potOf s n).pmt with waits := (potOf s n).pmt.waits ++
        [⟨.fw, u, pmtCost s n .fw u.toNat, 0, 0, false, false, (potOf s n).pmt.nextOrder⟩] }) ∧
  (∀ (s : State) (n : PotIx) (e : Eng) (c : BitVec 256) (rest : List (BitVec 256)), engPresent s n e = true →
    (potOf s n).trayClear = true → (seqOf (potOf s n) e).cmdq = c :: rest → (seqOf (potOf s n) e).running = false →
    infOn s (ecInf c) n = true → permitAny (potOf s n).pmt (engClass e) 0 = false →
    permitWaits (potOf s n).pmt (engClass e) 0 = false →
    runsTo (.permitRequest n (engClass e) 0) s fun t =>
      onlyPot n s t ∧ (potOf t n).pmt = { (potOf s n).pmt with waits := (potOf s n).pmt.waits ++
        [⟨engClass e, 0, pmtCost s n (engClass e) 0, ecTag c, ecInf c, false, false, (potOf s n).pmt.nextOrder⟩] }) ∧
  (∀ (s : State) (n : PotIx) (g : BitVec 6) (r : LeafRun), potOn s n = true → chanWants s n g.toNat = some r →
    permitAny (potOf s n).pmt .leaf g.toNat = false → permitWaits (potOf s n).pmt .leaf g.toNat = false →
    runsTo (.permitRequest n .leaf g) s fun t =>
      onlyPot n s t ∧ (potOf t n).pmt = { (potOf s n).pmt with waits := (potOf s n).pmt.waits ++
        [⟨.leaf, g, pmtCost s n .leaf g.toNat, lcTag r.raw, lcInf r.raw, false, false, (potOf s n).pmt.nextOrder⟩] }) ∧
  (∀ (s : State) (n : PotIx) (w : PermitWait), potPresent s n = true → pmtGood (potOf s n).pmt = true →
    (potOf s n).pmt.waits = [w] →
    ((w.steeps : Int) ≤ (potOf s n).pmt.free.toInt → 
      runsTo (.permitGrantCycle n) s fun t =>
        onlyPot n s t ∧ (potOf t n).pmt.waits = [] ∧ pmtGood (potOf t n).pmt = true ∧
        (potOf t n).pmt.free.toInt = (potOf s n).pmt.free.toInt - w.steeps ∧
        tfind (potOf t n).pmt.holds (permitKey w.cls w.unit.toNat) = some ⟨w.steeps, w.tag, w.infusion, false⟩ ∧
        (potOf t n).pmt.lastClass = w.cls) ∧
    ((potOf s n).pmt.free.toInt < w.steeps → w.overdraw = false ∨ w.precedence = false →
      runsTo (.permitGrantCycle n) s fun t =>
        onlyPot n s t ∧ (potOf t n).pmt = { (potOf s n).pmt with nextOrder := (potOf s n).pmt.nextOrder + 1 }) ∧
    ((potOf s n).pmt.free.toInt < w.steeps → w.precedence = true → w.overdraw = true → 0 ≤ (potOf s n).pmt.free.toInt →
      w.steeps < 1024 →
      runsTo (.permitGrantCycle n) s fun t =>
        onlyPot n s t ∧ (potOf t n).pmt.waits = [] ∧
        (potOf t n).pmt.free.toInt = (potOf s n).pmt.free.toInt - w.steeps)) ∧
  (∀ (s : State) (n : PotIx), potPresent s n = true → pmtGood (potOf s n).pmt = false →
    runsTo (.permitGrantCycle n) s fun t =>
      sameBytes s t ∧ (potOf t n).pmt = { (potOf s n).pmt with mismatch := true }) ∧
  (∀ (s : State) (n : PotIx) (c : PermitClass) (u : BitVec 6) (h : Hold),
    tfind (potOf s n).pmt.holds (permitKey c u.toNat) = some h → h.leaving = true →
    pmtGood (potOf s n).pmt = true → -2048 ≤ (potOf s n).pmt.free.toInt + h.steeps → (potOf s n).pmt.free.toInt + h.steeps < 2048 →
    runsTo (.permitRelease n c u) s fun t =>
      onlyPot n s t ∧ (potOf t n).pmt.free.toInt = (potOf s n).pmt.free.toInt + h.steeps ∧
      (potOf t n).pmt.freeN = ~~~(potOf t n).pmt.free) ∧
  (∀ (s : State) (n : PotIx) (pre post : List PermitWait) (w : PermitWait), pmtGood (potOf s n).pmt = true →
    (potOf s n).pmt.waits = pre ++ w :: post → w.precedence = false → (∀ x ∈ pre, x.cls = w.cls → x.precedence = true) →
    runsTo (.permitPrecedence n w.cls) s fun t =>
      onlyPot n s t ∧ (potOf t n).pmt.waits = pre ++ { w with precedence := true } :: post) ∧
  (∀ (s : State) (n : PotIx) (w : PermitWait), pmtGood (potOf s n).pmt = true → (potOf s n).pmt.waits = [w] →
    w.precedence = true → 0 ≤ (potOf s n).pmt.free.toInt → w.steeps < 1024 →
    runsTo (.permitOverdraw n w.cls) s fun t =>
      onlyPot n s t ∧ (potOf t n).pmt.waits = [] ∧ (potOf t n).pmt.free.toInt = (potOf s n).pmt.free.toInt - w.steeps) ∧
  (∀ (s : State) (n : PotIx) (core : BitVec 3), potOn s n = true →
    (∀ k : BitVec 10, k ≠ 0 → permitAny (potOf s n).pmt .fw core.toNat = false → permitWaits (potOf s n).pmt .fw core.toNat = false →
      runsTo (.req n core k) s fun t =>
        onlyPot n s t ∧ fieldN (tget (potOf t n).pmt.reqs core.toNat 0) 0 10 = k.toNat ∧
        (potOf t n).pmt.waits = (potOf s n).pmt.waits ++
          [⟨.fw, BitVec.ofNat 6 core.toNat, k.toNat, 0, 0, false, false, (potOf s n).pmt.nextOrder⟩]) ∧
    runsTo (.release n core) s fun t =>
      onlyPot n s t ∧ permitWaits (potOf t n).pmt .fw core.toNat = false ∧
      (potOf t n).pmt.waits = (potOf s n).pmt.waits.filter (fun w => !(w.cls == .fw && w.unit.toNat == core.toNat)) ∧
      (permitAny (potOf s n).pmt .fw core.toNat = false → (potOf t n).pmt.free = (potOf s n).pmt.free)) ∧
  (∀ (s : State) (v : Word64), pmtHubGood s.pmtHub = true →
    (hubOn s = true →
      runsTo (.pmtBudgetWrite .hub v) s fun t =>
        sameBytes s t ∧ t.pmtHub.potBudget = s.pmtHub.potBudget ∧
        (hubBudgetOk s v = true → bufferOf t pmtHubKey = some (fieldN v 0 28)) ∧
        (hubBudgetOk s v = false → t.regs = s.regs ∧ t.pmtHub.budgetRej = satAdd s.pmtHub.budgetRej 1)) ∧
    (∀ n, potPresent s n = true →
      runsTo (.pmtBudgetWrite (.pot n) v) s fun t =>
        sameBytes s t ∧ (potOf t n).pmt.allot = (potOf s n).pmt.allot ∧
        (poolOk s n v = true → bufferOf t (pmtPoolKey n) = some (fieldN v 0 20)) ∧
        (poolOk s n v = false → t.regs = s.regs ∧ t.pmtHub.budgetRej = satAdd s.pmtHub.budgetRej 1))) ∧
  (∀ (s : State) (n : PotIx) (est : BitVec 17), potOn s n = true → (potOf s n).pmt.clamp.toNat ≤ 8 →
    runsTo (.activityEstimate n est) s fun t =>
      onlyPot n s t ∧ (potOf t n).pmt.est = est ∧
      (potOf t n).pmt.clamp.toNat =
        if pmtAeff (potOf s n).pmt < est.toNat then min 8 ((potOf s n).pmt.clamp.toNat + 1)
        else if 16 * est.toNat ≤ 15 * pmtAeff (potOf s n).pmt then (potOf s n).pmt.clamp.toNat - 1
        else (potOf s n).pmt.clamp.toNat)

/-- A measurement tick sets the period, and trips shut the module down. A tick of a place in a module that has not
tripped, without a trip in its readings, keeps every rail and byte and sets the period that the valid readings
give: 10 µs within 5 °C of shutdown, 100 µs from 95 °C, else 1 ms. The throttle level moves by one, no sooner
than 500 µs after a change upwards and after 5 ms of cool downwards, between its floor and 6. A shutdown turns
every rail off but a powered caddy's, asserts THERMTRIP_N, loses the DRAM data and records cause 1; a hard cut
turns the caddy off too and records cause 2. After a trip the hub's ticks count 1 ms of cool; CADDY_RAIL_OFF
ends the caddy's rail; after 10 s of cool KET_RESTART, not latched off, starts the power sequence again;
TRIP_HOUR_EXPIRY takes one trip from HOUR. -/
def Obligations.KettleTicks : Prop :=
  (∀ (s : State) (p : KetPlace) (rs : List (Option (BitVec 12))), s.power.aon = true → rs.length = ketReadings p →
    let k := ketRead s.ket p rs
    (s.power.step ≠ .tripped → hardCutBy s.ket k p = [] → shutdownBy k p = [] →
      runsTo (.ketMeasurementTick p rs) s fun t =>
        sameBytes s t ∧ t.power = s.power ∧ t.pins.thermtrip = s.pins.thermtrip ∧ t.ket.trips = s.ket.trips ∧
        (ketTimer t p).period =
          (if anyAt (ketTemps k p) 105 110 then 10 else if anyAt (ketTemps k p) 95 95 then 100 else 1000) ∧
        ∀ n, p = .pot n → (potOf s n).pmt.lvl.toNat ≤ 6 → (potOf t n).pmt.lvl.toNat ≤ 6) ∧
    (s.power.step ≠ .tripped → hardCutBy s.ket k p = [] → shutdownBy k p ≠ [] →
      runsTo (.ketMeasurementTick p rs) s fun t =>
        t.power.step = (if s.power.step = .held then .held else .tripped) ∧ t.power.enHub = false ∧ t.power.enPot = 0 ∧
        t.power.enSpt = 0 ∧ t.power.enCaddy = s.power.enCaddy ∧ t.ket.caddyHeld = s.power.enCaddy ∧ t.pins.thermtrip = true ∧
        t.dram = [] ∧ t.caddy = s.caddy ∧ t.fuses = s.fuses ∧ fieldN t.ket.trips 3 2 = 1 ∧
        fieldN t.ket.trips 0 2 = min 3 (fieldN s.ket.trips 0 2 + 1) ∧
        bitAt t.ket.trips 2 = (bitAt s.ket.trips 2 || fieldN s.ket.trips 0 2 == 3)) ∧
    (s.power.step ≠ .tripped → hardCutBy s.ket k p ≠ [] →
      runsTo (.ketMeasurementTick p rs) s fun t =>
        t.power.enHub = false ∧ t.power.enPot = 0 ∧ t.power.enSpt = 0 ∧ t.power.enCaddy = false ∧ t.pins.thermtrip = true ∧
        t.dram = [] ∧ t.caddy = s.caddy ∧ fieldN t.ket.trips 3 2 = 2) ∧
    (s.power.step = .tripped → s.ket.caddyHeld = false →
      runsTo (.ketMeasurementTick p rs) s fun t =>
        t.power = s.power ∧ sameBytes s t ∧
        (p = .hub → (∀ q ∈ ketPlaces, anyAt (ketTemps k q) 85 90 = false) → t.ket.coolFor = s.ket.coolFor + 1000) ∧
        ((∃ q ∈ ketPlaces, anyAt (ketTemps k q) 85 90 = true) → t.ket.coolFor = 0))) ∧
  (∀ (lvl lo since cool : Nat), lvl ≤ 6 → lo ≤ 6 →
    (∀ b, levelNext lvl lo since cool b ≤ 6 ∧ lo ≤ levelNext lvl lo since cool b) ∧
    (lo ≤ lvl →
      levelNext lvl lo since cool true = (if 500 ≤ since then min 6 (lvl + 1) else lvl) ∧
      levelNext lvl lo since cool false = (if 5000 ≤ cool then max lo (lvl - 1) else lvl))) ∧
  (∀ s : State, s.ket.caddyHeld = true →
    runsTo .caddyRailOff s fun t =>
      t.power = { s.power with enCaddy := false, pgCaddy := false } ∧ t.ket.caddyHeld = false ∧ sameBytes s t) ∧
  (∀ s : State, s.power.aon = true → s.power.step = .tripped → bitAt s.ket.trips 2 = false → 10000000 ≤ s.ket.coolFor →
    s.ket.caddyHeld = false →
    runsTo .ketRestart s fun t =>
      t.power.step = .waitHub ∧ t.power.enCaddy = true ∧ t.power.enHub = true ∧ t.power.enPot = 0 ∧ t.power.enSpt = 0 ∧
      t.pins.thermtrip = false ∧ t.ket.trips = s.ket.trips ∧ t.caddy = s.caddy ∧ t.dram = []) ∧
  (∀ s : State, s.power.aon = true → 0 < fieldN s.ket.trips 0 2 →
    runsTo .tripHourExpiry s fun t =>
      fieldN t.ket.trips 0 2 = fieldN s.ket.trips 0 2 - 1 ∧ fieldN t.ket.trips 2 62 = fieldN s.ket.trips 2 62 ∧ sameBytes s t)

/-- STAGE, ACTIVATE, the live updates and the owner key. STAGE of an image that passes every check fills the slot
that the committed set does not use, with a SEQ one above the other slot's, and RESULT 1; one that fails a check
leaves the caddy and shows the check's RESULT. ACTIVATE of a refused image leaves the running set; of OWNDEF,
and in plain memory, it writes the pointer record alone; of XLAT with no load in progress it switches the
running image; of HUBFW it waits, and the handover makes the standby pair active and commits the image. A BREWFW
activation moves the next pot and commits with the last one; a pot that fails its self-check is quiesced, and
the timeout ends the activation with RESULT SELFCHECK and the old image. ENROLL writes the staged key, which
HUB_BOOT then shows, while the window is open and no key is enrolled, ROTATE with the enrolled key's signature,
REVOKE in the window or signed, unless an image in use relies on the key; refused, they leave the key and show
their RESULT. -/
def Obligations.FirmwareAndKeys : Prop :=
  (∀ (s : State) (k : FwKind) (src : BitVec 41), regBad s fwKey = false → mgmtServed s = true → fwBusy s = false →
    let r := readImage s k (BitVec.ofNat 41 (src.toNat / 4 * 4))
    let res := stageResult r.1 k r.2.1 r.2.2
    runsTo (.stage k src) s fun t =>
      fieldN t.fw.fwCtl 0 3 = kindCode k ∧ fieldN t.fw.fwCtl 3 2 = 1 ∧ fwBusy t = false ∧
      fieldN t.fw.fwCtl 7 4 = (if res = 0 then 1 else res) ∧ t.fw.runImages = s.fw.runImages ∧
      t.caddy.pointers = s.caddy.pointers ∧ t.tray = s.tray ∧ t.fuses = s.fuses ∧ t.power = s.power ∧
      (res ≠ 0 → t.caddy = s.caddy ∧ t.fw.staged = s.fw.staged) ∧
      (res = 0 → imageCheck s k r.2.1 = 0 ∧ tget t.fw.staged (kindCode k) false = true ∧
        slotTable t.caddy k (.slot (freeSlotOf s.caddy k)) =
          some ⟨r.2.1, (slotTable s.caddy k (.slot (!freeSlotOf s.caddy k))).elim 0 CaddySlot.seq + 1, false⟩)) ∧
  (∀ (s : State) (k : FwKind), regBad s fwKey = false → mgmtServed s = true → fwBusy s = false →
    (activateRefused s k ≠ 0 →
      runsTo (.activate k) s fun t =>
        fieldN t.fw.fwCtl 7 4 = activateRefused s k ∧ fwBusy t = false ∧ t.caddy = s.caddy ∧
        t.fw.runImages = s.fw.runImages ∧ sameBytes s t) ∧
    (activateRefused s k = 0 → (curPointer s.caddy).rseq.toNat + 1 < 2 ^ 32 →
      (k = .owndef ∨ s.fw.running = false →
        runsTo (.activate k) s fun t =>
          fieldN t.fw.fwCtl 7 4 = 1 ∧ fwBusy t = false ∧ t.fw.runImages = s.fw.runImages ∧
          committedPlace (curPointer t.caddy) k = .slot (freeSlotOf s.caddy k) ∧ sameBytes s t) ∧
      (k = .xlat → s.fw.running = true → s.inf.load = none →
        runsTo (.activate k) s fun t =>
          fieldN t.fw.fwCtl 7 4 = 1 ∧ fwBusy t = false ∧
          some (runImage t .xlat) = imageAt s.caddy .xlat (.slot (freeSlotOf s.caddy .xlat)) ∧
          committedPlace (curPointer t.caddy) .xlat = .slot (freeSlotOf s.caddy .xlat) ∧ t.pots = s.pots ∧ sameBytes s t) ∧
      (k = .hubfw → s.fw.running = true →
        runsTo (.activate k) s fun t =>
          fwBusy t = true ∧ bitAt t.fw.boot 9 = true ∧ t.fw.awaiting = s.fw.awaiting ++ [.hubfw] ∧
          t.fw.runImages = s.fw.runImages ∧ t.caddy = s.caddy ∧ sameBytes s t))) ∧
  (∀ s : State, s.fw.awaiting.contains .hubfw = true → (curPointer s.caddy).rseq.toNat + 1 < 2 ^ 32 →
    runsTo .hubfwHandover s fun t =>
      t.fw.activePair = !s.fw.activePair ∧ fieldN t.fw.fwCtl 7 4 = 1 ∧ fwBusy t = false ∧
      runImage t .hubfw = (imageAt s.caddy .hubfw (.slot (freeSlotOf s.caddy .hubfw))).getD [] ∧
      committedPlace (curPointer t.caddy) .hubfw = .slot (freeSlotOf s.caddy .hubfw) ∧ t.pots = s.pots ∧ sameBytes s t) ∧
  (∀ (s : State) (n : PotIx), s.fw.awaiting.contains .brewfw = true → s.inf.load = none →
    (nextMove s = some n → (potOf s n).quiesced = false →
      (let u := { s with fw := { s.fw with moved := s.fw.moved ++ [n.toNat] } }
       runsTo (.brewfwPotQuiesce n true) s fun t =>
         (potOf t n).quiesced = false ∧ sameBytes s t ∧
         (nextMove u ≠ none →
           t.fw.moved = s.fw.moved ++ [n.toNat] ∧ t.fw.runImages = s.fw.runImages ∧ t.caddy = s.caddy) ∧
         (nextMove u = none →
           fieldN t.fw.fwCtl 7 4 = 1 ∧ fwBusy t = false ∧
           runImage t .brewfw = (imageAt s.caddy .brewfw (.slot (freeSlotOf s.caddy .brewfw))).getD [])) ∧
      runsTo (.brewfwPotQuiesce n false) s fun t =>
        (potOf t n).quiesced = true ∧ t.fw = s.fw ∧ t.caddy = s.caddy ∧ sameBytes s t) ∧
    ((potOf s n).quiesced = true →
      runsTo (.brewfwSelfcheckTimeout n) s fun t =>
        fieldN t.fw.fwCtl 7 4 = 8 ∧ fwBusy t = false ∧ t.fw.moved = [] ∧ t.fw.runImages = s.fw.runImages ∧
        t.caddy = s.caddy ∧ (potOn s n = true → (potOf t n).quiesced = false) ∧ sameBytes s t)) ∧
  (∀ s : State, regBad s keyCtlKey = false → mgmtServed s = true →
    let kept := fun (c : Instr) (op result : Nat) => runsTo c s fun t =>
      t = { s with fw := { s.fw with keyCtl := t.fw.keyCtl } } ∧ fieldN t.fw.keyCtl 0 2 = op ∧ fieldN t.fw.keyCtl 4 3 = result ∧
      keyWindow t = keyWindow s
    let changed := fun (c : Instr) (op : Nat) (o : OwnerKey) => runsTo c s fun t =>
      t = { s with fw := { s.fw with keyCtl := t.fw.keyCtl, boot := putBit s.fw.boot 4 (ownerUsable o) },
                   caddy := { s.caddy with owner := o } } ∧
      fieldN t.fw.keyCtl 0 2 = op ∧ fieldN t.fw.keyCtl 4 3 = 1 ∧ keyWindow t = keyWindow s
    (ownerUsable s.caddy.owner = true ∨ keyWindow s = false → kept .enroll 1 2) ∧
    (ownerUsable s.caddy.owner = false → keyWindow s = true → s.power.pgCaddy = true → changed .enroll 1 (newOwner s)) ∧
    (ownerSigned s (keyBytes (stagedKey s)) = false → kept .rotate 2 3) ∧
    (ownerSigned s (keyBytes (stagedKey s)) = true → s.power.pgCaddy = true → changed .rotate 2 (newOwner s)) ∧
    (keyWindow s = false → ownerSigned s revokeBytes = false → kept .revoke 3 3) ∧
    (keyWindow s = true ∨ ownerSigned s revokeBytes = true → ownerRelied s = true → kept .revoke 3 4) ∧
    (keyWindow s = true ∨ ownerSigned s revokeBytes = true → ownerRelied s = false → s.power.pgCaddy = true →
      changed .revoke 3 ⟨0, BitVec.allOnes 256, false, true⟩) ∧
    (newOwner s).key = stagedKey s ∧ ownerUsable (newOwner s) = true)

/-- Mirrors, migrations and retirement. An accepted MIGRATE puts every data entry of the pot in STATE 0b01 with a
target in another pot and starts the cursor; one without room shows "no reserve" and leaves the map. MIRROR
writes its entry with STATE 0b01 and the mirror group; UNMIRROR clears MIRROR_EN, or asks for that change while
a command resolved through the entry runs. A copy unit moves one row and advances the cursor; settling copies
what leaf units dirtied and asks for the switch; the switch moves every entry at once. ABORT returns every
moving entry to its source with RESULT ABANDONED; with nothing running its RESULT is 2. RETIRE_POT powers the
pot off and gives its entries to their mirrors or to STATE 0b10; UNRETIRE_POT returns them to the identity;
RETIRE_MXE and RETURN_MXE take a matrix engine out of service and back. -/
def Obligations.ServiceOperations : Prop :=
  (∀ s : State, svcTakes s = true →
    let ended := fun (t : State) (op result : Nat) => fieldN t.svc.ctl 0 4 = op ∧ fieldN t.svc.ctl 6 4 = result ∧ svcBusy t = false
    (∀ (pot : PotIx) (r : Bool),
      (potPresent s pot = false →
        runsTo (.migrate pot r) s fun t => ended t 1 2 ∧ t.map = s.map ∧ t.svc.cursor = s.svc.cursor ∧ sameBytes s t) ∧
      (potPresent s pot = true →
        let u := (unmirrorIn s pot).1
        let moves := startMoves pot ((entriesPhys u pot).filter (dataGroup s)) u
        (moves = none →
          runsTo (.migrate pot r) s fun t => ended t 1 3 ∧ t.map = s.map ∧ t.svc.cursor = s.svc.cursor ∧ sameBytes s t) ∧
        (moves ≠ none →
          runsTo (.migrate pot r) s fun t =>
            svcBusy t = true ∧ sameBytes s t ∧ (cursorOf t.svc.cursor).src = pot ∧ (cursorOf t.svc.cursor).retire = r ∧
            ((cursorOf t.svc.cursor).phase = 1 ∨ (cursorOf t.svc.cursor).phase = 2) ∧ (cursorOf t.svc.cursor).unit = 0 ∧
            t.svc.cursorN = ~~~t.svc.cursor ∧
            (∀ ix ∈ entriesPhys s pot, dataGroup s ix = true →
              entState (entryOf t ix) = 1 ∧ entPot (entryOf t ix) = pot ∧
              entGroup (entryOf t ix) = entGroup (entryOf s ix) ∧ entMirrorPot (entryOf t ix) ≠ pot) ∧
            ∀ ix, entPot (entryOf s ix) ≠ pot → entSecond (entryOf s ix) = false → entryOf t ix = entryOf s ix))) ∧
    (∀ (e : BitVec 11) (p : PotIx) (g : GroupIx),
      (mirrorOk s e.toNat p g = true →
        runsTo (.mirror e p g) s fun t =>
          svcBusy t = true ∧ sameBytes s t ∧ entState (entryOf t e.toNat) = 1 ∧ entMirrorPot (entryOf t e.toNat) = p ∧
          entMirrorGroup (entryOf t e.toNat) = g ∧ entPot (entryOf t e.toNat) = entPot (entryOf s e.toNat) ∧
          (∀ ix, ix ≠ e.toNat → entryOf t ix = entryOf s ix) ∧
          cursorOf t.svc.cursor = ⟨entPot (entryOf s e.toNat), e.toNat, 0, 1, false, true, 0⟩) ∧
      (mirrorOk s e.toNat p g = false →
        runsTo (.mirror e p g) s fun t => ended t 2 2 ∧ t.map = s.map ∧ sameBytes s t)) ∧
    (∀ e : BitVec 11, s.map.waiting = [] →
      (entMirrorEn (entryOf s e.toNat) = true → entState (entryOf s e.toNat) = 0 → homeChanging s e.toNat = false →
        entryInUse s e.toNat = true →
        runsTo (.unmirror e) s fun t =>
          svcBusy t = true ∧ fieldN t.svc.ctl 0 4 = 3 ∧ sameBytes s t ∧ t.map.entries = s.map.entries ∧
          tfind t.map.changes e.toNat = some (putBit (entryOf s e.toNat) 11 false)) ∧
      (entMirrorEn (entryOf s e.toNat) = true → entState (entryOf s e.toNat) = 0 → homeChanging s e.toNat = false →
        entryInUse s e.toNat = false →
        runsTo (.unmirror e) s fun t =>
          ended t 3 1 ∧ sameBytes s t ∧ entryOf t e.toNat = putBit (entryOf s e.toNat) 11 false ∧
          ∀ ix, ix ≠ e.toNat → entryOf t ix = entryOf s ix) ∧
      (entMirrorEn (entryOf s e.toNat) = false ∨ entState (entryOf s e.toNat) ≠ 0 →
        runsTo (.unmirror e) s fun t => ended t 3 2 ∧ t.map = s.map ∧ sameBytes s t)) ∧
    (∀ pot : PotIx,
      (potPresent s pot = true →
        runsTo (.retirePot pot) s fun t =>
          ended t 4 1 ∧ potPresent t pot = false ∧ potRetired t pot = true ∧ bitAt t.power.enPot pot.toNat = false ∧
          (potOf t pot).pmt.allot = 0 ∧ t.fuses = s.fuses ∧
          (tsorted s.map.entries = true →
            ∀ ix < 2048, entPot (entryOf s ix) = pot → entState (entryOf s ix) ≠ 2 →
              (entMirrorEn (entryOf s ix) = false → entState (entryOf t ix) = 2 ∧ entPot (entryOf t ix) = pot) ∧
              (entMirrorEn (entryOf s ix) = true →
                entState (entryOf t ix) = 0 ∧ entPot (entryOf t ix) = entMirrorPot (entryOf s ix) ∧
                entGroup (entryOf t ix) = entMirrorGroup (entryOf s ix) ∧ entMirrorEn (entryOf t ix) = false))) ∧
      (potPresent s pot = false → runsTo (.retirePot pot) s fun t => ended t 4 2 ∧ t.map = s.map ∧ sameBytes s t)) ∧
    (∀ (pot : PotIx), potEnabled s pot = true → potRetired s pot = true →
      (runsTo (.unretirePot pot true) s fun t =>
        ended t 5 1 ∧ potRetired t pot = false ∧ bitAt t.power.enPot pot.toNat = true ∧ (potOf t pot).inReset = false ∧
        (potOf t pot).pmt.allot.toNat = backAllot s ∧ sameBytes s t ∧
        ∀ g < 64, entState (entryOf s (64 * pot.toNat + g)) = 2 →
          entryOf t (64 * pot.toNat + g) = homeEntry s (64 * pot.toNat + g)) ∧
      runsTo (.unretirePot pot false) s fun t => ended t 5 5 ∧ potRetired t pot = true ∧ t.map = s.map ∧ sameBytes s t) ∧
    (∀ pot : PotIx,
      (potPresent s pot = true → mxePresent s pot = true →
        runsTo (.retireMxe pot) s fun t => ended t 6 1 ∧ mxePresent t pot = false) ∧
      (potOn s pot = true → mxeFused s = true → mxePresent s pot = false →
        ((potOf s pot).mxe.failed = false →
          runsTo (.returnMxe pot) s fun t =>
            ended t 7 1 ∧ bitAt t.svc.mxeOut pot.toNat = false ∧ t.pots = s.pots ∧ sameBytes s t) ∧
        ((potOf s pot).mxe.failed = true →
          runsTo (.returnMxe pot) s fun t => ended t 7 5 ∧ t.svc.mxeOut = s.svc.mxeOut ∧ sameBytes s t)))) ∧
  (∀ s : State, regBad s svcKey = false → s.fw.running = true →
    (migPhase s = 0 → svcBusy s = true → runsTo .abort s fun t => t = s) ∧
    (migPhase s = 0 → svcBusy s = false → runsTo .abort s fun t => fieldN t.svc.ctl 6 4 = 2 ∧ svcBusy t = false ∧ t.map = s.map ∧ sameBytes s t) ∧
    (migPhase s ≠ 0 → s.map.waiting = [] →
      runsTo .abort s fun t =>
        fieldN t.svc.ctl 6 4 = 4 ∧ svcBusy t = false ∧ migPhase t = 0 ∧ sameBytes s t ∧
        ∀ ix ∈ entriesMoving s, entState (entryOf t ix) = 0 ∧ entMirrorEn (entryOf t ix) = false ∧
          entPot (entryOf t ix) = entPot (entryOf s ix) ∧ entGroup (entryOf t ix) = entGroup (entryOf s ix))) ∧
  (∀ s : State, s.fw.running = true → s.memoryOk →
    let c := cursorOf s.svc.cursor
    let e := entryOf s c.entry
    let target : Place := ⟨entMirrorPot e, entMirrorGroup e, BitVec.ofNat 4 c.unit, BitVec.ofNat 15 (c.unit / 16), 0⟩
    c.phase = 1 → entState e = 1 → moveServed s c.entry = true →
    (schedOf (potOf s (entPot e)) (entGroup e).toNat).merge = [] → (potOf s (entMirrorPot e)).pat.copy = none →
    runsTo .migrationCopyUnit s fun t =>
      t.map = s.map ∧ t.tray = s.tray ∧ (t.dram = (copyUnit s c.entry c.unit).dram) ∧
      (∀ a, (∀ b, placeRow (potOf s (entMirrorPot e)) target = some b → a / 4096 ≠ b) →
        cellGet dramDefault t.dram a = cellGet dramDefault s.dram a) ∧
      (c.unit + 1 < 2 ^ 19 → cursorOf t.svc.cursor = { c with unit := c.unit + 1 }) ∧
      (c.unit + 1 = 2 ^ 19 → nextCopy s (c.entry + 1) = none → (cursorOf t.svc.cursor).phase = 2)) ∧
  (∀ s : State, s.fw.running = true →
    let c := cursorOf s.svc.cursor
    (c.phase = 2 → ((entriesMoving s).all fun ix => moveServed s ix && !entryInUse s ix) = true →
      (∀ ix ∈ entriesMoving s, (schedOf (potOf s (entPot (entryOf s ix))) (entGroup (entryOf s ix)).toNat).dirty = []) →
      runsTo .migrationSettle s fun t =>
        cursorOf t.svc.cursor = { c with phase := 3 } ∧ sameBytes s t ∧
        ∀ ix, entryOf t ix = entryOf s ix ∧
          (ix ∈ entriesMoving s → tfind t.map.changes ix = some (switched c (entryOf s ix)))) ∧
    (c.phase = 3 → ((entriesMoving s).all fun ix => !entryInUse s ix) = true → s.map.waiting = [] →
      c.retire = false ∨ c.mirrorOp = true →
      runsTo .migrationSwitch s fun t =>
        migPhase t = 0 ∧ fieldN t.svc.ctl 6 4 = 1 ∧ svcBusy t = false ∧ sameBytes s t ∧
        (∀ ix ∈ entriesMoving s, entState (entryOf t ix) = 0 ∧
          (c.mirrorOp = true → entMirrorEn (entryOf t ix) = true ∧ entPot (entryOf t ix) = entPot (entryOf s ix)) ∧
          (c.mirrorOp = false → entMirrorEn (entryOf t ix) = false ∧
            entPot (entryOf t ix) = entMirrorPot (entryOf s ix) ∧ entGroup (entryOf t ix) = entMirrorGroup (entryOf s ix))) ∧
        ∀ ix, ix ∉ entriesMoving s → entryOf t ix = entryOf s ix))

/-- Loads are served in order, phase by phase, and drains end them. The oldest load request is taken to phase 1 at
its receiving strainer. A phase that runs to its end ends the load or takes it to the next phase, and leaves the
queue of requests. Phase 3 without a flaw holds the next id as LOADING in phase 4; with a flaw the load ends,
its command REJECTED with CODE and PHASE, its rejection counted, and the infusion table as it was. The commit
goes to phase 8, in which every placed pot is still to report and what it wrote over is kept; the last report
makes the infusion LOADED and completes the command OK, with the pot's sync words set. A pot that does not
report in time ends the load TIMEOUT with XV_INTERRUPTED and frees its id. When INFLIGHT reaches 0 the draining
infusion is FREE and its command OK; after 100 ms it is LOADED again and its command TIMEOUT. -/
def Obligations.LoadsAndDrains : Prop :=
  (∀ (s : State) (r : LoadReq) (rest : List LoadReq), s.inf.queue = r :: rest → hubOn s = true → s.inf.load = none →
    activationWaits s = false → potTakes s r.recv = true → addrServed s r.recv r.desc = true →
    runsTo .loadQueueServe s fun t =>
      t.inf.queue = rest ∧ t.inf.table = s.inf.table ∧ t.tray = s.tray ∧
      ∃ l, t.inf.load = some l ∧ l.req = r ∧ l.phase = 1 ∧
        l.descriptor = lineOfBytes (readAddrBytes s r.recv (loadWho r.tag) r.desc.toNat 64).2.1) ∧
  (∀ (s : State) (l : Load), s.inf.load = some l → phaseReady s l = true →
    (1 ≤ l.phase.toNat → l.phase.toNat < 8 →
      runsTo .loadPhase s fun t =>
        t.inf.queue = s.inf.queue ∧ t.fuses = s.fuses ∧
        (t.inf.load = none ∨ ∃ m, t.inf.load = some m ∧ m.req = l.req ∧
          (m.phase.toNat = l.phase.toNat + 1 ∨ (l.phase = 4 ∧ l.saved ≠ none ∧ m.phase = 7)))) ∧
    (l.phase = 3 → l.saved = none →
      (∀ i, declFlaws l.image (nodeId s).toNat = [] → grantId s = some i → 
        runsTo .loadPhase s fun t =>
          t.inf.load = some { l with phase := 4, id := BitVec.ofNat 12 i } ∧
          infOf t (BitVec.ofNat 12 i) = { Inf.reset with state := 1 } ∧ t.pots = s.pots ∧ sameBytes s t) ∧
      (∀ f, firstFlaw (declFlaws l.image (nodeId s).toNat) = some f → f.code = 3 →
        runsTo .loadPhase s fun t =>
          t.inf.load = none ∧ t.inf.table = s.inf.table ∧ fieldN t.hfe.rejectCount 32 8 = 3 ∧
          fieldN t.hfe.rejectCount 0 32 = min (2 ^ 32 - 1) (fieldN s.hfe.rejectCount 0 32 + 1) ∧
          ∀ key, l.req.cmd = some key →
            (potOf t l.lead).answers = (potOf s l.lead).answers ++ [loadAnswer key .rejected 3 f.phase l.id])) ∧
    (l.phase = 7 →
      runsTo .loadPhase s fun t =>
        t.inf.load = some { l with phase := 8, doneLeft := l.place, undo := l.pots.map (undoOf s l) })) ∧
  (∀ (s : State) (l : Load) (n : PotIx) (p : LoadPot), s.inf.load = some l → l.phase = 8 → l.id ≠ 0 →
    l.pots.find? (fun x => x.res.pot == n.toNat) = some p → l.doneLeft.contains n.toNat = true → potTakes s n = true →
    (∀ x ∈ (potOf s n).lucq ++ (potOf s n).leafWait, x.raw ≠ commitLeaf l) → (∀ x ∈ (potOf s n).runs, x.raw ≠ commitLeaf l) →
    runsTo (.loadCommitDone n) s fun t =>
      (p.res.syncs.Nodup → ∀ x ∈ p.res.syncs.zip p.syncs,
        syncWordOf (potOf t n).snc x.1 = { x.2 with owner := l.id, alloc := true }) ∧
      (∀ m ∈ l.doneLeft, m ≠ n.toNat →
        t.inf.load = some { l with doneLeft := l.doneLeft.filter fun x => x != n.toNat } ∧ sameBytes s t) ∧
      ((∀ m ∈ l.doneLeft, m = n.toNat) →
        t.inf.load = none ∧ (infOf t l.id).state = 2 ∧ (infOf t l.id).inflight = 0 ∧ (infOf t l.id).phys = l.place ∧
        (infOf t l.id).entries = l.entries ∧ (infOf t l.id).lead = l.lead ∧
        ∀ key, l.req.cmd = some key →
          (potOf t l.lead).answers = (potOf s l.lead).answers ++ [loadAnswer key .ok 0 0 l.id])) ∧
  (∀ (s : State) (l : Load) (n : PotIx), s.inf.load = some l → loadOn s n = true →
    (l.phase.toNat < 8 ∨ l.doneLeft.contains n.toNat = true) →
    runsTo (.loadPhaseTimeout n) s fun t =>
      t.inf.load = none ∧ fieldN t.hfe.rejectCount 32 8 = 0xF ∧ t.inf.queue = s.inf.queue ∧
      (4 ≤ l.phase.toNat → l.id ≠ 0 → infOf t l.id = Inf.reset) ∧
      ∀ key, l.req.cmd = some key →
        (potOf t (loadHolder l)).answers.getLast? = some (loadAnswer key .timeout 0xF (min 7 l.phase.toNat) l.id)) ∧
  (∀ (s : State) (id : BitVec 12) (d : Drain), s.inf.drains.find? (fun x => x.infusion == id) = some d →
    ((infOf s id).inflight = 0 → potTakes s (infOf s id).lead = true → (infOf s id).state = 3 ∨ (infOf s id).state = 4 →
      runsTo (.infusionDrained id) s fun t =>
        infOf t id = Inf.reset ∧ (∀ x ∈ t.inf.drains, x.infusion ≠ id) ∧
        (potOf t d.pot).answers.getLast? = some (simpleAns d.cmd .ok)) ∧
    ((infOf s id).state = 3 → (infOf s id).inflight ≠ 0 →
      runsTo (.drainTimeout id) s fun t =>
        infOf t id = { infOf s id with state := 2 } ∧ (∀ x ∈ t.inf.drains, x.infusion ≠ id) ∧ sameBytes s t ∧
        (∀ j, j ≠ id → infOf t j = infOf s j) ∧
        (potOf t d.pot).answers = (potOf s d.pot).answers ++ [simpleAns d.cmd .timeout]))

/-- What READ, STORE, FILL, EMPTY, WAIT and SIGNAL do to their word. On an allocated, sound word of a pot in service
at which nothing waits, READ leaves the word, STORE writes VALUE and FULL, SIGNAL adds its operand to VALUE and
sets FULL, FILL of an empty word writes VALUE and sets FULL, EMPTY of a full word clears FULL and keeps VALUE,
and WAIT whose condition holds leaves the word; FILL of a full word, EMPTY of an empty one and a WAIT whose
condition does not hold park and leave the word. Every change keeps the complements in agreement, and every
other word and every byte of memory is as it was. -/
def Obligations.SyncWordOperations : Prop :=
  ∀ (s : State) (n : PotIx) (ix : BitVec 16) (a : Agent), syncFree s n a → wordReady s n ix.toNat →
    let w := syncWordOf (potOf s n).snc ix.toNat
    (runsTo (.read n ix a) s fun t => syncWordOf (potOf t n).snc ix.toNat = w ∧ otherWords n [ix.toNat] s t) ∧
    (∀ x f, runsTo (.store n ix a x f) s fun t =>
      syncWordOf (potOf t n).snc ix.toNat = { w with value := x, valueN := ~~~x, full := f, fullN := !f, broken := false } ∧
        otherWords n [ix.toNat] s t) ∧
    (∀ x, runsTo (.signal n ix a x) s fun t =>
      syncWordOf (potOf t n).snc ix.toNat =
        { w with value := w.value + x, valueN := ~~~(w.value + x), full := true, fullN := false } ∧ otherWords n [ix.toNat] s t) ∧
    (∀ x, w.full = false → runsTo (.fill n ix a x) s fun t =>
      syncWordOf (potOf t n).snc ix.toNat = { w with value := x, valueN := ~~~x, full := true, fullN := false } ∧
        otherWords n [ix.toNat] s t) ∧
    (w.full = true → runsTo (.empty n ix a) s fun t =>
      syncWordOf (potOf t n).snc ix.toNat = { w with full := false, fullN := true } ∧ otherWords n [ix.toNat] s t) ∧
    (∀ c x, waitCond w c x = true → runsTo (.wait n ix a c x) s fun t =>
      syncWordOf (potOf t n).snc ix.toNat = w ∧ (potOf t n).snc.waiters = [] ∧ otherWords n [ix.toNat] s t) ∧
    (∀ x, w.full = true → runsTo (.fill n ix a x) s fun t =>
      syncWordOf (potOf t n).snc ix.toNat = w ∧ (potOf t n).snc.waiters.length = 1 ∧ otherWords n [ix.toNat] s t) ∧
    (w.full = false → runsTo (.empty n ix a) s fun t =>
      syncWordOf (potOf t n).snc ix.toNat = w ∧ (potOf t n).snc.waiters.length = 1 ∧ otherWords n [ix.toNat] s t) ∧
    (∀ c x, waitCond w c x = false → runsTo (.wait n ix a c x) s fun t =>
      syncWordOf (potOf t n).snc ix.toNat = w ∧ (potOf t n).snc.waiters.length = 1 ∧ otherWords n [ix.toNat] s t)

/-- A completion returns its status and view, and a STORE wakes what waits for it. An operation from a request slot
of the hub that completes at once sets the slot's DONE with status OK and the view the word then has; one on a
word with ALLOC 0 completes REJECTED (READ: OK, a waiting one: TIMEOUT); a STORE to an empty word at which one
FILLED wait of another hub slot is parked completes both. -/
def Obligations.SyncCompletionsReachTheirAgent : Prop :=
  (∀ (s : State) (n : PotIx) (ix : BitVec 16) (c k : BitVec 2), syncFree s n (.hubSlot c k) → wordReady s n ix.toNat →
    (runsTo (.read n ix (.hubSlot c k)) s fun t =>
      hubSlotDone t c k .ok (syncView (wordSeen (potOf s n).snc (fwWords s n) ix.toNat))) ∧
    (∀ x f, runsTo (.store n ix (.hubSlot c k) x f) s fun t =>
      hubSlotDone t c k .ok (syncView (wordSeen (potOf t n).snc (fwWords s n) ix.toNat))) ∧
    (∀ x, runsTo (.signal n ix (.hubSlot c k) x) s fun t =>
      hubSlotDone t c k .ok (syncView (wordSeen (potOf t n).snc (fwWords s n) ix.toNat)))) ∧
  (∀ (s : State) (n : PotIx) (ix : BitVec 16) (c k : BitVec 2), syncFree s n (.hubSlot c k) →
    (wordSeen (potOf s n).snc (fwWords s n) ix.toNat).alloc = false → (syncWordOf (potOf s n).snc ix.toNat).broken = false →
    wordSound (syncWordOf (potOf s n).snc ix.toNat) = true →
    (runsTo (.read n ix (.hubSlot c k)) s fun t =>
      hubSlotDone t c k .ok (syncView (wordSeen (potOf s n).snc (fwWords s n) ix.toNat))) ∧
    (∀ x f, runsTo (.store n ix (.hubSlot c k) x f) s fun t =>
      hubSlotDone t c k .rejected (syncView (wordSeen (potOf s n).snc (fwWords s n) ix.toNat)) ∧
        syncWordOf (potOf t n).snc ix.toNat = syncWordOf (potOf s n).snc ix.toNat) ∧
    (runsTo (.empty n ix (.hubSlot c k)) s fun t =>
      hubSlotDone t c k .timeout (syncView (wordSeen (potOf s n).snc (fwWords s n) ix.toNat)))) ∧
  (∀ (s : State) (n : PotIx) (ix : BitVec 16) (c k d j : BitVec 2) (x : Word64) (o : Waiter), potOn s n = true →
    slotTaken s (.hubSlot c k) = false → (c, k) ≠ (d, j) → (potOf s n).snc.held = [] → (potOf s n).snc.waiters = [o] →
    o.index = ix → o.yop = 4 → o.cond = 0 → o.agent = .hubSlot d j → wordReady s n ix.toNat →
    runsTo (.store n ix (.hubSlot c k) x true) s fun t =>
      (potOf t n).snc.waiters = [] ∧ (tget t.hubSnc (c.toNat * 4 + k.toNat) SncSlot.reset).done = true ∧
      (tget t.hubSnc (d.toNat * 4 + j.toNat) SncSlot.reset).done = true ∧
      (tget t.hubSnc (d.toNat * 4 + j.toNat) SncSlot.reset).status = .ok)

/-- ARRIVE counts, the last arrival releases its round, and BWAIT leaves it. On a ready barrier pair at which
nothing waits, in open round r with nobody left to leave: an ARRIVE for round r that is not the last adds one
arrival; a lone participant's BARRIER (N of 1) arrives, opens the next round and leaves, so that the pair is
ready for the next round; a BWAIT for the open round parks; and a BWAIT for the round before, with participants
still to leave, takes one of them away. An operation on an odd word is REJECTED with both words as they were. -/
def Obligations.BarrierOperations : Prop :=
  (∀ (s : State) (n : PotIx) (ix : BitVec 16) (a : Agent) (x : Word64), syncFree s n a → ix.toNat % 2 = 0 →
    wordReady s n ix.toNat → wordReady s n (ix.toNat + 1) → pairOk (syncWordOf (potOf s n).snc (ix.toNat + 1)).value = true →
    let v := (syncWordOf (potOf s n).snc (ix.toNat + 1)).value
    let arr := (syncWordOf (potOf s n).snc ix.toNat).value
    (fieldN x 0 2 = pairOpen v → pairLeave v = 0 → arrOf arr (pairOpen v) + 1 < pairN v →
      runsTo (.arrive n ix a x) s fun t =>
        arrOf (syncWordOf (potOf t n).snc ix.toNat).value (pairOpen v) = arrOf arr (pairOpen v) + 1 ∧
        (syncWordOf (potOf t n).snc (ix.toNat + 1)).value = v ∧ otherWords n [ix.toNat, ix.toNat + 1] s t) ∧
    (fieldN x 0 2 = pairOpen v → pairLeave v = 0 → pairN v = 1 → arrOf arr (pairOpen v) = 0 →
        arrOf arr (pairOpen v + 1) = 0 →
      runsTo (.barrier n ix a x) s fun t =>
        pairOpen (syncWordOf (potOf t n).snc (ix.toNat + 1)).value = (pairOpen v + 1) % 4 ∧
        pairLeave (syncWordOf (potOf t n).snc (ix.toNat + 1)).value = 0 ∧
        arrOf (syncWordOf (potOf t n).snc ix.toNat).value (pairOpen v) = 0 ∧ (potOf t n).snc.waiters = [] ∧
        otherWords n [ix.toNat, ix.toNat + 1] s t) ∧
    (fieldN x 0 2 = pairOpen v → arrOf arr (pairOpen v) < pairN v →
      runsTo (.bwait n ix a x) s fun t =>
        (potOf t n).snc.waiters.length = 1 ∧ (syncWordOf (potOf t n).snc (ix.toNat + 1)).value = v ∧
        otherWords n [ix.toNat, ix.toNat + 1] s t) ∧
    ((fieldN x 0 2 + 1) % 4 = pairOpen v → 1 < pairLeave v →
      runsTo (.bwait n ix a x) s fun t =>
        pairLeave (syncWordOf (potOf t n).snc (ix.toNat + 1)).value = pairLeave v - 1 ∧ (potOf t n).snc.waiters = [] ∧
        otherWords n [ix.toNat, ix.toNat + 1] s t)) ∧
  (∀ (s : State) (n : PotIx) (ix : BitVec 16) (c k : BitVec 2) (x : Word64), syncFree s n (.hubSlot c k) → ix.toNat % 2 = 1 →
    runsTo (.arrive n ix (.hubSlot c k) x) s fun t =>
      (tget t.hubSnc (c.toNat * 4 + k.toNat) SncSlot.reset).status = .rejected ∧ otherWords n [] s t)

/-- A wait that times out leaves the table, and a held operation enters again. SNC_WAIT_TIMEOUT of a hub slot's
parked operation, with WAIT_US above zero, removes it and completes it TIMEOUT, leaving every word as it was.
SNC_INPUT_HOLD_RELEASE of a held STORE performs it. -/
def Obligations.SyncWaitsTimeOutAndReenter : Prop :=
  (∀ (s : State) (n : PotIx) (c k : BitVec 2) (o : Waiter), (potOf s n).snc.waiters = [o] → (potOf s n).snc.held = [] →
    o.agent = .hubSlot c k → fieldN (sncCtl s n) 32 32 ≠ 0 →
    runsTo (.sncWaitTimeout n (.hubSlot c k)) s fun t =>
      (potOf t n).snc.waiters = [] ∧
      hubSlotDone t c k .timeout (syncView (wordSeen (potOf s n).snc (fwWords s n) o.index.toNat)) ∧ otherWords n [] s t) ∧
  (∀ (s : State) (n : PotIx) (o : Waiter), (potOf s n).snc.held = [o] → (potOf s n).snc.waiters = [] → o.yop = 1 →
    wordReady s n o.index.toNat →
    runsTo (.sncInputHoldRelease n) s fun t =>
      (potOf t n).snc.held = [] ∧
      syncWordOf (potOf t n).snc o.index.toNat =
        { syncWordOf (potOf s n).snc o.index.toNat with
          value := o.operand, valueN := ~~~o.operand, full := o.full, fullN := !o.full, broken := false })

/-- Flits, acknowledgements, replay and the states of a port. IDLE changes nothing. A flit slot sends the control
flit that waits, else a new flit with the next VSEQ, a credit and a copy for replay, else IDLE. A received flit
with a bad HCRC, a bad PCRC or an unexpected VSEQ is not kept; one in sequence enters its receive buffer. ACK
drops what it acknowledges and returns credits, NAK and NAK_ALL queue the flits from their VSEQ for replay, and
the eighth NAK of one flit takes the port DOWN. A flit of VC 7 acts as the control command of its type. The
spare lane is used once. A port trains, exchanges INIT and is UP; each failure takes it DOWN with its cause. An
orderly stop drains and ends with LAST_WORDS. -/
def Obligations.LinkPorts : Prop :=
  ∀ (s : State) (n : PotIx) (k : BitVec 1),
    let p := portOf (potOf s n) k.toNat
    (portLive p = true →
      (∀ f fs, p.ctrl = f :: fs → p.state ≠ .init →
        runsTo (.flitSlot n k) s fun t => onlyPort n k s t ∧
          portOf (potOf t n) k.toNat =
            { p with slotNo := p.slotNo + 1, ctrl := fs, wire := some f, initSent := p.initSent || f.mtype == 0x84 }) ∧
      (p.ctrl = [] → p.state ≠ .init → pickVc { p with slotNo := p.slotNo + 1 } = none →
        runsTo (.flitSlot n k) s fun t => onlyPort n k s t ∧
          portOf (potOf t n) k.toNat = { p with slotNo := p.slotNo + 1, wire := some idleFlit }) ∧
      (∀ v f fs, p.ctrl = [] → p.state ≠ .init → pickVc { p with slotNo := p.slotNo + 1 } = some v → p.replayq = [] →
        tget p.txq v [] = f :: fs →
        runsTo (.flitSlot n k) s fun t => onlyPort n k s t ∧
          let q := portOf (potOf t n) k.toNat
          tget q.txq v [] = fs ∧ nextOf q v = nextOf p v + 1 ∧ occOf q v = occOf p v + 1 ∧
          q.replay = p.replay ++ [{ f.1 with vseq := nextOf p v }] ∧
          ∃ g, q.wire = some g ∧ g.payload = f.1.payload ∧ g.vseq = nextOf p v ∧ g.vc = f.1.vc) ∧
      (p.state = .init → p.ctrl = [initFlit s (portNo n k)] → p.initGot = true →
        runsTo (.flitSlot n k) s fun t =>
          (portOf (potOf t n) k.toNat).state = .up ∧ (portOf (potOf t n) k.toNat).wire = some (initFlit s (portNo n k))) ∧
      runsTo (.silentTimeout n k) s (portEnded n k 4) ∧ runsTo (.lockLoss n k) s (portEnded n k 3) ∧
      (runsTo (.idle n k) s fun t => t = s) ∧
      ∀ r : BitVec 3, runsTo (.lastWords n k r) s fun t =>
        portEnded n k 5 t ∧
          (p.initGot = true → p.partner.toNat < 4096 → 2 ≤ r.toNat ∧ r.toNat ≤ 4 → (routeOf t p.partner).lost = true)) ∧
    (∀ (f : Flit) (c : Bool), f.vc = 7 →
      (f.mtype = 0x80 → runsTo (.flitReceive n k f true c) s fun t => t = s) ∧
      (f.mtype = 0x82 → exec (.flitReceive n k f true c) s = exec (.nak n k (fieldB f.payload 0 3) (fieldB f.payload 8 12)) s) ∧
      (f.mtype = 0x85 → exec (.flitReceive n k f true c) s = exec (.laneSwap n k (fieldB f.payload 0 3)) s) ∧
      (f.mtype = 0x86 → exec (.flitReceive n k f true c) s = exec (.lastWords n k (fieldB f.payload 0 3)) s)) ∧
    (p.state = .up ∨ p.state = .drain →
      (∀ (f : Flit) (h c : Bool), f.vc.toNat < 5 ∨ h = false →
        (h = false → runsTo (.flitReceive n k f h c) s fun t => onlyPort n k s t ∧
          (portOf (potOf t n) k.toNat).ctrl = p.ctrl ++ [nakAllFlit p] ∧ (portOf (potOf t n) k.toNat).rxParts = p.rxParts) ∧
        (h = true → c = false → runsTo (.flitReceive n k f h c) s fun t => onlyPort n k s t ∧
          (portOf (potOf t n) k.toNat).ctrl = p.ctrl ++ [nakFlitOf p f.vc.toNat] ∧
          (portOf (potOf t n) k.toNat).rxParts = p.rxParts) ∧
        (h = true → c = true → f.vseq ≠ expOf p f.vc.toNat → runsTo (.flitReceive n k f h c) s fun t => t = s) ∧
        (h = true → c = true → f.vseq = expOf p f.vc.toNat →
          (∀ g gs rest, leadMsg (tget p.rxParts f.vc.toNat [] ++ [f]) = some (g :: gs, rest) → mtypeKnown g.mtype = true) →
          runsTo (.flitReceive n k f h c) s fun t => onlyPort n k s t ∧
            expOf (portOf (potOf t n) k.toNat) f.vc.toNat = f.vseq + 1 ∧
            tget (portOf (potOf t n) k.toNat).rxParts f.vc.toNat [] = tget p.rxParts f.vc.toNat [] ++ [f] ∧
            ∀ v, v ≠ f.vc.toNat → tget (portOf (potOf t n) k.toNat).rxParts v [] = tget p.rxParts v [])) ∧
      (∀ v : BitVec 3, v.toNat < 5 →
        runsTo (.ackTimer n k v) s fun t => onlyPort n k s t ∧
          (portOf (potOf t n) k.toNat).ctrl = p.ctrl ++ [ackFlit p] ∧ (portOf (potOf t n) k.toNat).creditsDue = [] ∧
          ∀ w < 5, ackOf (portOf (potOf t n) k.toNat) w = expOf p w) ∧
      (∀ acks : List (BitVec 12 × BitVec 12), acks.length = 5 →
        runsTo (.ack n k acks) s fun t => onlyPort n k s t ∧
          (∀ f, f ∈ (portOf (potOf t n) k.toNat).replay ↔
            f ∈ p.replay ∧ ∀ a, acks[f.vc.toNat]? = some a → 2048 ≤ (a.1 - f.vseq).toNat) ∧
          (∀ f, f ∈ (portOf (potOf t n) k.toNat).replayq ↔
            f ∈ p.replayq ∧ ∀ a, acks[f.vc.toNat]? = some a → 2048 ≤ (a.1 - f.vseq).toNat) ∧
          ∀ v a, acks[v]? = some a → occOf (portOf (potOf t n) k.toNat) v = occOf p v - a.2.toNat) ∧
      (∀ (v : BitVec 3) (x : BitVec 12), (p.replay.any fun f => f.vc == v && f.vseq == x) = true →
        ((tget p.nakFlit v.toNat (0, 0)).1 = x → (tget p.nakFlit v.toNat (0, 0)).2 < 7) →
        runsTo (.nak n k v x) s fun t => onlyPort n k s t ∧
          (portOf (potOf t n) k.toNat).replay = p.replay ∧
          (portOf (potOf t n) k.toNat).replayq = (p.replayq.filter fun f => f.vc != v) ++
            p.replay.filter fun f => f.vc == v && decide ((f.vseq - x).toNat < 2048)) ∧
      (∀ (v : BitVec 3) (x : BitVec 12), (p.replay.any fun f => f.vc == v && f.vseq == x) = true →
        (tget p.nakFlit v.toNat (0, 0)).1 = x → 7 ≤ (tget p.nakFlit v.toNat (0, 0)).2 →
        runsTo (.nak n k v x) s (portEnded n k 1)) ∧
      (∀ xs : List (BitVec 12), xs.length = 5 → p.nakFlit = [] →
        runsTo (.nakAll n k xs) s fun t => onlyPort n k s t ∧ (portOf (potOf t n) k.toNat).replay = p.replay ∧
          ∀ f ∈ p.replay, ∀ x, xs[f.vc.toNat]? = some x → (p.replay.any fun g => g.vc == f.vc && g.vseq == x) = true →
            (f.vseq - x).toNat < 2048 → f ∈ (portOf (potOf t n) k.toNat).replayq) ∧
      (∀ l : BitVec 3,
        (p.txSwapped = 0xF → runsTo (.laneSwap n k l) s fun t => onlyPort n k s t ∧
          portOf (potOf t n) k.toNat = { p with txSwapped := l.setWidth 4, events := satField p.events 48 8 1 }) ∧
        (p.txSwapped ≠ 0xF → runsTo (.laneSwap n k l) s (portEnded n k 2)) ∧
        (p.swapped = 0xF → runsTo (.laneFail n k l) s fun t => onlyPort n k s t ∧
          portOf (potOf t n) k.toNat =
            { p with ctrl := p.ctrl ++ [laneSwapFlit l.toNat], swapped := l.setWidth 4, events := satField p.events 48 8 1 }) ∧
        (p.swapped ≠ 0xF → runsTo (.laneFail n k l) s (portEnded n k 2)))) ∧
    (p.state = .down → portMayTrain s n k = true →
      runsTo (.trainingRetry n k) s fun t => (portOf (potOf t n) k.toNat).state = .training ∧ sameBytes s t) ∧
    (p.state = .training →
      runsTo (.trainingTimeout n k) s (portEnded n k 0) ∧
      ∀ l : Option (BitVec 3), runsTo (.trainingLock n k l) s fun t => onlyPort n k s t ∧
        portOf (potOf t n) k.toNat =
          { p with state := .init, swapped := (l.map fun x => x.setWidth 4).getD 0xF, ctrl := [initFlit s (portNo n k)],
                   initSent := false, initGot := false }) ∧
    (p.state = .init →
      runsTo (.initTimeout n k) s (portEnded n k 6) ∧
      ∀ (node : BitVec 16) (port : BitVec 6) (stepping : Byte) (rs : List (BitVec 12)) (pool : BitVec 12) (rtt : BitVec 24),
        (node = nodeId s → runsTo (.init n k node port stepping rs pool rtt) s (portEnded n k 6)) ∧
        (node ≠ nodeId s → runsTo (.init n k node port stepping rs pool rtt) s fun t =>
          let q := portOf (potOf t n) k.toNat
          q.state = (if p.initSent then .up else .init) ∧ q.partner = node ∧ q.partnerPort = port ∧ q.pool = pool.toNat ∧
          q.rttNs = rtt ∧ q.initGot = true)) ∧
    (p.state = .drain → runsTo (.portDrainTimeout n k) s fun t =>
      portEnded n k 5 t ∧ (portOf (potOf t n) k.toNat).wire = some (lastWordsFlit p.reason.toNat)) ∧
    (potPresent s n = true →
      (runsTo (.enable n k true) s fun t => portOf (potOf t n) k.toNat = { p with enable := true } ∧ sameBytes s t) ∧
      (p.state = .up →
        (runsTo (.enable n k false) s fun t =>
          let q := portOf (potOf t n) k.toNat
          q.state = .drain ∧ q.reason = 0 ∧ q.enable = false) ∧
        (runsTo (.portReset n k) s fun t =>
          let q := portOf (potOf t n) k.toNat
          q.state = .drain ∧ q.reason = 0 ∧ q.enable = p.enable) ∧
        ((∀ e ∈ s.drz.routes, bitAt e.2.ports (portNo n k) = true →
            ((eligible s (BitVec.ofNat 16 e.1)).any fun x => x != portNo n k && (portAt s x).state == .up) = true) →
          (runsTo (.enable n k false) s fun t =>
            portOf (potOf t n) k.toNat = { p with enable := false, state := .drain, reason := 0 } ∧ sameBytes s t) ∧
          runsTo (.portReset n k) s fun t =>
            portOf (potOf t n) k.toNat = { p with state := .drain, reason := 0 } ∧ sameBytes s t)) ∧
      (p.state = .drain ∨ p.state = .down →
        (runsTo (.enable n k false) s fun t => portOf (potOf t n) k.toNat = { p with enable := false } ∧ sameBytes s t) ∧
        runsTo (.portReset n k) s fun t => t = s) ∧
      (p.state = .training ∨ p.state = .init →
        (runsTo (.enable n k false) s fun t => portEnded n k 0 t ∧ (portOf (potOf t n) k.toNat).enable = false) ∧
        runsTo (.portReset n k) s fun t => portEnded n k 0 t ∧ (portOf (potOf t n) k.toNat).enable = p.enable))

/-- What each Drizor message does when its module takes it. A message at the front of its channel, addressed to this
module, leaves its buffer. WRITE puts its bytes into the tray and counts toward CT; READ_REQ sends READ_RSP with
the bytes; READ_RSP gives a gathered row to the request that waits; a covered SIGNAL reaches its word and an
uncovered changing operation is deferred; SYNC_REQ's READ leaves its word; SYNC_RSP completes the sender's
operation; STREAM_ACK moves the acknowledged number; RESYNC sets CT; NODE_LOST loses its node; a CUPPING that
the module does not follow is ignored, and MGMT of another kind records a fault; RESOLVED sets the member's
EXPECTED; PARTIAL gives a waiting member its status and value, and without its request counts late; CMD in plain
memory is answered by RESOLVED. A message for another node is forwarded with one hop fewer. A deferred operation
whose cover is reached leaves the table, one that waits too long is stranded, and an advance of CT is
acknowledged. A route write changes its entry; LOSSY is cleared by firmware. -/
def Obligations.MessagesTakeEffect : Prop :=
  (∀ (s : State) (n : PotIx) (k : BitVec 1) (h : MsgHdr),
    (ownNode s h.dst = true →
      (∀ (data : List Byte) (poison : Word64), msgHere s n k 1 h → data.length ≤ 2048 → s.memoryOk →
        let a := fieldN h.addr 0 32
        potOn s (BitVec.ofNat 5 (a / 2 ^ 27)) = true → a % 2 ^ 27 + data.length ≤ 2 ^ 27 →
        runsTo (.write n k h data poison) s fun t =>
          cellRead trayDefault t.tray a data.length = data ∧
          (∀ b, b < a ∨ a + data.length ≤ b → cellGet trayDefault t.tray b = cellGet trayDefault s.tray b) ∧
          (∀ b, cellGet dramDefault t.dram b = cellGet dramDefault s.dram b) ∧
          ((ctOf (portOf (potOf s n) k.toNat) (ctKey h.src h.srcPot)).beyond = [] →
            h.sseq = (ctOf (portOf (potOf s n) k.toNat) (ctKey h.src h.srcPot)).ct + 1 →
            (ctOf (portOf (potOf t n) k.toNat) (ctKey h.src h.srcPot)).ct = h.sseq)) ∧
      (∀ (b : BitVec 12) (q : Nat), msgHere s n k 2 h →
        let s1 := msgTaken s n k 2
        let r := trayPieces (ceilDiv b.toNat 32) s1 (fieldN h.addr 0 32)
        pickPort r.1 (nodeId r.1) n h.src = some q → potOn s (BitVec.ofNat 5 (fieldN h.addr 0 32 / 2 ^ 27)) = true →
        runsTo (.readReq n k h b) s fun t =>
          msgSent r.1 t q 3 (ownHdr r.1 n h.src h.sseq h.tag h.infusion h.addr)
            (bytesOfNat 8 0 ++ ((r.2.map Prod.fst).flatten).take b.toNat ++ poisonBytes r.2.length (r.2.map Prod.snd)) ∧
          sameBytes s t) ∧
      (∀ (st : Status) (data : List Byte) (poison : Word64) (r : RemoteReq) (rest : List RemoteReq) (key : Nat),
        msgHere s n k 3 h →
        pullFirst (fun (x : RemoteReq) => x.id == h.sseq) (potOf s (reqPot h.sseq)).remote = some (r, rest) → r.what = .row key →
        runsTo (.readRsp n k h st data poison) s fun t =>
          (potOf t (reqPot h.sseq)).remote = rest ∧
          (potOf t (reqPot h.sseq)).sfe = sfeData key (bitPieces data poison) (potOf s (reqPot h.sseq)).sfe ∧ sameBytes s t) ∧
      (∀ (id : BitVec 32) (yop : BitVec 4) (full : Bool) (x : Word64), msgHere s n k 4 h →
        (portOf (potOf s n) k.toNat).deferral.length < 256 →
        let c := ctOf (portOf (potOf s n) k.toNat) (ctKey h.src h.srcPot)
        (seqLe h.sseq c.ct = false →
          runsTo (.syncChg n k h id yop full x) s fun t =>
            (portOf (potOf t n) k.toNat).deferral =
              (portOf (potOf s n) k.toNat).deferral ++ [⟨h.src, h.srcPot, h.sseq, h, id, yop, full, x⟩] ∧
            (∀ m, (potOf t m).snc.words = (potOf s m).snc.words) ∧ sameBytes s t) ∧
        (seqLe h.sseq c.ct = true → (∀ d ∈ (portOf (potOf s n) k.toNat).deferral, ¬ (d.src = h.src ∧ d.srcPot = h.srcPot)) → yop = 5 →
          ∀ m ix, fieldB h.addr 0 5 = m → fieldB h.addr 5 16 = ix → potOn s m = true → wordReady s m ix.toNat →
          (potOf s m).snc.waiters = [] → (potOf s m).snc.held = [] →
          runsTo (.syncChg n k h id yop full x) s fun t =>
            syncWordOf (potOf t m).snc ix.toNat =
              { syncWordOf (potOf s m).snc ix.toNat with
                value := (syncWordOf (potOf s m).snc ix.toNat).value + x
                valueN := ~~~((syncWordOf (potOf s m).snc ix.toNat).value + x), full := true, fullN := false } ∧
            otherWords m [ix.toNat] s t)) ∧
      (∀ (cond : BitVec 2) (x : Word64), msgHere s n k 5 h → potOn s (fieldB h.addr 0 5) = true →
        (potOf s (fieldB h.addr 0 5)).snc.waiters = [] → (potOf s (fieldB h.addr 0 5)).snc.held = [] →
        wordReady s (fieldB h.addr 0 5) (fieldN h.addr 5 16) →
        runsTo (.syncReq n k h 0 cond x) s fun t => otherWords (fieldB h.addr 0 5) [] s t) ∧
      (∀ (st : Status) (view : BitVec 128) (r : RemoteReq) (rest : List RemoteReq) (c j : BitVec 2), msgHere s n k 6 h →
        pullFirst (fun (x : RemoteReq) => x.id == h.sseq) (potOf s (reqPot h.sseq)).remote = some (r, rest) →
        r.what = .sync (.hubSlot c j) →
        runsTo (.syncRsp n k h st view) s fun t =>
          hubSlotDone t c j st view ∧ (potOf t (reqPot h.sseq)).remote = rest ∧ sameBytes s t) ∧
      (∀ ct : BitVec 32, msgHere s n k 7 h →
        let e := streamEnt (potOf s (fieldB h.addr 0 5)) h.src
        e.resync = false → seqLe e.acked ct = true → seqLe ct e.last = true → e.held = [] →
        runsTo (.streamAck n k h ct) s fun t =>
          streamEnt (potOf t (fieldB h.addr 0 5)) h.src = { e with acked := ct } ∧ sameBytes s t) ∧
      (∀ lossy : Bool, msgHere s n k 8 h → (portOf (potOf s n) k.toNat).deferral.length < 256 →
        runsTo (.resync n k h lossy) s fun t =>
          ctOf (portOf (potOf t n) k.toNat) (ctKey h.src h.srcPot) = ⟨h.sseq, [], h.sseq⟩ ∧ sameBytes s t) ∧
      (∀ (p : Word64) (level : BitVec 3) (hd : Line) (op : List Byte) (q : Nat), msgHere s n k 9 h → s.hfe.pimOff = true →
        pickPort (msgTaken s n k 9) (nodeId s) 0 h.src = some q → (∀ c ∈ s.hfe.table, c.id ≠ s.hfe.nextId) →
        runsTo (.cmd n k h p level hd op) s fun t =>
          msgSent (msgTaken s n k 9) t q 0xA (ownHdr s 0 h.src h.sseq h.tag h.infusion 0) (bytesOfNat 1 0 ++ bytesOfNat 4 0) ∧
          (cmdOf t s.hfe.nextId).any (fun c => c.status == some .pimOffline && c.remoteOf == some (h.src, h.sseq, 0)) = true ∧
          sameBytes s t) ∧
      (∀ (rec : BitVec 4) (ex : BitVec 32) (r : RemoteReq) (c key : Nat), msgHere s n k 0xA h →
        (potOf s (reqPot h.sseq)).remote.find? (fun x => x.id == h.sseq) = some r → r.what = .member c key →
        runsTo (.resolved n k h rec ex) s fun t =>
          t = updPart (msgTaken s n k 0xA) c key fun p => if p.state = .waiting then { p with expected := ex.toNat } else p) ∧
      (∀ (rec : BitVec 4) (st : Status) (fl : BitVec 3) (ex an : BitVec 32) (v : List Byte), msgHere s n k 0xB h →
        (∀ x ∈ (potOf s (reqPot h.sseq)).remote, x.id ≠ h.sseq) →
        runsTo (.partialResult n k h rec st fl ex an v) s fun t =>
          t = { msgTaken s n k 0xB with hfe := { s.hfe with lateCount := satField s.hfe.lateCount 0 32 1 } }) ∧
      (∀ (rec : BitVec 4) (st : Status) (fl : BitVec 3) (ex an : BitVec 32) (v : List Byte) (r : RemoteReq)
          (rest : List RemoteReq) (c key : Nat) (cm : Cmd) (p : Part), msgHere s n k 0xB h →
        pullFirst (fun (x : RemoteReq) => x.id == h.sseq) (potOf s (reqPot h.sseq)).remote = some (r, rest) →
        r.what = .member c key → memberOf s key = some (cm, p) → p.state = .waiting →
        runsTo (.partialResult n k h rec st fl ex an v) s fun t =>
          (potOf t (reqPot h.sseq)).remote = rest ∧ sameBytes s t ∧
          ∃ cm' p', memberOf t key = some (cm', p') ∧
            p' = { p with state := .answered, expected := ex.toNat, answered := an.toNat, status := st, isPartial := bitAt fl 0,
                          poison := bitAt fl 1,
                          res := resOfBytes (((cmdOf s c).map fun c => lfRed c.header).getD 0) (bitAt fl 2) v }) ∧
      (∀ node : BitVec 16, msgHere s n k 0xC h → node.toNat < 4096 →
        runsTo (.nodeLost n k h node) s fun t => (routeOf t node).lost = true ∧ sameBytes s t) ∧
      (∀ (mk : Byte) (origin : BitVec 16) (no : BitVec 32) (hops : BitVec 4), msgHere s n k 0xD h →
        (mk = 1 → bitAt s.cup.ctl 2 = false →
          runsTo (.mgmt n k h mk origin no hops) s fun t => t = msgTaken s n k 0xD) ∧
        (mk = 1 → bitAt s.cup.ctl 2 = true → bitAt s.cup.ctl 3 = false → cupBusy s = false →
          ¬ (fieldB s.cup.log 0 16 = logOrigin s origin ∧ fieldB s.cup.log 64 32 = no) →
          runsTo (.mgmt n k h mk origin no hops) s fun t =>
            fieldB t.cup.log 0 16 = logOrigin s origin ∧ fieldB t.cup.log 64 32 = no ∧
            fieldN t.cup.log 16 4 = (hops.toNat + 1) % 16 ∧ sameBytes s t) ∧
        (mk ≠ 1 → s.cup.inbound.length < 64 →
          runsTo (.mgmt n k h mk origin no hops) s fun t =>
            t.cup.inbound.length = s.cup.inbound.length + 1 ∧ t.pots = (msgTaken s n k 0xD).pots ∧ sameBytes s t))) ∧
    (∀ (b : BitVec 12) (q : Nat), ownNode s h.dst = false → msgHere s n k 2 h → h.hops ≠ 0 →
      pickPort (msgTaken s n k 2) h.src h.srcPot h.dst = some q →
      runsTo (.readReq n k h b) s fun t =>
        msgSent (msgTaken s n k 2) t q 2 { h with hops := h.hops - 1 } (bytesOfNat 4 b.toNat) ∧ sameBytes s t)) ∧
  (∀ (s : State) (n : PotIx) (k : BitVec 1) (d : Deferred) (rest : List Deferred),
    let p := portOf (potOf s n) k.toNat
    (pullFirst (mayLeave p) p.deferral = some (d, rest) → pickPort s (nodeId s) n d.hdr.src ≠ none →
      (potOf s (fieldB d.hdr.addr 0 5)).snc.waiters = [] → (potOf s (fieldB d.hdr.addr 0 5)).snc.held = [] →
      runsTo (.deferredOpRelease n k) s fun t => (portOf (potOf t n) k.toNat).deferral = rest ∧ sameBytes s t) ∧
    (pullFirst (fun d => !seqLe d.cover (ctOf p (ctKey d.src d.srcPot)).ct) p.deferral = some (d, rest) →
      pickPort s (nodeId s) n d.src ≠ none →
      runsTo (.strandTimeout n k) s fun t =>
        (portOf (potOf t n) k.toNat).deferral = rest ∧ (∀ m, (potOf t m).snc.words = (potOf s m).snc.words) ∧
        fieldN (potOf t n).snc.events 56 16 = min (2 ^ 16 - 1) (fieldN (potOf s n).snc.events 56 16 + 1) ∧ sameBytes s t)) ∧
  (∀ (s : State) (n : PotIx) (k : BitVec 1) (src : BitVec 16) (sp : PotIx),
    let c := ctOf (portOf (potOf s n) k.toNat) (ctKey src sp)
    portLive (portOf (potOf s n) k.toNat) = true → c.ct ≠ c.acked →
    runsTo (.streamAckTimer n k src sp) s fun t =>
      ctOf (portOf (potOf t n) k.toNat) (ctKey src sp) = { c with acked := c.ct } ∧ sameBytes s t) ∧
  (∀ (s : State) (d : BitVec 12) (ports : Word64), hubOn s = true →
    let e := d.setWidth 16
    let up := (upto 64).any fun q => bitAt ports q && (portAt s q).state == .up
    runsTo (.sptRouteWrite d ports) s fun t =>
      (routeOf t e).ports = ports ∧ sameBytes s t ∧ (up = true → (routeOf t e).lost = false) ∧
      (up = false → ((eligible s e).any fun q => (portAt s q).state == .up) = true → (routeOf t e).lost = true) ∧
      (up = false → ((eligible s e).any fun q => (portAt s q).state == .up) = false →
        (routeOf t e).lost = (routeOf s e).lost)) ∧
  (∀ (s : State) (n : PotIx) (d : BitVec 12), potOn s n = true →
    runsTo (.lossyClear n d) s fun t =>
      onlyPot n s t ∧ potOf t n = { potOf s n with streams := (potOf t n).streams } ∧
      streamEnt (potOf t n) (d.setWidth 16) = { streamEnt (potOf s n) (d.setWidth 16) with lossy := false } ∧
      ∀ e, e ≠ d.setWidth 16 → streamEnt (potOf t n) e = streamEnt (potOf s n) e)

/-- Reads latch, writes stage and commit, and snapshots copy the counters. A narrow access is refused and counted, a
longer one goes in parts of 8 B, an unmapped one reads zero and writes nothing. A read of word 0 shows the
register and fills the requester's latch; a later word comes from the latch. A write of a word below the last is
staged; the last word commits: at once for an RW register, to the buffer for a buffered one, whose boundary
applies it, and never for a read-only one. The indirect pair reads and stages the same way and moves its address
on; an address outside its space sets RANGE. A parity mismatch puts the register out of use, sets CFG_ERR and
sends a record. A snapshot START advances SEQ and goes to the windows in scope; each latches its counters and,
with CLEAR, clears them. -/
def Obligations.RegisterAccess : Prop :=
  (∀ (s : State) (who : Requester) (off : BitVec 26), hubOn s = true →
    (∀ (size : BitVec 4), reaches who (splitOffset off.toNat).1 = true → narrow off.toNat size.toNat = true →
      windowCounts s (splitOffset off.toNat).1 = true → size.toNat ≤ 8 →
      (runsTo (.word0Read who off size) s fun t =>
        t = showReg (countRegErr s (splitOffset off.toNat).1 0) who 0) ∧
      ∀ v, runsTo (.registerWrite who off size v) s fun t => t = countRegErr s (splitOffset off.toNat).1 0) ∧
    (∀ size : BitVec 4, reaches who (splitOffset off.toNat).1 = false → windowCounts s (splitOffset off.toNat).1 = true →
      size.toNat ≤ 8 →
      (runsTo (.word0Read who off size) s fun t => t = showReg (countRegErr s (splitOffset off.toNat).1 32) who 0) ∧
      ∀ v, runsTo (.registerWrite who off size v) s fun t => t = countRegErr s (splitOffset off.toNat).1 32) ∧
    (reaches who (splitOffset off.toNat).1 = true → off.toNat % 8 = 0 → locate off.toNat = none →
      (runsTo (.word0Read who off 8) s fun t => t = showReg s who 0) ∧
      ∀ v, runsTo (.registerWrite who off 8 v) s fun t => t = s) ∧
    (∀ r : RegAt, reaches who (splitOffset off.toNat).1 = true → off.toNat % 8 = 0 → locate off.toNat = some r →
      gate s who r.win r.base = .served → r.holding = false → isIndData r = false →
      (r.word = 0 → r.base ≠ 0xA020 →
        runsTo (.word0Read who off 8) s fun t =>
          t.out.reg = some (who, wordOf (regValue s who r.win r.base) 0) ∧
          latched t who (regKey r.win r.base) = some (regValue s who r.win r.base) ∧ sameBytes s t) ∧
      (∀ x, 0 < r.word → ¬ (r.base = 0x4100 ∧ r.word = 3) → latched s who (regKey r.win r.base) = some x →
        runsTo (.word0Read who off 8) s fun t => t = showReg s who (wordOf x r.word)) ∧
      (∀ v, r.word + 1 < r.words → slotWriteHeld s r = none →
        runsTo (.registerWrite who off 8 v) s fun t =>
          tfind (tget t.regs.stages (requesterCode who) ⟨[]⟩).words (64 * regKey r.win r.base + r.word) = some v ∧
          tfind t.regs.latches (requesterCode who) = none ∧
          t = { s with regs := { s.regs with latches := t.regs.latches, stages := t.regs.stages } }) ∧
      (∀ v t0, slotWriteHeld s r = some t0 → runsTo (.registerWrite who off 8 v) s fun t => t = t0)) ∧
    (∀ (size : BitVec 4) (v : Word64), 8 < size.toNat →
      exec (.word0Read who off size) s =
        andThen (regRead s who off.toNat 8) (fun t => regRead t who ((off.toNat + 8) % 2 ^ 26) (size.toNat - 8)) ∧
      exec (.registerWrite who off size v) s =
        andThen (regWrite s who off.toNat 8 v) (fun t => regWrite t who ((off.toNat + 8) % 2 ^ 26) (size.toNat - 8) v))) ∧
  (∀ (s : State) (who : Requester) (v : Word64), hubOn s = true → s.power.step = .running →
    (reaches who .hub = true →
      (runsTo (.registerWrite who 0 8 v) s fun t =>
        t = { s with regs := { s.regs with latches := t.regs.latches, stages := t.regs.stages } }) ∧
      (runsTo (.registerWrite who 0x5028 8 v) s fun t =>
        tget t.cup.sel (requesterCode who) 0 = fieldB v 0 32 ∧ sameBytes s t) ∧
      (runsTo (.registerWrite who 0x3000 8 v) s fun t =>
        t.ket = s.ket ∧ sameBytes s t ∧
        bufferOf t ketCtlKey = some (mergeFlds ((bufferOf s ketCtlKey).getD s.ket.ctl.toNat) v.toNat ketFlds)) ∧
      runsTo (.word0Read who 0x48 8) s fun t =>
        t.hfe.absentCount = 0 ∧ t.out.reg = some (who, wordOf (hubValue s who 0x48) 0)) ∧
    (∀ b, bufferOf s ketCtlKey = some b →
      runsTo (.rwbApply .ket) s fun t =>
        t.ket = { s.ket with ctl := BitVec.ofNat 64 b } ∧ bufferOf t ketCtlKey = none ∧ t.pots = s.pots ∧ sameBytes s t) ∧
    (∀ (n : PotIx) (b : Nat), bufferOf s (potReg n 0x6000) = some b → potOn s n = true →
      runsTo (.rwbApply (.snc n)) s fun t =>
        (potOf t n).snc = { (potOf s n).snc with ctl := BitVec.ofNat 128 b } ∧ bufferOf t (potReg n 0x6000) = none ∧
        sameBytes s t)) ∧
  (∀ (s : State) (who : Requester), hubOn s = true → s.power.step = .running → reaches who .hub = true →
    let w := indAddr s who .hub
    (∀ sp, indSpace w ≠ 0 → hubSpace (indSpace w) = some sp → indInside sp w = true →
      (indWord w = 0 →
        runsTo (.indDataAccess who .hub none) s fun t =>
          t.out.reg = some (who, wordOf (indValue s .hub (indSpace w) (indIndex w)) 0) ∧
          indAddr t who .hub = indAdvance sp w ∧ sameBytes s t) ∧
      (∀ v, sp.commit ≠ some (indWord w) →
        runsTo (.indDataAccess who .hub (some v)) s fun t =>
          indAddr t who .hub = indAdvance sp w ∧ t.blend = s.blend ∧ t.map = s.map ∧ t.drz = s.drz ∧ t.fw = s.fw ∧
          t.pots = s.pots ∧ sameBytes s t)) ∧
    (∀ sp, indSpace w ≠ 0 → hubSpace (indSpace w) = some sp → indInside sp w = false →
      runsTo (.indDataAccess who .hub none) s fun t =>
        t.out.reg = some (who, 0) ∧ bitAt (indAddr t who .hub) 41 = true ∧
        fieldN t.regs.hubRegErr 48 16 = min (2 ^ 16 - 1) (fieldN s.regs.hubRegErr 48 16 + 1) ∧ sameBytes s t) ∧
    (∀ v, indSpace w = 3 → indIndex w < 16 → indWord w = 1 → bitAt w 41 = false →
      runsTo (.indDataAccess who .hub (some v)) s fun t =>
        bitAt (tget t.blend.stage (indIndex w) 0) 81 = false ∧
        fieldN (tget t.blend.stage (indIndex w) 0) 64 17 = fieldN v 0 17 ∧ t.blend.table = s.blend.table ∧
        indAddr t who .hub = indAdvance ⟨16, 2, some 1⟩ w ∧ sameBytes s t)) ∧
  (∀ (s : State) (h : ParityHit), s.power.step = .running → h.buffered = false → hitStands s .hub h = true →
    standingHits s .hub = [] → s.cup.inbound.length < 64 →
    runsTo (.parityWalk .hub [h]) s fun t =>
      regBad t (hitKey .hub h) = true ∧ bitAt t.regs.hubCfgErr (hitBlock .hub h) = true ∧
      (fieldN s.regs.hubCfgErr 0 16 = 0 → fieldN t.regs.hubCfgErr 16 24 = hitOffset .hub h) ∧
      t.cup.inbound.length = s.cup.inbound.length + 1 ∧ t.pots = s.pots ∧ sameBytes s t) ∧
  (∀ s : State, hubOn s = true → s.power.step = .running →
    (∀ (scope : BitVec 2) (n : PotIx) (clear : Bool), scope ≠ 3 → bitAt s.regs.snap 9 = false →
      runsTo (.snapshotStart scope n clear) s fun t =>
        fieldN t.regs.snap 16 16 = (fieldN s.regs.snap 16 16 + 1) % 2 ^ 16 ∧ bitAt t.regs.snap 7 = clear ∧
        t.regs.latchLeft = snapScope s scope.toNat n ∧ bitAt t.regs.snap 9 = !(snapScope s scope.toNat n).isEmpty ∧
        t.pots = s.pots ∧ sameBytes s t) ∧
    (s.regs.latchLeft.contains 0 = true →
      runsTo (.snapshotLatch .hub) s fun t =>
        fieldN t.regs.snap 32 16 = fieldN s.regs.snap 16 16 ∧ bitAt t.regs.snap 48 = true ∧
        tget t.regs.holding 0x48 0 = hubValue s .host 0x48 ∧ t.regs.latchLeft = s.regs.latchLeft.filter (· != 0) ∧
        bitAt t.regs.snap 9 = !t.regs.latchLeft.isEmpty ∧ sameBytes s t ∧
        (bitAt s.regs.snap 7 = true → t.hfe.absentCount = 0 ∧ t.hfe.lateCount = 0 ∧ t.cup.events = 0) ∧
        (bitAt s.regs.snap 7 = false → t.hfe = s.hfe ∧ t.cup = s.cup)) ∧
    (∀ n : PotIx, s.regs.latchLeft.contains (potWin n) = true → potOn s n = true →
      runsTo (.snapshotLatch (.pot n)) s fun t =>
        (potOf t n).snapSeq = fieldB s.regs.snap 16 16 ∧ (potOf t n).snapValid = true ∧ sameBytes s t ∧
        (bitAt s.regs.snap 7 = true → (potOf t n).luEvents = 0 ∧ (potOf t n).snc.events = 0)))

/-- Cuppings latch every island, fault records enter the ring, and trace records their buffer. A cupping started
while none is under way takes the next CUPNO, sets BUSY, sends the latch to every island and shows this module
in CUP_LOG; one started while BUSY is merged and counted. An island that latches holds CUPNO and its anchor, and
BUSY ends with the last; one in reset shows VALID 0. The hub takes the oldest fault record into the ring under
the next SEQ; one that finds the inbound queue full is counted and marks the next. An enabled trace record
enters its pot's buffer with its fields, a mark as event 0x0C; enabling clears STOPPED and TRIGGERED; a pop
takes the oldest record. -/
def Obligations.CuppingAndRecords : Prop :=
  (∀ s : State, cupServed s = true →
    let starts := fun (c : Instr) =>
      (cupBusy s = false → runsTo c s fun t =>
        fieldN t.cup.ctl 32 32 = (fieldN s.cup.ctl 32 32 + 1) % 2 ^ 32 ∧ bitAt t.cup.ctl 1 = true ∧
        t.cup.latchLeft = latchTargets s ∧ fieldN t.cup.log 0 16 = 0xFFFF ∧ fieldN t.cup.log 64 32 = fieldN t.cup.ctl 32 32 ∧
        t.cup.ring = s.cup.ring ∧ t.cup.inbound = s.cup.inbound ∧ sameBytes s t) ∧
      (cupBusy s = true → runsTo c s fun t =>
        t = { s with cup := { s.cup with events := satField s.cup.events 0 16 1 } })
    starts .cuppingStart ∧ (fieldN s.cup.ctl 8 24 ≠ 0 → starts .cuppingPeriodTimer)) ∧
  (∀ (s : State) (i : Island), islandOk i = true → s.cup.latchLeft.contains (islandNo i) = true →
    runsTo (.cuppingLatch i) s fun t =>
      t.cup.latchLeft = s.cup.latchLeft.filter (· != islandNo i) ∧ bitAt t.cup.ctl 1 = !t.cup.latchLeft.isEmpty ∧
      sameBytes s t ∧
      (islandOff s (islandNo i) = false →
        (captureOf t (islandNo i)).cupno = fieldB s.cup.ctl 32 32 ∧ (captureOf t (islandNo i)).anchored = true ∧
        (captureOf t (islandNo i)).words.length = 8 ∧
        fieldN (nth (captureOf t (islandNo i)).words 1 0) 0 32 = fieldN s.cup.ctl 32 32 ∧
        bitAt (nth (captureOf t (islandNo i)).words 1 0) 45 = true) ∧
      (islandOff s (islandNo i) = true →
        (captureOf t (islandNo i)).anchored = false ∧
        (2 ≤ (captureOf s (islandNo i)).words.length → bitAt (nth (captureOf t (islandNo i)).words 1 0) 45 = false))) ∧
  (∀ (s : State) (r : Line) (rest : List Line), cupServed s = true → s.cup.inbound = r :: rest →
    s.fw.running = false ∨ (fieldN r 64 8 ≠ 9 ∧ fieldN r 64 8 ≠ 4 ∧ fieldN r 64 8 ≠ 5) → bitAt s.cup.ctl 4 = false →
    runsTo .faultRecordAccept s fun t =>
      t.cup.inbound = rest ∧ t.cup.newest = s.cup.newest + 1 ∧ t.cup.held = min 1024 (s.cup.held + 1) ∧
      tget t.cup.ring (t.cup.newest.toNat % 1024) 0 = sealRecord r t.cup.newest ∧
      fieldB (sealRecord r t.cup.newest) 96 32 = t.cup.newest ∧
      (∀ j, j ≠ t.cup.newest.toNat % 1024 → tget t.cup.ring j 0 = tget s.cup.ring j 0) ∧ t.pots = s.pots ∧ sameBytes s t) ∧
  (∀ (s : State) (i : Island), islandOff s (islandNo i) = false → 64 ≤ s.cup.inbound.length →
    runsTo (.faultRecordLost i) s fun t =>
      t = { s with cup := { s.cup with lossNext := true, events := satField s.cup.events 32 16 1 } }) ∧
  (∀ (s : State) (n : PotIx), potOn s n = true →
    let c := (potOf s n).cup
    (∀ (u : BitVec 6) (ev : Byte) (st : Status) (tag : BitVec 16) (inf : BitVec 12) (a0 : BitVec 32) (a1 : Word64) (loss : Bool),
      (potUnits s).contains u.toNat = true →
      (bitAt c.ctl 0 = false →
        runsTo (.traceRecord n u ev st tag inf a0 a1 loss) s fun t => t = s) ∧
      (bitAt c.ctl 0 = true → bitAt c.en ev.toNat = true → 1 ≤ ev.toNat → ev.toNat ≤ 0xC → c.stopped = false →
        c.buffer.length < 8192 → traceHits c ev.toNat tag.toNat = false →
        runsTo (.traceRecord n u ev st tag inf a0 a1 loss) s fun t =>
          sameBytes s t ∧ (∀ m, m ≠ n → potOf t m = potOf s m) ∧
          ∃ r, (potOf t n).cup.buffer = c.buffer ++ [r] ∧ fieldN r 0 8 = ev.toNat ∧ fieldN r 8 13 = potIsland n u.toNat ∧
            bitAt r 21 = loss ∧ fieldN r 32 16 = tag.toNat ∧ fieldN r 48 12 = inf.toNat ∧ fieldN r 160 32 = a0.toNat ∧
            fieldN r 192 64 = a1.toNat ∧ fieldN r 24 8 = (if ev = 2 then statusCode st else 0))) ∧
    (∀ (a0 : BitVec 32) (a1 : Word64),
      (bitAt c.ctl 0 = false → runsTo (.cupMarkWrite n a0 a1) s fun t => onlyPot n s t ∧
        (potOf t n).cup = { c with mark := BitVec.ofNat 128 (a0.toNat + a1.toNat * 2 ^ 64) }) ∧
      (bitAt c.ctl 0 = true → bitAt c.en 0xC = true → c.stopped = false → c.buffer.length < 8192 →
        traceHits c 0xC 0 = false →
        runsTo (.cupMarkWrite n a0 a1) s fun t =>
          (potOf t n).cup.mark = BitVec.ofNat 128 (a0.toNat + a1.toNat * 2 ^ 64) ∧ sameBytes s t ∧
          ∃ r, (potOf t n).cup.buffer = c.buffer ++ [r] ∧ fieldN r 0 8 = 0xC ∧ fieldN r 160 32 = a0.toNat ∧
            fieldN r 192 64 = a1.toNat)) ∧
    (hubOn s = true → s.power.step = .running →
      (runsTo (.traceEnable n) s fun t => onlyPot n s t ∧ potOf t n =
        { potOf s n with cup := { c with ctl := putBit c.ctl 0 true, stopped := false, triggered := false, postLeft := 0 } }) ∧
      ∀ who, reaches who (.pot n) = true →
        runsTo (.cupTracePop who n) s fun t =>
          (potOf t n).cup = { c with buffer := c.buffer.drop 1 } ∧ t.out.reg = some (who, wordOf (potValue s who n 0xA020) 0) ∧
          latched t who (potReg n 0xA020) = some (potValue s who n 0xA020) ∧ sameBytes s t))

/-- Sideband and JTAG commands work from the always-on domain. With VDD_AON up and the hub powered, SET_OFFSET
stores the offset, READ64 answers with the register's word and the status byte, WRITE64 acts as the sideband
agent's write, a narrow offset is denied, and STATUS shows the last status; with the hub down every one answers
"hub in reset" and changes nothing else. ENTDAA gives an address once. BYPASS, IDCODE, SAMPLE/PRELOAD, EXTEST
and TRST_N change the JTAG port alone. -/
def Obligations.SidebandAndJtag : Prop :=
  (∀ s : State, s.power.aon = true →
    (hubOn s = false →
      ∀ c, c ∈ [Instr.read64, Instr.status, Instr.setOffset 0, Instr.write64 0 0] →
        runsTo c s fun t => t = sbShow s 0 sbInReset) ∧
    (hubOn s = true →
      (∀ off, runsTo (.setOffset off) s fun t => t = { s with sb := { s.sb with offset := off, status := sbDone } }) ∧
      (s.power.step = .running →
        (s.sb.offset = 0 → runsTo .read64 s fun t =>
          t.out.sideband = some (wordOf (hubValue s .sideband 0) 0, sbDone) ∧ t.sb.status = sbDone ∧ t.out.reg = s.out.reg ∧
          t.pots = s.pots ∧ sameBytes s t) ∧
        (s.sb.offset.toNat % 8 ≠ 0 → s.sb.offset.toNat < 2 ^ 24 → runsTo .read64 s fun t =>
          t.out.sideband = some (0, sbDenied) ∧ t.sb.status = sbDenied ∧ t.pots = s.pots ∧ sameBytes s t) ∧
        (∀ v, runsTo (.write64 0x5028 v) s fun t =>
          tget t.cup.sel (requesterCode .sideband) 0 = fieldB v 0 32 ∧ t.sb = { s.sb with status := sbDone } ∧ t.pots = s.pots ∧
          sameBytes s t) ∧
        runsTo .status s fun t => t = sbShow s 0 s.sb.status)) ∧
    (∀ a, s.pins.sbMode = true → s.sb.dynAddr = none →
      runsTo (.entdaa a) s fun t => t = { s with sb := { s.sb with dynAddr := some a } }) ∧
    (let gives := fun (c : Instr) (i : JtagInstr) (dr : Word64) (driving : Bool) (boundary : Word64) =>
      runsTo c s fun t =>
        t.jtag = { instr := i, dr := dr, driving := driving, boundary := boundary } ∧ t.out.tdo = dr ∧
        t = { s with out := { s.out with tdo := t.out.tdo }, jtag := t.jtag }
     gives .bypass .bypass 0 false s.jtag.boundary ∧
     gives .idcode .idcode (idcodeOf s.fuses.stepping) false s.jtag.boundary ∧
     (∀ w, gives (.samplePreload w) .sample (padsSeen s) false w) ∧
     gives .extest .extest ((padLevels s &&& inputCells) ||| (s.jtag.boundary &&& ~~~inputCells)) true s.jtag.boundary) ∧
    runsTo .testLogicReset s fun t => t = { s with jtag := { s.jtag with instr := .reset, driving := false } }) ∧
  idcodeOf .b0 = 0x20118001

/-- Every command answers a next state, and one that names no unit changes nothing. In every state, every command
ends in a next state: no operand and no state ends a run. A leaf operation on an LU above 1,055, a flit on VC 5
or 6 and a kettle tick with a list of readings of another length than its place has name nothing, and leave the
state as it is (log entry 11, a DESIGN CHOICE). -/
def Obligations.WellFormedCommandsComplete : Prop :=
  (∀ (c : Instr) (s : State), runsTo c s fun _ => True) ∧
  (∀ (s : State) (n : PotIx) (lu : LuIx), 1056 ≤ lu.toNat →
    ∀ c ∈ [Instr.luNop n lu, .rdl n lu, .wrl n lu, .wrq n lu, .maco n lu, .adds n lu, .axpy n lu, .scl n lu, .cmpc n lu,
      .rdap n lu, .stap n lu, .movl n lu, .zl n lu, .ldq n lu, .za n lu, .tree n lu, .tkins n lu, .nxi n lu, .nxr n lu,
      .setlc n lu, .cb n lu, .setap n lu, .put n lu, .luLimitTimeout n lu],
      c.wf = false ∧ runsTo c s fun t => t = s) ∧
  (∀ (s : State) (n : PotIx) (k : BitVec 1) (f : Flit) (p : Bool), f.vc = 5 ∨ f.vc = 6 →
    runsTo (.flitReceive n k f true p) s fun t => t = s) ∧
  (∀ (s : State) (p : KetPlace) (rs : List (Option (BitVec 12))), rs.length ≠ ketReadings p →
    runsTo (.ketMeasurementTick p rs) s fun t => t = s)
end

