-- ==== Sys2Proof/Laws/Table.lean ====
section
/-!
SUPPORT. Laws of the sparse tables and of the memories: a read after a write of the same key, a write leaves every other key
alone, and every operation on memory cells keeps the canonical form.
-/

namespace Sys2Proof.Machine

/-! Tables. -/

@[simp] theorem tfind_tset_same {α : Type} (m : SMap α) (k : Nat) (a : α) : tfind (tset m k a) k = some a := by
  induction m with
  | nil => simp [tset, tfind]
  | cons e m ih =>
    unfold tset
    split
    · simp [tfind]
    · split
      · simp [tfind]
      · rename_i h1 h2; simp [tfind, h1, h2, ih]

theorem tfind_tset_other {α : Type} (m : SMap α) (k j : Nat) (a : α) (h : j ≠ k) :
    tfind (tset m k a) j = tfind m j := by
  induction m with
  | nil =>
    have h' : ¬ k = j := fun e => h e.symm
    simp [tset, tfind, h']
  | cons e m ih =>
    have h' : ¬ k = j := fun e => h e.symm
    unfold tset
    split
    · rename_i h1; simp only [tfind, h', if_false]; simp [h1, h']
    · split
      · rename_i h1 h2
        by_cases h3 : j < k
        · have h4 : ¬ e.1 = j := by omega
          have h5 : j < e.1 := by omega
          simp [tfind, h', h3, h4, h5]
        · simp [tfind, h', h3]
      · simp [tfind, ih]

@[simp] theorem tget_tset_same {α : Type} (m : SMap α) (k : Nat) (a d : α) : tget (tset m k a) k d = a := by
  simp [tget]

theorem tget_tset_other {α : Type} (m : SMap α) (k j : Nat) (a d : α) (h : j ≠ k) :
    tget (tset m k a) j d = tget m j d := by
  simp [tget, tfind_tset_other m k j a h]

/-- One lemma for both cases. -/
theorem tget_tset {α : Type} (m : SMap α) (k j : Nat) (a d : α) :
    tget (tset m k a) j d = if j = k then a else tget m j d := by
  by_cases h : j = k
  · subst h; simp
  · simp [h, tget_tset_other m k j a d h]

/-- Writing a key twice keeps the second value. -/
@[simp] theorem tset_tset {α : Type} (m : SMap α) (k : Nat) (a b : α) : tset (tset m k a) k b = tset m k b := by
  induction m with
  | nil => simp [tset]
  | cons e m ih =>
    by_cases h : e.1 = k
    · simp [tset, h]
    · by_cases h2 : k < e.1
      · simp [tset, h, h2]
      · simp [tset, h, h2, ih]

/-! The canonical form. -/

/-- Every key of the list lies above a bound. -/
def above {α : Type} (k : Nat) (m : SMap α) : Prop := ∀ e ∈ m, k < e.1

theorem tsorted_cons {α : Type} (e : Nat × α) (m : SMap α) :
    tsorted (e :: m) = true ↔ above e.1 m ∧ tsorted m = true := by
  induction m generalizing e with
  | nil => simp [tsorted, above]
  | cons f m ih =>
    simp only [tsorted, Bool.and_eq_true, decide_eq_true_eq]
    constructor
    · intro h
      refine ⟨?_, h.2⟩
      intro x hx
      rcases List.mem_cons.1 hx with rfl | hx
      · exact h.1
      · exact lt_trans h.1 (((ih f).1 h.2).1 x hx)
    · intro h
      exact ⟨h.1 f (List.mem_cons_self), h.2⟩

theorem tfind_above {α : Type} (m : SMap α) (k : Nat) (h : above k m) : tfind m k = none := by
  cases m with
  | nil => rfl
  | cons e m =>
    have h1 := h e List.mem_cons_self
    have h2 : ¬ e.1 = k := by omega
    simp [tfind, h1, h2]

theorem wf_cons (d : Nat → Byte) (e : Host.Cell) (m : List Host.Cell) :
    Memory.wf d (e :: m) = true ↔ above e.1 m ∧ e.2 ≠ d e.1 ∧ Memory.wf d m = true := by
  simp only [Memory.wf, Bool.and_eq_true, tsorted_cons, List.all_cons, bne_iff_ne, ne_eq]
  tauto

theorem above_cellSet (d : Nat → Byte) (m : List Host.Cell) (a k : Nat) (b : Byte) (hk : k < a) (h : above k m) :
    above k (cellSet d m a b) := by
  induction m with
  | nil =>
    unfold cellSet
    split
    · exact h
    · intro x hx; simp only [List.mem_singleton] at hx; subst hx; exact hk
  | cons e m ih =>
    have h1 := h e List.mem_cons_self
    have h2 : above k m := fun x hx => h x (List.mem_cons_of_mem _ hx)
    unfold cellSet
    split_ifs
    · exact h2
    · intro x hx; rcases List.mem_cons.1 hx with rfl | hx
      · exact hk
      · exact h2 x hx
    · exact h
    · intro x hx; rcases List.mem_cons.1 hx with rfl | hx
      · exact hk
      · exact h x hx
    · intro x hx; rcases List.mem_cons.1 hx with rfl | hx
      · exact h1
      · exact ih h2 x hx

/-- A write of one cell keeps the canonical form. -/
theorem cellSet_wf (d : Nat → Byte) (m : List Host.Cell) (a : Nat) (b : Byte) (h : Memory.wf d m = true) :
    Memory.wf d (cellSet d m a b) = true := by
  induction m with
  | nil =>
    unfold cellSet
    split
    · exact h
    · rename_i hb; exact (wf_cons d (a, b) []).2 ⟨fun _ hx => absurd hx (List.not_mem_nil), hb, h⟩
  | cons e m ih =>
    have h' := (wf_cons d e m).1 h
    unfold cellSet
    split_ifs with h1 h2 h3 h4
    · exact h'.2.2
    · exact (wf_cons d _ m).2 ⟨h1 ▸ h'.1, h2, h'.2.2⟩
    · exact h
    · refine (wf_cons d _ _).2 ⟨?_, h4, h⟩
      intro x hx; rcases List.mem_cons.1 hx with rfl | hx
      · exact h3
      · exact lt_trans h3 (h'.1 x hx)
    · exact (wf_cons d e _).2 ⟨above_cellSet d m a e.1 b (by omega) h'.1, h'.2.1, ih h'.2.2⟩

/-- A write of many cells keeps the canonical form. -/
theorem cellWrite_wf (d : Nat → Byte) (m : List Host.Cell) (a : Nat) (bs : List Byte) (h : Memory.wf d m = true) :
    Memory.wf d (cellWrite d m a bs) = true := by
  induction bs generalizing m a with
  | nil => exact h
  | cons b bs ih => exact ih _ _ (cellSet_wf d m a b h)

/-- Dropping a range of cells keeps the canonical form. -/
theorem cellDrop_wf (d : Nat → Byte) (m : List Host.Cell) (lo hi : Nat) (h : Memory.wf d m = true) :
    Memory.wf d (cellDrop m lo hi) = true := by
  induction m with
  | nil => exact h
  | cons e m ih =>
    have h' := (wf_cons d e m).1 h
    unfold cellDrop at ih ⊢
    rw [List.filter_cons]
    split
    · refine (wf_cons d e _).2 ⟨?_, h'.2.1, ih h'.2.2⟩
      intro x hx
      exact h'.1 x (List.mem_of_mem_filter hx)
    · exact ih h'.2.2

/-- A canonical memory reads at an address what was written there last. -/
theorem cellGet_cellSet_same (d : Nat → Byte) (m : List Host.Cell) (a : Nat) (b : Byte) (h : Memory.wf d m = true) :
    cellGet d (cellSet d m a b) a = b := by
  induction m with
  | nil =>
    unfold cellSet
    split
    · rename_i hb; simp [cellGet, tget, tfind, hb]
    · simp [cellGet, tget, tfind]
  | cons e m ih =>
    have h' := (wf_cons d e m).1 h
    unfold cellSet
    split_ifs with h1 h2 h3 h4
    · simp [cellGet, tget, tfind_above m a (h1 ▸ h'.1), h2]
    · simp [cellGet, tget, tfind]
    · have : ¬ e.1 = a := h1
      simp [cellGet, tget, tfind, h1, h3, h4]
    · simp [cellGet, tget, tfind]
    · have := ih h'.2.2
      simpa [cellGet, tget, tfind, h1, h3] using this

/-- A write of one cell leaves every other address as it reads. -/
theorem cellGet_cellSet_other (d : Nat → Byte) (m : List Host.Cell) (a c : Nat) (b : Byte) (hc : c ≠ a)
    (h : Memory.wf d m = true) : cellGet d (cellSet d m a b) c = cellGet d m c := by
  have hc' : ¬ a = c := fun e => hc e.symm
  induction m with
  | nil =>
    unfold cellSet
    split
    · rfl
    · simp [cellGet, tget, tfind, hc']
  | cons e m ih =>
    have h' := (wf_cons d e m).1 h
    have he : ∀ k, above k m → k > c → tfind m c = none := fun k hk hgt =>
      tfind_above m c (fun x hx => lt_trans hgt (hk x hx))
    unfold cellSet
    split_ifs with h1 h2 h3 h4
    · subst h1
      by_cases h5 : c < e.1
      · simp [cellGet, tget, tfind, hc', h5, he e.1 h'.1 h5]
      · simp [cellGet, tget, tfind, hc', h5]
    · subst h1; simp [cellGet, tget, tfind, hc']
    · rfl
    · by_cases h5 : c < a
      · have h6 : ¬ e.1 = c := by omega
        have h7 : c < e.1 := by omega
        simp [cellGet, tget, tfind, hc', h5, h6, h7]
      · simp [cellGet, tget, tfind, hc', h5]
    · have := ih h'.2.2
      by_cases h5 : e.1 = c
      · simp [cellGet, tget, tfind, h5]
      · by_cases h6 : c < e.1
        · simp [cellGet, tget, tfind, h5, h6]
        · simpa [cellGet, tget, tfind, h5, h6] using this

/-- A write of many cells leaves every address outside them as it reads. -/
theorem cellGet_cellWrite_other (d : Nat → Byte) (m : List Host.Cell) (a c : Nat) (bs : List Byte)
    (hc : c < a ∨ a + bs.length ≤ c) (h : Memory.wf d m = true) :
    cellGet d (cellWrite d m a bs) c = cellGet d m c := by
  induction bs generalizing m a with
  | nil => rfl
  | cons b bs ih =>
    have hne : c ≠ a := by
      rcases hc with hc | hc
      · omega
      · simp only [List.length_cons] at hc; omega
    have hc' : c < a + 1 ∨ a + 1 + bs.length ≤ c := by
      rcases hc with hc | hc
      · left; omega
      · right; simp only [List.length_cons] at hc; omega
    simp only [cellWrite]
    rw [ih _ (a + 1) hc' (cellSet_wf d m a b h), cellGet_cellSet_other d m a c b hne h]

/-- A canonical memory reads the bytes written last. -/
theorem cellRead_cellWrite_same (d : Nat → Byte) (m : List Host.Cell) (a : Nat) (bs : List Byte)
    (h : Memory.wf d m = true) : cellRead d (cellWrite d m a bs) a bs.length = bs := by
  induction bs generalizing m a with
  | nil => rfl
  | cons b bs ih =>
    simp only [cellWrite, List.length_cons, cellRead]
    rw [ih _ (a + 1) (cellSet_wf d m a b h),
      cellGet_cellWrite_other d _ (a + 1) a bs (Or.inl (Nat.lt_succ_self a)) (cellSet_wf d m a b h),
      cellGet_cellSet_same d m a b h]

end Sys2Proof.Machine
end

