-- ==== Sys2Proof/Laws/State.lean ====
section
/-!
SUPPORT. Laws of the state: what each named update of Machine/Access.lean leaves alone, one lemma per field, and what reading back
finds. Proofs cite these and do not unfold a record update.
-/

namespace Sys2Proof.Machine

/-! Updates of the module. -/

@[simp] theorem setPot_pending (s : State) (n : PotIx) (p : Pot) : (setPot s n p).pending = s.pending := rfl
@[simp] theorem setPot_freeCtr (s : State) (n : PotIx) (p : Pot) : (setPot s n p).freeCtr = s.freeCtr := rfl
@[simp] theorem setPot_fuses (s : State) (n : PotIx) (p : Pot) : (setPot s n p).fuses = s.fuses := rfl
@[simp] theorem setPot_power (s : State) (n : PotIx) (p : Pot) : (setPot s n p).power = s.power := rfl
@[simp] theorem setPot_pins (s : State) (n : PotIx) (p : Pot) : (setPot s n p).pins = s.pins := rfl
@[simp] theorem setPot_heads (s : State) (n : PotIx) (p : Pot) : (setPot s n p).heads = s.heads := rfl
@[simp] theorem setPot_hfe (s : State) (n : PotIx) (p : Pot) : (setPot s n p).hfe = s.hfe := rfl
@[simp] theorem setPot_map (s : State) (n : PotIx) (p : Pot) : (setPot s n p).map = s.map := rfl
@[simp] theorem setPot_blend (s : State) (n : PotIx) (p : Pot) : (setPot s n p).blend = s.blend := rfl
@[simp] theorem setPot_inf (s : State) (n : PotIx) (p : Pot) : (setPot s n p).inf = s.inf := rfl
@[simp] theorem setPot_pmtHub (s : State) (n : PotIx) (p : Pot) : (setPot s n p).pmtHub = s.pmtHub := rfl
@[simp] theorem setPot_ket (s : State) (n : PotIx) (p : Pot) : (setPot s n p).ket = s.ket := rfl
@[simp] theorem setPot_caddy (s : State) (n : PotIx) (p : Pot) : (setPot s n p).caddy = s.caddy := rfl
@[simp] theorem setPot_fw (s : State) (n : PotIx) (p : Pot) : (setPot s n p).fw = s.fw := rfl
@[simp] theorem setPot_svc (s : State) (n : PotIx) (p : Pot) : (setPot s n p).svc = s.svc := rfl
@[simp] theorem setPot_cup (s : State) (n : PotIx) (p : Pot) : (setPot s n p).cup = s.cup := rfl
@[simp] theorem setPot_drz (s : State) (n : PotIx) (p : Pot) : (setPot s n p).drz = s.drz := rfl
@[simp] theorem setPot_hubCores (s : State) (n : PotIx) (p : Pot) : (setPot s n p).hubCores = s.hubCores := rfl
@[simp] theorem setPot_hubSnc (s : State) (n : PotIx) (p : Pot) : (setPot s n p).hubSnc = s.hubSnc := rfl
@[simp] theorem setPot_hubSncIrq (s : State) (n : PotIx) (p : Pot) : (setPot s n p).hubSncIrq = s.hubSncIrq := rfl
@[simp] theorem setPot_regs (s : State) (n : PotIx) (p : Pot) : (setPot s n p).regs = s.regs := rfl
@[simp] theorem setPot_sb (s : State) (n : PotIx) (p : Pot) : (setPot s n p).sb = s.sb := rfl
@[simp] theorem setPot_jtag (s : State) (n : PotIx) (p : Pot) : (setPot s n p).jtag = s.jtag := rfl
@[simp] theorem setPot_cxlEvents (s : State) (n : PotIx) (p : Pot) : (setPot s n p).cxlEvents = s.cxlEvents := rfl
@[simp] theorem setPot_poisonList (s : State) (n : PotIx) (p : Pot) : (setPot s n p).poisonList = s.poisonList := rfl
@[simp] theorem setPot_hostNoted (s : State) (n : PotIx) (p : Pot) : (setPot s n p).hostNoted = s.hostNoted := rfl
@[simp] theorem setPot_out (s : State) (n : PotIx) (p : Pot) : (setPot s n p).out = s.out := rfl
@[simp] theorem setPot_dram (s : State) (n : PotIx) (p : Pot) : (setPot s n p).dram = s.dram := rfl
@[simp] theorem setPot_tray (s : State) (n : PotIx) (p : Pot) : (setPot s n p).tray = s.tray := rfl
@[simp] theorem setPot_trayMeta (s : State) (n : PotIx) (p : Pot) : (setPot s n p).trayMeta = s.trayMeta := rfl
@[simp] theorem setPot_saves (s : State) (n : PotIx) (p : Pot) : (setPot s n p).saves = s.saves := rfl

@[simp] theorem updPot_pending (s : State) (n : PotIx) (f : Pot → Pot) : (updPot s n f).pending = s.pending := rfl
@[simp] theorem updPot_freeCtr (s : State) (n : PotIx) (f : Pot → Pot) : (updPot s n f).freeCtr = s.freeCtr := rfl
@[simp] theorem updPot_fuses (s : State) (n : PotIx) (f : Pot → Pot) : (updPot s n f).fuses = s.fuses := rfl
@[simp] theorem updPot_power (s : State) (n : PotIx) (f : Pot → Pot) : (updPot s n f).power = s.power := rfl
@[simp] theorem updPot_pins (s : State) (n : PotIx) (f : Pot → Pot) : (updPot s n f).pins = s.pins := rfl
@[simp] theorem updPot_heads (s : State) (n : PotIx) (f : Pot → Pot) : (updPot s n f).heads = s.heads := rfl
@[simp] theorem updPot_hfe (s : State) (n : PotIx) (f : Pot → Pot) : (updPot s n f).hfe = s.hfe := rfl
@[simp] theorem updPot_map (s : State) (n : PotIx) (f : Pot → Pot) : (updPot s n f).map = s.map := rfl
@[simp] theorem updPot_blend (s : State) (n : PotIx) (f : Pot → Pot) : (updPot s n f).blend = s.blend := rfl
@[simp] theorem updPot_inf (s : State) (n : PotIx) (f : Pot → Pot) : (updPot s n f).inf = s.inf := rfl
@[simp] theorem updPot_pmtHub (s : State) (n : PotIx) (f : Pot → Pot) : (updPot s n f).pmtHub = s.pmtHub := rfl
@[simp] theorem updPot_ket (s : State) (n : PotIx) (f : Pot → Pot) : (updPot s n f).ket = s.ket := rfl
@[simp] theorem updPot_caddy (s : State) (n : PotIx) (f : Pot → Pot) : (updPot s n f).caddy = s.caddy := rfl
@[simp] theorem updPot_fw (s : State) (n : PotIx) (f : Pot → Pot) : (updPot s n f).fw = s.fw := rfl
@[simp] theorem updPot_svc (s : State) (n : PotIx) (f : Pot → Pot) : (updPot s n f).svc = s.svc := rfl
@[simp] theorem updPot_cup (s : State) (n : PotIx) (f : Pot → Pot) : (updPot s n f).cup = s.cup := rfl
@[simp] theorem updPot_drz (s : State) (n : PotIx) (f : Pot → Pot) : (updPot s n f).drz = s.drz := rfl
@[simp] theorem updPot_hubCores (s : State) (n : PotIx) (f : Pot → Pot) : (updPot s n f).hubCores = s.hubCores := rfl
@[simp] theorem updPot_hubSnc (s : State) (n : PotIx) (f : Pot → Pot) : (updPot s n f).hubSnc = s.hubSnc := rfl
@[simp] theorem updPot_hubSncIrq (s : State) (n : PotIx) (f : Pot → Pot) : (updPot s n f).hubSncIrq = s.hubSncIrq := rfl
@[simp] theorem updPot_regs (s : State) (n : PotIx) (f : Pot → Pot) : (updPot s n f).regs = s.regs := rfl
@[simp] theorem updPot_sb (s : State) (n : PotIx) (f : Pot → Pot) : (updPot s n f).sb = s.sb := rfl
@[simp] theorem updPot_jtag (s : State) (n : PotIx) (f : Pot → Pot) : (updPot s n f).jtag = s.jtag := rfl
@[simp] theorem updPot_cxlEvents (s : State) (n : PotIx) (f : Pot → Pot) : (updPot s n f).cxlEvents = s.cxlEvents := rfl
@[simp] theorem updPot_poisonList (s : State) (n : PotIx) (f : Pot → Pot) : (updPot s n f).poisonList = s.poisonList := rfl
@[simp] theorem updPot_hostNoted (s : State) (n : PotIx) (f : Pot → Pot) : (updPot s n f).hostNoted = s.hostNoted := rfl
@[simp] theorem updPot_out (s : State) (n : PotIx) (f : Pot → Pot) : (updPot s n f).out = s.out := rfl
@[simp] theorem updPot_dram (s : State) (n : PotIx) (f : Pot → Pot) : (updPot s n f).dram = s.dram := rfl
@[simp] theorem updPot_tray (s : State) (n : PotIx) (f : Pot → Pot) : (updPot s n f).tray = s.tray := rfl
@[simp] theorem updPot_trayMeta (s : State) (n : PotIx) (f : Pot → Pot) : (updPot s n f).trayMeta = s.trayMeta := rfl
@[simp] theorem updPot_saves (s : State) (n : PotIx) (f : Pot → Pot) : (updPot s n f).saves = s.saves := rfl

@[simp] theorem setHead_pending (s : State) (h : BitVec 1) (x : Head) : (setHead s h x).pending = s.pending := rfl
@[simp] theorem setHead_freeCtr (s : State) (h : BitVec 1) (x : Head) : (setHead s h x).freeCtr = s.freeCtr := rfl
@[simp] theorem setHead_fuses (s : State) (h : BitVec 1) (x : Head) : (setHead s h x).fuses = s.fuses := rfl
@[simp] theorem setHead_power (s : State) (h : BitVec 1) (x : Head) : (setHead s h x).power = s.power := rfl
@[simp] theorem setHead_pins (s : State) (h : BitVec 1) (x : Head) : (setHead s h x).pins = s.pins := rfl
@[simp] theorem setHead_hfe (s : State) (h : BitVec 1) (x : Head) : (setHead s h x).hfe = s.hfe := rfl
@[simp] theorem setHead_map (s : State) (h : BitVec 1) (x : Head) : (setHead s h x).map = s.map := rfl
@[simp] theorem setHead_blend (s : State) (h : BitVec 1) (x : Head) : (setHead s h x).blend = s.blend := rfl
@[simp] theorem setHead_inf (s : State) (h : BitVec 1) (x : Head) : (setHead s h x).inf = s.inf := rfl
@[simp] theorem setHead_pmtHub (s : State) (h : BitVec 1) (x : Head) : (setHead s h x).pmtHub = s.pmtHub := rfl
@[simp] theorem setHead_ket (s : State) (h : BitVec 1) (x : Head) : (setHead s h x).ket = s.ket := rfl
@[simp] theorem setHead_caddy (s : State) (h : BitVec 1) (x : Head) : (setHead s h x).caddy = s.caddy := rfl
@[simp] theorem setHead_fw (s : State) (h : BitVec 1) (x : Head) : (setHead s h x).fw = s.fw := rfl
@[simp] theorem setHead_svc (s : State) (h : BitVec 1) (x : Head) : (setHead s h x).svc = s.svc := rfl
@[simp] theorem setHead_cup (s : State) (h : BitVec 1) (x : Head) : (setHead s h x).cup = s.cup := rfl
@[simp] theorem setHead_drz (s : State) (h : BitVec 1) (x : Head) : (setHead s h x).drz = s.drz := rfl
@[simp] theorem setHead_hubCores (s : State) (h : BitVec 1) (x : Head) : (setHead s h x).hubCores = s.hubCores := rfl
@[simp] theorem setHead_hubSnc (s : State) (h : BitVec 1) (x : Head) : (setHead s h x).hubSnc = s.hubSnc := rfl
@[simp] theorem setHead_hubSncIrq (s : State) (h : BitVec 1) (x : Head) : (setHead s h x).hubSncIrq = s.hubSncIrq := rfl
@[simp] theorem setHead_regs (s : State) (h : BitVec 1) (x : Head) : (setHead s h x).regs = s.regs := rfl
@[simp] theorem setHead_sb (s : State) (h : BitVec 1) (x : Head) : (setHead s h x).sb = s.sb := rfl
@[simp] theorem setHead_jtag (s : State) (h : BitVec 1) (x : Head) : (setHead s h x).jtag = s.jtag := rfl
@[simp] theorem setHead_cxlEvents (s : State) (h : BitVec 1) (x : Head) : (setHead s h x).cxlEvents = s.cxlEvents := rfl
@[simp] theorem setHead_poisonList (s : State) (h : BitVec 1) (x : Head) : (setHead s h x).poisonList = s.poisonList := rfl
@[simp] theorem setHead_hostNoted (s : State) (h : BitVec 1) (x : Head) : (setHead s h x).hostNoted = s.hostNoted := rfl
@[simp] theorem setHead_out (s : State) (h : BitVec 1) (x : Head) : (setHead s h x).out = s.out := rfl
@[simp] theorem setHead_dram (s : State) (h : BitVec 1) (x : Head) : (setHead s h x).dram = s.dram := rfl
@[simp] theorem setHead_tray (s : State) (h : BitVec 1) (x : Head) : (setHead s h x).tray = s.tray := rfl
@[simp] theorem setHead_trayMeta (s : State) (h : BitVec 1) (x : Head) : (setHead s h x).trayMeta = s.trayMeta := rfl
@[simp] theorem setHead_pots (s : State) (h : BitVec 1) (x : Head) : (setHead s h x).pots = s.pots := rfl
@[simp] theorem setHead_saves (s : State) (h : BitVec 1) (x : Head) : (setHead s h x).saves = s.saves := rfl

@[simp] theorem setInf_pending (s : State) (i : BitVec 12) (x : Inf) : (setInf s i x).pending = s.pending := rfl
@[simp] theorem setInf_freeCtr (s : State) (i : BitVec 12) (x : Inf) : (setInf s i x).freeCtr = s.freeCtr := rfl
@[simp] theorem setInf_fuses (s : State) (i : BitVec 12) (x : Inf) : (setInf s i x).fuses = s.fuses := rfl
@[simp] theorem setInf_power (s : State) (i : BitVec 12) (x : Inf) : (setInf s i x).power = s.power := rfl
@[simp] theorem setInf_pins (s : State) (i : BitVec 12) (x : Inf) : (setInf s i x).pins = s.pins := rfl
@[simp] theorem setInf_heads (s : State) (i : BitVec 12) (x : Inf) : (setInf s i x).heads = s.heads := rfl
@[simp] theorem setInf_hfe (s : State) (i : BitVec 12) (x : Inf) : (setInf s i x).hfe = s.hfe := rfl
@[simp] theorem setInf_map (s : State) (i : BitVec 12) (x : Inf) : (setInf s i x).map = s.map := rfl
@[simp] theorem setInf_blend (s : State) (i : BitVec 12) (x : Inf) : (setInf s i x).blend = s.blend := rfl
@[simp] theorem setInf_pmtHub (s : State) (i : BitVec 12) (x : Inf) : (setInf s i x).pmtHub = s.pmtHub := rfl
@[simp] theorem setInf_ket (s : State) (i : BitVec 12) (x : Inf) : (setInf s i x).ket = s.ket := rfl
@[simp] theorem setInf_caddy (s : State) (i : BitVec 12) (x : Inf) : (setInf s i x).caddy = s.caddy := rfl
@[simp] theorem setInf_fw (s : State) (i : BitVec 12) (x : Inf) : (setInf s i x).fw = s.fw := rfl
@[simp] theorem setInf_svc (s : State) (i : BitVec 12) (x : Inf) : (setInf s i x).svc = s.svc := rfl
@[simp] theorem setInf_cup (s : State) (i : BitVec 12) (x : Inf) : (setInf s i x).cup = s.cup := rfl
@[simp] theorem setInf_drz (s : State) (i : BitVec 12) (x : Inf) : (setInf s i x).drz = s.drz := rfl
@[simp] theorem setInf_hubCores (s : State) (i : BitVec 12) (x : Inf) : (setInf s i x).hubCores = s.hubCores := rfl
@[simp] theorem setInf_hubSnc (s : State) (i : BitVec 12) (x : Inf) : (setInf s i x).hubSnc = s.hubSnc := rfl
@[simp] theorem setInf_hubSncIrq (s : State) (i : BitVec 12) (x : Inf) : (setInf s i x).hubSncIrq = s.hubSncIrq := rfl
@[simp] theorem setInf_regs (s : State) (i : BitVec 12) (x : Inf) : (setInf s i x).regs = s.regs := rfl
@[simp] theorem setInf_sb (s : State) (i : BitVec 12) (x : Inf) : (setInf s i x).sb = s.sb := rfl
@[simp] theorem setInf_jtag (s : State) (i : BitVec 12) (x : Inf) : (setInf s i x).jtag = s.jtag := rfl
@[simp] theorem setInf_cxlEvents (s : State) (i : BitVec 12) (x : Inf) : (setInf s i x).cxlEvents = s.cxlEvents := rfl
@[simp] theorem setInf_poisonList (s : State) (i : BitVec 12) (x : Inf) : (setInf s i x).poisonList = s.poisonList := rfl
@[simp] theorem setInf_hostNoted (s : State) (i : BitVec 12) (x : Inf) : (setInf s i x).hostNoted = s.hostNoted := rfl
@[simp] theorem setInf_out (s : State) (i : BitVec 12) (x : Inf) : (setInf s i x).out = s.out := rfl
@[simp] theorem setInf_dram (s : State) (i : BitVec 12) (x : Inf) : (setInf s i x).dram = s.dram := rfl
@[simp] theorem setInf_tray (s : State) (i : BitVec 12) (x : Inf) : (setInf s i x).tray = s.tray := rfl
@[simp] theorem setInf_trayMeta (s : State) (i : BitVec 12) (x : Inf) : (setInf s i x).trayMeta = s.trayMeta := rfl
@[simp] theorem setInf_pots (s : State) (i : BitVec 12) (x : Inf) : (setInf s i x).pots = s.pots := rfl
@[simp] theorem setInf_saves (s : State) (i : BitVec 12) (x : Inf) : (setInf s i x).saves = s.saves := rfl

@[simp] theorem potOf_setPot_same (s : State) (n : PotIx) (p : Pot) : potOf (setPot s n p) n = p := by simp [potOf, setPot]

theorem potOf_setPot_other (s : State) (n m : PotIx) (p : Pot) (h : m ≠ n) : potOf (setPot s n p) m = potOf s m := by
  have : m.toNat ≠ n.toNat := fun e => h (BitVec.eq_of_toNat_eq e)
  simp [potOf, setPot, tget_tset_other _ _ _ _ _ this]

@[simp] theorem potOf_updPot_same (s : State) (n : PotIx) (f : Pot → Pot) : potOf (updPot s n f) n = f (potOf s n) := by
  simp [updPot]

theorem potOf_updPot_other (s : State) (n m : PotIx) (f : Pot → Pot) (h : m ≠ n) : potOf (updPot s n f) m = potOf s m :=
  potOf_setPot_other s n m _ h

@[simp] theorem setPot_setPot (s : State) (n : PotIx) (p q : Pot) : setPot (setPot s n p) n q = setPot s n q := by
  simp [setPot]

@[simp] theorem headOf_setHead_same (s : State) (h : BitVec 1) (x : Head) : headOf (setHead s h x) h = x := by
  simp [headOf, setHead]

theorem headOf_setHead_other (s : State) (h k : BitVec 1) (x : Head) (hk : k ≠ h) : headOf (setHead s h x) k = headOf s k := by
  have : k.toNat ≠ h.toNat := fun e => hk (BitVec.eq_of_toNat_eq e)
  simp [headOf, setHead, tget_tset_other _ _ _ _ _ this]

@[simp] theorem infOf_setInf_same (s : State) (i : BitVec 12) (x : Inf) : infOf (setInf s i x) i = x := by
  simp [infOf, setInf]

theorem infOf_setInf_other (s : State) (i j : BitVec 12) (x : Inf) (h : j ≠ i) : infOf (setInf s i x) j = infOf s j := by
  have : j.toNat ≠ i.toNat := fun e => h (BitVec.eq_of_toNat_eq e)
  simp [infOf, setInf, tget_tset_other _ _ _ _ _ this]

@[simp] theorem setInf_queue (s : State) (i : BitVec 12) (x : Inf) : (setInf s i x).inf.queue = s.inf.queue := rfl
@[simp] theorem setInf_load (s : State) (i : BitVec 12) (x : Inf) : (setInf s i x).inf.load = s.inf.load := rfl
@[simp] theorem setInf_drains (s : State) (i : BitVec 12) (x : Inf) : (setInf s i x).inf.drains = s.inf.drains := rfl

/-! Updates of a pot. -/

@[simp] theorem setSeq_router (p : Pot) (e : Eng) (q : Seqr) : (setSeq p e q).router = p.router := by cases e <;> rfl
@[simp] theorem setSeq_inReset (p : Pot) (e : Eng) (q : Seqr) : (setSeq p e q).inReset = p.inReset := by cases e <;> rfl
@[simp] theorem setSeq_trayClear (p : Pot) (e : Eng) (q : Seqr) : (setSeq p e q).trayClear = p.trayClear := by cases e <;> rfl
@[simp] theorem setSeq_fwRunning (p : Pot) (e : Eng) (q : Seqr) : (setSeq p e q).fwRunning = p.fwRunning := by cases e <;> rfl
@[simp] theorem setSeq_quiesced (p : Pot) (e : Eng) (q : Seqr) : (setSeq p e q).quiesced = p.quiesced := by cases e <;> rfl
@[simp] theorem setSeq_inbox (p : Pot) (e : Eng) (q : Seqr) : (setSeq p e q).inbox = p.inbox := by cases e <;> rfl
@[simp] theorem setSeq_answers (p : Pot) (e : Eng) (q : Seqr) : (setSeq p e q).answers = p.answers := by cases e <;> rfl
@[simp] theorem setSeq_mapCopy (p : Pot) (e : Eng) (q : Seqr) : (setSeq p e q).mapCopy = p.mapCopy := by cases e <;> rfl
@[simp] theorem setSeq_mapLost (p : Pot) (e : Eng) (q : Seqr) : (setSeq p e q).mapLost = p.mapLost := by cases e <;> rfl
@[simp] theorem setSeq_queues (p : Pot) (e : Eng) (q : Seqr) : (setSeq p e q).queues = p.queues := by cases e <;> rfl
@[simp] theorem setSeq_queueBad (p : Pot) (e : Eng) (q : Seqr) : (setSeq p e q).queueBad = p.queueBad := by cases e <;> rfl
@[simp] theorem setSeq_mxe (p : Pot) (e : Eng) (q : Seqr) : (setSeq p e q).mxe = p.mxe := by cases e <;> rfl
@[simp] theorem setSeq_vxe (p : Pot) (e : Eng) (q : Seqr) : (setSeq p e q).vxe = p.vxe := by cases e <;> rfl
@[simp] theorem setSeq_sfe (p : Pot) (e : Eng) (q : Seqr) : (setSeq p e q).sfe = p.sfe := by cases e <;> rfl
@[simp] theorem setSeq_lucq (p : Pot) (e : Eng) (q : Seqr) : (setSeq p e q).lucq = p.lucq := by cases e <;> rfl
@[simp] theorem setSeq_leafWait (p : Pot) (e : Eng) (q : Seqr) : (setSeq p e q).leafWait = p.leafWait := by cases e <;> rfl
@[simp] theorem setSeq_pushWait (p : Pot) (e : Eng) (q : Seqr) : (setSeq p e q).pushWait = p.pushWait := by cases e <;> rfl
@[simp] theorem setSeq_ownLoads (p : Pot) (e : Eng) (q : Seqr) : (setSeq p e q).ownLoads = p.ownLoads := by cases e <;> rfl
@[simp] theorem setSeq_runs (p : Pot) (e : Eng) (q : Seqr) : (setSeq p e q).runs = p.runs := by cases e <;> rfl
@[simp] theorem setSeq_lus (p : Pot) (e : Eng) (q : Seqr) : (setSeq p e q).lus = p.lus := by cases e <;> rfl
@[simp] theorem setSeq_chans (p : Pot) (e : Eng) (q : Seqr) : (setSeq p e q).chans = p.chans := by cases e <;> rfl
@[simp] theorem setSeq_proxies (p : Pot) (e : Eng) (q : Seqr) : (setSeq p e q).proxies = p.proxies := by cases e <;> rfl
@[simp] theorem setSeq_luSeed (p : Pot) (e : Eng) (q : Seqr) : (setSeq p e q).luSeed = p.luSeed := by cases e <;> rfl
@[simp] theorem setSeq_luLimit (p : Pot) (e : Eng) (q : Seqr) : (setSeq p e q).luLimit = p.luLimit := by cases e <;> rfl
@[simp] theorem setSeq_luProxy (p : Pot) (e : Eng) (q : Seqr) : (setSeq p e q).luProxy = p.luProxy := by cases e <;> rfl
@[simp] theorem setSeq_luEvents (p : Pot) (e : Eng) (q : Seqr) : (setSeq p e q).luEvents = p.luEvents := by cases e <;> rfl
@[simp] theorem setSeq_template_ (p : Pot) (e : Eng) (q : Seqr) : (setSeq p e q).template_ = p.template_ := by cases e <;> rfl
@[simp] theorem setSeq_bksTimingA (p : Pot) (e : Eng) (q : Seqr) : (setSeq p e q).bksTimingA = p.bksTimingA := by cases e <;> rfl
@[simp] theorem setSeq_bksTimingB (p : Pot) (e : Eng) (q : Seqr) : (setSeq p e q).bksTimingB = p.bksTimingB := by cases e <;> rfl
@[simp] theorem setSeq_bksCtl (p : Pot) (e : Eng) (q : Seqr) : (setSeq p e q).bksCtl = p.bksCtl := by cases e <;> rfl
@[simp] theorem setSeq_bksRetrain (p : Pot) (e : Eng) (q : Seqr) : (setSeq p e q).bksRetrain = p.bksRetrain := by cases e <;> rfl
@[simp] theorem setSeq_scheds (p : Pot) (e : Eng) (q : Seqr) : (setSeq p e q).scheds = p.scheds := by cases e <;> rfl
@[simp] theorem setSeq_bands (p : Pot) (e : Eng) (q : Seqr) : (setSeq p e q).bands = p.bands := by cases e <;> rfl
@[simp] theorem setSeq_forced (p : Pot) (e : Eng) (q : Seqr) : (setSeq p e q).forced = p.forced := by cases e <;> rfl
@[simp] theorem setSeq_snc (p : Pot) (e : Eng) (q : Seqr) : (setSeq p e q).snc = p.snc := by cases e <;> rfl
@[simp] theorem setSeq_pat (p : Pot) (e : Eng) (q : Seqr) : (setSeq p e q).pat = p.pat := by cases e <;> rfl
@[simp] theorem setSeq_pmt (p : Pot) (e : Eng) (q : Seqr) : (setSeq p e q).pmt = p.pmt := by cases e <;> rfl
@[simp] theorem setSeq_ports (p : Pot) (e : Eng) (q : Seqr) : (setSeq p e q).ports = p.ports := by cases e <;> rfl
@[simp] theorem setSeq_streams (p : Pot) (e : Eng) (q : Seqr) : (setSeq p e q).streams = p.streams := by cases e <;> rfl
@[simp] theorem setSeq_remote (p : Pot) (e : Eng) (q : Seqr) : (setSeq p e q).remote = p.remote := by cases e <;> rfl
@[simp] theorem setSeq_nextReq (p : Pot) (e : Eng) (q : Seqr) : (setSeq p e q).nextReq = p.nextReq := by cases e <;> rfl
@[simp] theorem setSeq_cores (p : Pot) (e : Eng) (q : Seqr) : (setSeq p e q).cores = p.cores := by cases e <;> rfl
@[simp] theorem setSeq_events (p : Pot) (e : Eng) (q : Seqr) : (setSeq p e q).events = p.events := by cases e <;> rfl
@[simp] theorem setSeq_strainer (p : Pot) (e : Eng) (q : Seqr) : (setSeq p e q).strainer = p.strainer := by cases e <;> rfl
@[simp] theorem setSeq_cup (p : Pot) (e : Eng) (q : Seqr) : (setSeq p e q).cup = p.cup := by cases e <;> rfl
@[simp] theorem setSeq_sncIrq (p : Pot) (e : Eng) (q : Seqr) : (setSeq p e q).sncIrq = p.sncIrq := by cases e <;> rfl
@[simp] theorem setSeq_snapSeq (p : Pot) (e : Eng) (q : Seqr) : (setSeq p e q).snapSeq = p.snapSeq := by cases e <;> rfl
@[simp] theorem setSeq_snapValid (p : Pot) (e : Eng) (q : Seqr) : (setSeq p e q).snapValid = p.snapValid := by cases e <;> rfl
@[simp] theorem setSeq_cfgErr (p : Pot) (e : Eng) (q : Seqr) : (setSeq p e q).cfgErr = p.cfgErr := by cases e <;> rfl
@[simp] theorem setSeq_regErr (p : Pot) (e : Eng) (q : Seqr) : (setSeq p e q).regErr = p.regErr := by cases e <;> rfl
@[simp] theorem setSeq_failedResets (p : Pot) (e : Eng) (q : Seqr) : (setSeq p e q).failedResets = p.failedResets := by cases e <;> rfl

@[simp] theorem setLu_router (p : Pot) (i : Nat) (l : Lu) : (setLu p i l).router = p.router := rfl
@[simp] theorem setLu_inReset (p : Pot) (i : Nat) (l : Lu) : (setLu p i l).inReset = p.inReset := rfl
@[simp] theorem setLu_trayClear (p : Pot) (i : Nat) (l : Lu) : (setLu p i l).trayClear = p.trayClear := rfl
@[simp] theorem setLu_fwRunning (p : Pot) (i : Nat) (l : Lu) : (setLu p i l).fwRunning = p.fwRunning := rfl
@[simp] theorem setLu_quiesced (p : Pot) (i : Nat) (l : Lu) : (setLu p i l).quiesced = p.quiesced := rfl
@[simp] theorem setLu_inbox (p : Pot) (i : Nat) (l : Lu) : (setLu p i l).inbox = p.inbox := rfl
@[simp] theorem setLu_answers (p : Pot) (i : Nat) (l : Lu) : (setLu p i l).answers = p.answers := rfl
@[simp] theorem setLu_mapCopy (p : Pot) (i : Nat) (l : Lu) : (setLu p i l).mapCopy = p.mapCopy := rfl
@[simp] theorem setLu_mapLost (p : Pot) (i : Nat) (l : Lu) : (setLu p i l).mapLost = p.mapLost := rfl
@[simp] theorem setLu_queues (p : Pot) (i : Nat) (l : Lu) : (setLu p i l).queues = p.queues := rfl
@[simp] theorem setLu_queueBad (p : Pot) (i : Nat) (l : Lu) : (setLu p i l).queueBad = p.queueBad := rfl
@[simp] theorem setLu_mxeSeq (p : Pot) (i : Nat) (l : Lu) : (setLu p i l).mxeSeq = p.mxeSeq := rfl
@[simp] theorem setLu_vxeSeq (p : Pot) (i : Nat) (l : Lu) : (setLu p i l).vxeSeq = p.vxeSeq := rfl
@[simp] theorem setLu_sfeSeq (p : Pot) (i : Nat) (l : Lu) : (setLu p i l).sfeSeq = p.sfeSeq := rfl
@[simp] theorem setLu_mxe (p : Pot) (i : Nat) (l : Lu) : (setLu p i l).mxe = p.mxe := rfl
@[simp] theorem setLu_vxe (p : Pot) (i : Nat) (l : Lu) : (setLu p i l).vxe = p.vxe := rfl
@[simp] theorem setLu_sfe (p : Pot) (i : Nat) (l : Lu) : (setLu p i l).sfe = p.sfe := rfl
@[simp] theorem setLu_lucq (p : Pot) (i : Nat) (l : Lu) : (setLu p i l).lucq = p.lucq := rfl
@[simp] theorem setLu_leafWait (p : Pot) (i : Nat) (l : Lu) : (setLu p i l).leafWait = p.leafWait := rfl
@[simp] theorem setLu_pushWait (p : Pot) (i : Nat) (l : Lu) : (setLu p i l).pushWait = p.pushWait := rfl
@[simp] theorem setLu_ownLoads (p : Pot) (i : Nat) (l : Lu) : (setLu p i l).ownLoads = p.ownLoads := rfl
@[simp] theorem setLu_runs (p : Pot) (i : Nat) (l : Lu) : (setLu p i l).runs = p.runs := rfl
@[simp] theorem setLu_chans (p : Pot) (i : Nat) (l : Lu) : (setLu p i l).chans = p.chans := rfl
@[simp] theorem setLu_proxies (p : Pot) (i : Nat) (l : Lu) : (setLu p i l).proxies = p.proxies := rfl
@[simp] theorem setLu_luSeed (p : Pot) (i : Nat) (l : Lu) : (setLu p i l).luSeed = p.luSeed := rfl
@[simp] theorem setLu_luLimit (p : Pot) (i : Nat) (l : Lu) : (setLu p i l).luLimit = p.luLimit := rfl
@[simp] theorem setLu_luProxy (p : Pot) (i : Nat) (l : Lu) : (setLu p i l).luProxy = p.luProxy := rfl
@[simp] theorem setLu_luEvents (p : Pot) (i : Nat) (l : Lu) : (setLu p i l).luEvents = p.luEvents := rfl
@[simp] theorem setLu_template_ (p : Pot) (i : Nat) (l : Lu) : (setLu p i l).template_ = p.template_ := rfl
@[simp] theorem setLu_bksTimingA (p : Pot) (i : Nat) (l : Lu) : (setLu p i l).bksTimingA = p.bksTimingA := rfl
@[simp] theorem setLu_bksTimingB (p : Pot) (i : Nat) (l : Lu) : (setLu p i l).bksTimingB = p.bksTimingB := rfl
@[simp] theorem setLu_bksCtl (p : Pot) (i : Nat) (l : Lu) : (setLu p i l).bksCtl = p.bksCtl := rfl
@[simp] theorem setLu_bksRetrain (p : Pot) (i : Nat) (l : Lu) : (setLu p i l).bksRetrain = p.bksRetrain := rfl
@[simp] theorem setLu_scheds (p : Pot) (i : Nat) (l : Lu) : (setLu p i l).scheds = p.scheds := rfl
@[simp] theorem setLu_bands (p : Pot) (i : Nat) (l : Lu) : (setLu p i l).bands = p.bands := rfl
@[simp] theorem setLu_forced (p : Pot) (i : Nat) (l : Lu) : (setLu p i l).forced = p.forced := rfl
@[simp] theorem setLu_snc (p : Pot) (i : Nat) (l : Lu) : (setLu p i l).snc = p.snc := rfl
@[simp] theorem setLu_pat (p : Pot) (i : Nat) (l : Lu) : (setLu p i l).pat = p.pat := rfl
@[simp] theorem setLu_pmt (p : Pot) (i : Nat) (l : Lu) : (setLu p i l).pmt = p.pmt := rfl
@[simp] theorem setLu_ports (p : Pot) (i : Nat) (l : Lu) : (setLu p i l).ports = p.ports := rfl
@[simp] theorem setLu_streams (p : Pot) (i : Nat) (l : Lu) : (setLu p i l).streams = p.streams := rfl
@[simp] theorem setLu_remote (p : Pot) (i : Nat) (l : Lu) : (setLu p i l).remote = p.remote := rfl
@[simp] theorem setLu_nextReq (p : Pot) (i : Nat) (l : Lu) : (setLu p i l).nextReq = p.nextReq := rfl
@[simp] theorem setLu_cores (p : Pot) (i : Nat) (l : Lu) : (setLu p i l).cores = p.cores := rfl
@[simp] theorem setLu_events (p : Pot) (i : Nat) (l : Lu) : (setLu p i l).events = p.events := rfl
@[simp] theorem setLu_strainer (p : Pot) (i : Nat) (l : Lu) : (setLu p i l).strainer = p.strainer := rfl
@[simp] theorem setLu_cup (p : Pot) (i : Nat) (l : Lu) : (setLu p i l).cup = p.cup := rfl
@[simp] theorem setLu_sncIrq (p : Pot) (i : Nat) (l : Lu) : (setLu p i l).sncIrq = p.sncIrq := rfl
@[simp] theorem setLu_snapSeq (p : Pot) (i : Nat) (l : Lu) : (setLu p i l).snapSeq = p.snapSeq := rfl
@[simp] theorem setLu_snapValid (p : Pot) (i : Nat) (l : Lu) : (setLu p i l).snapValid = p.snapValid := rfl
@[simp] theorem setLu_cfgErr (p : Pot) (i : Nat) (l : Lu) : (setLu p i l).cfgErr = p.cfgErr := rfl
@[simp] theorem setLu_regErr (p : Pot) (i : Nat) (l : Lu) : (setLu p i l).regErr = p.regErr := rfl
@[simp] theorem setLu_failedResets (p : Pot) (i : Nat) (l : Lu) : (setLu p i l).failedResets = p.failedResets := rfl

@[simp] theorem setChan_router (p : Pot) (g : Nat) (c : Chan) : (setChan p g c).router = p.router := rfl
@[simp] theorem setChan_inReset (p : Pot) (g : Nat) (c : Chan) : (setChan p g c).inReset = p.inReset := rfl
@[simp] theorem setChan_trayClear (p : Pot) (g : Nat) (c : Chan) : (setChan p g c).trayClear = p.trayClear := rfl
@[simp] theorem setChan_fwRunning (p : Pot) (g : Nat) (c : Chan) : (setChan p g c).fwRunning = p.fwRunning := rfl
@[simp] theorem setChan_quiesced (p : Pot) (g : Nat) (c : Chan) : (setChan p g c).quiesced = p.quiesced := rfl
@[simp] theorem setChan_inbox (p : Pot) (g : Nat) (c : Chan) : (setChan p g c).inbox = p.inbox := rfl
@[simp] theorem setChan_answers (p : Pot) (g : Nat) (c : Chan) : (setChan p g c).answers = p.answers := rfl
@[simp] theorem setChan_mapCopy (p : Pot) (g : Nat) (c : Chan) : (setChan p g c).mapCopy = p.mapCopy := rfl
@[simp] theorem setChan_mapLost (p : Pot) (g : Nat) (c : Chan) : (setChan p g c).mapLost = p.mapLost := rfl
@[simp] theorem setChan_queues (p : Pot) (g : Nat) (c : Chan) : (setChan p g c).queues = p.queues := rfl
@[simp] theorem setChan_queueBad (p : Pot) (g : Nat) (c : Chan) : (setChan p g c).queueBad = p.queueBad := rfl
@[simp] theorem setChan_mxeSeq (p : Pot) (g : Nat) (c : Chan) : (setChan p g c).mxeSeq = p.mxeSeq := rfl
@[simp] theorem setChan_vxeSeq (p : Pot) (g : Nat) (c : Chan) : (setChan p g c).vxeSeq = p.vxeSeq := rfl
@[simp] theorem setChan_sfeSeq (p : Pot) (g : Nat) (c : Chan) : (setChan p g c).sfeSeq = p.sfeSeq := rfl
@[simp] theorem setChan_mxe (p : Pot) (g : Nat) (c : Chan) : (setChan p g c).mxe = p.mxe := rfl
@[simp] theorem setChan_vxe (p : Pot) (g : Nat) (c : Chan) : (setChan p g c).vxe = p.vxe := rfl
@[simp] theorem setChan_sfe (p : Pot) (g : Nat) (c : Chan) : (setChan p g c).sfe = p.sfe := rfl
@[simp] theorem setChan_lucq (p : Pot) (g : Nat) (c : Chan) : (setChan p g c).lucq = p.lucq := rfl
@[simp] theorem setChan_leafWait (p : Pot) (g : Nat) (c : Chan) : (setChan p g c).leafWait = p.leafWait := rfl
@[simp] theorem setChan_pushWait (p : Pot) (g : Nat) (c : Chan) : (setChan p g c).pushWait = p.pushWait := rfl
@[simp] theorem setChan_ownLoads (p : Pot) (g : Nat) (c : Chan) : (setChan p g c).ownLoads = p.ownLoads := rfl
@[simp] theorem setChan_runs (p : Pot) (g : Nat) (c : Chan) : (setChan p g c).runs = p.runs := rfl
@[simp] theorem setChan_lus (p : Pot) (g : Nat) (c : Chan) : (setChan p g c).lus = p.lus := rfl
@[simp] theorem setChan_proxies (p : Pot) (g : Nat) (c : Chan) : (setChan p g c).proxies = p.proxies := rfl
@[simp] theorem setChan_luSeed (p : Pot) (g : Nat) (c : Chan) : (setChan p g c).luSeed = p.luSeed := rfl
@[simp] theorem setChan_luLimit (p : Pot) (g : Nat) (c : Chan) : (setChan p g c).luLimit = p.luLimit := rfl
@[simp] theorem setChan_luProxy (p : Pot) (g : Nat) (c : Chan) : (setChan p g c).luProxy = p.luProxy := rfl
@[simp] theorem setChan_luEvents (p : Pot) (g : Nat) (c : Chan) : (setChan p g c).luEvents = p.luEvents := rfl
@[simp] theorem setChan_template_ (p : Pot) (g : Nat) (c : Chan) : (setChan p g c).template_ = p.template_ := rfl
@[simp] theorem setChan_bksTimingA (p : Pot) (g : Nat) (c : Chan) : (setChan p g c).bksTimingA = p.bksTimingA := rfl
@[simp] theorem setChan_bksTimingB (p : Pot) (g : Nat) (c : Chan) : (setChan p g c).bksTimingB = p.bksTimingB := rfl
@[simp] theorem setChan_bksCtl (p : Pot) (g : Nat) (c : Chan) : (setChan p g c).bksCtl = p.bksCtl := rfl
@[simp] theorem setChan_bksRetrain (p : Pot) (g : Nat) (c : Chan) : (setChan p g c).bksRetrain = p.bksRetrain := rfl
@[simp] theorem setChan_scheds (p : Pot) (g : Nat) (c : Chan) : (setChan p g c).scheds = p.scheds := rfl
@[simp] theorem setChan_bands (p : Pot) (g : Nat) (c : Chan) : (setChan p g c).bands = p.bands := rfl
@[simp] theorem setChan_forced (p : Pot) (g : Nat) (c : Chan) : (setChan p g c).forced = p.forced := rfl
@[simp] theorem setChan_snc (p : Pot) (g : Nat) (c : Chan) : (setChan p g c).snc = p.snc := rfl
@[simp] theorem setChan_pat (p : Pot) (g : Nat) (c : Chan) : (setChan p g c).pat = p.pat := rfl
@[simp] theorem setChan_pmt (p : Pot) (g : Nat) (c : Chan) : (setChan p g c).pmt = p.pmt := rfl
@[simp] theorem setChan_ports (p : Pot) (g : Nat) (c : Chan) : (setChan p g c).ports = p.ports := rfl
@[simp] theorem setChan_streams (p : Pot) (g : Nat) (c : Chan) : (setChan p g c).streams = p.streams := rfl
@[simp] theorem setChan_remote (p : Pot) (g : Nat) (c : Chan) : (setChan p g c).remote = p.remote := rfl
@[simp] theorem setChan_nextReq (p : Pot) (g : Nat) (c : Chan) : (setChan p g c).nextReq = p.nextReq := rfl
@[simp] theorem setChan_cores (p : Pot) (g : Nat) (c : Chan) : (setChan p g c).cores = p.cores := rfl
@[simp] theorem setChan_events (p : Pot) (g : Nat) (c : Chan) : (setChan p g c).events = p.events := rfl
@[simp] theorem setChan_strainer (p : Pot) (g : Nat) (c : Chan) : (setChan p g c).strainer = p.strainer := rfl
@[simp] theorem setChan_cup (p : Pot) (g : Nat) (c : Chan) : (setChan p g c).cup = p.cup := rfl
@[simp] theorem setChan_sncIrq (p : Pot) (g : Nat) (c : Chan) : (setChan p g c).sncIrq = p.sncIrq := rfl
@[simp] theorem setChan_snapSeq (p : Pot) (g : Nat) (c : Chan) : (setChan p g c).snapSeq = p.snapSeq := rfl
@[simp] theorem setChan_snapValid (p : Pot) (g : Nat) (c : Chan) : (setChan p g c).snapValid = p.snapValid := rfl
@[simp] theorem setChan_cfgErr (p : Pot) (g : Nat) (c : Chan) : (setChan p g c).cfgErr = p.cfgErr := rfl
@[simp] theorem setChan_regErr (p : Pot) (g : Nat) (c : Chan) : (setChan p g c).regErr = p.regErr := rfl
@[simp] theorem setChan_failedResets (p : Pot) (g : Nat) (c : Chan) : (setChan p g c).failedResets = p.failedResets := rfl

@[simp] theorem setSched_router (p : Pot) (g : Nat) (c : Sched) : (setSched p g c).router = p.router := rfl
@[simp] theorem setSched_inReset (p : Pot) (g : Nat) (c : Sched) : (setSched p g c).inReset = p.inReset := rfl
@[simp] theorem setSched_trayClear (p : Pot) (g : Nat) (c : Sched) : (setSched p g c).trayClear = p.trayClear := rfl
@[simp] theorem setSched_fwRunning (p : Pot) (g : Nat) (c : Sched) : (setSched p g c).fwRunning = p.fwRunning := rfl
@[simp] theorem setSched_quiesced (p : Pot) (g : Nat) (c : Sched) : (setSched p g c).quiesced = p.quiesced := rfl
@[simp] theorem setSched_inbox (p : Pot) (g : Nat) (c : Sched) : (setSched p g c).inbox = p.inbox := rfl
@[simp] theorem setSched_answers (p : Pot) (g : Nat) (c : Sched) : (setSched p g c).answers = p.answers := rfl
@[simp] theorem setSched_mapCopy (p : Pot) (g : Nat) (c : Sched) : (setSched p g c).mapCopy = p.mapCopy := rfl
@[simp] theorem setSched_mapLost (p : Pot) (g : Nat) (c : Sched) : (setSched p g c).mapLost = p.mapLost := rfl
@[simp] theorem setSched_queues (p : Pot) (g : Nat) (c : Sched) : (setSched p g c).queues = p.queues := rfl
@[simp] theorem setSched_queueBad (p : Pot) (g : Nat) (c : Sched) : (setSched p g c).queueBad = p.queueBad := rfl
@[simp] theorem setSched_mxeSeq (p : Pot) (g : Nat) (c : Sched) : (setSched p g c).mxeSeq = p.mxeSeq := rfl
@[simp] theorem setSched_vxeSeq (p : Pot) (g : Nat) (c : Sched) : (setSched p g c).vxeSeq = p.vxeSeq := rfl
@[simp] theorem setSched_sfeSeq (p : Pot) (g : Nat) (c : Sched) : (setSched p g c).sfeSeq = p.sfeSeq := rfl
@[simp] theorem setSched_mxe (p : Pot) (g : Nat) (c : Sched) : (setSched p g c).mxe = p.mxe := rfl
@[simp] theorem setSched_vxe (p : Pot) (g : Nat) (c : Sched) : (setSched p g c).vxe = p.vxe := rfl
@[simp] theorem setSched_sfe (p : Pot) (g : Nat) (c : Sched) : (setSched p g c).sfe = p.sfe := rfl
@[simp] theorem setSched_lucq (p : Pot) (g : Nat) (c : Sched) : (setSched p g c).lucq = p.lucq := rfl
@[simp] theorem setSched_leafWait (p : Pot) (g : Nat) (c : Sched) : (setSched p g c).leafWait = p.leafWait := rfl
@[simp] theorem setSched_pushWait (p : Pot) (g : Nat) (c : Sched) : (setSched p g c).pushWait = p.pushWait := rfl
@[simp] theorem setSched_ownLoads (p : Pot) (g : Nat) (c : Sched) : (setSched p g c).ownLoads = p.ownLoads := rfl
@[simp] theorem setSched_runs (p : Pot) (g : Nat) (c : Sched) : (setSched p g c).runs = p.runs := rfl
@[simp] theorem setSched_lus (p : Pot) (g : Nat) (c : Sched) : (setSched p g c).lus = p.lus := rfl
@[simp] theorem setSched_chans (p : Pot) (g : Nat) (c : Sched) : (setSched p g c).chans = p.chans := rfl
@[simp] theorem setSched_proxies (p : Pot) (g : Nat) (c : Sched) : (setSched p g c).proxies = p.proxies := rfl
@[simp] theorem setSched_luSeed (p : Pot) (g : Nat) (c : Sched) : (setSched p g c).luSeed = p.luSeed := rfl
@[simp] theorem setSched_luLimit (p : Pot) (g : Nat) (c : Sched) : (setSched p g c).luLimit = p.luLimit := rfl
@[simp] theorem setSched_luProxy (p : Pot) (g : Nat) (c : Sched) : (setSched p g c).luProxy = p.luProxy := rfl
@[simp] theorem setSched_luEvents (p : Pot) (g : Nat) (c : Sched) : (setSched p g c).luEvents = p.luEvents := rfl
@[simp] theorem setSched_template_ (p : Pot) (g : Nat) (c : Sched) : (setSched p g c).template_ = p.template_ := rfl
@[simp] theorem setSched_bksTimingA (p : Pot) (g : Nat) (c : Sched) : (setSched p g c).bksTimingA = p.bksTimingA := rfl
@[simp] theorem setSched_bksTimingB (p : Pot) (g : Nat) (c : Sched) : (setSched p g c).bksTimingB = p.bksTimingB := rfl
@[simp] theorem setSched_bksCtl (p : Pot) (g : Nat) (c : Sched) : (setSched p g c).bksCtl = p.bksCtl := rfl
@[simp] theorem setSched_bksRetrain (p : Pot) (g : Nat) (c : Sched) : (setSched p g c).bksRetrain = p.bksRetrain := rfl
@[simp] theorem setSched_bands (p : Pot) (g : Nat) (c : Sched) : (setSched p g c).bands = p.bands := rfl
@[simp] theorem setSched_forced (p : Pot) (g : Nat) (c : Sched) : (setSched p g c).forced = p.forced := rfl
@[simp] theorem setSched_snc (p : Pot) (g : Nat) (c : Sched) : (setSched p g c).snc = p.snc := rfl
@[simp] theorem setSched_pat (p : Pot) (g : Nat) (c : Sched) : (setSched p g c).pat = p.pat := rfl
@[simp] theorem setSched_pmt (p : Pot) (g : Nat) (c : Sched) : (setSched p g c).pmt = p.pmt := rfl
@[simp] theorem setSched_ports (p : Pot) (g : Nat) (c : Sched) : (setSched p g c).ports = p.ports := rfl
@[simp] theorem setSched_streams (p : Pot) (g : Nat) (c : Sched) : (setSched p g c).streams = p.streams := rfl
@[simp] theorem setSched_remote (p : Pot) (g : Nat) (c : Sched) : (setSched p g c).remote = p.remote := rfl
@[simp] theorem setSched_nextReq (p : Pot) (g : Nat) (c : Sched) : (setSched p g c).nextReq = p.nextReq := rfl
@[simp] theorem setSched_cores (p : Pot) (g : Nat) (c : Sched) : (setSched p g c).cores = p.cores := rfl
@[simp] theorem setSched_events (p : Pot) (g : Nat) (c : Sched) : (setSched p g c).events = p.events := rfl
@[simp] theorem setSched_strainer (p : Pot) (g : Nat) (c : Sched) : (setSched p g c).strainer = p.strainer := rfl
@[simp] theorem setSched_cup (p : Pot) (g : Nat) (c : Sched) : (setSched p g c).cup = p.cup := rfl
@[simp] theorem setSched_sncIrq (p : Pot) (g : Nat) (c : Sched) : (setSched p g c).sncIrq = p.sncIrq := rfl
@[simp] theorem setSched_snapSeq (p : Pot) (g : Nat) (c : Sched) : (setSched p g c).snapSeq = p.snapSeq := rfl
@[simp] theorem setSched_snapValid (p : Pot) (g : Nat) (c : Sched) : (setSched p g c).snapValid = p.snapValid := rfl
@[simp] theorem setSched_cfgErr (p : Pot) (g : Nat) (c : Sched) : (setSched p g c).cfgErr = p.cfgErr := rfl
@[simp] theorem setSched_regErr (p : Pot) (g : Nat) (c : Sched) : (setSched p g c).regErr = p.regErr := rfl
@[simp] theorem setSched_failedResets (p : Pot) (g : Nat) (c : Sched) : (setSched p g c).failedResets = p.failedResets := rfl

@[simp] theorem setPort_router (p : Pot) (k : Nat) (q : Port) : (setPort p k q).router = p.router := rfl
@[simp] theorem setPort_inReset (p : Pot) (k : Nat) (q : Port) : (setPort p k q).inReset = p.inReset := rfl
@[simp] theorem setPort_trayClear (p : Pot) (k : Nat) (q : Port) : (setPort p k q).trayClear = p.trayClear := rfl
@[simp] theorem setPort_fwRunning (p : Pot) (k : Nat) (q : Port) : (setPort p k q).fwRunning = p.fwRunning := rfl
@[simp] theorem setPort_quiesced (p : Pot) (k : Nat) (q : Port) : (setPort p k q).quiesced = p.quiesced := rfl
@[simp] theorem setPort_inbox (p : Pot) (k : Nat) (q : Port) : (setPort p k q).inbox = p.inbox := rfl
@[simp] theorem setPort_answers (p : Pot) (k : Nat) (q : Port) : (setPort p k q).answers = p.answers := rfl
@[simp] theorem setPort_mapCopy (p : Pot) (k : Nat) (q : Port) : (setPort p k q).mapCopy = p.mapCopy := rfl
@[simp] theorem setPort_mapLost (p : Pot) (k : Nat) (q : Port) : (setPort p k q).mapLost = p.mapLost := rfl
@[simp] theorem setPort_queues (p : Pot) (k : Nat) (q : Port) : (setPort p k q).queues = p.queues := rfl
@[simp] theorem setPort_queueBad (p : Pot) (k : Nat) (q : Port) : (setPort p k q).queueBad = p.queueBad := rfl
@[simp] theorem setPort_mxeSeq (p : Pot) (k : Nat) (q : Port) : (setPort p k q).mxeSeq = p.mxeSeq := rfl
@[simp] theorem setPort_vxeSeq (p : Pot) (k : Nat) (q : Port) : (setPort p k q).vxeSeq = p.vxeSeq := rfl
@[simp] theorem setPort_sfeSeq (p : Pot) (k : Nat) (q : Port) : (setPort p k q).sfeSeq = p.sfeSeq := rfl
@[simp] theorem setPort_mxe (p : Pot) (k : Nat) (q : Port) : (setPort p k q).mxe = p.mxe := rfl
@[simp] theorem setPort_vxe (p : Pot) (k : Nat) (q : Port) : (setPort p k q).vxe = p.vxe := rfl
@[simp] theorem setPort_sfe (p : Pot) (k : Nat) (q : Port) : (setPort p k q).sfe = p.sfe := rfl
@[simp] theorem setPort_lucq (p : Pot) (k : Nat) (q : Port) : (setPort p k q).lucq = p.lucq := rfl
@[simp] theorem setPort_leafWait (p : Pot) (k : Nat) (q : Port) : (setPort p k q).leafWait = p.leafWait := rfl
@[simp] theorem setPort_pushWait (p : Pot) (k : Nat) (q : Port) : (setPort p k q).pushWait = p.pushWait := rfl
@[simp] theorem setPort_ownLoads (p : Pot) (k : Nat) (q : Port) : (setPort p k q).ownLoads = p.ownLoads := rfl
@[simp] theorem setPort_runs (p : Pot) (k : Nat) (q : Port) : (setPort p k q).runs = p.runs := rfl
@[simp] theorem setPort_lus (p : Pot) (k : Nat) (q : Port) : (setPort p k q).lus = p.lus := rfl
@[simp] theorem setPort_chans (p : Pot) (k : Nat) (q : Port) : (setPort p k q).chans = p.chans := rfl
@[simp] theorem setPort_proxies (p : Pot) (k : Nat) (q : Port) : (setPort p k q).proxies = p.proxies := rfl
@[simp] theorem setPort_luSeed (p : Pot) (k : Nat) (q : Port) : (setPort p k q).luSeed = p.luSeed := rfl
@[simp] theorem setPort_luLimit (p : Pot) (k : Nat) (q : Port) : (setPort p k q).luLimit = p.luLimit := rfl
@[simp] theorem setPort_luProxy (p : Pot) (k : Nat) (q : Port) : (setPort p k q).luProxy = p.luProxy := rfl
@[simp] theorem setPort_luEvents (p : Pot) (k : Nat) (q : Port) : (setPort p k q).luEvents = p.luEvents := rfl
@[simp] theorem setPort_template_ (p : Pot) (k : Nat) (q : Port) : (setPort p k q).template_ = p.template_ := rfl
@[simp] theorem setPort_bksTimingA (p : Pot) (k : Nat) (q : Port) : (setPort p k q).bksTimingA = p.bksTimingA := rfl
@[simp] theorem setPort_bksTimingB (p : Pot) (k : Nat) (q : Port) : (setPort p k q).bksTimingB = p.bksTimingB := rfl
@[simp] theorem setPort_bksCtl (p : Pot) (k : Nat) (q : Port) : (setPort p k q).bksCtl = p.bksCtl := rfl
@[simp] theorem setPort_bksRetrain (p : Pot) (k : Nat) (q : Port) : (setPort p k q).bksRetrain = p.bksRetrain := rfl
@[simp] theorem setPort_scheds (p : Pot) (k : Nat) (q : Port) : (setPort p k q).scheds = p.scheds := rfl
@[simp] theorem setPort_bands (p : Pot) (k : Nat) (q : Port) : (setPort p k q).bands = p.bands := rfl
@[simp] theorem setPort_forced (p : Pot) (k : Nat) (q : Port) : (setPort p k q).forced = p.forced := rfl
@[simp] theorem setPort_snc (p : Pot) (k : Nat) (q : Port) : (setPort p k q).snc = p.snc := rfl
@[simp] theorem setPort_pat (p : Pot) (k : Nat) (q : Port) : (setPort p k q).pat = p.pat := rfl
@[simp] theorem setPort_pmt (p : Pot) (k : Nat) (q : Port) : (setPort p k q).pmt = p.pmt := rfl
@[simp] theorem setPort_streams (p : Pot) (k : Nat) (q : Port) : (setPort p k q).streams = p.streams := rfl
@[simp] theorem setPort_remote (p : Pot) (k : Nat) (q : Port) : (setPort p k q).remote = p.remote := rfl
@[simp] theorem setPort_nextReq (p : Pot) (k : Nat) (q : Port) : (setPort p k q).nextReq = p.nextReq := rfl
@[simp] theorem setPort_cores (p : Pot) (k : Nat) (q : Port) : (setPort p k q).cores = p.cores := rfl
@[simp] theorem setPort_events (p : Pot) (k : Nat) (q : Port) : (setPort p k q).events = p.events := rfl
@[simp] theorem setPort_strainer (p : Pot) (k : Nat) (q : Port) : (setPort p k q).strainer = p.strainer := rfl
@[simp] theorem setPort_cup (p : Pot) (k : Nat) (q : Port) : (setPort p k q).cup = p.cup := rfl
@[simp] theorem setPort_sncIrq (p : Pot) (k : Nat) (q : Port) : (setPort p k q).sncIrq = p.sncIrq := rfl
@[simp] theorem setPort_snapSeq (p : Pot) (k : Nat) (q : Port) : (setPort p k q).snapSeq = p.snapSeq := rfl
@[simp] theorem setPort_snapValid (p : Pot) (k : Nat) (q : Port) : (setPort p k q).snapValid = p.snapValid := rfl
@[simp] theorem setPort_cfgErr (p : Pot) (k : Nat) (q : Port) : (setPort p k q).cfgErr = p.cfgErr := rfl
@[simp] theorem setPort_regErr (p : Pot) (k : Nat) (q : Port) : (setPort p k q).regErr = p.regErr := rfl
@[simp] theorem setPort_failedResets (p : Pot) (k : Nat) (q : Port) : (setPort p k q).failedResets = p.failedResets := rfl

@[simp] theorem setQueue_router (p : Pot) (i : Nat) (q : Queue) : (setQueue p i q).router = p.router := rfl
@[simp] theorem setQueue_inReset (p : Pot) (i : Nat) (q : Queue) : (setQueue p i q).inReset = p.inReset := rfl
@[simp] theorem setQueue_trayClear (p : Pot) (i : Nat) (q : Queue) : (setQueue p i q).trayClear = p.trayClear := rfl
@[simp] theorem setQueue_fwRunning (p : Pot) (i : Nat) (q : Queue) : (setQueue p i q).fwRunning = p.fwRunning := rfl
@[simp] theorem setQueue_quiesced (p : Pot) (i : Nat) (q : Queue) : (setQueue p i q).quiesced = p.quiesced := rfl
@[simp] theorem setQueue_inbox (p : Pot) (i : Nat) (q : Queue) : (setQueue p i q).inbox = p.inbox := rfl
@[simp] theorem setQueue_answers (p : Pot) (i : Nat) (q : Queue) : (setQueue p i q).answers = p.answers := rfl
@[simp] theorem setQueue_mapCopy (p : Pot) (i : Nat) (q : Queue) : (setQueue p i q).mapCopy = p.mapCopy := rfl
@[simp] theorem setQueue_mapLost (p : Pot) (i : Nat) (q : Queue) : (setQueue p i q).mapLost = p.mapLost := rfl
@[simp] theorem setQueue_queueBad (p : Pot) (i : Nat) (q : Queue) : (setQueue p i q).queueBad = p.queueBad := rfl
@[simp] theorem setQueue_mxeSeq (p : Pot) (i : Nat) (q : Queue) : (setQueue p i q).mxeSeq = p.mxeSeq := rfl
@[simp] theorem setQueue_vxeSeq (p : Pot) (i : Nat) (q : Queue) : (setQueue p i q).vxeSeq = p.vxeSeq := rfl
@[simp] theorem setQueue_sfeSeq (p : Pot) (i : Nat) (q : Queue) : (setQueue p i q).sfeSeq = p.sfeSeq := rfl
@[simp] theorem setQueue_mxe (p : Pot) (i : Nat) (q : Queue) : (setQueue p i q).mxe = p.mxe := rfl
@[simp] theorem setQueue_vxe (p : Pot) (i : Nat) (q : Queue) : (setQueue p i q).vxe = p.vxe := rfl
@[simp] theorem setQueue_sfe (p : Pot) (i : Nat) (q : Queue) : (setQueue p i q).sfe = p.sfe := rfl
@[simp] theorem setQueue_lucq (p : Pot) (i : Nat) (q : Queue) : (setQueue p i q).lucq = p.lucq := rfl
@[simp] theorem setQueue_leafWait (p : Pot) (i : Nat) (q : Queue) : (setQueue p i q).leafWait = p.leafWait := rfl
@[simp] theorem setQueue_pushWait (p : Pot) (i : Nat) (q : Queue) : (setQueue p i q).pushWait = p.pushWait := rfl
@[simp] theorem setQueue_ownLoads (p : Pot) (i : Nat) (q : Queue) : (setQueue p i q).ownLoads = p.ownLoads := rfl
@[simp] theorem setQueue_runs (p : Pot) (i : Nat) (q : Queue) : (setQueue p i q).runs = p.runs := rfl
@[simp] theorem setQueue_lus (p : Pot) (i : Nat) (q : Queue) : (setQueue p i q).lus = p.lus := rfl
@[simp] theorem setQueue_chans (p : Pot) (i : Nat) (q : Queue) : (setQueue p i q).chans = p.chans := rfl
@[simp] theorem setQueue_proxies (p : Pot) (i : Nat) (q : Queue) : (setQueue p i q).proxies = p.proxies := rfl
@[simp] theorem setQueue_luSeed (p : Pot) (i : Nat) (q : Queue) : (setQueue p i q).luSeed = p.luSeed := rfl
@[simp] theorem setQueue_luLimit (p : Pot) (i : Nat) (q : Queue) : (setQueue p i q).luLimit = p.luLimit := rfl
@[simp] theorem setQueue_luProxy (p : Pot) (i : Nat) (q : Queue) : (setQueue p i q).luProxy = p.luProxy := rfl
@[simp] theorem setQueue_luEvents (p : Pot) (i : Nat) (q : Queue) : (setQueue p i q).luEvents = p.luEvents := rfl
@[simp] theorem setQueue_template_ (p : Pot) (i : Nat) (q : Queue) : (setQueue p i q).template_ = p.template_ := rfl
@[simp] theorem setQueue_bksTimingA (p : Pot) (i : Nat) (q : Queue) : (setQueue p i q).bksTimingA = p.bksTimingA := rfl
@[simp] theorem setQueue_bksTimingB (p : Pot) (i : Nat) (q : Queue) : (setQueue p i q).bksTimingB = p.bksTimingB := rfl
@[simp] theorem setQueue_bksCtl (p : Pot) (i : Nat) (q : Queue) : (setQueue p i q).bksCtl = p.bksCtl := rfl
@[simp] theorem setQueue_bksRetrain (p : Pot) (i : Nat) (q : Queue) : (setQueue p i q).bksRetrain = p.bksRetrain := rfl
@[simp] theorem setQueue_scheds (p : Pot) (i : Nat) (q : Queue) : (setQueue p i q).scheds = p.scheds := rfl
@[simp] theorem setQueue_bands (p : Pot) (i : Nat) (q : Queue) : (setQueue p i q).bands = p.bands := rfl
@[simp] theorem setQueue_forced (p : Pot) (i : Nat) (q : Queue) : (setQueue p i q).forced = p.forced := rfl
@[simp] theorem setQueue_snc (p : Pot) (i : Nat) (q : Queue) : (setQueue p i q).snc = p.snc := rfl
@[simp] theorem setQueue_pat (p : Pot) (i : Nat) (q : Queue) : (setQueue p i q).pat = p.pat := rfl
@[simp] theorem setQueue_pmt (p : Pot) (i : Nat) (q : Queue) : (setQueue p i q).pmt = p.pmt := rfl
@[simp] theorem setQueue_ports (p : Pot) (i : Nat) (q : Queue) : (setQueue p i q).ports = p.ports := rfl
@[simp] theorem setQueue_streams (p : Pot) (i : Nat) (q : Queue) : (setQueue p i q).streams = p.streams := rfl
@[simp] theorem setQueue_remote (p : Pot) (i : Nat) (q : Queue) : (setQueue p i q).remote = p.remote := rfl
@[simp] theorem setQueue_nextReq (p : Pot) (i : Nat) (q : Queue) : (setQueue p i q).nextReq = p.nextReq := rfl
@[simp] theorem setQueue_cores (p : Pot) (i : Nat) (q : Queue) : (setQueue p i q).cores = p.cores := rfl
@[simp] theorem setQueue_events (p : Pot) (i : Nat) (q : Queue) : (setQueue p i q).events = p.events := rfl
@[simp] theorem setQueue_strainer (p : Pot) (i : Nat) (q : Queue) : (setQueue p i q).strainer = p.strainer := rfl
@[simp] theorem setQueue_cup (p : Pot) (i : Nat) (q : Queue) : (setQueue p i q).cup = p.cup := rfl
@[simp] theorem setQueue_sncIrq (p : Pot) (i : Nat) (q : Queue) : (setQueue p i q).sncIrq = p.sncIrq := rfl
@[simp] theorem setQueue_snapSeq (p : Pot) (i : Nat) (q : Queue) : (setQueue p i q).snapSeq = p.snapSeq := rfl
@[simp] theorem setQueue_snapValid (p : Pot) (i : Nat) (q : Queue) : (setQueue p i q).snapValid = p.snapValid := rfl
@[simp] theorem setQueue_cfgErr (p : Pot) (i : Nat) (q : Queue) : (setQueue p i q).cfgErr = p.cfgErr := rfl
@[simp] theorem setQueue_regErr (p : Pot) (i : Nat) (q : Queue) : (setQueue p i q).regErr = p.regErr := rfl
@[simp] theorem setQueue_failedResets (p : Pot) (i : Nat) (q : Queue) : (setQueue p i q).failedResets = p.failedResets := rfl

@[simp] theorem seqOf_setSeq_same (p : Pot) (e : Eng) (q : Seqr) : seqOf (setSeq p e q) e = q := by cases e <;> rfl
theorem seqOf_setSeq_other (p : Pot) (e f : Eng) (q : Seqr) (h : f ≠ e) : seqOf (setSeq p e q) f = seqOf p f := by
  cases e <;> cases f <;> first | rfl | exact absurd rfl h
@[simp] theorem luOf_setLu_same (p : Pot) (i : Nat) (x : Lu) : luOf (setLu p i x) i = x := by simp [luOf, setLu]
theorem luOf_setLu_other (p : Pot) (i j : Nat) (x : Lu) (hj : j ≠ i) : luOf (setLu p i x) j = luOf p j := by
  simp [luOf, setLu, tget_tset_other _ _ _ _ _ hj]
@[simp] theorem chanOf_setChan_same (p : Pot) (i : Nat) (x : Chan) : chanOf (setChan p i x) i = x := by simp [chanOf, setChan]
theorem chanOf_setChan_other (p : Pot) (i j : Nat) (x : Chan) (hj : j ≠ i) : chanOf (setChan p i x) j = chanOf p j := by
  simp [chanOf, setChan, tget_tset_other _ _ _ _ _ hj]
@[simp] theorem schedOf_setSched_same (p : Pot) (i : Nat) (x : Sched) : schedOf (setSched p i x) i = x := by simp [schedOf, setSched]
theorem schedOf_setSched_other (p : Pot) (i j : Nat) (x : Sched) (hj : j ≠ i) : schedOf (setSched p i x) j = schedOf p j := by
  simp [schedOf, setSched, tget_tset_other _ _ _ _ _ hj]
@[simp] theorem portOf_setPort_same (p : Pot) (i : Nat) (x : Port) : portOf (setPort p i x) i = x := by simp [portOf, setPort]
theorem portOf_setPort_other (p : Pot) (i j : Nat) (x : Port) (hj : j ≠ i) : portOf (setPort p i x) j = portOf p j := by
  simp [portOf, setPort, tget_tset_other _ _ _ _ _ hj]
@[simp] theorem queueOf_setQueue_same (p : Pot) (i : Nat) (x : Queue) : queueOf (setQueue p i x) i = x := by simp [queueOf, setQueue]
theorem queueOf_setQueue_other (p : Pot) (i j : Nat) (x : Queue) (hj : j ≠ i) : queueOf (setQueue p i x) j = queueOf p j := by
  simp [queueOf, setQueue, tget_tset_other _ _ _ _ _ hj]

/-! Updates of a scheduler, a sync unit and the host front end. -/

@[simp] theorem setBank_rt (c : Sched) (b : Nat) (k : Bank) : (setBank c b k).rt = c.rt := rfl
@[simp] theorem setBank_eng (c : Sched) (b : Nat) (k : Bank) : (setBank c b k).eng = c.eng := rfl
@[simp] theorem setBank_sfe (c : Sched) (b : Nat) (k : Bank) : (setBank c b k).sfe = c.sfe := rfl
@[simp] theorem setBank_lu (c : Sched) (b : Nat) (k : Bank) : (setBank c b k).lu = c.lu := rfl
@[simp] theorem setBank_pat (c : Sched) (b : Nat) (k : Bank) : (setBank c b k).pat = c.pat := rfl
@[simp] theorem setBank_queue (c : Sched) (b : Nat) (k : Bank) : (setBank c b k).queue = c.queue := rfl
@[simp] theorem setBank_whistle (c : Sched) (b : Nat) (k : Bank) : (setBank c b k).whistle = c.whistle := rfl
@[simp] theorem setBank_merge (c : Sched) (b : Nat) (k : Bank) : (setBank c b k).merge = c.merge := rfl
@[simp] theorem setBank_debts (c : Sched) (b : Nat) (k : Bank) : (setBank c b k).debts = c.debts := rfl
@[simp] theorem setBank_cycle (c : Sched) (b : Nat) (k : Bank) : (setBank c b k).cycle = c.cycle := rfl
@[simp] theorem setBank_arrivals (c : Sched) (b : Nat) (k : Bank) : (setBank c b k).arrivals = c.arrivals := rfl
@[simp] theorem setBank_busFree (c : Sched) (b : Nat) (k : Bank) : (setBank c b k).busFree = c.busFree := rfl
@[simp] theorem setBank_acts (c : Sched) (b : Nat) (k : Bank) : (setBank c b k).acts = c.acts := rfl
@[simp] theorem setBank_crossings (c : Sched) (b : Nat) (k : Bank) : (setBank c b k).crossings = c.crossings := rfl
@[simp] theorem setBank_swept (c : Sched) (b : Nat) (k : Bank) : (setBank c b k).swept = c.swept := rfl
@[simp] theorem setBank_selfRefresh (c : Sched) (b : Nat) (k : Bank) : (setBank c b k).selfRefresh = c.selfRefresh := rfl
@[simp] theorem setBank_retraining (c : Sched) (b : Nat) (k : Bank) : (setBank c b k).retraining = c.retraining := rfl
@[simp] theorem setBank_refNow (c : Sched) (b : Nat) (k : Bank) : (setBank c b k).refNow = c.refNow := rfl
@[simp] theorem setBank_eyeCentred (c : Sched) (b : Nat) (k : Bank) : (setBank c b k).eyeCentred = c.eyeCentred := rfl
@[simp] theorem setBank_lastRead (c : Sched) (b : Nat) (k : Bank) : (setBank c b k).lastRead = c.lastRead := rfl
@[simp] theorem setBank_events (c : Sched) (b : Nat) (k : Bank) : (setBank c b k).events = c.events := rfl
@[simp] theorem setBank_dirty (c : Sched) (b : Nat) (k : Bank) : (setBank c b k).dirty = c.dirty := rfl
@[simp] theorem setBank_patrolPos (c : Sched) (b : Nat) (k : Bank) : (setBank c b k).patrolPos = c.patrolPos := rfl
@[simp] theorem setBank_passes (c : Sched) (b : Nat) (k : Bank) : (setBank c b k).passes = c.passes := rfl
@[simp] theorem setBank_scrubbed (c : Sched) (b : Nat) (k : Bank) : (setBank c b k).scrubbed = c.scrubbed := rfl
@[simp] theorem setBank_timingA (c : Sched) (b : Nat) (k : Bank) : (setBank c b k).timingA = c.timingA := rfl
@[simp] theorem setBank_timingB (c : Sched) (b : Nat) (k : Bank) : (setBank c b k).timingB = c.timingB := rfl
@[simp] theorem setBank_bctl (c : Sched) (b : Nat) (k : Bank) : (setBank c b k).bctl = c.bctl := rfl
@[simp] theorem setBank_patCtl (c : Sched) (b : Nat) (k : Bank) : (setBank c b k).patCtl = c.patCtl := rfl

@[simp] theorem setSyncWord_waiters (c : Snc) (i : Nat) (w : SyncWord) : (setSyncWord c i w).waiters = c.waiters := rfl
@[simp] theorem setSyncWord_held (c : Snc) (i : Nat) (w : SyncWord) : (setSyncWord c i w).held = c.held := rfl
@[simp] theorem setSyncWord_slots (c : Snc) (i : Nat) (w : SyncWord) : (setSyncWord c i w).slots = c.slots := rfl
@[simp] theorem setSyncWord_ctl (c : Snc) (i : Nat) (w : SyncWord) : (setSyncWord c i w).ctl = c.ctl := rfl
@[simp] theorem setSyncWord_events (c : Snc) (i : Nat) (w : SyncWord) : (setSyncWord c i w).events = c.events := rfl

@[simp] theorem setSlot_waitq (h : Hfe) (i : Nat) (x : Slot) : (setSlot h i x).waitq = h.waitq := rfl
@[simp] theorem setSlot_losses (h : Hfe) (i : Nat) (x : Slot) : (setSlot h i x).losses = h.losses := rfl
@[simp] theorem setSlot_expired (h : Hfe) (i : Nat) (x : Slot) : (setSlot h i x).expired = h.expired := rfl
@[simp] theorem setSlot_table (h : Hfe) (i : Nat) (x : Slot) : (setSlot h i x).table = h.table := rfl
@[simp] theorem setSlot_nextId (h : Hfe) (i : Nat) (x : Slot) : (setSlot h i x).nextId = h.nextId := rfl
@[simp] theorem setSlot_records (h : Hfe) (i : Nat) (x : Slot) : (setSlot h i x).records = h.records := rfl
@[simp] theorem setSlot_ctl (h : Hfe) (i : Nat) (x : Slot) : (setSlot h i x).ctl = h.ctl := rfl
@[simp] theorem setSlot_pimOff (h : Hfe) (i : Nat) (x : Slot) : (setSlot h i x).pimOff = h.pimOff := rfl
@[simp] theorem setSlot_errCount (h : Hfe) (i : Nat) (x : Slot) : (setSlot h i x).errCount = h.errCount := rfl
@[simp] theorem setSlot_dropLog (h : Hfe) (i : Nat) (x : Slot) : (setSlot h i x).dropLog = h.dropLog := rfl
@[simp] theorem setSlot_interleave (h : Hfe) (i : Nat) (x : Slot) : (setSlot h i x).interleave = h.interleave := rfl
@[simp] theorem setSlot_absentCount (h : Hfe) (i : Nat) (x : Slot) : (setSlot h i x).absentCount = h.absentCount := rfl
@[simp] theorem setSlot_lateCount (h : Hfe) (i : Nat) (x : Slot) : (setSlot h i x).lateCount = h.lateCount := rfl
@[simp] theorem setSlot_rejectCount (h : Hfe) (i : Nat) (x : Slot) : (setSlot h i x).rejectCount = h.rejectCount := rfl

@[simp] theorem bankOf_setBank_same (c : Sched) (i : Nat) (x : Bank) : bankOf (setBank c i x) i = x := by simp [bankOf, setBank]
theorem bankOf_setBank_other (c : Sched) (i j : Nat) (x : Bank) (hj : j ≠ i) : bankOf (setBank c i x) j = bankOf c j := by
  simp [bankOf, setBank, tget_tset_other _ _ _ _ _ hj]
@[simp] theorem syncWordOf_setSyncWord_same (c : Snc) (i : Nat) (x : SyncWord) : syncWordOf (setSyncWord c i x) i = x := by simp [syncWordOf, setSyncWord]
theorem syncWordOf_setSyncWord_other (c : Snc) (i j : Nat) (x : SyncWord) (hj : j ≠ i) : syncWordOf (setSyncWord c i x) j = syncWordOf c j := by
  simp [syncWordOf, setSyncWord, tget_tset_other _ _ _ _ _ hj]
@[simp] theorem slotOf_setSlot_same (h : Hfe) (i : Nat) (x : Slot) : slotOf (setSlot h i x) i = x := by simp [slotOf, setSlot]
theorem slotOf_setSlot_other (h : Hfe) (i j : Nat) (x : Slot) (hj : j ≠ i) : slotOf (setSlot h i x) j = slotOf h j := by
  simp [slotOf, setSlot, tget_tset_other _ _ _ _ _ hj]

end Sys2Proof.Machine
end

