-- ==== Sys2Proof/Laws/Ops.lean ====
section
/-!
SUPPORT. Laws of the shared operations of Machine/Ops.lean and Machine/Fabric.lean: one lemma for each, which says everything that it
can do. Proofs cite these and do not unfold the operation.
-/

namespace Sys2Proof.Machine

/-! Outcomes. -/

theorem whenDo_next {c : Bool} {s t u : State} : whenDo c s t = .next u ↔ (c = true ∧ u = t) ∨ (c = false ∧ u = s) := by
  cases c <;> simp [whenDo, eq_comm]

theorem checked_next {ok : Bool} {s u : State} {r : Result} :
    checked ok s r = .next u ↔ (ok = true ∧ r = .next u) ∨ (ok = false ∧ u = s) := by
  cases ok <;> simp [checked, eq_comm]

/-! Free values: they move the model's counter and nothing else. -/

@[simp] theorem takeFree_frame (s : State) : { (takeFree s).2 with freeCtr := s.freeCtr } = s := rfl

theorem takeFreeBytes_frame (n : Nat) (s : State) :
    { (takeFreeBytes n s).2 with freeCtr := s.freeCtr } = s ∧ (takeFreeBytes n s).1.length = n := by
  induction n generalizing s with
  | zero => exact ⟨rfl, rfl⟩
  | succ n ih =>
    have h := ih (takeFree s).2
    refine ⟨?_, by simp only [takeFreeBytes, List.length_cons, h.2]⟩
    simpa [takeFree, takeFreeBytes] using congrArg (fun u : State => { u with freeCtr := s.freeCtr }) h.1

/-! Fault records (R513, R514). -/

/-- Only the CUP block and the counter of free values change. -/
theorem sendFault_frame (s : State) (f : FaultInfo) : { sendFault s f with cup := s.cup, freeCtr := s.freeCtr } = s := by
  unfold sendFault; split <;> rfl

/-- The record joins the inbound queue, or a full queue of 64 loses it and counts the loss. -/
theorem sendFault_spec (s : State) (f : FaultInfo) :
    (s.cup.inbound.length < 64 ∧ (sendFault s f).cup.inbound = s.cup.inbound ++ [lineOfBytes (faultBytes s f (takeFree s).1)] ∧
      (sendFault s f).cup.lossNext = false ∧ (sendFault s f).cup.events = s.cup.events) ∨
    (64 ≤ s.cup.inbound.length ∧ (sendFault s f).cup.inbound = s.cup.inbound ∧ (sendFault s f).cup.lossNext = true ∧
      (sendFault s f).cup.events = satField s.cup.events 32 16 1) := by
  unfold sendFault
  split
  · exact .inl ⟨‹_›, rfl, rfl, rfl⟩
  · exact .inr ⟨Nat.le_of_not_lt ‹_›, rfl, rfl, rfl⟩

/-! Messages to the heads (R342). -/

/-- The vector becomes pending while it is masked or the link is down, else its message goes out; nothing else changes. -/
theorem raiseMsi_spec (s : State) (h : BitVec 1) (v : BitVec 6) :
    (((msixOf (headOf s h) v.toNat).masked || !(headOf s h).up) = true ∧ raiseMsi s h v = setHead s h
      { headOf s h with msix := tset (headOf s h).msix v.toNat { msixOf (headOf s h) v.toNat with pend := true } }) ∨
    ((msixOf (headOf s h) v.toNat).masked = false ∧ (headOf s h).up = true ∧
      raiseMsi s h v = { s with out := { s.out with msi := s.out.msi ++ [(h, v)] } }) := by
  simp only [raiseMsi]
  split
  · exact .inl ⟨‹_›, rfl⟩
  · rename_i hn; simp at hn; exact .inr ⟨hn.1, hn.2, rfl⟩

/-- Beside messages and pending bits nothing changes. -/
theorem raiseMsi_frame (s : State) (h : BitVec 1) (v : BitVec 6) (hs : SMap Head) (o : Out) :
    { raiseMsi s h v with heads := hs, out := o } = { s with heads := hs, out := o } := by
  obtain ⟨-, e⟩ | ⟨-, -, e⟩ := raiseMsi_spec s h v
  · rw [e]; rfl
  · rw [e]

/-- The event list takes the record last; beside it only messages and pending bits change. -/
theorem pushCxlEvent_spec (s : State) (e : CxlEvent) (hs : SMap Head) (o : Out) :
    { pushCxlEvent s e with heads := hs, out := o } =
      { s with cxlEvents := s.cxlEvents ++ [e], heads := hs, out := o } := by
  unfold pushCxlEvent raiseModuleEvent
  rw [raiseMsi_frame, raiseMsi_frame]

/-! A pot's event queue, error log and counters. -/

/-- The event joins a queue that has room, and a full queue of 1,024 keeps what it has. -/
theorem postEvent_spec (p : Pot) (ev : BitVec 32) :
    (p.events.length < 1024 ∧ postEvent p ev = { p with events := p.events ++ [ev] }) ∨
    (1024 ≤ p.events.length ∧ postEvent p ev = p) := by
  unfold postEvent
  split
  · exact .inl ⟨‹_›, rfl⟩
  · exact .inr ⟨Nat.le_of_not_lt ‹_›, rfl⟩

theorem pmcAdd_frame (p : Pot) (code n : Nat) :
    { pmcAdd p code n with cup := { (pmcAdd p code n).cup with pmc := p.cup.pmc } } = p := rfl

theorem logError_frame (p : Pot) (a k y c o : Nat) (t : BitVec 16) (i : BitVec 12) :
    { logError p a k y c o t i with pat := p.pat } = p := rfl

/-- The next entry becomes unread, and OVERRUN says that it was unread already (R388). -/
theorem logError_spec (p : Pot) (a k y c o : Nat) (t : BitVec 16) (i : BitVec 12) :
    (logError p a k y c o t i).pat.errNext = p.pat.errNext + 1 ∧
    tget (logError p a k y c o t i).pat.errUnread p.pat.errNext.toNat false = true ∧
    (logError p a k y c o t i).pat.overrun = (p.pat.overrun || tget p.pat.errUnread p.pat.errNext.toNat false) :=
  ⟨rfl, by simp [logError], rfl⟩

/-! Packets and answers on the fabric (R19). -/

theorem fabTake_frame (p : Pot) (vc : FabVc) :
    { fabTake p vc with router := { (fabTake p vc).router with credits := p.router.credits } } = p := rfl
theorem fabGive_frame (p : Pot) (vc : FabVc) :
    { fabGive p vc with router := { (fabGive p vc).router with credits := p.router.credits } } = p := rfl

/-- A packet that is sent and then taken leaves the credits in use as they were. -/
theorem fabGive_fabTake (p : Pot) (vc : FabVc) (k : Nat) :
    tget (fabGive (fabTake p vc) vc).router.credits k 0 = tget p.router.credits k 0 := by
  by_cases h : k = vcCode vc <;> simp [fabGive, fabTake, tupd, tget_tset, h]

/-- The answer joins the pot's answers, and takes a CMB credit. -/
theorem answerMember_spec (s : State) (n : PotIx) (a : MemberAns) :
    (potOf (answerMember s n a) n).answers = (potOf s n).answers ++ [a] ∧
    { answerMember s n a with pots := s.pots } = s := ⟨by simp [answerMember], rfl⟩

/-! Counters of the host front end, and the caddy's event log. -/

theorem hfe_frame (s : State) (x : Hfe) : { { s with hfe := x } with hfe := s.hfe } = s := rfl
theorem countAbsent_frame (s : State) (u c : Nat) : { countAbsent s u c with hfe := s.hfe } = s := hfe_frame s _
theorem countLate_frame (s : State) (n : Nat) : { countLate s n with hfe := s.hfe } = s := hfe_frame s _

theorem logCaddyEvent_frame (s : State) (r : Line) :
    { logCaddyEvent s r with caddy := { (logCaddyEvent s r).caddy with eventLog := s.caddy.eventLog } } = s := rfl

/-- The record comes last in the log (R443). -/
theorem logCaddyEvent_last (s : State) (r : Line) : (logCaddyEvent s r).caddy.eventLog.getLast? = some r := by
  simp only [logCaddyEvent, List.getLast?_append, List.getLast?_singleton, Option.some_or]

end Sys2Proof.Machine
end

