-- ==== Sys2Proof/Laws/PerInstr.lean ====
section
/-!
SUPPORT. Laws made command by command: a well-formed command names LUs of the 66 × 16 of a pot only (R134).
-/

set_option Elab.async false

namespace Sys2Proof.Laws.LuNames

/-- Every LU that a well-formed command names exists. -/
def Statement (i : Instr) : Prop := i.wf = true → ∀ lu ∈ i.lus, lu.toNat < Config.lusPerPot

theorem coldPowerOn : Statement .coldPowerOn := fun _ _ h => absurd h List.not_mem_nil
theorem pgTimeout : ∀ r, Statement (.pgTimeout r) := fun _ _ _ h => absurd h List.not_mem_nil
theorem pgFall : ∀ r, Statement (.pgFall r) := fun _ _ _ h => absurd h List.not_mem_nil
theorem bootRom : ∀ deadLus mxeFails, Statement (.bootRom deadLus mxeFails) := by
  intro _ _ h lu hl
  simp only [Instr.lus, List.mem_map] at hl
  obtain ⟨e, he, rfl⟩ := hl
  simp only [Instr.wf, List.all_eq_true, luIndexOk, decide_eq_true_eq] at h
  exact h e he
theorem tagSweepDone : ∀ pot group, Statement (.tagSweepDone pot group) := fun _ _ _ _ h => absurd h List.not_mem_nil
theorem trayClearDone : ∀ pot, Statement (.trayClearDone pot) := fun _ _ _ h => absurd h List.not_mem_nil
theorem lkgRecord : Statement .lkgRecord := fun _ _ h => absurd h List.not_mem_nil
theorem enrollWindowClose : Statement .enrollWindowClose := fun _ _ h => absurd h List.not_mem_nil
theorem pulseToggle : Statement .pulseToggle := fun _ _ h => absurd h List.not_mem_nil
theorem perst : ∀ levels, Statement (.perst levels) := fun _ _ _ h => absurd h List.not_mem_nil
theorem warmModuleReset : Statement .warmModuleReset := fun _ _ h => absurd h List.not_mem_nil
theorem potReset : ∀ pot failedLus mxePass fwStarts, Statement (.potReset pot failedLus mxePass fwStarts) := by
  intro _ _ _ _ h lu hl
  simp only [Instr.wf, List.all_eq_true, luIndexOk, decide_eq_true_eq] at h
  exact h lu hl
theorem engineReset : ∀ pot eng, Statement (.engineReset pot eng) := fun _ _ _ _ h => absurd h List.not_mem_nil
theorem brewerCoreReset : ∀ pot core, Statement (.brewerCoreReset pot core) := fun _ _ _ _ h => absurd h List.not_mem_nil
theorem headLinkTrain : ∀ head proto rate width, Statement (.headLinkTrain head proto rate width) := fun _ _ _ _ _ _ h => absurd h List.not_mem_nil
theorem headLinkDown : ∀ head, Statement (.headLinkDown head) := fun _ _ _ h => absurd h List.not_mem_nil
theorem hdmDecoderCommit : ∀ head decoder commit, Statement (.hdmDecoderCommit head decoder commit) := fun _ _ _ _ _ h => absurd h List.not_mem_nil
theorem cxlMemRead : ∀ head dpa, Statement (.cxlMemRead head dpa) := fun _ _ _ _ h => absurd h List.not_mem_nil
theorem cxlMemWrite : ∀ head dpa data mask poison, Statement (.cxlMemWrite head dpa data mask poison) := fun _ _ _ _ _ _ _ h => absurd h List.not_mem_nil
theorem syncViewRead : ∀ head pot index, Statement (.syncViewRead head pot index) := fun _ _ _ _ _ h => absurd h List.not_mem_nil
theorem apertureLineWrite : ∀ head offset data mask, Statement (.apertureLineWrite head offset data mask) := fun _ _ _ _ _ _ h => absurd h List.not_mem_nil
theorem assemblyTimeout : ∀ slot, Statement (.assemblyTimeout slot) := fun _ _ _ h => absurd h List.not_mem_nil
theorem dispatchAccept : ∀ slot, Statement (.dispatchAccept slot) := fun _ _ _ h => absurd h List.not_mem_nil
theorem commandDispatch : Statement .commandDispatch := fun _ _ h => absurd h List.not_mem_nil
theorem memberAnswer : ∀ pot, Statement (.memberAnswer pot) := fun _ _ _ h => absurd h List.not_mem_nil
theorem memberLost : ∀ cmd pot, Statement (.memberLost cmd pot) := fun _ _ _ _ h => absurd h List.not_mem_nil
theorem commandComplete : ∀ cmd, Statement (.commandComplete cmd) := fun _ _ _ h => absurd h List.not_mem_nil
theorem cmdTimeout : ∀ cmd, Statement (.cmdTimeout cmd) := fun _ _ _ h => absurd h List.not_mem_nil
theorem msixUnmask : ∀ head vec, Statement (.msixUnmask head vec) := fun _ _ _ _ h => absurd h List.not_mem_nil
theorem leaf : ∀ pot, Statement (.leaf pot) := fun _ _ _ h => absurd h List.not_mem_nil
theorem launch : ∀ pot, Statement (.launch pot) := fun _ _ _ h => absurd h List.not_mem_nil
theorem load : ∀ pot, Statement (.load pot) := fun _ _ _ h => absurd h List.not_mem_nil
theorem restore : ∀ pot, Statement (.restore pot) := fun _ _ _ h => absurd h List.not_mem_nil
theorem save : ∀ pot, Statement (.save pot) := fun _ _ _ h => absurd h List.not_mem_nil
theorem unload : ∀ pot, Statement (.unload pot) := fun _ _ _ h => absurd h List.not_mem_nil
theorem hostSync : ∀ pot, Statement (.hostSync pot) := fun _ _ _ h => absurd h List.not_mem_nil
theorem trayCopy : ∀ pot, Statement (.trayCopy pot) := fun _ _ _ h => absurd h List.not_mem_nil
theorem identifyMemoryDevice : ∀ head, Statement (.identifyMemoryDevice head) := fun _ _ _ h => absurd h List.not_mem_nil
theorem getSupportedLogs : ∀ head, Statement (.getSupportedLogs head) := fun _ _ _ h => absurd h List.not_mem_nil
theorem getLog : ∀ head, Statement (.getLog head) := fun _ _ _ h => absurd h List.not_mem_nil
theorem getEventRecords : ∀ head, Statement (.getEventRecords head) := fun _ _ _ h => absurd h List.not_mem_nil
theorem clearEventRecords : ∀ head count, Statement (.clearEventRecords head count) := fun _ _ _ _ h => absurd h List.not_mem_nil
theorem getHealthInfo : ∀ head, Statement (.getHealthInfo head) := fun _ _ _ h => absurd h List.not_mem_nil
theorem getAlertConfiguration : ∀ head, Statement (.getAlertConfiguration head) := fun _ _ _ h => absurd h List.not_mem_nil
theorem getPoisonList : ∀ head, Statement (.getPoisonList head) := fun _ _ _ h => absurd h List.not_mem_nil
theorem mailboxUnsupported : ∀ head opcode, Statement (.mailboxUnsupported head opcode) := fun _ _ _ _ h => absurd h List.not_mem_nil
theorem getVersion : ∀ head, Statement (.getVersion head) := fun _ _ _ h => absurd h List.not_mem_nil
theorem getCapabilities : ∀ head, Statement (.getCapabilities head) := fun _ _ _ h => absurd h List.not_mem_nil
theorem negotiateAlgorithms : ∀ head, Statement (.negotiateAlgorithms head) := fun _ _ _ h => absurd h List.not_mem_nil
theorem getDigests : ∀ head, Statement (.getDigests head) := fun _ _ _ h => absurd h List.not_mem_nil
theorem getCertificate : ∀ head slot, Statement (.getCertificate head slot) := fun _ _ _ _ h => absurd h List.not_mem_nil
theorem challenge : ∀ head slot nonce, Statement (.challenge head slot nonce) := fun _ _ _ _ _ h => absurd h List.not_mem_nil
theorem getMeasurements : ∀ head index, Statement (.getMeasurements head index) := fun _ _ _ _ h => absurd h List.not_mem_nil
theorem commit : ∀ entry, Statement (.commit entry) := fun _ _ _ h => absurd h List.not_mem_nil
theorem clear : ∀ entry, Statement (.clear entry) := fun _ _ _ h => absurd h List.not_mem_nil
theorem potMapWrite : ∀ entry value, Statement (.potMapWrite entry value) := fun _ _ _ _ h => absurd h List.not_mem_nil
theorem potMapChangeApply : ∀ entry, Statement (.potMapChangeApply entry) := fun _ _ _ h => absurd h List.not_mem_nil
theorem engineCommandPush : ∀ pot eng cmd, Statement (.engineCommandPush pot eng cmd) := fun _ _ _ _ _ h => absurd h List.not_mem_nil
theorem engineCommandStart : ∀ pot eng, Statement (.engineCommandStart pot eng) := fun _ _ _ _ h => absurd h List.not_mem_nil
theorem engineCommandComplete : ∀ pot eng, Statement (.engineCommandComplete pot eng) := fun _ _ _ _ h => absurd h List.not_mem_nil
theorem icacheFill : ∀ pot eng, Statement (.icacheFill pot eng) := fun _ _ _ _ h => absurd h List.not_mem_nil
theorem nop : ∀ pot eng, Statement (.nop pot eng) := fun _ _ _ _ h => absurd h List.not_mem_nil
theorem loop : ∀ pot eng, Statement (.loop pot eng) := fun _ _ _ _ h => absurd h List.not_mem_nil
theorem branch : ∀ pot eng, Statement (.branch pot eng) := fun _ _ _ _ h => absurd h List.not_mem_nil
theorem add : ∀ pot eng, Statement (.add pot eng) := fun _ _ _ _ h => absurd h List.not_mem_nil
theorem sub : ∀ pot eng, Statement (.sub pot eng) := fun _ _ _ _ h => absurd h List.not_mem_nil
theorem shl : ∀ pot eng, Statement (.shl pot eng) := fun _ _ _ _ h => absurd h List.not_mem_nil
theorem shr : ∀ pot eng, Statement (.shr pot eng) := fun _ _ _ _ h => absurd h List.not_mem_nil
theorem sar : ∀ pot eng, Statement (.sar pot eng) := fun _ _ _ _ h => absurd h List.not_mem_nil
theorem min : ∀ pot eng, Statement (.min pot eng) := fun _ _ _ _ h => absurd h List.not_mem_nil
theorem max : ∀ pot eng, Statement (.max pot eng) := fun _ _ _ _ h => absurd h List.not_mem_nil
theorem slt : ∀ pot eng, Statement (.slt pot eng) := fun _ _ _ _ h => absurd h List.not_mem_nil
theorem seq : ∀ pot eng, Statement (.seq pot eng) := fun _ _ _ _ h => absurd h List.not_mem_nil
theorem lui : ∀ pot eng, Statement (.lui pot eng) := fun _ _ _ _ h => absurd h List.not_mem_nil
theorem li : ∀ pot eng, Statement (.li pot eng) := fun _ _ _ _ h => absurd h List.not_mem_nil
theorem wlc : ∀ pot eng, Statement (.wlc pot eng) := fun _ _ _ _ h => absurd h List.not_mem_nil
theorem rlc : ∀ pot eng, Statement (.rlc pot eng) := fun _ _ _ _ h => absurd h List.not_mem_nil
theorem agpos : ∀ pot eng, Statement (.agpos pot eng) := fun _ _ _ _ h => absurd h List.not_mem_nil
theorem stream : ∀ pot eng, Statement (.stream pot eng) := fun _ _ _ _ h => absurd h List.not_mem_nil
theorem streamBurst : ∀ pot eng ag, Statement (.streamBurst pot eng ag) := fun _ _ _ _ _ h => absurd h List.not_mem_nil
theorem queueElementAvailable : ∀ pot queue, Statement (.queueElementAvailable pot queue) := fun _ _ _ _ h => absurd h List.not_mem_nil
theorem sync : ∀ pot eng, Statement (.sync pot eng) := fun _ _ _ _ h => absurd h List.not_mem_nil
theorem endWord : ∀ pot eng, Statement (.endWord pot eng) := fun _ _ _ _ h => absurd h List.not_mem_nil
theorem seqStallTimeout : ∀ pot eng, Statement (.seqStallTimeout pot eng) := fun _ _ _ _ h => absurd h List.not_mem_nil
theorem infusionFail : ∀ infusion, Statement (.infusionFail infusion) := fun _ _ _ h => absurd h List.not_mem_nil
theorem halt : ∀ pot eng on, Statement (.halt pot eng on) := fun _ _ _ _ _ h => absurd h List.not_mem_nil
theorem inval : ∀ pot eng, Statement (.inval pot eng) := fun _ _ _ _ h => absurd h List.not_mem_nil
theorem mma : ∀ pot, Statement (.mma pot) := fun _ _ _ h => absurd h List.not_mem_nil
theorem mma24 : ∀ pot, Statement (.mma24 pot) := fun _ _ _ h => absurd h List.not_mem_nil
theorem mmabs : ∀ pot, Statement (.mmabs pot) := fun _ _ _ h => absurd h List.not_mem_nil
theorem flush : ∀ pot residueBad, Statement (.flush pot residueBad) := fun _ _ _ _ h => absurd h List.not_mem_nil
theorem zero : ∀ pot, Statement (.zero pot) := fun _ _ _ h => absurd h List.not_mem_nil
theorem ftqSlotReady : ∀ pot, Statement (.ftqSlotReady pot) := fun _ _ _ h => absurd h List.not_mem_nil
theorem recipe : ∀ pot, Statement (.recipe pot) := fun _ _ _ h => absurd h List.not_mem_nil
theorem reduce : ∀ pot, Statement (.reduce pot) := fun _ _ _ h => absurd h List.not_mem_nil
theorem softmax : ∀ pot, Statement (.softmax pot) := fun _ _ _ h => absurd h List.not_mem_nil
theorem gate : ∀ pot, Statement (.gate pot) := fun _ _ _ h => absurd h List.not_mem_nil
theorem summaryWordPush : ∀ pot, Statement (.summaryWordPush pot) := fun _ _ _ h => absurd h List.not_mem_nil
theorem vxeSumqPop : ∀ who pot, Statement (.vxeSumqPop who pot) := fun _ _ _ _ h => absurd h List.not_mem_nil
theorem recipeWrite : ∀ who pot entry words, Statement (.recipeWrite who pot entry words) := fun _ _ _ _ _ _ h => absurd h List.not_mem_nil
theorem gatherCsr : ∀ pot, Statement (.gatherCsr pot) := fun _ _ _ h => absurd h List.not_mem_nil
theorem gatherCoo : ∀ pot, Statement (.gatherCoo pot) := fun _ _ _ h => absurd h List.not_mem_nil
theorem scatter : ∀ pot, Statement (.scatter pot) := fun _ _ _ h => absurd h List.not_mem_nil
theorem bagsumLu : ∀ pot, Statement (.bagsumLu pot) := fun _ _ _ h => absurd h List.not_mem_nil
theorem dispatch : ∀ pot, Statement (.dispatch pot) := fun _ _ _ h => absurd h List.not_mem_nil
theorem combine : ∀ pot, Statement (.combine pot) := fun _ _ _ h => absurd h List.not_mem_nil
theorem sfeRowReturn : ∀ pot ticket, Statement (.sfeRowReturn pot ticket) := fun _ _ _ _ h => absurd h List.not_mem_nil
theorem bagLeafFold : ∀ pot, Statement (.bagLeafFold pot) := fun _ _ _ h => absurd h List.not_mem_nil
theorem leafCommandPush : ∀ pot cmd, Statement (.leafCommandPush pot cmd) := fun _ _ _ _ h => absurd h List.not_mem_nil
theorem leafCommandDeliver : ∀ pot, Statement (.leafCommandDeliver pot) := fun _ _ _ h => absurd h List.not_mem_nil
theorem operandSlotLoad : ∀ pot group, Statement (.operandSlotLoad pot group) := fun _ _ _ _ h => absurd h List.not_mem_nil
theorem microwordLoad : ∀ pot, Statement (.microwordLoad pot) := fun _ _ _ h => absurd h List.not_mem_nil
theorem luNop : ∀ pot lu, Statement (.luNop pot lu) := by
  intro _ _ h x hx
  simp only [Instr.lus, List.mem_singleton] at hx
  simpa [Instr.wf, luIndexOk, hx] using h
theorem rdl : ∀ pot lu, Statement (.rdl pot lu) := by
  intro _ _ h x hx
  simp only [Instr.lus, List.mem_singleton] at hx
  simpa [Instr.wf, luIndexOk, hx] using h
theorem wrl : ∀ pot lu, Statement (.wrl pot lu) := by
  intro _ _ h x hx
  simp only [Instr.lus, List.mem_singleton] at hx
  simpa [Instr.wf, luIndexOk, hx] using h
theorem wrq : ∀ pot lu, Statement (.wrq pot lu) := by
  intro _ _ h x hx
  simp only [Instr.lus, List.mem_singleton] at hx
  simpa [Instr.wf, luIndexOk, hx] using h
theorem maco : ∀ pot lu, Statement (.maco pot lu) := by
  intro _ _ h x hx
  simp only [Instr.lus, List.mem_singleton] at hx
  simpa [Instr.wf, luIndexOk, hx] using h
theorem adds : ∀ pot lu, Statement (.adds pot lu) := by
  intro _ _ h x hx
  simp only [Instr.lus, List.mem_singleton] at hx
  simpa [Instr.wf, luIndexOk, hx] using h
theorem axpy : ∀ pot lu, Statement (.axpy pot lu) := by
  intro _ _ h x hx
  simp only [Instr.lus, List.mem_singleton] at hx
  simpa [Instr.wf, luIndexOk, hx] using h
theorem scl : ∀ pot lu, Statement (.scl pot lu) := by
  intro _ _ h x hx
  simp only [Instr.lus, List.mem_singleton] at hx
  simpa [Instr.wf, luIndexOk, hx] using h
theorem cmpc : ∀ pot lu, Statement (.cmpc pot lu) := by
  intro _ _ h x hx
  simp only [Instr.lus, List.mem_singleton] at hx
  simpa [Instr.wf, luIndexOk, hx] using h
theorem rdap : ∀ pot lu, Statement (.rdap pot lu) := by
  intro _ _ h x hx
  simp only [Instr.lus, List.mem_singleton] at hx
  simpa [Instr.wf, luIndexOk, hx] using h
theorem stap : ∀ pot lu, Statement (.stap pot lu) := by
  intro _ _ h x hx
  simp only [Instr.lus, List.mem_singleton] at hx
  simpa [Instr.wf, luIndexOk, hx] using h
theorem movl : ∀ pot lu, Statement (.movl pot lu) := by
  intro _ _ h x hx
  simp only [Instr.lus, List.mem_singleton] at hx
  simpa [Instr.wf, luIndexOk, hx] using h
theorem zl : ∀ pot lu, Statement (.zl pot lu) := by
  intro _ _ h x hx
  simp only [Instr.lus, List.mem_singleton] at hx
  simpa [Instr.wf, luIndexOk, hx] using h
theorem ldq : ∀ pot lu, Statement (.ldq pot lu) := by
  intro _ _ h x hx
  simp only [Instr.lus, List.mem_singleton] at hx
  simpa [Instr.wf, luIndexOk, hx] using h
theorem addl : ∀ pot lu residueBad, Statement (.addl pot lu residueBad) := by
  intro _ _ _ h x hx
  simp only [Instr.lus, List.mem_singleton] at hx
  simpa [Instr.wf, luIndexOk, hx] using h
theorem mull : ∀ pot lu residueBad, Statement (.mull pot lu residueBad) := by
  intro _ _ _ h x hx
  simp only [Instr.lus, List.mem_singleton] at hx
  simpa [Instr.wf, luIndexOk, hx] using h
theorem macl : ∀ pot lu residueBad, Statement (.macl pot lu residueBad) := by
  intro _ _ _ h x hx
  simp only [Instr.lus, List.mem_singleton] at hx
  simpa [Instr.wf, luIndexOk, hx] using h
theorem za : ∀ pot lu, Statement (.za pot lu) := by
  intro _ _ h x hx
  simp only [Instr.lus, List.mem_singleton] at hx
  simpa [Instr.wf, luIndexOk, hx] using h
theorem tree : ∀ pot lu, Statement (.tree pot lu) := by
  intro _ _ h x hx
  simp only [Instr.lus, List.mem_singleton] at hx
  simpa [Instr.wf, luIndexOk, hx] using h
theorem tkins : ∀ pot lu, Statement (.tkins pot lu) := by
  intro _ _ h x hx
  simp only [Instr.lus, List.mem_singleton] at hx
  simpa [Instr.wf, luIndexOk, hx] using h
theorem nxi : ∀ pot lu, Statement (.nxi pot lu) := by
  intro _ _ h x hx
  simp only [Instr.lus, List.mem_singleton] at hx
  simpa [Instr.wf, luIndexOk, hx] using h
theorem nxr : ∀ pot lu, Statement (.nxr pot lu) := by
  intro _ _ h x hx
  simp only [Instr.lus, List.mem_singleton] at hx
  simpa [Instr.wf, luIndexOk, hx] using h
theorem setlc : ∀ pot lu, Statement (.setlc pot lu) := by
  intro _ _ h x hx
  simp only [Instr.lus, List.mem_singleton] at hx
  simpa [Instr.wf, luIndexOk, hx] using h
theorem cb : ∀ pot lu, Statement (.cb pot lu) := by
  intro _ _ h x hx
  simp only [Instr.lus, List.mem_singleton] at hx
  simpa [Instr.wf, luIndexOk, hx] using h
theorem setap : ∀ pot lu, Statement (.setap pot lu) := by
  intro _ _ h x hx
  simp only [Instr.lus, List.mem_singleton] at hx
  simpa [Instr.wf, luIndexOk, hx] using h
theorem put : ∀ pot lu, Statement (.put pot lu) := by
  intro _ _ h x hx
  simp only [Instr.lus, List.mem_singleton] at hx
  simpa [Instr.wf, luIndexOk, hx] using h
theorem luColumnAccess : ∀ pot lu residueBad, Statement (.luColumnAccess pot lu residueBad) := by
  intro _ _ _ h x hx
  simp only [Instr.lus, List.mem_singleton] at hx
  simpa [Instr.wf, luIndexOk, hx] using h
theorem luLimitTimeout : ∀ pot lu, Statement (.luLimitTimeout pot lu) := by
  intro _ _ h x hx
  simp only [Instr.lus, List.mem_singleton] at hx
  simpa [Instr.wf, luIndexOk, hx] using h
theorem leafResultRecord : ∀ pot, Statement (.leafResultRecord pot) := fun _ _ _ h => absurd h List.not_mem_nil
theorem bksRequestArrive : ∀ pot group port req, Statement (.bksRequestArrive pot group port req) := fun _ _ _ _ _ _ h => absurd h List.not_mem_nil
theorem bksAdmit : ∀ pot group, Statement (.bksAdmit pot group) := fun _ _ _ _ h => absurd h List.not_mem_nil
theorem bksPick : ∀ pot group, Statement (.bksPick pot group) := fun _ _ _ _ h => absurd h List.not_mem_nil
theorem refreshInterval : ∀ pot group bank, Statement (.refreshInterval pot group bank) := fun _ _ _ _ _ h => absurd h List.not_mem_nil
theorem eyeRecentre : ∀ pot group, Statement (.eyeRecentre pot group) := fun _ _ _ _ h => absurd h List.not_mem_nil
theorem narrowWrite : ∀ pot group bank row col data mask poison, Statement (.narrowWrite pot group bank row col data mask poison) := fun _ _ _ _ _ _ _ _ _ _ h => absurd h List.not_mem_nil
theorem mergeTimeout : ∀ pot group bank row col, Statement (.mergeTimeout pot group bank row col) := fun _ _ _ _ _ _ _ h => absurd h List.not_mem_nil
theorem retrain : ∀ pot group, Statement (.retrain pot group) := fun _ _ _ _ h => absurd h List.not_mem_nil
theorem retrainAttemptEnd : ∀ pot passed, Statement (.retrainAttemptEnd pot passed) := fun _ _ _ _ h => absurd h List.not_mem_nil
theorem patrolRowVisit : ∀ pot group, Statement (.patrolRowVisit pot group) := fun _ _ _ _ h => absurd h List.not_mem_nil
theorem rowRemap : ∀ pot group bank row spare, Statement (.rowRemap pot group bank row spare) := fun _ _ _ _ _ _ _ h => absurd h List.not_mem_nil
theorem spareMove : ∀ pot group bank row spare, Statement (.spareMove pot group bank row spare) := fun _ _ _ _ _ _ _ h => absurd h List.not_mem_nil
theorem bankRemap : ∀ pot group bank spare, Statement (.bankRemap pot group bank spare) := fun _ _ _ _ _ _ h => absurd h List.not_mem_nil
theorem bankRemapSwitch : ∀ pot, Statement (.bankRemapSwitch pot) := fun _ _ _ h => absurd h List.not_mem_nil
theorem tagfix : ∀ pot group bank row, Statement (.tagfix pot group bank row) := fun _ _ _ _ _ _ h => absurd h List.not_mem_nil
theorem scrubRange : ∀ pot group bank row rowLast, Statement (.scrubRange pot group bank row rowLast) := fun _ _ _ _ _ _ _ h => absurd h List.not_mem_nil
theorem flipArm : ∀ pot group ports arm, Statement (.flipArm pot group ports arm) := fun _ _ _ _ _ _ h => absurd h List.not_mem_nil
theorem permitRequest : ∀ pot cls unit, Statement (.permitRequest pot cls unit) := fun _ _ _ _ _ h => absurd h List.not_mem_nil
theorem permitGrantCycle : ∀ pot, Statement (.permitGrantCycle pot) := fun _ _ _ h => absurd h List.not_mem_nil
theorem permitRelease : ∀ pot cls unit, Statement (.permitRelease pot cls unit) := fun _ _ _ _ _ h => absurd h List.not_mem_nil
theorem permitPrecedence : ∀ pot cls, Statement (.permitPrecedence pot cls) := fun _ _ _ _ h => absurd h List.not_mem_nil
theorem permitOverdraw : ∀ pot cls, Statement (.permitOverdraw pot cls) := fun _ _ _ _ h => absurd h List.not_mem_nil
theorem req : ∀ pot core steeps, Statement (.req pot core steeps) := fun _ _ _ _ _ h => absurd h List.not_mem_nil
theorem release : ∀ pot core, Statement (.release pot core) := fun _ _ _ _ h => absurd h List.not_mem_nil
theorem pmtBudgetWrite : ∀ window value, Statement (.pmtBudgetWrite window value) := fun _ _ _ _ h => absurd h List.not_mem_nil
theorem activityEstimate : ∀ pot est, Statement (.activityEstimate pot est) := fun _ _ _ _ h => absurd h List.not_mem_nil
theorem ketMeasurementTick : ∀ place readings, Statement (.ketMeasurementTick place readings) := fun _ _ _ _ h => absurd h List.not_mem_nil
theorem caddyRailOff : Statement .caddyRailOff := fun _ _ h => absurd h List.not_mem_nil
theorem ketRestart : Statement .ketRestart := fun _ _ h => absurd h List.not_mem_nil
theorem stage : ∀ kind src, Statement (.stage kind src) := fun _ _ _ _ h => absurd h List.not_mem_nil
theorem activate : ∀ kind, Statement (.activate kind) := fun _ _ _ h => absurd h List.not_mem_nil
theorem brewfwPotQuiesce : ∀ pot selfCheck, Statement (.brewfwPotQuiesce pot selfCheck) := fun _ _ _ _ h => absurd h List.not_mem_nil
theorem brewfwSelfcheckTimeout : ∀ pot, Statement (.brewfwSelfcheckTimeout pot) := fun _ _ _ h => absurd h List.not_mem_nil
theorem hubfwHandover : Statement .hubfwHandover := fun _ _ h => absurd h List.not_mem_nil
theorem enroll : Statement .enroll := fun _ _ h => absurd h List.not_mem_nil
theorem rotate : Statement .rotate := fun _ _ h => absurd h List.not_mem_nil
theorem revoke : Statement .revoke := fun _ _ h => absurd h List.not_mem_nil
theorem migrate : ∀ pot andRetire, Statement (.migrate pot andRetire) := fun _ _ _ _ h => absurd h List.not_mem_nil
theorem mirror : ∀ entry tpot tgroup, Statement (.mirror entry tpot tgroup) := fun _ _ _ _ _ h => absurd h List.not_mem_nil
theorem unmirror : ∀ entry, Statement (.unmirror entry) := fun _ _ _ h => absurd h List.not_mem_nil
theorem retirePot : ∀ pot, Statement (.retirePot pot) := fun _ _ _ h => absurd h List.not_mem_nil
theorem unretirePot : ∀ pot selfTest, Statement (.unretirePot pot selfTest) := fun _ _ _ _ h => absurd h List.not_mem_nil
theorem retireMxe : ∀ pot, Statement (.retireMxe pot) := fun _ _ _ h => absurd h List.not_mem_nil
theorem returnMxe : ∀ pot, Statement (.returnMxe pot) := fun _ _ _ h => absurd h List.not_mem_nil
theorem abort : Statement .abort := fun _ _ h => absurd h List.not_mem_nil
theorem migrationCopyUnit : Statement .migrationCopyUnit := fun _ _ h => absurd h List.not_mem_nil
theorem migrationSettle : Statement .migrationSettle := fun _ _ h => absurd h List.not_mem_nil
theorem migrationSwitch : Statement .migrationSwitch := fun _ _ h => absurd h List.not_mem_nil
theorem loadQueueServe : Statement .loadQueueServe := fun _ _ h => absurd h List.not_mem_nil
theorem loadPhase : Statement .loadPhase := fun _ _ h => absurd h List.not_mem_nil
theorem loadPhaseTimeout : ∀ pot, Statement (.loadPhaseTimeout pot) := fun _ _ _ h => absurd h List.not_mem_nil
theorem loadCommitDone : ∀ pot, Statement (.loadCommitDone pot) := fun _ _ _ h => absurd h List.not_mem_nil
theorem infusionDrained : ∀ infusion, Statement (.infusionDrained infusion) := fun _ _ _ h => absurd h List.not_mem_nil
theorem drainTimeout : ∀ infusion, Statement (.drainTimeout infusion) := fun _ _ _ h => absurd h List.not_mem_nil
theorem read : ∀ pot index agent, Statement (.read pot index agent) := fun _ _ _ _ _ h => absurd h List.not_mem_nil
theorem store : ∀ pot index agent operand full, Statement (.store pot index agent operand full) := fun _ _ _ _ _ _ _ h => absurd h List.not_mem_nil
theorem fill : ∀ pot index agent operand, Statement (.fill pot index agent operand) := fun _ _ _ _ _ _ h => absurd h List.not_mem_nil
theorem empty : ∀ pot index agent, Statement (.empty pot index agent) := fun _ _ _ _ _ h => absurd h List.not_mem_nil
theorem wait : ∀ pot index agent cond operand, Statement (.wait pot index agent cond operand) := fun _ _ _ _ _ _ _ h => absurd h List.not_mem_nil
theorem signal : ∀ pot index agent operand, Statement (.signal pot index agent operand) := fun _ _ _ _ _ _ h => absurd h List.not_mem_nil
theorem arrive : ∀ pot index agent operand, Statement (.arrive pot index agent operand) := fun _ _ _ _ _ _ h => absurd h List.not_mem_nil
theorem bwait : ∀ pot index agent operand, Statement (.bwait pot index agent operand) := fun _ _ _ _ _ _ h => absurd h List.not_mem_nil
theorem barrier : ∀ pot index agent operand, Statement (.barrier pot index agent operand) := fun _ _ _ _ _ _ h => absurd h List.not_mem_nil
theorem sncInputHoldRelease : ∀ pot, Statement (.sncInputHoldRelease pot) := fun _ _ _ h => absurd h List.not_mem_nil
theorem sncWaitTimeout : ∀ pot agent, Statement (.sncWaitTimeout pot agent) := fun _ _ _ _ h => absurd h List.not_mem_nil
theorem deferredOpRelease : ∀ pot k, Statement (.deferredOpRelease pot k) := fun _ _ _ _ h => absurd h List.not_mem_nil
theorem strandTimeout : ∀ pot k, Statement (.strandTimeout pot k) := fun _ _ _ _ h => absurd h List.not_mem_nil
theorem streamAckTimer : ∀ pot k src srcPot, Statement (.streamAckTimer pot k src srcPot) := fun _ _ _ _ _ _ h => absurd h List.not_mem_nil
theorem flitSlot : ∀ pot k, Statement (.flitSlot pot k) := fun _ _ _ _ h => absurd h List.not_mem_nil
theorem flitReceive : ∀ pot k flit hcrcGood pcrcGood, Statement (.flitReceive pot k flit hcrcGood pcrcGood) := fun _ _ _ _ _ _ _ h => absurd h List.not_mem_nil
theorem ackTimer : ∀ pot k vc, Statement (.ackTimer pot k vc) := fun _ _ _ _ _ h => absurd h List.not_mem_nil
theorem idle : ∀ pot k, Statement (.idle pot k) := fun _ _ _ _ h => absurd h List.not_mem_nil
theorem ack : ∀ pot k acks, Statement (.ack pot k acks) := fun _ _ _ _ _ h => absurd h List.not_mem_nil
theorem nak : ∀ pot k vc vseq, Statement (.nak pot k vc vseq) := fun _ _ _ _ _ _ h => absurd h List.not_mem_nil
theorem nakAll : ∀ pot k vseqs, Statement (.nakAll pot k vseqs) := fun _ _ _ _ _ h => absurd h List.not_mem_nil
theorem init : ∀ pot k node port stepping reserves pool rttNs, Statement (.init pot k node port stepping reserves pool rttNs) := fun _ _ _ _ _ _ _ _ _ _ h => absurd h List.not_mem_nil
theorem laneSwap : ∀ pot k lane, Statement (.laneSwap pot k lane) := fun _ _ _ _ _ h => absurd h List.not_mem_nil
theorem lastWords : ∀ pot k reason, Statement (.lastWords pot k reason) := fun _ _ _ _ _ h => absurd h List.not_mem_nil
theorem write : ∀ pot k hdr data poison, Statement (.write pot k hdr data poison) := fun _ _ _ _ _ _ _ h => absurd h List.not_mem_nil
theorem readReq : ∀ pot k hdr bytes, Statement (.readReq pot k hdr bytes) := fun _ _ _ _ _ _ h => absurd h List.not_mem_nil
theorem readRsp : ∀ pot k hdr status data poison, Statement (.readRsp pot k hdr status data poison) := fun _ _ _ _ _ _ _ _ h => absurd h List.not_mem_nil
theorem syncChg : ∀ pot k hdr reqId yop full operand, Statement (.syncChg pot k hdr reqId yop full operand) := fun _ _ _ _ _ _ _ _ _ h => absurd h List.not_mem_nil
theorem syncReq : ∀ pot k hdr yop cond operand, Statement (.syncReq pot k hdr yop cond operand) := fun _ _ _ _ _ _ _ _ h => absurd h List.not_mem_nil
theorem syncRsp : ∀ pot k hdr status view, Statement (.syncRsp pot k hdr status view) := fun _ _ _ _ _ _ _ h => absurd h List.not_mem_nil
theorem streamAck : ∀ pot k hdr ct, Statement (.streamAck pot k hdr ct) := fun _ _ _ _ _ _ h => absurd h List.not_mem_nil
theorem resync : ∀ pot k hdr lossy, Statement (.resync pot k hdr lossy) := fun _ _ _ _ _ _ h => absurd h List.not_mem_nil
theorem cmd : ∀ pot k hdr path level header operand, Statement (.cmd pot k hdr path level header operand) := fun _ _ _ _ _ _ _ _ _ h => absurd h List.not_mem_nil
theorem resolved : ∀ pot k hdr record expected, Statement (.resolved pot k hdr record expected) := fun _ _ _ _ _ _ _ h => absurd h List.not_mem_nil
theorem partialResult : ∀ pot k hdr record status flags expected answered value, Statement (.partialResult pot k hdr record status flags expected answered value) := fun _ _ _ _ _ _ _ _ _ _ _ h => absurd h List.not_mem_nil
theorem nodeLost : ∀ pot k hdr node, Statement (.nodeLost pot k hdr node) := fun _ _ _ _ _ _ h => absurd h List.not_mem_nil
theorem mgmt : ∀ pot k hdr mkind origin originCupno hops, Statement (.mgmt pot k hdr mkind origin originCupno hops) := fun _ _ _ _ _ _ _ _ _ h => absurd h List.not_mem_nil
theorem laneFail : ∀ pot k lane, Statement (.laneFail pot k lane) := fun _ _ _ _ _ h => absurd h List.not_mem_nil
theorem trainingLock : ∀ pot k failedLane, Statement (.trainingLock pot k failedLane) := fun _ _ _ _ _ h => absurd h List.not_mem_nil
theorem trainingTimeout : ∀ pot k, Statement (.trainingTimeout pot k) := fun _ _ _ _ h => absurd h List.not_mem_nil
theorem trainingRetry : ∀ pot k, Statement (.trainingRetry pot k) := fun _ _ _ _ h => absurd h List.not_mem_nil
theorem initTimeout : ∀ pot k, Statement (.initTimeout pot k) := fun _ _ _ _ h => absurd h List.not_mem_nil
theorem silentTimeout : ∀ pot k, Statement (.silentTimeout pot k) := fun _ _ _ _ h => absurd h List.not_mem_nil
theorem lockLoss : ∀ pot k, Statement (.lockLoss pot k) := fun _ _ _ _ h => absurd h List.not_mem_nil
theorem portDrainTimeout : ∀ pot k, Statement (.portDrainTimeout pot k) := fun _ _ _ _ h => absurd h List.not_mem_nil
theorem enable : ∀ pot k on, Statement (.enable pot k on) := fun _ _ _ _ _ h => absurd h List.not_mem_nil
theorem portReset : ∀ pot k, Statement (.portReset pot k) := fun _ _ _ _ h => absurd h List.not_mem_nil
theorem sptRouteWrite : ∀ node ports, Statement (.sptRouteWrite node ports) := fun _ _ _ _ h => absurd h List.not_mem_nil
theorem lossyClear : ∀ pot node, Statement (.lossyClear pot node) := fun _ _ _ _ h => absurd h List.not_mem_nil
theorem registerWrite : ∀ who offset size data, Statement (.registerWrite who offset size data) := fun _ _ _ _ _ _ h => absurd h List.not_mem_nil
theorem word0Read : ∀ who offset size, Statement (.word0Read who offset size) := fun _ _ _ _ _ h => absurd h List.not_mem_nil
theorem indDataAccess : ∀ who window data, Statement (.indDataAccess who window data) := fun _ _ _ _ _ h => absurd h List.not_mem_nil
theorem rwbApply : ∀ unit, Statement (.rwbApply unit) := fun _ _ _ h => absurd h List.not_mem_nil
theorem parityWalk : ∀ window bad, Statement (.parityWalk window bad) := fun _ _ _ _ h => absurd h List.not_mem_nil
theorem snapshotStart : ∀ scope pot clear, Statement (.snapshotStart scope pot clear) := fun _ _ _ _ _ h => absurd h List.not_mem_nil
theorem snapshotLatch : ∀ window, Statement (.snapshotLatch window) := fun _ _ _ h => absurd h List.not_mem_nil
theorem cuppingStart : Statement .cuppingStart := fun _ _ h => absurd h List.not_mem_nil
theorem cuppingPeriodTimer : Statement .cuppingPeriodTimer := fun _ _ h => absurd h List.not_mem_nil
theorem cuppingLatch : ∀ island, Statement (.cuppingLatch island) := fun _ _ _ h => absurd h List.not_mem_nil
theorem faultRecordAccept : Statement .faultRecordAccept := fun _ _ h => absurd h List.not_mem_nil
theorem faultRecordLost : ∀ island, Statement (.faultRecordLost island) := fun _ _ _ h => absurd h List.not_mem_nil
theorem traceRecord : ∀ pot unit event status tag infusion arg0 arg1 loss, Statement (.traceRecord pot unit event status tag infusion arg0 arg1 loss) := fun _ _ _ _ _ _ _ _ _ _ _ h => absurd h List.not_mem_nil
theorem cupTracePop : ∀ who pot, Statement (.cupTracePop who pot) := fun _ _ _ _ h => absurd h List.not_mem_nil
theorem cupMarkWrite : ∀ pot arg0 arg1, Statement (.cupMarkWrite pot arg0 arg1) := fun _ _ _ _ _ h => absurd h List.not_mem_nil
theorem traceEnable : ∀ pot, Statement (.traceEnable pot) := fun _ _ _ h => absurd h List.not_mem_nil
theorem write64 : ∀ offset data, Statement (.write64 offset data) := fun _ _ _ _ h => absurd h List.not_mem_nil
theorem setOffset : ∀ offset, Statement (.setOffset offset) := fun _ _ _ h => absurd h List.not_mem_nil
theorem read64 : Statement .read64 := fun _ _ h => absurd h List.not_mem_nil
theorem status : Statement .status := fun _ _ h => absurd h List.not_mem_nil
theorem bypass : Statement .bypass := fun _ _ h => absurd h List.not_mem_nil
theorem idcode : Statement .idcode := fun _ _ h => absurd h List.not_mem_nil
theorem samplePreload : ∀ preload, Statement (.samplePreload preload) := fun _ _ _ h => absurd h List.not_mem_nil
theorem extest : Statement .extest := fun _ _ h => absurd h List.not_mem_nil
theorem coldPowerLoss : Statement .coldPowerLoss := fun _ _ h => absurd h List.not_mem_nil
theorem powerGoodRise : ∀ r, Statement (.powerGoodRise r) := fun _ _ _ h => absurd h List.not_mem_nil
theorem tripHourExpiry : Statement .tripHourExpiry := fun _ _ h => absurd h List.not_mem_nil
theorem entdaa : ∀ address, Statement (.entdaa address) := fun _ _ _ h => absurd h List.not_mem_nil
theorem cdat : ∀ head, Statement (.cdat head) := fun _ _ _ h => absurd h List.not_mem_nil
theorem testLogicReset : Statement .testLogicReset := fun _ _ h => absurd h List.not_mem_nil

end Sys2Proof.Laws.LuNames
end

