-- ==== Sys2Proof/Tests/Slice0.lean ====
section
/-!
SUPPORT. Tests: ill-formed commands, worked examples of the specification, and for each statement with hypotheses a theorem that
applies it at states and operands that meet them.
-/

set_option Elab.async false

namespace Sys2Proof.Tests
open Sys2Proof Sys2Proof.Machine

/-- The command answers a next state. -/
def Runs (c : Instr) (s : State) : Prop := ∃ t, exec c s = .next t
/-- A decidable fact that the kernel evaluates. -/
theorem yes {p : Prop} [Decidable p] (h : decide p = true := by decide +kernel) : p := of_decide_eq_true h
theorem noneNo {α : Type} {o : Option α} {p : α → Prop} (h : o.isNone = true := by decide +kernel) : ∀ k, o = some k → p k := by
  intro k e; rw [e] at h; cases h
theorem allSome {α : Type} {o : Option α} {p : α → Prop} [DecidablePred p] (h : decide (∀ a ∈ o, p a) = true := by decide +kernel) :
    ∀ k, o = some k → p k := fun k e => of_decide_eq_true h k e
theorem someGet {α : Type} {o : Option α} {d : α} (h : o.isSome = true := by decide +kernel) : o = some (o.getD d) := by
  cases o with
  | none => cases h
  | some _ => rfl
theorem tget_all {α : Type} {f : α → Bool} {d : α} (hd : f d = false) :
    ∀ (m : SMap α), (m.all fun e => !f e.2) = true → ∀ k, f (tget m k d) = false
  | [], _, _ => hd
  | e :: m, h, k => by
    rw [List.all_cons, Bool.and_eq_true] at h
    rw [tget, tfind]; split
    · simpa using h.1
    · split
      · exact hd
      · exact tget_all hd m h.2 k
theorem allSched {p : Pot} (h : (p.scheds.all fun e => !e.2.retraining) = true := by decide +kernel) :
    ∀ k, (schedOf p k).retraining = false := tget_all (f := Sched.retraining) rfl p.scheds h
theorem ran {c : Instr} {s : State} {post : State → Prop} (h : runsTo c s post) : Runs c s := h.imp fun _ x => x.1

/-- VDD_AON is absent. -/
def stOff : State := { State.reset with power := { Power.reset with aon := false } }
def stLatched : State := { stOff with ket := { Ket.reset with trips := 4 } }
/-- A running module with every pot in service and nothing to do. -/
def powered : Power :=
  { step := .running, aon := true, enCaddy := true, enHub := true, enPot := 0xFFFFFFFF, enSpt := 0xF, pgCaddy := true,
    pgHub := true, pgPot := 0xFFFFFFFF, pgSpt := 0xF, warm := false }
def potAt (n : Nat) : Pot :=
  { Pot.reset with
    router := ⟨true, routeTable Fuses.reset n, []⟩
    inReset := false
    trayClear := true
    fwRunning := true
    cores := (upto 8).map fun c => (c, ⟨true, 0, 0⟩)
    scheds := (upto 64).map fun g => (g, { Sched.reset with swept := true }) }
def potUp : Pot := potAt 31
def up : State :=
  { State.reset with power := powered, fw := { Fw.reset with running := true }, pots := (upto 32).map fun n => (n, potAt n) }
def withPot (n : PotIx) (f : Pot → Pot) : State := updPot up n f
def withPower (f : Power → Power) : State := { up with power := f powered }
def withHead (h : BitVec 1) (f : Head → Head) : State := setHead up h (f { Head.reset with up := true })
def withHfe (f : Hfe → Hfe) : State := { withHead 0 id with hfe := f up.hfe }
def withSvc (f : Svc → Svc) : State := { up with svc := f up.svc }

/-- At the boot ROM after a cold power-on. -/
def stBoot : State := { State.reset with power := { powered with step := .bootReady, enPot := 1, pgPot := 1 }, fuses := { Fuses.reset with potEn := 1 } }

def headUp : State := withHead 0 id
/-- A map change of the entry that DPA 0 resolves through is pending. -/
def changing : State := { headUp with map := ⟨[], [(0, 0)], []⟩ }
/-- No channel of any pot has been swept yet. -/
def unswept : State := { headUp with pots := (upto 32).map fun n => (n, { potAt n with scheds := [] }) }

/-- A 512-bit line with these values at these bit positions. -/
def mkLine (l : List (Nat × Nat)) : Line := BitVec.ofNat 512 (l.foldl (fun a x => a + x.2 * 2 ^ x.1) 0)
def withSlot (k : Nat) (x : Slot) (q : List Nat) : State := withHfe fun f => { f with slots := [(k, x)], waitq := q }
def held (h : Line) : Slot := ⟨.waiting, 7, [], [(0, ⟨h, BitVec.allOnes 64, 0⟩)]⟩
/-- A command of the table in this state. -/
def cmd (h : Line) (st : CmdState) (parts : List Part) (status : Option Status) : Cmd :=
  ⟨5, 4095, 7, 0, h, [], st, parts, status, 0, 0, none, 0⟩
def part (n : PotIx) : Part := ⟨9, [], some n, 0, .waiting, 1, 0, .ok, false, false, .none, 0, []⟩
def withCmd (c : Cmd) : State := withHfe fun f => { f with table := [c], nextId := 6 }
/-- LEAF of KERNEL 0 to the LU of pot 31, die 15, channel 3, bank 15; SYNC to the SNC of pot 31; and a TRAY_COPY to its tray. -/
def leafHdr : Line := mkLine [(16, 7), (32, 1), (48, 0xBEEF), (64, 4 + 31 * 2 ^ 12 + 15 * 2 ^ 22 + 3 * 2 ^ 32 + 15 * 2 ^ 36), (144, 0), (192, 300), (224, 32767), (304, 33)]
def syncHdr (pot : Nat) : Line := mkLine [(32, 8), (48, 0xFFFF), (64, 2 + pot * 2 ^ 12 + 20 * 2 ^ 22)]

def inbox (n : PotIx) (c : InCmd) : State := withPot n fun p => fabTake { p with inbox := [c] } .req
def inCmd (h : Line) : InCmd := ⟨9, h, fieldB h 64 64, [], none, 0, [31]⟩

/-- Infusion 4095 with an entry point at the VXE of logical pot 0, which is pot 31. -/
def loadedInf : Inf := { Inf.reset with state := 2, lead := 31, npots := 1, phys := [31], entries := [⟨3, .vxe, 0, 0x40, []⟩] }
def withInf (n : PotIx) (c : InCmd) (x : Inf) : State := { inbox n c with inf := ⟨[(4095, x)], [], none, []⟩ }
def launchHdr (lid : Nat) : Line := mkLine [(32, 2), (48, 0xFFFF), (64, 2 + 31 * 2 ^ 12 + 22 * 2 ^ 22), (144, 4095), (192, lid), (224, 1)]
def dpaHdr (op : Nat) : Line := mkLine [(32, op), (64, 2 + 31 * 2 ^ 12 + 22 * 2 ^ 22), (144, 4095), (192, 0x10000), (256, 0x100000000)]
def dpaCmd (op : Nat) : InCmd := { inCmd (dpaHdr op) with addr := some 0x10000 }
def taken (n : PotIx) (s : State) : State := setPot s n (fabGive { potOf s n with inbox := [] } .req)
def fullQueue : List LoadReq := List.replicate 16 ⟨some 1, false, 0, 0, 0⟩
def withLoads (c : InCmd) (q : List LoadReq) : State := { inbox 31 c with inf := ⟨[], q, none, []⟩ }
/-- Pot 31 has taken its one command. -/
def tookOne : Pot := fabGive (fabTake potUp .req) .req
/-- Firmware of pot 31 has issued a LOAD. -/
def ownLoad : State := withPot 31 fun p => { p with ownLoads := [(0x10000, 7)] }

def unloadCmd : InCmd := inCmd (mkLine [(32, 6), (64, 2 + 31 * 2 ^ 12 + 22 * 2 ^ 22), (144, 4095)])
def copyHdr (out : Nat) : Line := mkLine [(32, 9), (64, 2 + 31 * 2 ^ 12 + 21 * 2 ^ 22), (192, 0x10000), (256, 2 ^ 27 - 64), (288, 64), (312, out)]
def copyCmd (out : Nat) : InCmd := { inCmd (copyHdr out) with addr := some (BitVec.ofNat 41 (31 * 2 ^ 36)) }

def withStage (rs : List (Nat × BitVec 128)) : State := { up with blend := ⟨[], rs, 0⟩ }

/-- A control word with these fields, and REPEAT 1. -/
def mkWord (l : List (Nat × Nat)) : ColWord := BitVec.ofNat 256 (l.foldl (fun a x => a + x.2 * 2 ^ x.1) 16)
/-- The cache line that holds a word at PC 5. -/
def lineOf (e : Eng) (w : ColWord) (bad : Bool) : CacheLine :=
  ⟨0, 0, 0, (fitBytes (5 * wordStride e) [] ++ fitBytes (wordStride e) (bytesOfNat 32 w.toNat)), List.replicate 8 bad⟩
/-- The sequencer of pot 31's engine `e` runs and stands at this word. -/
def seqAt (e : Eng) (w : ColWord) (f : Seqr → Seqr) : State :=
  withPot 31 fun p => setSeq p e (f { Seqr.reset with running := true, pc := 5, icache := [(0, [lineOf e w false])] })
def scalar (sop dst a b : Nat) (imm : Option Nat) : ColWord :=
  match imm with
  | none => mkWord [(0, 4), (32, sop), (36, dst), (40, a), (44, b)]
  | some v => mkWord [(0, 4), (32, sop), (36, dst), (40, a), (48, 1), (64, v)]
def withAx (f : Nat → BitVec 48) (q : Seqr) : Seqr := { q with ax := (upto 16).map fun i => (i, f i) }
/-- ax1 the most negative number, ax2 48. -/
def extremes (q : Seqr) : Seqr := { q with ax := [(1, 0x800000000000), (2, 48)] }

/-- A loop level of two runs whose body ends after PC 5. -/
def lastOfBody : LoopLevel := ⟨3, 6, 2, true, 15, 0xFFFFFF⟩

def held31 (e : Eng) (p : Pot) : Pot := { p with pmt := { p.pmt with holds := [(permitKey (engClass e) 0, ⟨104, 7, 0, false⟩)] } }
def queued (e : Eng) (c : BitVec 256) : State := withPot 31 fun p => held31 e (setSeq p e { Seqr.reset with cmdq := [c] })
def engCmd : BitVec 256 := BitVec.ofNat 256 (0xFFFF + 7 * 2 ^ 32 + 0xFFFFFFFFFFFF * 2 ^ 208)
/-- Infusion 4095 is loaded on pot 31 with its program region in pot 30; the SFE waits for the line of its next word. -/
def missing : State :=
  { seqAt .sfe 0 fun q => { q with infusion := 4095, icache := [], fetchWait := true } with
    inf := ⟨[(4095, { Inf.reset with state := 2, res := [⟨31, [], [], [], [], [], 0x1E000000800, 256, [], [], false, false⟩] })], [], none, []⟩ }

/-- A queue table entry: BASE, SIZE and ELEM as logarithms, MODE, pusher and popper. -/
def qCfg (base size elem mode push pop : Nat) : Word64 :=
  BitVec.ofNat 64 (base + size * 2 ^ 27 + elem * 2 ^ 32 + mode * 2 ^ 37 + push * 2 ^ 39 + pop * 2 ^ 42)
def strWord : ColWord := mkWord [(0, 5), (32, 7), (42, 255), (50, 47)]
def strDesc : BitVec 256 := BitVec.ofNat 256 (11 * 2 ^ 240 + 0x1000 * 2 ^ 192 + 32 + 1 * 2 ^ 128)
def strAt : State := seqAt .mxe strWord fun q => { q with descs := [(255, strDesc)] }
def strBusy : State := seqAt .mxe strWord fun q => { q with streams := [(7, ⟨false, false, 0x1000, strDesc, 47, none, 0, [], false, false⟩)] }
def strFlow : State :=
  updPot strBusy 31 fun p => setQueue p 47 { Queue.reset with cfg := qCfg 0x2000 12 5 1 streamAgent 0 }
/-- STORE of ax2 to word 2,047 of pot 30, and WAIT on it. -/
def syncStore : ColWord := mkWord [(0, 6), (32, 1), (38, 1), (39, 2), (47, 30), (52, 2047), (68, 0xFFFF)]
def syncWait30 : ColWord := mkWord [(0, 6), (32, 3), (47, 30), (52, 2047), (68, 0xFFFF)]
def readyWord (s : State) : State :=
  updPot s 30 fun p => { p with snc := { p.snc with words := [(2047, { SyncWord.reset with alloc := true })] } }

def badLine : State := seqAt .mxe (mkWord []) fun q => { q with icache := [(0, [lineOf .mxe (mkWord []) true])] }
def failing : State :=
  { seqAt .sfe 0 fun q => { q with infusion := 4095 } with inf := ⟨[(4095, { Inf.reset with state := 2, lead := 31, failing := true })], [], none, []⟩ }

/-- A queue with its elements pushed and available. -/
def queueFull (cfg : Word64) (k : Nat) : Queue := { Queue.reset with cfg := cfg, tail := BitVec.ofNat 32 k }
/-- The sequencer of engine `e` in pot 31 stands at `w`, with these queues and these tray bytes of the pot. -/
def engAt (e : Eng) (w : ColWord) (qs : SMap Queue) (cells : List (Nat × Byte)) (f : Pot → Pot) : State :=
  { updPot (seqAt e w id) 31 (fun p => f { p with queues := qs }) with tray := cells.map fun c => ⟨trayGlobal 31 c.1, c.2⟩ }

/-- MMA-class word of INT8 operands: QA 0, QB 1, QM, KLEN 32. -/
def mmaWord (mop qm acc : Nat) : ColWord :=
  mkWord [(0, 1), (32, mop), (36, 5), (40, 5), (44, 0), (50, 1), (56, qm), (62, acc), (64, 32), (88, 63), (128, 63)]
def mmaQueues : SMap Queue :=
  [(0, queueFull (qCfg 0x10000 13 5 1 4 0) 128), (1, queueFull (qCfg 0x20000 13 5 1 4 0) 128), (2, queueFull (qCfg 0x30000 13 5 1 4 0) 128)]
def mmaCells : List (Nat × Byte) := [(0x10000, 0x80), (0x10001, 3), (0x20000, 0x7F), (0x20001, 2), (0x30000, 0x0F)]
def mmaAt (mop qm acc : Nat) : State := engAt .mxe (mmaWord mop qm acc) mmaQueues mmaCells id
def flushWord : ColWord := mkWord [(0, 1), (32, 3), (44, 63), (50, 63), (56, 63), (62, 1), (80, 1), (88, 48), (96, 0x3F800000), (128, 63)]
def zeroWord : ColWord := mkWord [(0, 1), (32, 4), (44, 63), (50, 63), (56, 63), (62, 1), (88, 63), (128, 63)]
def tile (st : FtqState) : FtqSlot := ⟨st, 1, 0, 1, [], [], [], [], 0⟩
def flushAt (l : List FtqSlot) : State := engAt .mxe flushWord [] [] fun p => { p with mxe := { p.mxe with ftq := l } }
/-- The residue check is off. -/
def unchecked : State := engAt .mxe flushWord [] [] fun p => { p with mxe := { p.mxe with ctl := 1 } }

/-- A VXE word on recipe 7 with QIN0 0 in FP32. -/
def vxWord (vop rep out0 out1 row dst kgate : Nat) : ColWord :=
  mkWord [(0, 1), (4, rep - 1), (32, vop), (36, 7), (44, 0), (50, 63), (56, 63), (62, 63), (68, out0), (74, out1), (80, 63), (98, row),
    (114, dst), (117, kgate)]
/-- Recipe 7: o0 = i0, reduced by KIND. -/
def moveRecipe (kind : Nat) : Recipe := ⟨BitVec.ofNat 32 (1 + kind * 256), BitVec.ofNat 32 (16 * 64 + 16 * 2048) :: List.replicate 63 0⟩
def vxQueues : SMap Queue := [(0, queueFull (qCfg 0x10000 13 9 1 4 1) 8), (1, { Queue.reset with cfg := qCfg 0x20000 13 9 1 1 2 })]
def vxCells : List (Nat × Byte) := [(0x10003, 0x40), (0x10006, 0xC0), (0x10007, 0xBF), (0x101FE, 0x80), (0x101FF, 0x3F)]
def vxAt (kind : Nat) (w : ColWord) : State :=
  engAt .vxe w vxQueues vxCells fun p => { p with vxe := { p.vxe with recipes := [(7, moveRecipe kind)] } }
/-- What the input ends give. -/
def vxGot (s : State) (w : ColWord) : VxAll := vxPopEnds 31 (issueAt (potOf s 31).vxeSeq w) (vxNeeds w) (issueState s 31 .vxe) []
def gotState (s : State) : VxAll → State
  | .ok u _ => u
  | _ => s
def gotIn : VxAll → VxIn
  | .ok _ i => i
  | _ => ⟨[], [], []⟩

def sumWord : Summary := ⟨BitVec.ofNat 256 (0xABCD * 2 ^ 192 + 7), false⟩
def sumAt (dst : BitVec 3) : State := withPot 31 fun p => { p with vxe := { p.vxe with summaryOut := [⟨dst, sumWord⟩, ⟨1, sumWord⟩] } }
def brewed (l : List Summary) : State := withPot 31 fun p => { p with vxe := { p.vxe with brewerQ := l } }

/-- An SFE word: FOP, QIDX, QOFF, QWT, QDST, TBL, FMT and further fields. -/
def sfWord (fop idx off wt dst tbl fmt : Nat) (more : List (Nat × Nat)) : ColWord :=
  mkWord ([(0, 1), (32, fop), (36, idx), (42, off), (48, wt), (54, dst), (60, tbl), (64, fmt)] ++ more)
/-- A table of four rows of 64 B in the tray of pot 31, and a route area there. -/
def rowDesc (more : Nat) : BitVec 256 := BitVec.ofNat 256 (31 * 2 ^ 27 + 0x8000 + 4 * 2 ^ 64 + 64 * 2 ^ 96 + 2 * 2 ^ 128 + more)
def routeDesc : BitVec 256 := BitVec.ofNat 256 (31 * 2 ^ 27 + 0x40000 + 2 ^ 50)
def sfDescs : SMap (BitVec 256) := [(3, rowDesc 0), (13, routeDesc), (14, rowDesc 0), (15, BitVec.ofNat 256 (31 * 2 ^ 36 + 2 ^ 48 + 4 * 2 ^ 64 + 2048 * 2 ^ 96 + 4 * 2 ^ 128 + 2 * 2 ^ 144))]
/-- Queue 0 gives indices, 1 offsets, 2 rows; 3 takes rows. -/
def sfQueues : SMap Queue :=
  [(0, queueFull (qCfg 0x10000 12 2 1 4 2) 8), (1, queueFull (qCfg 0x20000 12 2 1 4 2) 8), (2, queueFull (qCfg 0x30000 12 5 1 4 2) 8),
   (3, { Queue.reset with cfg := qCfg 0x38000 12 5 1 2 0 })]
def sfAtWord (w : ColWord) (cells : List (Nat × Byte)) (f : Pot → Pot) : State :=
  engAt .sfe w sfQueues cells fun p => f { p with sfe := { p.sfe with descs := sfDescs } }
/-- Index 3, and row 3 with a byte. -/
def index3 : List (Nat × Byte) := [(0x80C1, 0xAB), (0x10000, 3), (0x20000, 1), (0x30000, 0xCD)]
/-- The index for no row. -/
def indexNone : List (Nat × Byte) := [(0x10000, 0xFF), (0x10001, 0xFF), (0x10002, 0xFF), (0x10003, 0xFF), (0x20000, 1)]
def bagGot (w : ColWord) (s : State) : SfBagGot := sfBagPop 31 w (sfDescOf (potOf s 31) (sfTbl w)) (issueState s 31 .sfe)
def bagOf (w : ColWord) (s : State) : SfBag :=
  match bagGot w s with
  | .ok b => b
  | _ => ⟨s, [], [], 0⟩
def cooWord : ColWord := sfWord 1 0 63 63 3 3 1 []
def csrWord : ColWord := sfWord 0 0 1 63 3 3 1 []
def scatterWord : ColWord := sfWord 2 0 63 63 2 3 1 []
/-- DISPATCH of two tokens to experts 0 to 255 with CAP 1. -/
def dispWord : ColWord := sfWord 4 49 63 63 3 13 0 [(4, 1), (70, 1), (96, 255)]
def dispEnt : BitVec 128 := BitVec.ofNat 128 (0xFFFFFFFF + 255 * 2 ^ 32 + 7 * 2 ^ 40 + 2 ^ 43 + 2 ^ 44 + 0x3F800000 * 2 ^ 64)
def dispAt (fill : SMap (BitVec 32)) : State :=
  sfAtWord dispWord [] fun p =>
    { p with
      vxe := { p.vxe with dispatchQ := [(dispEnt, false), (dispEnt, false)] }
      sfe := { p.sfe with batch := { Batch.reset with fill := fill } }
      sfeSeq := { p.sfeSeq with issued := 0 } }
def combWord : ColWord := sfWord 5 63 63 63 2 13 1 [(96, 0)]
def combAt (valid : Byte) : State :=
  sfAtWord combWord ([(0x30001, 0x40), (0x4001E, 1), (0x40440, 3), (0x40446, 0x80), (0x40447, 0x3F)] ++ (if valid = 0 then [] else [(0x40448, valid)])) id

def ticket (id : Nat) (ret : Bool) : SfeTicket := ⟨id, 3, none, [⟨List.replicate 64 7, [false, true], none, true, none, false⟩], 64, false, ret, if ret then [(List.replicate 32 9, false)] else []⟩
def ticketsAt (l : List SfeTicket) : State := sfAtWord 0 [] fun p => { p with sfe := { p.sfe with tickets := l } }
def bagsumWord : ColWord := sfWord 3 0 1 63 3 15 3 []
/-- A bag of one index, row 0. -/
def oneBag : State := sfAtWord bagsumWord [(0x20000, 1)] id
def bagsAt : State :=
  sfAtWord 0 [] fun p =>
    { p with sfe := { p.sfe with
        tickets := [⟨5, 3, none, [], 512, true, false, []⟩, ⟨4, 3, none, [], 512, true, false, []⟩]
        bags := [⟨4, [0], 1, [], none, false⟩, ⟨5, [1], 0, [], none, false⟩]
        scratchBusy := [0, 1] } }

def mkU (l : List (Nat × Nat)) : Word64 := BitVec.ofNat 64 (l.foldl (fun a x => a + x.2 * 2 ^ x.1) 0)
/-- A leaf command: ENTRY 0, rows 5 to 32,767, 64 lines of operand at 0x10000, K 64, result line 0x800, and RED. -/
def leafRaw (red : Nat) (more : List (Nat × Nat)) : BitVec 256 :=
  mkWord ([(0, 0xBEEF - 16), (105, 5), (120, 32767), (136, 0x10000), (163, 64), (176, 64), (184, 0x800), (205, red)] ++ more)
/-- LU 1,053 of pot 31 (channel 63, bank 15) runs a command with this RED and stands at this microword. -/
def luRed (red : Nat) (u : Word64) (f : Lu → Lu) : State :=
  withPot 31 fun p =>
    { p with
      lus := [(1053, f { Lu.reset with cmd := some ⟨leafRaw red [], none, 1053, false⟩, store := [(0, u)], rowr := 7 })]
      chans := [(63, { Chan.reset with slot0 := ⟨List.replicate 32 0x3F ++ [3, 0, 0xFF, 0x81, 1, 2, 3, 4], []⟩ })] }
def luAt (u : Word64) (f : Lu → Lu) : State := luRed 2 u f
/-- Latches a and b and a touched float set with a score. -/
def loaded (l : Lu) : Lu :=
  { l with
    latches := [(0, ⟨0x3F8040003F800000, true⟩), (1, ⟨0x4000BF80, false⟩)]
    acc1 := { LuAcc.reset with touched := true, vals := [(0, 0x3F800000), (7, 0x40000000)], origin := some 0x1234 }
    sc1 := ⟨0x3F800000, 0x77, true, false⟩ }
def uMovl : Word64 := mkU [(0, 0x10), (6, 0), (10, 3), (29, 1)]
def uZl : Word64 := mkU [(0, 0x11), (10, 3)]
def uLdq : Word64 := mkU [(0, 0x12), (10, 2), (49, 0), (51, 1)]
def uAddl : Word64 := mkU [(0, 0x13), (6, 0), (8, 1), (10, 2), (13, 1)]
def uMull : Word64 := mkU [(0, 0x14), (6, 0), (8, 1), (10, 2), (13, 1)]
def uMacl : Word64 := mkU [(0, 0x15), (6, 0), (8, 1), (12, 1), (13, 1)]
def uZa : Word64 := mkU [(0, 0x16), (12, 1)]
def uTree : Word64 := mkU [(0, 0x20), (12, 1)]
def uTkins : Word64 := mkU [(0, 0x21), (12, 1)]
def uNxi : Word64 := mkU [(0, 0x22)]
def uNxr : Word64 := mkU [(0, 0x23), (46, 1), (37, 511)]
def uSetlc : Word64 := mkU [(0, 0x24), (49, 255)]
def uCb : Word64 := mkU [(0, 0x25), (49, 255)]
def uSetap : Word64 := mkU [(0, 0x26)]
def uPut : Word64 := mkU [(0, 0x27)]
def uPutK (k : Nat) : Word64 := mkU [(0, 0x27), (12, 1), (48, 1), (49, k)]
def uEnd : Word64 := mkU [(0, 0), (46, 3)]

/-- The column operation `code` at row 7, with its row to be opened. -/
def uCol_ (code : Nat) (more : List (Nat × Nat)) : Word64 := mkU ([(0, code), (10, 1), (13, 1), (20, 63), (27, 1)] ++ more)
def ptrU (code : Nat) : Word64 := mkU [(0, code), (13, 1), (26, 1)]
def openAt (l : Lu) : Lu :=
  { l with openRow := some 7, colq := List.replicate 3 ⟨.data, [], mkU [(0, 1), (10, 3), (13, 1)], 0, 7, 5, Latch.reset, 0, 0⟩ }
/-- Row 7 stands open, with a header that shows no block. -/
def seen (l : Lu) : Lu := { l with openRow := some 7, occ := some (7, 0, false) }
def accessK (k : ColKind) (u : Word64) : ColAcc := ⟨k, [], u, 0, 32767, 1, ⟨0xAB, false⟩, 0x3F800000, 0⟩
def uAcc_ (code : Nat) : Word64 := mkU [(0, code), (10, 3), (13, 1)]
def access (code : Nat) : ColAcc := accessK .data (uAcc_ code)
def scalesAcc : ColAcc := accessK .scales (mkU [(0, 1), (13, 6)])
/-- The read of the last word of a row's scales. -/
def scalesLast : ColAcc := { scalesAcc with got := List.replicate ((accCols scalesAcc).length - 1) (List.replicate 32 0x7F, false) }
def headerAcc : ColAcc := accessK .header (mkU [(0, 1), (13, 1)])
/-- The access is the oldest of the LU's column queue, and its row stands open in the bank. -/
def withAcc (a : ColAcc) : State :=
  updPot (luAt 0 fun l => { l with colq := [a], openRow := some 32767, scales := some (32767, List.replicate 64 0x7F) }) 31 fun p =>
    { p with scheds := tset p.scheds 63 (updBank (schedOf p 63) 15 fun k => { k with openRow := some 32767 }) }
def withAccess (code : Nat) : State := withAcc (access code)
def leafCmd : LeafCmd := ⟨leafRaw 2 [], none, 1053, false⟩
/-- The word that the access reads, and what the operation makes of it. -/
def readOf (a : ColAcc) : State × ReadData :=
  readWordAt (luColumnNoted (withAcc a) 31 1053 true) (luWordPlace (potOf (withAcc a) 31) 31 1053 a.row.toNat (nth (accCols a) 0 0))
    (luWho (luOf (potOf (withAcc a) 31) 1053))
def taken1 (a : ColAcc) : (Lu × NumEv) ⊕ Nat :=
  colTake (popAcc (readOf a).1 31 1053) 31 1053 { luOf (potOf (withAcc a) 31) 1053 with colq := [] } (leafRaw 2 [])
    { a with got := [((readOf a).2.bytes, (readOf a).2.poison)] } (readOf a).2.bytes (readOf a).2.poison
def leftOf : (Lu × NumEv) ⊕ Nat → Lu × NumEv
  | .inl x => x
  | .inr _ => (Lu.reset, ⟨0, 0⟩)

def runOf (raw : BitVec 256) (ans : List LuAnswer) (todo : List Nat) : LeafRun := ⟨0, raw, .host 9, [2047], [(63, 1053), (63, 1054)], ans, todo, []⟩
def leafWith (f : Pot → Pot) : State := { withPot 31 f with tray := [⟨trayGlobal 31 0x10000, 0xAB⟩, ⟨trayGlobal 31 0x10FFF, 0xCD⟩] }
/-- A leaf command that fails its checks: K 65. -/
def badLeaf : BitVec 256 := mkWord [(176, 65)]
def readyPot (r : LeafRun) (p : Pot) : Pot :=
  { p with
    runs := [r]
    chans := [(63, { Chan.reset with loadedFor := some r.raw })]
    pmt := { p.pmt with holds := [(permitKey .leaf 63, ⟨24, 7, 0, false⟩)] } }
def loadRaw : BitVec 256 := mkWord [(96, 0), (135, 1), (136, 0x10000), (163, 64)]
def luAns (i : Nat) : LuAnswer := ⟨i, .scalar 0x3F800000, false, none, 0, 0⟩
def resultAt : State :=
  leafWith fun p => { p with runs := [runOf (leafRaw 2 []) [] [63], runOf (leafRaw 2 []) [luAns 1053, luAns 1054] []] }
def badQ : LeafQ := ⟨badLeaf, .firmware, []⟩
/-- The LU command queue with this many entries, and stores that wait. -/
def queuedLeaf (k : Nat) (wait : List LeafQ) : State := leafWith fun p => { p with lucq := List.replicate k badQ, leafWait := wait }

def bksReq (b : BitVec 4) : BksReq := ⟨b, 32767, 63, .read, true, 7, 4095⟩
def withSched (f : Sched → Sched) : State := updSched up 31 63 fun _ => f { Sched.reset with swept := true, cycle := 1000 }
def eyeAt : State :=
  updPot (withSched fun c => { c with banks := [(15, { Bank.reset with refed := true, lastRef := 999 })] }) 31 fun p => { p with bands := [(15, 2)] }
def mergeOf (c : BitVec 6) : MergeEntry := ⟨15, 32767, c, 0xAB, 1, false⟩
def retrainAt (v : Nat) : State := withPot 31 fun p => { p with bksRetrain := BitVec.ofNat 64 v, scheds := [(63, { Sched.reset with swept := true, selfRefresh := true, retraining := true })] }

/-- The row of the last bank of pot 31, row 32,767. -/
def lastRow : Nat := rowIndex 31 15 63 32767
def spareUsed : State := withPot 31 fun p => { p with pat := { p.pat with rowmap := [(rowMapKey 15 63 0, mkRowMap 5 15 true)] } }
/-- Every row map entry of the bank is in use. -/
def allUsed : State :=
  withPot 31 fun p => { p with pat := { p.pat with rowmap := (upto 8).map fun i => (rowMapKey 15 63 i, mkRowMap i i true) } }
def atEnd : State := updPot up 31 fun p => { p with scheds := [(63, { Sched.reset with swept := true, patrolPos := 524287 })] }
def copying : State := withPot 31 fun p => { p with pat := { p.pat with copy := some ⟨63, 15, 1⟩, cmd := 0x10 } }

def withPmt (f : Pmt → Pmt) : State := withPot 31 fun p => { p with pmt := f p.pmt }
def freeIs (v : Int) (p : Pmt) : Pmt := { setFree p v with nextOrder := 7 }
def wait_ (steeps : Nat) (pr ov : Bool) : PermitWait := ⟨.fw, 7, steeps, 0, 0, pr, ov, 3⟩
def wantsLeaf : State := leafWith fun p => { p with runs := [runOf (leafRaw 2 []) [] [63]] }

/-- Readings in °C: four of each DRAM die, the first sensor of die 15 apart, and eight of the base die. -/
def deg (c : Int) : Option (BitVec 12) := some (BitVec.ofInt 12 (8 * c))
def potReads (dram x logic : Int) : List (Option (BitVec 12)) :=
  List.replicate 60 (deg dram) ++ [deg x, deg x] ++ List.replicate 2 (deg dram) ++ List.replicate 8 (deg logic)
def tripped (cool trips : Nat) : State :=
  { withPower (fun p => { p with step := .tripped, enHub := false, enPot := 0, enSpt := 0, enCaddy := false, pgCaddy := false, pgHub := false, pgPot := 0, pgSpt := 0 }) with
    ket := { Ket.reset with coolFor := cool, trips := BitVec.ofNat 64 trips } }

/-- An image of a kind without a body, under KEYID 1, tested with version 0 of the other kinds and signed under the
key below; its digest is of its first 0xA0 bytes. -/
def testImage (k : FwKind) (key : Nat) : List Byte :=
  let compat : List Byte := if k = .owndef then List.replicate 32 0 else ((([1, 2, 3, 4] : List Nat).filter (· != kindCode k)).map fun c => bytesOfNat 8 c).flatten ++ List.replicate 8 0
  let h := bytesOfNat 4 0x4D474D49 ++ bytesOfNat 1 (kindCode k) ++ [1, 7, 7] ++ bytesOfNat 8 0 ++ bytesOfNat 1 key ++
    bytesOfNat 1 (if k = .owndef then 0 else 3) ++ List.replicate 14 0 ++ compat ++ List.replicate 96 0
  h ++ sha512 h ++ (1 :: List.replicate 63 0) ++ List.replicate 0xE0 0
/-- The owner key is the point of order 1, under which one signature verifies for every message. -/
def testOwner : OwnerKey := ⟨1, ~~~1, true, true⟩
def withImage (k : FwKind) (key : Nat) : State :=
  { up with
    caddy := { up.caddy with owner := testOwner, slotA := [(kindCode k, ⟨testImage k key, 1, false⟩)] }
    fw := { up.fw with
      staged := [(kindCode k, true)]
      runImages := [(1, testImage .hubfw 1), (2, testImage .brewfw 1), (3, testImage .leafmc 1), (4, testImage .xlat 1)] } }
/-- The same in plain memory. -/
def plain (s : State) : State := { s with fw := { s.fw with running := false } }
def awaiting (k : FwKind) (moved : List Nat) : State := { withImage k 1 with fw := { (withImage k 1).fw with awaiting := [k], moved := moved, fwCtl := 0x40 } }
def keyed (o : OwnerKey) (ctl : Word64) (stage : BitVec 768) : State :=
  { up with caddy := { up.caddy with owner := o }, fw := { up.fw with keyCtl := ctl, keyStage := stage } }
def noOwner : OwnerKey := ⟨0, BitVec.allOnes 256, false, true⟩
/-- A staged key with the signature that verifies for every message. -/
def signedStage : BitVec 768 := BitVec.ofNat 768 (5 + 2 ^ 256)
/-- The same with a signature that verifies for none. -/
def forgedStage : BitVec 768 := BitVec.ofNat 768 (5 + 2 ^ 256 + 2 ^ 512)
/-- At the boot ROM with a consistent factory set under the owner's key. -/
def stFactory : State :=
  { stBoot with caddy := { stBoot.caddy with
      owner := testOwner
      factory := ([.hubfw, .brewfw, .leafmc, .xlat] : List FwKind).map fun k => (kindCode k, ⟨testImage k 1, 1, false⟩) } }
/-- The places of the set that boots. -/
def placesOf (s : State) : FwKind → ImgPlace := ((bootReady s [] 0).2).getD fun _ => .none

/-- RESERVE_GROUPS 63, so that every pot holds data in group 0 alone. -/
def reserving (f : Svc → Svc) : State := { withSvc f with hfe := { up.hfe with interleave := 63 * 256 } }
/-- A map entry with both halves. -/
def mapEnt (pot group mpot mgroup st : Nat) (en : Bool) : Pair32 :=
  pairOf (BitVec.ofNat 32 (pot + group * 32 + en.toNat * 2 ^ 11 + mpot * 2 ^ 12 + mgroup * 2 ^ 17 + st * 2 ^ 23))
def withMap (es : List (Nat × Pair32)) (c : Cursor) (s : State) : State :=
  { setCursor s c with map := ⟨es, [], []⟩ }
/-- Entry 1,984 (pot 31, group 0) moves to group 63 of pot 30. -/
def moveAt (phase unit : Nat) (retire op : Bool) : State :=
  withMap [(1984, mapEnt 31 0 30 63 1 false)] ⟨31, 1984, unit, phase, retire, op, 0⟩ (reserving id)
def retiredPot : State := withMap [(1984, mapEnt 31 0 0 0 2 false)] ⟨0, 0, 0, 0, false, false, 0⟩ (withSvc fun v => { v with retired := 0x80000000 })
def outMxe (failed : Bool) : State :=
  { withSvc (fun v => { v with mxeOut := 0x80000000 }) with pots := tset up.pots 31 { potUp with mxe := { potUp.mxe with failed := failed } } }
/-- A leaf command resolved through the mirrored entry 1,984 runs. -/
def mirrorRuns : State :=
  updPot (withMap [(1984, mapEnt 31 0 30 63 0 true)] ⟨0, 0, 0, 0, false, false, 0⟩ (reserving id)) 31 fun p =>
    { p with runs := [{ runOf (leafRaw 2 []) [] [] with homes := [1984] }] }
def svcRuns : State := withSvc fun v => { v with ctl := 0x20 }

/-- A load of one LVXE section on one pot, placed on pot 31. -/
def loadReq : LoadReq := ⟨some 9, false, 0x1000, 0xBEEF, 31⟩
def infRes (n : Nat) (syncs : List Nat) : InfRes := ⟨n, [], [], [], [], syncs, 0, 0, [], [], false, false⟩
def loadPot (n : Nat) (syncs : List Nat) : LoadPot :=
  ⟨0, infRes n syncs, [], [], [], [], [], [], syncs.map fun k => { SyncWord.reset with value := BitVec.ofNat 64 k }, [], [], []⟩
def loadAt (phase : BitVec 4) (place : List Nat) (image : List (BitVec 32)) : Load :=
  { req := loadReq, phase := phase, descriptor := 0, image := image, place := place, subst := false, lead := 31,
    id := if phase.toNat < 4 then 0 else 4095, leafBase := 0, leafLen := 0,
    pots := (place.map fun n => loadPot n [65535, 65534]), entries := [⟨3, .vxe, 0, 0x40, []⟩], saved := none, doneLeft := place, undo := [] }
def loading (l : Load) : State := { up with inf := ⟨[(4095, { Inf.reset with state := 1 })], [loadReq], some l, []⟩ }
def served : State := { up with inf := ⟨[], [loadReq, loadReq], none, []⟩ }
def draining (st : BitVec 3) (k : BitVec 32) : State :=
  { up with inf := ⟨[(4095, { loadedInf with state := st, inflight := k }), (7, loadedInf)], [], none, [⟨4095, 31, 9, false, 0⟩, ⟨7, 0, 8, false, 0⟩]⟩ }
/-- An image whose word 8, which is reserved, is not 0. -/
def flawed : List (BitVec 32) := List.replicate 8 0 ++ [1]

def syncWord (v : Word64) (full : Bool) : SyncWord := { SyncWord.reset with value := v, valueN := ~~~v, full := full, fullN := !full, alloc := true, owner := 4095 }
def withWords (ws : List (Nat × SyncWord)) (f : Snc → Snc) : State := withPot 31 fun p => { p with snc := f { p.snc with words := ws } }
def oneWord (v : Word64) (full : Bool) : State := withWords [(65535, syncWord v full)] id
def pairWords (arr leaveN : Word64) : State := withWords [(65534, syncWord arr true), (65535, syncWord leaveN true)] id
def parkedOp (ix : BitVec 16) (yop : BitVec 4) (a : Agent) : Waiter := ⟨ix, yop, 0, true, 7, a, 0xBEEF, 4095, 0⟩

/-- Port 1 of pot 31 in a state. -/
def portIn (st : PortState) (f : Port → Port) : State :=
  { withPot 31 fun p => setPort p 1 (f { Port.reset with state := st, partner := 7 }) with drz := { up.drz with node := 5 + 15 * 65536, routes := [(7, ⟨BitVec.ofNat 64 (2 ^ 63), false⟩)] } }
def aFlit (vc : BitVec 3) (vseq : BitVec 12) : Flit := ⟨vc, vseq, 7, 0, 7, 0, 1, true, true, 0xAB⟩
def sentFlits : List Flit := [aFlit 0 4095, aFlit 0 0, aFlit 4 0, aFlit 0 1]
def sending (f : Port → Port) : State := portIn .up fun p => f { p with replay := sentFlits, nextSeq := [(0, 2), (4, 1)], occupancy := [(0, 3), (4, 1)] }
/-- Another port reaches the partner too. -/
def bothUp : State :=
  { updPot (portIn .up id) 30 (fun p => setPort p 0 { Port.reset with state := .up }) with
    drz := { up.drz with node := 5 + 15 * 65536, routes := [(7, ⟨BitVec.ofNat 64 (2 ^ 63 + 2 ^ 60), false⟩)] } }

/-- A message's header, from pot 30 of node 7. -/
def msgHdr (dst : BitVec 16) (len : Nat) (sseq : BitVec 32) (addr : Word64) : MsgHdr := ⟨dst, 7, 30, 15, BitVec.ofNat 16 len, sseq, 0xBEEF, 4095, addr⟩
/-- It stands complete at port 1 of pot 31. -/
def msgAt (mtype : Nat) (h : MsgHdr) (body : List Byte) (f : Port → Port) : State :=
  portIn .up fun p => f { p with rxParts := [(vcOf mtype, msgFlits h mtype body)] }
def msgAtPot (mtype : Nat) (h : MsgHdr) (body : List Byte) (f : Pot → Pot) : State := updPot (msgAt mtype h body id) 31 f
def wData : List Byte := (upto 40).map fun i => BitVec.ofNat 8 (255 - i)
def wBody : List Byte := wData ++ poisonBytes 2 [false, true]
/-- The last 40 bytes of pot 31's tray. -/
def wHdr : MsgHdr := msgHdr 5 41 1 0xFFFFFFD8
def rdHdr (dst : BitVec 16) : MsgHdr := msgHdr dst 4 9 0xFFFFFFC0
def rspHdr : MsgHdr := msgHdr 5 49 (31 * 2 ^ 27 + 9) 0
def wordHdr (len : Nat) (sseq : BitVec 32) : MsgHdr := msgHdr 5 len sseq (31 + 65535 * 32)
def chgBody (yop : Nat) (x : Word64) (id : Nat) : List Byte := syncBody yop 0 true x ++ bytesOfNat 4 id
def waitFor (what : RemoteFor) : List RemoteReq := [⟨3, 7, 0, .row 1⟩, ⟨31 * 2 ^ 27 + 9, 7, 0, what⟩]
def readyAt (s : State) : State := updPot s 31 fun p => { p with snc := { p.snc with words := [(65535, syncWord 7 false)] } }
def syncRspHdr : MsgHdr := msgHdr 5 24 (31 * 2 ^ 27 + 9) 0
def syncRspAt : State := msgAtPot 6 syncRspHdr (bytesOfNat 8 8 ++ bytesOfNat 16 0xAB) fun p => { p with remote := waitFor (.sync (.hubSlot 3 3)) }
def ackAt : State := msgAtPot 7 (msgHdr 5 4 0 31) (bytesOfNat 4 9) fun p => { p with streams := [(7, { StreamEnt.reset with last := 9, acked := 5 })] }
def cmdHdr : MsgHdr := msgHdr 5 (cmdBody 0 2 leafHdr []).length 9 0
def cmdAt : State := { msgAt 9 cmdHdr (cmdBody 0 2 leafHdr []) id with hfe := { up.hfe with pimOff := true } }
def mgmtAt (mk : Nat) (ctl : Word64) (inb : Nat) : State :=
  { msgAt 0xD (msgHdr 5 8 0 0) (bytesOfNat 1 mk ++ bytesOfNat 2 7 ++ bytesOfNat 4 0xFFFFFFFF ++ bytesOfNat 1 15) id with
    cup := { up.cup with ctl := ctl, inbound := List.replicate inb 0 } }
def deferredOp_ (cover : BitVec 32) : Deferred := ⟨7, 30, cover, wordHdr 20 cover, 9, 5, true, 3⟩
def partPayload : List Byte := [0, 0, 0] ++ bytesOfNat 4 1 ++ bytesOfNat 4 1 ++ [1, 2]
/-- A PARTIAL for a member that waits. -/
def partAt : State :=
  { msgAtPot 0xB (msgHdr 5 13 (31 * 2 ^ 27 + 9) 0) partPayload (fun p => { p with remote := waitFor (.member 5 9) }) with
    hfe := (withCmd (cmd leafHdr .running [part 31] none)).hfe }

def withRegs (f : RegIf → RegIf) : State := { up with regs := f up.regs }
/-- BAR0 offset of SNC_CTL of pot 31. -/
def sncOff : BitVec 26 := BitVec.ofNat 26 (0x2000000 + 31 * 0x100000 + 0x6000)
def sncAt (word : Nat) : RegAt := ⟨.pot 31, 0x6000, 2, word, false⟩
def indTo (space index word auto : Nat) : State :=
  withRegs fun r => { r with indAddr := [(bankKey .host .hub, BitVec.ofNat 64 (space + index * 256 + word * 2 ^ 32 + auto * 2 ^ 40))] }
def snapAt (left : List Nat) (clear : Bool) : State :=
  { up with
    regs := { up.regs with latchLeft := left, snap := putBit (BitVec.ofNat 64 (2 ^ 9 + 0xFFFF * 2 ^ 16)) 7 clear }
    hfe := { up.hfe with absentCount := 5, lateCount := 6 } }
def ketHit : ParityHit := ⟨0x3000, 0, 0, false⟩
def standing63 : State := { up with cup := { up.cup with inbound := List.replicate 63 0 } }
/-- Slot 0 of core 3 of pot 31 has an operation outstanding. -/
def slotOff : BitVec 26 := BitVec.ofNat 26 (0x2000000 + 31 * 0x100000 + 0x6B00)
def slotReg : RegAt := ⟨.pot 31, 0x6B00, 4, 0, false⟩
def slotBusyAt : State := withPot 31 fun p => { p with snc := { p.snc with slots := [(12, { SncSlot.reset with busy := true })] } }

def withCup (f : CupHub → CupHub) : State := { up with cup := f up.cup }
def latching : State := withCup fun c => { c with ctl := BitVec.ofNat 64 (2 + 0xFFFFFFFF * 2 ^ 32), latchLeft := [potIsland 31 47, hubIsland 8] }
def tracing (ctl : Word64) (k : Nat) : State :=
  withPot 31 fun p => { p with cup := { p.cup with ctl := ctl, en := 0xFFFFFFFFFFFFFFFF, buffer := List.replicate k 5 } }

def sbAt (f : Sideband → Sideband) : State := { up with sb := f up.sb }

/-! An ill-formed term for each check of Instr.wf, refused by it. -/
theorem test_wf_luIndex :
    ([.luNop 31 1056, .rdl 31 1056, .wrl 31 1056, .wrq 31 1056, .maco 31 1056,
      .adds 31 1056, .axpy 31 1056, .scl 31 1056, .cmpc 31 1056, .rdap 31 1056,
      .stap 31 1056, .movl 31 1056, .zl 31 1056, .ldq 31 1056, .za 31 1056,
      .tree 31 1056, .tkins 31 1056, .nxi 31 1056, .nxr 31 1056, .setlc 31 1056,
      .cb 31 1056, .setap 31 1056, .put 31 1056, .luLimitTimeout 31 1056, .addl 31 1056 false,
      .mull 31 1056 false, .macl 31 1056 false, .luColumnAccess 31 1056 false] : List Instr).all (fun c => !c.wf) = true := by decide
theorem test_wf_luIndex_last : Instr.wf (.luNop 31 1055) = true := by decide
theorem test_wf_potReset : Instr.wf (.potReset 31 [0, 1056] true true) = false := by decide
theorem test_wf_bootRom : Instr.wf (.bootRom [(31, 1056)] 0) = false := by decide
theorem test_wf_headLinkTrain :
    ([.headLinkTrain 1 0 2 2, .headLinkTrain 1 1 3 2, .headLinkTrain 1 1 2 3] : List Instr).all (fun c => !c.wf) = true := by decide
theorem test_wf_cxlMemRead : Instr.wf (.cxlMemRead 1 32) = false := by decide
theorem test_wf_cxlMemWrite : Instr.wf (.cxlMemWrite 1 63 0 0 false) = false := by decide
theorem test_wf_apertureLineWrite : Instr.wf (.apertureLineWrite 1 1 0 0) = false := by decide
theorem test_wf_queueElementAvailable : Instr.wf (.queueElementAvailable 31 48) = false := by decide
theorem test_wf_ketMeasurementTick :
    ([.ketMeasurementTick (.pot 31) (List.replicate 4 none), .ketMeasurementTick .hub (List.replicate 72 none)] : List Instr).all (fun c => !c.wf) = true := by decide
theorem test_wf_recipeWrite :
    ([.recipeWrite .host 31 255 [], .recipeWrite .host 31 255 (List.replicate 66 0)] : List Instr).all (fun c => !c.wf) = true := by decide
theorem test_wf_flitReceive :
    ([.flitReceive 31 1 ⟨5, 4095, 0, 1, 0, 1, 0x10, true, true, 0⟩ true true, .flitReceive 31 1 ⟨6, 4095, 7, 1, 7, 1, 0x10, true, true, 0⟩ true true, .flitReceive 31 1 ⟨0, 4095, 5, 1, 0, 1, 0x10, true, true, 0⟩ true true, .flitReceive 31 1 ⟨0, 4095, 0, 1, 6, 1, 0x10, true, true, 0⟩ true true] : List Instr).all (fun c => !c.wf) = true := by decide
theorem test_wf_drizor :
    ([.ackTimer 31 1 5, .ack 31 1 [(0, 0)], .nak 31 1 5 0, .nakAll 31 1 [0, 0, 0, 0], .init 31 1 0 0 0 [0, 0, 0, 0] 0 0] : List Instr).all (fun c => !c.wf) = true := by decide
theorem test_wf_snapshotStart : Instr.wf (.snapshotStart 3 31 true) = false := by decide
theorem test_wf_island :
    ([.cuppingLatch (.pot 31 21), .cuppingLatch (.pot 31 48), .faultRecordLost (.hub 9)] : List Instr).all (fun c => !c.wf) = true := by decide

theorem witness_EmptyQueueIdles (H : Obligations.EmptyQueueIdles) : (step State.reset = .next State.reset) :=
  (H State.reset rfl)

theorem witness_EveryStepKeepsSound (H : Obligations.EveryStepKeepsSound) : (State.reset.Sound → ∀ t, step State.reset = .next t → t.fuses = State.reset.fuses) :=
  (fun h t e => (H State.reset t h e).2.1)

theorem witness_ColdPowerOnSequence (H : Obligations.ColdPowerOnSequence) :
    Runs (.coldPowerOn) stOff ∧
    Runs (.coldPowerOn) stLatched :=
  ⟨ran ((H stOff yes).1 yes),
   ran ((H stLatched yes).2 yes)⟩

theorem witness_PowerGoodsRaiseRails (H : Obligations.PowerGoodsRaiseRails) :
    Runs (.powerGoodRise .caddy) State.reset ∧
    Runs (.powerGoodRise .hub) ({ State.reset with power := { Power.reset with pgCaddy := true } }) ∧
    Runs (.powerGoodRise (.pot 31)) (withPower fun p => { p with step := .waitPots, pgPot := 0x7FFFFFFF, enSpt := 0, pgSpt := 0 }) ∧
    Runs (.powerGoodRise (.spt 3)) (withPower fun p => { p with step := .waitSpt, pgSpt := 7 }) :=
  ⟨ran (H.1 State.reset .caddy yes yes),
   ran (H.2.1 { State.reset with power := { Power.reset with pgCaddy := true } } yes yes yes yes),
   ran (H.2.2.1 (withPower fun p => { p with step := .waitPots, pgPot := 0x7FFFFFFF, enSpt := 0, pgSpt := 0 }) 31 yes yes yes yes),
   ran (H.2.2.2 (withPower fun p => { p with step := .waitSpt, pgSpt := 7 }) 3 yes yes yes yes)⟩

theorem witness_RailFaultsDropEnables (H : Obligations.RailFaultsDropEnables) :
    Runs (.pgTimeout .hub) State.reset ∧
    Runs (.pgFall .caddy) up ∧
    Runs (.pgTimeout (.pot 31)) (withPower fun p => { p with pgPot := 0x7FFFFFFF }) ∧
    Runs (.pgFall (.pot 0)) up ∧
    Runs (.pgTimeout (.spt 3)) (withPower fun p => { p with pgSpt := 7 }) ∧
    Runs (.pgFall (.spt 0)) up ∧
    Runs (.coldPowerLoss) up :=
  ⟨ran ((H.1 State.reset .hub yes yes).1 yes),
   ran ((H.1 up .caddy yes yes).2 yes),
   ran ((H.2.1 (withPower fun p => { p with pgPot := 0x7FFFFFFF }) 31 yes yes).1 yes),
   ran ((H.2.1 up 0 yes yes).2 yes),
   ran ((H.2.2.1 (withPower fun p => { p with pgSpt := 7 }) 3 yes yes).1 yes),
   ran ((H.2.2.1 up 0 yes yes).2 yes),
   ran (H.2.2.2 up yes)⟩

theorem witness_BootRomStartsFirmwareOrPlainMemory (H : Obligations.BootRomStartsFirmwareOrPlainMemory) : Runs (.bootRom [(0, 1055)] 1) stBoot :=
  ran ((H stBoot [(0, 1055)] 1 yes yes).1 yes)

theorem witness_SweepTrayPulseAndWindowEvents (H : Obligations.SweepTrayPulseAndWindowEvents) :
    Runs (.tagSweepDone 31 63) (withPot 31 fun p => { p with scheds := [] }) ∧
    Runs (.trayClearDone 31) (withPot 31 fun p => { p with trayClear := false }) ∧
    Runs (.pulseToggle) ({ up with pins := { Pins.reset with pulseRun := true } }) ∧
    Runs (.enrollWindowClose) up :=
  ⟨ran (H.1 (withPot 31 fun p => { p with scheds := [] }) 31 63 yes yes yes yes),
   ran (H.2.1 (withPot 31 fun p => { p with trayClear := false }) 31 ⟨yes, yes⟩ yes yes),
   ran (H.2.2.1 { up with pins := { Pins.reset with pulseRun := true } } yes yes),
   ran (H.2.2.2 up yes)⟩

theorem witness_LastKnownGoodSetRecorded (H : Obligations.LastKnownGoodSetRecorded) : Runs (.lkgRecord) up :=
  ran (H up yes yes yes yes)

theorem witness_WarmResetKeepsWhatR459Keeps (H : Obligations.WarmResetKeepsWhatR459Keeps) :
    Runs (.warmModuleReset) up ∧
    Runs (.perst 0) ({ up with pins := { Pins.reset with perst := 3, perstSeen := 3 } }) ∧
    Runs (.perst 3) up :=
  ⟨ran (H.1 up yes yes yes),
   ran (H.2.1 { up with pins := { Pins.reset with perst := 3, perstSeen := 3 } } 0 yes yes yes yes),
   ran (H.2.2 up 3 yes)⟩

theorem witness_ResetsOfAbsentUnitsDoNothing (H : Obligations.ResetsOfAbsentUnitsDoNothing) :
    Runs (.potReset 31 [1055] true true) (withSvc fun v => { v with retired := 0x80000000 }) ∧
    Runs (.engineReset 0 .mxe) (withSvc fun v => { v with mxeOut := 1 }) :=
  ⟨ran (H.1 (withSvc fun v => { v with retired := 0x80000000 }) 31 [1055] true true yes yes yes yes),
   ran (H.2 (withSvc fun v => { v with mxeOut := 1 }) 0 .mxe yes yes yes yes)⟩

theorem witness_ResetsClearTheirScope (H : Obligations.ResetsClearTheirScope) :
    Runs (.potReset 31 [] true true) up ∧
    Runs (.potReset 0 [1055] false false) up ∧
    Runs (.engineReset 31 .mxe) (withPot 31 fun p => { p with pushWait := [(.vxe, 0)] }) ∧
    Runs (.brewerCoreReset 31 7) up :=
  ⟨ran (H.1 up 31 yes yes yes yes yes),
   ran (H.2.1 up 0 [1055] false false yes yes yes yes),
   ran (H.2.2.1 (withPot 31 fun p => { p with pushWait := [(.vxe, 0)] }) 31 .mxe yes yes yes yes yes yes yes),
   ran (H.2.2.2 up 31 7 yes yes yes yes yes)⟩

theorem witness_HeadLinksTrainAndFall (H : Obligations.HeadLinksTrainAndFall) :
    Runs (.headLinkTrain 1 3 2 2) up ∧
    Runs (.headLinkTrain 0 1 0 0) up ∧
    Runs (.headLinkDown 1) (withHead 1 id) ∧
    Runs (.hdmDecoderCommit 1 3 true) (withHead 1 id) ∧
    Runs (.msixUnmask 1 63) (withHead 1 id) :=
  ⟨ran (H.1 up 1 3 2 2 yes yes yes yes yes yes),
   ran (H.1 up 0 1 0 0 yes yes yes yes yes yes),
   ran (H.2.1 (withHead 1 id) 1 yes),
   ran (H.2.2.1 (withHead 1 id) 1 3 true yes),
   ran (H.2.2.2 (withHead 1 id) 1 63 yes)⟩

theorem witness_CxlReadsByRange (H : Obligations.CxlReadsByRange) :
    Runs (.cxlMemRead 0 0) headUp ∧
    Runs (.cxlMemRead 0 0) changing ∧
    Runs (.cxlMemRead 0 0) unswept ∧
    Runs (.cxlMemRead 0 0x3FFFFFFFFC0) headUp ∧
    Runs (.cxlMemRead 0 (BitVec.ofNat 42 apertureBase)) headUp ∧
    Runs (.cxlMemRead 0 (BitVec.ofNat 42 windowBase)) headUp ∧
    Runs (.cxlMemRead 0 (BitVec.ofNat 42 (windowEnd - 64))) headUp ∧
    Runs (.syncViewRead 0 31 0xFFFF) headUp :=
  ⟨ran ((H.1 headUp 0 0 yes yes yes yes).1 yes),
   ran ((H.1 changing 0 0 yes yes yes yes).2 (.inl yes)),
   ran ((H.1 unswept 0 0 yes yes yes yes).2 (.inr yes)),
   ran (H.2.1 headUp 0 0x3FFFFFFFFC0 yes yes yes yes),
   ran ((H.2.2.1 headUp 0 (BitVec.ofNat 42 apertureBase) yes yes yes yes yes).1 yes),
   ran ((H.2.2.1 headUp 0 (BitVec.ofNat 42 windowBase) yes yes yes yes yes).2.1 yes yes),
   ran ((H.2.2.1 headUp 0 (BitVec.ofNat 42 (windowEnd - 64)) yes yes yes yes yes).2.2 yes),
   ran (H.2.2.2 headUp 0 31 0xFFFF yes)⟩

theorem witness_CxlWritesByRange (H : Obligations.CxlWritesByRange) :
    Runs (.cxlMemWrite 0 0 0 0 false) headUp ∧
    Runs (.cxlMemWrite 0 0 0 (BitVec.allOnes 64) false) headUp ∧
    Runs (.cxlMemWrite 0 0 0 0 false) changing ∧
    Runs (.cxlMemWrite 0 0 0 0 false) unswept ∧
    Runs (.cxlMemWrite 0 0x3FFFFFFFFC0 0 0 true) headUp ∧
    Runs (.cxlMemWrite 0 (BitVec.ofNat 42 apertureBase) 0 0 true) headUp ∧
    Runs (.cxlMemWrite 0 (BitVec.ofNat 42 windowBase) 0 0 true) headUp ∧
    Runs (.apertureLineWrite 0 0x3FFFFFC0 0 0) headUp ∧
    Runs (.apertureLineWrite 0 0x3FFFC0 0 0) headUp :=
  ⟨ran ((H.1 headUp 0 0 0 0 false yes yes yes yes).1 yes),
   ran ((H.1 headUp 0 0 0 (BitVec.allOnes 64) false yes yes yes yes).1 yes),
   ran ((H.1 changing 0 0 0 0 false yes yes yes yes).2 (.inl yes)),
   ran ((H.1 unswept 0 0 0 0 false yes yes yes yes).2 (.inr yes)),
   ran ((H.2.1 headUp 0 0x3FFFFFFFFC0 0 0 true yes yes yes).1 yes),
   ran ((H.2.1 headUp 0 (BitVec.ofNat 42 apertureBase) 0 0 true yes yes yes).2.1 yes yes),
   ran ((H.2.1 headUp 0 (BitVec.ofNat 42 windowBase) 0 0 true yes yes yes).2.2 yes yes),
   ran ((H.2.2 headUp 0 0x3FFFFFC0 0 0 yes).1 yes),
   ran ((H.2.2 headUp 0 0x3FFFC0 0 0 yes).2 yes yes yes)⟩

theorem witness_SequencesAssembleAndDrop (H : Obligations.SequencesAssembleAndDrop) :
    Runs (.apertureLineWrite 1 (BitVec.ofNat 30 (4095 * 1024)) (mkLine [(0, 9)]) (BitVec.allOnes 64)) (withHead 1 id) ∧
    Runs (.apertureLineWrite 1 (BitVec.ofNat 30 (0 * 1024)) (mkLine [(0, 0xFFFF)]) (BitVec.allOnes 64)) (withHead 1 id) ∧
    Runs (.assemblyTimeout 4095) (withSlot 4095 { held (mkLine [(48, 3)]) with state := .assembling } []) ∧
    Runs (.assemblyTimeout 0) (withSlot 0 ⟨.assembling, 7, [], []⟩ []) :=
  ⟨ran ((H.1 (withHead 1 id) 1 4095 (mkLine [(0, 9)]) yes yes yes yes yes yes).1 yes),
   ran ((H.1 (withHead 1 id) 1 0 (mkLine [(0, 0xFFFF)]) yes yes yes yes yes yes).2 yes),
   ran (H.2 (withSlot 4095 { held (mkLine [(48, 3)]) with state := .assembling } []) 4095 yes),
   ran (H.2 (withSlot 0 ⟨.assembling, 7, [], []⟩ []) 0 yes)⟩

theorem witness_CommandsEnterAndLeaveTheTable (H : Obligations.CommandsEnterAndLeaveTheTable) :
    Runs (.dispatchAccept 4095) (withSlot 4095 (held leafHdr) [4095, 1]) ∧
    Runs (.commandDispatch) (withCmd (cmd (mkLine [(32, 0xFF)]) .queued [] none)) ∧
    Runs (.commandDispatch) ({ withCmd (cmd (syncHdr 31) .queued [] none) with svc := { up.svc with retired := 0x80000000 } }) ∧
    Runs (.commandDispatch) (withCmd (cmd (syncHdr 31) .queued [] none)) ∧
    Runs (.memberAnswer 31) ({ withPot 31 fun p => { p with answers := [simpleAns 9 .ok] } with hfe := (withCmd (cmd (syncHdr 31) .running [part 31] none)).hfe }) ∧
    Runs (.memberAnswer 0) ({ withPot 0 fun p => { p with answers := [simpleAns 9 .ok] } with hfe := (withCmd (cmd (syncHdr 31) .running [{ part 31 with state := .lost }] none)).hfe }) ∧
    Runs (.memberLost 5 31) (withHfe fun f => { f with losses := [(5, 31), (5, 30)], table := [cmd (syncHdr 31) .running [part 31, part 30] none] }) ∧
    Runs (.commandComplete 5) (withCmd (cmd (syncHdr 31) .running [] (some .rejected))) ∧
    Runs (.cmdTimeout 5) (withCmd (cmd (syncHdr 31) .running [part 31] none)) :=
  ⟨ran (H.1 (withSlot 4095 (held leafHdr) [4095, 1]) 4095 leafHdr [1] yes yes yes yes yes),
   ran (H.2.1 (withCmd (cmd (mkLine [(32, 0xFF)]) .queued [] none)) (cmd (mkLine [(32, 0xFF)]) .queued [] none) yes yes yes yes),
   ran (H.2.2.1 { withCmd (cmd (syncHdr 31) .queued [] none) with svc := { up.svc with retired := 0x80000000 } } (cmd (syncHdr 31) .queued [] none) yes yes yes yes yes yes),
   ran (H.2.2.2.1 (withCmd (cmd (syncHdr 31) .queued [] none)) (cmd (syncHdr 31) .queued [] none) yes yes yes yes yes yes yes),
   ran (H.2.2.2.2.1 { withPot 31 fun p => { p with answers := [simpleAns 9 .ok] } with hfe := (withCmd (cmd (syncHdr 31) .running [part 31] none)).hfe } 31 (simpleAns 9 .ok) [] yes),
   ran (H.2.2.2.2.1 { withPot 0 fun p => { p with answers := [simpleAns 9 .ok] } with hfe := (withCmd (cmd (syncHdr 31) .running [{ part 31 with state := .lost }] none)).hfe } 0 (simpleAns 9 .ok) [] yes),
   ran (H.2.2.2.2.2.1 (withHfe fun f => { f with losses := [(5, 31), (5, 30)], table := [cmd (syncHdr 31) .running [part 31, part 30] none] }) 5 31 yes),
   ran (H.2.2.2.2.2.2.1 (withCmd (cmd (syncHdr 31) .running [] (some .rejected))) 5 (cmd (syncHdr 31) .running [] (some .rejected)) .rejected yes yes yes yes yes yes),
   ran (H.2.2.2.2.2.2.2 (withCmd (cmd (syncHdr 31) .running [part 31] none)) 5 (cmd (syncHdr 31) .running [part 31] none) yes yes yes yes yes yes yes)⟩

theorem witness_PlainMemoryTakesNoCommand (H : Obligations.PlainMemoryTakesNoCommand) : Runs (.dispatchAccept 4095) ({ withSlot 4095 (held leafHdr) [4095] with hfe := { (withSlot 4095 (held leafHdr) [4095]).hfe with pimOff := true } }) :=
  ran (H { withSlot 4095 (held leafHdr) [4095] with hfe := { (withSlot 4095 (held leafHdr) [4095]).hfe with pimOff := true } } 4095 leafHdr [] yes yes yes yes)

theorem witness_LeafOpcodePlacesOperandAndPushes (H : Obligations.LeafOpcodePlacesOperandAndPushes) : Runs (.leaf 31) (inbox 31 (inCmd leafHdr)) :=
  ran (H (inbox 31 (inCmd leafHdr)) 31 (inCmd leafHdr) tookOne ⟨yes, yes⟩ yes yes yes yes yes yes)

theorem witness_LaunchAndLoadOpcodes (H : Obligations.LaunchAndLoadOpcodes) :
    Runs (.launch 31) (withInf 31 (inCmd (launchHdr 3)) loadedInf) ∧
    Runs (.launch 31) (withInf 31 (inCmd (launchHdr 4)) loadedInf) ∧
    Runs (.load 31) (withLoads (dpaCmd 3) (fullQueue.drop 1)) ∧
    Runs (.restore 31) (withLoads (dpaCmd 4) (fullQueue.drop 1)) ∧
    Runs (.load 31) (withLoads (dpaCmd 3) fullQueue) ∧
    Runs (.restore 31) (withLoads (dpaCmd 4) fullQueue) ∧
    Runs (.load 31) ownLoad :=
  ⟨ran (H.1 (withInf 31 (inCmd (launchHdr 3)) loadedInf) (taken 31 (withInf 31 (inCmd (launchHdr 3)) loadedInf)) 31 (inCmd (launchHdr 3)) ⟨3, .vxe, 0, 0x40, []⟩ yes yes yes yes yes yes yes),
   ran (H.2.1 (withInf 31 (inCmd (launchHdr 4)) loadedInf) (taken 31 (withInf 31 (inCmd (launchHdr 4)) loadedInf)) 31 (inCmd (launchHdr 4)) yes yes),
   ran ((H.2.2.1 (withLoads (dpaCmd 3) (fullQueue.drop 1)) (taken 31 (withLoads (dpaCmd 3) (fullQueue.drop 1))) 31 (dpaCmd 3) 0x10000 yes).1 yes yes),
   ran ((H.2.2.1 (withLoads (dpaCmd 4) (fullQueue.drop 1)) (taken 31 (withLoads (dpaCmd 4) (fullQueue.drop 1))) 31 (dpaCmd 4) 0x10000 yes).2.1 yes yes),
   ran ((H.2.2.1 (withLoads (dpaCmd 3) fullQueue) (taken 31 (withLoads (dpaCmd 3) fullQueue)) 31 (dpaCmd 3) 0x10000 yes).2.2.1 yes yes),
   ran ((H.2.2.1 (withLoads (dpaCmd 4) fullQueue) (taken 31 (withLoads (dpaCmd 4) fullQueue)) 31 (dpaCmd 4) 0x10000 yes).2.2.2 yes yes),
   ran (H.2.2.2 ownLoad 31 0x10000 7 [] yes yes yes yes)⟩

theorem witness_SaveAndUnloadOpcodes (H : Obligations.SaveAndUnloadOpcodes) :
    Runs (.save 31) (withInf 31 (dpaCmd 5) loadedInf) ∧
    Runs (.save 31) (withInf 31 (dpaCmd 5) Inf.reset) ∧
    Runs (.unload 31) (withInf 31 unloadCmd loadedInf) ∧
    Runs (.unload 31) (withInf 31 unloadCmd Inf.reset) :=
  ⟨ran ((H.1 (withInf 31 (dpaCmd 5) loadedInf) (taken 31 (withInf 31 (dpaCmd 5) loadedInf)) 31 (dpaCmd 5) 0x10000 yes yes).1 yes yes yes yes),
   ran ((H.1 (withInf 31 (dpaCmd 5) Inf.reset) (taken 31 (withInf 31 (dpaCmd 5) Inf.reset)) 31 (dpaCmd 5) 0x10000 yes yes).2 (.inl yes)),
   ran ((H.2 (withInf 31 unloadCmd loadedInf) (taken 31 (withInf 31 unloadCmd loadedInf)) 31 unloadCmd yes).1 yes yes yes),
   ran ((H.2 (withInf 31 unloadCmd Inf.reset) (taken 31 (withInf 31 unloadCmd Inf.reset)) 31 unloadCmd yes).2 yes)⟩

theorem witness_HostSyncAndTrayCopyOpcodes (H : Obligations.HostSyncAndTrayCopyOpcodes) :
    Runs (.hostSync 31) (inbox 31 (inCmd (syncHdr 31))) ∧
    Runs (.trayCopy 31) (inbox 31 (copyCmd 0)) ∧
    Runs (.trayCopy 31) (inbox 31 (copyCmd 1)) :=
  ⟨ran (H.1 (inbox 31 (inCmd (syncHdr 31))) 31 (inCmd (syncHdr 31)) tookOne yes yes),
   ran (H.2 (inbox 31 (copyCmd 0)) 31 (copyCmd 0) tookOne 0 (BitVec.ofNat 41 (31 * 2 ^ 36)) ⟨yes, yes⟩ yes yes yes yes yes yes yes),
   ran (H.2 (inbox 31 (copyCmd 1)) 31 (copyCmd 1) tookOne 0 (BitVec.ofNat 41 (31 * 2 ^ 36)) ⟨yes, yes⟩ yes yes yes yes yes yes yes)⟩

theorem witness_MailboxAnswers (H : Obligations.MailboxAnswers) :
    Runs (.identifyMemoryDevice 0) headUp ∧
    Runs (.cdat 0) headUp ∧
    Runs (.getSupportedLogs 0) headUp ∧
    Runs (.getLog 0) headUp ∧
    Runs (.getEventRecords 0) headUp ∧
    Runs (.clearEventRecords 0 255) headUp ∧
    Runs (.getHealthInfo 0) headUp ∧
    Runs (.getAlertConfiguration 0) headUp ∧
    Runs (.getPoisonList 0) headUp ∧
    Runs (.mailboxUnsupported 0 0xFFFF) headUp :=
  ⟨ran ((H headUp 0 yes).1),
   ran ((H headUp 0 yes).2.1),
   ran ((H headUp 0 yes).2.2.1),
   ran ((H headUp 0 yes).2.2.2.1),
   ran ((H headUp 0 yes).2.2.2.2.1),
   ran ((H headUp 0 yes).2.2.2.2.2.1 255),
   ran ((H headUp 0 yes).2.2.2.2.2.2.1),
   ran ((H headUp 0 yes).2.2.2.2.2.2.2.1),
   ran ((H headUp 0 yes).2.2.2.2.2.2.2.2.1),
   ran ((H headUp 0 yes).2.2.2.2.2.2.2.2.2 0xFFFF yes)⟩

theorem witness_SpdmAnswers (H : Obligations.SpdmAnswers) :
    Runs (.getVersion 0) headUp ∧
    Runs (.getCapabilities 0) headUp ∧
    Runs (.negotiateAlgorithms 0) headUp ∧
    Runs (.getDigests 0) headUp ∧
    Runs (.getCertificate 0 15) headUp ∧
    Runs (.challenge 0 15 0) headUp ∧
    Runs (.getMeasurements 0 13) headUp :=
  ⟨ran ((H headUp 0 yes).1),
   ran ((H headUp 0 yes).2.1),
   ran ((H headUp 0 yes).2.2.1),
   ran ((H headUp 0 yes).2.2.2.1),
   ran ((H headUp 0 yes).2.2.2.2.1 15),
   ran ((H headUp 0 yes).2.2.2.2.2.1 15 0),
   ran ((H headUp 0 yes).2.2.2.2.2.2 13)⟩

theorem witness_BlendTableCommands (H : Obligations.BlendTableCommands) :
    Runs (.commit 255) (withStage []) ∧
    Runs (.commit 0) (withStage [(0, 1)]) ∧
    Runs (.clear 255) (withStage []) :=
  ⟨ran (H.1 (withStage []) 255 yes yes),
   ran (H.1 (withStage [(0, 1)]) 0 yes yes),
   ran (H.2 (withStage []) 255 yes yes yes)⟩

theorem witness_PotMapChanges (H : Obligations.PotMapChanges) :
    Runs (.potMapWrite 0x7FF 0xFF7FFFFF) up ∧
    Runs (.potMapWrite 0x7FF 0x0000005) up ∧
    Runs (.potMapChangeApply 0x7FF) ({ up with map := ⟨[], [(0x7FF, 0x400)], []⟩ }) :=
  ⟨ran (H.1 up 0x7FF 0xFF7FFFFF yes yes yes),
   ran (H.1 up 0x7FF 5 yes yes yes),
   ran (H.2 { up with map := ⟨[], [(0x7FF, 0x400)], []⟩ } 0x7FF 0x400 yes yes yes yes)⟩

theorem witness_ScalarOperations (H : Obligations.ScalarOperations) :
    Runs (.add 31 .mxe) (seqAt .mxe (scalar 0 15 1 1 none) extremes) ∧
    Runs (.sub 31 .sfe) (seqAt .sfe (scalar 1 0 15 0 (some 0xFFFFFFFF)) id) ∧
    Runs (.shl 31 .vxe) (seqAt .vxe (scalar 2 1 1 2 none) extremes) ∧
    Runs (.shr 31 .mxe) (seqAt .mxe (scalar 3 0 1 0 (some 47)) extremes) ∧
    Runs (.sar 31 .mxe) (seqAt .mxe (scalar 4 0 1 2 none) extremes) ∧
    Runs (.min 31 .mxe) (seqAt .mxe (scalar 5 0 1 2 none) extremes) ∧
    Runs (.max 31 .mxe) (seqAt .mxe (scalar 6 0 1 2 none) extremes) ∧
    Runs (.slt 31 .mxe) (seqAt .mxe (scalar 7 0 1 2 none) extremes) ∧
    Runs (.seq 31 .mxe) (seqAt .mxe (scalar 8 0 2 0 (some 48)) extremes) ∧
    Runs (.lui 31 .mxe) (seqAt .mxe (mkWord [(0, 4), (32, 9), (36, 2), (64, 0xFFFF)]) extremes) ∧
    Runs (.li 31 .mxe) (seqAt .mxe (mkWord [(0, 4), (32, 10), (36, 2), (64, 0x80000000)]) extremes) ∧
    Runs (.rlc 31 .mxe) (seqAt .mxe (mkWord [(0, 4), (32, 12), (36, 15), (40, 3)]) fun q => { q with lc := [(3, 0xFFFFFFFF)] }) ∧
    Runs (.wlc 31 .mxe) (seqAt .mxe (mkWord [(0, 4), (32, 11), (36, 3), (40, 1)]) extremes) ∧
    Runs (.agpos 31 .mxe) (seqAt .mxe (mkWord [(0, 4), (32, 13), (36, 3), (40, 7)]) fun q => { q with streams := [(7, ⟨false, false, 0xFFFFFFFFFFFF, 1, 0, none, 1, [], false, false⟩)] }) ∧
    Runs (.add 31 .mxe) (seqAt .mxe (mkWord [(0, 4), (32, 14)]) id) :=
  ⟨ran (H.1 (seqAt .mxe (scalar 0 15 1 1 none) extremes) 31 .mxe (scalar 0 15 1 1 none) ⟨yes, yes, yes, yes, yes, yes⟩ (by unfold insideLoop; decide +kernel) yes yes),
   ran (H.2.1 (seqAt .sfe (scalar 1 0 15 0 (some 0xFFFFFFFF)) id) 31 .sfe (scalar 1 0 15 0 (some 0xFFFFFFFF)) ⟨yes, yes, yes, yes, yes, yes⟩ (by unfold insideLoop; decide +kernel) yes yes),
   ran (H.2.2.1 (seqAt .vxe (scalar 2 1 1 2 none) extremes) 31 .vxe (scalar 2 1 1 2 none) ⟨yes, yes, yes, yes, yes, yes⟩ (by unfold insideLoop; decide +kernel) yes yes),
   ran (H.2.2.2.1 (seqAt .mxe (scalar 3 0 1 0 (some 47)) extremes) 31 .mxe (scalar 3 0 1 0 (some 47)) ⟨yes, yes, yes, yes, yes, yes⟩ (by unfold insideLoop; decide +kernel) yes yes),
   ran (H.2.2.2.2.1 (seqAt .mxe (scalar 4 0 1 2 none) extremes) 31 .mxe (scalar 4 0 1 2 none) ⟨yes, yes, yes, yes, yes, yes⟩ (by unfold insideLoop; decide +kernel) yes yes),
   ran (H.2.2.2.2.2.1 (seqAt .mxe (scalar 5 0 1 2 none) extremes) 31 .mxe (scalar 5 0 1 2 none) ⟨yes, yes, yes, yes, yes, yes⟩ (by unfold insideLoop; decide +kernel) yes yes),
   ran (H.2.2.2.2.2.2.1 (seqAt .mxe (scalar 6 0 1 2 none) extremes) 31 .mxe (scalar 6 0 1 2 none) ⟨yes, yes, yes, yes, yes, yes⟩ (by unfold insideLoop; decide +kernel) yes yes),
   ran (H.2.2.2.2.2.2.2.1 (seqAt .mxe (scalar 7 0 1 2 none) extremes) 31 .mxe (scalar 7 0 1 2 none) ⟨yes, yes, yes, yes, yes, yes⟩ (by unfold insideLoop; decide +kernel) yes yes),
   ran (H.2.2.2.2.2.2.2.2.1 (seqAt .mxe (scalar 8 0 2 0 (some 48)) extremes) 31 .mxe (scalar 8 0 2 0 (some 48)) ⟨yes, yes, yes, yes, yes, yes⟩ (by unfold insideLoop; decide +kernel) yes yes),
   ran (H.2.2.2.2.2.2.2.2.2.1 (seqAt .mxe (mkWord [(0, 4), (32, 9), (36, 2), (64, 0xFFFF)]) extremes) 31 .mxe (mkWord [(0, 4), (32, 9), (36, 2), (64, 0xFFFF)]) ⟨yes, yes, yes, yes, yes, yes⟩ (by unfold insideLoop; decide +kernel) yes yes),
   ran (H.2.2.2.2.2.2.2.2.2.2.1 (seqAt .mxe (mkWord [(0, 4), (32, 10), (36, 2), (64, 0x80000000)]) extremes) 31 .mxe (mkWord [(0, 4), (32, 10), (36, 2), (64, 0x80000000)]) ⟨yes, yes, yes, yes, yes, yes⟩ (by unfold insideLoop; decide +kernel) yes yes),
   ran (H.2.2.2.2.2.2.2.2.2.2.2.1 (seqAt .mxe (mkWord [(0, 4), (32, 12), (36, 15), (40, 3)]) fun q => { q with lc := [(3, 0xFFFFFFFF)] }) 31 .mxe (mkWord [(0, 4), (32, 12), (36, 15), (40, 3)]) ⟨yes, yes, yes, yes, yes, yes⟩ (by unfold insideLoop; decide +kernel) yes yes),
   ran ((H.2.2.2.2.2.2.2.2.2.2.2.2.1 (seqAt .mxe (mkWord [(0, 4), (32, 11), (36, 3), (40, 1)]) extremes) 31 .mxe (mkWord [(0, 4), (32, 11), (36, 3), (40, 1)]) ⟨yes, yes, yes, yes, yes, yes⟩ (by unfold insideLoop; decide +kernel) yes).1 yes),
   ran ((H.2.2.2.2.2.2.2.2.2.2.2.2.1 (seqAt .mxe (mkWord [(0, 4), (32, 13), (36, 3), (40, 7)]) fun q => { q with streams := [(7, ⟨false, false, 0xFFFFFFFFFFFF, 1, 0, none, 1, [], false, false⟩)] }) 31 .mxe (mkWord [(0, 4), (32, 13), (36, 3), (40, 7)]) ⟨yes, yes, yes, yes, yes, yes⟩ (by unfold insideLoop; decide +kernel) yes).2 ⟨false, false, 0xFFFFFFFFFFFF, 1, 0, none, 1, [], false, false⟩ yes yes),
   ran (H.2.2.2.2.2.2.2.2.2.2.2.2.2 (seqAt .mxe (mkWord [(0, 4), (32, 14)]) id) 31 .mxe (mkWord [(0, 4), (32, 14)]) yes yes yes yes yes yes)⟩

theorem witness_ScalarResultsNotGiven (H : Obligations.ScalarResultsNotGiven) : Runs (.agpos 31 .vxe) (seqAt .vxe (mkWord [(0, 4), (32, 13), (36, 3), (40, 7)]) id) :=
  ran (H (seqAt .vxe (mkWord [(0, 4), (32, 13), (36, 3), (40, 7)]) id) 31 .vxe (mkWord [(0, 4), (32, 13), (36, 3), (40, 7)]) ⟨yes, yes, yes, yes, yes, yes⟩ (by unfold insideLoop; decide +kernel) yes yes yes)

theorem witness_ControlFlowWords (H : Obligations.ControlFlowWords) :
    Runs (.nop 31 .mxe) (seqAt .mxe (mkWord []) id) ∧
    Runs (.nop 31 .mxe) (seqAt .mxe (mkWord []) fun q => { q with loops := [lastOfBody] }) ∧
    Runs (.loop 31 .mxe) (seqAt .mxe (mkWord [(0, 2), (35, 0xFFF), (48, 0xFFFF), (64, 15), (68, 1), (72, 0xFFFFFF)]) id) ∧
    Runs (.loop 31 .mxe) (seqAt .mxe (mkWord [(0, 2), (34, 1), (35, 1)]) id) ∧
    Runs (.loop 31 .mxe) (seqAt .mxe (mkWord [(0, 2), (32, 3), (35, 1), (48, 1)]) id) ∧
    Runs (.branch 31 .mxe) (seqAt .mxe (mkWord [(0, 3), (32, 0), (64, 0xFFFE)]) fun q => { q with loops := [lastOfBody] }) ∧
    Runs (.branch 31 .mxe) (seqAt .mxe (mkWord [(0, 3), (32, 3), (37, 1), (46, 1), (64, 3)]) extremes) ∧
    Runs (.branch 31 .mxe) (seqAt .mxe (mkWord [(0, 3), (32, 0), (64, 1)]) fun q => { q with loops := [lastOfBody] }) ∧
    (branchTaken 3 0x800000000000 0 = true) :=
  ⟨ran (H.1 (seqAt .mxe (mkWord []) id) 31 .mxe (mkWord []) ⟨yes, yes, yes, yes, yes, yes⟩ yes),
   ran (H.1 (seqAt .mxe (mkWord []) fun q => { q with loops := [lastOfBody] }) 31 .mxe (mkWord []) ⟨yes, yes, yes, yes, yes, yes⟩ yes),
   ran ((H.2.1 (seqAt .mxe (mkWord [(0, 2), (35, 0xFFF), (48, 0xFFFF), (64, 15), (68, 1), (72, 0xFFFFFF)]) id) 31 .mxe (mkWord [(0, 2), (35, 0xFFF), (48, 0xFFFF), (64, 15), (68, 1), (72, 0xFFFFFF)]) ⟨yes, yes, yes, yes, yes, yes⟩ yes).1 yes yes),
   ran ((H.2.1 (seqAt .mxe (mkWord [(0, 2), (34, 1), (35, 1)]) id) 31 .mxe (mkWord [(0, 2), (34, 1), (35, 1)]) ⟨yes, yes, yes, yes, yes, yes⟩ yes).2.1 yes yes yes),
   ran ((H.2.1 (seqAt .mxe (mkWord [(0, 2), (32, 3), (35, 1), (48, 1)]) id) 31 .mxe (mkWord [(0, 2), (32, 3), (35, 1), (48, 1)]) ⟨yes, yes, yes, yes, yes, yes⟩ yes).2.2 yes),
   ran (((H.2.2.1 (seqAt .mxe (mkWord [(0, 3), (32, 0), (64, 0xFFFE)]) fun q => { q with loops := [lastOfBody] }) 31 .mxe (mkWord [(0, 3), (32, 0), (64, 0xFFFE)]) ⟨yes, yes, yes, yes, yes, yes⟩ yes yes).1 yes).1 yes),
   ran (((H.2.2.1 (seqAt .mxe (mkWord [(0, 3), (32, 3), (37, 1), (46, 1), (64, 3)]) extremes) 31 .mxe (mkWord [(0, 3), (32, 3), (37, 1), (46, 1), (64, 3)]) ⟨yes, yes, yes, yes, yes, yes⟩ yes yes).1 yes).2 yes (by unfold insideLoop; decide +kernel)),
   ran ((H.2.2.1 (seqAt .mxe (mkWord [(0, 3), (32, 0), (64, 1)]) fun q => { q with loops := [lastOfBody] }) 31 .mxe (mkWord [(0, 3), (32, 0), (64, 1)]) ⟨yes, yes, yes, yes, yes, yes⟩ yes yes).2 ⟨lastOfBody, yes, yes⟩),
   (((H.2.2.2 0x800000000000 0).2.2.2.1).2 yes)⟩

theorem witness_EngineCommandCourse (H : Obligations.EngineCommandCourse) :
    Runs (.engineCommandPush 31 .sfe engCmd) (withPot 31 fun p => setSeq p .sfe { Seqr.reset with cmdq := List.replicate 383 0 }) ∧
    Runs (.engineCommandPush 31 .sfe engCmd) (withPot 31 fun p => setSeq p .sfe { Seqr.reset with cmdq := List.replicate 384 0 }) ∧
    Runs (.engineCommandPush 31 .mxe engCmd) ({ up with fuses := { up.fuses with grade := .m } }) ∧
    Runs (.engineCommandStart 31 .vxe) (queued .vxe engCmd) ∧
    Runs (.engineCommandStart 31 .vxe) (queued .vxe (engCmd + 0xFFF0000)) ∧
    Runs (.icacheFill 31 .sfe) missing ∧
    Runs (.endWord 31 .sfe) (seqAt .sfe (mkWord [(0, 7)]) id) ∧
    Runs (.engineCommandComplete 31 .mxe) (seqAt .mxe 0 fun q => { q with ended := true }) ∧
    Runs (.halt 31 .mxe true) up ∧
    Runs (.inval 31 .mxe) (seqAt .mxe 0 id) ∧
    Runs (.inval 31 .mxe) up ∧
    Runs (.queueElementAvailable 31 47) (withPot 31 fun p => setQueue p 47 { Queue.reset with pushed := 1 }) :=
  ⟨ran (H.1 (withPot 31 fun p => setSeq p .sfe { Seqr.reset with cmdq := List.replicate 383 0 }) 31 .sfe engCmd yes yes yes yes yes),
   ran ((H.2.1 (withPot 31 fun p => setSeq p .sfe { Seqr.reset with cmdq := List.replicate 384 0 }) 31 .sfe engCmd yes yes yes).1 yes yes),
   ran ((H.2.1 { up with fuses := { up.fuses with grade := .m } } 31 .mxe engCmd yes yes yes).2 yes),
   ran ((H.2.2.1 (queued .vxe engCmd) 31 .vxe engCmd [] yes yes yes yes yes yes).1 yes yes),
   ran ((H.2.2.1 (queued .vxe (engCmd + 0xFFF0000)) 31 .vxe (engCmd + 0xFFF0000) [] yes yes yes yes yes yes).2 yes),
   ran (H.2.2.2.1 missing 31 .sfe yes yes yes yes),
   ran (H.2.2.2.2.1 (seqAt .sfe (mkWord [(0, 7)]) id) 31 .sfe (mkWord [(0, 7)]) ⟨yes, yes, yes, yes, yes, yes⟩ yes yes),
   ran (H.2.2.2.2.2.1 (seqAt .mxe 0 fun q => { q with ended := true }) 31 .mxe yes yes yes),
   ran ((H.2.2.2.2.2.2.1 up 31 .mxe true yes).1),
   ran ((H.2.2.2.2.2.2.1 (seqAt .mxe 0 id) 31 .mxe true yes).2.1 yes),
   ran ((H.2.2.2.2.2.2.1 up 31 .mxe true yes).2.2 yes),
   ran (H.2.2.2.2.2.2.2 (withPot 31 fun p => setQueue p 47 { Queue.reset with pushed := 1 }) 31 47 yes)⟩

theorem witness_StreamAndSyncWords (H : Obligations.StreamAndSyncWords) :
    Runs (.stream 31 .mxe) strAt ∧
    Runs (.stream 31 .mxe) strBusy ∧
    Runs (.streamBurst 31 .mxe 7) strFlow ∧
    Runs (.sync 31 .vxe) (readyWord (seqAt .vxe syncStore extremes)) ∧
    Runs (.sync 31 .vxe) (readyWord (seqAt .vxe syncWait30 extremes)) :=
  ⟨ran ((H.1 strAt 31 .mxe strWord ⟨yes, yes, yes, yes, yes, yes⟩ yes (by unfold insideLoop; decide +kernel)).1 yes yes yes yes),
   ran ((H.1 strBusy 31 .mxe strWord ⟨yes, yes, yes, yes, yes, yes⟩ yes (by unfold insideLoop; decide +kernel)).2 yes),
   ran (H.2.1 strFlow 31 .mxe 7 ⟨false, false, 0x1000, strDesc, 47, none, 0, [], false, false⟩ 0x1000 yes yes yes yes yes yes yes yes yes yes yes yes),
   ran ((H.2.2 (readyWord (seqAt .vxe syncStore extremes)) 31 .vxe syncStore ⟨yes, yes, yes, yes, yes, yes⟩ yes yes (by unfold insideLoop; decide +kernel) yes ⟨yes, yes, yes, yes⟩ ⟨yes, yes, yes⟩ yes).1 yes),
   ran ((H.2.2 (readyWord (seqAt .vxe syncWait30 extremes)) 31 .vxe syncWait30 ⟨yes, yes, yes, yes, yes, yes⟩ yes yes (by unfold insideLoop; decide +kernel) yes ⟨yes, yes, yes, yes⟩ ⟨yes, yes, yes⟩ yes).2 yes yes)⟩

theorem witness_SequencerFaultsStopTheCommand (H : Obligations.SequencerFaultsStopTheCommand) :
    Runs (.nop 31 .mxe) badLine ∧
    Runs (.nop 31 .mxe) (seqAt .mxe (mkWord [(0, 15)]) id) ∧
    Runs (.seqStallTimeout 31 .mxe) (seqAt .mxe 0 fun q => { q with heldBack := true }) ∧
    Runs (.seqStallTimeout 31 .sfe) missing ∧
    Runs (.infusionFail 4095) failing :=
  ⟨ran ((H.1 badLine 31 .mxe (mkWord []) yes yes yes).1 yes),
   ran ((H.1 (seqAt .mxe (mkWord [(0, 15)]) id) 31 .mxe (mkWord [(0, 15)]) yes yes yes).2 yes yes),
   ran (H.2.1 (seqAt .mxe 0 fun q => { q with heldBack := true }) 31 .mxe yes (.inl yes) yes),
   ran (H.2.1 missing 31 .sfe yes (.inr yes) yes),
   ran (H.2.2 failing 4095 yes yes)⟩

theorem witness_MatrixWords (H : Obligations.MatrixWords) :
    Runs (.mma 31) (mmaAt 0 63 1) ∧
    Runs (.mma24 31) (mmaAt 1 2 0) ∧
    Runs (.mmabs 31) (mmaAt 2 2 0) ∧
    Runs (.zero 31) (engAt .mxe zeroWord [] [] id) ∧
    Runs (.flush 31 false) (flushAt (List.replicate 63 (tile .ready))) ∧
    Runs (.flush 31 false) (flushAt (List.replicate 64 (tile .ready))) ∧
    Runs (.ftqSlotReady 31) (flushAt [tile .ready, tile .filling, tile .filling]) ∧
    Runs (.flush 31 true) (flushAt (List.replicate 63 (tile .ready))) ∧
    (exec (.flush 31 true) unchecked = exec (.flush 31 false) unchecked) ∧
    ((mxUpdate true true 0x7FFFFFFF (.fin false 1 0)).1.toInt = 2 ^ 31 - 1) :=
  ⟨ran (H.1 (mmaAt 0 63 1) 31 (mmaWord 0 63 1) 0 yes ⟨⟨yes, yes, yes, yes, yes, yes⟩, yes, yes, yes, yes, yes, yes, yes⟩ yes),
   ran (H.1 (mmaAt 1 2 0) 31 (mmaWord 1 2 0) 1 yes ⟨⟨yes, yes, yes, yes, yes, yes⟩, yes, yes, yes, yes, yes, yes, yes⟩ yes),
   ran (H.1 (mmaAt 2 2 0) 31 (mmaWord 2 2 0) 2 yes ⟨⟨yes, yes, yes, yes, yes, yes⟩, yes, yes, yes, yes, yes, yes, yes⟩ yes),
   ran (H.2.2.1 (engAt .mxe zeroWord [] [] id) 31 zeroWord ⟨yes, yes, yes, yes, yes, yes⟩ yes yes yes yes),
   ran ((H.2.2.2.1 (flushAt (List.replicate 63 (tile .ready))) 31 flushWord ⟨yes, yes, yes, yes, yes, yes⟩ yes yes yes yes yes yes).1 yes),
   ran ((H.2.2.2.1 (flushAt (List.replicate 64 (tile .ready))) 31 flushWord ⟨yes, yes, yes, yes, yes, yes⟩ yes yes yes yes yes yes).2 yes),
   ran (H.2.2.2.2.1 (flushAt [tile .ready, tile .filling, tile .filling]) 31 [tile .ready] [tile .filling] (tile .filling) yes yes yes),
   ran ((H.2.2.2.2.2 (flushAt (List.replicate 63 (tile .ready))) 31 flushWord ⟨yes, yes, yes, yes, yes, yes⟩ yes yes yes yes yes yes yes).1 yes),
   ((H.2.2.2.2.2 unchecked 31 flushWord ⟨yes, yes, yes, yes, yes, yes⟩ yes yes yes yes yes yes yes).2 yes),
   ((H.2.1 0x7FFFFFFF false 1).trans yes)⟩

theorem witness_VectorWords (H : Obligations.VectorWords) :
    Runs (.recipe 31) (vxAt 0 (vxWord 0 1 1 63 0 4 0)) ∧
    Runs (.reduce 31) (vxAt 0 (vxWord 1 2 63 63 129 4 0)) ∧
    Runs (.reduce 31) (vxAt 2 (vxWord 1 1 63 63 128 1 0)) ∧
    Runs (.softmax 31) (vxAt 0 (vxWord 2 1 1 63 128 4 0)) ∧
    Runs (.gate 31) (vxAt 0 (vxWord 3 1 63 49 128 0 8)) :=
  ⟨ran (H.1 (vxAt 0 (vxWord 0 1 1 63 0 4 0)) 31 (vxWord 0 1 1 63 0 4 0) (gotIn (vxGot (vxAt 0 (vxWord 0 1 1 63 0 4 0)) (vxWord 0 1 1 63 0 4 0))) ⟨⟨yes, yes, yes, yes, yes, yes⟩, yes, yes, yes, yes, yes, yes, yes, yes, yes, yes, yes⟩ ⟨gotState up (vxGot (vxAt 0 (vxWord 0 1 1 63 0 4 0)) (vxWord 0 1 1 63 0 4 0)), yes⟩),
   ran (H.2.1 (vxAt 0 (vxWord 1 2 63 63 129 4 0)) 31 (vxWord 1 2 63 63 129 4 0) (gotIn (vxGot (vxAt 0 (vxWord 1 2 63 63 129 4 0)) (vxWord 1 2 63 63 129 4 0))) 1 yes yes ⟨⟨yes, yes, yes, yes, yes, yes⟩, yes, yes, yes, yes, yes, yes, yes, yes, yes, yes, yes⟩ ⟨gotState up (vxGot (vxAt 0 (vxWord 1 2 63 63 129 4 0)) (vxWord 1 2 63 63 129 4 0)), yes⟩ yes),
   ran ((H.2.2 (vxAt 2 (vxWord 1 1 63 63 128 1 0)) 31 (vxWord 1 1 63 63 128 1 0) (gotIn (vxGot (vxAt 2 (vxWord 1 1 63 63 128 1 0)) (vxWord 1 1 63 63 128 1 0))) yes ⟨gotState up (vxGot (vxAt 2 (vxWord 1 1 63 63 128 1 0)) (vxWord 1 1 63 63 128 1 0)), yes⟩).1 ⟨⟨yes, yes, yes, yes, yes, yes⟩, yes, yes, yes, yes, yes, yes, yes, yes, yes, yes, yes⟩),
   ran ((H.2.2 (vxAt 0 (vxWord 2 1 1 63 128 4 0)) 31 (vxWord 2 1 1 63 128 4 0) (gotIn (vxGot (vxAt 0 (vxWord 2 1 1 63 128 4 0)) (vxWord 2 1 1 63 128 4 0))) yes ⟨gotState up (vxGot (vxAt 0 (vxWord 2 1 1 63 128 4 0)) (vxWord 2 1 1 63 128 4 0)), yes⟩).2.1 ⟨⟨yes, yes, yes, yes, yes, yes⟩, yes, yes, yes, yes, yes, yes, yes, yes, yes, yes, yes⟩),
   ran ((H.2.2 (vxAt 0 (vxWord 3 1 63 49 128 0 8)) 31 (vxWord 3 1 63 49 128 0 8) (gotIn (vxGot (vxAt 0 (vxWord 3 1 63 49 128 0 8)) (vxWord 3 1 63 49 128 0 8))) yes ⟨gotState up (vxGot (vxAt 0 (vxWord 3 1 63 49 128 0 8)) (vxWord 3 1 63 49 128 0 8)), yes⟩).2.2 ⟨⟨yes, yes, yes, yes, yes, yes⟩, yes, yes, yes, yes, yes, yes, yes, yes, yes, yes, yes⟩ yes)⟩

theorem witness_SummaryWordsAndRecipes (H : Obligations.SummaryWordsAndRecipes) :
    Runs (.summaryWordPush 31) (sumAt 4) ∧
    Runs (.summaryWordPush 31) (sumAt 1) ∧
    Runs (.vxeSumqPop (.brewer 31 7) 31) (brewed [sumWord]) ∧
    Runs (.vxeSumqPop (.brewer 31 7) 31) (brewed []) ∧
    Runs (.recipeWrite (.brewer 31 0) 31 255 (1 :: List.replicate 64 7)) up ∧
    Runs (.recipeWrite (.brewer 31 0) 31 255 (1 :: List.replicate 64 7)) (seqAt .vxe 0 id) :=
  ⟨ran (H.1 (sumAt 4) 31 ⟨4, sumWord⟩ [⟨1, sumWord⟩] yes yes),
   ran (H.1 (sumAt 1) 31 ⟨1, sumWord⟩ [⟨1, sumWord⟩] yes yes),
   ran ((H.2.1 (brewed [sumWord]) (.brewer 31 7) 31 yes yes).1 sumWord [] yes yes),
   ran ((H.2.1 (brewed []) (.brewer 31 7) 31 yes yes).2 yes),
   ran ((H.2.2 up (.brewer 31 0) 31 255 1 (List.replicate 64 7) yes yes yes).1 yes),
   ran ((H.2.2 (seqAt .vxe 0 id) (.brewer 31 0) 31 255 1 (List.replicate 64 7) yes yes yes).2 yes)⟩

theorem witness_SiftWords (H : Obligations.SiftWords) :
    Runs (.gatherCoo 31) (sfAtWord cooWord indexNone id) ∧
    Runs (.gatherCoo 31) (sfAtWord cooWord index3 id) ∧
    Runs (.gatherCsr 31) (sfAtWord csrWord index3 id) ∧
    Runs (.gatherCsr 31) (sfAtWord csrWord indexNone id) ∧
    Runs (.scatter 31) (sfAtWord scatterWord indexNone id) ∧
    Runs (.scatter 31) (sfAtWord scatterWord index3 id) ∧
    Runs (.dispatch 31) (dispAt []) ∧
    Runs (.combine 31) (combAt 0) ∧
    Runs (.combine 31) (combAt 8) :=
  ⟨ran ((H.1 (sfAtWord cooWord indexNone id) 31 cooWord ⟨⟨yes, yes, yes, yes, yes, yes⟩, yes, yes, yes, yes⟩ yes yes yes yes yes yes yes).1 yes yes),
   ran ((H.1 (sfAtWord cooWord index3 id) 31 cooWord ⟨⟨yes, yes, yes, yes, yes, yes⟩, yes, yes, yes, yes⟩ yes yes yes yes yes yes yes).2 (31 * 2 ^ 27 + 0x80C0) yes yes yes yes),
   ran (H.2.1 (sfAtWord csrWord index3 id) 31 csrWord (bagOf csrWord (sfAtWord csrWord index3 id)) ⟨⟨yes, yes, yes, yes, yes, yes⟩, yes, yes, yes, yes⟩ yes yes yes yes yes yes yes),
   ran (H.2.1 (sfAtWord csrWord indexNone id) 31 csrWord (bagOf csrWord (sfAtWord csrWord indexNone id)) ⟨⟨yes, yes, yes, yes, yes, yes⟩, yes, yes, yes, yes⟩ yes yes yes yes yes yes yes),
   ran ((H.2.2.1 (sfAtWord scatterWord indexNone id) 31 scatterWord ⟨yes, yes⟩ ⟨⟨yes, yes, yes, yes, yes, yes⟩, yes, yes, yes, yes⟩ yes yes yes yes yes yes yes).1 yes yes),
   ran ((H.2.2.1 (sfAtWord scatterWord index3 id) 31 scatterWord ⟨yes, yes⟩ ⟨⟨yes, yes, yes, yes, yes, yes⟩, yes, yes, yes, yes⟩ yes yes yes yes yes yes yes).2 (31 * 2 ^ 27 + 0x80C0) yes yes yes yes),
   ran (H.2.2.2.1 (dispAt []) 31 dispWord [(dispEnt, false)] [(dispEnt, false)] ⟨yes, yes⟩ ⟨⟨yes, yes, yes, yes, yes, yes⟩, yes, yes, yes, yes⟩ yes yes yes yes yes),
   ran ((H.2.2.2.2 (combAt 0) 31 combWord ⟨yes, yes⟩ ⟨⟨yes, yes, yes, yes, yes, yes⟩, yes, yes, yes, yes⟩ yes yes yes yes yes yes yes).1 yes),
   ran ((H.2.2.2.2 (combAt 8) 31 combWord ⟨yes, yes⟩ ⟨⟨yes, yes, yes, yes, yes, yes⟩, yes, yes, yes, yes⟩ yes yes yes yes yes yes yes).2 (31 * 2 ^ 27 + 0x80C0) yes yes yes)⟩

theorem witness_SiftRowsAndBags (H : Obligations.SiftRowsAndBags) :
    Runs (.sfeRowReturn 31 2) (ticketsAt [ticket 1 false, ticket 2 false, ticket 3 true]) ∧
    Runs (.sfeRowReturn 31 2) (ticketsAt [ticket 2 false, ticket 3 true, ticket 4 false]) ∧
    Runs (.bagsumLu 31) oneBag ∧
    Runs (.bagLeafFold 31) bagsAt :=
  ⟨ran ((H.1 (ticketsAt [ticket 1 false, ticket 2 false, ticket 3 true]) 31 [ticket 1 false] [ticket 3 true] (ticket 2 false) yes yes yes yes yes yes (noneNo)).1 yes yes),
   ran ((H.1 (ticketsAt [ticket 2 false, ticket 3 true, ticket 4 false]) 31 [] [ticket 3 true, ticket 4 false] (ticket 2 false) yes yes yes yes yes yes (noneNo)).2 yes),
   ran (H.2.1 oneBag 31 bagsumWord (bagOf bagsumWord oneBag) ⟨yes, yes⟩ ⟨⟨yes, yes, yes, yes, yes, yes⟩, yes, yes, yes, yes⟩ yes yes yes yes yes yes yes yes yes yes yes yes yes yes yes yes),
   ran (H.2.2 bagsAt 31 [⟨4, [0], 1, [], none, false⟩] [] ⟨5, [1], 0, [], none, false⟩ yes yes yes yes yes (noneNo))⟩

theorem witness_LeafLocalOperations (H : Obligations.LeafLocalOperations) :
    Runs (.luNop 31 1053) (luAt 0 id) ∧
    Runs (.movl 31 1053) (luAt uMovl loaded) ∧
    Runs (.zl 31 1053) (luAt uZl loaded) ∧
    Runs (.ldq 31 1053) (luAt uLdq loaded) ∧
    Runs (.addl 31 1053 false) (luAt uAddl loaded) ∧
    Runs (.mull 31 1053 false) (luAt uMull loaded) ∧
    Runs (.macl 31 1053 false) (luAt uMacl loaded) ∧
    Runs (.za 31 1053) (luAt uZa loaded) ∧
    Runs (.tree 31 1053) (luAt uTree loaded) ∧
    Runs (.tree 31 1053) (luAt uTree id) ∧
    Runs (.tkins 31 1053) (luAt uTkins loaded) ∧
    Runs (.tkins 31 1053) (luAt uTkins fun l => { l with sc1 := ⟨0x7FC00000, 0x77, true, true⟩ }) ∧
    Runs (.tkins 31 1053) (luAt uTkins id) ∧
    Runs (.nxi 31 1053) (luAt uNxi fun l => { l with icnt := 4 }) ∧
    Runs (.nxi 31 1053) (luAt uNxi fun l => { l with icnt := 512 }) ∧
    Runs (.nxr 31 1053) (luAt uNxr fun l => { l with rowr := 32767 }) ∧
    Runs (.nxr 31 1053) (luAt uNxr fun l => { l with rowr := 32766 }) ∧
    Runs (.setlc 31 1053) (luAt uSetlc id) ∧
    Runs (.cb 31 1053) (luAt uCb fun l => { l with cbase := 2 }) ∧
    Runs (.setap 31 1053) (luAt uSetap fun l => { l with auxr := 0xFFFF }) ∧
    Runs (.put 31 1053) (luAt uPut loaded) ∧
    Runs (.put 31 1053) (luRed 1 (uPutK 0) loaded) ∧
    Runs (.put 31 1053) (luRed 3 (uPutK 1) loaded) ∧
    Runs (.put 31 1053) (luRed 4 (uPutK 2) loaded) ∧
    Runs (.put 31 1053) (luRed 5 (uPutK 3) loaded) ∧
    Runs (.luNop 31 1053) (luAt uEnd id) ∧
    Runs (.addl 31 1053 true) (luAt uAddl loaded) ∧
    Runs (.mull 31 1053 true) (luAt uMull loaded) ∧
    Runs (.macl 31 1053 true) (luAt uMacl loaded) :=
  ⟨ran (H.1 (luAt 0 id) 31 1053 0 (leafRaw 2 []) ⟨⟨yes, yes, yes, yes⟩, yes, yes, yes, yes, yes, yes, yes, yes⟩ yes yes),
   ran (H.2.1 (luAt uMovl loaded) 31 1053 uMovl (leafRaw 2 []) ⟨⟨yes, yes, yes, yes⟩, yes, yes, yes, yes, yes, yes, yes, yes⟩ yes yes),
   ran (H.2.2.1 (luAt uZl loaded) 31 1053 uZl (leafRaw 2 []) ⟨⟨yes, yes, yes, yes⟩, yes, yes, yes, yes, yes, yes, yes, yes⟩ yes yes),
   ran (H.2.2.2.1 (luAt uLdq loaded) 31 1053 uLdq (leafRaw 2 []) ⟨⟨yes, yes, yes, yes⟩, yes, yes, yes, yes, yes, yes, yes, yes⟩ yes yes),
   ran (H.2.2.2.2.1.1 (luAt uAddl loaded) 31 1053 uAddl (leafRaw 2 []) ⟨⟨yes, yes, yes, yes⟩, yes, yes, yes, yes, yes, yes, yes, yes⟩ yes yes),
   ran (H.2.2.2.2.1.2 (luAt uMull loaded) 31 1053 uMull (leafRaw 2 []) ⟨⟨yes, yes, yes, yes⟩, yes, yes, yes, yes, yes, yes, yes, yes⟩ yes yes),
   ran (H.2.2.2.2.2.1 (luAt uMacl loaded) 31 1053 uMacl (leafRaw 2 []) ⟨⟨yes, yes, yes, yes⟩, yes, yes, yes, yes, yes, yes, yes, yes⟩ yes yes),
   ran (H.2.2.2.2.2.2.1 (luAt uZa loaded) 31 1053 uZa (leafRaw 2 []) ⟨⟨yes, yes, yes, yes⟩, yes, yes, yes, yes, yes, yes, yes, yes⟩ yes yes),
   ran (H.2.2.2.2.2.2.2.1.1 (luAt uTree loaded) 31 1053 uTree (leafRaw 2 []) ⟨⟨yes, yes, yes, yes⟩, yes, yes, yes, yes, yes, yes, yes, yes⟩ yes yes),
   ran (H.2.2.2.2.2.2.2.1.2 (luAt uTree id) 31 1053 uTree (leafRaw 2 []) ⟨⟨yes, yes, yes, yes⟩, yes, yes, yes, yes, yes, yes, yes, yes⟩ yes yes),
   ran (H.2.2.2.2.2.2.2.2.1.1 (luAt uTkins loaded) 31 1053 uTkins (leafRaw 2 []) ⟨⟨yes, yes, yes, yes⟩, yes, yes, yes, yes, yes, yes, yes, yes⟩ yes yes),
   ran (H.2.2.2.2.2.2.2.2.1.2.1 (luAt uTkins fun l => { l with sc1 := ⟨0x7FC00000, 0x77, true, true⟩ }) 31 1053 uTkins (leafRaw 2 []) ⟨⟨yes, yes, yes, yes⟩, yes, yes, yes, yes, yes, yes, yes, yes⟩ yes yes),
   ran (H.2.2.2.2.2.2.2.2.1.2.2 (luAt uTkins id) 31 1053 uTkins (leafRaw 2 []) ⟨⟨yes, yes, yes, yes⟩, yes, yes, yes, yes, yes, yes, yes, yes⟩ yes yes),
   ran (H.2.2.2.2.2.2.2.2.2.1 (luAt uNxi fun l => { l with icnt := 4 }) 31 1053 uNxi (leafRaw 2 []) 4 0x0403020181FF0003 ⟨⟨yes, yes, yes, yes⟩, yes, yes, yes, yes, yes, yes, yes, yes⟩ yes yes),
   ran (H.2.2.2.2.2.2.2.2.2.2.1 (luAt uNxi fun l => { l with icnt := 512 }) 31 1053 uNxi (leafRaw 2 []) ⟨⟨yes, yes, yes, yes⟩, yes, yes, yes, yes, yes, yes, yes, yes⟩ yes yes),
   ran (H.2.2.2.2.2.2.2.2.2.2.2.1 (luAt uNxr fun l => { l with rowr := 32767 }) 31 1053 uNxr (leafRaw 2 []) ⟨⟨yes, yes, yes, yes⟩, yes, yes, yes, yes, yes, yes, yes, yes⟩ yes),
   ran (H.2.2.2.2.2.2.2.2.2.2.2.1 (luAt uNxr fun l => { l with rowr := 32766 }) 31 1053 uNxr (leafRaw 2 []) ⟨⟨yes, yes, yes, yes⟩, yes, yes, yes, yes, yes, yes, yes, yes⟩ yes),
   ran (H.2.2.2.2.2.2.2.2.2.2.2.2.1 (luAt uSetlc id) 31 1053 uSetlc (leafRaw 2 []) ⟨⟨yes, yes, yes, yes⟩, yes, yes, yes, yes, yes, yes, yes, yes⟩ yes yes),
   ran (H.2.2.2.2.2.2.2.2.2.2.2.2.2.1 (luAt uCb fun l => { l with cbase := 2 }) 31 1053 uCb (leafRaw 2 []) ⟨⟨yes, yes, yes, yes⟩, yes, yes, yes, yes, yes, yes, yes, yes⟩ yes yes),
   ran (H.2.2.2.2.2.2.2.2.2.2.2.2.2.2.1 (luAt uSetap fun l => { l with auxr := 0xFFFF }) 31 1053 uSetap (leafRaw 2 []) ⟨⟨yes, yes, yes, yes⟩, yes, yes, yes, yes, yes, yes, yes, yes⟩ yes yes),
   ran (H.2.2.2.2.2.2.2.2.2.2.2.2.2.2.2.1.1 (luAt uPut loaded) 31 1053 uPut (leafRaw 2 []) ⟨⟨yes, yes, yes, yes⟩, yes, yes, yes, yes, yes, yes, yes, yes⟩ yes yes),
   ran ((H.2.2.2.2.2.2.2.2.2.2.2.2.2.2.2.1.2 (luRed 1 (uPutK 0) loaded) 31 1053 (uPutK 0) (leafRaw 1 []) ⟨⟨yes, yes, yes, yes⟩, yes, yes, yes, yes, yes, yes, yes, yes⟩ yes yes).1 yes yes yes),
   ran ((H.2.2.2.2.2.2.2.2.2.2.2.2.2.2.2.1.2 (luRed 3 (uPutK 1) loaded) 31 1053 (uPutK 1) (leafRaw 3 []) ⟨⟨yes, yes, yes, yes⟩, yes, yes, yes, yes, yes, yes, yes, yes⟩ yes yes).2.1 yes yes yes),
   ran ((H.2.2.2.2.2.2.2.2.2.2.2.2.2.2.2.1.2 (luRed 4 (uPutK 2) loaded) 31 1053 (uPutK 2) (leafRaw 4 []) ⟨⟨yes, yes, yes, yes⟩, yes, yes, yes, yes, yes, yes, yes, yes⟩ yes yes).2.2.1 yes yes yes),
   ran ((H.2.2.2.2.2.2.2.2.2.2.2.2.2.2.2.1.2 (luRed 5 (uPutK 3) loaded) 31 1053 (uPutK 3) (leafRaw 5 []) ⟨⟨yes, yes, yes, yes⟩, yes, yes, yes, yes, yes, yes, yes, yes⟩ yes yes).2.2.2 yes yes),
   ran (H.2.2.2.2.2.2.2.2.2.2.2.2.2.2.2.2.1 (luAt uEnd id) 31 1053 uEnd (leafRaw 2 []) ⟨⟨yes, yes, yes, yes⟩, yes, yes, yes, yes, yes, yes, yes, yes⟩ yes yes yes (allSome)),
   ran (((H.2.2.2.2.2.2.2.2.2.2.2.2.2.2.2.2.2 (luAt uAddl loaded) 31 1053 uAddl (leafRaw 2 []) yes yes).1 yes yes).1 ⟨⟨yes, yes, yes, yes⟩, yes, yes, yes, yes, yes, yes, yes, yes⟩),
   ran (((H.2.2.2.2.2.2.2.2.2.2.2.2.2.2.2.2.2 (luAt uMull loaded) 31 1053 uMull (leafRaw 2 []) yes yes).1 yes yes).2 ⟨⟨yes, yes, yes, yes⟩, yes, yes, yes, yes, yes, yes, yes, yes⟩),
   ran ((H.2.2.2.2.2.2.2.2.2.2.2.2.2.2.2.2.2 (luAt uMacl loaded) 31 1053 uMacl (leafRaw 2 []) yes yes).2 yes yes ⟨⟨yes, yes, yes, yes⟩, yes, yes, yes, yes, yes, yes, yes, yes⟩)⟩

theorem witness_LeafColumnOperations (H : Obligations.LeafColumnOperations) :
    Runs (.rdl 31 1053) (luAt (uCol_ 1 []) id) ∧
    Runs (.rdl 31 1053) (luAt (uCol_ 1 [(50, 1)]) id) ∧
    Runs (.rdl 31 1053) (luAt (uCol_ 1 [(50, 1)]) seen) ∧
    Runs (.maco 31 1053) (luAt (mkU [(0, 4), (13, 1), (20, 0), (28, 1), (29, 1)]) openAt) ∧
    Runs (.wrl 31 1053) (luAt (ptrU 2) fun l => { l with ap := ⟨32767, 63, false, 5, 0⟩ }) ∧
    Runs (.rdap 31 1053) (luAt (uCol_ 9 []) id) ∧
    Runs (.stap 31 1053) (luAt (uCol_ 10 []) id) ∧
    Runs (.luColumnAccess 31 1053 false) (withAccess 2) ∧
    Runs (.luColumnAccess 31 1053 false) (withAcc scalesAcc) ∧
    Runs (.luColumnAccess 31 1053 false) (withAcc scalesLast) ∧
    Runs (.luColumnAccess 31 1053 false) (withAcc headerAcc) ∧
    Runs (.luColumnAccess 31 1053 false) (withAccess 1) ∧
    Runs (.luColumnAccess 31 1053 false) (withAccess 4) ∧
    Runs (.luColumnAccess 31 1053 false) (withAccess 8) ∧
    Runs (.luColumnAccess 31 1053 false) (withAccess 5) ∧
    Runs (.luLimitTimeout 31 1053) (withAccess 1) ∧
    Runs (.luColumnAccess 31 1053 true) (withAccess 4) ∧
    (exec (.luColumnAccess 31 1053 true) (withAccess 1) = exec (.luColumnAccess 31 1053 false) (withAccess 1)) :=
  ⟨ran (H.1 (luAt (uCol_ 1 []) id) 31 1053 (uCol_ 1 []) (leafRaw 2 []) 1 yes yes ⟨⟨yes, yes, yes, yes⟩, yes, yes, yes, yes, yes, yes, yes, yes⟩ yes yes yes yes yes yes yes (.inr ⟨yes, yes, yes, yes, (allSome)⟩) yes),
   ran (H.1 (luAt (uCol_ 1 [(50, 1)]) id) 31 1053 (uCol_ 1 [(50, 1)]) (leafRaw 2 []) 1 yes yes ⟨⟨yes, yes, yes, yes⟩, yes, yes, yes, yes, yes, yes, yes, yes⟩ yes yes yes yes yes yes yes (.inr ⟨yes, yes, yes, yes, (allSome)⟩) (fun _ _ => (allSome))),
   ran (H.1 (luAt (uCol_ 1 [(50, 1)]) seen) 31 1053 (uCol_ 1 [(50, 1)]) (leafRaw 2 []) 1 yes yes ⟨⟨yes, yes, yes, yes⟩, yes, yes, yes, yes, yes, yes, yes, yes⟩ yes yes yes yes yes yes yes (.inl yes) (fun _ _ => (allSome))),
   ran (H.1 (luAt (mkU [(0, 4), (13, 1), (20, 0), (28, 1), (29, 1)]) openAt) 31 1053 (mkU [(0, 4), (13, 1), (20, 0), (28, 1), (29, 1)]) (leafRaw 2 []) 4 yes yes ⟨⟨yes, yes, yes, yes⟩, yes, yes, yes, yes, yes, yes, yes, yes⟩ yes yes yes yes yes yes yes (.inl yes) yes),
   ran (H.1 (luAt (ptrU 2) fun l => { l with ap := ⟨32767, 63, false, 5, 0⟩ }) 31 1053 (ptrU 2) (leafRaw 2 []) 2 yes yes ⟨⟨yes, yes, yes, yes⟩, yes, yes, yes, yes, yes, yes, yes, yes⟩ yes yes yes yes yes yes yes (.inr ⟨yes, yes, yes, yes, (allSome)⟩) yes),
   ran (H.1 (luAt (uCol_ 9 []) id) 31 1053 (uCol_ 9 []) (leafRaw 2 []) 9 yes yes ⟨⟨yes, yes, yes, yes⟩, yes, yes, yes, yes, yes, yes, yes, yes⟩ yes yes yes yes yes yes yes (.inr ⟨yes, yes, yes, yes, (allSome)⟩) yes),
   ran (H.1 (luAt (uCol_ 10 []) id) 31 1053 (uCol_ 10 []) (leafRaw 2 []) 10 yes yes ⟨⟨yes, yes, yes, yes⟩, yes, yes, yes, yes, yes, yes, yes, yes⟩ yes yes yes yes yes yes yes (.inr ⟨yes, yes, yes, yes, (allSome)⟩) yes),
   ran ((H.2.1 (withAccess 2) 31 1053 (access 2) [] leafCmd yes yes yes yes yes yes yes).1 ⟨yes, yes⟩),
   ran (((H.2.1 (withAcc scalesAcc) 31 1053 scalesAcc [] leafCmd yes yes yes yes yes yes yes).2 yes).1 yes),
   ran ((((H.2.1 (withAcc scalesLast) 31 1053 scalesLast [] leafCmd yes yes yes yes yes yes yes).2 yes).2 yes).1 yes),
   ran ((((H.2.1 (withAcc headerAcc) 31 1053 headerAcc [] leafCmd yes yes yes yes yes yes yes).2 yes).2 yes).2.1 yes),
   ran ((((H.2.1 (withAccess 1) 31 1053 (access 1) [] leafCmd yes yes yes yes yes yes yes).2 yes).2 yes).2.2.1 yes yes),
   ran ((((H.2.1 (withAccess 4) 31 1053 (access 4) [] leafCmd yes yes yes yes yes yes yes).2 yes).2 yes).2.2.2.1 yes yes yes),
   ran ((((H.2.1 (withAccess 8) 31 1053 (access 8) [] leafCmd yes yes yes yes yes yes yes).2 yes).2 yes).2.2.2.2.1 yes yes yes),
   ran ((((H.2.1 (withAccess 5) 31 1053 (access 5) [] leafCmd yes yes yes yes yes yes yes).2 yes).2 yes).2.2.2.2.2 (leftOf (taken1 (access 5))) yes yes),
   ran (H.2.2.1 (withAccess 1) 31 1053 yes yes yes yes yes yes),
   ran ((H.2.2.2 (withAccess 4) 31 1053 (access 4) [] leafCmd yes yes yes yes yes yes yes yes yes).1 yes),
   ((H.2.2.2 (withAccess 1) 31 1053 (access 1) [] leafCmd yes yes yes yes yes yes yes yes yes).2 yes)⟩

theorem witness_LeafCommandCourse (H : Obligations.LeafCommandCourse) :
    Runs (.leafCommandPush 31 badLeaf) (queuedLeaf 127 []) ∧
    Runs (.leafCommandPush 31 badLeaf) (queuedLeaf 128 [badQ]) ∧
    Runs (.leafCommandDeliver 31) (leafWith fun p => { p with lucq := [badQ] }) ∧
    Runs (.leafCommandDeliver 31) (leafWith (readyPot (runOf (leafRaw 2 []) [] [63]))) ∧
    Runs (.operandSlotLoad 31 63) (leafWith fun p => { p with runs := [runOf (leafRaw 2 []) [] [63]] }) ∧
    Runs (.microwordLoad 31) (leafWith fun p => { p with runs := [runOf loadRaw [] [63]] }) ∧
    Runs (.leafResultRecord 31) resultAt :=
  ⟨ran ((H.1 (queuedLeaf 127 []) 31 badLeaf yes yes yes).1 yes yes),
   ran ((H.1 (queuedLeaf 128 [badQ]) 31 badLeaf yes yes yes).2 yes),
   ran (H.2.1 (leafWith fun p => { p with lucq := [badQ] }) 31 badQ [] yes yes yes yes yes yes yes yes yes yes),
   ran (H.2.2.1 (leafWith (readyPot (runOf (leafRaw 2 []) [] [63]))) 31 63 (runOf (leafRaw 2 []) [] [63]) yes yes yes yes yes yes yes yes yes yes yes yes yes),
   ran (H.2.2.2.1 (leafWith fun p => { p with runs := [runOf (leafRaw 2 []) [] [63]] }) 31 63 (runOf (leafRaw 2 []) [] [63]) yes yes yes yes yes),
   ran (H.2.2.2.2.1 (leafWith fun p => { p with runs := [runOf loadRaw [] [63]] }) 31 63 (runOf loadRaw [] [63]) yes yes yes yes yes yes yes yes),
   ran (H.2.2.2.2.2 resultAt 31 [runOf (leafRaw 2 []) [] [63]] [] (runOf (leafRaw 2 []) [luAns 1053, luAns 1054] []) 9 ⟨yes, yes⟩ yes yes yes yes yes yes yes yes)⟩

theorem witness_CodeWordsCorrectOneSymbol (H : Obligations.CodeWordsCorrectOneSymbol) :
    (rsDecode (List.replicate 32 0xA5) (rsStored (List.replicate 32 0xA5) true) = (List.replicate 32 0xA5, .poison)) ∧
    (rsDecode (setNth (List.replicate 32 0xA5) 31 (nth (List.replicate 32 0xA5) 31 0 ^^^ 0xFF)) (rsStored (List.replicate 32 0xA5) false) = (List.replicate 32 0xA5, .corrected 31)) :=
  ⟨((H.1 (List.replicate 32 0xA5) yes).2),
   (H.2.1 (List.replicate 32 0xA5) 31 0xFF yes yes yes)⟩

theorem witness_BankSchedulers (H : Obligations.BankSchedulers) :
    Runs (.bksRequestArrive 31 63 .pat (bksReq 15)) (withSched fun c => { c with pat := List.replicate 7 ⟨.pat, bksReq 0, 3, 3, false⟩ }) ∧
    Runs (.bksAdmit 31 63) (withSched fun c => { c with sfe := [⟨.sfe, bksReq 15, 3, 3, false⟩], rt := [⟨.rt, bksReq 2, 4, 4, false⟩] }) ∧
    Runs (.bksPick 31 63) (withSched id) ∧
    Runs (.bksPick 31 63) (withSched fun c => { c with debts := [(15, 9)], whistle := true }) ∧
    Runs (.refreshInterval 31 63 15) (withSched fun c => { c with debts := [(15, 8)] }) ∧
    Runs (.eyeRecentre 31 63) eyeAt ∧
    Runs (.narrowWrite 31 63 15 32767 63 0xAB00 2 false) (withSched fun c => { c with merge := (upto 15).map fun i => mergeOf (BitVec.ofNat 6 i) }) ∧
    Runs (.mergeTimeout 31 63 15 32767 7) (withSched fun c => { c with merge := (upto 15).map fun i => mergeOf (BitVec.ofNat 6 i) }) ∧
    Runs (.narrowWrite 31 63 0 0 0 0 1 true) (withSched fun c => { c with selfRefresh := true }) ∧
    Runs (.retrain 31 63) (withSched fun c => { c with merge := [mergeOf 7], debts := [(3, 2)], queue := [⟨.eng, { bksReq 3 with op := .write 9 false }, 3, 3, false⟩] }) ∧
    Runs (.retrainAttemptEnd 31 true) (retrainAt (63 + 128)) ∧
    Runs (.retrainAttemptEnd 31 false) (retrainAt (63 + 128 + 2 * 1024)) ∧
    Runs (.retrainAttemptEnd 31 false) (retrainAt (63 + 128 + 1024)) :=
  ⟨ran (H.1 (withSched fun c => { c with pat := List.replicate 7 ⟨.pat, bksReq 0, 3, 3, false⟩ }) 31 63 .pat (bksReq 15) yes yes yes),
   ran (H.2.1 (withSched fun c => { c with sfe := [⟨.sfe, bksReq 15, 3, 3, false⟩], rt := [⟨.rt, bksReq 2, 4, 4, false⟩] }) 31 63 ⟨.sfe, bksReq 15, 3, 3, false⟩ yes yes yes),
   ran ((H.2.2.1 (withSched id) 31 63 yes yes yes yes yes).1 (fun _ => rfl)),
   ran ((H.2.2.1 (withSched fun c => { c with debts := [(15, 9)], whistle := true }) 31 63 yes yes yes yes yes).2 15 9 2000 yes yes yes yes yes yes),
   ran (H.2.2.2.1 (withSched fun c => { c with debts := [(15, 8)] }) 31 63 15 yes yes yes),
   ran (H.2.2.2.2.1 eyeAt 31 63 yes yes yes yes),
   ran (((H.2.2.2.2.2.1 (withSched fun c => { c with merge := (upto 15).map fun i => mergeOf (BitVec.ofNat 6 i) }) 31 63 15 32767 63 0xAB00 2 false yes).1 yes yes).2 yes yes yes yes),
   ran ((H.2.2.2.2.2.1 (withSched fun c => { c with merge := (upto 15).map fun i => mergeOf (BitVec.ofNat 6 i) }) 31 63 15 32767 7 0 0 false yes).2 yes),
   ran (((H.2.2.2.2.2.1 (withSched fun c => { c with selfRefresh := true }) 31 63 0 0 0 0 1 true yes).1 yes yes).1 yes),
   ran (H.2.2.2.2.2.2.1 (withSched fun c => { c with merge := [mergeOf 7], debts := [(3, 2)], queue := [⟨.eng, { bksReq 3 with op := .write 9 false }, 3, 3, false⟩] }) 31 63 yes yes yes yes yes allSched),
   ran ((H.2.2.2.2.2.2.2 (retrainAt (63 + 128)) 31 true yes yes yes).1 yes),
   ran ((H.2.2.2.2.2.2.2 (retrainAt (63 + 128 + 2 * 1024)) 31 false yes yes yes).1 yes),
   ran ((H.2.2.2.2.2.2.2 (retrainAt (63 + 128 + 1024)) 31 false yes yes yes).2 yes)⟩

theorem witness_PatrolAndRepair (H : Obligations.PatrolAndRepair) :
    Runs (.patrolRowVisit 31 63) atEnd ∧
    Runs (.rowRemap 31 63 15 32767 14) spareUsed ∧
    Runs (.rowRemap 31 63 15 32767 15) spareUsed ∧
    Runs (.rowRemap 31 63 15 32767 15) allUsed ∧
    Runs (.spareMove 31 63 15 5 14) spareUsed ∧
    Runs (.bankRemap 31 63 15 1) up ∧
    Runs (.bankRemapSwitch 31) copying ∧
    Runs (.tagfix 31 63 15 32767) (withPot 31 fun p => { p with pat := { p.pat with cmdArg := 0x8000000000000001 } }) ∧
    Runs (.scrubRange 31 63 15 32767 32766) up ∧
    Runs (.scrubRange 31 63 15 32767 32767) up ∧
    Runs (.tagfix 31 63 15 32767) (withSched fun c => { c with swept := false }) ∧
    Runs (.flipArm 31 63 15 true) (withPot 31 fun p => { p with pat := { p.pat with flipCtl := 0xFFFFFFFFFFFFFFFF } }) :=
  ⟨ran (H.1 atEnd 31 63 lastRow yes yes yes yes yes yes yes yes),
   ran (((H.2.1 spareUsed 31 63 15 32767 14 63 1 ⟨yes, yes⟩ ⟨yes, yes, yes⟩ yes yes).1 yes yes).1 yes),
   ran (((H.2.1 spareUsed 31 63 15 32767 15 63 1 ⟨yes, yes⟩ ⟨yes, yes, yes⟩ yes yes).1 yes yes).2 yes),
   ran ((H.2.1 allUsed 31 63 15 32767 15 63 0 ⟨yes, yes⟩ ⟨yes, yes, yes⟩ yes yes).2.1 yes yes),
   ran ((H.2.1 spareUsed 31 63 15 5 14 63 0 ⟨yes, yes⟩ ⟨yes, yes, yes⟩ yes yes).2.2 yes yes),
   ran (H.2.2.1 up 31 63 15 1 ⟨yes, yes⟩ ⟨yes, yes, yes⟩ yes yes yes),
   ran (H.2.2.2.1 copying 31 ⟨63, 15, 1⟩ yes yes yes),
   ran (H.2.2.2.2.1 (withPot 31 fun p => { p with pat := { p.pat with cmdArg := 0x8000000000000001 } }) 31 63 15 32767 lastRow ⟨yes, yes⟩ ⟨yes, yes, yes⟩ yes),
   ran ((H.2.2.2.2.2.1 up 31 63 15 32767 32766 ⟨yes, yes, yes⟩).1 yes),
   ran ((H.2.2.2.2.2.1 up 31 63 15 32767 32767 ⟨yes, yes, yes⟩).2 yes),
   ran (H.2.2.2.2.2.2.1 (withSched fun c => { c with swept := false }) 31 63 15 32767 yes yes yes yes),
   ran (H.2.2.2.2.2.2.2 (withPot 31 fun p => { p with pat := { p.pat with flipCtl := 0xFFFFFFFFFFFFFFFF } }) 31 63 15 true yes)⟩

theorem witness_PermitPool (H : Obligations.PermitPool) :
    Runs (.permitRequest 31 .fw 7) (withPmt fun p => { p with reqs := [(7, 1023)] }) ∧
    Runs (.permitRequest 31 .vxe 0) (withPot 31 fun p => setSeq p .vxe { Seqr.reset with cmdq := [engCmd] }) ∧
    Runs (.permitRequest 31 .leaf 63) wantsLeaf ∧
    Runs (.permitGrantCycle 31) (withPmt fun p => { freeIs 340 p with waits := [wait_ 340 false false] }) ∧
    Runs (.permitGrantCycle 31) (withPmt fun p => { freeIs 339 p with waits := [wait_ 340 false false] }) ∧
    Runs (.permitGrantCycle 31) (withPmt fun p => { freeIs 0 p with waits := [wait_ 1023 true true] }) ∧
    Runs (.permitGrantCycle 31) (withPmt fun p => { p with free := 5, waits := [wait_ 1 true true] }) ∧
    Runs (.permitRelease 31 .fw 7) (withPmt fun p => { freeIs (-1023) p with holds := [(permitKey .fw 7, ⟨1023, 0, 0, true⟩)] }) ∧
    Runs (.permitPrecedence 31 .fw) (withPmt fun p => { p with waits := [{ wait_ 1 true false with unit := 6 }, wait_ 2 false false] }) ∧
    Runs (.permitOverdraw 31 .fw) (withPmt fun p => { freeIs 0 p with waits := [wait_ 1023 true false] }) ∧
    Runs (.req 31 7 1023) up ∧
    Runs (.release 31 7) (withPmt fun p => { p with waits := [wait_ 1 false false] }) ∧
    Runs (.pmtBudgetWrite .hub (13440 + 2400 * 65536)) up ∧
    Runs (.pmtBudgetWrite .hub 0xFFFF) up ∧
    Runs (.pmtBudgetWrite (.pot 31) (420 + 105 * 1024)) up ∧
    Runs (.pmtBudgetWrite (.pot 31) (420 + 106 * 1024)) up ∧
    Runs (.activityEstimate 31 421) (withPmt fun p => { p with clamp := 7 }) ∧
    Runs (.activityEstimate 31 0) (withPmt fun p => { p with clamp := 8 }) :=
  ⟨ran (H.1 (withPmt fun p => { p with reqs := [(7, 1023)] }) 31 7 yes yes yes yes yes),
   ran (H.2.1 (withPot 31 fun p => setSeq p .vxe { Seqr.reset with cmdq := [engCmd] }) 31 .vxe engCmd [] yes yes yes yes yes yes yes),
   ran (H.2.2.1 wantsLeaf 31 63 (runOf (leafRaw 2 []) [] [63]) yes yes yes yes),
   ran ((H.2.2.2.1 (withPmt fun p => { freeIs 340 p with waits := [wait_ 340 false false] }) 31 (wait_ 340 false false) yes yes yes).1 yes),
   ran ((H.2.2.2.1 (withPmt fun p => { freeIs 339 p with waits := [wait_ 340 false false] }) 31 (wait_ 340 false false) yes yes yes).2.1 yes yes),
   ran ((H.2.2.2.1 (withPmt fun p => { freeIs 0 p with waits := [wait_ 1023 true true] }) 31 (wait_ 1023 true true) yes yes yes).2.2 yes yes yes yes yes),
   ran (H.2.2.2.2.1 (withPmt fun p => { p with free := 5, waits := [wait_ 1 true true] }) 31 yes yes),
   ran (H.2.2.2.2.2.1 (withPmt fun p => { freeIs (-1023) p with holds := [(permitKey .fw 7, ⟨1023, 0, 0, true⟩)] }) 31 .fw 7 ⟨1023, 0, 0, true⟩ yes yes yes yes yes),
   ran (H.2.2.2.2.2.2.1 (withPmt fun p => { p with waits := [{ wait_ 1 true false with unit := 6 }, wait_ 2 false false] }) 31 [{ wait_ 1 true false with unit := 6 }] [] (wait_ 2 false false) yes yes yes yes),
   ran (H.2.2.2.2.2.2.2.1 (withPmt fun p => { freeIs 0 p with waits := [wait_ 1023 true false] }) 31 (wait_ 1023 true false) yes yes yes yes yes),
   ran ((H.2.2.2.2.2.2.2.2.1 up 31 7 yes).1 1023 yes yes yes),
   ran ((H.2.2.2.2.2.2.2.2.1 (withPmt fun p => { p with waits := [wait_ 1 false false] }) 31 7 yes).2),
   ran ((H.2.2.2.2.2.2.2.2.2.1 up (13440 + 2400 * 65536) yes).1 yes),
   ran ((H.2.2.2.2.2.2.2.2.2.1 up 0xFFFF yes).1 yes),
   ran ((H.2.2.2.2.2.2.2.2.2.1 up (420 + 105 * 1024) yes).2 31 yes),
   ran ((H.2.2.2.2.2.2.2.2.2.1 up (420 + 106 * 1024) yes).2 31 yes),
   ran (H.2.2.2.2.2.2.2.2.2.2 (withPmt fun p => { p with clamp := 7 }) 31 421 yes yes),
   ran (H.2.2.2.2.2.2.2.2.2.2 (withPmt fun p => { p with clamp := 8 }) 31 0 yes yes)⟩

theorem witness_KettleTicks (H : Obligations.KettleTicks) :
    Runs (.ketMeasurementTick (.pot 31) (potReads 95 95 94)) up ∧
    Runs (.ketMeasurementTick (.pot 31) (potReads 104 109 109)) up ∧
    Runs (.ketMeasurementTick (.pot 31) (potReads 105 110 100)) ({ up with ket := { up.ket with trips := 3 } }) ∧
    Runs (.ketMeasurementTick (.pot 31) (potReads 112 115 100)) up ∧
    Runs (.ketMeasurementTick .hub [deg 80, deg 80, none, deg 80]) (tripped 5 1) ∧
    Runs (.ketMeasurementTick (.pot 0) (potReads 85 85 85)) (tripped 5 1) ∧
    (levelNext 6 0 500 0 true = 6) ∧
    (levelNext 6 6 0 5000 false = 6) ∧
    Runs (.caddyRailOff) ({ up with ket := { up.ket with caddyHeld := true } }) ∧
    Runs (.ketRestart) (tripped 10000000 1) ∧
    Runs (.tripHourExpiry) (tripped 0 7) :=
  ⟨ran ((H.1 up (.pot 31) (potReads 95 95 94) yes yes).1 yes yes yes),
   ran ((H.1 up (.pot 31) (potReads 104 109 109) yes yes).1 yes yes yes),
   ran ((H.1 { up with ket := { up.ket with trips := 3 } } (.pot 31) (potReads 105 110 100) yes yes).2.1 yes yes yes),
   ran ((H.1 up (.pot 31) (potReads 112 115 100) yes yes).2.2.1 yes yes),
   ran ((H.1 (tripped 5 1) .hub [deg 80, deg 80, none, deg 80] yes yes).2.2.2 yes yes),
   ran ((H.1 (tripped 5 1) (.pot 0) (potReads 85 85 85) yes yes).2.2.2 yes yes),
   (((H.2.1 6 0 500 0 yes yes).2 yes).1.trans yes),
   (((H.2.1 6 6 0 5000 yes yes).2 yes).2.trans yes),
   ran (H.2.2.1 { up with ket := { up.ket with caddyHeld := true } } yes),
   ran (H.2.2.2.1 (tripped 10000000 1) yes yes yes yes yes),
   ran (H.2.2.2.2 (tripped 0 7) yes yes)⟩

theorem witness_BootRomStartsFirmwareOrPlainMemory_2 (H : Obligations.BootRomStartsFirmwareOrPlainMemory) : Runs (.bootRom [] 0) stFactory :=
  ran ((H stFactory [] 0 yes yes).2 (placesOf stFactory) someGet yes yes)

theorem witness_FirmwareAndKeys (H : Obligations.FirmwareAndKeys) :
    Runs (.stage .xlat 0x1F000000003) up ∧
    Runs (.activate .hubfw) up ∧
    Runs (.activate .owndef) (withImage .owndef 0) ∧
    Runs (.activate .leafmc) (plain (withImage .leafmc 1)) ∧
    Runs (.activate .xlat) (withImage .xlat 1) ∧
    Runs (.activate .hubfw) (withImage .hubfw 1) ∧
    Runs (.hubfwHandover) (awaiting .hubfw []) ∧
    Runs (.brewfwPotQuiesce 31 true) (awaiting .brewfw (upto 31)) ∧
    Runs (.brewfwPotQuiesce 0 true) (awaiting .brewfw []) ∧
    Runs (.brewfwPotQuiesce 31 false) (awaiting .brewfw (upto 31)) ∧
    Runs (.brewfwSelfcheckTimeout 31) (updPot (awaiting .brewfw (upto 31)) 31 fun p => { p with quiesced := true }) ∧
    Runs (.enroll) (keyed testOwner 0x80 5) ∧
    Runs (.enroll) (keyed noOwner 0x80 5) ∧
    Runs (.rotate) (keyed testOwner 0x80 forgedStage) ∧
    Runs (.rotate) (keyed testOwner 0 signedStage) ∧
    Runs (.revoke) (keyed testOwner 0 forgedStage) ∧
    Runs (.revoke) ({ keyed testOwner 0x80 5 with caddy := { (keyed testOwner 0x80 5).caddy with factory := [(1, ⟨testImage .hubfw 1, 1, false⟩)] } }) ∧
    Runs (.revoke) (keyed testOwner 0 signedStage) :=
  ⟨ran (H.1 up .xlat 0x1F000000003 yes yes yes),
   ran ((H.2.1 up .hubfw yes yes yes).1 yes),
   ran (((H.2.1 (withImage .owndef 0) .owndef yes yes yes).2 yes yes).1 yes),
   ran (((H.2.1 (plain (withImage .leafmc 1)) .leafmc yes yes yes).2 yes yes).1 yes),
   ran (((H.2.1 (withImage .xlat 1) .xlat yes yes yes).2 yes yes).2.1 yes yes yes),
   ran (((H.2.1 (withImage .hubfw 1) .hubfw yes yes yes).2 yes yes).2.2 yes yes),
   ran (H.2.2.1 (awaiting .hubfw []) yes yes),
   ran (((H.2.2.2.1 (awaiting .brewfw (upto 31)) 31 yes yes).1 yes yes).1),
   ran (((H.2.2.2.1 (awaiting .brewfw []) 0 yes yes).1 yes yes).1),
   ran (((H.2.2.2.1 (awaiting .brewfw (upto 31)) 31 yes yes).1 yes yes).2),
   ran ((H.2.2.2.1 (updPot (awaiting .brewfw (upto 31)) 31 fun p => { p with quiesced := true }) 31 yes yes).2 yes),
   ran ((H.2.2.2.2 (keyed testOwner 0x80 5) yes yes).1 yes),
   ran ((H.2.2.2.2 (keyed noOwner 0x80 5) yes yes).2.1 yes yes yes),
   ran ((H.2.2.2.2 (keyed testOwner 0x80 forgedStage) yes yes).2.2.1 yes),
   ran ((H.2.2.2.2 (keyed testOwner 0 signedStage) yes yes).2.2.2.1 yes yes),
   ran ((H.2.2.2.2 (keyed testOwner 0 forgedStage) yes yes).2.2.2.2.1 yes yes),
   ran ((H.2.2.2.2 { keyed testOwner 0x80 5 with caddy := { (keyed testOwner 0x80 5).caddy with factory := [(1, ⟨testImage .hubfw 1, 1, false⟩)] } } yes yes).2.2.2.2.2.1 yes yes),
   ran ((H.2.2.2.2 (keyed testOwner 0 signedStage) yes yes).2.2.2.2.2.2.1 yes yes yes)⟩

theorem witness_ServiceOperations (H : Obligations.ServiceOperations) :
    Runs (.migrate 31 true) (withSvc fun v => { v with retired := 0x80000000 }) ∧
    Runs (.migrate 31 true) up ∧
    Runs (.migrate 31 true) (reserving id) ∧
    Runs (.mirror 1984 30 63) (reserving id) ∧
    Runs (.mirror 1984 31 63) (reserving id) ∧
    Runs (.unmirror 1984) (withMap [(1984, mapEnt 31 0 30 63 0 true)] ⟨0, 0, 0, 0, false, false, 0⟩ (reserving id)) ∧
    Runs (.unmirror 1984) mirrorRuns ∧
    Runs (.unmirror 2047) up ∧
    Runs (.retirePot 31) up ∧
    Runs (.retirePot 31) (withMap [(1984, mapEnt 31 0 30 63 0 true), (1985, mapEnt 30 5 31 7 0 true)] ⟨0, 0, 0, 0, false, false, 0⟩ (reserving id)) ∧
    Runs (.retirePot 31) (withSvc fun v => { v with retired := 0x80000000 }) ∧
    Runs (.unretirePot 31 true) retiredPot ∧
    Runs (.unretirePot 31 false) retiredPot ∧
    Runs (.retireMxe 31) up ∧
    Runs (.returnMxe 31) (outMxe false) ∧
    Runs (.returnMxe 31) (outMxe true) ∧
    Runs (.abort) svcRuns ∧
    Runs (.abort) up ∧
    Runs (.abort) (moveAt 2 0 false false) ∧
    Runs (.migrationCopyUnit) (moveAt 1 524286 false false) ∧
    Runs (.migrationCopyUnit) (moveAt 1 524287 false false) ∧
    Runs (.migrationSettle) (moveAt 2 0 false false) ∧
    Runs (.migrationSwitch) (moveAt 3 0 false false) ∧
    Runs (.migrationSwitch) (moveAt 3 0 true true) :=
  ⟨ran (((H.1 (withSvc fun v => { v with retired := 0x80000000 }) yes).1 31 true).1 yes),
   ran ((((H.1 up yes).1 31 true).2 yes).1 yes),
   ran ((((H.1 (reserving id) yes).1 31 true).2 yes).2 yes),
   ran (((H.1 (reserving id) yes).2.1 1984 30 63).1 yes),
   ran (((H.1 (reserving id) yes).2.1 1984 31 63).2 yes),
   ran (((H.1 (withMap [(1984, mapEnt 31 0 30 63 0 true)] ⟨0, 0, 0, 0, false, false, 0⟩ (reserving id)) yes).2.2.1 1984 yes).2.1 yes yes yes yes),
   ran (((H.1 mirrorRuns yes).2.2.1 1984 yes).1 yes yes yes yes),
   ran (((H.1 up yes).2.2.1 2047 yes).2.2 yes),
   ran (((H.1 up yes).2.2.2.1 31).1 yes),
   ran (((H.1 (withMap [(1984, mapEnt 31 0 30 63 0 true), (1985, mapEnt 30 5 31 7 0 true)] ⟨0, 0, 0, 0, false, false, 0⟩ (reserving id)) yes).2.2.2.1 31).1 yes),
   ran (((H.1 (withSvc fun v => { v with retired := 0x80000000 }) yes).2.2.2.1 31).2 yes),
   ran (((H.1 retiredPot yes).2.2.2.2.1 31 yes yes).1),
   ran (((H.1 retiredPot yes).2.2.2.2.1 31 yes yes).2),
   ran (((H.1 up yes).2.2.2.2.2 31).1 yes yes),
   ran ((((H.1 (outMxe false) yes).2.2.2.2.2 31).2 yes yes yes).1 yes),
   ran ((((H.1 (outMxe true) yes).2.2.2.2.2 31).2 yes yes yes).2 yes),
   ran ((H.2.1 svcRuns yes yes).1 yes yes),
   ran ((H.2.1 up yes yes).2.1 yes yes),
   ran ((H.2.1 (moveAt 2 0 false false) yes yes).2.2 yes yes),
   ran (H.2.2.1 (moveAt 1 524286 false false) yes ⟨yes, yes⟩ yes yes yes yes yes),
   ran (H.2.2.1 (moveAt 1 524287 false false) yes ⟨yes, yes⟩ yes yes yes yes yes),
   ran ((H.2.2.2 (moveAt 2 0 false false) yes).1 yes yes yes),
   ran ((H.2.2.2 (moveAt 3 0 false false) yes).2 yes yes yes yes),
   ran ((H.2.2.2 (moveAt 3 0 true true) yes).2 yes yes yes yes)⟩

theorem witness_LoadsAndDrains (H : Obligations.LoadsAndDrains) :
    Runs (.loadQueueServe) served ∧
    Runs (.loadPhase) (loading (loadAt 2 [] [])) ∧
    Runs (.loadPhase) (loading (loadAt 3 [31] [])) ∧
    Runs (.loadPhase) (loading (loadAt 3 [31] flawed)) ∧
    Runs (.loadPhase) (loading (loadAt 7 [31] [])) ∧
    Runs (.loadCommitDone 31) (loading (loadAt 8 [31, 0] [])) ∧
    Runs (.loadCommitDone 31) (loading (loadAt 8 [31] [])) ∧
    Runs (.loadPhaseTimeout 31) (loading (loadAt 8 [31] [])) ∧
    Runs (.loadPhaseTimeout 31) (loading (loadAt 1 [] [])) ∧
    Runs (.infusionDrained 4095) (draining 3 0) ∧
    Runs (.drainTimeout 4095) (draining 3 0xFFFFFFFF) :=
  ⟨ran (H.1 served loadReq [loadReq] yes yes yes yes yes yes),
   ran ((H.2.1 (loading (loadAt 2 [] [])) (loadAt 2 [] []) yes yes).1 yes yes),
   ran (((H.2.1 (loading (loadAt 3 [31] [])) (loadAt 3 [31] []) yes yes).2.1 yes yes).1 1 yes yes),
   ran (((H.2.1 (loading (loadAt 3 [31] flawed)) (loadAt 3 [31] flawed) yes yes).2.1 yes yes).2 ⟨3, 3, 0xFF, 0xFF, 8, 0⟩ yes yes),
   ran ((H.2.1 (loading (loadAt 7 [31] [])) (loadAt 7 [31] []) yes yes).2.2 yes),
   ran ((H.2.2.1 (loading (loadAt 8 [31, 0] [])) (loadAt 8 [31, 0] []) 31 (loadPot 31 [65535, 65534]) yes yes yes yes yes yes yes yes)),
   ran ((H.2.2.1 (loading (loadAt 8 [31] [])) (loadAt 8 [31] []) 31 (loadPot 31 [65535, 65534]) yes yes yes yes yes yes yes yes)),
   ran (H.2.2.2.1 (loading (loadAt 8 [31] [])) (loadAt 8 [31] []) 31 yes yes yes),
   ran (H.2.2.2.1 (loading (loadAt 1 [] [])) (loadAt 1 [] []) 31 yes yes yes),
   ran ((H.2.2.2.2 (draining 3 0) 4095 ⟨4095, 31, 9, false, 0⟩ yes).1 yes yes yes),
   ran ((H.2.2.2.2 (draining 3 0xFFFFFFFF) 4095 ⟨4095, 31, 9, false, 0⟩ yes).2 yes yes)⟩

theorem witness_SyncWordOperations (H : Obligations.SyncWordOperations) :
    Runs (.read 31 65535 (.hostCmd 3)) (oneWord 7 true) ∧
    Runs (.store 31 65535 (.brewerSlot 30 3 3) 9 false) (oneWord 7 true) ∧
    Runs (.signal 31 65535 (.hostCmd 3) 0xFFFFFFFFFFFFFFFF) (oneWord 7 false) ∧
    Runs (.fill 31 65535 (.hostCmd 3) 9) (oneWord 7 false) ∧
    Runs (.empty 31 65535 (.hostCmd 3)) (oneWord 7 true) ∧
    Runs (.wait 31 65535 (.hostCmd 3) 0 0) (oneWord 7 true) ∧
    Runs (.wait 31 65535 (.hostCmd 3) 1 7) (oneWord 7 true) ∧
    Runs (.fill 31 65535 (.hostCmd 3) 9) (oneWord 7 true) ∧
    Runs (.empty 31 65535 (.hostCmd 3)) (oneWord 7 false) ∧
    Runs (.wait 31 65535 (.hostCmd 3) 1 8) (oneWord 7 true) :=
  ⟨ran ((H (oneWord 7 true) 31 65535 (.hostCmd 3) ⟨yes, yes, yes, yes⟩ ⟨yes, yes, yes⟩).1),
   ran ((H (oneWord 7 true) 31 65535 (.brewerSlot 30 3 3) ⟨yes, yes, yes, yes⟩ ⟨yes, yes, yes⟩).2.1 9 false),
   ran ((H (oneWord 7 false) 31 65535 (.hostCmd 3) ⟨yes, yes, yes, yes⟩ ⟨yes, yes, yes⟩).2.2.1 0xFFFFFFFFFFFFFFFF),
   ran ((H (oneWord 7 false) 31 65535 (.hostCmd 3) ⟨yes, yes, yes, yes⟩ ⟨yes, yes, yes⟩).2.2.2.1 9 yes),
   ran ((H (oneWord 7 true) 31 65535 (.hostCmd 3) ⟨yes, yes, yes, yes⟩ ⟨yes, yes, yes⟩).2.2.2.2.1 yes),
   ran ((H (oneWord 7 true) 31 65535 (.hostCmd 3) ⟨yes, yes, yes, yes⟩ ⟨yes, yes, yes⟩).2.2.2.2.2.1 0 0 yes),
   ran ((H (oneWord 7 true) 31 65535 (.hostCmd 3) ⟨yes, yes, yes, yes⟩ ⟨yes, yes, yes⟩).2.2.2.2.2.1 1 7 yes),
   ran ((H (oneWord 7 true) 31 65535 (.hostCmd 3) ⟨yes, yes, yes, yes⟩ ⟨yes, yes, yes⟩).2.2.2.2.2.2.1 9 yes),
   ran ((H (oneWord 7 false) 31 65535 (.hostCmd 3) ⟨yes, yes, yes, yes⟩ ⟨yes, yes, yes⟩).2.2.2.2.2.2.2.1 yes),
   ran ((H (oneWord 7 true) 31 65535 (.hostCmd 3) ⟨yes, yes, yes, yes⟩ ⟨yes, yes, yes⟩).2.2.2.2.2.2.2.2 1 8 yes)⟩

theorem witness_SyncCompletionsReachTheirAgent (H : Obligations.SyncCompletionsReachTheirAgent) :
    Runs (.read 31 65535 (.hubSlot 3 3)) (oneWord 7 true) ∧
    Runs (.store 31 65535 (.hubSlot 3 3) 9 true) (oneWord 7 true) ∧
    Runs (.signal 31 65535 (.hubSlot 3 3) 9) (oneWord 7 true) ∧
    Runs (.read 31 65535 (.hubSlot 3 3)) up ∧
    Runs (.store 31 65535 (.hubSlot 3 3) 9 true) up ∧
    Runs (.empty 31 65535 (.hubSlot 3 3)) up ∧
    Runs (.store 31 65535 (.hubSlot 0 0) 9 true) (withWords [(65535, syncWord 7 false)] fun c => { c with waiters := [parkedOp 65535 4 (.hubSlot 3 3)] }) :=
  ⟨ran ((H.1 (oneWord 7 true) 31 65535 3 3 ⟨yes, yes, yes, yes⟩ ⟨yes, yes, yes⟩).1),
   ran ((H.1 (oneWord 7 true) 31 65535 3 3 ⟨yes, yes, yes, yes⟩ ⟨yes, yes, yes⟩).2.1 9 true),
   ran ((H.1 (oneWord 7 true) 31 65535 3 3 ⟨yes, yes, yes, yes⟩ ⟨yes, yes, yes⟩).2.2 9),
   ran ((H.2.1 up 31 65535 3 3 ⟨yes, yes, yes, yes⟩ yes yes yes).1),
   ran ((H.2.1 up 31 65535 3 3 ⟨yes, yes, yes, yes⟩ yes yes yes).2.1 9 true),
   ran ((H.2.1 up 31 65535 3 3 ⟨yes, yes, yes, yes⟩ yes yes yes).2.2),
   ran (H.2.2 (withWords [(65535, syncWord 7 false)] fun c => { c with waiters := [parkedOp 65535 4 (.hubSlot 3 3)] }) 31 65535 0 0 3 3 9 (parkedOp 65535 4 (.hubSlot 3 3)) yes yes yes yes yes yes yes yes yes ⟨yes, yes, yes⟩)⟩

theorem witness_BarrierOperations (H : Obligations.BarrierOperations) :
    Runs (.arrive 31 65534 (.hostCmd 3) 2) (pairWords 0xFFFFFD 0x00FFFFFF00000002) ∧
    Runs (.barrier 31 65534 (.hostCmd 3) 3) (pairWords 0 0x100000003) ∧
    Runs (.bwait 31 65534 (.hostCmd 3) 3) (pairWords 0 0x100000003) ∧
    Runs (.bwait 31 65534 (.hostCmd 3) 3) (pairWords 0 0x200000200) ∧
    Runs (.arrive 31 65535 (.hubSlot 3 3) 0) up :=
  ⟨ran ((H.1 (pairWords 0xFFFFFD 0x00FFFFFF00000002) 31 65534 (.hostCmd 3) 2 ⟨yes, yes, yes, yes⟩ yes ⟨yes, yes, yes⟩ ⟨yes, yes, yes⟩ yes).1 yes yes yes),
   ran ((H.1 (pairWords 0 0x100000003) 31 65534 (.hostCmd 3) 3 ⟨yes, yes, yes, yes⟩ yes ⟨yes, yes, yes⟩ ⟨yes, yes, yes⟩ yes).2.1 yes yes yes yes yes),
   ran ((H.1 (pairWords 0 0x100000003) 31 65534 (.hostCmd 3) 3 ⟨yes, yes, yes, yes⟩ yes ⟨yes, yes, yes⟩ ⟨yes, yes, yes⟩ yes).2.2.1 yes yes),
   ran ((H.1 (pairWords 0 0x200000200) 31 65534 (.hostCmd 3) 3 ⟨yes, yes, yes, yes⟩ yes ⟨yes, yes, yes⟩ ⟨yes, yes, yes⟩ yes).2.2.2 yes yes),
   ran (H.2 up 31 65535 3 3 0 ⟨yes, yes, yes, yes⟩ yes)⟩

theorem witness_SyncWaitsTimeOutAndReenter (H : Obligations.SyncWaitsTimeOutAndReenter) :
    Runs (.sncWaitTimeout 31 (.hubSlot 3 3)) (withWords [(65535, syncWord 7 false)] fun c => { c with waiters := [parkedOp 65535 2 (.hubSlot 3 3)], ctl := putField c.ctl 32 32 5 }) ∧
    Runs (.sncInputHoldRelease 31) (withWords [(65535, syncWord 7 false)] fun c => { c with held := [parkedOp 65535 1 (.hubSlot 3 3)] }) :=
  ⟨ran (H.1 (withWords [(65535, syncWord 7 false)] fun c => { c with waiters := [parkedOp 65535 2 (.hubSlot 3 3)], ctl := putField c.ctl 32 32 5 }) 31 3 3 (parkedOp 65535 2 (.hubSlot 3 3)) yes yes yes yes),
   ran (H.2 (withWords [(65535, syncWord 7 false)] fun c => { c with held := [parkedOp 65535 1 (.hubSlot 3 3)] }) 31 (parkedOp 65535 1 (.hubSlot 3 3)) yes yes yes ⟨yes, yes, yes⟩)⟩

theorem witness_LinkPorts (H : Obligations.LinkPorts) :
    Runs (.flitSlot 31 1) (portIn .drain fun p => { p with ctrl := [idleFlit, laneSwapFlit 7] }) ∧
    Runs (.flitSlot 31 1) (portIn .up id) ∧
    Runs (.flitSlot 31 1) (sending fun p => { p with txq := [(4, [(aFlit 4 0, 0)])] }) ∧
    Runs (.flitSlot 31 1) (portIn .init fun p => { p with ctrl := [initFlit (portIn .init id) 63], initGot := true }) ∧
    Runs (.silentTimeout 31 1) (sending id) ∧
    Runs (.lockLoss 31 1) (sending id) ∧
    Runs (.idle 31 1) (portIn .up id) ∧
    Runs (.lastWords 31 1 4) (sending id) ∧
    Runs (.flitReceive 31 1 (aFlit 4 0) false true) (portIn .up id) ∧
    Runs (.flitReceive 31 1 (aFlit 4 0) true false) (portIn .up id) ∧
    Runs (.flitReceive 31 1 (aFlit 4 4095) true true) (portIn .up id) ∧
    Runs (.flitReceive 31 1 (aFlit 4 0) true true) (portIn .up id) ∧
    Runs (.ackTimer 31 1 4) (portIn .drain fun p => { p with expSeq := [(4, 1)], creditsDue := [(4, 3)] }) ∧
    Runs (.ack 31 1 [(0, 2), (0, 0), (0, 0), (0, 0), (4095, 0)]) (sending id) ∧
    Runs (.nak 31 1 0 0) (sending id) ∧
    Runs (.nak 31 1 0 4095) (sending fun p => { p with nakFlit := [(0, (4095, 7))] }) ∧
    Runs (.nakAll 31 1 [4095, 0, 0, 0, 0]) (sending id) ∧
    Runs (.laneSwap 31 1 7) (portIn .up id) ∧
    Runs (.laneSwap 31 1 7) (portIn .up fun p => { p with txSwapped := 0 }) ∧
    Runs (.laneFail 31 1 7) (portIn .up id) ∧
    Runs (.laneFail 31 1 7) (portIn .up fun p => { p with swapped := 0 }) ∧
    Runs (.trainingRetry 31 1) (portIn .down id) ∧
    Runs (.trainingTimeout 31 1) (portIn .training id) ∧
    Runs (.trainingLock 31 1 none) (portIn .training id) ∧
    Runs (.trainingLock 31 1 (some 7)) (portIn .training id) ∧
    Runs (.initTimeout 31 1) (portIn .init id) ∧
    Runs (.init 31 1 5 0 0 [] 0 0) (portIn .init id) ∧
    Runs (.init 31 1 7 63 0xB0 [16, 32, 32, 32, 16] 1920 2601) (portIn .init fun p => { p with initSent := true }) ∧
    Runs (.portDrainTimeout 31 1) (portIn .drain fun p => { p with reason := 4 }) ∧
    Runs (.enable 31 1 true) (portIn .down fun p => { p with enable := false }) ∧
    Runs (.enable 31 1 false) (portIn .up id) ∧
    Runs (.portReset 31 1) (portIn .up id) ∧
    Runs (.enable 31 1 false) bothUp ∧
    Runs (.portReset 31 1) bothUp ∧
    Runs (.enable 31 1 false) (portIn .drain id) ∧
    Runs (.portReset 31 1) (portIn .down id) ∧
    Runs (.enable 31 1 false) (portIn .training id) ∧
    Runs (.portReset 31 1) (portIn .init id) ∧
    Runs (.flitReceive 31 1 idleFlit true true) (portIn .up id) ∧
    (exec (.flitReceive 31 1 (nakFlitOf Port.reset 4) true true) (sending id) = exec (.nak 31 1 (fieldB (nakFlitOf Port.reset 4).payload 0 3) (fieldB (nakFlitOf Port.reset 4).payload 8 12)) (sending id)) ∧
    (exec (.flitReceive 31 1 (laneSwapFlit 7) true true) (sending id) = exec (.laneSwap 31 1 (fieldB (laneSwapFlit 7).payload 0 3)) (sending id)) ∧
    (exec (.flitReceive 31 1 (lastWordsFlit 4) true true) (sending id) = exec (.lastWords 31 1 (fieldB (lastWordsFlit 4).payload 0 3)) (sending id)) :=
  ⟨ran ((H (portIn .drain fun p => { p with ctrl := [idleFlit, laneSwapFlit 7] }) 31 1).1 yes |>.1 idleFlit [laneSwapFlit 7] yes yes),
   ran ((H (portIn .up id) 31 1).1 yes |>.2.1 yes yes yes),
   ran ((H (sending fun p => { p with txq := [(4, [(aFlit 4 0, 0)])] }) 31 1).1 yes |>.2.2.1 4 (aFlit 4 0, 0) [] yes yes yes yes yes),
   ran ((H (portIn .init fun p => { p with ctrl := [initFlit (portIn .init id) 63], initGot := true }) 31 1).1 yes |>.2.2.2.1 yes yes yes),
   ran ((H (sending id) 31 1).1 yes |>.2.2.2.2.1),
   ran ((H (sending id) 31 1).1 yes |>.2.2.2.2.2.1),
   ran ((H (portIn .up id) 31 1).1 yes |>.2.2.2.2.2.2.1),
   ran ((H (sending id) 31 1).1 yes |>.2.2.2.2.2.2.2 4),
   ran ((H (portIn .up id) 31 1).2.2.1 yes |>.1 (aFlit 4 0) false true yes |>.1 yes),
   ran ((H (portIn .up id) 31 1).2.2.1 yes |>.1 (aFlit 4 0) true false yes |>.2.1 yes yes),
   ran ((H (portIn .up id) 31 1).2.2.1 yes |>.1 (aFlit 4 4095) true true yes |>.2.2.1 yes yes yes),
   ran ((H (portIn .up id) 31 1).2.2.1 yes |>.1 (aFlit 4 0) true true yes |>.2.2.2 yes yes yes (by intro g gs rest h; have e : (g :: gs, rest) = ([aFlit 4 0], []) := Option.some.inj (h.symm.trans (by decide +kernel)); cases e; decide +kernel)),
   ran ((H (portIn .drain fun p => { p with expSeq := [(4, 1)], creditsDue := [(4, 3)] }) 31 1).2.2.1 yes |>.2.1 4 yes),
   ran ((H (sending id) 31 1).2.2.1 yes |>.2.2.1 [(0, 2), (0, 0), (0, 0), (0, 0), (4095, 0)] yes),
   ran ((H (sending id) 31 1).2.2.1 yes |>.2.2.2.1 0 0 yes yes),
   ran ((H (sending fun p => { p with nakFlit := [(0, (4095, 7))] }) 31 1).2.2.1 yes |>.2.2.2.2.1 0 4095 yes yes yes),
   ran ((H (sending id) 31 1).2.2.1 yes |>.2.2.2.2.2.1 [4095, 0, 0, 0, 0] yes yes),
   ran (((H (portIn .up id) 31 1).2.2.1 yes |>.2.2.2.2.2.2 7).1 yes),
   ran (((H (portIn .up fun p => { p with txSwapped := 0 }) 31 1).2.2.1 yes |>.2.2.2.2.2.2 7).2.1 yes),
   ran (((H (portIn .up id) 31 1).2.2.1 yes |>.2.2.2.2.2.2 7).2.2.1 yes),
   ran (((H (portIn .up fun p => { p with swapped := 0 }) 31 1).2.2.1 yes |>.2.2.2.2.2.2 7).2.2.2 yes),
   ran ((H (portIn .down id) 31 1).2.2.2.1 yes yes),
   ran (((H (portIn .training id) 31 1).2.2.2.2.1 yes).1),
   ran (((H (portIn .training id) 31 1).2.2.2.2.1 yes).2 none),
   ran (((H (portIn .training id) 31 1).2.2.2.2.1 yes).2 (some 7)),
   ran (((H (portIn .init id) 31 1).2.2.2.2.2.1 yes).1),
   ran ((((H (portIn .init id) 31 1).2.2.2.2.2.1 yes).2 5 0 0 [] 0 0).1 yes),
   ran ((((H (portIn .init fun p => { p with initSent := true }) 31 1).2.2.2.2.2.1 yes).2 7 63 0xB0 [16, 32, 32, 32, 16] 1920 2601).2 yes),
   ran ((H (portIn .drain fun p => { p with reason := 4 }) 31 1).2.2.2.2.2.2.1 yes),
   ran (((H (portIn .down fun p => { p with enable := false }) 31 1).2.2.2.2.2.2.2 yes).1),
   ran ((((H (portIn .up id) 31 1).2.2.2.2.2.2.2 yes).2.1 yes).1),
   ran ((((H (portIn .up id) 31 1).2.2.2.2.2.2.2 yes).2.1 yes).2.1),
   ran (((((H (bothUp) 31 1).2.2.2.2.2.2.2 yes).2.1 yes).2.2 yes).1),
   ran (((((H (bothUp) 31 1).2.2.2.2.2.2.2 yes).2.1 yes).2.2 yes).2),
   ran ((((H (portIn .drain id) 31 1).2.2.2.2.2.2.2 yes).2.2.1 yes).1),
   ran ((((H (portIn .down id) 31 1).2.2.2.2.2.2.2 yes).2.2.1 yes).2),
   ran ((((H (portIn .training id) 31 1).2.2.2.2.2.2.2 yes).2.2.2 yes).1),
   ran ((((H (portIn .init id) 31 1).2.2.2.2.2.2.2 yes).2.2.2 yes).2),
   ran (((H (portIn .up id) 31 1).2.1 idleFlit true yes).1 yes),
   (((H (sending id) 31 1).2.1 (nakFlitOf Port.reset 4) true yes).2.1 yes),
   (((H (sending id) 31 1).2.1 (laneSwapFlit 7) true yes).2.2.1 yes),
   (((H (sending id) 31 1).2.1 (lastWordsFlit 4) true yes).2.2.2 yes)⟩

theorem witness_MessagesTakeEffect (H : Obligations.MessagesTakeEffect) :
    Runs (.write 31 1 wHdr wData 2) (msgAt 1 wHdr wBody id) ∧
    Runs (.readReq 31 1 (rdHdr 5) 64) (msgAt 2 (rdHdr 5) (bytesOfNat 4 64) id) ∧
    Runs (.readRsp 31 1 rspHdr .ok wData 2) (msgAtPot 3 rspHdr (bytesOfNat 8 0 ++ wBody) (fun p => { p with remote := waitFor (.row 7) })) ∧
    Runs (.syncChg 31 1 (wordHdr 20 9) 9 5 true 3) (msgAt 4 (wordHdr 20 9) (chgBody 5 3 9) id) ∧
    Runs (.syncChg 31 1 (wordHdr 20 0) 9 5 true 3) (readyAt (msgAt 4 (wordHdr 20 0) (chgBody 5 3 9) id)) ∧
    Runs (.syncReq 31 1 (wordHdr 16 9) 0 0 3) (readyAt (msgAt 5 (wordHdr 16 9) (syncBody 0 0 false 3) id)) ∧
    Runs (.syncRsp 31 1 syncRspHdr .timeout 0xAB) syncRspAt ∧
    Runs (.streamAck 31 1 (msgHdr 5 4 0 31) 9) ackAt ∧
    Runs (.resync 31 1 (msgHdr 5 5 9 0) true) (msgAt 8 (msgHdr 5 5 9 0) (bytesOfNat 4 9 ++ [1]) id) ∧
    Runs (.cmd 31 1 cmdHdr 0 2 leafHdr []) cmdAt ∧
    Runs (.resolved 31 1 (msgHdr 5 5 (31 * 2 ^ 27 + 9) 0) 15 9) (msgAtPot 0xA (msgHdr 5 5 (31 * 2 ^ 27 + 9) 0) (bytesOfNat 1 15 ++ bytesOfNat 4 9) (fun p => { p with remote := waitFor (.member 5 9) })) ∧
    Runs (.partialResult 31 1 (msgHdr 5 13 9 0) 0 .ok 0 1 1 [1, 2]) (msgAt 0xB (msgHdr 5 13 9 0) partPayload id) ∧
    Runs (.partialResult 31 1 (msgHdr 5 13 (31 * 2 ^ 27 + 9) 0) 0 .ok 0 1 1 [1, 2]) partAt ∧
    Runs (.nodeLost 31 1 (msgHdr 5 2 0 0) 7) (msgAt 0xC (msgHdr 5 2 0 0) (bytesOfNat 2 7) id) ∧
    Runs (.mgmt 31 1 (msgHdr 5 8 0 0) 1 7 0xFFFFFFFF 15) (mgmtAt 1 0 0) ∧
    Runs (.mgmt 31 1 (msgHdr 5 8 0 0) 1 7 0xFFFFFFFF 15) (mgmtAt 1 4 0) ∧
    Runs (.mgmt 31 1 (msgHdr 5 8 0 0) 255 7 0xFFFFFFFF 15) (mgmtAt 255 4 63) ∧
    Runs (.readReq 31 1 (rdHdr 7) 64) (msgAt 2 (rdHdr 7) (bytesOfNat 4 64) id) ∧
    Runs (.deferredOpRelease 31 1) (portIn .up fun p => { p with deferral := [deferredOp_ 9, deferredOp_ 0], cts := [(ctKey 7 30, ⟨9, [], 0⟩)] }) ∧
    Runs (.strandTimeout 31 1) (portIn .up fun p => { p with deferral := [deferredOp_ 0, deferredOp_ 9] }) ∧
    Runs (.streamAckTimer 31 1 7 30) (portIn .up fun p => { p with cts := [(ctKey 7 30, ⟨9, [], 0⟩)] }) ∧
    Runs (.sptRouteWrite 7 0) (portIn .up id) ∧
    Runs (.sptRouteWrite 4095 0xFFFFFFFFFFFFFFFF) (portIn .up id) ∧
    Runs (.lossyClear 31 4095) (withPot 31 fun p => { p with streams := [(7, { StreamEnt.reset with lossy := true }), (4095, { StreamEnt.reset with lossy := true })] }) :=
  ⟨ran (((H.1 (msgAt 1 wHdr wBody id) 31 1 wHdr).1 yes).1 wData 2 ⟨yes, yes⟩ yes ⟨yes, yes⟩ yes yes),
   ran (((H.1 (msgAt 2 (rdHdr 5) (bytesOfNat 4 64) id) 31 1 (rdHdr 5)).1 yes).2.1 64 63 ⟨yes, yes⟩ yes yes),
   ran (((H.1 (msgAtPot 3 rspHdr (bytesOfNat 8 0 ++ wBody) (fun p => { p with remote := waitFor (.row 7) })) 31 1 rspHdr).1 yes).2.2.1 .ok wData 2 ⟨31 * 2 ^ 27 + 9, 7, 0, .row 7⟩ [⟨3, 7, 0, .row 1⟩] 7 ⟨yes, yes⟩ yes yes),
   ran ((((H.1 (msgAt 4 (wordHdr 20 9) (chgBody 5 3 9) id) 31 1 (wordHdr 20 9)).1 yes).2.2.2.1 9 5 true 3 ⟨yes, yes⟩ yes).1 yes),
   ran ((((H.1 (readyAt (msgAt 4 (wordHdr 20 0) (chgBody 5 3 9) id)) 31 1 (wordHdr 20 0)).1 yes).2.2.2.1 9 5 true 3 ⟨yes, yes⟩ yes).2 yes yes yes 31 65535 yes yes yes ⟨yes, yes, yes⟩ yes yes),
   ran (((H.1 (readyAt (msgAt 5 (wordHdr 16 9) (syncBody 0 0 false 3) id)) 31 1 (wordHdr 16 9)).1 yes).2.2.2.2.1 0 3 ⟨yes, yes⟩ yes yes yes ⟨yes, yes, yes⟩),
   ran (((H.1 syncRspAt 31 1 syncRspHdr).1 yes).2.2.2.2.2.1 .timeout 0xAB ⟨31 * 2 ^ 27 + 9, 7, 0, .sync (.hubSlot 3 3)⟩ [⟨3, 7, 0, .row 1⟩] 3 3 ⟨yes, yes⟩ yes yes),
   ran (((H.1 ackAt 31 1 (msgHdr 5 4 0 31)).1 yes).2.2.2.2.2.2.1 9 ⟨yes, yes⟩ yes yes yes yes),
   ran (((H.1 (msgAt 8 (msgHdr 5 5 9 0) (bytesOfNat 4 9 ++ [1]) id) 31 1 (msgHdr 5 5 9 0)).1 yes).2.2.2.2.2.2.2.1 true ⟨yes, yes⟩ yes),
   ran (((H.1 cmdAt 31 1 cmdHdr).1 yes).2.2.2.2.2.2.2.2.1 0 2 leafHdr [] 63 ⟨yes, yes⟩ yes yes yes),
   ran (((H.1 (msgAtPot 0xA (msgHdr 5 5 (31 * 2 ^ 27 + 9) 0) (bytesOfNat 1 15 ++ bytesOfNat 4 9) (fun p => { p with remote := waitFor (.member 5 9) })) 31 1 (msgHdr 5 5 (31 * 2 ^ 27 + 9) 0)).1 yes).2.2.2.2.2.2.2.2.2.1 15 9 ⟨31 * 2 ^ 27 + 9, 7, 0, .member 5 9⟩ 5 9 ⟨yes, yes⟩ yes yes),
   ran (((H.1 (msgAt 0xB (msgHdr 5 13 9 0) partPayload id) 31 1 (msgHdr 5 13 9 0)).1 yes).2.2.2.2.2.2.2.2.2.2.1 0 .ok 0 1 1 [1, 2] ⟨yes, yes⟩ yes),
   ran (((H.1 partAt 31 1 (msgHdr 5 13 (31 * 2 ^ 27 + 9) 0)).1 yes).2.2.2.2.2.2.2.2.2.2.2.1 0 .ok 0 1 1 [1, 2] ⟨31 * 2 ^ 27 + 9, 7, 0, .member 5 9⟩ [⟨3, 7, 0, .row 1⟩] 5 9 (cmd leafHdr .running [part 31] none) (part 31) ⟨yes, yes⟩ yes yes yes yes),
   ran (((H.1 (msgAt 0xC (msgHdr 5 2 0 0) (bytesOfNat 2 7) id) 31 1 (msgHdr 5 2 0 0)).1 yes).2.2.2.2.2.2.2.2.2.2.2.2.1 7 ⟨yes, yes⟩ yes),
   ran ((((H.1 (mgmtAt 1 0 0) 31 1 (msgHdr 5 8 0 0)).1 yes).2.2.2.2.2.2.2.2.2.2.2.2.2 1 7 0xFFFFFFFF 15 ⟨yes, yes⟩).1 yes yes),
   ran ((((H.1 (mgmtAt 1 4 0) 31 1 (msgHdr 5 8 0 0)).1 yes).2.2.2.2.2.2.2.2.2.2.2.2.2 1 7 0xFFFFFFFF 15 ⟨yes, yes⟩).2.1 yes yes yes yes yes),
   ran ((((H.1 (mgmtAt 255 4 63) 31 1 (msgHdr 5 8 0 0)).1 yes).2.2.2.2.2.2.2.2.2.2.2.2.2 255 7 0xFFFFFFFF 15 ⟨yes, yes⟩).2.2 yes yes),
   ran ((H.1 (msgAt 2 (rdHdr 7) (bytesOfNat 4 64) id) 31 1 (rdHdr 7)).2 64 63 yes ⟨yes, yes⟩ yes yes),
   ran ((H.2.1 (portIn .up fun p => { p with deferral := [deferredOp_ 9, deferredOp_ 0], cts := [(ctKey 7 30, ⟨9, [], 0⟩)] }) 31 1 (deferredOp_ 9) [deferredOp_ 0]).1 yes yes yes yes),
   ran ((H.2.1 (portIn .up fun p => { p with deferral := [deferredOp_ 0, deferredOp_ 9] }) 31 1 (deferredOp_ 9) [deferredOp_ 0]).2 yes yes),
   ran (H.2.2.1 (portIn .up fun p => { p with cts := [(ctKey 7 30, ⟨9, [], 0⟩)] }) 31 1 7 30 yes yes),
   ran (H.2.2.2.1 (portIn .up id) 7 0 yes),
   ran (H.2.2.2.1 (portIn .up id) 4095 0xFFFFFFFFFFFFFFFF yes),
   ran (H.2.2.2.2 (withPot 31 fun p => { p with streams := [(7, { StreamEnt.reset with lossy := true }), (4095, { StreamEnt.reset with lossy := true })] }) 31 4095 yes)⟩

theorem witness_RegisterAccess (H : Obligations.RegisterAccess) :
    Runs (.word0Read .host sncOff 4) up ∧
    Runs (.registerWrite .host (sncOff + 4) 8 7) up ∧
    Runs (.word0Read (.brewer 30 7) sncOff 8) up ∧
    Runs (.registerWrite (.brewer 30 7) sncOff 8 7) up ∧
    Runs (.word0Read .host 0x3FFFFF8 8) up ∧
    Runs (.registerWrite .host 0x3FFFFF8 8 7) up ∧
    Runs (.word0Read (.brewer 31 7) sncOff 8) up ∧
    Runs (.word0Read .host (sncOff + 8) 8) (withRegs fun r => { r with latches := [(4, ⟨potReg 31 0x6000, 2 ^ 64 + 5⟩)] }) ∧
    Runs (.registerWrite .sideband sncOff 8 7) up ∧
    Runs (.registerWrite (.brewer 31 3) slotOff 8 7) slotBusyAt ∧
    (exec (.word0Read .host sncOff 12) up = andThen (regRead up .host sncOff.toNat 8) (fun t => regRead t .host ((sncOff.toNat + 8) % 2 ^ 26) 4)) ∧
    (exec (.registerWrite .host sncOff 9 7) up = andThen (regWrite up .host sncOff.toNat 8 7) (fun t => regWrite t .host ((sncOff.toNat + 8) % 2 ^ 26) 1 7)) ∧
    Runs (.registerWrite .host 0 8 7) up ∧
    Runs (.registerWrite .host 0x5028 8 0xFFFFFFFF) up ∧
    Runs (.registerWrite .host 0x3000 8 0x0000000669696460) up ∧
    Runs (.word0Read (.hubCore 3) 0x48 8) (snapAt [] false) ∧
    Runs (.rwbApply .ket) (setBuffer up ketCtlKey 0x669696460) ∧
    Runs (.rwbApply (.snc 31)) (setBuffer up (potReg 31 0x6000) 0x1FFFF) ∧
    Runs (.indDataAccess .host .hub none) (indTo 1 2047 0 1) ∧
    Runs (.indDataAccess .host .hub (some 7)) (indTo 3 15 0 1) ∧
    Runs (.indDataAccess .host .hub none) (indTo 1 2048 0 1) ∧
    Runs (.indDataAccess .host .hub (some 0xFFFFFFFFFFFFFFFF)) (indTo 3 15 1 1) ∧
    Runs (.parityWalk .hub [ketHit]) standing63 ∧
    Runs (.snapshotStart 2 31 true) up ∧
    Runs (.snapshotStart 1 31 false) up ∧
    Runs (.snapshotLatch .hub) (snapAt [0, 32] true) ∧
    Runs (.snapshotLatch .hub) (snapAt [0, 32] false) ∧
    Runs (.snapshotLatch (.pot 31)) (snapAt [0, potWin 31] true) :=
  ⟨ran (((H.1 up .host sncOff yes).1 4 yes yes yes yes).1),
   ran (((H.1 up .host (sncOff + 4) yes).1 8 yes yes yes yes).2 7),
   ran (((H.1 up (.brewer 30 7) sncOff yes).2.1 8 yes yes yes).1),
   ran (((H.1 up (.brewer 30 7) sncOff yes).2.1 8 yes yes yes).2 7),
   ran (((H.1 up .host 0x3FFFFF8 yes).2.2.1 yes yes yes).1),
   ran (((H.1 up .host 0x3FFFFF8 yes).2.2.1 yes yes yes).2 7),
   ran (((H.1 up (.brewer 31 7) sncOff yes).2.2.2.1 (sncAt 0) yes yes yes yes yes yes).1 yes yes),
   ran (((H.1 (withRegs fun r => { r with latches := [(4, ⟨potReg 31 0x6000, 2 ^ 64 + 5⟩)] }) .host (sncOff + 8) yes).2.2.2.1 (sncAt 1) yes yes yes yes yes yes).2.1 (2 ^ 64 + 5) yes yes yes),
   ran (((H.1 up .sideband sncOff yes).2.2.2.1 (sncAt 0) yes yes yes yes yes yes).2.2.1 7 yes yes),
   ran (((H.1 slotBusyAt (.brewer 31 3) slotOff yes).2.2.2.1 slotReg yes yes yes yes yes yes).2.2.2 7 ((slotWriteHeld slotBusyAt slotReg).getD up) someGet),
   (((H.1 up .host sncOff yes).2.2.2.2 12 0 yes).1),
   (((H.1 up .host sncOff yes).2.2.2.2 9 7 yes).2),
   ran (((H.2.1 up .host 7 yes yes).1 yes).1),
   ran (((H.2.1 up .host 0xFFFFFFFF yes yes).1 yes).2.1),
   ran (((H.2.1 up .host 0x0000000669696460 yes yes).1 yes).2.2.1),
   ran (((H.2.1 (snapAt [] false) (.hubCore 3) 0 yes yes).1 yes).2.2.2),
   ran ((H.2.1 (setBuffer up ketCtlKey 0x669696460) .host 0 yes yes).2.1 0x669696460 yes),
   ran ((H.2.1 (setBuffer up (potReg 31 0x6000) 0x1FFFF) .host 0 yes yes).2.2 31 0x1FFFF yes yes),
   ran (((H.2.2.1 (indTo 1 2047 0 1) .host yes yes yes).1 ⟨2048, 1, some 0⟩ yes yes yes).1 yes),
   ran (((H.2.2.1 (indTo 3 15 0 1) .host yes yes yes).1 ⟨16, 2, some 1⟩ yes yes yes).2 7 yes),
   ran ((H.2.2.1 (indTo 1 2048 0 1) .host yes yes yes).2.1 ⟨2048, 1, some 0⟩ yes yes yes),
   ran ((H.2.2.1 (indTo 3 15 1 1) .host yes yes yes).2.2 0xFFFFFFFFFFFFFFFF yes yes yes yes),
   ran (H.2.2.2.1 standing63 ketHit yes yes yes yes yes),
   ran ((H.2.2.2.2 up yes yes).1 2 31 true yes yes),
   ran ((H.2.2.2.2 up yes yes).1 1 31 false yes yes),
   ran ((H.2.2.2.2 (snapAt [0, 32] true) yes yes).2.1 yes),
   ran ((H.2.2.2.2 (snapAt [0, 32] false) yes yes).2.1 yes),
   ran ((H.2.2.2.2 (snapAt [0, potWin 31] true) yes yes).2.2 31 yes yes)⟩

theorem witness_CuppingAndRecords (H : Obligations.CuppingAndRecords) :
    Runs (.cuppingStart) (withCup fun c => { c with ctl := 0xFFFFFFFF00000000 }) ∧
    Runs (.cuppingStart) latching ∧
    Runs (.cuppingPeriodTimer) (withCup fun c => { c with ctl := 0xFFFFFFFF80000000 }) ∧
    Runs (.cuppingLatch (.pot 31 47)) latching ∧
    Runs (.cuppingLatch (.hub 8)) latching ∧
    Runs (.cuppingLatch (.pot 31 47)) ({ latching with svc := { up.svc with retired := 0x80000000 } }) ∧
    Runs (.faultRecordAccept) (withCup fun c => { c with inbound := [7, 8], newest := 0xFFFFFFFF, held := 1024 }) ∧
    Runs (.faultRecordLost (.pot 31 0)) (withCup fun c => { c with inbound := List.replicate 64 0 }) ∧
    Runs (.traceRecord 31 47 2 .timeout 0xBEEF 4095 7 9 true) up ∧
    Runs (.traceRecord 31 47 2 .timeout 0xBEEF 4095 7 9 true) (tracing 3 2) ∧
    Runs (.cupMarkWrite 31 7 9) up ∧
    Runs (.cupMarkWrite 31 7 9) (tracing 1 2) ∧
    Runs (.traceEnable 31) (tracing 2 2) ∧
    Runs (.cupTracePop (.brewer 31 7) 31) (tracing 2 2) :=
  ⟨ran (((H.1 (withCup fun c => { c with ctl := 0xFFFFFFFF00000000 }) yes).1).1 yes),
   ran (((H.1 latching yes).1).2 yes),
   ran (((H.1 (withCup fun c => { c with ctl := 0xFFFFFFFF80000000 }) yes).2 yes).1 yes),
   ran (H.2.1 latching (.pot 31 47) yes yes),
   ran (H.2.1 latching (.hub 8) yes yes),
   ran (H.2.1 { latching with svc := { up.svc with retired := 0x80000000 } } (.pot 31 47) yes yes),
   ran (H.2.2.1 (withCup fun c => { c with inbound := [7, 8], newest := 0xFFFFFFFF, held := 1024 }) 7 [8] yes yes yes yes),
   ran (H.2.2.2.1 (withCup fun c => { c with inbound := List.replicate 64 0 }) (.pot 31 0) yes yes),
   ran (((H.2.2.2.2 up 31 yes).1 47 2 .timeout 0xBEEF 4095 7 9 true yes).1 yes),
   ran (((H.2.2.2.2 (tracing 3 2) 31 yes).1 47 2 .timeout 0xBEEF 4095 7 9 true yes).2 yes yes yes yes yes yes yes),
   ran (((H.2.2.2.2 up 31 yes).2.1 7 9).1 yes),
   ran (((H.2.2.2.2 (tracing 1 2) 31 yes).2.1 7 9).2 yes yes yes yes yes),
   ran (((H.2.2.2.2 (tracing 2 2) 31 yes).2.2 yes yes).1),
   ran (((H.2.2.2.2 (tracing 2 2) 31 yes).2.2 yes yes).2 (.brewer 31 7) yes)⟩

theorem witness_SidebandAndJtag (H : Obligations.SidebandAndJtag) :
    Runs (.read64) State.reset ∧
    Runs (.status) State.reset ∧
    Runs (.setOffset 0) State.reset ∧
    Runs (.write64 0 0) State.reset ∧
    Runs (.setOffset 0xFFFFFFFF) up ∧
    Runs (.read64) up ∧
    Runs (.read64) (sbAt fun b => { b with offset := 0x3004 }) ∧
    Runs (.write64 0x5028 0xFFFFFFFFFFFFFFFF) up ∧
    Runs (.status) (sbAt fun b => { b with status := 3 }) ∧
    Runs (.entdaa 0x7F) ({ up with pins := { up.pins with sbMode := true } }) ∧
    Runs (.bypass) up ∧
    Runs (.idcode) up ∧
    Runs (.samplePreload 0xFFFFFFFFFFFFFFFF) up ∧
    Runs (.extest) ({ up with jtag := ⟨.sample, 0, 0xFFFFFFFFFFFFFFFF, false⟩ }) ∧
    Runs (.testLogicReset) ({ up with jtag := ⟨.extest, 0, 5, true⟩ }) :=
  ⟨ran ((H.1 State.reset yes).1 yes .read64 yes),
   ran ((H.1 State.reset yes).1 yes .status yes),
   ran ((H.1 State.reset yes).1 yes (.setOffset 0) yes),
   ran ((H.1 State.reset yes).1 yes (.write64 0 0) yes),
   ran (((H.1 up yes).2.1 yes).1 0xFFFFFFFF),
   ran ((((H.1 up yes).2.1 yes).2 yes).1 yes),
   ran ((((H.1 (sbAt fun b => { b with offset := 0x3004 }) yes).2.1 yes).2 yes).2.1 yes yes),
   ran ((((H.1 up yes).2.1 yes).2 yes).2.2.1 0xFFFFFFFFFFFFFFFF),
   ran ((((H.1 (sbAt fun b => { b with status := 3 }) yes).2.1 yes).2 yes).2.2.2),
   ran ((H.1 { up with pins := { up.pins with sbMode := true } } yes).2.2.1 0x7F yes yes),
   ran ((H.1 up yes).2.2.2.1.1),
   ran ((H.1 up yes).2.2.2.1.2.1),
   ran ((H.1 up yes).2.2.2.1.2.2.1 0xFFFFFFFFFFFFFFFF),
   ran ((H.1 { up with jtag := ⟨.sample, 0, 0xFFFFFFFFFFFFFFFF, false⟩ } yes).2.2.2.1.2.2.2),
   ran ((H.1 { up with jtag := ⟨.extest, 0, 5, true⟩ } yes).2.2.2.2)⟩

theorem witness_WellFormedCommandsComplete (H : Obligations.WellFormedCommandsComplete) :
    Runs (.warmModuleReset) State.reset ∧
    Runs (.put 31 1056) up ∧
    Runs (.flitReceive 31 1 (aFlit 5 0) true true) up ∧
    Runs (.ketMeasurementTick .hub []) up :=
  ⟨ran (H.1 .warmModuleReset State.reset),
   ran ((H.2.1 up 31 1056 yes (.put 31 1056) yes).2),
   ran (H.2.2.1 up 31 1 (aFlit 5 0) true yes),
   ran (H.2.2.2 up .hub [] yes)⟩

end Sys2Proof.Tests
end

namespace Sys2Proof.Machine

/-!
PROOFS. Organisation and addressing: CXL.mem by range, the blend table, the pot map, and the course of a host command. The laws of
tables, fields, memory and the front end that they share come first.
-/

/-! ### Tables -/

/-- A key that no entry lists reads as absent, in any order of the list. -/
theorem tfind_of_not_listed {α : Type} (m : SMap α) (k : Nat) (h : ∀ e ∈ m, e.1 ≠ k) : tfind m k = none := by
  induction m with
  | nil => rfl
  | cons e m ih =>
    obtain ⟨he, hm⟩ := List.forall_mem_cons.1 h
    simp [tfind, he, ih hm]

@[simp] theorem tfind_tdel_same {α : Type} (m : SMap α) (k : Nat) : tfind (tdel m k) k = none :=
  tfind_of_not_listed _ k fun e he => by simpa using (List.mem_filter.1 he).2

/-- Dropping keys from a canonical table leaves the others as they are. -/
theorem tfind_filter_keys {α : Type} (m : SMap α) (p : Nat → Bool) (k : Nat) (hm : tsorted m = true) (hk : p k = true) :
    tfind (m.filter fun e => p e.1) k = tfind m k := by
  induction m with
  | nil => rfl
  | cons e m ih =>
    obtain ⟨hab, hs⟩ := (tsorted_cons e m).1 hm
    by_cases hp : p e.1 = true
    · simp [hp, tfind, ih hs]
    · have hne : e.1 ≠ k := fun h => hp (h ▸ hk)
      simp only [List.filter_cons, hp, Bool.false_eq_true, if_false, ih hs, tfind, hne]
      split
      · exact tfind_above m k fun x hx => lt_trans ‹_› (hab x hx)
      · rfl

/-- A function applied to every value of a table is applied to what a key reads. -/
theorem tfind_map_values {α : Type} (m : SMap α) (f : α → α) (k : Nat) :
    tfind (m.map fun e => (e.1, f e.2)) k = (tfind m k).map f := by
  induction m with
  | nil => rfl
  | cons e m ih =>
    simp only [List.map_cons, tfind, ih]
    split_ifs <;> rfl

/-! ### Fields and bytes -/

/-- A field of a number that is cut to the word's width, where the field lies inside the word. -/
theorem fieldN_ofNat (n v lo len : Nat) (h : lo + len ≤ n) : fieldN (BitVec.ofNat n v) lo len = v / 2 ^ lo % 2 ^ len := by
  obtain ⟨k, rfl⟩ := Nat.exists_eq_add_of_le h
  have e : 2 ^ (lo + len + k) = 2 ^ lo * (2 ^ len * 2 ^ k) := by rw [Nat.pow_add, Nat.pow_add, Nat.mul_assoc]
  rw [fieldN, BitVec.toNat_ofNat, e, Nat.mod_mul_right_div_self, Nat.mod_mul_right_mod]

theorem natOfBytes_byte (bs : List Byte) (i : Nat) : natOfBytes bs / 2 ^ (8 * i) % 2 ^ 8 = (nth bs i 0).toNat := by
  induction bs generalizing i with
  | nil => simp [natOfBytes, nth]
  | cons b bs ih =>
    have hb := b.isLt
    cases i with
    | zero => simp [natOfBytes, nth]; omega
    | succ i =>
      have e : 2 ^ (8 * (i + 1)) = 256 * 2 ^ (8 * i) := by rw [Nat.mul_add, Nat.pow_add, Nat.mul_comm]
      have hd : (b.toNat + 256 * natOfBytes bs) / 256 = natOfBytes bs := by omega
      rw [natOfBytes, e, ← Nat.div_div_eq_div_mul, hd, ih i]
      simp [nth]

/-- Byte `i` of a line is element `i` of its list of bytes. -/
theorem fieldN_lineOfBytes (bs : List Byte) (i : Nat) (hi : i < 64) : fieldN (lineOfBytes bs) (8 * i) 8 = (nth bs i 0).toNat := by
  rw [lineOfBytes, fieldN_ofNat _ _ _ _ (by omega), natOfBytes_byte]

@[simp] theorem bytesOfNat_length (k v : Nat) : (bytesOfNat k v).length = k := by
  induction k generalizing v with
  | zero => rfl
  | succ k ih => simp [bytesOfNat, ih]

/-! ### Memory and steps -/

/-- The bytes read the same where the stores are the same. -/
theorem sameBytes_of_stores {s t : State} (hd : t.dram = s.dram) (ht : t.tray = s.tray) (hm : t.trayMeta = s.trayMeta) :
    sameBytes s t := by
  simp [sameBytes, trayWordPoison, metaOf, hd, ht, hm]

/-- Nothing beside the host front end changes. -/
def onlyHfe (s t : State) : Prop := ∃ x, t = { s with hfe := x }

theorem onlyHfe.trans {s t u : State} (h : onlyHfe s t) (k : onlyHfe t u) : onlyHfe s u := by
  obtain ⟨x, rfl⟩ := h
  obtain ⟨y, rfl⟩ := k
  exact ⟨y, rfl⟩

theorem onlyHfe.potOf_eq {s t : State} (h : onlyHfe s t) (n : PotIx) : potOf t n = potOf s n := by
  obtain ⟨x, rfl⟩ := h
  rfl

theorem onlyHfe.sameBytes {s t : State} (h : onlyHfe s t) : sameBytes s t := by
  obtain ⟨x, rfl⟩ := h
  exact sameBytes_of_stores rfl rfl rfl

theorem sameBytes.refl (s : State) : sameBytes s s := sameBytes_of_stores rfl rfl rfl

theorem sameBytes.trans {s t u : State} (h : sameBytes s t) (k : sameBytes t u) : sameBytes s u := by
  obtain ⟨hd, ht, hp⟩ := h
  obtain ⟨kd, kt, kp⟩ := k
  exact ⟨fun a => (kd a).trans (hd a), fun a => (kt a).trans (ht a), fun w => (kp w).trans (hp w)⟩

/-- A relation that every single step keeps to holds from the first state of a list of steps to the last. -/
theorem runAll_rel {α : Type} {R : State → State → Prop} (refl : ∀ s, R s s) (trans : ∀ {s t u}, R s t → R t u → R s u)
    {f : State → α → State} (step : ∀ t x, R t (f t x)) (l : List α) (s : State) : R s (runAll f l s) := by
  induction l generalizing s with
  | nil => exact refl s
  | cons x l ih => exact trans (step s x) (ih (f s x))

/-! ### The blend table (R39 to R41) -/

theorem commitResult_lt (s : State) (e : Nat) : commitResult s e < 4 := by
  simp only [commitResult]
  split_ifs <;> omega

theorem blendCtlDone_result (e result : Nat) (he : e < 256) (hr : result < 8) : fieldN (blendCtlDone e result) 11 3 = result := by
  rw [blendCtlDone, fieldN_ofNat _ _ _ _ (by omega)]
  omega

theorem blendCtlDone_entry (e result : Nat) (he : e < 256) : fieldN (blendCtlDone e result) 0 8 = e := by
  rw [blendCtlDone, fieldN_ofNat _ _ _ _ (by omega)]
  omega

/-- A table after a value for each of some consecutive keys has been written from `base` on. -/
theorem tget_foldl_tset {α : Type} (v : Nat → α) (base : Nat) (rs : List Nat) (m : SMap α) (k : Nat) (d : α) :
    tget (rs.foldl (fun m r => tset m (base + r) (v r)) m) k d =
      if base ≤ k ∧ k - base ∈ rs then v (k - base) else tget m k d := by
  induction rs generalizing m with
  | nil => simp
  | cons r rs ih =>
    rw [List.foldl_cons, ih, tget_tset]
    by_cases hr : k = base + r
    · subst hr; simp
    · have : base ≤ k → k - base ≠ r := by omega
      by_cases hk : base ≤ k <;> simp [hr, hk, this]

/-- The table in which an entry's sixteen records are the staged ones (R40). -/
def committedTable (s : State) (e : Nat) : SMap (BitVec 128) :=
  (upto 16).foldl (fun m r => tset m (e * 16 + r) (committedRec s r)) s.blend.table

/-- The state after a commit or clear of entry `e` has ended with `result`. -/
def blendEnded (s : State) (table : SMap (BitVec 128)) (e result : Nat) : State :=
  { s with blend := { s.blend with table := table, ctl := blendCtlDone e result } }

/-- The register shows the entry and the result; of the state the table and the register change only. -/
theorem blendEnded_spec (s : State) (table : SMap (BitVec 128)) (e result : Nat) (he : e < 256) (hr : result < 8) :
    fieldN (blendEnded s table e result).blend.ctl 11 3 = result ∧ fieldN (blendEnded s table e result).blend.ctl 0 8 = e ∧
      blendEnded s table e result = { s with blend := { s.blend with
        table := (blendEnded s table e result).blend.table, ctl := (blendEnded s table e result).blend.ctl } } :=
  ⟨blendCtlDone_result e result he hr, blendCtlDone_entry e result he, rfl⟩

theorem blendEnded_table (s : State) (table : SMap (BitVec 128)) (e result : Nat) :
    (blendEnded s table e result).blend.table = table := rfl

/-- A commit that passes gives its entry the staged records and no other entry any. -/
theorem blendRec_blendEnded_commit (s : State) (e result f r : Nat) (hr : r < 16) :
    blendRec (blendEnded s (committedTable s e) e result) f r = if f = e then committedRec s r else blendRec s f r := by
  simp only [blendRec, blendEnded, committedTable, tget_foldl_tset, upto, List.mem_range]
  by_cases hf : f = e
  · subst hf; simp [hr]
  · have : ¬(e * 16 ≤ f * 16 + r ∧ f * 16 + r - e * 16 < 16) := by omega
    simp [hf, this]

/-- Whether the commit passes or not, another entry's record stays. -/
theorem blendRec_commit_other (s : State) (e result f r : Nat) (passes : Prop) [Decidable passes] (hf : f ≠ e) (hr : r < 16) :
    blendRec (blendEnded s (if passes then committedTable s e else s.blend.table) e result) f r = blendRec s f r := by
  split
  · rw [blendRec_blendEnded_commit _ _ _ _ _ hr, if_neg hf]
  · rfl

theorem exec_commit (s : State) (e : BitVec 8) (hon : hubOn s = true) (hbad : regBad s blendKey = false) :
    exec (.commit e) s = .next (blendEnded s
      (if commitResult s e.toNat = 0 then committedTable s e.toNat else s.blend.table) e.toNat (commitResult s e.toNat)) := by
  show execCommit e s = _
  simp only [execCommit, hbad, hon, whenDo, if_true, Bool.false_eq_true, if_false]
  rfl

theorem exec_clear (s : State) (e : BitVec 8) (hon : hubOn s = true) (hbad : regBad s blendKey = false) :
    exec (.clear e) s = .next (blendEnded s (s.blend.table.filter fun x => x.1 / 16 != e.toNat) e.toNat 0) := by
  show execClear e s = _
  simp only [execClear, hbad, hon, whenDo, if_true, Bool.false_eq_true, if_false]
  rfl

/-- A record of a cleared entry reads as one that was never committed, which is not valid (R39). -/
theorem recValid_clear (s : State) (e r : Nat) (hr : r < 16) :
    recValid (blendRec (blendEnded s (s.blend.table.filter fun x => x.1 / 16 != e) e 0) e r) = false := by
  have hnone : tfind (s.blend.table.filter fun x => x.1 / 16 != e) (e * 16 + r) = none :=
    tfind_of_not_listed _ _ fun x hx hk => by
      have := (List.mem_filter.1 hx).2
      simp only [bne_iff_ne, ne_eq] at this
      omega
  simp only [blendRec, blendEnded, tget, hnone, Option.getD_none]
  decide

theorem blendRec_clear_other (s : State) (e f r : Nat) (hs : tsorted s.blend.table = true) (hf : f ≠ e) (hr : r < 16) :
    blendRec (blendEnded s (s.blend.table.filter fun x => x.1 / 16 != e) e 0) f r = blendRec s f r := by
  have hk : ((f * 16 + r) / 16 != e) = true := by simp only [bne_iff_ne, ne_eq]; omega
  simp only [blendRec, blendEnded, tget, tfind_filter_keys _ (fun k => k / 16 != e) _ hs hk]

/-- Settles O27: a commit writes the sixteen records of its entry in turn, and a clear drops its entry's keys from the table. -/
theorem blendTableCommands : Obligations.BlendTableCommands := by
  unfold Obligations.BlendTableCommands
  constructor
  · intro s e hon hbad
    obtain ⟨hres, hent, hframe⟩ := blendEnded_spec s (if commitResult s e.toNat = 0 then committedTable s e.toNat else s.blend.table)
      e.toNat (commitResult s e.toNat) e.isLt (Nat.lt_trans (commitResult_lt s _) (by decide))
    refine ⟨_, exec_commit s e hon hbad, hres, hent, ?_, ?_, ?_, hframe⟩
    · intro h0 r hr
      rw [if_pos h0, blendRec_blendEnded_commit _ _ _ _ _ hr, if_pos rfl]
    · intro h0
      rw [if_neg h0, blendEnded_table]
    · intro f r hf hr
      exact blendRec_commit_other s _ _ f r _ hf hr
  · intro s e hon hbad hs
    obtain ⟨hres, hent, hframe⟩ := blendEnded_spec s (s.blend.table.filter fun x => x.1 / 16 != e.toNat) e.toNat 0 e.isLt (by decide)
    exact ⟨_, exec_clear s e hon hbad, hres, hent, fun r hr => recValid_clear s _ r hr,
      fun f r hf hr => blendRec_clear_other s _ f r hs hf hr, hframe⟩

/-! ### The pot map (R26 to R30) -/

theorem exec_potMapWrite (s : State) (e : BitVec 11) (v : BitVec 32) (hfw : s.fw.running = true)
    (hno : tfind s.map.changes e.toNat = none) (hst : entState v ≠ 3) :
    exec (.potMapWrite e v) s =
      .next { s with map := { s.map with changes := tset s.map.changes e.toNat (putField v 25 7 0) } } := by
  show execPotMapWrite e v s = _
  simp [execPotMapWrite, whenDo, hfw, hno, hst]

/-- The change is applied; an UNMIRROR that asked for it is done, which shows in HUB_SVC_CTL alone (R462). -/
theorem exec_potMapChangeApply (s : State) (e : BitVec 11) (v : BitVec 32) (hv : tfind s.map.changes e.toNat = some v)
    (hfree : entryInUse s e.toNat = false) :
    ∃ svc, exec (.potMapChangeApply e) s = .next { serveWaiters (setMapEntry s e.toNat v) with svc := svc } := by
  have hexec : exec (.potMapChangeApply e) s = execPotMapChangeApply e s := rfl
  simp only [hexec, execPotMapChangeApply, hv, hfree, whenDo, Bool.not_false, if_true, applyMapChange]
  split
  · exact ⟨_, rfl⟩
  · exact ⟨_, rfl⟩

/-- Every pot drops its copy of the entry and its note that the copy was lost. -/
theorem potOf_setMapEntry (s : State) (ix : Nat) (v : BitVec 32) (n : PotIx) :
    potOf (setMapEntry s ix v) n =
      { potOf s n with mapCopy := tdel (potOf s n).mapCopy ix, mapLost := (potOf s n).mapLost.filter (· != ix) } := by
  simp only [potOf, tget, setMapEntry]
  rw [tfind_map_values s.pots fun p => { p with mapCopy := tdel p.mapCopy ix, mapLost := p.mapLost.filter (· != ix) }]
  cases tfind s.pots n.toNat <;> rfl

@[simp] theorem hubEntry_setMapEntry_same (s : State) (ix : Nat) (v : BitVec 32) : hubEntry (setMapEntry s ix v) ix = pairOf v := by
  simp [hubEntry, setMapEntry]

/-- A pot resolves the changed entry through the hub's. -/
theorem potEntry_setMapEntry_same (s : State) (ix : Nat) (v : BitVec 32) (n : PotIx) :
    potEntry (setMapEntry s ix v) n ix = pairOf v := by
  simp [potEntry, potOf_setMapEntry, tget]

/-- Settles O28: the request lists the change alone; the apply is `setMapEntry`, after which what waited is served. -/
theorem potMapChanges : Obligations.PotMapChanges := by
  unfold Obligations.PotMapChanges
  constructor
  · intro s e v hfw hno hst
    refine ⟨_, exec_potMapWrite s e v hfw hno hst, tfind_tset_same _ _ _, ?_, rfl⟩
    intro a ha
    simp [entryChanging, homeChanging, ha]
  · intro s e v hv hfree _ _
    obtain ⟨svc, hexec⟩ := exec_potMapChangeApply s e v hv hfree
    refine ⟨_, hexec, setMapEntry s e.toNat v, tfind_tset_same _ _ _, tfind_tdel_same _ _, ?_, ?_,
      sameBytes_of_stores rfl rfl rfl, rfl⟩
    · exact fun n => ⟨by simp [potOf_setMapEntry], potEntry_setMapEntry_same s _ v n⟩
    · exact fun j hj => tfind_tset_other _ _ _ _ hj

/-! ### CXL.mem reads (R28, R29, R32, R323, R339) -/

/-- An aligned DPA is the start of its own line. -/
theorem lineStart_of_aligned {d : Nat} (h : d % 64 = 0) : d / 64 * 64 = d :=
  Nat.div_mul_cancel (Nat.dvd_of_mod_eq_zero h)

/-- Past the data range, or while HFE_INTERLEAVE is faulted, a DPA reaches no data (R493). -/
theorem not_data {s : State} {d : Nat} (h : dataEnd s ≤ d ∨ regBad s ilKey = true) :
    ¬(d < dataEnd s ∧ (!regBad s ilKey) = true) := by
  rcases h with h | h <;> simp [h]

/-- An access whose entry is being changed is not served (R29). -/
theorem addrServed_of_entryChanging {s : State} {a : BitVec 41} (viewer : PotIx) (h : entryChanging s a = true) :
    addrServed s viewer a = false := by
  have hc : homeChanging s (homeIx a) = true := h
  simp [addrServed, hc]

section CxlMem
variable {s : State} {h : BitVec 1} {dpa : BitVec 42}

theorem exec_cxlMemRead_served (hs : headServes s h = true) (ha : dpa.toNat % 64 = 0) (hd : dpa.toNat < dataEnd s)
    (hil : regBad s ilKey = false)
    (hok : addrServed s (homePot (dpaToModule s dpa.toNat)) (dpaToModule s dpa.toNat) = true) :
    exec (.cxlMemRead h dpa) s = .next (dataRead s h dpa) := by
  show execCxlMemRead h dpa s = _
  simp [execCxlMemRead, lineStart_of_aligned ha, hs, hd, hil, hok]

theorem exec_cxlMemRead_waits (hs : headServes s h = true) (ha : dpa.toNat % 64 = 0) (hd : dpa.toNat < dataEnd s)
    (hil : regBad s ilKey = false)
    (hno : addrServed s (homePot (dpaToModule s dpa.toNat)) (dpaToModule s dpa.toNat) = false) :
    exec (.cxlMemRead h dpa) s = .next (waitAccess s (.read h dpa)) := by
  show execCxlMemRead h dpa s = _
  simp [execCxlMemRead, lineStart_of_aligned ha, hs, hd, hil, hno]

theorem exec_cxlMemRead_hole (hs : headServes s h = true) (ha : dpa.toNat % 64 = 0)
    (hd : dataEnd s ≤ dpa.toNat ∨ regBad s ilKey = true) (hr : dpa.toNat < apertureBase ∨ windowEnd ≤ dpa.toNat) :
    exec (.cxlMemRead h dpa) s =
      .next (cxlAnswer (takeFreeBytes 64 (bumpHfe s 0 1)).2 h dpa (lineOfBytes (takeFreeBytes 64 (bumpHfe s 0 1)).1) true) := by
  show execCxlMemRead h dpa s = _
  simp only [execCxlMemRead, lineStart_of_aligned ha, hs, if_neg (not_data hd), if_pos hr, Bool.not_true,
    Bool.false_eq_true, if_false, BitVec.ofNat_toNat, BitVec.setWidth_eq]

theorem exec_cxlMemRead_aperture (hs : headServes s h = true) (ha : dpa.toNat % 64 = 0) (hd : dataEnd s ≤ dpa.toNat)
    (hb : apertureBase ≤ dpa.toNat) (hw : dpa.toNat < windowBase) :
    exec (.cxlMemRead h dpa) s = .next (cxlAnswer s h dpa 0 false) := by
  show execCxlMemRead h dpa s = _
  have hd' : ¬dpa.toNat < dataEnd s := by omega
  have hr : ¬(dpa.toNat < apertureBase ∨ windowEnd ≤ dpa.toNat) := by simp only [windowEnd, windowBase] at *; omega
  simp [execCxlMemRead, lineStart_of_aligned ha, hs, hd', hr, hw]

theorem exec_cxlMemRead_window (hs : headServes s h = true) (ha : dpa.toNat % 64 = 0) (hd : dataEnd s ≤ dpa.toNat)
    (hw : windowBase ≤ dpa.toNat) (he : dpa.toNat < windowEnd) :
    exec (.cxlMemRead h dpa) s = .next (cxlAnswer (windowRead s (dpa.toNat - windowBase)).1 h dpa
      (windowRead s (dpa.toNat - windowBase)).2 false) := by
  show execCxlMemRead h dpa s = _
  have hd' : ¬dpa.toNat < dataEnd s := by omega
  have hr : ¬(dpa.toNat < apertureBase ∨ windowEnd ≤ dpa.toNat) := by simp only [apertureBase, windowBase] at *; omega
  have hw' : ¬dpa.toNat < windowBase := by omega
  simp [execCxlMemRead, lineStart_of_aligned ha, hs, hd', hr, hw']

theorem exec_syncViewRead (hs : headServes s h = true) (n : PotIx) (ix : BitVec 16) :
    exec (.syncViewRead h n ix) s =
      .next (cxlAnswer (windowRead s (0x1000000 + n.toNat * 2 ^ 20 + ix.toNat / 4 * 64)).1 h
        (BitVec.ofNat 42 (windowBase + (0x1000000 + n.toNat * 2 ^ 20 + ix.toNat / 4 * 64)))
        (windowRead s (0x1000000 + n.toNat * 2 ^ 20 + ix.toNat / 4 * 64)).2 false) := by
  have e : ix.toNat * 16 / 64 = ix.toNat / 4 := by omega
  show execSyncViewRead h n ix s = _
  simp only [execSyncViewRead, whenDo, hs, if_true, e]

/-- The answer to a read of the data range is the two words at its module address, poisoned when either is. -/
theorem dataRead_answer (s : State) (h : BitVec 1) (dpa : BitVec 42) :
    ∃ a b : AddrRead, (readAddrN (homePot (dpaToModule s dpa.toNat)) hostRead 2 s (dpaToModule s dpa.toNat)).2 = [a, b] ∧
      (dataRead s h dpa).out.cxl = some (h, dpa, lineOfBytes (a.bytes ++ b.bytes), a.poison || b.poison) :=
  ⟨_, _, rfl, by simp [dataRead, readAddrN]⟩

/-- Free bytes change neither memory, nor a pot, nor the front end. -/
theorem takeFreeBytes_keeps (n : Nat) (s : State) : sameBytes s (takeFreeBytes n s).2 ∧
    (takeFreeBytes n s).2.pots = s.pots ∧ (takeFreeBytes n s).2.hfe = s.hfe := by
  have e := (takeFreeBytes_frame n s).1
  exact ⟨sameBytes_of_stores (congrArg State.dram e :) (congrArg State.tray e :) (congrArg State.trayMeta e :),
    (congrArg State.pots e :), (congrArg State.hfe e :)⟩

end CxlMem

/-- The first 4 MiB of the window are the completion records (R339). -/
theorem windowRead_records (s : State) (off : Nat) (h : off < 0x400000) :
    windowRead s off = (s, tget s.hfe.records (off / 64) 0) := by
  simp only [windowRead, if_pos h]

/-- Settles O16, range by range. -/
theorem cxlReadsByRange : Obligations.CxlReadsByRange := by
  unfold Obligations.CxlReadsByRange
  refine ⟨fun s h dpa hs ha hd hil => ⟨fun hok => ?_, fun hwait => ?_⟩, fun s h dpa hs ha hd hr => ?_,
    fun s h dpa hs ha hd hb he => ⟨fun hw => ?_, fun hw hrec => ?_, fun hw => ?_⟩, fun s h n ix hs => ?_⟩
  case refine_1 => exact ⟨_, exec_cxlMemRead_served hs ha hd hil hok, rfl, dataRead_answer s h dpa⟩
  case refine_2 =>
    have hno := hwait.elim (addrServed_of_entryChanging _) id
    exact ⟨_, exec_cxlMemRead_waits hs ha hd hil hno, rfl⟩
  case refine_3 =>
    obtain ⟨hbytes, hpots, hhfe⟩ := takeFreeBytes_keeps 64 (bumpHfe s 0 1)
    exact ⟨_, exec_cxlMemRead_hole hs ha hd hr, ⟨_, rfl⟩, hhfe, hbytes, hpots⟩
  case refine_4 => exact ⟨_, exec_cxlMemRead_aperture hs ha hd hb hw, rfl⟩
  case refine_5 =>
    refine ⟨_, exec_cxlMemRead_window hs ha hd hw he, ?_⟩
    rw [windowRead_records s _ (by omega)]
    rfl
  case refine_6 =>
    exact ⟨_, exec_cxlMemRead_window hs ha hd (Nat.le_trans (Nat.le_add_right _ _) hw) he, rfl⟩
  case refine_7 =>
    refine ⟨_, exec_syncViewRead hs n ix, _, _, rfl, ?_, rfl⟩
    have hn := n.isLt
    have hix := ix.isLt
    rw [BitVec.toNat_ofNat, windowBase]
    omega

/-! ### CXL.mem writes (R28, R29, R32, R323 to R326, R339) -/

section CxlMem
variable {s : State} {h : BitVec 1} {dpa : BitVec 42}

theorem exec_cxlMemWrite_served (hs : headServes s h = true) (ha : dpa.toNat % 64 = 0) (hd : dpa.toNat < dataEnd s)
    (hil : regBad s ilKey = false)
    (hok : addrServed s (homePot (dpaToModule s dpa.toNat)) (dpaToModule s dpa.toNat) = true) (l : Line) (m : Word64) (p : Bool) :
    exec (.cxlMemWrite h dpa l m p) s = .next (dataWrite s dpa l m p) := by
  show execCxlMemWrite h dpa l m p s = _
  simp [execCxlMemWrite, lineStart_of_aligned ha, hs, hd, hil, hok]

theorem exec_cxlMemWrite_waits (hs : headServes s h = true) (ha : dpa.toNat % 64 = 0) (hd : dpa.toNat < dataEnd s)
    (hil : regBad s ilKey = false)
    (hno : addrServed s (homePot (dpaToModule s dpa.toNat)) (dpaToModule s dpa.toNat) = false) (l : Line) (m : Word64) (p : Bool) :
    exec (.cxlMemWrite h dpa l m p) s = .next (waitAccess s (.write h dpa l m p)) := by
  show execCxlMemWrite h dpa l m p s = _
  simp [execCxlMemWrite, lineStart_of_aligned ha, hs, hd, hil, hno]

/-- Outside the data range a write is dropped and counted at a hole and at the window, and reaches a line buffer in the aperture. -/
theorem exec_cxlMemWrite_noData (hs : headServes s h = true) (ha : dpa.toNat % 64 = 0)
    (hd : dataEnd s ≤ dpa.toNat ∨ regBad s ilKey = true) (l : Line) (m : Word64) (p : Bool) :
    exec (.cxlMemWrite h dpa l m p) s = .next
      (if dpa.toNat < apertureBase ∨ windowEnd ≤ dpa.toNat then bumpHfe s 0 1
       else if dpa.toNat < windowBase then apertureWrite s h (dpa.toNat - apertureBase) l m
       else bumpHfe s 32 1) := by
  show execCxlMemWrite h dpa l m p s = _
  simp only [execCxlMemWrite, lineStart_of_aligned ha, hs, if_neg (not_data hd), Bool.not_true, Bool.false_eq_true, if_false,
    apply_ite Host.Outcome.next]

theorem exec_apertureLineWrite (hs : headServes s h = true) (off : BitVec 30) (l : Line) (m : Word64) :
    exec (.apertureLineWrite h off l m) s = .next (apertureWrite s h (off.toNat / 64 * 64) l m) := by
  show execApertureLineWrite h off l m s = _
  simp only [execApertureLineWrite, whenDo, hs, if_true]

end CxlMem

/-- A full mask writes both words of the line whole (R325). -/
theorem dataWrite_whole_line (s : State) (dpa : BitVec 42) (l : Line) (p : Bool) :
    dataWrite s dpa l (BitVec.allOnes 64) p =
      writeAddr (writeAddr s (homePot (dpaToModule s dpa.toNat)) (dpaToModule s dpa.toNat) hostWrite ((bytesOfLine l).take 32) p)
        (homePot (dpaToModule s dpa.toNat)) (dpaToModule s dpa.toNat + 32) hostWrite ((bytesOfLine l).drop 32) p := by
  have hlo : fieldB (BitVec.allOnes 64) 0 32 = BitVec.allOnes 32 := by decide
  have hhi : fieldB (BitVec.allOnes 64) 32 32 = BitVec.allOnes 32 := by decide
  have hlen : ((bytesOfLine l).drop 32).take 32 = (bytesOfLine l).drop 32 :=
    List.take_of_length_le (by simp [bytesOfLine])
  simp only [dataWrite, runAll, List.foldl_cons, List.foldl_nil, Nat.mul_zero, Nat.mul_one, hlo, hhi, if_true, List.drop_zero, hlen,
    BitVec.ofNat_eq_ofNat, BitVec.add_zero]

theorem onlyHfe_strayLines (s : State) (k : Nat) : onlyHfe s (strayLines s k) := ⟨_, rfl⟩

/-- A sequence takes a line, or the line is counted: nothing beside the front end changes (R327 to R330). -/
theorem onlyHfe_holdLine (s : State) (slot : Nat) (x : Slot) (line : Nat) (b : LineBuf) : onlyHfe s (holdLine s slot x line b) := by
  simp only [holdLine]
  split
  · exact (onlyHfe_strayLines s _).trans ⟨_, rfl⟩
  · exact (onlyHfe_strayLines s _).trans ⟨_, rfl⟩

theorem onlyHfe_lineArrives (s : State) (slot line : Nat) (b : LineBuf) : onlyHfe s (lineArrives s slot line b) := by
  have hstray : onlyHfe s (strayLines s 1) := onlyHfe_strayLines s 1
  have hdup : onlyHfe s (duplicateLine s) := ⟨_, rfl⟩
  have hhold (x : Slot) : onlyHfe s (holdLine s slot x line b) := onlyHfe_holdLine s slot x line b
  simp only [lineArrives]
  split
  · exact hstray
  · cases (slotOf s.hfe slot).state with
    | idle =>
      dsimp only
      split
      · exact hdup
      · exact hhold _
    | assembling =>
      dsimp only
      split_ifs
      · exact hstray
      · exact hstray
      · exact hdup
      · exact hhold _
    | waiting => exact hstray

theorem onlyHfe_apertureWrite (s : State) (h : BitVec 1) (off : Nat) (l : Line) (m : Word64) :
    onlyHfe s (apertureWrite s h off l m) := by
  simp only [apertureWrite]
  split_ifs
  · exact ⟨_, rfl⟩
  · exact onlyHfe.trans ⟨_, rfl⟩ (onlyHfe_lineArrives _ _ _ _)
  · exact ⟨_, rfl⟩

/-- A part of a line, written to a slot whose line buffers are free, is the one line buffer of that slot afterwards (R326). -/
theorem apertureWrite_first_part (s : State) (h : BitVec 1) (off : Nat) (l : Line) (m : Word64) (hoff : off < 2 ^ 22)
    (hm : m ≠ BitVec.allOnes 64) (hfree : (slotOf s.hfe (off / 1024)).bufs = []) :
    ∃ b : LineBuf, b.mask = m ∧ b.head = h ∧
      apertureWrite s h off l m = { s with
        hfe := setSlot s.hfe (off / 1024) { slotOf s.hfe (off / 1024) with bufs := tset [] (off / 64 % 16) b } } := by
  refine ⟨⟨lineOfBytes (mergeBytes (bytesOfLine 0) (bytesOfLine l) m.toNat), m, h⟩, rfl, rfl, ?_⟩
  have hin : ¬off / 2 ^ 22 ≠ 0 := not_not.2 (Nat.div_eq_of_lt hoff)
  have hmask : 0 ||| m = m := BitVec.zero_or
  simp only [apertureWrite, if_neg hin, hfree, tget, tfind, Option.getD_none, hmask, if_neg hm]

/-- Settles O17, range by range. -/
theorem cxlWritesByRange : Obligations.CxlWritesByRange := by
  unfold Obligations.CxlWritesByRange
  refine ⟨fun s h dpa l m p hs ha hd hil => ⟨fun hok => ?_, fun hwait => ?_⟩, fun s h dpa l m p hs ha hd => ?_,
    fun s h off l m hs => ⟨fun hoff => ?_, fun hoff hm hfree => ?_⟩⟩
  case refine_1 =>
    exact ⟨_, exec_cxlMemWrite_served hs ha hd hil hok l m p, rfl, fun hm => hm ▸ dataWrite_whole_line s dpa l p⟩
  case refine_2 =>
    have hno := hwait.elim (addrServed_of_entryChanging _) id
    exact ⟨_, exec_cxlMemWrite_waits hs ha hd hil hno l m p, rfl⟩
  case refine_3 =>
    have hexec := exec_cxlMemWrite_noData hs ha hd l m p
    refine ⟨fun hr => ?_, fun hb hw => ?_, fun hw he => ?_⟩
    · exact ⟨_, hexec, if_pos hr⟩
    · have hr : ¬(dpa.toNat < apertureBase ∨ windowEnd ≤ dpa.toNat) := by simp only [windowEnd, windowBase] at *; omega
      rw [if_neg hr, if_pos hw] at hexec
      exact ⟨_, hexec, rfl, (onlyHfe_apertureWrite _ _ _ _ _).sameBytes⟩
    · have hr : ¬(dpa.toNat < apertureBase ∨ windowEnd ≤ dpa.toNat) := by simp only [apertureBase, windowBase] at *; omega
      rw [if_neg hr, if_neg (by omega)] at hexec
      exact ⟨_, hexec, rfl⟩
  case refine_4 =>
    have hout : off.toNat / 64 * 64 / 2 ^ 22 ≠ 0 := by omega
    exact ⟨_, exec_apertureLineWrite hs off l m, by simp only [apertureWrite, if_pos hout]⟩
  case refine_5 =>
    have hslot : off.toNat / 64 * 64 / 1024 = off.toNat / 1024 := by omega
    have hline : off.toNat / 64 * 64 / 64 % 16 = off.toNat / 64 % 16 := by omega
    obtain ⟨b, hmask, hhead, hw⟩ := apertureWrite_first_part s h (off.toNat / 64 * 64) l m (by omega) hm (hslot ▸ hfree)
    rw [hslot, hline] at hw
    refine ⟨_, exec_apertureLineWrite hs off l m, ?_⟩
    rw [hw]
    exact ⟨⟨b, by simp, hmask, hhead⟩, fun j hj => slotOf_setSlot_other _ _ _ _ hj, rfl⟩

/-! ### Completion records (R340) -/

/-- The first two bytes of a record are STATE and the status. -/
theorem recordLine_state_status (state : Nat) (h : Line) (slot : BitVec 12) (seq : BitVec 16) (e : RecordEnd) :
    fieldN (recordLine state h slot seq e) 0 8 = state % 256 ∧ fieldN (recordLine state h slot seq e) 8 8 = e.status % 256 := by
  constructor
  · rw [recordLine, fieldN_lineOfBytes _ 0 (by decide)]
    simp [bytesOfNat, nth]
  · rw [recordLine, fieldN_lineOfBytes _ 1 (by decide)]
    simp [bytesOfNat, nth]

theorem statusCode_lt (st : Status) : statusCode st < 256 := by cases st <;> decide

@[simp] theorem writeRecord_read (s : State) (h l : Line) : tget (writeRecord s h l).hfe.records (hdrTag h).toNat 0 = l :=
  tget_tset_same _ _ _ _

theorem onlyHfe_writeRecord (s : State) (h l : Line) : onlyHfe s (writeRecord s h l) := ⟨_, rfl⟩

/-! ### The dispatch table (R337) -/

theorem cmdOf_id {s : State} {id : Nat} {c : Cmd} (h : cmdOf s id = some c) : c.id = id := by
  simpa using List.find?_some h

/-- A command that is no longer listed is not found. -/
theorem cmdOf_filtered {s t : State} {id : Nat} (h : t.hfe.table = s.hfe.table.filter fun c => c.id != id) : cmdOf t id = none := by
  rw [cmdOf, h, List.find?_eq_none]
  intro c hc
  simpa using (List.mem_filter.1 hc).2

theorem onlyHfe_updCmd (s : State) (id : Nat) (f : Cmd → Cmd) : onlyHfe s (updCmd s id f) := ⟨_, rfl⟩

theorem updCmd_table (s : State) (id : Nat) (f : Cmd → Cmd) :
    (updCmd s id f).hfe.table = s.hfe.table.map fun c => if c.id = id then f c else c := rfl

/-- A command with the number of the changed one is the changed one. -/
theorem mem_updCmd_table {s : State} {id : Nat} {f : Cmd → Cmd} {x : Cmd} (hx : x ∈ (updCmd s id f).hfe.table) (hid : x.id = id) :
    ∃ y, x = f y := by
  rw [updCmd_table] at hx
  obtain ⟨y, -, rfl⟩ := List.mem_map.1 hx
  by_cases hy : y.id = id
  · exact ⟨y, if_pos hy⟩
  · rw [if_neg hy] at hid
    exact absurd hid hy

/-- Two changes of one command in turn, the first of which keeps its number, are one change. -/
theorem updCmd_updCmd_table (s : State) (id : Nat) (f g : Cmd → Cmd) (hf : ∀ c, (f c).id = c.id) :
    (updCmd (updCmd s id f) id g).hfe.table = s.hfe.table.map fun c => if c.id = id then g (f c) else c := by
  rw [updCmd_table, updCmd_table, List.map_map]
  refine List.map_congr_left fun c _ => ?_
  by_cases hc : c.id = id <;> simp [hc, hf]

/-- The buffered write of HFE_CTL changes that register and the register fabric only (R344, R488). -/
theorem applyHfe_spec (s : State) : ∃ ctl regs, applyHfe s = { s with hfe := { s.hfe with ctl := ctl }, regs := regs } := by
  unfold applyHfe
  split
  · split
    · exact ⟨_, _, rfl⟩
    · exact ⟨_, _, rfl⟩
  · exact ⟨_, _, rfl⟩

/-- A command that leaves the table leaves the other commands, the answers no longer awaited and every byte of memory. -/
theorem dropCmd_spec (s : State) (id : Nat) :
    (dropCmd s id).hfe.table = s.hfe.table.filter (fun c => c.id != id) ∧ (dropCmd s id).hfe.expired = s.hfe.expired ∧
      sameBytes s (dropCmd s id) := by
  obtain ⟨ctl, regs, e⟩ := applyHfe_spec { s with hfe := { s.hfe with table := s.hfe.table.filter fun c => c.id != id } }
  rw [dropCmd, e]
  exact ⟨rfl, rfl, sameBytes_of_stores rfl rfl rfl⟩

/-! ### DISPATCH_ACCEPT (R330, R337, R340) -/

/-- The command that the sequence of a slot becomes. -/
def acceptedCmd (s : State) (slot : BitVec 12) (h : Line) : Cmd :=
  let x := slotOf s.hfe slot.toNat
  { id := s.hfe.nextId, slot := slot, seq := x.seq, head := (tget x.held 0 ⟨0, 0, 0⟩).head, header := h,
    payload := (between 1 (headerLines h)).map fun i => (tget x.held i ⟨0, 0, 0⟩).data,
    state := .queued, parts := [], status := none, detail := 0, infusion := hdrInf h, remoteOf := none, level := 0 }

/-- The front end after it: the slot is free, the record PENDING, the command last in the table. -/
def acceptedHfe (s : State) (slot : BitVec 12) (h : Line) (rest : List Nat) : Hfe :=
  let record := recordLine 1 h slot (slotOf s.hfe slot.toNat).seq { RecordEnd.zero with infusion := (hdrInf h).toNat }
  { freeSlot s.hfe slot.toNat with
    waitq := rest, records := tset s.hfe.records (hdrTag h).toNat record
    table := s.hfe.table ++ [acceptedCmd s slot h], nextId := s.hfe.nextId + 1 }

theorem exec_dispatchAccept {s : State} {slot : BitVec 12} {h : Line} {rest : List Nat}
    (hh : heldHeader (slotOf s.hfe slot.toNat) = some h) (hq : s.hfe.waitq = slot.toNat :: rest)
    (hw : (slotOf s.hfe slot.toNat).state = .waiting) (hp : s.hfe.pimOff = false) (hroom : (hostCmds s.hfe).length < 8192) :
    exec (.dispatchAccept slot) s = .next { s with hfe := acceptedHfe s slot h rest } := by
  show execDispatchAccept slot s = _
  simp only [execDispatchAccept, hh, hq, hw, hp, whenDo, hroom, decide_true, ne_eq, not_true_eq_false, or_self, if_false,
    Bool.false_eq_true, if_true]
  rfl

theorem acceptedHfe_slot (s : State) (slot : BitVec 12) (h : Line) (rest : List Nat) :
    (slotOf (acceptedHfe s slot h rest) slot.toNat).state = .idle := by
  have e : slotOf (acceptedHfe s slot h rest) slot.toNat = slotOf (freeSlot s.hfe slot.toNat) slot.toNat := rfl
  rw [e, freeSlot, slotOf_setSlot_same]

theorem acceptedHfe_record (s : State) (slot : BitVec 12) (h : Line) (rest : List Nat) :
    fieldN (tget (acceptedHfe s slot h rest).records (hdrTag h).toNat 0) 0 8 = 1 := by
  rw [acceptedHfe, tget_tset_same]
  exact (recordLine_state_status _ _ _ _ _).1

/-! ### COMMAND_DISPATCH (R21, R37, R337, R338) -/

section Dispatch
variable {s : State} {c : Cmd}

/-- A command without ORD is dispatched as soon as it is the first one queued. -/
theorem exec_commandDispatch (hc : s.hfe.table.find? (fun c => c.state == .queued) = some c) (hon : hubOn s = true)
    (hord : hdrOrd c.header = false) :
    exec .commandDispatch s =
      .next (dispatchCmd s c (fieldsOk s c.header) ((cmdPayload c).take (lfBytes c.header)) (operandAddr s c.header)) := by
  show execCommandDispatch s = _
  simp only [execCommandDispatch, hc, hon, hord, Bool.not_true, Bool.false_and, Bool.or_self, Bool.false_eq_true, if_false]

theorem dispatchCmd_refused (operand : List Byte) (addr : Option (BitVec 41)) :
    dispatchCmd s c false operand addr = updCmd s c.id fun x => { x with state := .running, status := some .rejected } := by
  simp only [dispatchCmd, Bool.not_false, Bool.true_or, if_true]

/-- The members with the keys that they get at dispatch. -/
def keyedParts (s : State) (ps : List Part) : List Part := ps.zipIdx.map fun x => { x.1 with key := s.hfe.nextId + x.2 }

/-- The state in which the command runs with its members and none of them has been sent. -/
def resolvedCmd (s : State) (c : Cmd) (m : Members) : State :=
  let ps := keyedParts s m.parts
  updCmd (countAbsent { s with hfe := { s.hfe with nextId := s.hfe.nextId + ps.length } } m.absent 0) c.id fun x =>
    { x with state := .running, parts := ps, status := if ps.isEmpty then some .absentUnit else none }

theorem dispatchCmd_resolved (hbad : (commandMembers s c.header c.level.toNat).bad = false) (operand : List Byte)
    (addr : Option (BitVec 41)) :
    dispatchCmd s c true operand addr =
      runAll (sendMember c c.level.toNat operand addr) (keyedParts s (commandMembers s c.header c.level.toNat).parts)
        (resolvedCmd s c (commandMembers s c.header c.level.toNat)) := by
  simp only [dispatchCmd, hbad, Bool.not_true, Bool.or_self, Bool.false_eq_true, if_false]
  rfl

theorem onlyHfe_resolvedCmd (m : Members) : onlyHfe s (resolvedCmd s c m) :=
  onlyHfe.trans (onlyHfe.trans ⟨_, rfl⟩ ⟨_, rfl⟩) (onlyHfe_updCmd _ _ _)

theorem resolvedCmd_table (m : Members) :
    (resolvedCmd s c m).hfe.table = s.hfe.table.map fun x => if x.id = c.id then
      { x with state := .running, parts := keyedParts s m.parts,
               status := if (keyedParts s m.parts).isEmpty then some .absentUnit else none } else x := rfl

/-- The keys leave the pots of the members as they are. -/
theorem keyedParts_pots (s : State) (ps : List Part) : (keyedParts s ps).map Part.pot = ps.map Part.pot := by
  have e : (Part.pot ∘ fun x : Part × Nat => { x.1 with key := s.hfe.nextId + x.2 }) = Part.pot ∘ Prod.fst := rfl
  rw [keyedParts, List.map_map, e, ← List.map_map, List.zipIdx_map_fst]

end Dispatch

@[simp] theorem sendFault_hfe (s : State) (f : FaultInfo) : (sendFault s f).hfe = s.hfe := (congrArg State.hfe (sendFault_frame s f) :)
@[simp] theorem sendFault_dram (s : State) (f : FaultInfo) : (sendFault s f).dram = s.dram :=
  (congrArg State.dram (sendFault_frame s f) :)
@[simp] theorem sendFault_tray (s : State) (f : FaultInfo) : (sendFault s f).tray = s.tray :=
  (congrArg State.tray (sendFault_frame s f) :)
@[simp] theorem sendFault_trayMeta (s : State) (f : FaultInfo) : (sendFault s f).trayMeta = s.trayMeta :=
  (congrArg State.trayMeta (sendFault_frame s f) :)
@[simp] theorem sendFault_pots (s : State) (f : FaultInfo) : (sendFault s f).pots = s.pots :=
  (congrArg State.pots (sendFault_frame s f) :)
@[simp] theorem potOf_sendFault (s : State) (f : FaultInfo) (n : PotIx) : potOf (sendFault s f) n = potOf s n := by
  simp [potOf]

/-- The front end, every byte of memory and every inbox are as they were. -/
def sameTraffic (s t : State) : Prop :=
  t.hfe = s.hfe ∧ sameBytes s t ∧ ∀ n, (potOf t n).inbox = (potOf s n).inbox

theorem sameTraffic.refl (s : State) : sameTraffic s s := ⟨rfl, sameBytes.refl s, fun _ => rfl⟩

theorem sameTraffic.trans {s t u : State} (h : sameTraffic s t) (k : sameTraffic t u) : sameTraffic s u := by
  obtain ⟨hh, hb, hi⟩ := h
  obtain ⟨kh, kb, ki⟩ := k
  exact ⟨kh.trans hh, hb.trans kb, fun n => (ki n).trans (hi n)⟩

/-- A change of a pot that keeps its inbox. -/
theorem sameTraffic_setPot (s : State) (n : PotIx) (p : Pot) (h : p.inbox = (potOf s n).inbox) : sameTraffic s (setPot s n p) := by
  refine ⟨rfl, sameBytes_of_stores rfl rfl rfl, fun m => ?_⟩
  by_cases hm : m = n
  · subst hm; rw [potOf_setPot_same, h]
  · rw [potOf_setPot_other _ _ _ _ hm]

theorem sameTraffic_sendFault (s : State) (f : FaultInfo) : sameTraffic s (sendFault s f) :=
  ⟨sendFault_hfe s f, sameBytes_of_stores (by simp) (by simp) (by simp), fun n => by simp⟩

/-- Resolving an entry may find the pot's copy lost, which is noted in the pot and reported (R28, R30). -/
theorem sameTraffic_resolveEntry (s : State) (viewer : PotIx) (ix : Nat) : sameTraffic s (resolveEntry s viewer ix).1 := by
  simp only [resolveEntry]
  split_ifs
  · exact sameTraffic.refl s
  · exact sameTraffic.refl s
  · exact (sameTraffic_setPot s viewer { potOf s viewer with mapLost := (potOf s viewer).mapLost ++ [ix] } rfl).trans
      (sameTraffic_sendFault _ _)

section Send
variable (c : Cmd) (level : Nat) (operand : List Byte) (addr : Option (BitVec 41))

/-- A member of this module reaches the inbox of its pot and no other (R21). -/
theorem sendMember_spec (s : State) (p : Part) (hp : p.pot ≠ none) :
    (sendMember c level operand addr s p).hfe = s.hfe ∧ sameBytes s (sendMember c level operand addr s p) ∧
      ∀ n, (potOf (sendMember c level operand addr s p) n).inbox.length =
        (potOf s n).inbox.length + if p.pot = some n then 1 else 0 := by
  obtain ⟨k, hk⟩ := Option.ne_none_iff_exists'.1 hp
  obtain ⟨hhfe, hbytes, hinbox⟩ := runAll_rel sameTraffic.refl sameTraffic.trans
    (fun t h => sameTraffic_resolveEntry t k h) p.homes s
  simp only [sendMember, hk]
  refine ⟨hhfe, hbytes.trans (sameBytes_of_stores rfl rfl rfl), fun n => ?_⟩
  by_cases hn : n = k
  · subst hn
    simp [fabTake, hinbox]
  · have hne : ¬k = n := fun e => hn e.symm
    simp [potOf_updPot_other _ _ _ _ hn, hinbox, hne]

/-- The members of this module that a command has each reach the inbox of their pot. -/
theorem sendMembers_spec (ps : List Part) (hps : ∀ p ∈ ps, p.pot ≠ none) (s : State) :
    (runAll (sendMember c level operand addr) ps s).hfe = s.hfe ∧
      sameBytes s (runAll (sendMember c level operand addr) ps s) ∧
      ∀ n, (potOf (runAll (sendMember c level operand addr) ps s) n).inbox.length =
        (potOf s n).inbox.length + (ps.map Part.pot).countP fun q => decide (q = some n) := by
  induction ps generalizing s with
  | nil => exact ⟨rfl, sameBytes.refl s, fun _ => rfl⟩
  | cons p ps ih =>
    obtain ⟨hp, hps'⟩ := List.forall_mem_cons.1 hps
    obtain ⟨h1, b1, i1⟩ := sendMember_spec c level operand addr s p hp
    obtain ⟨h2, b2, i2⟩ := ih hps' (sendMember c level operand addr s p)
    refine ⟨h2.trans h1, b1.trans b2, fun n => (i2 n).trans ?_⟩
    rw [i1, List.map_cons, List.countP_cons, Nat.add_assoc, Nat.add_comm (ite _ _ _)]
    simp

end Send

/-! ### Answers and losses (R45, R48, R49) -/

/-- The pot's oldest answer has left it, and its packet has given back its credit. -/
def answerLeaves (s : State) (n : PotIx) (rest : List MemberAns) : State :=
  updPot s n fun p => { fabGive p .cmb with answers := rest }

theorem memberOf_answerLeaves (s : State) (n : PotIx) (rest : List MemberAns) (key : Nat) :
    memberOf (answerLeaves s n rest) key = memberOf s key := rfl

theorem answerLeaves_answers (s : State) (n : PotIx) (rest : List MemberAns) : (potOf (answerLeaves s n rest) n).answers = rest := by
  rw [answerLeaves, potOf_updPot_same]

theorem answerLeaves_sameBytes (s : State) (n : PotIx) (rest : List MemberAns) : sameBytes s (answerLeaves s n rest) :=
  sameBytes_of_stores rfl rfl rfl

theorem memberOf_key {s : State} {key : Nat} {c : Cmd} {p : Part} (h : memberOf s key = some (c, p)) : p.key = key := by
  obtain ⟨x, -, hx⟩ := List.exists_of_findSome?_eq_some h
  obtain ⟨q, hq, e⟩ := Option.map_eq_some_iff.1 hx
  obtain ⟨-, rfl⟩ := Prod.mk.injEq .. ▸ e
  simpa using List.find?_some hq

theorem onlyHfe_takeAnswer (s : State) (a : MemberAns) : onlyHfe s (takeAnswer s a) := by
  unfold takeAnswer
  split
  · unfold lateAnswer
    split
    · exact ⟨_, rfl⟩
    · exact ⟨_, rfl⟩
  · split
    · exact ⟨_, rfl⟩
    · exact (onlyHfe_updCmd s _ _).trans (onlyHfe_updCmd _ _ _)

/-- The member that waits is answered, and the command keeps the answer's detail and infusion. -/
theorem takeAnswer_waiting {s : State} {a : MemberAns} {c : Cmd} {p : Part} (hm : memberOf s a.key = some (c, p))
    (hw : p.state = .waiting) :
    (takeAnswer s a).hfe.table = s.hfe.table.map fun x =>
      if x.id = c.id then
        { x with
          detail := a.detail, infusion := a.infusion.getD x.infusion
          parts := x.parts.map fun q =>
            if q.key = a.key then
              { q with state := .answered, expected := a.expected, answered := a.answered, status := a.status,
                       isPartial := a.isPartial, poison := a.poison, res := a.res }
            else q }
      else x := by
  simp only [takeAnswer, hm, hw, ne_eq, not_true_eq_false, if_false, memberOf_key hm]
  exact updCmd_updCmd_table s c.id _ _ fun _ => rfl

theorem takeAnswer_late {s : State} {a : MemberAns} {c : Cmd} {p : Part} (hm : memberOf s a.key = some (c, p))
    (hw : p.state ≠ .waiting) : takeAnswer s a = countLate s 1 := by
  simp only [takeAnswer, hm, if_pos hw]

theorem exec_memberAnswer {s : State} {n : PotIx} {a : MemberAns} {rest : List MemberAns} (h : (potOf s n).answers = a :: rest) :
    exec (.memberAnswer n) s = .next (takeAnswer (answerLeaves s n rest) a) := by
  show execMemberAnswer n s = _
  simp only [execMemberAnswer, h]
  rfl

theorem losePart_not_waiting (p : Part) : (losePart p).state ≠ .waiting := by
  unfold losePart
  split
  · simp
  · assumption

theorem exec_memberLost {s : State} {id : Nat} {n : PotIx} (h : (id, n) ∈ s.hfe.losses) :
    exec (.memberLost id n) s =
      .next (updCmd { s with hfe := { s.hfe with losses := s.hfe.losses.filter (· != (id, n)) } } id fun c =>
        { c with parts := c.parts.map fun p => if p.pot = some n then losePart p else p }) := by
  show execMemberLost id n s = _
  simp only [execMemberLost, whenDo, List.contains_iff_mem.2 h, if_true]

/-- No member of pot `n` waits after the pot's loss event. -/
theorem lostParts_not_waiting (ps : List Part) (n : PotIx) :
    ∀ p ∈ ps.map (fun p => if p.pot = some n then losePart p else p), p.pot = some n → p.state ≠ .waiting := by
  intro p hp hn
  obtain ⟨q, -, rfl⟩ := List.mem_map.1 hp
  by_cases hq : q.pot = some n
  · rw [if_pos hq]
    exact losePart_not_waiting q
  · rw [if_neg hq] at hn
    exact absurd hn hq

/-! ### Completion (R337, R338, R340) -/

/-- A host command that returns no value and asks for no vector ends in its record, DONE with its status. -/
theorem finishCmd_no_value (s : State) {c : Cmd} {st : Status} (part : Bool) (hr : c.remoteOf = none)
    (hv : cmdReturns c st = false) (hi : hdrIrq c.header = false) :
    ∃ e : RecordEnd, e.status = statusCode st ∧
      finishCmd s c st part = writeRecord (dropCmd (if st = .absentUnit then countAbsent s 0 1 else s) c.id) c.header
        (recordLine 2 c.header c.slot c.seq e) := by
  refine ⟨⟨statusCode st, cmdFlags c st part + 0 * 8, 0, sumParts c Part.expected, sumParts c Part.answered, c.detail.toNat,
    c.infusion.toNat, []⟩, rfl, ?_⟩
  simp only [finishCmd, hr, hv, recordDone, hi]
  simp

/-- The command is gone from the table and its record reads DONE with the status; of memory nothing changes. -/
theorem finishCmd_spec (s : State) {c : Cmd} {st : Status} (part : Bool) (hr : c.remoteOf = none)
    (hv : cmdReturns c st = false) (hi : hdrIrq c.header = false) (hst : st ≠ .absentUnit) :
    cmdOf (finishCmd s c st part) c.id = none ∧
      fieldN (tget (finishCmd s c st part).hfe.records (hdrTag c.header).toNat 0) 0 8 = 2 ∧
      fieldN (tget (finishCmd s c st part).hfe.records (hdrTag c.header).toNat 0) 8 8 = statusCode st ∧
      (finishCmd s c st part).hfe.expired = s.hfe.expired ∧ sameBytes s (finishCmd s c st part) := by
  obtain ⟨e, he, hf⟩ := finishCmd_no_value s part hr hv hi
  obtain ⟨htable, hexp, hbytes⟩ := dropCmd_spec s c.id
  obtain ⟨hstate, hstatus⟩ := recordLine_state_status 2 c.header c.slot c.seq e
  rw [hf, if_neg hst, writeRecord_read]
  refine ⟨cmdOf_filtered htable, hstate, ?_, hexp, hbytes.trans (onlyHfe_writeRecord _ _ _).sameBytes⟩
  rw [hstatus, he, Nat.mod_eq_of_lt (statusCode_lt st)]

theorem exec_commandComplete {s : State} {id : Nat} {c : Cmd} {st : Status} (hc : cmdOf s id = some c) (hst : c.status = some st) :
    exec (.commandComplete id) s = .next (finishCmd s c st false) := by
  show execCommandComplete id s = _
  simp only [execCommandComplete, hc, hst]

theorem exec_cmdTimeout {s : State} {id : Nat} {c : Cmd} (hc : cmdOf s id = some c) (hrun : c.state = .running)
    (hst : c.status = none) (hr : c.remoteOf = none) (hctl : fieldN (hfeCtl s) 0 32 ≠ 0) :
    exec (.cmdTimeout id) s =
      .next (finishCmd { s with hfe := { s.hfe with
          expired := s.hfe.expired ++ (c.parts.filter fun p => p.state == .waiting).map Part.key } } c .timeout
        (c.parts.any fun p => p.state == .answered)) := by
  show execCmdTimeout id s = _
  simp [execCmdTimeout, whenDo, hc, hrun, hst, hr, hctl]

/-! ### The course of a command -/

/-- The sent members are those resolved: the inboxes, the table and memory after the dispatch. -/
theorem dispatchCmd_sent {s : State} {c : Cmd} (hbad : (commandMembers s c.header c.level.toNat).bad = false)
    (hne : (commandMembers s c.header c.level.toNat).parts ≠ [])
    (hlocal : ∀ p ∈ (commandMembers s c.header c.level.toNat).parts, p.pot ≠ none)
    (operand : List Byte) (addr : Option (BitVec 41)) :
    (∀ n, (potOf (dispatchCmd s c true operand addr) n).inbox.length = (potOf s n).inbox.length +
      ((commandMembers s c.header c.level.toNat).parts.filter fun p => decide (p.pot = some n)).length) ∧
    (∀ x ∈ (dispatchCmd s c true operand addr).hfe.table, x.id = c.id → x.state = .running ∧ x.status = none) ∧
    sameBytes s (dispatchCmd s c true operand addr) := by
  generalize hm : commandMembers s c.header c.level.toNat = m at *
  have hpots := keyedParts_pots s m.parts
  have hlocal' : ∀ p ∈ keyedParts s m.parts, p.pot ≠ none := by
    intro p hp
    have hin : p.pot ∈ m.parts.map Part.pot := hpots ▸ List.mem_map_of_mem hp
    obtain ⟨q, hq, e⟩ := List.mem_map.1 hin
    exact e ▸ hlocal q hq
  have hsome : (keyedParts s m.parts).isEmpty = false := by simpa [keyedParts] using hne
  obtain ⟨hhfe, hbytes, hinbox⟩ := sendMembers_spec c c.level.toNat operand addr (keyedParts s m.parts) hlocal' (resolvedCmd s c m)
  rw [dispatchCmd_resolved (hm ▸ hbad), hm]
  refine ⟨fun n => ?_, ?_, (onlyHfe_resolvedCmd m).sameBytes.trans hbytes⟩
  · rw [hinbox, hpots, List.countP_map, List.countP_eq_length_filter, (onlyHfe_resolvedCmd m).potOf_eq]
    rfl
  · rw [hhfe]
    intro x hx hid
    obtain ⟨y, rfl⟩ := mem_updCmd_table hx hid
    simp [hsome]

/-- Settles O19, command by command. -/
theorem commandsEnterAndLeaveTheTable : Obligations.CommandsEnterAndLeaveTheTable := by
  unfold Obligations.CommandsEnterAndLeaveTheTable
  refine ⟨fun s slot h rest hh hq hw hp hroom => ?_, fun s c hc hon hord hf => ?_, fun s c hc hon hord hf hbad hnone => ?_,
    fun s c hc hon hord hf hbad hne hlocal => ?_, fun s n a rest ha => ?_, fun s id n hl => ?_,
    fun s id c st hc hst hab hr hv hi => ?_, fun s id c hc hrun hst hr hctl hv hi => ?_⟩
  case refine_1 =>
    exact ⟨_, exec_dispatchAccept hh hq hw hp hroom, rfl, acceptedHfe_slot s slot h rest,
      ⟨acceptedCmd s slot h, rfl, rfl, rfl, rfl, rfl⟩, acceptedHfe_record s slot h rest, rfl⟩
  case refine_2 =>
    refine ⟨_, exec_commandDispatch hc hon hord, ?_⟩
    rw [hf, dispatchCmd_refused]
  case refine_3 =>
    refine ⟨_, exec_commandDispatch hc hon hord, ?_⟩
    rw [hf, dispatchCmd_resolved hbad]
    generalize commandMembers s c.header c.level.toNat = m at *
    have hkeyed : keyedParts s m.parts = [] := by rw [hnone]; rfl
    rw [hkeyed, runAll, List.foldl_nil, resolvedCmd_table, hkeyed]
    rfl
  case refine_4 =>
    refine ⟨_, exec_commandDispatch hc hon hord, ?_⟩
    rw [hf]
    exact dispatchCmd_sent hbad hne hlocal _ _
  case refine_5 =>
    have hframe := onlyHfe_takeAnswer (answerLeaves s n rest) a
    refine ⟨_, exec_memberAnswer ha, ?_, (answerLeaves_sameBytes s n rest).trans hframe.sameBytes, fun c p hm hw => ?_,
      fun c p hm hw => ?_⟩
    · rw [hframe.potOf_eq, answerLeaves_answers]
    · rw [← memberOf_answerLeaves s n rest] at hm
      exact takeAnswer_waiting hm hw
    · rw [← memberOf_answerLeaves s n rest] at hm
      rw [takeAnswer_late hm hw]
      rfl
  case refine_6 =>
    refine ⟨_, exec_memberLost hl, ?_, ?_, rfl⟩
    · intro h
      simpa using (List.mem_filter.1 h).2
    · intro x hx hid
      obtain ⟨y, rfl⟩ := mem_updCmd_table hx hid
      exact lostParts_not_waiting y.parts n
  case refine_7 =>
    obtain ⟨hgone, hdone, hstatus, -, hbytes⟩ := finishCmd_spec s false hr hv hi hab
    exact ⟨_, exec_commandComplete hc hst, cmdOf_id hc ▸ hgone, hdone, hstatus, hbytes⟩
  case refine_8 =>
    refine ⟨_, exec_cmdTimeout hc hrun hst hr hctl, ?_⟩
    obtain ⟨hgone, -, hstatus, hexp, hbytes⟩ := finishCmd_spec { s with hfe := { s.hfe with
        expired := s.hfe.expired ++ (c.parts.filter fun p => p.state == .waiting).map Part.key } }
      (c.parts.any fun p => p.state == .answered) hr hv hi (by decide)
    refine ⟨cmdOf_id hc ▸ hgone, hstatus, fun p hp hw => ?_, sameBytes.trans (sameBytes_of_stores rfl rfl rfl) hbytes⟩
    rw [hexp]
    exact List.mem_append_right _ (List.mem_map_of_mem (List.mem_filter.2 ⟨hp, by simp [hw]⟩))

end Sys2Proof.Machine

namespace Sys2Proof.Machine

/-!
PROOFS. Program model: the words of a sequencer and the course of its commands, leaf commands, loads, and the resets and events of the
same family. The laws of a pot's sequencer come first.
-/

/-! ### Steps that change one sequencer -/

theorem onlyPot.refl (n : PotIx) (s : State) : onlyPot n s s := ⟨rfl, fun _ _ => rfl⟩

theorem onlyPot.trans {n : PotIx} {s t u : State} (h : onlyPot n s t) (k : onlyPot n t u) : onlyPot n s u := by
  obtain ⟨ht, hpots⟩ := h
  obtain ⟨hu, kpots⟩ := k
  refine ⟨?_, fun m hm => (kpots m hm).trans (hpots m hm)⟩
  rw [hu, ht]

theorem onlyPot_setPot (n : PotIx) (s : State) (p : Pot) : onlyPot n s (setPot s n p) :=
  ⟨rfl, fun _ hm => potOf_setPot_other _ _ _ _ hm⟩

theorem onlyPot_updPot (n : PotIx) (s : State) (f : Pot → Pot) : onlyPot n s (updPot s n f) := onlyPot_setPot n s _

theorem onlyPot.sameBytes {n : PotIx} {s t : State} (h : onlyPot n s t) : sameBytes s t := by
  rw [h.1]
  exact sameBytes_of_stores rfl rfl rfl

@[simp] theorem setSeq_setSeq (p : Pot) (e : Eng) (q r : Seqr) : setSeq (setSeq p e q) e r = setSeq p e r := by cases e <;> rfl

@[simp] theorem seqOf_updSeq_same (s : State) (n : PotIx) (e : Eng) (f : Seqr → Seqr) :
    seqOf (potOf (updSeq s n e f) n) e = f (seqOf (potOf s n) e) := by
  simp [updSeq]

theorem onlySeq_updSeq (s : State) (n : PotIx) (e : Eng) (f : Seqr → Seqr) : onlySeq n e s (updSeq s n e f) :=
  ⟨onlyPot_updPot n s _, by rw [seqOf_updSeq_same, updSeq, potOf_updPot_same]⟩

theorem onlySeq.trans {n : PotIx} {e : Eng} {s t u : State} (h : onlySeq n e s t) (k : onlySeq n e t u) : onlySeq n e s u := by
  obtain ⟨ht, hp⟩ := h
  obtain ⟨hu, kp⟩ := k
  exact ⟨ht.trans hu, by rw [kp, hp, setSeq_setSeq, seqOf_setSeq_same]⟩

/-! ### The issue of a word (R61, R68, R69) -/

theorem cacheTouch_eq (q : Seqr) (line : Nat) : cacheTouch q line = { q with icache := (cacheTouch q line).icache } := by
  unfold cacheTouch
  split <;> rfl

/-- The sequencer while the word at PC is worked on: its cache alone has changed. -/
def touched (q : Seqr) (e : Eng) : Seqr := cacheTouch q (wordByte e q.pc / 256)

theorem touched_eq (q : Seqr) (e : Eng) : touched q e = { q with icache := (touched q e).icache } := cacheTouch_eq _ _

@[simp] theorem touched_pc (q : Seqr) (e : Eng) : (touched q e).pc = q.pc := (congrArg Seqr.pc (touched_eq q e) :)
@[simp] theorem touched_ax (q : Seqr) (e : Eng) : (touched q e).ax = q.ax := (congrArg Seqr.ax (touched_eq q e) :)
@[simp] theorem touched_lc (q : Seqr) (e : Eng) : (touched q e).lc = q.lc := (congrArg Seqr.lc (touched_eq q e) :)
@[simp] theorem touched_loops (q : Seqr) (e : Eng) : (touched q e).loops = q.loops := (congrArg Seqr.loops (touched_eq q e) :)
@[simp] theorem touched_streams (q : Seqr) (e : Eng) : (touched q e).streams = q.streams := (congrArg Seqr.streams (touched_eq q e) :)
@[simp] theorem touched_descs (q : Seqr) (e : Eng) : (touched q e).descs = q.descs := (congrArg Seqr.descs (touched_eq q e) :)
@[simp] theorem axOf_touched (q : Seqr) (e : Eng) (i : Nat) : axOf (touched q e) i = axOf q i := by simp [axOf]
@[simp] theorem lcOf_touched (q : Seqr) (e : Eng) (i : Nat) : lcOf (touched q e) i = lcOf q i := by simp [lcOf]
@[simp] theorem streamOf_touched (q : Seqr) (e : Eng) (i : Nat) : streamOf (touched q e) i = streamOf q i := by simp [streamOf]

@[simp] theorem seqOf_issueState (s : State) (n : PotIx) (e : Eng) :
    seqOf (potOf (issueState s n e) n) e = touched (seqOf (potOf s n) e) e := seqOf_updSeq_same ..

theorem onlySeq_issueState (s : State) (n : PotIx) (e : Eng) : onlySeq n e s (issueState s n e) := onlySeq_updSeq ..

section Issue
variable {s : State} {n : PotIx} {e : Eng} {w : ColWord} {own : ColWord → Bool} {body : ColWord → State → SeqIssue}

/-- What the issue of a word that may issue comes to. -/
def issued (s : State) (n : PotIx) (e : Eng) (w : ColWord) : SeqIssue → State
  | .hold => seqHold s n e
  | .holdOther => updSeq s n e fun q => { q with heldBack := true }
  | .fault t cause queue => seqFault t n e cause w queue
  | .go t => t

theorem seqIssue_issues (h : wordIssues s n e w) (hown : own w = true) :
    seqIssue n e own body s = .next (issued s n e w (body w (issueState s n e))) := by
  obtain ⟨hready, hinf, hw, hbad, hok, hop⟩ := h
  have hrun : (!seqReady s n e || (!wordBegun (potOf s n) e && infFailing s (seqOf (potOf s n) e).infusion)) = false := by
    rcases hinf with hinf | hinf <;> simp [hready, hinf]
  simp only [seqIssue, hrun, hw, hbad, hok, hop, hown, Bool.false_eq_true, if_false, Bool.not_true, Bool.or_self]
  show (match body w (issueState s n e) with
    | .hold => _ | .holdOther => _ | .fault t cause queue => _ | .go t => _) = _
  cases body w (issueState s n e) <;> rfl

/-- A word that neither waits nor faults. -/
theorem seqIssue_go {t : State} (h : wordIssues s n e w) (hown : own w = true) (hbody : body w (issueState s n e) = .go t) :
    seqIssue n e own body s = .next t := by
  rw [seqIssue_issues h hown, hbody, issued]

/-- A word that only changes its sequencer. -/
theorem seqIssue_plain {f : Seqr → Seqr} (h : wordIssues s n e w) (hown : own w = true)
    (hbody : body w (issueState s n e) = seqPlain n e (issueState s n e) f) :
    seqIssue n e own body s = .next (updSeq (issueState s n e) n e f) := seqIssue_go h hown hbody

/-- A word of the wrong form faults, whatever word was commanded (R68). -/
theorem seqIssue_badWord (hready : seqReady s n e = true) (hw : wordAt (seqOf (potOf s n) e) e = some w)
    (hinf : infFailing s (seqOf (potOf s n) e).infusion = false ∨ wordBegun (potOf s n) e = true)
    (hbad : wordBad (seqOf (potOf s n) e) e = false) (hok : wordOk w = false) :
    seqIssue n e own body s = .next (seqFault s n e 1 w 0xFF) := by
  have hrun : (!seqReady s n e || (!wordBegun (potOf s n) e && infFailing s (seqOf (potOf s n) e).infusion)) = false := by
    rcases hinf with hinf | hinf <;> simp [hready, hinf]
  simp [seqIssue, hrun, hw, hbad, hok]

end Issue

/-! ### On to the next word (R69, R73) -/

/-- With no body ending at the next word, control falls through to it. -/
theorem seqGo_inside {q : Seqr} {pc : BitVec 32} (h : ∀ l ∈ q.loops.head?, pc ≠ l.stop) :
    seqGo q pc = { q with pc := pc, issued := 0 } := by
  rw [seqGo, closeLoops]
  split
  · rfl
  · rename_i l ls hl
    exact if_neg (h l (by rw [show q.loops = l :: ls from hl]; rfl))

theorem seqNext_inside {q : Seqr} {w : ColWord} (h : insideLoop q) :
    seqNext q w = { seqSpend q w 1 with pc := q.pc + 1, issued := 0 } := seqGo_inside h

/-- A word that changes address and loop registers only is done when the next one is reached. -/
theorem wordDone_seqNext {q r : Seqr} {w : ColWord} (hr : r = { q with ax := r.ax, lc := r.lc, icache := r.icache })
    (h : insideLoop q) : wordDone q (seqNext r w) := by
  have hin : insideLoop r := by rw [hr]; exact h
  rw [seqNext_inside hin, hr]
  rfl

theorem seqNext_ax {q : Seqr} {w : ColWord} (h : insideLoop q) : (seqNext q w).ax = q.ax := by rw [seqNext_inside h]; rfl
theorem seqNext_lc {q : Seqr} {w : ColWord} (h : insideLoop q) : (seqNext q w).lc = q.lc := by rw [seqNext_inside h]; rfl

end Sys2Proof.Machine

namespace Sys2Proof.Machine

/-! ### SCALAR (R75 to R77, O29, O30) -/

theorem axOf_setAx (q : Seqr) (i j : Nat) (v : BitVec 48) : axOf (setAx q i v) j = if j = i then v else axOf q j := tget_tset ..

theorem lcOf_setLc (q : Seqr) (i j : Nat) (v : BitVec 32) : lcOf (setLc q i v) j = if j = i then v else lcOf q j := tget_tset ..

theorem insideLoop_touched {q : Seqr} {e : Eng} (h : insideLoop q) : insideLoop (touched q e) := by
  rw [touched_eq]
  exact h

/-- The state after a word that has changed its sequencer to `f` of itself. -/
theorem onlySeq_plain (s : State) (n : PotIx) (e : Eng) (f : Seqr → Seqr) : onlySeq n e s (updSeq (issueState s n e) n e f) :=
  (onlySeq_issueState s n e).trans (onlySeq_updSeq ..)

theorem seqOf_plain (s : State) (n : PotIx) (e : Eng) (f : Seqr → Seqr) :
    seqOf (potOf (updSeq (issueState s n e) n e f) n) e = f (touched (seqOf (potOf s n) e) e) := by
  rw [seqOf_updSeq_same, seqOf_issueState]

/-- ax[DST] written and on to the next word. -/
theorem scalar_written {q r : Seqr} {e : Eng} {w : ColWord} {v : BitVec 48}
    (hr : r = seqNext (setAx (touched q e) (scalarDst w) v) w) (hin : insideLoop q) :
    wordDone q r ∧ r.lc = q.lc ∧ ∀ i, axOf r i = if i = fieldN w 36 4 then v else axOf q i := by
  have hin' : insideLoop (setAx (touched q e) (scalarDst w) v) := insideLoop_touched hin
  subst hr
  refine ⟨wordDone_seqNext (by rw [touched_eq]; rfl) hin, ?_, fun i => ?_⟩
  · rw [seqNext_lc hin', touched_eq]
    rfl
  · rw [axOf, seqNext_ax hin', ← axOf, axOf_setAx, touched_eq]
    rfl

/-- A command that issues the SCALAR word of code `sop`, whose result the cache has no part in. -/
theorem scalarWrites_of {c : PotIx → Eng → Instr} {sop : Nat} {f : Seqr → ColWord → BitVec 48} (val : Seqr → ColWord → BitVec 48)
    (hc : ∀ n e s, exec (c n e) s = scalarWord n e sop f s) (hval : ∀ q w, f q w = val q w)
    (hcache : ∀ q w ic, val { q with icache := ic } w = val q w) : scalarWrites c sop val := by
  intro s n e w hw hin hk hsop
  refine ⟨_, (hc n e s).trans (seqIssue_plain hw (by simp [hk, hsop]) rfl), onlySeq_plain .., scalar_written (e := e) ?_ hin⟩
  rw [seqOf_plain, hval, show val (touched _ e) w = val (seqOf (potOf s n) e) w by rw [touched_eq, hcache]]

/-- A two-operand word, by the two operands. -/
theorem scalarWrites_two {c : PotIx → Eng → Instr} {sop : Nat} {f : BitVec 48 → BitVec 48 → BitVec 48}
    (val : BitVec 48 → BitVec 48 → BitVec 48) (hc : ∀ n e s, exec (c n e) s = scalarTwo n e sop f s)
    (hval : ∀ a b, f a b = val a b) : scalarWrites c sop fun q w => val (opA q w) (opB q w) :=
  scalarWrites_of _ hc (fun _ _ => hval _ _) fun _ _ _ => rfl

theorem ofInt_toInt_min (a b : BitVec 48) : (if a.toInt < b.toInt then a else b) = BitVec.ofInt 48 (min a.toInt b.toInt) := by
  split
  · rw [min_eq_left (le_of_lt ‹_›), BitVec.ofInt_toInt]
  · rw [min_eq_right (not_lt.1 ‹_›), BitVec.ofInt_toInt]

theorem ofInt_toInt_max (a b : BitVec 48) : (if a.toInt < b.toInt then b else a) = BitVec.ofInt 48 (max a.toInt b.toInt) := by
  split
  · rw [max_eq_right (le_of_lt ‹_›), BitVec.ofInt_toInt]
  · rw [max_eq_left (not_lt.1 ‹_›), BitVec.ofInt_toInt]

theorem shl_value (a b : BitVec 48) : (if b.toNat < 48 then a <<< b.toNat else 0) =
    if 48 ≤ b.toNat then 0 else BitVec.ofNat 48 (a.toNat * 2 ^ b.toNat) := by
  by_cases h : b.toNat < 48
  · rw [if_pos h, if_neg (Nat.not_le.2 h)]
    exact BitVec.eq_of_toNat_eq (by rw [BitVec.toNat_shiftLeft, BitVec.toNat_ofNat, Nat.shiftLeft_eq])
  · rw [if_neg h, if_pos (Nat.not_lt.1 h)]

theorem shr_value (a b : BitVec 48) : (if b.toNat < 48 then a >>> b.toNat else 0) =
    if 48 ≤ b.toNat then 0 else BitVec.ofNat 48 (a.toNat / 2 ^ b.toNat) := by
  by_cases h : b.toNat < 48
  · rw [if_pos h, if_neg (Nat.not_le.2 h)]
    refine BitVec.eq_of_toNat_eq ?_
    rw [BitVec.toNat_ushiftRight, BitVec.toNat_ofNat, Nat.shiftRight_eq_div_pow,
      Nat.mod_eq_of_lt (Nat.lt_of_le_of_lt (Nat.div_le_self _ _) a.isLt)]
  · rw [if_neg h, if_pos (Nat.not_lt.1 h)]

/-- Shifted right by its whole width or more, a word is all sign bits. -/
theorem sar_value (a b : BitVec 48) : a.sshiftRight (Nat.min 48 b.toNat) =
    if 48 ≤ b.toNat then (if a.toInt < 0 then BitVec.allOnes 48 else 0) else BitVec.ofInt 48 (a.toInt / 2 ^ b.toNat) := by
  by_cases h : 48 ≤ b.toNat
  · have hlo := BitVec.le_toInt a
    have hhi := BitVec.toInt_lt (x := a)
    rw [if_pos h, show Nat.min 48 b.toNat = 48 from Nat.min_eq_left h, BitVec.sshiftRight, Int.shiftRight_eq_div_pow]
    split
    · rw [show a.toInt / (2 ^ 48 : Nat) = -1 by omega]
      decide
    · rw [show a.toInt / (2 ^ 48 : Nat) = 0 by omega]
      decide
  · rw [if_neg h, show Nat.min 48 b.toNat = b.toNat from Nat.min_eq_right (by omega), BitVec.sshiftRight, Int.shiftRight_eq_div_pow]
    norm_num

/-- LUI replaces bits [47:32], the topmost of the register. -/
theorem lui_value (v : BitVec 48) (k : Nat) (hk : k < 2 ^ 16) :
    putField v 32 16 k = BitVec.ofNat 48 (v.toNat % 2 ^ 32 + k * 2 ^ 32) := by
  have hv := v.isLt
  rw [putField, fieldN, Nat.mod_eq_of_lt hk]
  congr 1
  omega

/-- SOP codes above 13 are reserved (R76). -/
theorem wordOk_reserved_scalar {w : ColWord} (hk : wKind w = kindScalar) (h : 14 ≤ fieldN w 32 4) : wordOk w = false := by
  have hs : scalarOk w = false := by
    have : ¬fieldN w 32 4 ≤ 13 := by omega
    simp [scalarOk, this]
  simp [wordOk, hk, hs]

end Sys2Proof.Machine

namespace Sys2Proof.Machine

/-! ### Faults and the end of a command (R98, R99) -/

theorem sameBytes_updPot (s : State) (n : PotIx) (f : Pot → Pot) : sameBytes s (updPot s n f) := sameBytes_of_stores rfl rfl rfl

/-- Of a pot's sequencer only the locked ways and the stall limit may have changed, and no byte of memory. -/
def seqCtlOnly (n : PotIx) (e : Eng) (s t : State) : Prop :=
  (∃ l u, seqOf (potOf t n) e = { seqOf (potOf s n) e with lockWays := l, stallUs := u }) ∧ sameBytes s t

theorem seqCtlOnly.refl (n : PotIx) (e : Eng) (s : State) : seqCtlOnly n e s s := ⟨⟨_, _, rfl⟩, sameBytes.refl s⟩

theorem seqCtlOnly.trans {n : PotIx} {e : Eng} {s t u : State} (h : seqCtlOnly n e s t) (k : seqCtlOnly n e t u) :
    seqCtlOnly n e s u := by
  obtain ⟨⟨l, v, ht⟩, hb⟩ := h
  obtain ⟨⟨l', v', hu⟩, kb⟩ := k
  exact ⟨⟨l', v', by rw [hu, ht]⟩, hb.trans kb⟩

/-- A commit of a buffered register takes its bookkeeping away and changes the pot. -/
theorem potOf_committed (s : State) (n m : PotIx) (f : Pot → Pot) (key : Nat) :
    potOf (parityEnds (dropBuffer (updPot s n f) key) key) m = potOf (updPot s n f) m := rfl

theorem sameBytes_committed (s : State) (n : PotIx) (f : Pot → Pot) (key : Nat) :
    sameBytes s (parityEnds (dropBuffer (updPot s n f) key) key) := sameBytes_of_stores rfl rfl rfl

/-- The buffered registers of an engine hold no more of its sequencer than those two. -/
theorem seqCtlOnly_applySeqRegs (s : State) (n : PotIx) (e : Eng) : seqCtlOnly n e s (applySeqRegs s n e) := by
  refine runAll_rel (seqCtlOnly.refl n e) seqCtlOnly.trans (fun t off => ?_) _ s
  dsimp only
  cases bufferOf t (potReg n (engBase e + off)) with
  | none => exact seqCtlOnly.refl n e t
  | some v =>
    refine ⟨?_, sameBytes_committed ..⟩
    rw [potOf_committed, potOf_updPot_same]
    split_ifs
    · exact ⟨_, _, seqOf_setSeq_same ..⟩
    · exact ⟨_, _, seqOf_setSeq_same ..⟩
    · cases e <;> exact ⟨_, _, rfl⟩

/-- What a sequencer itself takes over at a program boundary (R100, R487). -/
def seqBoundary (q : Seqr) : Seqr :=
  { q with
    descs := q.descPend.foldl (fun m d => tset m d.1 d.2) q.descs, descPend := []
    icache := if q.invalPending then [] else q.icache, invalPending := false }

theorem seqOf_boundary (s : State) (n : PotIx) (e : Eng) :
    seqOf (potOf (boundary s n e) n) e = seqBoundary (seqOf (potOf (applySeqRegs s n e) n) e) := by
  have h := seqOf_updSeq_same (applySeqRegs s n e) n e seqBoundary
  cases e
  · exact h
  · refine Eq.trans ?_ h
    show seqOf (potOf (updPot _ n _) n) _ = _
    rw [potOf_updPot_same]
    rfl
  · refine Eq.trans ?_ h
    show seqOf (potOf (updPot _ n _) n) _ = _
    rw [potOf_updPot_same]
    rfl

/-- What the program boundary leaves of the sequencer, and of memory (R100, R487, R488). -/
theorem boundary_spec (s : State) (n : PotIx) (e : Eng) :
    (∃ l u, seqOf (potOf (boundary s n e) n) e = seqBoundary { seqOf (potOf s n) e with lockWays := l, stallUs := u }) ∧
    sameBytes s (boundary s n e) := by
  obtain ⟨⟨l, u, hq⟩, hb⟩ := seqCtlOnly_applySeqRegs s n e
  refine ⟨⟨l, u, by rw [seqOf_boundary, hq]⟩, hb.trans ?_⟩
  cases e
  · exact sameBytes_updPot ..
  · exact (sameBytes_updPot ..).trans (sameBytes_updPot ..)
  · exact (sameBytes_updPot ..).trans (sameBytes_updPot ..)

/-! What leaves the sequencers and the stores as they are. -/

/-- Agents of the sync units leave them: of each pot its sync unit alone changes. -/
theorem potOf_dropAgent (s : State) (a : Agent) (n : PotIx) :
    ∃ c, potOf (dropAgent s a) n = { potOf s n with snc := c } := by
  simp only [potOf, tget, dropAgent]
  rw [tfind_map_values s.pots fun p => { p with snc := { p.snc with
    waiters := p.snc.waiters.filter fun w => w.agent != a, held := p.snc.held.filter fun w => w.agent != a } }]
  cases tfind s.pots n.toNat with
  | none => exact ⟨_, rfl⟩
  | some p => exact ⟨_, rfl⟩

theorem sameBytes_dropAgent (s : State) (a : Agent) : sameBytes s (dropAgent s a) := sameBytes_of_stores rfl rfl rfl

/-- Only the table of infusions changes. -/
def onlyInf (s t : State) : Prop := t = { s with inf := t.inf }

theorem onlyInf.refl (s : State) : onlyInf s s := rfl

theorem onlyInf.trans {s t u : State} (h : onlyInf s t) (k : onlyInf t u) : onlyInf s u := by
  rw [onlyInf] at *
  rw [k, h]

theorem onlyInf.potOf_eq {s t : State} (h : onlyInf s t) (n : PotIx) : potOf t n = potOf s n := by
  rw [h]
  rfl

theorem onlyInf.sameBytes {s t : State} (h : onlyInf s t) : sameBytes s t := by
  rw [h]
  exact sameBytes_of_stores rfl rfl rfl

theorem onlyInf_setInf (s : State) (i : BitVec 12) (x : Inf) : onlyInf s (setInf s i x) := rfl

theorem onlyInf_inflightUp (s : State) (i : BitVec 12) : onlyInf s (inflightUp s i) := by
  unfold inflightUp
  split
  · exact onlyInf.refl s
  · exact onlyInf_setInf ..

theorem onlyInf_inflightDown (s : State) (i : BitVec 12) : onlyInf s (inflightDown s i) := by
  unfold inflightDown
  split
  · exact onlyInf.refl s
  · exact onlyInf_setInf ..

theorem onlyInf_markFailing (s : State) (i : BitVec 12) : onlyInf s (markFailing s i) := by
  simp only [markFailing]
  split
  · exact onlyInf_setInf ..
  · exact onlyInf.refl s

/-- A completion event is no part of a sequencer. -/
theorem seqOf_postEvent (p : Pot) (ev : BitVec 32) (e : Eng) : seqOf (postEvent p ev) e = seqOf p e := by
  obtain ⟨-, h⟩ | ⟨-, h⟩ := postEvent_spec p ev
  · rw [h]
    cases e <;> rfl
  · rw [h]

/-- The sequencer once its command has ended: what the command had is gone (R62, R63). -/
def seqEnded (x : Seqr) : Seqr :=
  { x with running := false, ended := false, stalled := false, heldBack := false, fetchWait := false, syncWait := false, syncDone := none,
           chains := [], loops := [], streams := [], claims := [] }

theorem seqOf_withPmt (p : Pot) (x : Pmt) (e : Eng) : seqOf { p with pmt := x } e = seqOf p e := by cases e <;> rfl

theorem seqOf_withAnswers (p : Pot) (r : List RemoteReq) (m : Mxe) (f : Sfe) (e : Eng) :
    seqOf { p with remote := r, mxe := m, sfe := f } e = seqOf p e := by cases e <;> rfl

theorem seqOf_withSnc (p : Pot) (c : Snc) (e : Eng) : seqOf { p with snc := c } e = seqOf p e := by cases e <;> rfl

/-- A command that ends reaches the program boundary with its sequencer cleared of it. -/
theorem engFinish_boundary (s : State) (n : PotIx) (e : Eng) (st : Status) :
    ∃ t, engFinish s n e st = boundary t n e ∧ seqOf (potOf t n) e = seqEnded (seqOf (potOf s n) e) ∧ sameBytes s t := by
  obtain ⟨c, hc⟩ := potOf_dropAgent s (.sequencer n e) n
  have hdrop := sameBytes_dropAgent s (.sequencer n e)
  refine ⟨_, rfl, ?_, ?_⟩
  · have hseq (t : State) (ev : BitVec 32) :
        seqOf (potOf (if (seqOf (potOf s n) e).notify then updPot t n fun p => postEvent p ev else t) n) e = seqOf (potOf t n) e := by
      split
      · rw [potOf_updPot_same, seqOf_postEvent]
      · rfl
    rw [hseq, potOf_updPot_same, seqOf_withPmt, seqOf_updSeq_same, (onlyInf_inflightDown ..).potOf_eq, potOf_updPot_same,
      seqOf_withAnswers, hc, seqOf_withSnc]
    rfl
  · have hev (t : State) (ev : BitVec 32) (h : sameBytes s t) :
        sameBytes s (if (seqOf (potOf s n) e).notify then updPot t n fun p => postEvent p ev else t) := by
      split
      · exact h.trans (sameBytes_updPot ..)
      · exact h
    exact hev _ _ ((((hdrop.trans (sameBytes_updPot ..)).trans (onlyInf_inflightDown ..).sameBytes).trans
      (sameBytes_updPot ..)).trans (sameBytes_updPot ..))

/-- The end of a command: its sequencer stops and keeps its fault record, and no byte of memory changes. -/
theorem engFinish_spec (s : State) (n : PotIx) (e : Eng) (st : Status) :
    (∃ l u, seqOf (potOf (engFinish s n e st) n) e = seqBoundary { seqEnded (seqOf (potOf s n) e) with lockWays := l, stallUs := u }) ∧
    sameBytes s (engFinish s n e st) := by
  obtain ⟨t, ht, hq, hb⟩ := engFinish_boundary s n e st
  obtain ⟨⟨l, u, hbq⟩, hbb⟩ := boundary_spec t n e
  rw [ht]
  exact ⟨⟨l, u, by rw [hbq, hq]⟩, hb.trans hbb⟩

/-- A fault is noted in the sequencer and reported before its command ends. -/
theorem seqFault_eq (s : State) (n : PotIx) (e : Eng) (cause : Nat) (w : ColWord) (queue : Nat) :
    ∃ f, seqFault s n e cause w queue = engFinish (markFailing (sendFault (updSeq s n e fun x =>
      { x with faulted := true, faultCause := BitVec.ofNat 4 cause }) f) (seqOf (potOf s n) e).infusion) n e (seqCauseStatus cause) :=
  ⟨_, rfl⟩

/-- After a sequencer fault the sequencer shows it and its command has ended (R98, R99). -/
theorem seqStopped_seqFault (s : State) (n : PotIx) (e : Eng) (cause : Nat) (w : ColWord) (queue : Nat) :
    seqStopped (seqFault s n e cause w queue) n e cause := by
  obtain ⟨f, hf⟩ := seqFault_eq s n e cause w queue
  obtain ⟨⟨l, u, hq⟩, -⟩ := engFinish_spec (markFailing (sendFault (updSeq s n e fun x =>
    { x with faulted := true, faultCause := BitVec.ofNat 4 cause }) f) (seqOf (potOf s n) e).infusion) n e (seqCauseStatus cause)
  rw [(onlyInf_markFailing ..).potOf_eq, potOf_sendFault, seqOf_updSeq_same] at hq
  rw [seqStopped, hf, hq]
  exact ⟨rfl, rfl, rfl⟩

/-- The two values of SUB are one, modulo 2^48. -/
theorem sub_value (a b : BitVec 48) : a - b = BitVec.ofInt 48 (a.toInt - b.toInt) :=
  BitVec.eq_of_toInt_eq (by rw [BitVec.toInt_sub, BitVec.toInt_ofInt])

theorem fieldB_zero {k : Nat} (v : BitVec k) (len : Nat) : fieldB v 0 len = BitVec.ofNat len v.toNat := by simp [fieldB]

/-- WLC writes lc[DST] alone (R76); DST has four values of it. -/
theorem wlc_written {q r : Seqr} {e : Eng} {w : ColWord} {v : BitVec 32} (hdst : fieldN w 36 4 = fieldN w 36 2)
    (hr : r = seqNext (setLc (touched q e) (fieldN w 36 2) v) w) (hin : insideLoop q) :
    wordDone q r ∧ r.ax = q.ax ∧ ∀ i, lcOf r i = if i = fieldN w 36 4 then v else lcOf q i := by
  have hin' : insideLoop (setLc (touched q e) (fieldN w 36 2) v) := insideLoop_touched hin
  subst hr
  refine ⟨wordDone_seqNext (by rw [touched_eq]; rfl) hin, ?_, fun i => ?_⟩
  · rw [seqNext_ax hin', touched_eq]
    rfl
  · rw [lcOf, seqNext_lc hin', ← lcOf, lcOf_setLc, touched_eq, hdst]
    rfl

/-- The upper bits of WLC's DST are null (R76). -/
theorem wlc_dst {w : ColWord} (hok : wordOk w = true) (hk : wKind w = kindScalar) (hsop : fieldN w 32 4 = 11) :
    fieldN w 36 4 = fieldN w 36 2 := by
  have hs : scalarOk w = true := by
    simp only [wordOk, Bool.and_eq_true, Bool.or_eq_true, hk] at hok
    simpa [kindScalar] using hok.1.2
  have h0 : fieldN w 38 2 = 0 := by
    simp only [scalarOk, Bool.and_eq_true, Bool.or_eq_true, hsop] at hs
    simpa using hs.2
  simp only [fieldN] at h0 ⊢
  omega

theorem exec_add (s : State) (n : PotIx) (e : Eng) : exec (.add n e) s = execAdd n e s := rfl
theorem exec_wlc (s : State) (n : PotIx) (e : Eng) : exec (.wlc n e) s = execWlc n e s := rfl

/-- What AGPOS does with a generator (R63, R76; log entry 3). -/
def agposBody (n : PotIx) (e : Eng) (w : ColWord) (t : State) : SeqIssue :=
  match streamOf (seqOf (potOf t n) e) (fieldN w 40 3) with
  | some x => seqPlain n e t fun q => seqNext (setAx q (scalarDst w) (streamAddr x)) w
  | none => seqPlain n e (takeFree t).2 fun q => seqNext (setAx q (scalarDst w) (fieldB (takeFree t).1 0 48)) w

theorem exec_agpos (s : State) (n : PotIx) (e : Eng) :
    exec (.agpos n e) s = seqIssue n e (fun w => wKind w == kindScalar && fieldN w 32 4 == 13) (agposBody n e) s := rfl

/-- Settles O29: each result is the table's, by the two's complement of 48 bits. -/
theorem scalarOperations : Obligations.ScalarOperations := by
  unfold Obligations.ScalarOperations
  refine ⟨scalarWrites_two (f := fun a b => a + b) (fun a b => BitVec.ofNat 48 (a.toNat + b.toNat)) (fun _ _ _ => rfl) fun _ _ => rfl,
    scalarWrites_two (f := fun a b => a - b) _ (fun _ _ _ => rfl) sub_value,
    scalarWrites_two _ (fun _ _ _ => rfl) shl_value, scalarWrites_two _ (fun _ _ _ => rfl) shr_value,
    scalarWrites_two _ (fun _ _ _ => rfl) sar_value, scalarWrites_two _ (fun _ _ _ => rfl) ofInt_toInt_min,
    scalarWrites_two _ (fun _ _ _ => rfl) ofInt_toInt_max,
    scalarWrites_two (f := fun a b => if a.toInt < b.toInt then 1 else 0) _ (fun _ _ _ => rfl) fun _ _ => rfl,
    scalarWrites_two (f := fun a b => if a = b then 1 else 0) _ (fun _ _ _ => rfl) fun _ _ => rfl,
    scalarWrites_of _ (fun _ _ _ => rfl) (fun _ _ => lui_value _ _ (Nat.mod_lt _ (by decide))) fun _ _ _ => rfl,
    scalarWrites_of (f := fun _ w => (fieldB w 64 32).signExtend 48) _ (fun _ _ _ => rfl) (fun _ _ => rfl) fun _ _ _ => rfl,
    scalarWrites_of (f := fun q w => (lcOf q (fieldN w 40 2)).setWidth 48) _ (fun _ _ _ => rfl)
      (fun _ _ => (BitVec.ofNat_toNat ..).symm) fun _ _ _ => rfl,
    fun s n e w hw hin hk => ⟨fun hsop => ?wlc, fun x hsop hx => ?agpos⟩, fun s n e w hready hat hinf hbad hk hsop => ?reserved⟩
  case wlc =>
    obtain ⟨-, -, -, -, hok, -⟩ := id hw
    refine ⟨_, (exec_wlc s n e).trans (seqIssue_plain hw (by simp [hk, hsop]) rfl), onlySeq_plain ..,
      wlc_written (e := e) (wlc_dst hok hk hsop) ?_ hin⟩
    rw [seqOf_plain, axOf_touched, fieldB_zero]
    rfl
  case agpos =>
    have hbody : agposBody n e w (issueState s n e) =
        seqPlain n e (issueState s n e) fun q => seqNext (setAx q (scalarDst w) (streamAddr x)) w := by
      simp only [agposBody, seqOf_issueState, streamOf_touched, hx]
    refine ⟨_, (exec_agpos s n e).trans (seqIssue_plain hw (by simp [hk, hsop]) hbody), onlySeq_plain .., ?_⟩
    obtain ⟨hdone, -, hax⟩ := scalar_written (seqOf_plain s n e fun q =>
      seqNext (setAx q (scalarDst w) (streamAddr x)) w) hin
    exact ⟨hdone, hax⟩
  case reserved =>
    refine ⟨seqFault s n e 1 w 0xFF, ?_, seqStopped_seqFault ..⟩
    rw [exec_add, execAdd, scalarTwo, scalarWord, seqIssue_badWord hready hat hinf hbad (wordOk_reserved_scalar hk hsop)]

/-- The counter of free values is no part of a sequencer. -/
theorem onlySeq.withFreeCtr {n : PotIx} {e : Eng} {s t : State} (h : onlySeq n e s t) (c : Nat) :
    onlySeq n e { s with freeCtr := c } { t with freeCtr := c } := by
  obtain ⟨⟨ht, hpots⟩, hp⟩ := h
  exact ⟨⟨by rw [ht], hpots⟩, hp⟩

/-- Settles O30: of AGPOS's free value the counter and ax[DST] alone are touched. -/
theorem scalarResultsNotGiven : Obligations.ScalarResultsNotGiven := by
  unfold Obligations.ScalarResultsNotGiven
  intro s n e w hw hin hk hsop hx
  have hbody : agposBody n e w (issueState s n e) = .go { updSeq (issueState s n e) n e (fun q =>
      seqNext (setAx q (scalarDst w) (fieldB (takeFree (issueState s n e)).1 0 48)) w) with freeCtr := s.freeCtr + 1 } := by
    simp only [agposBody, seqOf_issueState, streamOf_touched, hx]
    rfl
  refine ⟨_, (exec_agpos s n e).trans (seqIssue_go hw (by simp [hk, hsop]) hbody), (onlySeq_plain ..).withFreeCtr _, ?_⟩
  obtain ⟨hdone, -, hax⟩ := scalar_written (seqOf_plain s n e fun q =>
    seqNext (setAx q (scalarDst w) (fieldB (takeFree (issueState s n e)).1 0 48)) w) hin
  exact ⟨hdone, fun i hi => (hax i).trans (if_neg hi)⟩

end Sys2Proof.Machine

namespace Sys2Proof.Machine

/-! ### NOP, LOOP and BRANCH (R67, R72 to R74, R86, R87, O31) -/

/-- The back-edge of the innermost level at its body's end (R73). -/
theorem seqGo_backEdge {q : Seqr} {pc : BitVec 32} {l : LoopLevel} {ls : List LoopLevel} (hl : q.loops = l :: ls) (hstop : pc = l.stop)
    (hleft : 1 < l.left) :
    seqGo q pc = { (if l.incEn then setAx q l.incAx.toNat (axOf q l.incAx.toNat + l.incVal.signExtend 48) else q) with
      pc := l.start, issued := 0, loops := { l with left := l.left - 1 } :: ls } := by
  simp only [seqGo, closeLoops, hl, hstop, hleft, if_true]
  split <;> rfl

theorem exec_nop (s : State) (n : PotIx) (e : Eng) : exec (.nop n e) s = execNop n e s := rfl

/-- What NOP leaves at the last word of a body that runs again. -/
theorem seqNext_backEdge {q : Seqr} {w : ColWord} {l : LoopLevel} {ls : List LoopLevel} (hl : q.loops = l :: ls) (hstop : q.pc + 1 = l.stop)
    (hleft : 1 < l.left) :
    (seqNext q w).pc = l.start ∧ (seqNext q w).loops = { l with left := l.left - 1 } :: ls ∧
      (l.incEn = true → axOf (seqNext q w) l.incAx.toNat = axOf q l.incAx.toNat + l.incVal.signExtend 48) := by
  have h : seqNext q w = _ := seqGo_backEdge (q := seqSpend q w 1) hl hstop hleft
  rw [h]
  refine ⟨rfl, rfl, fun hinc => ?_⟩
  rw [if_pos hinc]
  exact tget_tset_same ..

/-- The LOOP word at its own level (R72, R73). -/
def loopBody (n : PotIx) (e : Eng) (w : ColWord) (t : State) : SeqIssue :=
  if fieldN w 32 2 = (seqOf (potOf t n) e).loops.length then seqPlain n e t fun q => loopEnter q w
  else .fault t 1 0xFF

theorem exec_loop (s : State) (n : PotIx) (e : Eng) :
    exec (.loop n e) s = seqIssue n e (fun w => wKind w == kindLoop) (loopBody n e) s := rfl

/-- How often the body of a LOOP word runs. -/
def loopCount (q : Seqr) (w : ColWord) : Nat := if bitAt w 34 then (lcOf q (fieldN w 32 2)).toNat else fieldN w 48 16

theorem loopCount_touched (q : Seqr) (e : Eng) (w : ColWord) : loopCount (touched q e) w = loopCount q w := by
  simp only [loopCount, lcOf_touched]

theorem loopEnter_open {q : Seqr} {w : ColWord} (h : 0 < loopCount q w) :
    loopEnter q w = { seqSpend q w 1 with
      loops := ⟨q.pc + 1, q.pc + 1 + BitVec.ofNat 32 (fieldN w 35 12), loopCount q w, bitAt w 68, fieldB w 64 4, fieldB w 72 24⟩ :: q.loops
      pc := q.pc + 1, issued := 0 } := if_neg (Nat.pos_iff_ne_zero.1 h)

theorem loopEnter_none {q : Seqr} {w : ColWord} (h : loopCount q w = 0) (hl : q.loops = []) :
    loopEnter q w = { seqSpend q w 1 with pc := q.pc + 1 + BitVec.ofNat 32 (fieldN w 35 12), issued := 0 } := by
  have hgo : loopEnter q w = seqGo (seqSpend q w 1) (q.pc + 1 + BitVec.ofNat 32 (fieldN w 35 12)) := if_pos h
  rw [hgo, seqGo_inside]
  intro l hmem
  rw [show (seqSpend q w 1).loops = [] from hl] at hmem
  exact absurd hmem (by simp)

theorem exec_branch (s : State) (n : PotIx) (e : Eng) :
    exec (.branch n e) s = seqIssue n e (fun w => wKind w == kindBranch) (branchBody n e) s := rfl

/-- The target of a branch (R86). -/
def branchTarget (q : Seqr) (w : ColWord) : BitVec 32 := q.pc + (fieldB w 64 16).signExtend 32

theorem branchInside_iff (q : Seqr) (w : ColWord) : branchInside q w = true ↔
    ∀ l ∈ q.loops.head?, l.start.toNat ≤ (branchTarget q w).toNat ∧ (branchTarget q w).toNat < l.stop.toNat := by
  unfold branchInside branchTarget
  cases q.loops <;> simp

/-- Operand B of a BRANCH (R86). -/
def branchB (q : Seqr) (w : ColWord) : BitVec 48 :=
  if bitAt w 45 then (fieldB w 80 16).signExtend 48 else axOf q (fieldN w 46 4)

theorem branchBody_registers {n : PotIx} {e : Eng} {w : ColWord} {t : State} (hreg : bitAt w 36 = false)
    (hin : branchInside (seqOf (potOf t n) e) w = true) :
    branchBody n e w t = seqPlain n e t fun q => branchGo t.fuses.stepping q w (axOf q (fieldN w 37 4)) := by
  simp [branchBody, hreg, hin]

theorem branchBody_outside {n : PotIx} {e : Eng} {w : ColWord} {t : State} (h : branchInside (seqOf (potOf t n) e) w = false) :
    branchBody n e w t = .fault t 1 0xFF := by
  simp [branchBody, h]

theorem branchGo_taken {st : Stepping} {q : Seqr} {w : ColWord} {a : BitVec 48}
    (h : branchTaken (fieldN w 32 4) a (branchB q w) = true) :
    branchGo st q w a = { seqSpend q w 1 with
      pc := branchTarget q w, issued := 0, busyTo := issueAt q w + 1 + branchCost st } := if_pos h

theorem branchGo_not_taken {st : Stepping} {q : Seqr} {w : ColWord} {a : BitVec 48}
    (h : branchTaken (fieldN w 32 4) a (branchB q w) = false) : branchGo st q w a = seqNext q w :=
  if_neg (Bool.eq_false_iff.1 h)

/-- The conditions of R87 as relations of the operands. -/
theorem branchTaken_iff (a b : BitVec 48) : branchTaken 0 a b = true ∧ (branchTaken 1 a b = true ↔ a = b) ∧
    (branchTaken 2 a b = true ↔ a ≠ b) ∧ (branchTaken 3 a b = true ↔ a.toInt < b.toInt) ∧
    (branchTaken 4 a b = true ↔ b.toInt ≤ a.toInt) ∧ (branchTaken 5 a b = true ↔ a.toNat < b.toNat) ∧
    (branchTaken 6 a b = true ↔ b.toNat ≤ a.toNat) ∧ (branchTaken 7 a b = true ↔ a &&& b ≠ 0) ∧
    (branchTaken 8 a b = true ↔ a &&& b = 0) := by
  simp [branchTaken]

theorem branchInside_touched (q : Seqr) (e : Eng) (w : ColWord) : branchInside (touched q e) w = branchInside q w := by
  rw [touched_eq]
  rfl

theorem branchB_touched (q : Seqr) (e : Eng) (w : ColWord) : branchB (touched q e) w = branchB q w := by
  simp only [branchB, axOf_touched]

/-- Settles O31: each word's issue changes its sequencer to one named function of itself, or faults. -/
theorem controlFlowWords : Obligations.ControlFlowWords := by
  unfold Obligations.ControlFlowWords
  refine ⟨fun s n e w hw hk => ?nop, fun s n e w hw hk => ⟨fun hlvl hpos => ?enter, fun hlvl hzero hnone => ?skip, fun hlvl => ?level⟩,
    fun s n e w hw hk hreg => ⟨fun hin => ⟨fun htaken => ?taken, fun hnot hloop => ?fall⟩, fun hout => ?outside⟩, branchTaken_iff⟩
  case nop =>
    refine ⟨_, (exec_nop s n e).trans (seqIssue_plain hw (by simp [hk]) rfl), onlySeq_plain .., ?_, ?_⟩
    · intro hin
      have hin' := insideLoop_touched (e := e) hin
      rw [seqOf_plain]
      exact ⟨wordDone_seqNext (by rw [touched_eq]) hin, by rw [seqNext_ax hin', touched_ax], by rw [seqNext_lc hin', touched_lc]⟩
    · intro l ls hl hstop hleft
      rw [seqOf_plain, ← axOf_touched (seqOf (potOf s n) e) e]
      exact seqNext_backEdge (by rw [touched_loops, hl]) (by rw [touched_pc, hstop]) hleft
  case enter =>
    have hlvl' : fieldN w 32 2 = (seqOf (potOf (issueState s n e) n) e).loops.length := by rw [seqOf_issueState, touched_loops, hlvl]
    refine ⟨_, (exec_loop s n e).trans (seqIssue_plain hw (by simp [hk]) (if_pos hlvl')), onlySeq_plain .., ?_⟩
    rw [seqOf_plain, loopEnter_open (by rw [loopCount_touched]; exact hpos), loopCount_touched]
    simp [seqSpend, loopCount]
  case skip =>
    have hlvl' : fieldN w 32 2 = (seqOf (potOf (issueState s n e) n) e).loops.length := by rw [seqOf_issueState, touched_loops, hlvl]
    refine ⟨_, (exec_loop s n e).trans (seqIssue_plain hw (by simp [hk]) (if_pos hlvl')), onlySeq_plain .., ?_⟩
    rw [seqOf_plain, loopEnter_none (by rw [loopCount_touched]; exact hzero) (by rw [touched_loops, hnone])]
    simp [seqSpend, hnone]
  case level =>
    have hlvl' : fieldN w 32 2 ≠ (seqOf (potOf (issueState s n e) n) e).loops.length := by rwa [seqOf_issueState, touched_loops]
    refine ⟨_, (exec_loop s n e).trans (seqIssue_issues hw (by simp [hk])), ?_⟩
    rw [loopBody, if_neg hlvl']
    exact seqStopped_seqFault ..
  case taken =>
    have hbody := branchBody_registers (t := issueState s n e) hreg
      (by rw [seqOf_issueState, branchInside_touched]; exact (branchInside_iff _ _).2 hin)
    refine ⟨_, (exec_branch s n e).trans (seqIssue_plain hw (by simp [hk]) hbody), onlySeq_plain .., ?_⟩
    rw [seqOf_plain, branchGo_taken (by rw [axOf_touched, branchB_touched]; exact htaken)]
    refine ⟨congrArg (· + _) (touched_pc ..), touched_loops .., rfl⟩
  case fall =>
    have hbody := branchBody_registers (t := issueState s n e) hreg
      (by rw [seqOf_issueState, branchInside_touched]; exact (branchInside_iff _ _).2 hin)
    refine ⟨_, (exec_branch s n e).trans (seqIssue_plain hw (by simp [hk]) hbody), onlySeq_plain .., ?_⟩
    rw [seqOf_plain, branchGo_not_taken (by rw [axOf_touched, branchB_touched]; exact hnot)]
    exact wordDone_seqNext (by rw [touched_eq]) hloop
  case outside =>
    have hfalse : branchInside (seqOf (potOf (issueState s n e) n) e) w = false := by
      rw [seqOf_issueState, branchInside_touched, Bool.eq_false_iff, ne_eq, branchInside_iff]
      intro hall
      obtain ⟨l, hl, hout⟩ := hout
      obtain ⟨hlo, hhi⟩ := hall l hl
      exact hout.elim (Nat.not_lt.2 hlo) (Nat.not_le.2 hhi)
    refine ⟨_, (exec_branch s n e).trans (seqIssue_issues hw (by simp [hk])), ?_⟩
    rw [branchBody_outside hfalse]
    exact seqStopped_seqFault ..

end Sys2Proof.Machine

namespace Sys2Proof.Machine

/-! ### What an access to DRAM leaves alone (R24 to R30, R177 to R206, R377 to R403) -/

/-- Of a pot what its banks and its error reports use only: map copies noted lost, schedulers, patrol and error log, counters; the row
and bank remap entries of its patrol are left. -/
def bankSide (p q : Pot) : Prop :=
  q = { p with mapLost := q.mapLost, scheds := q.scheds, pat := q.pat, cup := q.cup } ∧
    q.pat.rowmap = p.pat.rowmap ∧ q.pat.bankmap = p.pat.bankmap

/-- Of the module DRAM, what the banks of its pots use, fault records and free values only. -/
def dramSide (s t : State) : Prop :=
  t = { s with dram := t.dram, pots := t.pots, cup := t.cup, freeCtr := t.freeCtr } ∧ ∀ m, bankSide (potOf s m) (potOf t m)

theorem bankSide.refl (p : Pot) : bankSide p p := ⟨rfl, rfl, rfl⟩

theorem bankSide.trans {p q r : Pot} (h : bankSide p q) (k : bankSide q r) : bankSide p r := by
  obtain ⟨hp, hrow, hbank⟩ := h
  obtain ⟨kp, krow, kbank⟩ := k
  exact ⟨by rw [kp, hp], krow.trans hrow, kbank.trans hbank⟩

/-- The registers, counters and logs of patrol may change. -/
theorem bankSide_patrol (p : Pot) (errlog : SMap (BitVec 128)) (errUnread : SMap Bool) (errNext : BitVec 6) (overrun : Bool)
    (counts scrub : Word64) (mismatched : List Nat) :
    bankSide p { p with pat := { p.pat with
      errlog := errlog, errUnread := errUnread, errNext := errNext, overrun := overrun, counts := counts, scrub := scrub,
      mismatched := mismatched } } := ⟨rfl, rfl, rfl⟩

theorem bankSide_logError (p : Pot) (addr kind symbol cls port : Nat) (tag : BitVec 16) (inf : BitVec 12) :
    bankSide p (logError p addr kind symbol cls port tag inf) := bankSide_patrol ..

theorem bankSide_pmcAdd (p : Pot) (k by_ : Nat) : bankSide p (pmcAdd p k by_) := ⟨rfl, rfl, rfl⟩

theorem dramSide.refl (s : State) : dramSide s s := ⟨rfl, fun _ => bankSide.refl _⟩

theorem dramSide.trans {s t u : State} (h : dramSide s t) (k : dramSide t u) : dramSide s u := by
  obtain ⟨ht, hp⟩ := h
  obtain ⟨hu, kp⟩ := k
  exact ⟨by rw [hu, ht], fun m => (hp m).trans (kp m)⟩

theorem dramSide.tray {s t : State} (h : dramSide s t) : t.tray = s.tray := (congrArg State.tray h.1 :)

theorem dramSide.seqOf_eq {s t : State} (h : dramSide s t) (n : PotIx) (e : Eng) : seqOf (potOf t n) e = seqOf (potOf s n) e := by
  rw [(h.2 n).1]
  cases e <;> rfl

theorem dramSide_setPot {s : State} {n : PotIx} {p : Pot} (h : bankSide (potOf s n) p) : dramSide s (setPot s n p) := by
  refine ⟨rfl, fun m => ?_⟩
  by_cases hm : m = n
  · subst hm
    rw [potOf_setPot_same]
    exact h
  · rw [potOf_setPot_other _ _ _ _ hm]
    exact bankSide.refl _

theorem dramSide_updPot {s : State} {n : PotIx} {f : Pot → Pot} (h : bankSide (potOf s n) (f (potOf s n))) :
    dramSide s (updPot s n f) := dramSide_setPot h

theorem dramSide_updSched (s : State) (n : PotIx) (g : GroupIx) (f : Sched → Sched) : dramSide s (updSched s n g f) :=
  dramSide_updPot ⟨rfl, rfl, rfl⟩

theorem dramSide_sendFault (s : State) (f : FaultInfo) : dramSide s (sendFault s f) := by
  refine ⟨?_, fun m => by rw [potOf_sendFault]; exact bankSide.refl _⟩
  unfold sendFault
  split <;> rfl

theorem dramSide_takeFreeBytes (n : Nat) (s : State) : dramSide s (takeFreeBytes n s).2 := by
  induction n generalizing s with
  | zero => exact dramSide.refl s
  | succ n ih => exact dramSide.trans (t := (takeFree s).2) ⟨rfl, fun _ => bankSide.refl _⟩ (ih _)

theorem dramSide_dramCells (s : State) (a : Nat) (bs : List Byte) : dramSide s (dramCells s a bs) := ⟨rfl, fun _ => bankSide.refl _⟩

theorem dramSide_storeAt (s : State) (ix col : Nat) (bytes : List Byte) (poison : Bool) (flip : List Byte) :
    dramSide s (storeAt s ix col bytes poison flip) := by
  have h := fun a b c d => (dramSide_dramCells s a b).trans (dramSide_dramCells (dramCells s a b) c d)
  simp only [storeAt]
  split
  · exact h ..
  · exact (h ..).trans (dramSide_dramCells ..)

theorem dramSide_resolveEntry (s : State) (viewer : PotIx) (ix : Nat) : dramSide s (resolveEntry s viewer ix).1 := by
  simp only [resolveEntry]
  split_ifs
  · exact dramSide.refl s
  · exact dramSide.refl s
  · refine dramSide.trans (dramSide_setPot ?_) (dramSide_sendFault ..)
    exact ⟨rfl, rfl, rfl⟩

theorem dramSide_reportMismatch (s : State) (pl : Place) : dramSide s (reportMismatch s pl) := by
  simp only [reportMismatch]
  split
  · exact dramSide.refl s
  · exact dramSide.trans (dramSide_setPot (bankSide_patrol ..)) (dramSide_sendFault ..)

theorem dramSide_noteActivate (s : State) (pl : Place) (w : Who) (bad : Bool) : dramSide s (noteActivate s pl w bad) := by
  simp only [noteActivate]
  split
  · exact dramSide.trans (dramSide_setPot ((bankSide_logError ..).trans (bankSide_patrol ..))) (dramSide_sendFault ..)
  · exact dramSide.refl s

theorem dramSide_noteRead (s : State) (pl : Place) (w : Who) (o : ReadOut) : dramSide s (noteRead s pl w o) := by
  unfold noteRead
  refine dramSide_setPot ?_
  have hp := bankSide_pmcAdd (potOf s pl.pot) 3 1
  cases o with
  | corrected sym => exact (hp.trans (bankSide_patrol ..)).trans (bankSide_logError ..)
  | uncorrectable => exact (hp.trans (bankSide_patrol ..)).trans (bankSide_logError ..)
  | poison => exact hp.trans (bankSide_patrol ..)
  | rowBad => exact hp.trans (bankSide_logError ..)
  | clean => exact hp
  | unwritten => exact hp

theorem dramSide_readRaw (s : State) (pl : Place) (w : Who) : dramSide s (readRaw s pl w).1 := by
  simp only [readRaw]
  split
  · exact (dramSide_reportMismatch s pl).trans (dramSide_takeFreeBytes ..)
  · dsimp only
    exact (dramSide_noteActivate ..).trans (dramSide_noteRead ..)

theorem dramSide_takeFlip (s : State) (pl : Place) (port : BksPort) : dramSide s (takeFlip s pl port).1 := by
  simp only [takeFlip]
  split
  · exact dramSide_setPot ⟨rfl, rfl, rfl⟩
  · exact dramSide.refl s

theorem dramSide_copyWrite (s : State) (pl : Place) (bytes : List Byte) (poison : Bool) : dramSide s (copyWrite s pl bytes poison) := by
  unfold copyWrite
  split
  · exact dramSide.refl s
  · split
    · exact dramSide_storeAt ..
    · exact dramSide.refl s

theorem dramSide_markDirty (s : State) (pl : Place) (port : BksPort) : dramSide s (markDirty s pl port) := by
  unfold markDirty
  split
  · exact dramSide_updSched ..
  · exact dramSide.refl s

theorem dramSide_writeRaw (s : State) (pl : Place) (w : Who) (bytes : List Byte) (poison : Bool) :
    dramSide s (writeRaw s pl w bytes poison) := by
  unfold writeRaw
  split
  · exact (dramSide_reportMismatch s pl).trans (dramSide_updPot (bankSide_patrol ..))
  · exact (((((dramSide_noteActivate ..).trans (dramSide_takeFlip ..)).trans (dramSide_storeAt ..)).trans
      (dramSide_copyWrite ..)).trans (dramSide_markDirty ..)).trans (dramSide_updPot ⟨rfl, rfl, rfl⟩)

theorem dramSide_flushMerge (s : State) (pl : Place) : dramSide s (flushMerge s pl) := by
  unfold flushMerge
  split
  · exact (((dramSide_updSched ..).trans (dramSide_updSched ..)).trans (dramSide_readRaw ..)).trans (dramSide_writeRaw ..)
  · exact dramSide.refl s

theorem dramSide_readWordAt (s : State) (pl : Place) (w : Who) : dramSide s (readWordAt s pl w).1 :=
  (dramSide_flushMerge s pl).trans (dramSide_readRaw ..)

theorem dramSide_condRewrite (s : State) (pl : Place) (bytes : List Byte) : dramSide s (condRewrite s pl bytes) := by
  unfold condRewrite
  split
  · exact dramSide_updPot (bankSide_patrol ..)
  · exact dramSide_writeRaw ..

theorem dramSide_readAddr (s : State) (viewer : PotIx) (addr : BitVec 41) (w : Who) : dramSide s (readAddr s viewer addr w).1 := by
  have hr := dramSide_resolveEntry s viewer (homeIx addr)
  simp only [readAddr]
  split
  · exact hr.trans (dramSide_takeFreeBytes ..)
  · have ha := fun pl => hr.trans (dramSide_readWordAt (resolveEntry s viewer (homeIx addr)).1 pl w)
    split
    · split
      · dsimp only
        split
        · exact (ha _).trans (dramSide_readWordAt ..)
        · exact ((ha _).trans (dramSide_readWordAt ..)).trans (dramSide_condRewrite ..)
      · dsimp only
        split
        · exact (ha _).trans (dramSide_readWordAt ..)
        · exact ((ha _).trans (dramSide_readWordAt ..)).trans (dramSide_condRewrite ..)
      · exact (ha _).trans (dramSide_readWordAt ..)
    · exact ha _

theorem dramSide_readAddrN (viewer : PotIx) (w : Who) (n : Nat) (s : State) (a : BitVec 41) :
    dramSide s (readAddrN viewer w n s a).1 := by
  induction n generalizing s a with
  | zero => exact dramSide.refl s
  | succ n ih => exact (dramSide_readAddr s viewer a w).trans (ih _ _)

end Sys2Proof.Machine

namespace Sys2Proof.Machine

/-! ### The course of an engine command (R57, R61 to R64, R99, R100, O32) -/

theorem potOn_of_engPresent {s : State} {n : PotIx} {e : Eng} (h : engPresent s n e = true) : potOn s n = true := by
  cases e
  · exact (Bool.and_eq_true_iff.1 h).1
  · exact h
  · exact h

/-- No store into the queue of the engine is stalled. -/
def noneWaits (p : Pot) (e : Eng) : Prop := ∀ x ∈ p.pushWait, x.1 ≠ e

theorem noneWaits.any_eq {p : Pot} {e : Eng} (h : noneWaits p e) : (p.pushWait.any fun x => x.1 == e) = false := by
  simpa using fun a b hx => h (a, b) hx

theorem pullFirst_eq_none {α : Type} {p : α → Bool} {l : List α} (h : ∀ x ∈ l, p x = false) : pullFirst p l = none := by
  induction l with
  | nil => rfl
  | cons a l ih =>
    obtain ⟨ha, hl⟩ := List.forall_mem_cons.1 h
    simp [pullFirst, ha, ih hl]

/-- With no store stalled nothing follows on the room that has come. -/
theorem refillCmdq_noneWaits {s : State} {n : PotIx} {e : Eng} (h : noneWaits (potOf s n) e) : refillCmdq s n e = s := by
  have hnone : pullFirst (fun (x : Eng × BitVec 256) => x.1 == e) (potOf s n).pushWait = none :=
    pullFirst_eq_none fun x hx => by simpa using h x hx
  rw [refillCmdq, hnone]

theorem exec_engineCommandPush {s : State} {n : PotIx} {e : Eng} {c : BitVec 256} (hon : potOn s n = true)
    (hfw : (potOf s n).fwRunning = true) (hclear : (potOf s n).trayClear = true) :
    exec (.engineCommandPush n e c) s = .next
      (if !engPresent s n e then absentCmd s n e c
       else if cmdqRoom (potOf s n) e && !((potOf s n).pushWait.any fun x => x.1 == e) then pushCmd s n e c
       else updPot s n fun p => { p with pushWait := p.pushWait ++ [(e, c)] }) := by
  show execEngineCommandPush n e c s = _
  simp only [execEngineCommandPush, hon, hfw, hclear, whenDo, Bool.and_self, if_true]

/-- A pushed command stands last in the queue, and is counted for its infusion. -/
theorem pushCmd_spec (s : State) (n : PotIx) (e : Eng) (c : BitVec 256) :
    seqOf (potOf (pushCmd s n e c) n) e = { seqOf (potOf s n) e with cmdq := (seqOf (potOf s n) e).cmdq ++ [c] } ∧
      pushCmd s n e c = { s with pots := (pushCmd s n e c).pots, inf := (pushCmd s n e c).inf } ∧
      (∀ m, m ≠ n → potOf (pushCmd s n e c) m = potOf s m) ∧ (ecInf c = 0 → (pushCmd s n e c).inf = s.inf) := by
  have hinf := onlyInf_inflightUp (updSeq s n e fun q => { q with cmdq := q.cmdq ++ [c] }) (ecInf c)
  refine ⟨?_, ?_, fun m hm => ?_, fun h0 => ?_⟩
  · rw [pushCmd, hinf.potOf_eq, seqOf_updSeq_same]
  · rw [pushCmd, hinf]
    rfl
  · rw [pushCmd, hinf.potOf_eq, updSeq, potOf_updPot_other _ _ _ _ hm]
  · rw [pushCmd, inflightUp, if_pos h0]
    rfl

theorem seqOf_notifyEvent (p : Pot) (e f : Eng) (c : BitVec 256) (st : Status) : seqOf (notifyEvent p e c st) f = seqOf p f := by
  unfold notifyEvent
  split
  · exact seqOf_postEvent ..
  · rfl

/-- The count of absent units depends on the front end alone. -/
theorem countAbsent_hfe {s t : State} (u c : Nat) (h : t.hfe = s.hfe) : (countAbsent t u c).hfe = (countAbsent s u c).hfe := by
  simp only [countAbsent, h]

theorem absentCmd_spec (s : State) (n : PotIx) (e : Eng) (c : BitVec 256) :
    seqOf (potOf (absentCmd s n e c) n) e = seqOf (potOf s n) e ∧ (absentCmd s n e c).hfe = (countAbsent s 0 1).hfe ∧
      sameBytes s (absentCmd s n e c) := by
  have hframe : onlyHfe (updPot s n fun p => notifyEvent p e c .absentUnit) (absentCmd s n e c) := ⟨_, rfl⟩
  refine ⟨?_, countAbsent_hfe 0 1 (updPot_hfe ..), (sameBytes_updPot ..).trans hframe.sameBytes⟩
  rw [hframe.potOf_eq, potOf_updPot_same, seqOf_notifyEvent]

/-- ENGINE_COMMAND_START tests the pot, its queue, the infusion and the permit in this order (R63). -/
theorem exec_engineCommandStart {s : State} {n : PotIx} {e : Eng} {c : BitVec 256} {rest : List (BitVec 256)}
    (hp : engPresent s n e = true) (hclear : (potOf s n).trayClear = true) (hpar : engParity s n e = false)
    (hrun : (seqOf (potOf s n) e).running = false) (hq : (seqOf (potOf s n) e).cmdq = c :: rest) :
    exec (.engineCommandStart n e) s =
      if !infOn s (ecInf c) n then
        .next (refillCmdq (updPot (engReject (updSeq s n e fun x => { x with cmdq := rest }) n e c) n fun p =>
          { p with pmt := permitFinish p.pmt (engClass e) 0 (!rest.isEmpty) }) n e)
      else
        whenDo (permitHeld (potOf s n).pmt (engClass e) 0) s
          (refillCmdq (updPot s n fun p =>
            { engLoad (setSeq p e (seqStart (seqOf (potOf s n) e) c rest)) e (ecTag c) with
              pmt := permitTake p.pmt (engClass e) 0 (ecTag c) (ecInf c) }) n e) := by
  show execEngineCommandStart n e s = _
  simp only [execEngineCommandStart, hq]
  simp only [hrun, hp, hclear, hpar, Bool.not_true, Bool.or_self, Bool.false_eq_true, if_false]

theorem seqOf_engLoad (p : Pot) (e : Eng) (tag : BitVec 16) : seqOf (engLoad p e tag) e = seqOf p e := by cases e <;> rfl
theorem engLoad_pushWait (p : Pot) (e : Eng) (tag : BitVec 16) : (engLoad p e tag).pushWait = p.pushWait := by cases e <;> rfl
/-- The arguments of a command are ax0 to ax3, and every other register reads zero (R63). -/
theorem seqStart_registers (q : Seqr) (c : BitVec 256) (rest : List (BitVec 256)) :
    (∀ i, i < 4 → axOf (seqStart q c rest) i = ecArg c i) ∧ (∀ i, 4 ≤ i → axOf (seqStart q c rest) i = 0) ∧
      ∀ i, lcOf (seqStart q c rest) i = 0 := by
  refine ⟨fun i hi => ?_, fun i hi => ?_, fun _ => rfl⟩
  · match i, hi with
    | 0, _ | 1, _ | 2, _ | 3, _ => rfl
  · have hlt : ¬i < 3 := by omega
    have hne : 3 ≠ i ∧ 2 ≠ i ∧ 1 ≠ i ∧ 0 ≠ i := by omega
    simp [axOf, seqStart, tget, tfind, hne]

/-- A rejected command has left the queue, and nothing of it runs (R63, R99). -/
theorem engReject_seq (s : State) (n : PotIx) (e : Eng) (c : BitVec 256) :
    seqOf (potOf (engReject s n e c) n) e = seqOf (potOf s n) e ∧ (potOf (engReject s n e c) n).pushWait = (potOf s n).pushWait ∧
      sameBytes s (engReject s n e c) := by
  have hinf := onlyInf_inflightDown (updPot s n fun p => notifyEvent p e c .rejected) (ecInf c)
  refine ⟨?_, ?_, (sameBytes_updPot ..).trans hinf.sameBytes⟩
  · rw [engReject, hinf.potOf_eq, potOf_updPot_same, seqOf_notifyEvent]
  · rw [engReject, hinf.potOf_eq, potOf_updPot_same]
    unfold notifyEvent
    split
    · obtain ⟨-, h⟩ | ⟨-, h⟩ := postEvent_spec (potOf s n) (BitVec.ofNat 32
        ((ecTag c).toNat + statusCode .rejected * 2 ^ 16 + (engNo e + 1) * 2 ^ 24))
      · rw [h]
      · rw [h]
    · rfl

/-- The line of the word at PC as it is read from the program region, with the state after the access (R61). -/
def fetched (s : State) (n : PotIx) (e : Eng) : State × List AddrRead :=
  readAddrN n (fetchWho (seqOf (potOf s n) e)) 8 s (programBase s n (seqOf (potOf s n) e).infusion +
    BitVec.ofNat 41 (wordByte e (seqOf (potOf s n) e).pc / 256 * 256))

theorem dramSide_fetched (s : State) (n : PotIx) (e : Eng) : dramSide s (fetched s n e).1 := dramSide_readAddrN ..

theorem exec_icacheFill {s : State} {n : PotIx} {e : Eng} (hp : engPresent s n e = true) (hrun : (seqOf (potOf s n) e).running = true)
    (hwait : (seqOf (potOf s n) e).fetchWait = true)
    (hserved : addrServed s n (programBase s n (seqOf (potOf s n) e).infusion +
      BitVec.ofNat 41 (wordByte e (seqOf (potOf s n) e).pc / 256 * 256)) = true) :
    exec (.icacheFill n e) s = .next (updSeq (fetched s n e).1 n e fun x =>
      cacheFill x (wordByte e (seqOf (potOf s n) e).pc / 256) ((fetched s n e).2.map AddrRead.bytes).flatten
        ((fetched s n e).2.map AddrRead.poison)) := by
  show execIcacheFill n e s = _
  simp only [execIcacheFill, hp, hrun, hwait, hserved, Bool.and_self, if_true, fetched]

/-- A line put into the cache is found there. -/
theorem cacheFind_cacheFill (q : Seqr) (line : Nat) (bytes : List Byte) (poison : List Bool) :
    (cacheFind (cacheFill q line bytes poison) line).isSome = true := by
  simp [cacheFind, cacheFill]

theorem engDrained_setSeq {p : Pot} {e : Eng} {q : Seqr} (h : q.streams = (seqOf p e).streams) :
    engDrained (setSeq p e q) e = engDrained p e := by
  simp only [engDrained, seqOf_setSeq_same, h]
  cases e <;> rfl

theorem engDrained_issueState (s : State) (n : PotIx) (e : Eng) :
    engDrained (potOf (issueState s n e) n) e = engDrained (potOf s n) e := by
  rw [issueState, updSeq, potOf_updPot_same]
  exact engDrained_setSeq (touched_streams ..)

/-- END issues once nothing is outstanding (R63, R70). -/
def endBody (n : PotIx) (e : Eng) (w : ColWord) (t : State) : SeqIssue :=
  if engDrained (potOf t n) e then seqPlain n e t fun q => { seqSpend q w 1 with ended := true, loops := [], chains := [] }
  else .holdOther

theorem exec_endWord (s : State) (n : PotIx) (e : Eng) :
    exec (.endWord n e) s = seqIssue n e (fun w => wKind w == kindEnd) (endBody n e) s := rfl

theorem exec_engineCommandComplete {s : State} {n : PotIx} {e : Eng} (hrun : (seqOf (potOf s n) e).running = true)
    (hend : (seqOf (potOf s n) e).ended = true) (hd : engDrained (potOf s n) e = true) :
    exec (.engineCommandComplete n e) s = .next (engFinish s n e .ok) := by
  show execEngineCommandComplete n e s = _
  simp only [execEngineCommandComplete, hrun, hend, hd, whenDo, Bool.and_self, if_true]

theorem exec_halt {s : State} {n : PotIx} {e : Eng} (h : engPresent s n e = true) (on : Bool) :
    exec (.halt n e on) s = .next (updSeq s n e fun q => { q with halt := on }) := by
  show execHalt n e on s = _
  simp only [execHalt, h, whenDo, if_true]

theorem exec_inval {s : State} {n : PotIx} {e : Eng} (h : engPresent s n e = true) :
    exec (.inval n e) s = .next (if (seqOf (potOf s n) e).running then updSeq s n e fun q => { q with invalPending := true }
      else boundary (updSeq s n e fun q => { q with invalPending := true }) n e) := by
  show execInval n e s = _
  simp only [execInval, h, whenDo, if_true]

theorem exec_queueElementAvailable {s : State} {n : PotIx} {k : BitVec 6} (h : 0 < (queueOf (potOf s n) k.toNat).pushed) :
    exec (.queueElementAvailable n k) s = .next (updPot s n fun p => setQueue p k.toNat
      { queueOf (potOf s n) k.toNat with pushed := (queueOf (potOf s n) k.toNat).pushed - 1 }) := by
  show execQueueElementAvailable n k s = _
  simp only [execQueueElementAvailable, h, whenDo, decide_true, if_true]

/-- Settles O32, command by command. -/
theorem engineCommandCourse : Obligations.EngineCommandCourse := by
  unfold Obligations.EngineCommandCourse
  refine ⟨fun s n e c hp hfw hclear hwait hroom => ?push, fun s n e c hon hfw hclear => ⟨fun hp hfull => ?stall, fun hp => ?absent⟩,
    fun s n e c rest hp hclear hpar hrun hq hwait => ⟨fun hinf hheld => ?start, fun hinf => ?reject⟩,
    fun s n e hp hrun hwait hserved => ?fill, fun s n e w hw hk hd => ?ends, fun s n e hrun hend hd => ?complete,
    fun s n e on hp => ⟨?halt, fun hrun => ?invalWaits, fun hrun => ?invalNow⟩, fun s n k hpos => ?available⟩
  case push =>
    refine ⟨_, exec_engineCommandPush (potOn_of_engPresent hp) hfw hclear, ?_⟩
    have hroom' : (seqOf (potOf s n) e).cmdq.length < cmdqDepth e := by cases e <;> exact hroom
    rw [hp, noneWaits.any_eq hwait, cmdqRoom, decide_eq_true hroom']
    obtain ⟨hseq, hframe, hothers, hinf⟩ := pushCmd_spec s n e c
    refine ⟨hseq, hframe, hothers, fun h0 => hinf (BitVec.eq_of_toNat_eq ?_)⟩
    exact (BitVec.toNat_ofNat ..).trans h0
  case stall =>
    refine ⟨_, exec_engineCommandPush hon hfw hclear, ?_⟩
    have hfull' : cmdqDepth e ≤ (seqOf (potOf s n) e).cmdq.length := by cases e <;> exact hfull
    rw [hp, cmdqRoom, decide_eq_false (Nat.not_lt.2 hfull')]
    rfl
  case absent =>
    refine ⟨_, exec_engineCommandPush hon hfw hclear, ?_⟩
    rw [hp]
    exact absentCmd_spec s n e c
  case start =>
    have hnw : noneWaits (potOf (updPot s n fun p =>
        { engLoad (setSeq p e (seqStart (seqOf (potOf s n) e) c rest)) e (ecTag c) with
          pmt := permitTake p.pmt (engClass e) 0 (ecTag c) (ecInf c) }) n) e := by
      rw [potOf_updPot_same, noneWaits, engLoad_pushWait, setSeq_pushWait]
      exact hwait
    refine ⟨_, by rw [exec_engineCommandStart hp hclear hpar hrun hq, hinf, hheld, refillCmdq_noneWaits hnw]; rfl, ?_⟩
    obtain ⟨hargs, hzero, hlc⟩ := seqStart_registers (seqOf (potOf s n) e) c rest
    rw [potOf_updPot_same, seqOf_withPmt, seqOf_engLoad, seqOf_setSeq_same]
    exact ⟨rfl, rfl, rfl, rfl, rfl, hargs, hzero, hlc, rfl, rfl, rfl, onlyPot_updPot ..⟩
  case reject =>
    obtain ⟨hseq, hwaits, hbytes⟩ := engReject_seq (updSeq s n e fun x => { x with cmdq := rest }) n e c
    have hnw : noneWaits (potOf (updPot (engReject (updSeq s n e fun x => { x with cmdq := rest }) n e c) n fun p =>
        { p with pmt := permitFinish p.pmt (engClass e) 0 (!rest.isEmpty) }) n) e := by
      rw [potOf_updPot_same, noneWaits, hwaits, updSeq, potOf_updPot_same, setSeq_pushWait]
      exact hwait
    refine ⟨_, by rw [exec_engineCommandStart hp hclear hpar hrun hq, hinf, refillCmdq_noneWaits hnw]; rfl, ?_⟩
    beta_reduce
    rw [potOf_updPot_same, seqOf_withPmt, hseq, seqOf_updSeq_same]
    exact ⟨hrun, rfl, ((sameBytes_updPot ..).trans hbytes).trans (sameBytes_updPot ..)⟩
  case fill => 
    have ht := dramSide_fetched s n e
    refine ⟨_, exec_icacheFill hp hrun hwait hserved, ?_, ?_, ht.tray⟩
    · rw [seqOf_updSeq_same]
      rfl
    · rw [seqOf_updSeq_same, ht.seqOf_eq, wordAt, Option.isSome_map]
      exact cacheFind_cacheFill ..
  case ends =>
    have hd' : engDrained (potOf (issueState s n e) n) e = true := by rw [engDrained_issueState, hd]
    refine ⟨_, (exec_endWord s n e).trans (seqIssue_plain hw (by simp [hk]) (if_pos hd')), onlySeq_plain .., ?_⟩
    rw [seqOf_plain]
    exact ⟨rfl, rfl⟩
  case complete =>
    obtain ⟨⟨l, u, hq⟩, hb⟩ := engFinish_spec s n e .ok
    refine ⟨_, exec_engineCommandComplete hrun hend hd, ?_, ?_, hb⟩
    · rw [hq]
      rfl
    · rw [hq]
      rfl
  case halt => exact ⟨_, exec_halt hp on, onlySeq_updSeq .., seqOf_updSeq_same ..⟩
  case invalWaits =>
    refine ⟨_, exec_inval hp, ?_⟩
    rw [if_pos hrun]
    exact ⟨onlySeq_updSeq .., seqOf_updSeq_same ..⟩
  case invalNow =>
    obtain ⟨⟨l, u, hq⟩, hb⟩ := boundary_spec (updSeq s n e fun q => { q with invalPending := true }) n e
    refine ⟨_, exec_inval hp, ?_⟩
    rw [hrun, if_neg (by decide)]
    beta_reduce
    rw [hq, seqOf_updSeq_same]
    exact ⟨rfl, rfl, (sameBytes_updPot ..).trans hb⟩
  case available =>
    refine ⟨_, exec_queueElementAvailable hpos, ?_, onlyPot_updPot ..⟩
    rw [potOf_updPot_same, queueOf_setQueue_same]

end Sys2Proof.Machine

namespace Sys2Proof.Machine

/-! ### STREAM and its bursts (R57, R70, R78, R80, R81, O33) -/

/-- STREAM with its generator, descriptor and count (R78, R81). -/
def streamBody (n : PotIx) (e : Eng) (w : ColWord) (t : State) : SeqIssue :=
  if agBusy (seqOf (potOf t n) e) (fieldN w 32 3) then .holdOther
  else if regBad t (descKey n e (fieldN w 42 8)) || decide (fieldN (newStream (seqOf (potOf t n) e) w).desc 240 4 < 5) ||
      decide (11 < fieldN (newStream (seqOf (potOf t n) e) w).desc 240 4) then .fault t 1 (fieldN w 50 6)
  else seqPlain n e t fun q =>
    seqNext { q with streams := tset q.streams (fieldN w 32 3) (newStream (seqOf (potOf t n) e) w) } w

theorem exec_stream (s : State) (n : PotIx) (e : Eng) :
    exec (.stream n e) s = seqIssue n e (fun w => wKind w == kindStream) (streamBody n e) s := rfl

theorem newStream_touched (q : Seqr) (e : Eng) (w : ColWord) : newStream (touched q e) w = newStream q w := by
  simp only [newStream, touched_descs, axOf_touched]

theorem agBusy_touched (q : Seqr) (e : Eng) (i : Nat) : agBusy (touched q e) i = agBusy q i := by
  simp only [agBusy, streamOf_touched]

theorem regBad_issueState (s : State) (n : PotIx) (e : Eng) (k : Nat) : regBad (issueState s n e) k = regBad s k := by
  simp only [regBad, issueState, updSeq, updPot_regs]

theorem streamBody_starts {s : State} {n : PotIx} {e : Eng} {w : ColWord}
    (hidle : agBusy (seqOf (potOf s n) e) (fieldN w 32 3) = false) (hbad : regBad s (descKey n e (fieldN w 42 8)) = false)
    (hlo : 5 ≤ fieldN (tget (seqOf (potOf s n) e).descs (fieldN w 42 8) 0) 240 4)
    (hhi : fieldN (tget (seqOf (potOf s n) e).descs (fieldN w 42 8) 0) 240 4 ≤ 11) :
    streamBody n e w (issueState s n e) = seqPlain n e (issueState s n e) fun q =>
      seqNext { q with streams := tset q.streams (fieldN w 32 3) (newStream (seqOf (potOf s n) e) w) } w := by
  have hdesc : (newStream (seqOf (potOf s n) e) w).desc = tget (seqOf (potOf s n) e).descs (fieldN w 42 8) 0 := rfl
  simp only [streamBody, seqOf_issueState, agBusy_touched, newStream_touched, regBad_issueState, hidle, hbad, hdesc,
    decide_eq_false (Nat.not_lt.2 hlo), decide_eq_false (Nat.not_lt.2 hhi), Bool.or_self, Bool.false_eq_true, if_false]

theorem streamBody_busy {s : State} {n : PotIx} {e : Eng} {w : ColWord}
    (hbusy : agBusy (seqOf (potOf s n) e) (fieldN w 32 3) = true) : streamBody n e w (issueState s n e) = .holdOther := by
  simp only [streamBody, seqOf_issueState, agBusy_touched, hbusy, if_true]

theorem qPushAll_dram (n : PotIx) (qi : Nat) (xs : List (List Byte × Bool)) (s : State) : (qPushAll n qi xs s).dram = s.dram := by
  induction xs generalizing s with
  | nil => rfl
  | cons x xs ih => rw [qPushAll, ih, qPush, updPot_dram, trayWrite, trayWrite]

theorem trayPieces_dram (k : Nat) (s : State) (a : Nat) : (trayPieces k s a).1.dram = s.dram := by
  induction k generalizing s a with
  | zero => rfl
  | succ k ih =>
    simp only [trayPieces]
    rw [ih]
    split
    · rfl
    · exact (congrArg State.dram (takeFreeBytes_frame 32 s).1 :)

/-- A step of a generator that runs on: its indices alone move (R80). -/
theorem streamStep_runs {s : State} {n : PotIx} {e : Eng} {ag : Nat} {x : Stream} (hstop : x.stopped = false) (hleft : x.left = none)
    (hwrap : (agAdvance x).2 = false) :
    streamStep s n e ag x = updSeq s n e fun q => { q with streams := tset q.streams ag { x with ix := (agAdvance x).1 } } := by
  have hx : ({ x with ix := (agAdvance x).1, left := none, stopped := false } : Stream) = { x with ix := (agAdvance x).1 } := by
    rw [← hleft, ← hstop]
  simp [streamStep, hleft, hwrap, hx]

/-- A burst in from a tray of this module with room in its queue (R80, R81). -/
theorem exec_streamBurst_tray {s : State} {n : PotIx} {e : Eng} {ag : BitVec 3} {x : Stream} {a : Nat}
    (hp : engPresent s n e = true) (hrun : (seqOf (potOf s n) e).running = true)
    (hx : streamOf (seqOf (potOf s n) e) ag.toNat = some x) (hstop : x.stopped = false) (hremote : (potOf s n).remote = [])
    (hmay : streamMay (potOf s n) x = true) (hin : x.dirOut = false)
    (hroom : burstLen x ≤ qWritable (queueOf (potOf s n) x.queue.toNat)) (hat : burstAt s x = .tray a) :
    exec (.streamBurst n e ag) s = .next (streamStep (qPushAll n x.queue.toNat (trayPieces (burstLen x / 32) s a).2
      (trayPieces (burstLen x / 32) s a).1) n e ag.toNat x) := by
  show execStreamBurst n e ag s = _
  simp only [execStreamBurst, hx, hstop, hrun, hp, hremote, hmay, hin, hroom, burstIn, hat, List.any_nil, Bool.not_true, Bool.or_self,
    Bool.false_eq_true, if_false, if_true]

/-! ### Sync operations that find their word ready (R289 to R297, R301) -/

theorem potOf_updSeq_snc (s : State) (n m : PotIx) (e : Eng) (f : Seqr → Seqr) : (potOf (updSeq s n e f) m).snc = (potOf s m).snc := by
  by_cases hm : m = n
  · subst hm
    rw [updSeq, potOf_updPot_same, setSeq_snc]
  · rw [updSeq, potOf_updPot_other _ _ _ _ hm]

theorem potOn_updSeq (s : State) (n m : PotIx) (e : Eng) (f : Seqr → Seqr) : potOn (updSeq s n e f) m = potOn s m := by
  have hreset : (potOf (updSeq s n e f) m).inReset = (potOf s m).inReset := by
    by_cases hm : m = n
    · subst hm
      rw [updSeq, potOf_updPot_same, setSeq_inReset]
    · rw [updSeq, potOf_updPot_other _ _ _ _ hm]
  rw [potOn, hreset]
  rfl

theorem ownNode_updSeq (s : State) (n : PotIx) (e : Eng) (f : Seqr → Seqr) (d : BitVec 16) :
    ownNode (updSeq s n e f) d = ownNode s d := by
  simp only [ownNode, nodeId, updSeq, updPot_drz]

/-- A change of a sync unit leaves every sequencer. -/
theorem seqOf_updSnc (s : State) (n m : PotIx) (f : Pot → Snc) (e : Eng) :
    seqOf (potOf (updPot s n fun p => { p with snc := f p }) m) e = seqOf (potOf s m) e := by
  by_cases hm : m = n
  · subst hm
    rw [potOf_updPot_same, seqOf_withSnc]
  · rw [potOf_updPot_other _ _ _ _ hm]

/-- A word's readiness lies in the table of words and in SNC_CTL. -/
theorem wordReady_congr {s t : State} {n : PotIx} {ix : Nat} (hregs : t.regs = s.regs)
    (hwords : (potOf t n).snc.words = (potOf s n).snc.words) (hctl : (potOf t n).snc.ctl = (potOf s n).snc.ctl) :
    wordReady t n ix ↔ wordReady s n ix := by
  have hword : syncWordOf (potOf t n).snc ix = syncWordOf (potOf s n).snc ix := by rw [syncWordOf, hwords, syncWordOf]
  have hfw : fwWords t n = fwWords s n := by
    unfold fwWords sncCtl regBad
    rw [hregs, hctl]
  rw [wordReady, wordSeen, hfw, hword, wordReady, wordSeen]

/-- A word's form of its allocation aside, it is seen as it stands. -/
theorem wordSeen_broken (c : Snc) (fw ix : Nat) : (wordSeen c fw ix).broken = (syncWordOf c ix).broken := by
  simp only [wordSeen]
  split <;> rfl

theorem wordSound_wordSeen (c : Snc) (fw ix : Nat) : wordSound (wordSeen c fw ix) = wordSound (syncWordOf c ix) := by
  simp only [wordSeen]
  split <;> rfl

/-- A plain operation on a ready word passes every check (R289, R296, R314). -/
theorem sncChecked_ready {s : State} {n : PotIx} {o : Waiter} {again : Bool} (hyop : o.yop.toNat ≤ 8)
    (hplain : yopBarrier o.yop = false) (h : wordReady s n o.index.toNat) : sncChecked s n o again = sncRun s n o again := by
  obtain ⟨halloc, hbroken, hsound⟩ := h
  have hwords : opWords o = [o.index.toNat] := by rw [opWords, hplain]; rfl
  have hyop' : ¬8 < o.yop.toNat := Nat.not_lt.2 hyop
  simp [sncChecked, hwords, hplain, hyop', wordSeen_broken, wordSound_wordSeen, halloc, hbroken, hsound]

/-- With nobody parked there is nothing to re-evaluate (R294). -/
theorem settle_noWaiters (fw ix fuel : Nat) {r : Snc × SyncOut} (h : r.1.waiters = []) : settle fw ix fuel r = r := by
  have hpass : settlePass fw ix r = r := by
    obtain ⟨c, out⟩ := r
    have hc : ({ c with waiters := [] } : Snc) = c := by rw [← show c.waiters = [] from h]
    simp only [settlePass, show c.waiters = [] from h, List.any_nil, Bool.false_eq_true, if_false, retryList, hc]
  cases fuel with
  | zero => rfl
  | succ f => rw [settle, hpass, if_neg (Nat.lt_irrefl _)]

/-- Nothing is found unsound where the words of those parked are sound. -/
theorem sncReport_sound {s : State} {n : PotIx} {o : Waiter}
    (h : ∀ x ∈ (potOf s n).snc.waiters, ∀ ix ∈ opWords x, wordSound (syncWordOf (potOf s n).snc ix) = true) : sncReport s n o = s := by
  have hnone : (((potOf s n).snc.waiters.filter fun x => x.index.toNat / 2 == o.index.toNat / 2).flatMap opWords).find?
      (fun ix => !(syncWordOf (potOf s n).snc ix).broken && !wordSound (syncWordOf (potOf s n).snc ix)) = none := by
    rw [List.find?_eq_none]
    intro ix hix
    obtain ⟨x, hx, hmem⟩ := List.mem_flatMap.1 hix
    simp [h x (List.mem_filter.1 hx).1 ix hmem]
  simp only [sncReport, hnone]

/-- The answer that a waiting sequencer takes (R296, R312). -/
def syncTaken (st : Status) (v : Word64) (q : Seqr) : Seqr :=
  if q.running && q.syncWait then { q with syncWait := false, syncDone := some (st, v) } else q

theorem sncReply_sequencer (s : State) (n m : PotIx) (e : Eng) (o : Waiter) (st : Status) (view : BitVec 128)
    (ho : o.agent = .sequencer m e) : sncReply n s (o, st, view) = updSeq s m e (syncTaken st (fieldB view 0 64)) := by
  rw [sncReply, ho]
  rfl

/-- A sequencer's operation that completes at once, with nobody parked, is answered and that is all. -/
theorem sncRun_done {s : State} {n m : PotIx} {e : Eng} {o : Waiter} {again : Bool} {c : Snc} {st : Status}
    (htry : tryOp (potOf s n).snc o = .done c st) (hw : c.waiters = []) (ho : o.agent = .sequencer m e) :
    ∃ v, sncRun s n o again = updSeq (setSnc s n c) m e (syncTaken st v) := by
  refine ⟨fieldB (syncView (wordSeen c (fwWords s n) o.index.toNat)) 0 64, ?_⟩
  have hnow : (potOf (updSeq (setSnc s n c) m e (syncTaken st (fieldB (syncView (wordSeen c (fwWords s n) o.index.toNat)) 0 64))) n).snc = c := by
    rw [potOf_updSeq_snc, setSnc, potOf_updPot_same]
  simp only [sncRun, htry]
  rw [settle_noWaiters _ _ _ hw]
  simp only [runAll, List.foldl_cons, List.foldl_nil]
  rw [sncReply_sequencer _ _ _ _ _ _ _ ho, sncReport_sound]
  rw [hnow, hw]
  exact fun x hx => absurd hx List.not_mem_nil

/-- One entry that parks again stays as it is. -/
theorem retryList_parks {fw : Nat} {sel : Waiter → Bool} {o : Waiter} {r : Snc × SyncOut} (htry : tryOp r.1 o = .park r.1 o false) :
    retryList fw sel [o] r = (r, [o]) := by
  rw [retryList]
  split
  · rw [htry]
    rfl
  · rfl

/-- Re-evaluation leaves the one plain wait that parks again (R294). -/
theorem settle_parks {fw ix fuel : Nat} {c : Snc} {o : Waiter} {out : SyncOut} (hc : c.waiters = [o])
    (hplain : yopBarrier o.yop = false) (htry : tryOp c o = .park c o false) : settle fw ix fuel (c, out) = (c, out) := by
  have hpass : settlePass fw ix (c, out) = (c, out) := by
    have heta : ({ c with waiters := [o] } : Snc) = c := by rw [← hc]
    have hnone : ([o].any fun x => (x.index.toNat / 2 == ix / 2 && (opWords x).all (wordActs c)) && yopBarrier x.yop) = false := by
      simp [hplain]
    simp only [settlePass, hc, hnone, Bool.false_eq_true, if_false]
    rw [retryList_parks htry]
    rw [retryList_parks htry, heta]
  cases fuel with
  | zero => rfl
  | succ f => rw [settle, hpass, if_neg (Nat.lt_irrefl _)]

/-- A plain wait that its word holds, with nobody parked, is parked alone: of the module a free value is taken beside. -/
theorem sncRun_parks {s : State} {n : PotIx} {o : Waiter} {again : Bool} (hw : (potOf s n).snc.waiters = [])
    (hplain : yopBarrier o.yop = false)
    (htry : ∀ c k, c.words = (potOf s n).snc.words → tryOp c { o with entry := k } = .park c { o with entry := k } false)
    (hsound : wordSound (syncWordOf (potOf s n).snc o.index.toNat) = true) :
    ∃ k, sncRun s n o again =
      setSnc { s with freeCtr := s.freeCtr + 1 } n { (potOf s n).snc with waiters := [{ o with entry := k }] } := by
  refine ⟨(waiterEntry s (potOf s n).snc).1, ?_⟩
  have hpark : tryOp (potOf s n).snc o = .park (potOf s n).snc o false := htry _ o.entry rfl
  have hroom : (potOf s n).snc.waiters.length < 2048 := by rw [hw]; decide
  simp only [sncRun, hpark]
  rw [if_pos hroom]
  simp only [hw, List.nil_append, Bool.false_eq_true, if_false]
  rw [settle_parks (c := { (potOf s n).snc with waiters := [{ o with entry := (waiterEntry s (potOf s n).snc).1 }] }) rfl hplain
    (htry _ _ rfl)]
  simp only [runAll, List.foldl_nil]
  rw [sncReport_sound]
  · rfl
  · rw [setSnc, potOf_updPot_same]
    intro x hx ix hix
    rw [List.mem_singleton.1 hx, opWords, if_neg (by rw [hplain]; decide), List.mem_singleton] at hix
    rw [hix]
    exact hsound

/-! ### SYNC words (R296, R297, O33) -/

theorem exec_sync (s : State) (n : PotIx) (e : Eng) :
    exec (.sync n e) s = seqIssue n e (fun w => wKind w == kindSync) (syncBodyOf n e) s := rfl

/-- A counted arrival at a sync unit where nothing is held runs its checks (R295). -/
theorem sncArrive_notHeld {s : State} {n : PotIx} {o : Waiter} (h : (potOf s n).snc.held = []) :
    sncArrive s n o = sncChecked (sncCount s n 0 40) n o false := by
  have hheld : (potOf (sncCount s n 0 40) n).snc.held = [] := by rw [sncCount, potOf_updPot_same]; exact h
  simp only [sncArrive, hheld, List.any_nil, Bool.false_eq_true, if_false]

/-- The operation that a SYNC word of a sequencer sends (R296). -/
def syncOpOf (n : PotIx) (e : Eng) (q : Seqr) (w : ColWord) : Waiter :=
  ⟨syIndex w, syYop w, fieldB w 36 2, bitAt w 38, syncOperand q w, .sequencer n e, q.tag, q.infusion, 0⟩

/-- The sequencer waits for its operation (R297). -/
def syncWaiting (q : Seqr) : Seqr := { q with syncWait := true, syncDone := none }

/-- The state in which the operation has come to its sync unit and is counted there. -/
def syncArrived (s : State) (n : PotIx) (e : Eng) (p : PotIx) : State :=
  sncCount (updSeq (issueState s n e) n e syncWaiting) p 0 40

section Sync
variable {s : State} {n : PotIx} {e : Eng} {w : ColWord}

theorem syncArrived_snc (p : PotIx) :
    (potOf (syncArrived s n e p) p).snc = { (potOf s p).snc with events := satField (potOf s p).snc.events 0 40 1 } := by
  rw [syncArrived, sncCount, potOf_updPot_same]
  dsimp only
  rw [potOf_updSeq_snc, issueState, potOf_updSeq_snc]

theorem seqOf_syncArrived (p : PotIx) :
    seqOf (potOf (syncArrived s n e p) n) e = syncWaiting (touched (seqOf (potOf s n) e) e) := by
  rw [syncArrived, sncCount, seqOf_updSnc, seqOf_updSeq_same, seqOf_issueState]

/-- A plain operation on a ready word of a pot in service, at which nothing waits, comes to run there. -/
theorem syncSend_runs (hown : ownNode s (syNode w) = true) (hfree : syncFree s (syPot w) (.sequencer n e))
    (hready : wordReady s (syPot w) (syIndex w).toNat) (hyop : (syYop w).toNat ≤ 8) (hplain : yopBarrier (syYop w) = false) :
    syncSend n e w (issueState s n e) =
      sncRun (syncArrived s n e (syPot w)) (syPot w) (syncOpOf n e (touched (seqOf (potOf s n) e) e) w) false := by
  obtain ⟨-, -, -, hheld⟩ := hfree
  have hown' : ownNode (issueState s n e) (syNode w) = true := by rw [issueState, ownNode_updSeq, hown]
  have hheld' : (potOf (updSeq (issueState s n e) n e syncWaiting) (syPot w)).snc.held = [] := by
    rw [potOf_updSeq_snc, issueState, potOf_updSeq_snc, hheld]
  have hready' : wordReady (syncArrived s n e (syPot w)) (syPot w) (syncOpOf n e (touched (seqOf (potOf s n) e) e) w).index.toNat :=
    (wordReady_congr (s := s) (t := syncArrived s n e (syPot w)) rfl (by rw [syncArrived_snc]) (by rw [syncArrived_snc])).2 hready
  have harr := sncChecked_ready (again := false) (o := syncOpOf n e (touched (seqOf (potOf s n) e) e) w) hyop hplain hready'
  rw [← harr, syncArrived, ← sncArrive_notHeld hheld']
  simp only [syncSend, hown', if_true, seqOf_issueState]
  rfl

/-- The word's operation has been answered at once, and the word goes on with its result. -/
theorem syncBodyOf_answered {r : Status × Word64} (hok : syncOk w = true) (hnone : (seqOf (potOf s n) e).syncDone = none)
    (hon : potOn s (syPot w) = true) (hr : (seqOf (potOf (syncSend n e w (issueState s n e)) n) e).syncDone = some r) :
    syncBodyOf n e w (issueState s n e) = syncFinish n e w (syncSend n e w (issueState s n e)) r.1 r.2 := by
  have hnone' : (seqOf (potOf (issueState s n e) n) e).syncDone = none := by rw [seqOf_issueState, touched_eq, hnone]
  have hon' : potOn (issueState s n e) (syPot w) = true := by rw [issueState, potOn_updSeq, hon]
  simp only [syncBodyOf, hok, hnone', hon', hr, Bool.not_true, Bool.and_false, Bool.false_eq_true, if_false]

/-- The word's operation is parked, and the word is held back with its sequencer. -/
theorem syncBodyOf_waits (hok : syncOk w = true) (hnone : (seqOf (potOf s n) e).syncDone = none)
    (hown : ownNode s (syNode w) = true) (hon : potOn s (syPot w) = true)
    (hr : (seqOf (potOf (syncSend n e w (issueState s n e)) n) e).syncDone = none) :
    syncBodyOf n e w (issueState s n e) = .go (seqHold (syncSend n e w (issueState s n e)) n e) := by
  have hnone' : (seqOf (potOf (issueState s n e) n) e).syncDone = none := by rw [seqOf_issueState, touched_eq, hnone]
  have hon' : potOn (issueState s n e) (syPot w) = true := by rw [issueState, potOn_updSeq, hon]
  have hown' : ownNode (issueState s n e) (syNode w) = true := by rw [issueState, ownNode_updSeq, hown]
  simp only [syncBodyOf, hok, hnone', hon', hown', hr, Bool.not_true, Bool.and_false, Bool.false_and, Bool.false_eq_true, if_false]

/-- STORE replaces the word and completes (R292). -/
theorem tryOp_store (c : Snc) {o : Waiter} (h : o.yop = 1) :
    tryOp c o = .done (setSyncWord c o.index.toNat { syncWordOf c o.index.toNat with
      value := o.operand, valueN := ~~~o.operand, full := o.full, fullN := !o.full, broken := false }) .ok := by
  rw [tryOp, h]
  rfl

/-- EMPTY of a word that is not full parks (R292). -/
theorem tryOp_empty {c : Snc} {o : Waiter} (h : o.yop = 3) (hfull : (syncWordOf c o.index.toNat).full = false) :
    tryOp c o = .park c o false := by
  rw [tryOp, h]
  simp [hfull]

/-- A STORE that has completed lets its word go on. -/
theorem syncFinish_store {t : State} {v : Word64} (h : syYop w = 1) :
    syncFinish n e w t .ok v = seqPlain n e t fun q => seqNext { q with syncWait := false, syncDone := none } w := by
  simp [syncFinish, h]

theorem running_of_wordIssues {s : State} {n : PotIx} {e : Eng} {w : ColWord} (h : wordIssues s n e w) :
    (seqOf (potOf s n) e).running = true := by
  obtain ⟨hready, -⟩ := h
  simp only [seqReady, Bool.and_eq_true] at hready
  tauto

/-- A STORE to a ready word is done when it is sent: the word holds the operand, and the sequencer its answer. -/
theorem syncSend_store (hw : wordIssues s n e w) (hyop : syYop w = 1) (hown : ownNode s (syNode w) = true)
    (hfree : syncFree s (syPot w) (.sequencer n e)) (hready : wordReady s (syPot w) (syIndex w).toNat) :
    (∃ v, seqOf (potOf (syncSend n e w (issueState s n e)) n) e =
      { touched (seqOf (potOf s n) e) e with syncWait := false, syncDone := some (.ok, v) }) ∧
    (syncWordOf (potOf (syncSend n e w (issueState s n e)) (syPot w)).snc (syIndex w).toNat).value =
      (axOf (seqOf (potOf s n) e) (fieldN w 39 4)).setWidth 64 ∧
    (syncWordOf (potOf (syncSend n e w (issueState s n e)) (syPot w)).snc (syIndex w).toNat).full = bitAt w 38 := by
  obtain ⟨-, -, hwaiters, -⟩ := id hfree
  have htry := tryOp_store (potOf (syncArrived s n e (syPot w)) (syPot w)).snc
    (o := syncOpOf n e (touched (seqOf (potOf s n) e) e) w) hyop
  obtain ⟨v, hrun⟩ := sncRun_done (again := false) htry (by rw [syncArrived_snc]; exact hwaiters) rfl
  rw [syncSend_runs hown hfree hready (by rw [hyop]; decide) (by rw [hyop]; decide), hrun]
  have hoperand : syncOperand (touched (seqOf (potOf s n) e) e) w = (axOf (seqOf (potOf s n) e) (fieldN w 39 4)).setWidth 64 := by
    rw [syncOperand, axOf_touched, hyop]
    rfl
  refine ⟨⟨v, ?_⟩, ?_, ?_⟩
  · rw [seqOf_updSeq_same, setSnc, seqOf_updSnc, seqOf_syncArrived, syncTaken, touched_eq]
    simp only [syncWaiting, running_of_wordIssues hw, Bool.and_self, if_true]
  · rw [potOf_updSeq_snc, setSnc, potOf_updPot_same, ← hoperand]
    exact congrArg SyncWord.value (syncWordOf_setSyncWord_same ..)
  · rw [potOf_updSeq_snc, setSnc, potOf_updPot_same]
    exact congrArg SyncWord.full (syncWordOf_setSyncWord_same ..)

/-- An EMPTY of a word that is not full parks when it is sent, and the sequencer waits. -/
theorem syncSend_empty (hyop : syYop w = 3) (hown : ownNode s (syNode w) = true)
    (hfree : syncFree s (syPot w) (.sequencer n e)) (hready : wordReady s (syPot w) (syIndex w).toNat)
    (hfull : (syncWordOf (potOf s (syPot w)).snc (syIndex w).toNat).full = false) :
    seqOf (potOf (syncSend n e w (issueState s n e)) n) e = syncWaiting (touched (seqOf (potOf s n) e) e) := by
  obtain ⟨-, -, hwaiters, -⟩ := id hfree
  obtain ⟨-, -, hsound⟩ := id hready
  have hwords : (potOf (syncArrived s n e (syPot w)) (syPot w)).snc.words = (potOf s (syPot w)).snc.words := by rw [syncArrived_snc]
  obtain ⟨k, hrun⟩ := sncRun_parks (s := syncArrived s n e (syPot w)) (n := syPot w) (again := false)
    (o := syncOpOf n e (touched (seqOf (potOf s n) e) e) w) (by rw [syncArrived_snc]; exact hwaiters)
    (by show yopBarrier (syYop w) = false; rw [hyop]; decide)
    (fun c k hc => tryOp_empty hyop (by rw [syncWordOf, hc, hwords]; exact hfull))
    (by rw [syncWordOf, hwords]; exact hsound)
  rw [syncSend_runs hown hfree hready (by rw [hyop]; decide) (by rw [hyop]; decide), hrun, setSnc, seqOf_updSnc]
  exact seqOf_syncArrived ..

end Sync

/-- Settles O33, word by word. -/
theorem streamAndSyncWords : Obligations.StreamAndSyncWords := by
  unfold Obligations.StreamAndSyncWords
  refine ⟨fun s n e w hw hk hin => ⟨fun hidle hbad hlo hhi => ?starts, fun hbusy => ?busy⟩,
    fun s n e ag x a hon hp hrun hx hstop hremote hmay hdir hleft hroom hat hwrap => ?burst,
    fun s n e w hw hk hok hin hown hfree hready hnone => ⟨fun hyop => ?store, fun hyop hfull => ?empty⟩⟩
  case starts =>
    have hin' : insideLoop { touched (seqOf (potOf s n) e) e with
        streams := tset (touched (seqOf (potOf s n) e) e).streams (fieldN w 32 3) (newStream (seqOf (potOf s n) e) w) } :=
      insideLoop_touched hin
    refine ⟨_, (exec_stream s n e).trans (seqIssue_plain hw (by simp [hk]) (streamBody_starts hidle hbad hlo hhi)),
      onlySeq_plain .., ?_, newStream (seqOf (potOf s n) e) w, ?_, rfl, rfl, rfl, rfl, rfl, rfl⟩
    · rw [seqOf_plain, seqNext_inside hin', ← touched_pc (seqOf (potOf s n) e) e]
    · rw [seqOf_plain, seqNext_inside hin']
      exact tfind_tset_same ..
  case busy =>
    refine ⟨_, (exec_stream s n e).trans (seqIssue_issues hw (by simp [hk])), ?_⟩
    rw [streamBody_busy hbusy, issued]
    exact ⟨onlySeq_updSeq .., seqOf_updSeq_same ..⟩
  case burst =>
    refine ⟨_, exec_streamBurst_tray hp hrun hx hstop hremote hmay hdir hroom hat, streamStep_runs hstop hleft hwrap, ?_⟩
    rw [streamStep_runs hstop hleft hwrap, updSeq, updPot_dram, qPushAll_dram, trayPieces_dram]
  case store =>
    obtain ⟨hon, -, -, -⟩ := id hfree
    obtain ⟨⟨v, hq⟩, hvalue, hset⟩ := syncSend_store hw hyop hown hfree hready
    have hbody := (syncBodyOf_answered hok hnone hon (congrArg Seqr.syncDone hq)).trans (syncFinish_store hyop)
    have hin' : insideLoop { touched (seqOf (potOf s n) e) e with syncWait := false, syncDone := none } := insideLoop_touched hin
    refine ⟨_, (exec_sync s n e).trans (seqIssue_go hw (by simp [hk]) hbody), ?_, ?_, ?_, ?_⟩
    · rw [seqOf_updSeq_same, hq, seqNext_inside hin', ← touched_pc (seqOf (potOf s n) e) e]
    · rw [seqOf_updSeq_same, hq, seqNext_inside hin']
      rfl
    · rw [potOf_updSeq_snc, hvalue]
    · rw [potOf_updSeq_snc, hset]
  case empty =>
    obtain ⟨hon, -, -, -⟩ := id hfree
    have hq := syncSend_empty hyop hown hfree hready hfull
    have hbody := syncBodyOf_waits hok hnone hown hon (congrArg Seqr.syncDone hq)
    refine ⟨_, (exec_sync s n e).trans (seqIssue_go hw (by simp [hk]) hbody), ?_⟩
    rw [seqHold]
    beta_reduce
    rw [seqOf_updSeq_same, hq]
    exact ⟨touched_pc .., rfl, rfl⟩

end Sys2Proof.Machine

namespace Sys2Proof.Machine

/-! ### Passes over the channels of a pot -/

theorem runAll_fixed {α : Type} {f : State → α → State} {l : List α} {s : State} (h : ∀ x ∈ l, f s x = s) : runAll f l s = s := by
  induction l with
  | nil => rfl
  | cons x l ih =>
    obtain ⟨hx, hl⟩ := List.forall_mem_cons.1 h
    show runAll f l (f s x) = s
    rw [hx]
    exact ih hl

/-- A pass in which one element alone acts, and once. -/
theorem runAll_once {f : State → Nat → State} {l : List Nat} {s t : State} {g : Nat} (hg : g ∈ l) (hother : ∀ x, x ≠ g → f s x = s)
    (hact : f s g = t) (hdone : ∀ x, f t x = t) : runAll f l s = t := by
  induction l with
  | nil => exact absurd hg List.not_mem_nil
  | cons x l ih =>
    show runAll f l (f s x) = t
    by_cases hx : x = g
    · rw [hx, hact]
      exact runAll_fixed fun y _ => hdone y
    · rw [hother x hx]
      exact ih ((List.mem_cons.1 hg).resolve_left fun h => hx h.symm)

theorem mem_upto {g n : Nat} (h : g < n) : g ∈ upto n := List.mem_range.2 h

/-! ### Leaf commands: pushes and checks (R64, R95, R96, R126, R156, O42) -/

theorem exec_leafCommandPush {s : State} {n : PotIx} {c : BitVec 256} (hon : potOn s n = true) (hfw : (potOf s n).fwRunning = true)
    (hclear : (potOf s n).trayClear = true) :
    exec (.leafCommandPush n c) s = .next (if lucDepth (potOf s n) < 128 ∧ (potOf s n).leafWait = [] then pushLeaf s n ⟨c, .firmware, []⟩
      else updPot s n fun p => { p with leafWait := p.leafWait ++ [⟨c, .firmware, []⟩] }) := by
  show execLeafCommandPush n c s = _
  simp only [execLeafCommandPush, hon, hfw, hclear, whenDo, Bool.and_self, if_true]

/-- A pushed leaf command stands last in the queue, and is counted for its infusion. -/
theorem pushLeaf_spec (s : State) (n : PotIx) (q : LeafQ) :
    potOf (pushLeaf s n q) n = { potOf s n with lucq := (potOf s n).lucq ++ [q] } ∧ (∀ m, m ≠ n → potOf (pushLeaf s n q) m = potOf s m) ∧
      pushLeaf s n q = { s with pots := (pushLeaf s n q).pots, inf := (pushLeaf s n q).inf } ∧
      (lcInf q.raw = 0 → (pushLeaf s n q).inf = s.inf) := by
  have hinf := onlyInf_inflightUp (updPot s n fun p => { p with lucq := p.lucq ++ [q] }) (lcInf q.raw)
  refine ⟨?_, fun m hm => ?_, ?_, fun h0 => ?_⟩
  · rw [pushLeaf, hinf.potOf_eq, potOf_updPot_same]
  · rw [pushLeaf, hinf.potOf_eq, potOf_updPot_other _ _ _ _ hm]
  · rw [pushLeaf, hinf]
    rfl
  · rw [pushLeaf, inflightUp, if_pos h0]
    rfl

/-- With no activation waiting the leaf microcode stands. -/
theorem leafmcSettle_none {s : State} (h : s.fw.awaiting = []) : leafmcSettle s = s := by
  rw [leafmcSettle, h]
  rfl

theorem refillLeaf_none {s : State} {n : PotIx} (h : (potOf s n).leafWait = []) : refillLeaf s n = s := by
  rw [refillLeaf, h]
  rfl

/-- With nothing buffered for the LU registers a channel applies nothing (R181, R489). -/
theorem luApply_none {s : State} {n : PotIx} {g : Nat} (h : ∀ k ∈ luKeys n, bufferOf s k = none) : luApply s n g = s := by
  simp only [luApply]
  split
  · rfl
  · exact runAll_fixed fun k hk => by simp only [h k hk]

/-- What delivery does at one channel. -/
def deliverAt (n : PotIx) (t : State) (g : Nat) : State :=
  match chanNext (potOf (luApply t n g) n) g with
  | some r =>
    if !lcLoad r.raw && chanReady (luApply t n g) n g r && !rangeHeld (luApply t n g) n g r then deliverChan (luApply t n g) n g r
    else luApply t n g
  | none => luApply t n g

theorem deliverReady_eq (s : State) (n : PotIx) : deliverReady s n = runAll (deliverAt n) (upto 64) s := rfl

/-- A channel for which no command waits has nothing delivered. -/
theorem deliverAt_none {s : State} {n : PotIx} {g : Nat} (hbuf : ∀ k ∈ luKeys n, bufferOf s k = none)
    (h : chanNext (potOf s n) g = none) : deliverAt n s g = s := by
  simp only [deliverAt, luApply_none hbuf, h]

theorem chanNext_noRuns {p : Pot} (h : p.runs = []) (g : Nat) : chanNext p g = none := by
  rw [chanNext, h]
  rfl

theorem chanNext_single {p : Pot} {r : LeafRun} (h : p.runs = [r]) (g : Nat) : chanNext p g = if g ∈ r.todo then some r else none := by
  rw [chanNext, h]
  by_cases hg : g ∈ r.todo <;> simp [hg]

theorem exec_leafCommandDeliver {s : State} {n : PotIx} (hon : potOn s n = true) (hclear : (potOf s n).trayClear = true)
    (haw : s.fw.awaiting = []) :
    exec (.leafCommandDeliver n) s = .next (refillLeaf (deliverReady (leafAccept s n) n) n) := by
  show execLeafCommandDeliver n s = _
  simp only [execLeafCommandDeliver, hon, hclear, whenDo, leafmcSettle_none haw, Bool.and_self, if_true]

/-- The forms that the distributor refuses (R96, R126, R136, R156, R157). -/
def leafRefused (s : State) (c : BitVec 256) : Prop :=
  (lcLoad c = true ∧ (lcInf c ≠ 0 ∨ 512 < lcEntry c + 8 * lcOpndLen c)) ∨
    (lcLoad c = false ∧
      (64 < lcK c ∨ (lcRowLast c).toNat < (lcRowFirst c).toNat ∨ 64 < lcOpndLen c ∨ 5 < lcRed c ∨
        (lcInf c ≠ 0 ∧ ((infOf s (lcInf c)).state ≠ 2 ∨ lcEntry c < (infOf s (lcInf c)).leafBase.toNat ∨
          (infOf s (lcInf c)).leafBase.toNat + (infOf s (lcInf c)).leafLen.toNat ≤ lcEntry c))))

theorem leafChecks_refused {s : State} {c : BitVec 256} (h : leafRefused s c) : leafChecks s c = false := by
  rw [Bool.eq_false_iff]
  intro hok
  rcases h with ⟨hl, h⟩ | ⟨hl, h⟩
  · simp only [leafChecks, hl, if_true, Bool.and_eq_true, beq_iff_eq, decide_eq_true_eq] at hok
    obtain ⟨h0, hlen⟩ := hok
    rcases h with h | h
    · exact h h0
    · omega
  · simp only [leafChecks, hl, Bool.false_eq_true, if_false, Bool.and_eq_true, Bool.or_eq_true, beq_iff_eq, decide_eq_true_eq] at hok
    obtain ⟨⟨⟨⟨hk, hrow⟩, hlen⟩, hred⟩, hinf⟩ := hok
    rcases h with h | h | h | h | ⟨h0, h⟩
    · omega
    · omega
    · omega
    · omega
    · obtain ⟨⟨hst, hlo⟩, hhi⟩ := hinf.resolve_left h0
      rcases h with h | h | h
      · exact h hst
      · omega
      · omega

/-- A refused command of the pot's firmware leaves the queue and has its event (R95, R435). -/
theorem leafRefuse_firmware {s : State} {n : PotIx} {q : LeafQ} (ho : q.origin = .firmware)
    (hroom : (potOf s n).events.length < 1024) :
    potOf (leafRefuse s n q .rejected) n =
        { potOf s n with events := (potOf s n).events ++ [BitVec.ofNat 32 ((lcTag q.raw).toNat + 2 * 2 ^ 16)] } ∧
      (leafRefuse s n q .rejected).regs = s.regs ∧ sameBytes s (leafRefuse s n q .rejected) := by
  have hinf := onlyInf_inflightDown s (lcInf q.raw)
  have heq : leafRefuse s n q .rejected = updPot (inflightDown s (lcInf q.raw)) n fun p =>
      postEvent p (BitVec.ofNat 32 ((lcTag q.raw).toNat + 2 * 2 ^ 16)) := by
    simp only [leafRefuse, leafComplete, ho]
    rfl
  rw [heq]
  refine ⟨?_, ?_, hinf.sameBytes.trans (sameBytes_updPot ..)⟩
  · rw [potOf_updPot_same, hinf.potOf_eq, postEvent, if_pos hroom]
  · rw [updPot_regs, hinf]

/-- A refused front command is answered and leaves the queue. -/
theorem leafAccept_refused {s : State} {n : PotIx} {q : LeafQ} {rest : List LeafQ} (hq : (potOf s n).lucq = q :: rest)
    (h : leafRefused s q.raw) : leafAccept s n = leafRefuse (setPot s n { potOf s n with lucq := rest }) n q .rejected := by
  simp only [leafAccept, hq, leafChecks_refused h, Bool.not_false, Bool.true_or, if_true]

theorem leafAccept_empty {s : State} {n : PotIx} (hq : (potOf s n).lucq = []) : leafAccept s n = s := by
  simp only [leafAccept, hq]

end Sys2Proof.Machine

namespace Sys2Proof.Machine

/-! ### Delivery of a run command to its channel (R144, R156) -/

theorem satField_zero {k : Nat} (w : BitVec k) (lo len : Nat) : satField w lo len 0 = w := by
  have hf : fieldN w lo len < 2 ^ len := Nat.mod_lt _ (Nat.two_pow_pos len)
  have hle : fieldN w lo len * 2 ^ lo ≤ w.toNat :=
    (Nat.mul_le_mul_right _ (Nat.mod_le _ _)).trans (Nat.div_mul_le_self _ _)
  rw [satField, Nat.add_zero, show Nat.min (2 ^ len - 1) (fieldN w lo len) = fieldN w lo len from Nat.min_eq_right (by omega),
    putField, Nat.mod_eq_of_lt hf, Nat.sub_add_cancel hle, BitVec.ofNat_toNat, BitVec.setWidth_eq]

/-- A count of nothing changes nothing. -/
theorem countAbsent_zero (s : State) : countAbsent s 0 0 = s := by
  rw [countAbsent, satField_zero, satField_zero]

/-- An LU as a command with `raw` finds it at its start (R144, R156). -/
def luAtStart (raw : BitVec 256) (l : Lu) : Prop :=
  l.upc = BitVec.ofNat 10 (lcEntry raw) ∧ l.cmd.map LeafCmd.raw = some raw ∧ l.done = false ∧ l.tag = lcTag raw ∧
    l.rowr = lcRowFirst raw ∧ l.acc0 = LuAcc.reset ∧ l.acc1 = LuAcc.reset

theorem luAtStart_luStart (l : Lu) (c : LeafCmd) (seed : BitVec 32) : luAtStart c.raw (luStart l c seed) :=
  ⟨rfl, rfl, rfl, rfl, rfl, rfl, rfl⟩

/-- The LUs of some commands started in turn. -/
def startLus (seed : BitVec 32) (us : List (Nat × LeafCmd)) (p : Pot) : Pot := us.foldl (fun q x => updLu q x.1 fun l => luStart l x.2 seed) p

theorem startLus_frame (seed : BitVec 32) (us : List (Nat × LeafCmd)) (p : Pot) :
    startLus seed us p = { p with lus := (startLus seed us p).lus } := by
  induction us generalizing p with
  | nil => rfl
  | cons x us ih => exact ih _

theorem luOf_startLus_other {seed : BitVec 32} {us : List (Nat × LeafCmd)} {p : Pot} {i : Nat} (h : i ∉ us.map Prod.fst) :
    luOf (startLus seed us p) i = luOf p i := by
  induction us generalizing p with
  | nil => rfl
  | cons x us ih =>
    obtain ⟨hx, hus⟩ := not_or.1 (fun hor => h (List.mem_cons.2 hor))
    exact (ih hus).trans (luOf_setLu_other _ _ _ _ hx)

theorem luAtStart_startLus {seed : BitVec 32} {raw : BitVec 256} {us : List (Nat × LeafCmd)} {p : Pot} {i : Nat}
    (hraw : ∀ x ∈ us, x.2.raw = raw) (h : i ∈ us.map Prod.fst) : luAtStart raw (luOf (startLus seed us p) i) := by
  induction us generalizing p with
  | nil => exact absurd h List.not_mem_nil
  | cons x us ih =>
    obtain ⟨hx, hus⟩ := List.forall_mem_cons.1 hraw
    by_cases hin : i ∈ us.map Prod.fst
    · exact ih hus hin
    · have hi : i = x.1 := (List.mem_cons.1 h).resolve_right hin
      show luAtStart raw (luOf (startLus seed us (updLu p x.1 fun l => luStart l x.2 seed)) i)
      rw [luOf_startLus_other hin, hi, updLu, luOf_setLu_same, ← hx]
      exact luAtStart_luStart ..

theorem startChan_eq (p : Pot) (g : Nat) (us : List (Nat × LeafCmd)) (seed : BitVec 32) :
    startChan p g us seed = setChan (startLus seed us p) g
      { chanOf (startLus seed us p) g with next := !(chanOf (startLus seed us p) g).next, loadedFor := none } := rfl

/-- The command that the LUs of a channel take. -/
def chanCmds (p : Pot) (g : Nat) (r : LeafRun) : List (Nat × LeafCmd) :=
  (chanLus r g).map fun i => (i, ⟨r.raw, none, BitVec.ofNat 11 i, (chanOf p g).next⟩)

theorem chanCmds_keys (p : Pot) (g : Nat) (r : LeafRun) : (chanCmds p g r).map Prod.fst = chanLus r g := by
  simp [chanCmds, Function.comp_def]

/-- Where every LU of the channel is served the run expects them all (R37, R179). -/
theorem dropUnserved_served {p : Pot} {g : Nat} {r : LeafRun} (h : ∀ i ∈ chanLus r g, luServed p i = true) : dropUnserved p g r = r := by
  have hall : r.expected.filter (fun x => x.1 != g || luServed p x.2) = r.expected := by
    rw [List.filter_eq_self]
    intro x hx
    by_cases hg : x.1 = g
    · have hmem : x.2 ∈ chanLus r g := List.mem_map_of_mem (List.mem_filter.2 ⟨hx, by simp [hg]⟩)
      simp [h _ hmem]
    · simp [hg]
  rw [dropUnserved, hall]

theorem potOf_setPot_self (s : State) (n m : PotIx) : potOf (setPot s n (potOf s n)) m = potOf s m := by
  by_cases hm : m = n
  · subst hm; rw [potOf_setPot_same]
  · rw [potOf_setPot_other _ _ _ _ hm]

theorem seenEntry_setPot_self (s : State) (n m : PotIx) (h : Nat) : seenEntry (setPot s n (potOf s n)) m h = seenEntry s m h := by
  have hhub : hubEntry (setPot s n (potOf s n)) h = hubEntry s h := rfl
  rw [seenEntry, copyBad, potEntry, potOf_setPot_self, hhub]
  rfl

theorem homeOf_setPot_self (s : State) (n m : PotIx) (g : GroupIx) : homeOf (setPot s n (potOf s n)) m g = homeOf s m g := by
  simp only [homeOf, homeGroup, seenEntry_setPot_self, setPot_map]

theorem chanEntry_setPot_self (s : State) (n m : PotIx) (g : Nat) : chanEntry (setPot s n (potOf s n)) m g = chanEntry s m g := by
  simp only [chanEntry, homeOf_setPot_self, seenEntry_setPot_self]

theorem chanMirror_setPot_self (s : State) (n m : PotIx) (g : Nat) :
    chanMirror (setPot s n (potOf s n)) m g = chanMirror s m g := by
  rw [chanMirror, chanEntry_setPot_self]
  rfl

theorem startChan_pmt (p : Pot) (g : Nat) (us : List (Nat × LeafCmd)) (seed : BitVec 32) : (startChan p g us seed).pmt = p.pmt := by
  rw [startChan_eq, setChan_pmt, startLus_frame]

theorem startChan_runs (p : Pot) (g : Nat) (us : List (Nat × LeafCmd)) (seed : BitVec 32) : (startChan p g us seed).runs = p.runs := by
  rw [startChan_eq, setChan_runs, startLus_frame]

theorem startChan_leafWait (p : Pot) (g : Nat) (us : List (Nat × LeafCmd)) (seed : BitVec 32) :
    (startChan p g us seed).leafWait = p.leafWait := by
  rw [startChan_eq, setChan_leafWait, startLus_frame]

theorem luOf_startChan (p : Pot) (g : Nat) (us : List (Nat × LeafCmd)) (seed : BitVec 32) (i : Nat) :
    luOf (startChan p g us seed) i = luOf (startLus seed us p) i := by
  rw [luOf, startChan_eq, setChan_lus, luOf]

/-- The pot after its only run has been delivered to its last channel. -/
def delivered (p : Pot) (g : Nat) (r : LeafRun) : Pot :=
  { startChan p g (chanCmds p g r) (chanSeed p g) with
    pmt := permitTake p.pmt .leaf g (lcTag r.raw) (lcInf r.raw), runs := [{ r with todo := [] }] }

theorem deliverChan_last {s : State} {n : PotIx} {g : Nat} {r : LeafRun} (hruns : (potOf s n).runs = [r]) (htodo : r.todo = [g])
    (hmirror : chanMirror s n g = none) (hserved : ∀ i ∈ chanLus r g, luServed (potOf s n) i = true) :
    deliverChan s n g r = setPot s n (delivered (potOf s n) g r) := by
  have hself : (updPot s n fun p => { p with runs := p.runs.map fun x => if x = r then dropUnserved (potOf s n) g r else x }) =
      setPot s n (potOf s n) := by
    rw [updPot, dropUnserved_served hserved, hruns, List.map_singleton, if_pos rfl, ← hruns]
  have hlast : (if r = r then ({ r with todo := r.todo.filter (· != g) } : LeafRun) else r) = { r with todo := [] } := by
    rw [if_pos rfl, htodo, List.filter_singleton]
    simp
  simp only [deliverChan]
  rw [hself, dropUnserved_served hserved, Nat.sub_self, countAbsent_zero, chanMirror_setPot_self, hmirror, potOf_setPot_self, setPot_setPot,
    startChan_pmt, startChan_runs, hruns, List.map_singleton, hlast]
  rfl

/-- After the delivery every LU of the channel stands at the start of the command, and no other LU has changed. -/
theorem luOf_delivered (p : Pot) (g : Nat) (r : LeafRun) :
    (∀ i ∈ chanLus r g, luAtStart r.raw (luOf (delivered p g r) i)) ∧ ∀ i, i ∉ chanLus r g → luOf (delivered p g r) i = luOf p i := by
  have hlu (i : Nat) : luOf (delivered p g r) i = luOf (startLus (chanSeed p g) (chanCmds p g r) p) i :=
    luOf_startChan p g (chanCmds p g r) (chanSeed p g) i
  refine ⟨fun i hi => ?_, fun i hi => ?_⟩
  · rw [hlu]
    refine luAtStart_startLus (fun x hx => ?_) (by rw [chanCmds_keys]; exact hi)
    obtain ⟨j, -, rfl⟩ := List.mem_map.1 hx
    rfl
  · rw [hlu, luOf_startLus_other (by rw [chanCmds_keys]; exact hi)]

/-- With one run that waits for one ready channel alone, the pass over the channels delivers it there. -/
theorem deliverReady_last {s : State} {n : PotIx} {g : Nat} {r : LeafRun} (hg : g < 64) (hruns : (potOf s n).runs = [r])
    (htodo : r.todo = [g]) (hload : lcLoad r.raw = false) (hready : chanReady s n g r = true) (haw : s.fw.awaiting = [])
    (hmirror : chanMirror s n g = none) (hserved : ∀ i ∈ chanLus r g, luServed (potOf s n) i = true)
    (hbuf : ∀ k ∈ luKeys n, bufferOf s k = none) : deliverReady s n = setPot s n (delivered (potOf s n) g r) := by
  have hnext := chanNext_single hruns
  have hheld : rangeHeld s n g r = false := by
    rw [rangeHeld, rewritesDie, haw]
    simp
  rw [deliverReady_eq]
  refine runAll_once (mem_upto hg) (fun x hx => ?_) ?_ fun x => ?_
  · exact deliverAt_none hbuf (by rw [hnext, htodo, if_neg (by simpa using hx)])
  · rw [deliverAt, luApply_none hbuf, hnext, htodo, if_pos List.mem_cons_self]
    dsimp only
    rw [hload, hready, hheld, deliverChan_last hruns htodo hmirror hserved]
    rfl
  · refine deliverAt_none (fun k hk => hbuf k hk) ?_
    rw [potOf_setPot_same, chanNext_single rfl, if_neg List.not_mem_nil]

end Sys2Proof.Machine

namespace Sys2Proof.Machine

/-! ### Operand slots (R136, R137) -/

/-- A proxy slot keeps its copy of the operand; no channel changes. -/
theorem foldl_proxies_chans {f : Pot → Nat → Pot} (hf : ∀ q j, (f q j).chans = q.chans) (l : List Nat) (p : Pot) :
    (l.foldl f p).chans = p.chans := by
  induction l generalizing p with
  | nil => rfl
  | cons j l ih => exact (ih (f p j)).trans (hf p j)

/-- The channel after its next slot has been filled for a command. -/
def filledChan (k : Chan) (c : BitVec 256) (o : OpndSlot) : Chan :=
  { (if k.next then { k with slot1 := o } else { k with slot0 := o }) with loadedFor := some c }

theorem filledChan_slot (k : Chan) (c : BitVec 256) (o : OpndSlot) :
    (if k.next then (filledChan k c o).slot1 else (filledChan k c o).slot0) = o := by
  cases hk : k.next <;> simp [filledChan, hk]

theorem loadSlot_chans (s : State) (n : PotIx) (g : Nat) (c : BitVec 256) (o : OpndSlot) :
    (potOf (loadSlot s n g c o) n).chans = (setChan (potOf s n) g (filledChan (chanOf (potOf s n) g) c o)).chans := by
  rw [loadSlot, potOf_updPot_same]
  refine foldl_proxies_chans (fun q j => ?_) _ _
  dsimp only
  split
  · rfl
  · rfl

theorem chanOf_congr {p q : Pot} (h : p.chans = q.chans) (g : Nat) : chanOf p g = chanOf q g := by rw [chanOf, h, chanOf]

theorem chanOf_loadSlot_same (s : State) (n : PotIx) (g : Nat) (c : BitVec 256) (o : OpndSlot) :
    chanOf (potOf (loadSlot s n g c o) n) g = filledChan (chanOf (potOf s n) g) c o := by
  rw [chanOf_congr (loadSlot_chans s n g c o), chanOf_setChan_same]

theorem chanOf_loadSlot_other (s : State) (n : PotIx) {g h : Nat} (c : BitVec 256) (o : OpndSlot) (hg : h ≠ g) :
    chanOf (potOf (loadSlot s n g c o) n) h = chanOf (potOf s n) h := by
  rw [chanOf_congr (loadSlot_chans s n g c o), chanOf_setChan_other _ _ _ _ hg]

theorem exec_operandSlotLoad {s : State} {n : PotIx} {g : GroupIx} {r : LeafRun} (hon : potOn s n = true)
    (hnext : chanNext (potOf s n) g.toNat = some r) (hload : lcLoad r.raw = false)
    (hfree : (chanOf (potOf s n) g.toNat).loadedFor = none)
    (hidle : slotBusy (potOf s n) g.toNat (chanOf (potOf s n) g.toNat).next = false) :
    exec (.operandSlotLoad n g) s =
      .next (loadSlot s n g.toNat r.raw (operandSlot s (leafTray n r.origin) r.raw)) := by
  show execOperandSlotLoad n g s = _
  simp [execOperandSlotLoad, hnext, hon, hload, hfree, hidle, whenDo]

/-! ### Microwords (R96, R177) -/

theorem setLuCode_runs (p : Pot) (i : Nat) (m : SMap Word64 × SMap Bool) : (setLuCode p i m).runs = p.runs := by
  rw [setLuCode]
  split <;> rfl

theorem setLuCode_leafWait (p : Pot) (i : Nat) (m : SMap Word64 × SMap Bool) : (setLuCode p i m).leafWait = p.leafWait := by
  rw [setLuCode]
  split <;> rfl

theorem luOf_setLuCode_other (p : Pot) {i j : Nat} (m : SMap Word64 × SMap Bool) (h : j ≠ i) : luOf (setLuCode p i m) j = luOf p j := by
  rw [setLuCode]
  split
  · rfl
  · exact luOf_setLu_other _ _ _ _ h

theorem setLuCode_dead (p : Pot) (i j : Nat) (m : SMap Word64 × SMap Bool) : (luOf (setLuCode p i m) j).dead = (luOf p j).dead := by
  by_cases h : j = i
  · subst h
    rw [setLuCode]
    split
    · rfl
    · rw [updLu, luOf_setLu_same]
  · rw [luOf_setLuCode_other p m h]

theorem setLuCode_chans (p : Pot) (i : Nat) (m : SMap Word64 × SMap Bool) : (setLuCode p i m).chans = p.chans := by
  rw [setLuCode]
  split <;> rfl

theorem setLuCode_pat (p : Pot) (i : Nat) (m : SMap Word64 × SMap Bool) : (setLuCode p i m).pat = p.pat := by
  rw [setLuCode]
  split <;> rfl

/-- New microwords leave it to the same proxy slot to serve an LU. -/
theorem proxySlot_setLuCode (p : Pot) (i j : Nat) (m : SMap Word64 × SMap Bool) : proxySlot (setLuCode p i m) j = proxySlot p j := by
  simp only [proxySlot, setLuCode_dead, luSeat, bankMapOf, setLuCode_pat, chanOf_congr (setLuCode_chans p i m)]

theorem luCode_setLuCode_same (p : Pot) (i : Nat) (m : SMap Word64 × SMap Bool) : luCode (setLuCode p i m) i = m := by
  rw [luCode, proxySlot_setLuCode, setLuCode]
  cases hslot : proxySlot p i with
  | some k => simp only [proxyOf, setProxy, tget_tset_same]
  | none => simp only [updLu, luOf_setLu_same]

/-- Another LU has its own store, or the one that both share in a proxy slot. -/
theorem luCode_setLuCode_other (p : Pot) {i j : Nat} (m : SMap Word64 × SMap Bool) (h : j ≠ i) :
    luCode (setLuCode p i m) j = luCode p j ∨ luCode (setLuCode p i m) j = m := by
  simp only [luCode, proxySlot_setLuCode, luOf_setLuCode_other p m h]
  cases hj : proxySlot p j with
  | none => exact .inl rfl
  | some k =>
    rw [setLuCode]
    cases hi : proxySlot p i with
    | none => exact .inl rfl
    | some l =>
      by_cases hk : k = l
      · refine .inr ?_
        simp only [hk, proxyOf, setProxy, tget_tset_same]
      · refine .inl ?_
        simp only [proxyOf, setProxy, tget_tset_other _ _ _ _ _ hk]

/-- Words that stand from `entry` up in a store. -/
def holdsWords (m : SMap Word64 × SMap Bool) (entry : Nat) (ws : List (Word64 × Bool)) : Prop :=
  ∀ k, (h : k < ws.length) → tget m.1 (entry + k) 0 = ws[k].1

theorem foldl_storeWords_fst (entry : Nat) (l : List ((Word64 × Bool) × Nat)) (m : SMap Word64 × SMap Bool) :
    (l.foldl (fun m w => (tset m.1 (entry + w.2) w.1.1,
        if w.1.2 then tset m.2 (entry + w.2) true else tdel m.2 (entry + w.2))) m).1 =
      l.foldl (fun m w => tset m (entry + w.2) w.1.1) m.1 := by
  induction l generalizing m with
  | nil => rfl
  | cons w l ih => exact ih _

theorem tget_foldl_zipIdx_below (entry : Nat) (ws : List (Word64 × Bool)) (o : Nat) (m : SMap Word64) {a : Nat} (h : a < entry + o) :
    tget ((ws.zipIdx o).foldl (fun m w => tset m (entry + w.2) w.1.1) m) a 0 = tget m a 0 := by
  induction ws generalizing o m with
  | nil => rfl
  | cons w ws ih => rw [List.zipIdx_cons, List.foldl_cons, ih (o + 1) _ (by omega), tget_tset_other _ _ _ _ _ (by omega)]

theorem tget_foldl_zipIdx (entry : Nat) (ws : List (Word64 × Bool)) (o : Nat) (m : SMap Word64) {k : Nat} (h : k < ws.length) :
    tget ((ws.zipIdx o).foldl (fun m w => tset m (entry + w.2) w.1.1) m) (entry + (o + k)) 0 = ws[k].1 := by
  induction ws generalizing o m k with
  | nil => exact absurd h (Nat.not_lt_zero k)
  | cons w ws ih =>
    rw [List.zipIdx_cons, List.foldl_cons]
    cases k with
    | zero => rw [tget_foldl_zipIdx_below _ _ _ _ (by omega), Nat.add_zero, tget_tset_same]; rfl
    | succ k =>
      rw [show o + (k + 1) = o + 1 + k from by omega]
      exact ih (o + 1) _ (Nat.lt_of_succ_lt_succ h)

theorem holdsWords_storeWords (m : SMap Word64 × SMap Bool) (entry : Nat) (ws : List (Word64 × Bool)) :
    holdsWords (storeWords m entry ws) entry ws := by
  intro k hk
  have h := tget_foldl_zipIdx entry ws 0 m.1 hk
  rw [Nat.zero_add] at h
  rw [storeWords, foldl_storeWords_fst, h]

/-- The pot after some LUs have stored the words of a broadcast. -/
def storeIn (entry : Nat) (ws : List (Word64 × Bool)) (is : List Nat) (p : Pot) : Pot :=
  is.foldl (fun q i => setLuCode q i (storeWords (luCode q i) entry ws)) p

theorem storeIn_runs (entry : Nat) (ws : List (Word64 × Bool)) (is : List Nat) (p : Pot) : (storeIn entry ws is p).runs = p.runs := by
  induction is generalizing p with
  | nil => rfl
  | cons i is ih => exact (ih _).trans (setLuCode_runs ..)

theorem storeIn_leafWait (entry : Nat) (ws : List (Word64 × Bool)) (is : List Nat) (p : Pot) :
    (storeIn entry ws is p).leafWait = p.leafWait := by
  induction is generalizing p with
  | nil => rfl
  | cons i is ih => exact (ih _).trans (setLuCode_leafWait ..)

theorem luOf_storeIn_other {entry : Nat} {ws : List (Word64 × Bool)} {is : List Nat} {p : Pot} {i : Nat} (h : i ∉ is) :
    luOf (storeIn entry ws is p) i = luOf p i := by
  induction is generalizing p with
  | nil => rfl
  | cons j is ih =>
    obtain ⟨hj, his⟩ := not_or.1 fun hor => h (List.mem_cons.2 hor)
    exact (ih his).trans (luOf_setLuCode_other _ _ hj)

/-- Every LU that a broadcast names holds its words, also where two of them share a proxy slot's store. -/
theorem holdsWords_storeIn {entry : Nat} {ws : List (Word64 × Bool)} {is : List Nat} {p : Pot} {i : Nat}
    (h : i ∈ is ∨ holdsWords (luCode p i) entry ws) : holdsWords (luCode (storeIn entry ws is p) i) entry ws := by
  induction is generalizing p with
  | nil => exact h.resolve_left List.not_mem_nil
  | cons j is ih =>
    have hnew := holdsWords_storeWords (luCode p j) entry ws
    refine ih ?_
    by_cases hij : i = j
    · right
      rw [hij, luCode_setLuCode_same]
      exact hnew
    · rcases h with h | h
      · exact .inl ((List.mem_cons.1 h).resolve_left hij)
      · right
        rcases luCode_setLuCode_other p (storeWords (luCode p j) entry ws) hij with heq | heq
        · rw [heq]; exact h
        · rw [heq]; exact hnew

theorem broadcastWords_length (s : State) (n : PotIx) (c : BitVec 256) : (broadcastWords s n c).length = lcOpndLen c * 8 := by
  simp [broadcastWords, upto]

/-- The pot after the only run, a LOAD, has been broadcast to its last channel. -/
def broadcasted (s : State) (n : PotIx) (g : Nat) (r : LeafRun) : Pot :=
  { storeIn (lcEntry r.raw) (broadcastWords s (leafTray n r.origin) r.raw) (chanLus r g) (potOf s n) with
    runs := [{ r with todo := [], answers := r.answers ++ (chanLus r g).map storedAnswer }] }

theorem broadcastChan_last {s : State} {n : PotIx} {g : Nat} {r : LeafRun} (hruns : (potOf s n).runs = [r]) (htodo : r.todo = [g])
    (hload : lcLoad r.raw = true) (hidle : ∀ i ∈ chanLus r g, (luOf (potOf s n) i).cmd = none) :
    broadcastChan n s g = setPot s n (broadcasted s n g r) := by
  have hall : ((chanLus r g).all fun i => (luOf (potOf s n) i).cmd.isNone) = true := by
    rw [List.all_eq_true]
    intro i hi
    rw [hidle i hi]
    rfl
  have htodo' : r.todo.filter (· != g) = [] := by
    rw [htodo, List.filter_singleton]
    simp
  simp only [broadcastChan, chanNext_single hruns, htodo, if_pos List.mem_cons_self, hload, hall, Bool.and_self, if_true]
  rw [← storeIn, storeIn_runs, hruns, List.map_singleton, if_pos rfl, htodo']
  rfl

theorem broadcastChan_none {s : State} {n : PotIx} {g : Nat} (h : chanNext (potOf s n) g = none) : broadcastChan n s g = s := by
  simp only [broadcastChan, h]

theorem exec_microwordLoad_last {s : State} {n : PotIx} {g : Nat} {r : LeafRun} (hg : g < 64) (hon : potOn s n = true)
    (hclear : (potOf s n).trayClear = true) (hruns : (potOf s n).runs = [r]) (htodo : r.todo = [g]) (hload : lcLoad r.raw = true)
    (hwait : (potOf s n).leafWait = []) (hidle : ∀ i ∈ chanLus r g, (luOf (potOf s n) i).cmd = none) :
    exec (.microwordLoad n) s = .next (setPot s n (broadcasted s n g r)) := by
  have hpass : runAll (broadcastChan n) (upto 64) s = setPot s n (broadcasted s n g r) := by
    refine runAll_once (mem_upto hg) (fun x hx => ?_) (broadcastChan_last hruns htodo hload hidle) fun x => ?_
    · exact broadcastChan_none (by rw [chanNext_single hruns, htodo, if_neg (by simpa using hx)])
    · exact broadcastChan_none (by rw [potOf_setPot_same, chanNext_single rfl, if_neg List.not_mem_nil])
  have hrefill : refillLeaf (setPot s n (broadcasted s n g r)) n = setPot s n (broadcasted s n g r) :=
    refillLeaf_none (by rw [potOf_setPot_same]; exact (storeIn_leafWait ..).trans hwait)
  show execMicrowordLoad n s = _
  rw [execMicrowordLoad, hpass, hrefill, hon, hclear]
  rfl

/-! ### Result records (R160) -/

theorem pullFirst_append {α : Type} {f : α → Bool} {pre post : List α} {a : α} (hpre : ∀ x ∈ pre, f x = false) (ha : f a = true) :
    pullFirst f (pre ++ a :: post) = some (a, pre ++ post) := by
  induction pre with
  | nil => rw [List.nil_append, pullFirst, if_pos ha, List.nil_append]
  | cons x pre ih =>
    obtain ⟨hx, hpre'⟩ := List.forall_mem_cons.1 hpre
    rw [List.cons_append, pullFirst, ih hpre', hx]
    rfl

theorem onlyInf.dram {s t : State} (h : onlyInf s t) : t.dram = s.dram := by rw [h]
theorem onlyInf.tray {s t : State} (h : onlyInf s t) : t.tray = s.tray := by rw [h]
theorem onlyInf.fw {s t : State} (h : onlyInf s t) : t.fw = s.fw := by rw [h]

theorem trayWrite_tray (s : State) (a : Nat) (bs : List Byte) (poison : Bool) :
    (trayWrite s a bs poison).tray = cellWrite trayDefault s.tray a bs := rfl

/-- The state with a run gone from its pot and its record stored. -/
def recordStored (s : State) (n : PotIx) (runs : List LeafRun) (r : LeafRun) : State :=
  trayWrite (setPot s n { potOf s n with runs := runs }) (trayGlobal n (lcResLine r.raw * 64)) (recordBytes r) false

/-- The state after a host command's share has written its record and answered the member. -/
def recorded (s : State) (n : PotIx) (runs : List LeafRun) (r : LeafRun) (key : Nat) : State :=
  answerMember (inflightDown (recordStored s n runs r) (lcInf r.raw)) n { runAnswer r with key := key }

theorem potOf_recordStored (s : State) (n : PotIx) (runs : List LeafRun) (r : LeafRun) :
    potOf (recordStored s n runs r) n = { potOf s n with runs := runs } := potOf_setPot_same s n _

theorem potOf_recorded (s : State) (n : PotIx) (runs : List LeafRun) (r : LeafRun) (key : Nat) :
    potOf (recorded s n runs r key) n =
      { fabTake { potOf s n with runs := runs } .cmb with answers := (potOf s n).answers ++ [{ runAnswer r with key := key }] } := by
  have hinf := onlyInf_inflightDown (recordStored s n runs r) (lcInf r.raw)
  rw [recorded, answerMember, potOf_updPot_same, hinf.potOf_eq, potOf_recordStored]

theorem recorded_dram (s : State) (n : PotIx) (runs : List LeafRun) (r : LeafRun) (key : Nat) :
    (recorded s n runs r key).dram = s.dram := by
  rw [recorded, answerMember, updPot_dram, (onlyInf_inflightDown ..).dram, recordStored]
  rfl

theorem recorded_fw (s : State) (n : PotIx) (runs : List LeafRun) (r : LeafRun) (key : Nat) : (recorded s n runs r key).fw = s.fw := by
  rw [recorded, answerMember, updPot_fw, (onlyInf_inflightDown ..).fw, recordStored]
  rfl

theorem recorded_tray (s : State) (n : PotIx) (runs : List LeafRun) (r : LeafRun) (key : Nat) :
    (recorded s n runs r key).tray = cellWrite trayDefault s.tray (trayGlobal n (lcResLine r.raw * 64)) (recordBytes r) := by
  rw [recorded, answerMember, updPot_tray, (onlyInf_inflightDown ..).tray, recordStored, trayWrite_tray, setPot_tray]

theorem exec_leafResultRecord_host {s : State} {n : PotIx} {pre post : List LeafRun} {r : LeafRun} {key : Nat}
    (hruns : (potOf s n).runs = pre ++ r :: post) (hpre : ∀ x ∈ pre, runDone x = false) (hdone : runDone r = true)
    (hload : lcLoad r.raw = false) (hred : lcRed r.raw ≠ 0) (hexp : runExpected r ≠ 0) (ho : r.origin = .host key)
    (haw : s.fw.awaiting = []) : exec (.leafResultRecord n) s = .next (recorded s n (pre ++ post) r key) := by
  have hpull : pullFirst runDone (potOf s n).runs = some (r, pre ++ post) := by rw [hruns, pullFirst_append hpre hdone]
  have hset := leafmcSettle_none (s := recorded s n (pre ++ post) r key) (by rw [recorded_fw, haw])
  show execLeafResultRecord n s = _
  rw [execLeafResultRecord, hpull]
  simp only [hload, ho, leafTray, Bool.false_or, beq_eq_false_iff_ne.2 hred, beq_eq_false_iff_ne.2 hexp, bne_self_eq_false,
    Bool.false_eq_true, if_false, leafComplete]
  exact congrArg Host.Outcome.next hset

/-! ### The course of a leaf command (O42) -/

/-- Settles O42: each clause is the one command of the course that it speaks of, by the lemma on that command. -/
theorem leafCommandCourse : Obligations.LeafCommandCourse := by
  unfold Obligations.LeafCommandCourse
  refine ⟨?push, ?refused, ?deliver, ?slot, ?words, ?record⟩
  case push =>
    intro s n c hon hfw hclear
    refine ⟨fun hroom hwait => ?_, fun hfull => ?_⟩
    · refine ⟨_, exec_leafCommandPush hon hfw hclear, ?_⟩
      beta_reduce
      rw [if_pos ⟨hroom, hwait⟩]
      exact pushLeaf_spec s n ⟨c, .firmware, []⟩
    · refine ⟨_, exec_leafCommandPush hon hfw hclear, ?_⟩
      beta_reduce
      rw [if_neg fun h => absurd h.1 (Nat.not_lt.2 hfull)]
      exact ⟨onlyPot_updPot .., potOf_updPot_same ..⟩
  case refused =>
    intro s n q rest hon hclear hq hruns hbuf hwait haw hbad ho hroom
    have hpot := potOf_setPot_same s n { potOf s n with lucq := rest }
    obtain ⟨hp, hregs, hsame⟩ := leafRefuse_firmware (s := setPot s n { potOf s n with lucq := rest }) (n := n) ho (by rw [hpot]; exact hroom)
    rw [hpot] at hp
    have hdel : deliverReady (leafAccept s n) n = leafRefuse (setPot s n { potOf s n with lucq := rest }) n q .rejected := by
      rw [deliverReady_eq, leafAccept_refused hq hbad]
      refine runAll_fixed fun g _ => deliverAt_none (fun k hk => ?_) (chanNext_noRuns (by rw [hp]; exact hruns) g)
      rw [bufferOf, hregs]
      exact hbuf k hk
    refine ⟨_, exec_leafCommandDeliver hon hclear haw, ?_⟩
    beta_reduce
    rw [hdel, refillLeaf_none (by rw [hp]; exact hwait), hp]
    exact ⟨rfl, hruns, rfl, hsame⟩
  case deliver =>
    intro s n g r hg hon hclear hq hwait haw hruns htodo hload hready hmirror hserved hbuf
    refine ⟨_, exec_leafCommandDeliver hon hclear haw, ?_⟩
    beta_reduce
    rw [leafAccept_empty hq, deliverReady_last hg hruns htodo hload hready haw hmirror hserved hbuf,
      refillLeaf_none (by rw [potOf_setPot_same]; exact (startChan_leafWait (potOf s n) g _ _).trans hwait), potOf_setPot_same]
    obtain ⟨hin, hout⟩ := luOf_delivered (potOf s n) g r
    exact ⟨onlyPot_setPot .., rfl, hin, hout⟩
  case slot =>
    intro s n g r hon hnext hload hfree hidle
    refine ⟨_, exec_operandSlotLoad hon hnext hload hfree hidle, ?_⟩
    beta_reduce
    rw [chanOf_loadSlot_same]
    exact ⟨onlyPot_updPot .., rfl, filledChan_slot .., fun h hh => chanOf_loadSlot_other s n _ _ hh⟩
  case words =>
    intro s n g r hg hon hclear hruns htodo hload hwait hidle
    refine ⟨_, exec_microwordLoad_last hg hon hclear hruns htodo hload hwait hidle, ?_⟩
    beta_reduce
    rw [potOf_setPot_same]
    refine ⟨onlyPot_setPot .., rfl, fun i hi k hk => ?_, fun i hi => luOf_storeIn_other hi⟩
    have hlen := broadcastWords_length s (leafTray n r.origin) r.raw
    have hword := holdsWords_storeIn (entry := lcEntry r.raw) (ws := broadcastWords s (leafTray n r.origin) r.raw) (p := potOf s n)
      (.inl hi) k (by rw [hlen]; exact hk)
    refine Eq.trans hword ?_
    simp only [broadcastWords, List.getElem_map, upto, List.getElem_range]
  case record =>
    intro s n pre post r key hmem hruns hpre hdone hload hred hexp ho haw
    obtain ⟨hdram, htray⟩ := hmem
    refine ⟨_, exec_leafResultRecord_host hruns hpre hdone hload hred hexp ho haw, ?_⟩
    beta_reduce
    rw [potOf_recorded, trayRead, recorded_tray]
    exact ⟨rfl, rfl, recorded_dram .., cellRead_cellWrite_same _ _ _ _ htray, fun a ha => cellGet_cellWrite_other _ _ _ _ _ ha htray⟩

end Sys2Proof.Machine

namespace Sys2Proof.Machine

/-! ### Fields of a word after a write of one of them (R9) -/

/-- A number cut at a field: below it, the field, and above it. -/
theorem putField_parts (W lo len v : Nat) :
    (W - W / 2 ^ lo % 2 ^ len * 2 ^ lo + v % 2 ^ len * 2 ^ lo) % 2 ^ lo = W % 2 ^ lo ∧
      (W - W / 2 ^ lo % 2 ^ len * 2 ^ lo + v % 2 ^ len * 2 ^ lo) / 2 ^ lo = 2 ^ len * (W / 2 ^ lo / 2 ^ len) + v % 2 ^ len := by
  have hlow := Nat.div_add_mod W (2 ^ lo)
  have hmid := Nat.div_add_mod (W / 2 ^ lo) (2 ^ len)
  have hsplit : W - W / 2 ^ lo % 2 ^ len * 2 ^ lo + v % 2 ^ len * 2 ^ lo =
      W % 2 ^ lo + 2 ^ lo * (2 ^ len * (W / 2 ^ lo / 2 ^ len) + v % 2 ^ len) := by
    have hW : W = W % 2 ^ lo + 2 ^ lo * (2 ^ len * (W / 2 ^ lo / 2 ^ len)) + W / 2 ^ lo % 2 ^ len * 2 ^ lo := by
      calc W = 2 ^ lo * (2 ^ len * (W / 2 ^ lo / 2 ^ len) + W / 2 ^ lo % 2 ^ len) + W % 2 ^ lo := by rw [hmid, hlow]
        _ = _ := by ring
    have hsub : W - W / 2 ^ lo % 2 ^ len * 2 ^ lo = W % 2 ^ lo + 2 ^ lo * (2 ^ len * (W / 2 ^ lo / 2 ^ len)) :=
      Nat.sub_eq_of_eq_add hW
    rw [hsub]
    ring
  rw [hsplit]
  refine ⟨by rw [Nat.add_mul_mod_self_left, Nat.mod_mod], ?_⟩
  rw [Nat.add_mul_div_left _ _ (Nat.two_pow_pos lo), Nat.div_eq_of_lt (Nat.mod_lt _ (Nat.two_pow_pos lo)), Nat.zero_add]

theorem fieldN_putField_same {n : Nat} (w : BitVec n) (lo len v : Nat) (h : lo + len ≤ n) :
    fieldN (putField w lo len v) lo len = v % 2 ^ len := by
  obtain ⟨-, hdiv⟩ := putField_parts w.toNat lo len v
  rw [putField, fieldN_ofNat _ _ _ _ h, fieldN, hdiv, Nat.mul_add_mod, Nat.mod_mod]

theorem fieldN_putField_below {n : Nat} (w : BitVec n) (lo len v i k : Nat) (h : i + k ≤ lo) (hn : i + k ≤ n) :
    fieldN (putField w lo len v) i k = fieldN w i k := by
  obtain ⟨hmod, -⟩ := putField_parts w.toNat lo len v
  have hcut (X : Nat) : X / 2 ^ i % 2 ^ k = X % 2 ^ lo % 2 ^ (i + k) / 2 ^ i := by
    rw [Nat.mod_mod_of_dvd _ (Nat.pow_dvd_pow 2 h), Nat.pow_add, Nat.mod_mul_right_div_self]
  rw [putField, fieldN_ofNat _ _ _ _ hn, fieldN, hcut, hmod, ← hcut, fieldN]

theorem fieldN_putField_above {n : Nat} (w : BitVec n) (lo len v i k : Nat) (h : lo + len ≤ i) (hn : i + k ≤ n) :
    fieldN (putField w lo len v) i k = fieldN w i k := by
  obtain ⟨-, hdiv⟩ := putField_parts w.toNat lo len v
  have hcut (X : Nat) : X / 2 ^ i = X / 2 ^ lo / 2 ^ len / 2 ^ (i - lo - len) := by
    rw [Nat.div_div_eq_div_mul, Nat.div_div_eq_div_mul, ← Nat.pow_add, ← Nat.pow_add]
    congr 2
    omega
  have hhigh : (2 ^ len * (w.toNat / 2 ^ lo / 2 ^ len) + v % 2 ^ len) / 2 ^ len = w.toNat / 2 ^ lo / 2 ^ len := by
    rw [Nat.mul_add_div (Nat.two_pow_pos len), Nat.div_eq_of_lt (Nat.mod_lt _ (Nat.two_pow_pos len)), Nat.add_zero]
  rw [putField, fieldN_ofNat _ _ _ _ hn, fieldN, hcut, hdiv, hhigh, ← hcut, fieldN]

theorem bitAt_eq_fieldN {n : Nat} (w : BitVec n) (i : Nat) : bitAt w i = decide (fieldN w i 1 = 1) := by
  rw [bitAt, ← BitVec.testBit_toNat, Nat.testBit_eq_decide_div_mod_eq, fieldN, Nat.pow_one]

theorem bitAt_putBit_same {n : Nat} (w : BitVec n) {i : Nat} (b : Bool) (h : i < n) : bitAt (putBit w i b) i = b := by
  rw [bitAt_eq_fieldN, putBit, fieldN_putField_same w i 1 _ h]
  cases b <;> rfl

theorem bitAt_putBit_other {n : Nat} (w : BitVec n) {i j : Nat} (b : Bool) (h : j ≠ i) (hj : j < n) :
    bitAt (putBit w i b) j = bitAt w j := by
  rw [bitAt_eq_fieldN, bitAt_eq_fieldN, putBit]
  rcases Nat.lt_or_gt_of_ne h with hlt | hgt
  · rw [fieldN_putField_below w i 1 _ j 1 hlt hj]
  · rw [fieldN_putField_above w i 1 _ j 1 hgt hj]

/-! ### A range of memory dropped (R55) -/

theorem tfind_filter_none {α : Type} (m : SMap α) (keep : Nat × α → Bool) (k : Nat) (h : ∀ x, keep (k, x) = false) :
    tfind (m.filter keep) k = none := by
  induction m with
  | nil => rfl
  | cons e m ih =>
    rw [List.filter_cons]
    split
    case isTrue hk =>
      have hne : e.1 ≠ k := by
        rintro rfl
        exact absurd hk (by rw [h e.2]; decide)
      rw [tfind, if_neg hne, ih, ite_self]
    case isFalse => exact ih

theorem cellGet_cellDrop_inside (d : Nat → Byte) (m : List Host.Cell) {lo hi a : Nat} (hlo : lo ≤ a) (hhi : a < hi) :
    cellGet d (cellDrop m lo hi) a = d a := by
  rw [cellGet, cellDrop, tget, tfind_filter_none _ _ _ fun x => by simp [hlo, hhi]]
  rfl

theorem cellGet_cellDrop_outside (d : Nat → Byte) (m : List Host.Cell) {lo hi a : Nat} (ha : a < lo ∨ hi ≤ a)
    (h : Memory.wf d m = true) : cellGet d (cellDrop m lo hi) a = cellGet d m a := by
  suffices hfind : tfind (cellDrop m lo hi) a = tfind m a by rw [cellGet, cellGet, tget, tget, hfind]
  induction m with
  | nil => rfl
  | cons e m ih =>
    obtain ⟨habove, -, hm⟩ := (wf_cons d e m).1 h
    have hrest := ih hm
    rw [cellDrop] at hrest ⊢
    rw [List.filter_cons]
    split
    case isTrue => rw [tfind, tfind, hrest]
    case isFalse hout =>
      have hin : lo ≤ e.1 ∧ e.1 < hi := by simpa using hout
      rw [hrest, tfind, if_neg (by omega : ¬e.1 = a)]
      split
      case isTrue hlt => exact tfind_above m a fun x hx => Nat.lt_trans hlt (habove x hx)
      case isFalse => rfl

/-! ### The ends of a sweep, a tray clear and the enrolment window, and PULSE (O10) -/

theorem serveWaiters_none {s : State} (h : s.map.waiting = []) : serveWaiters s = s := by
  have hmap : { s.map with waiting := [] } = s.map := by rw [← h]
  rw [serveWaiters, h]
  show { s with map := { s.map with waiting := [] } } = s
  rw [hmap]

theorem trayClear_word {s : State} {n : PotIx} {a : Nat} (hlo : n.toNat * 2 ^ 27 ≤ a) (hhi : a < n.toNat * 2 ^ 27 + 2 ^ 27) :
    trayWordPoison (trayClear s n) (a / 32) = false := by
  have hmeta : metaOf (trayClear s n) (a / 32) = ⟨false, []⟩ := by
    rw [metaOf, trayClear, tget, tfind_filter_none _ _ _ fun x => ?_]
    · rfl
    · have h1 : n.toNat * 2 ^ 27 / 32 ≤ a / 32 := Nat.div_le_div_right hlo
      have h2 : a / 32 < (n.toNat * 2 ^ 27 + 2 ^ 27) / 32 := by omega
      simp only [Bool.not_eq_false', Bool.and_eq_true, decide_eq_true_eq]
      exact ⟨h1, h2⟩
  rw [trayWordPoison, hmeta]
  rfl

theorem exec_tagSweepDone {s : State} {n : PotIx} {g : GroupIx} (hp : potPresent s n = true) (hpg : bitAt s.power.pgPot n.toNat = true)
    (hstep : s.power.step = .running) (hswept : (schedOf (potOf s n) g.toNat).swept = false) :
    exec (.tagSweepDone n g) s = .next (serveWaiters (updSched s n g fun c => { c with swept := true })) := by
  show execTagSweepDone n g s = _
  simp only [execTagSweepDone, hp, hpg, hstep, hswept, whenDo, beq_self_eq_true, Bool.and_self, Bool.not_false, if_true]

theorem exec_trayClearDone {s : State} {n : PotIx} (hon : potOn s n = true) (hclear : (potOf s n).trayClear = false) :
    exec (.trayClearDone n) s = .next (updPot (trayClear s n) n fun p => { p with trayClear := true }) := by
  show execTrayClearDone n s = _
  simp only [execTrayClearDone, hon, hclear, whenDo, Bool.and_self, Bool.not_false, if_true]

/-- Settles O10: the sweep by its one field of the scheduler, the tray by what a dropped range of memory reads as. -/
theorem sweepTrayPulseAndWindowEvents : Obligations.SweepTrayPulseAndWindowEvents := by
  unfold Obligations.SweepTrayPulseAndWindowEvents
  refine ⟨?sweep, ?tray, ?pulse, ?window⟩
  case sweep =>
    intro s n g hp hpg hstep hswept
    have hpot := potOf_updPot_same s n fun p => setSched p g.toNat { schedOf p g.toNat with swept := true }
    refine ⟨_, exec_tagSweepDone hp hpg hstep hswept, updSched s n g fun c => { c with swept := true }, ?_, onlyPot_updPot .., ?_, ?_,
      rfl, fun hw => serveWaiters_none hw⟩
    · rw [updSched, hpot, schedOf_setSched_same]
    · rw [updSched, hpot]
      rfl
    · intro j hj
      rw [updSched, hpot, schedOf_setSched_other _ _ _ _ hj]
  case tray =>
    intro s n hmem hon hclear
    obtain ⟨-, htray⟩ := hmem
    refine ⟨_, exec_trayClearDone hon hclear, potOf_updPot_same .. ▸ rfl, fun a hlo hhi => ⟨?_, trayClear_word hlo hhi⟩, fun a ha => ?_, rfl,
      potOf_updPot_same .., fun m hm => potOf_updPot_other _ _ _ _ hm⟩
    · exact cellGet_cellDrop_inside trayDefault s.tray hlo hhi
    · exact cellGet_cellDrop_outside trayDefault s.tray ha htray
  case pulse =>
    intro s hrun hon
    refine ⟨_, ?_, rfl⟩
    show execPulseToggle s = _
    rw [execPulseToggle, hrun, hon]
    rfl
  case window =>
    intro s hon
    refine ⟨{ s with fw := { s.fw with keyCtl := putBit s.fw.keyCtl 7 false } }, ?_, bitAt_putBit_same _ _ (by decide), rfl,
      fun i hi h64 => bitAt_putBit_other _ _ hi h64⟩
    show execEnrollWindowClose s = _
    rw [execEnrollWindowClose, hon]
    rfl

end Sys2Proof.Machine

namespace Sys2Proof.Machine

/-! ### Summary words and recipes (R89, R234, R256, R257, R487, O37) -/

theorem potPresent_of_potOn {s : State} {n : PotIx} (h : potOn s n = true) : potPresent s n = true := (Bool.and_eq_true_iff.1 h).1

theorem exec_summaryWordPush {s : State} {n : PotIx} {x : SummaryOut} {xs : List SummaryOut} (hon : potOn s n = true)
    (hout : (potOf s n).vxe.summaryOut = x :: xs) :
    exec (.summaryWordPush n) s =
      .next (updPot s n fun p => sumArrive { p with vxe := { p.vxe with summaryOut := xs } } x) := by
  show execSummaryWordPush n s = _
  simp only [execSummaryWordPush, hout, whenDo, hon, if_true]

/-- A summary word joins the queue that its destination names, and no other list of summary words changes. -/
theorem sumArrive_spec (p : Pot) (x : SummaryOut) :
    (sumArrive p x).vxe.summaryOut = p.vxe.summaryOut ∧ (x.dst = 1 → (sumArrive p x).vxeSeq.summary = p.vxeSeq.summary ++ [x.word]) ∧
      (x.dst = 2 → (sumArrive p x).mxeSeq.summary = p.mxeSeq.summary ++ [x.word]) ∧
      (x.dst = 3 → (sumArrive p x).sfeSeq.summary = p.sfeSeq.summary ++ [x.word]) ∧
      (x.dst = 4 → (sumArrive p x).vxe.brewerQ = p.vxe.brewerQ ++ [x.word]) := by
  refine ⟨?_, fun h => ?_, fun h => ?_, fun h => ?_, fun h => ?_⟩
  · rw [sumArrive]
    split <;> rfl
  all_goals
    rw [sumArrive, h]
    rfl

theorem exec_vxeSumqPop_head {s : State} {who : Requester} {n : PotIx} {x : Summary} {xs : List Summary}
    (hreach : reaches who (.pot n) = true) (hon : potOn s n = true) (hq : (potOf s n).vxe.brewerQ = x :: xs)
    (hfresh : latched s who (potReg n 0x4100) = none) :
    exec (.vxeSumqPop who n) s =
      .next { updPot (fillLatch s who (potReg n 0x4100) x.word.toNat) n fun p => { p with vxe := { p.vxe with brewerQ := xs } } with
        out := { s.out with reg := some (who, BitVec.ofNat 64 (x.word.toNat / 2 ^ 192)) } } := by
  show execVxeSumqPop who n s = _
  simp only [execVxeSumqPop, hreach, hon, hq, hfresh, Bool.not_true, Bool.false_eq_true, if_false, Option.getD_none]
  rfl

theorem exec_vxeSumqPop_empty {s : State} {who : Requester} {n : PotIx} (hreach : reaches who (.pot n) = true) (hon : potOn s n = true)
    (hq : (potOf s n).vxe.brewerQ = []) :
    exec (.vxeSumqPop who n) s =
      .next { updPot s n fun p => { p with vxe := { p.vxe with emptyRead := true } } with
        out := { s.out with reg := some (who, 0) } } := by
  show execVxeSumqPop who n s = _
  simp only [execVxeSumqPop, hreach, hon, hq, Bool.not_true, Bool.false_eq_true, if_false]
  rfl

theorem exec_recipeWrite {s : State} {who : Requester} {n : PotIx} (entry : BitVec 8) (h : BitVec 32) {ops : List (BitVec 32)}
    (hreach : reaches who (.pot n) = true) (hon : potOn s n = true) (hlen : ops.length = 64) :
    exec (.recipeWrite who n entry (h :: ops)) s =
      .next (updPot (parityEnds s (entryKey (potWin n) 0x12 entry.toNat)) n fun p =>
        if p.vxeSeq.running then { p with vxe := { p.vxe with recipePend := tset p.vxe.recipePend entry.toNat ⟨h, ops⟩ } }
        else { p with vxe := { p.vxe with recipes := tset p.vxe.recipes entry.toNat ⟨h, ops⟩ } }) := by
  have hrecipe : (⟨nth (h :: ops) 0 0, ((h :: ops).drop 1).take 64⟩ : Recipe) = ⟨h, ops⟩ := by
    rw [List.drop_succ_cons, List.drop_zero, List.take_of_length_le (Nat.le_of_eq hlen)]
    rfl
  show execRecipeWrite who n entry (h :: ops) s = _
  simp only [execRecipeWrite, hrecipe, hreach, hon, potPresent_of_potOn hon, Bool.not_true, Bool.false_eq_true, if_false]

/-- Settles O37: a push by the destination's queue, a pop by the head, a recipe by the table that takes it. -/
theorem summaryWordsAndRecipes : Obligations.SummaryWordsAndRecipes := by
  unfold Obligations.SummaryWordsAndRecipes
  refine ⟨?push, ?pop, ?recipe⟩
  case push =>
    intro s n x xs hon hout
    refine ⟨_, exec_summaryWordPush hon hout, onlyPot_updPot .., ?_⟩
    rw [potOf_updPot_same]
    exact sumArrive_spec { potOf s n with vxe := { (potOf s n).vxe with summaryOut := xs } } x
  case pop =>
    intro s who n hreach hon
    refine ⟨fun x xs hq hfresh => ?_, fun hq => ?_⟩
    · have hpot := potOf_updPot_same (fillLatch s who (potReg n 0x4100) x.word.toNat) n fun p => { p with vxe := { p.vxe with brewerQ := xs } }
      have hbits : BitVec.ofNat 64 (x.word.toNat / 2 ^ 192) = BitVec.ofNat 64 (fieldN x.word 192 64) := by
        exact BitVec.eq_of_toNat_eq (by simp only [fieldN, BitVec.toNat_ofNat, Nat.mod_mod])
      refine ⟨_, exec_vxeSumqPop_head hreach hon hq hfresh, (congrArg (fun p => p.vxe.brewerQ) hpot :), ?_, sameBytes_of_stores rfl rfl rfl⟩
      exact congrArg (fun v => some (who, v)) hbits
    · have hpot := potOf_updPot_same s n fun p => { p with vxe := { p.vxe with emptyRead := true } }
      exact ⟨_, exec_vxeSumqPop_empty hreach hon hq, (congrArg (fun p => p.vxe.emptyRead) hpot :),
        (congrArg (fun p => p.vxe.brewerQ) hpot :).trans hq, rfl, sameBytes_of_stores rfl rfl rfl⟩
  case recipe =>
    intro s who n entry h ops hreach hon hlen
    refine ⟨fun hrun => ?_, fun hrun => ?_⟩
    · refine ⟨_, exec_recipeWrite entry h hreach hon hlen, ?_⟩
      beta_reduce
      rw [potOf_updPot_same, show potOf (parityEnds s (entryKey (potWin n) 0x12 entry.toNat)) n = potOf s n from rfl, hrun]
      exact ⟨fun k => tget_tset .., sameBytes_updPot ..⟩
    · refine ⟨_, exec_recipeWrite entry h hreach hon hlen, ?_⟩
      beta_reduce
      rw [potOf_updPot_same, show potOf (parityEnds s (entryKey (potWin n) 0x12 entry.toNat)) n = potOf s n from rfl, hrun]
      exact ⟨rfl, tfind_tset_same .., sameBytes_updPot ..⟩

end Sys2Proof.Machine

namespace Sys2Proof.Machine

/-! ### Infusion commands at the core that takes them (R62, R107, R123, R125, R334, O22) -/

theorem takeInbox_pot {p q : Pot} {op : Nat} {c : InCmd} (h : takeInbox p op = some (c, q)) :
    q = { p with router := q.router, inbox := q.inbox } := by
  obtain ⟨x, -, hx⟩ := Option.map_eq_some_iff.1 h
  obtain ⟨-, rfl⟩ := Prod.mk.inj hx
  rfl

/-- A command taken at a core has left the pot's inbox, and nothing but that pot's inbox and router has changed. -/
theorem takeAtCore_state {s u : State} {n : PotIx} {op : Nat} {c : InCmd} (h : takeAtCore s n op = some (c, u)) :
    ∃ p, u = setPot s n p ∧ p = { potOf s n with router := p.router, inbox := p.inbox } := by
  rw [takeAtCore] at h
  cases hin : takeInbox (potOf s n) op with
  | none => simp [hin] at h
  | some x =>
    obtain ⟨d, p⟩ := x
    rw [hin] at h
    dsimp only at h
    split at h
    case isTrue =>
      obtain ⟨rfl, rfl⟩ := Prod.mk.inj (Option.some.inj h)
      exact ⟨p, rfl, takeInbox_pot hin⟩
    case isFalse => exact absurd h (by simp)

theorem sameBytes_setPot (s : State) (n : PotIx) (p : Pot) : sameBytes s (setPot s n p) := sameBytes_of_stores rfl rfl rfl

theorem sameBytes_answerMember (s : State) (n : PotIx) (a : MemberAns) : sameBytes s (answerMember s n a) := sameBytes_updPot ..

theorem answers_answerMember (s : State) (n : PotIx) (a : MemberAns) :
    (potOf (answerMember s n a) n).answers = (potOf s n).answers ++ [a] := by
  rw [answerMember, potOf_updPot_same]

theorem seqOf_answerMember (s : State) (n m : PotIx) (a : MemberAns) (e : Eng) :
    seqOf (potOf (answerMember s n a) m) e = seqOf (potOf s m) e := by
  rw [answerMember]
  by_cases hm : m = n
  · subst hm
    rw [potOf_updPot_same]
    cases e <;> rfl
  · rw [potOf_updPot_other _ _ _ _ hm]

theorem infOf_answerMember (s : State) (n : PotIx) (a : MemberAns) (i : BitVec 12) : infOf (answerMember s n a) i = infOf s i := rfl

theorem infOf_setPot (s : State) (n : PotIx) (p : Pot) (i : BitVec 12) : infOf (setPot s n p) i = infOf s i := rfl

/-! The engine command that a LAUNCH pushes (R62). -/

theorem fieldB_ofNat (n v lo len : Nat) (h : lo + len ≤ n) : fieldB (BitVec.ofNat n v) lo len = BitVec.ofNat len (v / 2 ^ lo) := by
  have hf := fieldN_ofNat n v lo len h
  rw [fieldN] at hf
  exact BitVec.eq_of_toNat_eq (hf.trans (BitVec.toNat_ofNat ..).symm)

/-- The four arguments stand from bit 64 up. -/
theorem launchArgs_above (h : Line) : ∃ k, ((upto 4).map fun k => (laArg h k).toNat * 2 ^ (64 + 48 * k)).sum = k * 2 ^ 64 := by
  refine ⟨((upto 4).map fun k => (laArg h k).toNat * 2 ^ (48 * k)).sum, ?_⟩
  rw [← List.sum_map_mul_right]
  refine congrArg List.sum (List.map_congr_left fun k _ => ?_)
  rw [Nat.mul_assoc, ← Nat.pow_add, Nat.add_comm]

theorem launchCmd_fields (h : Line) (e : EntryPt) :
    fieldB (launchCmd h e) 0 16 = hdrTag h ∧ ecInf (launchCmd h e) = hdrInf h ∧ fieldB (launchCmd h e) 32 32 = e.entry := by
  obtain ⟨k, hk⟩ := launchArgs_above h
  have ht := (hdrTag h).isLt
  have hi := (hdrInf h).isLt
  have he := e.entry.isLt
  refine ⟨?_, ?_, ?_⟩
  · rw [launchCmd, hk, fieldB_ofNat _ _ _ _ (by decide)]
    refine BitVec.eq_of_toNat_eq ?_
    rw [BitVec.toNat_ofNat]
    omega
  · rw [ecInf, launchCmd, hk, fieldB_ofNat _ _ _ _ (by decide)]
    refine BitVec.eq_of_toNat_eq ?_
    rw [BitVec.toNat_ofNat]
    omega
  · rw [launchCmd, hk, fieldB_ofNat _ _ _ _ (by decide)]
    refine BitVec.eq_of_toNat_eq ?_
    rw [BitVec.toNat_ofNat]
    omega

/-- A pushed engine command stands last in its queue and is counted for its infusion. -/
theorem pushCmd_effect (s : State) (n : PotIx) (e : Eng) (w : BitVec 256) :
    (∀ m, potOf (pushCmd s n e w) m = potOf (updSeq s n e fun q => { q with cmdq := q.cmdq ++ [w] }) m) ∧
      (ecInf w ≠ 0 → infOf (pushCmd s n e w) (ecInf w) =
        { infOf s (ecInf w) with inflight := (infOf s (ecInf w)).inflight + 1 }) ∧
      sameBytes s (pushCmd s n e w) := by
  have hinf := onlyInf_inflightUp (updSeq s n e fun q => { q with cmdq := q.cmdq ++ [w] }) (ecInf w)
  refine ⟨fun m => hinf.potOf_eq m, fun h0 => ?_, (sameBytes_updPot ..).trans hinf.sameBytes⟩
  rw [pushCmd, inflightUp, if_neg h0, infOf_setInf_same]
  rfl

theorem runAll_singleton {α : Type} (f : State → α → State) (a : α) (s : State) : runAll f [a] s = f s a := rfl

theorem exec_launch_ok {s u : State} {n : PotIx} {c : InCmd} {e : EntryPt} (htake : takeAtCore s n 2 = some (c, u))
    (hok : launchOk (infOf s (hdrInf c.header)) c.header = true) (hes : launchEntries (infOf s (hdrInf c.header)) c.header = [e])
    (hlead : potTakes s (infOf s (hdrInf c.header)).lead = true) (hroom : launchRoom s (infOf s (hdrInf c.header)) e = true)
    (hpot : potTakes s (potNo (nth (infOf s (hdrInf c.header)).phys e.lpot 0)) = true) :
    exec (.launch n) s =
      .next (answerMember (launchPush (infOf s (hdrInf c.header)) c.header u e) n (simpleAns c.key .ok)) := by
  have hall : ([e].all fun e => launchRoom s (infOf s (hdrInf c.header)) e &&
      potTakes s (potNo (nth (infOf s (hdrInf c.header)).phys e.lpot 0))) = true := by
    rw [List.all_cons, List.all_nil, hroom, hpot]
    rfl
  show execLaunch n s = _
  rw [execLaunch, htake]
  dsimp only
  rw [hok, hes, hlead, hall, runAll_singleton]
  rfl

theorem exec_launch_rejected {s u : State} {n : PotIx} {c : InCmd} (htake : takeAtCore s n 2 = some (c, u))
    (hbad : launchOk (infOf s (hdrInf c.header)) c.header = false) :
    exec (.launch n) s = .next (answerMember u n (simpleAns c.key .rejected)) := by
  show execLaunch n s = _
  simp only [execLaunch, htake, hbad, Bool.not_false, if_true]

/-! The load queue (R107, R123, R334). -/

theorem exec_load_taken {s u : State} {n : PotIx} {c : InCmd} {a : BitVec 41} (htake : takeAtCore s n 3 = some (c, u))
    (ha : c.addr = some a) : exec (.load n) s = .next (queueReq u ⟨some c.key, false, a, hdrTag c.header, n⟩) := by
  show execLoad n s = _
  simp only [execLoad, htake, queueLoad, ha]

theorem exec_restore_taken {s u : State} {n : PotIx} {c : InCmd} {a : BitVec 41} (htake : takeAtCore s n 4 = some (c, u))
    (ha : c.addr = some a) : exec (.restore n) s = .next (queueReq u ⟨some c.key, true, a, hdrTag c.header, n⟩) := by
  show execRestore n s = _
  simp only [execRestore, htake, queueLoad, ha]

theorem exec_load_own {s : State} {n : PotIx} {a : BitVec 41} {tag : BitVec 16} {rest : List (BitVec 41 × BitVec 16)}
    (htake : takeAtCore s n 3 = none) (hown : (potOf s n).ownLoads = (a, tag) :: rest) (htakes : potTakes s n = true) :
    exec (.load n) s = .next (queueReq (updPot s n fun p => { p with ownLoads := rest }) ⟨none, false, a, tag, n⟩) := by
  have hfw : (potOf s n).fwRunning = true := by
    simp only [potTakes, Bool.and_eq_true] at htakes
    exact htakes.1.1.2
  show execLoad n s = _
  simp only [execLoad, htake, hown, htakes, hfw, whenDo, Bool.and_self, if_true]

theorem queueReq_room {s : State} (r : LoadReq) (h : s.inf.queue.length < 16) :
    queueReq s r = { s with inf := { s.inf with queue := s.inf.queue ++ [r] } } := by
  rw [queueReq, if_pos h]

theorem countReject_hfe (s : State) (code : Nat) : ∃ h, countReject s code = { s with hfe := h } := ⟨_, rfl⟩

/-- A host's request to a full load queue is answered REJECTED with CODE XV_BUSY, and counted (R123). -/
theorem queueReq_full {s : State} {r : LoadReq} {key : Nat} (hcmd : r.cmd = some key) (h : 16 ≤ s.inf.queue.length) :
    (queueReq s r).inf = s.inf ∧ sameBytes s (queueReq s r) ∧
      ∃ x : MemberAns, (potOf (queueReq s r) r.recv).answers = (potOf s r.recv).answers ++ [x] ∧ x.status = .rejected ∧
        fieldN x.detail 0 8 = 0xE := by
  obtain ⟨x, hx⟩ := countReject_hfe s 0xE
  have hcount : sameBytes s (countReject s 0xE) := by rw [hx]; exact sameBytes_of_stores rfl rfl rfl
  have hinf : (countReject s 0xE).inf = s.inf := by rw [hx]
  have hans : (potOf (countReject s 0xE) r.recv).answers = (potOf s r.recv).answers := by rw [hx]; rfl
  rw [queueReq, if_neg (Nat.not_lt.2 h), hcmd]
  dsimp only
  have hjoin := answers_answerMember (countReject s 0xE) r.recv (loadAnswer key .rejected 0xE 0 0)
  have hb := sameBytes_answerMember (countReject s 0xE) r.recv (loadAnswer key .rejected 0xE 0 0)
  refine ⟨?_, hcount.trans hb, loadAnswer key .rejected 0xE 0 0, by rw [hjoin, hans], rfl, ?_⟩
  · rw [answerMember, updPot_inf, hinf]
  · show fieldN (BitVec.ofNat 32 (0xE + 0 * 256)) 0 8 = 0xE
    decide

/-- A request that finds the load queue full, after it has been taken from the pot's inbox. -/
theorem queueReq_full_taken {s u : State} {n : PotIx} {op : Nat} {c : InCmd} (htake : takeAtCore s n op = some (c, u))
    (hfull : 16 ≤ s.inf.queue.length) (isRestore : Bool) (a : BitVec 41) :
    let t := queueReq u ⟨some c.key, isRestore, a, hdrTag c.header, n⟩
    t.inf = s.inf ∧ sameBytes s t ∧
      ∃ x : MemberAns, (potOf t n).answers = (potOf s n).answers ++ [x] ∧ x.status = .rejected ∧ fieldN x.detail 0 8 = 0xE := by
  obtain ⟨p, rfl, hp⟩ := takeAtCore_state htake
  have hanswers : p.answers = (potOf s n).answers := by rw [hp]
  obtain ⟨hinf, hb, x, hx, hst, hd⟩ := queueReq_full (s := setPot s n p) (r := ⟨some c.key, isRestore, a, hdrTag c.header, n⟩) rfl hfull
  rw [potOf_setPot_same, hanswers] at hx
  exact ⟨hinf, (sameBytes_setPot s n p).trans hb, x, hx, hst, hd⟩

/-- A request that finds room in the load queue, after it has been taken from the pot's inbox. -/
theorem queueReq_room_taken {s u : State} {n : PotIx} {op : Nat} {c : InCmd} (htake : takeAtCore s n op = some (c, u))
    (hroom : s.inf.queue.length < 16) (r : LoadReq) : queueReq u r = { u with inf := { u.inf with queue := s.inf.queue ++ [r] } } := by
  obtain ⟨p, rfl, -⟩ := takeAtCore_state htake
  exact queueReq_room r hroom

/-- Settles O22: the one push of a LAUNCH, and the load queue with room and full. -/
theorem launchAndLoadOpcodes : Obligations.LaunchAndLoadOpcodes := by
  unfold Obligations.LaunchAndLoadOpcodes
  refine ⟨?launch, ?rejected, ?queue, ?own⟩
  case launch =>
    intro s u n c e htake h0 hok hes hlead hroom hpot
    have hexec := exec_launch_ok htake hok hes hlead hroom hpot
    obtain ⟨p, rfl, hp⟩ := takeAtCore_state htake
    generalize hm : potNo (nth (infOf s (hdrInf c.header)).phys e.lpot 0) = m at *
    obtain ⟨htag, hinf, hentry⟩ := launchCmd_fields c.header e
    obtain ⟨hpots, hcount, hb⟩ := pushCmd_effect (setPot s n p) m e.eng (launchCmd c.header e)
    have hseq (j : PotIx) : seqOf (potOf (setPot s n p) j) e.eng = seqOf (potOf s j) e.eng := by
      by_cases hj : j = n
      · rw [hj, potOf_setPot_same, hp]
        cases e.eng <;> rfl
      · rw [potOf_setPot_other _ _ _ _ hj]
    have hanswers : (potOf (pushCmd (setPot s n p) m e.eng (launchCmd c.header e)) n).answers = (potOf s n).answers := by
      rw [hpots]
      by_cases hn : n = m
      · subst hn
        rw [updSeq, potOf_updPot_same, setSeq_answers, potOf_setPot_same, hp]
      · rw [updSeq, potOf_updPot_other _ _ _ _ hn, potOf_setPot_same, hp]
    refine ⟨_, hexec, ⟨launchCmd c.header e, ?_, htag, hinf, hentry⟩, ?_, ?_, ?_⟩
    · rw [seqOf_answerMember, launchPush, hm, hpots, seqOf_updSeq_same, hseq]
    · rw [answers_answerMember, launchPush, hm, hanswers]
    · rw [hinf] at hcount
      rw [infOf_answerMember, launchPush, hm, hcount h0, infOf_setPot]
    · rw [launchPush, hm]
      exact ((sameBytes_setPot s n p).trans hb).trans (sameBytes_answerMember ..)
  case rejected =>
    intro s u n c htake hbad
    exact ⟨_, exec_launch_rejected htake hbad, rfl⟩
  case queue =>
    intro s u n c a ha
    refine ⟨fun htake hroom => ?_, fun htake hroom => ?_, fun htake hfull => ?_, fun htake hfull => ?_⟩
    · exact ⟨_, exec_load_taken htake ha, queueReq_room_taken htake hroom _⟩
    · exact ⟨_, exec_restore_taken htake ha, queueReq_room_taken htake hroom _⟩
    · exact ⟨_, exec_load_taken htake ha, queueReq_full_taken htake hfull false a⟩
    · exact ⟨_, exec_restore_taken htake ha, queueReq_full_taken htake hfull true a⟩
  case own =>
    intro s n a tag rest htake hown htakes hroom
    refine ⟨_, exec_load_own htake hown htakes, ?_⟩
    beta_reduce
    rw [queueReq_room (s := updPot s n _) _ hroom]
    have hown' := potOf_updPot_same s n fun p => { p with ownLoads := rest }
    refine ⟨(congrArg Pot.ownLoads hown' :), rfl, rfl, fun m hm => ?_⟩
    exact potOf_updPot_other s n m (fun p => { p with ownLoads := rest }) hm

end Sys2Proof.Machine

namespace Sys2Proof.Machine

/-! ### What work that ends leaves of a pot (R316, R366, R461)

Failing infusions, lost nodes, stopped ports and freed sync words reach most of a pot's state, but never whether it is in reset, the
bands of its banks or their remap entries; and of the stores that stall on an engine's queue they only let some go on. -/

/-- Of a pot its reset, its bands and its remap entries stand, and no store stalls that did not. -/
structure PotKept (p q : Pot) : Prop where
  inReset : q.inReset = p.inReset
  bands : q.bands = p.bands
  forced : q.forced = p.forced
  rowmap : q.pat.rowmap = p.pat.rowmap
  bankmap : q.pat.bankmap = p.pat.bankmap
  pushWait : ∀ x ∈ q.pushWait, x ∈ p.pushWait

theorem PotKept.refl (p : Pot) : PotKept p p := ⟨rfl, rfl, rfl, rfl, rfl, fun _ h => h⟩

theorem PotKept.trans {p q r : Pot} (h : PotKept p q) (k : PotKept q r) : PotKept p r :=
  ⟨k.inReset.trans h.inReset, k.bands.trans h.bands, k.forced.trans h.forced, k.rowmap.trans h.rowmap, k.bankmap.trans h.bankmap,
    fun x hx => h.pushWait x (k.pushWait x hx)⟩

/-- An update of other fields. -/
theorem PotKept.of_eq {p q : Pot}
    (h : q = { q with inReset := p.inReset, bands := p.bands, forced := p.forced, pat := p.pat, pushWait := p.pushWait }) : PotKept p q := by
  rw [h]
  exact ⟨rfl, rfl, rfl, rfl, rfl, fun _ h => h⟩

theorem PotKept.of_bankSide {p q : Pot} (h : bankSide p q) : PotKept p q := by
  obtain ⟨heq, hrow, hbank⟩ := h
  refine ⟨?_, ?_, ?_, hrow, hbank, fun x hx => ?_⟩
  · rw [heq]
  · rw [heq]
  · rw [heq]
  · rw [heq] at hx
    exact hx

theorem PotKept.foldl {α : Type} {f : Pot → α → Pot} (hf : ∀ p a, PotKept p (f p a)) (l : List α) (p : Pot) : PotKept p (l.foldl f p) := by
  induction l generalizing p with
  | nil => exact .refl p
  | cons a l ih => exact (hf p a).trans (ih (f p a))

/-- Every pot is so kept. -/
structure PotsKept (s t : State) : Prop where
  pot : ∀ m, PotKept (potOf s m) (potOf t m)

theorem PotsKept.refl (s : State) : PotsKept s s := ⟨fun _ => .refl _⟩

theorem PotsKept.trans {s t u : State} (h : PotsKept s t) (k : PotsKept t u) : PotsKept s u := ⟨fun m => (h.pot m).trans (k.pot m)⟩

theorem PotsKept.of_pots {s t : State} (h : t.pots = s.pots) : PotsKept s t := by
  refine ⟨fun m => ?_⟩
  rw [show potOf t m = potOf s m by rw [potOf, h, potOf]]
  exact .refl _

theorem PotsKept.of_dramSide {s t : State} (h : dramSide s t) : PotsKept s t := ⟨fun m => .of_bankSide (h.2 m)⟩

theorem PotsKept.of_onlyInf {s t : State} (h : onlyInf s t) : PotsKept s t := by
  refine ⟨fun m => ?_⟩
  rw [h.potOf_eq]
  exact .refl _

theorem potsKept_setPot {s : State} {n : PotIx} {p : Pot} (h : PotKept (potOf s n) p) : PotsKept s (setPot s n p) := by
  refine ⟨fun m => ?_⟩
  by_cases hm : m = n
  · subst hm
    rw [potOf_setPot_same]
    exact h
  · rw [potOf_setPot_other _ _ _ _ hm]
    exact .refl _

theorem potsKept_updPot {s : State} {n : PotIx} {f : Pot → Pot} (h : PotKept (potOf s n) (f (potOf s n))) :
    PotsKept s (updPot s n f) := potsKept_setPot h

theorem PotsKept.updPot {s t : State} {n : PotIx} {f : Pot → Pot} (h : PotsKept s t) (hf : PotKept (potOf t n) (f (potOf t n))) :
    PotsKept s (updPot t n f) := h.trans (potsKept_updPot hf)

/-- An update of some field of every pot. -/
theorem potsKept_mapPots (s : State) (f : Pot → Pot) (h : ∀ p, PotKept p (f p)) :
    PotsKept s { s with pots := s.pots.map fun e => (e.1, f e.2) } := by
  refine ⟨fun m => ?_⟩
  simp only [potOf, tget]
  rw [tfind_map_values s.pots f]
  cases tfind s.pots m.toNat with
  | none => exact .refl _
  | some p => exact h p

theorem potsKept_runAll {α : Type} {f : State → α → State} (hf : ∀ s a, PotsKept s (f s a)) (l : List α) (s : State) :
    PotsKept s (runAll f l s) := runAll_rel PotsKept.refl PotsKept.trans hf l s

theorem potsKept_ite {c : Prop} [Decidable c] {s t u : State} (ht : PotsKept s t) (hu : PotsKept s u) :
    PotsKept s (if c then t else u) := by
  split
  · exact ht
  · exact hu

/-! Updates that many operations share. -/

theorem potsKept_sendFault (s : State) (f : FaultInfo) : PotsKept s (sendFault s f) := .of_dramSide (dramSide_sendFault s f)

theorem potsKept_updSeq (s : State) (n : PotIx) (e : Eng) (f : Seqr → Seqr) : PotsKept s (updSeq s n e f) :=
  potsKept_updPot (.of_eq (by cases e <;> rfl))

theorem potsKept_setSnc (s : State) (n : PotIx) (c : Snc) : PotsKept s (setSnc s n c) := potsKept_updPot (.of_eq rfl)

theorem potsKept_updPortAt (s : State) (q : Nat) (f : Port → Port) : PotsKept s (updPortAt s q f) := potsKept_updPot (.of_eq rfl)

theorem potsKept_answerMember (s : State) (n : PotIx) (a : MemberAns) : PotsKept s (answerMember s n a) := potsKept_updPot (.of_eq rfl)

theorem potKept_postEvent (p : Pot) (ev : BitVec 32) : PotKept p (postEvent p ev) := by
  rw [postEvent]
  split
  · exact .of_eq rfl
  · exact .refl p

theorem potsKept_inflightUp (s : State) (i : BitVec 12) : PotsKept s (inflightUp s i) := .of_onlyInf (onlyInf_inflightUp s i)

theorem potsKept_inflightDown (s : State) (i : BitVec 12) : PotsKept s (inflightDown s i) := .of_onlyInf (onlyInf_inflightDown s i)

theorem potsKept_markFailing (s : State) (i : BitVec 12) : PotsKept s (markFailing s i) := .of_onlyInf (onlyInf_markFailing s i)

theorem countAbsent_only (s : State) (u c : Nat) : ∃ h, countAbsent s u c = { s with hfe := h } := ⟨_, rfl⟩

theorem potsKept_countAbsent (s : State) (u c : Nat) : PotsKept s (countAbsent s u c) := by
  obtain ⟨h, hh⟩ := countAbsent_only s u c
  rw [hh]
  exact .of_pots rfl

/-! Engines (R63, R64, R100, R461). -/

theorem potsKept_dropAgent (s : State) (a : Agent) : PotsKept s (dropAgent s a) := by
  refine ⟨fun m => ?_⟩
  obtain ⟨c, hc⟩ := potOf_dropAgent s a m
  rw [hc]
  exact .of_eq rfl

theorem potsKept_applySeqRegs (s : State) (n : PotIx) (e : Eng) : PotsKept s (applySeqRegs s n e) := by
  refine potsKept_runAll (fun t off => ?_) _ s
  dsimp only
  split
  · exact .refl t
  · refine ⟨fun m => potOf_committed t n m _ _ ▸ (potsKept_updPot ?_).pot m⟩
    split_ifs
    · exact .of_eq (by cases e <;> rfl)
    · exact .of_eq (by cases e <;> rfl)
    · cases e
      all_goals exact .of_eq rfl

theorem potsKept_boundary (s : State) (n : PotIx) (e : Eng) : PotsKept s (boundary s n e) := by
  have h := fun f => (potsKept_applySeqRegs s n e).trans (potsKept_updSeq (applySeqRegs s n e) n e f)
  unfold boundary
  cases e with
  | mxe => exact h _
  | vxe => exact (h _).updPot (.of_eq rfl)
  | sfe => exact (h _).updPot (.of_eq rfl)

theorem potsKept_engFinish (s : State) (n : PotIx) (e : Eng) (st : Status) : PotsKept s (engFinish s n e st) := by
  have hnote (t : State) (h : PotsKept s t) (ev : BitVec 32) :
      PotsKept s (if (seqOf (potOf s n) e).notify then updPot t n fun p => postEvent p ev else t) :=
    potsKept_ite (h.updPot (potKept_postEvent ..)) h
  unfold engFinish
  refine (hnote _ ?_ _).trans (potsKept_boundary ..)
  refine PotsKept.updPot ?_ (.of_eq rfl)
  refine PotsKept.trans ?_ (potsKept_updSeq ..)
  refine PotsKept.trans ?_ (potsKept_inflightDown ..)
  exact (potsKept_dropAgent ..).updPot (.of_eq rfl)

theorem potsKept_seqFault (s : State) (n : PotIx) (e : Eng) (cause : Nat) (word : ColWord) (queue : Nat) :
    PotsKept s (seqFault s n e cause word queue) := by
  unfold seqFault
  refine PotsKept.trans ?_ (potsKept_engFinish ..)
  refine PotsKept.trans ?_ (potsKept_markFailing ..)
  exact (potsKept_updSeq ..).trans (potsKept_sendFault ..)

theorem potKept_notifyEvent (p : Pot) (e : Eng) (c : BitVec 256) (st : Status) : PotKept p (notifyEvent p e c st) := by
  unfold notifyEvent
  split
  · exact potKept_postEvent ..
  · exact .refl p

theorem potsKept_engReject (s : State) (n : PotIx) (e : Eng) (c : BitVec 256) : PotsKept s (engReject s n e c) :=
  (potsKept_updPot (potKept_notifyEvent ..)).trans (potsKept_inflightDown ..)

theorem potsKept_pushCmd (s : State) (n : PotIx) (e : Eng) (c : BitVec 256) : PotsKept s (pushCmd s n e c) :=
  (potsKept_updSeq ..).trans (potsKept_inflightUp ..)

theorem mem_of_pullFirst {α : Type} {f : α → Bool} {l r : List α} {a : α} (h : pullFirst f l = some (a, r)) : ∀ x ∈ r, x ∈ l := by
  induction l generalizing r with
  | nil => exact absurd h (by simp [pullFirst])
  | cons b l ih =>
    rw [pullFirst] at h
    split at h
    · obtain ⟨-, rfl⟩ := Prod.mk.inj (Option.some.inj h)
      exact fun x hx => List.mem_cons_of_mem _ hx
    · obtain ⟨⟨c, q⟩, hq, heq⟩ := Option.map_eq_some_iff.1 h
      obtain ⟨rfl, rfl⟩ := Prod.mk.inj heq
      intro x hx
      rcases List.mem_cons.1 hx with rfl | hx
      · exact List.mem_cons_self
      · exact List.mem_cons_of_mem _ (ih hq x hx)

theorem potsKept_refillCmdq (s : State) (n : PotIx) (e : Eng) : PotsKept s (refillCmdq s n e) := by
  unfold refillCmdq
  split
  · exact .refl s
  · next x rest hpull =>
    refine potsKept_ite (PotsKept.trans (potsKept_updPot ?_) (potsKept_pushCmd ..)) (.refl s)
    exact ⟨rfl, rfl, rfl, rfl, rfl, mem_of_pullFirst hpull⟩

theorem potsKept_failEngine (inf : BitVec 12) (s : State) (x : PotIx × Eng) : PotsKept s (failEngine inf s x) := by
  unfold failEngine
  refine PotsKept.trans ?_ (potsKept_runAll (fun t _ => potsKept_refillCmdq ..) _ _)
  refine PotsKept.trans ?_ (potsKept_runAll (fun t c => potsKept_engReject ..) _ _)
  refine PotsKept.trans ?_ (potsKept_updSeq ..)
  exact potsKept_ite (potsKept_seqFault ..) (.refl s)

/-! Leaf work (R48, R149, R159, R461). -/

theorem potsKept_updSched (s : State) (n : PotIx) (g : GroupIx) (f : Sched → Sched) : PotsKept s (updSched s n g f) :=
  .of_dramSide (dramSide_updSched ..)

theorem potsKept_luPrecharge (s : State) (n : PotIx) (i : Nat) : PotsKept s (luPrecharge s n i) := by
  unfold luPrecharge
  exact potsKept_updSched ..

theorem potsKept_luClose (s : State) (n : PotIx) (i : Nat) : PotsKept s (luClose s n i) := by
  unfold luClose
  exact potsKept_ite ((potsKept_updPot (.of_eq rfl)).trans (potsKept_luPrecharge ..)) (.refl s)

theorem potsKept_chanDone (s : State) (n : PotIx) (g : Nat) : PotsKept s (chanDone s n g) := by
  unfold chanDone
  exact potsKept_ite (.refl s) (potsKept_updPot (.of_eq rfl))

theorem potsKept_shadowFault (s : State) (n : PotIx) (i : Nat) (primary : PotIx) (pi : LuIx) :
    PotsKept s (shadowFault s n i primary pi) := by
  unfold shadowFault
  refine potsKept_ite (.refl s) ?_
  refine potsKept_ite (PotsKept.trans ?_ (potsKept_sendFault ..)) (.refl s)
  exact .of_pots rfl

theorem potsKept_luFinish (s : State) (n : PotIx) (i : Nat) : PotsKept s (luFinish s n i) := by
  unfold luFinish
  extract_lets l0 u p l
  have hu : PotsKept s u := potsKept_ite (potsKept_luPrecharge ..) (potsKept_luClose ..)
  clear_value u
  refine hu.trans ?_
  have hset := fun q => potsKept_setPot (s := u) (n := n) (p := setLu p i q) (.of_eq rfl)
  split
  · exact .refl u
  · refine potsKept_ite ?_ (.refl u)
    split
    · refine PotsKept.trans ?_ (potsKept_chanDone ..)
      exact potsKept_setPot (.of_eq rfl)
    · refine PotsKept.trans ?_ (potsKept_chanDone ..)
      exact potsKept_ite ((hset _).trans (potsKept_shadowFault ..)) (hset _)

theorem potsKept_luFault (s : State) (n : PotIx) (i cause addr : Nat) : PotsKept s (luFault s n i cause addr) := by
  unfold luFault
  refine PotsKept.trans ?_ (potsKept_luFinish ..)
  have hset := fun f q => (potsKept_setPot (s := s) (n := n) (p := setLu (potOf s n) i q) (.of_eq rfl)).trans (potsKept_sendFault _ f)
  exact potsKept_ite (hset _ _) ((hset _ _).trans (potsKept_markFailing ..))

theorem potsKept_leafComplete (s : State) (n : PotIx) (raw : BitVec 256) (o : LeafOrigin) (a : MemberAns) (nans ovfs : Nat) :
    PotsKept s (leafComplete s n raw o a nans ovfs) := by
  have hdown := potsKept_inflightDown s (lcInf raw)
  unfold leafComplete
  cases o with
  | host cmd => exact hdown.trans (potsKept_answerMember ..)
  | sfe ticket => exact hdown.updPot (.of_eq rfl)
  | firmware => exact (hdown.trans (potsKept_ite (potsKept_countAbsent ..) (.refl _))).updPot (potKept_postEvent ..)
  | away home id => exact hdown.updPot (.of_eq rfl)

theorem potsKept_leafRefuse (s : State) (n : PotIx) (q : LeafQ) (st : Status) : PotsKept s (leafRefuse s n q st) :=
  potsKept_leafComplete ..

theorem potsKept_pushLeaf (s : State) (n : PotIx) (q : LeafQ) : PotsKept s (pushLeaf s n q) :=
  (potsKept_updPot (.of_eq rfl)).trans (potsKept_inflightUp ..)

theorem potsKept_refillLeaf (s : State) (n : PotIx) : PotsKept s (refillLeaf s n) := by
  refine potsKept_runAll (fun t q => ?_) _ s
  exact potsKept_ite (PotsKept.trans (potsKept_updPot (.of_eq rfl)) (potsKept_pushLeaf ..)) (.refl t)

theorem potsKept_failLeaf (inf : BitVec 12) (s : State) (n : PotIx) : PotsKept s (failLeaf inf s n) := by
  unfold failLeaf
  refine PotsKept.trans ?_ (potsKept_refillLeaf ..)
  refine PotsKept.trans ?_ (potsKept_runAll (fun t q => potsKept_leafRefuse ..) _ _)
  refine PotsKept.updPot ?_ (.of_eq rfl)
  exact PotsKept.trans (potsKept_setPot (.of_eq rfl)) (potsKept_runAll (fun t i => potsKept_luFault ..) _ _)

theorem potsKept_failDrains (s : State) (inf : BitVec 12) : PotsKept s (failDrains s inf) := by
  unfold failDrains
  refine PotsKept.trans ?_ (potsKept_runAll (fun t d => potsKept_answerMember ..) _ _)
  exact .of_pots rfl

theorem potsKept_failInfusion (s : State) (inf : BitVec 12) : PotsKept s (failInfusion s inf) := by
  have h := (potsKept_runAll (potsKept_failEngine inf) (((enabledPots s).map fun n => [(n, Eng.mxe), (n, Eng.vxe), (n, Eng.sfe)]).flatten) s).trans
    (potsKept_runAll (potsKept_failLeaf inf) (enabledPots s) _)
  unfold failInfusion
  refine potsKept_ite h (h.trans (PotsKept.trans ?_ (.of_onlyInf (onlyInf_setInf ..))))
  exact potsKept_ite (potsKept_failDrains ..) (.refl _)

theorem potsKept_failInfusions (s : State) (n : PotIx) (hit : BitVec 12 → Bool) : PotsKept s (failInfusions s n hit) :=
  potsKept_runAll (fun t _ => (potsKept_markFailing t _).trans (potsKept_failInfusion ..)) _ s

end Sys2Proof.Machine

namespace Sys2Proof.Machine

/-! ### Links, lost nodes and sync words under a reset (R311, R314, R316, R360 to R367, R372) -/

theorem potsKept_syncLocal (s : State) (n : PotIx) (a : Agent) (st : Status) (view : BitVec 128) : PotsKept s (syncLocal s n a st view) := by
  unfold syncLocal
  cases a with
  | sequencer m e => exact potsKept_updSeq ..
  | brewerSlot m c slot =>
    refine potsKept_setPot ?_
    split
    · exact PotKept.trans (.of_eq rfl) (potKept_postEvent ..)
    · exact .of_eq rfl
  | hubSlot c slot => exact .of_pots rfl
  | hostCmd id => exact potsKept_answerMember ..
  | remote d p id => exact .refl s

theorem potsKept_partLost (s : State) (cmd key : Nat) : PotsKept s (partLost s cmd key) := .of_pots rfl

theorem potsKept_remoteTimeout (s : State) (n : PotIx) (r : RemoteReq) : PotsKept s (remoteTimeout s n r) := by
  unfold remoteTimeout
  split
  · exact potsKept_syncLocal ..
  · exact potsKept_partLost ..
  · exact potsKept_seqFault ..
  · exact potsKept_seqFault ..
  · exact .refl s
  · exact .refl s

theorem potsKept_strandRecord (s : State) (n : PotIx) (x : Deferred) : PotsKept s (strandRecord s n x) := by
  unfold strandRecord
  exact (potsKept_updPot (.of_eq rfl)).trans (potsKept_sendFault ..)

theorem potsKept_dropDeferred (s : State) (q : Nat) (c : Deferred → Bool) : PotsKept s (dropDeferred s q c) :=
  (potsKept_updPortAt ..).trans (potsKept_runAll (fun _ _ => potsKept_strandRecord ..) _ _)

theorem potsKept_lossyRefuse (s : State) (n : PotIx) (d : BitVec 16) (o : RemoteOp) : PotsKept s (lossyRefuse s n d o) :=
  (potsKept_updPortAt ..).trans (potsKept_syncLocal ..)

theorem potsKept_streamLossy (s : State) (n : PotIx) (d : BitVec 16) : PotsKept s (streamLossy s n d) := by
  unfold streamLossy
  refine potsKept_ite (.refl s) ?_
  refine PotsKept.trans ?_ (potsKept_runAll (fun _ _ => potsKept_lossyRefuse ..) _ _)
  exact (potsKept_updPot (.of_eq rfl)).trans (potsKept_sendFault ..)

theorem potsKept_blend (s : State) (b : Blend) : PotsKept s { s with blend := b } := .of_pots rfl

theorem potsKept_declareLost (s : State) (d : BitVec 16) : PotsKept s (declareLost s d) := by
  have hroute (t : State) (h : t.pots = s.pots) : PotsKept s (if d.toNat < 4096 then t else s) := potsKept_ite (.of_pots h) (.refl s)
  unfold declareLost
  refine PotsKept.trans ?_ (potsKept_runAll (fun _ _ => potsKept_streamLossy ..) _ _)
  refine PotsKept.trans ?_ (potsKept_blend ..)
  refine PotsKept.trans ?_ (potsKept_runAll (fun t n => ?_) _ _)
  · refine PotsKept.trans ?_ (potsKept_mapPots _ (fun p => { p with snc := { p.snc with
      waiters := p.snc.waiters.filter fun w => agentNode w.agent != some d,
      held := p.snc.held.filter fun w => agentNode w.agent != some d } }) fun p => .of_eq rfl)
    refine PotsKept.trans ?_ (potsKept_runAll (fun _ _ => potsKept_dropDeferred ..) _ _)
    refine PotsKept.trans ?_ (potsKept_runAll (fun _ _ => potsKept_updPortAt ..) _ _)
    exact hroute _ rfl
  · exact PotsKept.trans (potsKept_updPot (.of_eq rfl)) (potsKept_runAll (fun _ _ => potsKept_remoteTimeout ..) _ _)

theorem potsKept_sendMsg (s : State) (n : PotIx) (d : BitVec 16) (mtype : Nat) (sseq : BitVec 32) (tag : BitVec 16) (inf : BitVec 12)
    (addr : Word64) (body : List Byte) : PotsKept s (sendMsg s n d mtype sseq tag inf addr body) := by
  unfold sendMsg
  split
  · exact potsKept_declareLost ..
  · exact potsKept_updPortAt ..

theorem potsKept_noteReach (q : Nat) (s : State) : PotsKept s (noteReach q s) := by
  refine potsKept_runAll (fun t e => ?_) _ s
  refine potsKept_ite (.refl t) (potsKept_ite (.of_pots rfl) (potsKept_ite (.refl t) (potsKept_declareLost ..)))

theorem potsKept_portLossy (q : Nat) (s : State) : PotsKept s (portLossy q s) :=
  potsKept_runAll (fun _ _ => potsKept_runAll (fun u _ => potsKept_ite (potsKept_streamLossy ..) (.refl u)) _ _) _ s

theorem potsKept_portDown (s : State) (n : PotIx) (k : BitVec 1) (cause : Nat) : PotsKept s (portDown s n k cause) := by
  have hclear (t : State) (h : PotsKept s t) (out : List Deferred) :
      PotsKept s (runAll (fun t x => strandReply n (strandRecord t n x) x) out t) :=
    h.trans (potsKept_runAll (fun _ _ => (potsKept_strandRecord ..).trans (potsKept_sendMsg ..)) _ _)
  have hport := hclear _ ((potsKept_updPortAt s (portNo n k) fun x => portCleared x cause).trans (potsKept_portLossy (portNo n k) _))
  unfold portDown
  refine potsKept_ite (.refl s) ?_
  exact potsKept_ite ((hport _).trans (potsKept_noteReach ..)) (hport _)

theorem potsKept_portStop (s : State) (n : PotIx) (k : BitVec 1) (reason : Nat) : PotsKept s (portStop s n k reason) := by
  unfold portStop
  split
  · exact (potsKept_updPot (.of_eq rfl)).trans (potsKept_noteReach ..)
  · exact .refl s
  · exact potsKept_portDown ..

theorem potsKept_stopPorts (s : State) (n : PotIx) (reason : Nat) : PotsKept s (stopPorts s n reason) :=
  (potsKept_portStop ..).trans (potsKept_portStop ..)

theorem potsKept_sncReply (n : PotIx) (s : State) (x : Waiter × Status × BitVec 128) : PotsKept s (sncReply n s x) := by
  unfold sncReply
  split
  · exact potsKept_sendMsg ..
  · exact potsKept_syncLocal ..

theorem potsKept_dropParked (s : State) (n : PotIx) (on : Waiter → Bool) : PotsKept s (dropParked s n on) :=
  (potsKept_setSnc ..).trans (potsKept_runAll (potsKept_sncReply n) _ _)

theorem potsKept_dropDeferredOn (s : State) (n : PotIx) (on : Nat → Bool) (cause : Nat) (st : Status) :
    PotsKept s (dropDeferredOn s n on cause st) := by
  refine potsKept_runAll (fun t q => ?_) _ s
  refine (potsKept_updPortAt ..).trans (potsKept_runAll (fun u x => ?_) _ _)
  exact PotsKept.trans (potsKept_sendFault ..) (potsKept_sncReply ..)

theorem potsKept_freeWord (n : PotIx) (s : State) (ix : Nat) : PotsKept s (freeWord n s ix) :=
  ((potsKept_dropParked ..).trans (potsKept_dropDeferredOn ..)).trans (potsKept_setSnc ..)

theorem potsKept_resetSnc (s : State) (n : PotIx) : PotsKept s (resetSnc s n) :=
  ((potsKept_dropParked ..).trans (potsKept_dropDeferredOn ..)).trans (potsKept_setSnc ..)

/-! ### A write to memory (R24 to R30, R192 to R206) -/

theorem dramSide_runAll {α : Type} {f : State → α → State} (hf : ∀ s a, dramSide s (f s a)) (l : List α) (s : State) :
    dramSide s (runAll f l s) := runAll_rel dramSide.refl dramSide.trans hf l s

theorem dramSide_dropMerge (s : State) (pl : Place) : dramSide s (dropMerge s pl) := dramSide_updSched ..

theorem dramSide_writeWordAt (s : State) (pl : Place) (w : Who) (bytes : List Byte) (poison : Bool) :
    dramSide s (writeWordAt s pl w bytes poison) := (dramSide_dropMerge ..).trans (dramSide_writeRaw ..)

theorem dramSide_narrowWriteAt (s : State) (pl : Place) (bytes : List Byte) (mask : BitVec 32) (poison : Bool) :
    dramSide s (narrowWriteAt s pl bytes mask poison) := by
  unfold narrowWriteAt
  extract_lets c
  split
  · extract_lets e1
    split
    · exact (dramSide_dropMerge ..).trans (dramSide_writeRaw ..)
    · exact dramSide_updSched ..
  · next s1 _ _ =>
    have h1 : dramSide s s1 := by
      unfold s1
      split
      · exact dramSide.refl s
      · split
        · exact dramSide_flushMerge ..
        · exact dramSide.refl s
    exact h1.trans (dramSide_updSched ..)

theorem dramSide_writeAddr (s : State) (viewer : PotIx) (addr : BitVec 41) (w : Who) (bytes : List Byte) (poison : Bool) :
    dramSide s (writeAddr s viewer addr w bytes poison) :=
  (dramSide_resolveEntry ..).trans (dramSide_runAll (fun _ _ => dramSide_writeWordAt ..) _ _)

theorem dramSide_narrowAddr (s : State) (viewer : PotIx) (addr : BitVec 41) (bytes : List Byte) (mask : BitVec 32) (poison : Bool) :
    dramSide s (narrowAddr s viewer addr bytes mask poison) :=
  (dramSide_resolveEntry ..).trans (dramSide_runAll (fun _ _ => dramSide_narrowWriteAt ..) _ _)

theorem dramSide_writeAddrBytes (viewer : PotIx) (w : Who) (fuel : Nat) (s : State) (pos : Nat) (bs : List Byte) (poison : Bool) :
    dramSide s (writeAddrBytes viewer w fuel s pos bs poison) := by
  induction fuel generalizing s pos bs with
  | zero => exact dramSide.refl s
  | succ f ih =>
    cases bs with
    | nil => exact dramSide.refl s
    | cons b bs =>
      refine dramSide.trans ?_ (ih _ _ _)
      split
      · exact dramSide_writeAddr ..
      · exact dramSide_narrowAddr ..

/-! ### A load that is interrupted, and all the work of a pot (R113, R118, R461) -/

theorem potsKept_xlatSettle (s : State) : PotsKept s (xlatSettle s) := by
  unfold xlatSettle
  exact potsKept_ite (.of_pots rfl) (.refl s)

theorem potsKept_countReject (s : State) (code : Nat) : PotsKept s (countReject s code) := by
  obtain ⟨h, hh⟩ := countReject_hfe s code
  rw [hh]
  exact .of_pots rfl

theorem potsKept_endLoad (s : State) (l : Load) (e : LoadEnd) : PotsKept s (endLoad s l e) := by
  have hwrite : PotsKept s (writeResult s l e) := .of_dramSide (dramSide_writeAddrBytes ..)
  have hanswer : PotsKept s (answerLoad (writeResult s l e) l e) := by
    unfold answerLoad
    split
    · exact hwrite.trans (potsKept_answerMember ..)
    · exact hwrite
  have hnone : PotsKept s (xlatSettle { answerLoad (writeResult s l e) l e with
      inf := { (answerLoad (writeResult s l e) l e).inf with load := none } }) := by
    refine PotsKept.trans ?_ (potsKept_xlatSettle ..)
    exact hanswer.trans (.of_pots rfl)
  unfold endLoad
  refine potsKept_ite hnone (potsKept_ite ?_ ?_)
  · refine PotsKept.trans ?_ (potsKept_countReject ..)
    exact hnone.trans (.of_onlyInf (onlyInf_setInf ..))
  · exact hnone.trans (potsKept_countReject ..)

theorem potKept_setLuCode (p : Pot) (i : Nat) (m : SMap Word64 × SMap Bool) : PotKept p (setLuCode p i m) := by
  unfold setLuCode
  split
  · exact .of_eq rfl
  · exact .of_eq rfl

theorem potsKept_revertPot (l : Load) (s : State) (x : LoadPot × CommitUndo) : PotsKept s (revertPot l s x) := by
  unfold revertPot
  refine PotsKept.trans ?_ (potsKept_setSnc ..)
  refine PotsKept.trans ?_ (potsKept_runAll (potsKept_freeWord _) _ _)
  refine potsKept_updPot ?_
  refine PotKept.trans ?_ (PotKept.foldl (fun p i => potKept_setLuCode ..) _ _)
  exact .of_eq rfl

theorem potsKept_interruptLoad (s : State) (n : PotIx) : PotsKept s (interruptLoad s n) := by
  unfold interruptLoad
  split
  · exact .refl s
  · refine PotsKept.trans ?_ (potsKept_endLoad ..)
    exact potsKept_ite (potsKept_runAll (potsKept_revertPot _) _ s) (.refl s)

theorem potsKept_failTouched (s : State) (n : PotIx) : PotsKept s (failTouched s n) := by
  have h := potsKept_failInfusions s n (runsOn (potOf s n))
  unfold failTouched
  exact potsKept_ite (h.trans (potsKept_interruptLoad ..)) h

theorem potsKept_loseMember (s : State) (n : PotIx) (key : Nat) : PotsKept s (loseMember s n key) := by
  unfold loseMember
  split
  · exact .of_pots rfl
  · exact .refl s

theorem potsKept_endRun (n : PotIx) (s : State) (r : LeafRun) : PotsKept s (endRun n s r) := by
  unfold endRun
  split
  · exact potsKept_ite (potsKept_leafComplete ..) (potsKept_loseMember ..)
  · exact potsKept_leafComplete ..
  · exact potsKept_inflightDown ..

theorem potsKept_endQueued (n : PotIx) (s : State) (q : LeafQ) : PotsKept s (endQueued n s q) := by
  unfold endQueued
  split
  · exact potsKept_ite (potsKept_leafRefuse ..) (potsKept_loseMember ..)
  · exact potsKept_leafRefuse ..

theorem potsKept_endLeaf (s : State) (n : PotIx) : PotsKept s (endLeaf s n) := by
  unfold endLeaf
  refine PotsKept.trans ?_ (potsKept_runAll (potsKept_endQueued n) _ _)
  exact PotsKept.trans (potsKept_setPot (.of_eq rfl)) (potsKept_runAll (potsKept_endRun n) _ _)

theorem potsKept_dropAgents (s : State) (mine : Agent → Bool) : PotsKept s (dropAgents s mine) :=
  potsKept_mapPots s (fun p => { p with snc := { p.snc with
    waiters := p.snc.waiters.filter fun w => !mine w.agent, held := p.snc.held.filter fun w => !mine w.agent } }) fun _ => .of_eq rfl

theorem potsKept_endWork (s : State) (n : PotIx) : PotsKept s (endWork s n) := by
  unfold endWork
  refine PotsKept.trans ?_ (potsKept_resetSnc ..)
  refine PotsKept.updPot ?_ (.of_eq rfl)
  exact ((potsKept_failTouched ..).trans (potsKept_endLeaf ..)).trans (potsKept_dropAgents ..)

end Sys2Proof.Machine

namespace Sys2Proof.Machine

/-! ### HUB_RESET_CTL (R457, R475) -/

/-- A reset that the module carries out gives its RESULT, and leaves nothing else to HUB_RESET_CTL. -/
theorem resetCtl_result (s : State) (kind : Nat) (n : PotIx) (unit : Option Nat) (result : Nat) (h : result < 4) :
    fieldN (resetCtl s kind n unit result).svc.resetCtl 13 2 = result := by
  have hres (w : Word64) : fieldN (putField w 13 2 result) 13 2 = result := by
    rw [fieldN_putField_same _ _ _ _ (by decide)]
    exact Nat.mod_eq_of_lt h
  cases unit with
  | none => exact hres _
  | some u => exact (fieldN_putField_above _ 8 3 u 13 2 (by decide) (by decide)).trans (hres _)

theorem resetCtl_kind (s : State) (kind : Nat) (n : PotIx) (result : Nat) (h : kind < 8) :
    fieldN (resetCtl s kind n none result).svc.resetCtl 0 3 = kind := by
  show fieldN (putField (putField (putField _ 0 3 kind) 3 5 n.toNat) 13 2 result) 0 3 = kind
  rw [fieldN_putField_below _ _ _ _ _ _ (by decide) (by decide), fieldN_putField_below _ _ _ _ _ _ (by decide) (by decide),
    fieldN_putField_same _ _ _ _ (by decide)]
  exact Nat.mod_eq_of_lt h

theorem potOf_resetCtl (s : State) (kind : Nat) (n : PotIx) (unit : Option Nat) (result : Nat) (m : PotIx) :
    potOf (resetCtl s kind n unit result) m = potOf s m := rfl

theorem resetRun_running {s : State} (kind : Nat) (n : PotIx) (unit : Option Nat) (r : State) (hon : hubOn s = true)
    (hstep : s.power.step = .running) (hgood : regBad s 0x20 = false) : resetRun s kind n unit r = .next r := by
  have hmay : warmMay s = true := by
    rw [warmMay, hon, hstep]
    rfl
  rw [resetRun, hgood, hmay]
  rfl

/-! ### An engine reset (R226, R253, R285, R417) -/

theorem potsKept_endEngine (s : State) (n : PotIx) (e : Eng) : PotsKept s (endEngine s n e) := by
  unfold endEngine
  refine PotsKept.trans ?_ (potsKept_runAll (fun t c => potsKept_engReject ..) _ _)
  refine PotsKept.trans ?_ (potsKept_updSeq ..)
  exact (potsKept_failInfusions ..).trans (potsKept_ite (potsKept_engFinish ..) (.refl _))

theorem seqOf_resetEngine (p : Pot) (e : Eng) : seqOf (resetEngine p e) e = Seqr.reset := by cases e <;> rfl

theorem seqOf_congr {p q : Pot} (hm : q.mxeSeq = p.mxeSeq) (hv : q.vxeSeq = p.vxeSeq) (hs : q.sfeSeq = p.sfeSeq) (e : Eng) :
    seqOf q e = seqOf p e := by
  cases e with
  | mxe => exact hm
  | vxe => exact hv
  | sfe => exact hs

/-- Lost anchors and buffered register writes leave a pot's sequencers. -/
theorem potOf_loseAnchors (s : State) (n : PotIx) (units : List Nat) : ∃ c, potOf (loseAnchors s n units) n = { potOf s n with cup := c } :=
  ⟨_, potOf_updPot_same ..⟩

theorem potsKept_loseAnchors (s : State) (n : PotIx) (units : List Nat) : PotsKept s (loseAnchors s n units) := by
  unfold loseAnchors
  exact potsKept_updPot (.of_eq rfl)

theorem potOf_dropKeys (s : State) (gone : Nat → Bool) (n : PotIx) : potOf (dropKeys s gone) n = potOf s n := rfl

theorem potsKept_dropKeys (s : State) (gone : Nat → Bool) : PotsKept s (dropKeys s gone) := .of_pots rfl

theorem potKept_resetEngine (p : Pot) (e : Eng) : PotKept p (resetEngine p e) := by
  cases e
  all_goals exact .of_eq rfl

theorem potsKept_engineResetAll (s : State) (n : PotIx) (e : Eng) : PotsKept s (engineResetAll s n e) := by
  unfold engineResetAll
  refine PotsKept.trans ?_ (potsKept_loseAnchors ..)
  refine PotsKept.trans ?_ (potsKept_dropKeys ..)
  refine PotsKept.updPot ((potsKept_endEngine s n e).trans (potsKept_dropAgent ..)) ?_
  exact (potKept_resetEngine ..).trans (.of_eq rfl)

theorem seqOf_engineResetAll (s : State) (n : PotIx) (e : Eng) : seqOf (potOf (engineResetAll s n e) n) e = Seqr.reset := by
  unfold engineResetAll
  extract_lets s1 s2 base
  obtain ⟨c, hc⟩ := potOf_loseAnchors (dropKeys s2 (inWindow n base (base + 4096))) n [engUnit e]
  rw [hc, potOf_dropKeys, potOf_updPot_same]
  exact (seqOf_congr rfl rfl rfl e).trans (seqOf_resetEngine (potOf s1 n) e)

/-- With no store stalled on the engine's queue none enters it. -/
theorem admitStalled_none {s : State} {n : PotIx} {e : Eng} (h : ∀ x ∈ (potOf s n).pushWait, x.1 ≠ e) : admitStalled s n e = s :=
  runAll_fixed fun x hx => if_pos (h x hx)

theorem exec_engineReset {s : State} {n : PotIx} {e : Eng} (hon : hubOn s = true) (hstep : s.power.step = .running)
    (hgood : regBad s 0x20 = false) (hp : potPresent s n = true) (hmxe : e = .mxe → mxePresent s n = true)
    (hin : (potOf s n).inReset = false) :
    exec (.engineReset n e) s = .next (resetCtl (admitStalled (engineResetAll s n e) n e) 3 n (some (engNo e)) 1) := by
  have hthere : (e == .mxe && !mxePresent s n) = false := by
    cases e with
    | mxe => rw [hmxe rfl]; rfl
    | vxe => rfl
    | sfe => rfl
  show execEngineReset n e s = _
  rw [execEngineReset, resetRun_running _ _ _ _ hon hstep hgood, hp, hthere, hin]
  rfl

/-! ### A brewer core reset (R316, R417) -/

/-- The core restarts with the pot's firmware, and its sync slots are empty. -/
theorem coreResetAll_spec (s : State) (n : PotIx) (c : BitVec 3) :
    coreOf (potOf (coreResetAll s n c) n) c.toNat = ⟨(potOf (coreResetAll s n c) n).fwRunning, 0, 0⟩ ∧
      (∀ k, k / 4 = c.toNat → tfind (potOf (coreResetAll s n c) n).snc.slots k = none) ∧
      (potOf (coreResetAll s n c) n).inReset = (potOf s n).inReset := by
  unfold coreResetAll
  extract_lets holds s1 s2 s3
  have h1 : PotsKept s s1 := potsKept_ite (potsKept_interruptLoad ..) (.refl s)
  have h2 : PotsKept s s2 := h1.trans (potsKept_dropAgents ..)
  obtain ⟨x, hx⟩ := potOf_loseAnchors s3 n [8 + c.toNat]
  rw [hx, potOf_updPot_same]
  refine ⟨tget_tset_same .., fun k hk => tfind_filter_none _ _ _ fun y => ?_, (h2.pot n).inReset⟩
  rw [hk]
  exact bne_self_eq_false _

theorem exec_brewerCoreReset {s : State} {n : PotIx} {c : BitVec 3} (hon : hubOn s = true) (hstep : s.power.step = .running)
    (hgood : regBad s 0x20 = false) (hp : potPresent s n = true) (hin : (potOf s n).inReset = false) :
    exec (.brewerCoreReset n c) s = .next (resetCtl (coreResetAll s n c) 4 n (some c.toNat) 1) := by
  show execBrewerCoreReset n c s = _
  rw [execBrewerCoreReset, resetRun_running _ _ _ _ hon hstep hgood, hp, hin]
  rfl

end Sys2Proof.Machine

namespace Sys2Proof.Machine

/-! ### A pot reset (R55, R316, R417, R457, R458) -/

/-- The pot's contents after a reset of it: cleared, but for its bands and remap entries, which are those of `was`. -/
structure PotCleared (was p : Pot) : Prop where
  trayClear : p.trayClear = false
  mxeSeq : p.mxeSeq = Seqr.reset
  vxeSeq : p.vxeSeq = Seqr.reset
  sfeSeq : p.sfeSeq = Seqr.reset
  mxe : p.mxe = Mxe.reset
  vxe : p.vxe = Vxe.reset
  sfe : p.sfe = Sfe.reset
  queues : p.queues = []
  runs : p.runs = []
  lucq : p.lucq = []
  events : p.events = []
  holds : p.pmt.holds = []
  words : p.snc.words = []
  waiters : p.snc.waiters = []
  bands : p.bands = was.bands
  forced : p.forced = was.forced
  rowmap : p.pat.rowmap = was.pat.rowmap
  bankmap : p.pat.bankmap = was.pat.bankmap

theorem clearHolds_holds (p : Pmt) : (clearHolds p).holds = [] := by
  unfold clearHolds
  split
  · rfl
  · rfl

theorem abandonRepair_maps (t : Pat) : (abandonRepair t).rowmap = t.rowmap ∧ (abandonRepair t).bankmap = t.bankmap := by
  have hcmd (w : Word64) (t : Pat) :
      ({ t with copy := none, waits := none, cmd := w } : Pat).rowmap = t.rowmap ∧
        ({ t with copy := none, waits := none, cmd := w } : Pat).bankmap = t.bankmap := ⟨rfl, rfl⟩
  unfold abandonRepair
  split
  · exact hcmd _ t
  · exact ⟨rfl, rfl⟩

theorem potCleared_clearedPot (p : Pot) : PotCleared p (clearedPot p) := by
  obtain ⟨hrow, hbank⟩ := abandonRepair_maps p.pat
  exact ⟨rfl, rfl, rfl, rfl, rfl, rfl, rfl, rfl, rfl, rfl, rfl, clearHolds_holds p.pmt, rfl, rfl, rfl, rfl, hrow, hbank⟩

/-- What was kept before the reset is what it keeps. -/
theorem PotCleared.of_kept {was mid p : Pot} (h : PotCleared mid p) (k : PotKept was mid) : PotCleared was p :=
  { h with bands := h.bands.trans k.bands, forced := h.forced.trans k.forced, rowmap := h.rowmap.trans k.rowmap,
           bankmap := h.bankmap.trans k.bankmap }

/-- Later updates of a cleared pot: its permits keep no hold, its LUs and cores start, its islands lose their anchors. -/
theorem PotCleared.restart {was p q : Pot} (h : PotCleared was p)
    (heq : q = { p with
      inReset := q.inReset, fwRunning := q.fwRunning, lus := q.lus, proxies := q.proxies, template_ := q.template_, pmt := q.pmt,
      cores := q.cores, cup := q.cup, failedResets := q.failedResets }) (hholds : q.pmt.holds = p.pmt.holds) :
    PotCleared was q := by
  have hq := hholds.trans h.holds
  rw [heq]
  exact { h with holds := hq }

theorem PotCleared.withPmt {was p : Pot} (h : PotCleared was p) {x : Pmt} (hx : x.holds = p.pmt.holds) :
    PotCleared was { p with pmt := x } := h.restart rfl hx

theorem PotCleared.withCup {was p : Pot} (h : PotCleared was p) (c : CupPot) : PotCleared was { p with cup := c } := h.restart rfl rfl

/-! Permits of a pot whose buffered writes are applied (R416, R490). -/

theorem setAllot_holds (p : Pmt) (v : Nat) : (setAllot p v).holds = p.holds := rfl
theorem setStanding_holds (p : Pmt) (v : Nat) : (setStanding p v).holds = p.holds := rfl
theorem setLevel_holds (p : Pmt) (v : Nat) : (setLevel p v).holds = p.holds := rfl
theorem pmtRecalc_holds (p : Pmt) : (pmtRecalc p).holds = p.holds := rfl

theorem recalcHub_only (s : State) : ∃ h, recalcHub s = { s with pmtHub := h } := ⟨_, rfl⟩

theorem potOf_recalcHub (s : State) (n : PotIx) : potOf (recalcHub s) n = potOf s n := by
  obtain ⟨h, hh⟩ := recalcHub_only s
  rw [hh]
  rfl

theorem potOf_dropBuffer (s : State) (key : Nat) (n : PotIx) : potOf (dropBuffer s key) n = potOf s n := rfl
theorem potOf_parityEnds (s : State) (key : Nat) (n : PotIx) : potOf (parityEnds s key) n = potOf s n := rfl

/-- The permits of a pot change, and its holds stand. -/
def pmtOnly (p q : Pot) : Prop := ∃ x, q = { p with pmt := x } ∧ x.holds = p.pmt.holds

theorem pmtOnly.refl (p : Pot) : pmtOnly p p := ⟨p.pmt, rfl, rfl⟩

theorem pmtOnly.trans {p q r : Pot} (h : pmtOnly p q) (k : pmtOnly q r) : pmtOnly p r := by
  obtain ⟨x, rfl, hx⟩ := h
  obtain ⟨y, rfl, hy⟩ := k
  exact ⟨y, rfl, hy.trans hx⟩

theorem pmtOnly_setPool (s : State) (n : PotIx) (v : Nat) : pmtOnly (potOf s n) (potOf (setPool s n v) n) := by
  rw [setPool, potOf_updPot_same]
  exact ⟨_, rfl, by rw [pmtRecalc_holds, setLevel_holds, setStanding_holds, setAllot_holds]⟩

theorem pmtOnly_applyPmtPot (s : State) (n : PotIx) : pmtOnly (potOf s n) (potOf (applyPmtPot s n) n) := by
  unfold applyPmtPot
  extract_lets s1 key
  have h1 : pmtOnly (potOf s n) (potOf s1 n) := by
    unfold s1
    split
    · rw [potOf_parityEnds, potOf_dropBuffer, potOf_recalcHub]
      exact pmtOnly_setPool ..
    · exact .refl _
  split
  · rw [potOf_parityEnds, potOf_dropBuffer, potOf_updPot_same]
    exact h1.trans ⟨_, rfl, rfl⟩
  · exact h1

/-- Memory is not touched by an update that leaves the three stores. -/
theorem applyPmtPot_tray (s : State) (n : PotIx) : (applyPmtPot s n).tray = s.tray := by
  unfold applyPmtPot
  extract_lets s1 key
  have h1 : s1.tray = s.tray := by
    unfold s1
    split
    · obtain ⟨h, hh⟩ := recalcHub_only (setPool s n _)
      rw [hh]
      rfl
    · rfl
  split
  · exact h1
  · exact h1

/-! The pot after steps 1 to 5, and after the self-tests (R458). -/

theorem potOf_trayClear (s : State) (n m : PotIx) : potOf (trayClear s n) m = potOf s m := rfl
theorem trayClear_tray (s : State) (n : PotIx) :
    (trayClear s n).tray = cellDrop s.tray (n.toNat * 2 ^ 27) (n.toNat * 2 ^ 27 + 2 ^ 27) := rfl
theorem loseAnchors_tray (s : State) (n : PotIx) (units : List Nat) : (loseAnchors s n units).tray = s.tray := rfl
theorem dropKeys_tray (s : State) (gone : Nat → Bool) : (dropKeys s gone).tray = s.tray := rfl

theorem clearPot_pot (s : State) (n : PotIx) : PotCleared (potOf s n) (potOf (clearPot s n) n) := by
  unfold clearPot
  extract_lets s1 s2 gone
  have hkept : PotsKept s s1 := (potsKept_stopPorts ..).trans (potsKept_endWork ..)
  obtain ⟨c, hc⟩ := potOf_loseAnchors (applyPmtPot (dropKeys s2 gone) n) n resetUnits
  obtain ⟨x, hx, hholds⟩ := pmtOnly_applyPmtPot (dropKeys s2 gone) n
  have hs2 : potOf (dropKeys s2 gone) n = clearedPot (potOf s1 n) := by
    rw [potOf_dropKeys, potOf_trayClear, potOf_updPot_same]
  rw [hs2] at hx hholds
  rw [hc, hx]
  exact ((potCleared_clearedPot (potOf s1 n)).withPmt hholds |>.withCup c).of_kept (hkept.pot n)

theorem clearPot_tray (s : State) (n : PotIx) {a : Nat} (hlo : n.toNat * 2 ^ 27 ≤ a) (hhi : a < n.toNat * 2 ^ 27 + 2 ^ 27) :
    cellGet trayDefault (clearPot s n).tray a = 0 := by
  unfold clearPot
  extract_lets s1 s2 gone
  rw [loseAnchors_tray, applyPmtPot_tray, dropKeys_tray, trayClear_tray]
  exact cellGet_cellDrop_inside trayDefault _ hlo hhi

theorem selfTested_pot {s : State} {n : PotIx} {was : Pot} (h : PotCleared was (potOf s n)) :
    PotCleared was (potOf (selfTested s n [] true) n) := by
  rw [selfTested, potOf_updPot_same]
  have hmxe : ({ (potOf s n).mxe with failed := mxeFused s && !true } : Mxe) = Mxe.reset := by
    rw [h.mxe, Bool.not_true, Bool.and_false]
    rfl
  exact { h with mxe := hmxe }

theorem fillPot_only (s : State) (n : PotIx) (p : Pot) :
    ∃ lus proxies, fillPot s n p = { p with lus := lus, proxies := proxies, template_ := none } := ⟨_, _, rfl⟩

theorem potOf_startCores (s : State) (n : PotIx) : ∃ lus proxies tmpl cores, potOf (startCores s n) n = { potOf s n with
    inReset := false, fwRunning := s.fw.running, failedResets := 0, cores := cores, lus := lus, proxies := proxies, template_ := tmpl } := by
  obtain ⟨lus, proxies, hfill⟩ := fillPot_only s n (potOf s n)
  rw [startCores, potOf_updPot_same]
  split
  · rw [hfill]
    exact ⟨_, _, _, _, rfl⟩
  · exact ⟨_, _, _, _, rfl⟩

theorem startCores_pot {s : State} {n : PotIx} {was : Pot} (h : PotCleared was (potOf s n)) :
    PotCleared was (potOf (startCores s n) n) ∧ (potOf (startCores s n) n).inReset = false ∧
      (potOf (startCores s n) n).fwRunning = s.fw.running := by
  obtain ⟨lus, proxies, tmpl, cores, heq⟩ := potOf_startCores s n
  rw [heq]
  exact ⟨h.restart rfl rfl, rfl, rfl⟩

/-! Activations that waited for the reset (R449). -/

/-- An activation's progress: firmware, the caddy's record of it, and of each pot the firmware range of its LUs. -/
structure FwStep (s t : State) : Prop where
  rest : t = { s with fw := t.fw, caddy := t.caddy, pots := t.pots }
  running : t.fw.running = s.fw.running
  pot : ∀ m, potOf t m = { potOf s m with lus := (potOf t m).lus, proxies := (potOf t m).proxies, template_ := (potOf t m).template_ }

theorem FwStep.refl (s : State) : FwStep s s := ⟨rfl, rfl, fun _ => rfl⟩

theorem FwStep.trans {s t u : State} (h : FwStep s t) (k : FwStep t u) : FwStep s u :=
  ⟨by rw [k.rest, h.rest], k.running.trans h.running, fun m => by rw [k.pot m, h.pot m]⟩

theorem fwStep_updPot {s : State} {n : PotIx} {f : Pot → Pot}
    (h : f (potOf s n) = { potOf s n with lus := (f (potOf s n)).lus, proxies := (f (potOf s n)).proxies, template_ := (f (potOf s n)).template_ }) :
    FwStep s (updPot s n f) := by
  refine ⟨rfl, rfl, fun m => ?_⟩
  by_cases hm : m = n
  · subst hm
    rw [potOf_updPot_same]
    exact h
  · rw [potOf_updPot_other _ _ _ _ hm]

theorem fwStep_runAll {α : Type} {f : State → α → State} (hf : ∀ s a, FwStep s (f s a)) (l : List α) (s : State) : FwStep s (runAll f l s) :=
  runAll_rel FwStep.refl FwStep.trans hf l s

theorem fwStep_fw (s : State) (x : Fw) (h : x.running = s.fw.running) : FwStep s { s with fw := x } := ⟨rfl, h, fun _ => rfl⟩

theorem commitKind_only (s : State) (k : FwKind) :
    ∃ c x, commitKind s k = { s with caddy := c, fw := x } ∧ x.running = s.fw.running := ⟨_, _, rfl, rfl⟩

theorem fwStep_commitKind (s : State) (k : FwKind) : FwStep s (commitKind s k) := by
  obtain ⟨c, x, heq, hrun⟩ := commitKind_only s k
  rw [heq]
  exact ⟨rfl, hrun, fun _ => rfl⟩

theorem rewriteDie_only (version die : Nat) (p : Pot) :
    ∃ lus proxies, rewriteDie version die p = { p with lus := lus, proxies := proxies } := ⟨_, _, rfl⟩

theorem fwStep_leafmcDie (s : State) : FwStep s (leafmcDie s) := by
  unfold leafmcDie
  extract_lets n die fw after
  have hnext : FwStep s after := fwStep_fw s _ rfl
  split
  · exact .refl s
  · split
    · obtain ⟨lus, proxies, heq⟩ := rewriteDie_only (leafVersion after n die) die (potOf after n)
      exact hnext.trans (fwStep_updPot (by rw [heq]))
    · exact hnext

theorem fwStep_leafmcSettle (s : State) : FwStep s (leafmcSettle s) := by
  unfold leafmcSettle
  extract_lets s1
  have h1 : FwStep s s1 := fwStep_runAll (fun t (_ : Nat) => fwStep_leafmcDie t) (upto 512) s
  split
  · split
    · refine h1.trans (FwStep.trans ?_ (fwStep_commitKind ..))
      exact fwStep_runAll (fun t n => fwStep_updPot rfl) _ s1
    · exact h1
  · exact .refl s

theorem fwStep_brewSettle (s : State) : FwStep s (brewSettle s) := by
  unfold brewSettle
  split
  · exact fwStep_commitKind ..
  · exact fwStep_fw s _ rfl

theorem fwStep_fwSettle (s : State) : FwStep s (fwSettle s) := by
  have h := fwStep_leafmcSettle s
  unfold fwSettle
  extract_lets s1
  split
  · exact h.trans (fwStep_brewSettle ..)
  · exact h

theorem FwStep.tray {s t : State} (h : FwStep s t) : t.tray = s.tray := by rw [h.rest]

/-! The whole reset. -/

theorem resetCtl_fw (s : State) (kind : Nat) (n : PotIx) (unit : Option Nat) (result : Nat) :
    (resetCtl s kind n unit result).fw = s.fw := rfl

theorem resetCtl_tray (s : State) (kind : Nat) (n : PotIx) (unit : Option Nat) (result : Nat) :
    (resetCtl s kind n unit result).tray = s.tray := rfl

theorem exec_potReset {s : State} {n : PotIx} (ls : List LuIx) (m f : Bool) (hon : hubOn s = true) (hstep : s.power.step = .running)
    (hgood : regBad s 0x20 = false) (hp : potPresent s n = true) :
    exec (.potReset n ls m f) s = .next (resetCtl (potResetAll s n ls m f) 2 n none 1) := by
  show execPotReset n ls m f s = _
  rw [execPotReset, resetRun_running _ _ _ _ hon hstep hgood, hp]
  rfl

/-- A reset whose tests pass and whose firmware starts, of a pot whose power is good. -/
theorem potResetAll_passed {s : State} {n : PotIx} (hpg : bitAt s.power.pgPot n.toNat = true) :
    potResetAll s n [] true true =
      fwSettle (startCores (selfTested (clearPot (updPot s n fun p => { p with inReset := true }) n) n [] true) n) := by
  simp only [potResetAll, hpg, Bool.not_true, Bool.false_and, Bool.and_false, Bool.false_eq_true, if_false]

theorem potResetAll_spec {s : State} {n : PotIx} (hpg : bitAt s.power.pgPot n.toNat = true) :
    PotCleared (potOf s n) (potOf (potResetAll s n [] true true) n) ∧ (potOf (potResetAll s n [] true true) n).inReset = false ∧
      (potOf (potResetAll s n [] true true) n).fwRunning = (potResetAll s n [] true true).fw.running ∧
      ∀ a, n.toNat * 2 ^ 27 ≤ a → a < n.toNat * 2 ^ 27 + 2 ^ 27 → cellGet trayDefault (potResetAll s n [] true true).tray a = 0 := by
  rw [potResetAll_passed hpg]
  generalize hs0 : (updPot s n fun p => { p with inReset := true }) = s0
  have hwas : PotCleared (potOf s0 n) (potOf (clearPot s0 n) n) := clearPot_pot s0 n
  have hs : potOf s0 n = { potOf s n with inReset := true } := by rw [← hs0, potOf_updPot_same]
  obtain ⟨hclear, hin, hfw⟩ := startCores_pot (selfTested_pot hwas)
  generalize hu : startCores (selfTested (clearPot s0 n) n [] true) n = u at *
  have hsettle := fwStep_fwSettle u
  have hufw : u.fw = (selfTested (clearPot s0 n) n [] true).fw := by rw [← hu, startCores, updPot_fw]
  have hutray : u.tray = (clearPot s0 n).tray := by rw [← hu, startCores, updPot_tray, selfTested, updPot_tray]
  refine ⟨?_, ?_, ?_, fun a hlo hhi => ?_⟩
  · rw [hs] at hclear
    rw [hsettle.pot n]
    have hkept : PotCleared (potOf s n) (potOf u n) := { hclear with }
    exact hkept.restart rfl rfl
  · rw [hsettle.pot n]
    exact hin
  · rw [hsettle.pot n, hsettle.running, hufw]
    exact hfw
  · rw [hsettle.tray, hutray]
    exact clearPot_tray s0 n hlo hhi

/-- Settles O14: each reset leaves its scope cleared, and HUB_RESET_CTL its KIND and RESULT. -/
theorem resetsClearTheirScope : Obligations.ResetsClearTheirScope := by
  unfold Obligations.ResetsClearTheirScope
  refine ⟨?pot, ?ended, ?engine, ?core⟩
  case pot =>
    intro s n hon hstep hgood hp hpg
    obtain ⟨h, hin, hfw, htray⟩ := potResetAll_spec hpg
    refine ⟨_, exec_potReset [] true true hon hstep hgood hp, resetCtl_result _ _ _ _ _ (by decide), ?_⟩
    rw [potOf_resetCtl, resetCtl_fw, resetCtl_tray]
    exact ⟨hin, h.trayClear, h.mxeSeq, h.vxeSeq, h.sfeSeq, h.mxe, h.vxe, h.sfe, h.queues, h.runs, h.lucq, h.events, h.holds, h.words,
      h.waiters, h.bands, h.forced, h.rowmap, h.bankmap, hfw, htray⟩
  case ended =>
    intro s n ls m f hon hstep hgood hp
    exact ⟨_, exec_potReset ls m f hon hstep hgood hp, resetCtl_result _ _ _ _ _ (by decide), resetCtl_kind _ _ _ _ (by decide)⟩
  case engine =>
    intro s n e hon hstep hgood hp hmxe hin hwait
    have hkept := (potsKept_engineResetAll s n e).pot n
    have hadmit : admitStalled (engineResetAll s n e) n e = engineResetAll s n e :=
      admitStalled_none fun x hx => hwait x (hkept.pushWait x hx)
    refine ⟨_, exec_engineReset hon hstep hgood hp hmxe hin, resetCtl_result _ _ _ _ _ (by decide), ?_⟩
    rw [potOf_resetCtl, hadmit]
    exact ⟨seqOf_engineResetAll s n e, hkept.inReset.trans hin⟩
  case core =>
    intro s n c hon hstep hgood hp hin
    obtain ⟨hcore, hslots, hkeep⟩ := coreResetAll_spec s n c
    refine ⟨_, exec_brewerCoreReset hon hstep hgood hp hin, resetCtl_result _ _ _ _ _ (by decide), ?_⟩
    rw [potOf_resetCtl]
    exact ⟨hcore, hslots, hkeep.trans hin⟩

end Sys2Proof.Machine

namespace Sys2Proof.Machine

/-! ### SAVE and UNLOAD at the core that takes them (R128 to R130, O23) -/

theorem inf_takeAtCore {s u : State} {n : PotIx} {op : Nat} {c : InCmd} (h : takeAtCore s n op = some (c, u)) : u.inf = s.inf := by
  obtain ⟨p, rfl, -⟩ := takeAtCore_state h
  rfl

theorem whenDo_true (s t : State) : whenDo true s t = .next t := rfl

/-- The state in which an infusion has begun to drain for a command at its core (R128). -/
def beginDrain (s : State) (d : Drain) : State := addDrain (setDraining s d.infusion) d.infusion d.pot d.cmd d.isSave d.area

/-- The infusion is DRAINING, the drain is the last that is noted, and the infusion block alone changes. -/
theorem beginDrain_taken {s u : State} {n : PotIx} {op : Nat} {c : InCmd} (h : takeAtCore s n op = some (c, u)) (d : Drain) :
    infOf (beginDrain u d) d.infusion = { infOf s d.infusion with state := 3 } ∧
      (beginDrain u d).inf.drains = s.inf.drains ++ [d] ∧ beginDrain u d = { u with inf := (beginDrain u d).inf } := by
  have hinf : infOf s d.infusion = infOf u d.infusion := by rw [infOf, ← inf_takeAtCore h, infOf]
  rw [hinf, ← inf_takeAtCore h]
  exact ⟨infOf_setInf_same .., rfl, rfl⟩

theorem exec_save_drains {s u : State} {n : PotIx} {c : InCmd} {a : BitVec 41} (htake : takeAtCore s n 5 = some (c, u))
    (ha : c.addr = some a) (hloaded : (infOf s (hdrInf c.header)).state = 2)
    (hroom : saveSize s (infOf s (hdrInf c.header)) ≤ fieldN c.header 256 64) (halign : a.toNat % 64 = 0)
    (hlead : potTakes s (infOf s (hdrInf c.header)).lead = true) :
    exec (.save n) s = .next (beginDrain u ⟨hdrInf c.header, n, c.key, true, a⟩) := by
  have hgood : ¬((infOf s (hdrInf c.header)).state ≠ 2 ∧ (infOf s (hdrInf c.header)).state ≠ 4 ∨
      fieldN c.header 256 64 < saveSize s (infOf s (hdrInf c.header)) ∨ a.toNat % 64 ≠ 0) := by
    simp [hloaded, hroom, halign]
  have hfaulted : (infOf s (hdrInf c.header)).state ≠ 4 := by rw [hloaded]; decide
  show execSave n s = _
  rw [execSave, htake]
  dsimp only
  rw [ha]
  dsimp only
  rw [if_neg hgood, hlead, whenDo_true, if_neg hfaulted]
  rfl

theorem exec_save_rejected {s u : State} {n : PotIx} {c : InCmd} {a : BitVec 41} (htake : takeAtCore s n 5 = some (c, u))
    (ha : c.addr = some a)
    (hbad : ((infOf s (hdrInf c.header)).state ≠ 2 ∧ (infOf s (hdrInf c.header)).state ≠ 4) ∨
      fieldN c.header 256 64 < saveSize s (infOf s (hdrInf c.header)) ∨ a.toNat % 64 ≠ 0) :
    exec (.save n) s = .next (answerMember u n (simpleAns c.key .rejected)) := by
  show execSave n s = _
  rw [execSave, htake]
  dsimp only
  rw [ha]
  dsimp only
  rw [if_pos hbad]

theorem exec_unload_drains {s u : State} {n : PotIx} {c : InCmd} (htake : takeAtCore s n 6 = some (c, u))
    (hloaded : (infOf s (hdrInf c.header)).state = 2) (habort : bitAt c.header 192 = false)
    (hlead : potTakes s (infOf s (hdrInf c.header)).lead = true) :
    exec (.unload n) s = .next (beginDrain u ⟨hdrInf c.header, n, c.key, false, 0⟩) := by
  have hwaits : ¬((infOf s (hdrInf c.header)).state = 4 ∨
      (bitAt c.header 192 = true ∧ ((infOf s (hdrInf c.header)).state = 2 ∨ (infOf s (hdrInf c.header)).state = 3))) := by
    simp [hloaded, habort]
  show execUnload n s = _
  rw [execUnload, htake]
  dsimp only
  rw [if_neg hwaits, if_pos hloaded, hlead]
  rfl

theorem exec_unload_rejected {s u : State} {n : PotIx} {c : InCmd} (htake : takeAtCore s n 6 = some (c, u))
    (hfree : (infOf s (hdrInf c.header)).state = 0) :
    exec (.unload n) s = .next (answerMember u n (simpleAns c.key .rejected)) := by
  show execUnload n s = _
  rw [execUnload, htake]
  dsimp only
  simp [hfree]

/-- Settles O23: a drain begins in the infusion block alone, and what R128 has no arrow for is answered at the core. -/
theorem saveAndUnloadOpcodes : Obligations.SaveAndUnloadOpcodes := by
  unfold Obligations.SaveAndUnloadOpcodes
  refine ⟨fun s u n c a htake ha => ⟨fun hloaded hroom halign hlead => ?_, fun hbad => ?_⟩,
    fun s u n c htake => ⟨fun hloaded habort hlead => ?_, fun hfree => ?_⟩⟩
  · exact ⟨_, exec_save_drains htake ha hloaded hroom halign hlead, beginDrain_taken htake _⟩
  · exact ⟨_, exec_save_rejected htake ha hbad, rfl⟩
  · exact ⟨_, exec_unload_drains htake hloaded habort hlead, beginDrain_taken htake _⟩
  · exact ⟨_, exec_unload_rejected htake hfree, rfl⟩

end Sys2Proof.Machine

namespace Sys2Proof.Machine

/-! ### What work leaves of the load queue (R107, R113, R115, R314)

Taking a commit back frees sync words, whose parked operations may send messages, lose nodes and fault engines. Of the infusion block all
of that reaches the table of infusions only. -/

/-- Of the infusion block only the table has changed, and the fuses stand. -/
structure LoadsKept (s t : State) : Prop where
  inf : t.inf = { s.inf with table := t.inf.table }
  fuses : t.fuses = s.fuses

theorem LoadsKept.refl (s : State) : LoadsKept s s := ⟨rfl, rfl⟩

theorem LoadsKept.trans {s t u : State} (h : LoadsKept s t) (k : LoadsKept t u) : LoadsKept s u :=
  ⟨by rw [k.inf, h.inf], k.fuses.trans h.fuses⟩

theorem LoadsKept.queue {s t : State} (h : LoadsKept s t) : t.inf.queue = s.inf.queue := by rw [h.inf]

/-- Neither the infusion block nor the fuses change. -/
theorem LoadsKept.of_eq {s t : State} (hinf : t.inf = s.inf) (hfuses : t.fuses = s.fuses) : LoadsKept s t := ⟨by rw [hinf], hfuses⟩

theorem LoadsKept.of_dramSide {s t : State} (h : dramSide s t) : LoadsKept s t := by
  obtain ⟨ht, -⟩ := h
  exact .of_eq (by rw [ht]) (by rw [ht])

theorem loadsKept_pots (s : State) (x : SMap Pot) : LoadsKept s { s with pots := x } := .of_eq rfl rfl

theorem loadsKept_blend (s : State) (x : Blend) : LoadsKept s { s with blend := x } := .of_eq rfl rfl

theorem loadsKept_updPot (s : State) (n : PotIx) (f : Pot → Pot) : LoadsKept s (updPot s n f) := .of_eq rfl rfl

theorem LoadsKept.updPot {s t : State} (h : LoadsKept s t) (n : PotIx) (f : Pot → Pot) : LoadsKept s (updPot t n f) :=
  h.trans (loadsKept_updPot ..)

theorem loadsKept_runAll {α : Type} {f : State → α → State} (hf : ∀ s a, LoadsKept s (f s a)) (l : List α) (s : State) :
    LoadsKept s (runAll f l s) := runAll_rel LoadsKept.refl LoadsKept.trans hf l s

theorem loadsKept_ite {c : Prop} [Decidable c] {s t u : State} (ht : LoadsKept s t) (hu : LoadsKept s u) :
    LoadsKept s (if c then t else u) := by
  split
  · exact ht
  · exact hu

theorem loadsKept_setInf (s : State) (i : BitVec 12) (x : Inf) : LoadsKept s (setInf s i x) := ⟨rfl, rfl⟩

theorem loadsKept_inflightUp (s : State) (i : BitVec 12) : LoadsKept s (inflightUp s i) := by
  unfold inflightUp
  exact loadsKept_ite (.refl s) (loadsKept_setInf ..)

theorem loadsKept_inflightDown (s : State) (i : BitVec 12) : LoadsKept s (inflightDown s i) := by
  unfold inflightDown
  exact loadsKept_ite (.refl s) (loadsKept_setInf ..)

theorem loadsKept_markFailing (s : State) (i : BitVec 12) : LoadsKept s (markFailing s i) := by
  unfold markFailing
  exact loadsKept_ite (loadsKept_setInf ..) (.refl s)

theorem loadsKept_sendFault (s : State) (f : FaultInfo) : LoadsKept s (sendFault s f) := .of_dramSide (dramSide_sendFault s f)

/-! Engines that fault (R63, R98, R99). -/

theorem loadsKept_applySeqRegs (s : State) (n : PotIx) (e : Eng) : LoadsKept s (applySeqRegs s n e) := by
  refine loadsKept_runAll (fun t off => ?_) _ s
  dsimp only
  split
  · exact .refl t
  · exact .of_eq rfl rfl

theorem loadsKept_boundary (s : State) (n : PotIx) (e : Eng) : LoadsKept s (boundary s n e) := by
  have h := fun f => (loadsKept_applySeqRegs s n e).updPot n f
  unfold boundary
  cases e with
  | mxe => exact h _
  | vxe => exact (h _).updPot ..
  | sfe => exact (h _).updPot ..

theorem loadsKept_engFinish (s : State) (n : PotIx) (e : Eng) (st : Status) : LoadsKept s (engFinish s n e st) := by
  unfold engFinish
  extract_lets q s0 s1 s2 s3 s4
  have h0 : LoadsKept s s0 := .of_eq rfl rfl
  have h3 : LoadsKept s s3 := ((h0.trans (loadsKept_inflightDown ..)).updPot ..).updPot ..
  have h4 : LoadsKept s s4 := loadsKept_ite (h3.updPot ..) h3
  exact h4.trans (loadsKept_boundary ..)

theorem loadsKept_seqFault (s : State) (n : PotIx) (e : Eng) (cause : Nat) (word : ColWord) (queue : Nat) :
    LoadsKept s (seqFault s n e cause word queue) := by
  unfold seqFault
  refine LoadsKept.trans ?_ (loadsKept_engFinish ..)
  refine LoadsKept.trans ?_ (loadsKept_markFailing ..)
  exact (loadsKept_updPot s n _).trans (loadsKept_sendFault ..)

/-! Completions, messages and lost nodes (R309 to R313, R366, R367, R372). -/

theorem loadsKept_syncLocal (s : State) (n : PotIx) (a : Agent) (st : Status) (view : BitVec 128) :
    LoadsKept s (syncLocal s n a st view) := by
  unfold syncLocal
  cases a with
  | sequencer m e => exact .of_eq rfl rfl
  | brewerSlot m c slot => exact .of_eq rfl rfl
  | hubSlot c slot => exact .of_eq rfl rfl
  | hostCmd id => exact .of_eq rfl rfl
  | remote d p id => exact .refl s

theorem loadsKept_remoteTimeout (s : State) (n : PotIx) (r : RemoteReq) : LoadsKept s (remoteTimeout s n r) := by
  unfold remoteTimeout
  split
  · exact loadsKept_syncLocal ..
  · exact .of_eq rfl rfl
  · exact loadsKept_seqFault ..
  · exact loadsKept_seqFault ..
  · exact .refl s
  · exact .refl s

theorem loadsKept_dropDeferred (s : State) (q : Nat) (c : Deferred → Bool) : LoadsKept s (dropDeferred s q c) :=
  (loadsKept_updPot ..).trans
    (loadsKept_runAll (fun _ _ => (loadsKept_updPot ..).trans (loadsKept_sendFault ..)) _ _)

theorem loadsKept_streamLossy (s : State) (n : PotIx) (d : BitVec 16) : LoadsKept s (streamLossy s n d) := by
  unfold streamLossy
  refine loadsKept_ite (.refl s) ?_
  refine LoadsKept.trans ?_ (loadsKept_runAll (fun t o => (loadsKept_updPot ..).trans (loadsKept_syncLocal ..)) _ _)
  exact (loadsKept_updPot s n _).trans (loadsKept_sendFault ..)

theorem loadsKept_declareLost (s : State) (d : BitVec 16) : LoadsKept s (declareLost s d) := by
  unfold declareLost
  extract_lets r drz s0 s1 s2 s3 s4 blend s5
  have h0 : LoadsKept s s0 := loadsKept_ite (.of_eq rfl rfl) (.refl s)
  have h1 : LoadsKept s s1 := h0.trans (loadsKept_runAll (fun _ _ => loadsKept_updPot ..) _ _)
  have h2 : LoadsKept s s2 := h1.trans (loadsKept_runAll (fun _ _ => loadsKept_dropDeferred ..) _ _)
  have h3 : LoadsKept s s3 := h2.trans (loadsKept_pots s2 _)
  have h4 : LoadsKept s s4 := h3.trans (loadsKept_runAll (fun _ _ =>
    (loadsKept_updPot ..).trans (loadsKept_runAll (fun _ _ => loadsKept_remoteTimeout ..) _ _)) _ _)
  have h5 : LoadsKept s s5 := h4.trans (loadsKept_blend s4 _)
  exact h5.trans (loadsKept_runAll (fun _ _ => loadsKept_streamLossy ..) _ _)

theorem loadsKept_sendMsg (s : State) (n : PotIx) (d : BitVec 16) (mtype : Nat) (sseq : BitVec 32) (tag : BitVec 16) (inf : BitVec 12)
    (addr : Word64) (body : List Byte) : LoadsKept s (sendMsg s n d mtype sseq tag inf addr body) := by
  unfold sendMsg
  split
  · exact loadsKept_declareLost ..
  · exact .of_eq rfl rfl

theorem loadsKept_sncReply (n : PotIx) (s : State) (x : Waiter × Status × BitVec 128) : LoadsKept s (sncReply n s x) := by
  unfold sncReply
  split
  · exact loadsKept_sendMsg ..
  · exact loadsKept_syncLocal ..

theorem loadsKept_dropDeferredOn (s : State) (n : PotIx) (on : Nat → Bool) (cause : Nat) (st : Status) :
    LoadsKept s (dropDeferredOn s n on cause st) := by
  refine loadsKept_runAll (fun t q => ?_) _ s
  exact (loadsKept_updPot t (portPot q) _).trans
    (loadsKept_runAll (fun u x => (loadsKept_sendFault u _).trans (loadsKept_sncReply ..)) _ _)

theorem loadsKept_freeWord (n : PotIx) (s : State) (ix : Nat) : LoadsKept s (freeWord n s ix) := by
  unfold freeWord
  refine LoadsKept.updPot ?_ ..
  refine LoadsKept.trans ?_ (loadsKept_dropDeferredOn ..)
  exact (loadsKept_updPot s n _).trans (loadsKept_runAll (loadsKept_sncReply n) _ _)

theorem loadsKept_revertPot (l : Load) (s : State) (x : LoadPot × CommitUndo) : LoadsKept s (revertPot l s x) := by
  unfold revertPot
  refine LoadsKept.updPot ?_ ..
  exact (loadsKept_updPot s _ _).trans (loadsKept_runAll (loadsKept_freeWord _) _ _)

/-! The commit on one pot (R115). -/

theorem loadsKept_trayWrite (s : State) (a : Nat) (bs : List Byte) (poison : Bool) : LoadsKept s (trayWrite s a bs poison) :=
  .of_eq rfl rfl

theorem loadsKept_trayWriteWords (s : State) (a : Nat) (ws : List (List Byte × Bool)) : LoadsKept s (trayWriteWords s a ws) := by
  induction ws generalizing s a with
  | nil => exact .refl s
  | cons w ws ih => exact (loadsKept_trayWrite ..).trans (ih ..)

theorem loadsKept_pushLeaf (s : State) (n : PotIx) (q : LeafQ) : LoadsKept s (pushLeaf s n q) :=
  (loadsKept_updPot ..).trans (loadsKept_inflightUp ..)

theorem loadsKept_commitPot (l : Load) (s : State) (p : LoadPot) : LoadsKept s (commitPot l s p) := by
  unfold commitPot
  extract_lets n s1 s2 s3 bs
  have h1 : LoadsKept s s1 := .of_dramSide (dramSide_writeAddrBytes ..)
  have h3 : LoadsKept s s3 := (h1.updPot ..).trans (loadsKept_runAll (fun _ _ => loadsKept_trayWriteWords ..) _ _)
  exact loadsKept_ite h3 ((h3.trans (loadsKept_trayWrite ..)).trans (loadsKept_pushLeaf ..))

/-! ### The end of a load (R108, R111, R113, R118, R123) -/

theorem loadHolder_lead {l : Load} (h : 2 < l.phase.toNat) : loadHolder l = l.lead := if_neg (Nat.not_le.2 h)

theorem dramSide_writeResult (s : State) (l : Load) (e : LoadEnd) : dramSide s (writeResult s l e) := dramSide_writeAddrBytes ..

/-- The answer reaches the pot that holds the load, and nothing else changes. -/
theorem answerLoad_pots (s : State) (l : Load) (e : LoadEnd) : ∃ x, answerLoad s l e = { s with pots := x } := by
  unfold answerLoad
  split
  · exact ⟨_, rfl⟩
  · exact ⟨s.pots, rfl⟩

theorem snc_answerLoad (s : State) (l : Load) (e : LoadEnd) (n : PotIx) : (potOf (answerLoad s l e) n).snc = (potOf s n).snc := by
  unfold answerLoad
  split
  · rw [answerMember]
    by_cases hn : n = loadHolder l
    · subst hn
      rw [potOf_updPot_same]
      rfl
    · rw [potOf_updPot_other _ _ _ _ hn]
  · rfl

theorem xlatSettle_only (s : State) : ∃ c x, xlatSettle s = { s with caddy := c, fw := x } := by
  unfold xlatSettle
  split
  · exact ⟨_, _, rfl⟩
  · exact ⟨s.caddy, s.fw, rfl⟩

/-- The load in progress is over: its result record is written, its command answered, and an activation that waited may settle. -/
def closeLoad (s : State) (l : Load) (e : LoadEnd) : State :=
  let t := answerLoad (writeResult s l e) l e
  xlatSettle { t with inf := { t.inf with load := none } }

theorem closeLoad_pots (s : State) (l : Load) (e : LoadEnd) : (closeLoad s l e).pots = (answerLoad (writeResult s l e) l e).pots := by
  obtain ⟨c, x, h⟩ := xlatSettle_only { answerLoad (writeResult s l e) l e with
    inf := { (answerLoad (writeResult s l e) l e).inf with load := none } }
  rw [closeLoad, h]

/-- Of the rest the infusion block loses the load, and the host front end and the fuses stand. -/
theorem closeLoad_frame (s : State) (l : Load) (e : LoadEnd) :
    (closeLoad s l e).inf = { s.inf with load := none } ∧ (closeLoad s l e).hfe = s.hfe ∧ (closeLoad s l e).fuses = s.fuses := by
  obtain ⟨hwrite, -⟩ := dramSide_writeResult s l e
  obtain ⟨p, hanswer⟩ := answerLoad_pots (writeResult s l e) l e
  obtain ⟨c, x, h⟩ := xlatSettle_only { answerLoad (writeResult s l e) l e with
    inf := { (answerLoad (writeResult s l e) l e).inf with load := none } }
  rw [closeLoad, h, hanswer, hwrite]
  exact ⟨rfl, rfl, rfl⟩

/-- An accepted load is closed and nothing more. -/
theorem endLoad_accepted {s : State} {l : Load} {e : LoadEnd} (hok : e.code = 0) : endLoad s l e = closeLoad s l e := by
  rw [endLoad]
  exact if_pos hok

/-- A rejected load that holds an id gives it back; the rejection is counted. -/
theorem endLoad_released {s : State} {l : Load} {e : LoadEnd} (hbad : e.code ≠ 0) (hphase : 4 ≤ l.phase.toNat) (hid : l.id ≠ 0) :
    endLoad s l e = countReject (setInf (closeLoad s l e) l.id Inf.reset) e.code := by
  rw [endLoad]
  exact (if_neg hbad).trans (if_pos ⟨hphase, hid⟩)

/-- A rejected load that holds none yet is counted alone. -/
theorem endLoad_early {s : State} {l : Load} {e : LoadEnd} (hbad : e.code ≠ 0) (hnone : ¬(4 ≤ l.phase.toNat ∧ l.id ≠ 0)) :
    endLoad s l e = countReject (closeLoad s l e) e.code := by
  rw [endLoad]
  exact (if_neg hbad).trans (if_neg hnone)

/-- However a load ends, it is closed, and beyond that only the table of infusions and the count of rejections change. -/
theorem endLoad_closes (s : State) (l : Load) (e : LoadEnd) :
    ∃ tab h, endLoad s l e = { closeLoad s l e with inf := { (closeLoad s l e).inf with table := tab }, hfe := h } := by
  by_cases hok : e.code = 0
  · exact ⟨_, _, endLoad_accepted hok⟩
  · by_cases hheld : 4 ≤ l.phase.toNat ∧ l.id ≠ 0
    · exact ⟨_, _, endLoad_released hok hheld.1 hheld.2⟩
    · exact ⟨_, _, endLoad_early hok hheld⟩

theorem endLoad_load (s : State) (l : Load) (e : LoadEnd) : (endLoad s l e).inf.load = none := by
  obtain ⟨tab, h, heq⟩ := endLoad_closes s l e
  obtain ⟨hinf, -⟩ := closeLoad_frame s l e
  rw [heq, hinf]

theorem endLoad_queue (s : State) (l : Load) (e : LoadEnd) : (endLoad s l e).inf.queue = s.inf.queue := by
  obtain ⟨tab, h, heq⟩ := endLoad_closes s l e
  obtain ⟨hinf, -⟩ := closeLoad_frame s l e
  rw [heq, hinf]

theorem endLoad_fuses (s : State) (l : Load) (e : LoadEnd) : (endLoad s l e).fuses = s.fuses := by
  obtain ⟨tab, h, heq⟩ := endLoad_closes s l e
  obtain ⟨-, -, hfuses⟩ := closeLoad_frame s l e
  rw [heq, hfuses]

theorem potOf_endLoad (s : State) (l : Load) (e : LoadEnd) (n : PotIx) :
    potOf (endLoad s l e) n = potOf (answerLoad (writeResult s l e) l e) n := by
  obtain ⟨tab, h, heq⟩ := endLoad_closes s l e
  rw [heq, potOf, closeLoad_pots, potOf]

/-- The host command that asked for the load has its answer, last, at the pot that held it. -/
theorem endLoad_answers {l : Load} {key : Nat} (hcmd : l.req.cmd = some key) (s : State) (e : LoadEnd) :
    (potOf (endLoad s l e) (loadHolder l)).answers =
      (potOf s (loadHolder l)).answers ++ [loadAnswer key (loadStatus e.code) e.code e.phase l.id] := by
  obtain ⟨hpot, -, -⟩ := (dramSide_writeResult s l e).2 (loadHolder l)
  rw [potOf_endLoad, answerLoad, hcmd, answers_answerMember, hpot]

theorem endLoad_snc (s : State) (l : Load) (e : LoadEnd) (n : PotIx) : (potOf (endLoad s l e) n).snc = (potOf s n).snc := by
  obtain ⟨hpot, -, -⟩ := (dramSide_writeResult s l e).2 n
  rw [potOf_endLoad, snc_answerLoad, hpot]

theorem endLoad_table_early {s : State} {l : Load} {e : LoadEnd} (hbad : e.code ≠ 0) (hearly : l.phase.toNat < 4) :
    (endLoad s l e).inf.table = s.inf.table := by
  obtain ⟨hinf, -⟩ := closeLoad_frame s l e
  obtain ⟨h, hcount⟩ := countReject_hfe (closeLoad s l e) e.code
  rw [endLoad_early hbad fun h => Nat.not_le.2 hearly h.1, hcount, hinf]

theorem infOf_endLoad_released {s : State} {l : Load} {e : LoadEnd} (hbad : e.code ≠ 0) (hphase : 4 ≤ l.phase.toNat) (hid : l.id ≠ 0) :
    infOf (endLoad s l e) l.id = Inf.reset := by
  obtain ⟨h, hcount⟩ := countReject_hfe (setInf (closeLoad s l e) l.id Inf.reset) e.code
  rw [endLoad_released hbad hphase hid, hcount]
  exact infOf_setInf_same (closeLoad s l e) l.id _

/-- HUB_REJECT_COUNT takes the code and counts one more. -/
theorem endLoad_rejected {s : State} {l : Load} {e : LoadEnd} (hbad : e.code ≠ 0) :
    (endLoad s l e).hfe.rejectCount = putField (satField s.hfe.rejectCount 0 32 1) 32 8 e.code := by
  obtain ⟨-, hhfe, -⟩ := closeLoad_frame s l e
  rw [← hhfe]
  by_cases hheld : 4 ≤ l.phase.toNat ∧ l.id ≠ 0
  · rw [endLoad_released hbad hheld.1 hheld.2]
    rfl
  · rw [endLoad_early hbad hheld]
    rfl

theorem rejectCount_code (w : Word64) {code : Nat} (h : code < 2 ^ 8) :
    fieldN (putField (satField w 0 32 1) 32 8 code) 32 8 = code := by
  rw [fieldN_putField_same _ 32 8 _ (by decide), Nat.mod_eq_of_lt h]

theorem rejectCount_count (w : Word64) (code : Nat) :
    fieldN (putField (satField w 0 32 1) 32 8 code) 0 32 = min (2 ^ 32 - 1) (fieldN w 0 32 + 1) := by
  have hlt : min (2 ^ 32 - 1) (fieldN w 0 32 + 1) < 2 ^ 32 := (Nat.min_le_left ..).trans_lt (by decide)
  rw [fieldN_putField_below _ 32 8 _ 0 32 (by decide) (by decide), satField, fieldN_putField_same _ 0 32 _ (by decide)]
  exact Nat.mod_eq_of_lt hlt

end Sys2Proof.Machine

namespace Sys2Proof.Machine

/-! ### The load queue and the phases (R107, R108, R112 to R115) -/

theorem dramSide_readAddrBytes (s : State) (viewer : PotIx) (w : Who) (pos len : Nat) : dramSide s (readAddrBytes s viewer w pos len).1 :=
  dramSide_readAddrN ..

/-- A request as its receiving strainer begins with it (R108). -/
def firstPhase (s : State) (r : LoadReq) : Load :=
  { req := r, phase := 1, descriptor := lineOfBytes (readAddrBytes s r.recv (loadWho r.tag) r.desc.toNat 64).2.1, image := [], place := [],
    subst := false, lead := r.recv, id := 0, leafBase := 0, leafLen := 0, pots := [], entries := [], saved := none, doneLeft := [],
    undo := [] }

theorem exec_loadQueueServe {s : State} {r : LoadReq} {rest : List LoadReq} (hqueue : s.inf.queue = r :: rest) (hhub : hubOn s = true)
    (hnone : s.inf.load = none) (hwaits : activationWaits s = false) (htakes : potTakes s r.recv = true)
    (hserved : addrServed s r.recv r.desc = true) :
    exec .loadQueueServe s = .next
      (let t := (readAddrBytes s r.recv (loadWho r.tag) r.desc.toNat 64).1
       { t with inf := { t.inf with queue := rest, load := some (firstPhase s r) } }) := by
  show execLoadQueueServe s = _
  rw [execLoadQueueServe, hqueue]
  dsimp only
  rw [hhub, hnone, hwaits, htakes, hserved]
  rfl

/-- What LOAD_PHASE makes of a load in each phase (R112). -/
def phaseStep (s : State) (l : Load) : State :=
  match l.phase.toNat with
  | 1 => phaseRead s l
  | 2 => phasePlace s l
  | 3 => phaseDecl s l
  | 4 => phaseAlloc s l
  | 5 => phaseStrain s l
  | 6 => phaseBounds s l
  | _ => phaseCommit s l

theorem exec_loadPhase {s : State} {l : Load} (hload : s.inf.load = some l) (hready : phaseReady s l = true) (hlast : l.phase.toNat < 8) :
    exec .loadPhase s = .next (phaseStep s l) := by
  show execLoadPhase s = _
  rw [execLoadPhase, hload]
  dsimp only
  rw [hready, decide_eq_true hlast]
  rfl

/-- The load is over, or goes on with the next phase; a restore goes from its allocation to its commit. -/
def loadGoesOn (l : Load) (t : State) : Prop :=
  t.inf.load = none ∨ ∃ m, t.inf.load = some m ∧ m.req = l.req ∧
    (m.phase.toNat = l.phase.toNat + 1 ∨ (l.phase = 4 ∧ l.saved ≠ none ∧ m.phase = 7))

/-- What the end of a phase leaves: the queue of requests and the fuses. -/
def phaseEnds (s : State) (l : Load) (t : State) : Prop :=
  t.inf.queue = s.inf.queue ∧ t.fuses = s.fuses ∧ loadGoesOn l t

theorem phaseEnds_endLoad {s u : State} (h : LoadsKept s u) (l m : Load) (e : LoadEnd) : phaseEnds s l (endLoad u m e) :=
  ⟨(endLoad_queue u m e).trans h.queue, (endLoad_fuses u m e).trans h.fuses, .inl (endLoad_load u m e)⟩

theorem phaseEnds_endOr {s u v : State} {l : Load} (h : LoadsKept s u) (m : Load) (flaws : List LoadEnd) (hgo : phaseEnds s l v) :
    phaseEnds s l (endOr u m flaws v) := by
  unfold endOr
  split
  · exact phaseEnds_endLoad h ..
  · exact hgo

theorem phaseEnds_setLoad {s u : State} {l m : Load} (h : LoadsKept s u) (hreq : m.req = l.req)
    (hphase : m.phase.toNat = l.phase.toNat + 1 ∨ (l.phase = 4 ∧ l.saved ≠ none ∧ m.phase = 7)) : phaseEnds s l (setLoad u m) :=
  ⟨h.queue, h.fuses, .inr ⟨m, rfl, hreq, hphase⟩⟩

theorem toNat_next_phase {p : BitVec 4} (h : p.toNat < 8) : (p + 1).toNat = p.toNat + 1 := by bv_omega

theorem phaseEnds_nextPhase {s u : State} {l m : Load} (h : LoadsKept s u) (hlast : l.phase.toNat < 8) (hreq : m.req = l.req)
    (hphase : m.phase = l.phase) : phaseEnds s l (nextPhase u m) :=
  phaseEnds_setLoad h hreq (.inl (by rw [← hphase] at hlast ⊢; exact toNat_next_phase hlast))

section Phases
variable (s : State) {l : Load} (hlast : l.phase.toNat < 8)
include hlast

theorem phaseEnds_phaseRead : phaseEnds s l (phaseRead s l) := by
  unfold phaseRead
  extract_lets n w at_ len head told r l1 poor flaws l2
  have hhead : LoadsKept s head.1 := .of_dramSide (dramSide_readAddrBytes ..)
  have hr : LoadsKept s r.1 := by
    unfold r
    split
    · exact hhead.trans (.of_dramSide (dramSide_readAddrBytes ..))
    · exact hhead
  exact phaseEnds_endOr hr _ _ (phaseEnds_nextPhase hr hlast rfl rfl)

theorem phaseEnds_phasePlace : phaseEnds s l (phasePlace s l) := by
  unfold phasePlace
  exact phaseEnds_endOr (.refl s) _ _ (phaseEnds_nextPhase (.refl s) hlast rfl rfl)

theorem phaseEnds_phaseDecl : phaseEnds s l (phaseDecl s l) := by
  unfold phaseDecl
  refine phaseEnds_endOr (.refl s) _ _ ?_
  split
  · exact phaseEnds_nextPhase (loadsKept_setInf ..) hlast rfl rfl
  · exact phaseEnds_nextPhase (.refl s) hlast rfl rfl

theorem phaseEnds_phaseAlloc (h4 : l.phase = 4) : phaseEnds s l (phaseAlloc s l) := by
  unfold phaseAlloc
  refine phaseEnds_endOr (.refl s) _ _ ?_
  split
  next hsaved =>
    refine phaseEnds_setLoad (loadsKept_setInf ..) rfl (.inr ⟨h4, fun hnone => ?_, rfl⟩)
    rw [hnone] at hsaved
    exact absurd hsaved (by decide)
  next => exact phaseEnds_nextPhase (loadsKept_setInf ..) hlast rfl rfl

theorem phaseEnds_phaseStrain : phaseEnds s l (phaseStrain s l) := by
  unfold phaseStrain
  exact phaseEnds_endOr (.refl s) _ _ (phaseEnds_nextPhase (.refl s) hlast rfl rfl)

theorem phaseEnds_phaseBounds : phaseEnds s l (phaseBounds s l) := by
  unfold phaseBounds
  exact phaseEnds_endOr (.refl s) _ _ (phaseEnds_nextPhase (loadsKept_setInf ..) hlast rfl rfl)

end Phases

theorem phaseEnds_phaseCommit (s : State) {l : Load} (h7 : l.phase.toNat = 7) : phaseEnds s l (phaseCommit s l) :=
  phaseEnds_setLoad (loadsKept_runAll (loadsKept_commitPot l) l.pots s) rfl (.inl (by rw [h7]; rfl))

theorem phaseEnds_phaseStep (s : State) {l : Load} (hfirst : 1 ≤ l.phase.toNat) (hlast : l.phase.toNat < 8) :
    phaseEnds s l (phaseStep s l) := by
  unfold phaseStep
  split
  · exact phaseEnds_phaseRead s hlast
  · exact phaseEnds_phasePlace s hlast
  · exact phaseEnds_phaseDecl s hlast
  · next h => exact phaseEnds_phaseAlloc s hlast (BitVec.eq_of_toNat_eq h)
  · exact phaseEnds_phaseStrain s hlast
  · exact phaseEnds_phaseBounds s hlast
  · next h1 h2 h3 h4 h5 h6 =>
    have h7 : l.phase.toNat = 7 := by
      simp only [imp_false] at h1 h2 h3 h4 h5 h6
      omega
    exact phaseEnds_phaseCommit s h7

/-- Declarations without a flaw: the lowest free id is held as LOADING (R125, R128). -/
theorem phaseDecl_held {s : State} {l : Load} {i : Nat} (hsaved : l.saved = none) (hflaws : declFlaws l.image (nodeId s).toNat = [])
    (hid : grantId s = some i) : phaseDecl s l =
      setLoad (setInf s (BitVec.ofNat 12 i) { Inf.reset with state := 1 }) { l with phase := l.phase + 1, id := BitVec.ofNat 12 i } := by
  rw [phaseDecl, hsaved, hid]
  dsimp only
  rw [hflaws]
  rfl

theorem phaseDecl_flawed {s : State} {l : Load} {f : LoadEnd} (hsaved : l.saved = none)
    (hflaw : firstFlaw (declFlaws l.image (nodeId s).toNat) = some f) : phaseDecl s l = endLoad s l f := by
  rw [phaseDecl, hsaved, endOr]
  dsimp only
  rw [Option.isSome_none, if_neg Bool.false_ne_true, hflaw]

theorem phaseStep_decl (s : State) {l : Load} (h3 : l.phase = 3) : phaseStep s l = phaseDecl s l := by
  rw [phaseStep, h3]
  rfl

theorem phaseStep_commit (s : State) {l : Load} (h7 : l.phase = 7) : phaseStep s l = phaseCommit s l := by
  rw [phaseStep, h7]
  rfl

/-! ### Reports of the placed pots (R115) -/

theorem potNo_toNat (n : PotIx) : potNo n.toNat = n := BitVec.eq_of_toNat_eq (by rw [potNo, BitVec.toNat_ofNat, Nat.mod_eq_of_lt n.isLt])

theorem syncWordOf_foldl_not_listed (f : SyncWord → SyncWord) (l : List (Nat × SyncWord)) (c : Snc) (k : Nat)
    (h : ∀ x ∈ l, x.1 ≠ k) : syncWordOf (l.foldl (fun c x => setSyncWord c x.1 (f x.2)) c) k = syncWordOf c k := by
  induction l generalizing c with
  | nil => rfl
  | cons y l ih =>
    obtain ⟨hy, hl⟩ := List.forall_mem_cons.1 h
    rw [List.foldl_cons, ih _ hl, syncWordOf_setSyncWord_other _ _ _ _ hy.symm]

/-- Words written under different indices read as they were written. -/
theorem syncWordOf_foldl_zip (f : SyncWord → SyncWord) {ks : List Nat} (hks : ks.Nodup) (ws : List SyncWord) (c : Snc)
    {x : Nat × SyncWord} (hx : x ∈ ks.zip ws) :
    syncWordOf ((ks.zip ws).foldl (fun c x => setSyncWord c x.1 (f x.2)) c) x.1 = f x.2 := by
  induction ks generalizing ws c with
  | nil => exact absurd hx List.not_mem_nil
  | cons k ks ih =>
    obtain ⟨hk, hks⟩ := List.nodup_cons.1 hks
    cases ws with
    | nil => exact absurd hx List.not_mem_nil
    | cons w ws =>
      have hother : ∀ y ∈ ks.zip ws, y.1 ≠ k := fun y hy heq => hk (heq ▸ (List.of_mem_zip hy).1)
      rw [List.zip_cons_cons, List.foldl_cons]
      rcases List.mem_cons.1 hx with rfl | hx
      · rw [syncWordOf_foldl_not_listed f _ _ _ hother, syncWordOf_setSyncWord_same]
      · exact ih hks ws _ hx

theorem commitSyncs_eq (s : State) (l : Load) {p : LoadPot} {n : PotIx} (hpot : p.res.pot = n.toNat) :
    commitSyncs s l p = updPot s n fun q => { q with snc := (p.res.syncs.zip p.syncs).foldl (fun c x =>
      setSyncWord c x.1 { x.2 with owner := l.id, alloc := true }) q.snc } := by
  rw [commitSyncs, hpot, potNo_toNat]

theorem commitSyncs_words (s : State) (l : Load) {p : LoadPot} {n : PotIx} (hpot : p.res.pot = n.toNat) (hnodup : p.res.syncs.Nodup)
    {x : Nat × SyncWord} (hx : x ∈ p.res.syncs.zip p.syncs) :
    syncWordOf (potOf (commitSyncs s l p) n).snc x.1 = { x.2 with owner := l.id, alloc := true } := by
  rw [commitSyncs_eq s l hpot, potOf_updPot_same]
  exact syncWordOf_foldl_zip (fun w => { w with owner := l.id, alloc := true }) hnodup _ _ hx

theorem answers_commitSyncs (s : State) (l : Load) (p : LoadPot) (m : PotIx) :
    (potOf (commitSyncs s l p) m).answers = (potOf s m).answers := by
  rw [commitSyncs]
  by_cases hm : m = potNo p.res.pot
  · rw [hm, potOf_updPot_same]
  · rw [potOf_updPot_other _ _ _ _ hm]

/-- The state after a pot's report: with pots still to report the load waits, else it is complete (R115). -/
def reported (s : State) (l : Load) (p : LoadPot) (n : PotIx) : State :=
  let left := l.doneLeft.filter fun x => x != n.toNat
  if left.isEmpty then commitEnd (commitSyncs s l p) l else setLoad (commitSyncs s l p) { l with doneLeft := left }

theorem exec_loadCommitDone {s : State} {l : Load} {n : PotIx} {p : LoadPot} (hload : s.inf.load = some l) (h8 : l.phase = 8)
    (hp : l.pots.find? (fun x => x.res.pot == n.toNat) = some p) (hleft : l.doneLeft.contains n.toNat = true)
    (htakes : potTakes s n = true) (hq : ∀ x ∈ (potOf s n).lucq ++ (potOf s n).leafWait, x.raw ≠ commitLeaf l)
    (hruns : ∀ x ∈ (potOf s n).runs, x.raw ≠ commitLeaf l) :
    exec (.loadCommitDone n) s = .next (reported s l p n) := by
  obtain ⟨hlucq, hwait⟩ := List.forall_mem_append.1 hq
  have hidle : (!((potOf s n).lucq.any fun x => x.raw == commitLeaf l) && !((potOf s n).leafWait.any fun x => x.raw == commitLeaf l) &&
      !((potOf s n).runs.any fun x => x.raw == commitLeaf l)) = true := by
    simpa using ⟨⟨hlucq, hwait⟩, hruns⟩
  have hphase : decide (l.phase.toNat = 8) = true := by rw [h8]; rfl
  show execLoadCommitDone n s = _
  rw [execLoadCommitDone, hload]
  dsimp only
  rw [hp]
  dsimp only
  rw [hidle, hleft, htakes, hphase]
  rfl

/-- The infusion as a finished load leaves it (R115, R125). -/
def loadedInf (s : State) (l : Load) : Inf :=
  { infOf s l.id with
    state := 2, subst := l.subst, lead := l.lead, npots := BitVec.ofNat 6 (loadPots l), xlatVer := BitVec.ofNat 16 (xlatVer s)
    leafBase := l.leafBase, leafLen := l.leafLen, pots := BitVec.ofNat 32 ((l.place.map fun n => 2 ^ n).sum), inflight := 0
    phys := l.place, entries := l.entries, res := l.pots.map LoadPot.res, failing := false }

theorem commitEnd_eq (s : State) (l : Load) : commitEnd s l = endLoad (setInf s l.id (loadedInf s l)) l ⟨0, 0, 0xFF, 0xFF, 0, 0⟩ := rfl

theorem infOf_commitEnd (s : State) (l : Load) : infOf (commitEnd s l) l.id = loadedInf s l := by
  obtain ⟨hinf, -⟩ := closeLoad_frame (setInf s l.id (loadedInf s l)) l ⟨0, 0, 0xFF, 0xFF, 0, 0⟩
  rw [commitEnd_eq, endLoad_accepted rfl, infOf, hinf]
  exact infOf_setInf_same s l.id _

theorem snc_commitEnd (s : State) (l : Load) (n : PotIx) : (potOf (commitEnd s l) n).snc = (potOf s n).snc := by
  rw [commitEnd_eq, endLoad_snc]
  rfl

theorem answers_commitEnd {l : Load} {key : Nat} (hcmd : l.req.cmd = some key) (h8 : l.phase = 8) (s : State) :
    (potOf (commitEnd s l) l.lead).answers = (potOf s l.lead).answers ++ [loadAnswer key .ok 0 0 l.id] := by
  have h := endLoad_answers hcmd (setInf s l.id (loadedInf s l)) ⟨0, 0, 0xFF, 0xFF, 0, 0⟩
  rw [loadHolder_lead (by rw [h8]; decide)] at h
  exact h

theorem snc_reported (s : State) (l : Load) (p : LoadPot) (n m : PotIx) :
    (potOf (reported s l p n) m).snc = (potOf (commitSyncs s l p) m).snc := by
  unfold reported
  dsimp only
  split
  · exact snc_commitEnd ..
  · rfl

theorem reported_waits (s : State) {l : Load} (p : LoadPot) {n : PotIx} {m : Nat} (hm : m ∈ l.doneLeft) (hne : m ≠ n.toNat) :
    reported s l p n = setLoad (commitSyncs s l p) { l with doneLeft := l.doneLeft.filter fun x => x != n.toNat } := by
  have hleft : m ∈ l.doneLeft.filter fun x => x != n.toNat := List.mem_filter.2 ⟨hm, by simpa using hne⟩
  rw [reported, if_neg]
  rw [List.isEmpty_iff]
  exact List.ne_nil_of_mem hleft

theorem reported_last (s : State) {l : Load} (p : LoadPot) {n : PotIx} (hall : ∀ m ∈ l.doneLeft, m = n.toNat) :
    reported s l p n = commitEnd (commitSyncs s l p) l := by
  rw [reported, if_pos]
  rw [List.isEmpty_iff, List.filter_eq_nil_iff]
  intro m hm
  simp [hall m hm]

/-! ### Loads interrupted (R113, R118) -/

/-- The state in which an interrupted load ends: what its commit wrote is taken back. -/
def uncommitted (s : State) (l : Load) : State := if l.phase = 8 then runAll (revertPot l) (l.pots.zip l.undo) s else s

theorem loadsKept_uncommitted (s : State) (l : Load) : LoadsKept s (uncommitted s l) :=
  loadsKept_ite (loadsKept_runAll (loadsKept_revertPot l) _ s) (.refl s)

theorem interruptLoad_eq {s : State} {l : Load} (hload : s.inf.load = some l) (n : PotIx) :
    ∃ lp, interruptLoad s n = endLoad (uncommitted s l) l ⟨0xF, Nat.min 7 l.phase.toNat, lp, 0xFF, 0, n.toNat⟩ := by
  rw [interruptLoad, hload]
  dsimp only
  exact ⟨_, rfl⟩

theorem exec_loadPhaseTimeout {s : State} {l : Load} {n : PotIx} (hload : s.inf.load = some l) (hon : loadOn s n = true)
    (hopen : l.phase.toNat < 8 ∨ l.doneLeft.contains n.toNat = true) :
    exec (.loadPhaseTimeout n) s = .next (interruptLoad s n) := by
  have hopen' : (s.inf.load.any fun l => decide (l.phase.toNat < 8) || l.doneLeft.contains n.toNat) = true := by
    simpa [hload] using hopen
  show execLoadPhaseTimeout n s = _
  rw [execLoadPhaseTimeout, hon, hopen']
  rfl

/-! ### Drains (R128, R129) -/

theorem infusion_of_find {ds : List Drain} {id : BitVec 12} {d : Drain} (h : ds.find? (fun x => x.infusion == id) = some d) :
    d.infusion = id := by
  simpa using List.find?_some h

theorem not_drained_of_mem {ds : List Drain} {id : BitVec 12} {x : Drain} (h : x ∈ ds.filter fun y => y.infusion != id) :
    x.infusion ≠ id := by
  obtain ⟨-, hx⟩ := List.mem_filter.1 h
  exact bne_iff_ne.1 hx

theorem exec_infusionDrained {s : State} {id : BitVec 12} {d : Drain} (hd : s.inf.drains.find? (fun x => x.infusion == id) = some d)
    (hzero : (infOf s id).inflight = 0) (hlead : potTakes s (infOf s id).lead = true)
    (hstate : (infOf s id).state = 3 ∨ (infOf s id).state = 4) : exec (.infusionDrained id) s = .next (drainDone s d) := by
  have hstate' : ((infOf s id).state == 3 || (infOf s id).state == 4) = true := by simpa using hstate
  show execInfusionDrained id s = _
  rw [execInfusionDrained, hd]
  dsimp only
  rw [hzero, hlead, hstate']
  rfl

theorem drainDone_spec (s : State) (d : Drain) :
    infOf (drainDone s d) d.infusion = Inf.reset ∧ (∀ x ∈ (drainDone s d).inf.drains, x.infusion ≠ d.infusion) ∧
      (potOf (drainDone s d) d.pot).answers.getLast? = some (simpleAns d.cmd .ok) := by
  unfold drainDone
  extract_lets s1 s2
  refine ⟨?_, fun x hx => not_drained_of_mem hx, ?_⟩
  · exact infOf_setInf_same (runAll (freeRes d.infusion) (infOf s1 d.infusion).res s1) d.infusion _
  · rw [answers_answerMember, List.getLast?_concat]

theorem exec_drainTimeout {s : State} {id : BitVec 12} {d : Drain} (hd : s.inf.drains.find? (fun x => x.infusion == id) = some d)
    (hstate : (infOf s id).state = 3) (hflight : (infOf s id).inflight ≠ 0) :
    exec (.drainTimeout id) s = .next (answerMember
      (setInf { s with inf := { s.inf with drains := s.inf.drains.filter fun y => y.infusion != id } } id { infOf s id with state := 2 })
      d.pot (simpleAns d.cmd .timeout)) := by
  show execDrainTimeout id s = _
  rw [execDrainTimeout, hd]
  dsimp only
  rw [bne_iff_ne.2 hflight, hstate]
  rfl

/-- Settles O50, clause by clause: the queue, the phases, the reports, the interruption, the drains. -/
theorem loadsAndDrains : Obligations.LoadsAndDrains := by
  unfold Obligations.LoadsAndDrains
  refine ⟨?serve, ?phases, ?report, ?timeout, ?drains⟩
  case serve =>
    intro s r rest hqueue hhub hnone hwaits htakes hserved
    refine ⟨_, exec_loadQueueServe hqueue hhub hnone hwaits htakes hserved, ?_⟩
    have hread := dramSide_readAddrBytes s r.recv (loadWho r.tag) r.desc.toNat 64
    have htable := congrArg (fun t : State => t.inf.table) hread.1
    exact ⟨rfl, htable, hread.tray, firstPhase s r, rfl, rfl, rfl, rfl⟩
  case phases =>
    intro s l hload hready
    refine ⟨fun hfirst hlast => ⟨_, exec_loadPhase hload hready hlast, phaseEnds_phaseStep s hfirst hlast⟩,
      fun h3 hsaved => ⟨fun i hflaws hid => ?_, fun f hflaw hcode => ?_⟩, fun h7 => ?_⟩
    · refine ⟨_, exec_loadPhase hload hready (by rw [h3]; decide), ?_⟩
      rw [phaseStep_decl s h3, phaseDecl_held hsaved hflaws hid, h3]
      exact ⟨rfl, infOf_setInf_same s (BitVec.ofNat 12 i) _, rfl, sameBytes_of_stores rfl rfl rfl⟩
    · have hbad : f.code ≠ 0 := by rw [hcode]; decide
      refine ⟨_, exec_loadPhase hload hready (by rw [h3]; decide), ?_⟩
      beta_reduce
      rw [phaseStep_decl s h3, phaseDecl_flawed hsaved hflaw, endLoad_rejected hbad]
      refine ⟨endLoad_load s l f, endLoad_table_early hbad (by rw [h3]; decide), ?_, rejectCount_count _ _, fun key hcmd => ?_⟩
      · rw [rejectCount_code _ (by rw [hcode]; decide), hcode]
      · have h := endLoad_answers hcmd s f
        rw [loadHolder_lead (by rw [h3]; decide), hcode] at h
        exact h
    · refine ⟨_, exec_loadPhase hload hready (by rw [h7]; decide), ?_⟩
      rw [phaseStep_commit s h7]
      rfl
  case report =>
    intro s l n p hload h8 _ hp hleft htakes hq hruns
    have hpot : p.res.pot = n.toNat := by simpa using List.find?_some hp
    refine ⟨_, exec_loadCommitDone hload h8 hp hleft htakes hq hruns, fun hnodup x hx => ?_, fun m hm hne => ?_, fun hall => ?_⟩
    · rw [snc_reported]
      exact commitSyncs_words s l hpot hnodup hx
    · rw [reported_waits s p hm hne]
      exact ⟨rfl, sameBytes_of_stores rfl rfl rfl⟩
    · rw [reported_last s p hall, infOf_commitEnd]
      refine ⟨endLoad_load .., rfl, rfl, rfl, rfl, rfl, fun key hcmd => ?_⟩
      rw [answers_commitEnd hcmd h8, answers_commitSyncs]
  case timeout =>
    intro s l n hload hon hopen
    obtain ⟨lp, heq⟩ := interruptLoad_eq hload n
    refine ⟨_, exec_loadPhaseTimeout hload hon hopen, ?_⟩
    have hbad : 0xF ≠ 0 := by decide
    have hcode : 0xF < 2 ^ 8 := by decide
    beta_reduce
    rw [heq, endLoad_rejected hbad]
    refine ⟨endLoad_load .., rejectCount_code _ hcode, (endLoad_queue ..).trans (loadsKept_uncommitted s l).queue,
      infOf_endLoad_released hbad, fun key hcmd => ?_⟩
    rw [endLoad_answers hcmd, List.getLast?_concat]
    rfl
  case drains =>
    intro s id d hd
    obtain rfl := infusion_of_find hd
    refine ⟨fun hzero hlead hstate => ?_, fun hstate hflight => ?_⟩
    · exact ⟨_, exec_infusionDrained hd hzero hlead hstate, drainDone_spec s d⟩
    · refine ⟨_, exec_drainTimeout hd hstate hflight, ?_, fun x hx => not_drained_of_mem hx, ?_, fun j hj => ?_, ?_⟩
      · exact infOf_setInf_same _ d.infusion _
      · exact sameBytes_of_stores rfl rfl rfl
      · exact infOf_setInf_other _ d.infusion j _ hj
      · exact answers_answerMember ..

end Sys2Proof.Machine
namespace Sys2Proof.Machine

/-!
PROOFS. Every command ends in a next state: first the shapes that the meanings are built of, then the writes of registers, which run
other commands, then the commands.
-/

/-- The outcome is a next state. -/
def hasNext (r : Result) : Prop := ∃ t, r = .next t

/-! ### The shapes of an outcome -/

@[simp] theorem hasNext_next (t : State) : hasNext (.next t) := ⟨t, rfl⟩

@[simp] theorem hasNext_whenDo (c : Bool) (s t : State) : hasNext (whenDo c s t) := by cases c <;> exact hasNext_next _

theorem hasNext_ite {c : Prop} [Decidable c] {r q : Result} (hr : hasNext r) (hq : hasNext q) : hasNext (if c then r else q) := by
  split <;> assumption

theorem hasNext_checked (ok : Bool) (s : State) {r : Result} (h : hasNext r) : hasNext (checked ok s r) := hasNext_ite h (hasNext_next s)

theorem hasNext_andThen {r : Result} {f : State → Result} (h : hasNext r) (hf : ∀ t, hasNext (f t)) : hasNext (andThen r f) := by
  obtain ⟨t, rfl⟩ := h
  exact hf t

@[simp] theorem hasNext_seqIssue (n : PotIx) (e : Eng) (own : ColWord → Bool) (body : ColWord → State → SeqIssue) (s : State) :
    hasNext (seqIssue n e own body s) := by
  rw [seqIssue]
  refine hasNext_ite (hasNext_next _) ?_
  dsimp only
  split
  · exact hasNext_next _
  · refine hasNext_ite (hasNext_next _) (hasNext_ite (hasNext_next _) (hasNext_ite (hasNext_next _) ?_))
    split <;> exact hasNext_next _

@[simp] theorem hasNext_luOp (n : PotIx) (i : LuIx) (code : Nat) (eff : Word64 → BitVec 256 → State → LuIssue) (s : State) :
    hasNext (luOp n i code eff s) := by
  rw [luOp]
  refine hasNext_checked _ _ ?_
  dsimp only
  split
  · exact hasNext_next _
  · iterate 6 refine hasNext_ite (hasNext_next _) ?_
    split <;> exact hasNext_next _

@[simp] theorem hasNext_sncOperation (n : PotIx) (ix : BitVec 16) (a : Agent) (yop : BitVec 4) (cond : BitVec 2) (full : Bool) (x : Word64)
    (s : State) : hasNext (sncOperation n ix a yop cond full x s) :=
  hasNext_ite (hasNext_next _) (hasNext_ite (hasNext_next _) (hasNext_next _))

@[simp] theorem hasNext_fwRun (s r : State) : hasNext (fwRun s r) := hasNext_ite (hasNext_next _) (hasNext_whenDo ..)
@[simp] theorem hasNext_keyRun (s r : State) : hasNext (keyRun s r) := hasNext_ite (hasNext_next _) (hasNext_whenDo ..)
@[simp] theorem hasNext_svcRun (s r : State) : hasNext (svcRun s r) := hasNext_ite (hasNext_next _) (hasNext_whenDo ..)
@[simp] theorem hasNext_resetRun (s : State) (kind : Nat) (n : PotIx) (unit : Option Nat) (r : State) :
    hasNext (resetRun s kind n unit r) := hasNext_ite (hasNext_next _) (hasNext_ite (hasNext_next _) (hasNext_next _))

theorem hasNext_sbServe (s : State) {r : Result} (h : hasNext r) : hasNext (sbServe s r) :=
  hasNext_ite (hasNext_next _) (hasNext_ite (hasNext_next _) h)

/-! ### Commands that a register write can run (R9, R471 to R493) -/

@[simp] theorem hasNext_execCommit (e : BitVec 8) (s : State) : hasNext (execCommit e s) :=
  hasNext_ite (hasNext_next _) (hasNext_whenDo ..)

@[simp] theorem hasNext_execClear (e : BitVec 8) (s : State) : hasNext (execClear e s) :=
  hasNext_ite (hasNext_next _) (hasNext_whenDo ..)

@[simp] theorem hasNext_execAbort (s : State) : hasNext (execAbort s) := hasNext_ite (hasNext_next _) (hasNext_whenDo ..)

@[simp] theorem hasNext_execWarmModuleReset (s : State) : hasNext (execWarmModuleReset s) :=
  hasNext_ite (hasNext_next _) (hasNext_ite (hasNext_next _) (hasNext_next _))

@[simp] theorem hasNext_execPmtBudgetWrite (win : Window) (v : Word64) (s : State) : hasNext (execPmtBudgetWrite win v s) := by
  cases win <;> exact hasNext_whenDo ..

@[simp] theorem hasNext_execRecipeWrite (who : Requester) (n : PotIx) (entry : BitVec 8) (words : List (BitVec 32)) (s : State) :
    hasNext (execRecipeWrite who n entry words s) :=
  hasNext_ite (hasNext_next _) (hasNext_ite (hasNext_next _) (hasNext_ite (hasNext_next _) (hasNext_next _)))

@[simp] theorem hasNext_execCupTracePop (who : Requester) (n : PotIx) (s : State) : hasNext (execCupTracePop who n s) :=
  hasNext_ite (hasNext_next _) (hasNext_ite (hasNext_next _) (hasNext_next _))

@[simp] theorem hasNext_execVxeSumqPop (who : Requester) (n : PotIx) (s : State) : hasNext (execVxeSumqPop who n s) := by
  refine hasNext_ite (hasNext_next _) (hasNext_ite (hasNext_next _) ?_)
  split <;> exact hasNext_next _

/-! ### Writes that reach their register, and their commands (R471 to R493) -/

@[simp] theorem hasNext_commitFw (s : State) (v : Nat) : hasNext (commitFw s v) := by
  rw [commitFw]
  split
  · exact hasNext_fwRun ..
  · exact hasNext_fwRun ..
  · exact hasNext_next _

@[simp] theorem hasNext_commitKey (s : State) (v : Nat) : hasNext (commitKey s v) := by
  rw [commitKey]
  split
  · exact hasNext_keyRun ..
  · exact hasNext_keyRun ..
  · exact hasNext_keyRun ..
  · exact hasNext_next _

@[simp] theorem hasNext_commitReset (s : State) (v : Nat) : hasNext (commitReset s v) := by
  rw [commitReset]
  split
  · exact hasNext_execWarmModuleReset _
  · exact hasNext_resetRun ..
  · exact hasNext_resetRun ..
  · exact hasNext_resetRun ..
  · exact hasNext_next _

@[simp] theorem hasNext_commitSvc (s : State) (v : Nat) : hasNext (commitSvc s v) := by
  unfold commitSvc
  refine hasNext_ite (hasNext_next _) ?_
  split
  case h_8 => exact hasNext_execAbort _
  case h_9 => exact hasNext_next _
  all_goals exact hasNext_svcRun ..

@[simp] theorem hasNext_commitBlend (s : State) (v : Nat) : hasNext (commitBlend s v) :=
  hasNext_ite (hasNext_next _) <|
    hasNext_andThen (hasNext_ite (hasNext_execCommit ..) (hasNext_next _)) fun _ => hasNext_ite (hasNext_execClear ..) (hasNext_next _)

@[simp] theorem hasNext_commitSnap (s : State) (v : Nat) : hasNext (commitSnap s v) := hasNext_next _

@[simp] theorem hasNext_commitCup (s : State) (v : Nat) : hasNext (commitCup s v) := hasNext_ite (hasNext_whenDo ..) (hasNext_next _)

@[simp] theorem hasNext_commitMsix (s : State) (head : BitVec 1) (off v : Nat) : hasNext (commitMsix s head off v) :=
  hasNext_ite (hasNext_next _) <| hasNext_ite (hasNext_next _) <| hasNext_ite (hasNext_next _) <|
    hasNext_ite (hasNext_whenDo ..) (hasNext_next _)

@[simp] theorem hasNext_commitHub (s : State) (who : Requester) (off v : Nat) : hasNext (commitHub s who off v) := by
  rw [commitHub]
  repeat' with_reducible apply hasNext_ite
  all_goals simp

@[simp] theorem hasNext_commitRetrain (s : State) (n : PotIx) (v : Nat) : hasNext (commitRetrain s n v) :=
  hasNext_ite (hasNext_whenDo ..) (hasNext_next _)

@[simp] theorem hasNext_commitEng (s : State) (n : PotIx) (e : Eng) (i v : Nat) : hasNext (commitEng s n e i v) := by
  unfold commitEng
  split
  case h_1 => exact hasNext_andThen (hasNext_whenDo ..) fun _ => hasNext_ite (hasNext_whenDo ..) (hasNext_next _)
  all_goals exact hasNext_next _

@[simp] theorem hasNext_commitPatCmd (s : State) (n : PotIx) (v : Nat) : hasNext (commitPatCmd s n v) := hasNext_next _

@[simp] theorem hasNext_commitFlip (s : State) (n : PotIx) (v : Nat) : hasNext (commitFlip s n v) := hasNext_whenDo ..

@[simp] theorem hasNext_commitPmtReq (s : State) (n : PotIx) (core : BitVec 3) (v : Nat) : hasNext (commitPmtReq s n core v) :=
  hasNext_andThen (hasNext_ite (hasNext_whenDo ..) (hasNext_next _)) fun _ => hasNext_ite (hasNext_whenDo ..) (hasNext_next _)

@[simp] theorem hasNext_commitSpt (s : State) (n : PotIx) (k : BitVec 1) (v : Nat) : hasNext (commitSpt s n k v) :=
  hasNext_andThen (hasNext_whenDo ..) fun _ => hasNext_ite (hasNext_whenDo ..) (hasNext_next _)

@[simp] theorem hasNext_commitTrace (s : State) (n : PotIx) (v : Nat) : hasNext (commitTrace s n v) :=
  hasNext_ite (hasNext_whenDo ..) (hasNext_next _)

@[simp] theorem hasNext_execCupMarkWrite (n : PotIx) (a : BitVec 32) (b : Word64) (s : State) : hasNext (execCupMarkWrite n a b s) :=
  hasNext_whenDo ..

@[simp] theorem hasNext_commitPot (s : State) (who : Requester) (n : PotIx) (off v : Nat) : hasNext (commitPot_ s who n off v) := by
  rw [commitPot_]
  repeat' with_reducible apply hasNext_ite
  all_goals simp

theorem hasNext_commitReg (s : State) (who : Requester) (win : Window) (base v : Nat) : hasNext (commitReg s who win base v) := by
  cases win <;> simp [commitReg]

@[simp] theorem hasNext_commitHubEntry (s : State) (who : Requester) (code ix v : Nat) : hasNext (commitHubEntry s who code ix v) := by
  unfold commitHubEntry
  split
  · split
    · exact hasNext_ite (hasNext_whenDo ..) (hasNext_next _)
    · exact hasNext_next _
  · exact hasNext_next _
  · exact hasNext_whenDo ..
  · exact hasNext_next _
  · exact hasNext_next _

@[simp] theorem hasNext_commitPotEntry (s : State) (who : Requester) (n : PotIx) (code ix v : Nat) :
    hasNext (commitPotEntry s who n code ix v) := by
  unfold commitPotEntry
  split
  case h_3 => exact hasNext_execRecipeWrite ..
  case h_7 => exact hasNext_ite (hasNext_whenDo ..) (hasNext_next _)
  all_goals exact hasNext_next _

theorem hasNext_commitEntry (s : State) (who : Requester) (win : Window) (code ix v : Nat) :
    hasNext (commitEntry s who win code ix v) := by
  cases win <;> simp [commitEntry]

/-! ### Register accesses (R471 to R486) -/

theorem hasNext_indWriteWord (s : State) (who : Requester) (win : Window) (sp : Space) (w data : Word64) :
    hasNext (indWriteWord s who win sp w data) :=
  hasNext_ite (hasNext_commitEntry ..) (hasNext_next _)

@[simp] theorem hasNext_indAccess (s : State) (who : Requester) (win : Window) (data : Option Word64) :
    hasNext (indAccess s who win data) := by
  unfold indAccess
  extract_lets w zero pair
  split
  case h_4 =>
    refine hasNext_ite (hasNext_next _) ?_
    split
    · exact hasNext_next _
    · refine hasNext_ite (hasNext_next _) ?_
      split
      case h_2 => exact hasNext_andThen (hasNext_indWriteWord ..) fun _ => hasNext_next _
      all_goals exact hasNext_next _
  all_goals exact hasNext_next _

@[simp] theorem hasNext_readAt (s : State) (who : Requester) (r : RegAt) : hasNext (readAt s who r) := by
  rw [readAt]
  split
  case h_4 =>
    refine hasNext_ite (hasNext_next _) (hasNext_ite (hasNext_indAccess ..) ?_)
    split <;> simp
  all_goals exact hasNext_next _

@[simp] theorem hasNext_writeWord (s : State) (who : Requester) (r : RegAt) (data : Word64) : hasNext (writeWord s who r data) :=
  hasNext_ite (hasNext_commitReg ..) (hasNext_next _)

@[simp] theorem hasNext_writeAt (s : State) (who : Requester) (r : RegAt) (data : Word64) : hasNext (writeAt s who r data) := by
  rw [writeAt]
  split
  case h_4 =>
    refine hasNext_ite (hasNext_next _) (hasNext_ite (hasNext_indAccess ..) ?_)
    split <;> simp
  all_goals exact hasNext_next _

theorem hasNext_regRead (s : State) (who : Requester) (off size : Nat) : hasNext (regRead s who off size) := by
  refine hasNext_ite (hasNext_next _) (hasNext_ite (hasNext_next _) ?_)
  split <;> simp

theorem hasNext_regWrite (s : State) (who : Requester) (off size : Nat) (data : Word64) : hasNext (regWrite s who off size data) := by
  refine hasNext_ite (hasNext_next _) (hasNext_ite (hasNext_next _) ?_)
  split <;> simp

theorem hasNext_inParts {access : State → (off size : Nat) → Result} (h : ∀ t off size, hasNext (access t off size)) (s : State)
    (off size : Nat) : hasNext (inParts access s off size) :=
  hasNext_ite (h ..) (hasNext_andThen (h ..) fun _ => h ..)

/-! ### Commands with a shape of their own -/

theorem hasNext_controlFlit (n : PotIx) (k : BitVec 1) (f : Flit) (s : State) : hasNext (controlFlit n k f s) := by
  unfold controlFlit
  split
  case h_7 => exact hasNext_next _
  all_goals exact hasNext_whenDo ..

theorem hasNext_execPermitRequest (n : PotIx) (cls : PermitClass) (unit : GroupIx) (s : State) :
    hasNext (execPermitRequest n cls unit s) := by
  refine hasNext_ite (hasNext_next _) ?_
  cases cls with
  | leaf => dsimp only; split <;> exact hasNext_next _
  | fw => exact hasNext_whenDo ..
  | mxe | vxe | sfe => exact hasNext_next _

theorem hasNext_execLuColumnAccess (n : PotIx) (lu : LuIx) (bad : Bool) (s : State) : hasNext (execLuColumnAccess n lu bad s) := by
  refine hasNext_checked _ _ ?_
  dsimp only
  split
  · exact hasNext_next _
  · exact hasNext_whenDo ..

/-! ### The commands -/

/-- No meaning ends a run, on any path: it is built of outcomes that are next states. -/
theorem hasNext_exec (c : Instr) (s : State) : hasNext (exec c s) := by
  cases c with
  | coldPowerOn | pgTimeout | pgFall | bootRom | tagSweepDone | trayClearDone | lkgRecord | enrollWindowClose | pulseToggle
  | headLinkTrain | hdmDecoderCommit | syncViewRead | apertureLineWrite | assemblyTimeout | memberLost | msixUnmask
  | mailboxUnsupported | getCertificate | challenge | getMeasurements | potMapWrite | engineCommandPush | engineCommandComplete
  | queueElementAvailable | seqStallTimeout | infusionFail | halt | inval | ftqSlotReady | leafCommandPush | leafCommandDeliver
  | microwordLoad | bksRequestArrive | bksPick | refreshInterval | eyeRecentre | mergeTimeout | retrain | patrolRowVisit | flipArm
  | permitRelease | permitPrecedence | permitOverdraw | req | release | activityEstimate | caddyRailOff | ketRestart
  | brewfwPotQuiesce | brewfwSelfcheckTimeout | hubfwHandover | migrationCopyUnit | migrationSettle | migrationSwitch
  | loadPhaseTimeout | sncWaitTimeout | streamAckTimer | flitSlot | ackTimer | ack | nak | nakAll | init | laneSwap | lastWords
  | laneFail | trainingLock | trainingTimeout | trainingRetry | initTimeout | silentTimeout | lockLoss | portDrainTimeout | enable
  | portReset | sptRouteWrite | lossyClear | parityWalk | snapshotStart | snapshotLatch | cuppingStart | cuppingPeriodTimer
  | cuppingLatch | faultRecordLost | traceRecord | cupMarkWrite | traceEnable | bypass | idcode | samplePreload | extest
  | coldPowerLoss | powerGoodRise | tripHourExpiry | entdaa | testLogicReset =>
    exact hasNext_whenDo ..
  | perst | headLinkDown | rowRemap | spareMove | bankRemap | tagfix | scrubRange | idle => exact hasNext_next ..
  | luNop | rdl | wrl | wrq | maco | adds | axpy | scl | cmpc | rdap | stap | movl | zl | ldq | addl | mull | macl | za | tree
  | tkins | nxi | nxr | setlc | cb | setap | put =>
    delta exec
    exact hasNext_luOp ..
  | nop | loop | branch | wlc | agpos | stream | sync | endWord | mma | mma24 | mmabs | flush | zero | recipe | reduce | softmax
  | gate | gatherCsr | gatherCoo | scatter | bagsumLu | dispatch | combine | add | sub | shl | shr | sar | min | max | slt | seq
  | lui | li | rlc =>
    delta exec
    simp only [execNop, execLoop, execBranch, execWlc, execAgpos, execStream, execSync, execEndWord, execMma, execMma24, execMmabs,
      execFlush, execZero, execRecipe, execReduce, execSoftmax, execGate, execGatherCsr, execGatherCoo, execScatter, execBagsumLu,
      execDispatch, execCombine, execAdd, execSub, execShl, execShr, execSar, execMin, execMax, execSlt, execSeq, execLui, execLi,
      execRlc, scalarTwo, scalarWord, hasNext_seqIssue]
  | read | store | fill | empty | wait | signal | arrive | bwait | barrier => exact hasNext_sncOperation ..
  | identifyMemoryDevice | getSupportedLogs | getLog | getEventRecords | clearEventRecords | getHealthInfo | getAlertConfiguration
  | getPoisonList | getVersion | getCapabilities | negotiateAlgorithms | getDigests | cdat | write | readReq | readRsp | syncReq
  | syncRsp | streamAck | cmd | resolved | partialResult | nodeLost | mgmt =>
    exact hasNext_whenDo ..
  | stage | activate => exact hasNext_fwRun ..
  | enroll | rotate | revoke => exact hasNext_keyRun ..
  | migrate | mirror | unmirror | retirePot | unretirePot | retireMxe | returnMxe => exact hasNext_svcRun ..
  | potReset | engineReset | brewerCoreReset => exact hasNext_resetRun ..
  | cxlMemRead | cxlMemWrite | icacheFill | narrowWrite | retrainAttemptEnd | permitGrantCycle | syncChg | resync =>
    -- nested tests, whose outcomes are next states or messages taken
    delta exec
    repeat' apply hasNext_ite
    all_goals simp
  | dispatchAccept | commandDispatch | memberAnswer | commandComplete | cmdTimeout | leaf | launch | load | restore | save | unload
  | hostSync | trayCopy | potMapChangeApply | engineCommandStart | streamBurst | summaryWordPush | sfeRowReturn | bagLeafFold
  | operandSlotLoad | leafResultRecord | bksAdmit | bankRemapSwitch | loadQueueServe | loadPhase | loadCommitDone | infusionDrained
  | drainTimeout | sncInputHoldRelease | deferredOpRelease | strandTimeout | rwbApply | faultRecordAccept =>
    -- the work at the head of a list, or none
    delta exec
    simp only [execDispatchAccept, execCommandDispatch, execMemberAnswer, execCommandComplete, execCmdTimeout, execLeaf, execLaunch,
      execLoad, execRestore, execSave, execUnload, execHostSync, execTrayCopy, execPotMapChangeApply, execEngineCommandStart,
      execStreamBurst, execSummaryWordPush, execSfeRowReturn, execBagLeafFold, execOperandSlotLoad, execLeafResultRecord,
      execBksAdmit, execBankRemapSwitch, execLoadQueueServe, execLoadPhase, execLoadCommitDone, execInfusionDrained,
      execDrainTimeout, execSncInputHoldRelease, execDeferredOpRelease, execStrandTimeout, execRwbApply, execFaultRecordAccept]
    repeat' split
    all_goals simp
  | warmModuleReset => exact hasNext_execWarmModuleReset ..
  | commit => exact hasNext_execCommit ..
  | clear => exact hasNext_execClear ..
  | vxeSumqPop => exact hasNext_execVxeSumqPop ..
  | recipeWrite => exact hasNext_execRecipeWrite ..
  | permitRequest => exact hasNext_execPermitRequest ..
  | abort => exact hasNext_execAbort ..
  | flitReceive => exact hasNext_ite (hasNext_controlFlit ..) (hasNext_whenDo ..)
  | registerWrite => exact hasNext_ite (hasNext_inParts (fun _ _ _ => hasNext_regWrite ..) _ _ _) (hasNext_next _)
  | word0Read => exact hasNext_ite (hasNext_inParts (fun _ _ _ => hasNext_regRead ..) _ _ _) (hasNext_next _)
  | indDataAccess => exact hasNext_ite (hasNext_indAccess ..) (hasNext_next _)
  | cupTracePop => exact hasNext_execCupTracePop ..
  | pmtBudgetWrite => exact hasNext_execPmtBudgetWrite ..
  | luColumnAccess => exact hasNext_execLuColumnAccess ..
  | luLimitTimeout | ketMeasurementTick => exact hasNext_checked _ _ (hasNext_whenDo ..)
  | setOffset | status => exact hasNext_sbServe _ (hasNext_next _)
  | write64 => exact hasNext_sbServe _ (hasNext_andThen (hasNext_regWrite ..) fun _ => hasNext_next _)
  | read64 => exact hasNext_sbServe _ (hasNext_andThen (hasNext_regRead ..) fun _ => hasNext_next _)

/-! ### Operands that name nothing (log entry 11) -/

/-- No leaf unit lies above the 66 × 16 of a pot (R134). -/
theorem luOp_absent {lu : LuIx} (h : 1056 ≤ lu.toNat) (n : PotIx) (code : Nat) (eff : Word64 → BitVec 256 → State → LuIssue)
    (s : State) : luOp n lu code eff s = .next s :=
  if_neg (by simp [Config.lusPerPot]; omega)

theorem execLuLimitTimeout_absent {lu : LuIx} (h : 1056 ≤ lu.toNat) (n : PotIx) (s : State) : execLuLimitTimeout n lu s = .next s :=
  if_neg (by simp [Config.lusPerPot]; omega)

theorem luIndexOk_absent {lu : LuIx} (h : 1056 ≤ lu.toNat) : luIndexOk lu = false := by
  simp [luIndexOk, Config.lusPerPot]; omega

/-- The sensors of the dies of a place are the readings that a tick of it takes (R418). -/
theorem sum_ketDies (p : KetPlace) : ((ketDies p).map Prod.snd).sum = ketReadings p := by cases p <;> rfl

/-- Settles O60: no meaning ends a run (`hasNext_exec`), and a leaf unit, a virtual channel or a list of readings that the module does
not have leaves the state as it is. -/
theorem wellFormedCommandsComplete : Obligations.WellFormedCommandsComplete := by
  unfold Obligations.WellFormedCommandsComplete
  refine ⟨fun c s => ?_, fun s n lu h c hc => ?_, fun s n k f p hvc => ⟨s, ?_, rfl⟩, fun s p rs hrs => ⟨s, ?_, rfl⟩⟩
  · obtain ⟨t, ht⟩ := hasNext_exec c s
    exact ⟨t, ht, trivial⟩
  · suffices hnone : c.wf = false ∧ exec c s = .next s from ⟨hnone.1, s, hnone.2, rfl⟩
    revert c
    simp only [List.forall_mem_cons, List.not_mem_nil, false_implies, implies_true, and_true]
    delta exec Instr.wf
    simp only [luIndexOk_absent h, execLuNop, execRdl, execWrl, execWrq, execMaco, execAdds, execAxpy, execScl, execCmpc, execRdap,
      execStap, execMovl, execZl, execLdq, execZa, execTree, execTkins, execNxi, execNxr, execSetlc, execCb, execSetap, execPut,
      luOp_absent h, execLuLimitTimeout_absent h, and_self]
  · show execFlitReceive n k f true p s = .next s
    obtain hvc | hvc := hvc <;> simp [execFlitReceive, hvc, vcOk, whenDo]
  · show execKetMeasurementTick p rs s = .next s
    exact if_neg (by simpa [sum_ketDies] using hrs)

end Sys2Proof.Machine

namespace Sys2Proof.Machine

/-!
PROOFS. Leaf units: what one repeat of a microword can do (R134 to R165), and the operations that need no column access.
-/

/-! ### What belongs to a leaf unit and its bank -/

theorem luSeat_congr {p q : Pot} (h : q.pat.bankmap = p.pat.bankmap) (i : Nat) : luSeat q i = luSeat p i := by
  simp only [luSeat, bankMapOf, h]

theorem onlyLuRow.refl (n : PotIx) (i : LuIx) (s : State) : onlyLuRow n i s s :=
  ⟨onlyPot.refl n s, rfl, fun _ _ => rfl, fun _ _ => rfl, fun _ _ => rfl⟩

theorem onlyLuRow.seat {n : PotIx} {i : LuIx} {s t : State} (h : onlyLuRow n i s t) (j : Nat) :
    luSeat (potOf t n) j = luSeat (potOf s n) j := by
  obtain ⟨-, hp, -, -, -⟩ := h
  exact luSeat_congr (by rw [hp]) j

theorem onlyLuRow.trans {n : PotIx} {i : LuIx} {s t v : State} (h : onlyLuRow n i s t) (k : onlyLuRow n i t v) : onlyLuRow n i s v := by
  have hseat := h.seat i.toNat
  obtain ⟨hpot, hp, hlus, hgroups, hbanks⟩ := h
  obtain ⟨kpot, kp, klus, kgroups, kbanks⟩ := k
  rw [hseat] at kgroups kbanks
  exact ⟨hpot.trans kpot, by rw [kp, hp], fun j hj => (klus j hj).trans (hlus j hj), fun g hg => (kgroups g hg).trans (hgroups g hg),
    fun b hb => (kbanks b hb).trans (hbanks b hb)⟩

theorem onlyLuRow.stores {n : PotIx} {i : LuIx} {s t : State} (h : onlyLuRow n i s t) : t.tray = s.tray ∧ t.dram = s.dram := by
  obtain ⟨⟨ht, -⟩, -⟩ := h
  exact ⟨(congrArg State.tray ht :), (congrArg State.dram ht :)⟩

theorem onlyLuRow.sameBytes {n : PotIx} {i : LuIx} {s t : State} (h : onlyLuRow n i s t) : sameBytes s t := h.1.sameBytes

/-- Writing the LU back, with the pot's counts of its events. -/
theorem onlyLuRow_setLu (n : PotIx) (i : LuIx) (s : State) (x : Lu) (events : Word64) :
    onlyLuRow n i s (setPot s n { setLu (potOf s n) i.toNat x with luEvents := events }) := by
  refine ⟨onlyPot_setPot .., ?_⟩
  rw [potOf_setPot_same]
  exact ⟨rfl, fun j hj => luOf_setLu_other _ _ _ _ hj, fun _ _ => rfl, fun _ _ => rfl⟩

/-- A change of the LU's own bank at its scheduler. -/
theorem onlyLuRow_updSched (n : PotIx) (i : LuIx) (s : State) (f : Sched → Sched)
    (h : ∀ c b, b ≠ (luSeat (potOf s n) i.toNat).2.toNat → bankOf (f c) b = bankOf c b) :
    onlyLuRow n i s (updSched s n (luSeat (potOf s n) i.toNat).1 f) := by
  refine ⟨onlyPot_updPot .., ?_⟩
  simp only [updSched, potOf_updPot_same, schedOf_setSched_same]
  exact ⟨rfl, fun _ _ => rfl, fun g hg => schedOf_setSched_other _ _ _ _ hg, fun b hb => h _ b hb⟩

theorem bankOf_updBank_other (c : Sched) {b k : Nat} (f : Bank → Bank) (h : k ≠ b) : bankOf (updBank c b f) k = bankOf c k :=
  bankOf_setBank_other _ _ _ _ h

theorem luOf_updSched (s : State) (n : PotIx) (g : GroupIx) (f : Sched → Sched) (i : Nat) :
    luOf (potOf (updSched s n g f) n) i = luOf (potOf s n) i := by
  rw [updSched, potOf_updPot_same]
  rfl

/-- The events of no operation count nothing. -/
@[simp] theorem luEvents_zero (l : Lu) : luEvents l .zero = l := by
  have h : ∀ w : BitVec 32, satAdd w 0 = w := fun w => by
    have hw : Nat.min (2 ^ 32 - 1) w.toNat = w.toNat := Nat.min_eq_right (by have := w.isLt; omega)
    rw [satAdd, Nat.add_zero, hw, BitVec.ofNat_toNat, BitVec.setWidth_eq]
  simp [luEvents, NumEv.zero, h]

/-! ### Rows closed (R149) -/

theorem onlyLuRow_luPrecharge (s : State) (n : PotIx) (i : LuIx) : onlyLuRow n i s (luPrecharge s n i.toNat) := by
  unfold luPrecharge
  refine onlyLuRow_updSched n i s _ fun c b hb => ?_
  refine (bankOf_updBank_other _ _ hb).trans ?_
  split
  · exact bankOf_updBank_other _ _ hb
  · rfl

theorem luOf_luPrecharge (s : State) (n : PotIx) (i j : Nat) : luOf (potOf (luPrecharge s n i) n) j = luOf (potOf s n) j :=
  luOf_updSched ..

theorem luClosed_of_empty {l : Lu} (h : l.colq = []) : luClosed l = { l with closing := false } := by
  simp [luClosed, h]

theorem luClosed_of_waiting {l : Lu} (h : (l.closing && l.colq.isEmpty) = false) : luClosed l = l := by
  have hc : (l.closing && !l.colq.isEmpty) = l.closing := by
    cases hcl : l.closing
    · rfl
    · simpa [hcl] using h
  rw [luClosed, hc]

/-- A row to be closed is closed once no access is pending; else nothing happens. -/
theorem luClose_spec (s : State) (n : PotIx) (i : Nat) :
    (luClosed (luOf (potOf s n) i) = { luOf (potOf s n) i with closing := false } ∧
      luClose s n i = luPrecharge (updPot s n fun p => setLu p i { luOf (potOf s n) i with closing := false }) n i) ∨
    (luClosed (luOf (potOf s n) i) = luOf (potOf s n) i ∧ luClose s n i = s) := by
  cases h : (luOf (potOf s n) i).closing && (luOf (potOf s n) i).colq.isEmpty
  · exact .inr ⟨luClosed_of_waiting h, by simp [luClose, h]⟩
  · refine .inl ⟨luClosed_of_empty ?_, by simp only [luClose, h, if_true]⟩
    simpa using (Bool.and_eq_true_iff.1 h).2

theorem onlyLuRow_luClose (s : State) (n : PotIx) (i : LuIx) : onlyLuRow n i s (luClose s n i.toNat) := by
  obtain ⟨-, e⟩ | ⟨-, e⟩ := luClose_spec s n i.toNat
  · rw [e]
    exact (onlyLuRow_setLu n i s _ (potOf s n).luEvents).trans (onlyLuRow_luPrecharge ..)
  · rw [e]
    exact .refl n i s

theorem luOf_luClose (s : State) (n : PotIx) (i : Nat) : luOf (potOf (luClose s n i) n) i = luClosed (luOf (potOf s n) i) := by
  obtain ⟨h, e⟩ | ⟨h, e⟩ := luClose_spec s n i
  · rw [e, luOf_luPrecharge, potOf_updPot_same, luOf_setLu_same, h]
  · rw [e, h]

theorem luClose_cup (s : State) (n : PotIx) (i : Nat) : (potOf (luClose s n i) n).cup = (potOf s n).cup := by
  obtain ⟨-, e⟩ | ⟨-, e⟩ := luClose_spec s n i
  · rw [e, luPrecharge, updSched, potOf_updPot_same, potOf_updPot_same]
    rfl
  · rw [e]

/-- With no command ended, the end of an operation on an LU only closes a row that waits for it. -/
theorem luFinish_running {s : State} {n : PotIx} {i : Nat} (h : (luOf (potOf s n) i).done = false) : luFinish s n i = luClose s n i := by
  have hd : (luOf (potOf (luClose s n i) n) i).done = false := by rw [luOf_luClose]; exact h
  unfold luFinish
  simp only [h, Bool.and_false, Bool.false_and, Bool.false_eq_true, if_false]
  split
  · rfl
  · simp [hd]

/-! ### One repeat of a microword (R147, R154) -/

section Step
variable {s t : State} {n : PotIx} {i : LuIx} {code : Nat} {u : Word64} {raw : BitVec 256}

theorem luIssues.running (h : luIssues s n i code u raw) : (luOf (potOf s n) i.toNat).done = false := by
  obtain ⟨⟨-, -, -, hdone⟩, -⟩ := h
  exact hdone

theorem luIssues.command (h : luIssues s n i code u raw) : ∃ c, (luOf (potOf s n) i.toNat).cmd = some c ∧ c.raw = raw := by
  obtain ⟨⟨hcmd, -⟩, -⟩ := h
  exact Option.map_eq_some_iff.1 hcmd

/-- What an issue makes of the state. -/
def luIssued (s : State) (n : PotIx) (k : Nat) (u : Word64) (raw : BitVec 256) : LuIssue → State
  | .wait => s
  | .hold t => t
  | .fault cause addr => luFault s n k cause addr
  | .go t obey => luStep t n k u raw obey

theorem luOp_issues (h : luIssues s n i code u raw) (eff : Word64 → BitVec 256 → State → LuIssue) :
    luOp n i code eff s = .next (luIssued s n i.toNat u raw (eff u raw s)) := by
  obtain ⟨⟨hcmd, hlu, hon, hdone⟩, hserved, hfail, hfetch, hcode, hword, hbad, huop, hrep⟩ := h
  obtain ⟨c, hc, rfl⟩ := Option.map_eq_some_iff.1 hcmd
  have hrun : (decide ((luOf (potOf s n) i.toNat).rep = 0) && infFailing s (luOf (potOf s n) i.toNat).infusion) = false := by
    rcases hfail with h | h <;> simp [h]
  simp only [luOp, checked, hlu, hc, hon, hdone, hserved, hrun, hfetch, hcode, hword, hbad, huop, hrep.ne', decide_true, if_true,
    Bool.not_true, Bool.or_false, Bool.false_eq_true, if_false, ne_eq, not_true_eq_false]
  cases eff u c.raw s <;> rfl

/-- The LU after its repeat, before a row that it closes is closed in its bank. -/
def luMoved (l : Lu) (u : Word64) (raw : BitVec 256) (obey : Bool) : Lu :=
  if l.rep + 1 < luRepeats u raw then { l with rep := l.rep + 1 }
  else luAdvance
    { l with rep := 0, openRow := if uPre u then none else l.openRow, closing := l.closing || (uPre u && l.openRow.isSome) } u obey

/-- Where SEQ leads is a matter of UPC, MLC and, for SEQ 3 alone, of the command's end. -/
theorem luAdvance_spec (l : Lu) (u : Word64) (obey : Bool) :
    ∃ pc mlc d, luAdvance l u obey = { l with upc := pc, mlc := mlc, done := d } ∧ (uSeq u ≠ 3 → d = l.done) := by
  cases obey
  · exact ⟨_, _, _, rfl, fun _ => rfl⟩
  · have hlt : uSeq u < 4 := Nat.mod_lt _ (by norm_num)
    have hseq : uSeq u = 0 ∨ uSeq u = 1 ∨ uSeq u = 2 ∨ uSeq u = 3 := by omega
    obtain h | h | h | h := hseq
    · exact ⟨l.upc + 1, l.mlc, l.done, by simp [luAdvance, h], fun _ => rfl⟩
    · exact ⟨BitVec.ofNat 10 (uNext u), l.mlc, l.done, by simp [luAdvance, h], fun _ => rfl⟩
    · by_cases hm : l.mlc = 0#8
      · exact ⟨l.upc + 1, l.mlc, l.done, by simp [luAdvance, h, hm], fun _ => rfl⟩
      · exact ⟨if l.mlc - 1 = 0 then l.upc + 1 else BitVec.ofNat 10 (uNext u), l.mlc - 1, l.done, by simp [luAdvance, h, hm],
          fun _ => rfl⟩
    · exact ⟨l.upc, l.mlc, true, by simp [luAdvance, h], fun h3 => absurd h h3⟩

theorem luMoved_done (l : Lu) (h : uSeq u ≠ 3) (obey : Bool) : (luMoved l u raw obey).done = l.done := by
  unfold luMoved
  split
  · rfl
  · obtain ⟨pc, mlc, d, e, hd⟩ := luAdvance_spec
      { l with rep := 0, openRow := if uPre u then none else l.openRow, closing := l.closing || (uPre u && l.openRow.isSome) } u obey
    rw [e]
    exact hd h

theorem luMoved_closing (l : Lu) (h : uPre u = false) (obey : Bool) : (luMoved l u raw obey).closing = l.closing := by
  unfold luMoved
  split
  · rfl
  · obtain ⟨pc, mlc, d, e, -⟩ := luAdvance_spec
      { l with rep := 0, openRow := if uPre u then none else l.openRow, closing := l.closing || (uPre u && l.openRow.isSome) } u obey
    rw [e]
    simp [h]

/-- A repeat of a word that does not end its command: the LU moves on, and after a word's last repeat a row that it closes goes. -/
theorem luStep_spec (hseq : uSeq u ≠ 3) (hdone : (luOf (potOf s n) i.toNat).done = false) (obey : Bool) :
    let moved := setPot s n (setLu (potOf s n) i.toNat (luMoved (luOf (potOf s n) i.toNat) u raw obey))
    (luStep s n i.toNat u raw obey = moved ∧
      luNext (luOf (potOf s n) i.toNat) u raw obey = luMoved (luOf (potOf s n) i.toNat) u raw obey) ∨
    (luStep s n i.toNat u raw obey = luClose moved n i.toNat ∧
      luNext (luOf (potOf s n) i.toNat) u raw obey = luClosed (luMoved (luOf (potOf s n) i.toNat) u raw obey)) := by
  have hmoved := (luMoved_done (raw := raw) (luOf (potOf s n) i.toNat) hseq obey).trans hdone
  intro moved
  by_cases hrep : (luOf (potOf s n) i.toNat).rep + 1 < luRepeats u raw
  · left
    simp only [moved, luStep, luNext, luMoved, hrep, if_true, and_self]
  · right
    have hrun : luFinish moved n i.toNat = luClose moved n i.toNat := luFinish_running (by
      rw [potOf_setPot_same, luOf_setLu_same, hmoved])
    rw [← hrun]
    simp only [moved, luStep, luNext, luMoved, hrep, if_false, and_self]

theorem luOf_luStep (hseq : uSeq u ≠ 3) (hdone : (luOf (potOf s n) i.toNat).done = false) (obey : Bool) :
    luOf (potOf (luStep s n i.toNat u raw obey) n) i.toNat = luNext (luOf (potOf s n) i.toNat) u raw obey := by
  obtain ⟨e, hn⟩ | ⟨e, hn⟩ := luStep_spec (raw := raw) hseq hdone obey
  · rw [e, hn, potOf_setPot_same, luOf_setLu_same]
  · rw [e, hn, luOf_luClose, potOf_setPot_same, luOf_setLu_same]

theorem onlyLuEvents.trans {v : State} (h : onlyLuEvents n i u s t)
    (hclosing : (luOf (potOf t n) i.toNat).closing = (luOf (potOf s n) i.toNat).closing) (k : onlyLuEvents n i u t v) :
    onlyLuEvents n i u s v := by
  obtain ⟨hrow, hcup, hsched⟩ := h
  obtain ⟨krow, kcup, ksched⟩ := k
  exact ⟨hrow.trans krow, kcup.trans hcup, fun hpre hc => (ksched hpre (hclosing.trans hc)).trans (hsched hpre hc)⟩

theorem onlyLuEvents_setLu (x : Lu) (events : Word64) :
    onlyLuEvents n i u s (setPot s n { setLu (potOf s n) i.toNat x with luEvents := events }) := by
  refine ⟨onlyLuRow_setLu .., ?_⟩
  rw [potOf_setPot_same]
  exact ⟨rfl, fun _ _ => rfl⟩

theorem onlyLuEvents_luStep (hseq : uSeq u ≠ 3) (hdone : (luOf (potOf s n) i.toNat).done = false) (obey : Bool) :
    onlyLuEvents n i u s (luStep s n i.toNat u raw obey) := by
  have hset := onlyLuEvents_setLu (s := s) (n := n) (i := i) (u := u) (luMoved (luOf (potOf s n) i.toNat) u raw obey) (potOf s n).luEvents
  obtain ⟨e, -⟩ | ⟨e, -⟩ := luStep_spec (raw := raw) hseq hdone obey
  · rw [e]
    exact hset
  · obtain ⟨hrow, hcup, hsched⟩ := hset
    rw [e]
    refine ⟨hrow.trans (onlyLuRow_luClose ..), (luClose_cup ..).trans hcup, fun hpre hc => ?_⟩
    rw [luClose, potOf_setPot_same, luOf_setLu_same, luMoved_closing _ hpre, hc]
    exact hsched hpre hc

theorem luOf_withEvents (p : Pot) (events : Word64) (i : Nat) : luOf { p with luEvents := events } i = luOf p i := rfl

theorem luOf_putLu (s : State) (n : PotIx) (i : Nat) (x : Lu) (ev : NumEv) : luOf (potOf (putLu s n i x ev) n) i = x := by
  unfold putLu
  rw [potOf_updPot_same, luOf_withEvents, luOf_setLu_same]

theorem onlyLuEvents_putLu (x : Lu) (ev : NumEv) : onlyLuEvents n i u s (putLu s n i.toNat x ev) := by
  unfold putLu updPot
  exact onlyLuEvents_setLu x _

/-- An operation that changes the LU alone, and its pot's counts of events, then goes on. -/
theorem luOp_local {c : Instr} {eff : Word64 → BitVec 256 → State → LuIssue} {x : Lu} {obey : Bool} (ev : NumEv)
    (hexec : exec c s = luOp n i code eff s) (h : luIssues s n i code u raw) (hseq : uSeq u ≠ 3)
    (heff : eff u raw s = .go (putLu s n i.toNat x ev) obey)
    (hdone : x.done = (luOf (potOf s n) i.toNat).done) (hclosing : x.closing = (luOf (potOf s n) i.toNat).closing) :
    runsTo c s fun t => onlyLuEvents n i u s t ∧ luOf (potOf t n) i.toNat = luNext x u raw obey := by
  have hx := luOf_putLu s n i.toNat x ev
  have hrun : (luOf (potOf (putLu s n i.toNat x ev) n) i.toNat).done = false := by rw [hx, hdone, h.running]
  refine ⟨_, hexec.trans (luOp_issues h eff), ?_⟩
  rw [heff]
  refine ⟨?_, (luOf_luStep hseq hrun obey).trans (by rw [hx])⟩
  exact (onlyLuEvents_putLu x ev).trans (by rw [hx, hclosing]) (onlyLuEvents_luStep hseq hrun obey)

/-- An operation that finds nothing to do, then goes on. -/
theorem luOp_idle {c : Instr} {eff : Word64 → BitVec 256 → State → LuIssue} {obey : Bool}
    (hexec : exec c s = luOp n i code eff s) (h : luIssues s n i code u raw) (hseq : uSeq u ≠ 3) (heff : eff u raw s = .go s obey) :
    runsTo c s fun t => onlyLuEvents n i u s t ∧ luOf (potOf t n) i.toNat = luNext (luOf (potOf s n) i.toNat) u raw obey := by
  refine ⟨_, hexec.trans (luOp_issues h eff), ?_⟩
  rw [heff]
  exact ⟨onlyLuEvents_luStep hseq h.running obey, luOf_luStep hseq h.running obey⟩

end Step

/-! ### The end of a command on an LU (R159, R161, R463) -/

theorem potOf_chanDone (s : State) (n : PotIx) (g : Nat) : ∃ x, potOf (chanDone s n g) n = { potOf s n with pmt := x } := by
  unfold chanDone
  split
  · exact ⟨_, rfl⟩
  · exact ⟨_, potOf_updPot_same ..⟩

theorem potOf_luPrecharge (s : State) (n : PotIx) (i : Nat) : ∃ x, potOf (luPrecharge s n i) n = { potOf s n with scheds := x } :=
  ⟨_, potOf_updPot_same ..⟩

theorem potOf_shadowFault (s : State) (n : PotIx) (i : Nat) (primary : PotIx) (pi : LuIx) (m : PotIx) :
    potOf (shadowFault s n i primary pi) m = potOf s m := by
  unfold shadowFault
  dsimp only
  split_ifs
  · rfl
  · exact potOf_sendFault ..
  · rfl

theorem luOf_chanDone (s : State) (n : PotIx) (g i : Nat) : luOf (potOf (chanDone s n g) n) i = luOf (potOf s n) i := by
  obtain ⟨x, h⟩ := potOf_chanDone s n g
  rw [h]
  rfl

/-- The state in which a command may end: its row is closed. -/
def luShut (s : State) (n : PotIx) (i : Nat) : State :=
  let l := luOf (potOf s n) i
  if l.cmd.isSome && l.done && l.colq.isEmpty && l.openRow.isSome then luPrecharge s n i else luClose s n i

theorem luOf_luShut (s : State) (n : PotIx) (i : Nat) :
    ∃ c, luOf (potOf (luShut s n i) n) i = { luOf (potOf s n) i with closing := c } := by
  unfold luShut
  dsimp only
  split
  · exact ⟨_, luOf_luPrecharge ..⟩
  · exact ⟨_, luOf_luClose ..⟩

theorem runs_luShut (s : State) (n : PotIx) (i : Nat) : (potOf (luShut s n i) n).runs = (potOf s n).runs := by
  have hpre : ∀ t, (potOf (luPrecharge t n i) n).runs = (potOf t n).runs := fun t => by
    obtain ⟨x, h⟩ := potOf_luPrecharge t n i
    rw [h]
  unfold luShut
  dsimp only
  split
  · exact hpre s
  · obtain ⟨-, e⟩ | ⟨-, e⟩ := luClose_spec s n i
    · rw [e, hpre, potOf_updPot_same]
      rfl
    · rw [e]

/-- The LU after its command. -/
def luFreed (l : Lu) : Lu := { l with cmd := none, done := false, openRow := none, closing := false }

/-- A command that is done, with nothing pending, gives its answer and leaves the LU. -/
def luEnd (s : State) (n : PotIx) (i : Nat) : State :=
  let p := potOf s n
  let l := luOf p i
  match l.cmd with
  | none => s
  | some c =>
    if l.done && l.colq.isEmpty then
      let g := (luSeat p i).1.toNat
      match c.shadow with
      | none => chanDone (setPot s n { setLu p i (luFreed l) with runs := giveAnswer (luAnswer i l) p.runs }) n g
      | some pr =>
        let s1 := setPot s n (setLu p i (luFreed l))
        chanDone (if l.endFault.isSome then shadowFault s1 n i pr c.luIx else s1) n g
    else s

theorem luFinish_eq (s : State) (n : PotIx) (i : Nat) : luFinish s n i = luEnd (luShut s n i) n i := rfl

/-- A command ends on an LU once it is done and nothing is pending: its row goes, its answer is given, and the LU is free. -/
theorem luFinish_ends {s : State} {n : PotIx} {i : Nat} {c : LeafCmd} (hcmd : (luOf (potOf s n) i).cmd = some c)
    (hdone : (luOf (potOf s n) i).done = true) (hq : (luOf (potOf s n) i).colq = []) (hprimary : c.shadow = none) :
    luOf (potOf (luFinish s n i) n) i = luFreed (luOf (potOf s n) i) ∧
      (potOf (luFinish s n i) n).runs = giveAnswer (luAnswer i (luOf (potOf s n) i)) (potOf s n).runs := by
  obtain ⟨k, hl⟩ := luOf_luShut s n i
  have hruns := runs_luShut s n i
  have e : luFinish s n i = chanDone (setPot (luShut s n i) n
      { setLu (potOf (luShut s n i) n) i (luFreed (luOf (potOf (luShut s n i) n) i)) with
        runs := giveAnswer (luAnswer i (luOf (potOf (luShut s n i) n) i)) (potOf (luShut s n i) n).runs }) n
      (luSeat (potOf (luShut s n i) n) i).1.toNat := by
    have hcmd' : (luOf (potOf (luShut s n i) n) i).cmd = some c := by rw [hl]; exact hcmd
    have hend : ((luOf (potOf (luShut s n i) n) i).done && (luOf (potOf (luShut s n i) n) i).colq.isEmpty) = true := by
      rw [hl]; simp [hdone, hq]
    simp only [luFinish_eq, luEnd, hcmd', hend, hprimary, if_true]
  obtain ⟨x, hx⟩ := potOf_chanDone (setPot (luShut s n i) n
      { setLu (potOf (luShut s n i) n) i (luFreed (luOf (potOf (luShut s n i) n) i)) with
        runs := giveAnswer (luAnswer i (luOf (potOf (luShut s n i) n) i)) (potOf (luShut s n i) n).runs }) n
      (luSeat (potOf (luShut s n i) n) i).1.toNat
  rw [e, luOf_chanDone, hx, potOf_setPot_same]
  refine ⟨?_, ?_⟩
  · refine (luOf_setLu_same (potOf (luShut s n i) n) i _).trans ?_
    rw [hl]
    rfl
  · show giveAnswer _ _ = _
    rw [hl, hruns]
    rfl

/-- What the end of an operation can change of its LU: the command, and its row. -/
theorem luOf_luFinish (s : State) (n : PotIx) (i : Nat) : ∃ cmd done row closing,
    luOf (potOf (luFinish s n i) n) i = { luOf (potOf s n) i with cmd := cmd, done := done, openRow := row, closing := closing } := by
  obtain ⟨k, hl⟩ := luOf_luShut s n i
  simp only [luFinish_eq, luEnd]
  split
  · exact ⟨_, _, _, _, hl⟩
  · split
    · refine ⟨none, false, none, false, ?_⟩
      split
      · rw [luOf_chanDone, potOf_setPot_same]
        refine (luOf_setLu_same (potOf (luShut s n i) n) i _).trans ?_
        rw [hl]
        rfl
      · rw [luOf_chanDone]
        split
        · rw [potOf_shadowFault, potOf_setPot_same, luOf_setLu_same, hl]
          rfl
        · rw [potOf_setPot_same, luOf_setLu_same, hl]
          rfl
    · exact ⟨_, _, _, _, hl⟩

/-- The LU that a fault has stopped. -/
def luStopped (l : Lu) (cause : Nat) : Lu :=
  { l with
    done := true, fault := true, cause := BitVec.ofNat 4 cause, endFault := some (BitVec.ofNat 4 cause), dead := l.dead || cause == 8 }

/-- A fault in a state where the LU has stopped and its record is sent. -/
def luReported (s : State) (n : PotIx) (i cause addr : Nat) : State :=
  let l := luOf (potOf s n) i
  let s1 := sendFault (setPot s n (setLu (potOf s n) i (luStopped l cause)))
    { status := statusCode (luCauseStatus cause), tag := l.tag, infusion := l.infusion,
      island := potIsland n (dieUnit (luDie i)), block := 2, cause := cause, addr := addr,
      detail := i + l.upc.toNat % 512 * 2 ^ 16, detail2 := 0 }
  if cause = 9 then s1 else markFailing s1 l.infusion

theorem luFault_eq (s : State) (n : PotIx) (i cause addr : Nat) :
    luFault s n i cause addr = luFinish (luReported s n i cause addr) n i := rfl

theorem potOf_luReported (s : State) (n : PotIx) (i cause addr : Nat) :
    potOf (luReported s n i cause addr) n = setLu (potOf s n) i (luStopped (luOf (potOf s n) i) cause) := by
  unfold luReported
  dsimp only
  split
  · rw [potOf_sendFault, potOf_setPot_same]
  · rw [(onlyInf_markFailing ..).potOf_eq, potOf_sendFault, potOf_setPot_same]

theorem luOf_luReported (s : State) (n : PotIx) (i cause addr : Nat) :
    luOf (potOf (luReported s n i cause addr) n) i = luStopped (luOf (potOf s n) i) cause := by
  rw [potOf_luReported, luOf_setLu_same]

/-- A fault leaves the LU stopped with its cause. -/
theorem luOf_luFault (s : State) (n : PotIx) (i cause addr : Nat) : ∃ cmd done row closing,
    luOf (potOf (luFault s n i cause addr) n) i =
      { luStopped (luOf (potOf s n) i) cause with cmd := cmd, done := done, openRow := row, closing := closing } := by
  obtain ⟨cmd, done, row, closing, h⟩ := luOf_luFinish (luReported s n i cause addr) n i
  exact ⟨cmd, done, row, closing, by rw [luFault_eq, h, luOf_luReported]⟩

/-! ### The operations without a column access (R142, R151 to R158, R163 to R169) -/

section Work
variable {c : PotIx → LuIx → Instr} {code : Nat} {may : Lu → Word64 → Prop} {f : Pot → Nat → Word64 → BitVec 256 → Lu → Lu}
  {eff : PotIx → LuIx → Word64 → BitVec 256 → State → LuIssue}

/-- An operation of which each issue makes `f` of the LU. -/
theorem luWorks_of (hexec : ∀ n i s, exec (c n i) s = luOp n i code (eff n i) s)
    (heff : ∀ s n (i : LuIx) u raw, may (luOf (potOf s n) i.toNat) u → ∃ ev,
      eff n i u raw s = .go (putLu s n i.toNat (f (potOf s n) i.toNat u raw (luOf (potOf s n) i.toNat)) ev) true)
    (hrun : ∀ p i u raw l, (f p i u raw l).done = l.done ∧ (f p i u raw l).closing = l.closing) : luWorks c code may f := by
  intro s n i u raw h hseq hmay
  obtain ⟨ev, hgo⟩ := heff s n i u raw hmay
  obtain ⟨hdone, hclosing⟩ := hrun (potOf s n) i.toNat u raw (luOf (potOf s n) i.toNat)
  exact luOp_local ev (hexec n i s) h hseq hgo hdone hclosing

/-- An operation of which each issue finds nothing to do. -/
theorem luWorks_idle (hexec : ∀ n i s, exec (c n i) s = luOp n i code (eff n i) s)
    (heff : ∀ s n (i : LuIx) u raw, may (luOf (potOf s n) i.toNat) u → eff n i u raw s = .go s true) :
    luWorks c code may fun _ _ _ _ l => l := by
  intro s n i u raw h hseq hmay
  exact luOp_idle (hexec n i s) h hseq (heff s n i u raw hmay)

end Work

theorem luWorks_luNop : luWorks .luNop 0 (fun _ _ => True) (fun _ _ _ _ l => l) :=
  luWorks_of (fun _ _ _ => rfl) (fun _ _ _ _ _ _ => ⟨.zero, rfl⟩) fun _ _ _ _ _ => ⟨rfl, rfl⟩

theorem luWorks_movl : luWorks .movl 0x10
    (fun l u => latchPending l (uLa u + l.rep) = false ∧ latchPending l (uLd u + l.rep) = false)
    (fun _ _ u _ l => setLatch l (uLd u + l.rep) (latchOf l (uLa u + l.rep))) :=
  luWorks_of (fun n i s => (rfl : execMovl n i s = _)) (fun s n i u raw h => ⟨.zero, by simp [h.1, h.2, luLocal]⟩)
    fun _ _ _ _ _ => ⟨rfl, rfl⟩

theorem luWorks_zl : luWorks .zl 0x11 (fun l u => latchPending l (uLd u + l.rep) = false)
    (fun _ _ u _ l => setLatch l (uLd u + l.rep) ⟨0, false⟩) :=
  luWorks_of (fun n i s => (rfl : execZl n i s = _)) (fun s n i u raw h => ⟨.zero, by simp [h, luLocal, Latch.reset]⟩)
    fun _ _ _ _ _ => ⟨rfl, rfl⟩

theorem luWorks_ldq : luWorks .ldq 0x12 (fun l u => latchPending l (uLd u + l.rep) = false)
    (fun p i u _ l => setLatch l (uLd u + l.rep) (opndQ (luSlotOf p i (l.cmd.any LeafCmd.slot)) (uHalf u) (uOpw u + l.rep))) :=
  luWorks_of (fun n i s => (rfl : execLdq n i s = _)) (fun s n i u raw h => ⟨.zero, by simp [h, luLocal]⟩)
    fun _ _ _ _ _ => ⟨rfl, rfl⟩

/-- The interlock of a word that combines two latches (R147). -/
def latchOpMay (l : Lu) (u : Word64) : Prop :=
  latchPending l (uLa u + l.rep) = false ∧ latchPending l (uLb u + l.rep) = false ∧ latchPending l (uLd u + l.rep) = false ∧
    (uRnd u == 1 && lfsrPending l) = false

/-- What a word that combines two latches makes of the LU, and its events. -/
def latchOpResult (op : FV → FV → FV) (l : Lu) (u : Word64) : Lu × NumEv :=
  latchResult l u (uLd u + l.rep) (laneOps op l u) ((latchOf l (uLa u + l.rep)).poison || (latchOf l (uLb u + l.rep)).poison)

theorem latchOp_issues {s : State} {n : PotIx} {i : Nat} {u : Word64} (bad : Bool) (op : FV → FV → FV)
    (h : latchOpMay (luOf (potOf s n) i) u) : latchOp n i bad op u s =
      if bad then .fault 8 0
      else .go (putLu s n i (latchOpResult op (luOf (potOf s n) i) u).1 (latchOpResult op (luOf (potOf s n) i) u).2) true := by
  obtain ⟨ha, hb, hd, hr⟩ := h
  simp only [latchOp, ha, hb, hd, hr, Bool.or_false, Bool.false_eq_true, if_false]
  rfl

theorem luWorks_addl : luWorks (fun n i => .addl n i false) 0x13 latchOpMay (fun _ _ u _ l => (latchOpResult fvAdd l u).1) :=
  luWorks_of (fun n i s => (rfl : execAddl n i false s = _)) (fun _ _ _ _ _ h => ⟨_, latchOp_issues false fvAdd h⟩)
    fun _ _ _ _ _ => ⟨rfl, rfl⟩

theorem luWorks_mull : luWorks (fun n i => .mull n i false) 0x14 latchOpMay (fun _ _ u _ l => (latchOpResult fvMul l u).1) :=
  luWorks_of (fun n i s => (rfl : execMull n i false s = _)) (fun _ _ _ _ _ h => ⟨_, latchOp_issues false fvMul h⟩)
    fun _ _ _ _ _ => ⟨rfl, rfl⟩

/-- What a word with a set changes leaves the command and the row alone. -/
theorem setLuAcc_runs (l : Lu) (k : Bool) (a : LuAcc) : (setLuAcc l k a).done = l.done ∧ (setLuAcc l k a).closing = l.closing := by
  cases k <;> exact ⟨rfl, rfl⟩

theorem setLuSc_runs (l : Lu) (k : Bool) (x : Score) : (setLuSc l k x).done = l.done ∧ (setLuSc l k x).closing = l.closing := by
  cases k <;> exact ⟨rfl, rfl⟩

/-- The interlock of MACL, with the type of its set (R142, R147). -/
def maclMay (l : Lu) (u : Word64) : Prop :=
  accPending l (uAcc u) = false ∧ latchPending l (uLa u + l.rep) = false ∧ latchPending l (uLb u + l.rep) = false ∧
    ((luAccOf l (uAcc u)).touched = true → (luAccOf l (uAcc u)).intMode = fmtIsInt (uFmt u))

theorem setMode_sound {a : LuAcc} {m : Bool} (h : a.touched = true → a.intMode = m) : (a.touched && a.intMode != m) = false := by
  cases ht : a.touched
  · rfl
  · simp [h ht]

/-- The set that MACL leaves, and its events. -/
def maclResult (l : Lu) (u : Word64) : LuAcc × NumEv :=
  accumulate (luAccOf l (uAcc u)) (fmtIsInt (uFmt u)) (uSat u) (l.rep * (256 / elemBits (uFmt u)))
    ((laneOps fvMul l u).map fun x => UElem.mk x.1 x.2)
    ((latchOf l (uLa u + l.rep)).poison || (latchOf l (uLb u + l.rep)).poison) none

/-- MACL as one issue: a residue that disagrees, or its sum. -/
def maclIssue (n : PotIx) (i : Nat) (bad : Bool) (u : Word64) (s : State) : LuIssue :=
  let l := luOf (potOf s n) i
  if accPending l (uAcc u) || latchPending l (uLa u + l.rep) || latchPending l (uLb u + l.rep) then .wait
  else if (luAccOf l (uAcc u)).touched && (luAccOf l (uAcc u)).intMode != fmtIsInt (uFmt u) then .fault 1 0
  else if bad then .fault 8 0
  else .go (putLu s n i (luEvents (setLuAcc l (uAcc u) (maclResult l u).1) (maclResult l u).2) (maclResult l u).2) true

theorem execMacl_eq (n : PotIx) (i : LuIx) (bad : Bool) (s : State) :
    execMacl n i bad s = luOp n i 0x15 (fun u _ t => maclIssue n i.toNat bad u t) s := by
  simp only [execMacl, maclIssue, maclResult, laneOps, List.map_map]
  rfl

theorem maclIssue_issues {s : State} {n : PotIx} {i : Nat} {u : Word64} (bad : Bool) (h : maclMay (luOf (potOf s n) i) u) :
    maclIssue n i bad u s =
      if bad then .fault 8 0
      else .go (putLu s n i (luEvents (setLuAcc (luOf (potOf s n) i) (uAcc u) (maclResult (luOf (potOf s n) i) u).1)
        (maclResult (luOf (potOf s n) i) u).2) (maclResult (luOf (potOf s n) i) u).2) true := by
  obtain ⟨hacc, ha, hb, hmode⟩ := h
  simp only [maclIssue, hacc, ha, hb, setMode_sound hmode, Bool.or_false, Bool.false_eq_true, if_false]

theorem luWorks_macl : luWorks (fun n i => .macl n i false) 0x15 maclMay
    (fun _ _ u _ l => luEvents (setLuAcc l (uAcc u) (maclResult l u).1) (maclResult l u).2) :=
  luWorks_of (fun n i s => execMacl_eq n i false s) (fun _ _ _ _ _ h => ⟨_, maclIssue_issues false h⟩) fun _ _ _ _ _ => setLuAcc_runs ..

theorem luWorks_za : luWorks .za 0x16 (fun l u => accPending l (uAcc u) = false)
    (fun _ _ u _ l => setLuAcc l (uAcc u) LuAcc.reset) :=
  luWorks_of (fun n i s => (rfl : execZa n i s = _)) (fun s n i u raw h => ⟨.zero, by simp [h, luLocal]⟩)
    fun _ _ _ _ _ => setLuAcc_runs ..

theorem setLuAcc_setLuSc_runs (l : Lu) (k : Bool) (x : Score) (a : LuAcc) :
    (setLuAcc (setLuSc l k x) k a).done = l.done ∧ (setLuAcc (setLuSc l k x) k a).closing = l.closing := by
  obtain ⟨hd, hc⟩ := setLuSc_runs l k x
  obtain ⟨kd, kc⟩ := setLuAcc_runs (setLuSc l k x) k a
  exact ⟨kd.trans hd, kc.trans hc⟩

theorem luWorks_tree_touched : luWorks .tree 0x20
    (fun l u => accPending l (uAcc u) = false ∧ (luAccOf l (uAcc u)).touched = true ∧
      (uFmt u = 13 → (luAccOf l (uAcc u)).intMode = true))
    (fun _ _ u _ l =>
      let a := luAccOf l (uAcc u)
      let r := treeOf (uSat u) a
      luEvents (setLuAcc (setLuSc l (uAcc u) ⟨r.1, a.origin.getD 0, true, a.poison⟩) (uAcc u) LuAcc.reset) r.2) := by
  refine luWorks_of (fun n i s => (rfl : execTree n i s = _)) (fun s n i u raw h => ?_) fun _ _ u _ l => ?_
  · obtain ⟨hacc, htouched, hint⟩ := h
    have hfmt : ¬ (uFmt u = 13 ∧ (!(luAccOf (luOf (potOf s n) i.toNat) (uAcc u)).intMode) = true) := fun ⟨h13, hm⟩ => by
      simp [hint h13] at hm
    refine ⟨(treeOf (uSat u) (luAccOf (luOf (potOf s n) i.toNat) (uAcc u))).2, ?_⟩
    simp only [hacc, htouched, hfmt, Bool.true_and, Bool.false_eq_true, if_false, if_true]
    rfl
  · exact setLuAcc_setLuSc_runs ..

theorem luWorks_tree_untouched : luWorks .tree 0x20
    (fun l u => accPending l (uAcc u) = false ∧ (luAccOf l (uAcc u)).touched = false ∧ uFmt u ≠ 13)
    (fun _ _ u _ l => setLuAcc (setLuSc l (uAcc u) ⟨0, 0, false, false⟩) (uAcc u) LuAcc.reset) := by
  refine luWorks_of (fun n i s => (rfl : execTree n i s = _)) (fun s n i u raw h => ?_) fun _ _ u _ l => ?_
  · obtain ⟨hacc, htouched, hfmt⟩ := h
    refine ⟨.zero, ?_⟩
    simp only [hacc, htouched, hfmt, false_and, Bool.false_eq_true, if_false, luLocal, luEvents_zero]
    rfl
  · exact setLuAcc_setLuSc_runs ..

theorem luWorks_tkins_insert : luWorks .tkins 0x21
    (fun l u => (luScOf l (uAcc u)).valid = true ∧ f32IsNan (luScOf l (uAcc u)).score = false)
    (fun _ _ u raw l => { l with
      tkPoison := l.tkPoison || (luScOf l (uAcc u)).poison,
      tk := (tkInsert ((luScOf l (uAcc u)).score, (luScOf l (uAcc u)).addr) l.tk).take (lcK raw) }) := by
  refine luWorks_of (fun n i s => (rfl : execTkins n i s = _)) (fun s n i u raw h => ⟨.zero, ?_⟩) fun _ _ _ _ _ => ⟨rfl, rfl⟩
  simp only [luLocal, tkTake, h.1, h.2, Bool.not_true, Bool.false_eq_true, if_false]

theorem luWorks_tkins_nan : luWorks .tkins 0x21
    (fun l u => (luScOf l (uAcc u)).valid = true ∧ f32IsNan (luScOf l (uAcc u)).score = true)
    (fun _ _ u _ l => luEvents { l with tkPoison := l.tkPoison || (luScOf l (uAcc u)).poison } ⟨1, 0⟩) := by
  refine luWorks_of (fun n i s => (rfl : execTkins n i s = _)) (fun s n i u raw h => ⟨⟨1, 0⟩, ?_⟩) fun _ _ _ _ _ => ⟨rfl, rfl⟩
  simp only [luLocal, tkTake, h.1, h.2, Bool.not_true, Bool.false_eq_true, if_false, if_true]

theorem luWorks_tkins_invalid : luWorks .tkins 0x21 (fun l u => (luScOf l (uAcc u)).valid = false) (fun _ _ _ _ l => l) := by
  refine luWorks_of (fun n i s => (rfl : execTkins n i s = _)) (fun s n i u raw h => ⟨.zero, ?_⟩) fun _ _ _ _ _ => ⟨rfl, rfl⟩
  simp only [luLocal, tkTake, h, Bool.not_false, if_true]

theorem luWorks_setlc : luWorks .setlc 0x24 (fun _ _ => True) (fun _ _ u _ l => { l with mlc := BitVec.ofNat 8 (uImm u) }) :=
  luWorks_of (fun n i s => (rfl : execSetlc n i s = _)) (fun _ _ _ _ _ _ => ⟨.zero, rfl⟩) fun _ _ _ _ _ => ⟨rfl, rfl⟩

theorem luWorks_cb : luWorks .cb 0x25 (fun _ _ => True) (fun _ _ u _ l => { l with cbase := BitVec.ofNat 6 (l.cbase.toNat + uImm u) }) := by
  refine luWorks_of (fun n i s => (rfl : execCb n i s = _)) (fun s n i u raw _ => ⟨.zero, ?_⟩) fun _ _ _ _ _ => ⟨rfl, rfl⟩
  simp only [luLocal, BitVec.ofNat_add, BitVec.ofNat_toNat, BitVec.setWidth_eq]

theorem ofNat_fieldN_low15 (x : BitVec 16) : BitVec.ofNat 16 (fieldN x 0 15) = x &&& 0x7FFF := by
  apply BitVec.eq_of_toNat_eq
  rw [BitVec.toNat_and, BitVec.toNat_ofNat]
  have hmask : (0x7FFF : BitVec 16).toNat = 2 ^ 15 - 1 := rfl
  rw [hmask, Nat.and_two_pow_sub_one_eq_mod]
  simp [fieldN]
  omega

theorem luWorks_setap : luWorks .setap 0x26 (fun l _ => apPending l = false)
    (fun _ _ _ _ l => { l with ap := { l.ap with row := l.auxr &&& 0x7FFF, col := 0, segment := false } }) := by
  refine luWorks_of (fun n i s => (rfl : execSetap n i s = _)) (fun s n i u raw h => ⟨.zero, ?_⟩) fun _ _ _ _ _ => ⟨rfl, rfl⟩
  simp only [h, luLocal, ofNat_fieldN_low15, Bool.false_eq_true, if_false]

/-! ### NXI, NXR and PUT (R154, R158, R169) -/

section Next
variable {s : State} {n : PotIx} {i : LuIx} {u : Word64} {raw : BitVec 256}

/-- The entry that NXI finds for the LU's bank (R169). -/
def nxiFinds (s : State) (n : PotIx) (i : LuIx) (u : Word64) : Option (Nat × Option (BitVec 64)) :=
  nxiSearch (luSlotOf (potOf s n) i.toNat ((luOf (potOf s n) i.toNat).cmd.any LeafCmd.slot))
    (luSeat (potOf s n) i.toNat).2.toNat (if uHalf u = 1 then 256 else 512) 513 (luOf (potOf s n) i.toNat).icnt

theorem nxi_found {k : Nat} {e : BitVec 64} (h : luIssues s n i 0x22 u raw) (hseq : uSeq u ≠ 3)
    (hfind : nxiFinds s n i u = some (k, some e)) :
    runsTo (.nxi n i) s fun t =>
      onlyLuEvents n i u s t ∧
      luOf (potOf t n) i.toNat = luNext { luOf (potOf s n) i.toNat with
        rowr := fieldB e 0 15, cbase := fieldB e 15 6, s1 := fieldB e 32 32, icnt := k + 1 } u raw true := by
  rw [nxiFinds] at hfind
  refine luOp_local .zero (rfl : execNxi n i s = _) h hseq ?_ rfl rfl
  simp only [hfind, luLocal]

theorem nxi_none (h : luIssues s n i 0x22 u raw) (hseq : uSeq u ≠ 3) (hfind : nxiFinds s n i u = none) :
    runsTo (.nxi n i) s fun t =>
      onlyLuEvents n i u s t ∧ luOf (potOf t n) i.toNat = luNext (luOf (potOf s n) i.toNat) u raw false := by
  rw [nxiFinds] at hfind
  refine luOp_idle (rfl : execNxi n i s = _) h hseq ?_
  simp only [hfind]

theorem nxr_advances (h : luIssues s n i 0x23 u raw) (hseq : uSeq u ≠ 3) :
    runsTo (.nxr n i) s fun t =>
      onlyLuEvents n i u s t ∧
      luOf (potOf t n) i.toNat = luNext
        { luOf (potOf s n) i.toNat with rowr := (luOf (potOf s n) i.toNat).rowr + 1, cbase := 0 } u raw
        (decide ((luOf (potOf s n) i.toNat).rowr.toNat + 1 ≤ (lcRowLast raw).toNat)) :=
  luOp_local .zero (rfl : execNxr n i s = _) h hseq rfl rfl rfl

theorem put_vector (h : luIssues s n i 0x27 u raw) (hseq : uSeq u ≠ 3) (hemit : uEmit u = true) (hkind : fieldN u 49 2 = 0)
    (hred : lcRed raw = 1) (hacc : accPending (luOf (potOf s n) i.toNat) (uAcc u) = false) :
    runsTo (.put n i) s fun t =>
      onlyLuEvents n i u s t ∧
      luOf (potOf t n) i.toNat = luNext (setLuAcc (luEmit (luOf (potOf s n) i.toNat) raw
        (putVector (luAccOf (luOf (potOf s n) i.toNat) (uAcc u))) (luAccOf (luOf (potOf s n) i.toNat) (uAcc u)).poison)
        (uAcc u) LuAcc.reset) u raw true := by
  obtain ⟨hdone, hclosing⟩ := setLuAcc_runs (luEmit (luOf (potOf s n) i.toNat) raw
    (putVector (luAccOf (luOf (potOf s n) i.toNat) (uAcc u))) (luAccOf (luOf (potOf s n) i.toNat) (uAcc u)).poison) (uAcc u) LuAcc.reset
  refine luOp_local .zero (rfl : execPut n i s = _) h hseq ?_ hdone hclosing
  simp only [hemit, hkind, hred, hacc, luLocal, Bool.not_true, Bool.false_eq_true, if_false, ne_eq, not_true_eq_false]

theorem put_score (h : luIssues s n i 0x27 u raw) (hseq : uSeq u ≠ 3) (hemit : uEmit u = true) (hkind : fieldN u 49 2 = 1)
    (hred : lcRed raw = 2 ∨ lcRed raw = 3) (hvalid : (luScOf (luOf (potOf s n) i.toNat) (uAcc u)).valid = true) :
    runsTo (.put n i) s fun t =>
      onlyLuEvents n i u s t ∧
      luOf (potOf t n) i.toNat = luNext (setLuSc (luEmit (luOf (potOf s n) i.toNat) raw
        (.scalar (luScOf (luOf (potOf s n) i.toNat) (uAcc u)).score) (luScOf (luOf (potOf s n) i.toNat) (uAcc u)).poison)
        (uAcc u) ⟨0, 0, false, false⟩) u raw true := by
  obtain ⟨hdone, hclosing⟩ := setLuSc_runs (luEmit (luOf (potOf s n) i.toNat) raw
    (.scalar (luScOf (luOf (potOf s n) i.toNat) (uAcc u)).score) (luScOf (luOf (potOf s n) i.toNat) (uAcc u)).poison)
    (uAcc u) ⟨0, 0, false, false⟩
  have hmatch : ¬ (lcRed raw ≠ 2 ∧ lcRed raw ≠ 3) := by omega
  refine luOp_local .zero (rfl : execPut n i s = _) h hseq ?_ hdone hclosing
  simp only [hemit, hkind, hmatch, hvalid, luLocal, Bool.not_true, Bool.false_eq_true, if_false]
  rfl

theorem put_count (h : luIssues s n i 0x27 u raw) (hseq : uSeq u ≠ 3) (hemit : uEmit u = true) (hkind : fieldN u 49 2 = 2)
    (hred : lcRed raw = 4) (hcnt : cntPending (luOf (potOf s n) i.toNat) = false) :
    runsTo (.put n i) s fun t =>
      onlyLuEvents n i u s t ∧
      luOf (potOf t n) i.toNat = luNext { luEmit (luOf (potOf s n) i.toNat) raw (.count (luOf (potOf s n) i.toNat).cnt)
        (luOf (potOf s n) i.toNat).cntPoison with cnt := 0, cntPoison := false } u raw true := by
  refine luOp_local .zero (rfl : execPut n i s = _) h hseq ?_ rfl rfl
  simp only [hemit, hkind, hred, hcnt, luLocal, Bool.not_true, Bool.false_eq_true, if_false, ne_eq, not_true_eq_false]

theorem put_topk (h : luIssues s n i 0x27 u raw) (hseq : uSeq u ≠ 3) (hemit : uEmit u = true) (hkind : fieldN u 49 2 = 3)
    (hred : lcRed raw = 5) :
    runsTo (.put n i) s fun t =>
      onlyLuEvents n i u s t ∧
      luOf (potOf t n) i.toNat = luNext { luEmit (luOf (potOf s n) i.toNat) raw (.topk (luOf (potOf s n) i.toNat).tk)
        (luOf (potOf s n) i.toNat).tkPoison with tk := [], tkPoison := false } u raw true := by
  refine luOp_local .zero (rfl : execPut n i s = _) h hseq ?_ rfl rfl
  simp only [hemit, hkind, hred, luLocal, Bool.not_true, Bool.false_eq_true, if_false, ne_eq, not_true_eq_false]

end Next

theorem luWorks_put_idle : luWorks .put 0x27
    (fun l u => uEmit u = false ∨ fieldN u 49 2 = 1 ∧ (luScOf l (uAcc u)).valid = false) (fun _ _ _ _ l => l) := by
  refine luWorks_idle (fun n i s => (rfl : execPut n i s = _)) fun s n i u raw hmay => ?_
  obtain hemit | ⟨hkind, hvalid⟩ := hmay
  · simp only [hemit, Bool.not_false, if_true]
  · cases hemit : uEmit u
    · simp only [Bool.not_false, if_true]
    · simp only [hkind, hvalid, Bool.not_true, Bool.not_false, Bool.false_eq_true, if_false, if_true]

/-! ### A word that ends its command, and a residue that disagrees (R159, R161) -/

section End
variable {s : State} {n : PotIx} {i : LuIx} {u : Word64} {raw : BitVec 256}

theorem sameBytes_chanDone (s : State) (n : PotIx) (g : Nat) : sameBytes s (chanDone s n g) := by
  unfold chanDone
  split
  · exact .refl s
  · exact sameBytes_updPot ..

theorem sameBytes_luClose (s : State) (n : PotIx) (i : LuIx) : sameBytes s (luClose s n i.toNat) := (onlyLuRow_luClose s n i).sameBytes

theorem sameBytes_luShut (s : State) (n : PotIx) (i : LuIx) : sameBytes s (luShut s n i.toNat) := by
  unfold luShut
  dsimp only
  split
  · exact (onlyLuRow_luPrecharge ..).sameBytes
  · exact sameBytes_luClose ..

theorem sameBytes_sendFault (s : State) (f : FaultInfo) : sameBytes s (sendFault s f) :=
  sameBytes_of_stores (sendFault_dram ..) (sendFault_tray ..) (sendFault_trayMeta ..)

theorem sameBytes_shadowFault (s : State) (n : PotIx) (i : Nat) (primary : PotIx) (pi : LuIx) :
    sameBytes s (shadowFault s n i primary pi) := by
  unfold shadowFault
  dsimp only
  split_ifs
  · exact .refl s
  · exact sameBytes_of_stores (sendFault_dram ..) (sendFault_tray ..) (sendFault_trayMeta ..)
  · exact .refl s

/-- The end of an operation changes no byte of memory. -/
theorem sameBytes_luFinish (s : State) (n : PotIx) (i : LuIx) : sameBytes s (luFinish s n i.toNat) := by
  have hshut := sameBytes_luShut s n i
  simp only [luFinish_eq, luEnd]
  split
  · exact hshut
  · split
    · split
      · exact hshut.trans ((sameBytes_setPot ..).trans (sameBytes_chanDone ..))
      · refine hshut.trans (.trans ?_ (sameBytes_chanDone ..))
        split
        · exact (sameBytes_setPot ..).trans (sameBytes_shadowFault ..)
        · exact sameBytes_setPot ..
    · exact hshut

/-- After a word's last repeat. -/
theorem luStep_last {obey : Bool} (h : ¬ (luOf (potOf s n) i.toNat).rep + 1 < luRepeats u raw) :
    luStep s n i.toNat u raw obey =
      luFinish (setPot s n (setLu (potOf s n) i.toNat (luMoved (luOf (potOf s n) i.toNat) u raw obey))) n i.toNat := by
  simp only [luStep, luMoved, h, if_false]

/-- The LU past the last repeat of a word with SEQ 3. -/
theorem luMoved_ends {l : Lu} (hlast : ¬ l.rep + 1 < luRepeats u raw) (hseq : uSeq u = 3) : luMoved l u raw true =
    { l with
      rep := 0, openRow := if uPre u then none else l.openRow, closing := l.closing || (uPre u && l.openRow.isSome), done := true } := by
  simp only [luMoved, hlast, if_false, luAdvance, hseq, Bool.not_true, Bool.false_eq_true]

/-- After the last repeat of a word with SEQ 3, with nothing pending, the command has answered and the LU is free. -/
theorem luStep_ends {c : LeafCmd} (hcmd : (luOf (potOf s n) i.toNat).cmd = some c) (hprimary : c.shadow = none)
    (hq : (luOf (potOf s n) i.toNat).colq = []) (hlast : ¬ (luOf (potOf s n) i.toNat).rep + 1 < luRepeats u raw) (hseq : uSeq u = 3) :
    (luOf (potOf (luStep s n i.toNat u raw true) n) i.toNat).cmd = none ∧
      (luOf (potOf (luStep s n i.toNat u raw true) n) i.toNat).openRow = none ∧
      (potOf (luStep s n i.toNat u raw true) n).runs = giveAnswer (luAnswer i.toNat (luOf (potOf s n) i.toNat)) (potOf s n).runs ∧
      sameBytes s (luStep s n i.toNat u raw true) := by
  have hx := luMoved_ends (raw := raw) hlast hseq
  have hlu := luOf_setLu_same (potOf s n) i.toNat (luMoved (luOf (potOf s n) i.toNat) u raw true)
  rw [← potOf_setPot_same s n (setLu (potOf s n) i.toNat (luMoved (luOf (potOf s n) i.toNat) u raw true))] at hlu
  obtain ⟨hfree, hanswer⟩ := luFinish_ends (c := c) (by rw [hlu, hx]; exact hcmd) (by rw [hlu, hx]) (by rw [hlu, hx]; exact hq) hprimary
  rw [luStep_last hlast, hfree, hanswer, hlu, potOf_setPot_same]
  refine ⟨rfl, rfl, ?_, (sameBytes_setPot ..).trans (sameBytes_luFinish ..)⟩
  rw [hx]
  rfl

/-- A NOP with SEQ 3 on an LU with nothing pending ends the command. -/
theorem luNop_ends (h : luIssues s n i 0 u raw) (hseq : uSeq u = 3) (hlast : (luOf (potOf s n) i.toNat).rep + 1 = luRepeats u raw)
    (hq : (luOf (potOf s n) i.toNat).colq = []) (hprimary : ∀ c, (luOf (potOf s n) i.toNat).cmd = some c → c.shadow = none) :
    runsTo (.luNop n i) s fun t =>
      (luOf (potOf t n) i.toNat).cmd = none ∧ (luOf (potOf t n) i.toNat).openRow = none ∧
      (potOf t n).runs = giveAnswer (luAnswer i.toNat (luOf (potOf s n) i.toNat)) (potOf s n).runs ∧ sameBytes s t := by
  obtain ⟨c, hc, -⟩ := h.command
  have hl := luOf_putLu s n i.toNat (luOf (potOf s n) i.toNat) .zero
  have hruns : (potOf (putLu s n i.toNat (luOf (potOf s n) i.toNat) .zero) n).runs = (potOf s n).runs := by
    rw [putLu, potOf_updPot_same]
    rfl
  obtain ⟨hcmd, hrow, hanswer, hbytes⟩ := luStep_ends (u := u) (raw := raw) (by rw [hl]; exact hc) (hprimary c hc)
    (by rw [hl]; exact hq) (by rw [hl]; omega) hseq
  rw [hl, hruns] at hanswer
  exact ⟨_, (rfl : execLuNop n i s = _).trans (luOp_issues h _), hcmd, hrow, hanswer, (sameBytes_updPot ..).trans hbytes⟩

/-- A fault with cause HW leaves the LU DEAD. -/
theorem runsTo_luFault_hw {c : Instr} {code : Nat} {eff : Word64 → BitVec 256 → State → LuIssue}
    (hexec : exec c s = luOp n i code eff s) (h : luIssues s n i code u raw) (heff : eff u raw s = .fault 8 0) :
    runsTo c s fun t =>
      (luOf (potOf t n) i.toNat).fault = true ∧ (luOf (potOf t n) i.toNat).cause = 8 ∧ (luOf (potOf t n) i.toNat).dead = true := by
  refine ⟨_, hexec.trans (luOp_issues h eff), ?_⟩
  obtain ⟨cmd, done, row, closing, hl⟩ := luOf_luFault s n i.toNat 8 0
  rw [heff, luIssued, hl]
  exact ⟨rfl, rfl, by simp [luStopped]⟩

theorem residue_stops (ha : latchPending (luOf (potOf s n) i.toNat) (uLa u + (luOf (potOf s n) i.toNat).rep) = false)
    (hb : latchPending (luOf (potOf s n) i.toNat) (uLb u + (luOf (potOf s n) i.toNat).rep) = false) :
    let l := luOf (potOf s n) i.toNat
    let stops := fun (c : Instr) => runsTo c s fun t =>
      (luOf (potOf t n) i.toNat).fault = true ∧ (luOf (potOf t n) i.toNat).cause = 8 ∧ (luOf (potOf t n) i.toNat).dead = true
    (latchPending l (uLd u + l.rep) = false → (uRnd u == 1 && lfsrPending l) = false →
      (luIssues s n i 0x13 u raw → stops (.addl n i true)) ∧ (luIssues s n i 0x14 u raw → stops (.mull n i true))) ∧
    (accPending l (uAcc u) = false → ((luAccOf l (uAcc u)).touched = true → (luAccOf l (uAcc u)).intMode = fmtIsInt (uFmt u)) →
      luIssues s n i 0x15 u raw → stops (.macl n i true)) := by
  refine ⟨fun hd hr => ⟨fun h => ?_, fun h => ?_⟩, fun hacc hmode h => ?_⟩
  · exact runsTo_luFault_hw (rfl : execAddl n i true s = _) h (latchOp_issues true fvAdd ⟨ha, hb, hd, hr⟩)
  · exact runsTo_luFault_hw (rfl : execMull n i true s = _) h (latchOp_issues true fvMul ⟨ha, hb, hd, hr⟩)
  · exact runsTo_luFault_hw (execMacl_eq n i true s) h (maclIssue_issues true ⟨hacc, ha, hb, hmode⟩)

end End

/-- Settles O40: an operation is one issue of its microword (`luOp_issues`), which puts the LU back with its events (`luOp_local`)
and moves it past the repeat (`luOf_luStep`); SEQ 3 ends the command (`luStep_ends`), a residue stops it (`luOf_luFault`). -/
theorem leafLocalOperations : Obligations.LeafLocalOperations :=
  ⟨luWorks_luNop, luWorks_movl, luWorks_zl, luWorks_ldq, ⟨luWorks_addl, luWorks_mull⟩, luWorks_macl, luWorks_za,
    ⟨luWorks_tree_touched, luWorks_tree_untouched⟩, ⟨luWorks_tkins_insert, luWorks_tkins_nan, luWorks_tkins_invalid⟩,
    fun _ _ _ _ _ _ _ h hseq hfind => nxi_found h hseq hfind, fun _ _ _ _ _ h hseq hfind => nxi_none h hseq hfind,
    fun _ _ _ _ _ h hseq => nxr_advances h hseq, luWorks_setlc, luWorks_cb, luWorks_setap,
    ⟨luWorks_put_idle, fun _ _ _ _ _ h hseq hemit =>
      ⟨put_vector h hseq hemit, put_score h hseq hemit, put_count h hseq hemit, put_topk h hseq hemit⟩⟩,
    fun _ _ _ _ _ h hseq hlast hq hprimary => luNop_ends h hseq hlast hq hprimary, fun _ _ _ _ _ ha hb => residue_stops ha hb⟩

end Sys2Proof.Machine

namespace Sys2Proof.Machine

/-!
PROOFS. Leaf units: the issue of a column operation (R147 to R150, R155) and the accesses of the column queue (R147, R151, R161).
-/

/-! ### The row of an LU in its bank (R149, R195) -/

theorem physRow_congr {p q : Pot} (h : q.pat = p.pat) (die pb : Nat) (row : BitVec 15) : physRow q die pb row = physRow p die pb row := by
  have hmap : rowMapOf q die pb = rowMapOf p die pb := funext fun k => by rw [rowMapOf, rowMapOf, h]
  rw [physRow, physRow, hmap]

theorem placeRow_congr {p q : Pot} (h : q.pat = p.pat) (pl : Place) : placeRow q pl = placeRow p pl := by
  have hbank : physBank q pl.group pl.bank = physBank p pl.group pl.bank := by rw [physBank, physBank, bankMapOf, bankMapOf, h]
  simp only [placeRow, hbank, physRow_congr h]

theorem luPlace_congr {s t : State} {n : PotIx} (h : (potOf t n).pat = (potOf s n).pat) (i row : Nat) :
    luPlace t n i row = luPlace s n i row := by
  simp only [luPlace, luWordPlace, luSeat_congr (congrArg Pat.bankmap h)]

theorem tagSound_congr {s t : State} {n : PotIx} {i row : Nat} (hpat : (potOf t n).pat = (potOf s n).pat) (hdram : t.dram = s.dram)
    (h : tagSound s n i row) : tagSound t n i row := by
  intro ix hix
  rw [placeRow_congr hpat, luPlace_congr hpat] at hix
  simpa only [rowMask, hdram] using h ix hix

theorem pat_updSched (s : State) (n : PotIx) (g : GroupIx) (f : Sched → Sched) : (potOf (updSched s n g f) n).pat = (potOf s n).pat := by
  rw [updSched, potOf_updPot_same]
  rfl

theorem noteActivate_sound (s : State) (pl : Place) (w : Who) : noteActivate s pl w false = s := by
  simp [noteActivate]

/-- The row is open in the LU's bank, and but for that bank nothing has changed. -/
def rowOpens (n : PotIx) (i : LuIx) (row : Nat) (s t : State) : Prop :=
  onlyLuRow n i s t ∧ luOf (potOf t n) i.toNat = luOf (potOf s n) i.toNat ∧ (luBank t n i.toNat).openRow = some (BitVec.ofNat 15 row)

theorem luBank_updSched (s : State) (n : PotIx) (i : Nat) (f : Sched → Sched) :
    luBank (updSched s n (luSeat (potOf s n) i).1 f) n i =
      bankOf (f (schedOf (potOf s n) (luSeat (potOf s n) i).1.toNat)) (luSeat (potOf s n) i).2.toNat := by
  have hseat : luSeat (potOf (updSched s n (luSeat (potOf s n) i).1 f) n) i = luSeat (potOf s n) i := by
    rw [updSched, potOf_updPot_same]
    rfl
  simp only [luBank, luPlace, luWordPlace, hseat]
  rw [updSched, potOf_updPot_same, schedOf_setSched_same]

/-- A change at the LU's scheduler that opens the row in its bank. -/
theorem rowOpens_updSched {n : PotIx} {i : LuIx} {row : Nat} {s : State} {f : Sched → Sched}
    (hother : ∀ c b, b ≠ (luSeat (potOf s n) i.toNat).2.toNat → bankOf (f c) b = bankOf c b)
    (hrow : (bankOf (f (schedOf (potOf s n) (luSeat (potOf s n) i.toNat).1.toNat)) (luSeat (potOf s n) i.toNat).2.toNat).openRow =
      some (BitVec.ofNat 15 row)) :
    rowOpens n i row s (updSched s n (luSeat (potOf s n) i.toNat).1 f) :=
  ⟨onlyLuRow_updSched n i s f hother, luOf_updSched .., by rw [luBank_updSched]; exact hrow⟩

theorem rowOpens.after {n : PotIx} {i : LuIx} {row : Nat} {s t v : State} (h : onlyLuRow n i s t)
    (hl : luOf (potOf t n) i.toNat = luOf (potOf s n) i.toNat) (k : rowOpens n i row t v) : rowOpens n i row s v := by
  obtain ⟨konly, kl, krow⟩ := k
  exact ⟨h.trans konly, kl.trans hl, krow⟩

/-- Counters of performance may change besides. -/
theorem rowOpens.counted {n : PotIx} {i : LuIx} {row : Nat} {s t : State} (h : rowOpens n i row s t) (pmc : Pot → SMap (BitVec 48)) :
    rowOpens n i row s (updPot t n fun p => { p with cup := { p.cup with pmc := pmc p } }) := by
  obtain ⟨honly, hl, hrow⟩ := h
  have hp := potOf_updPot_same t n fun p => { p with cup := { p.cup with pmc := pmc p } }
  refine ⟨honly.trans ⟨onlyPot_updPot .., ?_⟩, ?_, ?_⟩
  · rw [hp]
    exact ⟨rfl, fun _ _ => rfl, fun _ _ => rfl, fun _ _ => rfl⟩
  · rw [hp]
    exact hl
  · rw [luBank, luPlace, hp]
    exact hrow

/-- A bank after the LU's activate of a row whose tag segment can be read. -/
def bankOpened (t : BksTiming) (row : BitVec 15) (cycle : Nat) (k : Bank) : Bank :=
  { k with openRow := some row, latchBad := false, lastAct := cycle, acted := true, trcd := t.trcd, trc := t.trc, luRow := some row }

def actRow (t : BksTiming) (b : Nat) (row : BitVec 15) (half : Nat) (restore : Bool) (c : Sched) : Sched :=
  let c1 := updBank c b (bankOpened t row c.cycle)
  { c1 with acts := (half :: c1.acts).take 4, events := satField c1.events 40 16 restore.toNat }

theorem actBank_sound {s : State} {n : PotIx} {i row : Nat} (h : tagSound s n i row) (w : Who) (half : Nat) (restore : Bool) :
    actBank s (luPlace s n i row) w half true restore =
      updPot (updSched s n (luSeat (potOf s n) i).1
        (actRow (bksTiming s n (luSeat (potOf s n) i).1) (luSeat (potOf s n) i).2.toNat (BitVec.ofNat 15 row) half restore)) n
        fun p => pmcAdd (pmcAdd p 2 1) 4 restore.toNat := by
  have hplace : placeRow (potOf s (luPlace s n i row).pot) (luPlace s n i row) = placeRow (potOf s n) (luPlace s n i row) := rfl
  unfold actBank
  cases hix : placeRow (potOf s n) (luPlace s n i row) with
  | none =>
    simp only [hplace, hix, noteActivate_sound]
    rfl
  | some ix =>
    simp only [hplace, hix, h ix hix, noteActivate_sound]
    rfl

theorem bankOf_actRow_other (t : BksTiming) {b k : Nat} (row : BitVec 15) (half : Nat) (restore : Bool) (c : Sched) (h : k ≠ b) :
    bankOf (actRow t b row half restore c) k = bankOf c k :=
  bankOf_updBank_other c (bankOpened t row c.cycle) h

theorem bankOf_actRow_same (t : BksTiming) (b : Nat) (row : BitVec 15) (half : Nat) (restore : Bool) (c : Sched) :
    bankOf (actRow t b row half restore c) b = bankOpened t row c.cycle (bankOf c b) :=
  bankOf_setBank_same c b (bankOpened t row c.cycle (bankOf c b))

theorem rowOpens_actBank {s : State} {n : PotIx} {i : LuIx} {row : Nat} (h : tagSound s n i.toNat row) (w : Who) (half : Nat)
    (restore : Bool) : rowOpens n i row s (actBank s (luPlace s n i.toNat row) w half true restore) := by
  rw [actBank_sound h]
  exact (rowOpens_updSched (fun c b hb => bankOf_actRow_other _ _ _ _ c hb) (by rw [bankOf_actRow_same]; rfl)).counted
    fun p => (pmcAdd (pmcAdd p 2 1) 4 restore.toNat).cup.pmc

/-- An LU opens a row whose tag segment can be read. -/
theorem rowOpens_luOpen {s : State} {n : PotIx} {i : LuIx} {row : Nat} (h : tagSound s n i.toNat row) (restore : Bool) :
    rowOpens n i row s (luOpen s n i.toNat row restore) := by
  simp only [luOpen]
  split
  case isTrue hopen =>
    refine rowOpens_updSched (fun c b hb => bankOf_updBank_other c _ hb) ?_
    exact (congrArg Bank.openRow (bankOf_setBank_same ..)).trans hopen
  case isFalse =>
    split
    · have honly := onlyLuRow_updSched n i s
        (fun c => preBank (bksTiming s n (luSeat (potOf s n) i.toNat).1) c (luSeat (potOf s n) i.toNat).2.toNat)
        fun c b hb => bankOf_updBank_other c _ hb
      have hpat := pat_updSched s n (luSeat (potOf s n) i.toNat).1
        fun c => preBank (bksTiming s n (luSeat (potOf s n) i.toNat).1) c (luSeat (potOf s n) i.toNat).2.toNat
      refine rowOpens.after honly (luOf_updSched ..) ?_
      have hopens := rowOpens_actBank (tagSound_congr hpat rfl h) (luWho (luOf (potOf s n) i.toNat))
        (2 * (schedOf (potOf s n) (luSeat (potOf s n) i.toNat).1.toNat).cycle) restore
      rw [luPlace_congr hpat] at hopens
      exact hopens
    · exact rowOpens_actBank h ..

/-! ### The issue of a column operation (R147 to R150, R155, R173 to R175) -/

section Issue
variable {s : State} {n : PotIx} {i : LuIx} {u : Word64} {raw : BitVec 256} {code row : Nat}

/-- The LU with the row open: where it opens now, nothing is held of the row before it. -/
def luAtRow (l : Lu) (row : Nat) : Lu :=
  if l.openRow = some (BitVec.ofNat 15 row) then l else { l with openRow := some (BitVec.ofNat 15 row), scales := none, occ := none }

/-- The state with the row open: where it opens now, in the bank too. -/
def luRowReady (s : State) (n : PotIx) (i row : Nat) : State :=
  if (luOf (potOf s n) i).openRow.any fun r => r.toNat == row then s
  else luOpen (setPot s n (setLu (potOf s n) i
    { luOf (potOf s n) i with openRow := some (BitVec.ofNat 15 row), scales := none, occ := none })) n i row false

theorem any_toNat_iff {o : Option (BitVec 15)} (hrow : row < 32768) :
    (o.any fun r => r.toNat == row) = true ↔ o = some (BitVec.ofNat 15 row) := by
  cases o with
  | none => simp
  | some r =>
    rw [Option.any_some, beq_iff_eq, Option.some_inj]
    constructor
    · rintro rfl
      simp
    · rintro rfl
      simpa using hrow

theorem luRowReady_spec (hrow : row < 32768)
    (hsound : (luOf (potOf s n) i.toNat).openRow ≠ some (BitVec.ofNat 15 row) → tagSound s n i.toNat row) :
    onlyLuRow n i s (luRowReady s n i.toNat row) ∧
      luOf (potOf (luRowReady s n i.toNat row) n) i.toNat = luAtRow (luOf (potOf s n) i.toNat) row ∧
      ((luOf (potOf s n) i.toNat).openRow ≠ some (BitVec.ofNat 15 row) →
        (luBank (luRowReady s n i.toNat row) n i.toNat).openRow = some (BitVec.ofNat 15 row)) := by
  rw [luRowReady, luAtRow]
  by_cases hopen : (luOf (potOf s n) i.toNat).openRow = some (BitVec.ofNat 15 row)
  · rw [if_pos ((any_toNat_iff hrow).2 hopen), if_pos hopen]
    exact ⟨onlyLuRow.refl n i s, rfl, fun h => absurd hopen h⟩
  · rw [if_neg fun h => hopen ((any_toNat_iff hrow).1 h), if_neg hopen]
    have hset := onlyLuRow_setLu n i s { luOf (potOf s n) i.toNat with openRow := some (BitVec.ofNat 15 row), scales := none, occ := none }
      (potOf s n).luEvents
    have hpat : (potOf (setPot s n (setLu (potOf s n) i.toNat { luOf (potOf s n) i.toNat with
        openRow := some (BitVec.ofNat 15 row), scales := none, occ := none })) n).pat = (potOf s n).pat := by
      rw [potOf_setPot_same]
      rfl
    obtain ⟨honly, hl, hbank⟩ := rowOpens_luOpen (tagSound_congr hpat rfl (hsound hopen)) false
    refine ⟨hset.trans honly, hl.trans ?_, fun _ => hbank⟩
    rw [potOf_setPot_same, luOf_setLu_same]

theorem luClose_pending {i : Nat} (h : (luOf (potOf s n) i).colq ≠ []) : luClose s n i = s := by
  simp [luClose, h]

/-- A step of the LU keeps its bank while an access is pending. -/
theorem luBank_luStep {obey : Bool} (hseq : uSeq u ≠ 3) (hdone : (luOf (potOf s n) i.toNat).done = false)
    (hq : (luOf (potOf (luStep s n i.toNat u raw obey) n) i.toNat).colq ≠ []) :
    luBank (luStep s n i.toNat u raw obey) n i.toNat = luBank s n i.toNat := by
  have hset : ∀ x, luBank (setPot s n (setLu (potOf s n) i.toNat x)) n i.toNat = luBank s n i.toNat := fun x => by
    rw [luBank, luPlace, potOf_setPot_same]
    rfl
  obtain ⟨e, -⟩ | ⟨e, -⟩ := luStep_spec (raw := raw) hseq hdone obey
  · rw [e, hset]
  · rw [e] at hq ⊢
    rw [luOf_luClose] at hq
    rw [luClose_pending hq, hset]

/-- The row, the unit and the first word that a repeat names (R148, R150). -/
def colRow (l : Lu) (u : Word64) : Nat := if uColptr u then l.ap.row.toNat else l.rowr.toNat
def colUnit (l : Lu) (u : Word64) : Nat := if uColptr u then l.ap.col.toNat else l.cbase.toNat + uCol u + l.rep
def colMx (u : Word64) : Bool := luFmtOf (uFmt u) (uUop u)
def colBs (u : Word64) : Bool := uopBs (uUop u) && uBs u
def colWord (l : Lu) (u : Word64) : Nat := if colMx u then colUnit l u * unitWords (colMx u) (uFmt u) else colUnit l u

/-- The access that a repeat enters, with its sources. -/
def colEntry (p : Pot) (i : Nat) (u : Word64) (raw : BitVec 256) (k : ColKind) : ColAcc :=
  let l := luOf p i
  ⟨k, [], u, l.rep, BitVec.ofNat 15 (colRow l u), colUnit l u, colSource l u raw (luSlotOf p i (l.cmd.any LeafCmd.slot)), l.s1, l.s0⟩

/-- The LU `l1`, whose row is open, with the read that the row owes entered. -/
def colOwed (p : Pot) (i : Nat) (u : Word64) (raw : BitVec 256) (l1 : Lu) : Lu :=
  match rowOwes l1 (colMx u) (colBs u) (colRow (luOf p i) u) with
  | some k => { l1 with colq := l1.colq ++ [colEntry p i u raw k] }
  | none => l1

/-- The LU `l2` with the access of its repeat entered. -/
def colEntered (p : Pot) (i : Nat) (u : Word64) (raw : BitVec 256) (l2 : Lu) : Lu :=
  { l2 with
    ap := if uColptr u then apNext l2.ap (lcRowFirst raw) (lcRowLast raw) (uUop u == 2 || uUop u == 3) else l2.ap
    colq := l2.colq ++ [colEntry p i u raw .data] }

/-- A poisoned header forbids the access of a repeat with bs = 1 (R155). -/
def headerBad (l l2 : Lu) (u : Word64) : Bool := colBs u && decide (4 ≤ colWord l u) && l2.occ.any (·.2.2)

/-- The issue from the state `s1`, where the LU's row is ready: it waits for its header, passes over an absent block, or enters its
access. -/
def colIssued (s s1 : State) (n : PotIx) (i : Nat) (u : Word64) (raw : BitVec 256) (l2 : Lu) : LuIssue :=
  let l := luOf (potOf s n) i
  if headerMissing l2 (colBs u) (colRow l u) then .hold (updPot s1 n fun q => setLu q i l2)
  else if headerBad l l2 u then .fault 4 (luAddr s n i (colRow l u) 0).toNat
  else if colBs u && blockAbsent l2 (colWord l u) then .go (updPot s1 n fun q => setLu q i l2) true
  else .go (updPot s1 n fun q => setLu q i (colEntered (potOf s n) i u raw l2)) true

/-- An issue may go on to its row: no interlock holds it, and its set, its row and its unit are right (R147 to R150). -/
def colMay (s : State) (n : PotIx) (i : Nat) (u : Word64) (raw : BitVec 256) : Prop :=
  let l := luOf (potOf s n) i
  colPending l < 4 ∧ (uColptr u = true ∨ uUop u = 10 → apPending l = false) ∧
    (uUop u = 2 → latchPending l (uLa u + l.rep) = false) ∧
    (uUop u = 4 ∨ uUop u = 5 → ∀ m ∈ setMode l (uAcc u), m = fmtIsInt (uFmt u)) ∧
    (uColptr u = true → colRow l u < 32768) ∧
    (uColptr u = false → colUnit l u < unitsPerRow (colMx u) (uFmt u) ∧ (lcRowFirst raw).toNat ≤ colRow l u ∧
      colRow l u ≤ (lcRowLast raw).toNat) ∧
    (l.openRow = some (BitVec.ofNat 15 (colRow l u)) ∨
      (l.openRow ≠ some (BitVec.ofNat 15 (colRow l u)) ∧ l.colq = [] ∧ (uAct u || uColptr u) = true ∧
        luDeferred s n i (colRow l u) = false ∧ tagSound s n i (colRow l u)))

theorem colRow_lt {i : Nat} (h : colMay s n i u raw) : colRow (luOf (potOf s n) i) u < 32768 := by
  obtain ⟨-, -, -, -, hptr, -, -⟩ := h
  cases hp : uColptr u
  · rw [colRow, hp]
    exact (luOf (potOf s n) i).rowr.isLt
  · exact hptr hp

/-- Nothing stops the issue before its row is ready. -/
theorem luColIssue_ready {i : Nat} (h : colMay s n i u raw) : luColIssue n i u raw s =
    colIssued s (luRowReady s n i (colRow (luOf (potOf s n) i) u)) n i u raw
      (colOwed (potOf s n) i u raw (luOf (potOf (luRowReady s n i (colRow (luOf (potOf s n) i) u)) n) i)) := by
  have hrow := colRow_lt h
  obtain ⟨hroom, hap, hlatch, hset, hptr, hrange, hopen⟩ := h
  have hwait : ¬ (4 ≤ colPending (luOf (potOf s n) i) ∨ ((uColptr u || uUop u == 10) = true ∧ apPending (luOf (potOf s n) i) = true) ∨
      (uUop u = 2 ∧ latchPending (luOf (potOf s n) i) (uLa u + (luOf (potOf s n) i).rep) = true)) := by
    rintro (hfull | ⟨hneed, hp⟩ | ⟨h2, hp⟩)
    · omega
    · simp [hap (by simpa using hneed)] at hp
    · simp [hlatch h2] at hp
  have hmode : ¬ ((uUop u = 4 ∨ uUop u = 5) ∧ (setMode (luOf (potOf s n) i) (uAcc u)).any (· != fmtIsInt (uFmt u)) = true) := by
    rintro ⟨hop, hbad⟩
    obtain ⟨m, hm, hne⟩ := (Option.any_eq_true _ _).1 hbad
    simp [hset hop m hm] at hne
  have hfar : ¬ (uColptr u = true ∧ 32768 ≤ colRow (luOf (potOf s n) i) u) := by omega
  have hunit : ¬ ((!uColptr u) = true ∧ unitsPerRow (colMx u) (uFmt u) ≤ colUnit (luOf (potOf s n) i) u) := by
    rintro ⟨hp, hle⟩
    have := (hrange (by simpa using hp)).1
    omega
  have hrows : ¬ ((!uColptr u) = true ∧ (colRow (luOf (potOf s n) i) u < (lcRowFirst raw).toNat ∨
      (lcRowLast raw).toNat < colRow (luOf (potOf s n) i) u)) := by
    rintro ⟨hp, hout⟩
    have := (hrange (by simpa using hp)).2
    omega
  have hfault : ¬ (!((luOf (potOf s n) i).openRow.any fun r => r.toNat == colRow (luOf (potOf s n) i) u) && !uAct u &&
      !uColptr u) = true := by
    obtain hopen | ⟨-, -, hact, -, -⟩ := hopen
    · simp [(any_toNat_iff hrow).2 hopen]
    · cases ha : uAct u
      · simp [show uColptr u = true by simpa [ha] using hact]
      · simp
  have hdefer : ¬ (!((luOf (potOf s n) i).openRow.any fun r => r.toNat == colRow (luOf (potOf s n) i) u) &&
      (!(luOf (potOf s n) i).colq.isEmpty || luDeferred s n i (colRow (luOf (potOf s n) i) u))) = true := by
    obtain hopen | ⟨-, hq, -, hd, -⟩ := hopen
    · simp [(any_toNat_iff hrow).2 hopen]
    · simp [hq, hd]
  exact (if_neg hwait).trans <| (if_neg hmode).trans <| (if_neg hfar).trans <| (if_neg hunit).trans <| (if_neg hrows).trans <|
    (if_neg hfault).trans <| (if_neg hdefer).trans rfl

/-- Every column operation issues in this way. -/
theorem exec_columnOp (hlow : 1 ≤ code) (hhigh : code ≤ 10) (s : State) (n : PotIx) (i : LuIx) :
    exec (columnOp code n i) s = luOp n i code (luColIssue n i.toNat) s := by
  interval_cases code <;> rfl

/-- Writing the LU back at its row keeps what the row's opening kept, and its bank. -/
theorem luRowReady_put {x : Lu} {s1 : State} (honly : onlyLuRow n i s s1) :
    onlyLuRow n i s (updPot s1 n fun q => setLu q i.toNat x) ∧
      luOf (potOf (updPot s1 n fun q => setLu q i.toNat x) n) i.toNat = x ∧
      luBank (updPot s1 n fun q => setLu q i.toNat x) n i.toNat = luBank s1 n i.toNat := by
  have hp := potOf_updPot_same s1 n fun q => setLu q i.toNat x
  refine ⟨honly.trans (onlyLuRow_setLu n i s1 x (potOf s1 n).luEvents), ?_, ?_⟩
  · rw [hp, luOf_setLu_same]
  · rw [luBank, luPlace, hp]
    rfl

/-- The LU after the issue of a column operation. -/
def colNext (p : Pot) (i : Nat) (u : Word64) (raw : BitVec 256) (l2 : Lu) : Lu :=
  if headerMissing l2 (colBs u) (colRow (luOf p i) u) then l2
  else if colBs u && blockAbsent l2 (colWord (luOf p i) u) then luNext l2 u raw true
  else luNext (colEntered p i u raw l2) u raw true

theorem colOwed_done (p : Pot) (i : Nat) (l1 : Lu) : (colOwed p i u raw l1).done = l1.done := by
  unfold colOwed
  split <;> rfl

theorem luAtRow_done (l : Lu) : (luAtRow l row).done = l.done := by
  unfold luAtRow
  split <;> rfl

/-- The LU goes on from its row, which its bank keeps while an access is pending. -/
theorem luStep_put {x : Lu} {s1 : State} (hseq : uSeq u ≠ 3) (honly : onlyLuRow n i s s1) (hx : x.done = false) :
    let t := luStep (updPot s1 n fun q => setLu q i.toNat x) n i.toNat u raw true
    onlyLuRow n i s t ∧ luOf (potOf t n) i.toNat = luNext x u raw true ∧
      ((luOf (potOf t n) i.toNat).colq ≠ [] → luBank t n i.toNat = luBank s1 n i.toNat) := by
  obtain ⟨konly, kl, kbank⟩ := luRowReady_put (x := x) honly
  have hxd : (luOf (potOf (updPot s1 n fun q => setLu q i.toNat x) n) i.toNat).done = false := by rw [kl, hx]
  exact ⟨konly.trans (onlyLuEvents_luStep hseq hxd true).1, (luOf_luStep hseq hxd true).trans (by rw [kl]),
    fun hq => (luBank_luStep hseq hxd hq).trans kbank⟩

theorem headerBad_eq_false {l l2 : Lu} (h : colBs u = true → 4 ≤ colWord l u → ∀ o ∈ l2.occ, o.2.2 = false) :
    headerBad l l2 u = false := by
  refine Bool.eq_false_iff.2 fun hbad => ?_
  simp only [headerBad, Bool.and_eq_true, decide_eq_true_eq] at hbad
  obtain ⟨⟨hbs, hword⟩, hany⟩ := hbad
  obtain ⟨o, ho, hpoison⟩ := (Option.any_eq_true _ _).1 hany
  simp [h hbs hword o ho] at hpoison

/-- A column operation enters its access. -/
theorem columnOp_enters (hlow : 1 ≤ code) (hhigh : code ≤ 10) (h : luIssues s n i code u raw) (hseq : uSeq u ≠ 3)
    (hmay : colMay s n i.toNat u raw)
    (hocc : headerBad (luOf (potOf s n) i.toNat)
      (colOwed (potOf s n) i.toNat u raw (luAtRow (luOf (potOf s n) i.toNat) (colRow (luOf (potOf s n) i.toNat) u))) u = false) :
    runsTo (columnOp code n i) s fun t =>
      onlyLuRow n i s t ∧
      ((luOf (potOf s n) i.toNat).openRow ≠ some (BitVec.ofNat 15 (colRow (luOf (potOf s n) i.toNat) u)) →
        (luOf (potOf t n) i.toNat).colq ≠ [] →
        (luBank t n i.toNat).openRow = some (BitVec.ofNat 15 (colRow (luOf (potOf s n) i.toNat) u))) ∧
      luOf (potOf t n) i.toNat = colNext (potOf s n) i.toNat u raw
        (colOwed (potOf s n) i.toNat u raw (luAtRow (luOf (potOf s n) i.toNat) (colRow (luOf (potOf s n) i.toNat) u))) := by
  have hsound : (luOf (potOf s n) i.toNat).openRow ≠ some (BitVec.ofNat 15 (colRow (luOf (potOf s n) i.toNat) u)) →
      tagSound s n i.toNat (colRow (luOf (potOf s n) i.toNat) u) := by
    obtain ⟨-, -, -, -, -, -, hopen⟩ := hmay
    obtain hopen | ⟨-, -, -, -, hsound⟩ := hopen
    · exact fun hne => absurd hopen hne
    · exact fun _ => hsound
  obtain ⟨honly, hl1, hbank⟩ := luRowReady_spec (colRow_lt hmay) hsound
  have hready := luColIssue_ready hmay
  rw [hl1] at hready
  generalize hl2 : colOwed (potOf s n) i.toNat u raw (luAtRow (luOf (potOf s n) i.toNat) (colRow (luOf (potOf s n) i.toNat) u)) = l2 at *
  generalize luRowReady s n i.toNat (colRow (luOf (potOf s n) i.toNat) u) = s1 at *
  have hdone : l2.done = false := by rw [← hl2, colOwed_done, luAtRow_done, h.running]
  refine ⟨_, (exec_columnOp hlow hhigh s n i).trans (luOp_issues h _), ?_⟩
  rw [hready, colIssued, colNext, hocc]
  split
  · obtain ⟨konly, kl, kbank⟩ := luRowReady_put (x := l2) honly
    exact ⟨konly, fun hne _ => (congrArg Bank.openRow kbank).trans (hbank hne), kl⟩
  · split
    · exact absurd ‹_› Bool.false_ne_true
    · split
      · obtain ⟨konly, kl, kbank⟩ := luStep_put (raw := raw) hseq honly hdone
        exact ⟨konly, fun hne hq => (congrArg Bank.openRow (kbank hq)).trans (hbank hne), kl⟩
      · obtain ⟨konly, kl, kbank⟩ := luStep_put (x := colEntered (potOf s n) i.toNat u raw l2) (raw := raw) hseq honly hdone
        exact ⟨konly, fun hne hq => (congrArg Bank.openRow (kbank hq)).trans (hbank hne), kl⟩

end Issue

/-! ### What an access of a bank's word leaves of the pot map, and so of the addresses that an LU reports (R28, R153) -/

/-- Each pot counts the same copies of map entries as lost. -/
structure lostKept (s t : State) : Prop where
  eq : ∀ m, (potOf t m).mapLost = (potOf s m).mapLost

theorem lostKept.refl (s : State) : lostKept s s := ⟨fun _ => rfl⟩

theorem lostKept.trans {s t v : State} (h : lostKept s t) (k : lostKept t v) : lostKept s v := ⟨fun m => (k.eq m).trans (h.eq m)⟩

theorem lostKept_setPot {s : State} {n : PotIx} {p : Pot} (h : p.mapLost = (potOf s n).mapLost) : lostKept s (setPot s n p) := by
  refine ⟨fun m => ?_⟩
  by_cases hm : m = n
  · subst hm
    rw [potOf_setPot_same, h]
  · rw [potOf_setPot_other _ _ _ _ hm]

theorem lostKept_updPot {s : State} {n : PotIx} {f : Pot → Pot} (h : (f (potOf s n)).mapLost = (potOf s n).mapLost) :
    lostKept s (updPot s n f) := lostKept_setPot h

theorem lostKept_updSched (s : State) (n : PotIx) (g : GroupIx) (f : Sched → Sched) : lostKept s (updSched s n g f) := lostKept_updPot rfl

theorem lostKept_sendFault (s : State) (f : FaultInfo) : lostKept s (sendFault s f) := ⟨fun m => by rw [potOf_sendFault]⟩

theorem lostKept_takeFreeBytes (n : Nat) (s : State) : lostKept s (takeFreeBytes n s).2 := by
  induction n generalizing s with
  | zero => exact .refl s
  | succ n ih => exact lostKept.trans (t := (takeFree s).2) ⟨fun _ => rfl⟩ (ih _)

theorem lostKept_dramCells (s : State) (a : Nat) (bs : List Byte) : lostKept s (dramCells s a bs) := ⟨fun _ => rfl⟩

theorem lostKept_storeAt (s : State) (ix col : Nat) (bytes : List Byte) (poison : Bool) (flip : List Byte) :
    lostKept s (storeAt s ix col bytes poison flip) := by
  have h := fun a b c d => (lostKept_dramCells s a b).trans (lostKept_dramCells (dramCells s a b) c d)
  simp only [storeAt]
  split
  · exact h ..
  · exact (h ..).trans (lostKept_dramCells ..)

theorem mapLost_withPat (p : Pot) (x : Pat) : { p with pat := x }.mapLost = p.mapLost := rfl

theorem lostKept_reportMismatch (s : State) (pl : Place) : lostKept s (reportMismatch s pl) := by
  simp only [reportMismatch]
  split
  · exact .refl s
  · exact .trans (lostKept_setPot (mapLost_withPat _ _)) (lostKept_sendFault ..)

theorem logError_withPat (p : Pot) (addr kind symbol cls port : Nat) (tag : BitVec 16) (inf : BitVec 12) :
    ∃ x, logError p addr kind symbol cls port tag inf = { p with pat := x } := ⟨_, rfl⟩

theorem mapLost_logError (p : Pot) (addr kind symbol cls port : Nat) (tag : BitVec 16) (inf : BitVec 12) :
    (logError p addr kind symbol cls port tag inf).mapLost = p.mapLost := by
  obtain ⟨x, h⟩ := logError_withPat p addr kind symbol cls port tag inf
  rw [h]

theorem mapLost_pmcAdd (p : Pot) (code by_ : Nat) : (pmcAdd p code by_).mapLost = p.mapLost := by
  have h : ∃ x, pmcAdd p code by_ = { p with cup := x } := ⟨_, rfl⟩
  obtain ⟨x, h⟩ := h
  rw [h]

theorem lostKept_noteActivate (s : State) (pl : Place) (w : Who) (bad : Bool) : lostKept s (noteActivate s pl w bad) := by
  simp only [noteActivate]
  split
  · exact .trans (lostKept_setPot ((mapLost_withPat _ _).trans (mapLost_logError ..))) (lostKept_sendFault ..)
  · exact .refl s

theorem lostKept_noteRead (s : State) (pl : Place) (w : Who) (o : ReadOut) : lostKept s (noteRead s pl w o) := by
  have hp := mapLost_pmcAdd (potOf s pl.pot) 3 1
  unfold noteRead
  refine lostKept_setPot ?_
  cases o with
  | corrected sym => exact ((mapLost_logError ..).trans (mapLost_withPat _ _)).trans hp
  | uncorrectable => exact ((mapLost_logError ..).trans (mapLost_withPat _ _)).trans hp
  | rowBad => exact (mapLost_logError ..).trans hp
  | poison => exact (mapLost_withPat _ _).trans hp
  | clean => exact hp
  | unwritten => exact hp

theorem lostKept_readRaw (s : State) (pl : Place) (w : Who) : lostKept s (readRaw s pl w).1 := by
  simp only [readRaw]
  split
  · exact (lostKept_reportMismatch s pl).trans (lostKept_takeFreeBytes ..)
  · dsimp only
    exact (lostKept_noteActivate ..).trans (lostKept_noteRead ..)

theorem lostKept_takeFlip (s : State) (pl : Place) (port : BksPort) : lostKept s (takeFlip s pl port).1 := by
  simp only [takeFlip]
  split
  · exact lostKept_setPot (mapLost_withPat _ _)
  · exact .refl s

theorem lostKept_copyWrite (s : State) (pl : Place) (bytes : List Byte) (poison : Bool) : lostKept s (copyWrite s pl bytes poison) := by
  unfold copyWrite
  split
  · exact .refl s
  · split
    · exact lostKept_storeAt ..
    · exact .refl s

theorem lostKept_markDirty (s : State) (pl : Place) (port : BksPort) : lostKept s (markDirty s pl port) := by
  unfold markDirty
  split
  · exact lostKept_updSched ..
  · exact .refl s

theorem lostKept_writeRaw (s : State) (pl : Place) (w : Who) (bytes : List Byte) (poison : Bool) :
    lostKept s (writeRaw s pl w bytes poison) := by
  unfold writeRaw
  split
  · exact (lostKept_reportMismatch s pl).trans (lostKept_updPot (mapLost_withPat _ _))
  · exact (((((lostKept_noteActivate ..).trans (lostKept_takeFlip ..)).trans (lostKept_storeAt ..)).trans
      (lostKept_copyWrite ..)).trans (lostKept_markDirty ..)).trans (lostKept_updPot (mapLost_pmcAdd ..))

theorem lostKept_flushMerge (s : State) (pl : Place) : lostKept s (flushMerge s pl) := by
  unfold flushMerge
  split
  · exact (((lostKept_updSched ..).trans (lostKept_updSched ..)).trans (lostKept_readRaw ..)).trans (lostKept_writeRaw ..)
  · exact .refl s

theorem lostKept_readWordAt (s : State) (pl : Place) (w : Who) : lostKept s (readWordAt s pl w).1 :=
  (lostKept_flushMerge s pl).trans (lostKept_readRaw ..)

/-- An LU sees the pot map as before: its entries, the pot's copies of them, and which of those are lost. -/
def mapKept (n : PotIx) (s t : State) : Prop :=
  t.map.entries = s.map.entries ∧ t.fuses = s.fuses ∧ (potOf t n).mapCopy = (potOf s n).mapCopy ∧ (potOf t n).mapLost = (potOf s n).mapLost

theorem mapKept_of_dramSide {s t : State} (h : dramSide s t) (k : lostKept s t) (n : PotIx) : mapKept n s t := by
  refine ⟨(congrArg (fun x => x.map.entries) h.1 :), (congrArg State.fuses h.1 :), ?_, k.eq n⟩
  rw [(h.2 n).1]

theorem mapKept.trans {n : PotIx} {s t v : State} (h : mapKept n s t) (k : mapKept n t v) : mapKept n s v := by
  obtain ⟨hmap, hfuses, hcopy, hlost⟩ := h
  obtain ⟨kmap, kfuses, kcopy, klost⟩ := k
  exact ⟨kmap.trans hmap, kfuses.trans hfuses, kcopy.trans hcopy, klost.trans hlost⟩

theorem seenEntry_congr {n : PotIx} {s t : State} (h : mapKept n s t) (e : Nat) : seenEntry t n e = seenEntry s n e := by
  obtain ⟨hmap, hfuses, hcopy, hlost⟩ := h
  have hhub : hubEntry t e = hubEntry s e := by
    rw [hubEntry, homeEntry, potEnabled, hmap, hfuses]
    rfl
  have hpot : potEntry t n e = potEntry s n e := by simp only [potEntry, hhub, hcopy]
  rw [seenEntry, copyBad, hhub, hpot, hlost]
  rfl

theorem homeOf_congr {n : PotIx} {s t : State} (h : mapKept n s t) (g : GroupIx) : homeOf t n g = homeOf s n g := by
  have hgroup : ∀ e, homeGroup t n e = homeGroup s n e := fun e => by simp only [homeGroup, seenEntry_congr h]
  simp only [homeOf, h.1, seenEntry_congr h, hgroup]

theorem luAddr_congr {n : PotIx} {s t : State} (h : mapKept n s t) (hbank : (potOf t n).pat.bankmap = (potOf s n).pat.bankmap)
    (i row col : Nat) : luAddr t n i row col = luAddr s n i row col := by
  simp only [luAddr, luSeat_congr hbank, homeOf_congr h]

/-! ### The oldest access of an LU's column queue (R147, R151, R155, R161) -/

theorem bankmap_dramSide {s t : State} (h : dramSide s t) (n : PotIx) : (potOf t n).pat.bankmap = (potOf s n).pat.bankmap := by
  obtain ⟨-, hside⟩ := h
  obtain ⟨-, -, hbank⟩ := hside n
  exact hbank

theorem luOf_dramSide {s t : State} (h : dramSide s t) (n : PotIx) (i : Nat) : luOf (potOf t n) i = luOf (potOf s n) i := by
  rw [(h.2 n).1]
  rfl

theorem luWordPlace_dramSide {s t : State} (h : dramSide s t) (n m : PotIx) (i row col : Nat) :
    luWordPlace (potOf t n) m i row col = luWordPlace (potOf s n) m i row col := by
  simp only [luWordPlace, luSeat_congr (bankmap_dramSide h n)]

theorem luSlotOf_congr {p q : Pot} {i : Nat} (hdead : (luOf q i).dead = (luOf p i).dead) (hchans : q.chans = p.chans)
    (hproxies : q.proxies = p.proxies) (hbank : q.pat.bankmap = p.pat.bankmap) (slot : Bool) : luSlotOf q i slot = luSlotOf p i slot := by
  have hchan : ∀ g, chanOf q g = chanOf p g := fun g => by rw [chanOf, chanOf, hchans]
  have hproxy : proxySlot q i = proxySlot p i := by rw [proxySlot, proxySlot, hdead, hchan, luSeat_congr hbank]
  rw [luSlotOf, luSlotOf, hproxy, hchan, luSeat_congr hbank]
  simp only [proxyOf, hproxies]

section Access
variable {s : State} {n : PotIx} {i : LuIx} {a : ColAcc} {rest : List ColAcc} {c : LeafCmd} {bad : Bool}

/-- The LU runs a command, its oldest access is `a`, and the access gets its slot with its row open (R147, R195). -/
structure colTurn (s : State) (n : PotIx) (i : LuIx) (a : ColAcc) (rest : List ColAcc) (c : LeafCmd) : Prop where
  lu : i.toNat < Config.lusPerPot
  cmd : (luOf (potOf s n) i.toNat).cmd = some c
  queue : (luOf (potOf s n) i.toNat).colq = a :: rest
  runs : (luOf (potOf s n) i.toNat).done = false
  on : potOn s n = true
  serves : chanServes s n (luSeat (potOf s n) i.toNat).1 = true
  row : (luBank s n i.toNat).openRow = some a.row

theorem exec_luColumnAccess (h : colTurn s n i a rest c) : exec (.luColumnAccess n i bad) s = .next (luColumn s n i.toNat a bad) := by
  have hdefer : luDeferred s n i.toNat a.row.toNat = false := by simp [luDeferred, h.row]
  show execLuColumnAccess n i bad s = _
  simp only [execLuColumnAccess, checked, whenDo, h.lu, h.queue, h.on, h.serves, hdefer, decide_true, if_true, Bool.not_false,
    Bool.and_self]

theorem dramSide_luColumnNoted (s : State) (n : PotIx) (i : Nat) (read : Bool) : dramSide s (luColumnNoted s n i read) := by
  unfold luColumnNoted
  exact dramSide_updSched ..

theorem luOf_popAcc (s : State) (n : PotIx) (i : Nat) :
    luOf (potOf (popAcc s n i) n) i = { luOf (potOf s n) i with colq := (luOf (potOf s n) i).colq.drop 1 } := by
  rw [popAcc, potOf_updPot_same, updLu, luOf_setLu_same]

/-- The end of an access of a running command. -/
theorem luFinish_after {t : State} {x : Lu} (hx : luOf (potOf t n) i.toNat = x) (hdone : x.done = false) :
    luOf (potOf (luFinish t n i.toNat) n) i.toNat = luClosed x ∧ (luFinish t n i.toNat).tray = t.tray ∧
      (luFinish t n i.toNat).dram = t.dram := by
  rw [luFinish_running (by rw [hx, hdone]), luOf_luClose, hx]
  exact ⟨rfl, (onlyLuRow_luClose t n i).stores⟩

/-- A write stores its word. -/
def colWrites (a : ColAcc) : Prop := a.kind = .data ∧ (uUop a.uword = 2 ∨ uUop a.uword = 3 ∨ uUop a.uword = 10)

theorem colWrites_iff (a : ColAcc) :
    (a.kind == .data && (uUop a.uword == 2 || uUop a.uword == 3 || uUop a.uword == 10)) = true ↔ colWrites a := by
  simp [colWrites, or_assoc]

/-- The read of an access's next word. -/
def colRead (s : State) (n : PotIx) (i : Nat) (a : ColAcc) : State × ReadData :=
  readWordAt (luColumnNoted s n i true) (luWordPlace (potOf s n) n i a.row.toNat (nth (accCols a) a.got.length 0))
    (luWho (luOf (potOf s n) i))

/-- The access with that word. -/
def colGot (s : State) (n : PotIx) (i : Nat) (a : ColAcc) : ColAcc :=
  { a with got := a.got ++ [((colRead s n i a).2.bytes, (colRead s n i a).2.poison)] }

theorem luColumn_write (h : colTurn s n i a rest c) (hw : colWrites a) : luColumn s n i.toNat a bad =
    luFinish (popAcc (writeWordAt (luColumnNoted s n i.toNat false)
      (luWordPlace (potOf s n) n i.toNat a.row.toNat (a.unit % 64)) (luWho (luOf (potOf s n) i.toNat))
      (bytesOfWord a.latch.val) a.latch.poison) n i.toNat) n i.toNat := by
  have hside := dramSide_luColumnNoted s n i.toNat false
  have hopen : ((luBank s n i.toNat).openRow.any (· == a.row)) = true := by simp [h.row]
  simp only [luColumn, h.cmd, hopen, (colWrites_iff a).2 hw, if_true, Bool.not_true, luOf_dramSide hside, luWordPlace_dramSide hside]

theorem luColumn_read (h : colTurn s n i a rest c) (hw : ¬ colWrites a) : luColumn s n i.toNat a bad =
    if (colGot s n i.toNat a).got.length < (accCols a).length then
      updPot (colRead s n i.toNat a).1 n fun q => updLu q i.toNat fun x => { x with colq := colGot s n i.toNat a :: x.colq.drop 1 }
    else colDone (colRead s n i.toNat a).1 n i.toNat c.raw (colGot s n i.toNat a) bad := by
  have hside := dramSide_luColumnNoted s n i.toNat true
  have hopen : ((luBank s n i.toNat).openRow.any (· == a.row)) = true := by simp [h.row]
  have hread : (a.kind == .data && (uUop a.uword == 2 || uUop a.uword == 3 || uUop a.uword == 10)) = false :=
    Bool.eq_false_iff.2 fun hb => hw ((colWrites_iff a).1 hb)
  simp only [luColumn, h.cmd, hopen, hread, if_true, Bool.not_false, Bool.false_eq_true, if_false, luOf_dramSide hside,
    luWordPlace_dramSide hside]
  rfl

theorem dramSide_colRead (s : State) (n : PotIx) (i : Nat) (a : ColAcc) : dramSide s (colRead s n i a).1 :=
  (dramSide_luColumnNoted ..).trans (dramSide_readWordAt ..)

/-- The LU after its oldest access has left the queue. -/
theorem luOf_popAcc_dramSide {t : State} (h : colTurn s n i a rest c) (hside : dramSide s t) :
    luOf (potOf (popAcc t n i.toNat) n) i.toNat = { luOf (potOf s n) i.toNat with colq := rest } := by
  rw [luOf_popAcc, luOf_dramSide hside, h.queue]
  rfl

/-- What an op makes of the LU leaves its command running. -/
theorem colTake_done {l : Lu} {raw : BitVec 256} {bytes : List Byte} {poison : Bool} {x : Lu × NumEv} {i : Nat}
    (h : colTake s n i l raw a bytes poison = .inl x) : x.1.done = l.done := by
  simp only [colTake] at h
  split at h
  · cases h
    rfl
  · cases h
    exact (setLuAcc_runs ..).1
  · cases h
    exact (setLuAcc_runs ..).1
  · cases h
    rfl
  · cases h
    rfl
  · cases h
    rfl
  · split at h
    · cases h
    · split at h
      · cases h
        rfl
      · cases h
  · cases h
    rfl

/-- The column access leaves the LU as `x`, the trays as they are, and DRAM as its read left it. -/
def colGives (s : State) (n : PotIx) (i : LuIx) (a : ColAcc) (x : Lu) : Prop :=
  runsTo (.luColumnAccess n i false) s fun t =>
    luOf (potOf t n) i.toNat = x ∧ t.tray = s.tray ∧ t.dram = (colRead s n i.toNat a).1.dram

theorem colGives_more (h : colTurn s n i a rest c) (hw : ¬ colWrites a) (hmore : (colGot s n i.toNat a).got.length < (accCols a).length) :
    colGives s n i a { luOf (potOf s n) i.toNat with colq := colGot s n i.toNat a :: rest } := by
  have hside := dramSide_colRead s n i.toNat a
  refine ⟨_, exec_luColumnAccess h, ?_⟩
  rw [luColumn_read h hw, if_pos hmore]
  refine ⟨?_, hside.tray, rfl⟩
  rw [potOf_updPot_same, updLu, luOf_setLu_same, luOf_dramSide hside, h.queue]
  rfl

theorem exec_luColumnAccess_last (h : colTurn s n i a rest c) (hw : ¬ colWrites a)
    (hlast : (accCols a).length ≤ (colGot s n i.toNat a).got.length) :
    exec (.luColumnAccess n i bad) s = .next (colDone (colRead s n i.toNat a).1 n i.toNat c.raw (colGot s n i.toNat a) bad) := by
  rw [exec_luColumnAccess h, luColumn_read h hw, if_neg (Nat.not_lt.2 hlast)]

/-- The LU put back after its access has left the queue changes no memory. -/
theorem put_popAcc_memory (s : State) (n : PotIx) (i : Nat) (f : Pot → Pot) :
    (updPot (popAcc s n i) n f).tray = s.tray ∧ (updPot (popAcc s n i) n f).dram = s.dram := ⟨rfl, rfl⟩

/-- The last word of an access has come, and the LU is put back as `x`. -/
theorem colGives_done {x : Lu} {f : Pot → Pot} (h : colTurn s n i a rest c) (hw : ¬ colWrites a)
    (hlast : (accCols a).length ≤ (colGot s n i.toNat a).got.length)
    (ht : colDone (colRead s n i.toNat a).1 n i.toNat c.raw (colGot s n i.toNat a) false =
      luFinish (updPot (popAcc (colRead s n i.toNat a).1 n i.toNat) n f) n i.toNat)
    (hx : ∀ p, luOf (f p) i.toNat = x) (hdone : x.done = (luOf (potOf s n) i.toNat).done) : colGives s n i a (luClosed x) := by
  obtain ⟨htray, hdram⟩ := put_popAcc_memory (colRead s n i.toNat a).1 n i.toNat f
  obtain ⟨hl, ktray, kdram⟩ := luFinish_after (t := updPot (popAcc (colRead s n i.toNat a).1 n i.toNat) n f)
    (by rw [potOf_updPot_same, hx]) (hdone.trans h.runs)
  refine ⟨_, exec_luColumnAccess_last h hw hlast, ?_⟩
  rw [ht]
  exact ⟨hl, ktray.trans (htray.trans (dramSide_colRead s n i.toNat a).tray), kdram.trans hdram⟩

theorem colGives_scales (h : colTurn s n i a rest c) (hw : ¬ colWrites a)
    (hlast : (accCols a).length ≤ (colGot s n i.toNat a).got.length) (hk : a.kind = .scales) :
    colGives s n i a (luClosed { luOf (potOf s n) i.toNat with
      colq := rest, scales := some (a.row, ((colGot s n i.toNat a).got.map Prod.fst).flatten),
      scalePoison := (colGot s n i.toNat a).got.map Prod.snd }) := by
  have hl := luOf_popAcc_dramSide h (dramSide_colRead s n i.toNat a)
  have hkind : (colGot s n i.toNat a).kind = .scales := hk
  refine colGives_done h hw hlast ?_ (fun p => luOf_setLu_same p i.toNat _) rfl
  simp only [colDone, hkind, hl]
  rfl

theorem colGives_header (h : colTurn s n i a rest c) (hw : ¬ colWrites a)
    (hlast : (accCols a).length ≤ (colGot s n i.toNat a).got.length) (hk : a.kind = .header) :
    colGives s n i a (luClosed { luOf (potOf s n) i.toNat with
      colq := rest
      occ := some (a.row, BitVec.ofNat 16 (natOfBytes (((colGot s n i.toNat a).got.map Prod.fst).flatten.take 2)),
        (colGot s n i.toNat a).got.any Prod.snd) }) := by
  have hl := luOf_popAcc_dramSide h (dramSide_colRead s n i.toNat a)
  have hkind : (colGot s n i.toNat a).kind = .header := hk
  refine colGives_done h hw hlast ?_ (fun p => luOf_setLu_same p i.toNat _) rfl
  simp only [colDone, hkind, hl]
  rfl

/-- The op takes its unit. -/
theorem colGives_taken {x : Lu × NumEv} (h : colTurn s n i a rest c) (hw : ¬ colWrites a)
    (hlast : (accCols a).length ≤ (colGot s n i.toNat a).got.length) (hk : a.kind = .data)
    (htake : colTake (popAcc (colRead s n i.toNat a).1 n i.toNat) n i.toNat { luOf (potOf s n) i.toNat with colq := rest } c.raw
      (colGot s n i.toNat a) ((colGot s n i.toNat a).got.map Prod.fst).flatten ((colGot s n i.toNat a).got.any Prod.snd) = .inl x) :
    colGives s n i a (luClosed x.1) := by
  have hl := luOf_popAcc_dramSide h (dramSide_colRead s n i.toNat a)
  have hkind : (colGot s n i.toNat a).kind = .data := hk
  refine colGives_done (f := fun p => { setLu p i.toNat x.1 with luEvents := putNumEv p.luEvents x.2 }) h hw hlast ?_ (fun p => ?_)
    ((colTake_done htake).trans rfl)
  · simp only [colDone, hkind, Bool.false_and, Bool.false_eq_true, if_false, hl, htake]
    rfl
  · exact (luOf_withEvents ..).trans (luOf_setLu_same ..)

theorem colGives_rdl (h : colTurn s n i a rest c) (hlast : (accCols a).length ≤ (colGot s n i.toNat a).got.length)
    (hk : a.kind = .data) (hop : uUop a.uword = 1) :
    colGives s n i a (luClosed (setLatch { luOf (potOf s n) i.toNat with colq := rest } (uLd a.uword + a.rep)
      ⟨wordOfBytes ((colGot s n i.toNat a).got.map Prod.fst).flatten, (colGot s n i.toNat a).got.any Prod.snd⟩)) := by
  have hw : ¬ colWrites a := fun ⟨_, hw⟩ => by omega
  have huop : uUop (colGot s n i.toNat a).uword = 1 := hop
  exact colGives_taken (x := (_, .zero)) h hw hlast hk (by simp only [colTake, huop]; rfl)

theorem colGives_cmpc (h : colTurn s n i a rest c) (hlast : (accCols a).length ≤ (colGot s n i.toNat a).got.length)
    (hk : a.kind = .data) (hop : uUop a.uword = 8) (hmx : isMx (uFmt a.uword) = false) :
    colGives s n i a (luClosed { luOf (potOf s n) i.toNat with
      colq := rest
      cnt := (luOf (potOf s n) i.toNat).cnt + BitVec.ofNat 64 ((unitVals false (uFmt a.uword)
        ((colGot s n i.toNat a).got.map Prod.fst).flatten a.unit []).filter fun x =>
          cmpCode (fieldN a.uword 51 3) (roundF32 x.val) a.s0).length
      cntPoison := (luOf (potOf s n) i.toNat).cntPoison || (colGot s n i.toNat a).got.any Prod.snd }) := by
  have hw : ¬ colWrites a := fun ⟨_, hw⟩ => by omega
  have huop : uUop (colGot s n i.toNat a).uword = 8 := hop
  have hfmt : luFmtOf (uFmt (colGot s n i.toNat a).uword) 8 = false := by
    rw [luFmtOf, show isMx (uFmt (colGot s n i.toNat a).uword) = false from hmx, Bool.false_and]
  refine colGives_taken (x := (_, .zero)) h hw hlast hk ?_
  simp only [colTake, huop, hfmt, Bool.false_and, Bool.or_false]
  rfl

theorem lostKept_colRead (s : State) (n : PotIx) (i : Nat) (a : ColAcc) : lostKept s (colRead s n i a).1 := by
  refine .trans ?_ (lostKept_readWordAt ..)
  unfold luColumnNoted
  exact lostKept_updSched ..

theorem mapKept_popAcc (s : State) (n : PotIx) (i : Nat) : mapKept n s (popAcc s n i) := by
  refine ⟨rfl, rfl, ?_, ?_⟩ <;> (rw [popAcc, potOf_updPot_same]; rfl)

/-- After its read, the access sees the operand slots as before. -/
theorem luSlotOf_colRead (s : State) (n : PotIx) (i : Nat) (a : ColAcc) (slot : Bool) :
    luSlotOf (potOf (popAcc (colRead s n i a).1 n i) n) i slot = luSlotOf (potOf s n) i slot := by
  have hside := dramSide_colRead s n i a
  have hdead : (luOf (potOf (popAcc (colRead s n i a).1 n i) n) i).dead = (luOf (potOf s n) i).dead := by
    rw [luOf_popAcc, luOf_dramSide hside]
  obtain ⟨hp, -, hbank⟩ := hside.2 n
  refine luSlotOf_congr hdead ?_ ?_ ?_ slot <;> rw [popAcc, potOf_updPot_same]
  · exact (congrArg Pot.chans hp :)
  · exact (congrArg Pot.proxies hp :)
  · exact hbank

/-- After its read, the access has the address that it had. -/
theorem luAddr_colRead (s : State) (n : PotIx) (i : Nat) (a : ColAcc) (row col : Nat) :
    luAddr (popAcc (colRead s n i a).1 n i) n i row col = luAddr s n i row col := by
  have hside := dramSide_colRead s n i a
  refine luAddr_congr ((mapKept_of_dramSide hside (lostKept_colRead ..) n).trans (mapKept_popAcc ..)) ?_ i row col
  rw [popAcc, potOf_updPot_same]
  exact bankmap_dramSide hside n

/-- What MACO makes of its set: the products of the unit with its operand, under the address that the access names. -/
def macoResult (s : State) (n : PotIx) (i : Nat) (a : ColAcc) (c : LeafCmd) : LuAcc × NumEv :=
  let q := opndVals (luSlotOf (potOf s n) i c.slot) false (uFmt a.uword) (uHalf a.uword) (uOpw a.uword + a.rep)
  accumulate (luAccOf (luOf (potOf s n) i) (uAcc a.uword)) (fmtIsInt (uFmt a.uword)) (uSat a.uword)
    (a.rep * (256 / elemBits (uFmt a.uword)))
    (((unitVals false (uFmt a.uword) ((colGot s n i a).got.map Prod.fst).flatten a.unit []).zip q.1).map fun x =>
      ⟨fvMul x.1.val x.2.val, x.1.rawNan || x.2.rawNan⟩)
    ((colGot s n i a).got.any Prod.snd || q.2) (some (luAddr s n i a.row.toNat a.unit))

theorem colGives_maco (h : colTurn s n i a rest c) (hlast : (accCols a).length ≤ (colGot s n i.toNat a).got.length)
    (hk : a.kind = .data) (hop : uUop a.uword = 4) (hmx : isMx (uFmt a.uword) = false) :
    colGives s n i a (luClosed (luEvents (setLuAcc { luOf (potOf s n) i.toNat with colq := rest } (uAcc a.uword)
      (macoResult s n i.toNat a c).1) (macoResult s n i.toNat a c).2)) := by
  have hw : ¬ colWrites a := fun ⟨_, hw⟩ => by omega
  have huop : uUop (colGot s n i.toNat a).uword = 4 := hop
  have hfmt : luFmtOf (uFmt (colGot s n i.toNat a).uword) 4 = false := by
    rw [luFmtOf, show isMx (uFmt (colGot s n i.toNat a).uword) = false from hmx, Bool.false_and]
  have hslot : (luOf (potOf s n) i.toNat).cmd.any LeafCmd.slot = c.slot := by rw [h.cmd, Option.any_some]
  refine colGives_taken (x := (_, (macoResult s n i.toNat a c).2)) h hw hlast hk ?_
  simp only [colTake, huop, hfmt, Bool.false_and, Bool.or_false, luSlotOf_colRead, luAddr_colRead, hslot, unitWords, Bool.false_eq_true,
    if_false, Nat.mul_one]
  rfl

end Access

section Access
variable {s : State} {n : PotIx} {i : LuIx} {a : ColAcc} {rest : List ColAcc} {c : LeafCmd} {bad : Bool}

theorem luColumnAccess_writes (h : colTurn s n i a rest c) (hw : colWrites a) : runsTo (.luColumnAccess n i false) s fun t =>
    luOf (potOf t n) i.toNat = luClosed { luOf (potOf s n) i.toNat with colq := rest } ∧ t.tray = s.tray ∧
    t.dram = (writeWordAt (luColumnNoted s n i.toNat false) (luWordPlace (potOf s n) n i.toNat a.row.toNat (a.unit % 64))
      (luWho (luOf (potOf s n) i.toNat)) (bytesOfWord a.latch.val) a.latch.poison).dram := by
  have hside := (dramSide_luColumnNoted s n i.toNat false).trans (dramSide_writeWordAt (luColumnNoted s n i.toNat false)
    (luWordPlace (potOf s n) n i.toNat a.row.toNat (a.unit % 64)) (luWho (luOf (potOf s n) i.toNat)) (bytesOfWord a.latch.val)
    a.latch.poison)
  obtain ⟨hl, htray, hdram⟩ := luFinish_after (luOf_popAcc_dramSide h hside) h.runs
  refine ⟨_, exec_luColumnAccess h, ?_⟩
  rw [luColumn_write h hw]
  exact ⟨hl, htray.trans hside.tray, hdram⟩

/-! ### Accesses that fail (R161) -/

/-- While an access is pending, a command does not end. -/
theorem luFinish_pending {i : Nat} (h : (luOf (potOf s n) i).colq ≠ []) : luFinish s n i = s := by
  have hq : (luOf (potOf s n) i).colq.isEmpty = false := by simpa using h
  have hshut : luShut s n i = s := by
    simp only [luShut, hq, Bool.and_false, Bool.false_and, luClose_pending h, Bool.false_eq_true, if_false]
  rw [luFinish_eq, hshut, luEnd]
  simp only [hq, Bool.and_false, Bool.false_eq_true, if_false]
  split <;> rfl

theorem sameBytes_markFailing (s : State) (x : BitVec 12) : sameBytes s (markFailing s x) := by
  rw [onlyInf_markFailing s x]
  exact sameBytes_of_stores rfl rfl rfl

theorem sameBytes_luReported (s : State) (n : PotIx) (i cause addr : Nat) : sameBytes s (luReported s n i cause addr) := by
  unfold luReported
  dsimp only
  split
  · exact (sameBytes_setPot ..).trans (sameBytes_sendFault ..)
  · exact ((sameBytes_setPot ..).trans (sameBytes_sendFault ..)).trans (sameBytes_markFailing ..)

theorem luLimitTimeout_stops (hlu : i.toNat < Config.lusPerPot) (hcmd : (luOf (potOf s n) i.toNat).cmd.isSome = true)
    (hruns : (luOf (potOf s n) i.toNat).done = false) (hon : potOn s n = true)
    (hlimit : (chanOf (potOf s n) (luSeat (potOf s n) i.toNat).1.toNat).limit ≠ 0) (hq : (luOf (potOf s n) i.toNat).colq ≠ []) :
    runsTo (.luLimitTimeout n i) s fun t =>
      luOf (potOf t n) i.toNat = { luOf (potOf s n) i.toNat with done := true, fault := true, cause := 7, endFault := some 7 } ∧
      sameBytes s t := by
  refine ⟨luFault s n i.toNat 7 0, ?_, ?_⟩
  · show execLuLimitTimeout n i s = _
    have hset : decide ((chanOf (potOf s n) (luSeat (potOf s n) i.toNat).1.toNat).limit ≠ 0) = true := decide_eq_true hlimit
    simp only [execLuLimitTimeout, checked, whenDo, hlu, hcmd, hruns, hon, hset, decide_true, Bool.not_false, Bool.and_self, if_true]
  · have hl := luOf_luReported s n i.toNat 7 0
    rw [luFault_eq, luFinish_pending (by rw [hl]; exact hq)]
    exact ⟨hl.trans (by simp [luStopped]), sameBytes_luReported ..⟩

theorem colGot_last (h : (accCols a).length ≤ a.got.length + 1) (i : Nat) : (accCols a).length ≤ (colGot s n i a).got.length := by
  simpa [colGot] using h

theorem luColumnAccess_residue (h : colTurn s n i a rest c) (hk : a.kind = .data) (hlast : (accCols a).length ≤ a.got.length + 1)
    (hres : residueChecked a.uword = true) : runsTo (.luColumnAccess n i true) s fun t =>
      (luOf (potOf t n) i.toNat).fault = true ∧ (luOf (potOf t n) i.toNat).cause = 8 ∧ (luOf (potOf t n) i.toNat).dead = true ∧
      (luOf (potOf t n) i.toNat).colq = [] := by
  have hop : 4 ≤ uUop a.uword ∧ uUop a.uword ≤ 7 := by simpa [residueChecked] using hres
  have hw : ¬ colWrites a := fun ⟨_, hw⟩ => by omega
  have hkind : (colGot s n i.toNat a).kind = .data := hk
  have hchecked : residueChecked (colGot s n i.toNat a).uword = true := hres
  refine ⟨_, exec_luColumnAccess_last h hw (colGot_last hlast _), ?_⟩
  simp only [colDone, hkind, hchecked, Bool.and_self, if_true, colStop]
  obtain ⟨cmd, done, row, closing, hl⟩ := luOf_luFault
    (updPot (popAcc (colRead s n i.toNat a).1 n i.toNat) n fun q => updLu q i.toNat fun x => { x with colq := [] }) n i.toNat 8
    (luAddr (popAcc (colRead s n i.toNat a).1 n i.toNat) n i.toNat (colGot s n i.toNat a).row.toNat (colGot s n i.toNat a).unit).toNat
  rw [hl]
  refine ⟨rfl, rfl, by simp [luStopped], ?_⟩
  simp only [luStopped]
  rw [potOf_updPot_same, updLu, luOf_setLu_same]

theorem luColumnAccess_unchecked (h : colTurn s n i a rest c) (hk : a.kind = .data) (hlast : (accCols a).length ≤ a.got.length + 1)
    (hres : residueChecked a.uword = false) : exec (.luColumnAccess n i true) s = exec (.luColumnAccess n i false) s := by
  by_cases hw : colWrites a
  · rw [exec_luColumnAccess h, exec_luColumnAccess h, luColumn_write h hw, luColumn_write h hw]
  · have hkind : (colGot s n i.toNat a).kind = .data := hk
    have hchecked : residueChecked (colGot s n i.toNat a).uword = false := hres
    rw [exec_luColumnAccess_last h hw (colGot_last hlast _), exec_luColumnAccess_last h hw (colGot_last hlast _)]
    simp only [colDone, hkind, hchecked, Bool.and_false]

end Access

/-- Settles O41: an issue makes its row ready and enters its access (`columnOp_enters`); a slot stores or reads one word, and the op
takes its unit with the last (`luColumnAccess_writes`, `colGives_more`, `colGives_taken`); a timeout or a residue stops the LU. -/
theorem leafColumnOperations : Obligations.LeafColumnOperations := by
  refine ⟨?issue, ?access, ?timeout, ?residue⟩
  case issue =>
    intro s n i u raw code hlow hhigh h hseq p l mx bs row unit word hroom hap hlatch hset hptr hrange hopen l1 acc l2 hocc
    obtain ⟨-, -, -, -, -, -, -, rfl, -⟩ := id h
    exact columnOp_enters hlow hhigh h hseq ⟨hroom, hap, hlatch, hset, hptr, hrange, hopen⟩ (headerBad_eq_false hocc)
  case access =>
    intro s n i a rest c p l write hlu hcmd hq hruns hon hserves hrow
    have h : colTurn s n i a rest c := ⟨hlu, hcmd, hq, hruns, hon, hserves, hrow⟩
    refine ⟨luColumnAccess_writes h, fun hw => ⟨colGives_more h hw, fun hlast => ?_⟩⟩
    exact ⟨colGives_scales h hw hlast, colGives_header h hw hlast, colGives_rdl h hlast, colGives_maco h hlast, colGives_cmpc h hlast,
      fun _ hk htake => colGives_taken h hw hlast hk htake⟩
  case timeout =>
    exact fun _ _ _ hlu hcmd hruns hon hlimit hq => luLimitTimeout_stops hlu hcmd hruns hon hlimit hq
  case residue =>
    intro s n i a rest c p l hlu hcmd hq hruns hon hserves hrow hk hlast
    have h : colTurn s n i a rest c := ⟨hlu, hcmd, hq, hruns, hon, hserves, hrow⟩
    exact ⟨luColumnAccess_residue h hk hlast, luColumnAccess_unchecked h hk hlast⟩

end Sys2Proof.Machine

namespace Sys2Proof.Machine

/-!
PROOFS. Bank arrays and scheduling. First the reset values of the registers, and the commands that change one scheduler alone: a request
arrives, is admitted and picked; a refresh is owed and paid.
-/

/-! ### Reset values (R206, R317, R376, R431, R475, O5) -/

theorem potOf_reset (n : PotIx) : potOf State.reset n = Pot.reset := rfl

/-- Settles O5: no pot is listed after reset, so that each stands at its reset value, and every register is a literal. -/
theorem resetRegistersAsGiven : Obligations.ResetRegistersAsGiven := by
  unfold Obligations.ResetRegistersAsGiven
  refine ⟨by decide, by decide, fun n => ?_, rfl, rfl, by decide, by decide, by decide, by decide, by decide⟩
  rw [potOf_reset]
  exact ⟨rfl, rfl, rfl, by decide, by decide, by decide⟩

/-! ### One scheduler of a pot changed -/

section Update
variable (s : State) (n : PotIx) (g : GroupIx) (f : Sched → Sched)

theorem onlyPot_updSched : onlyPot n s (updSched s n g f) := onlyPot_updPot ..

@[simp] theorem schedOf_updSched_same : schedOf (potOf (updSched s n g f) n) g.toNat = f (schedOf (potOf s n) g.toNat) := by
  rw [updSched, potOf_updPot_same, schedOf_setSched_same]

theorem schedOf_updSched_other {h : Nat} (hh : h ≠ g.toNat) : schedOf (potOf (updSched s n g f) n) h = schedOf (potOf s n) h := by
  rw [updSched, potOf_updPot_same, schedOf_setSched_other _ _ _ _ hh]

end Update

/-- An update of a pot that leaves the table of its schedulers. -/
theorem schedOf_updPot {s : State} {n : PotIx} {f : Pot → Pot} (h : (f (potOf s n)).scheds = (potOf s n).scheds) (k : Nat) :
    schedOf (potOf (updPot s n f) n) k = schedOf (potOf s n) k := by
  rw [potOf_updPot_same, schedOf, schedOf, h]

/-! ### Requests arrive and are admitted (R192, R193) -/

/-- The whistle follows the RT buffer, and its event is counted. -/
theorem updWhistle_eq (t : BksTiming) (c : Sched) :
    updWhistle t c = { c with whistle := (updWhistle t c).whistle, events := (updWhistle t c).events } := by
  unfold updWhistle
  extract_lets k
  split_ifs <;> rfl

@[simp] theorem updWhistle_queue (t : BksTiming) (c : Sched) : (updWhistle t c).queue = c.queue := by rw [updWhistle_eq]
@[simp] theorem updWhistle_debts (t : BksTiming) (c : Sched) : (updWhistle t c).debts = c.debts := by rw [updWhistle_eq]
@[simp] theorem updWhistle_cycle (t : BksTiming) (c : Sched) : (updWhistle t c).cycle = c.cycle := by rw [updWhistle_eq]
@[simp] theorem updWhistle_banks (t : BksTiming) (c : Sched) : (updWhistle t c).banks = c.banks := by rw [updWhistle_eq]
@[simp] theorem updWhistle_refNow (t : BksTiming) (c : Sched) : (updWhistle t c).refNow = c.refNow := by rw [updWhistle_eq]
@[simp] theorem portBuf_updWhistle (t : BksTiming) (c : Sched) (p : BksPort) : portBuf (updWhistle t c) p = portBuf c p := by
  rw [updWhistle_eq]
  cases p <;> rfl

theorem setPortBuf_queue (c : Sched) (p : BksPort) (l : List BksEntry) : (setPortBuf c p l).queue = c.queue := by
  cases p <;> rfl

/-- A buffer reads as it was written, whatever else is put into the queue or the count of arrivals. -/
theorem portBuf_setPortBuf_same (c : Sched) (p : BksPort) (l q : List BksEntry) (k : Nat) :
    portBuf { setPortBuf c p l with queue := q, arrivals := k } p = l := by
  cases p <;> rfl

theorem bksRequestArrive_joins {s : State} {n : PotIx} {g : GroupIx} {port : BksPort} {r : BksReq} (hp : potPresent s n = true)
    (hroom : (portBuf (schedOf (potOf s n) g.toNat) port).length < portDepth port)
    (hpat : port = .pat → (schedOf (potOf s n) g.toNat).whistle = false) :
    runsTo (.bksRequestArrive n g port r) s fun t =>
      onlyPot n s t ∧ (∀ h, h ≠ g.toNat → schedOf (potOf t n) h = schedOf (potOf s n) h) ∧
      portBuf (schedOf (potOf t n) g.toNat) port =
        portBuf (schedOf (potOf s n) g.toNat) port ++ [⟨port, r, (schedOf (potOf s n) g.toNat).cycle,
          (schedOf (potOf s n) g.toNat).arrivals, false⟩] ∧
      (schedOf (potOf t n) g.toNat).queue = (schedOf (potOf s n) g.toNat).queue := by
  have hfeeds : (port == .pat && (schedOf (potOf s n) g.toNat).whistle) = false := by
    by_cases h : port = .pat
    · rw [hpat h, Bool.and_false]
    · simp [h]
  refine ⟨_, if_pos (by rw [hp, hfeeds]; simpa using hroom), onlyPot_updSched .., fun h hh => schedOf_updSched_other _ _ _ _ hh, ?_, ?_⟩
  · rw [schedOf_updSched_same, portBuf_updWhistle]
    exact portBuf_setPortBuf_same ..
  · rw [schedOf_updSched_same, updWhistle_queue]
    exact setPortBuf_queue ..

theorem bksAdmit_moves {s : State} {n : PotIx} {g : GroupIx} {e : BksEntry} (hp : potPresent s n = true)
    (hnext : admitNext (schedOf (potOf s n) g.toNat) = some e) (hadmits : admits (schedOf (potOf s n) g.toNat) = true) :
    runsTo (.bksAdmit n g) s fun t =>
      onlyPot n s t ∧ (schedOf (potOf t n) g.toNat).queue = (schedOf (potOf s n) g.toNat).queue ++ [e] ∧
      portBuf (schedOf (potOf t n) g.toNat) e.port = (portBuf (schedOf (potOf s n) g.toNat) e.port).drop 1 := by
  have hexec : execBksAdmit n g s = .next (updSched s n g fun c =>
      updWhistle (bksTiming s n g) { setPortBuf c e.port ((portBuf c e.port).drop 1) with queue := c.queue ++ [e] }) := by
    rw [execBksAdmit, hnext]
    exact if_pos (by rw [hp, hadmits]; rfl)
  refine ⟨_, hexec, onlyPot_updSched .., ?_, ?_⟩
  · rw [schedOf_updSched_same, updWhistle_queue]
  · rw [schedOf_updSched_same, portBuf_updWhistle]
    exact portBuf_setPortBuf_same ..

/-! ### One scheduler cycle with nothing queued (R196, R201) -/

theorem byAge_of_queue_nil {c : Sched} (h : c.queue = []) : byAge c = [] := by
  rw [byAge, h]
  rfl

/-- Where nothing is queued the choices are refreshes only: those that are due by their debt, and those of idle banks. -/
theorem picks_of_queue_nil (t : BksTiming) {c : Sched} (h : c.queue = []) :
    picks t c =
      (((if t.allBank then [16] else upto 16).filter fun k => decide (9 ≤ debtOf c k) && decide (debtOf c k ≤ maxDebt c)).map
        fun k => (Pick.refresh k, true)) ++
      (if c.whistle then [] else ((if t.allBank then [16] else upto 16).filter fun k =>
        decide (2 ≤ debtOf c k) && decide (debtOf c k ≤ 8)).map fun k => (Pick.refresh k, true)) ++
      (((if t.allBank then [16] else upto 16).filter fun k => debtOf c k == 1).map fun k => (Pick.refresh k, false)) := by
  simp only [picks, byAge_of_queue_nil h, h]
  simp [Function.comp_def]

theorem picks_of_no_debt (t : BksTiming) {c : Sched} (hq : c.queue = []) (hd : ∀ k, debtOf c k = 0) : picks t c = [] := by
  rw [picks_of_queue_nil t hq]
  simp [hd]

theorem debtOf_single {c : Sched} {k d : Nat} (h : c.debts = [(k, d)]) (j : Nat) : debtOf c j = if j = k then d else 0 := by
  have hset : c.debts = tset [] k d := h
  rw [debtOf, hset, tget_tset]
  rfl

theorem filter_range_eq_single {p : Nat → Bool} {n k : Nat} (hk : k < n) (h : ∀ j, p j = decide (j = k)) :
    (List.range n).filter p = [k] := by
  have hp : p = fun j => j == k := funext fun j => by rw [h j]; rfl
  rw [hp, List.filter_beq, List.count_eq_one_of_mem List.nodup_range (List.mem_range.2 hk)]
  rfl

/-- One bank's overdue refresh is the only choice, under the whistle too (R190, R196). -/
theorem picks_of_overdue {t : BksTiming} {c : Sched} {k d : Nat} (hq : c.queue = []) (hall : t.allBank = false)
    (hdebts : c.debts = [(k, d)]) (hk : k < 16) (hd : 9 ≤ d) : picks t c = [(.refresh k, true)] := by
  have hmax : maxDebt c = d := by rw [maxDebt, hdebts]; exact Nat.zero_max d
  have hover : ((upto 16).filter fun j => decide (9 ≤ debtOf c j) && decide (debtOf c j ≤ maxDebt c)) = [k] :=
    filter_range_eq_single hk fun j => by
      rw [debtOf_single hdebts, hmax]
      by_cases hj : j = k <;> simp [hj, hd]
  have hnone {p : Nat → Bool} (h0 : p 0 = false) (hpd : p d = false) : ((upto 16).filter fun j => p (debtOf c j)) = [] :=
    List.filter_eq_nil_iff.2 fun j _ => by
      rw [debtOf_single hdebts]
      split
      · simp [hpd]
      · simp [h0]
  have hmid := hnone (p := fun x => decide (2 ≤ x) && decide (x ≤ 8)) rfl (by simp; omega)
  have hone := hnone (p := fun x => x == 1) rfl (by simp; omega)
  rw [picks_of_queue_nil t hq, hall]
  simp only [Bool.false_eq_true, if_false, hover, hmid, hone]
  simp

theorem startedCol_of_queue_nil (t : BksTiming) {c : Sched} (h : c.queue = []) (b : Nat) : startedCol t c b = none := by
  rw [startedCol, byAge_of_queue_nil h]
  rfl

/-- No bank takes a column command where the only choice, if any, is a refresh. -/
theorem doCols_of_no_col {n : PotIx} {g : GroupIx} {t : BksTiming} {ps : List (Pick × Bool)} {s : State}
    (h : ∀ b, colPick t (schedOf (potOf s n) g.toNat) b ps = none) (bs : List Nat) : doCols n g t ps bs s = s := by
  induction bs with
  | nil => rfl
  | cons b bs ih => rw [doCols, h b, ih]

theorem colPick_refresh (t : BksTiming) {c : Sched} (hq : c.queue = []) (k b : Nat) :
    colPick t c b [(.refresh k, true)] = none := by
  rw [colPick]
  simp only [startedCol_of_queue_nil t hq]
  split <;> rfl

/-- The scheduler as the cycle finds it: that the last pick issued a refresh is over (R488). -/
def pickStart (s : State) (n : PotIx) (g : GroupIx) : State := updSched s n g fun c => { c with refNow := false }

theorem schedOf_pickStart (s : State) (n : PotIx) (g : GroupIx) :
    schedOf (potOf (pickStart s n g) n) g.toNat = { schedOf (potOf s n) g.toNat with refNow := false } := schedOf_updSched_same ..

/-- The state after the cycle's row command, if any. -/
def rowIssued (s : State) (n : PotIx) (g : GroupIx) : Option RowCmd → State
  | some (.act e h) => doAct s n g e h
  | some (.pre b e) => doPre s n g b e
  | some (.ref k h) => doRef s n g k h
  | none => s

/-- A cycle without column commands issues the row command that its choices give. -/
theorem pickCycle_of_row {s : State} {n : PotIx} {g : GroupIx} {ps : List (Pick × Bool)} {r : Option RowCmd × List Nat}
    (hps : picks (bksTiming s n g) { schedOf (potOf s n) g.toNat with refNow := false } = ps)
    (hcol : ∀ b, colPick (bksTiming s n g) { schedOf (potOf s n) g.toNat with refNow := false } b ps = none)
    (hrow : ∀ clamp, rowWalk (bksTiming s n g) clamp { schedOf (potOf s n) g.toNat with refNow := false }
      (ps.filter fun x => pickStands { schedOf (potOf s n) g.toNat with refNow := false } x.1) [] = r) :
    pickCycle s n g = passCycle (rowIssued (pickStart s n g) n g r.1) n g := by
  have hstart := schedOf_pickStart s n g
  have hdo : doCols n g (bksTiming s n g) ps (upto 16) (pickStart s n g) = pickStart s n g :=
    doCols_of_no_col (fun b => by rw [hstart]; exact hcol b) _
  have hset : updSched s n g (fun _ => { schedOf (potOf s n) g.toNat with refNow := false }) = pickStart s n g := rfl
  simp only [pickCycle, hps, hset, hdo, hstart, hrow]
  rfl

theorem schedOf_passCycle (s : State) (n : PotIx) (g : GroupIx) :
    schedOf (potOf (passCycle s n g) n) g.toNat =
      { schedOf (potOf s n) g.toNat with
        cycle := (schedOf (potOf s n) g.toNat).cycle + 1, events := (schedOf (potOf (passCycle s n g) n) g.toNat).events } := by
  have h : schedOf (potOf (passCycle s n g) n) g.toNat = { schedOf (potOf s n) g.toNat with
      cycle := (schedOf (potOf s n) g.toNat).cycle + 1
      events := satField (schedOf (potOf s n) g.toNat).events 88 40 (schedOf (potOf s n) g.toNat).whistle.toNat } := by
    rw [passCycle, schedOf_updPot rfl, schedOf_updSched_same]
  rw [h]

theorem onlyPot_passCycle (s : State) (n : PotIx) (g : GroupIx) : onlyPot n s (passCycle s n g) := by
  rw [passCycle]
  exact (onlyPot_updSched ..).trans (onlyPot_updPot ..)

/-- A pick of a scheduler that is not in self-refresh, where no patrol command waits. -/
theorem exec_bksPick {s : State} {n : PotIx} {g : GroupIx} (hp : potPresent s n = true)
    (hself : (schedOf (potOf s n) g.toNat).selfRefresh = false) (hwaits : (potOf (pickCycle s n g) n).pat.waits = none) :
    exec (.bksPick n g) s = .next (pickCycle s n g) := by
  show execBksPick n g s = _
  simp only [execBksPick, hself, Bool.false_eq_true, if_false, whenDo, hp, if_true, patResume, hwaits]

theorem pat_passCycle (s : State) (n : PotIx) (g : GroupIx) : (potOf (passCycle s n g) n).pat = (potOf s n).pat := by
  rw [passCycle, potOf_updPot_same, updSched, potOf_updPot_same]
  rfl

theorem bksPick_idle {s : State} {n : PotIx} {g : GroupIx} (hp : potPresent s n = true)
    (hself : (schedOf (potOf s n) g.toNat).selfRefresh = false) (hq : (schedOf (potOf s n) g.toNat).queue = [])
    (hwaits : (potOf s n).pat.waits = none) (hd : ∀ k, debtOf (schedOf (potOf s n) g.toNat) k = 0) :
    runsTo (.bksPick n g) s fun t =>
      onlyPot n s t ∧
      schedOf (potOf t n) g.toNat = { schedOf (potOf s n) g.toNat with
        refNow := false, cycle := (schedOf (potOf s n) g.toNat).cycle + 1, events := (schedOf (potOf t n) g.toNat).events } := by
  have hcycle : pickCycle s n g = passCycle (pickStart s n g) n g :=
    pickCycle_of_row (r := (none, [])) (picks_of_no_debt _ hq hd) (fun _ => rfl) fun _ => rfl
  refine ⟨_, exec_bksPick hp hself ?_, ?_⟩
  · rw [hcycle, pat_passCycle, pickStart, pat_updSched, hwaits]
  · rw [hcycle]
    refine ⟨(onlyPot_updSched ..).trans (onlyPot_passCycle ..), ?_⟩
    have h := schedOf_passCycle (pickStart s n g) n g
    rwa [schedOf_pickStart] at h

/-! ### The overdue refresh of one bank (R190, R196, R488) -/

theorem runAll_of_each_same {α : Type} {f : State → α → State} {s : State} {l : List α} (h : ∀ x ∈ l, f s x = s) :
    runAll f l s = s := by
  induction l with
  | nil => rfl
  | cons x l ih =>
    have hx := h x List.mem_cons_self
    rw [runAll, List.foldl_cons, hx]
    exact ih fun y hy => h y (List.mem_cons_of_mem _ hy)

/-- Without buffered writes the boundary changes the whistle alone (R199, R489). -/
theorem bksApply_of_nothing_buffered {s : State} {n : PotIx} (g : GroupIx) (h : ∀ k ∈ bksKeys n, bufferOf s k = none) :
    bksApply s n g = updSched s n g (updWhistle (bksTiming s n g)) := by
  unfold bksApply
  extract_lets one s1
  have hs1 : s1 = s := runAll_of_each_same fun k hk => by simp only [one, h k hk]
  rw [hs1]

/-- The scheduler after the refresh of bank `k`. -/
def refreshed (k half : Nat) (c : Sched) : Sched :=
  let c1 := updBank c k fun x => { x with lastRef := c.cycle, refed := true, refAll := decide (k = 16) }
  { c1 with debts := tset c1.debts k (debtOf c k - 1), events := satField c1.events 32 8 (decide (9 ≤ debtOf c k)).toNat,
            acts := if k = 16 then c1.acts else (half :: c1.acts).take 4, refNow := true }

theorem doRef_eq {s : State} {n : PotIx} {g : GroupIx} {k : Nat} (half : Nat) (hk : k ≠ 16)
    (h : ∀ j ∈ bksKeys n, bufferOf s j = none) :
    ∃ t, doRef s n g k half = updSched (updSched s n g (refreshed k half)) n g (updWhistle t) := by
  have hone : doRef s n g k half = bksApply (updSched s n g (refreshed k half)) n g := by
    rw [doRef, pickBanks, if_neg hk]
    rfl
  exact ⟨_, hone.trans (bksApply_of_nothing_buffered (s := updSched s n g (refreshed k half)) g h)⟩

theorem rowCmdOf_refresh {t : BksTiming} {c : Sched} {k half : Nat} (clamp : Nat) (hk : k ≠ 16)
    (hready : rowReady t c (bankOf c k) = true) (hhalf : actHalf t c = some half) :
    rowCmdOf t clamp c (.refresh k) = some (.ref k half) := by
  have hclosed : (bankOf c k).openRow.isSome = false := by
    simp only [rowReady, Bool.and_eq_true, Option.isNone_iff_eq_none] at hready
    obtain ⟨⟨⟨hrow, -⟩, -⟩, -⟩ := hready
    rw [hrow]
    rfl
  simp [rowCmdOf, pickBanks, hk, hclosed, hready, hhalf]

theorem bksPick_overdue {s : State} {n : PotIx} {g : GroupIx} {k d half : Nat} (hp : potPresent s n = true)
    (hself : (schedOf (potOf s n) g.toNat).selfRefresh = false) (hq : (schedOf (potOf s n) g.toNat).queue = [])
    (hbuf : ∀ k ∈ bksKeys n, bufferOf s k = none) (hwaits : (potOf s n).pat.waits = none)
    (hdebts : (schedOf (potOf s n) g.toNat).debts = [(k, d)]) (hk : k < 16) (hd : 9 ≤ d) (hall : (bksTiming s n g).allBank = false)
    (hready : rowReady (bksTiming s n g) (schedOf (potOf s n) g.toNat) (bankOf (schedOf (potOf s n) g.toNat) k) = true)
    (hhalf : actHalf (bksTiming s n g) (schedOf (potOf s n) g.toNat) = some half) :
    runsTo (.bksPick n g) s fun t =>
      onlyPot n s t ∧ debtOf (schedOf (potOf t n) g.toNat) k = d - 1 ∧ (schedOf (potOf t n) g.toNat).refNow = true ∧
      (bankOf (schedOf (potOf t n) g.toNat) k).lastRef = (schedOf (potOf s n) g.toNat).cycle ∧
      (schedOf (potOf t n) g.toNat).cycle = (schedOf (potOf s n) g.toNat).cycle + 1 := by
  have hk16 : k ≠ 16 := by omega
  have hcycle : pickCycle s n g = passCycle (doRef (pickStart s n g) n g k half) n g :=
    pickCycle_of_row (r := (some (.ref k half), [k])) (picks_of_overdue hq hall hdebts hk hd) (colPick_refresh _ hq k) fun clamp => by
      have hcmd := rowCmdOf_refresh (c := { schedOf (potOf s n) g.toNat with refNow := false }) clamp hk16 hready hhalf
      simp [rowWalk, pickStands, hcmd, pickBanks, hk16]
  obtain ⟨tim, href⟩ := doRef_eq (s := pickStart s n g) (g := g) half hk16 hbuf
  have hc := schedOf_passCycle (doRef (pickStart s n g) n g k half) n g
  rw [href, schedOf_updSched_same, schedOf_updSched_same, schedOf_pickStart, ← href] at hc
  refine ⟨_, exec_bksPick hp hself ?_, ?_⟩
  · rw [hcycle, pat_passCycle, href, pat_updSched, pat_updSched, pickStart, pat_updSched, hwaits]
  · rw [hcycle]
    refine ⟨?_, ?_, ?_, ?_, ?_⟩
    · rw [href]
      exact (((onlyPot_updSched ..).trans (onlyPot_updSched ..)).trans (onlyPot_updSched ..)).trans (onlyPot_passCycle ..)
    · rw [hc, debtOf, updWhistle_debts]
      exact (tget_tset_same ..).trans (congrArg (· - 1) ((debtOf_single hdebts k).trans (if_pos rfl)))
    · rw [hc, updWhistle_refNow]
      rfl
    · rw [hc, bankOf, updWhistle_banks]
      exact (congrArg Bank.lastRef (tget_tset_same ..) :)
    · rw [hc, updWhistle_cycle]
      rfl

/-! ### Refreshes owed, and the eye (R188, R190) -/

theorem refreshInterval_owes {s : State} {n : PotIx} {g : GroupIx} (b : BitVec 4) (hp : potPresent s n = true)
    (hself : (schedOf (potOf s n) g.toNat).selfRefresh = false) (hall : (bksTiming s n g).allBank = false) :
    runsTo (.refreshInterval n g b) s fun t =>
      onlyPot n s t ∧ ∀ k, debtOf (schedOf (potOf t n) g.toNat) k =
        debtOf (schedOf (potOf s n) g.toNat) k + (if k = b.toNat then 1 else 0) := by
  refine ⟨_, if_pos (by rw [hp, hself, hall]; rfl), onlyPot_updSched .., fun k => ?_⟩
  rw [schedOf_updSched_same, hall]
  refine (tget_tset ..).trans ?_
  simp only [Bool.false_eq_true, if_false]
  split
  · next h => rw [h]
  · rfl

theorem eyeRecentre_centres {s : State} {n : PotIx} {g : GroupIx} (hp : potPresent s n = true)
    (hband : bandOf (potOf s n) (dieOf g) = 2) (hself : (schedOf (potOf s n) g.toNat).selfRefresh = false)
    (hwindow : inRefresh (bksTiming s n g) (schedOf (potOf s n) g.toNat) 64 = true) :
    runsTo (.eyeRecentre n g) s fun t =>
      onlyPot n s t ∧ schedOf (potOf t n) g.toNat = { schedOf (potOf s n) g.toNat with
        eyeCentred := true, busFree := (schedOf (potOf s n) g.toNat).cycle + 64 } :=
  ⟨_, if_pos (by rw [hp, hband, hself, hwindow]; rfl), onlyPot_updSched .., schedOf_updSched_same ..⟩

end Sys2Proof.Machine

namespace Sys2Proof.Machine

/-!
PROOFS. What an access to a bank leaves of the schedulers; narrow writes and the merge buffer.
-/

/-! ### What an access to a bank leaves of the schedulers (R24 to R30, R177 to R206, R377 to R403) -/

/-- The scheduler owes no refresh. -/
def noDebt (c : Sched) : Prop := ∀ e ∈ c.debts, e.2 = 0

theorem tget_of_all_default {α : Type} {m : SMap α} {d : α} (h : ∀ e ∈ m, e.2 = d) (k : Nat) : tget m k d = d := by
  rw [tget]
  induction m with
  | nil => rfl
  | cons e m ih =>
    obtain ⟨he, hm⟩ := List.forall_mem_cons.1 h
    rw [tfind]
    split_ifs
    · exact he
    · rfl
    · exact ih hm

theorem debtOf_of_noDebt {c : Sched} (h : noDebt c) (k : Nat) : debtOf c k = 0 := tget_of_all_default h k

/-- Of a scheduler its queue, its self-refresh and its retrain are kept, no entry joins the merge buffer, and no debt arises. -/
structure SchedKept (c d : Sched) : Prop where
  queue : d.queue = c.queue
  selfRefresh : d.selfRefresh = c.selfRefresh
  retraining : d.retraining = c.retraining
  merge : d.merge ⊆ c.merge
  noDebt : noDebt c → noDebt d

/-- A change of the scheduler's other fields. -/
theorem SchedKept.of_same {c d : Sched}
    (h : (d.queue, d.selfRefresh, d.retraining, d.merge, d.debts) = (c.queue, c.selfRefresh, c.retraining, c.merge, c.debts)) :
    SchedKept c d := by
  simp only [Prod.mk.injEq] at h
  obtain ⟨hqueue, hself, hretrain, hmerge, hdebts⟩ := h
  exact ⟨hqueue, hself, hretrain, fun _ hx => hmerge ▸ hx, fun hc e he => hc e (hdebts ▸ he)⟩

theorem SchedKept.refl (c : Sched) : SchedKept c c := .of_same rfl

theorem SchedKept.trans {c d e : Sched} (h : SchedKept c d) (k : SchedKept d e) : SchedKept c e :=
  ⟨k.queue.trans h.queue, k.selfRefresh.trans h.selfRefresh, k.retraining.trans h.retraining, fun _ hx => h.merge (k.merge hx),
    fun hc => k.noDebt (h.noDebt hc)⟩

/-- Every scheduler of the module stands to what it was in the relation `R`. -/
structure SchedsRel (R : Sched → Sched → Prop) (s t : State) : Prop where
  rel : ∀ m k, R (schedOf (potOf s m) k) (schedOf (potOf t m) k)

section Rel
variable {R : Sched → Sched → Prop} (refl : ∀ c, R c c) {s : State} {n : PotIx}
include refl

theorem schedsRel_setPot {p : Pot} (h : ∀ k, R (schedOf (potOf s n) k) (schedOf p k)) : SchedsRel R s (setPot s n p) := by
  refine ⟨fun m k => ?_⟩
  by_cases hm : m = n
  · subst hm
    rw [potOf_setPot_same]
    exact h k
  · rw [potOf_setPot_other _ _ _ _ hm]
    exact refl _

theorem schedsRel_updSched {g : GroupIx} {f : Sched → Sched} (h : ∀ c, R c (f c)) : SchedsRel R s (updSched s n g f) := by
  refine schedsRel_setPot refl fun k => ?_
  by_cases hk : k = g.toNat
  · rw [hk, schedOf_setSched_same]
    exact h _
  · rw [schedOf_setSched_other _ _ _ _ hk]
    exact refl _

end Rel

/-- What an access to a bank leaves of every scheduler. -/
abbrev schedsKept : State → State → Prop := SchedsRel SchedKept

theorem schedsKept.refl (s : State) : schedsKept s s := ⟨fun _ _ => .refl _⟩

theorem schedsKept.trans {s t u : State} (h : schedsKept s t) (k : schedsKept t u) : schedsKept s u :=
  ⟨fun m i => (h.rel m i).trans (k.rel m i)⟩

theorem schedsKept_updSched {s : State} {n : PotIx} {g : GroupIx} {f : Sched → Sched} (h : ∀ c, SchedKept c (f c)) :
    schedsKept s (updSched s n g f) := schedsRel_updSched .refl h

/-- A pot whose table of schedulers is the same. -/
theorem schedsKept_setPot {s : State} {n : PotIx} {p : Pot} (h : p.scheds = (potOf s n).scheds) : schedsKept s (setPot s n p) :=
  schedsRel_setPot .refl fun k => by
    rw [schedOf, schedOf, h]
    exact .refl _

theorem schedsKept_updPot {s : State} {n : PotIx} {f : Pot → Pot} (h : (f (potOf s n)).scheds = (potOf s n).scheds) :
    schedsKept s (updPot s n f) := schedsKept_setPot h

/-- Free values, bytes and fault records leave every pot. -/
theorem schedsKept_of_potOf {s t : State} (h : ∀ m, potOf t m = potOf s m) : schedsKept s t := ⟨fun m k => by
  rw [h m]
  exact .refl _⟩

theorem schedsKept_sendFault (s : State) (f : FaultInfo) : schedsKept s (sendFault s f) := schedsKept_of_potOf (potOf_sendFault s f)

theorem schedsKept_takeFreeBytes (k : Nat) (s : State) : schedsKept s (takeFreeBytes k s).2 := by
  obtain ⟨h, -⟩ := takeFreeBytes_frame k s
  exact schedsKept_of_potOf fun m => (congrArg (fun u : State => potOf u m) h :)

theorem schedsKept_dramCells (s : State) (a : Nat) (bs : List Byte) : schedsKept s (dramCells s a bs) :=
  schedsKept_of_potOf fun _ => rfl

theorem schedsKept_storeAt (s : State) (ix col : Nat) (bytes : List Byte) (poison : Bool) (flip : List Byte) :
    schedsKept s (storeAt s ix col bytes poison flip) := by
  have h := fun a b c d => (schedsKept_dramCells s a b).trans (schedsKept_dramCells (dramCells s a b) c d)
  simp only [storeAt]
  split
  · exact h ..
  · exact (h ..).trans (schedsKept_dramCells ..)

theorem scheds_withPat (p : Pot) (x : Pat) : { p with pat := x }.scheds = p.scheds := rfl

theorem scheds_logError (p : Pot) (addr kind symbol cls port : Nat) (tag : BitVec 16) (inf : BitVec 12) :
    (logError p addr kind symbol cls port tag inf).scheds = p.scheds := by
  obtain ⟨x, h⟩ := logError_withPat p addr kind symbol cls port tag inf
  rw [h]

theorem scheds_pmcAdd (p : Pot) (code by_ : Nat) : (pmcAdd p code by_).scheds = p.scheds :=
  (congrArg Pot.scheds (pmcAdd_frame p code by_) :)

theorem schedsKept_reportMismatch (s : State) (pl : Place) : schedsKept s (reportMismatch s pl) := by
  simp only [reportMismatch]
  split
  · exact .refl s
  · exact .trans (schedsKept_setPot (scheds_withPat ..)) (schedsKept_sendFault ..)

theorem schedsKept_noteActivate (s : State) (pl : Place) (w : Who) (bad : Bool) : schedsKept s (noteActivate s pl w bad) := by
  simp only [noteActivate]
  split
  · exact .trans (schedsKept_setPot ((scheds_withPat ..).trans (scheds_logError ..))) (schedsKept_sendFault ..)
  · exact .refl s

theorem schedsKept_noteRead (s : State) (pl : Place) (w : Who) (o : ReadOut) : schedsKept s (noteRead s pl w o) := by
  have hp := scheds_pmcAdd (potOf s pl.pot) 3 1
  unfold noteRead
  refine schedsKept_setPot ?_
  cases o with
  | corrected sym => exact ((scheds_logError ..).trans (scheds_withPat ..)).trans hp
  | uncorrectable => exact ((scheds_logError ..).trans (scheds_withPat ..)).trans hp
  | rowBad => exact (scheds_logError ..).trans hp
  | poison => exact (scheds_withPat ..).trans hp
  | clean => exact hp
  | unwritten => exact hp

theorem schedsKept_readRaw (s : State) (pl : Place) (w : Who) : schedsKept s (readRaw s pl w).1 := by
  simp only [readRaw]
  split
  · exact (schedsKept_reportMismatch s pl).trans (schedsKept_takeFreeBytes ..)
  · dsimp only
    exact (schedsKept_noteActivate ..).trans (schedsKept_noteRead ..)

theorem schedsKept_takeFlip (s : State) (pl : Place) (port : BksPort) : schedsKept s (takeFlip s pl port).1 := by
  simp only [takeFlip]
  split
  · exact schedsKept_setPot (scheds_withPat ..)
  · exact .refl s

theorem schedsKept_copyWrite (s : State) (pl : Place) (bytes : List Byte) (poison : Bool) :
    schedsKept s (copyWrite s pl bytes poison) := by
  unfold copyWrite
  split
  · exact .refl s
  · split
    · exact schedsKept_storeAt ..
    · exact .refl s

theorem schedsKept_markDirty (s : State) (pl : Place) (port : BksPort) : schedsKept s (markDirty s pl port) := by
  unfold markDirty
  split
  · exact schedsKept_updSched fun _ => .of_same rfl
  · exact .refl s

theorem schedsKept_writeRaw (s : State) (pl : Place) (w : Who) (bytes : List Byte) (poison : Bool) :
    schedsKept s (writeRaw s pl w bytes poison) := by
  unfold writeRaw
  split
  · exact (schedsKept_reportMismatch s pl).trans (schedsKept_updPot (scheds_withPat ..))
  · exact (((((schedsKept_noteActivate ..).trans (schedsKept_takeFlip ..)).trans (schedsKept_storeAt ..)).trans
      (schedsKept_copyWrite ..)).trans (schedsKept_markDirty ..)).trans (schedsKept_updPot (scheds_pmcAdd ..))

theorem schedsKept_events (s : State) (n : PotIx) (g : GroupIx) (f : BitVec 128 → BitVec 128) :
    schedsKept s (updSched s n g fun c => { c with events := f c.events }) :=
  schedsKept_updSched fun _ => .of_same rfl

theorem schedsKept_runMerge (s : State) (n : PotIx) (g : GroupIx) (e : MergeEntry) : schedsKept s (runMerge s n g e) := by
  have hcount := schedsKept_events s n g fun x => satField x 56 16 1
  unfold runMerge
  extract_lets pl r
  exact (hcount.trans (schedsKept_readRaw _ pl moveWho)).trans (schedsKept_writeRaw r.1 pl ..)

theorem schedsKept_dropMerge (s : State) (pl : Place) : schedsKept s (dropMerge s pl) :=
  schedsKept_updSched fun _ => ⟨rfl, rfl, rfl, List.filter_subset_self _, fun h => h⟩

theorem schedsKept_flushMerge (s : State) (pl : Place) : schedsKept s (flushMerge s pl) := by
  unfold flushMerge
  split
  · exact (schedsKept_dropMerge ..).trans (schedsKept_runMerge ..)
  · exact .refl s

theorem schedsKept_readWordAt (s : State) (pl : Place) (w : Who) : schedsKept s (readWordAt s pl w).1 :=
  (schedsKept_flushMerge s pl).trans (schedsKept_readRaw ..)

theorem schedsKept_writeWordAt (s : State) (pl : Place) (w : Who) (bytes : List Byte) (poison : Bool) :
    schedsKept s (writeWordAt s pl w bytes poison) := (schedsKept_dropMerge ..).trans (schedsKept_writeRaw ..)

/-! ### Narrow writes (R202, R203, R205) -/

theorem natOfBytes_bytesOfNat (k v : Nat) : natOfBytes (bytesOfNat k v) = v % 256 ^ k := by
  induction k generalizing v with
  | zero => rw [Nat.pow_zero, Nat.mod_one]; rfl
  | succ k ih =>
    rw [bytesOfNat, natOfBytes, ih, BitVec.toNat_ofNat, show 256 ^ (k + 1) = 256 * 256 ^ k from Nat.pow_succ']
    exact Nat.mod_mul.symm

theorem wordOfBytes_bytesOfWord (w : ColWord) : wordOfBytes (bytesOfWord w) = w := by
  rw [wordOfBytes, bytesOfWord, natOfBytes_bytesOfNat]
  have hw : w.toNat % 256 ^ 32 = w.toNat := Nat.mod_eq_of_lt (by have := w.isLt; omega)
  rw [hw, BitVec.ofNat_toNat, BitVec.setWidth_eq]

section Narrow
variable {s : State} {n : PotIx} {g : GroupIx} {b : BitVec 4} {r : BitVec 15} {c : BitVec 6} {data : ColWord} {mask : BitVec 32}
  {poison : Bool}

theorem exec_narrowWrite (hp : potPresent s n = true) (hmask : mask ≠ 0)
    (hfree : wordWaits (schedOf (potOf s n) g.toNat) ⟨n, g, b, r, c⟩ = false) :
    exec (.narrowWrite n g b r c data mask poison) s =
      if chanServes s n g then .next (narrowServe s ⟨n, g, b, r, c⟩ data mask poison)
      else .next (waitAccess s (.narrow n g b r c data mask poison)) := by
  have hm : (mask == 0) = false := beq_eq_false_iff_ne.2 hmask
  exact if_neg (by rw [hp, hm, hfree]; decide)

theorem narrowWrite_waits (hp : potPresent s n = true) (hmask : mask ≠ 0)
    (hfree : wordWaits (schedOf (potOf s n) g.toNat) ⟨n, g, b, r, c⟩ = false) (hserves : chanServes s n g = false) :
    runsTo (.narrowWrite n g b r c data mask poison) s fun t =>
      t = { s with map := { s.map with waiting := s.map.waiting ++ [.narrow n g b r c data mask poison] } } := by
  refine ⟨_, ?_, rfl⟩
  rw [exec_narrowWrite hp hmask hfree, hserves]
  rfl

theorem narrowWrite_merges (hp : potPresent s n = true) (hmask : mask ≠ 0)
    (hfree : wordWaits (schedOf (potOf s n) g.toNat) ⟨n, g, b, r, c⟩ = false) (hserves : chanServes s n g = true)
    (hpart : mask ≠ BitVec.allOnes 32) (hnew : ∀ e ∈ (schedOf (potOf s n) g.toNat).merge, mergeHit e ⟨n, g, b, r, c⟩ = false)
    (hroom : (schedOf (potOf s n) g.toNat).merge.length < 16) :
    runsTo (.narrowWrite n g b r c data mask poison) s fun t =>
      onlyPot n s t ∧ (schedOf (potOf t n) g.toNat).merge =
        (schedOf (potOf s n) g.toNat).merge ++ [⟨b, r, c, data, mask, poison⟩] := by
  have hfind : (schedOf (potOf s n) g.toNat).merge.find? (fun e => mergeHit e ⟨n, g, b, r, c⟩) = none :=
    List.find?_eq_none.2 fun e he => by simp [hnew e he]
  have hat : narrowServe s ⟨n, g, b, r, c⟩ data mask poison = updSched s n g fun x =>
      { x with merge := x.merge ++ [⟨b, r, c, wordOfBytes (bytesOfWord data), mask, poison⟩] } := by
    simp only [narrowServe, if_neg hpart, narrowWriteAt, hfind, if_pos hroom]
  refine ⟨updSched s n g fun x => { x with merge := x.merge ++ [⟨b, r, c, wordOfBytes (bytesOfWord data), mask, poison⟩] }, ?_,
    onlyPot_updSched .., ?_⟩
  · rw [exec_narrowWrite hp hmask hfree, if_pos hserves, hat]
  · rw [schedOf_updSched_same, wordOfBytes_bytesOfWord]

/-- No entry of the word is left in its scheduler's merge buffer. -/
theorem flushMerge_empties (s : State) (pl : Place) :
    ∀ e ∈ (schedOf (potOf (flushMerge s pl) pl.pot) pl.group.toNat).merge, mergeHit e pl = false := by
  intro x hx
  unfold flushMerge at hx
  split at hx
  · have hin := ((schedsKept_runMerge ..).rel pl.pot pl.group.toNat).merge hx
    rw [dropMerge, schedOf_updSched_same] at hin
    simpa using (List.mem_filter.1 hin).2
  · next hnone => simpa using List.find?_eq_none.1 hnone x hx

theorem mergeTimeout_empties (hp : potPresent s n = true) (hserves : chanServes s n g = true) :
    runsTo (.mergeTimeout n g b r c) s fun t =>
      t.tray = s.tray ∧ ∀ e ∈ (schedOf (potOf t n) g.toNat).merge, mergeHit e ⟨n, g, b, r, c⟩ = false :=
  ⟨_, if_pos (by rw [hp, hserves]; rfl), (dramSide_flushMerge ..).tray, flushMerge_empties s ⟨n, g, b, r, c⟩⟩

end Narrow

end Sys2Proof.Machine

namespace Sys2Proof.Machine

/-!
PROOFS. Live retraining: the channel is drained and put into self-refresh, and an attempt ends the retrain or is followed by another.
-/

/-! ### The request queue is drained (R194, R196, R204) -/

theorem insertEntry_perm (e : BksEntry) (l : List BksEntry) : (insertEntry e l).Perm (e :: l) := by
  induction l with
  | nil => exact .refl _
  | cons x l ih =>
    rw [insertEntry]
    split
    · exact .refl _
    · exact (ih.cons x).trans (.swap e x l)

theorem foldl_insertEntry_perm (q l : List BksEntry) : (q.foldl (fun l e => insertEntry e l) l).Perm (l ++ q) := by
  induction q generalizing l with
  | nil => simp
  | cons e q ih => exact (ih _).trans (((insertEntry_perm e l).append_right q).trans List.perm_middle.symm)

/-- The order of age keeps every request, once. -/
theorem byAge_perm (c : Sched) : (byAge c).Perm c.queue := foldl_insertEntry_perm c.queue []

/-- No channel of the module begins or ends a retrain. -/
abbrev retrainKept : State → State → Prop := SchedsRel fun c d => d.retraining = c.retraining

theorem retrainKept.refl (s : State) : retrainKept s s := ⟨fun _ _ => rfl⟩

theorem retrainKept.trans {s t u : State} (h : retrainKept s t) (k : retrainKept t u) : retrainKept s u :=
  ⟨fun m i => (k.rel m i).trans (h.rel m i)⟩

theorem schedsKept.retrainKept {s t : State} (h : schedsKept s t) : retrainKept s t := ⟨fun m k => (h.rel m k).retraining⟩

theorem retrainKept_updSched {s : State} {n : PotIx} {g : GroupIx} {f : Sched → Sched} (h : ∀ c, (f c).retraining = c.retraining) :
    retrainKept s (updSched s n g f) := schedsRel_updSched (R := fun c d => d.retraining = c.retraining) (fun _ => rfl) h

/-- A step of the scheduler `g` of pot `n` whose queue becomes `q`: it moves bytes, and no channel begins or ends a retrain. -/
structure QueueStep (n : PotIx) (g : GroupIx) (s t : State) (q : List BksEntry) : Prop where
  dram : dramSide s t
  retrain : retrainKept s t
  queue : (schedOf (potOf t n) g.toNat).queue = q

theorem QueueStep.trans {n : PotIx} {g : GroupIx} {s t u : State} {p q : List BksEntry} (h : QueueStep n g s t p)
    (k : QueueStep n g t u q) : QueueStep n g s u q := ⟨h.dram.trans k.dram, h.retrain.trans k.retrain, k.queue⟩

theorem queueStep_of_kept {n : PotIx} {g : GroupIx} {s t : State} (hd : dramSide s t) (h : schedsKept s t) :
    QueueStep n g s t (schedOf (potOf s n) g.toNat).queue := ⟨hd, h.retrainKept, (h.rel n g.toNat).queue⟩

theorem queueStep_updSched {n : PotIx} {g : GroupIx} {s : State} {f : Sched → Sched} (h : ∀ c, (f c).retraining = c.retraining) :
    QueueStep n g s (updSched s n g f) (f (schedOf (potOf s n) g.toNat)).queue :=
  ⟨dramSide_updSched .., retrainKept_updSched h, by rw [schedOf_updSched_same]⟩

/-- An entry that has been started reads so from then on; the others are as they were. -/
def markStarted (e x : BksEntry) : BksEntry := if x = e then { x with started := true } else x

theorem startEntry_queue (c : Sched) (e : BksEntry) : (startEntry c e).queue = c.queue.map (markStarted e) := rfl

/-- The scheduler after the column access of a request, which leaves the queue. -/
def colLeft (t : BksTiming) (aged : Bool) (e : BksEntry) (c : Sched) : Sched :=
  let c1 := if isBus e.req then c else colBank t c e.req.bank.toNat (isReadOp e.req) (!crosses e)
  { c1 with queue := c1.queue.erase e,
            crossings := if crosses e then (c.cycle :: c.crossings).take 32 else c.crossings,
            events := satField c1.events 72 16 aged.toNat }

theorem colLeft_queue (t : BksTiming) (aged : Bool) (e : BksEntry) (c : Sched) : (colLeft t aged e c).queue = c.queue.erase e := by
  simp only [colLeft]
  split <;> rfl

theorem colLeft_retraining (t : BksTiming) (aged : Bool) (e : BksEntry) (c : Sched) :
    (colLeft t aged e c).retraining = c.retraining := by
  simp only [colLeft]
  split <;> rfl

theorem queueStep_doCol (s : State) (n : PotIx) (g : GroupIx) (t : BksTiming) (aged : Bool) (e : BksEntry) :
    QueueStep n g s (doCol s n g t aged e) ((schedOf (potOf s n) g.toNat).queue.erase e) := by
  have hleaves {s1 : State} (h : QueueStep n g s s1 (schedOf (potOf s n) g.toNat).queue) :
      QueueStep n g s (updSched s1 n g (colLeft t aged e)) ((schedOf (potOf s n) g.toNat).queue.erase e) := by
    have k := h.trans (queueStep_updSched (n := n) (g := g) (colLeft_retraining t aged e))
    rwa [colLeft_queue, h.queue] at k
  refine hleaves ?_
  dsimp only
  split
  · have hread := queueStep_of_kept (n := n) (g := g) (dramSide_readWordAt s (bksPlace n g e.req) (bksWho e))
      (schedsKept_readWordAt s (bksPlace n g e.req) (bksWho e))
    have k := hread.trans (queueStep_updSched (n := n) (g := g) (f := fun c => { c with
      lastRead := some (wordOfBytes (readWordAt s (bksPlace n g e.req) (bksWho e)).2.bytes,
        (readWordAt s (bksPlace n g e.req) (bksWho e)).2.poison) }) fun _ => rfl)
    rwa [hread.queue] at k
  · exact queueStep_of_kept (dramSide_writeWordAt ..) (schedsKept_writeWordAt ..)
  · exact queueStep_of_kept (.refl s) (.refl s)

theorem schedsKept_actBank (s : State) (pl : Place) (w : Who) (half : Nat) (lu restore : Bool) :
    schedsKept s (actBank s pl w half lu restore) := by
  unfold actBank
  extract_lets t bad s1
  have hpmc (p : Pot) : (pmcAdd (pmcAdd p 2 1) 4 restore.toNat).scheds = p.scheds := (scheds_pmcAdd ..).trans (scheds_pmcAdd ..)
  refine ((schedsKept_noteActivate s pl w bad).trans (schedsKept_updSched fun c => ?_)).trans (schedsKept_updPot (hpmc _))
  exact .of_same rfl

theorem dramSide_actBank (s : State) (pl : Place) (w : Who) (half : Nat) (lu restore : Bool) :
    dramSide s (actBank s pl w half lu restore) := by
  unfold actBank
  extract_lets t bad s1
  exact ((dramSide_noteActivate s pl w bad).trans (dramSide_updSched ..)).trans
    (dramSide_updPot ((bankSide_pmcAdd ..).trans (bankSide_pmcAdd ..)))

theorem queueStep_doAct (s : State) (n : PotIx) (g : GroupIx) (e : BksEntry) (half : Nat) :
    QueueStep n g s (doAct s n g e half) ((schedOf (potOf s n) g.toNat).queue.map (markStarted e)) := by
  unfold doAct
  extract_lets k lu
  have hact := queueStep_of_kept (n := n) (g := g)
    (dramSide_actBank s (bksPlace n g e.req) (bksWho e) half lu (lu && k.luRow == some e.req.row)) (schedsKept_actBank ..)
  have h := hact.trans (queueStep_updSched (n := n) (g := g) (f := fun c => startEntry c e) fun _ => rfl)
  rwa [startEntry_queue, hact.queue] at h

theorem queueStep_doPre (s : State) (n : PotIx) (g : GroupIx) (b : Nat) :
    QueueStep n g s (doPre s n g b none) (schedOf (potOf s n) g.toNat).queue :=
  queueStep_updSched (f := fun c => preBank (bksTiming s n g) c b) fun _ => rfl

/-- Among different requests the started one leaves the queue, though another may read as it does once started. -/
theorem map_markStarted_erase {e : BksEntry} {q es : List BksEntry} (hq : q.Perm (e :: es)) (hnew : e ∉ es) :
    ((q.map (markStarted e)).erase { e with started := true }).Perm es := by
  have hrest : es.map (markStarted e) = es :=
    (List.map_congr_left (g := id) fun x hx => if_neg (ne_of_mem_of_not_mem hx hnew)).trans (List.map_id es)
  have hmap := hq.map (markStarted e)
  rw [List.map_cons, hrest, markStarted, if_pos rfl] at hmap
  have h := hmap.erase { e with started := true }
  rwa [List.erase_cons_head] at h

/-- Serving the oldest request takes it out of the queue. -/
theorem queueStep_drainEntry {n : PotIx} {g : GroupIx} (t : BksTiming) {s : State} {e : BksEntry} {es : List BksEntry}
    (hq : (schedOf (potOf s n) g.toNat).queue.Perm (e :: es)) (hnew : e ∉ es) :
    ∃ q, QueueStep n g s (drainEntry n g t s e) q ∧ q.Perm es := by
  unfold drainEntry
  extract_lets c s1 s2
  split
  · exact ⟨_, queueStep_doCol .., List.cons_perm_iff_perm_erase.1 hq.symm |>.2.symm⟩
  · have h1 : QueueStep n g s s1 c.queue := by
      unfold s1
      split
      · exact queueStep_doPre ..
      · exact queueStep_of_kept (.refl s) (.refl s)
    have h2 := h1.trans (queueStep_updSched (n := n) (g := g) (f := fun c => { c with cycle := c.cycle + t.trc }) fun _ => rfl)
    rw [h1.queue] at h2
    have h3 := h2.trans (queueStep_doAct s2 n g e (2 * (c.cycle + t.trc)))
    rw [h2.queue] at h3
    have h4 := h3.trans (queueStep_doCol _ n g t false { e with started := true })
    rw [h3.queue] at h4
    exact ⟨_, h4, map_markStarted_erase hq hnew⟩

/-- The queue is empty when every request of it, each another one, has been served. -/
theorem queueStep_drainQueue {n : PotIx} {g : GroupIx} (t : BksTiming) {es : List BksEntry} {s : State}
    (hq : (schedOf (potOf s n) g.toNat).queue.Perm es) (hes : es.Nodup) : QueueStep n g s (drainQueue n g t es s) [] := by
  induction es generalizing s with
  | nil =>
    have h := queueStep_of_kept (n := n) (g := g) (.refl s) (.refl s)
    rwa [hq.eq_nil] at h
  | cons e es ih =>
    obtain ⟨hnew, hrest⟩ := List.nodup_cons.1 hes
    obtain ⟨q, hstep, hperm⟩ := queueStep_drainEntry t hq hnew
    exact hstep.trans (ih (hstep.queue ▸ hperm) hrest)

/-! ### The merge buffer, the open rows and the debts (R190, R203, R204) -/

theorem dramSide_runMerge (s : State) (n : PotIx) (g : GroupIx) (e : MergeEntry) : dramSide s (runMerge s n g e) := by
  unfold runMerge
  extract_lets pl r
  exact ((dramSide_updSched ..).trans (dramSide_readRaw _ pl moveWho)).trans (dramSide_writeRaw r.1 pl ..)

theorem mergeHit_self (e : MergeEntry) (n : PotIx) (g : GroupIx) : mergeHit e ⟨n, g, e.bank, e.row, e.col⟩ = true := by
  simp [mergeHit]

/-- Writing the listed entries changes bytes, and leaves none of their words in the merge buffer. -/
theorem drainMerge_spec (n : PotIx) (g : GroupIx) (es : List MergeEntry) (s : State) :
    dramSide s (drainMerge n g es s) ∧ schedsKept s (drainMerge n g es s) ∧
      ∀ x ∈ (schedOf (potOf (drainMerge n g es s) n) g.toNat).merge, x ∉ es := by
  induction es generalizing s with
  | nil => exact ⟨.refl s, .refl s, fun _ _ => List.not_mem_nil⟩
  | cons e es ih =>
    obtain ⟨hdram, hkept, hout⟩ := ih (runMerge (dropMerge s ⟨n, g, e.bank, e.row, e.col⟩) n g e)
    have hdrop := schedsKept_dropMerge s ⟨n, g, e.bank, e.row, e.col⟩
    have hrun := schedsKept_runMerge (dropMerge s ⟨n, g, e.bank, e.row, e.col⟩) n g e
    refine ⟨((dramSide_dropMerge ..).trans (dramSide_runMerge ..)).trans hdram, (hdrop.trans hrun).trans hkept, fun x hx => ?_⟩
    have hleft := (hrun.rel n g.toNat).merge ((hkept.rel n g.toNat).merge hx)
    rw [dropMerge, schedOf_updSched_same] at hleft
    rintro hin
    rcases List.mem_cons.1 hin with rfl | hin
    · simpa [mergeHit_self] using (List.mem_filter.1 hleft).2
    · exact hout x hx hin

theorem drainMerge_empties (n : PotIx) (g : GroupIx) (s : State) :
    (schedOf (potOf (drainMerge n g (schedOf (potOf s n) g.toNat).merge s) n) g.toNat).merge = [] := by
  obtain ⟨-, hkept, hout⟩ := drainMerge_spec n g (schedOf (potOf s n) g.toNat).merge s
  exact List.eq_nil_iff_forall_not_mem.2 fun x hx => hout x hx ((hkept.rel n g.toNat).merge hx)

theorem schedKept_foldl {α : Type} {f : Sched → α → Sched} (h : ∀ c a, SchedKept c (f c a)) (l : List α) (c : Sched) :
    SchedKept c (l.foldl f c) := by
  induction l generalizing c with
  | nil => exact .refl c
  | cons a l ih => exact (h c a).trans (ih _)

theorem schedKept_closeBanks (t : BksTiming) (c : Sched) : SchedKept c (closeBanks t c) :=
  schedKept_foldl (fun c b => by
    split
    · exact .of_same rfl
    · exact .refl c) _ c

theorem noDebt_payDebts (c : Sched) : noDebt (payDebts c) := fun _ h => absurd h List.not_mem_nil

theorem schedKept_payDebts (c : Sched) : SchedKept c (payDebts c) := ⟨rfl, rfl, rfl, fun _ h => h, fun _ => noDebt_payDebts c⟩

/-! ### A scheduler's boundary (R189, R488, R489) -/

theorem maxDebt_of_noDebt {c : Sched} (h : noDebt c) : maxDebt c = 0 := by
  have hzero : ∀ l : List Nat, (∀ x ∈ l, x = 0) → l.foldl Nat.max 0 = 0 := fun l hl => by
    rw [List.eq_replicate_of_mem hl]
    induction l.length with
    | zero => rfl
    | succ k ih => exact ih
  exact hzero _ fun x hx => by
    obtain ⟨e, he, rfl⟩ := List.mem_map.1 hx
    exact h e he

/-- Another refresh mode carries the debts over, and none arises. -/
theorem schedKept_refMode (old new : Bool) (c : Sched) : SchedKept c (refMode old new c) := by
  unfold refMode
  split_ifs
  · exact .refl c
  · refine ⟨rfl, rfl, rfl, fun _ h => h, fun h e he => ?_⟩
    rw [List.mem_singleton.1 he]
    exact maxDebt_of_noDebt h
  · refine ⟨rfl, rfl, rfl, fun _ h => h, fun h e he => ?_⟩
    obtain ⟨b, -, rfl⟩ := List.mem_map.1 he
    exact debtOf_of_noDebt h 16

/-- Of the module its pots and its registers only; of a pot neither BKS_RETRAIN nor what an access leaves of the schedulers. -/
structure BoundaryOnly (s t : State) : Prop where
  state : t = { s with pots := t.pots, regs := t.regs }
  ctl : ∀ m, (potOf t m).bksRetrain = (potOf s m).bksRetrain
  scheds : schedsKept s t

theorem BoundaryOnly.refl (s : State) : BoundaryOnly s s := ⟨rfl, fun _ => rfl, .refl s⟩

theorem BoundaryOnly.trans {s t u : State} (h : BoundaryOnly s t) (k : BoundaryOnly t u) : BoundaryOnly s u :=
  ⟨by rw [k.state, h.state], fun m => (k.ctl m).trans (h.ctl m), h.scheds.trans k.scheds⟩

theorem boundaryOnly_regs (s : State) (r : RegIf) : BoundaryOnly s { s with regs := r } :=
  ⟨rfl, fun _ => rfl, schedsKept_of_potOf fun _ => rfl⟩

theorem boundaryOnly_updPot {s : State} {n : PotIx} {f : Pot → Pot} (hctl : (f (potOf s n)).bksRetrain = (potOf s n).bksRetrain)
    (hscheds : (f (potOf s n)).scheds = (potOf s n).scheds) : BoundaryOnly s (updPot s n f) := by
  refine ⟨rfl, fun m => ?_, schedsKept_updPot hscheds⟩
  by_cases hm : m = n
  · subst hm
    rw [potOf_updPot_same, hctl]
  · rw [potOf_updPot_other _ _ _ _ hm]

theorem boundaryOnly_updSched {s : State} {n : PotIx} {g : GroupIx} {f : Sched → Sched} (h : ∀ c, SchedKept c (f c)) :
    BoundaryOnly s (updSched s n g f) := by
  refine ⟨rfl, fun m => ?_, schedsKept_updSched h⟩
  by_cases hm : m = n
  · subst hm
    rw [updSched, potOf_updPot_same]
    rfl
  · rw [updSched, potOf_updPot_other _ _ _ _ hm]

theorem schedKept_updWhistle (t : BksTiming) (c : Sched) : SchedKept c (updWhistle t c) := by
  rw [updWhistle_eq]
  exact .of_same rfl

theorem boundaryOnly_bksApply (s : State) (n : PotIx) (g : GroupIx) : BoundaryOnly s (bksApply s n g) := by
  unfold bksApply
  extract_lets one s1
  have hone (u : State) (key : Nat) : BoundaryOnly u (one u key) := by
    unfold one
    split
    · exact .refl u
    · extract_lets by_ w t1 t2
      have h1 : BoundaryOnly u t1 := boundaryOnly_updSched fun c => by
        split
        · exact .of_same rfl
        · split
          · exact .trans (d := { c with timingB := w }) (.of_same rfl) (schedKept_refMode ..)
          · exact .of_same rfl
      split
      · exact .refl u
      · split
        · have hregs := (h1.trans (boundaryOnly_regs t1 (dropBuffer t1 key).regs)).trans
            (boundaryOnly_regs _ (parityEnds (dropBuffer t1 key) key).regs)
          refine hregs.trans (boundaryOnly_updPot ?_ ?_)
          · dsimp only
            split_ifs <;> rfl
          · dsimp only
            split_ifs <;> rfl
        · exact h1.trans (boundaryOnly_regs ..)
  exact (runAll_rel BoundaryOnly.refl BoundaryOnly.trans hone (bksKeys n) s).trans (boundaryOnly_updSched (schedKept_updWhistle _))

theorem BoundaryOnly.sameBytes {s t : State} (h : BoundaryOnly s t) : sameBytes s t := by
  rw [h.state]
  exact sameBytes_of_stores rfl rfl rfl

/-! ### RETRAIN (R204) -/

theorem find?_upto_eq {p : Nat → Bool} {k n : Nat} (hk : k < n) (hp : p k = true) (hother : ∀ j, j ≠ k → p j = false) :
    (upto n).find? p = some k := by
  cases hfind : (upto n).find? p with
  | none => exact absurd hp (List.find?_eq_none.1 hfind k (List.mem_range.2 hk))
  | some j =>
    by_contra hne
    have hj := List.find?_some hfind
    rw [hother j fun h => hne (by rw [h])] at hj
    exact absurd hj Bool.false_ne_true

/-- The channel that alone retrains is the one that the pot reports. -/
theorem retrainGroup_eq {p : Pot} {g : GroupIx} (hg : (schedOf p g.toNat).retraining = true)
    (hother : ∀ h, h ≠ g.toNat → (schedOf p h).retraining = false) : retrainGroup p = g := by
  have hfind : ((upto 64).find? fun h => (schedOf p h).retraining) = some g.toNat := find?_upto_eq g.isLt hg hother
  rw [retrainGroup, hfind]
  exact (BitVec.ofNat_toNat 6 g).trans (BitVec.setWidth_eq g)

theorem retrainBusy_start (g : GroupIx) : bitAt (BitVec.ofNat 64 (g.toNat + 2 ^ 7)) 7 = true := by
  rw [bitAt_eq_fieldN, fieldN_ofNat _ _ _ _ (by omega)]
  have := g.isLt
  exact decide_eq_true (by omega)

/-- The channel has come to rest: queue and merge buffer are written out, the open rows closed, the debts paid. -/
structure Drained (s : State) (n : PotIx) (g : GroupIx) (u : State) : Prop where
  tray : u.tray = s.tray
  retrain : retrainKept s u
  queue : (schedOf (potOf u n) g.toNat).queue = []
  merge : (schedOf (potOf u n) g.toNat).merge = []
  noDebt : noDebt (schedOf (potOf u n) g.toNat)

/-- A retrain's start is the drained channel put into self-refresh, with BUSY set. -/
theorem retrainStart_eq {s : State} {n : PotIx} {g : GroupIx} (hnodup : (schedOf (potOf s n) g.toNat).queue.Nodup) :
    ∃ u, Drained s n g u ∧ retrainStart s n g =
      updPot (updSched u n g fun c => { c with selfRefresh := true, retraining := true }) n
        fun p => { p with bksRetrain := BitVec.ofNat 64 (g.toNat + 2 ^ 7) } := by
  unfold retrainStart
  extract_lets t s1 s2 owed s3 s4
  have hqueue : QueueStep n g s s1 [] :=
    queueStep_drainQueue t (byAge_perm _).symm ((byAge_perm _).nodup_iff.2 hnodup)
  obtain ⟨hdram, hmerge, -⟩ := drainMerge_spec n g (schedOf (potOf s1 n) g.toNat).merge s1
  have hempty : (schedOf (potOf s2 n) g.toNat).merge = [] := drainMerge_empties n g s1
  have hpaid : schedsKept s2 s3 := schedsKept_updSched fun c => (schedKept_closeBanks t c).trans (schedKept_payDebts _)
  have hzero : noDebt (schedOf (potOf s3 n) g.toNat) := by
    rw [schedOf_updSched_same]
    exact noDebt_payDebts _
  have hbound : BoundaryOnly s3 (if owed then bksApply s3 n g else s3) := by
    split
    · exact boundaryOnly_bksApply s3 n g
    · exact .refl s3
  have hrest := hpaid.trans hbound.scheds
  refine ⟨if owed then bksApply s3 n g else s3, ⟨?_, ?_, ?_, ?_, ?_⟩, rfl⟩
  · calc (if owed then bksApply s3 n g else s3).tray = s3.tray := (congrArg State.tray hbound.state :)
      _ = s1.tray := hdram.tray
      _ = s.tray := hqueue.dram.tray
  · exact hqueue.retrain.trans (hmerge.trans hrest).retrainKept
  · exact (((hmerge.trans hrest).rel n g.toNat).queue).trans hqueue.queue
  · exact List.subset_nil.1 (hempty ▸ (hrest.rel n g.toNat).merge)
  · exact (hbound.scheds.rel n g.toNat).noDebt hzero

theorem retrain_begins {s : State} {n : PotIx} {g : GroupIx} (hon : potOn s n = true) (hidle : retrainBusy (potOf s n) = false)
    (hpar : bksParity s n = false) (hadmits : admits (schedOf (potOf s n) g.toNat) = true)
    (hnodup : (schedOf (potOf s n) g.toNat).queue.Nodup) (hnone : ∀ h, (schedOf (potOf s n) h).retraining = false) :
    runsTo (.retrain n g) s fun t =>
      t.tray = s.tray ∧ (schedOf (potOf t n) g.toNat).queue = [] ∧ (schedOf (potOf t n) g.toNat).merge = [] ∧
      (∀ k, debtOf (schedOf (potOf t n) g.toNat) k = 0) ∧ (schedOf (potOf t n) g.toNat).selfRefresh = true ∧
      retrainBusy (potOf t n) = true ∧ retrainGroup (potOf t n) = g := by
  obtain ⟨u, hu, hstart⟩ := retrainStart_eq hnodup
  refine ⟨retrainStart s n g, if_pos (by rw [hon, hidle, hpar, hadmits]; rfl), ?_⟩
  have hsched (h : Nat) : schedOf (potOf (retrainStart s n g) n) h =
      schedOf (potOf (updSched u n g fun c => { c with selfRefresh := true, retraining := true }) n) h := by
    rw [hstart, schedOf_updPot rfl]
  have hg := hsched g.toNat
  rw [schedOf_updSched_same] at hg
  refine ⟨?_, ?_, ?_, ?_, ?_, ?_, ?_⟩
  · rw [hstart]
    exact hu.tray
  · rw [hg]
    exact hu.queue
  · rw [hg]
    exact hu.merge
  · rw [hg]
    exact debtOf_of_noDebt (c := { schedOf (potOf u n) g.toNat with selfRefresh := true, retraining := true }) hu.noDebt
  · rw [hg]
  · rw [hstart, potOf_updPot_same]
    exact retrainBusy_start g
  · refine retrainGroup_eq (by rw [hg]) fun h hh => ?_
    rw [hsched, schedOf_updSched_other _ _ _ _ hh]
    exact (hu.retrain.rel n h).trans (hnone h)

/-! ### RETRAIN_ATTEMPT_END (R191, R204, R205) -/

/-- BKS_RETRAIN after the attempt that ends the retrain: BUSY 0, RESULT, ATTEMPTS. -/
def retrainCtlEnd (w : Word64) (result attempts : Nat) : Word64 := putField (putField (putBit w 7 false) 8 2 result) 10 2 attempts

theorem retrainCtlEnd_busy (w : Word64) (result attempts : Nat) : bitAt (retrainCtlEnd w result attempts) 7 = false := by
  rw [retrainCtlEnd, bitAt_eq_fieldN, fieldN_putField_below _ _ _ _ 7 1 (by decide) (by decide),
    fieldN_putField_below _ _ _ _ 7 1 (by decide) (by decide), ← bitAt_eq_fieldN, bitAt_putBit_same _ _ (by decide)]

theorem retrainCtlEnd_result (w : Word64) {result : Nat} (attempts : Nat) (h : result < 4) :
    fieldN (retrainCtlEnd w result attempts) 8 2 = result := by
  rw [retrainCtlEnd, fieldN_putField_below _ _ _ _ 8 2 (by decide) (by decide), fieldN_putField_same _ _ _ _ (by decide)]
  exact Nat.mod_eq_of_lt h

/-- The retrain of channel `g` has ended: no byte has changed, and the channel is out of self-refresh without debts. -/
structure RetrainEnded (s t : State) (n : PotIx) (g : GroupIx) (result : Nat) : Prop where
  bytes : sameBytes s t
  busy : retrainBusy (potOf t n) = false
  result : fieldN (potOf t n).bksRetrain 8 2 = result
  selfRefresh : (schedOf (potOf t n) g.toNat).selfRefresh = false
  debts : ∀ k, debtOf (schedOf (potOf t n) g.toNat) k = 0

/-- The fault record of a retrain that fails leaves the rest. -/
theorem RetrainEnded.sendFault {s t : State} {n : PotIx} {g : GroupIx} {result : Nat} (h : RetrainEnded s t n g result) (f : FaultInfo) :
    RetrainEnded s (sendFault t f) n g result := by
  have hp := potOf_sendFault t f n
  exact ⟨h.bytes.trans (sameBytes_sendFault t f), hp ▸ h.busy, hp ▸ h.result, hp ▸ h.selfRefresh, hp ▸ h.debts⟩

theorem retrainEnded_retrainEnd {s : State} (n : PotIx) (g : GroupIx) {result : Nat} (attempts : Nat) (hresult : result < 4)
    (hwaits : s.map.waiting = []) : RetrainEnded s (retrainEnd s n g result attempts) n g result := by
  unfold retrainEnd
  extract_lets txs s1 s2
  have hbound := boundaryOnly_bksApply s2 n g
  have hkept := hbound.scheds.rel n g.toNat
  have hnone : (bksApply s2 n g).map.waiting = [] := (congrArg (fun u : State => u.map.waiting) hbound.state).trans hwaits
  have hs2 : schedOf (potOf s2 n) g.toNat = { schedOf (potOf s n) g.toNat with
      selfRefresh := false, retraining := false, debts := [], cycle := (schedOf (potOf s n) g.toNat).cycle + txs } := by
    rw [schedOf_updPot rfl, schedOf_updSched_same]
  have hzero : noDebt (schedOf (potOf s2 n) g.toNat) := by
    rw [hs2]
    exact fun _ h => absurd h List.not_mem_nil
  have hctl : (potOf (bksApply s2 n g) n).bksRetrain = retrainCtlEnd (potOf s1 n).bksRetrain result attempts := by
    rw [hbound.ctl, potOf_updPot_same]
    rfl
  rw [serveWaiters_none hnone]
  refine ⟨sameBytes.trans (sameBytes_of_stores rfl rfl rfl) hbound.sameBytes, ?_, ?_, ?_, debtOf_of_noDebt (hkept.noDebt hzero)⟩
  · rw [retrainBusy, hctl, retrainCtlEnd_busy]
  · rw [hctl, retrainCtlEnd_result _ _ hresult]
  · rw [hkept.selfRefresh, hs2]

section AttemptEnd
variable {s : State} {n : PotIx} {ok : Bool}

theorem exec_retrainAttemptEnd (hon : potOn s n = true) (hbusy : retrainBusy (potOf s n) = true) :
    ∃ f, exec (.retrainAttemptEnd n ok) s =
      if ok then .next (retrainEnd s n (retrainGroup (potOf s n)) 1 (fieldN (potOf s n).bksRetrain 10 2 + 1))
      else if 3 ≤ fieldN (potOf s n).bksRetrain 10 2 + 1 then
        .next (sendFault (retrainEnd s n (retrainGroup (potOf s n)) 2 (fieldN (potOf s n).bksRetrain 10 2 + 1)) f)
      else .next (updPot s n fun p => { p with bksRetrain := putField p.bksRetrain 10 2 (fieldN (potOf s n).bksRetrain 10 2 + 1) }) :=
  ⟨_, if_neg (by rw [hon, hbusy]; decide)⟩

theorem retrainAttemptEnd_ends (hon : potOn s n = true) (hbusy : retrainBusy (potOf s n) = true) (hwaits : s.map.waiting = [])
    (hlast : ok = true ∨ fieldN (potOf s n).bksRetrain 10 2 = 2) :
    runsTo (.retrainAttemptEnd n ok) s fun t =>
      sameBytes s t ∧ retrainBusy (potOf t n) = false ∧ fieldN (potOf t n).bksRetrain 8 2 = (if ok then 1 else 2) ∧
      (schedOf (potOf t n) (retrainGroup (potOf s n)).toNat).selfRefresh = false ∧
      ∀ k, debtOf (schedOf (potOf t n) (retrainGroup (potOf s n)).toNat) k = 0 := by
  obtain ⟨f, hexec⟩ := exec_retrainAttemptEnd (ok := ok) hon hbusy
  suffices h : ∃ t, exec (.retrainAttemptEnd n ok) s = .next t ∧
      RetrainEnded s t n (retrainGroup (potOf s n)) (if ok then 1 else 2) by
    obtain ⟨t, ht, hended⟩ := h
    exact ⟨t, ht, hended.bytes, hended.busy, hended.result, hended.selfRefresh, hended.debts⟩
  cases ok with
  | true => exact ⟨_, hexec, retrainEnded_retrainEnd _ _ _ (by decide) hwaits⟩
  | false =>
    have hthird : 3 ≤ fieldN (potOf s n).bksRetrain 10 2 + 1 := by rw [hlast.resolve_left Bool.false_ne_true]
    exact ⟨_, hexec.trans (if_pos hthird), (retrainEnded_retrainEnd _ _ _ (by decide) hwaits).sendFault f⟩

theorem retrainAttemptEnd_retries (hon : potOn s n = true) (hbusy : retrainBusy (potOf s n) = true)
    (hmore : fieldN (potOf s n).bksRetrain 10 2 < 2) :
    runsTo (.retrainAttemptEnd n false) s fun t =>
      onlyPot n s t ∧ retrainBusy (potOf t n) = true ∧
      fieldN (potOf t n).bksRetrain 10 2 = fieldN (potOf s n).bksRetrain 10 2 + 1 := by
  have hnot : ¬3 ≤ fieldN (potOf s n).bksRetrain 10 2 + 1 := by omega
  refine ⟨updPot s n fun p => { p with bksRetrain := putField p.bksRetrain 10 2 (fieldN (potOf s n).bksRetrain 10 2 + 1) }, ?_,
    onlyPot_updPot .., ?_, ?_⟩
  · obtain ⟨f, hexec⟩ := exec_retrainAttemptEnd (ok := false) hon hbusy
    exact hexec.trans (if_neg hnot)
  · rw [potOf_updPot_same, retrainBusy, bitAt_eq_fieldN]
    show decide (fieldN (putField _ 10 2 _) 7 1 = 1) = true
    rw [fieldN_putField_below _ _ _ _ 7 1 (by decide) (by decide), ← bitAt_eq_fieldN]
    exact hbusy
  · rw [potOf_updPot_same]
    exact (fieldN_putField_same _ _ _ _ (by decide)).trans (Nat.mod_eq_of_lt (by omega))

end AttemptEnd

/-! ### The scheduler's statement -/

/-- Settles O44: a pick with nothing queued has the due refreshes alone to choose from (`picks_of_queue_nil`); an access to a bank leaves
the queue and adds neither merge entry nor debt (`schedsKept`), so a retrain serves each queued request once and finds all three empty
(`retrainStart_eq`), and its end changes no byte (`retrainEnded_retrainEnd`). -/
theorem bankSchedulers : Obligations.BankSchedulers := by
  unfold Obligations.BankSchedulers
  refine ⟨?arrive, ?admission, ?pick, ?interval, ?eye, ?narrow, ?retrain, ?attempt⟩
  case arrive => exact fun _ _ _ _ _ hp hroom hpat => bksRequestArrive_joins hp hroom hpat
  case admission => exact fun _ _ _ _ hp hnext hadmits => bksAdmit_moves hp hnext hadmits
  case pick =>
    intro s n g hp hself hq hbuf hwaits
    exact ⟨bksPick_idle hp hself hq hwaits, fun k d h => bksPick_overdue hp hself hq hbuf hwaits⟩
  case interval => exact fun _ _ _ b hp hself hall => refreshInterval_owes b hp hself hall
  case eye => exact fun _ _ _ hp hband hself hwindow => eyeRecentre_centres hp hband hself hwindow
  case narrow =>
    intro s n g b r c data mask poison hp
    exact ⟨fun hmask hfree => ⟨narrowWrite_waits hp hmask hfree, narrowWrite_merges hp hmask hfree⟩, mergeTimeout_empties hp⟩
  case retrain => exact fun _ _ _ hon hidle hpar hadmits hnodup hnone => retrain_begins hon hidle hpar hadmits hnodup hnone
  case attempt =>
    exact fun _ _ _ hon hbusy hwaits => ⟨retrainAttemptEnd_ends hon hbusy hwaits, retrainAttemptEnd_retries hon hbusy⟩

end Sys2Proof.Machine

namespace Sys2Proof.Machine

/-!
PROOFS. Matrix engine: operands popped, the issue of an OP word, accumulator sets, and the commands MMA, MMA24, MMABS, ZERO, FLUSH and
FTQ_SLOT_READY.
-/

/-! ### Operands popped from queues (R57, R70, R82) -/

/-- Of pot `n` the queues only, and nothing else. -/
def onlyQueues (n : PotIx) (s t : State) : Prop :=
  onlyPot n s t ∧ potOf t n = { potOf s n with queues := (potOf t n).queues }

theorem onlyQueues.refl (n : PotIx) (s : State) : onlyQueues n s s := ⟨.refl n s, rfl⟩

theorem onlyQueues.trans {n : PotIx} {s t u : State} (h : onlyQueues n s t) (k : onlyQueues n t u) : onlyQueues n s u := by
  obtain ⟨ht, hp⟩ := h
  obtain ⟨hu, kp⟩ := k
  exact ⟨ht.trans hu, by rw [kp, hp]⟩

theorem qPop_state (s : State) (n : PotIx) (qi len : Nat) :
    (qPop s n qi len).1 = updPot s n fun p => setQueue p qi (qAdvanceHead (queueOf (potOf s n) qi) len) := rfl

theorem onlyQueues_qPop (s : State) (n : PotIx) (qi len : Nat) : onlyQueues n s (qPop s n qi len).1 := by
  rw [qPop_state]
  exact ⟨onlyPot_updPot .., by rw [potOf_updPot_same]; rfl⟩

theorem onlyQueues_popGranule (n : PotIx) (qi fuel len : Nat) (s : State) : onlyQueues n s (popGranule n qi fuel len s).1 := by
  induction fuel generalizing len s with
  | zero => exact .refl n s
  | succ fuel ih =>
    rw [popGranule]
    split
    · exact .refl n s
    · exact (onlyQueues_qPop s n qi _).trans (ih _ _)

theorem onlyQueues_popAll (s : State) (n : PotIx) (qi len : Nat) : onlyQueues n s (popAll s n qi len).1 :=
  onlyQueues_popGranule ..

theorem popAll_zero (s : State) (n : PotIx) (qi : Nat) : popAll s n qi 0 = (s, []) := rfl

theorem onlyQueues_mmaPop (s : State) (n : PotIx) (w : ColWord) (need : MxNeed) : onlyQueues n s (mmaPop s n w need none).1 :=
  ((((onlyQueues_popAll s n _ _).trans (onlyQueues_popAll ..)).trans (onlyQueues_popAll ..)).trans (onlyQueues_popAll ..)).trans
    (onlyQueues_popAll ..)

/-! ### The issue of an OP word (R69, R73, R84) -/

theorem updPot_updPot (s : State) (n : PotIx) (f g : Pot → Pot) : updPot (updPot s n f) n g = updPot s n fun p => g (f p) := by
  rw [updPot, potOf_updPot_same, updPot, setPot_setPot]
  rfl

theorem potOf_issueState_mxe (s : State) (n : PotIx) :
    potOf (issueState s n .mxe) n = { potOf s n with mxeSeq := touched (potOf s n).mxeSeq .mxe } := potOf_updPot_same ..

theorem potOf_updSeq_mxe (s : State) (n : PotIx) (f : Seqr → Seqr) :
    potOf (updSeq s n .mxe f) n = { potOf s n with mxeSeq := f (potOf s n).mxeSeq } := potOf_updPot_same ..

@[simp] theorem touched_issued (q : Seqr) (e : Eng) : (touched q e).issued = q.issued := (congrArg Seqr.issued (touched_eq q e) :)
@[simp] theorem touched_claims (q : Seqr) (e : Eng) : (touched q e).claims = q.claims := (congrArg Seqr.claims (touched_eq q e) :)
@[simp] theorem touched_tag (q : Seqr) (e : Eng) : (touched q e).tag = q.tag := (congrArg Seqr.tag (touched_eq q e) :)
@[simp] theorem touched_infusion (q : Seqr) (e : Eng) : (touched q e).infusion = q.infusion :=
  (congrArg Seqr.infusion (touched_eq q e) :)

theorem claims_issueState (s : State) (n : PotIx) :
    (potOf (issueState s n .mxe) n).mxeSeq.claims = (potOf s n).mxeSeq.claims := by
  rw [potOf_issueState_mxe]
  exact touched_claims ..

/-- An issue that changes the pot by `f` and then its sequencer by `g`. -/
theorem onlyPot_issued (s : State) (n : PotIx) (f : Pot → Pot) (g : Seqr → Seqr) :
    onlyPot n s (updSeq (updPot (issueState s n .mxe) n f) n .mxe g) :=
  ((onlySeq_issueState s n .mxe).1.trans (onlyPot_updPot ..)).trans (onlySeq_updSeq ..).1

theorem claimsMeet_nil (new : List Claim) : claimsMeet [] new = false := by
  simp [claimsMeet]

/-- Bodies that end change where the sequencer stands, its loop levels and its address registers. -/
theorem closeLoops_frame (fuel : Nat) (q : Seqr) :
    closeLoops fuel q = { q with pc := (closeLoops fuel q).pc, loops := (closeLoops fuel q).loops, ax := (closeLoops fuel q).ax } := by
  induction fuel generalizing q with
  | zero => rfl
  | succ fuel ih =>
    simp only [closeLoops]
    split
    · rfl
    · split
      · split
        · split <;> rfl
        · rw [ih]
          split <;> rfl
      · rfl

/-- The sequencer with one more issue of the word made. -/
def opSpent (q : Seqr) (w : ColWord) (occ : Nat) (cl : List Claim) : Seqr :=
  { seqSpend q w occ with claims := (seqSpend q w occ).claims ++ cl, issued := q.issued + 1 }

theorem seqOp_more {q : Seqr} {w : ColWord} (occ : Nat) (cl : List Claim) (h : q.issued + 1 < wRepeat w) :
    seqOp q w occ cl = opSpent q w occ cl := if_neg (Nat.not_le.2 h)

theorem seqOp_last {q : Seqr} {w : ColWord} (occ : Nat) (cl : List Claim) (h : wRepeat w ≤ q.issued + 1) :
    seqOp q w occ cl = seqGo (opSpent q w occ cl) (q.pc + 1) := if_pos h

/-- An issue leaves the sequencer at the word's next issue or, after the last one, at the next word (R69). -/
theorem opDone_seqOp (q : Seqr) (e : Eng) (w : ColWord) (occ : Nat) (cl : List Claim) : opDone w q (seqOp (touched q e) w occ cl) := by
  rcases Nat.lt_or_ge (q.issued + 1) (wRepeat w) with h | h
  · rw [seqOp_more occ cl (by rwa [touched_issued]), touched_eq]
    exact ⟨rfl, fun _ => ⟨rfl, rfl, rfl, rfl⟩, fun k => absurd h (Nat.not_lt.2 k)⟩
  · rw [seqOp_last occ cl (by rwa [touched_issued])]
    refine ⟨?_, fun k => absurd k (Nat.not_lt.2 h), fun _ hin => ?_⟩
    · rw [touched_eq, seqGo, closeLoops_frame]
      rfl
    · have hnext : ∀ l ∈ (touched q e).loops.head?, (touched q e).pc + 1 ≠ l.stop := insideLoop_touched hin
      rw [seqGo_inside (q := opSpent (touched q e) w occ cl) hnext, touched_eq]
      exact ⟨rfl, rfl, rfl, rfl⟩

/-! ### Accumulator sets -/

@[simp] theorem accOf_setAcc_same (m : Mxe) (k : Bool) (a : AccSet) : accOf (setAcc m k a) k = a := by cases k <;> rfl
@[simp] theorem accOf_setAcc_other (m : Mxe) (k : Bool) (a : AccSet) : accOf (setAcc m k a) (!k) = accOf m (!k) := by cases k <;> rfl

theorem accOf_counted (m : Mxe) (events numeric : Word64) (k : Bool) :
    accOf { m with events := events, numeric := numeric } k = accOf m k := by cases k <;> rfl

theorem accOf_withFtq (m : Mxe) (l : List FtqSlot) (k : Bool) : accOf { m with ftq := l } k = accOf m k := by cases k <;> rfl

/-- Values written in order of key are read back. -/
theorem accVals_of_zipIdx {a : AccSet} {vs : List (BitVec 32)} (h : a.vals = vs.zipIdx.map fun x => (x.2, x.1)) (hne : vs ≠ []) :
    accVals a = vs := by
  have hvals : a.vals.isEmpty = false := by simpa [h] using hne
  rw [accVals, hvals, if_neg Bool.false_ne_true, h, List.map_map]
  exact List.zipIdx_map_fst 0 vs

/-! ### What the chunks of an issue add (R208, R213, R214) -/

theorem length_flatten_map {α β : Type} (f : α → List β) {k : Nat} (hf : ∀ a, (f a).length = k) (l : List α) :
    (l.map f).flatten.length = l.length * k := by
  rw [List.length_flatten, List.map_map, show List.length ∘ f = fun _ => k from funext hf, List.map_const', List.sum_replicate,
    smul_eq_mul]

/-- Element `j` of row `i`, where rows of length `k` are laid end to end. -/
theorem getElem?_flatten_map {α β : Type} (f : α → List β) {k : Nat} (hf : ∀ a, (f a).length = k) (l : List α) (i : Nat) {j : Nat}
    (hj : j < k) : (l.map f).flatten[k * i + j]? = l[i]?.bind fun a => (f a)[j]? := by
  induction l generalizing i with
  | nil => rfl
  | cons a l ih =>
    rw [List.map_cons, List.flatten_cons]
    cases i with
    | zero =>
      rw [Nat.mul_zero, Nat.zero_add, List.getElem?_append_left (by rwa [hf])]
      rfl
    | succ i =>
      have hix : k * (i + 1) + j - k = k * i + j := by rw [Nat.mul_succ]; omega
      rw [List.getElem?_append_right (by rw [hf, Nat.mul_succ]; omega), hf, hix, ih i]
      rfl

theorem length_mxChunk (setInt pairInt : Bool) (vals : List (BitVec 32)) (rows : List (List FV)) (cols : List ColElems)
    (h : vals.length ≤ rows.length * cols.length) : (mxChunk setInt pairInt vals rows cols).1.length = vals.length := by
  simp only [mxChunk, List.length_map, List.length_zip]
  rw [length_flatten_map _ fun _ => List.length_map _]
  exact Nat.min_eq_left h

theorem nth_mxChunk {setInt pairInt : Bool} {vals : List (BitVec 32)} {rows : List (List FV)} {cols : List ColElems} {row col : Nat}
    (hvals : vals.length = rows.length * cols.length) (hrow : row < rows.length) (hcol : col < cols.length) :
    nth (mxChunk setInt pairInt vals rows cols).1 (cols.length * row + col) 0 =
      (mxUpdate setInt pairInt (nth vals (cols.length * row + col) 0) (chunkSum (nth rows row []) (nth cols col []))).1 := by
  have hix : cols.length * row + col < vals.length := by
    rw [hvals, Nat.mul_comm rows.length]
    calc cols.length * row + col < cols.length * (row + 1) := by rw [Nat.mul_succ]; omega
      _ ≤ cols.length * rows.length := Nat.mul_le_mul_left _ hrow
  have hsum : ((rows.map fun r => cols.map fun c => chunkSum r c).flatten)[cols.length * row + col]? =
      some (chunkSum rows[row] cols[col]) := by
    rw [getElem?_flatten_map _ (fun _ => List.length_map _) rows row hcol, List.getElem?_eq_getElem hrow, Option.bind_some,
      List.getElem?_map, List.getElem?_eq_getElem hcol, Option.map_some]
  simp only [nth, mxChunk, List.map_map, List.getElem?_map, List.zip, List.getElem?_zipWith, hsum, List.getElem?_eq_getElem hix,
    List.getElem?_eq_getElem hrow, List.getElem?_eq_getElem hcol, Option.map_some, Option.getD_some, Function.comp_apply]

/-- The chunks act on each value by itself, in ascending order of K. -/
theorem mxChunks_spec {setInt pairInt : Bool} {rows : Nat → List (List FV)} {cols : Nat → List ColElems} {k : Nat}
    (hrows : ∀ c, (rows c).length = k) (hcols : ∀ c, (cols c).length = k) {row col : Nat} (hrow : row < k) (hcol : col < k)
    (cs : List Nat) (vals : List (BitVec 32)) (hvals : vals.length = k * k) :
    (mxChunks setInt pairInt rows cols cs vals).1.length = k * k ∧
    nth (mxChunks setInt pairInt rows cols cs vals).1 (k * row + col) 0 =
      cs.foldl (fun v c => (mxUpdate setInt pairInt v (chunkSum (nth (rows c) row []) (nth (cols c) col []))).1)
        (nth vals (k * row + col) 0) := by
  induction cs generalizing vals with
  | nil => exact ⟨hvals, rfl⟩
  | cons c cs ih =>
    have hsize : vals.length = (rows c).length * (cols c).length := by rw [hrows, hcols, hvals]
    have hchunk := nth_mxChunk (setInt := setInt) (pairInt := pairInt) hsize (hrow.trans_eq (hrows c).symm) (hcol.trans_eq (hcols c).symm)
    rw [hcols] at hchunk
    have hrest := ih (mxChunk setInt pairInt vals (rows c) (cols c)).1 ((length_mxChunk _ _ _ _ _ hsize.le).trans hvals)
    rw [hchunk] at hrest
    exact hrest

theorem length_aRows (w : ColWord) (i : MxIn) (chain : Bool) (c : Nat) : (aRows w i chain c).length = 128 := by
  rw [aRows, List.length_map, upto, List.length_range]

theorem length_bCols (w : ColWord) (mop : Nat) (i : MxIn) (c : Nat) : (bCols w mop i c).length = 128 := by
  rw [bCols, List.length_map, upto, List.length_range]

/-! ### MMA, MMA24 and MMABS (R208, R210, R211, R213, R214) -/

/-- The values of the set ACC after an issue on operands from trays. -/
def mmaVals (m : Mxe) (w : ColWord) (mop : Nat) (i : MxIn) : List (BitVec 32) :=
  let pairInt := ((mxPair (mxA w) (mxB w)).map Prod.snd).getD false
  let setInt := if (accOf m (mxAcc w)).touched then (accOf m (mxAcc w)).intMode else pairInt
  (mxChunks setInt pairInt (aRows w i false) (bCols w mop i) (upto (mxKlen w / 32)) (accVals (accOf m (mxAcc w)))).1

theorem mmaApply_acc (m : Mxe) (w : ColWord) (mop : Nat) (i : MxIn) :
    (accOf (mmaApply m w mop i false) (mxAcc w)).touched = true ∧
    (accOf (mmaApply m w mop i false) (mxAcc w)).vals = (mmaVals m w mop i).zipIdx.map fun x => (x.2, x.1) := by
  rw [mmaApply, accOf_counted, accOf_setAcc_same]
  exact ⟨rfl, rfl⟩

theorem mmaApply_other (m : Mxe) (w : ColWord) (mop : Nat) (i : MxIn) :
    accOf (mmaApply m w mop i false) (!mxAcc w) = accOf m (!mxAcc w) := by
  rw [mmaApply, accOf_counted, accOf_setAcc_other]

theorem mmaVals_spec {m : Mxe} {w : ColWord} (hlen : (accVals (accOf m (mxAcc w))).length = 16384) (mop : Nat) (i : MxIn)
    {row col : Nat} (hrow : row < 128) (hcol : col < 128) :
    (mmaVals m w mop i).length = 16384 ∧ nth (mmaVals m w mop i) (128 * row + col) 0 = mmaValue m w mop i row col :=
  mxChunks_spec (length_aRows w i false) (length_bCols w mop i) hrow hcol _ _ hlen

theorem nth_accVals_mmaApply {m : Mxe} {w : ColWord} (hlen : (accVals (accOf m (mxAcc w))).length = 16384) (mop : Nat) (i : MxIn)
    {row col : Nat} (hrow : row < 128) (hcol : col < 128) :
    nth (accVals (accOf (mmaApply m w mop i false) (mxAcc w))) (128 * row + col) 0 = mmaValue m w mop i row col := by
  obtain ⟨hlength, hvalue⟩ := mmaVals_spec hlen mop i hrow hcol
  have hne : mmaVals m w mop i ≠ [] := List.ne_nil_of_length_pos (by rw [hlength]; decide)
  rw [accVals_of_zipIdx (mmaApply_acc m w mop i).2 hne, hvalue]

/-- The state in which an issue's operands have been popped and its set has taken them. -/
def mmaWorked (s : State) (n : PotIx) (mop : Nat) (w : ColWord) : State :=
  let r := mmaPop (issueState s n .mxe) n w (mmaNeed w mop) none
  updPot r.1 n fun p => pmcAdd { p with mxe := mmaApply p.mxe w mop r.2 false } 6 (mmaOcc w mop)

/-- The operands are there, no chain queue is named and no claim stands against the issue: it is made. -/
theorem mmaIssue_go {s : State} {n : PotIx} {mop : Nat} {w : ColWord} (h : mmaReady s n mop w) :
    ∃ cl, mmaIssue n mop w (issueState s n .mxe) = seqPlain n .mxe (mmaWorked s n mop w) fun q => seqOp q w (mmaOcc w mop) cl := by
  obtain ⟨-, -, hok, hrep, hchain, hclaims, hready, hmay⟩ := h
  have hpop : ∀ x ∈ mmaPops w mop, popMay (potOf (issueState s n .mxe) n) .mxe x.1 x.2 = true := by
    rw [potOf_issueState_mxe]
    exact hmay
  have hthere : popsReady (potOf (issueState s n .mxe) n) (mmaPops w mop) = true := by
    rw [potOf_issueState_mxe]
    exact hready
  have hfree : (potOf (issueState s n .mxe) n).mxeSeq.claims = [] := (claims_issueState s n).trans hclaims
  simp only [mmaPops, List.forall_mem_cons, List.not_mem_nil, false_implies, implies_true, and_true] at hpop hthere
  obtain ⟨ha, hsa, hb, hsb, hm⟩ := hpop
  refine ⟨claimsAt (issueAt (potOf (issueState s n .mxe) n).mxeSeq w) (mmaClaims (issueState s n .mxe).fuses.stepping w mop), ?_⟩
  simp only [mmaIssue, hok, Nat.pos_iff_ne_zero.1 hrep, hchain, ha, hsa, hb, hsb, hm, hthere, hfree, claimsMeet_nil, Bool.not_true,
    Bool.false_eq_true, if_false, Bool.or_self, Bool.false_and, Option.any_none, Option.map_none]
  rfl

theorem onlyPot_mmaWorked (s : State) (n : PotIx) (mop : Nat) (w : ColWord) : onlyPot n s (mmaWorked s n mop w) := by
  rw [mmaWorked]
  exact ((onlySeq_issueState s n .mxe).1.trans (onlyQueues_mmaPop ..).1).trans (onlyPot_updPot ..)

theorem potOf_mmaWorked (s : State) (n : PotIx) (mop : Nat) (w : ColWord) :
    potOf (mmaWorked s n mop w) n =
      { potOf s n with
        mxeSeq := touched (potOf s n).mxeSeq .mxe
        queues := (potOf (mmaWorked s n mop w) n).queues
        cup := (potOf (mmaWorked s n mop w) n).cup
        mxe := mmaApply (potOf s n).mxe w mop (mmaPop (issueState s n .mxe) n w (mmaNeed w mop) none).2 false } := by
  obtain ⟨-, hp⟩ := onlyQueues_mmaPop (issueState s n .mxe) n w (mmaNeed w mop)
  rw [potOf_issueState_mxe] at hp
  rw [mmaWorked, potOf_updPot_same, hp]
  rfl

/-! ### An integer pair's update (R213, R214) -/

theorem satInt_eq_clamp (bits : Nat) (v : Int) :
    (satInt bits v).1 = max (-2 ^ (bits - 1)) (min (2 ^ (bits - 1) - 1) v) := by
  have hpos : (0 : Int) < 2 ^ (bits - 1) := by positivity
  unfold satInt
  generalize (2 : Int) ^ (bits - 1) = b at *
  split
  · omega
  · split <;> omega

theorem toUnits_whole (neg : Bool) (m : Nat) : toUnits neg m 0 0 none = if neg then -(m : Int) else m := by
  simp [toUnits, unitsAt, roundUnits]

theorem mxUpdate_int (old : BitVec 32) (neg : Bool) (m : Nat) :
    (mxUpdate true true old (.fin neg m 0)).1.toInt =
      max (-2 ^ 31) (min (2 ^ 31 - 1) (old.toInt + (if neg then -(m : Int) else m))) := by
  have hval : (mxUpdate true true old (.fin neg m 0)).1 = BitVec.ofInt 32 (satInt 32 (old.toInt + toUnits neg m 0 0 none)).1 := rfl
  rw [hval, satInt_eq_clamp, toUnits_whole, BitVec.toInt_ofInt]
  apply Int.bmod_eq_of_le <;> omega

/-! ### ZERO (R215, R217) -/

theorem exec_zero {s : State} {n : PotIx} {w : ColWord} (hw : wordIssues s n .mxe w) (hown : ownOp 4 w = true) (hok : zeroOk w = true)
    (hrep : 0 < wRepeat w) (hclaims : (potOf s n).mxeSeq.claims = []) :
    ∃ cl, exec (.zero n) s =
      .next (updSeq (updPot (issueState s n .mxe) n fun p => { p with mxe := setAcc p.mxe (mxAcc w) .reset }) n .mxe
        fun q => seqOp q w 1 cl) := by
  have hfree : (potOf (issueState s n .mxe) n).mxeSeq.claims = [] := (claims_issueState s n).trans hclaims
  refine ⟨claimsAt (issueAt (potOf (issueState s n .mxe) n).mxeSeq w)
    [(resSet (mxAcc w), mxLat (issueState s n .mxe).fuses.stepping, mxLat (issueState s n .mxe).fuses.stepping)], ?_⟩
  refine (seqIssue_go hw hown ?_ : execZero n s = _)
  simp only [hok, Nat.pos_iff_ne_zero.1 hrep, hfree, claimsMeet_nil, Bool.not_true, Bool.false_eq_true, if_false]
  rfl

/-! ### FLUSH to the FTQ (R217, R221, R223, R224, R227) -/

/-- The tile's slot as the drain path leaves it (R223). -/
def tileSlot (q : Seqr) (w : ColWord) (o : FlushOut) : FtqSlot :=
  ⟨.filling, q.tag, q.infusion, BitVec.ofNat 4 (mxOfmt w), o.data, o.scales, o.poison, o.scalePoison, 0⟩

/-- The pot once the tile of the set ACC has gone to the FTQ, with a residue mismatch or without. -/
def tileFlushed (w : ColWord) (mismatch : Bool) (p : Pot) : Pot :=
  let o := flushCompute p.mxe w [] mismatch
  { p with mxe := { o.2 with ftq := ftqSettle p.mxe.ftq ++ [tileSlot p.mxeSeq w o.1] } }

/-- A mismatch is recorded as the sequencer's fault, and the infusion is to fail (R99, R227). -/
def mismatchNoted (n : PotIx) (q : Seqr) (mismatch : Bool) (s : State) : State :=
  if mismatch then
    markFailing (sendFault s
      { status := 0, tag := q.tag, infusion := q.infusion, island := seqIsland n .mxe, block := 5, cause := 1, addr := 0, detail := 0,
        detail2 := 0 }) q.infusion
  else s

theorem potOf_mismatchNoted (n m : PotIx) (q : Seqr) (mismatch : Bool) (s : State) :
    potOf (mismatchNoted n q mismatch s) m = potOf s m := by
  unfold mismatchNoted
  split
  · rw [(onlyInf_markFailing ..).potOf_eq, potOf_sendFault]
  · rfl

/-- What a flush leaves of the engine: the tile's set is cleared, and neither the other set nor the FTQ is touched (R217). -/
theorem flushCompute_mxe (m : Mxe) (w : ColWord) (bias : List (List Byte × Bool)) (mismatch : Bool) :
    accOf (flushCompute m w bias mismatch).2 (mxAcc w) = .reset ∧
    accOf (flushCompute m w bias mismatch).2 (!mxAcc w) = accOf m (!mxAcc w) ∧
    (flushCompute m w bias mismatch).2.ftq = m.ftq ∧ (flushCompute m w bias mismatch).2.residue = (m.residue || mismatch) := by
  simp only [flushCompute]
  cases mxAcc w <;> exact ⟨rfl, rfl, rfl, rfl⟩

/-- A mismatch poisons every word of the tile and changes no byte of it (R227). -/
theorem flushCompute_mismatch (m : Mxe) (w : ColWord) (bias : List (List Byte × Bool)) :
    (flushCompute m w bias true).1.data = (flushCompute m w bias false).1.data ∧
    ∀ b ∈ (flushCompute m w bias true).1.poison, b = true := by
  refine ⟨rfl, fun b hb => ?_⟩
  simp only [flushCompute, Bool.or_true, List.mem_map] at hb
  obtain ⟨-, -, rfl⟩ := hb
  rfl

theorem flushPut_ftq {n : PotIx} {w : ColWord} (hout : mxQO w = 48) (s : State) (t : Nat) (mismatch : Bool) :
    flushPut n w t (flushCompute (potOf s n).mxe w [] mismatch).1
      (updPot s n fun p => { p with mxe := (flushCompute (potOf s n).mxe w [] mismatch).2 }) = updPot s n (tileFlushed w mismatch) := by
  obtain ⟨-, -, hftq, -⟩ := flushCompute_mxe (potOf s n).mxe w [] mismatch
  rw [flushPut, if_pos hout, updPot_updPot, potOf_updPot_same, updPot, updPot, tileFlushed, hftq]
  rfl

/-- The FTQ is open to the MXE (R217). -/
theorem flushMay_ftq {w : ColWord} (hout : mxQO w = 48) (p : Pot) : flushMay p w = true := by
  rw [flushMay, hout]
  rfl

section Flush
variable {s : State} {n : PotIx} {w : ColWord} (hw : wordIssues s n .mxe w) (hown : ownOp 3 w = true) (hok : flushOk w = true)
  (hrep : 0 < wRepeat w) (hclaims : (potOf s n).mxeSeq.claims = []) (hout : mxQO w = 48) (hbias : mxQBias w = 63)
include hw hown hok hrep hclaims hout hbias

theorem exec_flush_room (hroom : (potOf s n).mxe.ftq.length < 64) :
    ∃ cl, ∀ bad, exec (.flush n bad) s =
      .next (updSeq (mismatchNoted n (potOf (issueState s n .mxe) n).mxeSeq (bad && bitAt (potOf s n).mxe.ctl 32)
        (updPot (issueState s n .mxe) n (tileFlushed w (bad && bitAt (potOf s n).mxe.ctl 32)))) n .mxe fun q => seqOp q w 1 cl) := by
  have hp := potOf_issueState_mxe s n
  have hfree : (potOf (issueState s n .mxe) n).mxeSeq.claims = [] := (claims_issueState s n).trans hclaims
  have hplace : flushRoom (potOf (issueState s n .mxe) n) w = true := by
    rw [flushRoom, hout, if_pos rfl, hp]
    exact decide_eq_true hroom
  have hctl : (potOf (issueState s n .mxe) n).mxe.ctl = (potOf s n).mxe.ctl := by rw [hp]
  have hchain : isChain 48 = false := by decide
  refine ⟨claimsAt (issueAt (potOf (issueState s n .mxe) n).mxeSeq w)
    [(resDrain, 0, 127), (resSet (mxAcc w), 0, mxLat (issueState s n .mxe).fuses.stepping)], fun bad => ?_⟩
  refine (seqIssue_go hw hown ?_ : execFlush n bad s = _)
  simp only [flushIssue, hok, Nat.pos_iff_ne_zero.1 hrep, hbias, flushMay_ftq hout, hplace, hfree, claimsMeet_nil, hout, hchain, hctl,
    popAll_zero, popMay, popReady, flushPut_ftq hout, Nat.zero_le, decide_true, beq_self_eq_true, Bool.true_or, Bool.not_true,
    Bool.false_and, Bool.false_eq_true, if_true, if_false]
  rfl

omit hclaims in
theorem exec_flush_full (bad : Bool) (hfull : 64 ≤ (potOf s n).mxe.ftq.length) :
    exec (.flush n bad) s =
      .next (seqHold (updPot (issueState s n .mxe) n fun p => { p with mxe := { p.mxe with ftqHeld := true } }) n .mxe) := by
  have hplace : flushRoom (potOf (issueState s n .mxe) n) w = false := by
    rw [flushRoom, hout, if_pos rfl, potOf_issueState_mxe]
    exact decide_eq_false (Nat.not_lt.2 hfull)
  refine (seqIssue_go hw hown ?_ : execFlush n bad s = _)
  simp only [flushIssue, hok, Nat.pos_iff_ne_zero.1 hrep, hbias, flushMay_ftq hout, hplace, hout, popMay, popReady, Nat.zero_le,
    decide_true, beq_self_eq_true, Bool.true_or, Bool.not_true, Bool.not_false, Bool.false_eq_true, if_true, if_false]

end Flush

/-- The pot after a flush to the FTQ whose issue changes the sequencer by `f`. -/
theorem potOf_flushed (s : State) (n : PotIx) (w : ColWord) (mismatch : Bool) (q : Seqr) (f : Seqr → Seqr) :
    potOf (updSeq (mismatchNoted n q mismatch (updPot (issueState s n .mxe) n (tileFlushed w mismatch))) n .mxe f) n =
      { tileFlushed w mismatch (potOf (issueState s n .mxe) n) with mxeSeq := f (touched (potOf s n).mxeSeq .mxe) } := by
  rw [potOf_updSeq_mxe, potOf_mismatchNoted, potOf_updPot_same, potOf_issueState_mxe]
  rfl

/-! ### FTQ_SLOT_READY (R224) -/

theorem ftqReady_oldest {pre post : List FtqSlot} {x : FtqSlot} (hpre : ∀ y ∈ pre, y.state ≠ .filling) (hx : x.state = .filling) :
    ftqReady (pre ++ x :: post) = pre ++ { x with state := .ready } :: post := by
  induction pre with
  | nil => exact if_pos hx
  | cons y pre ih =>
    obtain ⟨hy, hrest⟩ := List.forall_mem_cons.1 hpre
    exact (if_neg hy).trans (congrArg (y :: ·) (ih hrest))

theorem exec_ftqSlotReady {s : State} {n : PotIx} {x : FtqSlot} (hmem : x ∈ (potOf s n).mxe.ftq) (hx : x.state = .filling) :
    exec (.ftqSlotReady n) s = .next (updPot s n fun p => { p with mxe := { p.mxe with ftq := ftqReady p.mxe.ftq } }) := by
  have hany : ((potOf s n).mxe.ftq.any fun f => f.state == .filling) = true := List.any_eq_true.2 ⟨x, hmem, beq_iff_eq.2 hx⟩
  exact if_pos hany

/-! ### The matrix engine's statement -/

/-- Settles O35: an MMA-class issue adds its chunks to each value by itself (`mxChunks_spec`), on operands whose pops touch queues alone
(`onlyQueues_mmaPop`); ZERO and FLUSH clear their own set (`flushCompute_mxe`), and a mismatch changes a tile's poison alone
(`flushCompute_mismatch`). -/
theorem matrixWords : Obligations.MatrixWords := by
  unfold Obligations.MatrixWords
  refine ⟨?mma, mxUpdate_int, ?zero, ?flush, ?ready, ?residue⟩
  case mma =>
    intro s n w mop hmop h hlen
    obtain ⟨cl, hgo⟩ := mmaIssue_go h
    obtain ⟨hw, hown, -⟩ := h
    have hissue := seqIssue_go hw hown hgo
    refine ⟨_, .trans (by interval_cases mop <;> rfl) hissue, (onlyPot_mmaWorked ..).trans (onlySeq_updSeq ..).1, ?_⟩
    rw [potOf_updSeq_mxe, potOf_mmaWorked]
    exact ⟨opDone_seqOp .., rfl, mmaApply_other .., (mmaApply_acc ..).1,
      fun row col hrow hcol => nth_accVals_mmaApply hlen mop _ hrow hcol⟩
  case zero =>
    intro s n w hw hown hok hrep hclaims
    obtain ⟨cl, hexec⟩ := exec_zero hw hown hok hrep hclaims
    refine ⟨_, hexec, onlyPot_issued .., ?_⟩
    rw [potOf_updSeq_mxe, potOf_updPot_same, potOf_issueState_mxe]
    exact ⟨opDone_seqOp .., rfl⟩
  case flush =>
    intro s n w hw hown hok hrep hclaims hout hbias
    refine ⟨fun hroom => ?_, fun hfull => ?_⟩
    · obtain ⟨cl, hexec⟩ := exec_flush_room hw hown hok hrep hclaims hout hbias hroom
      obtain ⟨hset, hother, -, -⟩ := flushCompute_mxe (potOf s n).mxe w [] false
      refine ⟨_, hexec false, onlyPot_issued .., ?_⟩
      rw [Bool.false_and, potOf_flushed, potOf_issueState_mxe]
      refine ⟨opDone_seqOp .., (accOf_withFtq ..).trans hset, (accOf_withFtq ..).trans hother,
        tileSlot (touched (potOf s n).mxeSeq .mxe) w (flushCompute (potOf s n).mxe w [] false).1, rfl, rfl,
        touched_tag .., touched_infusion .., rfl, rfl, rfl⟩
    · refine ⟨_, exec_flush_full hw hown hok hrep hout hbias false hfull, onlyPot_issued .., ?_⟩
      rw [seqHold, potOf_updSeq_mxe, potOf_updPot_same, potOf_issueState_mxe]
      exact ⟨rfl, touched_pc .., touched_issued ..⟩
  case ready =>
    intro s n pre post x hftq hpre hx
    refine ⟨_, exec_ftqSlotReady (by rw [hftq]; exact List.mem_append_right _ List.mem_cons_self) hx, onlyPot_updPot .., ?_⟩
    rw [potOf_updPot_same, hftq, ftqReady_oldest hpre hx]
    exact ⟨rfl, rfl⟩
  case residue =>
    intro s n w hw hown hok hrep hclaims hout hbias hroom
    obtain ⟨cl, hexec⟩ := exec_flush_room hw hown hok hrep hclaims hout hbias hroom
    refine ⟨fun hctl => ?_, fun hctl => ?_⟩
    · obtain ⟨hset, -, -, hresidue⟩ := flushCompute_mxe (potOf s n).mxe w [] true
      obtain ⟨hdata, hpoison⟩ := flushCompute_mismatch (potOf s n).mxe w []
      refine ⟨_, hexec true, ?_⟩
      beta_reduce
      rw [hctl, Bool.true_and, potOf_flushed, potOf_issueState_mxe]
      exact ⟨hresidue.trans (Bool.or_true _), (accOf_withFtq ..).trans hset, _, List.getLast?_concat .., rfl, hdata, hpoison⟩
    · rw [hexec true, hexec false, hctl]
      rfl

end Sys2Proof.Machine

namespace Sys2Proof.Machine

/-!
PROOFS. Vector engine: operands that come in, results that go out, the issue of an OP word, and the ends of rows.
-/

/-! ### Steps inside an issue (R57, R82, R84) -/

theorem onlyPotTray.trans {n : PotIx} {s t u : State} (h : onlyPotTray n s t) (k : onlyPotTray n t u) : onlyPotTray n s u := by
  obtain ⟨ht, hpots⟩ := h
  obtain ⟨hu, kpots⟩ := k
  exact ⟨by rw [hu, ht], fun m hm => (kpots m hm).trans (hpots m hm)⟩

theorem onlyPot.onlyPotTray {n : PotIx} {s t : State} (h : onlyPot n s t) : onlyPotTray n s t := by
  obtain ⟨ht, hpots⟩ := h
  exact ⟨by rw [ht], hpots⟩

/-- Of a pot, the trays and the free-value counter only, and of the pot's VXE sequencer its chain queues only. -/
structure VxStep (n : PotIx) (s t : State) : Prop where
  only : onlyPotTray n s t
  seq : (potOf t n).vxeSeq = { (potOf s n).vxeSeq with chains := (potOf t n).vxeSeq.chains }

/-- What a vector engine holds from one issue to the next stays: the row, the word's elements, summary words, entries and token. -/
structure VxHeld (v u : Vxe) : Prop where
  rowBuf : u.rowBuf = v.rowBuf
  wordElems : u.wordElems = v.wordElems
  summaryOut : u.summaryOut = v.summaryOut
  dispatchQ : u.dispatchQ = v.dispatchQ
  token : u.token = v.token

/-- Operands or results move between the engine and its ends. -/
structure VxMoves (n : PotIx) (s t : State) : Prop extends VxStep n s t where
  held : VxHeld (potOf s n).vxe (potOf t n).vxe

/-- Operands come in: no tray byte is written and no chain queue grows. -/
structure VxTakes (n : PotIx) (s t : State) : Prop extends VxMoves n s t where
  tray : t.tray = s.tray
  chains : ∀ c, (chainOf (potOf t n).vxeSeq c).length ≤ (chainOf (potOf s n).vxeSeq c).length

theorem VxHeld.refl (v : Vxe) : VxHeld v v := ⟨rfl, rfl, rfl, rfl, rfl⟩

theorem VxHeld.trans {v u x : Vxe} (h : VxHeld v u) (k : VxHeld u x) : VxHeld v x :=
  ⟨k.rowBuf.trans h.rowBuf, k.wordElems.trans h.wordElems, k.summaryOut.trans h.summaryOut, k.dispatchQ.trans h.dispatchQ,
    k.token.trans h.token⟩

/-- Draw registers and counters are not held. -/
theorem vxHeld_counted (v : Vxe) (l : SMap (BitVec 32)) (events numeric : Word64) :
    VxHeld v { v with lfsr := l, events := events, numeric := numeric } := ⟨rfl, rfl, rfl, rfl, rfl⟩

section Steps
variable {n : PotIx} {s t u : State}

theorem VxStep.trans (h : VxStep n s t) (k : VxStep n t u) : VxStep n s u := ⟨h.only.trans k.only, by rw [k.seq, h.seq]⟩

theorem VxMoves.trans (h : VxMoves n s t) (k : VxMoves n t u) : VxMoves n s u := ⟨h.toVxStep.trans k.toVxStep, h.held.trans k.held⟩

theorem VxTakes.trans (h : VxTakes n s t) (k : VxTakes n t u) : VxTakes n s u :=
  ⟨h.toVxMoves.trans k.toVxMoves, k.tray.trans h.tray, fun c => (k.chains c).trans (h.chains c)⟩

/-- Bytes of the trays and free values alone change. -/
theorem vxMoves_of_trays (h : t = { s with tray := t.tray, trayMeta := t.trayMeta, freeCtr := t.freeCtr }) : VxMoves n s t := by
  have hpot : ∀ m, potOf t m = potOf s m := fun m => by rw [h]; rfl
  exact ⟨⟨⟨by rw [h], fun m _ => hpot m⟩, by rw [hpot n]⟩, by rw [hpot n]; exact .refl _⟩

theorem VxMoves.refl (n : PotIx) (s : State) : VxMoves n s s := vxMoves_of_trays rfl

theorem VxTakes.refl (n : PotIx) (s : State) : VxTakes n s s := ⟨.refl n s, rfl, fun _ => le_rfl⟩

theorem vxStep_updPot {f : Pot → Pot}
    (h : (f (potOf s n)).vxeSeq = { (potOf s n).vxeSeq with chains := (f (potOf s n)).vxeSeq.chains }) : VxStep n s (updPot s n f) :=
  ⟨(onlyPot_updPot n s f).onlyPotTray, by rw [potOf_updPot_same]; exact h⟩

theorem vxMoves_updPot {f : Pot → Pot}
    (h : (f (potOf s n)).vxeSeq = { (potOf s n).vxeSeq with chains := (f (potOf s n)).vxeSeq.chains })
    (hv : VxHeld (potOf s n).vxe (f (potOf s n)).vxe) : VxMoves n s (updPot s n f) :=
  ⟨vxStep_updPot h, by rw [potOf_updPot_same]; exact hv⟩

/-- A change of the pot outside its VXE. -/
theorem vxTakes_updPot {f : Pot → Pot} (h : (f (potOf s n)).vxeSeq = (potOf s n).vxeSeq) (hv : (f (potOf s n)).vxe = (potOf s n).vxe) :
    VxTakes n s (updPot s n f) :=
  ⟨vxMoves_updPot (by rw [h]) (by rw [hv]; exact .refl _), rfl, fun c => by rw [potOf_updPot_same, h]⟩

end Steps

/-! ### Operands come in (R231 to R233) -/

theorem onlyQueues.vxTakes {n : PotIx} {s t : State} (h : onlyQueues n s t) : VxTakes n s t := by
  obtain ⟨honly, hpot⟩ := h
  have hseq : (potOf t n).vxeSeq = (potOf s n).vxeSeq := by rw [hpot]
  have hvxe : (potOf t n).vxe = (potOf s n).vxe := by rw [hpot]
  refine ⟨⟨⟨honly.onlyPotTray, by rw [hseq]⟩, by rw [hvxe]; exact .refl _⟩, ?_, fun c => by rw [hseq]⟩
  rw [honly.1]

theorem vxTakes_takeFree (n : PotIx) (s : State) : VxTakes n s (takeFree s).2 := ⟨vxMoves_of_trays rfl, rfl, fun _ => le_rfl⟩

theorem vxTakes_takeFreeBytes (n : PotIx) (k : Nat) (s : State) : VxTakes n s (takeFreeBytes k s).2 := by
  induction k generalizing s with
  | zero => exact .refl n s
  | succ k ih => exact (vxTakes_takeFree n s).trans (ih _)

theorem vxTakes_fitFree (n : PotIx) (s : State) (len : Nat) (bs : List (List Byte × Bool)) : VxTakes n s (fitFree s len bs).1 := by
  simp only [fitFree]
  split
  · exact .refl n s
  · exact vxTakes_takeFreeBytes ..

/-- A pop takes the queue's first entry and leaves every other queue. -/
theorem chainPop_spec {q r : Seqr} {c t : Nat} {x : ChainEntry} (h : chainPop q c t = some (x, r)) :
    ∃ xs, chainOf q c = x :: xs ∧ r = { q with chains := tset q.chains c xs } := by
  unfold chainPop at h
  split at h
  · cases h
  · next y ys hq =>
    split at h
    · cases h
      exact ⟨ys, hq, rfl⟩
    · cases h

theorem chainOf_tset (q : Seqr) (c k : Nat) (l : List ChainEntry) :
    chainOf { q with chains := tset q.chains c l } k = if k = c then l else chainOf q k := tget_tset ..

theorem chainOf_chainPop_le {q r : Seqr} {c t : Nat} {x : ChainEntry} (h : chainPop q c t = some (x, r)) (k : Nat) :
    (chainOf r k).length ≤ (chainOf q k).length := by
  obtain ⟨xs, hq, rfl⟩ := chainPop_spec h
  rw [chainOf_tset]
  split
  · next hk =>
    rw [hk, hq]
    exact Nat.le_succ _
  · exact le_rfl

section Pops
variable {n : PotIx} {s u : State} {d sc : List (List Byte × Bool)}

theorem vxTakes_vxPopChain {t q len : Nat} (h : vxPopChain s n t q len = .ok u d sc) : VxTakes n s u := by
  unfold vxPopChain at h
  split at h
  · cases h
  · next x hx =>
    obtain ⟨xs, -, hr⟩ := chainPop_spec hx
    cases h
    refine .trans ?_ (vxTakes_fitFree ..)
    refine ⟨vxMoves_updPot (congrArg (fun r : Seqr => { r with chains := x.2.chains }) hr :) (.refl _), rfl, fun c => ?_⟩
    rw [potOf_updPot_same]
    exact chainOf_chainPop_le hx c

theorem vxTakes_vxPopFtq {len scaleLen : Nat} (h : vxPopFtq s n len scaleLen = .ok u d sc) : VxTakes n s u := by
  unfold vxPopFtq at h
  split at h
  · cases h
  · split at h
    · cases h
    · cases h
      exact vxTakes_updPot rfl rfl

theorem vxTakes_vxPopTray {q len scaleLen : Nat} (h : vxPopTray s n q len scaleLen = .ok u d sc) : VxTakes n s u := by
  simp only [vxPopTray] at h
  split at h
  · cases h
  · split at h
    · cases h
    · cases h
      exact (onlyQueues_popAll ..).vxTakes.trans (onlyQueues_popAll ..).vxTakes

theorem vxTakes_vxPop {t q len scaleLen : Nat} (h : vxPop s n t q len scaleLen = .ok u d sc) : VxTakes n s u := by
  unfold vxPop at h
  split at h
  · cases h
    exact .refl n s
  · split at h
    · exact vxTakes_vxPopChain h
    · split at h
      · exact vxTakes_vxPopFtq h
      · exact vxTakes_vxPopTray h

end Pops

theorem vxTakes_vxPopEnds {n : PotIx} {t : Nat} {es : List (Nat × Nat × Nat)} {s u : State}
    {acc : List (List (List Byte × Bool) × List (List Byte × Bool))} {i : VxIn} (h : vxPopEnds n t es s acc = .ok u i) :
    VxTakes n s u := by
  induction es generalizing s acc with
  | nil =>
    cases h
    exact .refl n _
  | cons e es ih =>
    rw [vxPopEnds] at h
    split at h
    · cases h
    · cases h
    · next hpop => exact (vxTakes_vxPop hpop).trans (ih h)

/-! ### Results go out (R239, R241, R255, R256) -/

theorem vxMoves_trayWrite (n : PotIx) (s : State) (a : Nat) (bs : List Byte) (poison : Bool) : VxMoves n s (trayWrite s a bs poison) :=
  vxMoves_of_trays rfl

theorem vxMoves_qPush (s : State) (n : PotIx) (qi : Nat) (bs : List Byte) (poison : Bool) : VxMoves n s (qPush s n qi bs poison) := by
  unfold qPush
  extract_lets q a firstLen s1 s2
  exact ((vxMoves_trayWrite n s ..).trans (vxMoves_trayWrite n s1 ..)).trans (vxTakes_updPot rfl rfl).toVxMoves

theorem vxMoves_qPushAll (n : PotIx) (qi : Nat) (xs : List (List Byte × Bool)) (s : State) : VxMoves n s (qPushAll n qi xs s) := by
  induction xs generalizing s with
  | nil => exact .refl n s
  | cons x xs ih => exact (vxMoves_qPush ..).trans (ih _)

theorem vxMoves_vxPut (n : PotIx) (w : ColWord) (q at_ : Nat) (g : Granule) (s : State) : VxMoves n s (vxPut n w q at_ g s) := by
  unfold vxPut
  split
  · exact .refl n s
  · split
    · exact vxMoves_updPot rfl (.refl _)
    · exact (vxMoves_qPushAll ..).trans (vxMoves_qPushAll ..)

theorem vxMoves_draw (n : PotIx) (s : State) (l : SMap (BitVec 32)) :
    VxMoves n s (updPot s n fun p => { p with vxe := { p.vxe with lfsr := l } }) :=
  vxMoves_updPot rfl (vxHeld_counted ..)

theorem vxMoves_vxNumeric (n : PotIx) (ev : NumEv) (s : State) : VxMoves n s (vxNumeric n ev s) :=
  vxMoves_updPot rfl (vxHeld_counted ..)

/-- An output that the word may leave unnamed. -/
theorem vxMoves_vxPutIf (n : PotIx) (w : ColWord) (q at_ : Nat) (g : Granule) (s : State) :
    VxMoves n s (if q = 63 then s else vxPut n w q at_ g s) := by
  split
  · exact .refl n s
  · exact vxMoves_vxPut ..

theorem vxMoves_vxEmit (c : VxCtx) (at_ : Nat) (o0 o1 : List OutEl) (s : State) : VxMoves c.n s (vxEmit c at_ o0 o1 s).1 := by
  simp only [vxEmit]
  split
  · exact ((vxMoves_draw ..).trans (vxMoves_vxPutIf ..)).trans (vxMoves_vxPut ..)
  · exact (vxMoves_draw ..).trans (vxMoves_vxPutIf ..)

theorem vxEmit_tray {c : VxCtx} (h0 : vxOut c.w 0 = 63) (h1 : vxOut c.w 1 = 63) (at_ : Nat) (o0 o1 : List OutEl) (s : State) :
    (vxEmit c at_ o0 o1 s).1.tray = s.tray := by
  simp only [vxEmit, h0, h1, bne_self_eq_false, Bool.false_and, Bool.false_eq_true, if_true, if_false, updPot_tray]

theorem vxMoves_softEmit (c : VxCtx) (at_ : Nat) (gs : List (List OutEl)) (s : State) : VxMoves c.n s (softEmit c at_ gs s).1 := by
  induction gs generalizing s with
  | nil => exact .refl c.n s
  | cons g gs ih => exact (vxMoves_vxEmit ..).trans (ih _)

theorem vxMoves_vxResult (n : PotIx) (w : ColWord) (lane : Nat) (v : F32) (s : State) : VxMoves n s (vxResult n w lane v s).2.2 := by
  unfold vxResult
  split
  · exact vxMoves_of_trays rfl
  · exact vxMoves_draw ..

theorem vxMoves_vxResults (n : PotIx) (w : ColWord) (lane : Nat) (vs : List F32) (s : State) :
    VxMoves n s (vxResults n w lane vs s).2.2 := by
  induction vs generalizing lane s with
  | nil => exact .refl n s
  | cons v vs ih => exact (vxMoves_vxResult ..).trans (ih _ _)

/-- A summary word on its way, where the word names a destination. -/
theorem emitSummary_spec (n : PotIx) (w : ColWord) (x : Summary) (s : State) :
    VxStep n s (emitSummary n w x s) ∧ (emitSummary n w x s).tray = s.tray ∧
    (potOf (emitSummary n w x s) n).vxe = { (potOf s n).vxe with
      summaryOut := (potOf s n).vxe.summaryOut ++ if vxSumDst w = 0 then [] else [⟨BitVec.ofNat 3 (vxSumDst w), x⟩] } := by
  unfold emitSummary
  split
  · exact ⟨(VxMoves.refl n s).toVxStep, rfl, by rw [List.append_nil]⟩
  · exact ⟨vxStep_updPot rfl, rfl, by rw [potOf_updPot_same]⟩

/-! ### The figures of a summary word (R255) -/

theorem summaryWord_fields (q : Seqr) (els : List RowElem) (f : SumFig) :
    fieldB (summaryWord q els f).word 0 32 = f.value ∧ fieldB (summaryWord q els f).word 64 32 = f.sum := by
  simp only [summaryWord]
  rw [fieldB_ofNat _ _ _ _ (by decide), fieldB_ofNat _ _ _ _ (by decide)]
  have hv := f.value.isLt
  have hs := f.sum.isLt
  constructor <;> apply BitVec.eq_of_toNat_eq <;> rw [BitVec.toNat_ofNat] <;> omega

/-! ### The ends of rows (R243 to R252) -/

/-- An issue of RECIPE: its elements join the word's, and a summary word comes with the word's last issue alone. -/
theorem recipeEffect_spec (c : VxCtx) (els : List RowElem) (s : State) :
    VxStep c.n s (recipeEffect c els s) ∧
    (potOf (recipeEffect c els s) c.n).vxe.wordElems =
      (if (potOf s c.n).vxeSeq.issued = 0 then [] else (potOf s c.n).vxe.wordElems) ++ els ∧
    ((potOf s c.n).vxeSeq.issued + 1 < wRepeat c.w →
      (potOf (recipeEffect c els s) c.n).vxe.summaryOut = (potOf s c.n).vxe.summaryOut) ∧
    (vxOut c.w 0 = 63 → vxOut c.w 1 = 63 → (recipeEffect c els s).tray = s.tray) := by
  unfold recipeEffect
  extract_lets q at_ r v all ovf s1
  have hmoves : VxMoves c.n s r.1 := vxMoves_vxEmit ..
  have hjoin : VxStep c.n r.1 (updPot r.1 c.n fun p => { p with vxe := { p.vxe with wordElems := all, wordOvf := ovf } }) :=
    vxStep_updPot rfl
  have hcount : VxMoves c.n _ s1 := vxMoves_vxNumeric ..
  have hheld := hcount.held
  rw [potOf_updPot_same] at hheld
  have hstep : VxStep c.n s s1 := (hmoves.toVxStep.trans hjoin).trans hcount.toVxStep
  have hall : all = (if q.issued = 0 then [] else (potOf s c.n).vxe.wordElems) ++ els := by
    rw [← hmoves.held.wordElems]
  have htray : vxOut c.w 0 = 63 → vxOut c.w 1 = 63 → s1.tray = s.tray := fun h0 h1 => vxEmit_tray h0 h1 ..
  split
  · next hlast =>
    obtain ⟨hsum, hsumTray, hvxe⟩ := emitSummary_spec c.n c.w (summaryWord q all (plainFig (activeVals all) 0 ovf)) s1
    exact ⟨hstep.trans hsum, by rw [hvxe, ← hall]; exact hheld.wordElems, fun hmore => absurd hlast (Nat.ne_of_lt hmore),
      fun h0 h1 => hsumTray.trans (htray h0 h1)⟩
  · exact ⟨hstep, by rw [← hall]; exact hheld.wordElems, fun _ => hheld.summaryOut.trans hmoves.held.summaryOut, htray⟩

/-- The end of a row of REDUCE moves its result, and its summary word carries the reduction. -/
theorem reduceEnd_spec (c : VxCtx) (els : List RowElem) (row : Nat) (s : State) :
    ∃ u x, reduceEnd c els row s = emitSummary c.n c.w x u ∧ VxMoves c.n s u ∧
      fieldB x.word 0 32 = ((reduceRow (recipeKind c.r) (activeVals els)).getD (reduceEmpty (recipeKind c.r))).1 := by
  unfold reduceEnd
  extract_lets q kind v x bad at_ r g s1 s2 f ix
  have hresult : VxMoves c.n s r.2.2 := vxMoves_vxResult ..
  have hput : VxMoves c.n r.2.2 s1 := vxMoves_vxPutIf ..
  have hindex : VxMoves c.n s1 s2 := vxMoves_vxPutIf ..
  exact ⟨_, _, rfl, ((hresult.trans hput).trans hindex).trans (vxMoves_vxNumeric ..), (summaryWord_fields ..).1⟩

/-- The end of a row of SOFTMAX moves its granules, and its summary word carries VALUE and SUM. -/
theorem softmaxEnd_spec (c : VxCtx) (els : List RowElem) (row : Nat) (s : State) :
    ∃ u x, softmaxEnd c els row s = emitSummary c.n c.w x u ∧ VxMoves c.n s u ∧
      fieldB x.word 0 32 = (softmaxRow (activeVals els)).value ∧ fieldB x.word 64 32 = (softmaxRow (activeVals els)).sum := by
  unfold softmaxEnd
  extract_lets q v o bad at_ outs r ix
  exact ⟨_, _, rfl, (vxMoves_softEmit ..).trans (vxMoves_vxNumeric ..), summaryWord_fields ..⟩

/-- The token's chosen experts have entered the dispatch queue, and the next token comes. -/
def tokenGated (n : PotIx) (k : Nat) (gnorm : Bool) (els : List RowElem) (s : State) : State :=
  let v := activeVals els
  updPot s n fun p => { p with vxe := { p.vxe with
    token := p.vxe.token + 1
    dispatchQ := p.vxe.dispatchQ ++ (gateEntries p.vxe.token (gateChoose k v) (gateWeights gnorm v (gateChoose k v))).map fun e =>
      (e, els.any fun x => x.active && x.bad) } }

theorem tokenGated_spec (n : PotIx) (k : Nat) (gnorm : Bool) (els : List RowElem) (s : State) :
    VxStep n s (tokenGated n k gnorm els s) ∧ (potOf (tokenGated n k gnorm els s) n).vxe.rowBuf = (potOf s n).vxe.rowBuf ∧
    (potOf (tokenGated n k gnorm els s) n).vxe.token = (potOf s n).vxe.token + 1 ∧
    ∃ bad, (potOf (tokenGated n k gnorm els s) n).vxe.dispatchQ = (potOf s n).vxe.dispatchQ ++
      (gateEntries (potOf s n).vxe.token (gateChoose k (activeVals els))
        (gateWeights gnorm (activeVals els) (gateChoose k (activeVals els)))).map fun e => (e, bad) := by
  rw [tokenGated, potOf_updPot_same]
  exact ⟨vxStep_updPot rfl, rfl, rfl, _, rfl⟩

/-- The end of a token of GATE moves its weights, if any, once its entries are in the dispatch queue. -/
theorem gateEnd_spec (c : VxCtx) (els : List RowElem) (row : Nat) (s : State) :
    ∃ u x, gateEnd c els row s = emitSummary c.n c.w x u ∧ VxMoves c.n (tokenGated c.n (vxKgate c.w) (recipeGnorm c.r) els s) u ∧
      (vxOut c.w 0 = 63 → u.tray = s.tray) := by
  unfold gateEnd
  extract_lets q v ch ws bad at_ token s1 f fig
  have hgated : s1 = tokenGated c.n (vxKgate c.w) (recipeGnorm c.r) els s := rfl
  rw [← hgated]
  split
  · exact ⟨_, _, rfl, .refl c.n s1, fun _ => rfl⟩
  · next hout =>
    have hresults : VxMoves c.n s1 (vxResults c.n c.w 0 ws s1).2.2 := vxMoves_vxResults ..
    exact ⟨_, _, rfl, (hresults.trans (vxMoves_vxPut ..)).trans (vxMoves_vxNumeric ..), fun h => absurd h hout⟩

/-! ### The issue of an OP word (R69, R231, R244, R253) -/

theorem potOf_issueState_vxe (s : State) (n : PotIx) :
    potOf (issueState s n .vxe) n =
      { potOf s n with vxeSeq := { (potOf s n).vxeSeq with icache := (touched (potOf s n).vxeSeq .vxe).icache } } :=
  (potOf_updPot_same ..).trans (congrArg (fun q => { potOf s n with vxeSeq := q }) (touched_eq ..))

/-- Chain queues that hold no more have no less room. -/
theorem chainOver_false_of_le {q r : Seqr} (h : ∀ c, (chainOf r c).length ≤ (chainOf q c).length) {l : List (Nat × Nat)} {e : Nat}
    (hq : chainOver q l e = false) : chainOver r l e = false := by
  simp only [chainOver, Bool.and_eq_false_iff, decide_eq_false_iff_not, Nat.not_lt] at hq ⊢
  exact hq.imp_right fun hfits => (Nat.add_le_add_right (h _) _).trans hfits

/-- What one issue of the word starts from. -/
def vxCtxOf (s : State) (n : PotIx) (w : ColWord) : VxCtx :=
  let r := recipeOf (potOf s n).vxe (vxRecipe w)
  let occ := recipeOcc s.fuses.stepping r (vxPaired w)
  ⟨n, w, r, issueAt (potOf s n).vxeSeq w, occ, recipeRlatAt s.fuses.stepping r (vxPaired w) occ⟩

/-- The issue's slots counted (R254, R260). -/
def vxCounted (n : PotIx) (slots : Nat) (u : State) : State :=
  updPot u n fun p => pmcAdd { p with vxe := { p.vxe with events := satField p.vxe.events 0 40 slots } } 7 slots

/-- The row buffer after an issue of a row VOP: the row so far, or nothing once the row ends (R244, R248). -/
def vxBuffered (n : PotIx) (final kept : Bool) (row : List RowElem) (u : State) : State :=
  updPot u n fun p => { p with vxe := { p.vxe with
    rowBuf := if final then [] else row, rowKept := kept, events := satField p.vxe.events 40 24 final.toNat } }

/-- The end of a row by VOP. -/
def vxRowEnd (vop : Nat) (c : VxCtx) (row : List RowElem) (no : Nat) (s : State) : State :=
  if vop = vopReduce then reduceEnd c row no s else if vop = vopSoftmax then softmaxEnd c row no s else gateEnd c row no s

/-- The elements of an issue of RECIPE (R231, R243). -/
def vxElems (s : State) (n : PotIx) (w : ColWord) (i : VxIn) : List RowElem :=
  (upto (vxG w)).map (vxEval (recipeOf (potOf s n).vxe (vxRecipe w)) w i ((potOf s n).vxeSeq.issued * vxG w))

/-- The row buffer and its kind after an issue of a row VOP, with the operands of `s` popped and its slots counted. -/
def vxGathered (s : State) (n : PotIx) (vop : Nat) (w : ColWord) (i : VxIn) (u : State) : State :=
  let r := recipeOf (potOf s n).vxe (vxRecipe w)
  vxBuffered n (vxFinal (potOf s n).vxeSeq w) (vop != vopReduce || decide (7 ≤ recipeKind r)) (vxRow s n w i)
    (vxCounted n (recipeS r (vxPaired w)) u)

/-- What an issue that is made leaves beside its sequencer, once its operands have been popped. -/
def vxWorked (s : State) (n : PotIx) (vop : Nat) (w : ColWord) (i : VxIn) (u : State) : State :=
  if vop = vopRecipe then
    recipeEffect (vxCtxOf s n w) (vxElems s n w i) (vxCounted n (recipeS (recipeOf (potOf s n).vxe (vxRecipe w)) (vxPaired w)) u)
  else if vxFinal (potOf s n).vxeSeq w then
    vxRowEnd vop (vxCtxOf s n w) (vxRow s n w i) ((potOf s n).vxeSeq.issued / vxNq w) (vxGathered s n vop w i u)
  else vxGathered s n vop w i u

theorem vxMoves_vxCounted (n : PotIx) (slots : Nat) (u : State) : VxMoves n u (vxCounted n slots u) :=
  vxMoves_updPot rfl (vxHeld_counted ..)

section Issue
variable {s u : State} {n : PotIx} {w : ColWord} {i : VxIn} {vop : Nat}

/-- The word's fields, its row length and its recipe are as each issue checks them (R238, R239, R244). -/
theorem vxReady_formed (h : vxReady s n vop w) :
    (!vxFieldsOk (mxePresent s n) w || !vxVopOk vop w || wRepeat w % vxNq w != 0) = false ∧
    (!vxRecipeOk vop w (recipeOf (potOf s n).vxe (vxRecipe w)) || regBad s (entryKey (potWin n) 0x12 (vxRecipe w))) = false := by
  obtain ⟨-, -, hfields, hform, hrecipe, hsound, -, hrows, -⟩ := h
  simp [hfields, hform, hrecipe, hsound, hrows]

/-- No result waits for room (R70, R256, R258). -/
theorem vxReady_room (h : vxReady s n vop w)
    (hdisp : vop = vopGate → vxFinal (potOf s n).vxeSeq w = true → (potOf s n).vxe.dispatchQ.length + vxKgate w ≤ 4096)
    (done : Bool) :
    (!vxRoom (potOf s n) (vxIssueNeed vop w (vop != vopRecipe && vxFinal (potOf s n).vxeSeq w)) ||
      (done && !sumRoom (potOf s n) (vxSumDst w)) ||
      (vop == vopGate && (vop != vopRecipe && vxFinal (potOf s n).vxeSeq w) &&
        decide (4096 < (potOf s n).vxe.dispatchQ.length + vxKgate w))) = false := by
  obtain ⟨-, -, -, -, -, -, -, -, -, hroom, hsum, -⟩ := h
  have hdispatch : (vop == vopGate && (vop != vopRecipe && vxFinal (potOf s n).vxeSeq w) &&
      decide (4096 < (potOf s n).vxe.dispatchQ.length + vxKgate w)) = false := by
    refine Bool.eq_false_iff.2 fun hover => ?_
    simp only [Bool.and_eq_true, beq_iff_eq, decide_eq_true_eq] at hover
    obtain ⟨⟨hgate, -, hfinal⟩, hover⟩ := hover
    exact Nat.not_lt.2 (hdisp hgate hfinal) hover
  rw [hroom, hsum, hdispatch, Bool.not_true, Bool.and_false, Bool.or_false, Bool.or_false]

/-- No chain output is full once the operands have been popped (R84). -/
theorem vxReady_chains (h : vxReady s n vop w) (hin : VxTakes n (issueState s n .vxe) u) :
    ((vxChainPuts vop w).find? fun x => (vop == vopRecipe || (vop != vopRecipe && vxFinal (potOf s n).vxeSeq w)) &&
      chainOver (potOf u n).vxeSeq (vxChainPuts vop w) x.1) = none := by
  obtain ⟨-, -, -, -, -, -, -, -, -, -, -, hchain⟩ := h
  have hshrinks := hin.chains
  rw [potOf_issueState_vxe] at hshrinks
  refine List.find?_eq_none.2 fun x hx hover => ?_
  simp only [Bool.and_eq_true, Bool.or_eq_true, beq_iff_eq] at hover
  obtain ⟨hout, hover⟩ := hover
  exact Bool.false_ne_true ((chainOver_false_of_le hshrinks (hchain (hout.imp_right And.right) x hx)).symm.trans hover)

theorem vxe_issueState (s : State) (n : PotIx) : (potOf (issueState s n .vxe) n).vxe = (potOf s n).vxe := by
  rw [potOf_issueState_vxe]

/-- A word whose fields, recipe, ends and rooms admit it, and whose input ends give its operands, makes its issue. -/
theorem vxIssue_go (h : vxReady s n vop w)
    (hin : vxPopEnds n (issueAt (potOf s n).vxeSeq w) (vxNeeds w) (issueState s n .vxe) [] = .ok u i)
    (hdisp : vop = vopGate → vxFinal (potOf s n).vxeSeq w = true → (potOf s n).vxe.dispatchQ.length + vxKgate w ≤ 4096) :
    ∃ occ, vxIssue n vop w (issueState s n .vxe) = seqPlain n .vxe (vxWorked s n vop w i u) fun q => seqOp q w occ [] := by
  have htakes := vxTakes_vxPopEnds hin
  obtain ⟨hword, hrecipe⟩ := vxReady_formed h
  have hholds := vxReady_room h hdisp
  have hfit := congrArg Option.isSome (vxReady_chains h htakes)
  obtain ⟨-, -, -, -, -, -, hrep, -, hmay, -⟩ := h
  have hopen := congrArg (!·) hmay
  have hbuf := htakes.held.rowBuf
  rw [vxe_issueState] at hbuf
  unfold vxIssue
  rw [potOf_issueState_vxe]
  extract_lets _ _ p q r st nq k final ends done puts out t occ c g cut base slots
  refine ⟨if vop = vopRecipe then occ else occ + 1 + if final then vxTail vop r w else 0,
    (if_neg (ne_true_of_eq_false hword)).trans ((if_neg (Nat.pos_iff_ne_zero.1 hrep)).trans
    ((if_neg (ne_true_of_eq_false hrecipe)).trans ((if_neg (ne_true_of_eq_false hopen)).trans ?_)))⟩
  have hpops : vxPopEnds n t (vxNeeds w) (issueState s n .vxe) [] = .ok u i := hin
  rw [hpops]
  refine (if_neg (ne_true_of_eq_false (hholds _))).trans ((if_neg (ne_true_of_eq_false hfit)).trans ?_)
  extract_lets els s2 row s3 s4
  by_cases hvop : vop = vopRecipe
  · have hels : els = vxElems s n w i := by
      simp only [els, cut, base, if_pos hvop]
      rfl
    rw [if_pos hvop, if_pos hvop, hels, vxWorked, if_pos hvop]
    rfl
  · have hels : els = (upto (Nat.min g (vxRowLen w - k * g))).map (vxEval r w i (k * g)) := by
      simp only [els, cut, base, if_neg hvop]
    have hkept : (potOf s2 n).vxe.rowBuf = (potOf s n).vxe.rowBuf := (vxMoves_vxCounted n slots u).held.rowBuf.trans hbuf
    have hrow : row = vxRow s n w i := by
      simp only [row, hkept, hels]
      rfl
    have hfinal : final = vxFinal (potOf s n).vxeSeq w := by
      simp only [final, bne_iff_ne.2 hvop, Bool.true_and]
      rfl
    have hgathered : s3 = vxGathered s n vop w i u := by
      simp only [s3, hrow, hfinal]
      rfl
    rw [if_neg hvop, if_neg hvop, vxWorked, if_neg hvop]
    simp only [s4, hgathered, hrow, hfinal]
    cases vxFinal (potOf s n).vxeSeq w <;> rfl

end Issue

/-! ### What an issue leaves (R69, R243 to R252) -/

theorem touched_withChains (q : Seqr) (e : Eng) (l : SMap (List ChainEntry)) :
    touched { q with chains := l } e = { touched q e with chains := l } := by
  simp only [touched, cacheTouch]
  split <;> rfl

section Worked
variable {s t u v : State} {n : PotIx} {w : ColWord} {i : VxIn} {vop : Nat}

/-- Whatever the issue did to the chain queues, the sequencer goes on. -/
theorem opDone_of_vxStep (h : VxStep n (issueState s n .vxe) t) (occ : Nat) :
    opDone w (potOf s n).vxeSeq (seqOp (potOf t n).vxeSeq w occ []) := by
  have htouched : (potOf (issueState s n .vxe) n).vxeSeq = touched (potOf s n).vxeSeq .vxe := seqOf_issueState s n .vxe
  rw [h.seq, htouched, ← touched_withChains]
  exact (opDone_seqOp { (potOf s n).vxeSeq with chains := (potOf t n).vxeSeq.chains } .vxe w occ [] :)

/-- A VXE word that may issue completes: it goes on to its next issue or word, and leaves beside that what the issue worked. -/
theorem vxWord_runs {c : Instr} (hc : exec c s = seqIssue n .vxe (ownOp vop) (vxIssue n vop) s) (h : vxReady s n vop w)
    (hin : vxPopEnds n (issueAt (potOf s n).vxeSeq w) (vxNeeds w) (issueState s n .vxe) [] = .ok u i)
    (hdisp : vop = vopGate → vxFinal (potOf s n).vxeSeq w = true → (potOf s n).vxe.dispatchQ.length + vxKgate w ≤ 4096)
    (hstep : VxStep n (issueState s n .vxe) (vxWorked s n vop w i u)) :
    ∃ t, exec c s = .next t ∧ onlyPotTray n s t ∧ opDone w (potOf s n).vxeSeq (potOf t n).vxeSeq ∧
      (potOf t n).vxe = (potOf (vxWorked s n vop w i u) n).vxe ∧ t.tray = (vxWorked s n vop w i u).tray := by
  obtain ⟨occ, hgo⟩ := vxIssue_go h hin hdisp
  obtain ⟨hw, hown, -⟩ := h
  have hpot : potOf (updSeq (vxWorked s n vop w i u) n .vxe fun q => seqOp q w occ []) n =
      { potOf (vxWorked s n vop w i u) n with vxeSeq := seqOp (potOf (vxWorked s n vop w i u) n).vxeSeq w occ [] } := potOf_updPot_same ..
  refine ⟨_, hc.trans (seqIssue_go hw hown hgo),
    ((onlySeq_issueState s n .vxe).1.onlyPotTray.trans hstep.only).trans (onlySeq_updSeq ..).1.onlyPotTray, ?_, ?_, rfl⟩
  · rw [hpot]
    exact opDone_of_vxStep hstep occ
  · rw [hpot]

theorem vxeSeq_issued_of_vxStep (h : VxStep n (issueState s n .vxe) t) : (potOf t n).vxeSeq.issued = (potOf s n).vxeSeq.issued := by
  rw [h.seq, potOf_issueState_vxe]

/-- An issue of RECIPE on the operands popped. -/
theorem vxWorked_recipe (hin : VxTakes n (issueState s n .vxe) u) :
    VxStep n (issueState s n .vxe) (vxWorked s n vopRecipe w i u) ∧
    (potOf (vxWorked s n vopRecipe w i u) n).vxe.wordElems =
      (if (potOf s n).vxeSeq.issued = 0 then [] else (potOf s n).vxe.wordElems) ++ vxElems s n w i ∧
    ((potOf s n).vxeSeq.issued + 1 < wRepeat w →
      (potOf (vxWorked s n vopRecipe w i u) n).vxe.summaryOut = (potOf s n).vxe.summaryOut) ∧
    (vxOut w 0 = 63 → vxOut w 1 = 63 → (vxWorked s n vopRecipe w i u).tray = s.tray) := by
  rw [vxWorked, if_pos rfl]
  have hcounted := hin.toVxMoves.trans (vxMoves_vxCounted n (recipeS (recipeOf (potOf s n).vxe (vxRecipe w)) (vxPaired w)) u)
  obtain ⟨hstep, helems, hsum, htray⟩ := recipeEffect_spec (vxCtxOf s n w) (vxElems s n w i)
    (vxCounted n (recipeS (recipeOf (potOf s n).vxe (vxRecipe w)) (vxPaired w)) u)
  have hheld := hcounted.held
  rw [vxe_issueState] at hheld
  have hn : (vxCtxOf s n w).n = n := rfl
  rw [hn, vxeSeq_issued_of_vxStep hcounted.toVxStep, hheld.wordElems] at helems
  rw [hn, vxeSeq_issued_of_vxStep hcounted.toVxStep, hheld.summaryOut] at hsum
  exact ⟨hcounted.toVxStep.trans hstep, helems, hsum, fun h0 h1 => (htray h0 h1).trans hin.tray⟩

/-- An issue of a row VOP gathers its elements: the row, or nothing at the row's end, is in the row buffer, and no more has changed. -/
theorem vxGathered_spec (hin : VxTakes n (issueState s n .vxe) u) :
    VxStep n (issueState s n .vxe) (vxGathered s n vop w i u) ∧ (vxGathered s n vop w i u).tray = s.tray ∧
    VxHeld { (potOf s n).vxe with rowBuf := if vxFinal (potOf s n).vxeSeq w then [] else vxRow s n w i }
      (potOf (vxGathered s n vop w i u) n).vxe := by
  have hcounted := hin.toVxMoves.trans (vxMoves_vxCounted n (recipeS (recipeOf (potOf s n).vxe (vxRecipe w)) (vxPaired w)) u)
  obtain ⟨-, helems, hsum, hdisp, htoken⟩ := hcounted.held
  rw [vxe_issueState] at helems hsum hdisp htoken
  rw [vxGathered, vxBuffered, potOf_updPot_same]
  exact ⟨hcounted.toVxStep.trans (vxStep_updPot rfl), hin.tray, ⟨rfl, helems, hsum, hdisp, htoken⟩⟩

/-- An issue of a row VOP before the row's last one completes, and leaves the row so far in the row buffer. -/
theorem vxRow_gathers {c : Instr} (hc : exec c s = seqIssue n .vxe (ownOp vop) (vxIssue n vop) s) (hvop : vop ≠ vopRecipe)
    (h : vxReady s n vop w) (hin : vxPopEnds n (issueAt (potOf s n).vxeSeq w) (vxNeeds w) (issueState s n .vxe) [] = .ok u i)
    (hmore : vxFinal (potOf s n).vxeSeq w = false) :
    runsTo c s fun t =>
      onlyPotTray n s t ∧ t.tray = s.tray ∧ opDone w (potOf s n).vxeSeq (potOf t n).vxeSeq ∧
      (potOf t n).vxe.rowBuf = vxRow s n w i ∧ (potOf t n).vxe.summaryOut = (potOf s n).vxe.summaryOut ∧
      (potOf t n).vxe.dispatchQ = (potOf s n).vxe.dispatchQ ∧ (potOf t n).vxe.token = (potOf s n).vxe.token := by
  have hnot := ne_true_of_eq_false hmore
  obtain ⟨hstep, htray, hrow⟩ := vxGathered_spec (w := w) (i := i) (vop := vop) (vxTakes_vxPopEnds hin)
  have hwork : vxWorked s n vop w i u = vxGathered s n vop w i u := by rw [vxWorked, if_neg hvop, if_neg hnot]
  rw [← hwork] at hstep htray hrow
  obtain ⟨t, hexec, honly, hdone, hvxe, hsame⟩ := vxWord_runs hc h hin (fun _ hfinal => absurd hfinal hnot) hstep
  refine ⟨t, hexec, honly, hsame.trans htray, hdone, ?_⟩
  rw [hvxe]
  exact ⟨hrow.rowBuf.trans (if_neg hnot), hrow.summaryOut, hrow.dispatchQ, hrow.token⟩

/-- Results move, and then the summary word leaves where the word names a destination. -/
theorem emitSummary_after (n : PotIx) (w : ColWord) (x : Summary) (hmoves : VxMoves n t v) :
    VxStep n t (emitSummary n w x v) ∧ VxHeld { (potOf t n).vxe with
      summaryOut := (potOf t n).vxe.summaryOut ++ if vxSumDst w = 0 then [] else [⟨BitVec.ofNat 3 (vxSumDst w), x⟩] }
      (potOf (emitSummary n w x v) n).vxe := by
  obtain ⟨hsent, -, hvxe⟩ := emitSummary_spec n w x v
  obtain ⟨hrow, helems, hsum, hdisp, htoken⟩ := hmoves.held
  rw [hvxe, hsum]
  exact ⟨hmoves.toVxStep.trans hsent, hrow, helems, rfl, hdisp, htoken⟩

theorem toNat_vxSumDst (w : ColWord) : (BitVec.ofNat 3 (vxSumDst w)).toNat = vxSumDst w := by
  rw [BitVec.toNat_ofNat]
  exact Nat.mod_mod _ _

/-- The end of a row that gives a summary word and no entries: the row buffer is empty, and the word is on its way. -/
theorem vxWorked_rowEnd {x : Summary} (hfinal : vxFinal (potOf s n).vxeSeq w = true) (hin : VxTakes n (issueState s n .vxe) u)
    (hmoves : VxMoves n (vxGathered s n vop w i u) v) (hwork : vxWorked s n vop w i u = emitSummary n w x v) :
    VxStep n (issueState s n .vxe) (vxWorked s n vop w i u) ∧ (potOf (vxWorked s n vop w i u) n).vxe.rowBuf = [] ∧
    (vxSumDst w ≠ 0 → ∃ y : SummaryOut, (potOf (vxWorked s n vop w i u) n).vxe.summaryOut = (potOf s n).vxe.summaryOut ++ [y] ∧
      y.dst.toNat = vxSumDst w ∧ y.word = x) ∧
    (vxSumDst w = 0 → (potOf (vxWorked s n vop w i u) n).vxe.summaryOut = (potOf s n).vxe.summaryOut) := by
  obtain ⟨hgathered, -, hrow⟩ := vxGathered_spec (w := w) (i := i) (vop := vop) hin
  obtain ⟨hstep, hheld⟩ := emitSummary_after n w x hmoves
  have hsum := hheld.summaryOut
  rw [hrow.summaryOut] at hsum
  rw [hwork]
  refine ⟨hgathered.trans hstep, (hheld.rowBuf.trans hrow.rowBuf).trans (if_pos hfinal), fun hdst => ?_, fun hdst => ?_⟩
  · rw [if_neg hdst] at hsum
    exact ⟨_, hsum, toNat_vxSumDst w, rfl⟩
  · rw [if_pos hdst] at hsum
    exact hsum.trans (List.append_nil _)

theorem vxWorked_final (hvop : vop ≠ vopRecipe) (hfinal : vxFinal (potOf s n).vxeSeq w = true) :
    vxWorked s n vop w i u =
      vxRowEnd vop (vxCtxOf s n w) (vxRow s n w i) ((potOf s n).vxeSeq.issued / vxNq w) (vxGathered s n vop w i u) := by
  rw [vxWorked, if_neg hvop, if_pos hfinal]

/-- The end of a token of GATE. -/
theorem vxWorked_gate (hfinal : vxFinal (potOf s n).vxeSeq w = true) (hin : VxTakes n (issueState s n .vxe) u) :
    let vals := activeVals (vxRow s n w i)
    let chosen := gateChoose (vxKgate w) vals
    VxStep n (issueState s n .vxe) (vxWorked s n 3 w i u) ∧ (potOf (vxWorked s n 3 w i u) n).vxe.rowBuf = [] ∧
    (potOf (vxWorked s n 3 w i u) n).vxe.token = (potOf s n).vxe.token + 1 ∧
    (∃ bad, (potOf (vxWorked s n 3 w i u) n).vxe.dispatchQ = (potOf s n).vxe.dispatchQ ++
      (gateEntries (potOf s n).vxe.token chosen
        (gateWeights (recipeGnorm (recipeOf (potOf s n).vxe (vxRecipe w))) vals chosen)).map fun e => (e, bad)) ∧
    (vxOut w 0 = 63 → (vxWorked s n 3 w i u).tray = s.tray) := by
  intro vals chosen
  obtain ⟨hgathered, htray, hrow⟩ := vxGathered_spec (w := w) (i := i) (vop := 3) hin
  obtain ⟨v, x, hend, hmoves, hsame⟩ := gateEnd_spec (vxCtxOf s n w) (vxRow s n w i) ((potOf s n).vxeSeq.issued / vxNq w)
    (vxGathered s n 3 w i u)
  obtain ⟨hgates, hrowBuf, htoken, bad, hdisp⟩ := tokenGated_spec n (vxKgate w) (recipeGnorm (vxCtxOf s n w).r) (vxRow s n w i)
    (vxGathered s n 3 w i u)
  obtain ⟨hstep, hheld⟩ := emitSummary_after n w x hmoves
  obtain ⟨-, hsumTray, -⟩ := emitSummary_spec n w x v
  rw [hrow.token] at htoken hdisp
  rw [hrow.dispatchQ] at hdisp
  have hwork : vxWorked s n 3 w i u = emitSummary n w x v := (vxWorked_final (by decide) hfinal).trans hend
  rw [hwork]
  exact ⟨(hgathered.trans hgates).trans hstep, (hheld.rowBuf.trans (hrowBuf.trans hrow.rowBuf)).trans (if_pos hfinal),
    hheld.token.trans htoken, ⟨bad, hheld.dispatchQ.trans hdisp⟩, fun h0 => (hsumTray.trans (hsame h0)).trans htray⟩

end Worked

/-! ### The vector engine's statement -/

/-- Settles O36: operands come in without touching what the engine holds (`vxTakes_vxPopEnds`), so that an admitted word makes its issue
(`vxIssue_go`); the issue of RECIPE joins its elements to the word's (`recipeEffect_spec`), and the end of a row empties the row buffer,
moves results and sends the summary word (`reduceEnd_spec`, `softmaxEnd_spec`, `gateEnd_spec`). -/
theorem vectorWords : Obligations.VectorWords := by
  unfold Obligations.VectorWords
  refine ⟨?recipe, ?gather, ?rowEnd⟩
  case recipe =>
    rintro s n w i h ⟨u, hin⟩
    obtain ⟨hstep, helems, hsum, htray⟩ := vxWorked_recipe (w := w) (i := i) (vxTakes_vxPopEnds hin)
    obtain ⟨t, hexec, honly, hdone, hvxe, hsame⟩ := vxWord_runs (c := .recipe n) rfl h hin (fun hvop => absurd hvop (by decide)) hstep
    refine ⟨t, hexec, honly, hdone, ?_, fun hmore => ?_, fun h0 h1 => hsame.trans (htray h0 h1)⟩
    · rw [hvxe]
      exact helems
    · rw [hvxe]
      exact hsum hmore
  case gather =>
    rintro s n w i vop hlo hhi h ⟨u, hin⟩ hmore
    exact vxRow_gathers (by interval_cases vop <;> rfl) (Nat.ne_of_gt hlo) h hin hmore
  case rowEnd =>
    rintro s n w i hfinal ⟨u, hin⟩ r vals
    have htakes := vxTakes_vxPopEnds hin
    refine ⟨fun h => ?reduce, fun h => ?softmax, fun h hroom => ?gate⟩
    case reduce =>
      obtain ⟨v, x, hend, hmoves, hvalue⟩ := reduceEnd_spec (vxCtxOf s n w) (vxRow s n w i) ((potOf s n).vxeSeq.issued / vxNq w)
        (vxGathered s n 1 w i u)
      obtain ⟨hstep, hrow, hsends, hnone⟩ := vxWorked_rowEnd hfinal htakes hmoves ((vxWorked_final (by decide) hfinal).trans hend)
      obtain ⟨t, hexec, honly, hdone, hvxe, -⟩ := vxWord_runs (c := .reduce n) rfl h hin (fun hvop => absurd hvop (by decide)) hstep
      rw [← hvxe] at hrow hsends hnone
      refine ⟨t, hexec, honly, hdone, hrow, fun hdst => ?_, hnone⟩
      obtain ⟨y, hsum, hto, hword⟩ := hsends hdst
      exact ⟨y, hsum, hto, by rw [hword]; exact hvalue⟩
    case softmax =>
      obtain ⟨v, x, hend, hmoves, hvalue, hsum⟩ := softmaxEnd_spec (vxCtxOf s n w) (vxRow s n w i)
        ((potOf s n).vxeSeq.issued / vxNq w) (vxGathered s n 2 w i u)
      obtain ⟨hstep, hrow, hsends, -⟩ := vxWorked_rowEnd hfinal htakes hmoves ((vxWorked_final (by decide) hfinal).trans hend)
      obtain ⟨t, hexec, honly, hdone, hvxe, -⟩ := vxWord_runs (c := .softmax n) rfl h hin (fun hvop => absurd hvop (by decide)) hstep
      rw [← hvxe] at hrow hsends
      refine ⟨t, hexec, honly, hdone, hrow, fun hdst => ?_⟩
      obtain ⟨y, hout, hto, hword⟩ := hsends hdst
      rw [← hword] at hvalue hsum
      exact ⟨y, hout, hto, hvalue, hsum⟩
    case gate =>
      obtain ⟨hstep, hrow, htoken, hdisp, htray⟩ := vxWorked_gate (w := w) (i := i) hfinal htakes
      obtain ⟨t, hexec, honly, hdone, hvxe, hsame⟩ := vxWord_runs (c := .gate n) rfl h hin (fun _ _ => hroom) hstep
      rw [← hvxe] at hrow htoken hdisp
      exact ⟨t, hexec, honly, hdone, hrow, htoken, hdisp, fun h0 => hsame.trans (htray h0)⟩

end Sys2Proof.Machine

namespace Sys2Proof.Machine

/-!
PROOFS. Sift engine: a bag of rows that no route reaches, against what is stated of GATHER_CSR.
-/

/-! ### A bag of rows in an unreachable module (R99, R264, R283, R366, R367) -/

/-- A table of one 32 B row in the tray of the module of node 5 (R265, R266, R368). -/
def farTable : SfDesc := BitVec.ofNat 256 (2 ^ 47 + 5 * 2 ^ 32 + 2 ^ 64 + 32 * 2 ^ 96 + 2 ^ 128)

/-- GATHER_CSR of one bag of table 0 without weights, in FMT 1: indices from queue 0, the offset from queue 1, the row to queue 2
(R94). -/
def farGather : ColWord := BitVec.ofNat 256 (1 + 2 ^ 4 + 2 ^ 42 + 63 * 2 ^ 48 + 2 * 2 ^ 54 + 2 ^ 64)

/-- A queue of 4 KiB at `base` in a tray, its elements 2 ^ `elem` bytes long, with `count` of them to pop (R56). -/
def bagQueue (base elem pusher popper count : Nat) : Queue :=
  { Queue.reset with
    cfg := BitVec.ofNat 64 (base + 12 * 2 ^ 27 + elem * 2 ^ 32 + 2 ^ 37 + pusher * 2 ^ 39 + popper * 2 ^ 42)
    tail := BitVec.ofNat 32 count }

/-- A running module with pot 0 in service, none of whose ports leads to another module. The SFE stands at `farGather`, with the
indices 0 and 0 and the offset 2 to pop: a bag of two rows of `farTable`. -/
def farBag : State :=
  { State.reset with
    power := { Power.reset with step := .running, enPot := 1, enSpt := 1, pgCaddy := true, pgHub := true, pgPot := 1, pgSpt := 1 }
    tray := [(0x1000, 2)]
    pots := [(0, { Pot.reset with
      inReset := false
      queues := [(0, bagQueue 0 2 4 2 2), (1, bagQueue 0x1000 2 4 2 1), (2, bagQueue 0x2000 5 2 0 0)]
      sfe := { Sfe.reset with descs := [(0, farTable)] }
      sfeSeq := { Seqr.reset with running := true, icache := [(0, [⟨0, 0, 0, bytesOfNat 32 farGather.toNat, []⟩])] } })] }

theorem farBag_ready : sfReady farBag 0 0 farGather := by
  unfold sfReady wordIssues
  decide +kernel

/-- The bag that the pops gave, if they gave one. -/
def SfBagGot.bag? : SfBagGot → Option SfBag
  | .ok b => some b
  | _ => none

theorem SfBagGot.eq_ok_of_bag? {g : SfBagGot} (h : g.bag?.isSome = true) : ∃ b, g = .ok b := by
  cases g with
  | ok b => exact ⟨b, rfl⟩
  | hold => cases h
  | fault cause queue => cases h

theorem farBag_popped : ∃ b, sfBagPop 0 farGather farTable (issueState farBag 0 .sfe) = .ok b :=
  SfBagGot.eq_ok_of_bag? (by decide +kernel)

/-- Whether the SFE of pot `n` still runs its command after a step, and the tickets it holds. -/
def sfeAfter (n : PotIx) : Result → Option (Bool × List SfeTicket)
  | .next t => some ((potOf t n).sfeSeq.running, (potOf t n).sfe.tickets)
  | _ => none

/-- No port leads to node 5, so each read ends TIMEOUT as it is sent, and the SFE's command with it (R366, R367). The bag's ticket holds
no row when the first read fails, so it stays, and the first row joins it and waits; the second failure drops the ticket with a row
that waits (`sfeLeft`). -/
theorem sfeAfter_farBag : sfeAfter 0 (exec (.gatherCsr 0) farBag) = some (false, []) := by
  decide +kernel

/-! ### The sift engine's statement -/

/-- Refutes O38, by its part on GATHER_CSR: the bag `farBag` is popped and there is room for its row, but its rows lie in a module that
no route reaches, and the state after the step holds no ticket at all. -/
theorem not_siftWords : ¬ Obligations.SiftWords := by
  unfold Obligations.SiftWords
  rintro ⟨-, hcsr, -⟩
  obtain ⟨b, hpopped⟩ := farBag_popped
  obtain ⟨t, hexec, -, -, -, x, htickets, -⟩ := hcsr farBag 0 farGather b farBag_ready (by decide +kernel) (by decide +kernel)
    (by decide +kernel) hpopped (by decide +kernel) (by decide +kernel) (by decide +kernel)
  have hnone : (potOf t 0).sfe.tickets = [] := by
    have hafter := sfeAfter_farBag
    rw [hexec] at hafter
    exact (Prod.mk.inj (Option.some.inj hafter)).2
  exact List.append_ne_nil_of_right_ne_nil _ (List.cons_ne_nil x []) (htickets.symm.trans hnone)

end Sys2Proof.Machine

namespace Sys2Proof.Machine

/-!
PROOFS. Sync units and Drizor messages: what a lost node leaves, the rules of one operation at its sync unit, barriers, and the messages
of a port. What a step does when no route reaches its target comes first, since every completion and every message may end there.
-/

/-! ### What a lost node leaves (R289, R310, R313, R366, R367, R372)

The loss of a node drops operations, faults engines and frees queues, but changes no sync word, no committed-through number and no byte
of memory, parks nothing, and of the route table only marks entries lost. -/

/-- Of a pot the sync words and committed-through numbers stand, and no operation is parked or held that was not. -/
structure SyncStandsPot (p q : Pot) : Prop where
  words : q.snc.words = p.snc.words
  waiters : ∀ o ∈ q.snc.waiters, o ∈ p.snc.waiters
  held : ∀ o ∈ q.snc.held, o ∈ p.snc.held
  cts : ∀ k, (portOf q k).cts = (portOf p k).cts

theorem SyncStandsPot.refl (p : Pot) : SyncStandsPot p p := ⟨rfl, fun _ h => h, fun _ h => h, fun _ => rfl⟩

theorem SyncStandsPot.trans {p q r : Pot} (h : SyncStandsPot p q) (k : SyncStandsPot q r) : SyncStandsPot p r :=
  ⟨k.words.trans h.words, fun o ho => h.waiters o (k.waiters o ho), fun o ho => h.held o (k.held o ho),
    fun i => (k.cts i).trans (h.cts i)⟩

/-- An update of other fields, or of the slots, the register and the counters of the sync unit. -/
theorem SyncStandsPot.of_eq {p q : Pot}
    (h : q = { q with snc := { q.snc with words := p.snc.words, waiters := p.snc.waiters, held := p.snc.held }, ports := p.ports }) :
    SyncStandsPot p q := by
  rw [h]
  exact ⟨rfl, fun _ ho => ho, fun _ ho => ho, fun _ => rfl⟩

/-- An update of one port that leaves its committed-through numbers. -/
theorem syncStandsPot_setPort (p : Pot) (k : Nat) (x : Port) (hx : x.cts = (portOf p k).cts) : SyncStandsPot p (setPort p k x) := by
  refine ⟨rfl, fun _ h => h, fun _ h => h, fun i => ?_⟩
  by_cases hi : i = k
  · rw [hi, portOf_setPort_same, hx]
  · rw [portOf_setPort_other _ _ _ _ hi]

/-- Operations leave the sync unit. -/
theorem syncStandsPot_filter (p : Pot) (f g : Waiter → Bool) : SyncStandsPot p { p with snc := { p.snc with
    waiters := p.snc.waiters.filter f, held := p.snc.held.filter g } } :=
  ⟨rfl, fun _ h => (List.mem_filter.1 h).1, fun _ h => (List.mem_filter.1 h).1, fun _ => rfl⟩

theorem syncStandsPot_setSeq (p : Pot) (e : Eng) (q : Seqr) : SyncStandsPot p (setSeq p e q) :=
  .of_eq (by cases e <;> rfl)

theorem syncStandsPot_postEvent (p : Pot) (ev : BitVec 32) : SyncStandsPot p (postEvent p ev) := by
  rw [postEvent]
  split
  · exact .of_eq rfl
  · exact .refl p

/-- Every pot's words stand, and so do the memories; routes keep their ports and stay lost. -/
structure SyncStands (s t : State) : Prop where
  pot : ∀ m, SyncStandsPot (potOf s m) (potOf t m)
  dram : t.dram = s.dram
  tray : t.tray = s.tray
  trayMeta : t.trayMeta = s.trayMeta
  ports : ∀ d, (routeOf t d).ports = (routeOf s d).ports
  lost : ∀ d, (routeOf s d).lost = true → (routeOf t d).lost = true

theorem SyncStands.refl (s : State) : SyncStands s s := ⟨fun _ => .refl _, rfl, rfl, rfl, fun _ => rfl, fun _ h => h⟩

theorem SyncStands.trans {s t u : State} (h : SyncStands s t) (k : SyncStands t u) : SyncStands s u :=
  ⟨fun m => (h.pot m).trans (k.pot m), k.dram.trans h.dram, k.tray.trans h.tray, k.trayMeta.trans h.trayMeta,
    fun d => (k.ports d).trans (h.ports d), fun d hd => k.lost d (h.lost d hd)⟩

theorem SyncStands.sameBytes {s t : State} (h : SyncStands s t) : sameBytes s t := sameBytes_of_stores h.dram h.tray h.trayMeta

/-- A word reads as before. -/
theorem SyncStands.word {s t : State} (h : SyncStands s t) (m : PotIx) (j : Nat) :
    syncWordOf (potOf t m).snc j = syncWordOf (potOf s m).snc j := by rw [syncWordOf, (h.pot m).words, syncWordOf]

theorem SyncStands.otherWords {s t : State} (h : SyncStands s t) (n : PotIx) : otherWords n [] s t :=
  ⟨fun j _ => h.word n j, fun m _ => (h.pot m).words, h.sameBytes⟩

theorem SyncStands.noWaiters {s t : State} (h : SyncStands s t) {m : PotIx} (hm : (potOf s m).snc.waiters = []) :
    (potOf t m).snc.waiters = [] := List.eq_nil_iff_forall_not_mem.2 fun o ho => by
  have hin := (h.pot m).waiters o ho
  rw [hm] at hin
  exact absurd hin List.not_mem_nil

theorem SyncStands.noHeld {s t : State} (h : SyncStands s t) {m : PotIx} (hm : (potOf s m).snc.held = []) :
    (potOf t m).snc.held = [] := List.eq_nil_iff_forall_not_mem.2 fun o ho => by
  have hin := (h.pot m).held o ho
  rw [hm] at hin
  exact absurd hin List.not_mem_nil

theorem SyncStands.ctOf {s t : State} (h : SyncStands s t) (m : PotIx) (k key : Nat) :
    ctOf (portOf (potOf t m) k) key = ctOf (portOf (potOf s m) k) key := by rw [Machine.ctOf, (h.pot m).cts, Machine.ctOf]

/-- Neither pots, routes nor memories change. -/
theorem SyncStands.of_same {s t : State} (hpots : t.pots = s.pots) (hdrz : t.drz = s.drz) (hd : t.dram = s.dram)
    (ht : t.tray = s.tray) (hm : t.trayMeta = s.trayMeta) : SyncStands s t := by
  have hpot (m : PotIx) : potOf t m = potOf s m := by rw [potOf, hpots, potOf]
  have hroute (d : BitVec 16) : routeOf t d = routeOf s d := by rw [routeOf, hdrz, routeOf]
  exact ⟨fun m => hpot m ▸ .refl _, hd, ht, hm, fun d => by rw [hroute], fun d h => by rw [hroute, h]⟩

theorem SyncStands.of_onlyInf {s t : State} (h : onlyInf s t) : SyncStands s t := by
  rw [h]
  exact .of_same rfl rfl rfl rfl rfl

theorem syncStands_setPot {s : State} {n : PotIx} {p : Pot} (h : SyncStandsPot (potOf s n) p) : SyncStands s (setPot s n p) := by
  refine ⟨fun m => ?_, rfl, rfl, rfl, fun _ => rfl, fun _ hd => hd⟩
  by_cases hm : m = n
  · subst hm
    rw [potOf_setPot_same]
    exact h
  · rw [potOf_setPot_other _ _ _ _ hm]
    exact .refl _

theorem syncStands_updPot {s : State} {n : PotIx} {f : Pot → Pot} (h : SyncStandsPot (potOf s n) (f (potOf s n))) :
    SyncStands s (updPot s n f) := syncStands_setPot h

theorem SyncStands.updPot {s t : State} {n : PotIx} {f : Pot → Pot} (h : SyncStands s t)
    (hf : SyncStandsPot (potOf t n) (f (potOf t n))) : SyncStands s (updPot t n f) := h.trans (syncStands_updPot hf)

theorem syncStands_mapPots (s : State) (f : Pot → Pot) (h : ∀ p, SyncStandsPot p (f p)) :
    SyncStands s { s with pots := s.pots.map fun e => (e.1, f e.2) } := by
  refine ⟨fun m => ?_, rfl, rfl, rfl, fun _ => rfl, fun _ hd => hd⟩
  simp only [potOf, tget]
  rw [tfind_map_values s.pots f]
  cases tfind s.pots m.toNat with
  | none => exact .refl _
  | some p => exact h p

theorem syncStands_runAll {α : Type} {f : State → α → State} (hf : ∀ s a, SyncStands s (f s a)) (l : List α) (s : State) :
    SyncStands s (runAll f l s) := runAll_rel SyncStands.refl SyncStands.trans hf l s

theorem syncStands_ite {c : Prop} [Decidable c] {s t u : State} (ht : SyncStands s t) (hu : SyncStands s u) :
    SyncStands s (if c then t else u) := by
  split
  · exact ht
  · exact hu

/-! Updates that many operations share. -/

theorem syncStands_updSeq (s : State) (n : PotIx) (e : Eng) (f : Seqr → Seqr) : SyncStands s (updSeq s n e f) :=
  syncStands_updPot (syncStandsPot_setSeq ..)

theorem syncStands_answerMember (s : State) (n : PotIx) (a : MemberAns) : SyncStands s (answerMember s n a) :=
  syncStands_updPot (.of_eq rfl)

theorem syncStands_sncCount (s : State) (n : PotIx) (lo len : Nat) : SyncStands s (sncCount s n lo len) :=
  syncStands_updPot (.of_eq rfl)

theorem sendFault_drz (s : State) (f : FaultInfo) : (sendFault s f).drz = s.drz :=
  (congrArg State.drz (sendFault_frame s f) :)

theorem syncStands_sendFault (s : State) (f : FaultInfo) : SyncStands s (sendFault s f) :=
  .of_same (congrArg State.pots (sendFault_frame s f) :) (sendFault_drz s f) (congrArg State.dram (sendFault_frame s f) :)
    (congrArg State.tray (sendFault_frame s f) :) (congrArg State.trayMeta (sendFault_frame s f) :)

/-- An update of a port that leaves its committed-through numbers. -/
theorem syncStands_updPortAt (s : State) (q : Nat) (f : Port → Port) (hf : ∀ p, (f p).cts = p.cts) : SyncStands s (updPortAt s q f) :=
  syncStands_updPot (syncStandsPot_setPort _ _ _ (hf _))

theorem syncStands_updPort (s : State) (n : PotIx) (k : BitVec 1) (f : Port → Port) (hf : ∀ p, (f p).cts = p.cts) :
    SyncStands s (updPort s n k f) := syncStands_updPot (syncStandsPot_setPort _ _ _ (hf _))

/-! Engines that fault (R63, R98, R99). -/

/-- A commit of a buffered register takes its bookkeeping away. -/
theorem syncStands_committed (s : State) (n : PotIx) (f : Pot → Pot) (key : Nat) :
    SyncStands (updPot s n f) (parityEnds (dropBuffer (updPot s n f) key) key) := .of_same rfl rfl rfl rfl rfl

theorem syncStands_applySeqRegs (s : State) (n : PotIx) (e : Eng) : SyncStands s (applySeqRegs s n e) := by
  refine syncStands_runAll (fun t off => ?_) _ s
  dsimp only
  split
  · exact .refl t
  · refine (?_ : SyncStands t (updPot t n _)).trans (syncStands_committed t n _ _)
    refine syncStands_updPot ?_
    split_ifs
    · exact syncStandsPot_setSeq ..
    · exact syncStandsPot_setSeq ..
    · cases e
      all_goals exact .of_eq rfl

theorem syncStands_boundary (s : State) (n : PotIx) (e : Eng) : SyncStands s (boundary s n e) := by
  have h := fun f => (syncStands_applySeqRegs s n e).trans (syncStands_updSeq (applySeqRegs s n e) n e f)
  unfold boundary
  cases e with
  | mxe => exact h _
  | vxe => exact (h _).updPot (.of_eq rfl)
  | sfe => exact (h _).updPot (.of_eq rfl)

theorem syncStands_engFinish (s : State) (n : PotIx) (e : Eng) (st : Status) : SyncStands s (engFinish s n e st) := by
  unfold engFinish
  extract_lets q s0 s1 s2 s3 s4
  have hdrop : SyncStands s (dropAgent s (.sequencer n e)) := syncStands_mapPots s _ fun p => syncStandsPot_filter ..
  have h0 : SyncStands s s0 := hdrop.updPot (.of_eq rfl)
  have h2 : SyncStands s s2 := (h0.trans (.of_onlyInf (onlyInf_inflightDown ..))).trans (syncStands_updSeq ..)
  have h3 : SyncStands s s3 := h2.updPot (.of_eq rfl)
  have h4 : SyncStands s s4 := syncStands_ite (h3.updPot (syncStandsPot_postEvent ..)) h3
  exact h4.trans (syncStands_boundary ..)

theorem syncStands_seqFault (s : State) (n : PotIx) (e : Eng) (cause : Nat) (word : ColWord) (queue : Nat) :
    SyncStands s (seqFault s n e cause word queue) := by
  unfold seqFault
  refine SyncStands.trans ?_ (syncStands_engFinish ..)
  refine SyncStands.trans ?_ (.of_onlyInf (onlyInf_markFailing ..))
  exact (syncStands_updSeq s n e _).trans (syncStands_sendFault ..)

/-! Completions, messages and the loss itself (R309 to R313, R366, R367, R372). -/

theorem syncStands_syncLocal (s : State) (n : PotIx) (a : Agent) (st : Status) (view : BitVec 128) :
    SyncStands s (syncLocal s n a st view) := by
  unfold syncLocal
  cases a with
  | sequencer m e => exact syncStands_updSeq ..
  | brewerSlot m c slot =>
    refine syncStands_setPot ?_
    split
    · refine SyncStandsPot.trans ?_ (syncStandsPot_postEvent ..)
      exact .of_eq rfl
    · exact .of_eq rfl
  | hubSlot c slot => exact .of_same rfl rfl rfl rfl rfl
  | hostCmd id => exact syncStands_answerMember ..
  | remote d p id => exact .refl s

theorem syncStands_hfe (s : State) (x : Hfe) : SyncStands s { s with hfe := x } := .of_same rfl rfl rfl rfl rfl

theorem syncStands_remoteTimeout (s : State) (n : PotIx) (r : RemoteReq) : SyncStands s (remoteTimeout s n r) := by
  unfold remoteTimeout
  split
  · exact syncStands_syncLocal ..
  · exact syncStands_hfe ..
  · exact syncStands_seqFault ..
  · exact syncStands_seqFault ..
  · exact .refl s
  · exact .refl s

theorem syncStands_strandRecord (s : State) (n : PotIx) (x : Deferred) : SyncStands s (strandRecord s n x) := by
  unfold strandRecord
  exact (syncStands_sncCount s n 56 16).trans (syncStands_sendFault ..)

theorem syncStands_dropDeferred (s : State) (q : Nat) (c : Deferred → Bool) : SyncStands s (dropDeferred s q c) := by
  unfold dropDeferred
  refine SyncStands.trans (syncStands_updPortAt _ _ _ ?_) (syncStands_runAll (fun _ _ => syncStands_strandRecord ..) _ _)
  exact fun _ => rfl

theorem syncStands_lossyRefuse (s : State) (n : PotIx) (d : BitVec 16) (o : RemoteOp) : SyncStands s (lossyRefuse s n d o) := by
  unfold lossyRefuse
  refine SyncStands.trans (syncStands_updPortAt _ _ _ ?_) (syncStands_syncLocal ..)
  exact fun _ => rfl

theorem syncStands_streamLossy (s : State) (n : PotIx) (d : BitVec 16) : SyncStands s (streamLossy s n d) := by
  unfold streamLossy
  refine syncStands_ite (.refl s) ?_
  refine SyncStands.trans ?_ (syncStands_runAll (fun _ _ => syncStands_lossyRefuse ..) _ _)
  refine SyncStands.trans (syncStands_updPot ?_) (syncStands_sendFault ..)
  exact .of_eq rfl

/-- The route table's entry of a node marked lost (R366). -/
def routeLost (s : State) (d : BitVec 16) : State :=
  if d.toNat < 4096 then
    { s with drz := { s.drz with routes := tset s.drz.routes d.toNat { routeOf s d with lost := true } } }
  else s

theorem routeOf_routeLost {s : State} {d : BitVec 16} (hd : d.toNat < 4096) (e : BitVec 16) :
    routeOf (routeLost s d) e = if e = d then { routeOf s d with lost := true } else routeOf s e := by
  rw [routeLost, if_pos hd]
  by_cases he : e = d
  · rw [if_pos he, he]
    exact tget_tset_same ..
  · rw [if_neg he]
    exact tget_tset_other _ _ _ _ _ fun h => he (BitVec.eq_of_toNat_eq h)

theorem syncStands_routeLost (s : State) (d : BitVec 16) : SyncStands s (routeLost s d) := by
  by_cases hd : d.toNat < 4096
  · refine ⟨fun m => ?_, by rw [routeLost, if_pos hd], by rw [routeLost, if_pos hd], by rw [routeLost, if_pos hd], fun e => ?_,
      fun e he => ?_⟩
    · rw [routeLost, if_pos hd]
      exact .refl _
    · rw [routeOf_routeLost hd]
      split
      · next h => rw [h]
      · rfl
    · rw [routeOf_routeLost hd]
      split
      · rfl
      · exact he
  · rw [routeLost, if_neg hd]
    exact .refl s

theorem syncStands_blend (s : State) (b : Blend) : SyncStands s { s with blend := b } := .of_same rfl rfl rfl rfl rfl

/-- Once its entry is marked, what the loss of a node does besides (R367). -/
theorem syncStands_lossEffects (s : State) (d : BitVec 16) : SyncStands (routeLost s d) (declareLost s d) := by
  unfold declareLost
  refine SyncStands.trans ?_ (syncStands_runAll (fun _ _ => syncStands_streamLossy ..) _ _)
  refine SyncStands.trans ?_ (syncStands_blend ..)
  refine SyncStands.trans ?_ (syncStands_runAll (fun t n => ?_) _ _)
  · refine SyncStands.trans ?_ (syncStands_mapPots _ (fun p => { p with snc := { p.snc with
      waiters := p.snc.waiters.filter fun w => agentNode w.agent != some d,
      held := p.snc.held.filter fun w => agentNode w.agent != some d } }) fun p => syncStandsPot_filter ..)
    refine SyncStands.trans ?_ (syncStands_runAll (fun _ _ => syncStands_dropDeferred ..) _ _)
    refine syncStands_runAll (fun _ _ => syncStands_updPortAt _ _ _ ?_) _ _
    exact fun _ => rfl
  · refine SyncStands.trans (syncStands_updPot ?_) (syncStands_runAll (fun _ _ => syncStands_remoteTimeout ..) _ _)
    exact .of_eq rfl

theorem syncStands_declareLost (s : State) (d : BitVec 16) : SyncStands s (declareLost s d) :=
  (syncStands_routeLost s d).trans (syncStands_lossEffects s d)

/-- A lost node's entry is marked (R366). -/
theorem declareLost_lost (s : State) {d : BitVec 16} (hd : d.toNat < 4096) : (routeOf (declareLost s d) d).lost = true :=
  (syncStands_lossEffects s d).lost d (by rw [routeOf_routeLost hd, if_pos rfl])

theorem txPush_port_cts (fs : List Flit) (p : Port) :
    (fs.foldl (fun x f => { x with txq := tset x.txq f.vc.toNat (tget x.txq f.vc.toNat [] ++ [(f, x.slotNo)]) }) p).cts = p.cts := by
  induction fs generalizing p with
  | nil => rfl
  | cons f fs ih => exact ih _

theorem syncStands_txPush (s : State) (q : Nat) (fs : List Flit) : SyncStands s (txPush s q fs) :=
  syncStands_updPortAt _ _ _ fun p => txPush_port_cts fs p

theorem syncStands_sendMsg (s : State) (n : PotIx) (d : BitVec 16) (mtype : Nat) (sseq : BitVec 32) (tag : BitVec 16) (inf : BitVec 12)
    (addr : Word64) (body : List Byte) : SyncStands s (sendMsg s n d mtype sseq tag inf addr body) := by
  unfold sendMsg
  split
  · exact syncStands_declareLost ..
  · exact syncStands_txPush ..

theorem syncStands_sncReply (n : PotIx) (s : State) (x : Waiter × Status × BitVec 128) : SyncStands s (sncReply n s x) := by
  unfold sncReply
  split
  · exact syncStands_sendMsg ..
  · exact syncStands_syncLocal ..

end Sys2Proof.Machine

namespace Sys2Proof.Machine

/-! ### What an agent's operation leaves until it acts (R295, R298) -/

/-- Words, waiting operations and SNC_CTL of every sync unit stand, with the registers and the memories: slots and counters aside. -/
structure SncSame (s t : State) : Prop where
  words : ∀ m, (potOf t m).snc.words = (potOf s m).snc.words
  waiters : ∀ m, (potOf t m).snc.waiters = (potOf s m).snc.waiters
  held : ∀ m, (potOf t m).snc.held = (potOf s m).snc.held
  ctl : ∀ m, (potOf t m).snc.ctl = (potOf s m).snc.ctl
  regs : t.regs = s.regs
  bytes : sameBytes s t

theorem SncSame.trans {s t u : State} (h : SncSame s t) (k : SncSame t u) : SncSame s u :=
  ⟨fun m => (k.words m).trans (h.words m), fun m => (k.waiters m).trans (h.waiters m), fun m => (k.held m).trans (h.held m),
    fun m => (k.ctl m).trans (h.ctl m), k.regs.trans h.regs, h.bytes.trans k.bytes⟩

theorem SncSame.refl (s : State) : SncSame s s := ⟨fun _ => rfl, fun _ => rfl, fun _ => rfl, fun _ => rfl, rfl, .refl s⟩

theorem SncSame.word {s t : State} (h : SncSame s t) (n : PotIx) (j : Nat) :
    syncWordOf (potOf t n).snc j = syncWordOf (potOf s n).snc j := by rw [syncWordOf, h.words, syncWordOf]

theorem SncSame.fwWords {s t : State} (h : SncSame s t) (n : PotIx) : fwWords t n = fwWords s n := by
  rw [Machine.fwWords, sncCtl, regBad, h.regs, h.ctl, Machine.fwWords, sncCtl, regBad]

theorem SncSame.seen {s t : State} (h : SncSame s t) (n : PotIx) (fw j : Nat) :
    wordSeen (potOf t n).snc fw j = wordSeen (potOf s n).snc fw j := by rw [wordSeen, h.word, wordSeen]

theorem SncSame.ready {s t : State} (h : SncSame s t) {n : PotIx} {ix : Nat} (hr : wordReady s n ix) : wordReady t n ix :=
  (wordReady_congr h.regs (h.words n) (h.ctl n)).2 hr

theorem SncSame.otherWords {s s1 t : State} (h : SncSame s s1) {n : PotIx} {ixs : List Nat} (k : otherWords n ixs s1 t) :
    otherWords n ixs s t := by
  obtain ⟨hown, hpots, hbytes⟩ := k
  exact ⟨fun j hj => (hown j hj).trans (h.word n j), fun m hm => (hpots m hm).trans (h.words m), h.bytes.trans hbytes⟩

theorem otherWords.mono {s t : State} {n : PotIx} {ixs jxs : List Nat} (h : otherWords n ixs s t) (hsub : ∀ j ∈ ixs, j ∈ jxs) :
    otherWords n jxs s t := by
  obtain ⟨hown, hpots, hbytes⟩ := h
  exact ⟨fun j hj => hown j fun hin => hj (hsub j hin), hpots, hbytes⟩

/-- With no word listed, every one is as it was. -/
theorem otherWords.word {s t : State} {n : PotIx} (h : otherWords n [] s t) (j : Nat) :
    syncWordOf (potOf t n).snc j = syncWordOf (potOf s n).snc j := h.1 j List.not_mem_nil

/-- An update of one pot that leaves those parts of its sync unit. -/
theorem sncSame_updPot {s : State} {n : PotIx} {f : Pot → Pot} (hw : (f (potOf s n)).snc.words = (potOf s n).snc.words)
    (hq : (f (potOf s n)).snc.waiters = (potOf s n).snc.waiters) (hh : (f (potOf s n)).snc.held = (potOf s n).snc.held)
    (hc : (f (potOf s n)).snc.ctl = (potOf s n).snc.ctl) : SncSame s (updPot s n f) := by
  have hpot (m : PotIx) : potOf (updPot s n f) m = if m = n then f (potOf s n) else potOf s m := by
    split
    · next h => rw [h, potOf_updPot_same]
    · next h => exact potOf_updPot_other _ _ _ _ h
  refine ⟨fun m => ?_, fun m => ?_, fun m => ?_, fun m => ?_, rfl, sameBytes_updPot ..⟩
  all_goals
    rw [hpot]
    split
    · next h => rw [h]; assumption
    · rfl

theorem sncSame_slotStart (s : State) (a : Agent) : SncSame s (slotStart s a) := by
  unfold slotStart updSlot
  cases a with
  | brewerSlot n c k => exact sncSame_updPot rfl rfl rfl rfl
  | hubSlot c k => exact ⟨fun _ => rfl, fun _ => rfl, fun _ => rfl, fun _ => rfl, rfl, sameBytes_of_stores rfl rfl rfl⟩
  | sequencer n e => exact .refl s
  | hostCmd id => exact .refl s
  | remote d p id => exact .refl s

theorem sncSame_sncCount (s : State) (n : PotIx) (lo len : Nat) : SncSame s (sncCount s n lo len) := sncSame_updPot rfl rfl rfl rfl

/-- The agent's slot is busy, and its operation is counted at the sync unit. -/
def opArrived (s : State) (n : PotIx) (a : Agent) : State := sncCount (slotStart s a) n 0 40

theorem sncSame_opArrived (s : State) (n : PotIx) (a : Agent) : SncSame s (opArrived s n a) :=
  (sncSame_slotStart s a).trans (sncSame_sncCount ..)

/-- An agent's operation as it stands at the sync unit. -/
def opOf (s : State) (ix : BitVec 16) (a : Agent) (yop : BitVec 4) (cond : BitVec 2) (full : Bool) (x : Word64) : Waiter :=
  ⟨ix, yop, cond, full, x, a, (agentTag s a).1, (agentTag s a).2, 0⟩

/-- The operation of an agent whose slot is free comes to the sync unit. -/
theorem sncOperation_arrives {s : State} {n : PotIx} {a : Agent} (hon : potOn s n = true) (hslot : slotTaken s a = false)
    {ix : BitVec 16} {yop : BitVec 4} {cond : BitVec 2} {full : Bool} {x : Word64} :
    sncOperation n ix a yop cond full x s = .next (sncArrive (slotStart s a) n (opOf s ix a yop cond full x)) := by
  simp only [sncOperation, hon, hslot, Bool.not_true, Bool.false_eq_true, if_false, opOf]

/-- With nothing held there it comes to its checks. -/
theorem sncOperation_checks {s : State} {n : PotIx} {a : Agent} (hon : potOn s n = true) (hslot : slotTaken s a = false)
    (hheld : (potOf s n).snc.held = []) {ix : BitVec 16} {yop : BitVec 4} {cond : BitVec 2} {full : Bool} {x : Word64} :
    sncOperation n ix a yop cond full x s = .next (sncChecked (opArrived s n a) n (opOf s ix a yop cond full x) false) := by
  rw [opArrived, ← sncArrive_notHeld (by rw [(sncSame_slotStart s a).held, hheld]), sncOperation_arrives hon hslot]

/-! ### An operation on ready words (R289, R292 to R294, R296, R314) -/

theorem opWords_plain {o : Waiter} (h : yopBarrier o.yop = false) : opWords o = [o.index.toNat] := by rw [opWords, h]; rfl

theorem opWords_barrier {o : Waiter} (h : yopBarrier o.yop = true) : opWords o = [o.index.toNat, o.index.toNat + 1] := by
  rw [opWords, h]; rfl

/-- An operation on ready words passes every check (R289, R296, R314). -/
theorem sncChecked_runs {s : State} {n : PotIx} {o : Waiter} {again : Bool} (hyop : o.yop.toNat ≤ 8)
    (heven : yopBarrier o.yop = true → o.index.toNat % 2 = 0) (h : ∀ ix ∈ opWords o, wordReady s n ix) :
    sncChecked s n o again = sncRun s n o again := by
  have hguard : ¬(8 < o.yop.toNat ∨ (yopBarrier o.yop ∧ o.index.toNat % 2 = 1)) := by
    rintro (h8 | ⟨hb, hodd⟩)
    · omega
    · have := heven hb
      omega
  have hfind : (opWords o).find? (fun ix => !(wordSeen (potOf s n).snc (fwWords s n) ix).broken &&
      !wordSound (wordSeen (potOf s n).snc (fwWords s n) ix)) = none := by
    rw [List.find?_eq_none]
    intro ix hix
    obtain ⟨-, -, hsound⟩ := h ix hix
    simp [wordSound_wordSeen, hsound]
  have hbroken : ((opWords o).any fun ix => (wordSeen (potOf s n).snc (fwWords s n) ix).broken) = false := by
    rw [List.any_eq_false]
    intro ix hix
    obtain ⟨-, hb, -⟩ := h ix hix
    simp [wordSeen_broken, hb]
  have halloc : ((opWords o).any fun ix => !(wordSeen (potOf s n).snc (fwWords s n) ix).alloc) = false := by
    rw [List.any_eq_false]
    intro ix hix
    obtain ⟨ha, -, -⟩ := h ix hix
    simp [ha]
  simp only [sncChecked, if_neg hguard, hfind, hbroken, halloc, Bool.false_eq_true, and_false, if_false]

/-- The view that a completion takes of its word. -/
def opView (s : State) (n : PotIx) (c : Snc) (o : Waiter) : BitVec 128 := syncView (wordSeen c (fwWords s n) o.index.toNat)

/-- An operation that completes with nobody parked is answered, and that is all. -/
theorem sncRun_answers {s : State} {n : PotIx} {o : Waiter} {again : Bool} {c : Snc} {st : Status}
    (htry : tryOp (potOf s n).snc o = .done c st) (hw : c.waiters = []) :
    sncRun s n o again = sncReply n (setSnc s n c) (o, st, opView s n c o) := by
  have hnone : (potOf (sncReply n (setSnc s n c) (o, st, opView s n c o)) n).snc.waiters = [] :=
    (syncStands_sncReply ..).noWaiters (by rw [setSnc, potOf_updPot_same]; exact hw)
  simp only [sncRun, htry]
  rw [settle_noWaiters _ _ _ hw]
  exact sncReport_sound fun x hx => absurd (hnone ▸ hx) List.not_mem_nil

/-- What is answered on the sync unit `c` of a pot leaves `c`'s words there, and the other pots' and the memories. -/
theorem otherWords_answered {s s1 t : State} {n : PotIx} {c : Snc} {ixs : List Nat} (hsame : SncSame s s1)
    (hc : ∀ j, j ∉ ixs → syncWordOf c j = syncWordOf (potOf s n).snc j) (h : SyncStands (setSnc s1 n c) t) :
    otherWords n ixs s t := by
  refine ⟨fun j hj => ?_, fun m hm => ?_, ?_⟩
  · rw [h.word, setSnc, potOf_updPot_same]
    exact hc j hj
  · rw [(h.pot m).words, setSnc, potOf_updPot_other _ _ _ _ hm, hsame.words]
  · exact hsame.bytes.trans ((sameBytes_updPot ..).trans h.sameBytes)

theorem word_answered {s1 t : State} {n : PotIx} {c : Snc} (h : SyncStands (setSnc s1 n c) t) (j : Nat) :
    syncWordOf (potOf t n).snc j = syncWordOf c j := by
  rw [h.word, setSnc, potOf_updPot_same]

theorem waiters_answered {s1 t : State} {n : PotIx} {c : Snc} (h : SyncStands (setSnc s1 n c) t) (hc : c.waiters = []) :
    (potOf t n).snc.waiters = [] := h.noWaiters (by rw [setSnc, potOf_updPot_same]; exact hc)

theorem held_answered {s1 t : State} {n : PotIx} {c : Snc} (h : SyncStands (setSnc s1 n c) t) (hc : c.held = []) :
    (potOf t n).snc.held = [] := h.noHeld (by rw [setSnc, potOf_updPot_same]; exact hc)

/-- A parked entry leaves the words, and the free value that it takes leaves the rest. -/
theorem sncParked_alone {s s1 : State} {n : PotIx} {o : Waiter} (hsame : SncSame s s1) :
    (potOf (setSnc { s1 with freeCtr := s1.freeCtr + 1 } n { (potOf s1 n).snc with waiters := [o] }) n).snc.waiters.length = 1 ∧
      otherWords n [] s (setSnc { s1 with freeCtr := s1.freeCtr + 1 } n { (potOf s1 n).snc with waiters := [o] }) := by
  have hfree : SncSame s { s1 with freeCtr := s1.freeCtr + 1 } :=
    hsame.trans ⟨fun _ => rfl, fun _ => rfl, fun _ => rfl, fun _ => rfl, rfl, sameBytes_of_stores rfl rfl rfl⟩
  refine ⟨by rw [setSnc, potOf_updPot_same]; rfl, otherWords_answered hfree (fun j _ => ?_) (.refl _)⟩
  exact hsame.word n j

/-! The attempts of R292. -/

theorem tryOp_read (c : Snc) {o : Waiter} (h : o.yop = 0) : tryOp c o = .done c .ok := by
  rw [tryOp, h]
  rfl

theorem tryOp_fill {c : Snc} {o : Waiter} (h : o.yop = 2) (hfull : (syncWordOf c o.index.toNat).full = false) :
    tryOp c o = .done (changeWord c o.index.toNat o.operand true) .ok := by
  rw [tryOp, h]
  simp [hfull]

theorem tryOp_fill_full {c : Snc} {o : Waiter} (h : o.yop = 2) (hfull : (syncWordOf c o.index.toNat).full = true) :
    tryOp c o = .park c o false := by
  rw [tryOp, h]
  simp [hfull]

theorem tryOp_empty_full {c : Snc} {o : Waiter} (h : o.yop = 3) (hfull : (syncWordOf c o.index.toNat).full = true) :
    tryOp c o = .done (changeWord c o.index.toNat (syncWordOf c o.index.toNat).value false) .ok := by
  rw [tryOp, h]
  simp [hfull]

theorem tryOp_wait {c : Snc} {o : Waiter} (h : o.yop = 4) (hcond : waitCond (syncWordOf c o.index.toNat) o.cond o.operand = true) :
    tryOp c o = .done c .ok := by
  rw [tryOp, h]
  simp [hcond]

theorem tryOp_wait_parks {c : Snc} {o : Waiter} (h : o.yop = 4)
    (hcond : waitCond (syncWordOf c o.index.toNat) o.cond o.operand = false) : tryOp c o = .park c o false := by
  rw [tryOp, h]
  simp [hcond]

theorem tryOp_signal (c : Snc) {o : Waiter} (h : o.yop = 5) :
    tryOp c o = .done (changeWord c o.index.toNat ((syncWordOf c o.index.toNat).value + o.operand) true) .ok := by
  rw [tryOp, h]
  rfl

/-! An operation that comes to ready words, behind which nothing is held. -/

/-- The words that an operation checks are ready, and it is one of R292, a barrier's on an even word (R296). -/
structure OpReady (s : State) (n : PotIx) (ix : BitVec 16) (yop : BitVec 4) : Prop where
  code : yop.toNat ≤ 8
  even : yopBarrier yop = true → ix.toNat % 2 = 0
  words : ∀ j ∈ if yopBarrier yop then [ix.toNat, ix.toNat + 1] else [ix.toNat], wordReady s n j

theorem yopBarrier_plain {yop : BitVec 4} (h : yop.toNat ≤ 5) : yopBarrier yop = false := by
  rw [yopBarrier, decide_eq_false_iff_not]
  omega

theorem OpReady.plain {s : State} {n : PotIx} {ix : BitVec 16} {yop : BitVec 4} (h : yop.toNat ≤ 5) (hready : wordReady s n ix.toNat) :
    OpReady s n ix yop := by
  refine ⟨Nat.le_trans h (by decide), fun hb => absurd (yopBarrier_plain h) (by rw [hb]; decide), fun j hj => ?_⟩
  rw [yopBarrier_plain h] at hj
  rw [List.mem_singleton.1 hj]
  exact hready

theorem OpReady.barrier {s : State} {n : PotIx} {ix : BitVec 16} {yop : BitVec 4} (h : yopBarrier yop = true)
    (heven : ix.toNat % 2 = 0) (hlow : wordReady s n ix.toNat) (hhigh : wordReady s n (ix.toNat + 1)) : OpReady s n ix yop := by
  obtain ⟨-, hcode⟩ := of_decide_eq_true h
  refine ⟨hcode, fun _ => heven, fun j hj => ?_⟩
  rw [if_pos h] at hj
  obtain rfl | hj' := List.mem_cons.1 hj
  · exact hlow
  · rw [List.mem_singleton.1 hj']
    exact hhigh

theorem OpReady.congr {s t : State} {n : PotIx} {ix : BitVec 16} {yop : BitVec 4} (h : OpReady s n ix yop) (hsame : SncSame s t) :
    OpReady t n ix yop := ⟨h.code, h.even, fun j hj => hsame.ready (h.words j hj)⟩

section Arrive
variable {s : State} {n : PotIx} {o : Waiter}

/-- It is counted and comes to run. -/
theorem sncArrive_runs (hheld : (potOf s n).snc.held = []) (hready : OpReady s n o.index o.yop) :
    sncArrive s n o = sncRun (sncCount s n 0 40) n o false := by
  rw [sncArrive_notHeld hheld, sncChecked_runs hready.code hready.even fun j hj =>
    (sncSame_sncCount s n 0 40).ready (hready.words j hj)]

/-- One that completes with nobody parked is answered with its word's view. -/
theorem sncArrive_answers (hheld : (potOf s n).snc.held = []) (hready : OpReady s n o.index o.yop) {c : Snc} {st : Status}
    (htry : tryOp (potOf (sncCount s n 0 40) n).snc o = .done c st) (hw : c.waiters = []) :
    sncArrive s n o = sncReply n (setSnc (sncCount s n 0 40) n c) (o, st, syncView (wordSeen c (fwWords s n) o.index.toNat)) := by
  rw [sncArrive_runs hheld hready, sncRun_answers htry hw, opView, (sncSame_sncCount s n 0 40).fwWords]

variable (hwaiters : (potOf s n).snc.waiters = []) (hheld : (potOf s n).snc.held = []) (hplain : o.yop.toNat ≤ 5)
  (hready : wordReady s n o.index.toNat)
include hwaiters hheld hplain hready

/-- One that sets its word leaves every other word. -/
theorem sncArrive_sets {w : SyncWord}
    (htry : ∀ c, syncWordOf c o.index.toNat = syncWordOf (potOf s n).snc o.index.toNat →
      tryOp c o = .done (setSyncWord c o.index.toNat w) .ok) :
    syncWordOf (potOf (sncArrive s n o) n).snc o.index.toNat = w ∧ otherWords n [o.index.toNat] s (sncArrive s n o) := by
  have hsame := sncSame_sncCount s n 0 40
  rw [sncArrive_answers hheld (.plain hplain hready) (htry _ (hsame.word ..)) ((hsame.waiters n).trans hwaiters)]
  refine ⟨?_, otherWords_answered hsame (fun j hj => ?_) (syncStands_sncReply ..)⟩
  · rw [word_answered (syncStands_sncReply ..), syncWordOf_setSyncWord_same]
  · rw [syncWordOf_setSyncWord_other _ _ _ _ (by simpa using hj), hsame.word]

/-- One that completes without a change leaves every word, and parks nothing. -/
theorem sncArrive_leaves
    (htry : ∀ c, syncWordOf c o.index.toNat = syncWordOf (potOf s n).snc o.index.toNat → tryOp c o = .done c .ok) :
    (potOf (sncArrive s n o) n).snc.waiters = [] ∧ otherWords n [] s (sncArrive s n o) := by
  have hsame := sncSame_sncCount s n 0 40
  have hnone := (hsame.waiters n).trans hwaiters
  rw [sncArrive_answers hheld (.plain hplain hready) (htry _ (hsame.word ..)) hnone]
  exact ⟨waiters_answered (syncStands_sncReply ..) hnone,
    otherWords_answered hsame (fun j _ => hsame.word ..) (syncStands_sncReply ..)⟩

/-- One that waits is parked alone, and leaves every word. -/
theorem sncArrive_parks
    (htry : ∀ c k, syncWordOf c o.index.toNat = syncWordOf (potOf s n).snc o.index.toNat →
      tryOp c { o with entry := k } = .park c { o with entry := k } false) :
    (potOf (sncArrive s n o) n).snc.waiters.length = 1 ∧ otherWords n [] s (sncArrive s n o) := by
  have hsame := sncSame_sncCount s n 0 40
  obtain ⟨-, -, hsound⟩ := hsame.ready hready
  obtain ⟨k, hk⟩ := sncRun_parks (again := false) ((hsame.waiters n).trans hwaiters) (yopBarrier_plain hplain)
    (fun c k hc => htry c k (by rw [syncWordOf, hc, hsame.words, syncWordOf])) hsound
  rw [sncArrive_runs hheld (.plain hplain hready), hk]
  exact sncParked_alone hsame

end Arrive

/-! An operation of an agent that may act at once. -/

section Free
variable {s : State} {n : PotIx} {a : Agent} {ix : BitVec 16} {yop : BitVec 4} {cond : BitVec 2} {full : Bool} {x : Word64}

/-- One that completes is answered with its word's view. -/
theorem sncOperation_answers (hfree : syncFree s n a) (hready : OpReady s n ix yop) {c : Snc} {st : Status}
    (htry : tryOp (potOf (opArrived s n a) n).snc (opOf s ix a yop cond full x) = .done c st) (hw : c.waiters = []) :
    sncOperation n ix a yop cond full x s = .next (sncReply n (setSnc (opArrived s n a) n c)
      (opOf s ix a yop cond full x, st, syncView (wordSeen c (fwWords s n) ix.toNat))) := by
  obtain ⟨hon, hslot, -, hheld⟩ := hfree
  have hsame := sncSame_slotStart s a
  rw [sncOperation_arrives hon hslot, sncArrive_answers ((hsame.held n).trans hheld) (hready.congr hsame) htry hw, hsame.fwWords]
  rfl

theorem opArrived_noWaiters (hfree : syncFree s n a) : (potOf (opArrived s n a) n).snc.waiters = [] := by
  obtain ⟨-, -, hw, -⟩ := hfree
  rw [(sncSame_opArrived s n a).waiters, hw]

variable (hfree : syncFree s n a) (hplain : yop.toNat ≤ 5) (hready : wordReady s n ix.toNat)
include hfree hplain hready

theorem sncOperation_sets {w : SyncWord}
    (htry : ∀ c, syncWordOf c ix.toNat = syncWordOf (potOf s n).snc ix.toNat →
      tryOp c (opOf s ix a yop cond full x) = .done (setSyncWord c ix.toNat w) .ok) :
    ∃ t, sncOperation n ix a yop cond full x s = .next t ∧ syncWordOf (potOf t n).snc ix.toNat = w ∧ otherWords n [ix.toNat] s t := by
  obtain ⟨hon, hslot, hwaiters, hheld⟩ := hfree
  have hsame := sncSame_slotStart s a
  obtain ⟨hword, hother⟩ := sncArrive_sets (o := opOf s ix a yop cond full x) ((hsame.waiters n).trans hwaiters)
    ((hsame.held n).trans hheld) hplain (hsame.ready hready) fun c hc => htry c (hc.trans (hsame.word ..))
  exact ⟨_, sncOperation_arrives hon hslot, hword, hsame.otherWords hother⟩

theorem sncOperation_leaves
    (htry : ∀ c, syncWordOf c ix.toNat = syncWordOf (potOf s n).snc ix.toNat →
      tryOp c (opOf s ix a yop cond full x) = .done c .ok) :
    ∃ t, sncOperation n ix a yop cond full x s = .next t ∧
      syncWordOf (potOf t n).snc ix.toNat = syncWordOf (potOf s n).snc ix.toNat ∧ (potOf t n).snc.waiters = [] ∧
      otherWords n [ix.toNat] s t := by
  obtain ⟨hon, hslot, hwaiters, hheld⟩ := hfree
  have hsame := sncSame_slotStart s a
  obtain ⟨hnone, hother⟩ := sncArrive_leaves (o := opOf s ix a yop cond full x) ((hsame.waiters n).trans hwaiters)
    ((hsame.held n).trans hheld) hplain (hsame.ready hready) fun c hc => htry c (hc.trans (hsame.word ..))
  exact ⟨_, sncOperation_arrives hon hslot, (hsame.otherWords hother).word _, hnone, (hsame.otherWords hother).mono (by simp)⟩

theorem sncOperation_parks
    (htry : ∀ c k, syncWordOf c ix.toNat = syncWordOf (potOf s n).snc ix.toNat →
      tryOp c { opOf s ix a yop cond full x with entry := k } = .park c { opOf s ix a yop cond full x with entry := k } false) :
    ∃ t, sncOperation n ix a yop cond full x s = .next t ∧
      syncWordOf (potOf t n).snc ix.toNat = syncWordOf (potOf s n).snc ix.toNat ∧ (potOf t n).snc.waiters.length = 1 ∧
      otherWords n [ix.toNat] s t := by
  obtain ⟨hon, hslot, hwaiters, hheld⟩ := hfree
  have hsame := sncSame_slotStart s a
  obtain ⟨hone, hother⟩ := sncArrive_parks (o := opOf s ix a yop cond full x) ((hsame.waiters n).trans hwaiters)
    ((hsame.held n).trans hheld) hplain (hsame.ready hready) fun c k hc => htry c k (hc.trans (hsame.word ..))
  exact ⟨_, sncOperation_arrives hon hslot, (hsame.otherWords hother).word _, hone, (hsame.otherWords hother).mono (by simp)⟩

end Free

/-- Settles O51: each operation is its attempt of R292 on the ready word (`sncOperation_sets`, `sncOperation_leaves`,
`sncOperation_parks`). -/
theorem syncWordOperations : Obligations.SyncWordOperations := by
  unfold Obligations.SyncWordOperations
  intro s n ix a hfree hready
  obtain ⟨-, hbroken, hsound⟩ := id hready
  have hvalueN : (syncWordOf (potOf s n).snc ix.toNat).valueN = ~~~(syncWordOf (potOf s n).snc ix.toNat).value := by
    simp only [wordSound, agree, Bool.and_eq_true, decide_eq_true_eq] at hsound
    exact hsound.1
  refine ⟨?read, fun x f => ?store, fun x => ?signal, fun x hw => ?fill, fun hw => ?empty, fun c x hw => ?wait, fun x hw => ?fillParks,
    fun hw => ?emptyParks, fun c x hw => ?waitParks⟩
  case read =>
    obtain ⟨t, ht, hword, -, hother⟩ := sncOperation_leaves hfree (yop := 0) (by decide) hready fun c _ => tryOp_read c rfl
    exact ⟨t, ht, hword, hother⟩
  case store => exact sncOperation_sets hfree (yop := 1) (by decide) hready fun c hc => hc ▸ tryOp_store c rfl
  case signal => exact sncOperation_sets hfree (yop := 5) (by decide) hready fun c hc => hc ▸ tryOp_signal c rfl
  case fill => exact sncOperation_sets hfree (yop := 2) (by decide) hready fun c hc => hc ▸ tryOp_fill rfl (hc ▸ hw)
  case empty =>
    refine sncOperation_sets hfree (yop := 3) (by decide) hready fun c hc => (tryOp_empty_full rfl (hc ▸ hw)).trans ?_
    rw [changeWord]
    show SyncTry.done (setSyncWord c ix.toNat { syncWordOf c ix.toNat with
      valueN := ~~~(syncWordOf c ix.toNat).value, full := false, fullN := true }) .ok = _
    rw [hc, ← hvalueN]
  case wait => exact sncOperation_leaves hfree (yop := 4) (by decide) hready fun d hd => tryOp_wait rfl (hd ▸ hw)
  case fillParks => exact sncOperation_parks hfree (yop := 2) (by decide) hready fun d k hd => tryOp_fill_full rfl (hd ▸ hw)
  case emptyParks => exact sncOperation_parks hfree (yop := 3) (by decide) hready fun d k hd => tryOp_empty rfl (hd ▸ hw)
  case waitParks => exact sncOperation_parks hfree (yop := 4) (by decide) hready fun d k hd => tryOp_wait_parks rfl (hd ▸ hw)

end Sys2Proof.Machine

namespace Sys2Proof.Machine

/-! ### Completions at the hub's request slots (R294, R298, R314, O52) -/

theorem wordSeen_congr {c d : Snc} {j : Nat} (h : syncWordOf c j = syncWordOf d j) (fw : Nat) : wordSeen c fw j = wordSeen d fw j := by
  rw [wordSeen, h, wordSeen]

/-- A completion for a hub slot changes that slot, and its core's interrupt (R298). -/
theorem sncReply_hubSlot {o : Waiter} {c k : BitVec 2} (ho : o.agent = .hubSlot c k) (n : PotIx) (s : State) (st : Status)
    (view : BitVec 128) :
    (sncReply n s (o, st, view)).hubSnc =
      tset s.hubSnc (c.toNat * 4 + k.toNat) (slotDone (tget s.hubSnc (c.toNat * 4 + k.toNat) SncSlot.reset) st view) := by
  simp only [sncReply, ho, syncLocal]

theorem hubSlotDone_of_hubSnc {s t : State} {c k : BitVec 2} {st : Status} {view : BitVec 128}
    (h : t.hubSnc = tset s.hubSnc (c.toNat * 4 + k.toNat) (slotDone (tget s.hubSnc (c.toNat * 4 + k.toNat) SncSlot.reset) st view)) :
    hubSlotDone t c k st view := by
  unfold hubSlotDone
  rw [h, tget_tset_same]
  exact ⟨rfl, rfl, rfl, rfl⟩

theorem hubSlotDone_sncReply {o : Waiter} {c k : BitVec 2} (ho : o.agent = .hubSlot c k) (n : PotIx) (s : State) (st : Status)
    (view : BitVec 128) : hubSlotDone (sncReply n s (o, st, view)) c k st view :=
  hubSlotDone_of_hubSnc (sncReply_hubSlot ho n s st view)

/-- Two slots of the hub's table have the same place only if they are the same. -/
theorem hubSlot_injective {c k d j : BitVec 2} (h : (c, k) ≠ (d, j)) : c.toNat * 4 + k.toNat ≠ d.toNat * 4 + j.toNat := by
  intro heq
  have hk := k.isLt
  have hj := j.isLt
  have hc : c = d := BitVec.eq_of_toNat_eq (by omega)
  have hs : k = j := BitVec.eq_of_toNat_eq (by omega)
  exact h (by rw [hc, hs])

section Slot
variable {s : State} {n : PotIx} {ix : BitVec 16} {c k : BitVec 2} {yop : BitVec 4} {cond : BitVec 2} {full : Bool} {x : Word64}

/-- An operation of a hub slot that completes at once shows the view that its word then has. -/
theorem sncOperation_slotDone (hfree : syncFree s n (.hubSlot c k)) (hplain : yop.toNat ≤ 5) (hready : wordReady s n ix.toNat) {d : Snc}
    (htry : tryOp (potOf (opArrived s n (.hubSlot c k)) n).snc (opOf s ix (.hubSlot c k) yop cond full x) = .done d .ok)
    (hw : d.waiters = []) :
    ∃ t, sncOperation n ix (.hubSlot c k) yop cond full x s = .next t ∧
      SyncStands (setSnc (opArrived s n (.hubSlot c k)) n d) t ∧
      hubSlotDone t c k .ok (syncView (wordSeen (potOf t n).snc (fwWords s n) ix.toNat)) := by
  refine ⟨_, sncOperation_answers hfree (.plain hplain hready) htry hw, syncStands_sncReply .., ?_⟩
  rw [wordSeen_congr (word_answered (syncStands_sncReply ..) ix.toNat)]
  exact hubSlotDone_sncReply rfl ..

/-- An operation on a word with ALLOC 0 is answered without acting (R314). -/
theorem sncOperation_freed (hfree : syncFree s n (.hubSlot c k)) (hplain : yop.toNat ≤ 5)
    (halloc : (wordSeen (potOf s n).snc (fwWords s n) ix.toNat).alloc = false)
    (hbroken : (syncWordOf (potOf s n).snc ix.toNat).broken = false)
    (hsound : wordSound (syncWordOf (potOf s n).snc ix.toNat) = true) :
    ∃ u, SyncStands s u ∧ sncOperation n ix (.hubSlot c k) yop cond full x s =
      .next (sncReply n u (opOf s ix (.hubSlot c k) yop cond full x,
        if yop = 0 then .ok else if yopWaits yop then .timeout else .rejected,
        syncView (wordSeen (potOf s n).snc (fwWords s n) ix.toNat))) := by
  have hsame := sncSame_opArrived s n (.hubSlot c k)
  have hwords : opWords (opOf s ix (.hubSlot c k) yop cond full x) = [ix.toNat] := opWords_plain (yopBarrier_plain hplain)
  have h8 : ¬8 < (opOf s ix (.hubSlot c k) yop cond full x).yop.toNat := by
    show ¬8 < yop.toNat
    omega
  have hbar : yopBarrier (opOf s ix (.hubSlot c k) yop cond full x).yop = false := yopBarrier_plain hplain
  have hchecks : sncChecked (opArrived s n (.hubSlot c k)) n (opOf s ix (.hubSlot c k) yop cond full x) false =
      sncFreed (opArrived s n (.hubSlot c k)) n (opOf s ix (.hubSlot c k) yop cond full x) := by
    simp only [sncChecked, hwords, h8, hbar, List.find?_cons, List.find?_nil, List.any_cons, List.any_nil, hsame.seen, hsame.fwWords,
      wordSeen_broken, wordSound_wordSeen, hbroken, hsound, halloc, Bool.not_true, Bool.not_false, Bool.and_false, Bool.or_false,
      Bool.false_eq_true, false_and, or_self, and_false, if_false, if_true]
  have hstart : SyncStands s (opArrived s n (.hubSlot c k)) :=
    (SyncStands.of_same rfl rfl rfl rfl rfl : SyncStands s (slotStart s (.hubSlot c k))).trans (syncStands_sncCount ..)
  have hcount := hstart.trans (syncStands_sncCount (opArrived s n (.hubSlot c k)) n 80 16)
  obtain ⟨hon, hslot, -, hheld⟩ := hfree
  rw [sncOperation_checks hon hslot hheld, hchecks]
  simp only [sncFreed, show (opOf s ix (.hubSlot c k) yop cond full x).yop = yop from rfl,
    show (opOf s ix (.hubSlot c k) yop cond full x).index = ix from rfl, hsame.seen, hsame.fwWords]
  by_cases hread : yop = 0
  · exact ⟨_, hcount, by rw [if_pos hread, if_pos hread]⟩
  · by_cases hwaits : yopWaits yop = true
    · exact ⟨_, hcount, by rw [if_neg hread, if_pos hwaits, if_neg hread, if_pos hwaits]⟩
    · exact ⟨_, hcount.trans (syncStands_sendFault ..), by rw [if_neg hread, if_neg hwaits, if_neg hread, if_neg hwaits]; rfl⟩

end Slot

/-- Re-evaluation lets the one plain wait at a word go on when its attempt completes (R294). -/
theorem settle_wakes {fw ix fuel : Nat} {c : Snc} {o : Waiter} {out : SyncOut} {st : Status} (hc : c.waiters = [o])
    (hplain : yopBarrier o.yop = false) (hix : o.index.toNat = ix) (hacts : wordActs c ix = true) (htry : tryOp c o = .done c st) :
    settle fw ix (fuel + 1) (c, out) = ({ c with waiters := [] }, out ++ [(o, st, syncView (wordSeen c fw ix))]) := by
  subst hix
  have hhere : (o.index.toNat / 2 == o.index.toNat / 2 && (opWords o).all (wordActs c)) = true := by
    rw [opWords_plain hplain]
    simp [hacts]
  have hpass : settlePass fw o.index.toNat (c, out) =
      ({ c with waiters := [] }, out ++ [(o, st, syncView (wordSeen c fw o.index.toNat))]) := by
    simp only [settlePass, hc, List.any_cons, List.any_nil, hhere, hplain, Bool.and_false, Bool.or_false, Bool.false_eq_true, if_false,
      retryList, Bool.not_false, Bool.or_true, Bool.and_true, if_true, htry]
  rw [settle, hpass]
  simp only [hc, List.length_nil, List.length_singleton, Nat.zero_lt_one, if_true]
  exact settle_noWaiters _ _ _ rfl

/-- An operation that completes and lets the one parked wait go on answers both. -/
theorem sncRun_wakes {s : State} {n : PotIx} {o p : Waiter} {again : Bool} {c : Snc} {st st' : Status}
    (htry : tryOp (potOf s n).snc o = .done c st) (hc : c.waiters = [p]) (hplain : yopBarrier p.yop = false) (hix : p.index = o.index)
    (hacts : wordActs c o.index.toNat = true) (hwake : tryOp c p = .done c st') :
    ∃ v w, sncRun s n o again = sncReply n (sncReply n (setSnc s n { c with waiters := [] }) (o, st, v)) (p, st', w) := by
  refine ⟨opView s n c o, opView s n c o, ?_⟩
  have hstands : SyncStands (setSnc s n { c with waiters := [] })
      (sncReply n (sncReply n (setSnc s n { c with waiters := [] }) (o, st, opView s n c o)) (p, st', opView s n c o)) :=
    (syncStands_sncReply ..).trans (syncStands_sncReply ..)
  have hnone := waiters_answered hstands rfl
  simp only [sncRun, htry]
  rw [settle_wakes hc hplain (by rw [hix]) hacts hwake]
  exact sncReport_sound fun x hx => absurd (hnone ▸ hx) List.not_mem_nil

/-- A STORE of a full word answers its own slot and that of the wait for it (R292, R294, R298). -/
theorem store_wakes {s : State} {n : PotIx} {ix : BitVec 16} {c k d j : BitVec 2} {x : Word64} {o : Waiter} (hon : potOn s n = true)
    (hslot : slotTaken s (.hubSlot c k) = false) (hne : (c, k) ≠ (d, j)) (hheld : (potOf s n).snc.held = [])
    (hwaiters : (potOf s n).snc.waiters = [o]) (hix : o.index = ix) (hyop : o.yop = 4) (hcond : o.cond = 0)
    (hagent : o.agent = .hubSlot d j) (hready : wordReady s n ix.toNat) :
    runsTo (.store n ix (.hubSlot c k) x true) s fun t =>
      (potOf t n).snc.waiters = [] ∧ (tget t.hubSnc (c.toNat * 4 + k.toNat) SncSlot.reset).done = true ∧
      (tget t.hubSnc (d.toNat * 4 + j.toNat) SncSlot.reset).done = true ∧
      (tget t.hubSnc (d.toNat * 4 + j.toNat) SncSlot.reset).status = .ok := by
  have hsame := sncSame_opArrived s n (.hubSlot c k)
  have hcond' (e : Snc) (h : (syncWordOf e ix.toNat).full = true) : waitCond (syncWordOf e o.index.toNat) o.cond o.operand = true := by
    rw [hix, hcond, waitCond, ← h]
    rfl
  obtain ⟨v, w, hrun⟩ := sncRun_wakes (again := false) (p := o)
    (tryOp_store (potOf (opArrived s n (.hubSlot c k)) n).snc (o := opOf s ix (.hubSlot c k) 1 0 true x) rfl)
    ((hsame.waiters n).trans hwaiters) (by rw [hyop]; decide) hix
    (by simp [wordActs, wordSound, agree, opOf])
    (tryOp_wait hyop (hcond' _ (by rw [opOf, syncWordOf_setSyncWord_same])))
  have hready1 : OpReady (opArrived s n (.hubSlot c k)) n ix 1 := .plain (by decide) (hsame.ready hready)
  have hchecks := sncChecked_runs (again := false) (o := opOf s ix (.hubSlot c k) 1 0 true x) hready1.code hready1.even hready1.words
  refine ⟨_, (sncOperation_checks hon hslot hheld).trans (by rw [hchecks, hrun]), ?_, ?_, ?_⟩
  · exact waiters_answered ((syncStands_sncReply ..).trans (syncStands_sncReply ..)) rfl
  · rw [sncReply_hubSlot hagent, tget_tset_other _ _ _ _ _ (hubSlot_injective hne)]
    exact (hubSlotDone_sncReply (c := c) (k := k) rfl ..).1
  · obtain ⟨hdone, -, hst, -⟩ := hubSlotDone_sncReply hagent n (sncReply n (setSnc (opArrived s n (.hubSlot c k)) n _) _) .ok w
    exact ⟨hdone, hst⟩

/-- Settles O52: a reply sets its slot (`hubSlotDone_sncReply`), a freed word answers without acting, and a STORE of a full word wakes
the one wait for it (`settle_wakes`). -/
theorem syncCompletionsReachTheirAgent : Obligations.SyncCompletionsReachTheirAgent := by
  unfold Obligations.SyncCompletionsReachTheirAgent
  refine ⟨fun s n ix c k hfree hready => ?ready, fun s n ix c k hfree halloc hbroken hsound => ?freed,
    fun s n ix c k d j x o hon hslot hne hheld hwaiters hix hyop hcond hagent hready => ?wakes⟩
  case ready =>
    have hsame := sncSame_opArrived s n (.hubSlot c k)
    have hw := opArrived_noWaiters hfree
    refine ⟨?read, fun x f => ?store, fun x => ?signal⟩
    case read =>
      obtain ⟨t, ht, hstands, hdone⟩ := sncOperation_slotDone (yop := 0) hfree (by decide) hready (tryOp_read _ rfl) hw
      refine ⟨t, ht, ?_⟩
      rwa [wordSeen_congr ((word_answered hstands ix.toNat).trans (hsame.word ..))] at hdone
    case store =>
      obtain ⟨t, ht, -, hdone⟩ := sncOperation_slotDone (yop := 1) hfree (by decide) hready (tryOp_store _ rfl) hw
      exact ⟨t, ht, hdone⟩
    case signal =>
      obtain ⟨t, ht, -, hdone⟩ := sncOperation_slotDone (yop := 5) hfree (by decide) hready (tryOp_signal _ rfl) hw
      exact ⟨t, ht, hdone⟩
  case freed =>
    refine ⟨?read, fun x f => ?store, ?empty⟩
    case read =>
      obtain ⟨u, -, hu⟩ := sncOperation_freed (yop := 0) hfree (by decide) halloc hbroken hsound
      exact ⟨_, hu, hubSlotDone_sncReply rfl ..⟩
    case store =>
      obtain ⟨u, hstands, hu⟩ := sncOperation_freed (yop := 1) hfree (by decide) halloc hbroken hsound
      exact ⟨_, hu, hubSlotDone_sncReply rfl .., (hstands.trans (syncStands_sncReply ..)).word n ix.toNat⟩
    case empty =>
      obtain ⟨u, -, hu⟩ := sncOperation_freed (yop := 3) hfree (by decide) halloc hbroken hsound
      exact ⟨_, hu, hubSlotDone_sncReply rfl ..⟩
  case wakes => exact store_wakes hon hslot hne hheld hwaiters hix hyop hcond hagent hready

end Sys2Proof.Machine

namespace Sys2Proof.Machine

/-! ### Barriers (R304 to R306, O53) -/

theorem pairN_lt (v : Word64) : pairN v < 2 ^ 24 := Nat.mod_lt _ (by decide)

/-- Both words of a pair are written, FULL set. -/
def pairSet (c : Snc) (i : Nat) (a v : Word64) : Snc := changeWord (changeWord c i a true) (i + 1) v true

@[simp] theorem pairSet_low (c : Snc) (i : Nat) (a v : Word64) : (syncWordOf (pairSet c i a v) i).value = a := by
  rw [pairSet, changeWord, syncWordOf_setSyncWord_other _ _ _ _ (by omega), changeWord, syncWordOf_setSyncWord_same]

@[simp] theorem pairSet_high (c : Snc) (i : Nat) (a v : Word64) : (syncWordOf (pairSet c i a v) (i + 1)).value = v := by
  rw [pairSet, changeWord, syncWordOf_setSyncWord_same]

theorem pairSet_other (c : Snc) (i : Nat) (a v : Word64) {j : Nat} (hj : j ∉ [i, i + 1]) :
    syncWordOf (pairSet c i a v) j = syncWordOf c j := by
  have hne : j ≠ i ∧ j ≠ i + 1 := by simpa using hj
  rw [pairSet, changeWord, syncWordOf_setSyncWord_other _ _ _ _ hne.2, changeWord, syncWordOf_setSyncWord_other _ _ _ _ hne.1]

/-- A round with arrivals missing, or with participants still to leave, is not released (R306). -/
theorem pairRelease_waits {c : Snc} {i : Nat} {a v : Word64} (ha : (syncWordOf c i).value = a) (hv : (syncWordOf c (i + 1)).value = v)
    (h : arrOf a (pairOpen v) ≠ pairN v ∨ pairLeave v ≠ 0) : pairRelease c i = c := by
  rw [pairRelease, if_neg]
  simp only [ha, hv, Bool.and_eq_true, beq_iff_eq]
  tauto

/-- A round whose arrivals are complete is released, and the next one opens (R306). -/
theorem pairRelease_due {c : Snc} {i : Nat} {a v : Word64} (ha : (syncWordOf c i).value = a) (hv : (syncWordOf c (i + 1)).value = v)
    (hok : pairOk v = true) (hleave : pairLeave v = 0) (harr : arrOf a (pairOpen v) = pairN v) :
    pairRelease c i = pairSet c i (putField a (32 * (pairOpen v % 2)) 32 0)
      (putField (putField v 8 24 (pairN v)) 0 2 (pairOpen v + 1)) := by
  rw [pairRelease, if_pos]
  · rw [ha, hv]
    rfl
  · simp [ha, hv, hok, hleave, harr]

/-! The fields of a pair's words after a write of one of them (R304). -/

theorem arrOf_put_same (a : Word64) (r k : Nat) (hk : k < 2 ^ 32) : arrOf (putField a (32 * (r % 2)) 32 k) r = k := by
  rw [arrOf, fieldN_putField_same _ _ _ _ (by omega), Nat.mod_eq_of_lt hk]

theorem arrOf_mod (a : Word64) (r : Nat) : arrOf a (r % 4) = arrOf a r := by
  rw [arrOf, arrOf, Nat.mod_mod_of_dvd _ (by decide : 2 ∣ 4)]

/-- The arrivals of the round that shares the word stand. -/
theorem arrOf_put_next (a : Word64) (r k : Nat) : arrOf (putField a (32 * (r % 2)) 32 k) (r + 1) = arrOf a (r + 1) := by
  rcases Nat.mod_two_eq_zero_or_one r with h | h
  · rw [arrOf, arrOf, h, show (r + 1) % 2 = 1 by omega, fieldN_putField_above _ _ _ _ _ _ (by decide) (by decide)]
  · rw [arrOf, arrOf, h, show (r + 1) % 2 = 0 by omega, fieldN_putField_below _ _ _ _ _ _ (by decide) (by decide)]

@[simp] theorem pairLeave_putLeave (v : Word64) (k : Nat) : pairLeave (putField v 8 24 k) = k % 2 ^ 24 :=
  fieldN_putField_same _ _ _ _ (by decide)
@[simp] theorem pairOpen_putLeave (v : Word64) (k : Nat) : pairOpen (putField v 8 24 k) = pairOpen v :=
  fieldN_putField_below _ _ _ _ _ _ (by decide) (by decide)
@[simp] theorem pairN_putLeave (v : Word64) (k : Nat) : pairN (putField v 8 24 k) = pairN v :=
  fieldN_putField_above _ _ _ _ _ _ (by decide) (by decide)
@[simp] theorem pairOpen_putOpen (v : Word64) (k : Nat) : pairOpen (putField v 0 2 k) = k % 4 :=
  fieldN_putField_same _ _ _ _ (by decide)
@[simp] theorem pairLeave_putOpen (v : Word64) (k : Nat) : pairLeave (putField v 0 2 k) = pairLeave v :=
  fieldN_putField_above _ _ _ _ _ _ (by decide) (by decide)
@[simp] theorem pairN_putOpen (v : Word64) (k : Nat) : pairN (putField v 0 2 k) = pairN v :=
  fieldN_putField_above _ _ _ _ _ _ (by decide) (by decide)

/-! The attempts of a barrier operation on a barrier's pair (R305, R306). -/

section Attempt
variable {c : Snc} {o : Waiter} {a v : Word64}

theorem tryOp_barrier (hyop : yopBarrier o.yop = true) (hok : pairOk (syncWordOf c (o.index.toNat + 1)).value = true) :
    tryOp c o = if o.yop = 7 then tryBwait c o else tryArrive c o := by
  obtain ⟨h6, -⟩ := of_decide_eq_true hyop
  obtain ⟨y, hy⟩ := Nat.exists_eq_add_of_le h6
  rw [tryOp, hy, Nat.add_comm]
  simp only [tryBarrier, hok, Bool.not_true, Bool.false_eq_true, if_false]

/-- An arrival for the open round is counted, and its round is released if it was the last. -/
theorem tryArrive_open (ha : (syncWordOf c o.index.toNat).value = a) (hv : (syncWordOf c (o.index.toNat + 1)).value = v)
    (hround : fieldN o.operand 0 2 = pairOpen v) (hroom : arrOf a (pairOpen v) < pairN v) {d : Snc}
    (hd : pairRelease (pairSet c o.index.toNat (putField a (32 * (pairOpen v % 2)) 32 (arrOf a (pairOpen v) + 1)) v) o.index.toNat = d) :
    tryArrive c o = if o.yop = 6 then .done d .ok else tryBwait d o := by
  rw [tryArrive]
  simp only [ha, hv, hround, Nat.add_sub_cancel_left, Nat.mod_self]
  rw [if_neg (by decide), if_neg (by omega), if_neg (Nat.not_le.2 hroom), ← hd]
  rfl

/-- A departure from the round before the open one is counted. -/
theorem tryBwait_leaves (ha : (syncWordOf c o.index.toNat).value = a) (hv : (syncWordOf c (o.index.toNat + 1)).value = v)
    (hround : (fieldN o.operand 0 2 + 1) % 4 = pairOpen v) (hleave : pairLeave v ≠ 0) :
    tryBwait c o =
      .done (pairRelease (pairSet c o.index.toNat a (putField v 8 24 (pairLeave v - 1))) o.index.toNat) .ok := by
  have hthree : (fieldN o.operand 0 2 + 4 - pairOpen v) % 4 = 3 := by
    have hr : fieldN o.operand 0 2 < 4 := Nat.mod_lt _ (by decide)
    omega
  rw [tryBwait]
  simp only [ha, hv, hthree]
  rw [if_pos trivial, if_neg hleave]
  rfl

/-- A BWAIT for the open round parks. -/
theorem tryBwait_open (hyop : o.yop = 7) (hv : (syncWordOf c (o.index.toNat + 1)).value = v)
    (hround : fieldN o.operand 0 2 = pairOpen v) : tryBwait c o = .park c o false := by
  have hself : ({ o with yop := 7 } : Waiter) = o := by rw [← hyop]
  rw [tryBwait]
  simp only [hv, hround, Nat.add_sub_cancel_left, Nat.mod_self]
  rw [if_neg (by decide), if_neg (by decide), hself]

/-- The attempt completes with these values in its pair, and changes nothing else. -/
def pairDone (c : Snc) (o : Waiter) (a v : Word64) : Prop :=
  ∃ d, tryOp c o = .done d .ok ∧ d.waiters = c.waiters ∧ (syncWordOf d o.index.toNat).value = a ∧
    (syncWordOf d (o.index.toNat + 1)).value = v ∧
    ∀ j, j ∉ [o.index.toNat, o.index.toNat + 1] → syncWordOf d j = syncWordOf c j

theorem pairDone_of_set (h : tryOp c o = .done (pairSet c o.index.toNat a v) .ok) : pairDone c o a v :=
  ⟨_, h, rfl, pairSet_low .., pairSet_high .., fun _ hj => pairSet_other _ _ _ _ hj⟩

/-- An ARRIVE that is not the last adds one arrival. -/
theorem arrive_pairDone (hyop : o.yop = 6) (ha : (syncWordOf c o.index.toNat).value = a)
    (hv : (syncWordOf c (o.index.toNat + 1)).value = v) (hok : pairOk v = true) (hround : fieldN o.operand 0 2 = pairOpen v)
    (hroom : arrOf a (pairOpen v) + 1 < pairN v) :
    pairDone c o (putField a (32 * (pairOpen v % 2)) 32 (arrOf a (pairOpen v) + 1)) v := by
  have hN := pairN_lt v
  refine pairDone_of_set ?_
  rw [tryOp_barrier (by rw [hyop]; decide) (hv ▸ hok), if_neg (by rw [hyop]; decide),
    tryArrive_open ha hv hround (by omega) (pairRelease_waits (pairSet_low ..) (pairSet_high ..) (.inl ?_)), if_pos hyop]
  rw [arrOf_put_same _ _ _ (by omega)]
  omega

/-- A BWAIT for the round before takes one of those still to leave away. -/
theorem bwait_pairDone (hyop : o.yop = 7) (ha : (syncWordOf c o.index.toNat).value = a)
    (hv : (syncWordOf c (o.index.toNat + 1)).value = v) (hok : pairOk v = true) (hround : (fieldN o.operand 0 2 + 1) % 4 = pairOpen v)
    (hleave : 1 < pairLeave v) : pairDone c o a (putField v 8 24 (pairLeave v - 1)) := by
  have hL : pairLeave v < 2 ^ 24 := Nat.mod_lt _ (by decide)
  refine pairDone_of_set ?_
  rw [tryOp_barrier (by rw [hyop]; decide) (hv ▸ hok), if_pos hyop, tryBwait_leaves ha hv hround (by omega),
    pairRelease_waits (pairSet_low ..) (pairSet_high ..) (.inr ?_)]
  rw [pairLeave_putLeave, Nat.mod_eq_of_lt (by omega)]
  omega

/-- The word of a lone participant's pair after its round's release, and after it has left. -/
def aloneReleased (v : Word64) : Word64 := putField (putField v 8 24 1) 0 2 (pairOpen v + 1)
def aloneLeft (v : Word64) : Word64 := putField (aloneReleased v) 8 24 0
/-- The arrivals of such a pair after it. -/
def aloneArrivals (a v : Word64) : Word64 :=
  putField (putField a (32 * (pairOpen v % 2)) 32 1) (32 * (pairOpen v % 2)) 32 0

theorem arrOf_aloneArrivals (a v : Word64) : arrOf (aloneArrivals a v) (pairOpen v) = 0 := arrOf_put_same _ _ _ (by decide)

theorem arrOf_aloneArrivals_next (a v : Word64) : arrOf (aloneArrivals a v) (pairOpen v + 1) = arrOf a (pairOpen v + 1) := by
  rw [aloneArrivals, arrOf_put_next, arrOf_put_next]

theorem pairOpen_aloneLeft (v : Word64) : pairOpen (aloneLeft v) = (pairOpen v + 1) % 4 := by simp [aloneLeft, aloneReleased]
theorem pairLeave_aloneLeft (v : Word64) : pairLeave (aloneLeft v) = 0 := by simp [aloneLeft]
theorem pairN_aloneLeft (v : Word64) : pairN (aloneLeft v) = pairN v := by simp [aloneLeft, aloneReleased]

/-- A lone participant's BARRIER arrives, releases its round and leaves it. -/
theorem barrier_pairDone (hyop : o.yop = 8) (ha : (syncWordOf c o.index.toNat).value = a)
    (hv : (syncWordOf c (o.index.toNat + 1)).value = v) (hok : pairOk v = true) (hround : fieldN o.operand 0 2 = pairOpen v)
    (hleave : pairLeave v = 0) (hone : pairN v = 1) (hnone : arrOf a (pairOpen v) = 0) (hnext : arrOf a (pairOpen v + 1) = 0) :
    pairDone c o (aloneArrivals a v) (aloneLeft v) := by
  have hreleased : pairRelease (pairSet c o.index.toNat (putField a (32 * (pairOpen v % 2)) 32 (arrOf a (pairOpen v) + 1)) v)
      o.index.toNat =
      pairSet (pairSet c o.index.toNat (putField a (32 * (pairOpen v % 2)) 32 1) v) o.index.toNat (aloneArrivals a v)
        (aloneReleased v) := by
    rw [hnone, pairRelease_due (pairSet_low ..) (pairSet_high ..) hok hleave (by rw [arrOf_put_same _ _ _ (by decide), hone]), hone]
    rfl
  have hleft : pairLeave (aloneReleased v) = 1 := by simp [aloneReleased]
  refine ⟨pairSet (pairSet (pairSet c o.index.toNat (putField a (32 * (pairOpen v % 2)) 32 1) v) o.index.toNat (aloneArrivals a v)
    (aloneReleased v)) o.index.toNat (aloneArrivals a v) (aloneLeft v), ?_, rfl, pairSet_low .., pairSet_high .., fun j hj => ?_⟩
  · rw [tryOp_barrier (by rw [hyop]; decide) (hv ▸ hok), if_neg (by rw [hyop]; decide), tryArrive_open ha hv hround (by omega) hreleased,
      if_neg (by rw [hyop]; decide), tryBwait_leaves (pairSet_low ..) (pairSet_high ..) (by rw [hround]; simp [aloneReleased]) (by omega),
      hleft]
    refine congrArg (SyncTry.done · .ok) (pairRelease_waits (pairSet_low ..) (pairSet_high ..) (.inl ?_))
    show arrOf (aloneArrivals a v) (pairOpen (aloneLeft v)) ≠ pairN (aloneLeft v)
    rw [pairOpen_aloneLeft, arrOf_mod, arrOf_aloneArrivals_next, hnext, pairN_aloneLeft, hone]
    decide
  · rw [pairSet_other _ _ _ _ hj, pairSet_other _ _ _ _ hj, pairSet_other _ _ _ _ hj]

end Attempt

/-- Re-evaluation leaves the one entry that parks again, where its pair's round is not to be released (R306). -/
theorem settle_parks_pair {fw ix fuel : Nat} {c : Snc} {o : Waiter} {out : SyncOut} (hc : c.waiters = [o])
    (hpair : pairRelease c (ix / 2 * 2) = c) (htry : tryOp c o = .park c o false) : settle fw ix fuel (c, out) = (c, out) := by
  have hpass : settlePass fw ix (c, out) = (c, out) := by
    have heta : ({ c with waiters := [o] } : Snc) = c := by rw [← hc]
    simp only [settlePass, hpair, ite_self, hc]
    rw [retryList_parks htry, retryList_parks htry, heta]
  cases fuel with
  | zero => rfl
  | succ f => rw [settle, hpass, if_neg (Nat.lt_irrefl _)]

/-- A BWAIT for the open round, with nobody parked, is parked alone: of the module a free value is taken beside. -/
theorem sncRun_bwait_parks {s : State} {n : PotIx} {o : Waiter} {again : Bool} (hw : (potOf s n).snc.waiters = []) (hyop : o.yop = 7)
    (heven : o.index.toNat % 2 = 0) (hlow : wordReady s n o.index.toNat) (hhigh : wordReady s n (o.index.toNat + 1))
    (hok : pairOk (syncWordOf (potOf s n).snc (o.index.toNat + 1)).value = true)
    (hround : fieldN o.operand 0 2 = pairOpen (syncWordOf (potOf s n).snc (o.index.toNat + 1)).value)
    (hmissing : arrOf (syncWordOf (potOf s n).snc o.index.toNat).value
      (pairOpen (syncWordOf (potOf s n).snc (o.index.toNat + 1)).value) ≠ pairN (syncWordOf (potOf s n).snc (o.index.toNat + 1)).value) :
    ∃ k, sncRun s n o again =
      setSnc { s with freeCtr := s.freeCtr + 1 } n { (potOf s n).snc with waiters := [{ o with entry := k }] } := by
  refine ⟨(waiterEntry s (potOf s n).snc).1, ?_⟩
  have hbar : yopBarrier o.yop = true := by rw [hyop]; decide
  have htry (c : Snc) (k : BitVec 11) (hc : c.words = (potOf s n).snc.words) :
      tryOp c { o with entry := k } = .park c { o with entry := k } false := by
    have hword : syncWordOf c (o.index.toNat + 1) = syncWordOf (potOf s n).snc (o.index.toNat + 1) := by
      rw [syncWordOf, hc, syncWordOf]
    rw [tryOp_barrier (o := { o with entry := k }) hbar (hword ▸ hok), if_pos hyop]
    exact tryBwait_open (o := { o with entry := k }) hyop (congrArg SyncWord.value hword) hround
  have hpair' (ws : List Waiter) : pairRelease { (potOf s n).snc with waiters := ws } (o.index.toNat / 2 * 2) =
      { (potOf s n).snc with waiters := ws } := by
    rw [Nat.div_mul_cancel (Nat.dvd_of_mod_eq_zero heven)]
    exact pairRelease_waits rfl rfl (.inl hmissing)
  simp only [sncRun, htry (potOf s n).snc o.entry rfl]
  rw [if_pos (by rw [hw]; decide)]
  simp only [hw, List.nil_append, Bool.false_eq_true, if_false]
  rw [settle_parks_pair (c := { (potOf s n).snc with waiters := [{ o with entry := (waiterEntry s (potOf s n).snc).1 }] }) rfl
    (hpair' _) (htry _ _ rfl)]
  generalize (waiterEntry s (potOf s n).snc).1 = k
  simp only [runAll, List.foldl_nil]
  refine sncReport_sound fun x hx ix hix => ?_
  rw [setSnc, potOf_updPot_same] at hx ⊢
  rw [List.mem_singleton.1 hx] at hix
  have hpairWords : ix ∈ [o.index.toNat, o.index.toNat + 1] := opWords_barrier hbar ▸ hix
  obtain ⟨-, -, hl⟩ := hlow
  obtain ⟨-, -, hh⟩ := hhigh
  obtain rfl | hix' := List.mem_cons.1 hpairWords
  · exact hl
  · rw [List.mem_singleton.1 hix']
    exact hh

/-! A barrier operation of an agent that may act at once, on a ready pair. -/

section Pair
variable {s : State} {n : PotIx} {ix : BitVec 16} {a : Agent} {yop : BitVec 4} {x : Word64}

/-- One that completes leaves both words as its attempt does, every other word as it was, and parks nothing. -/
theorem sncOperation_pair (hfree : syncFree s n a) (hready : OpReady s n ix yop) {v w : Word64}
    (htry : ∀ c, (syncWordOf c ix.toNat).value = (syncWordOf (potOf s n).snc ix.toNat).value →
      (syncWordOf c (ix.toNat + 1)).value = (syncWordOf (potOf s n).snc (ix.toNat + 1)).value →
      pairDone c (opOf s ix a yop 0 false x) v w) :
    ∃ t, sncOperation n ix a yop 0 false x s = .next t ∧ (syncWordOf (potOf t n).snc ix.toNat).value = v ∧
      (syncWordOf (potOf t n).snc (ix.toNat + 1)).value = w ∧ (potOf t n).snc.waiters = [] ∧
      otherWords n [ix.toNat, ix.toNat + 1] s t := by
  have hsame := sncSame_opArrived s n a
  obtain ⟨d, hd, hwaiters, hlow, hhigh, hother⟩ := htry _ (congrArg SyncWord.value (hsame.word n _))
    (congrArg SyncWord.value (hsame.word n _))
  have hnone : d.waiters = [] := hwaiters.trans (opArrived_noWaiters hfree)
  refine ⟨_, sncOperation_answers hfree hready hd hnone, ?_, ?_, ?_, ?_⟩
  · rw [word_answered (syncStands_sncReply ..)]
    exact hlow
  · rw [word_answered (syncStands_sncReply ..)]
    exact hhigh
  · exact waiters_answered (syncStands_sncReply ..) hnone
  · exact otherWords_answered hsame (fun j hj => (hother j hj).trans (hsame.word ..)) (syncStands_sncReply ..)

/-- A BWAIT for the open round is parked, and leaves every word. -/
theorem sncOperation_bwait_parks (hfree : syncFree s n a) (heven : ix.toNat % 2 = 0) (hlow : wordReady s n ix.toNat)
    (hhigh : wordReady s n (ix.toNat + 1)) (hok : pairOk (syncWordOf (potOf s n).snc (ix.toNat + 1)).value = true)
    (hround : fieldN x 0 2 = pairOpen (syncWordOf (potOf s n).snc (ix.toNat + 1)).value)
    (hmissing : arrOf (syncWordOf (potOf s n).snc ix.toNat).value (pairOpen (syncWordOf (potOf s n).snc (ix.toNat + 1)).value) ≠
      pairN (syncWordOf (potOf s n).snc (ix.toNat + 1)).value) :
    ∃ t, sncOperation n ix a 7 0 false x s = .next t ∧ (potOf t n).snc.waiters.length = 1 ∧ otherWords n [] s t := by
  have hsame := sncSame_opArrived s n a
  obtain ⟨k, hk⟩ := sncRun_bwait_parks (again := false) (o := opOf s ix a 7 0 false x) (opArrived_noWaiters hfree) rfl heven
    (hsame.ready hlow) (hsame.ready hhigh) (by rw [hsame.word]; exact hok) (by rw [hsame.word]; exact hround)
    (by rw [hsame.word, hsame.word]; exact hmissing)
  have hready : OpReady (opArrived s n a) n ix 7 := .congr (.barrier (by decide) heven hlow hhigh) hsame
  obtain ⟨hon, hslot, -, hheld⟩ := hfree
  have hruns := sncChecked_runs (again := false) (o := opOf s ix a 7 0 false x) hready.code hready.even hready.words
  exact ⟨_, (sncOperation_checks hon hslot hheld).trans (by rw [hruns, hk]), sncParked_alone hsame⟩

end Pair

/-- A barrier operation on an odd word is refused where it stands (R304, R305). -/
theorem sncOperation_odd {s : State} {n : PotIx} {ix : BitVec 16} {a : Agent} {yop : BitVec 4} {x : Word64} (hfree : syncFree s n a)
    (hbar : yopBarrier yop = true) (hodd : ix.toNat % 2 = 1) :
    ∃ view, sncOperation n ix a yop 0 false x s =
      .next (sncReply n (opArrived s n a) (opOf s ix a yop 0 false x, .rejected, view)) := by
  refine ⟨opView (opArrived s n a) n (potOf (opArrived s n a) n).snc (opOf s ix a yop 0 false x), ?_⟩
  obtain ⟨hon, hslot, -, hheld⟩ := hfree
  rw [sncOperation_checks hon hslot hheld, sncChecked]
  exact congrArg Host.Outcome.next (if_pos (.inr ⟨hbar, hodd⟩))

/-- Settles O53: an arrival is counted (`arrive_pairDone`), the last one releases its round (`barrier_pairDone`), and a BWAIT leaves the
round before (`bwait_pairDone`) or parks (`sncOperation_bwait_parks`). -/
theorem barrierOperations : Obligations.BarrierOperations := by
  unfold Obligations.BarrierOperations
  refine ⟨fun s n ix a x hfree heven hlow hhigh hok => ?pair, fun s n ix c k x hfree hodd => ?odd⟩
  case pair =>
    have hready (yop : BitVec 4) (h : yopBarrier yop = true) : OpReady s n ix yop := .barrier h heven hlow hhigh
    have hN := pairN_lt (syncWordOf (potOf s n).snc (ix.toNat + 1)).value
    refine ⟨fun hround hleave hroom => ?arrive, fun hround hleave hone hnone hnext => ?barrier, fun hround hroom => ?parks,
      fun hround hleave => ?leaves⟩
    case arrive =>
      obtain ⟨t, ht, hl, hh, -, hother⟩ := sncOperation_pair (x := x) hfree (hready 6 (by decide)) fun c ha hv =>
        arrive_pairDone rfl ha hv hok hround hroom
      refine ⟨t, ht, ?_, hh, hother⟩
      rw [hl, arrOf_put_same _ _ _ (by omega)]
    case barrier =>
      obtain ⟨t, ht, hl, hh, hw, hother⟩ := sncOperation_pair (x := x) hfree (hready 8 (by decide)) fun c ha hv =>
        barrier_pairDone rfl ha hv hok hround hleave hone hnone hnext
      refine ⟨t, ht, ?_, ?_, ?_, hw, hother⟩
      · rw [hh, pairOpen_aloneLeft]
      · rw [hh, pairLeave_aloneLeft]
      · rw [hl, arrOf_aloneArrivals]
    case parks =>
      obtain ⟨t, ht, hlen, hother⟩ := sncOperation_bwait_parks hfree heven hlow hhigh hok hround (Nat.ne_of_lt hroom)
      exact ⟨t, ht, hlen, congrArg SyncWord.value (hother.word _), hother.mono fun j hj => absurd hj List.not_mem_nil⟩
    case leaves =>
      obtain ⟨t, ht, -, hh, hw, hother⟩ := sncOperation_pair (x := x) hfree (hready 7 (by decide)) fun c ha hv =>
        bwait_pairDone rfl ha hv hok hround hleave
      have hL : pairLeave (syncWordOf (potOf s n).snc (ix.toNat + 1)).value < 2 ^ 24 := Nat.mod_lt _ (by decide)
      refine ⟨t, ht, ?_, hw, hother⟩
      rw [hh, pairLeave_putLeave, Nat.mod_eq_of_lt (by omega)]
  case odd =>
    have hsame := sncSame_opArrived s n (.hubSlot c k)
    obtain ⟨view, hv⟩ := sncOperation_odd (yop := 6) (x := x) hfree (by decide) hodd
    have hstands := syncStands_sncReply n (opArrived s n (.hubSlot c k)) (opOf s ix (.hubSlot c k) 6 0 false x, .rejected, view)
    obtain ⟨hown, hpots, hbytes⟩ := hstands.otherWords n
    obtain ⟨-, -, hst, -⟩ := hubSlotDone_sncReply (o := opOf s ix (.hubSlot c k) 6 0 false x) (c := c) (k := k) rfl n
      (opArrived s n (.hubSlot c k)) .rejected view
    exact ⟨_, hv, hst, fun j hj => (hown j hj).trans (hsame.word ..), fun m hm => (hpots m hm).trans (hsame.words m),
      hsame.bytes.trans hbytes⟩

end Sys2Proof.Machine

namespace Sys2Proof.Machine

/-! ### Waits that time out, and the input hold (R295, R300, O54) -/

/-- The one parked operation, whose wait WAIT_US limits, leaves the table and completes TIMEOUT (R300). -/
theorem exec_sncWaitTimeout {s : State} {n : PotIx} {o : Waiter} (hwaiters : (potOf s n).snc.waiters = [o])
    (hheld : (potOf s n).snc.held = []) (hlimit : waitLimited o = true) (hus : fieldN (sncCtl s n) 32 32 ≠ 0) :
    exec (.sncWaitTimeout n o.agent) s =
      .next (sncReply n (setSnc s n { (potOf s n).snc with waiters := [], held := [] })
        (o, .timeout, opView s n (potOf s n).snc o)) := by
  show execSncWaitTimeout n o.agent s = _
  simp [execSncWaitTimeout, hwaiters, hheld, hlimit, hus, whenDo, runAll, opView]

/-- The oldest held operation enters again (R295). -/
theorem exec_sncInputHoldRelease {s : State} {n : PotIx} {o : Waiter} {rest : List Waiter} (hheld : (potOf s n).snc.held = o :: rest) :
    exec (.sncInputHoldRelease n) s = .next (sncChecked (setSnc s n { (potOf s n).snc with held := rest }) n o true) := by
  show execSncInputHoldRelease n s = _
  simp only [execSncInputHoldRelease, hheld]

/-- Settles O54: the wait that times out is answered and leaves the words (`exec_sncWaitTimeout`), and the STORE that enters again runs
on its ready word. -/
theorem syncWaitsTimeOutAndReenter : Obligations.SyncWaitsTimeOutAndReenter := by
  unfold Obligations.SyncWaitsTimeOutAndReenter
  refine ⟨fun s n c k o hwaiters hheld hagent hus => ?timeout, fun s n o hheld hwaiters hyop hready => ?release⟩
  case timeout =>
    have hwords (j : Nat) (_ : j ∉ ([] : List Nat)) : syncWordOf { (potOf s n).snc with waiters := [], held := [] } j =
        syncWordOf (potOf s n).snc j := rfl
    have hstands := syncStands_sncReply n (setSnc s n { (potOf s n).snc with waiters := [], held := [] })
      (o, .timeout, opView s n (potOf s n).snc o)
    have hlimit : waitLimited o = true := by rw [waitLimited, hagent]
    refine ⟨_, hagent ▸ exec_sncWaitTimeout hwaiters hheld hlimit hus, waiters_answered hstands rfl, hubSlotDone_sncReply hagent ..,
      otherWords_answered (.refl s) hwords hstands⟩
  case release =>
    have hsnc : (potOf (setSnc s n { (potOf s n).snc with held := [] }) n).snc = { (potOf s n).snc with held := [] } := by
      rw [setSnc, potOf_updPot_same]
    have hready' : wordReady (setSnc s n { (potOf s n).snc with held := [] }) n o.index.toNat := by
      refine (wordReady_congr (s := s) ?_ ?_ ?_).2 hready
      · rfl
      · rw [hsnc]
      · rw [hsnc]
    have hrun := (sncChecked_ready (again := true) (by rw [hyop]; decide) (by rw [hyop]; decide) hready').trans
      (sncRun_answers (tryOp_store _ hyop) (by rw [hsnc]; exact hwaiters))
    refine ⟨_, (exec_sncInputHoldRelease hheld).trans (congrArg Host.Outcome.next hrun), ?_, ?_⟩
    · exact held_answered (syncStands_sncReply ..) (by rw [hsnc]; rfl)
    · rw [word_answered (syncStands_sncReply ..), syncWordOf_setSyncWord_same, hsnc]
      rfl

end Sys2Proof.Machine

namespace Sys2Proof.Machine

/-! ### Ports and messages: what taking and sending one leaves (R355, R360, R364, R365) -/

/-- Of the state the pots' ports alone may differ. -/
structure PortsOnly (s t : State) : Prop where
  state : t = { s with pots := t.pots }
  pot : ∀ m, potOf t m = { potOf s m with ports := (potOf t m).ports }

namespace PortsOnly
variable {s t u : State}

theorem trans (h : PortsOnly s t) (k : PortsOnly t u) : PortsOnly s u :=
  ⟨by rw [k.state, h.state], fun m => by rw [k.pot m, h.pot m]⟩

theorem snc (h : PortsOnly s t) (m : PotIx) : (potOf t m).snc = (potOf s m).snc := by rw [h.pot m]
theorem remote (h : PortsOnly s t) (m : PotIx) : (potOf t m).remote = (potOf s m).remote := by rw [h.pot m]
theorem sfe (h : PortsOnly s t) (m : PotIx) : (potOf t m).sfe = (potOf s m).sfe := by rw [h.pot m]
theorem streams (h : PortsOnly s t) (m : PotIx) : (potOf t m).streams = (potOf s m).streams := by rw [h.pot m]
theorem drz (h : PortsOnly s t) : t.drz = s.drz := by rw [h.state]
theorem cup (h : PortsOnly s t) : t.cup = s.cup := by rw [h.state]
theorem tray (h : PortsOnly s t) : t.tray = s.tray := by rw [h.state]
theorem dram (h : PortsOnly s t) : t.dram = s.dram := by rw [h.state]

theorem sameBytes (h : PortsOnly s t) : sameBytes s t := sameBytes_of_stores h.dram h.tray (by rw [h.state])

theorem potOn (h : PortsOnly s t) (m : PotIx) : potOn t m = Machine.potOn s m := by
  rw [Machine.potOn, potPresent, potEnabled, potRetired, h.pot m, h.state]
  rfl

theorem nodeId (h : PortsOnly s t) : nodeId t = Machine.nodeId s := by rw [Machine.nodeId, h.drz, Machine.nodeId]

theorem sncSame (h : PortsOnly s t) : SncSame s t :=
  ⟨fun m => by rw [h.snc], fun m => by rw [h.snc], fun m => by rw [h.snc], fun m => by rw [h.snc], by rw [h.state], h.sameBytes⟩

end PortsOnly

/-- An update of one port. -/
theorem portsOnly_setPort (s : State) (n : PotIx) (j : Nat) (x : Port) : PortsOnly s (updPot s n fun p => setPort p j x) := by
  refine ⟨rfl, fun m => ?_⟩
  by_cases hm : m = n
  · rw [hm, potOf_updPot_same]
    rfl
  · rw [potOf_updPot_other _ _ _ _ hm]

theorem portsOnly_updPort (s : State) (n : PotIx) (k : BitVec 1) (f : Port → Port) : PortsOnly s (updPort s n k f) :=
  portsOnly_setPort s n k.toNat (f (portOf (potOf s n) k.toNat))

theorem portsOnly_txPush (s : State) (q : Nat) (fs : List Flit) : PortsOnly s (txPush s q fs) := portsOnly_setPort ..

/-- The port that an update of one port sets, and the others. -/
theorem portOf_updPort_same (s : State) (n : PotIx) (k : BitVec 1) (f : Port → Port) :
    portOf (potOf (updPort s n k f) n) k.toNat = f (portOf (potOf s n) k.toNat) := by
  rw [updPort, potOf_updPot_same, portOf_setPort_same]

/-- A relation that an update of one port satisfies there holds of every port. -/
theorem portOf_setPort_rel {R : Port → Port → Prop} (refl : ∀ p, R p p) {s : State} {n : PotIx} {i : Nat} {x : Port}
    (hx : R (portOf (potOf s n) i) x) (m : PotIx) (j : Nat) :
    R (portOf (potOf s m) j) (portOf (potOf (updPot s n fun p => setPort p i x) m) j) := by
  by_cases hm : m = n
  · rw [hm, potOf_updPot_same]
    by_cases hj : j = i
    · rw [hj, portOf_setPort_same]
      exact hx
    · rw [portOf_setPort_other _ _ _ _ hj]
      exact refl _
  · rw [potOf_updPot_other _ _ _ _ hm]
    exact refl _

/-! Taking a message. -/

theorem portsOnly_msgTaken (s : State) (n : PotIx) (k : BitVec 1) (mtype : Nat) : PortsOnly s (msgTaken s n k mtype) :=
  portsOnly_updPort ..

theorem dropLead_frame (p : Port) (v : Nat) :
    dropLead p v = { p with rxParts := (dropLead p v).rxParts, creditsDue := (dropLead p v).creditsDue } := by
  unfold dropLead
  split <;> rfl

/-- The receive buffer and the credits due of a port alone may differ. -/
theorem portOf_msgTaken (s : State) (n : PotIx) (k : BitVec 1) (mtype : Nat) (m : PotIx) (j : Nat) :
    portOf (potOf (msgTaken s n k mtype) m) j = { portOf (potOf s m) j with
      rxParts := (portOf (potOf (msgTaken s n k mtype) m) j).rxParts
      creditsDue := (portOf (potOf (msgTaken s n k mtype) m) j).creditsDue } :=
  portOf_setPort_rel (R := fun p q => q = { p with rxParts := q.rxParts, creditsDue := q.creditsDue }) (fun _ => rfl)
    (dropLead_frame ..) m j

theorem deferral_msgTaken (s : State) (n : PotIx) (k : BitVec 1) (mtype : Nat) (m : PotIx) (j : Nat) :
    (portOf (potOf (msgTaken s n k mtype) m) j).deferral = (portOf (potOf s m) j).deferral := by rw [portOf_msgTaken]

theorem ctOf_msgTaken (s : State) (n : PotIx) (k : BitVec 1) (mtype : Nat) (m : PotIx) (j key : Nat) :
    ctOf (portOf (potOf (msgTaken s n k mtype) m) j) key = ctOf (portOf (potOf s m) j) key := by
  rw [portOf_msgTaken, ctOf, ctOf]

section Take
variable {s : State} {n : PotIx} {k : BitVec 1} {h : MsgHdr} {mtype : Nat} {body : List Byte} {effect : State → State}

/-- A message for this module that stands at the front of its channel has its effect (R360, R365). -/
theorem takeMsg_own (hown : ownNode s h.dst = true) (hm : msgHere s n k mtype h) :
    takeMsg n k h mtype body effect s = .next (effect (msgTaken s n k mtype)) := by
  obtain ⟨hstate, hfront⟩ := hm
  simp only [takeMsg, whenDo, hfront, hown, Bool.and_true, Bool.or_eq_true, beq_iff_eq, hstate, if_true]
  rfl

/-- One for another node is forwarded. -/
theorem takeMsg_other (hown : ownNode s h.dst = false) (hm : msgHere s n k mtype h) :
    takeMsg n k h mtype body effect s = .next (forwardMsg (msgTaken s n k mtype) n k h mtype body) := by
  obtain ⟨hstate, hfront⟩ := hm
  simp only [takeMsg, whenDo, hfront, hown, Bool.and_true, Bool.or_eq_true, beq_iff_eq, hstate, if_true, Bool.false_eq_true, if_false]
  rfl

end Take

/-! Sending one. -/

/-- Flits of one channel join the end of its queue. -/
theorem foldl_txq {v : Nat} (fs : List Flit) (hv : ∀ f ∈ fs, f.vc.toNat = v) (p : Port) :
    tget (fs.foldl (fun x f => { x with txq := tset x.txq f.vc.toNat (tget x.txq f.vc.toNat [] ++ [(f, x.slotNo)]) }) p).txq v [] =
      tget p.txq v [] ++ fs.map fun f => (f, p.slotNo) := by
  induction fs generalizing p with
  | nil => simp
  | cons f fs ih =>
    rw [List.foldl_cons, ih fun g hg => hv g (List.mem_cons_of_mem _ hg), hv f List.mem_cons_self]
    simp

theorem foldl_txq_frame (fs : List Flit) (p : Port) :
    let q := fs.foldl (fun x f => { x with txq := tset x.txq f.vc.toNat (tget x.txq f.vc.toNat [] ++ [(f, x.slotNo)]) }) p
    q = { p with txq := q.txq } := by
  induction fs generalizing p with
  | nil => rfl
  | cons f fs ih => exact ih _

theorem vcOf_lt (mtype : Nat) : vcOf mtype < 8 := by
  unfold vcOf
  split <;> decide

theorem msgFlits_vc {h : MsgHdr} {mtype : Nat} {body : List Byte} : ∀ f ∈ msgFlits h mtype body, f.vc.toNat = vcOf mtype := by
  intro f hf
  obtain ⟨x, -, rfl⟩ := List.mem_map.1 hf
  exact Nat.mod_eq_of_lt (vcOf_lt mtype)

theorem portAt_txPush (s : State) (q : Nat) (fs : List Flit) : portAt (txPush s q fs) q =
    fs.foldl (fun x f => { x with txq := tset x.txq f.vc.toNat (tget x.txq f.vc.toNat [] ++ [(f, x.slotNo)]) }) (portAt s q) := by
  rw [portAt, txPush, updPortAt, potOf_updPot_same, portOf_setPort_same, portAt]

/-- A message pushed to a port waits at the end of its channel's queue. -/
theorem msgSent_txPush (s : State) (q mtype : Nat) (h : MsgHdr) (body : List Byte) :
    msgSent s (txPush s q (msgFlits h mtype body)) q mtype h body := by
  rw [msgSent, portAt_txPush, foldl_txq _ msgFlits_vc]

/-- A message to a node that a port reaches leaves by it (R364). -/
theorem sendMsg_some {s : State} {n : PotIx} {d : BitVec 16} {q : Nat} (hq : pickPort s (nodeId s) n d = some q) (mtype : Nat)
    (sseq : BitVec 32) (tag : BitVec 16) (inf : BitVec 12) (addr : Word64) (body : List Byte) :
    sendMsg s n d mtype sseq tag inf addr body = txPush s q (msgFlits (ownHdr s n d sseq tag inf addr) mtype body) := by
  rw [sendMsg, hq]
  rfl

/-- Every place of a cycle is reached from every start. -/
theorem exists_rotation {h j n : Nat} (hh : h < n) (hj : j < n) : ∃ i < n, (h + i) % n = j :=
  ⟨(j + (n - h)) % n, Nat.mod_lt _ (by omega), by
    rw [Nat.add_mod_mod, show h + (j + (n - h)) = j + n by omega, Nat.add_mod_right, Nat.mod_eq_of_lt hj]⟩

/-- No port is picked where none of the eligible ones is UP, whoever asks (R364). -/
theorem pickPort_eq_none {s : State} {a : BitVec 16} {p : PotIx} {d : BitVec 16} :
    pickPort s a p d = none ↔ 4096 ≤ d.toNat ∨ ∀ q ∈ eligible s d, (portAt s q).state ≠ .up := by
  rw [pickPort]
  by_cases hd : 4096 ≤ d.toNat
  · simp [hd]
  · simp only [hd, decide_false, Bool.false_eq_true, if_false, List.find?_eq_none, List.mem_map, beq_iff_eq, false_or]
    refine ⟨fun h q hq => ?_, ?_⟩
    · obtain ⟨j, hj, rfl⟩ := List.getElem_of_mem hq
      obtain ⟨i, hi, hij⟩ := exists_rotation (Nat.mod_lt (a.toNat * 33 + p.toNat * 7 + d.toNat) (Nat.zero_lt_of_lt hj)) hj
      refine h _ ⟨i, mem_upto hi, ?_⟩
      rw [hij, nth, List.getElem?_eq_getElem hj, Option.getD_some]
    · rintro h q ⟨i, hi, rfl⟩
      have hlen : 0 < (eligible s d).length := Nat.zero_lt_of_lt (List.mem_range.1 hi)
      rw [nth, List.getElem?_eq_getElem (Nat.mod_lt _ hlen), Option.getD_some]
      exact h _ (List.getElem_mem _)

/-- Whether some port reaches a node depends on the routes and the states of the ports, and not on who asks. -/
theorem pickPort_none_congr {s t : State} (hdrz : t.drz = s.drz)
    (hstate : ∀ m j, (portOf (potOf t m) j).state = (portOf (potOf s m) j).state) {a b : BitVec 16} {n m : PotIx} {d : BitVec 16} :
    pickPort t a n d = none ↔ pickPort s b m d = none := by
  have hroutes : eligible t d = eligible s d := by rw [eligible, routeOf, hdrz, eligible, routeOf]
  simp only [pickPort_eq_none, hroutes, portAt, hstate]

/-! The link stands: no port but its transmit queues, no route and no byte of memory changes. -/

/-- Of a port its transmit queues alone may differ; routes and memories stand. -/
structure LinkStands (s t : State) : Prop where
  drz : t.drz = s.drz
  port : ∀ m j, portOf (potOf t m) j = { portOf (potOf s m) j with txq := (portOf (potOf t m) j).txq }
  bytes : sameBytes s t

namespace LinkStands
variable {s t u : State}

theorem refl (s : State) : LinkStands s s := ⟨rfl, fun _ _ => rfl, .refl s⟩

theorem trans (h : LinkStands s t) (k : LinkStands t u) : LinkStands s u :=
  ⟨k.drz.trans h.drz, fun m j => by rw [k.port m j, h.port m j], h.bytes.trans k.bytes⟩

theorem deferral (h : LinkStands s t) (m : PotIx) (j : Nat) :
    (portOf (potOf t m) j).deferral = (portOf (potOf s m) j).deferral := by rw [h.port m j]

theorem reaches (h : LinkStands s t) {a b : BitVec 16} {n m : PotIx} {d : BitVec 16} :
    pickPort t a n d = none ↔ pickPort s b m d = none := pickPort_none_congr h.drz fun m j => by rw [h.port m j]

end LinkStands

/-- The pots' ports stand, and so do the routes and the memories. -/
theorem linkStands_of_ports {s t : State} (hports : ∀ m, (potOf t m).ports = (potOf s m).ports) (hdrz : t.drz = s.drz)
    (hbytes : sameBytes s t) : LinkStands s t :=
  ⟨hdrz, fun m j => by rw [portOf, hports, ← portOf], hbytes⟩

theorem linkStands_updPot {s : State} {n : PotIx} {f : Pot → Pot} (hf : (f (potOf s n)).ports = (potOf s n).ports) :
    LinkStands s (updPot s n f) := by
  refine linkStands_of_ports (fun m => ?_) rfl (sameBytes_updPot ..)
  by_cases hm : m = n
  · rw [hm, potOf_updPot_same, hf]
  · rw [potOf_updPot_other _ _ _ _ hm]

theorem linkStands_sendFault (s : State) (f : FaultInfo) : LinkStands s (sendFault s f) :=
  linkStands_of_ports (fun m => by rw [potOf_sendFault]) (sendFault_drz s f) (sameBytes_sendFault s f)

theorem linkStands_txPush (s : State) (q : Nat) (fs : List Flit) : LinkStands s (txPush s q fs) :=
  ⟨rfl, fun m j => portOf_setPort_rel (R := fun p q => q = { p with txq := q.txq }) (fun _ => rfl) (foldl_txq_frame fs _) m j,
    sameBytes_updPot ..⟩

/-- A message to a node that a port reaches is queued there. -/
theorem linkStands_sendMsg {s : State} {n : PotIx} {d : BitVec 16} (hd : pickPort s (nodeId s) n d ≠ none) (mtype : Nat)
    (sseq : BitVec 32) (tag : BitVec 16) (inf : BitVec 12) (addr : Word64) (body : List Byte) :
    LinkStands s (sendMsg s n d mtype sseq tag inf addr body) := by
  obtain ⟨q, hq⟩ := Option.ne_none_iff_exists'.1 hd
  rw [sendMsg_some hq]
  exact linkStands_txPush ..

end Sys2Proof.Machine

namespace Sys2Proof.Machine

/-! ### Remote writes and their acknowledgement (R308, R310, R371) -/

theorem cellWrite_append (d : Nat → Byte) (m : List Host.Cell) (a : Nat) (xs ys : List Byte) :
    cellWrite d m a (xs ++ ys) = cellWrite d (cellWrite d m a xs) (a + xs.length) ys := by
  induction xs generalizing m a with
  | nil => rfl
  | cons x xs ih =>
    rw [List.cons_append, cellWrite, ih, cellWrite, List.length_cons]
    congr 1
    omega

/-- A body's pieces, all of them in pots that are in service, are written as the bytes that they cut (R308). -/
theorem writeTrayPieces_chunks (poison : Word64) (f i : Nat) {s : State} {a : Nat} {data : List Byte} (hlen : data.length ≤ 32 * f)
    (hon : ∀ b, a ≤ b → b < a + data.length → potOn s (BitVec.ofNat 5 (b / 2 ^ 27)) = true) :
    ∃ tm, writeTrayPieces s a (((chunks 32 f data).zipIdx i).map fun x => (x.1, bitAt poison x.2)) =
      { s with tray := cellWrite trayDefault s.tray a data, trayMeta := tm } := by
  induction f generalizing i s a data with
  | zero =>
    obtain rfl : data = [] := List.length_eq_zero_iff.1 (by omega)
    exact ⟨s.trayMeta, rfl⟩
  | succ f ih =>
    match data with
    | [] => exact ⟨s.trayMeta, rfl⟩
    | x :: xs =>
      generalize hd : x :: xs = data at hlen hon
      have hpos : 0 < data.length := by rw [← hd, List.length_cons]; omega
      have hstep : chunks 32 (f + 1) data = data.take 32 :: chunks 32 f (data.drop 32) := by rw [← hd]; rfl
      have hfirst := hon a (Nat.le_refl a) (by omega)
      obtain ⟨tm, htm⟩ := ih (i + 1) (s := trayWrite s a (data.take 32) (bitAt poison i)) (a := a + 32) (data := data.drop 32)
        (by rw [List.length_drop]; omega) fun b hb hb' => hon b (by omega) (by rw [List.length_drop] at hb'; omega)
      refine ⟨tm, ?_⟩
      rw [hstep, List.zipIdx_cons, List.map_cons, writeTrayPieces, if_pos hfirst, htm, trayWrite_tray]
      have hcells : cellWrite trayDefault (cellWrite trayDefault s.tray a (data.take 32)) (a + 32) (data.drop 32) =
          cellWrite trayDefault s.tray a data := by
        conv_rhs => rw [← List.take_append_drop 32 data, cellWrite_append]
        by_cases hshort : data.length ≤ 32
        · rw [List.drop_of_length_le hshort, cellWrite, cellWrite]
        · rw [List.length_take_of_le (by omega)]
      rw [hcells]
      rfl

/-- The number that follows CT moves it on (R310). -/
theorem ctCommit_next {c : Ct} (h : c.beyond = []) : (ctCommit c (c.ct + 1)).ct = c.ct + 1 := by
  have hnot : ¬seqLe (c.ct + 1) c.ct = true := by
    rw [seqLe, decide_eq_true_eq, show c.ct - (c.ct + 1) = -1 by ring]
    decide
  rw [ctCommit, if_neg hnot]
  simp [h, ctRun]

/-- CT is marked acknowledged. -/
def ctAcked (s : State) (n : PotIx) (k : BitVec 1) (key : Nat) : State :=
  let c := ctOf (portOf (potOf s n) k.toNat) key
  updPort s n k fun p => { p with cts := tset p.cts key { c with acked := c.ct } }

theorem syncStands_sendStreamAck (s : State) (n : PotIx) (k : BitVec 1) (src : BitVec 16) (sp : PotIx) :
    SyncStands (ctAcked s n k (ctKey src sp)) (sendStreamAck s n k src sp) := syncStands_sendMsg ..

/-- STREAM_ACK acknowledges CT and leaves it. -/
theorem ctOf_sendStreamAck (s : State) (n : PotIx) (k : BitVec 1) (src : BitVec 16) (sp : PotIx) :
    ctOf (portOf (potOf (sendStreamAck s n k src sp) n) k.toNat) (ctKey src sp) =
      { ctOf (portOf (potOf s n) k.toNat) (ctKey src sp) with acked := (ctOf (portOf (potOf s n) k.toNat) (ctKey src sp)).ct } := by
  rw [(syncStands_sendStreamAck ..).ctOf, ctAcked, portOf_updPort_same, ctOf, tget_tset_same]

theorem sendStreamAck_tray (s : State) (n : PotIx) (k : BitVec 1) (src : BitVec 16) (sp : PotIx) :
    (sendStreamAck s n k src sp).tray = s.tray := (syncStands_sendStreamAck ..).tray

theorem sendStreamAck_dram (s : State) (n : PotIx) (k : BitVec 1) (src : BitVec 16) (sp : PotIx) :
    (sendStreamAck s n k src sp).dram = s.dram := (syncStands_sendStreamAck ..).dram

theorem sameBytes_sendStreamAck (s : State) (n : PotIx) (k : BitVec 1) (src : BitVec 16) (sp : PotIx) :
    sameBytes s (sendStreamAck s n k src sp) := (portsOnly_updPort ..).sameBytes.trans (syncStands_sendStreamAck ..).sameBytes

/-- A write that is committed: its bytes are in the tray, no byte of DRAM has changed, and its number has counted toward CT. -/
theorem commitWrite_spec {s : State} {n : PotIx} {k : BitVec 1} {h : MsgHdr} {data : List Byte} {poison : Word64}
    (hlen : data.length ≤ 2048) (hon : potOn s (BitVec.ofNat 5 (fieldN h.addr 0 32 / 2 ^ 27)) = true)
    (hpot : fieldN h.addr 0 32 % 2 ^ 27 + data.length ≤ 2 ^ 27) :
    (commitWrite n k h data poison s).tray = cellWrite trayDefault s.tray (fieldN h.addr 0 32) data ∧
      (commitWrite n k h data poison s).dram = s.dram ∧
      (ctOf (portOf (potOf (commitWrite n k h data poison s) n) k.toNat) (ctKey h.src h.srcPot)).ct =
        (ctCommit (ctOf (portOf (potOf s n) k.toNat) (ctKey h.src h.srcPot)) h.sseq).ct := by
  obtain ⟨tm, htm⟩ := writeTrayPieces_chunks (s := s) (a := fieldN h.addr 0 32) poison 64 0 hlen fun b hb hb' => by
    rwa [show b / 2 ^ 27 = fieldN h.addr 0 32 / 2 ^ 27 by omega]
  simp only [commitWrite, hon, Bool.not_true, Bool.false_eq_true, if_false, bitPieces, htm]
  split
  · refine ⟨by rw [sendStreamAck_tray]; rfl, by rw [sendStreamAck_dram]; rfl, ?_⟩
    rw [ctOf_sendStreamAck, portOf_updPort_same, ctOf, tget_tset_same]
    rfl
  · refine ⟨rfl, rfl, ?_⟩
    rw [portOf_updPort_same, ctOf, tget_tset_same]
    rfl

end Sys2Proof.Machine

namespace Sys2Proof.Machine

/-! ### What each message does when its module takes it (R308 to R313, R368, R371 to R374) -/

theorem sameBytes_trayPieces (j : Nat) (s : State) (a : Nat) : sameBytes s (trayPieces j s a).1 := by
  induction j generalizing s a with
  | zero => exact .refl s
  | succ j ih =>
    simp only [trayPieces]
    split
    · exact ih s (a + 32)
    · exact (takeFreeBytes_keeps 32 s).1.trans (ih ..)

/-- The request that an answer names leaves its pot's list. -/
def requestTaken (s : State) (id : BitVec 32) (rest : List RemoteReq) : State := updPot s (reqPot id) fun p => { p with remote := rest }

theorem takeRemote_some {s u : State} (hu : PortsOnly s u) {id : BitVec 32} {r : RemoteReq} {rest : List RemoteReq}
    (hpull : pullFirst (fun (x : RemoteReq) => x.id == id) (potOf s (reqPot id)).remote = some (r, rest)) :
    takeRemote u id = some (reqPot id, r, requestTaken u id rest) := by
  rw [takeRemote, hu.remote, hpull]
  rfl

theorem requestTaken_remote (s : State) (id : BitVec 32) (rest : List RemoteReq) :
    (potOf (requestTaken s id rest) (reqPot id)).remote = rest := by rw [requestTaken, potOf_updPot_same]

theorem sameBytes_requestTaken {s u : State} (hu : PortsOnly s u) (id : BitVec 32) (rest : List RemoteReq) :
    sameBytes s (requestTaken u id rest) := hu.sameBytes.trans (sameBytes_updPot ..)

/-- The operation that a message asks for, as it stands at its sync unit (R309). -/
def messageOp (h : MsgHdr) (id : BitVec 32) (yop : BitVec 4) (cond : BitVec 2) (full : Bool) (x : Word64) : Waiter :=
  ⟨fieldB h.addr 5 16, yop, cond, full, x, .remote h.src h.srcPot id, h.tag, h.infusion, 0⟩

theorem remoteArrive_on {s : State} {h : MsgHdr} (hon : potOn s (fieldB h.addr 0 5) = true) (n : PotIx) (id : BitVec 32) (yop : BitVec 4)
    (cond : BitVec 2) (full : Bool) (x : Word64) :
    remoteArrive n h id yop cond full x s = sncArrive s (fieldB h.addr 0 5) (messageOp h id yop cond full x) := if_pos hon

section Own
variable {s : State} {n : PotIx} {k : BitVec 1} {h : MsgHdr} (hown : ownNode s h.dst = true)
include hown

/-- WRITE (R308, R310). -/
theorem write_commits {data : List Byte} {poison : Word64} (hm : msgHere s n k 1 h) (hlen : data.length ≤ 2048) (hmem : s.memoryOk)
    (hon : potOn s (BitVec.ofNat 5 (fieldN h.addr 0 32 / 2 ^ 27)) = true)
    (hpot : fieldN h.addr 0 32 % 2 ^ 27 + data.length ≤ 2 ^ 27) :
    runsTo (.write n k h data poison) s fun t =>
      cellRead trayDefault t.tray (fieldN h.addr 0 32) data.length = data ∧
      (∀ b, b < fieldN h.addr 0 32 ∨ fieldN h.addr 0 32 + data.length ≤ b →
        cellGet trayDefault t.tray b = cellGet trayDefault s.tray b) ∧
      (∀ b, cellGet dramDefault t.dram b = cellGet dramDefault s.dram b) ∧
      ((ctOf (portOf (potOf s n) k.toNat) (ctKey h.src h.srcPot)).beyond = [] →
        h.sseq = (ctOf (portOf (potOf s n) k.toNat) (ctKey h.src h.srcPot)).ct + 1 →
        (ctOf (portOf (potOf t n) k.toNat) (ctKey h.src h.srcPot)).ct = h.sseq) := by
  have htaken := portsOnly_msgTaken s n k 1
  obtain ⟨-, hwf⟩ := hmem
  obtain ⟨htray, hdram, hct⟩ := commitWrite_spec (n := n) (k := k) (poison := poison) hlen ((htaken.potOn _).trans hon) hpot
  rw [htaken.tray] at htray
  rw [htaken.dram] at hdram
  rw [ctOf_msgTaken] at hct
  refine ⟨_, takeMsg_own hown hm, ?_, fun b hb => ?_, fun b => by rw [hdram], fun hbeyond hnext => ?_⟩
  · rw [htray, cellRead_cellWrite_same _ _ _ _ hwf]
  · rw [htray, cellGet_cellWrite_other _ _ _ _ _ hb hwf]
  · rw [hct, hnext, ctCommit_next hbeyond]

/-- READ_REQ (R368). -/
theorem readReq_answers {b : BitVec 12} {q : Nat} (hm : msgHere s n k 2 h)
    (hq : pickPort (trayPieces (ceilDiv b.toNat 32) (msgTaken s n k 2) (fieldN h.addr 0 32)).1
      (nodeId (trayPieces (ceilDiv b.toNat 32) (msgTaken s n k 2) (fieldN h.addr 0 32)).1) n h.src = some q)
    (hon : potOn s (BitVec.ofNat 5 (fieldN h.addr 0 32 / 2 ^ 27)) = true) :
    runsTo (.readReq n k h b) s fun t =>
      let r := trayPieces (ceilDiv b.toNat 32) (msgTaken s n k 2) (fieldN h.addr 0 32)
      msgSent r.1 t q 3 (ownHdr r.1 n h.src h.sseq h.tag h.infusion h.addr)
        (bytesOfNat 8 0 ++ ((r.2.map Prod.fst).flatten).take b.toNat ++ poisonBytes r.2.length (r.2.map Prod.snd)) ∧
      sameBytes s t := by
  have htaken := portsOnly_msgTaken s n k 2
  refine ⟨_, takeMsg_own hown hm, ?_⟩
  simp only [serveRead, (htaken.potOn _).trans hon, if_true, sendMsg_some hq]
  exact ⟨msgSent_txPush .., htaken.sameBytes.trans ((sameBytes_trayPieces ..).trans (sameBytes_updPot ..))⟩

/-- READ_RSP of a gathered row (R274, R368). -/
theorem readRsp_fills {st : Status} {data : List Byte} {poison : Word64} {r : RemoteReq} {rest : List RemoteReq} {key : Nat}
    (hm : msgHere s n k 3 h)
    (hpull : pullFirst (fun (x : RemoteReq) => x.id == h.sseq) (potOf s (reqPot h.sseq)).remote = some (r, rest))
    (hrow : r.what = .row key) :
    runsTo (.readRsp n k h st data poison) s fun t =>
      (potOf t (reqPot h.sseq)).remote = rest ∧
      (potOf t (reqPot h.sseq)).sfe = sfeData key (bitPieces data poison) (potOf s (reqPot h.sseq)).sfe ∧ sameBytes s t := by
  have htaken := portsOnly_msgTaken s n k 3
  refine ⟨_, takeMsg_own hown hm, ?_⟩
  simp only [readAnswer, takeRemote_some htaken hpull, hrow]
  refine ⟨?_, ?_, (sameBytes_requestTaken htaken ..).trans (sameBytes_updPot ..)⟩
  · rw [potOf_updPot_same, requestTaken_remote]
  · rw [potOf_updPot_same, requestTaken, potOf_updPot_same, htaken.sfe]

/-- SYNC_RSP of a hub slot's operation (R312). -/
theorem syncRsp_completes {st : Status} {view : BitVec 128} {r : RemoteReq} {rest : List RemoteReq} {c j : BitVec 2}
    (hm : msgHere s n k 6 h)
    (hpull : pullFirst (fun (x : RemoteReq) => x.id == h.sseq) (potOf s (reqPot h.sseq)).remote = some (r, rest))
    (hslot : r.what = .sync (.hubSlot c j)) :
    runsTo (.syncRsp n k h st view) s fun t =>
      hubSlotDone t c j st view ∧ (potOf t (reqPot h.sseq)).remote = rest ∧ sameBytes s t := by
  have htaken := portsOnly_msgTaken s n k 6
  refine ⟨_, takeMsg_own hown hm, ?_⟩
  simp only [syncAnswer, takeRemote_some htaken hpull, hslot]
  refine ⟨hubSlotDone_of_hubSnc rfl, requestTaken_remote (msgTaken s n k 6) h.sseq rest, ?_⟩
  exact (sameBytes_requestTaken htaken h.sseq rest).trans (syncStands_syncLocal ..).sameBytes

/-- An operation that is not covered is deferred (R311). -/
theorem syncChg_defers {id : BitVec 32} {yop : BitVec 4} {full : Bool} {x : Word64} (hm : msgHere s n k 4 h)
    (hroom : (portOf (potOf s n) k.toNat).deferral.length < 256)
    (hcover : seqLe h.sseq (ctOf (portOf (potOf s n) k.toNat) (ctKey h.src h.srcPot)).ct = false) :
    runsTo (.syncChg n k h id yop full x) s fun t =>
      (portOf (potOf t n) k.toNat).deferral =
        (portOf (potOf s n) k.toNat).deferral ++ [⟨h.src, h.srcPot, h.sseq, h, id, yop, full, x⟩] ∧
      (∀ m, (potOf t m).snc.words = (potOf s m).snc.words) ∧ sameBytes s t := by
  have htaken := portsOnly_msgTaken s n k 4
  have hdefer := htaken.trans (portsOnly_updPort (msgTaken s n k 4) n k fun p =>
    { p with deferral := p.deferral ++ [⟨h.src, h.srcPot, h.sseq, h, id, yop, full, x⟩] })
  have hcount := sncSame_sncCount (updPort (msgTaken s n k 4) n k fun p =>
    { p with deferral := p.deferral ++ [⟨h.src, h.srcPot, h.sseq, h, id, yop, full, x⟩] }) n 112 16
  refine ⟨_, (if_neg (by simpa using hroom)).trans (takeMsg_own hown hm), ?_⟩
  simp only [changeArrive, ctOf_msgTaken, hcover, Bool.false_and, Bool.false_eq_true, if_false]
  refine ⟨?_, fun m => (hcount.words m).trans (by rw [hdefer.snc]), hdefer.sameBytes.trans hcount.bytes⟩
  rw [sncCount, (linkStands_updPot rfl).deferral, portOf_updPort_same, deferral_msgTaken]

/-- A SIGNAL that is covered, with none of its stream deferred, reaches its word (R292, R311). -/
theorem syncChg_signals {id : BitVec 32} {full : Bool} {x : Word64} {m : PotIx} {ix : BitVec 16} (hm : msgHere s n k 4 h)
    (hroom : (portOf (potOf s n) k.toNat).deferral.length < 256)
    (hcover : seqLe h.sseq (ctOf (portOf (potOf s n) k.toNat) (ctKey h.src h.srcPot)).ct = true)
    (hfirst : ∀ d ∈ (portOf (potOf s n) k.toNat).deferral, ¬ (d.src = h.src ∧ d.srcPot = h.srcPot))
    (hpot : fieldB h.addr 0 5 = m) (hix : fieldB h.addr 5 16 = ix) (hon : potOn s m = true) (hready : wordReady s m ix.toNat)
    (hwaiters : (potOf s m).snc.waiters = []) (hheld : (potOf s m).snc.held = []) :
    runsTo (.syncChg n k h id 5 full x) s fun t =>
      syncWordOf (potOf t m).snc ix.toNat =
        { syncWordOf (potOf s m).snc ix.toNat with
          value := (syncWordOf (potOf s m).snc ix.toNat).value + x
          valueN := ~~~((syncWordOf (potOf s m).snc ix.toNat).value + x), full := true, fullN := false } ∧
      otherWords m [ix.toNat] s t := by
  have htaken := portsOnly_msgTaken s n k 4
  have hsame := htaken.sncSame
  have hnone : ((portOf (potOf s n) k.toNat).deferral.any fun d => d.src == h.src && d.srcPot == h.srcPot) = false := by
    rw [List.any_eq_false]
    intro d hd
    simpa using hfirst d hd
  subst hpot hix
  refine ⟨_, (if_neg (by simpa using hroom)).trans (takeMsg_own hown hm), ?_⟩
  simp only [changeArrive, ctOf_msgTaken, deferral_msgTaken, hcover, hnone, Bool.not_false, Bool.and_self, if_true,
    remoteArrive_on ((htaken.potOn _).trans hon)]
  obtain ⟨hword, hother⟩ := sncArrive_sets (o := messageOp h id 5 0 full x) ((hsame.waiters _).trans hwaiters)
    ((hsame.held _).trans hheld) (show (5 : BitVec 4).toNat ≤ 5 by decide) (hsame.ready hready)
    fun c hc => by rw [tryOp_signal c rfl, changeWord, hc, hsame.word]
  exact ⟨hword, hsame.otherWords hother⟩

/-- SYNC_REQ's READ leaves its word (R292, R309). -/
theorem syncReq_reads {cond : BitVec 2} {x : Word64} (hm : msgHere s n k 5 h) (hon : potOn s (fieldB h.addr 0 5) = true)
    (hwaiters : (potOf s (fieldB h.addr 0 5)).snc.waiters = []) (hheld : (potOf s (fieldB h.addr 0 5)).snc.held = [])
    (hready : wordReady s (fieldB h.addr 0 5) (fieldN h.addr 5 16)) :
    runsTo (.syncReq n k h 0 cond x) s fun t => otherWords (fieldB h.addr 0 5) [] s t := by
  have htaken := portsOnly_msgTaken s n k 5
  have hsame := htaken.sncSame
  refine ⟨_, takeMsg_own hown hm, ?_⟩
  rw [remoteArrive_on ((htaken.potOn _).trans hon)]
  obtain ⟨-, hother⟩ := sncArrive_leaves (o := messageOp h h.sseq 0 cond false x) ((hsame.waiters _).trans hwaiters)
    ((hsame.held _).trans hheld) (show (0 : BitVec 4).toNat ≤ 5 by decide) (hsame.ready hready) fun c _ => tryOp_read c rfl
  exact hsame.otherWords hother

/-- STREAM_ACK (R310). -/
theorem streamAck_moves {ct : BitVec 32} (hm : msgHere s n k 7 h)
    (hpath : (streamEnt (potOf s (fieldB h.addr 0 5)) h.src).resync = false)
    (hlo : seqLe (streamEnt (potOf s (fieldB h.addr 0 5)) h.src).acked ct = true)
    (hhi : seqLe ct (streamEnt (potOf s (fieldB h.addr 0 5)) h.src).last = true)
    (hheld : (streamEnt (potOf s (fieldB h.addr 0 5)) h.src).held = []) :
    runsTo (.streamAck n k h ct) s fun t =>
      streamEnt (potOf t (fieldB h.addr 0 5)) h.src = { streamEnt (potOf s (fieldB h.addr 0 5)) h.src with acked := ct } ∧
      sameBytes s t := by
  have htaken := portsOnly_msgTaken s n k 7
  have hent : streamEnt (potOf (msgTaken s n k 7) (fieldB h.addr 0 5)) h.src = streamEnt (potOf s (fieldB h.addr 0 5)) h.src := by
    rw [streamEnt, htaken.streams, streamEnt]
  refine ⟨_, takeMsg_own hown hm, ?_⟩
  simp only [streamAcked, hent, hpath, hlo, hhi, hheld, Bool.not_true, Bool.or_self, Bool.false_eq_true, if_false, ne_eq,
    not_true_eq_false, false_and]
  refine ⟨?_, htaken.sameBytes.trans (sameBytes_updPot ..)⟩
  rw [potOf_updPot_same, streamEnt, setStream, tget_tset_same]

end Own
end Sys2Proof.Machine

namespace Sys2Proof.Machine

/-! ### RESYNC, commands, losses and cuppings that come in a message (R366, R372 to R374, R509) -/

theorem syncStands_strandReply (n : PotIx) (s : State) (x : Deferred) : SyncStands s (strandReply n s x) := syncStands_sendMsg ..

theorem syncStands_strandAll (s : State) (n : PotIx) (k : BitVec 1) (c : Deferred → Bool) : SyncStands s (strandAll s n k c) := by
  unfold strandAll
  refine SyncStands.trans (syncStands_updPort s n k _ ?_)
    (syncStands_runAll (fun t x => (syncStands_strandRecord t n x).trans (syncStands_strandReply ..)) _ _)
  exact fun _ => rfl

/-- The entry port's CT is LAST; what other ports drop leaves it (R372). -/
theorem resyncAt_spec (n : PotIx) (k : BitVec 1) (h : MsgHdr) (s : State) :
    ctOf (portOf (potOf (resyncAt n k h s) n) k.toNat) (ctKey h.src h.srcPot) = ⟨h.sseq, [], h.sseq⟩ ∧
      sameBytes s (resyncAt n k h s) := by
  have hrest (u : State) : SyncStands u (runAll (fun t q =>
      if q = portNo n k then t
      else
        strandAll t (portPot q) (BitVec.ofNat 1 (portK q)) fun d =>
          d.src == h.src && d.srcPot == h.srcPot && !seqLe d.cover (ctOf (portAt t q) (ctKey h.src h.srcPot)).ct) (upto 64) u) :=
    syncStands_runAll (fun t q => syncStands_ite (.refl t) (syncStands_strandAll ..)) _ _
  refine ⟨?_, (portsOnly_updPort ..).sameBytes.trans (hrest _).sameBytes⟩
  rw [resyncAt, (hrest _).ctOf, portOf_updPort_same, ctOf, tget_tset_same]

/-! A command of another hub in plain memory (R343, R373). -/

/-- The command that a CMD makes, and its place in the table. -/
def remoteCmd (s : State) (hdr : MsgHdr) (p : Word64) (level : BitVec 3) (hd : Line) : Cmd :=
  { id := s.hfe.nextId, slot := 0, seq := 0, head := 0, header := putField hd 64 64 p.toNat, payload := [], state := .queued, parts := [],
    status := none, detail := 0, infusion := hdrInf (putField hd 64 64 p.toNat), remoteOf := some (hdr.src, hdr.sseq, 0),
    level := level }

def remoteCmdOffline (s : State) (hdr : MsgHdr) (p : Word64) (level : BitVec 3) (hd : Line) : State :=
  updCmd { s with hfe := { s.hfe with table := s.hfe.table ++ [remoteCmd s hdr p level hd], nextId := s.hfe.nextId + 1 } } s.hfe.nextId
    fun x => { x with state := .running, status := some .pimOffline }

theorem cmdOf_remoteCmdOffline {s : State} {hdr : MsgHdr} {p : Word64} {level : BitVec 3} {hd : Line}
    (hnew : ∀ c ∈ s.hfe.table, c.id ≠ s.hfe.nextId) :
    cmdOf (remoteCmdOffline s hdr p level hd) s.hfe.nextId =
      some { remoteCmd s hdr p level hd with state := .running, status := some .pimOffline } := by
  simp only [cmdOf, remoteCmdOffline, updCmd, List.map_append, List.find?_append, List.map_cons, List.map_nil]
  rw [List.find?_eq_none.2]
  · simp [remoteCmd]
  · intro x hx
    obtain ⟨c, hc, rfl⟩ := List.mem_map.1 hx
    simp [hnew c hc]

theorem onlyHfe_remoteCmdOffline (s : State) (hdr : MsgHdr) (p : Word64) (level : BitVec 3) (hd : Line) :
    onlyHfe s (remoteCmdOffline s hdr p level hd) := ⟨_, rfl⟩

/-- Its answer says that no unit is expected. -/
theorem cmdArrive_offline {s : State} (hoff : s.hfe.pimOff = true) (hnew : ∀ c ∈ s.hfe.table, c.id ≠ s.hfe.nextId) (hdr : MsgHdr)
    (p : Word64) (level : BitVec 3) (hd : Line) (op : List Byte) :
    cmdArrive hdr p level hd op s = sendMsg (remoteCmdOffline s hdr p level hd) 0 hdr.src 0xA hdr.sseq hdr.tag hdr.infusion 0
      (bytesOfNat 1 0 ++ bytesOfNat 4 0) := by
  have harrive : cmdArrive hdr p level hd op s = sendMsg (remoteCmdOffline s hdr p level hd) 0 hdr.src 0xA hdr.sseq hdr.tag hdr.infusion 0
      (bytesOfNat 1 0 ++
        bytesOfNat 4 (((cmdOf (remoteCmdOffline s hdr p level hd) s.hfe.nextId).map fun c => sumParts c Part.expected).getD 0)) := by
    simp only [cmdArrive, hoff, if_true, remoteCmdOffline, remoteCmd]
  rw [harrive, cmdOf_remoteCmdOffline hnew]
  rfl

theorem onlyHfe.pickPort {s t : State} (h : onlyHfe s t) (a : BitVec 16) (p : PotIx) (d : BitVec 16) :
    pickPort t a p d = Machine.pickPort s a p d := by
  obtain ⟨x, rfl⟩ := h
  rfl

theorem onlyHfe.nodeId {s t : State} (h : onlyHfe s t) : nodeId t = Machine.nodeId s := by
  obtain ⟨x, rfl⟩ := h
  rfl

theorem onlyHfe.ownHdr {s t : State} (h : onlyHfe s t) (n : PotIx) (d : BitVec 16) (sseq : BitVec 32) (tag : BitVec 16) (inf : BitVec 12)
    (addr : Word64) : ownHdr t n d sseq tag inf addr = Machine.ownHdr s n d sseq tag inf addr := by
  obtain ⟨x, rfl⟩ := h
  rfl

/-- A message sent after a change of the front end alone joins the same queue. -/
theorem onlyHfe.msgSent {s t u : State} (h : onlyHfe s t) {q mtype : Nat} {hdr : MsgHdr} {body : List Byte}
    (k : msgSent t u q mtype hdr body) : msgSent s u q mtype hdr body := by
  obtain ⟨x, rfl⟩ := h
  exact k

/-! A member's answer (R374). -/

/-- The part that an answer leaves where it waited. -/
def answeredPart (a : MemberAns) (p : Part) : Part :=
  { p with state := .answered, expected := a.expected, answered := a.answered, status := a.status, isPartial := a.isPartial,
           poison := a.poison, res := a.res }

/-- A table changed command by command holds the changed member where it held the member. -/
theorem memberOf_of_table_map {s t : State} {f : Cmd → Cmd} {g : Cmd → Part → Part} {key : Nat}
    (htable : t.hfe.table = s.hfe.table.map f)
    (hparts : ∀ x : Cmd, ((f x).parts.find? fun p => p.key == key) = (x.parts.find? fun p => p.key == key).map (g x)) :
    memberOf t key = (memberOf s key).map fun x => (f x.1, g x.1 x.2) := by
  rw [memberOf, htable, List.findSome?_map, memberOf, List.map_findSome?]
  congr 1
  funext x
  simp only [Function.comp_apply, hparts, Option.map_map]
  rfl

/-- The command that holds it, with the answer's detail and infusion. -/
def answeredCmd (a : MemberAns) (x : Cmd) : Cmd :=
  { x with detail := a.detail, infusion := a.infusion.getD x.infusion
           parts := x.parts.map fun q => if q.key = a.key then answeredPart a q else q }

theorem find_answeredCmd (a : MemberAns) (x : Cmd) : ((answeredCmd a x).parts.find? fun q => q.key == a.key) =
    (x.parts.find? fun q => q.key == a.key).map fun q => if q.key = a.key then answeredPart a q else q := by
  have hkey : ((fun q : Part => q.key == a.key) ∘ fun q => if q.key = a.key then answeredPart a q else q) = fun q => q.key == a.key := by
    funext q
    simp only [Function.comp_apply, apply_ite Part.key, answeredPart, ite_self]
  rw [answeredCmd, List.find?_map, hkey]

theorem memberOf_takeAnswer {s : State} {a : MemberAns} {c : Cmd} {p : Part} (hm : memberOf s a.key = some (c, p))
    (hw : p.state = .waiting) : memberOf (takeAnswer s a) a.key = some (answeredCmd a c, answeredPart a p) := by
  have htable : (takeAnswer s a).hfe.table = s.hfe.table.map fun x => if x.id = c.id then answeredCmd a x else x :=
    takeAnswer_waiting hm hw
  rw [memberOf_of_table_map (g := fun x q => if x.id = c.id then (if q.key = a.key then answeredPart a q else q) else q) htable fun x => ?_,
    hm, Option.map_some, if_pos rfl, if_pos rfl, if_pos (memberOf_key hm)]
  by_cases hx : x.id = c.id
  · simp only [if_pos hx, find_answeredCmd]
  · simp only [if_neg hx, Option.map_id']

/-! A cupping that is followed (R509), and a record of a message of another kind (R514). -/

theorem sendFault_inbound_length {s : State} (hroom : s.cup.inbound.length < 64) (f : FaultInfo) :
    (sendFault s f).cup.inbound.length = s.cup.inbound.length + 1 := by
  obtain ⟨-, hin, -, -⟩ | ⟨hfull, -, -, -⟩ := sendFault_spec s f
  · rw [hin, List.length_append, List.length_singleton]
  · omega

theorem cupLog_fields (at_ : BitVec 16) (hops : Nat) (no : BitVec 32) (rtt : Nat) (hhops : hops < 16) :
    let log := BitVec.ofNat 128 (at_.toNat + hops * 2 ^ 16 + no.toNat * 2 ^ 64 + rtt * 2 ^ 96)
    fieldB log 0 16 = at_ ∧ fieldN log 16 4 = hops ∧ fieldB log 64 32 = no := by
  have hat := at_.isLt
  have hno := no.isLt
  refine ⟨?_, ?_, ?_⟩
  · rw [fieldB_ofNat _ _ _ _ (by decide)]
    exact BitVec.eq_of_toNat_eq (by rw [BitVec.toNat_ofNat]; omega)
  · rw [fieldN_ofNat _ _ _ _ (by decide)]
    omega
  · rw [fieldB_ofNat _ _ _ _ (by decide)]
    exact BitVec.eq_of_toNat_eq (by rw [BitVec.toNat_ofNat]; omega)

theorem sameBytes_cup (s : State) (x : CupHub) : sameBytes s { s with cup := x } := sameBytes_of_stores rfl rfl rfl

theorem sameBytes_cupBegin (s : State) : sameBytes s (cupBegin s) := by
  refine sameBytes.trans (runAll_rel sameBytes.refl sameBytes.trans (fun t n => ?_) (s.pots.map fun e => BitVec.ofNat 5 e.1) s)
    (sameBytes_cup ..)
  split
  · exact .refl t
  · exact sameBytes_updPot ..

section Own
variable {s : State} {n : PotIx} {k : BitVec 1} {h : MsgHdr} (hown : ownNode s h.dst = true)
include hown

/-- RESYNC sets the CT of its entry port (R372). -/
theorem resync_sets {lossy : Bool} (hm : msgHere s n k 8 h) (hroom : (portOf (potOf s n) k.toNat).deferral.length < 256) :
    runsTo (.resync n k h lossy) s fun t =>
      ctOf (portOf (potOf t n) k.toNat) (ctKey h.src h.srcPot) = ⟨h.sseq, [], h.sseq⟩ ∧ sameBytes s t := by
  obtain ⟨hct, hbytes⟩ := resyncAt_spec n k h (msgTaken s n k 8)
  exact ⟨_, (if_neg (by simpa using hroom)).trans (takeMsg_own hown hm), hct, (portsOnly_msgTaken s n k 8).sameBytes.trans hbytes⟩

/-- CMD in plain memory (R343, R373). -/
theorem cmd_offline {p : Word64} {level : BitVec 3} {hd : Line} {op : List Byte} {q : Nat} (hm : msgHere s n k 9 h)
    (hoff : s.hfe.pimOff = true) (hq : pickPort (msgTaken s n k 9) (nodeId s) 0 h.src = some q)
    (hnew : ∀ c ∈ s.hfe.table, c.id ≠ s.hfe.nextId) :
    runsTo (.cmd n k h p level hd op) s fun t =>
      msgSent (msgTaken s n k 9) t q 0xA (ownHdr s 0 h.src h.sseq h.tag h.infusion 0) (bytesOfNat 1 0 ++ bytesOfNat 4 0) ∧
      (cmdOf t s.hfe.nextId).any (fun c => c.status == some .pimOffline && c.remoteOf == some (h.src, h.sseq, 0)) = true ∧
      sameBytes s t := by
  have htaken := portsOnly_msgTaken s n k 9
  have hhfe := onlyHfe_remoteCmdOffline (msgTaken s n k 9) h p level hd
  have hport : pickPort (remoteCmdOffline (msgTaken s n k 9) h p level hd) (nodeId (remoteCmdOffline (msgTaken s n k 9) h p level hd)) 0
      h.src = some q := by rw [hhfe.pickPort, hhfe.nodeId, htaken.nodeId, hq]
  have hhdr : ownHdr s 0 h.src h.sseq h.tag h.infusion 0 =
      ownHdr (remoteCmdOffline (msgTaken s n k 9) h p level hd) 0 h.src h.sseq h.tag h.infusion 0 := by
    rw [hhfe.ownHdr]
    rw [ownHdr, ownHdr, htaken.nodeId, htaken.drz]
  refine ⟨_, takeMsg_own hown hm, ?_⟩
  rw [cmdArrive_offline (s := msgTaken s n k 9) hoff hnew, sendMsg_some hport, hhdr]
  refine ⟨hhfe.msgSent (msgSent_txPush ..), ?_, htaken.sameBytes.trans (hhfe.sameBytes.trans (linkStands_txPush ..).bytes)⟩
  have hcmd (fs : List Flit) : cmdOf (txPush (remoteCmdOffline (msgTaken s n k 9) h p level hd) q fs) s.hfe.nextId = _ :=
    cmdOf_remoteCmdOffline (s := msgTaken s n k 9) hnew
  rw [hcmd]
  simp [remoteCmd]

/-- RESOLVED sets the member's EXPECTED (R374). -/
theorem resolved_sets {rec : BitVec 4} {ex : BitVec 32} {r : RemoteReq} {c key : Nat} (hm : msgHere s n k 0xA h)
    (hfind : (potOf s (reqPot h.sseq)).remote.find? (fun x => x.id == h.sseq) = some r) (hmember : r.what = .member c key) :
    runsTo (.resolved n k h rec ex) s fun t =>
      t = updPart (msgTaken s n k 0xA) c key fun p => if p.state = .waiting then { p with expected := ex.toNat } else p := by
  refine ⟨_, takeMsg_own hown hm, ?_⟩
  simp only [resolvedArrive, (portsOnly_msgTaken s n k 0xA).remote, hfind, hmember]

/-- PARTIAL that finds no request (R49, R374). -/
theorem partial_late {rec : BitVec 4} {st : Status} {fl : BitVec 3} {ex an : BitVec 32} {v : List Byte} (hm : msgHere s n k 0xB h)
    (hnone : ∀ x ∈ (potOf s (reqPot h.sseq)).remote, x.id ≠ h.sseq) :
    runsTo (.partialResult n k h rec st fl ex an v) s fun t =>
      t = { msgTaken s n k 0xB with hfe := { s.hfe with lateCount := satField s.hfe.lateCount 0 32 1 } } := by
  refine ⟨_, takeMsg_own hown hm, ?_⟩
  have hpull : pullFirst (fun (x : RemoteReq) => x.id == h.sseq) (potOf s (reqPot h.sseq)).remote = none :=
    pullFirst_eq_none fun x hx => by simpa using hnone x hx
  simp only [partialArrive, takeRemote, (portsOnly_msgTaken s n k 0xB).remote, hpull, Option.map_none, countLate]
  rfl

/-- NODE_LOST (R366). -/
theorem nodeLost_loses {node : BitVec 16} (hm : msgHere s n k 0xC h) (hnode : node.toNat < 4096) :
    runsTo (.nodeLost n k h node) s fun t => (routeOf t node).lost = true ∧ sameBytes s t := by
  have htaken := (portsOnly_msgTaken s n k 0xC).sameBytes
  refine ⟨_, takeMsg_own (effect := fun t => if (routeOf t node).lost then t else declareLost t node) hown hm, ?_⟩
  dsimp only
  split
  · next hlost => exact ⟨hlost, htaken⟩
  · exact ⟨declareLost_lost _ hnode, htaken.trans (syncStands_declareLost ..).sameBytes⟩

/-- PARTIAL of a member that waits (R374). -/
theorem partial_answers {rec : BitVec 4} {st : Status} {fl : BitVec 3} {ex an : BitVec 32} {v : List Byte} {r : RemoteReq}
    {rest : List RemoteReq} {c key : Nat} {cm : Cmd} {p : Part} (hm : msgHere s n k 0xB h)
    (hpull : pullFirst (fun (x : RemoteReq) => x.id == h.sseq) (potOf s (reqPot h.sseq)).remote = some (r, rest))
    (hmember : r.what = .member c key) (hof : memberOf s key = some (cm, p)) (hw : p.state = .waiting) :
    runsTo (.partialResult n k h rec st fl ex an v) s fun t =>
      (potOf t (reqPot h.sseq)).remote = rest ∧ sameBytes s t ∧
      ∃ cm' p', memberOf t key = some (cm', p') ∧
        p' = { p with state := .answered, expected := ex.toNat, answered := an.toNat, status := st, isPartial := bitAt fl 0,
                      poison := bitAt fl 1,
                      res := resOfBytes (((cmdOf s c).map fun c => lfRed c.header).getD 0) (bitAt fl 2) v } := by
  have htaken := portsOnly_msgTaken s n k 0xB
  refine ⟨_, takeMsg_own hown hm, ?_⟩
  simp only [partialArrive, takeRemote_some htaken hpull, hmember]
  have hhfe := fun a => onlyHfe_takeAnswer (requestTaken (msgTaken s n k 0xB) h.sseq rest) a
  have hanswered := memberOf_takeAnswer (s := requestTaken (msgTaken s n k 0xB) h.sseq rest)
    (a := ⟨key, ex.toNat, an.toNat, st, bitAt fl 0, bitAt fl 1,
      resOfBytes (((cmdOf s c).map fun c => lfRed c.header).getD 0) (bitAt fl 2) v, 0, none⟩) hof hw
  refine ⟨?_, (sameBytes_requestTaken htaken ..).trans (hhfe _).sameBytes, _, _, hanswered, rfl⟩
  rw [(hhfe _).potOf_eq, requestTaken_remote]

theorem exec_mgmt {mk : Byte} {origin : BitVec 16} {no : BitVec 32} {hops : BitVec 4} (hm : msgHere s n k 0xD h) :
    exec (.mgmt n k h mk origin no hops) s = .next (
      if mk = 1 then cupFollow n k origin no hops (msgTaken s n k 0xD)
      else
        sendFault (msgTaken s n k 0xD)
          { status := 0, tag := h.tag, infusion := h.infusion, island := potIsland n (16 + k.toNat), block := 6, cause := 3,
            addr := h.addr.toNat, detail := portNo n k, detail2 := h.src.toNat }) :=
  takeMsg_own (effect := fun t =>
    if mk = 1 then cupFollow n k origin no hops t
    else
      sendFault t { status := 0, tag := h.tag, infusion := h.infusion, island := potIsland n (16 + k.toNat), block := 6, cause := 3,
                    addr := h.addr.toNat, detail := portNo n k, detail2 := h.src.toNat }) hown hm

/-- A CUPPING without FOLLOW (R509). -/
theorem mgmt_ignored {origin : BitVec 16} {no : BitVec 32} {hops : BitVec 4} (hm : msgHere s n k 0xD h)
    (hfollow : bitAt s.cup.ctl 2 = false) :
    runsTo (.mgmt n k h 1 origin no hops) s fun t => t = msgTaken s n k 0xD := by
  refine ⟨cupFollow n k origin no hops (msgTaken s n k 0xD), (exec_mgmt hown hm).trans (congrArg _ (if_pos rfl)), ?_⟩
  rw [cupFollow, (portsOnly_msgTaken s n k 0xD).cup, hfollow]
  rfl

/-- One that is followed (R509). -/
theorem mgmt_follows {origin : BitVec 16} {no : BitVec 32} {hops : BitVec 4} (hm : msgHere s n k 0xD h)
    (hfollow : bitAt s.cup.ctl 2 = true) (hsend : bitAt s.cup.ctl 3 = false) (hidle : cupBusy s = false)
    (hnew : ¬ (fieldB s.cup.log 0 16 = logOrigin s origin ∧ fieldB s.cup.log 64 32 = no)) :
    runsTo (.mgmt n k h 1 origin no hops) s fun t =>
      fieldB t.cup.log 0 16 = logOrigin s origin ∧ fieldB t.cup.log 64 32 = no ∧
      fieldN t.cup.log 16 4 = (hops.toNat + 1) % 16 ∧ sameBytes s t := by
  have htaken := portsOnly_msgTaken s n k 0xD
  refine ⟨cupFollow n k origin no hops (msgTaken s n k 0xD), (exec_mgmt hown hm).trans (congrArg _ (if_pos rfl)), ?_⟩
  have horigin : logOrigin (msgTaken s n k 0xD) origin = logOrigin s origin := by
    rw [logOrigin, ownNode, htaken.nodeId, logOrigin, ownNode]
  have hbusy : cupBusy (msgTaken s n k 0xD) = false := by rw [cupBusy, htaken.cup, ← cupBusy, hidle]
  have hguard : (!bitAt s.cup.ctl 2 || (fieldB s.cup.log 0 16 == logOrigin s origin && fieldB s.cup.log 64 32 == no)) = false := by
    simpa [hfollow] using hnew
  simp only [cupFollow, htaken.cup, horigin, hguard, hbusy, hsend, Bool.false_eq_true, if_false]
  obtain ⟨h0, h16, h64⟩ := cupLog_fields (logOrigin s origin) ((hops.toNat + 1) % 16) no
    (portOf (potOf (msgTaken s n k 0xD) n) k.toNat).rttNs.toNat (Nat.mod_lt _ (by decide))
  exact ⟨h0, h64, h16, htaken.sameBytes.trans ((sameBytes_cupBegin _).trans (sameBytes_cup ..))⟩

/-- MGMT of another kind records a fault (R509, R514). -/
theorem mgmt_faults {mk : Byte} {origin : BitVec 16} {no : BitVec 32} {hops : BitVec 4} (hm : msgHere s n k 0xD h) (hkind : mk ≠ 1)
    (hroom : s.cup.inbound.length < 64) :
    runsTo (.mgmt n k h mk origin no hops) s fun t =>
      t.cup.inbound.length = s.cup.inbound.length + 1 ∧ t.pots = (msgTaken s n k 0xD).pots ∧ sameBytes s t := by
  have htaken := portsOnly_msgTaken s n k 0xD
  refine ⟨_, (exec_mgmt hown hm).trans (congrArg Host.Outcome.next (if_neg hkind)), ?_, sendFault_pots .., ?_⟩
  · rw [sendFault_inbound_length (htaken.cup.symm ▸ hroom), htaken.cup]
  · exact htaken.sameBytes.trans (sameBytes_sendFault ..)

end Own

/-- A READ_REQ for another node goes on with one hop fewer (R365). -/
theorem readReq_forwards {s : State} {n : PotIx} {k : BitVec 1} {h : MsgHdr} {b : BitVec 12} {q : Nat} (hother : ownNode s h.dst = false)
    (hm : msgHere s n k 2 h) (hhops : h.hops ≠ 0) (hq : pickPort (msgTaken s n k 2) h.src h.srcPot h.dst = some q) :
    runsTo (.readReq n k h b) s fun t =>
      msgSent (msgTaken s n k 2) t q 2 { h with hops := h.hops - 1 } (bytesOfNat 4 b.toNat) ∧ sameBytes s t := by
  refine ⟨_, takeMsg_other hother hm, ?_⟩
  simp only [forwardMsg, if_neg hhops, hq]
  exact ⟨msgSent_txPush .., (portsOnly_msgTaken s n k 2).sameBytes.trans (linkStands_txPush ..).bytes⟩

end Sys2Proof.Machine

namespace Sys2Proof.Machine

/-! ### An operation of a node that a port reaches leaves the links (R309, R311)

Whatever an operation comes to at its sync unit, the completions go to the nodes of its agent and of the parked entries. While those are
reached, they are messages queued at a port, and nothing else of a port changes. -/

/-- Some port reaches the node, whichever pot asks. -/
def nodeHasPort (s : State) (d : BitVec 16) : Prop := ∀ n, pickPort s (nodeId s) n d ≠ none

theorem LinkStands.reached {s t : State} (h : LinkStands s t) {d : BitVec 16} (hd : nodeHasPort s d) : nodeHasPort t d :=
  fun n hn => hd n (h.reaches.1 hn)

/-! The attempts and re-evaluation keep the entries' agents. -/

/-- An attempt leaves the list of entries, and what it parks has the agent that it had. -/
def TryKeeps (c : Snc) (o : Waiter) : SyncTry → Prop
  | .done c' _ => c'.waiters = c.waiters
  | .park c' o' _ => c'.waiters = c.waiters ∧ o'.agent = o.agent

theorem pairRelease_waiters (c : Snc) (i : Nat) : (pairRelease c i).waiters = c.waiters := by
  rw [pairRelease]
  split
  · rfl
  · rfl

theorem tryKeeps_tryBwait (c : Snc) (o : Waiter) : TryKeeps c o (tryBwait c o) := by
  simp only [tryBwait]
  split
  · split
    · exact rfl
    · exact pairRelease_waiters ..
  · split
    · exact rfl
    · exact ⟨rfl, rfl⟩

theorem TryKeeps.of_waiters {c d : Snc} {o : Waiter} {t : SyncTry} (h : TryKeeps c o t) (hcd : c.waiters = d.waiters) : TryKeeps d o t := by
  cases t with
  | done e st => exact Eq.trans h hcd
  | park e p skew => exact ⟨h.1.trans hcd, h.2⟩

theorem tryKeeps_tryArrive (c : Snc) (o : Waiter) : TryKeeps c o (tryArrive c o) := by
  simp only [tryArrive]
  split
  · exact rfl
  · split
    · exact ⟨rfl, rfl⟩
    · split
      · exact rfl
      · split
        · exact pairRelease_waiters ..
        · exact (tryKeeps_tryBwait ..).of_waiters (pairRelease_waiters ..)

theorem tryKeeps_tryOp (c : Snc) (o : Waiter) : TryKeeps c o (tryOp c o) := by
  simp only [tryOp]
  split
  · exact rfl
  · exact rfl
  · split
    · exact ⟨rfl, rfl⟩
    · exact rfl
  · split
    · exact rfl
    · exact ⟨rfl, rfl⟩
  · split
    · exact rfl
    · exact ⟨rfl, rfl⟩
  · exact rfl
  · rw [tryBarrier]
    split
    · exact rfl
    · split
      · exact tryKeeps_tryBwait ..
      · exact tryKeeps_tryArrive ..

section Settle
variable {P : Agent → Prop}

/-- What completed and what is parked belong to agents with a property. -/
def AgentsAll (P : Agent → Prop) (ws : List Waiter) (out : SyncOut) : Prop := (∀ o ∈ ws, P o.agent) ∧ ∀ x ∈ out, P x.1.agent

theorem agentsAll_retryList (fw : Nat) (sel : Waiter → Bool) {ws : List Waiter} {r : Snc × SyncOut} (h : AgentsAll P ws r.2) :
    AgentsAll P (retryList fw sel ws r).2 (retryList fw sel ws r).1.2 := by
  induction ws generalizing r with
  | nil => exact h
  | cons o ws ih =>
    obtain ⟨hws, hout⟩ := h
    obtain ⟨ho, hrest⟩ := List.forall_mem_cons.1 hws
    rw [retryList]
    split
    · have hkeeps := tryKeeps_tryOp r.1 o
      split
      · next c st htry =>
        refine ih ⟨hrest, fun x hx => ?_⟩
        rcases List.mem_append.1 hx with hx | hx
        · exact hout x hx
        · rw [List.mem_singleton.1 hx]
          exact ho
      · next c o1 skew htry =>
        rw [htry] at hkeeps
        obtain ⟨-, hagent⟩ := hkeeps
        obtain ⟨hparked, hdone⟩ := ih (r := (c, r.2)) ⟨hrest, hout⟩
        exact ⟨List.forall_mem_cons.2 ⟨hagent ▸ ho, hparked⟩, hdone⟩
    · obtain ⟨hparked, hdone⟩ := ih ⟨hrest, hout⟩
      exact ⟨List.forall_mem_cons.2 ⟨ho, hparked⟩, hdone⟩

theorem agentsAll_settlePass (fw ix : Nat) {r : Snc × SyncOut} (h : AgentsAll P r.1.waiters r.2) :
    AgentsAll P (settlePass fw ix r).1.waiters (settlePass fw ix r).2 := by
  have hrelease : ∀ b : Bool, (if b = true then pairRelease r.1 (ix / 2 * 2) else r.1).waiters = r.1.waiters := by
    intro b
    split
    · exact pairRelease_waiters ..
    · rfl
  simp only [settlePass]
  refine agentsAll_retryList fw _ (agentsAll_retryList fw _ ?_)
  rw [hrelease]
  exact h

theorem agentsAll_settle (fw ix fuel : Nat) {r : Snc × SyncOut} (h : AgentsAll P r.1.waiters r.2) :
    AgentsAll P (settle fw ix fuel r).1.waiters (settle fw ix fuel r).2 := by
  induction fuel generalizing r with
  | zero => exact h
  | succ f ih =>
    rw [settle]
    split
    · exact ih (agentsAll_settlePass fw ix h)
    · exact agentsAll_settlePass fw ix h

end Settle

/-! The operation itself. -/

section Links
variable {s : State} {n : PotIx} {d : BitVec 16}

theorem linkStands_setSnc (s : State) (n : PotIx) (c : Snc) : LinkStands s (setSnc s n c) := linkStands_updPot rfl

theorem linkStands_sncCount (s : State) (n : PotIx) (lo len : Nat) : LinkStands s (sncCount s n lo len) := linkStands_updPot rfl

theorem linkStands_sncReply {x : Waiter × Status × BitVec 128} (hx : agentNode x.1.agent = some d) (hd : nodeHasPort s d) :
    LinkStands s (sncReply n s x) := by
  unfold sncReply
  split
  · next e p id hagent =>
    rw [hagent] at hx
    obtain rfl : e = d := Option.some.inj hx
    exact linkStands_sendMsg (hd n) ..
  · next hagent =>
    cases ha : x.1.agent with
    | remote e p id => exact absurd ha (hagent e p id)
    | sequencer m e => rw [ha] at hx; cases hx
    | brewerSlot m c k => rw [ha] at hx; cases hx
    | hubSlot c k => rw [ha] at hx; cases hx
    | hostCmd id => rw [ha] at hx; cases hx

theorem linkStands_replies {out : SyncOut} (hout : ∀ x ∈ out, agentNode x.1.agent = some d) (hd : nodeHasPort s d) :
    LinkStands s (runAll (sncReply n) out s) := by
  induction out generalizing s with
  | nil => exact .refl s
  | cons x out ih =>
    obtain ⟨hx, hrest⟩ := List.forall_mem_cons.1 hout
    have hfirst : LinkStands s (sncReply n s x) := linkStands_sncReply hx hd
    exact hfirst.trans (ih hrest (hfirst.reached hd))

theorem linkStands_breakWord {o : Waiter} {ix : Nat} (hws : ∀ x ∈ (potOf s n).snc.waiters, agentNode x.agent = some d)
    (hd : nodeHasPort s d) : LinkStands s (breakWord s n o ix) := by
  unfold breakWord
  have hfault : ∀ c, LinkStands s (sncFault (setSnc s n c) n o ix 1 .poisoned) := fun c =>
    (linkStands_setSnc s n c).trans (linkStands_sendFault ..)
  refine (hfault _).trans (linkStands_replies (d := d) (fun x hx => ?_) ((hfault _).reached hd))
  obtain ⟨w, hw, rfl⟩ := List.mem_map.1 hx
  exact hws w (List.mem_filter.1 hw).1

theorem linkStands_sncReport {o : Waiter} (hws : ∀ x ∈ (potOf s n).snc.waiters, agentNode x.agent = some d) (hd : nodeHasPort s d) :
    LinkStands s (sncReport s n o) := by
  unfold sncReport
  dsimp only
  split
  · exact linkStands_breakWord hws hd
  · exact .refl s

/-- Settled completions leave, and what is then found unsound is reported. -/
theorem linkStands_settled {u : State} {o : Waiter} {c : Snc} {out : SyncOut} (hu : LinkStands s u)
    (h : AgentsAll (fun a => agentNode a = some d) c.waiters out) (hd : nodeHasPort s d) :
    LinkStands s (sncReport (runAll (sncReply n) out (setSnc u n c)) n o) := by
  obtain ⟨hws, hout⟩ := h
  have hset := hu.trans (linkStands_setSnc u n c)
  have hreplies := hset.trans (linkStands_replies (n := n) hout (hset.reached hd))
  have hstands : SyncStands (setSnc u n c) (runAll (sncReply n) out (setSnc u n c)) :=
    syncStands_runAll (fun t x => syncStands_sncReply n t x) _ _
  refine hreplies.trans (linkStands_sncReport (fun x hx => hws x ?_) (hreplies.reached hd))
  have hin := (hstands.pot n).waiters x hx
  rwa [setSnc, potOf_updPot_same] at hin

variable {o : Waiter} (ho : agentNode o.agent = some d) (hws : ∀ x ∈ (potOf s n).snc.waiters, agentNode x.agent = some d)
  (hd : nodeHasPort s d)
include ho hws hd

theorem linkStands_sncRun (again : Bool) : LinkStands s (sncRun s n o again) := by
  have hkeeps := tryKeeps_tryOp (potOf s n).snc o
  unfold sncRun
  dsimp only
  split
  · next c st htry =>
    rw [htry] at hkeeps
    refine linkStands_settled (.refl s) (agentsAll_settle _ _ _ ⟨?_, ?_⟩) hd
    · rw [hkeeps]
      exact hws
    · exact fun x hx => by rw [List.mem_singleton.1 hx]; exact ho
  · next c o1 skew htry =>
    rw [htry] at hkeeps
    obtain ⟨hwaiters, hagent⟩ := hkeeps
    split
    · have hfree : LinkStands s { s with freeCtr := s.freeCtr + 1 } :=
        linkStands_of_ports (fun _ => rfl) rfl (sameBytes_of_stores rfl rfl rfl)
      refine linkStands_settled hfree (agentsAll_settle _ _ _ ⟨fun x hx => ?_, fun x hx => absurd hx List.not_mem_nil⟩) hd
      rcases List.mem_append.1 hx with hx | hx
      · exact hws x (hwaiters ▸ hx)
      · rw [List.mem_singleton.1 hx]
        exact hagent ▸ ho
    · split
      · exact linkStands_setSnc ..
      · exact linkStands_setSnc ..

omit hws in
theorem linkStands_sncFreed : LinkStands s (sncFreed s n o) := by
  have hcount := linkStands_sncCount s n 80 16
  unfold sncFreed
  dsimp only
  split
  · exact hcount.trans (linkStands_sncReply ho (hcount.reached hd))
  · split
    · exact hcount.trans (linkStands_sncReply ho (hcount.reached hd))
    · have hfault : LinkStands s (sncFault (sncCount s n 80 16) n o o.index.toNat 3 .rejected) := hcount.trans (linkStands_sendFault ..)
      exact hfault.trans (linkStands_sncReply ho (hfault.reached hd))

theorem linkStands_sncChecked (again : Bool) : LinkStands s (sncChecked s n o again) := by
  unfold sncChecked
  dsimp only
  split
  · exact linkStands_sncReply ho hd
  · split
    · have hbreak := fun ix => linkStands_breakWord (o := o) (ix := ix) hws hd
      exact (hbreak _).trans (linkStands_sncReply ho ((hbreak _).reached hd))
    · split
      · exact linkStands_sncReply ho hd
      · split
        · exact linkStands_sncFreed ho hd
        · exact linkStands_sncRun ho hws hd again

/-- An operation that arrives leaves the links. -/
theorem linkStands_sncArrive : LinkStands s (sncArrive s n o) := by
  have hcount := linkStands_sncCount s n 0 40
  unfold sncArrive
  dsimp only
  split
  · exact hcount.trans (linkStands_setSnc ..)
  · refine hcount.trans (linkStands_sncChecked ho ?_ (hcount.reached hd) false)
    rw [sncCount, potOf_updPot_same]
    exact hws

end Links
end Sys2Proof.Machine

namespace Sys2Proof.Machine

/-! ### Deferred operations, acknowledgements and routes (R311, R312, R364, R366, R371, R372) -/

/-- The deferral table of a port is `rest`. -/
def deferralLeft (s : State) (n : PotIx) (k : BitVec 1) (rest : List Deferred) : State :=
  updPort s n k fun p => { p with deferral := rest }

theorem portsOnly_deferralLeft (s : State) (n : PotIx) (k : BitVec 1) (rest : List Deferred) : PortsOnly s (deferralLeft s n k rest) :=
  portsOnly_updPort ..

theorem deferral_deferralLeft (s : State) (n : PotIx) (k : BitVec 1) (rest : List Deferred) :
    (portOf (potOf (deferralLeft s n k rest) n) k.toNat).deferral = rest := by rw [deferralLeft, portOf_updPort_same]

theorem nodeHasPort_deferralLeft {s : State} {n : PotIx} {k : BitVec 1} {rest : List Deferred} {a : BitVec 16} {m : PotIx} {d : BitVec 16}
    (h : pickPort s a m d ≠ none) : nodeHasPort (deferralLeft s n k rest) d := by
  have hstate := portOf_setPort_rel (R := fun p q => q.state = p.state) (fun _ => rfl) (s := s) (n := n) (i := k.toNat)
    (x := { portOf (potOf s n) k.toNat with deferral := rest }) rfl
  exact fun i hi => h ((pickPort_none_congr (portsOnly_deferralLeft s n k rest).drz hstate).1 hi)

/-- An operation that comes for a sync unit of a node that a port reaches leaves the links (R309). -/
theorem linkStands_remoteArrive {s : State} {n : PotIx} {h : MsgHdr} {id : BitVec 32} {yop : BitVec 4} {cond : BitVec 2} {full : Bool}
    {x : Word64} (hwaiters : (potOf s (fieldB h.addr 0 5)).snc.waiters = []) (hd : nodeHasPort s h.src) :
    LinkStands s (remoteArrive n h id yop cond full x s) := by
  unfold remoteArrive
  dsimp only
  split
  · exact linkStands_sncArrive (d := h.src) rfl (fun o ho => absurd (hwaiters ▸ ho) List.not_mem_nil) hd
  · exact linkStands_sncReply (d := h.src) rfl hd

/-- The operation that a port releases leaves its table (R311). -/
theorem deferredOpRelease_leaves {s : State} {n : PotIx} {k : BitVec 1} {d : Deferred} {rest : List Deferred}
    (hpull : pullFirst (mayLeave (portOf (potOf s n) k.toNat)) (portOf (potOf s n) k.toNat).deferral = some (d, rest))
    (hport : pickPort s (nodeId s) n d.hdr.src ≠ none) (hwaiters : (potOf s (fieldB d.hdr.addr 0 5)).snc.waiters = []) :
    runsTo (.deferredOpRelease n k) s fun t => (portOf (potOf t n) k.toNat).deferral = rest ∧ sameBytes s t := by
  have hexec : exec (.deferredOpRelease n k) s =
      .next (remoteArrive n d.hdr d.reqId d.yop 0 d.full d.operand (deferralLeft s n k rest)) := by
    show execDeferredOpRelease n k s = _
    simp only [execDeferredOpRelease, hpull, deferralLeft]
  have hleft := portsOnly_deferralLeft s n k rest
  have hlinks : LinkStands (deferralLeft s n k rest) (remoteArrive n d.hdr d.reqId d.yop 0 d.full d.operand (deferralLeft s n k rest)) :=
    linkStands_remoteArrive (by rw [hleft.snc, hwaiters]) (nodeHasPort_deferralLeft hport)
  exact ⟨_, hexec, by rw [hlinks.deferral, deferral_deferralLeft], hleft.sameBytes.trans hlinks.bytes⟩

theorem strandRecord_eq (s : State) (n : PotIx) (x : Deferred) : ∃ f, strandRecord s n x = sendFault (sncCount s n 56 16) f :=
  ⟨_, rfl⟩

theorem fieldN_satField_same {w : Nat} (x : BitVec w) {lo len : Nat} (by_ : Nat) (h : lo + len ≤ w) :
    fieldN (satField x lo len by_) lo len = min (2 ^ len - 1) (fieldN x lo len + by_) := by
  have hpos := Nat.two_pow_pos len
  have hlt : min (2 ^ len - 1) (fieldN x lo len + by_) < 2 ^ len := by omega
  exact (fieldN_putField_same _ _ _ _ h).trans (Nat.mod_eq_of_lt hlt)

/-- The answer to a dropped operation is queued at a port that reaches its node. -/
theorem strandReply_eq {s : State} {x : Deferred} (hd : nodeHasPort s x.src) (n : PotIx) :
    ∃ q fs, strandReply n s x = txPush s q fs := by
  obtain ⟨q, hq⟩ := Option.ne_none_iff_exists'.1 (hd n)
  exact ⟨q, _, sendMsg_some hq ..⟩

/-- The operation that has waited too long leaves the table, counted and answered (R311). -/
theorem strandTimeout_strands {s : State} {n : PotIx} {k : BitVec 1} {d : Deferred} {rest : List Deferred}
    (hpull : pullFirst (fun d => !seqLe d.cover (ctOf (portOf (potOf s n) k.toNat) (ctKey d.src d.srcPot)).ct)
      (portOf (potOf s n) k.toNat).deferral = some (d, rest))
    (hport : pickPort s (nodeId s) n d.src ≠ none) :
    runsTo (.strandTimeout n k) s fun t =>
      (portOf (potOf t n) k.toNat).deferral = rest ∧ (∀ m, (potOf t m).snc.words = (potOf s m).snc.words) ∧
      fieldN (potOf t n).snc.events 56 16 = min (2 ^ 16 - 1) (fieldN (potOf s n).snc.events 56 16 + 1) ∧ sameBytes s t := by
  have hexec : exec (.strandTimeout n k) s = .next (strandReply n (strandRecord (deferralLeft s n k rest) n d) d) := by
    show execStrandTimeout n k s = _
    simp only [execStrandTimeout, hpull, deferralLeft]
  have hleft := portsOnly_deferralLeft s n k rest
  obtain ⟨f, hf⟩ := strandRecord_eq (deferralLeft s n k rest) n d
  have hrecord : LinkStands (deferralLeft s n k rest) (strandRecord (deferralLeft s n k rest) n d) := by
    rw [hf]
    exact (linkStands_sncCount ..).trans (linkStands_sendFault ..)
  have hstands := syncStands_strandRecord (deferralLeft s n k rest) n d
  obtain ⟨q, fs, hreply⟩ := strandReply_eq (hrecord.reached (nodeHasPort_deferralLeft hport)) n
  have hlinks := hrecord.trans (linkStands_txPush (strandRecord (deferralLeft s n k rest) n d) q fs)
  have hsnc := (portsOnly_txPush (strandRecord (deferralLeft s n k rest) n d) q fs).snc
  refine ⟨_, hexec.trans (congrArg _ hreply), ?_, fun m => ?_, ?_, hleft.sameBytes.trans hlinks.bytes⟩
  · rw [hlinks.deferral, deferral_deferralLeft]
  · rw [hsnc, (hstands.pot m).words, hleft.snc]
  · rw [hsnc, hf, potOf_sendFault, sncCount, potOf_updPot_same, ← hleft.snc n]
    exact fieldN_satField_same _ 1 (by decide)

/-- An advance of CT is acknowledged (R371). -/
theorem streamAckTimer_acknowledges {s : State} {n : PotIx} {k : BitVec 1} {src : BitVec 16} {sp : PotIx}
    (hlive : portLive (portOf (potOf s n) k.toNat) = true)
    (hct : (ctOf (portOf (potOf s n) k.toNat) (ctKey src sp)).ct ≠ (ctOf (portOf (potOf s n) k.toNat) (ctKey src sp)).acked) :
    runsTo (.streamAckTimer n k src sp) s fun t =>
      ctOf (portOf (potOf t n) k.toNat) (ctKey src sp) = { ctOf (portOf (potOf s n) k.toNat) (ctKey src sp) with
        acked := (ctOf (portOf (potOf s n) k.toNat) (ctKey src sp)).ct } ∧ sameBytes s t := by
  have hexec : exec (.streamAckTimer n k src sp) s = .next (sendStreamAck s n k src sp) := by
    show execStreamAckTimer n k src sp s = _
    rw [execStreamAckTimer, hlive, bne_iff_ne.2 hct]
    rfl
  exact ⟨_, hexec, ctOf_sendStreamAck .., sameBytes_sendStreamAck ..⟩

/-! Routes. -/

/-- The route table's entry of a node is `r`. -/
def routeSet (s : State) (d : BitVec 16) (r : Route) : State :=
  { s with drz := { s.drz with routes := tset s.drz.routes d.toNat r } }

theorem routeOf_routeSet (s : State) (d : BitVec 16) (r : Route) : routeOf (routeSet s d r) d = r := tget_tset_same ..

theorem eligible_routeSet (s : State) (d : BitVec 16) (r : Route) : eligible (routeSet s d r) d = (upto 64).filter (bitAt r.ports) := by
  rw [eligible, routeOf_routeSet]

theorem sameBytes_routeSet (s : State) (d : BitVec 16) (r : Route) : sameBytes s (routeSet s d r) := sameBytes_of_stores rfl rfl rfl

/-- A write of an entry: it is not lost while one of its ports is UP; a node that loses its last one is lost (R364, R366). -/
theorem exec_sptRouteWrite {s : State} {d : BitVec 12} {ports : Word64} (hon : hubOn s = true) :
    let e : BitVec 16 := d.setWidth 16
    let written := routeSet s e ⟨ports, (routeOf s e).lost⟩
    exec (.sptRouteWrite d ports) s = .next (
      if ((upto 64).any fun q => bitAt ports q && (portAt s q).state == .up) = true then routeSet written e ⟨ports, false⟩
      else if (((eligible s e).any fun q => (portAt s q).state == .up) && !(routeOf s e).lost) = true then declareLost written e
      else written) := by
  intro e written
  have hd : e.toNat = d.toNat := by
    rw [BitVec.toNat_setWidth]
    exact Nat.mod_eq_of_lt (by omega)
  have hup : ((eligible written e).any fun q => (portAt written q).state == .up) =
      (upto 64).any fun q => bitAt ports q && (portAt s q).state == .up := by
    rw [eligible_routeSet, List.any_filter]
    rfl
  show execSptRouteWrite d ports s = _
  rw [← hup, execSptRouteWrite, ← hd, hon]
  rfl

theorem sptRouteWrite_changes {s : State} {d : BitVec 12} {ports : Word64} (hon : hubOn s = true) :
    let e : BitVec 16 := d.setWidth 16
    let up := (upto 64).any fun q => bitAt ports q && (portAt s q).state == .up
    runsTo (.sptRouteWrite d ports) s fun t =>
      (routeOf t e).ports = ports ∧ sameBytes s t ∧ (up = true → (routeOf t e).lost = false) ∧
      (up = false → ((eligible s e).any fun q => (portAt s q).state == .up) = true → (routeOf t e).lost = true) ∧
      (up = false → ((eligible s e).any fun q => (portAt s q).state == .up) = false →
        (routeOf t e).lost = (routeOf s e).lost) := by
  intro e up
  have hbytes := sameBytes_routeSet s e ⟨ports, (routeOf s e).lost⟩
  have hd : e.toNat < 4096 := by
    rw [BitVec.toNat_setWidth]
    omega
  refine ⟨_, exec_sptRouteWrite hon, ?_⟩
  beta_reduce
  by_cases hup : up = true
  · rw [if_pos hup, routeOf_routeSet]
    exact ⟨rfl, hbytes.trans (sameBytes_routeSet ..), fun _ => rfl, fun h => absurd (hup.symm.trans h) (by decide),
      fun h => absurd (hup.symm.trans h) (by decide)⟩
  · rw [if_neg hup]
    split
    · next hlose =>
      obtain ⟨hwas, -⟩ := Bool.and_eq_true_iff.1 hlose
      have hloss := syncStands_declareLost (routeSet s e ⟨ports, (routeOf s e).lost⟩) e
      refine ⟨?_, hbytes.trans hloss.sameBytes, fun h => absurd h hup, fun _ _ => declareLost_lost _ hd,
        fun _ h => absurd (hwas.symm.trans h) (by decide)⟩
      rw [hloss.ports, routeOf_routeSet]
    · next hkeep =>
      rw [routeOf_routeSet]
      refine ⟨rfl, hbytes, fun h => absurd h hup, fun _ hwas => ?_, fun _ _ => rfl⟩
      rw [hwas] at hkeep
      simpa using hkeep

/-- Firmware clears a stream's LOSSY flag (R372). -/
theorem lossyClear_clears {s : State} {n : PotIx} {d : BitVec 12} (hon : potOn s n = true) :
    runsTo (.lossyClear n d) s fun t =>
      onlyPot n s t ∧ potOf t n = { potOf s n with streams := (potOf t n).streams } ∧
      streamEnt (potOf t n) (d.setWidth 16) = { streamEnt (potOf s n) (d.setWidth 16) with lossy := false } ∧
      ∀ e, e ≠ d.setWidth 16 → streamEnt (potOf t n) e = streamEnt (potOf s n) e := by
  have hexec : exec (.lossyClear n d) s = .next (updPot s n fun p =>
      setStream p (d.setWidth 16) { streamEnt p (d.setWidth 16) with lossy := false }) := by
    show execLossyClear n d s = _
    rw [execLossyClear, hon]
    rfl
  refine ⟨_, hexec, onlyPot_updPot .., ?_, ?_, fun e he => ?_⟩
  · rw [potOf_updPot_same]
    rfl
  · rw [potOf_updPot_same, streamEnt, setStream, tget_tset_same]
  · rw [potOf_updPot_same, streamEnt, setStream, tget_tset_other _ _ _ _ _ fun h => he (BitVec.eq_of_toNat_eq h), streamEnt]

/-- Settles O56: a message at the front of its channel has the effect of its type (`takeMsg_own`) or is forwarded (`takeMsg_other`);
each clause is the lemma of its message. -/
theorem messagesTakeEffect : Obligations.MessagesTakeEffect := by
  unfold Obligations.MessagesTakeEffect
  refine ⟨fun s n k h => ⟨fun hown => ?own, ?forwarded⟩, fun s n k d rest => ⟨?release, ?strand⟩, ?ackTimer, ?route, ?lossy⟩
  case own =>
    refine ⟨?write, ?readReq, ?readRsp, fun id yop full x hm hroom => ⟨?defer, ?signal⟩, ?syncReq, ?syncRsp, ?streamAck, ?resync,
      ?cmd, ?resolved, ?late, ?answer, ?nodeLost, fun mk origin no hops hm => ⟨?ignored, ?follows, ?otherKind⟩⟩
    case write => exact fun data poison hm hlen hmem hon hpot => write_commits hown hm hlen hmem hon hpot
    case readReq => exact fun b q hm hq hon => readReq_answers hown hm hq hon
    case readRsp => exact fun st data poison r rest key hm hpull hrow => readRsp_fills hown hm hpull hrow
    case defer => exact fun hcover => syncChg_defers hown hm hroom hcover
    case signal =>
      rintro hcover hfirst rfl m ix hpot hix hon hready hwaiters hheld
      exact syncChg_signals hown hm hroom hcover hfirst hpot hix hon hready hwaiters hheld
    case syncReq => exact fun cond x hm hon hwaiters hheld hready => syncReq_reads hown hm hon hwaiters hheld hready
    case syncRsp => exact fun st view r rest c j hm hpull hslot => syncRsp_completes hown hm hpull hslot
    case streamAck => exact fun ct hm hpath hlo hhi hheld => streamAck_moves hown hm hpath hlo hhi hheld
    case resync => exact fun lossy hm hroom => resync_sets hown hm hroom
    case cmd => exact fun p level hd op q hm hoff hq hnew => cmd_offline hown hm hoff hq hnew
    case resolved => exact fun rec ex r c key hm hfind hmember => resolved_sets hown hm hfind hmember
    case late => exact fun rec st fl ex an v hm hnone => partial_late hown hm hnone
    case answer =>
      exact fun rec st fl ex an v r rest c key cm p hm hpull hmember hof hw => partial_answers hown hm hpull hmember hof hw
    case nodeLost => exact fun node hm hnode => nodeLost_loses hown hm hnode
    case ignored =>
      rintro rfl hfollow
      exact mgmt_ignored hown hm hfollow
    case follows =>
      rintro rfl hfollow hsend hidle hnew
      exact mgmt_follows hown hm hfollow hsend hidle hnew
    case otherKind => exact fun hkind hroom => mgmt_faults hown hm hkind hroom
  case forwarded => exact fun b q hother hm hhops hq => readReq_forwards hother hm hhops hq
  case release => exact fun hpull hport hwaiters _ => deferredOpRelease_leaves hpull hport hwaiters
  case strand => exact fun hpull hport => strandTimeout_strands hpull hport
  case ackTimer => exact fun s n k src sp hlive hct => streamAckTimer_acknowledges hlive hct
  case route => exact fun s d ports hon => sptRouteWrite_changes hon
  case lossy => exact fun s n d hon => lossyClear_clears hon

end Sys2Proof.Machine
